-- ==== Sys2Proof/Word.lean ====
section
/-! DEFINITION. The word types of the Adyon architecture, the numbers that name its parts (R11, R14, R15, R28), the
closed sets of names that steps carry, and the finite tables State is made of. -/

namespace Sys2Proof

/-- A general register (R34). -/
abbrev Word := BitVec 32
/-- An instruction word, a pointer, a latch or a register pair (R34, R36, R48, R169). -/
abbrev DWord := BitVec 64
/-- The smallest addressed unit of memory (R5). -/
abbrev Byte := BitVec 8

/-- A compute die: the package's chip number and %die (R11, R23). -/
structure DieId where
  chip : Nat
  die  : Nat
deriving DecidableEq, Repr, Inhabited

/-- A core by its logical number (R14). -/
structure CoreId where
  chip : Nat
  die  : Nat
  core : Nat
deriving DecidableEq, Repr, Inhabited

/-- An issue quadrant (R15). -/
structure QuadId where
  chip : Nat
  die  : Nat
  core : Nat
  quad : Nat
deriving DecidableEq, Repr, Inhabited

/-- A cohort: CHIP, DIE, CORE and GRID name one (R283). -/
structure CohortId where
  chip : Nat
  die  : Nat
  core : Nat
  grid : Nat
deriving DecidableEq, Repr, Inhabited

/-- A thread: its cohort and %tid (R28). -/
structure ThreadId where
  cohort : CohortId
  tid    : Nat
deriving DecidableEq, Repr, Inhabited

def QuadId.toCore (q : QuadId) : CoreId := ⟨q.chip, q.die, q.core⟩
def QuadId.toDie (q : QuadId) : DieId := ⟨q.chip, q.die⟩
def CoreId.toDie (c : CoreId) : DieId := ⟨c.chip, c.die⟩
def CohortId.toCore (c : CohortId) : CoreId := ⟨c.chip, c.die, c.core⟩
def CohortId.toDie (c : CohortId) : DieId := ⟨c.chip, c.die⟩

/-- What an array reports on an access or a scrub (R367, R411). -/
inductive Upset where
  | none            -- no error
  | corrected       -- corrected, counted and logged
  | dram            -- uncorrectable DRAM error
  | mac             -- MAC failure
  | l2Dirty         -- uncorrectable error in a dirty L2 line
  | regFile         -- uncorrectable error in registers, latches or tiles of the requesting cohort
  | triplicated     -- multi-bit error in presence bits, tags, guard slots or arrival registers
  | parity          -- parity error in L2 tags, locator or translation caches
  | staging         -- uncorrectable error in the Pump's staging SRAM
  | lockkeeper      -- uncorrectable error in the active lockkeeper's SRAM
  | cistern         -- uncorrectable error in the cistern line of the access
  | counter         -- a counter block that fails its check
  | flit            -- a flit that fails its link's check
  | core (array : Nat) -- corrected, in an array of the requesting core
deriving DecidableEq, Repr, Inhabited

/-- The physical function's register pages (R186, R302, R321, R334, R358, R383, R413). -/
inductive HostPage where
  | objectSpace | scheduling | isolation | recovery
deriving DecidableEq, Repr, Inhabited

/-- A scale-out frame as the hub die receives it (R218, R219). -/
structure Frame where
  port    : Nat          -- scale-out port 0 to 7
  checked : Bool         -- passed IEEE 802.1AE checking
  udpPort : Nat          -- destination port of the UDP datagram
  data    : List Byte    -- the datagram, landing header first
deriving DecidableEq, Repr, Inhabited

/-- One object declaration of a program (R208): its symbol by number, its size, its birth chip, the extent size, whether it is
pinned, the symbol whose group it joins, its initial contents with the symbols that stand in them (offset and symbol), and where a
pointer to it stands in memory. -/
structure ObjectDecl where
  name  : Nat
  size  : Nat
  chip  : Option Nat := none
  log2  : Nat := 21
  pin   : Bool := false
  group : Option Nat := none
  init  : List Byte := []
  inside : List (Nat × Nat) := []
  patch : List DWord := []
deriving DecidableEq, Repr, Inhabited

/-- A program as the host tools post it: which one, and its object declarations in source order (R208). -/
structure Program where
  id    : Nat := 0
  decls : List ObjectDecl := []
deriving DecidableEq, Repr, Inhabited

/-- One step of a die's Pump: which transaction it takes or how far it goes, and the error that then strikes it (R302, R411). -/
structure PumpTurn where
  pick  : Nat
  upset : Upset := .none
deriving DecidableEq, Repr, Inhabited

/-- The function whose ring's next packet is consumed, and the program that the packet's launch is of (R321, R208). -/
structure RingTurn where
  vf   : Nat
  prog : Program := {}
deriving DecidableEq, Repr, Inhabited

/-- The 64-byte line (die-local address divided by 64) that is written back, and the error that then strikes it (R366, R412). -/
structure LineTurn where
  line  : Nat
  upset : Upset := .none
deriving DecidableEq, Repr, Inhabited

/-- What a core's failing leaves: the grids whose cohort state on it cannot be saved, and whether a logic check failed (R408). -/
structure CoreLoss where
  grids : List Nat
  check : Bool
deriving DecidableEq, Repr, Inhabited

/-- Row n of a bank, or bank n of a layer (R409). -/
structure SpareUnit where
  part : Nat
  n    : Nat
deriving DecidableEq, Repr, Inhabited

/-- The package whose module is reset, the physical cores that fail their test, by die, and whether there is a patch image (R417). -/
structure ModuleBoot where
  chip  : Nat
  bad   : List (Nat × Nat) := []
  patch : Bool := false
deriving DecidableEq, Repr, Inhabited

/-- The outcome of checking an update image (R416): the codes of UPDSTAT. -/
inductive UpdateCheck where
  | good | badSignature | versionRefused | fetchFault
deriving DecidableEq, Repr, Inhabited

/-- The kinds of trap (R381). -/
inductive TrapKind where
  | illegalInstruction | illegalOperand | illegalClause | formatDivergence | watchdog | callOverflow | callUnderflow
  | memoryFault | deferredMemory | deferredEngine | resourceWait | software
deriving DecidableEq, Repr, Inhabited

/-- The code of a trap kind (R381), which is also its entry in the vector table (R382). -/
def TrapKind.code : TrapKind → Nat
  | .illegalInstruction => 1 | .illegalOperand => 2 | .illegalClause => 3 | .formatDivergence => 4 | .watchdog => 5
  | .callOverflow => 6 | .callUnderflow => 7 | .memoryFault => 8 | .deferredMemory => 9 | .deferredEngine => 10
  | .resourceWait => 11 | .software => 12

/-- A finite table: a list of keys and values in which a key occurs once. -/
abbrev Tab (κ : Type) (ν : Type) := List (κ × ν)

/-- The value at a key, if any. -/
def Tab.get? {κ ν : Type} [DecidableEq κ] : Tab κ ν → κ → Option ν
  | [], _ => none
  | (k', v) :: t, k => if k' = k then some v else Tab.get? t k

/-- The value at a key, or a default. -/
def Tab.getD {κ ν : Type} [DecidableEq κ] (t : Tab κ ν) (k : κ) (d : ν) : ν := (Tab.get? t k).getD d

/-- The table with a value at a key, in place where the key occurs and at the end where it does not. -/
def Tab.put {κ ν : Type} [DecidableEq κ] : Tab κ ν → κ → ν → Tab κ ν
  | [], k, v => [(k, v)]
  | (k', v') :: t, k, v => if k' = k then (k, v) :: t else (k', v') :: Tab.put t k v

/-- The table without a key. -/
def Tab.del {κ ν : Type} [DecidableEq κ] : Tab κ ν → κ → Tab κ ν
  | [], _ => []
  | (k', v') :: t, k => if k' = k then Tab.del t k else (k', v') :: Tab.del t k

/-- The table with every value changed. -/
def Tab.map {κ ν : Type} (t : Tab κ ν) (f : κ → ν → ν) : Tab κ ν := List.map (fun p => (p.1, f p.1 p.2)) t

/-- The table of the entries that meet a test. -/
def Tab.keep {κ ν : Type} (t : Tab κ ν) (f : κ → ν → Bool) : Tab κ ν := List.filter (fun p => f p.1 p.2) t

end Sys2Proof
end

