-- ==== Sys2Proof/Syntax.lean ====
section
/-! DEFINITION. The instructions of the GX9: one constructor for each row of spec/opcode_table.json, in the table's
order within words and within steps. A word carries the fields of R48; a step of an agent carries what it acts on. -/

namespace Sys2Proof

/-- The fields of an instruction word (R48) and its literal word (R52), which is zero where FORM is not 11. -/
structure Fields where
  ge   : Bool
  gs   : Bool
  gp   : BitVec 4
  form : BitVec 2
  nwb  : Bool
  dst  : BitVec 8
  sa   : BitVec 9
  sb   : BitVec 9
  sc   : BitVec 9
  mod  : BitVec 12
  lit  : BitVec 64
deriving DecidableEq, Repr, Inhabited

inductive Instr where
  | iadd (f : Fields)
  | isub (f : Fields)
  | imul (f : Fields)
  | imad (f : Fields)
  | imulhi (f : Fields)
  | idivs (f : Fields)
  | idivu (f : Fields)
  | imin (f : Fields)
  | imax (f : Fields)
  | shl (f : Fields)
  | shr (f : Fields)
  | sar (f : Fields)
  | lop3 (f : Fields)
  | bfe (f : Fields)
  | bfi (f : Fields)
  | popc (f : Fields)
  | clz (f : Fields)
  | brev (f : Fields)
  | isetp (f : Fields)
  | sel (f : Fields)
  | mov (f : Fields)
  | klog (f : Fields)
  | iadd64 (f : Fields)
  | isub64 (f : Fields)
  | imul64 (f : Fields)
  | imad64 (f : Fields)
  | imulhi64 (f : Fields)
  | idivs64 (f : Fields)
  | idivu64 (f : Fields)
  | imin64 (f : Fields)
  | imax64 (f : Fields)
  | shl64 (f : Fields)
  | shr64 (f : Fields)
  | sar64 (f : Fields)
  | isetp64 (f : Fields)
  | mov64 (f : Fields)
  | opadd (f : Fields)
  | opdiff (f : Fields)
  | opmake (f : Fields)
  | opext (f : Fields)
  | lea (f : Fields)
  | fadd (f : Fields)
  | fmul (f : Fields)
  | ffma (f : Fields)
  | fmin (f : Fields)
  | fmax (f : Fields)
  | fsetp (f : Fields)
  | frcp (f : Fields)
  | frsq (f : Fields)
  | fexp2 (f : Fields)
  | flog2 (f : Fields)
  | fsub (f : Fields)
  | pkadd (f : Fields)
  | pkmul (f : Fields)
  | pkfma (f : Fields)
  | pkmin (f : Fields)
  | pkmax (f : Fields)
  | cvt (f : Fields)
  | cvt64 (f : Fields)
  | tpack (f : Fields)
  | tunpack (f : Fields)
  | ld (f : Fields)
  | st (f : Fields)
  | ldo (f : Fields)
  | sto (f : Fields)
  | ldAcq (f : Fields)
  | stRel (f : Fields)
  | ldoAcq (f : Fields)
  | stoRel (f : Fields)
  | ctag (f : Fields)
  | cfill (f : Fields)
  | cevict (f : Fields)
  | cevictWb (f : Fields)
  | cpres (f : Fields)
  | copy (f : Fields)
  | kick (f : Fields)
  | oalloc (f : Fields)
  | ofree (f : Fields)
  | opin (f : Fields)
  | ounpin (f : Fields)
  | ocoloc (f : Fields)
  | ocolocLeave (f : Fields)
  | olocate (f : Fields)
  | olocateGuess (f : Fields)
  | omigrate (f : Fields)
  | osplit (f : Fields)
  | ostubfree (f : Fields)
  | oinfo (f : Fields)
  | atomAdd (f : Fields)
  | atomMin (f : Fields)
  | atomMax (f : Fields)
  | atomAnd (f : Fields)
  | atomOr (f : Fields)
  | atomXor (f : Fields)
  | atomXchg (f : Fields)
  | atomCas (f : Fields)
  | atomIncb (f : Fields)
  | atomDecb (f : Fields)
  | atomWcas (f : Fields)
  | atomTadd (f : Fields)
  | arrive (f : Fields)
  | arriveBytes (f : Fields)
  | await (f : Fields)
  | fence (f : Fields)
  | ballot (f : Fields)
  | shfl (f : Fields)
  | creduce (f : Fields)
  | cscan (f : Fields)
  | cvote (f : Fields)
  | nbset (f : Fields)
  | mmag (f : Fields)
  | mmaq (f : Fields)
  | mdrain (f : Fields)
  | mdrainZonly (f : Fields)
  | gres (f : Fields)
  | gcancel (f : Fields)
  | tfetch (f : Fields)
  | launchq (f : Fields)
  | xsend (f : Fields)
  | xfetch (f : Fields)
  | xadd (f : Fields)
  | pumppost (f : Fields)
  | pumppostCancel (f : Fields)
  | bra (f : Fields)
  | brx (f : Fields)
  | callRelative (f : Fields)
  | callIndirect (f : Fields)
  | ret (f : Fields)
  | exit (f : Fields)
  | wait (f : Fields)
  | yield (f : Fields)
  | nop (f : Fields)
  | trap (f : Fields)
  | tret (f : Fields)
  | tretSkip (f : Fields)
  | sread (f : Fields)
  | swrite (f : Fields)
  | tstamp (f : Fields)
  | winopen (f : Fields)
  | winrel (f : Fields)
  | winacq (f : Fields)
  | winclose (f : Fields)
  | keyqEpoch (f : Fields)
  | keyqWepoch (f : Fields)
  | keyqReport (f : Fields)
  /-- R332: the bundle former of q forms at most one bundle. -/
  | formBundle (q : QuadId)
  /-- R280: a crew's watchdog timer at the crew clause pc passes its limit. -/
  | progressWatchdog (c : CohortId) (crew : Nat) (pc : DWord)
  /-- R235, R159: the thread's next pending deferred fault is delivered. -/
  | deferredFaultDelivery (t : ThreadId)
  /-- R393: ten milliseconds under a pool's back-pressure, at a held word or of an operation. -/
  | resourceWait (t : ThreadId) (op : Option Nat)
  /-- R344: a WAIT's cycles elapse. -/
  | waitExpiry (t : ThreadId)
  /-- R343: a draining thread ends. -/
  | exitDrainComplete (t : ThreadId)
  /-- R40: a value from chip-local or host-window space, or a clock sample, lands. -/
  | responseArrives (op : Nat)
  /-- R178: a request for a global pointer arrives at the chip it was sent to. -/
  | accessRequest (op : Nat) (upset : Upset)
  /-- R178: the birth chip's Wellhead forwards a request or ends it. -/
  | wellheadRequest (op : Nat)
  /-- R179. -/
  | served (op : Nat)
  /-- R179. -/
  | noObject (op : Nat)
  /-- R179. -/
  | faultResponse (op : Nat)
  /-- R179. -/
  | retry (op : Nat)
  /-- R182: a walk for the 64 KiB page (pointer divided by 2^16) completes on die d. -/
  | translationWalk (d : DieId) (page : Nat)
  /-- R185: the decay period of a function's objects ends at a holder. -/
  | decayPeriod (chip : Nat) (vf : Nat)
  /-- R187: the destination reserves frames, on the die given. -/
  | framesReserved (mv : Nat) (die : Nat)
  /-- R187. -/
  | framesRefused (mv : Nat)
  /-- R187. -/
  | copyDoneCommit (mv : Nat)
  /-- R187. -/
  | wellheadCommit (mv : Nat)
  /-- R187, R189. -/
  | commitAck (mv : Nat)
  /-- R225: the next chunk of a copy's share is written. -/
  | copyChunkWrite (op : Nat) (share : Nat)
  /-- R229. -/
  | copyComplete (op : Nat)
  /-- R241: the next record of a KICK is fetched. -/
  | kickRecordFetch (op : Nat)
  /-- R240: one line read of a CFILL completes. -/
  | cfillLine (op : Nat) (line : Nat)
  /-- R240: the next line of a CEVICT.WB is written back. -/
  | cevictWbLine (op : Nat)
  /-- R218. -/
  | frameReceived (chip : Nat) (frame : Frame)
  /-- R236: a store reaches the KICK register. -/
  | kickRegister (op : Nat)
  /-- R222: a store to LRCFG that sets ENABLE. -/
  | lrcfgEnable (op : Nat)
  /-- R222: a store to LRCFG that clears ENABLE. -/
  | lrcfgDisable (op : Nat)
  /-- R221. -/
  | lrconsWrite (op : Nat)
  /-- R268. -/
  | arrivalContribution (msg : Nat)
  /-- R144. -/
  | matrixStep (q : QuadId)
  /-- R149. -/
  | rowCountReread (q : QuadId)
  /-- R165, R166. -/
  | matrixDrain (q : QuadId)
  /-- R142. -/
  | matrixCommandComplete (op : Nat)
  /-- R154. -/
  | guardSlotResolve (msg : Nat)
  /-- R153. -/
  | shadowCommit (q : QuadId) (shadow : Nat)
  /-- R302: the Pump begins its next transaction or goes on with one; turn.pick chooses among them. -/
  | pumpTransaction (d : DieId) (turn : PumpTurn)
  /-- R292. -/
  | transferComplete (op : Nat)
  /-- R284. -/
  | signalAtTarget (msg : Nat)
  /-- R292. -/
  | linkTimeout (op : Nat)
  /-- R299. -/
  | workEntryFire (d : DieId) (slot : Nat)
  /-- R300. -/
  | workEntryRearm (d : DieId) (slot : Nat)
  /-- R303. -/
  | reductionSlotSum (domain : Nat) (group : Nat)
  /-- R321. -/
  | srprod (chip : Nat) (vf : Nat) (value : Word)
  /-- R321, R208: the packet's launch is of a program, whose object declarations the lockkeeper allocates. -/
  | packetConsume (chip : Nat) (ring : RingTurn)
  /-- R323: the distributor places the next cohort of a partition. -/
  | cohortPlace (chip : Nat) (part : Nat)
  /-- R161. -/
  | cohortEnd (c : CohortId)
  /-- R325. -/
  | gridEnd (chip : Nat) (grid : Nat)
  /-- R329. -/
  | dispenserFetch (op : Nat)
  /-- R335. -/
  | sluiceTick (chip : Nat)
  /-- R335: a write to SLUICE. -/
  | sluice (chip : Nat) (vf : Nat) (value : DWord)
  /-- R357: a QOWN write, or with none the pending change taking effect. -/
  | qown (q : QuadId) (write : Option Word)
  /-- R370. -/
  | keyCommand (chip : Nat) (blob : List Byte)
  /-- R366. -/
  | dramLineWriteback (d : DieId) (turn : LineTurn)
  /-- R374. -/
  | windowScrubComplete (chip : Nat) (grant : Nat)
  /-- R394. -/
  | preemptRequest (chip : Nat) (vf : Nat)
  /-- R395. -/
  | deferralLimit (chip : Nat) (vf : Nat)
  /-- R388. -/
  | handlerPreemptLimit (t : ThreadId)
  /-- R396. -/
  | contextSaved (chip : Nat) (vf : Nat)
  /-- R399. -/
  | contextResume (chip : Nat) (vf : Nat)
  /-- R401. -/
  | vfctlKill (chip : Nat) (vf : Nat)
  /-- R402. -/
  | vfctlReset (chip : Nat) (vf : Nat)
  /-- R401, step 5. -/
  | killReclaim (chip : Nat) (vf : Nat)
  /-- R403. -/
  | dlctlRound (chip : Nat) (vf : Nat)
  /-- R404. -/
  | dlctlScan (chip : Nat) (vf : Nat)
  /-- R408. -/
  | coreRetire (c : CoreId) (loss : CoreLoss)
  /-- R409: a row of a bank is spared, or where bank holds a bank of a layer. -/
  | dramSpare (d : DieId) (bank : Bool) (unit : SpareUnit)
  /-- R410. -/
  | laneFailure (d : DieId) (port : Nat)
  /-- R410. -/
  | laneRetrainDone (d : DieId) (port : Nat)
  /-- R412. -/
  | counterRebuild (d : DieId) (block : Nat)
  /-- R411. -/
  | lockkeeperSramScrub (chip : Nat) (upset : Upset)
  /-- R415. -/
  | heartbeat (chip : Nat) (missed : Bool)
  /-- R415. -/
  | takeOver (chip : Nat)
  /-- R416. -/
  | lkupd (chip : Nat) (image : DWord)
  /-- R416. -/
  | liveUpdateTakeover (chip : Nat) (check : UpdateCheck)
  /-- R417. -/
  | moduleReset (boot : ModuleBoot)
  /-- R418: the hottest junction reads temp, in 0.125 °C. -/
  | thermalThreshold (chip : Nat) (temp : Nat)
  /-- R368. -/
  | linkRekey (d : DieId) (port : Nat)
  /-- R339: a message that steps the clock by so many nanoseconds, or 0. -/
  | ptpMessage (chip : Nat) (step : Int)
  /-- R6. -/
  | registerWrite (chip : Nat) (page : HostPage) (offset : Nat) (value : BitVec 128)
  /-- R175. -/
  | wellheadObjectRequest (op : Nat)
  /-- R239, R256. -/
  | storeCompletion (op : Nat)
  /-- R303. -/
  | reductionSlotReply (op : Nat)
  /-- R368. -/
  | mkaMessage (chip : Nat) (port : Nat)
deriving DecidableEq, Repr, Inhabited

end Sys2Proof
end

