-- ==== Sys2Proof/Machine/Encoding.lean ====
section
/-! DEFINITION. The encoding tables: the opcode of each word (R65), the operands that its description gives each field
(R50 to R60 and each instruction's own table), and the checks that depend only on a clause's words, the register
count and the cohort's grants (R61). -/

namespace Sys2Proof

/-- Bits hi down to lo of x (R8). -/
def bitsOf (x hi lo : Nat) : Nat := x / 2 ^ lo % 2 ^ (hi + 1 - lo)

/-- x as an n-bit two's-complement value (R8, sext). -/
def sextN (x n : Nat) : Int := if x / 2 ^ (n - 1) % 2 = 1 then (x % 2 ^ n : Int) - 2 ^ n else (x % 2 ^ n : Nat)

/-- x mod 2^n (R95, wrap). -/
def wrapN (x : Int) (n : Nat) : Nat := (x % (2 ^ n : Nat)).toNat

/-- A source field (R53). -/
inductive Src where
  | reg (n : Nat) | latch (n : Nat) | const (n : Nat) | reserved
deriving DecidableEq, Repr

def srcOf (x : BitVec 9) : Src :=
  let v := x.toNat
  if v < 256 then .reg v
  else if v < 264 then .latch (v - 256)
  else if v ≥ 384 ∧ v % 8 = 0 then .const ((v - 384) / 8)
  else .reserved

/-- What a description makes of a source field. -/
inductive SrcRole where
  | zero                       -- unused: zero (R56, R97)
  | s32 | s64                  -- a 32-bit or 64-bit source (R53)
  | a32 | a64                  -- an address base: no inline constant (R54)
  | regOnly (wide : Bool)      -- a general register or pair and no other kind of field (R260, R279)
  | pred                       -- a predicate (R37)
  | ctl (ok : Bool)            -- a control field, and whether its value is defined (R56)
  | group (n align : Nat)      -- a register group (R260)
  | greg (wide : Bool)         -- a general register or pair only (R277)
  | params (first last : Nat)  -- a transfer's parameter group: the offsets read are first to last and 2 (R286)
deriving DecidableEq, Repr

/-- What a description makes of DST. -/
inductive DstRole where
  | zero | r32 | r64 | r128 | r4 | pred | slot | ctl (ok : Bool)
deriving DecidableEq, Repr

/-- What a description makes of MOD (R58). -/
inductive ModRole where
  | zero | modifier | engine | free
deriving DecidableEq, Repr

/-- The operand pattern of a word: forms accepted, and whether it has a general-register result that may go to a latch (R55). -/
structure Roles where
  dst      : DstRole
  a        : SrcRole
  b        : SrcRole
  c        : SrcRole
  mod      : ModRole
  forms    : List Nat
  res      : Bool
  crewOnly : Bool := false
  tile     : Option Nat := none
deriving DecidableEq, Repr

/-- The control field in SC, which reads zero in FORM 01 (R96). -/
def Fields.ctl (f : Fields) : Nat := if f.form = 1 then 0 else f.sc.toNat
/-- The control field of GRES, which reads zero in FORMs 01 and 11 (R167). -/
def Fields.gresCtl (f : Fields) : Nat := if f.form = 0 then f.sc.toNat else 0

def roundOk (r : Nat) : Bool := r < 6
def cmpOk (c : Nat) : Bool := c < 6 ∨ (9 ≤ c ∧ c < 13)
def packOk (c : Nat) : Bool := c % 4 < 3 ∧ c / 4 % 8 < (if c % 4 = 1 then 5 else 4)
/-- The 64-bit special registers (R345). -/
def wide (sel : Nat) : Bool := sel = 0x0D ∨ sel = 0x0E ∨ (0x10 ≤ sel ∧ sel ≤ 0x15)

def plain : Roles := { dst := .zero, a := .zero, b := .zero, c := .zero, mod := .zero, forms := [0], res := false }
def alu2 (_ : Fields) (ok : Bool) : Roles :=
  { dst := .r32, a := .s32, b := .s32, c := .ctl ok, mod := .modifier, forms := [0, 1, 3], res := true }
def alu3 : Roles := { dst := .r32, a := .s32, b := .s32, c := .s32, mod := .modifier, forms := [0, 3], res := true }
def alu64 (f : Fields) (ok : Bool) : Roles := { alu2 f ok with dst := .r64, a := .s64, b := .s64 }
/-- MOV and MOV.64 (R111). -/
def movRoles (f : Fields) (d : DstRole) (s : SrcRole) : Roles :=
  if f.form = 0 then { dst := d, a := s, b := .zero, c := .zero, mod := .modifier, forms := [0, 1, 3], res := true }
  else { dst := d, a := .zero, b := s, c := .zero, mod := .zero, forms := [0, 1, 3], res := true }
/-- CVT and CVT.64 (R121). -/
def cvtRoles (f : Fields) (isWide : Bool) : Roles :=
  let sf := bitsOf f.sa.toNat 7 4
  let df := bitsOf f.sa.toNat 3 0
  let ok := sf ≠ 6 ∧ sf ≠ 7 ∧ df ≠ 6 ∧ df ≠ 7 ∧ (isWide = decide (sf ≥ 14 ∨ df ≥ 14))
  { dst := if df ≥ 14 then .r64 else .r32, a := .ctl ok, b := if sf ≥ 14 then .s64 else .s32,
    c := .ctl (f.ctl < 8 ∧ roundOk f.ctl ∧ (sf ≥ 8 ∧ df ≥ 8 → f.ctl = 0)), mod := .modifier, forms := [0, 1, 3], res := true }
/-- The eight access words (R237). -/
def access (f : Fields) (store ordered : Bool) (base : SrcRole) : Roles :=
  let v := f.sb.toNat
  let size := v % 8
  let ok := v < 256 ∧ size < (if store then 5 else 7) ∧ v / 64 < 3 ∧ (ordered = false → v / 8 % 8 = 0)
  { dst := if size = 3 then .r64 else if size = 4 then .r128 else .r32, a := base, b := .ctl ok, c := .zero, mod := .zero,
    forms := [2], res := false }
/-- The object-space words (R199). -/
def obj : Roles := { plain with dst := .r32, a := .a64, mod := .modifier }
/-- The atomics (R260, R261). -/
def atomic (f : Fields) (t : Bool) : Roles :=
  let v := f.ctl
  let w := v / 32 % 2 = 1
  { dst := if w then .r64 else .r32, a := .a64, b := if w then .s64 else .s32,
    c := .ctl (v < 128 ∧ t ∧ (v / 8 % 4 = 0 → v % 8 = 0)), mod := .modifier, forms := [0, 1, 3], res := false }
/-- CREDUCE and CSCAN (R278). -/
def reduce (f : Fields) (ok : Bool) : Roles :=
  let v := f.ctl
  let w := v / 16 % 2 = 1
  { plain with dst := if w then .r64 else .r32, a := if w then .s64 else .s32,
               c := .ctl (ok ∧ v % 16 < 11 ∧ (w → v % 16 < 8)), crewOnly := true }
/-- CVOTE (R279). -/
def vote (f : Fields) : Roles :=
  let v := f.ctl
  let w := v / 4 % 2 = 1
  { plain with dst := if v % 4 = 3 then (if w then .r64 else .r32) else .pred,
               a := if v % 4 < 2 then .pred else .regOnly w,
               c := .ctl (v < 8 ∧ (w → v % 4 ≥ 2)), crewOnly := true }
/-- MMAG, MMAQ and MDRAIN (R141, R162 to R164). -/
def matrix (f : Fields) : Roles :=
  { plain with dst := .ctl (f.dst.toNat < 32), a := .a64, b := .s32, mod := .engine, forms := [0, 3], crewOnly := true,
               tile := some (f.dst.toNat % 4) }
/-- XSEND, XFETCH and XADD (R285, R286). -/
def transfer (f : Fields) (ok : Bool) : Roles :=
  { plain with dst := .ctl ok, a := .a64, b := .a64,
               c := .params (if f.dst.toNat / 2 % 2 = 1 then 0 else 2) (if f.dst.toNat % 2 = 1 then 5 else 2),
               mod := .engine, forms := [0, 3] }
/-- WINREL, WINACQ, WINCLOSE and the KEYQ forms with a pointer (R378, R379). -/
def win (ok : Bool) : Roles := { plain with dst := .r32, a := .a64, c := .ctl ok }

/-- The operand pattern of each word. -/
def Instr.roles : Instr → Roles
  | .iadd f => alu2 f (f.ctl < 3)
  | .isub f => alu2 f (f.ctl < 3)
  | .imul f => alu2 f (f.ctl = 0)
  | .imad _ => alu3
  | .imulhi f => alu2 f (f.ctl < 2)
  | .idivs f => alu2 f (f.ctl < 2)
  | .idivu f => alu2 f (f.ctl < 2)
  | .imin f => alu2 f (f.ctl < 2)
  | .imax f => alu2 f (f.ctl < 2)
  | .shl f => alu2 f (f.ctl = 0)
  | .shr f => alu2 f (f.ctl = 0)
  | .sar f => alu2 f (f.ctl = 0)
  | .lop3 _ => alu3
  | .bfe f => alu2 f (f.ctl < 2)
  | .bfi _ => alu3
  | .popc f => { alu2 f (f.ctl = 0) with b := .zero }
  | .clz f => { alu2 f (f.ctl = 0) with b := .zero }
  | .brev f => { alu2 f (f.ctl = 0) with b := .zero }
  | .isetp f => { alu2 f (cmpOk f.ctl) with dst := .pred, res := false }
  | .sel _ => { alu3 with c := .pred }
  | .mov f => movRoles f .r32 .s32
  | .klog _ => { dst := .pred, a := .pred, b := .s32, c := .pred, mod := .modifier, forms := [0, 3], res := false }
  | .iadd64 f => alu64 f (f.ctl < 3)
  | .isub64 f => alu64 f (f.ctl < 3)
  | .imul64 f => alu64 f (f.ctl = 0)
  | .imad64 _ => { alu3 with dst := .r64, a := .s64, b := .s64, c := .s64 }
  | .imulhi64 f => alu64 f (f.ctl < 2)
  | .idivs64 f => alu64 f (f.ctl < 2)
  | .idivu64 f => alu64 f (f.ctl < 2)
  | .imin64 f => alu64 f (f.ctl < 2)
  | .imax64 f => alu64 f (f.ctl < 2)
  | .shl64 f => { alu64 f (f.ctl = 0) with b := .s32 }
  | .shr64 f => { alu64 f (f.ctl = 0) with b := .s32 }
  | .sar64 f => { alu64 f (f.ctl = 0) with b := .s32 }
  | .isetp64 f => { alu64 f (cmpOk f.ctl) with dst := .pred, res := false }
  | .mov64 f => movRoles f .r64 .s64
  | .opadd f => { alu2 f (f.ctl < 2) with dst := .r64, a := .a64 }
  | .opdiff f => { alu2 f (f.ctl = 0) with a := .s64, b := .s64 }
  | .opmake _ => { alu3 with dst := .r64 }
  | .opext f => { alu2 f (f.ctl < 3) with a := .s64, b := .zero }
  | .lea f => { alu2 f (f.ctl < 32) with dst := .r64, a := .a64 }
  | .fadd f => alu2 f (f.ctl < 16 ∧ roundOk (f.ctl % 8))
  | .fmul f => alu2 f (f.ctl < 16 ∧ roundOk (f.ctl % 8))
  | .ffma _ => alu3
  | .fmin f => alu2 f (f.ctl = 0)
  | .fmax f => alu2 f (f.ctl = 0)
  | .fsetp f => { alu2 f (f.ctl < 15 ∧ f.ctl ≠ 7) with dst := .pred, res := false }
  | .frcp f => { alu2 f (f.ctl < 16 ∧ roundOk (f.ctl % 8)) with b := .zero }
  | .frsq f => { alu2 f (f.ctl < 16 ∧ roundOk (f.ctl % 8)) with b := .zero }
  | .fexp2 f => { alu2 f (f.ctl < 16 ∧ roundOk (f.ctl % 8)) with b := .zero }
  | .flog2 f => { alu2 f (f.ctl < 16 ∧ roundOk (f.ctl % 8)) with b := .zero }
  | .fsub f => alu2 f (f.ctl < 16 ∧ roundOk (f.ctl % 8))
  | .pkadd f => alu2 f (f.ctl < 64 ∧ roundOk (f.ctl / 2 % 8))
  | .pkmul f => alu2 f (f.ctl < 64 ∧ roundOk (f.ctl / 2 % 8))
  | .pkfma f => alu2 f (f.ctl < 64 ∧ roundOk (f.ctl / 2 % 8))
  | .pkmin f => alu2 f (f.ctl < 4)
  | .pkmax f => alu2 f (f.ctl < 4)
  | .cvt f => cvtRoles f false
  | .cvt64 f => cvtRoles f true
  | .tpack f => alu2 f (packOk f.ctl ∧ roundOk (f.ctl / 32 % 8))
  | .tunpack f => { alu2 f (packOk f.ctl ∧ f.ctl < 32) with b := .zero }
  | .ld f => access f false false .a32
  | .st f => access f true false .a32
  | .ldo f => access f false false .a64
  | .sto f => access f true false .a64
  | .ldAcq f => access f false true .a32
  | .stRel f => access f true true .a32
  | .ldoAcq f => access f false true .a64
  | .stoRel f => access f true true .a64
  | .ctag _ => { dst := .r64, a := .a64, b := .zero, c := .zero, mod := .zero, forms := [2], res := false }
  | .cfill _ => { dst := .zero, a := .a64, b := .s32, c := .zero, mod := .zero, forms := [2], res := false }
  | .cevict _ => { plain with b := .s32 }
  | .cevictWb f => { plain with b := .s32, c := .ctl (f.ctl = 1) }
  | .cpres _ => { dst := .r32, a := .a32, b := .zero, c := .zero, mod := .zero, forms := [2], res := false }
  | .copy f => { plain with dst := .ctl (f.dst.toNat < 64), a := .a64, b := .a64, c := if f.dst.toNat / 32 % 2 = 1 then .s64 else .zero, mod := .free, forms := [0, 3] }
  | .kick _ => { plain with a := .a64, b := .s32, forms := [0, 1, 3] }
  | .oalloc f => { plain with dst := .r64, b := .s32, c := .ctl (f.ctl < 10), forms := [0, 1, 3] }
  | .ofree _ => obj
  | .opin _ => obj
  | .ounpin _ => obj
  | .ocoloc _ => { obj with b := .a64 }
  | .ocolocLeave f => { obj with c := .ctl (f.ctl = 1) }
  | .olocate _ => obj
  | .olocateGuess f => { obj with c := .ctl (f.ctl = 1) }
  | .omigrate f => { obj with b := .s32, c := .ctl (f.ctl < 2), forms := [0, 1, 3] }
  | .osplit f => { obj with b := .s32, c := .ctl (f.ctl = 0), forms := [0, 1, 3] }
  | .ostubfree _ => obj
  | .oinfo f => { obj with dst := .r64, c := .ctl (f.ctl < 5) }
  | .atomAdd f => atomic f (f.ctl / 64 % 2 = 1 → f.ctl / 32 % 2 = 0)
  | .atomMin f => atomic f True
  | .atomMax f => atomic f True
  | .atomAnd f => atomic f (f.ctl / 64 % 2 = 0)
  | .atomOr f => atomic f (f.ctl / 64 % 2 = 0)
  | .atomXor f => atomic f (f.ctl / 64 % 2 = 0)
  | .atomXchg f => atomic f (f.ctl / 64 % 2 = 0)
  | .atomCas f => { atomic f (f.ctl / 64 % 2 = 0) with b := if f.ctl / 32 % 2 = 1 then .group 4 4 else .group 2 2, forms := [0] }
  | .atomIncb f => atomic f (f.ctl / 64 % 2 = 0)
  | .atomDecb f => atomic f (f.ctl / 64 % 2 = 0)
  | .atomWcas f => { atomic f (f.ctl < 32) with dst := .r128, b := .group 8 8, forms := [0] }
  | .atomTadd f => { atomic f (f.ctl / 32 % 2 = 0) with dst := .zero, b := .regOnly false, forms := [0] }
  | .arrive f => { plain with c := .ctl (f.ctl < 32) }
  | .arriveBytes f => { plain with b := .s32, c := .ctl (f.ctl < 32), forms := [0, 3] }
  | .await f => { plain with dst := .r64, c := .ctl (f.ctl < 16) }
  | .fence f => { plain with c := .ctl (f.ctl < 32) }
  | .ballot _ => { plain with dst := .r32, a := .pred, crewOnly := true }
  | .shfl f => { plain with dst := if f.ctl / 4 % 2 = 1 then .r64 else .r32, a := .greg (f.ctl / 4 % 2 = 1), b := .s32, c := .ctl (f.ctl < 64 ∧ f.ctl / 8 < 5), crewOnly := true }
  | .creduce f => reduce f (f.ctl < 32)
  | .cscan f => reduce f (f.ctl < 64)
  | .cvote f => vote f
  | .nbset f => { plain with a := .s32, b := .s32, c := .ctl (f.ctl < 16), forms := [0, 3] }
  | .mmag f => { matrix f with forms := [0, 1, 3] }
  | .mmaq f => { matrix f with b := .a64, c := .s32 }
  | .mdrain f => { matrix f with dst := .ctl (f.dst.toNat < 16), c := .s32 }
  | .mdrainZonly f => { matrix f with dst := .ctl (f.dst.toNat < 32 ∧ f.dst.toNat / 8 % 4 = 3), a := .zero, b := .zero }
  | .gres f => { plain with dst := .slot, a := if f.gresCtl = 0 then .pred else .zero, c := if f.form = 3 then .zero else .ctl (f.ctl < 3), forms := [0, 1, 3] }
  | .gcancel _ => { plain with dst := .slot, forms := [0, 1, 3] }
  | .tfetch f => { plain with dst := if f.ctl = 1 then .r32 else .r4, c := .ctl (f.ctl < 2) }
  | .launchq _ => { plain with dst := .r32, a := .a64 }
  | .xsend f => transfer f (f.dst.toNat < 4 ∧ (f.dst.toNat % 2 = 1 → f.mod.toNat / 16 % 2 = 1))
  | .xfetch f => transfer f (f.dst = 0)
  | .xadd f => transfer f (f.dst.toNat < 8 ∧ f.dst.toNat % 2 = 0)
  | .pumppost _ => { plain with dst := .r32, a := .a64, mod := .engine }
  | .pumppostCancel f => { plain with dst := .r32, a := .a64, c := .ctl (f.ctl = 1), mod := .engine }
  | .bra _ => { plain with b := .s32, forms := [0, 1] }
  | .brx _ => { plain with a := .a64, b := .s32, forms := [0, 1] }
  | .callRelative _ => { plain with b := .s32, forms := [1] }
  | .callIndirect _ => { plain with a := .a64, b := .s32 }
  | .ret _ => { plain with forms := [0, 1] }
  | .exit _ => { plain with forms := [0, 1] }
  | .wait _ => { plain with b := .s32, forms := [0, 1] }
  | .yield _ => { plain with forms := [0, 1] }
  | .nop f => { plain with c := .ctl (f.ctl = 0 ∧ f.ge = false), forms := [0, 1] }
  | .trap _ => { plain with b := .s32, forms := [0, 1] }
  | .tret _ => plain
  | .tretSkip f => { plain with c := .ctl (f.ctl = 1) }
  | .sread f => { plain with dst := if wide f.ctl then .r64 else .r32, c := .ctl (f.ctl < 0x16) }
  | .swrite f => { plain with a := if wide f.ctl then .s64 else .s32, c := .ctl (f.ctl < 0x16) }
  | .tstamp _ => { plain with a := .a64 }
  | .winopen f => { plain with dst := .r64, a := .s32, c := .ctl (f.ctl < 2) }
  | .winrel f => win (f.ctl = 0)
  | .winacq f => win (f.ctl = 1)
  | .winclose f => win (f.ctl = 2)
  | .keyqEpoch _ => { plain with dst := .r64 }
  | .keyqWepoch f => { win (f.ctl = 1) with dst := .r64 }
  | .keyqReport f => { win (f.ctl = 2) with dst := .r64 }
  | _ => plain

/-- The major opcode of each word (R65); none for a step of an agent. -/
def Instr.opc : Instr → Option Nat
  | .iadd _ => some 0x00
  | .isub _ => some 0x01
  | .imul _ => some 0x02
  | .imad _ => some 0x03
  | .imulhi _ => some 0x04
  | .idivs _ => some 0x05
  | .idivu _ => some 0x06
  | .imin _ => some 0x08
  | .imax _ => some 0x09
  | .shl _ => some 0x10
  | .shr _ => some 0x11
  | .sar _ => some 0x12
  | .lop3 _ => some 0x13
  | .bfe _ => some 0x14
  | .bfi _ => some 0x15
  | .popc _ => some 0x16
  | .clz _ => some 0x17
  | .brev _ => some 0x18
  | .isetp _ => some 0x19
  | .sel _ => some 0x1A
  | .mov _ => some 0x1B
  | .klog _ => some 0x1C
  | .iadd64 _ => some 0x20
  | .isub64 _ => some 0x21
  | .imul64 _ => some 0x22
  | .imad64 _ => some 0x23
  | .imulhi64 _ => some 0x24
  | .idivs64 _ => some 0x25
  | .idivu64 _ => some 0x26
  | .imin64 _ => some 0x28
  | .imax64 _ => some 0x29
  | .shl64 _ => some 0x2A
  | .shr64 _ => some 0x2B
  | .sar64 _ => some 0x2C
  | .isetp64 _ => some 0x2D
  | .mov64 _ => some 0x2E
  | .opadd _ => some 0x30
  | .opdiff _ => some 0x31
  | .opmake _ => some 0x32
  | .opext _ => some 0x33
  | .lea _ => some 0x34
  | .fadd _ => some 0x40
  | .fmul _ => some 0x41
  | .ffma _ => some 0x42
  | .fmin _ => some 0x43
  | .fmax _ => some 0x44
  | .fsetp _ => some 0x45
  | .frcp _ => some 0x46
  | .frsq _ => some 0x47
  | .fexp2 _ => some 0x48
  | .flog2 _ => some 0x49
  | .fsub _ => some 0x4A
  | .pkadd _ => some 0x50
  | .pkmul _ => some 0x51
  | .pkfma _ => some 0x52
  | .pkmin _ => some 0x53
  | .pkmax _ => some 0x54
  | .cvt _ => some 0x60
  | .cvt64 _ => some 0x61
  | .tpack _ => some 0x62
  | .tunpack _ => some 0x63
  | .ld _ => some 0x80
  | .st _ => some 0x81
  | .ldo _ => some 0x82
  | .sto _ => some 0x83
  | .ldAcq _ => some 0x84
  | .stRel _ => some 0x85
  | .ldoAcq _ => some 0x86
  | .stoRel _ => some 0x87
  | .ctag _ => some 0x88
  | .cfill _ => some 0x89
  | .cevict _ => some 0x8A
  | .cevictWb _ => some 0x8A
  | .cpres _ => some 0x8B
  | .copy _ => some 0x8C
  | .kick _ => some 0x8D
  | .oalloc _ => some 0xA0
  | .ofree _ => some 0xA1
  | .opin _ => some 0xA2
  | .ounpin _ => some 0xA3
  | .ocoloc _ => some 0xA4
  | .ocolocLeave _ => some 0xA4
  | .olocate _ => some 0xA5
  | .olocateGuess _ => some 0xA5
  | .omigrate _ => some 0xA6
  | .osplit _ => some 0xA7
  | .ostubfree _ => some 0xA8
  | .oinfo _ => some 0xA9
  | .atomAdd _ => some 0xB0
  | .atomMin _ => some 0xB1
  | .atomMax _ => some 0xB2
  | .atomAnd _ => some 0xB3
  | .atomOr _ => some 0xB4
  | .atomXor _ => some 0xB5
  | .atomXchg _ => some 0xB6
  | .atomCas _ => some 0xB7
  | .atomIncb _ => some 0xB8
  | .atomDecb _ => some 0xB9
  | .atomWcas _ => some 0xBA
  | .atomTadd _ => some 0xBB
  | .arrive _ => some 0xC0
  | .arriveBytes _ => some 0xC1
  | .await _ => some 0xC2
  | .fence _ => some 0xC3
  | .ballot _ => some 0xC4
  | .shfl _ => some 0xC5
  | .creduce _ => some 0xC6
  | .cscan _ => some 0xC7
  | .cvote _ => some 0xC8
  | .nbset _ => some 0xC9
  | .mmag _ => some 0xD0
  | .mmaq _ => some 0xD1
  | .mdrain _ => some 0xD2
  | .mdrainZonly _ => some 0xD2
  | .gres _ => some 0xD3
  | .gcancel _ => some 0xD4
  | .tfetch _ => some 0xD5
  | .launchq _ => some 0xD6
  | .xsend _ => some 0xD7
  | .xfetch _ => some 0xD8
  | .xadd _ => some 0xD9
  | .pumppost _ => some 0xDA
  | .pumppostCancel _ => some 0xDA
  | .bra _ => some 0xE0
  | .brx _ => some 0xE1
  | .callRelative _ => some 0xE2
  | .callIndirect _ => some 0xE2
  | .ret _ => some 0xE3
  | .exit _ => some 0xE4
  | .wait _ => some 0xE5
  | .yield _ => some 0xE6
  | .nop _ => some 0xE7
  | .trap _ => some 0xF0
  | .tret _ => some 0xF1
  | .tretSkip _ => some 0xF1
  | .sread _ => some 0xF2
  | .swrite _ => some 0xF3
  | .tstamp _ => some 0xF4
  | .winopen _ => some 0xF5
  | .winrel _ => some 0xF6
  | .winacq _ => some 0xF6
  | .winclose _ => some 0xF6
  | .keyqEpoch _ => some 0xF7
  | .keyqWepoch _ => some 0xF7
  | .keyqReport _ => some 0xF7
  | _ => none

/-- The fields of a word; none for a step of an agent. -/
def Instr.fields? : Instr → Option Fields
  | .iadd f => some f
  | .isub f => some f
  | .imul f => some f
  | .imad f => some f
  | .imulhi f => some f
  | .idivs f => some f
  | .idivu f => some f
  | .imin f => some f
  | .imax f => some f
  | .shl f => some f
  | .shr f => some f
  | .sar f => some f
  | .lop3 f => some f
  | .bfe f => some f
  | .bfi f => some f
  | .popc f => some f
  | .clz f => some f
  | .brev f => some f
  | .isetp f => some f
  | .sel f => some f
  | .mov f => some f
  | .klog f => some f
  | .iadd64 f => some f
  | .isub64 f => some f
  | .imul64 f => some f
  | .imad64 f => some f
  | .imulhi64 f => some f
  | .idivs64 f => some f
  | .idivu64 f => some f
  | .imin64 f => some f
  | .imax64 f => some f
  | .shl64 f => some f
  | .shr64 f => some f
  | .sar64 f => some f
  | .isetp64 f => some f
  | .mov64 f => some f
  | .opadd f => some f
  | .opdiff f => some f
  | .opmake f => some f
  | .opext f => some f
  | .lea f => some f
  | .fadd f => some f
  | .fmul f => some f
  | .ffma f => some f
  | .fmin f => some f
  | .fmax f => some f
  | .fsetp f => some f
  | .frcp f => some f
  | .frsq f => some f
  | .fexp2 f => some f
  | .flog2 f => some f
  | .fsub f => some f
  | .pkadd f => some f
  | .pkmul f => some f
  | .pkfma f => some f
  | .pkmin f => some f
  | .pkmax f => some f
  | .cvt f => some f
  | .cvt64 f => some f
  | .tpack f => some f
  | .tunpack f => some f
  | .ld f => some f
  | .st f => some f
  | .ldo f => some f
  | .sto f => some f
  | .ldAcq f => some f
  | .stRel f => some f
  | .ldoAcq f => some f
  | .stoRel f => some f
  | .ctag f => some f
  | .cfill f => some f
  | .cevict f => some f
  | .cevictWb f => some f
  | .cpres f => some f
  | .copy f => some f
  | .kick f => some f
  | .oalloc f => some f
  | .ofree f => some f
  | .opin f => some f
  | .ounpin f => some f
  | .ocoloc f => some f
  | .ocolocLeave f => some f
  | .olocate f => some f
  | .olocateGuess f => some f
  | .omigrate f => some f
  | .osplit f => some f
  | .ostubfree f => some f
  | .oinfo f => some f
  | .atomAdd f => some f
  | .atomMin f => some f
  | .atomMax f => some f
  | .atomAnd f => some f
  | .atomOr f => some f
  | .atomXor f => some f
  | .atomXchg f => some f
  | .atomCas f => some f
  | .atomIncb f => some f
  | .atomDecb f => some f
  | .atomWcas f => some f
  | .atomTadd f => some f
  | .arrive f => some f
  | .arriveBytes f => some f
  | .await f => some f
  | .fence f => some f
  | .ballot f => some f
  | .shfl f => some f
  | .creduce f => some f
  | .cscan f => some f
  | .cvote f => some f
  | .nbset f => some f
  | .mmag f => some f
  | .mmaq f => some f
  | .mdrain f => some f
  | .mdrainZonly f => some f
  | .gres f => some f
  | .gcancel f => some f
  | .tfetch f => some f
  | .launchq f => some f
  | .xsend f => some f
  | .xfetch f => some f
  | .xadd f => some f
  | .pumppost f => some f
  | .pumppostCancel f => some f
  | .bra f => some f
  | .brx f => some f
  | .callRelative f => some f
  | .callIndirect f => some f
  | .ret f => some f
  | .exit f => some f
  | .wait f => some f
  | .yield f => some f
  | .nop f => some f
  | .trap f => some f
  | .tret f => some f
  | .tretSkip f => some f
  | .sread f => some f
  | .swrite f => some f
  | .tstamp f => some f
  | .winopen f => some f
  | .winrel f => some f
  | .winacq f => some f
  | .winclose f => some f
  | .keyqEpoch f => some f
  | .keyqWepoch f => some f
  | .keyqReport f => some f
  | _ => none

/-- The opcode map (R65): each assigned code with the words it encodes. -/
def rowsClass0 : List (Nat × (Fields → Instr)) :=
  [(0x00, .iadd),
   (0x01, .isub),
   (0x02, .imul),
   (0x03, .imad),
   (0x04, .imulhi),
   (0x05, .idivs),
   (0x06, .idivu),
   (0x08, .imin),
   (0x09, .imax),
   (0x10, .shl),
   (0x11, .shr),
   (0x12, .sar),
   (0x13, .lop3),
   (0x14, .bfe),
   (0x15, .bfi),
   (0x16, .popc),
   (0x17, .clz),
   (0x18, .brev),
   (0x19, .isetp),
   (0x1A, .sel),
   (0x1B, .mov),
   (0x1C, .klog),
   (0x20, .iadd64),
   (0x21, .isub64),
   (0x22, .imul64),
   (0x23, .imad64),
   (0x24, .imulhi64),
   (0x25, .idivs64),
   (0x26, .idivu64),
   (0x28, .imin64),
   (0x29, .imax64),
   (0x2A, .shl64),
   (0x2B, .shr64),
   (0x2C, .sar64),
   (0x2D, .isetp64),
   (0x2E, .mov64),
   (0x30, .opadd),
   (0x31, .opdiff),
   (0x32, .opmake),
   (0x33, .opext),
   (0x34, .lea),
   (0x40, .fadd),
   (0x41, .fmul),
   (0x42, .ffma),
   (0x43, .fmin),
   (0x44, .fmax),
   (0x45, .fsetp),
   (0x46, .frcp),
   (0x47, .frsq),
   (0x48, .fexp2),
   (0x49, .flog2),
   (0x4A, .fsub),
   (0x50, .pkadd),
   (0x51, .pkmul),
   (0x52, .pkfma),
   (0x53, .pkmin),
   (0x54, .pkmax),
   (0x60, .cvt),
   (0x61, .cvt64),
   (0x62, .tpack),
   (0x63, .tunpack)]

def rowsClass1 : List (Nat × (Fields → Instr)) :=
  [(0x80, .ld),
   (0x81, .st),
   (0x82, .ldo),
   (0x83, .sto),
   (0x84, .ldAcq),
   (0x85, .stRel),
   (0x86, .ldoAcq),
   (0x87, .stoRel),
   (0x88, .ctag),
   (0x89, .cfill),
   (0x8A, fun f => if f.sc = 1 then .cevictWb f else .cevict f),
   (0x8B, .cpres),
   (0x8C, .copy),
   (0x8D, .kick),
   (0xA0, .oalloc),
   (0xA1, .ofree),
   (0xA2, .opin),
   (0xA3, .ounpin),
   (0xA4, fun f => if f.sc = 1 then .ocolocLeave f else .ocoloc f),
   (0xA5, fun f => if f.sc = 1 then .olocateGuess f else .olocate f),
   (0xA6, .omigrate),
   (0xA7, .osplit),
   (0xA8, .ostubfree),
   (0xA9, .oinfo),
   (0xB0, .atomAdd),
   (0xB1, .atomMin),
   (0xB2, .atomMax),
   (0xB3, .atomAnd),
   (0xB4, .atomOr),
   (0xB5, .atomXor),
   (0xB6, .atomXchg),
   (0xB7, .atomCas),
   (0xB8, .atomIncb),
   (0xB9, .atomDecb),
   (0xBA, .atomWcas),
   (0xBB, .atomTadd),
   (0xC0, .arrive),
   (0xC1, .arriveBytes),
   (0xC2, .await),
   (0xC3, .fence)]

def rowsCrew : List (Nat × (Fields → Instr)) :=
  [(0xC4, .ballot),
   (0xC5, .shfl),
   (0xC6, .creduce),
   (0xC7, .cscan),
   (0xC8, .cvote)]

def rowsNbset : List (Nat × (Fields → Instr)) :=
  [(0xC9, .nbset)]

def rowsClass2 : List (Nat × (Fields → Instr)) :=
  [(0xD0, .mmag),
   (0xD1, .mmaq),
   (0xD2, fun f => if f.dst.toNat / 16 % 2 = 1 then .mdrainZonly f else .mdrain f),
   (0xD3, .gres),
   (0xD4, .gcancel),
   (0xD5, .tfetch),
   (0xD6, .launchq),
   (0xD7, .xsend),
   (0xD8, .xfetch),
   (0xD9, .xadd),
   (0xDA, fun f => if f.sc = 1 then .pumppostCancel f else .pumppost f)]

def rowsClass3 : List (Nat × (Fields → Instr)) :=
  [(0xE0, .bra),
   (0xE1, .brx),
   (0xE2, fun f => if f.form = 1 then .callRelative f else .callIndirect f),
   (0xE3, .ret),
   (0xE4, .exit),
   (0xE5, .wait),
   (0xE6, .yield),
   (0xE7, .nop),
   (0xF0, .trap),
   (0xF1, fun f => if f.sc = 1 then .tretSkip f else .tret f),
   (0xF2, .sread),
   (0xF3, .swrite),
   (0xF4, .tstamp),
   (0xF5, .winopen),
   (0xF6, fun f => if f.sc = 1 then .winacq f else if f.sc = 2 then .winclose f else .winrel f),
   (0xF7, fun f => if f.sc = 1 then .keyqWepoch f else if f.sc = 2 then .keyqReport f else .keyqEpoch f)]

def rows : List (Nat × (Fields → Instr)) := rowsClass0 ++ rowsClass1 ++ rowsCrew ++ rowsNbset ++ rowsClass2 ++ rowsClass3

/-- Whether a clause of a class admits an opcode (R45). -/
def classAdmits (cls opc : Nat) (crew : Bool) : Bool :=
  match cls with
  | 0 => opc < 0x80 || (crew && 0xC4 ≤ opc && opc ≤ 0xC8) || opc = 0xE7
  | 1 => (0x80 ≤ opc && opc ≤ 0xC3) || opc = 0xC9 || opc = 0xE7
  | 2 => (0xD0 ≤ opc && opc ≤ 0xDF) || opc = 0xE7
  | 3 => 0xE0 ≤ opc && opc ≤ 0xF7
  | _ => false

/-- BRA, BRX, CALL, RET, EXIT and TRET stand only as the last instruction word of their clause (R46, R406). -/
def lastOnly (opc : Nat) : Bool := (0xE0 ≤ opc && opc ≤ 0xE4) || opc = 0xF1

/-- What the checks of R61 know beside the word itself: the register count, the cohort's granted guard slots and tiles,
the clause's class and CREW bit, whether the word is the clause's last instruction word, and the latches that earlier
words of the clause name as destinations (R38). -/
structure WordCtx where
  regs    : Nat
  gslots  : Nat
  tiles   : Nat
  cls     : Nat
  crew    : Bool
  last    : Bool
  latches : List Nat
deriving DecidableEq, Repr

/-- The FORM 01 immediate (R51). -/
def Fields.imm30 (f : Fields) : Nat := 2 ^ 21 * (f.sb.toNat % 512) + 2 ^ 12 * f.sc.toNat + f.mod.toNat
def Fields.imm (f : Fields) : Int := sextN f.imm30 30
/-- The FORM 10 offset (R51). -/
def Fields.off (f : Fields) : Int := sextN (2 ^ 12 * f.sc.toNat + f.mod.toNat) 21

/-- Illegal-instruction checks of a source field (R37, R53, R54, R56). -/
def srcBad (r : SrcRole) (x : BitVec 9) : Bool :=
  match r with
  | .zero => x ≠ 0
  | .pred => x.toNat ≥ 16
  | .ctl ok => !ok
  | .s32 | .s64 | .greg _ => srcOf x = .reserved
  | .a32 | .a64 => match srcOf x with | .reserved | .const _ => true | _ => false
  | .regOnly _ | .group _ _ | .params _ _ => match srcOf x with | .reg _ => false | _ => true

/-- Illegal-operand checks of a source field (R35, R36, R38, R260, R277, R286). -/
def srcOperandBad (k : WordCtx) (r : SrcRole) (x : BitVec 9) : Bool :=
  let reg32 (n : Nat) : Bool := n ≠ 255 && n ≥ k.regs
  let reg64 (n : Nat) : Bool := n ≠ 255 && (n % 2 = 1 || n + 1 ≥ k.regs)
  match r, srcOf x with
  | .s32, .reg n | .a32, .reg n | .regOnly false, .reg n | .greg false, .reg n => reg32 n
  | .s64, .reg n | .a64, .reg n | .regOnly true, .reg n | .greg true, .reg n => reg64 n
  | .s32, .latch n | .s64, .latch n | .a32, .latch n | .a64, .latch n => !k.latches.contains n
  | .group n al, .reg v => v % al ≠ 0 || v + n > k.regs
  | .params lo hi, .reg v => v % 4 ≠ 0 || v + lo ≥ k.regs || v + 2 ≥ k.regs || v + hi ≥ k.regs
  | .greg _, _ => true
  | _, _ => false

/-- Illegal-operand checks of DST (R35, R36, R237, R260, R330). -/
def dstOperandBad (k : WordCtx) (r : DstRole) (d : BitVec 8) : Bool :=
  let n := d.toNat
  match r with
  | .r32 => n ≠ 255 && n ≥ k.regs
  | .r64 => n ≠ 255 && (n % 2 = 1 || n + 1 ≥ k.regs)
  | .r128 => n ≠ 255 && (n % 4 ≠ 0 || n + 3 ≥ k.regs)
  | .r4 => n % 4 ≠ 0 || n + 3 ≥ k.regs
  | .slot => n % 64 ≥ k.gslots
  | _ => false

/-- The engine control field in MOD (R141): G, GSLOT, SIG and NB; all zero where MOD is immediate bits. -/
def Fields.modG (f : Fields) : Bool := f.form ≠ 1 && f.mod.toNat / 2048 % 2 = 1
def Fields.modSlot (f : Fields) : Nat := bitsOf f.mod.toNat 10 5
def Fields.modSig (f : Fields) : Bool := f.form ≠ 1 && f.mod.toNat / 16 % 2 = 1
def Fields.modNb (f : Fields) : Nat := f.mod.toNat % 16

/-- The lane-permutation modifier (R59): whether it is one that the illegal-instruction checks refuse. -/
def modifierBad (m : BitVec 12) : Bool :=
  let v := m.toNat
  v ≠ 0 && (v / 1024 = 0 || bitsOf v 9 7 ≥ 5 || v % 4 ≠ 0)

/-- The illegal-instruction checks of a word (R44 to R61). DESIGN CHOICE (log 30): a literal that a word of FORM 11 does not use must
be zero, also in MDRAIN.ZONLY, where R164 names no literal. -/
def wordBad (k : WordCtx) (opc : Nat) (r : Roles) (f : Fields) : Bool :=
  !classAdmits k.cls opc k.crew
  || (lastOnly opc && !k.last)
  || !r.forms.contains f.form.toNat
  || (r.crewOnly && !k.crew)
  || (f.form = 3 && f.sb ≠ 0)
  || (f.nwb && (!r.res || f.dst.toNat ≥ 8))
  || (match r.dst with
      | .zero => f.dst ≠ 0
      | .pred => f.dst.toNat ≥ 16
      | .slot => f.dst.toNat ≥ 64
      | .ctl ok => !ok
      | _ => false)
  || srcBad r.a f.sa
  || (if f.form = 1 then r.b = .zero && f.imm30 ≠ 0
      else if f.form = 3 then r.b = .zero && f.lit ≠ 0
      else srcBad r.b f.sb)
  || ((f.form = 0 || f.form = 3) && srcBad r.c f.sc)
  || (f.form = 1 && match r.c with | .ctl ok => !ok | _ => false)
  || ((f.form = 0 || f.form = 3) &&
      match r.mod with
      | .zero => f.mod ≠ 0
      | .modifier => modifierBad f.mod || (f.mod ≠ 0 && r.a = .zero)
      | .engine => (!f.modG && f.modSlot ≠ 0) || (!f.modSig && f.modNb ≠ 0)
      | .free => false)

/-- The illegal-operand checks of a word (R35 to R38, R58, R59, R98, R124, R141). -/
def wordOperandBad (k : WordCtx) (opc : Nat) (r : Roles) (f : Fields) : Bool :=
  (!f.nwb && dstOperandBad k r.dst f.dst)
  || (f.nwb && (opc = 0x13 || opc = 0x52) && !k.latches.contains (f.dst.toNat % 8))
  || srcOperandBad k r.a f.sa
  || ((f.form = 0 || f.form = 2) && srcOperandBad k r.b f.sb)
  || ((f.form = 0 || f.form = 3) && srcOperandBad k r.c f.sc)
  || ((f.form = 0 || f.form = 3) && r.mod = .modifier && f.mod ≠ 0 &&
      (!k.crew || bitsOf f.mod.toNat 6 2 ≥ 2 * 2 ^ bitsOf f.mod.toNat 9 7
       || (match r.a, srcOf f.sa with
           | .s32, .reg _ | .s64, .reg _ | .a64, .reg _ | .a32, .reg _ => false
           | _, _ => true)))
  || (r.mod = .engine && f.modG && f.modSlot ≥ k.gslots)
  || (match r.tile with | some t => t ≥ k.tiles | none => false)

/-- The trap that a word raises at decode, illegal instruction before illegal operand (R61). -/
def wordTrap (k : WordCtx) (i : Instr) : Option TrapKind :=
  match i.opc, i.fields? with
  | some opc, some f =>
    if wordBad k opc i.roles f then some .illegalInstruction
    else if wordOperandBad k opc i.roles f then some .illegalOperand
    else none
  | _, _ => some .illegalInstruction

/-- The word of the opcode map that a code and fields name (R65); none for a reserved code. -/
def Instr.ofCode (opc : Nat) (f : Fields) : Option Instr := ((rows.find? (fun r => r.1 = opc)).map (·.2 f))

end Sys2Proof
end

