-- ==== Sys2Proof/WellFormed.lean ====
section
/-! DEFINITION. Which terms of Instr are words that some clause can hold, and which agents' steps name units that exist. -/

namespace Sys2Proof

/-- The class of clause that admits an opcode (R45). -/
def classOf (opc : Nat) : Nat :=
  if opc < 0x80 ∨ (0xC4 ≤ opc ∧ opc ≤ 0xC8) then 0
  else if opc < 0xC4 ∨ opc = 0xC9 then 1
  else if opc < 0xE0 then 2
  else 3

/-- The most a clause and a cohort can allow a word: 255 registers, every guard slot and tile, a crew clause of the
word's own class, its last place, and every latch written before. -/
def WordCtx.widest (opc : Nat) : WordCtx :=
  { regs := 255, gslots := 64, tiles := 4, cls := classOf opc, crew := true, last := true, latches := List.range 8 }

/-- A compute die, core or quadrant number that exists (R11, R14, R15). -/
def DieId.exists? (d : DieId) : Bool := d.chip < 0xFFE && d.die < 4
def CoreId.exists? (c : CoreId) : Bool := c.toDie.exists? && c.core < 48
def QuadId.exists? (q : QuadId) : Bool := q.toCore.exists? && q.quad < 4

/-- A word is well formed when its code and control fields name its constructor, its literal is zero unless FORM is
11, and some clause passes every check of R61 with it. A step is well formed when the unit it names exists. -/
def Instr.wellFormed (i : Instr) : Bool :=
  match i.fields?, i.opc with
  | some f, some opc => Instr.ofCode opc f = some i && wordTrap (WordCtx.widest opc) i = none && (f.form = 3 || f.lit = 0)
  | _, _ =>
    match i with
    | .formBundle q | .matrixStep q | .rowCountReread q | .matrixDrain q | .shadowCommit q _ | .qown q _ => q.exists?
    | .translationWalk d _ | .pumpTransaction d _ | .workEntryFire d _ | .workEntryRearm d _ | .dramLineWriteback d _
    | .dramSpare d _ _ | .laneFailure d _ | .laneRetrainDone d _ | .counterRebuild d _ | .linkRekey d _ => d.exists?
    | .framesReserved _ die => die < 4
    | .coreRetire c _ => c.exists?
    | _ => true

end Sys2Proof
end

