-- ==== Sys2Proof/Decode.lean ====
section
/-! DEFINITION. Decoding: the fields of an instruction word (R48), the clause header (R42) and its checks (R44), the walk
of a clause's words (R44) and the decode checks (R61); and the encoder of a word. -/

namespace Sys2Proof

/-- The fields of a word and its literal (R48, R52). -/
def Fields.ofWord (w lit : DWord) : Fields where
  ge   := w.getLsbD 63
  gs   := w.getLsbD 62
  gp   := w.extractLsb' 58 4
  form := w.extractLsb' 48 2
  nwb  := w.getLsbD 47
  dst  := w.extractLsb' 39 8
  sa   := w.extractLsb' 30 9
  sb   := w.extractLsb' 21 9
  sc   := w.extractLsb' 12 9
  mod  := w.extractLsb' 0 12
  lit  := if w.extractLsb' 48 2 = 3 then lit else 0

/-- The word of an opcode and fields (R48). -/
def Fields.toWord (opc : Nat) (f : Fields) : DWord :=
  (BitVec.ofBool f.ge ++ BitVec.ofBool f.gs ++ f.gp ++ BitVec.ofNat 8 opc ++ f.form ++ BitVec.ofBool f.nwb ++ f.dst
    ++ f.sa ++ f.sb ++ f.sc ++ f.mod : BitVec 64)

/-- The major opcode of a word (R48). -/
def opcOf (w : DWord) : Nat := (w.extractLsb' 50 8).toNat

/-- The word a word decodes to in a clause, or the trap it raises (R61, R65). -/
def decodeWord (k : WordCtx) (w lit : DWord) : Except TrapKind Instr :=
  match Instr.ofCode (opcOf w) (Fields.ofWord w lit) with
  | none => .error .illegalInstruction
  | some i =>
    match wordTrap k i with
    | some t => .error t
    | none => .ok i

/-- A clause header (R42). -/
structure Header where
  cls    : Nat
  count  : Nat
  crew   : Bool
  dcwait : List Nat
  gsw    : Bool
  gslot  : Nat
  nbw    : Bool
  nbid   : Nat
  bad    : Bool
deriving DecidableEq, Repr

/-- The fields of a header, and whether it fails a check of R44 on the header alone. -/
def Header.ofWord (w : DWord) : Header :=
  let v := w.toNat
  { cls    := bitsOf v 63 60
    count  := bitsOf v 59 56
    crew   := bitsOf v 55 55 = 1
    dcwait := (List.range 6).map fun n => bitsOf v (38 + 3 * n) (36 + 3 * n)
    gsw    := bitsOf v 35 35 = 1
    gslot  := bitsOf v 34 29
    nbw    := bitsOf v 28 28 = 1
    nbid   := bitsOf v 27 24
    bad    := bitsOf v 63 60 ≥ 4 || bitsOf v 54 54 = 1 || bitsOf v 23 0 ≠ 0
              || (bitsOf v 35 35 = 0 && bitsOf v 34 29 ≠ 0) || (bitsOf v 28 28 = 0 && bitsOf v 27 24 ≠ 0) }

/-- FORM 11 (R52). -/
def isLit (w : DWord) : Bool := w.extractLsb' 48 2 = 3

/-- The instruction words of a clause with their indices and literals, and whether the last one's literal lies outside
the clause (R44). -/
def walkWords : Nat → List DWord → List (Nat × DWord × DWord) × Bool
  | _, [] => ([], false)
  | n, [w] => ([(n, w, 0)], isLit w)
  | n, w :: l :: ws =>
    if isLit w then
      let (r, b) := walkWords (n + 2) ws
      ((n, w, l) :: r, b)
    else
      let (r, b) := walkWords (n + 1) (l :: ws)
      ((n, w, 0) :: r, b)

/-- The latch that a word names as its NWB destination (R38, R55). -/
def latchOf (w : DWord) : List Nat := if w.getLsbD 47 then [(w.extractLsb' 39 3).toNat] else []

/-- The decode checks over a clause's words in order: the first word that fails, and its trap (R61). A thread that resumes
at word start issues none of the words before it. -/
def decodeFrom (k : WordCtx) (start : Nat) : List (Nat × DWord × DWord) → Option (TrapKind × Nat)
  | [] => none
  | (n, w, l) :: ws =>
    match decodeWord { k with last := ws.isEmpty } w l with
    | .error t => if n < start then decodeFrom { k with latches := latchOf w ++ k.latches } start ws else some (t, n)
    | .ok _ => decodeFrom { k with latches := latchOf w ++ k.latches } start ws

/-- The decode of a clause from a word on (R44, R61): the trap and the index it names, if any; an illegal clause, and a
GSLOT outside the cohort's grant, trap at the header. -/
def decodeClause (regs gslots tiles : Nat) (h : Header) (ws : List DWord) (start : Nat) : Option (TrapKind × Option Nat) :=
  let (l, out) := walkWords 0 ws
  if h.bad || out then some (.illegalClause, none)
  else if h.gsw && h.gslot ≥ gslots then some (.illegalOperand, none)
  else (decodeFrom { regs, gslots, tiles, cls := h.cls, crew := h.crew, last := false, latches := [] } start l).map
    fun e => (e.1, some e.2)

/-- A word's bytes as memory holds them (R5). -/
def bytesLE : Nat → Nat → List Byte
  | 0, _ => []
  | n + 1, v => BitVec.ofNat 8 v :: bytesLE n (v / 256)

/-- The number that bytes hold (R5). -/
def ofBytesLE : List Byte → Nat
  | [] => 0
  | b :: bs => b.toNat + 256 * ofBytesLE bs

/-- The word an opcode-table row's bits decode to, alone in a clause of its class. -/
def decodeTableWord (nbits w : Nat) : Option Instr :=
  let b := bytesLE 8 (w % 2 ^ nbits)
  let v := BitVec.ofNat 64 (ofBytesLE b)
  match decodeWord (WordCtx.widest (opcOf v)) v 0 with
  | .ok i => some i
  | .error _ => none

/-- The words of an instruction: its word, and its literal in FORM 11. A step of an agent has none. -/
def encode (i : Instr) : List DWord :=
  match i.opc, i.fields? with
  | some opc, some f => if f.form = 3 then [f.toWord opc, f.lit] else [f.toWord opc]
  | _, _ => []

/-- What a well-formed word's words decode to in the widest clause. -/
def decodeWords (ws : List DWord) : Option Instr :=
  match ws with
  | [w] => if isLit w then none else (decodeWord (WordCtx.widest (opcOf w)) w 0).toOption
  | [w, l] => if isLit w then (decodeWord (WordCtx.widest (opcOf w)) w l).toOption else none
  | _ => none

end Sys2Proof
end

