-- ==== Sys2Proof/Config.lean ====
section
/-! DEFINITION. What the manual leaves open, as constants without a body (nothing can evaluate them or prove a value
of them), and the turns by which State says which agent moves next. -/

namespace Sys2Proof

/-- Which agent moves: the issue stage of a quadrant with one of its bundles (R31), or an agent's own step. -/
inductive Act where
  | issue (q : QuadId) (slot : Nat)
  | agent (i : Instr)
deriving DecidableEq, Repr, Inhabited

/-- One turn: the ticks of 3.6 GHz that pass (an issue cycle is 2, a fabric cycle 3, a matrix cycle 6: R4, R20), then
the agent that moves. -/
structure Turn where
  ticks : Nat
  act   : Act
deriving DecidableEq, Repr, Inhabited

namespace Config

/-- The n-th turn where State.turns is empty: the manual orders no two agents but by the rules that the steps
themselves enforce (log 1). -/
opaque arbiter : Nat → Turn

/-- The frame an allocation takes, as a choice among the free frames of the permitted colours (R362, log 8). -/
opaque frameChoice : Nat → Nat

/-- The array number that a recovery-log entry names as its UNIT for an event of an array: (die or 4, kind of event) (R413). -/
opaque arrayUnit : Nat → Nat → Nat

/-- Whether a store is seen late by some dies: (operation) (R249). -/
opaque lags : Nat → Bool

/-- Whether a read sees a store that its die has not seen: (the read's operation, the store's) (R249). -/
opaque sees : Nat → Nat → Bool

/-- Whether a drain's step writes an element: (draw, element) (R165). -/
opaque drainPick : Nat → Nat → Bool

/-- Whether a WINREL publishes a chunk that a copy, whose end its thread has not observed, has written: (the WINREL's operation, the
copy's, the chunk) (R423). -/
opaque publishes : Nat → Nat → Nat → Bool

/-- A window key drawn from the key store's random generator (R374). -/
opaque windowKey : Nat → BitVec 256

/-- The shared secret that a package decapsulates from an ML-KEM-1024 ciphertext with its key-establishment key, which no one
outside it holds; none where the decapsulation fails (R370). -/
opaque decapsulate : Nat → List Byte → Option (List Byte)

/-- Byte i of the device public key of a package, its lockkeepers' ROM, and the n-th patch image that reaches it, as bytes, with the
signature and the public key that come with it (R371, R372). -/
opaque devicePublicKey : Nat → Nat → Byte
opaque rom : Nat → List Byte
opaque patchImage : Nat → Nat → List Byte
opaque patchSignature : Nat → Nat → List Byte
opaque patchKey : Nat → Nat → List Byte

/-- Ceryth's public key, and whether a signature is one of a digest under a public key: ML-DSA-87 (R371). -/
opaque cerythKey : List Byte
opaque mldsaVerify : List Byte → List Byte → List Byte → Bool

/-- The line of DRAM where a counter block lies: (owner of the key, level, block) (R366). -/
opaque counterHome : Nat → Nat → Nat → Nat

/-- The n-th kill's report: words 0 to 3 of its fault record, which no rule gives, and 4 which of the context's cohorts it
names (R392, R401). -/
opaque killPick : Nat → Nat → Nat

/-- The line of a cohort's frames where a 64-byte line of its private memory lies: the manual gives no layout for private memory,
call stacks and save areas within their frames (R362, R397). -/
opaque frameLine : Nat → Nat

/-- What a line holds that no pointer reaches: (draw) (R342, R397). -/
opaque hiddenLine : Nat → BitVec 512

/-- Byte i of the ML-DSA-87 signature of a digest, by a chip's device key (R371, R372). -/
opaque signature : Nat → List Byte → Nat → Byte

end Config
end Sys2Proof
end

