-- ==== Sys2Proof/Machine/State.lean ====
section
/-! DEFINITION. The state of the machine as plain data: every piece of state the manual gives the pod, its packages,
dies, cores, quadrants, grids, cohorts and threads, and the operations and messages under way (INVENTORY.md, State). -/

namespace Sys2Proof.Machine

/-- Why a run ends. -/
inductive Fault where
  /-- R418: a step of a package whose module power the hardware has removed at 115 °C. Safe: the manual gives such a
  package no further behaviour. -/
  | powerLost
deriving DecidableEq, Repr

/-- What the model gives no meaning. -/
inductive Refusal where
  /-- An instruction of the opcode table that has no meaning here. Safe. -/
  | notModelled (mnemonic : String)
deriving DecidableEq, Repr

/-! ## Threads -/

/-- The trap record, read as %fault0 to %fault3 (R386). -/
structure TrapRec where
  f0 : DWord := 0
  f1 : DWord := 0
  f2 : DWord := 0
  f3 : DWord := 0
deriving DecidableEq, Repr, Inhabited

/-- What a trap point is (R381, R347). -/
inductive PointKind where
  | word | header | after | unfetched
deriving DecidableEq, Repr, Inhabited

/-- A trap point: the header's address, the word's index, the index of the word after it, the header's COUNT, and
whether the word is an EXIT (R381, R398, R406). -/
structure TrapPoint where
  pc    : DWord := 0
  word  : Nat := 0
  next  : Nat := 0
  count : Nat := 0
  kind  : PointKind := .header
  exit  : Bool := false
deriving DecidableEq, Repr, Inhabited

/-- A pending deferred fault (R235, R159, R389): the operation, its counter, how many operations were issued on that
counter after it, the arrival register that also delivers it, the destination registers of a faulting load, and the record. -/
structure Deferred where
  op      : Nat
  sub     : Nat := 0                              -- its record's place in a KICK's list (R231)
  ctr     : Nat
  after   : Nat := 0
  kind    : TrapKind
  nb      : Option Nat := none
  dst     : List Nat := []
  acq     : Bool := false                         -- its access is an acquire
  rowprog : Option DWord := none                  -- a matrix command's progress (R157)
  taken   : Bool := false                         -- another recipient has taken it (R161)
  record  : TrapRec := {}
deriving DecidableEq, Repr, Inhabited

/-- A trap that a thread has raised and whose handler it has not entered yet (R384 step 2, R388). -/
structure Raised where
  kind    : TrapKind
  record  : TrapRec
  point   : TrapPoint
  rowprog : Option DWord := none
deriving DecidableEq, Repr, Inhabited

/-- What a parked thread waits for (R213, R270, R344, R376, R384). -/
inductive ParkKind where
  | presence (line : Nat) (ptr : DWord)
  | arrival (nb : Nat)
  | timer (deadline : Nat)
  | operation (op : Nat)
  | landing
deriving DecidableEq, Repr, Inhabited

/-- The states of R331; SAVED is the context's (R394). -/
inductive RunState where
  | blocked | ready | rendezvous | issuing
  | parked (k : ParkKind)
  | draining | ended
deriving DecidableEq, Repr, Inhabited

/-- Tracked writes that come before what an event carries, for every reader (scope 9) or for the threads within a scope of
a thread (R246, R249, R253). A tracked write is one to a window (R255) or one that some die does not see yet (R249). -/
structure Edge where
  scope : Nat
  by'   : ThreadId
  know  : List Nat
deriving DecidableEq, Repr, Inhabited

/-- What a read of some bytes reads from, as an edge of the write or the release that made them (R248, R249); line: a
widened line's, which every later access served from the line reads from (R251). -/
structure Sync extends Edge where
  lo    : Nat
  len   : Nat
  line  : Bool := false
deriving DecidableEq, Repr, Inhabited

/-- A release or a release fence of a thread, which its later stores, atomics, object instructions and engine issues follow:
its level, the first identifier after it and the tracked writes that came before it from elsewhere (R245); cond: the conditional atomic
that is the release only if it writes, until that is known (R266). -/
structure Barrier where
  level : Nat
  id    : Nat
  know  : List Nat
  cond  : Option Nat := none
deriving DecidableEq, Repr, Inhabited

/-- A fence that has not completed: its kind of R274 and what came before it from elsewhere (R247). -/
structure Fence where
  id    : Nat
  kind  : Nat
  level : Nat
  know  : List Nat := []
deriving DecidableEq, Repr, Inhabited

/-- The clock of a completed engine operation with its edges, its counter, and how many operations were issued on the counter after
it (R253). -/
structure Join where
  ctr   : Nat
  after : Nat
  know  : List Nat
  edges : List Edge := []
deriving DecidableEq, Repr, Inhabited

/-- A thread (R26, R29). -/
structure Thread where
  quad      : QuadId := default
  run       : RunState := .blocked
  pc        : DWord := 0
  word      : Nat := 0                            -- the next word to issue, when it resumes inside a clause
  inside    : Bool := false                       -- it stands at a word inside its clause, not at the header (R63)
  regs      : List Word := []                     -- g0 to g(n-1)
  preds     : BitVec 16 := 0                      -- k0 to k15
  latches   : List (Option DWord) := List.replicate 8 none
  dcs       : List (List (Nat × Bool)) := List.replicate 6 []   -- operations not yet counted, in issue order (R39)
  ret       : List DWord := []                    -- return buffer, newest first (R342)
  stack     : List DWord := []                    -- call stack, newest first
  rmode     : BitVec 3 := 0
  srseed    : Word := 0
  rowprog   : DWord := 0
  ltimeh    : BitVec 16 := 0
  faults    : TrapRec := {}
  tokens    : List Word := List.replicate 16 0    -- R270
  handler   : Bool := false
  point     : TrapPoint := {}
  kept      : List (Option DWord) := List.replicate 8 none      -- latches of the trapped clause (R384)
  raised    : Option Raised := none
  deferred  : List Deferred := []
  waitFrom  : Option TrapPoint := none            -- a clause fetch that failed on falling through (R347)
  readySince : Nat := 0                           -- W of R332
  seq       : Nat := 0
  fresh     : Bool := true                        -- has issued no clause yet (R347)
  yielding  : Bool := false                       -- a YIELD of the clause under way takes effect at its end (R344)
  keptYield : Bool := false                       -- the same of the trapped clause (R384)
  nextPc    : Option DWord := none                -- target of the control transfer of the clause under way
  exiting   : Bool := false
  halted    : Bool := false                       -- R388: stopped in its handler for a save
  fences    : List Fence := []
  barriers  : List Barrier := []                  -- the latest of each level (R245)
  wrote     : List Nat := []                      -- the thread's own tracked writes
  know      : List Nat := []                      -- tracked writes that happen before the thread's next event (R249)
  seen      : List (Nat × Sync) := []             -- what its reads have read from, by the read's identifier (R248)
  joins     : List Join := []                     -- completed engine operations whose completion it has not observed (R253)
  taint     : List (Nat × List Nat) := []         -- what its registers, predicates and latches depend on (R245)
deriving DecidableEq, Repr, Inhabited

/-! ## Cohorts and grids -/

/-- A guard slot (R151): its epoch, whether it is resolved, and the resolution of each earlier epoch. -/
structure Slot where
  value   : Option Bool := none
  epoch   : Nat := 0
  history : List (Nat × Bool) := []
deriving DecidableEq, Repr, Inhabited

/-- A tag-table entry (R215). -/
structure TagEntry where
  valid : Bool := false
  tag   : BitVec 57 := 0
  line  : BitVec 14 := 0
  len   : BitVec 6 := 0
deriving DecidableEq, Repr, Inhabited

/-- The flags of a phase of an arrival register (R267). -/
structure NbFlags where
  err     : Bool := false
  partly  : Bool := false
  past    : Bool := false
  missed  : BitVec 48 := 0
deriving DecidableEq, Repr, Inhabited

/-- A named arrival register (R267), with whether a contribution has counted in its phase (R268), the flags of its latest
completion as they stood then (R272), and the edges that its current and its latest phase carry (R270). -/
structure Nb where
  armed   : Bool := false
  members : BitVec 16 := 0
  bytes   : Word := 0
  mleft   : BitVec 16 := 0
  bleft   : Word := 0
  phase   : Word := 0
  flags   : NbFlags := {}
  last    : NbFlags := {}
  done    : NbFlags := {}
  counted : Bool := false
  know    : List Edge := []
  lastKnow : List Edge := []
deriving DecidableEq, Repr, Inhabited

/-- A crew's watchdog timer at a crew clause (R280): the time it has counted up to a stop, and when it last ran. -/
structure CrewTimer where
  crew  : Nat
  pc    : DWord
  since : Nat
deriving DecidableEq, Repr, Inhabited

/-- A launch record (R316). -/
structure Launch where
  kernel  : DWord := 0
  args    : DWord := 0
  crec    : DWord := 0
  doneh   : DWord := 0
  priv'   : Nat := 0
  wdog    : Nat := 0
  seed    : Word := 0
  threads : Nat := 0
  regs    : Nat := 0
  nargs   : Nat := 0
  gslots  : Nat := 0
  tiles   : Nat := 0
  tagb    : Nat := 0
  ladder  : Nat := 0
  nbv     : Nat := 0
  rmode   : Nat := 0
  cstack  : Nat := 0
  tdimx   : Nat := 0
  tdimy   : Nat := 0
  tdimz   : Nat := 0
  tbase   : Word := 0
  flags   : Nat := 0
  tag     : Word := 0
deriving DecidableEq, Repr, Inhabited

/-- A cohort (R28). -/
structure Cohort where
  vf      : Nat := 0
  part    : Nat := 0
  index   : Nat := 0                              -- %cohort (R322)
  threads : Nat := 0
  quads   : List Nat := []                        -- quadrants of its share that it occupies, crew c on c mod q
  slots   : List Slot := []
  tags    : List TagEntry := []
  nbs     : List Nb := List.replicate 16 {}
  tiles   : List (Nat × List Nat) := []           -- physical tiles acc0.. granted on each quadrant (R124)
  timers  : List CrewTimer := []
  killed  : Option Nat := none                    -- termination reason (R391)
  seq     : Nat := 0                              -- words that changed a dependency counter (R420)
  ended   : Bool := false
  frames  : List Nat := []                        -- frames of its private memory and call stacks (R362)
deriving DecidableEq, Repr, Inhabited

/-- Where a grid stands. -/
inductive GridState where
  | queued | placing | running | ended
deriving DecidableEq, Repr, Inhabited

/-- A grid (R316, R322 to R325, R329). -/
structure Grid where
  vf       : Nat := 0
  part     : Nat := 0
  launch   : Launch := {}
  args     : List Word := []
  state    : GridState := .queued
  order    : Nat := 0                             -- launch-queue order
  ringOf   : Option Nat := none                   -- the shadow ring it was posted on
  poster   : Option ThreadId := none              -- or the thread that posted it
  after    : List Nat := []                       -- grids whose end it waits for (AFTER)
  accepted : Nat := 0                             -- times in ns of the hub clock
  started  : Option Nat := none
  set'     : List (Nat × Nat) := []               -- placement set, (die, core)
  placed   : List (Nat × Nat) := []
  done     : Nat := 0                             -- cohorts ended
  killed'  : Nat := 0                             -- cohorts that ended by termination
  kill     : Bool := false
  next     : Nat := 0                             -- the dispenser's next index
  start    : List Nat := []                       -- clock of the launch, with which its threads begin (R316, R327)
  know     : List Nat := []
deriving DecidableEq, Repr, Inhabited

/-! ## Quadrants, cores and dies -/

/-- A bundle in flight (R30, R31). -/
structure Bundle where
  threads : List ThreadId := []                   -- the members still in it, by lane
  left    : List ThreadId := []                   -- members of a crew clause that have left it (R60)
  pc      : DWord := 0
  cls     : Nat := 0
  crew    : Bool := false
  alone   : Bool := false                         -- a thread that resumes a crew clause (R63)
  words   : List DWord := []
  word    : Nat := 0
  heldSince : Option Nat := none                  -- under a pool's back-pressure (R393)
  pool    : Nat := 0
  order   : Nat := 0                              -- its place among the bundles that a pool holds (R234)
  rest    : List ThreadId := []                   -- members that a line's count still keeps from executing the word (R212)
  counted : List (CohortId × Nat) := []           -- the number that the word under way has taken in each cohort, while it issues in parts (R420)
  waitOps : List Nat := []                        -- KICK lists whose records are not all fetched (R241)
deriving DecidableEq, Repr, Inhabited

/-- A shadow tile (R153) and what it is bound to. -/
structure Shadow where
  bound : Option (CohortId × Nat × Nat × Nat) := none    -- cohort, physical tile, slot, epoch
  data  : List Word := []
  err   : Bool := false
deriving DecidableEq, Repr, Inhabited

/-- A quadrant (R15, R31, R124, R126, R357). -/
structure Quad where
  owner    : Option Nat := none
  qown     : Word := 0                                 -- ASSIGN and PART as last written
  pending  : Option Word := none
  refused  : Bool := false
  seq      : Nat := 0
  bundles  : List (Nat × Bundle) := []
  acc      : List (List Word) := [[], [], [], []]      -- an empty tile holds zeros
  poison   : List Bool := [false, false, false, false]
  shadows  : List Shadow := [{}, {}]
  queues   : List (List Nat) := [[], []]
  passed   : Nat := 0                                  -- steps in succession for which queue 1's runnable head was passed over
  loading  : Option Nat := none                        -- the command whose step waits for its operands (R144, R146)
  lastStep : Nat := 0                                  -- when the array's latest step ends
deriving DecidableEq, Repr, Inhabited

/-- A landing ring of an owner (R217, R236). -/
structure Ring where
  cfg  : DWord := 0
  prod : Word := 0
  cons : Word := 0
  drop : Word := 0
deriving DecidableEq, Repr, Inhabited

/-- A core (R15, R211, R212, R236, R408). -/
structure Core where
  writers : List (Nat × Nat) := []                -- lines with outstanding writers and how many (R212)
  rings   : List ((Nat × Nat) × Ring) := []       -- by owner and ring number
  realms  : List (Nat × Word) := []               -- the realm that last used each owner's share (R211)
  service : Bool := true
  retiring : Bool := false                        -- its contexts are being saved for its retirement (R408)
  phys    : Option Nat := none                    -- physical core, where it is not the logical number (R14)
  corrected : List (Nat × List Nat) := []         -- per array, when it corrected errors in the latest second (R408)
deriving DecidableEq, Repr, Inhabited

/-- A scale-up port (R410), with the generation of its link's key, the flits sent under it, and those that failed their check
(R368). -/
structure Port where
  lanes    : Nat := 4
  training : Bool := false
  key      : Nat := 0
  flits    : Nat := 0
  dropped  : Nat := 0
deriving DecidableEq, Repr, Inhabited

/-- A work entry's fields (R295). -/
structure Entry where
  dst : DWord := 0
  src : DWord := 0
  scale : DWord := 0
  count : Nat := 0
  ctrl : Nat := 0
  handle : DWord := 0
  tphase : Word := 0
  tstep : Nat := 0
  trig : Nat := 0
  dstride : Word := 0
  sstride : Word := 0
  scstride : Word := 0
  repeat' : Nat := 0
  rgroup : Nat := 0
  rcount : Nat := 0
deriving DecidableEq, Repr, Inhabited

/-- A Pump entry slot (R298): the posted entry, the posting thread and word, and the firing under way. -/
structure EntrySlot where
  entry   : Entry := {}
  addr    : DWord := 0
  thread  : ThreadId := default
  pc      : DWord := 0
  word    : Nat := 0
  fired   : Nat := 0
  iword   : DWord := 0                            -- the posting word itself (R399)
  firing  : Option Nat := none
  cancel  : Bool := false
  slot    : Option (Nat × Nat) := none            -- guard slot and epoch bound at post
  fork    : Nat := 0                              -- the operation that posted it
  seq     : Nat := 0                              -- its cohort's count at the post (R420)
  know    : List Nat := []                        -- the clock it forks with, and its edges (R253)
  edges   : List Edge := []
  heard   : List Nat := []                        -- what its firings have read from (R253)
  bad     : Bool := false                         -- a stride left the OFFSET range (R300)
deriving DecidableEq, Repr, Inhabited

/-- A counter block: its counters, and the MAC under which its parent's counters hold it (R366). -/
structure CounterBlock where
  major  : Nat := 0
  minors : List Nat := List.replicate 64 0
  mac    : BitVec 56 := 0
deriving DecidableEq, Repr, Inhabited

/-- A 64-byte line as DRAM holds it: ciphertext, MAC, and whether more symbols are in error than its code corrects (R364, R411). -/
structure DramLine where
  text : List Byte
  mac  : BitVec 56
  bad  : Bool := false
deriving DecidableEq, Repr, Inhabited

/-- A compute die (R11, R13). -/
structure Die where
  locator  : List ((Nat × Nat × Nat) × Nat) := [] -- granule (BIRTH, SERIAL, OFFSET[29:21]) and guess, latest used first
  cached   : List Nat := []                       -- translated pages, latest first (R182)
  walks    : List (Nat × List Nat) := []          -- page walks under way and the requests that wait on each, in arrival order
  misses   : List (Nat × List Nat) := []          -- the miss queue, likewise
  frames   : List (Nat × Nat) := []               -- frames in use and their function
  l2       : List (Nat × Bool) := []              -- 128-byte lines in the L2, latest used first, and whether they are dirty (R361)
  l2bad    : List Nat := []                       -- 64-byte lines that failed as the L2 took them from DRAM (R365, R367)
  counters : List (Nat × CounterBlock) := []      -- leaf blocks, by 4 KiB (R366)
  lines    : List (Nat × DramLine) := []          -- lines written back
  corrected : Nat := 0                            -- corrected errors (R411)
  retired  : List Nat := []                       -- physical cores retired (R408)
  spareRows : List ((Nat × Nat) × Nat) := []      -- bank and row on a spare row (R409)
  spareBanks : List ((Nat × Nat) × Nat) := []     -- layer and bank on a spare bank
  ports    : List Port := List.replicate 12 {}
  slots    : List (Nat × EntrySlot) := []
  waiting  : List Nat := []                       -- posts that wait for an entry slot
  queues   : List (Nat × List Nat) := []          -- direct queue of each function (R294)
  deficit  : List (Nat × Nat) := []               -- R302
  turn     : List Nat := []                       -- functions in the order they were served, latest last
  qturn    : List (Nat × Nat) := []               -- per function, the queue served latest
deriving DecidableEq, Repr, Inhabited

/-! ## Packages -/

/-- The states of R394 (STOPPING and QUIESCING are one here: log 9). -/
inductive CtxState where
  | running | deferring | stopping | saved | restoring
deriving DecidableEq, Repr, Inhabited

/-- Why a context is pre-empted. -/
inductive SaveWhy where
  | host | sluice | heat | owner | retire | express
deriving DecidableEq, Repr, Inhabited

/-- A virtual function of a package: its registers and its context. -/
structure Vf where
  srbase   : DWord := 0
  srcfg    : Word := 0
  srprod   : Word := 0
  srcons   : Word := 0
  sluice   : DWord := 0
  balance  : Int := 0                             -- in 1/256 quadrant-µs
  express  : Bool := false
  affinity : Word := 0x00404800                   -- MINCOUNT 0x40, RATIO 4, DECAY 8 (R186)
  weight   : Word := 1
  enable   : Bool := false
  keyed    : Bool := false
  key      : BitVec 256 := 0                      -- in the key store, with the root of its counter tree (R17, R366)
  root     : CounterBlock := {}
  height   : Nat := 1                             -- levels of its counter tree (R366)
  part     : Nat := 0
  lport    : Nat := 0
  realm    : Word := 0
  keyEpoch : Word := 0
  majorMax : Nat := 0
  tvbase   : DWord := 0
  frbase   : DWord := 0
  frctl    : Word := 0
  frprod   : Word := 0
  frcons   : Word := 0
  frdrop   : Word := 0
  busy     : Option Nat := none                   -- when the kill or reset under way began
  resetting : Bool := false
  dlbase   : DWord := 0
  dlenable : Bool := false
  dloverflow : Bool := false
  dlscan   : Option (List (Nat × Nat)) := none    -- objects still to log
  dlprod   : Word := 0
  dlcons   : Word := 0
  ctx      : CtxState := .running
  ctxSince : Nat := 0                             -- when STOPPING began, in ticks (R388)
  ctxAsked : Nat := 0                             -- when the pre-emption was requested, in ns (R395)
  forced   : Bool := false
  why      : SaveWhy := .host
  held     : Bool := false                        -- a TYPE 14 entry has been written (R400)
  decayAt  : Nat := 0                             -- end of the latest decay period
  hostWin  : List (Nat × Nat × Nat) := []         -- host windows granted: SERIAL, bus address, size (R172)
deriving DecidableEq, Repr, Inhabited

/-- A partition (R358, R362). -/
structure Part where
  enable  : Bool := false
  express : Bool := false
  cmask   : List (BitVec 128) := [0, 0, 0, 0]
deriving DecidableEq, Repr, Inhabited

/-- One realm's side of a window (R374, R375): attachments, the adopted version and its unpublished bytes, each with
the identifier of its write. -/
structure Side where
  plain  : Nat := 0
  write  : Nat := 0
  owners : List (Nat × (Nat × Nat)) := []         -- the attachments of each function, plain and write
  marks  : List (Nat × Nat) := []
deriving DecidableEq, Repr, Inhabited

/-- The life of a window. -/
inductive WinState where
  | idle | opened | scrubbing
deriving DecidableEq, Repr, Inhabited

/-- A window grant (R373 to R375). -/
structure Grant where
  ctl     : Word := 0
  realmA  : Word := 0
  realmB  : Word := 0
  state   : WinState := .idle
  serial  : Nat := 0
  version : Nat := 0
  key     : Nat := 0                              -- which draw of Config.windowKey
  root    : CounterBlock := {}                    -- of its images' counter tree
  height  : Nat := 1                              -- the levels of that tree
  die     : Nat := 0
  frames  : List Nat := []
  a       : Side := {}
  b       : Side := {}
deriving DecidableEq, Repr, Inhabited

/-- A recovery-log entry (R413). -/
structure LogEntry where
  time : Nat
  type : Nat
  die  : Nat
  unit : Nat
  vf   : Nat
  addr : Nat
deriving DecidableEq, Repr, Inhabited

/-- A package: its hub die (R17). -/
structure Chip where
  resetAt    : Nat := 0
  off        : Option Nat := none                 -- since when its module has no power (R418)
  nextSerial : Nat := 1
  nextGrid   : Nat := 1
  launches   : Nat := 0                           -- launches entered, which numbers their order
  vfs        : List (Nat × Vf) := []
  parts      : List (Nat × Part) := []
  grants     : List (Nat × Grant) := []
  entries    : List (Nat × Nat) := []             -- LAUNCHQ operations that hold a launch-queue entry, with partition
  turn       : List Nat := []                     -- partitions in the order served
  clockStep  : Int := 0                           -- steps applied to the IEEE 1588 clock, in ns
  sluiceAt   : Nat := 0                           -- microseconds of the latest sluice update
  rlbase     : DWord := 0
  rlctl      : Word := 0
  rlprod     : Word := 0
  rlcons     : Word := 0
  rldrop     : Word := 0
  log        : List LogEntry := []
  activeB    : Bool := false
  standby    : Bool := false
  updstat    : Nat := 0
  image      : DWord := 0
  version    : Nat := 1
  missed     : Nat := 0
  lone       : Bool := false                      -- the other complex is held in reset (R415)
  images     : Nat := 0                           -- patch images that reached the package
  fw         : Nat := 0                           -- the active complex's patch image, by load; 0 none
  fwOther    : Nat := 0                           -- the other's
  channels   : List Nat := List.replicate 8 0     -- key generation of each scale-out port's secure channel (R368)
  nodes      : List ((Nat × Nat × Nat) × CounterBlock) := []   -- inner counter blocks: owner of the key, level, block (R366)
  corrected  : Nat := 0                           -- corrected errors of the lockkeepers' SRAM (R411)
  temp       : Nat := 0
  slow       : Bool := false                      -- the 95 °C limit is in force
  hot        : Bool := false                      -- nothing new is placed
  pathless   : Option Nat := none                 -- since when no scale-up path remains (R410)
deriving DecidableEq, Repr, Inhabited

/-! ## Objects -/

/-- The state of an extent (R187). -/
inductive ExtState where
  | rest | pending | copying | committing
deriving DecidableEq, Repr, Inhabited

/-- A page of an object at its holder (R176): home die, frame and dirty bit (R403). -/
structure Page where
  die   : Nat := 0
  frame : Nat := 0
  dirty : Bool := false
deriving DecidableEq, Repr, Inhabited

/-- An extent (R174, R175, R181, R184, R187). -/
structure Extent where
  holder  : Nat := 0
  state   : ExtState := .rest
  dest    : Nat := 0
  stubs   : List (Nat × Nat) := []                -- site and successor
  queue   : List Nat := []                        -- accesses and engine work queued at the source (R147, R188)
  fwd     : List Nat := []                        -- requests that a commit forwarded to the holder, which it performs first (R189)
  loc     : Nat := 0                              -- affinity counters
  remote  : List (Nat × Nat) := [(0, 0), (0, 0)]
deriving DecidableEq, Repr, Inhabited

/-- The states of a Wellhead record. -/
inductive ObjState where
  | allocated | freeing
deriving DecidableEq, Repr, Inhabited

/-- An object: its Wellhead record and its holders' tables (R175, R176). A record that is FREE is absent. -/
structure Obj where
  chip    : Nat := 0                              -- the owner: a function of a package, with its realm (R360)
  vf      : Nat := 0
  realm   : Word := 0
  size    : Nat := 0
  log2    : Nat := 21
  pins    : Nat := 0
  group   : Option (Nat × Nat) := none
  state   : ObjState := .allocated
  extents : List Extent := []
  pages   : List Page := []
  summary : List Nat := []                        -- the packages whose entry has the dirty-summary bit set (R176, R403)
  waiting : List (Nat × Nat) := []                -- back-pressured requests with their extents, as they reached their source (R188)
deriving DecidableEq, Repr, Inhabited

/-- A move of one extent (R187). -/
structure Move where
  obj    : Nat × Nat
  ext    : Nat
  src    : Nat
  dest   : Nat
  die    : Nat := 0
  frames : List Nat := []
  acked  : Bool := false                          -- the Wellhead has recorded the destination
  ready  : Bool := false                          -- frames are reserved
  op     : Option Nat := none
  part   : Nat := 0
  vf     : Nat := 0
  held   : Option Nat := none                     -- waits for a migration queue entry since then (R192)
  batch  : Nat := 0                               -- the first move accepted with it: a group moves whole (R194)
  going  : Bool := false                          -- its copy, or that of another extent of its group, has begun
  who    : Nat × Nat := (0, 0)                    -- the function for which it was accepted, and its package (R401)
  walked : List Nat := []                         -- its pages that the Barge engine has translated (R182)
deriving DecidableEq, Repr, Inhabited

/-! ## Operations and messages -/

/-- What an access does. -/
inductive AccKind where
  | load | store | atomic
deriving DecidableEq, Repr, Inhabited

/-- A load, store or atomic (R237, R259). -/
structure Access where
  kind  : AccKind := .load
  ptr   : DWord := 0
  size  : Nat := 4
  sext  : Bool := false
  code  : Nat := 0                                -- opcode of an atomic
  t     : Bool := false
  data  : Nat := 0                                -- store data, operand or new value, little-endian
  cmp   : Nat := 0                                -- expected value
  acq   : Bool := false
  rel   : Bool := false
  scope : Nat := 0                                -- the level the scope acts as (R25)
  dst   : Nat := 255
deriving DecidableEq, Repr, Inhabited

/-- The answer to a request (R179). -/
inductive Answer where
  | served (chip : Nat) (value : Nat) (know : List Nat)
  | noObject
  | fault (cause : Nat)
  | retry
deriving DecidableEq, Repr, Inhabited

/-- Where a request stands (R178). -/
inductive Phase where
  | issued
  | sent (chip : Nat) (hop : Bool) (last : Bool)
  | wellhead
  | queued
  | walking
  | answered (a : Answer)
deriving DecidableEq, Repr, Inhabited

/-- The object-space instructions (R197). -/
inductive ObjCode where
  | alloc | free | pin | unpin | coloc | leave | locate | migrate | split | stubfree | info
deriving DecidableEq, Repr, Inhabited

structure ObjOp where
  code  : ObjCode := .alloc
  ptr   : DWord := 0
  b     : DWord := 0
  ctl   : Nat := 0
  die   : Nat := 0
  dst   : Nat := 255
  wide  : Bool := false
  stage : Nat := 0
  status : Nat := 0
deriving DecidableEq, Repr, Inhabited

/-- One core's share of a copy or of an XSEND.MC (R225, R227): the next byte of the next row, the claims it still holds,
and whether it was dropped. -/
structure Share where
  core   : Nat := 0
  row    : Nat := 0
  pos    : Nat := 0
  claims : List Nat := []
  dropped : Bool := false
  done   : Bool := false
deriving DecidableEq, Repr, Inhabited

/-- One copy: a COPY, or a record of a KICK (R223 to R231). -/
structure CopyOp where
  dst     : DWord := 0
  src     : DWord := 0
  len     : Nat := 0
  rows    : Nat := 1
  dstride : Int := 0
  sstride : Int := 0
  mc      : Bool := false
  nb      : Option Nat := none
  slot    : Option (Nat × Nat) := none            -- guard slot and epoch
  record  : Option DWord := none                  -- its record's address
  list    : Option Nat := none                    -- the KICK it belongs to
  shares  : List Share := []
  started : Bool := false
  err     : Option Nat := none
  sent    : Nat := 0                              -- bytes contributed
deriving DecidableEq, Repr, Inhabited

structure KickOp where
  list  : DWord := 0
  count : Nat := 0
  next  : Nat := 0
  mmio  : Bool := false                           -- still on its way to the KICK register
deriving DecidableEq, Repr, Inhabited

structure LineOp where
  entry : Nat := 0
  line  : Nat := 0
  ptr   : DWord := 0
  left  : List Nat := []                          -- lines of the run still to do
  run   : Nat := 0                                -- its lines in all
  bad   : Bool := false
deriving DecidableEq, Repr, Inhabited

/-- The codes of matrix commands. -/
inductive MatCode where
  | mmag | mmaq | mdrain
deriving DecidableEq, Repr, Inhabited

/-- A group's progress (R148): rows done, whether it is finished, and whether it was set aside. -/
structure GroupProg where
  done  : Nat := 0
  fin   : Bool := false
  aside : Bool := false
deriving DecidableEq, Repr, Inhabited

/-- A matrix command (R138 to R160). -/
structure MatOp where
  code    : MatCode := .mmag
  members : List ThreadId := []                   -- active members, by lane
  quad    : QuadId := default
  tile    : Nat := 0                              -- physical tile
  queue   : Nat := 0
  acc     : Bool := false
  zero    : Bool := false
  zonly   : Bool := false
  resume  : Bool := false
  a       : DWord := 0
  b       : DWord := 0
  fmt     : Word := 0
  stride  : Nat := 0
  rmode   : Nat := 0                              -- resolved rounding mode of a drain
  seed    : Word := 0                             -- generator state at the drain's first element
  nbv     : Nat := 2
  slot    : Option (Nat × Nat) := none
  nb      : Option Nat := none
  prog    : DWord := 0                            -- voted %rowprog of a resuming command
  begun   : Bool := false
  ended   : Bool := false                         -- every step applied (into its target or its shadow)
  shadow  : Option Nat := none
  header  : List Byte := []                       -- handle or block bytes, as read (R134)
  groups  : List GroupProg := []
  group   : Nat := 0
  batch   : Nat := 0
  bend    : Nat := 0
  block   : Nat := 0
  row     : Nat := 0
  active  : Bool := false                         -- a batch is in progress
  loadB   : List (List Byte × Byte) := []         -- rows of B and A of the present block as read, with their scales (R134)
  loadA   : List (List Byte × Byte) := []
  left    : List Nat := []                        -- a drain's elements, or words of TF6, not yet written (R165)
  pass    : Nat := 0                              -- 0 the first pass over the groups, 1 the return, 2 waiting, 3 reading entries again (R148, R149)
  err     : Option (Nat × DWord) := none          -- cause and faulting address
deriving DecidableEq, Repr, Inhabited

/-- The codes of transfers. -/
inductive XCode where
  | send | fetch | add
deriving DecidableEq, Repr, Inhabited

/-- A transaction under way (R288): its source bytes and scales as read, or what they convert to, and how many destination bytes it
has written. -/
structure XferPart where
  tran   : Nat
  pos    : Nat := 0
  data   : List Byte := []
  scales : List Byte := []
deriving DecidableEq, Repr, Inhabited

/-- A transfer or a firing of a work entry (R285 to R299). -/
structure XferOp where
  code    : XCode := .send
  dst     : DWord := 0
  src     : DWord := 0
  scale   : DWord := 0
  count   : Nat := 0                              -- source elements
  len     : Nat := 0                              -- destination bytes
  sfmt    : Nat := 9
  dfmt    : Nat := 9
  int     : Bool := false
  sat     : Bool := false
  handle  : Option DWord := none
  nb      : Option Nat := none
  nbBytes : Nat := 0                              -- bytes the local contribution carries
  slot    : Option (Nat × Nat) := none
  shares  : List Share := []                      -- of XSEND.MC, or the issuer's own claims
  mc      : Bool := false
  todo    : List Nat := []                        -- transactions not begun: destination blocks
  parts   : List XferPart := []                   -- those under way
  wrote   : Nat := 0                              -- bytes of those performed
  started : Option Nat := none                    -- since when it runs (R294)
  err     : Option Nat := none
  signals : Nat := 0                              -- remote signals sent and not yet applied or dropped
  signalled : Bool := false
  slotOf  : Option Nat := none                    -- the entry slot of a firing
  red     : Option (Nat × Nat) := none            -- domain and group of its reduction slot
  sum     : Bool := false                         -- it carries the slot's one add, and its data are sums (R303)
  rides   : Option Nat := none                    -- the firing whose add it waits for
  cut     : Bool := false                         -- it ends with ERR once the transactions under way are performed (R288, R391)
  errAt   : DWord := 0                            -- the address that its fault names
  entryAt : DWord := 0                            -- the address of a firing's entry (R399)
  issued  : Nat := 0
  fork    : Nat := 0                              -- the operation whose issue it forks from (R253)
deriving DecidableEq, Repr, Inhabited

/-- The window instructions and KEYQ (R376 to R379). -/
inductive WinCode where
  | winOpen | winRel | winAcq | winClose | epoch | wepoch | report
deriving DecidableEq, Repr, Inhabited

structure WinOp where
  code : WinCode := .winOpen
  ptr  : DWord := 0
  w    : Nat := 0
  wr   : Bool := false
  dst  : Nat := 255
deriving DecidableEq, Repr, Inhabited

/-- What an outstanding operation is. -/
inductive OpBody where
  | access (a : Access)
  | clock (dst : Nat)
  | obj (o : ObjOp)
  | copy (c : CopyOp)
  | kick (k : KickOp)
  | cfill (l : LineOp)
  | cevict (l : LineOp)
  | matrix (m : MatOp)
  | xfer (x : XferOp)
  | post (ptr : DWord) (cancel : Bool) (slot : Option (Nat × Nat)) (nb : Option Nat) (dst : Nat) (copy : Option Entry)
  | tfetch (dst : Nat) (lin : Bool)
  | launchq (ptr : DWord) (dst : Nat) (entered : Bool)
  | message (msg : Nat) (rel : Bool)
  | win (w : WinOp)
  | mmio (offset : Nat) (value : DWord) (size : Nat) (rel : Option Nat)      -- the level of a release
deriving DecidableEq, Repr, Inhabited

/-- For whom a store of the device itself acts, a function of a package, and where the STATUS lies that it writes last
(R298, R325). -/
structure Device where
  chip : Nat
  vf   : Nat
  off  : Nat := 0
  len  : Nat := 4
deriving DecidableEq, Repr, Inhabited

/-- An outstanding operation: its issuer and issuing word, the counter it is counted on, the registers it interlocks
(R40), where its request stands, since when it is back-pressured (R393), the releases it follows (R245), its cohort's count
(R420), what comes before it (R249) and, for an engine operation, what a release of its thread adds to that (R253); closing:
its work is done, and it ends with its last arrival message (R229); device: no thread issued it. -/
structure Op where
  thread : ThreadId := default
  ctr    : Option Nat := none
  pc     : DWord := 0
  word   : Nat := 0
  iword  : DWord := 0
  dst    : List Nat := []
  phase  : Phase := .issued
  held   : Option Nat := none
  barriers : List Barrier := []
  seq    : Nat := 0
  know   : List Nat := []
  edges  : List Edge := []
  closing : Bool := false
  device : Option Device := none
  body   : OpBody := .clock 255
deriving DecidableEq, Repr, Inhabited

/-- A contribution to an arrival register (R268, R269). -/
structure Contribution where
  bytes  : Nat := 0
  member : Bool := false
  flags  : NbFlags := {}
  know   : List Edge := []
deriving DecidableEq, Repr, Inhabited

/-- What a message on its way does where it arrives. -/
inductive MsgBody where
  | contribute (c : CohortId) (nb : Nat) (k : Contribution)
  | nbset (c : CohortId) (nb : Nat) (members : BitVec 16) (bytes : Word)
  | signal (handle : DWord) (from' : Nat × Word) (dst : DWord) (k : Contribution) (xfer : Nat)   -- from a package and realm
  | resolve (c : CohortId) (slot : Nat) (value : Bool)
  | cancel (c : CohortId) (slot : Nat)
deriving DecidableEq, Repr, Inhabited

/-- A message: what it does, the operation that ends with it, the one that it waits for (R325), and the thread whose token it
sets (R270). -/
structure Msg where
  body   : MsgBody
  op     : Option Nat := none
  after  : Option Nat := none
  token  : Option ThreadId := none
deriving DecidableEq, Repr, Inhabited

/-- A switch reduction slot (R303): participants asked for, the entries joined so far as (die, entry slot), the firings of the
round under way whose contribution is in, whether one of them or a reset has spoiled it, the participants that have fired in it, and
those that a reset has taken away before they fired. -/
structure RedSlot where
  rcount  : Nat := 0
  members : List (DieId × Nat) := []
  ready   : List Nat := []
  bad     : Bool := false
  came    : List (DieId × Nat) := []
  lost    : Nat := 0
deriving DecidableEq, Repr, Inhabited

/-- A store that some dies do not see yet (R249): its operation, its place, the old bytes and the edges that it has replaced
there, the tracked writes that come before it, and the dies that see it. -/
structure Lag where
  op   : Nat
  lo   : Nat
  old  : List Byte
  syncs : List Sync
  know : List Nat
  seen : List DieId
deriving DecidableEq, Repr

/-- A pin (R251): the cohort and its scope. -/
structure Pin where
  cohort : CohortId
  scope  : Nat
deriving DecidableEq, Repr, Inhabited

/-- The banks of one owner on one core, as saved (R211, R397): bytes, and writer counts apart from those of armed slots. -/
structure SavedBanks where
  core    : CoreId
  part    : Nat
  cells   : List Host.Cell
  writers : List (Nat × Nat)
  failed  : List Nat                              -- failed lines in them (R411)
  prods   : List (Nat × Word) := []               -- LRPROD of the owner's rings, with which frames landed since are known
deriving DecidableEq, Repr

/-- The tiles of one cohort on one quadrant, as saved, with their poison bits (R160). -/
structure SavedTiles where
  cohort : CohortId
  quad   : Nat
  data   : List (List Word)
  poison : List Bool
deriving DecidableEq, Repr

/-- What a save holds of a context's cores (R397): the cistern banks of each core with their writer counts, the tiles of
each cohort's quadrants, and the image of each cohort's sections. -/
structure SaveArea where
  forced  : Bool := false
  time    : Nat := 0
  banks   : List SavedBanks := []
  tiles   : List SavedTiles := []
  shadows : List (QuadId × Nat × Shadow) := []
  queues  : List (QuadId × Nat × List Nat) := []  -- the context's commands in each tile queue
  images  : List (CohortId × List Byte) := []
  maps    : List ((CoreId × Nat) × List Byte) := []       -- the banks of each owner on each core, with their presence maps
deriving DecidableEq, Repr

/-! ## The machine -/

/-- A package of the pod: its chip number and scale-up domain (R23). -/
structure Package where
  chip   : Nat
  domain : Nat
  switch : Nat := 0                               -- reduction slots its switch offers (R303)
deriving DecidableEq, Repr, Inhabited

/-- The state of the pod. An entry that a table does not list is that unit's record at reset. -/
structure State where
  now     : Nat                                   -- ticks of 3.6 GHz
  turns   : List Turn                             -- which agent moves next (MODEL, log 1)
  draws   : Nat                                   -- free values drawn (MODEL, log 2)
  issuing : Option (QuadId × Nat)                 -- the bundle whose word issues (MODEL)
  nextId  : Nat                                   -- fresh identifiers, in issue order (MODEL, log 2)
  pod     : List Package
  mem     : List Host.Cell
  failed  : List Nat                              -- failed 64-byte lines (R367, R411)
  chips   : Tab Nat Chip
  dies    : Tab DieId Die
  cores   : Tab CoreId Core
  quads   : Tab QuadId Quad
  grids   : Tab (Nat × Nat) Grid
  cohorts : Tab CohortId Cohort
  threads : Tab ThreadId Thread
  objects : Tab (Nat × Nat) Obj
  ops     : Tab Nat Op
  msgs    : Tab Nat Msg
  moves   : Tab Nat Move
  pins    : Tab Nat Pin
  symbols : Tab (Nat × Nat) (Nat × Nat)           -- objects allocated once for the pod, by program and symbol (R208)
  syncs   : List Sync
  lags    : List Lag                              -- newest first
  scFences : List (Nat × ThreadId × List Nat)     -- FENCE.SC in the order S (R250)
  redSlots : Tab (Nat × Nat) RedSlot
  saves   : Tab (Nat × Nat) SaveArea
deriving DecidableEq, Repr

/-- The machine after module reset (R6, R170, R186, R283, R302, R321, R334, R358, R383, R413, R416, R417): every table
empty, so every unit at its reset record; one package, chip 0, alone in the pod (log 4). -/
def State.reset : State where
  now := 0
  turns := []
  draws := 0
  issuing := none
  nextId := 1
  pod := [{ chip := 0, domain := 0 }]
  mem := []
  failed := []
  chips := []
  dies := []
  cores := []
  quads := []
  grids := []
  cohorts := []
  threads := []
  objects := []
  ops := []
  msgs := []
  moves := []
  pins := []
  symbols := []
  syncs := []
  lags := []
  scFences := []
  redSlots := []
  saves := []

end Sys2Proof.Machine
end

