-- ==== Sys2Proof/Machine/Memory.lean ====
section
/-! DEFINITION. Memory: one canonical list of bytes for every space that a program, an engine or the host reaches, and
the places of those spaces in it. A byte that the list does not hold reads zero (R173, R211, R417; log 3). -/

namespace Sys2Proof.Machine

/-- The canonical form: addresses strictly rise, and no listed byte is zero. -/
def Memory.wf : List Host.Cell → Bool
  | [] => true
  | [(_, b)] => b ≠ 0
  | (a, b) :: (a', b') :: m => b ≠ 0 && a < a' && Memory.wf ((a', b') :: m)

/-- The byte at an address. -/
def Memory.read : List Host.Cell → Nat → Byte
  | [], _ => 0
  | (a', b) :: m, a => if a' = a then b else if a < a' then 0 else Memory.read m a

/-- Memory with a byte written. -/
def Memory.write : List Host.Cell → Nat → Byte → List Host.Cell
  | [], a, v => if v = 0 then [] else [(a, v)]
  | (a', b) :: m, a, v =>
    if a < a' then (if v = 0 then (a', b) :: m else (a, v) :: (a', b) :: m)
    else if a' = a then (if v = 0 then m else (a, v) :: m)
    else (a', b) :: Memory.write m a v

/-- The n bytes from an address up (R5). -/
def Memory.readBytes (m : List Host.Cell) (a : Nat) : Nat → List Byte
  | 0 => []
  | n + 1 => Memory.read m a :: Memory.readBytes m (a + 1) n

/-- Bytes written from an address up (R5). -/
def Memory.writeBytes (m : List Host.Cell) (a : Nat) : List Byte → List Host.Cell
  | [] => m
  | b :: bs => Memory.writeBytes (Memory.write m a b) (a + 1) bs

/-- The little-endian number in the n bytes from an address (R5). -/
def Memory.readNat (m : List Host.Cell) (a n : Nat) : Nat := ofBytesLE (Memory.readBytes m a n)

/-- A number written little-endian in the n bytes from an address (R5). -/
def Memory.writeNat (m : List Host.Cell) (a n v : Nat) : List Host.Cell := Memory.writeBytes m a (bytesLE n v)

/-- Memory with the bytes of a range zeroed. -/
def Memory.clear (m : List Host.Cell) (a n : Nat) : List Host.Cell := m.filter fun c => c.1 < a || a + n ≤ c.1

/-- The listed bytes of a range. -/
def Memory.slice (m : List Host.Cell) (a n : Nat) : List Host.Cell := m.filter fun c => a ≤ c.1 && c.1 < a + n

/-! ## Object pointers (R169) -/

def birthOf (p : DWord) : Nat := p.toNat / 2 ^ 52
def serialOf (p : DWord) : Nat := p.toNat / 2 ^ 30 % 2 ^ 22
def offsetOf (p : DWord) : Nat := p.toNat % 2 ^ 30
def mkPtr (birth serial offset : Nat) : DWord := BitVec.ofNat 64 (2 ^ 52 * birth + 2 ^ 30 * serial + offset)
def isGlobal (p : DWord) : Bool := birthOf p < 0xFFE
/-- A global pointer that may name an object (R170). -/
def namesObject (p : DWord) : Bool := isGlobal p && serialOf p ≠ 0
/-- A pointer moved by n bytes, with BIRTH and SERIAL kept (R224, R300). -/
def ptrAdd (p : DWord) (n : Int) : DWord := mkPtr (birthOf p) (serialOf p) ((offsetOf p + n) % 2 ^ 30).toNat
/-- Whether the pointer moved by n bytes stays within OFFSET (R224). -/
def ptrFits (p : DWord) (n : Int) : Bool := 0 ≤ (offsetOf p : Int) + n && (offsetOf p : Int) + n < 2 ^ 30

/-! ## Places of the spaces in memory -/

def coreNum (c : CoreId) : Nat := (c.chip * 4 + c.die) * 64 + c.core
/-- A byte of a global object: the pointer itself (R169). -/
def globalAt (p : DWord) : Nat := p.toNat
/-- A byte of a thread's private memory (R171). -/
def privateAt (t : ThreadId) (off : Nat) : Nat :=
  2 ^ 128 + 2 ^ 30 * (4096 * (65536 * coreNum t.cohort.toCore + t.cohort.grid) + t.tid) + off
/-- A byte of a core's cistern (R171, R210). -/
def cisternAt (c : CoreId) (off : Nat) : Nat := 2 * 2 ^ 128 + 2 ^ 21 * coreNum c + off
/-- A byte of host memory by its bus address (R172, R383). -/
def hostAt (chip bus : Nat) : Nat := 3 * 2 ^ 128 + 2 ^ 64 * chip + bus
/-- A byte of an image of a window: 0 published, 1 realm A's view, 2 realm B's (R374). -/
def windowAt (chip grant img off : Nat) : Nat := 4 * 2 ^ 128 + 2 ^ 30 * (4 * (256 * chip + grant) + img) + off

end Sys2Proof.Machine
end

