-- ==== Sys2Proof/Machine/Flags.lean ====
section
/-! DEFINITION. Integer results by width: wrapping and saturation (R74, R102), division (R103), shifts (R105), logic and
bit fields (R106, R107), counts (R108) and the comparisons that set predicates (R109). The device keeps no flags
(R71); a comparison's outcome is a predicate. -/

namespace Sys2Proof.Machine

/-- saturate(fmt, x) for an integer format of n bits (R74). -/
def satS (n : Nat) (x : Int) : Int := max (-(2 ^ (n - 1))) (min (2 ^ (n - 1) - 1) x)
def satU (n : Nat) (x : Int) : Int := max 0 (min (2 ^ n - 1) x)

/-- IADD (R102). -/
def addOf (n ctl : Nat) (a b : BitVec n) : BitVec n :=
  if ctl = 1 then BitVec.ofInt n (satS n (a.toInt + b.toInt))
  else if ctl = 2 then BitVec.ofInt n (satU n ((a.toNat : Int) + b.toNat))
  else a + b
/-- ISUB (R102). -/
def subOf (n ctl : Nat) (a b : BitVec n) : BitVec n :=
  if ctl = 1 then BitVec.ofInt n (satS n (a.toInt - b.toInt))
  else if ctl = 2 then BitVec.ofInt n (satU n ((a.toNat : Int) - b.toNat))
  else a - b
/-- IMULHI: the high half of the double-width product (R102). -/
def mulhiOf (n ctl : Nat) (a b : BitVec n) : BitVec n :=
  if ctl = 1 then BitVec.ofNat n (a.toNat * b.toNat / 2 ^ n) else BitVec.ofInt n (a.toInt * b.toInt / 2 ^ n)
/-- IDIVS and IDIVU: quotient, or remainder under .REM (R103). -/
def divOf (n ctl : Nat) (signed : Bool) (a b : BitVec n) : BitVec n :=
  let x : Int := if signed then a.toInt else a.toNat
  let y : Int := if signed then b.toInt else b.toNat
  let q : Int := if y = 0 then -1 else Int.tdiv x y
  let m : Int := if y = 0 then x else x - q * y
  BitVec.ofInt n (if ctl = 1 then m else q)
/-- IMIN and IMAX (R104). -/
def minOf (n ctl : Nat) (a b : BitVec n) : BitVec n :=
  if ctl = 1 then (if a.toNat ≤ b.toNat then a else b) else (if a.toInt ≤ b.toInt then a else b)
def maxOf (n ctl : Nat) (a b : BitVec n) : BitVec n :=
  if ctl = 1 then (if a.toNat ≥ b.toNat then a else b) else (if a.toInt ≥ b.toInt then a else b)
/-- SHL, SHR and SAR: an amount of the width or more empties the value, or leaves copies of its sign (R105). -/
def shlOf (n : Nat) (a : BitVec n) (k : Nat) : BitVec n := if k ≥ n then 0 else a <<< k
def shrOf (n : Nat) (a : BitVec n) (k : Nat) : BitVec n := if k ≥ n then 0 else a >>> k
def sarOf (n : Nat) (a : BitVec n) (k : Nat) : BitVec n := a.sshiftRight (min k n)
/-- A three-input function by its truth table: A selects index bit 0, C bit 1, D_old bit 2 (R106). -/
def lop3Of (n : Nat) (a table c d : BitVec n) : BitVec n :=
  BitVec.ofNat n (((List.range n).map fun j =>
    if table.getLsbD ((if a.getLsbD j then 1 else 0) + (if c.getLsbD j then 2 else 0) + (if d.getLsbD j then 4 else 0))
    then 2 ^ j else 0).foldl (· + ·) 0)
def klogOf (table : Word) (a c d : Bool) : Bool :=
  table.getLsbD ((if a then 1 else 0) + (if c then 2 else 0) + (if d then 4 else 0))
/-- BFE (R107). -/
def bfeOf (ctl : Nat) (a b : Word) : Word :=
  let pos := b.toNat % 256
  let w := min 32 (b.toNat / 256 % 256)
  if w = 0 then 0
  else if ctl = 1 then BitVec.ofInt 32 (sextN ((a.sshiftRight (min pos 32)).toNat % 2 ^ w) w)
  else BitVec.ofNat 32 (a.toNat / 2 ^ pos % 2 ^ w)
/-- BFI (R107). -/
def bfiOf (a b c : Word) : Word :=
  let pos := b.toNat % 256
  let w := min 32 (b.toNat / 256 % 256)
  if pos ≥ 32 ∨ w = 0 then c
  else
    let mask : Word := BitVec.ofNat 32 (2 ^ min (pos + w) 32 - 2 ^ pos)
    (c &&& ~~~mask) ||| ((a <<< pos) &&& mask)
/-- POPC, CLZ and BREV (R108). -/
def popcOf (a : Word) : Word := BitVec.ofNat 32 ((List.range 32).filter fun j => a.getLsbD j).length
def clzOf (a : Word) : Word := BitVec.ofNat 32 (if a = 0 then 32 else 31 - Nat.log2 a.toNat)
def brevOf (a : Word) : Word := BitVec.ofNat 32 (((List.range 32).map fun j => if a.getLsbD j then 2 ^ (31 - j) else 0).foldl (· + ·) 0)
/-- The comparison codes of ISETP (R109). -/
def compareOf (n ctl : Nat) (a b : BitVec n) : Bool :=
  match ctl with
  | 0 => a = b
  | 1 => a.toInt < b.toInt
  | 2 => a.toInt ≤ b.toInt
  | 3 => a.toInt > b.toInt
  | 4 => a.toInt ≥ b.toInt
  | 5 => a ≠ b
  | 9 => a.toNat < b.toNat
  | 10 => a.toNat ≤ b.toNat
  | 11 => a.toNat > b.toNat
  | 12 => a.toNat ≥ b.toNat
  | _ => false

end Sys2Proof.Machine
end

