-- ==== Sys2Proof/Machine/Formats.lean ====
section
/-! DEFINITION. Number formats (R71 to R94): exact values of encodings, exact sums and products, and the rounding of an
exact real to a format (R86 to R92). -/

namespace Sys2Proof.Machine

/-- The exact value of an encoding: finite values are ± m × 2^e. -/
inductive Val where
  | nan
  | inf (neg : Bool)
  | fin (neg : Bool) (m : Nat) (e : Int)
deriving DecidableEq, Repr, Inhabited

/-- The fraction width and bias of an IEEE format or E4M3 (R75, R77): codes 0 to 3 of R72. -/
def fracBits (fmt : Nat) : Nat := match fmt with | 0 => 23 | 1 => 10 | 2 => 7 | _ => 3
def expBits (fmt : Nat) : Nat := match fmt with | 0 => 8 | 1 => 5 | 2 => 8 | _ => 4
def biasOf (fmt : Nat) : Int := match fmt with | 0 => 127 | 1 => 15 | 2 => 127 | _ => 7
/-- The width of a format (R72). -/
def fmtBits (fmt : Nat) : Nat :=
  match fmt with
  | 0 => 32 | 1 => 16 | 2 => 16 | 3 => 8 | 4 => 8 | 5 => 6 | 8 => 8 | 9 => 8 | 10 => 16 | 11 => 16 | 12 => 32 | 13 => 32
  | _ => 64
def isInt (fmt : Nat) : Bool := fmt ≥ 8
def isSigned (fmt : Nat) : Bool := fmt % 2 = 0

/-- An IEEE or E4M3 encoding's value (R75, R77). -/
def decodeIeee (fmt p : Nat) : Val :=
  let w := fracBits fmt
  let x := expBits fmt
  let s := p / 2 ^ (w + x) % 2 = 1
  let e := p / 2 ^ w % 2 ^ x
  let f := p % 2 ^ w
  if fmt = 3 then
    if e = 15 ∧ f = 7 then .nan
    else if e = 0 then .fin s f (1 - biasOf fmt - w) else .fin s (2 ^ w + f) (e - biasOf fmt - w)
  else if e = 2 ^ x - 1 then (if f = 0 then .inf s else .nan)
  else if e = 0 then .fin s f (1 - biasOf fmt - w)
  else .fin s (2 ^ w + f) (e - biasOf fmt - w)

/-- The length of the run of bits equal to lead from bit n downward in p (R82). -/
def runLength (p : Nat) (lead : Nat) : Nat → Nat
  | 0 => if p % 2 = lead then 1 else 0
  | n + 1 => if p / 2 ^ (n + 1) % 2 = lead then 1 + runLength p lead n else 0

/-- A tapered code's value (R82). -/
def decodeTapered (p n es : Nat) : Val :=
  if p = 0 then .fin false 0 0
  else if p = 2 ^ (n - 1) then .nan
  else
    let s := p / 2 ^ (n - 1) % 2 = 1
    let p := if s then 2 ^ n - p else p
    let lead := p / 2 ^ (n - 2) % 2
    let m := runLength p lead (n - 2)
    let k : Int := if lead = 1 then (m : Int) - 1 else -(m : Int)
    let r := if m = n - 1 then 0 else n - 2 - m
    let (e, fb) :=
      if es = 0 then (0, r)
      else if r ≥ es then (p / 2 ^ (r - es) % 2 ^ es, r - es)
      else if r = 0 then (0, 0)
      else (p % 2 ^ r * 2 ^ (es - r), 0)
    .fin s (2 ^ fb + p % 2 ^ fb) (k * 2 ^ es + e - fb)

/-- val(x, fmt) (R95): the exact value of the low bits of x in a format. -/
def valOf (fmt x : Nat) : Val :=
  let p := x % 2 ^ fmtBits fmt
  match fmt with
  | 0 | 1 | 2 | 3 => decodeIeee fmt p
  | 4 => decodeTapered p 8 1
  | 5 => decodeTapered p 6 0
  | _ => if isSigned fmt then let v := sextN p (fmtBits fmt); .fin (v < 0) v.natAbs 0 else .fin false p 0

/-- The canonical NaN or NaR of a format (R75, R77, R81). -/
def nanOf (fmt : Nat) : Nat := match fmt with | 0 => 0x7FC00000 | 1 => 0x7E00 | 2 => 0x7FC0 | 3 => 0x7F | 4 => 0x80 | 5 => 0x20 | _ => 0
/-- The magnitude code of a format's largest finite value. -/
def maxCode (fmt : Nat) : Nat :=
  match fmt with
  | 0 => 0x7F7FFFFF | 1 => 0x7BFF | 2 => 0x7F7F | 3 => 0x7E | 4 => 0x7F | 5 => 0x1F | _ => 0
/-- The infinity code of an IEEE format. -/
def infCode (fmt : Nat) : Nat := (2 ^ expBits fmt - 1) * 2 ^ fracBits fmt
def signBit (fmt : Nat) (neg : Bool) : Nat := if neg then 2 ^ (fmtBits fmt - 1) else 0

/-! ## Positive reals -/

/-- A positive real: the floor of its binary logarithm, and, for each k, the floor of its 2^k-fold with whether that is
exact. -/
structure PosReal where
  lg : Int
  fl : Int → Nat × Bool

/-- m × 2^e, for m > 0. -/
def PosReal.dyadic (m : Nat) (e : Int) : PosReal where
  lg := Nat.log2 m + e
  fl k := if 0 ≤ e + k then (m * 2 ^ (e + k).toNat, true) else (m / 2 ^ (-(e + k)).toNat, m % 2 ^ (-(e + k)).toNat = 0)

/-- What a format keeps of a real: the magnitude code c, the first 32 bits of the tail t, and whether the tail holds
nothing more (R87). -/
structure Split where
  c    : Nat
  t32  : Nat
  rest : Bool

/-- c and t for an IEEE format or E4M3 with an unlimited exponent (R87). -/
def splitIeee (fmt : Nat) (v : PosReal) : Split :=
  let w := fracBits fmt
  let sub := v.lg < 1 - biasOf fmt
  let q : Int := if sub then 1 - biasOf fmt - w else v.lg - w
  let n := (v.fl (-q)).1
  let (u, exact) := v.fl (32 - q)
  { c := if sub then n else ((v.lg + biasOf fmt).toNat) * 2 ^ w + (n - 2 ^ w), t32 := u % 2 ^ 32, rest := !exact }

/-- c and t for a tapered format: the regime, its terminator, the exponent bits and the fraction, continued without end (R87). -/
def splitTapered (n es : Nat) (v : PosReal) : Split :=
  let k : Int := v.lg / (2 ^ es : Nat)
  let e : Nat := (v.lg % (2 ^ es : Nat)).toNat
  let (reg, len) : Nat × Nat := if 0 ≤ k then ((2 ^ (k.toNat + 1) - 1) * 2, k.toNat + 2) else (1, (-k).toNat + 1)
  let r := reg * 2 ^ es + e
  let d : Int := (n : Int) - 1 - len - es + 32
  let (u, exact) :=
    if 0 ≤ d then
      let (x, ex) := v.fl (d - v.lg)
      (r * 2 ^ d.toNat + (x - 2 ^ d.toNat), ex)
    else (r / 2 ^ (-d).toNat, r % 2 ^ (-d).toNat = 0 && (v.fl (-v.lg)).2)
  { c := u / 2 ^ 32, t32 := u % 2 ^ 32, rest := !exact }

/-- c and t for an integer format (R87). -/
def splitInt (v : PosReal) : Split :=
  let (u, exact) := v.fl 32
  { c := u / 2 ^ 32, t32 := u % 2 ^ 32, rest := !exact }

/-- Whether a rounding mode chooses hi (R87, R89); r is the generator's new state in mode RS. -/
def chooseHi (mode : Nat) (neg : Bool) (p : Split) (r : Nat) : Bool :=
  match mode with
  | 1 => p.t32 > 2 ^ 31 || (p.t32 = 2 ^ 31 && (p.rest || p.c % 2 = 1))
  | 3 => !neg && (p.t32 ≠ 0 || p.rest)
  | 4 => neg && (p.t32 ≠ 0 || p.rest)
  | 5 => p.t32 + r ≥ 2 ^ 32
  | _ => false

/-- An out-of-range result of an IEEE format or E4M3 (R88). -/
def overflowOf (fmt mode : Nat) (sat neg : Bool) : Nat :=
  let big := signBit fmt neg + maxCode fmt
  let out := if fmt = 3 then nanOf 3 else signBit fmt neg + infCode fmt
  if sat then big
  else match mode with
    | 2 => big
    | 3 => if neg then big else out
    | 4 => if neg then out else big
    | _ => out

/-- A tapered code of a sign and magnitude: negative values are two's complements (R81). -/
def taperedCode (n : Nat) (neg : Bool) (c : Nat) : Nat := if neg then 2 ^ n - c else c

/-- round_to(fmt, ± v, mode) of a positive real v (R87 to R92), as an encoding in the format's width. -/
def roundPos (fmt mode : Nat) (sat neg : Bool) (v : PosReal) (r : Nat) : Nat :=
  match fmt with
  | 0 | 1 | 2 | 3 =>
    let p := splitIeee fmt v
    let code := if chooseHi mode neg p r then p.c + 1 else p.c
    if code > maxCode fmt then overflowOf fmt mode sat neg else signBit fmt neg + code
  | 4 | 5 =>
    let n := fmtBits fmt
    let p := splitTapered n (if fmt = 4 then 1 else 0) v
    let code := if chooseHi mode neg p r then p.c + 1 else p.c
    taperedCode n neg (max 1 (min code (2 ^ (n - 1) - 1)))
  | _ =>
    let p := splitInt v
    let code : Int := if chooseHi mode neg p r then p.c + 1 else p.c
    let x := if neg then -code else code
    wrapN (if isSigned fmt then satS (fmtBits fmt) x else satU (fmtBits fmt) x) (fmtBits fmt)

/-- round_to(fmt, x, mode) of an exact finite value, with the sign of a zero given (R76, R87). -/
def roundFin (fmt mode : Nat) (sat neg : Bool) (m : Nat) (e : Int) (r : Nat) : Nat :=
  if m = 0 then (if fmt < 4 then signBit fmt neg else 0)
  else roundPos fmt mode sat neg (.dyadic m e) r

/-- The conversion of an infinite value (R92). -/
def infOf (fmt : Nat) (sat neg : Bool) : Nat :=
  match fmt with
  | 0 | 1 | 2 => if sat then signBit fmt neg + maxCode fmt else signBit fmt neg + infCode fmt
  | 3 => if sat then signBit 3 neg + maxCode 3 else nanOf 3
  | 4 | 5 => if sat then taperedCode (fmtBits fmt) neg (maxCode fmt) else nanOf fmt
  | _ =>
    let n := fmtBits fmt
    if isSigned fmt then (if neg then 2 ^ (n - 1) else 2 ^ (n - 1) - 1) else (if neg then 0 else 2 ^ n - 1)

/-- The conversion of a value to a format (R92, R122). -/
def convertVal (fmt mode : Nat) (sat : Bool) (v : Val) (r : Nat) : Nat :=
  match v with
  | .nan => nanOf fmt
  | .inf neg => infOf fmt sat neg
  | .fin neg m e => roundFin fmt mode sat neg m e r

/-- An integer converted to an integer format (R92). -/
def convertInt (src dst : Nat) (sat : Bool) (x : Nat) : Nat :=
  let p := x % 2 ^ fmtBits src
  let v : Int := if isSigned src then sextN p (fmtBits src) else p
  let n := fmtBits dst
  wrapN (if sat then (if isSigned dst then satS n v else satU n v) else v) n

/-- The 32-bit xorshift generator (R89). -/
def xsNext (s : Word) : Word :=
  let s := s ^^^ (s <<< 13)
  let s := s ^^^ (s >>> 17)
  s ^^^ (s <<< 5)

/-! ## Exact arithmetic -/

/-- A finite value as an integer multiple of 2^e. -/
def scaled (neg : Bool) (m : Nat) (shift : Nat) : Int := if neg then -((m * 2 ^ shift : Nat) : Int) else ((m * 2 ^ shift : Nat) : Int)

/-- x + y, exactly; an exact zero from opposite signs is −0 in mode RD only (R76). -/
def addVal (mode : Nat) (x y : Val) : Val :=
  match x, y with
  | .nan, _ | _, .nan => .nan
  | .inf a, .inf b => if a = b then .inf a else .nan
  | .inf a, _ => .inf a
  | _, .inf b => .inf b
  | .fin a m e, .fin b n f =>
    let g := min e f
    let s := scaled a m (e - g).toNat + scaled b n (f - g).toNat
    if s = 0 then .fin (if a = b then a else mode = 4) 0 0 else .fin (s < 0) s.natAbs g

def negVal : Val → Val
  | .nan => .nan
  | .inf a => .inf (!a)
  | .fin a m e => .fin (!a) m e

/-- x × y, exactly. -/
def mulVal (x y : Val) : Val :=
  match x, y with
  | .nan, _ | _, .nan => .nan
  | .inf a, .inf b => .inf (a != b)
  | .inf a, .fin b n _ => if n = 0 then .nan else .inf (a != b)
  | .fin a m _, .inf b => if m = 0 then .nan else .inf (a != b)
  | .fin a m e, .fin b n f => .fin (a != b) (m * n) (e + f)

/-- The result of an FP operation with exact value v (R115, R116): infinities that do not come from rounding are
replaced under .SAT alone. -/
def deliver (fmt mode : Nat) (sat : Bool) (v : Val) (r : Nat) : Nat :=
  match v with
  | .nan => nanOf fmt
  | .inf neg => if sat then signBit fmt neg + maxCode fmt else signBit fmt neg + infCode fmt
  | .fin neg m e => roundFin fmt mode sat neg m e r

def faddBits (fmt mode : Nat) (sat : Bool) (x y r : Nat) : Nat := deliver fmt mode sat (addVal mode (valOf fmt x) (valOf fmt y)) r
def fsubBits (fmt mode : Nat) (sat : Bool) (x y r : Nat) : Nat :=
  deliver fmt mode sat (addVal mode (valOf fmt x) (negVal (valOf fmt y))) r
def fmulBits (fmt mode : Nat) (sat : Bool) (x y r : Nat) : Nat := deliver fmt mode sat (mulVal (valOf fmt x) (valOf fmt y)) r
def ffmaBits (fmt mode : Nat) (sat : Bool) (x y z r : Nat) : Nat :=
  deliver fmt mode sat (addVal mode (mulVal (valOf fmt x) (valOf fmt y)) (valOf fmt z)) r

/-- A total order of non-NaN encodings, −0 below +0 (R117): the key of an encoding of a format. -/
def orderKey (fmt x : Nat) : Int :=
  let n := fmtBits fmt
  let m : Int := (x % 2 ^ (n - 1) : Nat)
  if x / 2 ^ (n - 1) % 2 = 1 then -m - 1 else m
def isNan (fmt x : Nat) : Bool := valOf fmt x = .nan
/-- FMIN and FMAX (R117). -/
def fminBits (fmt x y : Nat) : Nat :=
  if isNan fmt x && isNan fmt y then nanOf fmt
  else if isNan fmt x then y else if isNan fmt y then x
  else if orderKey fmt x ≤ orderKey fmt y then x else y
def fmaxBits (fmt x y : Nat) : Nat :=
  if isNan fmt x && isNan fmt y then nanOf fmt
  else if isNan fmt x then y else if isNan fmt y then x
  else if orderKey fmt x ≥ orderKey fmt y then x else y

/-- The comparison codes of FSETP on FP32 encodings (R118): zeros are equal, and bit 3 adds the unordered case. -/
def fcompare (ctl x y : Nat) : Bool :=
  let un := isNan 0 x || isNan 0 y
  let k := fun z => if z % 2 ^ 31 = 0 then 0 else (if z ≥ 2 ^ 31 then -((z % 2 ^ 31 : Nat) : Int) else ((z : Nat) : Int))
  let rel := match ctl % 8 with
    | 0 => k x = k y
    | 1 => k x < k y
    | 2 => k x ≤ k y
    | 3 => k x > k y
    | 4 => k x ≥ k y
    | 5 => k x ≠ k y
    | _ => true
  match ctl with
  | 14 => un
  | _ => if un then ctl ≥ 8 else rel

/-! ## Elementary functions (R119) -/

/-- The floor of a square root, by its bits from 2^k down. -/
def isqrtFrom (n : Nat) : Nat → Nat → Nat
  | 0, r => r
  | k + 1, r => if (r + 2 ^ k) * (r + 2 ^ k) ≤ n then isqrtFrom n k (r + 2 ^ k) else isqrtFrom n k r
def isqrt (n : Nat) : Nat := isqrtFrom n (Nat.log2 n / 2 + 1) 0

/-- The floor of log2 of 1/m. -/
def recipLog (m : Nat) : Int := if m = 2 ^ Nat.log2 m then -(Nat.log2 m : Int) else -(Nat.log2 m : Int) - 1

/-- 1 / (m × 2^e). -/
def PosReal.recip (m : Nat) (e : Int) : PosReal where
  lg := recipLog m - e
  fl k := if 0 ≤ k - e then (2 ^ (k - e).toNat / m, 2 ^ (k - e).toNat % m = 0) else (0, false)

/-- 1 / √(m × 2^e). -/
def PosReal.rsqrt (m : Nat) (e : Int) : PosReal where
  lg := (recipLog m - e) / 2
  fl k :=
    let d := 2 * k - e
    if 0 ≤ d then let q := 2 ^ d.toNat / m; let r := isqrt q; (r, r * r * m = 2 ^ d.toNat) else (0, false)

/-- ln 2 × 2^p within p + 1 below. -/
def ln2At (p : Nat) : Nat := (List.range p).foldl (fun a i => a + 2 ^ p / ((i + 1) * 2 ^ (i + 1))) 0

/-- exp(y / 2^p) × 2^p from below, within 4p + 8, for y < 2^p. -/
def expAt (p y : Nat) : Nat :=
  ((List.range p).foldl (fun (a : Nat × Nat) i => let t := a.2 * y / ((i + 1) * 2 ^ p); (a.1 + t, t)) (2 ^ p, 2 ^ p)).1

/-- Bounds of 2^(f / 2^d) × 2^p, for 0 < f < 2^d. -/
def exp2Bounds (p f d : Nat) : Nat × Nat :=
  let l := ln2At p
  let y := f * l / 2 ^ d
  (expAt p y, expAt p (y + p + 2) + 4 * p + 8)

/-- The floor of 2^s × 2^(f / 2^d), from bounds narrow enough to fix it; the last precision's lower bound at worst. -/
def exp2Floor (f d s : Nat) : List Nat → Nat
  | [] => 2 ^ s
  | p :: ps =>
    let (lo, hi) := exp2Bounds (p + s) f d
    if lo / 2 ^ p = hi / 2 ^ p ∨ ps = [] then lo / 2 ^ p else exp2Floor f d s ps

/-- The precisions tried, each with the bits of the result added. PRESUMED (log 64): one of them fixes the rounding of every FEXP2 and
FLOG2 (R119). -/
def precisions : List Nat := [200, 400, 800, 1600]

/-- 2^(n + f / 2^d) for 0 < f < 2^d: never a dyadic value. -/
def PosReal.exp2 (n : Int) (f d : Nat) : PosReal where
  lg := n
  fl k := if 0 ≤ k + n then (exp2Floor f d (k + n).toNat precisions, false) else (0, false)

/-- Bounds of log2(m / 2^(log2 m)) × 2^p: twice the series of atanh over ln 2. -/
def log2Bounds (p m : Nat) : Nat × Nat :=
  let one := 2 ^ Nat.log2 m
  let w := (m - one) * 2 ^ p / (m + one)
  let w2 := w * w / 2 ^ p
  let sum := ((List.range p).foldl (fun (a : Nat × Nat) i => (a.1 + a.2 / (2 * i + 1), a.2 * w2 / 2 ^ p)) (0, w)).1
  let l := ln2At p
  (2 * sum * 2 ^ p / (l + p + 1), 2 * (sum + 4 * p + 4) * 2 ^ p / l + 1)

/-- The fraction g of a logarithm n + g as the floor of (n + g) × 2^k, or of (n − g) × 2^k where down holds. -/
def log2Floor (m : Nat) (n : Nat) (down : Bool) (k : Nat) : List Nat → Nat
  | [] => n * 2 ^ k
  | p :: ps =>
    let (lo, hi) := log2Bounds (p + k) m
    let (x, y) := if down then (n * 2 ^ (p + k) - hi, n * 2 ^ (p + k) - lo) else (n * 2 ^ (p + k) + lo, n * 2 ^ (p + k) + hi)
    if x / 2 ^ p = y / 2 ^ p ∨ ps = [] then x / 2 ^ p else log2Floor m n down k ps

/-- |log2(m × 2^e)| where m is not a power of two: its integer part beside the fraction's sense. -/
def PosReal.log2abs (m : Nat) (e : Int) : PosReal :=
  let l := Nat.log2 m + e
  let down := decide (l < 0)
  let n := if down then (-l).toNat else l.toNat
  let at' := fun k => log2Floor m n down k precisions
  let v := at' 64
  { lg := (Nat.log2 v : Int) - 64
    fl := fun k => if 0 ≤ k then (at' k.toNat, false) else (v / 2 ^ (64 - k).toNat, false) }

/-- FRCP, FRSQ, FEXP2 and FLOG2 as encodings (R119). -/
def frcpBits (mode : Nat) (sat : Bool) (x r : Nat) : Nat :=
  match valOf 0 x with
  | .nan => nanOf 0
  | .inf neg => signBit 0 neg
  | .fin neg m e => if m = 0 then infOf 0 sat neg else roundPos 0 mode sat neg (.recip m e) r
def frsqBits (mode : Nat) (sat : Bool) (x r : Nat) : Nat :=
  match valOf 0 x with
  | .nan => nanOf 0
  | .inf neg => if neg then nanOf 0 else 0
  | .fin neg m e => if m = 0 then infOf 0 sat neg else if neg then nanOf 0 else roundPos 0 mode sat false (.rsqrt m e) r
def fexp2Bits (mode : Nat) (sat : Bool) (x r : Nat) : Nat :=
  match valOf 0 x with
  | .nan => nanOf 0
  | .inf neg => if neg then 0 else infOf 0 sat false
  | .fin neg m e =>
    if m = 0 then 0x3F800000
    else
      let d := (-e).toNat
      let num := scaled neg m e.toNat                     -- x = num / 2^d
      let n := num / (2 ^ d : Nat)
      let f := (num % (2 ^ d : Nat)).toNat
      if f = 0 then roundPos 0 mode sat false { lg := n, fl := fun k => if 0 ≤ n + k then (2 ^ (n + k).toNat, true) else (0, false) } r
      else roundPos 0 mode sat false (.exp2 n f d) r
def flog2Bits (mode : Nat) (sat : Bool) (x r : Nat) : Nat :=
  match valOf 0 x with
  | .nan => nanOf 0
  | .inf neg => if neg then nanOf 0 else infOf 0 sat false
  | .fin neg m e =>
    if m = 0 then infOf 0 sat true
    else if neg then nanOf 0
    else
      let l := Nat.log2 m + e
      if m = 2 ^ Nat.log2 m then roundFin 0 mode sat (l < 0) l.natAbs 0 r
      else roundPos 0 mode sat (l < 0) (.log2abs m e) r

end Sys2Proof.Machine
end

