-- ==== Sys2Proof/Machine/Crypt.lean ====
section
/-! DEFINITION. The algorithms that the manual names for keys, lines and digests (R363, R364, R370 to R372): AES-256 and its key
wrap (FIPS 197, RFC 3394), GHASH's multiplication (SP 800-38D), KMAC256 and SHA3-512 (FIPS 202, SP 800-185). A key's or a block's
first byte is its most significant one, as those standards write them (log 61). -/

namespace Sys2Proof.Crypt

/-- The bytes of a number of n bytes, most significant first. -/
def bytesBE (n v : Nat) : List Byte := (bytesLE n v).reverse
def ofBytesBE (l : List Byte) : Nat := ofBytesLE l.reverse
def xorBytes (a b : List Byte) : List Byte := List.zipWith (· ^^^ ·) a b

/-! ## AES-256 (FIPS 197) -/

/-- The substitution table: byte i of the number is the substitute of i. -/
def sboxBits : Nat :=
  0x16bb54b00f2d99416842e6bf0d89a18cdf2855cee9871e9b948ed9691198f8e19e1dc186b95735610ef6034866b53e708a8bbd4b1f74dde8c6b4a61c2e2578ba08ae7a65eaf4566ca94ed58d6d37c8e779e4959162acd3c25c2406490a3a32e0db0b5ede14b8ee4688902a22dc4f816073195d643d7ea7c41744975fec130ccdd2f3ff1021dab6bcf5389d928f40a351a89f3c507f02f94585334d43fbaaefd0cf584c4a39becb6a5bb1fc20ed00d153842fe329b3d63b52a05a6e1b1a2c830975b227ebe28012079a059618c323c7041531d871f1e5a534ccf73f362693fdb7c072a49cafa2d4adf04759fa7dc982ca76abd7fe2b670130c56f6bf27b777c63
def sbox (b : Byte) : Byte := BitVec.ofNat 8 (sboxBits / 2 ^ (8 * b.toNat))
def sboxInv (b : Byte) : Byte := BitVec.ofNat 8 (((List.range 256).find? fun i => sbox (BitVec.ofNat 8 i) = b).getD 0)

/-- Times x in the field of 2^8 elements. -/
def xtime (b : Byte) : Byte := (b <<< 1) ^^^ (if b.getLsbD 7 then 0x1B else 0)
/-- Times a constant of four bits. -/
def times (k : Nat) (b : Byte) : Byte :=
  let t := fun (n : Nat) (v : Byte) => if k / 2 ^ n % 2 = 1 then v else 0
  t 0 b ^^^ t 1 (xtime b) ^^^ t 2 (xtime (xtime b)) ^^^ t 3 (xtime (xtime (xtime b)))

/-- Word i of the key schedule from the words before it. -/
def scheduleWord (i : Nat) (w : List (List Byte)) : List Byte :=
  let t := w.getD (i - 1) []
  let t := if i % 8 = 0 then xorBytes ((t.drop 1 ++ t.take 1).map sbox) [BitVec.ofNat 8 (2 ^ (i / 8 - 1)), 0, 0, 0]
           else if i % 8 = 4 then t.map sbox else t
  xorBytes (w.getD (i - 8) []) t
/-- The fifteen round keys. -/
def roundKeys (key : List Byte) : List (List Byte) :=
  let first := (List.range 8).map fun i => (key.drop (4 * i)).take 4
  let w := (List.range 52).foldl (fun w k => w ++ [scheduleWord (k + 8) w]) first
  (List.range 15).map fun r => ((w.drop (4 * r)).take 4).flatten

/-- Row r of column c is byte 4c + r; row r moves by r columns, to the left or back. -/
def shiftRows (back : Bool) (s : List Byte) : List Byte :=
  (List.range 16).map fun i => s.getD (4 * ((i / 4 + (if back then 4 - i % 4 else i % 4)) % 4) + i % 4) 0
/-- Every column times a circulant matrix. -/
def mixColumns (m : List Nat) (s : List Byte) : List Byte :=
  (List.range 16).map fun i =>
    (List.range 4).foldl (fun v j => v ^^^ times (m.getD j 0) (s.getD (i / 4 * 4 + (i + j) % 4) 0)) 0

def aesEncrypt (key block : List Byte) : List Byte :=
  let k := roundKeys key
  let s := (List.range 13).foldl (fun s r => xorBytes (mixColumns [2, 3, 1, 1] (shiftRows false (s.map sbox))) (k.getD (r + 1) [])) (xorBytes block (k.getD 0 []))
  xorBytes (shiftRows false (s.map sbox)) (k.getD 14 [])
def aesDecrypt (key block : List Byte) : List Byte :=
  let k := roundKeys key
  let s := (List.range 13).foldl (fun s r => mixColumns [14, 11, 13, 9] (xorBytes ((shiftRows true s).map sboxInv) (k.getD (13 - r) []))) (xorBytes block (k.getD 14 []))
  xorBytes ((shiftRows true s).map sboxInv) (k.getD 0 [])
/-- One block, as a number. -/
def aes256 (key : BitVec 256) (v : BitVec 128) : BitVec 128 :=
  BitVec.ofNat 128 (ofBytesBE (aesEncrypt (bytesBE 32 key.toNat) (bytesBE 16 v.toNat)))

/-! ## AES key wrap (RFC 3394) -/

/-- The 32 bytes that 40 wrapped bytes hold, where their check value is right. -/
def unwrap (key wrapped : List Byte) : Option (List Byte) :=
  let part := fun i => (wrapped.drop (8 * i)).take 8
  let (a, r) := (List.range 24).foldl (fun (x : List Byte × List (List Byte)) k =>
      let i := 3 - k % 4
      let t := 4 * (5 - k / 4) + i + 1
      let b := aesDecrypt key (xorBytes x.1 (bytesBE 8 t) ++ x.2.getD i [])
      (b.take 8, x.2.set i (b.drop 8))) (part 0, [part 1, part 2, part 3, part 4])
  if a = List.replicate 8 0xA6 then some r.flatten else none

/-! ## GHASH (SP 800-38D) -/

/-- The product of two blocks; the leftmost bit is the coefficient of 1. -/
def ghashMul (x y : BitVec 128) : BitVec 128 :=
  ((List.range 128).foldl (fun (p : BitVec 128 × BitVec 128) i =>
    (if x.getLsbD (127 - i) then p.1 ^^^ p.2 else p.1, (p.2 >>> 1) ^^^ (if p.2.getLsbD 0 then 0xE1000000000000000000000000000000 else 0))) (0, y)).1

/-! ## Keccak (FIPS 202) and KMAC256 (SP 800-185) -/

def roundConstants : List (BitVec 64) :=
  [0x1, 0x8082, 0x800000000000808A, 0x8000000080008000, 0x808B, 0x80000001, 0x8000000080008081, 0x8000000000008009, 0x8A, 0x88, 0x80008009,
   0x8000000A, 0x8000808B, 0x800000000000008B, 0x8000000000008089, 0x8000000000008003, 0x8000000000008002, 0x8000000000000080, 0x800A,
   0x800000008000000A, 0x8000000080008081, 0x8000000000008080, 0x80000001, 0x8000000080008008]
/-- The rotation of lane x + 5y. -/
def rotations : List Nat := [0, 1, 62, 28, 27, 36, 44, 6, 55, 20, 3, 10, 43, 25, 39, 41, 45, 15, 21, 8, 18, 2, 61, 56, 14]

/-- One round on the 25 lanes. -/
def keccakRound (a : List (BitVec 64)) (rc : BitVec 64) : List (BitVec 64) :=
  let lane := fun (l : List (BitVec 64)) x y => l.getD (x % 5 + 5 * (y % 5)) 0
  let c := (List.range 5).map fun x => (List.range 5).foldl (fun v y => v ^^^ lane a x y) 0
  let d := (List.range 5).map fun x => c.getD ((x + 4) % 5) 0 ^^^ (c.getD ((x + 1) % 5) 0).rotateLeft 1
  let t := (List.range 25).map fun i => a.getD i 0 ^^^ d.getD (i % 5) 0
  let b := (List.range 25).map fun i =>
    let j := (3 * (i / 5) + i % 5) % 5 + 5 * (i % 5)
    (t.getD j 0).rotateLeft (rotations.getD j 0)
  (List.range 25).map fun i =>
    (lane b i (i / 5) ^^^ (~~~ (lane b (i % 5 + 1) (i / 5)) &&& lane b (i % 5 + 2) (i / 5))) ^^^ (if i = 0 then rc else 0)
def keccak (a : List (BitVec 64)) : List (BitVec 64) := roundConstants.foldl keccakRound a

/-- The first bytes, at most one block of them, of the sponge of some rate over a message and its suffix. -/
def sponge (rate : Nat) (suffix : Byte) (msg : List Byte) (out : Nat) : List Byte :=
  let m := msg ++ [suffix]
  let n := (m.length + rate - 1) / rate
  let m := m ++ bytesLE (n * rate - m.length) 0
  let m := m.set (n * rate - 1) (m.getD (n * rate - 1) 0 ^^^ 0x80)
  let s := (List.range n).foldl (fun s i =>
      let b := (m.drop (rate * i)).take rate
      keccak ((List.range 25).map fun j => s.getD j 0 ^^^ BitVec.ofNat 64 (ofBytesLE ((b.drop (8 * j)).take 8)))) (List.replicate 25 0)
  (s.flatMap fun l => bytesLE 8 l.toNat).take out

def sha3_512 (msg : List Byte) : List Byte := sponge 72 0x06 msg 64

/-- A number as SP 800-185 encodes it before what it counts. -/
def leftEncode (n : Nat) : List Byte := if n < 256 then [1, BitVec.ofNat 8 n] else 2 :: bytesBE 2 n
def encodeString (s : List Byte) : List Byte := leftEncode (8 * s.length) ++ s
def bytepad (w : Nat) (s : List Byte) : List Byte :=
  let l := leftEncode w ++ s
  l ++ bytesLE ((l.length + w - 1) / w * w - l.length) 0
/-- The bytes of an ASCII string. -/
def ascii (s : String) : List Byte := s.toList.map fun c => BitVec.ofNat 8 c.toNat
/-- KMAC256 with an empty input and 256 bits of output. -/
def kmac256 (key : List Byte) (custom : String) : List Byte :=
  sponge 136 0x04 (bytepad 136 (encodeString (ascii "KMAC") ++ encodeString (ascii custom)) ++ bytepad 136 (encodeString key) ++ [1, 0, 2]) 32
/-- A subkey of a 256-bit key. -/
def subkey (key : BitVec 256) (custom : String) : BitVec 256 := BitVec.ofNat 256 (ofBytesBE (kmac256 (bytesBE 32 key.toNat) custom))

end Sys2Proof.Crypt
end

