-- ==== Sys2Proof/Machine/Transfer.lean ====
section
/-! DEFINITION. The bytes of a transfer's transactions: their places, conversions and indivisible units (R79, R80, R288, R291, R296). -/

namespace Sys2Proof.Machine

/-- Whether a transfer has started (R294). -/
def XferOp.begun (x : XferOp) : Bool := x.started.isSome

/-- Whether a transfer moves bytes as they are. -/
def XferOp.plain (x : XferOp) : Bool := x.sfmt = x.dfmt && x.code ≠ .add
/-- Whether a transfer reads a scale array, or writes one (R296). -/
def XferOp.scaleIn (x : XferOp) : Bool := x.sfmt = 3 && x.dfmt ≠ 3
def XferOp.scaleOut (x : XferOp) : Bool := x.dfmt = 3 && x.sfmt ≠ 3
def XferOp.ssz (x : XferOp) : Nat := fmtBits x.sfmt / 8
def XferOp.dsz (x : XferOp) : Nat := fmtBits x.dfmt / 8

/-- The part of a destination in block b: its first byte and its length. -/
def XferOp.piece (x : XferOp) (b : Nat) : Nat × Nat :=
  let off := offsetOf x.dst
  let lo := max off (4096 * b)
  (lo - off, min (off + x.len) (4096 * b + 4096) - lo)
/-- The elements that destination bytes lo to lo + n − 1 are made of: first and count, whole runs of 128 where a scale is computed. -/
def XferOp.elems (x : XferOp) (lo n : Nat) : Nat × Nat :=
  let a := lo / x.dsz
  let e := (lo + n + x.dsz - 1) / x.dsz
  if x.scaleOut then (a / 128 * 128, (e + 127) / 128 * 128 - a / 128 * 128) else (a, e - a)
/-- The source bytes of a part. -/
def XferOp.srcSpan (x : XferOp) (lo n : Nat) : Nat × Nat :=
  if x.plain then (lo, n) else let (a, k) := x.elems lo n; (a * x.ssz, k * x.ssz)
/-- The scale bytes that a part reads or writes: those of the runs that it meets, or that begin in it. -/
def XferOp.scaleSpan (x : XferOp) (lo n : Nat) : Nat × Nat :=
  if x.scaleIn then let (a, k) := x.elems lo n; (a / 128, (a + k - 1) / 128 + 1 - a / 128)
  else if x.scaleOut then ((lo + 127) / 128, (lo + n + 127) / 128 - (lo + 127) / 128)
  else (0, 0)

/-- The scale of a run of source values (R80). -/
def runScale (vs : List Val) : Nat :=
  let logs : List Int := vs.filterMap fun v => match v with
    | .fin _ m e => if m = 0 then none else some ((Nat.log2 m : Int) + e)
    | .inf _ => some 1000
    | .nan => none
  match logs with
  | [] => 0
  | l :: ls => let k := ls.foldl max l - 8 + 127
               if k < 0 then 0 else if k > 254 then 254 else k.toNat
/-- A value times 2^k. -/
def timesPow (v : Val) (k : Int) : Val := match v with | .fin n m e => .fin n m (e + k) | y => y

/-- The values of source elements, from their bytes and their scales (R79). -/
def XferOp.values (x : XferOp) (first : Nat) (bs scales : List Byte) : List Val :=
  (List.range (bs.length / x.ssz)).map fun i =>
    let v := valOf x.sfmt (ofBytesLE ((bs.drop (i * x.ssz)).take x.ssz))
    if x.scaleIn then
      let k := (scales.getD ((first + i) / 128 - first / 128) 0).toNat
      if k = 255 then .nan else timesPow v ((k : Int) - 127)
    else v

/-- The destination bytes and scale bytes of a part that is not an ADD, from its source bytes. -/
def XferOp.produce (x : XferOp) (lo n : Nat) (bs scales : List Byte) : List Byte × List Byte :=
  if x.plain then (bs, [])
  else
    let (a, k) := x.elems lo n
    let vs := x.values a bs scales
    if x.scaleOut then
      let runs := (List.range (k / 128)).map fun r => (vs.drop (128 * r)).take 128
      let ss := runs.map runScale
      let bytes := (List.range k).flatMap fun i =>
        bytesLE 1 (convertVal 3 1 x.sat (timesPow (vs.getD i .nan) (127 - (ss.getD (i / 128) 0 : Int))) 0)
      let (sa, sn) := x.scaleSpan lo n
      ((bytes.drop (lo - a)).take n, (List.range sn).map fun i => BitVec.ofNat 8 (ss.getD (sa + i - a / 128) 0))
    else
      let bytes := vs.flatMap fun v => bytesLE x.dsz (convertVal x.dfmt 1 x.sat v 0)
      ((bytes.drop (lo - a * x.dsz)).take n, [])

/-- An ADD of source elements to destination bytes (R291, R296). -/
def XferOp.sum' (x : XferOp) (first : Nat) (old bs scales : List Byte) : List Byte :=
  let vs := x.values first bs scales
  (List.range (old.length / 4)).flatMap fun i =>
    let d := ofBytesLE ((old.drop (4 * i)).take 4)
    if x.int then bytesLE 4 ((d + ofBytesLE ((bs.drop (4 * i)).take 4)) % 2 ^ 32)
    else bytesLE 4 (faddBits 0 1 false d (if x.sfmt = 0 then ofBytesLE ((bs.drop (4 * i)).take 4) else convertVal 0 1 x.sat (vs.getD i .nan) 0) 0)

/-- The bytes of a part's next indivisible units, n of them, at most what is left: 32-bit words, or under ADD the elements of a 128-byte
chunk (R288). -/
def XferOp.unit (x : XferOp) (k : XferPart) (n : Nat) : Nat :=
  let (lo, len) := x.piece (k.tran % 2 ^ 18)
  let a := offsetOf x.dst + lo + k.pos
  let size := if x.code = .add then 128 else 4
  min (len - k.pos) ((a / size + n) * size - a)

/-- What the next n bytes of a part write, where their destination holds old. -/
def XferOp.partBytes (x : XferOp) (k : XferPart) (n : Nat) (old : List Byte) : List Byte :=
  if x.code ≠ .add then (k.data.drop k.pos).take n
  else if x.sum then
    (List.range (n / 4)).flatMap fun i =>
      let d := ofBytesLE ((old.drop (4 * i)).take 4)
      let v := ofBytesLE ((k.data.drop (k.pos + 4 * i)).take 4)
      bytesLE 4 (if x.int then (d + v) % 2 ^ 32 else faddBits 0 1 false d v 0)
  else
    let (lo, _) := x.piece (k.tran % 2 ^ 18)
    let first := lo / 4 + k.pos / 4
    let skip := (lo + k.pos) / 4 - (x.elems lo 1).1
    x.sum' first old ((k.data.drop (skip * x.ssz)).take (n / 4 * x.ssz))
      (k.scales.drop (first / 128 - (x.elems lo 1).1 / 128))

end Sys2Proof.Machine
end

