-- ==== Sys2Proof/Machine/Ops.lean ====
section
/-! DEFINITION. The shared operations over State: its records, time, scopes, frames, host rings, arrival messages,
operations and their counters, memory as engines reach it, taking a trap and returning from one, and termination. -/

namespace Sys2Proof.Machine

/-! ## Records -/

def State.chip (s : State) (c : Nat) : Chip := s.chips.getD c {}
def State.setChip (s : State) (c : Nat) (v : Chip) : State := { s with chips := s.chips.put c v }
def State.vf (s : State) (c v : Nat) : Vf := Tab.getD (s.chip c).vfs v {}
def State.setVf (s : State) (c v : Nat) (x : Vf) : State := s.setChip c { s.chip c with vfs := Tab.put (s.chip c).vfs v x }
def State.part (s : State) (c p : Nat) : Part := Tab.getD (s.chip c).parts p {}
def State.setPart (s : State) (c p : Nat) (x : Part) : State := s.setChip c { s.chip c with parts := Tab.put (s.chip c).parts p x }
def State.grant (s : State) (c w : Nat) : Grant := Tab.getD (s.chip c).grants w {}
def State.setGrant (s : State) (c w : Nat) (x : Grant) : State :=
  s.setChip c { s.chip c with grants := Tab.put (s.chip c).grants w x }
def State.die (s : State) (d : DieId) : Die := s.dies.getD d {}
def State.setDie (s : State) (d : DieId) (v : Die) : State := { s with dies := s.dies.put d v }
def State.core (s : State) (c : CoreId) : Core := s.cores.getD c {}
def State.setCore (s : State) (c : CoreId) (v : Core) : State := { s with cores := s.cores.put c v }
def State.quad (s : State) (q : QuadId) : Quad := s.quads.getD q {}
def State.setQuad (s : State) (q : QuadId) (v : Quad) : State := { s with quads := s.quads.put q v }
def State.grid (s : State) (c g : Nat) : Grid := s.grids.getD (c, g) {}
def State.setGrid (s : State) (c g : Nat) (v : Grid) : State := { s with grids := s.grids.put (c, g) v }
def State.cohort (s : State) (c : CohortId) : Cohort := s.cohorts.getD c {}
def State.setCohort (s : State) (c : CohortId) (v : Cohort) : State := { s with cohorts := s.cohorts.put c v }
def State.thread (s : State) (t : ThreadId) : Thread := s.threads.getD t {}
def State.setThread (s : State) (t : ThreadId) (v : Thread) : State := { s with threads := s.threads.put t v }
def State.setObj (s : State) (k : Nat × Nat) (v : Obj) : State := { s with objects := s.objects.put k v }
def State.op? (s : State) (i : Nat) : Option Op := s.ops.get? i
def State.setOp (s : State) (i : Nat) (o : Op) : State := { s with ops := s.ops.put i o }
def State.msg? (s : State) (i : Nat) : Option Msg := s.msgs.get? i
def State.move? (s : State) (i : Nat) : Option Move := s.moves.get? i

/-- Changes a record in place. -/
def State.modThread (s : State) (t : ThreadId) (f : Thread → Thread) : State := s.setThread t (f (s.thread t))
def State.modCohort (s : State) (c : CohortId) (f : Cohort → Cohort) : State := s.setCohort c (f (s.cohort c))
def State.modQuad (s : State) (q : QuadId) (f : Quad → Quad) : State := s.setQuad q (f (s.quad q))
def State.modCore (s : State) (c : CoreId) (f : Core → Core) : State := s.setCore c (f (s.core c))
def State.modDie (s : State) (d : DieId) (f : Die → Die) : State := s.setDie d (f (s.die d))
def State.modChip (s : State) (c : Nat) (f : Chip → Chip) : State := s.setChip c (f (s.chip c))
def State.modVf (s : State) (c v : Nat) (f : Vf → Vf) : State := s.setVf c v (f (s.vf c v))
def State.modGrid (s : State) (c g : Nat) (f : Grid → Grid) : State := s.setGrid c g (f (s.grid c g))

/-- The launch record of a cohort's grid. -/
def State.launchOf (s : State) (c : CohortId) : Launch := (s.grid c.chip c.grid).launch
/-- The context of a cohort: its package and function. -/
def State.ctxOf (s : State) (c : CohortId) : Nat × Nat := (c.chip, (s.cohort c).vf)
def State.realmOf (s : State) (c : CohortId) : Word := (s.vf c.chip (s.cohort c).vf).realm
def State.partOf (s : State) (c : CohortId) : Nat := (s.cohort c).part
/-- Whether a cohort's context is on its quadrants (R394). -/
def State.resident (s : State) (c : CohortId) : Bool := (s.vf c.chip (s.cohort c).vf).ctx ≠ .saved
/-- Whether its threads take part in the machine's work: not before a resume has done its replay (R399). -/
def State.awake (s : State) (c : CohortId) : Bool := s.resident c && (s.vf c.chip (s.cohort c).vf).ctx ≠ .restoring
def State.stopping (s : State) (c : CohortId) : Bool := (s.vf c.chip (s.cohort c).vf).ctx = .stopping
/-- A cohort that has not ended. -/
def State.live (s : State) (c : CohortId) : Bool := (s.cohorts.get? c).any (fun x => !x.ended)

def State.chipExists (s : State) (c : Nat) : Bool := s.pod.any (fun p => p.chip = c)
def State.domainOf (s : State) (c : Nat) : Option Nat := (s.pod.find? (fun p => p.chip = c)).map (·.domain)

/-! ## Time (R4, R20, R339, R345) -/

/-- Ticks of 3.6 GHz in a microsecond. -/
def ticksPerUs : Nat := 3600
/-- The hub die's IEEE 1588 clock in nanoseconds: 18 ticks are 5 ns (log 6). -/
def State.ns (s : State) (c : Nat) : Nat := ((s.now * 5 / 18 : Nat) + (s.chip c).clockStep).toNat
/-- A time value in memory: SECONDS in 6 bytes, NANOSECONDS in 4, then zeros (R345). -/
def timeBytes (ns : Nat) : List Byte := bytesLE 6 (ns / 10 ^ 9) ++ bytesLE 4 (ns % 10 ^ 9) ++ bytesLE 6 0
/-- Issue cycles of a package's cores since module reset (%clk). -/
def State.clk (s : State) (c : Nat) : Nat := (s.now - (s.chip c).resetAt) / 2

/-! ## Scopes (R24, R25, R246) -/

/-- Whether level n of R24 is declared. -/
def declared (ladder n : Nat) : Bool := ladder / 2 ^ (n - 1) % 2 = 1
/-- The widest declared level. -/
def widest (ladder : Nat) : Nat := ((List.range 9).filter fun n => n ≠ 0 && declared ladder n).foldl max 1
/-- The level that a scope field acts as: 0 the widest declared level, 1 .CREW to 7 .POD (R25, R237). -/
def effScope (ladder code : Nat) : Nat :=
  let w := widest ladder
  if code = 0 then w
  else (((List.range 9).find? fun n => n > code && declared ladder n)).getD w
/-- Whether b lies in the hardware domain of a at a level (R24, R246). -/
def State.within (s : State) (level : Nat) (a b : ThreadId) : Bool :=
  let x := a.cohort
  let y := b.cohort
  match level with
  | 0 | 1 => a = b
  | 2 => x = y && a.tid / 32 = b.tid / 32
  | 3 => x.toCore = y.toCore && s.partOf x = s.partOf y
  | 4 => x.toDie = y.toDie && x.core / 8 = y.core / 8
  | 5 => x.toDie = y.toDie
  | 6 => x.chip = y.chip
  | 7 => s.domainOf x.chip = s.domainOf y.chip
  | _ => true

/-! ## Clocks of tracked writes (R245 to R255) -/

def join (a b : List Nat) : List Nat := a ++ b.filter fun x => !a.contains x

/-- Whether an edge that a thread's event gives reaches another thread (R246). -/
def State.carries (s : State) (scope : Nat) (by' t : ThreadId) : Bool := scope ≥ 9 || s.within scope by' t
/-- What edges bring to a thread. -/
def State.brought (s : State) (t : ThreadId) (l : List Edge) : List Nat :=
  (l.filter fun e => s.carries e.scope e.by' t).foldl (fun k e => join k e.know) []

/-- Whether two byte ranges meet. -/
def overlap (a n b m : Nat) : Bool := a < b + m && b < a + n
def Sync.at' (r : Sync) (a n : Nat) : Bool := overlap r.lo r.len a n

/-- What the reads of a thread before id bring to its later releases: opo and rf together (R245, R249); a widened line gives its edge
to acquires only (R251). -/
def State.heard (s : State) (t : ThreadId) (id : Nat) : List Nat :=
  s.brought t (((s.thread t).seen.filter fun r => r.1 < id && !r.2.line).map (·.2.toEdge))

/-- The clock of a release by t: what came before its events, its own tracked writes below id, and what its reads before id
brought (R245, R249). -/
def State.clock (s : State) (t : ThreadId) (id : Nat) (know : List Nat) : List Nat :=
  join know (join ((s.thread t).wrote.filter (· < id)) (s.heard t id))

/-- What comes before a window operation of t: what came before it from elsewhere, the thread's own writes, and what its earlier reads of
the n bytes of its view at lo brought; its other reads are not ordered before it (R245, R376). -/
def State.viewClock (s : State) (t : ThreadId) (id : Nat) (know : List Nat) (lo n : Nat) : List Nat :=
  join know (join ((s.thread t).wrote.filter (· < id))
    (s.brought t (((s.thread t).seen.filter fun r => r.1 < id && !r.2.line && r.2.at' lo n).map (·.2.toEdge))))

/-- The edges that some releases of t give its later stores, arrivals and engine operations (R245, R253, R266). -/
def State.edgesOf (s : State) (t : ThreadId) (l : List Barrier) : List Edge :=
  ((l.filter (·.cond.isNone)).map fun b => { scope := b.level, by' := t, know := s.clock t b.id b.know : Edge }).filter fun e => e.know ≠ []

/-- A release of a thread that later events follow: the latest of its level, and before it those that may yet prove none (R245, R266). -/
def Thread.bar (x : Thread) (b : Barrier) : Thread :=
  { x with barriers := b :: x.barriers.filter fun c => c.level ≠ b.level || b.cond.isSome }

/-- What a dependency on some registers, predicates and latches brings (R245): register n is n, predicate k is 256 + k,
bypass latch l is 272 + l, the control path is 280 and the call stack 281. -/
def Thread.dep (x : Thread) (keys : List Nat) : List Nat :=
  if x.taint = [] then [] else keys.foldl (fun k n => join k (Tab.getD x.taint n [])) []

/-! ## Registers of threads (R34 to R38) -/

def Thread.reg (x : Thread) (n : Nat) : Word := if n = 255 then 0 else x.regs.getD n 0
def Thread.setReg (x : Thread) (n : Nat) (v : Word) : Thread := if n = 255 then x else { x with regs := x.regs.set n v }
def Thread.pair (x : Thread) (n : Nat) : DWord := if n = 255 then 0 else (x.reg (n + 1) ++ x.reg n : BitVec 64)
def Thread.setPair (x : Thread) (n : Nat) (v : DWord) : Thread :=
  if n = 255 then x else (x.setReg n (v.extractLsb' 0 32)).setReg (n + 1) (v.extractLsb' 32 32)
/-- Ascending registers filled from a little-endian number. -/
def Thread.setRegs (x : Thread) (n : Nat) (k : Nat) (v : Nat) : Thread :=
  if n = 255 then x
  else (List.range k).foldl (fun y i => y.setReg (n + i) (BitVec.ofNat 32 (v / 2 ^ (32 * i)))) x
def Thread.pred (x : Thread) (n : Nat) : Bool := x.preds.getLsbD (n % 16)
def Thread.setPred (x : Thread) (n : Nat) (v : Bool) : Thread :=
  { x with preds := if v then x.preds ||| (1#16 <<< (n % 16)) else x.preds &&& ~~~(1#16 <<< (n % 16)) }
/-- Dependency counter n (R39). -/
def Thread.dc (x : Thread) (n : Nat) : Nat := (x.dcs.getD n []).length

/-! ## Operations and counters (R39) -/

/-- Counts an operation issued on counter c. -/
def Thread.raiseDc (x : Thread) (c id : Nat) : Thread :=
  { x with dcs := x.dcs.set c (x.dcs.getD c [] ++ [(id, false)])
           joins := x.joins.map fun j => if j.ctr = c then { j with after := j.after + 1 } else j
           deferred := x.deferred.map fun d => if d.ctr = c then { d with after := d.after + 1 } else d }
/-- How many operations have been issued on counter c after operation id, which it has not counted. -/
def Thread.issuedAfter (x : Thread) (c id : Nat) : Nat := ((x.dcs.getD c []).filter fun e => e.1 > id).length
/-- Counts a completion: an operation is counted once every earlier one on the counter is (R39). -/
def Thread.lowerDc (x : Thread) (c id : Nat) : Thread :=
  let q := (x.dcs.getD c []).map fun e => if e.1 = id then (id, true) else e
  { x with dcs := x.dcs.set c (q.dropWhile (·.2)) }

/-- A conditional atomic has written, and is a release, or has not, and is none: so for its thread and what the thread issued after it
(R266). -/
def State.settleBarrier (s : State) (t : ThreadId) (id : Nat) (wrote : Bool) : State :=
  if !((s.thread t).barriers.any fun b => b.cond = some id) && !(s.ops.any fun p => p.2.thread = t && p.2.barriers.any fun b => b.cond = some id) then s
  else
    let f := fun (l : List Barrier) =>
      if wrote then l.map fun b => if b.cond = some id then { b with cond := none } else b else l.filter fun b => b.cond ≠ some id
    { s.modThread t fun x => { x with barriers := f x.barriers } with
        ops := s.ops.map fun _ (o : Op) => if o.thread = t then { o with barriers := f o.barriers } else o }

/-- Enters an operation of a thread, counted on its counter, and answers its identifier. -/
def State.addOp (s : State) (o : Op) : Nat × State :=
  let id := s.nextId
  let s := { s with nextId := id + 1, ops := s.ops.put id o }
  (id, match o.body, o.ctr with
    | .matrix m, some c => m.members.foldl (fun s t => s.modThread t (·.raiseDc c id)) s
    | _, some c => s.modThread o.thread (·.raiseDc c id)
    | _, none => s)

/-- A load, store, atomic, object instruction or arrival (R245, R271), not yet complete. -/
def Op.isAccess (o : Op) : Bool :=
  match o.body with
  | .access _ => o.device.isNone
  | .obj _ | .mmio _ _ _ _ => true
  | .message _ _ => o.ctr = some 1
  | _ => false
/-- The function for which an operation acts, and its package. -/
def State.opCtx (s : State) (o : Op) : Nat × Nat :=
  match o.device with
  | some d => (d.chip, d.vf)
  | none => s.ctxOf o.thread.cohort
def State.opRealm (s : State) (o : Op) : Word := (s.vf (s.opCtx o).1 (s.opCtx o).2).realm
/-- A load, or an atomic's read part. -/
def Op.isRead (o : Op) : Bool := match o.body with | .access a => a.kind ≠ .store | _ => false
/-- Whether an operation's access has taken effect, or ended with a fault. -/
def Op.performed (o : Op) : Bool :=
  match o.phase with
  | .answered (.served _ _ _) | .answered (.fault _) => true
  | _ => false
/-- Whether an earlier access has completed for a release of a level: a store once its holder has performed it, for a level
within the package; else as it lands or ends (R239, R249, R252). -/
def Op.completeAt (o : Op) (level : Nat) : Bool :=
  match o.body, o.phase with
  | .access a, .answered (.served _ _ _) => a.kind ≠ .load && a.dst = 255 && level ≤ 6
  | _, _ => !o.isAccess
/-- Whether every access of a thread before id has completed for a release of a level (R239, R245, R247). -/
def State.earlierComplete (s : State) (t : ThreadId) (id level : Nat) : Bool :=
  !(s.ops.any fun p => p.2.thread = t && p.1 < id && !p.2.completeAt level)

/-! ## Stores that some dies do not see yet (R249) -/

/-- The late stores that some identifiers or places name, newest first, and with each of them those that come before it and
the older ones that it overlaps. -/
def forcedLags : List Nat → List (Nat × Nat) → List Lag → List Nat
  | _, _, [] => []
  | ids, spans, l :: rest =>
    if ids.contains l.op || spans.any fun p => overlap l.lo l.old.length p.1 p.2 then
      l.op :: forcedLags (ids ++ l.know) ((l.lo, l.old.length) :: spans) rest
    else forcedLags ids spans rest

/-- Late stores are seen by every die from now on. -/
def State.expose (s : State) (ids : List Nat) (spans : List (Nat × Nat)) : State :=
  if s.lags = [] then s
  else
    let f := forcedLags ids spans s.lags
    { s with lags := s.lags.filter fun l => !f.contains l.op }

/-- Late stores are seen by one die from now on. -/
def State.exposeTo (s : State) (d : DieId) (ids : List Nat) : State :=
  if s.lags = [] then s
  else
    let f := forcedLags ids [] (s.lags.filter fun l => !l.seen.contains d)
    { s with lags := s.lags.map fun l => if f.contains l.op then { l with seen := d :: l.seen } else l }

/-- A widening release at a level: the cohort's narrower pins take the level, or go from .PACKAGE up; acquires served from
those lines read from it (R251). -/
def State.widen (s : State) (t : ThreadId) (level : Nat) (clock : List Nat) : State :=
  let mine := fun (p : Nat × Pin) => p.2.cohort = t.cohort && decide (p.2.scope < level)
  let new : List Sync := if clock = [] then [] else
    (List.filter mine s.pins).map fun p => { lo := p.1 * 128, len := 128, scope := level, by' := t, know := clock, line := true }
  { s with pins := List.filterMap (fun p => if mine p then (if level ≥ 6 then none else some (p.1, { p.2 with scope := level })) else some p) s.pins
           syncs := s.syncs ++ new }

/-- What an acquire by t at a level takes from what was read: the writes themselves, and the releases whose scope and its own
relate (R246, R248, R249). -/
def State.acquires (s : State) (t : ThreadId) (level : Nat) (l : List Sync) : List Nat :=
  (l.filter fun r => r.scope ≥ 9 || (s.within r.scope r.by' t && s.within level t r.by')).foldl (fun k r => join k r.know) []

/-- One pending fence of a thread, as far as the events it orders before it have completed (R247, R250, R251). -/
def State.settleFence (s : State) (t : ThreadId) (f : Fence) : State :=
  let x := s.thread t
  let late := fun (d : Deferred) => !x.handler && d.op < f.id && d.ctr < 2
  let readsDue := (s.ops.any fun p => p.2.thread = t && p.1 < f.id && p.2.isRead) || x.deferred.any fun d => late d && d.ctr = 0
  let allDue := !s.earlierComplete t f.id f.level || x.deferred.any late
  let acquire := fun (y : Thread) =>
    { y with know := join y.know (s.acquires t f.level ((y.seen.filter fun r => r.1 < f.id).map (·.2))) }
  let drop := fun (y : Thread) => { y with fences := y.fences.filter fun g => g.id ≠ f.id }
  let publish := fun (s : State) => s.widen t f.level (s.clock t f.id f.know)
  match f.kind with
  | 1 => if readsDue then s else s.modThread t fun y => drop (acquire y)
  | 2 => if allDue then s else publish (s.modThread t drop)
  | 3 =>
    if readsDue then s
    else
      let s := s.modThread t fun y => { acquire y with fences := y.fences.map fun g => if g.id = f.id then { f with kind := 2 } else g }
      if allDue then s else publish (s.modThread t drop)
  | _ =>
    if allDue then s
    else
      let related := s.scFences.filter fun e => s.within e.1 e.2.1 t && s.within f.level t e.2.1
      let s := s.modThread t fun y => let y := drop (acquire y); { y with know := related.foldl (fun k e => join k e.2.2) y.know }
      let s := publish s
      let c := s.clock t f.id (s.thread t).know
      if c = [] then s else { s with scFences := s.scFences ++ [(f.level, t, c)] }

/-- Every pending fence of a thread, in order. -/
def State.settleFences (s : State) (t : ThreadId) : State := (s.thread t).fences.foldl (fun s f => s.settleFence t f) s

/-- Requests leave every queue at a holder. -/
def State.unqueue (s : State) (ids : List Nat) : State :=
  let out := fun (l : List Nat) => l.filter fun i => !ids.contains i
  let named := fun (i : Nat) => ids.contains i
  if !(s.objects.any fun o => o.2.waiting.any (fun w => named w.1) || o.2.extents.any fun e => e.queue.any named || e.fwd.any named) then s
  else { s with objects := s.objects.map fun _ (b : Obj) =>
      { b with waiting := b.waiting.filter fun w => !named w.1, extents := b.extents.map fun (e : Extent) => { e with queue := out e.queue, fwd := out e.fwd } } }

/-- Engine work leaves its places in the queues that commits forwarded, but for some (R189). -/
def State.giveUpBut (s : State) (id : Nat) (l : List ((Nat × Nat) × Nat)) : State :=
  if !(s.objects.any fun o => o.2.extents.any fun e => e.fwd.contains id) then s
  else { s with objects := s.objects.map fun k (b : Obj) => { b with extents := (List.range b.extents.length).map fun i =>
      let e := b.extents.getD i {}
      if (k, i) ∈ l then e else { e with fwd := e.fwd.filter (· ≠ id) } } }
def State.giveUp (s : State) (id : Nat) : State := s.giveUpBut id []

/-- The names under which an operation stands in queues at holders. -/
def Op.places (o : Op) (id : Nat) : List Nat := match o.body with | .xfer x => [id, x.fork] | _ => [id]

/-- Ends one operation: it leaves the table, every die sees its store, its counter counts it, and the fences that waited for it
complete. -/
def State.endOne (s : State) (id : Nat) : State :=
  match s.op? id with
  | none => s
  | some o =>
    let s := ({ s with ops := s.ops.del id }.expose [id] []).unqueue (o.places id)
    let s := if o.isAccess then s.settleFences o.thread else s
    let count := fun (c : Nat) (x : Thread) =>
      let y := x.lowerDc c id
      if c ≥ 2 && (o.know ≠ [] || o.edges ≠ []) then { y with joins := { ctr := c, after := x.issuedAfter c id, know := o.know, edges := o.edges } :: y.joins } else y
    match o.body, o.ctr with
    | .matrix m, some c => m.members.foldl (fun s t => s.modThread t (count c)) s
    | _, some c => s.modThread o.thread (count c)
    | _, none => s

/-- Ends an operation, and with the last copy of a list whose records are all fetched the KICK of the list (R229). -/
def State.endOp (s : State) (id : Nat) : State :=
  let list := match s.op? id with
    | some { body := .copy c, .. } => c.list
    | _ => none
  let s := s.endOne id
  match list with
  | none => s
  | some l =>
    match s.op? l with
    | some { body := .kick k, .. } =>
      if k.next = k.count && !(s.ops.any fun p => match p.2.body with | .copy c => c.list = some l | _ => false) then s.endOne l else s
    | _ => s

/-- An operation whose work is done ends, at once or with the last of its arrival messages (R229). -/
def State.closeOp (s : State) (id : Nat) : State :=
  if s.msgs.any fun m => m.2.op = some id then
    match s.op? id with
    | some o => (s.unqueue (o.places id)).setOp id { o with closing := true }
    | none => s
  else s.endOp id

/-- The operations of a thread, in issue order. -/
def State.opsOf (s : State) (t : ThreadId) : List (Nat × Op) := s.ops.filter fun p => p.2.thread = t

/-! ## Arrival messages (R268, R269) -/

/-- What engine work carries to those who observe it: what comes before it for all, and its other edges (R253). -/
def edgesWith (t : ThreadId) (know : List Nat) (l : List Edge) : List Edge :=
  (if know = [] then [] else [{ scope := 9, by' := t, know := know }]) ++ l
def Op.allEdges (o : Op) : List Edge := edgesWith o.thread o.know o.edges

def State.send (s : State) (m : Msg) : Nat × State :=
  (s.nextId, { s with nextId := s.nextId + 1, msgs := s.msgs.put s.nextId m })

/-- Sends one contribution of an operation to a register of its cohort, with its edges (R253, R268). -/
def State.contribute (s : State) (id : Nat) (o : Op) (nb : Nat) (k : Contribution) : State :=
  (s.send { body := .contribute o.thread.cohort nb { k with know := o.allEdges }, op := some id }).2

def NbFlags.or (a b : NbFlags) : NbFlags :=
  { err := a.err || b.err, partly := a.partly || b.partly, past := a.past || b.past, missed := a.missed ||| b.missed }

/-- Completion of a phase, where both counts have reached zero (R268). -/
def Nb.complete (r : Nb) : Nb :=
  if r.armed && r.mleft = 0 && r.bleft = 0 then
    { r with phase := r.phase + 1, last := r.flags, done := r.flags, mleft := r.members, bleft := r.bytes, flags := {}, counted := false,
             lastKnow := r.know, know := [] }
  else r

/-- A contribution at a register (R268). -/
def Nb.arrive (r : Nb) (k : Contribution) : Nb :=
  if !r.armed then { r with last := { r.last with past := true } }
  else
    let overB := decide (k.bytes > r.bleft.toNat)
    let overM := k.member && r.mleft = 0
    let f := r.flags.or k.flags
    Nb.complete
      { r with bleft := if overB then 0 else r.bleft - BitVec.ofNat 32 k.bytes
               mleft := if k.member && !overM then r.mleft - 1 else r.mleft
               flags := { f with past := f.past || overB || overM }
               counted := true
               know := r.know ++ k.know.filter fun e => !r.know.contains e }

/-- NBSET at a register (R268). -/
def Nb.set (r : Nb) (members : BitVec 16) (bytes : Word) : Nb :=
  if members = 0 && bytes = 0 then { r with armed := false, counted := false, know := [], flags := {} }
  else { r with armed := true, members := members, bytes := bytes, mleft := members, bleft := bytes, flags := {},
                counted := false, know := [] }

/-- Partly arrived (R268). -/
def Nb.partly (r : Nb) : Bool := r.armed && r.counted && (r.mleft ≠ 0 || r.bleft ≠ 0)

/-- The live cohorts of a context. -/
def State.cohortsIn (s : State) (chip vf : Nat) : List (CohortId × Cohort) :=
  List.filter (fun (x : CohortId × Cohort) => x.1.chip = chip && x.2.vf = vf && !x.2.ended) s.cohorts
/-- Whether a cohort of a context has a partly arrived register (R268). -/
def State.partly (s : State) (chip vf : Nat) : Bool := (s.cohortsIn chip vf).any fun x => x.2.nbs.any Nb.partly
/-- A context that defers its save goes on to stop once no register is partly arrived (R394). -/
def State.settleDefer (s : State) (chip vf : Nat) : State :=
  if (s.vf chip vf).ctx = .deferring && !s.partly chip vf then s.modVf chip vf fun v => { v with ctx := .stopping, ctxSince := s.now } else s

/-! ## Host memory and its rings -/

def State.hostWrite (s : State) (chip : Nat) (bus : Nat) (bs : List Byte) : State :=
  { s with mem := Memory.writeBytes s.mem (hostAt chip bus) bs }

/-- Slots of a ring whose LOG2 lies from lo to hi; other values act as lo (R321, R383, R413). -/
def ringSlots (ctl : Word) (lo hi : Nat) : Nat :=
  let l := ctl.toNat % 32
  2 ^ (if lo ≤ l ∧ l ≤ hi then l else lo)

/-- Saturating increment (R6 registers that saturate at 0xFFFF_FFFF). -/
def satInc (w : Word) : Word := if w = 0xFFFFFFFF then w else w + 1

/-- Writes a fault report, or drops and counts it (R392). -/
def State.reportFault (s : State) (c v : Nat) (r : TrapRec) (reason grid cohort thread : Nat) : State :=
  let f := s.vf c v
  let n := ringSlots f.frctl 4 16
  if f.frctl.getLsbD 31 && (f.frprod - f.frcons).toNat ≠ n then
    let bytes := bytesLE 8 r.f0.toNat ++ bytesLE 8 r.f1.toNat ++ bytesLE 8 r.f2.toNat ++ bytesLE 8 r.f3.toNat
      ++ bytesLE 4 reason ++ bytesLE 4 grid ++ bytesLE 4 cohort ++ bytesLE 4 thread ++ timeBytes (s.ns c)
    (s.hostWrite c (f.frbase.toNat + 64 * (f.frprod.toNat % n)) bytes).setVf c v { f with frprod := f.frprod + 1 }
  else s.setVf c v { f with frdrop := satInc f.frdrop }

/-- The 32 bytes of a recovery-log entry (R413). -/
def LogEntry.bytes (e : LogEntry) : List Byte :=
  timeBytes e.time ++ bytesLE 1 e.type ++ bytesLE 1 e.die ++ bytesLE 2 e.unit ++ bytesLE 2 e.vf ++ bytesLE 2 0 ++ bytesLE 8 e.addr

/-- Logs an event: in the lockkeepers' own copy always, and in the ring unless it is full or disabled (R413). -/
def State.logEvent (s : State) (c : Nat) (type die unit vf addr : Nat) : State :=
  let h := s.chip c
  let e : LogEntry := { time := s.ns c, type, die, unit, vf, addr }
  let h := { h with log := (h.log ++ [e]).drop (h.log.length + 1 - 4096) }
  let n := ringSlots h.rlctl 6 20
  if h.rlctl.getLsbD 31 && (h.rlprod - h.rlcons).toNat < n then
    (s.hostWrite c (h.rlbase.toNat + 32 * (h.rlprod.toNat % n)) e.bytes).setChip c { h with rlprod := h.rlprod + 1 }
  else s.setChip c { h with rldrop := satInc h.rldrop }

/-! ## Frames (R361, R362) -/

/-- The frames of a stack: 144 × 10^9 bytes of 64 KiB (R361). -/
def frameCount : Nat := 144 * 10 ^ 9 / 65536
/-- The L2 colour of a frame (R361). -/
def colourOf (frame : Nat) : Nat := Nat.xor (Nat.xor (frame % 128) (frame / 128 % 128)) (frame / 16384 % 128)
/-- Whether a partition's mask on a die permits a frame; a zero mask permits all (R362). -/
def State.permits (s : State) (d : DieId) (part frame : Nat) : Bool :=
  let m := (s.part d.chip part).cmask.getD d.die 0
  m = 0 || m.getLsbD (colourOf frame)

/-- The first free permitted frame from f up, if any, in at most k tries. -/
def State.freeFrom (s : State) (d : DieId) (part : Nat) (used : List Nat) : Nat → Nat → Option Nat
  | 0, _ => none
  | k + 1, f =>
    if f ≥ frameCount then none
    else if s.permits d part f && !used.contains f then some f
    else s.freeFrom d part used k (f + 1)

/-- Allocates n frames of a die to a function of a partition: each the frame that Config.frameChoice names where that
frame is free and permitted, else another (R362, log 8); none where fewer are free. -/
def State.allocFrames (s : State) (d : DieId) (part vf : Nat) : Nat → Option (List Nat × State)
  | 0 => some ([], s)
  | n + 1 =>
    let x := s.die d
    let used := x.frames.map (·.1)
    let f := Config.frameChoice s.draws
    let pick := if f < frameCount && s.permits d part f && !used.contains f then some f
                else s.freeFrom d part used frameCount 0
    match pick with
    | none => none
    | some f =>
      let s := { s with draws := s.draws + 1 }.setDie d { x with frames := (f, vf) :: x.frames }
      match s.allocFrames d part vf n with
      | none => none
      | some (fs, s) => some (f :: fs, s)

/-- Frees frames of a die; their counters, their ciphertext and what the L2 holds of them are gone (R366). -/
def State.freeFrames (s : State) (d : DieId) (fs : List Nat) : State :=
  s.modDie d fun x =>
    { x with frames := x.frames.filter fun p => !fs.contains p.1
             l2 := List.filter (fun (l : Nat × Bool) => !fs.contains (l.1 / 512)) x.l2
             l2bad := x.l2bad.filter fun l => !fs.contains (l / 1024)
             counters := List.filter (fun (b : Nat × CounterBlock) => !fs.contains (b.1 / 16)) x.counters
             lines := List.filter (fun (l : Nat × DramLine) => !fs.contains (l.1 / 1024)) x.lines }

/-! ## L2, DRAM and its encryption (R361, R363 to R367) -/

/-- The L2 slice and set of a 128-byte line of a die (R361). -/
def l2Place (line : Nat) : Nat × Nat :=
  let pa := line * 128
  (Nat.xor (bitsOf pa 12 7) (bitsOf pa 18 13), 8 * colourOf (pa / 65536) + bitsOf pa 15 13)

/-- The package that holds a page. -/
def Obj.holderOf (o : Obj) (page : Nat) : Nat := (o.extents.getD (65536 * page / 2 ^ o.log2) {}).holder

/-- The die and 64-byte line of DRAM in which a byte of memory lies: an object's, private memory's or a window image's. -/
def State.dramLine (s : State) (a : Nat) : Option (DieId × Nat) :=
  if a < 2 ^ 64 then
    match s.objects.get? (birthOf (BitVec.ofNat 64 a), serialOf (BitVec.ofNat 64 a)) with
    | none => none
    | some o => (o.pages[a % 2 ^ 30 / 65536]?).map fun p => (⟨o.holderOf (a % 2 ^ 30 / 65536), p.die⟩, p.frame * 1024 + a % 65536 / 64)
  else if a < 2 ^ 128 then none
  else if a < 2 * 2 ^ 128 then
    let n := (a - 2 ^ 128) / 2 ^ 30
    let k := n / 4096 / 65536
    let c : CohortId := ⟨k / 256, k / 64 % 4, k % 64, n / 4096 % 65536⟩
    match (s.cohort c).frames with
    | [] => none
    | f :: fs =>
      let j := Config.frameLine ((n % 4096 * (s.launchOf c).priv' + a % 2 ^ 30) / 64)
      ((f :: fs)[j / 1024]?).map fun f => (c.toDie, f * 1024 + j % 1024)
  else if a < 4 * 2 ^ 128 then none
  else
    let n := (a - 4 * 2 ^ 128) / 2 ^ 30
    let g := s.grant (n / 1024) (n / 4 % 256)
    if g.state = .idle then none
    else (g.frames[n % 4 * (g.ctl.toNat % 8192) + a % 2 ^ 30 / 65536]?).map fun f => (⟨n / 1024, g.die⟩, f * 1024 + a % 65536 / 64)

/-- What a frame of a die holds: an object's page, a window's image, a cohort's private frame, or nothing. -/
inductive FrameUse where
  | page (key : Nat × Nat) (index : Nat)
  | window (grant : Nat) (img : Nat) (off : Nat)
  | cohort (c : CohortId) (index : Nat)
  | free
deriving DecidableEq, Repr

/-- Position of an element in a list. -/
def indexOf? {α : Type} (f : α → Bool) (l : List α) : Option Nat := (List.range l.length).find? fun i => (l[i]?).any f

/-- The use of a frame. -/
def State.frameUse (s : State) (d : DieId) (f : Nat) : FrameUse :=
  let page := s.objects.findSome? fun (o : (Nat × Nat) × Obj) =>
    ((List.range o.2.pages.length).find? fun i => let p := o.2.pages.getD i {}; p.frame = f && p.die = d.die && o.2.holderOf i = d.chip).map fun i => FrameUse.page o.1 i
  let window := (s.chip d.chip).grants.findSome? fun (g : Nat × Grant) =>
    if g.2.die ≠ d.die || g.2.state = .idle then none
    else (indexOf? (· = f) g.2.frames).map fun i =>
      let n := g.2.ctl.toNat % 8192
      FrameUse.window g.1 (i / n) (65536 * (i % n))
  let cohort := s.cohorts.findSome? fun (x : CohortId × Cohort) =>
    if x.1.toDie ≠ d || x.2.ended then none else (indexOf? (· = f) x.2.frames).map fun i => FrameUse.cohort x.1 i
  ((page.orElse fun _ => window).orElse fun _ => cohort).getD .free

/-- The address in memory of a 64-byte line of a die, where a pointer reaches it. -/
def State.lineAddr (s : State) (d : DieId) (line : Nat) : Option Nat :=
  let off := line % 1024 * 64
  match s.frameUse d (line / 1024) with
  | .page k i => some ((mkPtr k.1 k.2 0).toNat + 65536 * i + off)
  | .window g img o => some (windowAt d.chip g img (o + off))
  | .cohort c i =>
    let x := s.launchOf c
    ((List.range (x.threads * x.priv' / 64)).find? fun n => Config.frameLine n = i * 1024 + line % 1024).map fun n =>
      privateAt ⟨c, n * 64 / x.priv'⟩ (n * 64 % x.priv')
  | .free => none

/-- The owner of the key under which a frame is encrypted: a function, or 1024 + n for the images of window n (R363, R374). -/
def State.keyOwner (s : State) (d : DieId) (frame : Nat) : Nat := Tab.getD (s.die d).frames frame 0
/-- Its key. -/
def State.ownerKey (s : State) (chip o : Nat) : BitVec 256 :=
  if o < 1024 then (s.vf chip o).key else Config.windowKey (s.grant chip (o - 1024)).key
/-- The root of its counter tree (R17, R366). -/
def State.rootOf (s : State) (chip o : Nat) : CounterBlock := if o < 1024 then (s.vf chip o).root else (s.grant chip (o - 1024)).root
def State.setRoot (s : State) (chip o : Nat) (b : CounterBlock) : State :=
  if o < 1024 then s.modVf chip o fun v => { v with root := b } else s.setGrant chip (o - 1024) { s.grant chip (o - 1024) with root := b }

/-- The counter value of block j of a line (R364). -/
def counterValue (die line major minor j : Nat) : BitVec 128 :=
  BitVec.ofNat 128 (2 ^ 64 * (major % 2 ^ 64) + 2 ^ 57 * (minor % 128) + 2 ^ 55 * (die % 4) + 2 ^ 23 * (line % 2 ^ 32) + j % 4)
/-- The 64 bytes that a line's plaintext is XORed with (R364). -/
def linePad (key : BitVec 256) (die line major minor : Nat) : List Byte :=
  let k := Crypt.subkey key "GX9 ENC"
  (List.range 4).flatMap fun j => Crypt.bytesBE 16 (Crypt.aes256 k (counterValue die line major minor j)).toNat
/-- The MAC of 64 bytes: the top 56 bits of GHASH over them and the counter value, XORed with that value's encryption (R364). -/
def lineMac (key : BitVec 256) (die line major minor : Nat) (bytes : List Byte) : BitVec 56 :=
  let k := Crypt.subkey key "GX9 MAC"
  let h := Crypt.aes256 k 0
  let v := counterValue die line major minor 0
  let blocks := ((List.range 4).map fun j => BitVec.ofNat 128 (Crypt.ofBytesBE ((bytes.drop (16 * j)).take 16))) ++ [v]
  ((blocks.foldl (fun y b => Crypt.ghashMul (y ^^^ b) h) 0) ^^^ Crypt.aes256 k v).extractLsb' 72 56

/-- The 64 bytes of a counter block (R366). -/
def CounterBlock.bytes (b : CounterBlock) : List Byte :=
  bytesLE 64 ((List.range 64).foldl (fun n i => n + 2 ^ (64 + 7 * i) * (b.minors.getD i 0 % 128)) (b.major % 2 ^ 64))
/-- One more write of child i: its MINOR, or MAJOR with every MINOR at 0 (R366). -/
def CounterBlock.bump (b : CounterBlock) (i : Nat) : CounterBlock :=
  if b.minors.getD i 0 ≥ 127 then { b with major := b.major + 1, minors := List.replicate 64 0 }
  else { b with minors := b.minors.set i (b.minors.getD i 0 + 1) }

/-- The levels that an owner's frames need in its counter tree, the leaves apart: enough for the one of highest address, dies one after
another (R366; log 42). -/
def State.treeLevels (s : State) (chip o : Nat) : Nat :=
  let top := ((List.range 4).flatMap fun d => ((s.die ⟨chip, d⟩).frames.filter fun f => f.2 = o).map fun f => d * 2 ^ 26 + f.1 * 16 + 15).foldl max 0
  ((List.range 6).find? fun n => n ≠ 0 && top < 64 ^ n).getD 5
/-- The levels that an owner's counter tree has. -/
def State.treeHeight (s : State) (chip o : Nat) : Nat := if o < 1024 then (s.vf chip o).height else (s.grant chip (o - 1024)).height
def State.setHeight (s : State) (chip o n : Nat) : State :=
  if o < 1024 then s.modVf chip o fun v => { v with height := n } else s.setGrant chip (o - 1024) { s.grant chip (o - 1024) with height := n }
/-- The block of a tree at a level, the leaves at 0 and the root last. -/
def State.treeBlock (s : State) (chip o level i : Nat) : CounterBlock :=
  if level = 0 then Tab.getD (s.die ⟨chip, i / 2 ^ 26⟩).counters (i % 2 ^ 26) {}
  else if level = s.treeHeight chip o then s.rootOf chip o
  else Tab.getD (s.chip chip).nodes (o, level, i) {}
def State.setTreeBlock (s : State) (chip o level i : Nat) (b : CounterBlock) : State :=
  if level = 0 then s.modDie ⟨chip, i / 2 ^ 26⟩ fun x => { x with counters := Tab.put x.counters (i % 2 ^ 26) b }
  else if level = s.treeHeight chip o then s.setRoot chip o b
  else s.modChip chip fun h => { h with nodes := Tab.put h.nodes (o, level, i) b }

/-- The counter tree of an owner whose key is destroyed is gone (R366, R374). -/
def State.dropTree (s : State) (chip o : Nat) : State :=
  ((s.setRoot chip o {}).setHeight chip o 1).modChip chip fun h =>
    { h with nodes := List.filter (fun (n : (Nat × Nat × Nat) × CounterBlock) => n.1.1 ≠ o) h.nodes }

/-- The MAC of the block of a level under its parent's counters for it. -/
def State.blockMac (s : State) (chip o level i : Nat) (b parent : CounterBlock) : BitVec 56 :=
  let home := Config.counterHome o level i
  lineMac (s.ownerKey chip o) (home / 2 ^ 32) home parent.major (parent.minors.getD (i % 64) 0) b.bytes

/-- Whether a block belongs to an owner's tree: a leaf does where its frame does. -/
def State.inTree (s : State) (chip o level i : Nat) : Bool :=
  level ≠ 0 || Tab.get? (s.die ⟨chip, i / 2 ^ 26⟩).frames (i % 2 ^ 26 / 16) = some o

/-- A counter block is written: its parent counts the write, and the block, and with a new MAJOR those of its 63 siblings that passed
their checks too, get their MACs under it; so up to the root (R366). -/
def State.commitBlock (s : State) (chip o : Nat) : Nat → Nat → Nat → CounterBlock → State
  | 0, level, i, b => s.setTreeBlock chip o level i b
  | n + 1, level, i, b =>
    let p := s.treeBlock chip o (level + 1) (i / 64)
    let q := p.bump (i % 64)
    let s := s.setTreeBlock chip o level i { b with mac := s.blockMac chip o level i b q }
    let s := if q.major = p.major then s else (List.range 64).foldl (fun s k =>
      let j := i / 64 * 64 + k
      let c := s.treeBlock chip o level j
      if j = i || c = {} || !s.inTree chip o level j || c.mac ≠ s.blockMac chip o level j c p then s
      else s.setTreeBlock chip o level j { c with mac := s.blockMac chip o level j c q }) s
    s.commitBlock chip o n (level + 1) (i / 64) q

/-- One level more: the old root is the first block below a new one. -/
def State.raiseTree (s : State) (chip o : Nat) : State :=
  let r := s.rootOf chip o
  let h := s.treeHeight chip o
  ((s.setHeight chip o (h + 1)).setRoot chip o {}).commitBlock chip o 1 h 0 r
/-- A tree with the levels that its owner's frames need (R366): it grows above its root, or its root is the first block of a lower
level. A tree in which nothing has been written has no blocks to keep. -/
def State.fitTree (s : State) (chip o : Nat) : State :=
  let n := s.treeLevels chip o
  let h := s.treeHeight chip o
  if n = h then s
  else if s.rootOf chip o = {} then s.setHeight chip o n
  else if h < n then (List.range (n - h)).foldl (fun s _ => s.raiseTree chip o) s
  else
    let r := s.treeBlock chip o n 0
    ((s.setHeight chip o n).setRoot chip o r).modChip chip fun x =>
      { x with nodes := List.filter (fun (b : (Nat × Nat × Nat) × CounterBlock) => b.1.1 ≠ o || b.1.2.1 < n) x.nodes }

/-- Whether a counter block and those above it pass their checks, up to the root (R365, R366). -/
def State.blockOk (s : State) (chip o : Nat) : Nat → Nat → Nat → Bool
  | 0, _, _ => true
  | n + 1, level, i =>
    let b := s.treeBlock chip o level i
    let p := s.treeBlock chip o (level + 1) (i / 64)
    (b = {} || b.mac = s.blockMac chip o level i b p) && s.blockOk chip o n (level + 1) (i / 64)

/-- One line of a block encrypted anew under changed counters. -/
def DramLine.reencrypt (l : DramLine) (key : BitVec 256) (die line : Nat) (old new : CounterBlock) : DramLine :=
  let text := Crypt.xorBytes (Crypt.xorBytes l.text (linePad key die line old.major (old.minors.getD (line % 64) 0)))
    (linePad key die line new.major (new.minors.getD (line % 64) 0))
  { l with text := text, mac := lineMac key die line new.major (new.minors.getD (line % 64) 0) text }

/-- R366: 64 bytes are written to a line of a frame in use: its counter rises, or MAJOR does with every MINOR at 0 and the block's lines
encrypted anew; the line is encrypted and its MAC stored, and the block committed (R363, R364). Under a counter block that fails
nothing is written: the line fails with it (R367). -/
def State.encryptLine (s : State) (d : DieId) (line : Nat) (plain : List Byte) : State :=
  match Tab.get? (s.die d).frames (line / 1024) with
  | none => s
  | some o =>
    let s := s.fitTree d.chip o
    let key := s.ownerKey d.chip o
    let i := d.die * 2 ^ 26 + line / 64
    if !s.blockOk d.chip o (s.treeHeight d.chip o) 0 i then s else
    let old := s.treeBlock d.chip o 0 i
    let new := old.bump (line % 64)
    let minor := new.minors.getD (line % 64) 0
    let text := Crypt.xorBytes plain (linePad key d.die line new.major minor)
    let again := fun (l : List (Nat × DramLine)) =>
      if new.major = old.major then l
      else List.map (fun (x : Nat × DramLine) => if x.1 / 64 = line / 64 then (x.1, x.2.reencrypt key d.die x.1 old new) else x) l
    let s := s.modDie d fun x =>
      { x with lines := Tab.put (again x.lines) line { text := text, mac := lineMac key d.die line new.major minor text } }
    let s := s.commitBlock d.chip o (s.treeHeight d.chip o) 0 i new
    if o < 1024 then s.modVf d.chip o fun v => { v with majorMax := max v.majorMax new.major } else s

/-- A line is written back: the bytes that memory has at its place, or what a line holds that no pointer reaches. -/
def State.writeBack (s : State) (d : DieId) (line : Nat) : State :=
  { s with draws := s.draws + 1 }.encryptLine d line (match s.lineAddr d line with
    | some a => Memory.readBytes s.mem a 64
    | none => bytesLE 64 (Config.hiddenLine s.draws).toNat)

/-- The plaintext of a line that DRAM holds (R365). -/
def State.decrypted (s : State) (d : DieId) (line : Nat) : Option (List Byte) :=
  let o := s.keyOwner d (line / 1024)
  let c := s.treeBlock d.chip o 0 (d.die * 2 ^ 26 + line / 64)
  (Tab.get? (s.die d).lines line).map fun l => Crypt.xorBytes l.text (linePad (s.ownerKey d.chip o) d.die line c.major (c.minors.getD (line % 64) 0))

/-- The line of DRAM is marked as holding more errors than its code corrects (R411). -/
def State.spoilLine (s : State) (d : DieId) (line : Nat) : State :=
  s.modDie d fun x => { x with lines := List.map (fun (l : Nat × DramLine) => if l.1 = line then (l.1, { l.2 with bad := true }) else l) x.lines }

/-- Whether a line as DRAM holds it passes its checks: its code, its MAC and its counters (R365, R411). -/
def State.lineOk (s : State) (d : DieId) (line : Nat) : Bool :=
  let o := s.keyOwner d (line / 1024)
  let i := d.die * 2 ^ 26 + line / 64
  let c := s.treeBlock d.chip o 0 i
  (match Tab.get? (s.die d).lines line with
    | none => true
    | some l => !l.bad && l.mac = lineMac (s.ownerKey d.chip o) d.die line c.major (c.minors.getD (line % 64) 0) l.text)
  && ((s.die d).counters = [] || s.blockOk d.chip o (s.treeHeight d.chip o) 0 i)

/-- The halves of a 128-byte line of the L2 are written back, but for those that failed as it took them from DRAM (R361, R367). -/
def State.writeHalves (s : State) (d : DieId) (line : Nat) : State :=
  [2 * line, 2 * line + 1].foldl (fun s h => if (s.die d).l2bad.contains h then s else s.writeBack d h) s

/-- A 128-byte line used in the L2 of a die: it comes first; the set's thirteenth and last used leaves, written back where it is
dirty (R361). DESIGN CHOICE (log 42): the least recently used is replaced. A line taken from DRAM is checked, each half on its own: one
that fails stays so until a write covers it (R365, R367); whole: the halves that this use writes whole. -/
def State.l2Touch (s : State) (d : DieId) (line : Nat) (wr : Bool) (whole : List Nat := []) : State :=
  let x := s.die d
  let dirty := wr || Tab.getD x.l2 line false
  let rest := Tab.del x.l2 line
  let same := List.filter (fun (e : Nat × Bool) => l2Place e.1 = l2Place line) rest
  let new := if (Tab.get? x.l2 line).isSome || (x.lines = [] && x.counters = []) then []
             else [2 * line, 2 * line + 1].filter fun h => !s.lineOk d h
  let bad := (x.l2bad ++ new).filter fun h => !whole.contains h
  match same[11]? with
  | none => s.setDie d { x with l2 := (line, dirty) :: rest, l2bad := bad }
  | some out =>
    let s := s.setDie d { x with l2 := (line, dirty) :: Tab.del rest out.1, l2bad := bad }
    (if out.2 then s.writeHalves d out.1 else s).modDie d fun x => { x with l2bad := x.l2bad.filter fun h => h / 2 ≠ out.1 }

/-- The dirty L2 lines of some frames of a die are written back, and are clean (R187, R366). -/
def State.cleanLines (s : State) (d : DieId) (mine : Nat → Bool) : State :=
  let l := (List.filter (fun (e : Nat × Bool) => e.2 && mine e.1) (s.die d).l2).map (·.1)
  l.foldl (fun s n => (s.modDie d fun x => { x with l2 := List.map (fun (e : Nat × Bool) => if e.1 = n then (n, false) else e) x.l2 }).writeHalves d n) s

/-- The 64-byte lines of memory that n bytes lie in. -/
def blocksOf (a n : Nat) : List Nat := (List.range ((a + n + 63) / 64 - a / 64)).map (· + a / 64)
/-- A use of n bytes of memory in the L2 of the dies that hold them. -/
def State.l2Use (s : State) (a n : Nat) (wr : Bool) : State :=
  (blocksOf a n).foldl (fun s j => match s.dramLine (j * 64) with
    | some (d, l) => s.l2Touch d (l / 2) wr (if wr && a ≤ j * 64 && j * 64 + 64 ≤ a + n then [l] else [])
    | none => s) s

/-- Whether a 64-byte line of memory fails: it is marked, or it failed its checks as the L2 took it from DRAM, or it fails them there
now (R365, R367). -/
def State.lineFails (s : State) (j : Nat) : Bool :=
  s.failed.contains j || match s.dramLine (j * 64) with
    | some (d, l) =>
      let x := s.die d
      !(x.lines = [] && x.counters = []) && (if (Tab.get? x.l2 (l / 2)).isSome then x.l2bad.contains l else !s.lineOk d l)
    | none => false

/-- A failure that a read of n bytes finds: the lines are marked, and logged by their place (R367, R412). -/
def State.found (s : State) (a n : Nat) : State :=
  (blocksOf a n).foldl (fun s j =>
    if s.failed.contains j || !s.lineFails j then s
    else match s.dramLine (j * 64) with
      | none => s
      | some (d, l) =>
        let o := s.keyOwner d (l / 1024)
        let type := if (Tab.get? (s.die d).lines l).any (·.bad) then 2 else 3
        { s with failed := j :: s.failed }.logEvent d.chip type d.die (Config.arrayUnit d.die type) (if o < 1024 then o else 0xFFFF) (64 * l)) s

/-! ## Cistern lines and banks (R210 to R214, R356) -/

/-- Whether a partition owns bank b of a core's cistern (R356). -/
def State.ownsBank (s : State) (c : CoreId) (part b : Nat) : Bool :=
  b < 48 && (s.quad ⟨c.chip, c.die, c.core, b / 12⟩).owner = some part
/-- Whether a partition owns every bank that n bytes of a core's cistern lie in. -/
def State.ownsBytes (s : State) (c : CoreId) (part off n : Nat) : Bool :=
  off + n ≤ 48 * 32768 && (List.range 48).all fun b => b + 1 ≤ off / 32768 || (off + n - 1) / 32768 + 1 ≤ b || s.ownsBank c part b
/-- The quadrants of a core that a partition owns, its core share (R322). -/
def State.share (s : State) (c : CoreId) (part : Nat) : List Nat :=
  (List.range 4).filter fun q => (s.quad ⟨c.chip, c.die, c.core, q⟩).owner = some part
/-- The outstanding writers of a cistern line (R212). -/
def State.writers (s : State) (c : CoreId) (line : Nat) : Nat := Tab.getD (s.core c).writers line 0
/-- A line's presence bit (R212). -/
def State.present (s : State) (c : CoreId) (line : Nat) : Bool := s.writers c line = 0
/-- Whether every line that n bytes lie in is present. -/
def State.presentAll (s : State) (c : CoreId) (off n : Nat) : Bool :=
  (s.core c).writers.all fun w => (w.1 + 1) * 128 ≤ off || off + n ≤ w.1 * 128 || w.2 = 0
/-- Claims lines (R212). -/
def State.claim (s : State) (c : CoreId) (lines : List Nat) : State :=
  s.modCore c fun x => { x with writers := lines.foldl (fun w l => Tab.put w l (Tab.getD w l 0 + 1)) x.writers }
/-- Ends one claim on each line (R212). -/
def State.unclaim (s : State) (c : CoreId) (lines : List Nat) : State :=
  s.modCore c fun x => { x with writers := lines.foldl (fun w l =>
    let k := Tab.getD w l 0
    if k ≤ 1 then Tab.del w l else Tab.put w l (k - 1)) x.writers }
/-- Whether a claim on these lines would pass a count of 15 (R212). -/
def State.claimFull (s : State) (c : CoreId) (lines : List Nat) : Bool :=
  lines.any fun l => s.writers c l + lines.count l > 15
/-- The lines that n bytes from an offset lie in. -/
def linesOf (off n : Nat) : List Nat := (List.range ((off + n + 127) / 128 - off / 128)).map (· + off / 128)

/-! ## Objects, windows and where an access lands (R169 to R182, R374, R375) -/

def keyOf (p : DWord) : Nat × Nat := (birthOf p, serialOf p)
def State.obj? (s : State) (p : DWord) : Option Obj := s.objects.get? (keyOf p)
/-- The window whose serial a pointer bears: its serial is cleared as its scrub completes (R374). -/
def State.window? (s : State) (p : DWord) : Option Nat :=
  ((s.chip (birthOf p)).grants.find? fun g => g.2.state ≠ .idle && g.2.serial = serialOf p && serialOf p ≠ 0).map (·.1)
def Grant.size (g : Grant) : Nat := 65536 * (g.ctl.toNat % 8192)
/-- A grant takes effect as VALID only where its size and realms allow it (R373). -/
def Grant.valid (g : Grant) : Bool :=
  g.ctl.getLsbD 31 && 1 ≤ g.ctl.toNat % 8192 && g.ctl.toNat % 8192 ≤ 4096 && g.realmA ≠ g.realmB
/-- The image of an open window that a realm reaches, where it is attached: 1 for A, 2 for B (R375). -/
def Grant.imageOf (g : Grant) (realm : Word) : Option Nat :=
  if g.state ≠ .opened then none
  else if realm = g.realmA && g.a.plain + g.a.write ≠ 0 then some 1
  else if realm = g.realmB && g.b.plain + g.b.write ≠ 0 then some 2
  else none
def Grant.side (g : Grant) (img : Nat) : Side := if img = 1 then g.a else g.b
def Grant.setSide (g : Grant) (img : Nat) (x : Side) : Grant := if img = 1 then { g with a := x } else { g with b := x }

/-- Where n bytes at a pointer lie, or why an access to them waits or ends: in transit, or behind requests that a commit
forwarded (R187, R189). -/
inductive Reach where
  | place (addr : Nat)
  | transit
  | fail (cause : Nat)
deriving DecidableEq, Repr

/-- The extents that n bytes touch. -/
def Obj.touched (o : Obj) (off n : Nat) : List Extent :=
  (o.extents.drop (off / 2 ^ o.log2)).take ((off + n - 1) / 2 ^ o.log2 + 1 - off / 2 ^ o.log2)

/-- Those extents, by object and number. -/
def State.placesAt (s : State) (p : DWord) (n : Nat) : List ((Nat × Nat) × Nat) :=
  match s.obj? p with
  | none => []
  | some o => (List.range (o.touched (offsetOf p) n).length).map fun i => (keyOf p, offsetOf p / 2 ^ o.log2 + i)

/-- A global pointer, for work of a function on a package (R173, R178, R187, R375). -/
def State.reachGlobal (s : State) (chip vf : Nat) (p : DWord) (n : Nat) (wr : Bool) : Reach :=
  let realm := (s.vf chip vf).realm
  match s.obj? p with
  | some o =>
    if o.realm ≠ realm || offsetOf p + n > o.size then .fail 3
    else if (o.touched (offsetOf p) n).any fun e => e.state = .copying || e.state = .committing || e.fwd ≠ [] then .transit
    else .place (globalAt p)
  | none =>
    match s.window? p with
    | none => .fail 2
    | some w =>
      let g := s.grant (birthOf p) w
      match g.imageOf realm with
      | none => .fail 3
      | some img =>
        if chip ≠ birthOf p || offsetOf p + n > g.size || (wr && (g.side img).write = 0) then .fail 3
        else .place (windowAt chip w img (offsetOf p))

/-- A host-window pointer (R172). -/
def State.reachHost (s : State) (chip vf : Nat) (p : DWord) (n : Nat) : Reach :=
  match (s.vf chip vf).hostWin.find? fun w => w.1 = serialOf p with
  | none => .fail 2
  | some (_, bus, size) => if offsetOf p + n > size then .fail 3 else .place (hostAt chip (bus + offsetOf p))

/-- A pointer outside chip-local space, for work of a function on a package. -/
def State.reachFor (s : State) (chip vf : Nat) (p : DWord) (n : Nat) (wr : Bool) : Reach :=
  if birthOf p = 0xFFF then .fail 0x12
  else if birthOf p = 0xFFE then s.reachHost chip vf p n
  else s.reachGlobal chip vf p n wr

/-- Any pointer, as a thread or its engine work means it (R171, R172). -/
def State.reach (s : State) (t : ThreadId) (p : DWord) (n : Nat) (wr : Bool) : Reach :=
  let (chip, vf) := s.ctxOf t.cohort
  if birthOf p = 0xFFF then
    if serialOf p = 0 then
      if offsetOf p + n ≤ (s.launchOf t.cohort).priv' then .place (privateAt t (offsetOf p)) else .fail 3
    else if serialOf p = 1 then
      if s.ownsBytes t.cohort.toCore (s.partOf t.cohort) (offsetOf p) n then .place (cisternAt t.cohort.toCore (offsetOf p)) else .fail 3
    else .fail 0x12
  else s.reachFor chip vf p n wr

/-- Whether an address is a cistern byte. -/
def inCistern (a : Nat) : Bool := 2 * 2 ^ 128 ≤ a && a < 3 * 2 ^ 128
/-- Whether reading n bytes meets a failed line (R367, R411). -/
def State.readFails (s : State) (a n : Nat) : Bool := n ≠ 0 && (blocksOf a n).any s.lineFails
/-- Whether writing n bytes needs the old bytes of a failed line (R367). -/
def State.writeFails (s : State) (a n : Nat) : Bool :=
  n ≠ 0 && !inCistern a && (blocksOf a n).any fun l => !(a ≤ l * 64 && l * 64 + 64 ≤ a + n) && s.lineFails l
/-- Whether a write of n bytes at a covers the whole of failed line l (R367, R411). -/
def coversLine (a n l : Nat) : Bool :=
  if inCistern a then a ≤ l / 2 * 128 && l / 2 * 128 + 128 ≤ a + n else a ≤ l * 64 && l * 64 + 64 ≤ a + n
/-- What is left of an edge that a write of n bytes at a overwrites: it is read from no more there, but for a widened line's
(R248, R251). -/
def Sync.cut (r : Sync) (a n : Nat) : List Sync :=
  if r.at' a n && !r.line then
    (if r.lo < a then [{ r with len := a - r.lo }] else [])
      ++ (if a + n < r.lo + r.len then [{ r with lo := a + n, len := r.lo + r.len - (a + n) }] else [])
  else [r]
/-- Bytes written at their place by an atomic, which continues a release sequence (R248); a failed line wholly covered is
whole again (R367). -/
def State.storeKeep (s : State) (a : Nat) (bs : List Byte) : State :=
  { s with mem := Memory.writeBytes s.mem a bs
           failed := s.failed.filter fun l => !coversLine a bs.length l }.l2Use a bs.length true
/-- Bytes written at their place by any other write, which ends the release sequences there (R248). -/
def State.store (s : State) (a : Nat) (bs : List Byte) : State :=
  let s := (s.expose [] [(a, bs.length)]).storeKeep a bs
  { s with syncs := s.syncs.flatMap fun r => r.cut a bs.length }
/-- The part of an edge's place within n bytes at a. -/
def Sync.clip (r : Sync) (a n : Nat) : Sync :=
  { r with lo := max r.lo a, len := min (r.lo + r.len) (a + n) - max r.lo a }
/-- The bytes at a without a late store. -/
def Lag.undo (l : Lag) (a : Nat) (bs : List Byte) : List Byte :=
  (List.range bs.length).map fun i => if l.lo ≤ a + i && a + i < l.lo + l.old.length then l.old.getD (a + i - l.lo) 0 else bs.getD i 0
def State.loadBytes (s : State) (a n : Nat) : List Byte := Memory.readBytes s.mem a n
def State.loadNat (s : State) (a n : Nat) : Nat := Memory.readNat s.mem a n

/-- The late stores to n bytes at a that a die does not see, newest first (R249). -/
def State.unseen (s : State) (d : DieId) (a n : Nat) : List Lag :=
  s.lags.filter fun l => !l.seen.contains d && overlap l.lo l.old.length a n
/-- The n bytes at a as a die sees them (R249). -/
def State.viewBytes (s : State) (d : DieId) (a n : Nat) : List Byte :=
  (s.unseen d a n).foldl (fun bs l => l.undo a bs) (s.loadBytes a n)
/-- The edges that a read of them brings (R248, R249). -/
def State.viewSyncs (s : State) (d : DieId) (a n : Nat) : List Sync :=
  (s.unseen d a n).foldl (fun rs l => rs.flatMap (fun r => r.cut l.lo l.old.length) ++ l.syncs.filter fun r => r.at' a n)
    (s.syncs.filter fun r => r.at' a n)
/-- What a read of the latest bytes at a brings to engine work of a thread (R253). -/
def State.heardAt (s : State) (t : ThreadId) (a n : Nat) : List Nat :=
  s.brought t ((s.syncs.filter fun r => r.at' a n && !r.line).map (·.toEdge))
/-- The edges of a write made at n bytes (R249, R253). -/
def State.addEdges (s : State) (a n : Nat) (l : List Edge) : State :=
  { s with syncs := s.syncs ++ l.map fun e => { e with lo := a, len := n : Sync } }

/-- The function of a package that stands for an object's realm there: the owner itself on its own package (R360, R369). DESIGN
CHOICE (log 57): elsewhere the first enabled, keyed function of the realm, whose policy register governs what that package
holds (R186). -/
def State.vfFor (s : State) (chip : Nat) (o : Obj) : Option Nat :=
  if chip = o.chip then some o.vf
  else ((s.chip chip).vfs.find? fun v => v.2.realm = o.realm && v.2.enable && v.2.keyed).map (·.1)

/-- One entry of the dirty log, or OVERFLOW (R403). -/
def State.dirtyEntry (s : State) (c v : Nat) (entry : Nat) : State :=
  let f := s.vf c v
  if (f.dlprod - f.dlcons).toNat = 65536 then s.setVf c v { f with dloverflow := true }
  else (s.hostWrite c (f.dlbase.toNat + 8 * (f.dlprod.toNat % 65536)) (bytesLE 8 entry)).setVf c v { f with dlprod := f.dlprod + 1 }

/-- The first write to a clean page of an object, while its function logs (R403). -/
def State.dirtyPage (s : State) (key : Nat × Nat) (page : Nat) : State :=
  match s.objects.get? key with
  | none => s
  | some o =>
    let e := o.extents.getD (65536 * page / 2 ^ o.log2) {}
    match s.vfFor e.holder o with
    | none => s
    | some v =>
      let pg := o.pages.getD page {}
      if (s.vf e.holder v).dlenable && !pg.dirty then
        (s.dirtyEntry e.holder v (mkPtr key.1 key.2 (65536 * page)).toNat).setObj key
          { o with pages := o.pages.set page { pg with dirty := true }, summary := join [e.holder] o.summary }
      else s

/-- Logs the pages that n bytes at a pointer touch, where it names an object (R403). -/
def State.dirtyRange (s : State) (p : DWord) (n : Nat) : State :=
  if (s.obj? p).isSome then
    (List.range ((offsetOf p + n - 1) / 65536 + 1 - offsetOf p / 65536)).foldl
      (fun s i => s.dirtyPage (keyOf p) (offsetOf p / 65536 + i)) s
  else s

/-- Marks window bytes unpublished, with the identifier of their write (R375). -/
def State.markWindow (s : State) (t : ThreadId) (p : DWord) (n id : Nat) : State :=
  if !isGlobal p || (s.obj? p).isSome then s else
  match s.window? p with
  | none => s
  | some w =>
    let g := s.grant (birthOf p) w
    match g.imageOf (s.realmOf t.cohort) with
    | none => s
    | some img =>
      let x := g.side img
      s.setGrant (birthOf p) w (g.setSide img
        { x with marks := (List.range n).foldl (fun m i => Tab.put m (offsetOf p + i) id) x.marks })

/-- The marks of n window bytes in the image of a thread's realm; none outside a window (R375). -/
def State.marksAt (s : State) (t : ThreadId) (p : DWord) (n : Nat) : Option (List Nat) :=
  if !isGlobal p || (s.obj? p).isSome then none else
  (s.window? p).bind fun w =>
    let g := s.grant (birthOf p) w
    (g.imageOf (s.realmOf t.cohort)).map fun img =>
      ((g.side img).marks.filter fun m => offsetOf p ≤ m.1 && m.1 < offsetOf p + n).map (·.2)

/-- A write by engine work of a thread at a reached place: dirty log first, then the bytes and their edges, then window marks
(R253, R375). One that adds to what it reads there, as an atomic does, continues the release sequences of the bytes (R248, R262). -/
def State.engineStore (s : State) (t : ThreadId) (p : DWord) (a : Nat) (bs : List Byte) (id : Nat) (edges : List Edge)
    (adds : Bool := false) : State :=
  let own := ((s.syncs.filter fun r => r.at' a bs.length && r.scope ≥ 9 && r.by' = t).map (·.toEdge))
  let s := s.dirtyRange p bs.length
  let s := if adds then ((s.expose [] [(a, bs.length)]).storeKeep a bs).addEdges a bs.length edges
           else (s.store a bs).addEdges a bs.length (edges ++ own)
  if (s.marksAt t p 0).isNone then s
  else (s.addEdges a bs.length [{ scope := 9, by' := t, know := [id] }]).markWindow t p bs.length id

/-! ## Affinity (R184) and the locator (R177) -/

/-- An extent's counters after one access from a chip (R184). DESIGN CHOICE (log 57): where both counts are zero a new chip
takes slot 0. -/
def Extent.count (e : Extent) (chip : Nat) : Extent :=
  if chip = e.holder then { e with loc := min 65535 (e.loc + 1) }
  else
    match e.remote with
    | [(c0, n0), (c1, n1)] =>
      if n0 ≠ 0 && c0 = chip then { e with remote := [(c0, min 65535 (n0 + 1)), (c1, n1)] }
      else if n1 ≠ 0 && c1 = chip then { e with remote := [(c0, n0), (c1, min 65535 (n1 + 1))] }
      else if n0 = 0 then { e with remote := [(chip, 1), (c1, n1)] }
      else if n1 = 0 then { e with remote := [(c0, n0), (chip, 1)] }
      else if n1 < n0 then { e with remote := [(c0, n0), (c1, n1 - 1)] }
      else { e with remote := [(c0, n0 - 1), (c1, n1)] }
    | _ => e

/-- An access of n bytes performed at the holder: one count for each 128 bytes that it touches, in the extent where they lie
(R184). -/
def State.affinity (s : State) (p : DWord) (n chip : Nat) : State :=
  match s.obj? p with
  | none => s
  | some o =>
    let k := (offsetOf p + n - 1) / 128 + 1 - offsetOf p / 128
    let es := (List.range k).foldl (fun (es : List Extent) j =>
      let i := (offsetOf p / 128 + j) * 128 / 2 ^ o.log2
      es.set i ((es.getD i {}).count chip)) o.extents
    s.setObj (keyOf p) { o with extents := es }

def granule (p : DWord) : Nat × Nat × Nat := (birthOf p, serialOf p, offsetOf p / 2 ^ 21)
def locatorSet (g : Nat × Nat × Nat) : Nat := Nat.xor (Nat.xor (g.1 % 1024) (g.2.1 % 1024)) g.2.2
/-- The guess of a die for a pointer (R177). -/
def Die.guess (d : Die) (p : DWord) : Option Nat := Tab.get? d.locator (granule p)
/-- The cache with a granule used or installed: four of a set, the least recently used replaced (R177). -/
def Die.install (d : Die) (p : DWord) (chip : Nat) : Die :=
  let g := granule p
  let rest := d.locator.filter fun e => e.1 ≠ g
  let same := (rest.filter fun e => locatorSet e.1 = locatorSet g).take 3
  { d with locator := (g, chip) :: rest.filter fun e => locatorSet e.1 ≠ locatorSet g || same.contains e }

/-! ## Paths (R304, R410) -/

/-- The die of a package whose scale-up ports carry what a die sends: its own, or the nearest by number that has a port up, the lower
of two (R410; log 41). -/
def State.portDie (s : State) (d : DieId) : Option Nat :=
  ([0, 1, 2, 3].flatMap fun n => if n = 0 then [d.die] else (if n ≤ d.die then [d.die - n] else []) ++ (if d.die + n < 4 then [d.die + n] else [])).find? fun k =>
    (s.die ⟨d.chip, k⟩).ports.any fun p => p.lanes ≠ 0
/-- Since when no path leads from a package to another: neither has power to lack, and in one scale-up domain each needs a port that
is up (R304, R410, R418). -/
def State.pathDown (s : State) (chip h : Nat) : Option Nat :=
  if h = chip then none
  else
    let ends := if s.domainOf h = s.domainOf chip then [chip, h].filterMap fun c => if (s.portDie ⟨c, 0⟩).isNone then some ((s.chip c).pathless.getD s.now) else none else []
    match ends ++ (s.chip h).off.toList with
    | [] => none
    | n :: l => some (l.foldl min n)
/-- The package that holds the byte at a pointer. -/
def State.holderAt (s : State) (p : DWord) : Option Nat := (s.obj? p).map fun o => (o.extents.getD (offsetOf p / 2 ^ o.log2) {}).holder
def State.pathBlocked (s : State) (chip : Nat) (p : DWord) : Bool := ((s.holderAt p).bind (s.pathDown chip)).isSome

/-- Flits that a port sends under its key, agreed anew before their number reaches 2^48 (R368). -/
def Port.send (p : Port) (n : Nat) : Port :=
  if p.flits + n ≥ 2 ^ 48 then { p with key := p.key + 1, flits := n } else { p with flits := p.flits + n }
/-- The scale-up port that carries the next bytes of a die to another package of its domain: of those that are up, the one that has
sent least (R304). DESIGN CHOICE (log 41): the manual says only that transactions are spread over them. -/
def State.portFor (s : State) (d : DieId) (h : Nat) : Option (DieId × Nat) :=
  if h = d.chip || s.domainOf h ≠ s.domainOf d.chip then none
  else (s.portDie d).bind fun k =>
    let ports := (s.die ⟨d.chip, k⟩).ports
    let up := (List.range 12).filter fun i => (ports.getD i {}).lanes ≠ 0
    match up with
    | [] => none
    | i :: l => some (⟨d.chip, k⟩, l.foldl (fun b j => if (ports.getD j {}).flits < (ports.getD b {}).flits then j else b) i)
/-- n bytes that a die sends to a package, in flits of 256 bytes (R288, R368). -/
def State.sendFlits (s : State) (d : DieId) (h n : Nat) : State :=
  match s.portFor d h with
  | none => s
  | some (k, i) => s.modDie k fun x => { x with ports := x.ports.modify i fun p => p.send ((n + 255) / 256) }

/-- A flit from a die to a package fails its check: it is dropped and counted (R368). -/
def State.dropFlit (s : State) (d : DieId) (h : Nat) : State :=
  match s.portFor d h with
  | some (w, i) => s.modDie w fun y => { y with ports := y.ports.modify i fun p => { p with dropped := p.dropped + 1 } }
  | none => s
/-- A message of `out` bytes from a die to a package, and its answer of `back` bytes: nothing crosses a link within one (R12, R368). -/
def State.crossLink (s : State) (d far : DieId) (out back : Nat) : State :=
  if far.chip = d.chip then s else (s.sendFlits d far.chip out).sendFlits far d.chip back
/-- What an access of n bytes by work of a die sends over the scale-up links: its data one way and one flit the other (R12, R368;
log 41). -/
def State.linkFlits (s : State) (d : DieId) (p : DWord) (n : Nat) (wr : Bool) : State :=
  match s.obj? p with
  | none => s
  | some o =>
    let far : DieId := ⟨(o.extents.getD (offsetOf p / 2 ^ o.log2) {}).holder, (o.pages.getD (offsetOf p / 65536) {}).die⟩
    s.crossLink d far (if wr then n else 1) (if wr then 1 else n)

/-! ## Reads by the device itself (R347, R382) -/

/-- Bytes of an object that the device reads for a function of a package: a relaxed load at the holder, or a cause; no
window is reached so (R375). -/
def State.objectRead (s : State) (chip vf : Nat) (p : DWord) (n : Nat) : Except Nat (List Byte) :=
  if !namesObject p then .error 2
  else
    match s.reachGlobal chip vf p n false with
    | .fail cause => .error cause
    | .place a => if (s.obj? p).isNone then .error 3 else if s.readFails a n then .error 4 else .ok (s.loadBytes a n)
    | .transit => if s.readFails (globalAt p) n then .error 4 else .ok (s.loadBytes (globalAt p) n)

def State.deviceRead (s : State) (c : CohortId) (p : DWord) (n : Nat) : Except Nat (List Byte) :=
  s.objectRead (s.ctxOf c).1 (s.ctxOf c).2 p n

/-- Whether such a read waits: its extent is in transit, or serves what a commit forwarded first (R183, R189). DESIGN CHOICE
(log 57): it is made once the extent serves again, and takes no place in the source's queue. -/
def State.readWaits (s : State) (chip vf : Nat) (p : DWord) (n : Nat) : Bool := namesObject p && s.reachGlobal chip vf p n false = .transit

/-- What such a read does at the holder: it is counted, and uses the L2 (R184); a failure that it finds is marked and logged (R367,
R412). -/
def State.objectUse (s : State) (chip vf : Nat) (p : DWord) (n : Nat) : State :=
  match s.objectRead chip vf p n with
  | .ok _ => (s.affinity p n chip).l2Use (globalAt p) n false
  | .error c => if c = 4 then (s.affinity p n chip).found (globalAt p) n else s
/-- The same for a read that a core makes for a cohort, which may cross a link (R12, R368). -/
def State.coreUse (s : State) (c : CohortId) (p : DWord) (n : Nat) : State :=
  (s.linkFlits c.toDie p n false).objectUse (s.ctxOf c).1 (s.ctxOf c).2 p n

/-- A clause's header and words (R41, R347), or the cause of the fetch fault. -/
def State.fetchClause (s : State) (c : CohortId) (pc : DWord) : Except Nat (DWord × List DWord) :=
  match s.deviceRead c pc 8 with
  | .error e => .error e
  | .ok h =>
    let n := bitsOf (ofBytesLE h) 59 56 + 1
    match s.deviceRead c (ptrAdd pc 8) (8 * n) with
    | .error e => .error e
    | .ok ws => .ok (BitVec.ofNat 64 (ofBytesLE h),
        (List.range n).map fun i => BitVec.ofNat 64 (ofBytesLE ((ws.drop (8 * i)).take 8)))

/-- Whether the fetch of a clause waits. -/
def State.fetchWaits (s : State) (c : CohortId) (pc : DWord) : Bool :=
  s.readWaits (s.ctxOf c).1 (s.ctxOf c).2 pc 8 || match s.deviceRead c pc 8 with
    | .error _ => false
    | .ok h => s.readWaits (s.ctxOf c).1 (s.ctxOf c).2 (ptrAdd pc 8) (8 * (bitsOf (ofBytesLE h) 59 56 + 1))
/-- What the fetch of a clause does at the holder of its bytes. -/
def State.fetchUse (s : State) (c : CohortId) (pc : DWord) : State :=
  match s.deviceRead c pc 8 with
  | .error _ => s.coreUse c pc 8
  | .ok h => (s.coreUse c pc 8).coreUse c (ptrAdd pc 8) (8 * (bitsOf (ofBytesLE h) 59 56 + 1))
/-- What a fetch does that ends with a cause. -/
def State.fetchFailed (s : State) (c : CohortId) (pc : DWord) (cause : Nat) : State := if cause = 4 then s.fetchUse c pc else s

/-- The place of entry k of a function's vector table, if it has one (R382). -/
def State.vectorAt (s : State) (c : CohortId) (k : Nat) : Option DWord :=
  let base := (s.vf (s.ctxOf c).1 (s.ctxOf c).2).tvbase
  if base = 0 ∨ base.toNat % 128 ≠ 0 then none else some (ptrAdd base (8 * k))
/-- Whether the load of entry k waits. -/
def State.vectorWaits (s : State) (c : CohortId) (k : Nat) : Bool := (s.vectorAt c k).any fun p => s.readWaits (s.ctxOf c).1 (s.ctxOf c).2 p 8
/-- What the load of entry k does at the holder. -/
def State.vectorUse (s : State) (c : CohortId) (k : Nat) : State :=
  match s.vectorAt c k with
  | none => s
  | some p => s.coreUse c p 8
/-- Entry k of a function's vector table, where it names a handler (R382). -/
def State.vector (s : State) (c : CohortId) (k : Nat) : Option DWord :=
  (s.vectorAt c k).bind fun p =>
    match s.deviceRead c p 8 with
    | .error _ => none
    | .ok b =>
      let e := BitVec.ofNat 64 (ofBytesLE b)
      if e = 0 ∨ !isGlobal e ∨ offsetOf e % 8 ≠ 0 then none else some e

/-! ## Ending operations early (R161, R269, R292, R391) -/

/-- The core of a share of a thread's multicast (R227). -/
def shareCore (t : ThreadId) (x : Share) : CoreId := ⟨t.cohort.chip, t.cohort.die, x.core⟩

/-- Writes bits into the STATUS and MISSED of a copy record (R224), where it is still reachable; a read of its STATUS joins every
event of the copy (R253). -/
def State.writeRecord (s : State) (t : ThreadId) (p : DWord) (status : Nat) (missed : Nat) (edges : List Edge) : State :=
  match s.reach t p 64 true with
  | .place a => ((s.store (a + 0x2C) (bytesLE 4 status)).store (a + 0x30) (bytesLE 8 missed)).addEdges (a + 0x2C) 4 edges
  | _ => s

/-- The cores whose share of a copy was dropped (R227). -/
def missedOf (l : List Share) : BitVec 48 := l.foldl (fun m x => if x.dropped then m ||| (1#48 <<< x.core) else m) 0

/-- The end of a copy (R228 to R231): the claims it still holds end, its STATUS and MISSED are written, its contribution
carries every byte not delivered and its member, and its operation, or its place in its list, is done. -/
def State.finishCopy (s : State) (id : Nat) (o : Op) (c : CopyOp) (err : Option Nat) (discarded : Bool) : State :=
  let t := o.thread
  let s := c.shares.foldl (fun s x => s.unclaim (shareCore t x) x.claims) s
  let missed := missedOf c.shares
  let part := c.shares.any (·.dropped)
  let status := 1 + (if part then 2 else 0) + (match err with | some k => 4 + 256 * k | none => 0)
  let s := match c.record with
    | some p => s.writeRecord t p status missed.toNat o.allEdges
    | none => s
  let total := c.len * c.rows * max 1 c.shares.length
  let s := match c.nb with
    | some nb => s.contribute id o nb
        { bytes := total - c.sent, member := true
          flags := { err := err.isSome || discarded, partly := part, missed := missed } }
    | none => s
  s.closeOp id

/-- The contributions that a transfer sends when it ends (R289, R290, R292, R293): to its own register, and to the
handle's, as one signal or one for each delivered share. -/
def State.xferSignals (s : State) (id : Nat) (o : Op) (x : XferOp) (err : Bool) : State :=
  let part := x.shares.any fun y => x.mc && y.dropped
  let missed := if x.mc then missedOf x.shares else 0
  match x.nb with
  | some nb => s.contribute id o nb { bytes := x.nbBytes, member := true, flags := { err := err, partly := part, missed := missed } }
  | none => s

/-- The remote signals of a transfer (R284, R289, R293), each a message that answers to the operation. -/
def State.xferRemote (s : State) (id : Nat) (o : Op) (x : XferOp) (err : Bool) : Nat × State :=
  match x.handle with
  | none => (0, s)
  | some h =>
    let owner := (o.thread.cohort.chip, s.realmOf o.thread.cohort)
    if x.mc then
      x.shares.foldl (fun (n, s) y =>
        if y.dropped then (n, s)
        else
          let c : CohortId := { o.thread.cohort with core := y.core }
          let hh : DWord := BitVec.ofNat 64 (2 ^ 52 * c.chip + 2 ^ 50 * c.die + 2 ^ 44 * c.core + 2 ^ 28 * c.grid + h.toNat % 16)
          (n + 1, (s.send { body := .signal hh owner x.dst { bytes := x.len, member := true, flags := { err := err }, know := o.allEdges } id }).2))
        (0, s)
    else (1, (s.send { body := .signal h owner x.dst { bytes := x.len, member := true, flags := { err := err }, know := o.allEdges } id }).2)

/-- A firing that ends without its part in the sum spoils the round (R303). -/
def RedSlot.spoil (r : RedSlot) (id : Nat) : RedSlot := { r with bad := true, ready := r.ready.filter (· ≠ id) }
/-- A reset takes participants away: the round under way ends with ERR, without those of them that have not fired in it (R303). -/
def RedSlot.lose (r : RedSlot) (mine : DieId × Nat → Bool) : RedSlot :=
  if r.came = [] || !r.members.any mine then r
  else { r with bad := true, lost := r.lost + (r.members.filter fun m => mine m && !r.came.contains m).length }

/-- The transactions of a transfer whose writes have begun, with those of a switch's add: they are completed whatever happens to its
issuer (R288). -/
def XferOp.begunParts (x : XferOp) : List XferPart := x.parts.filter fun k => k.pos ≠ 0 || x.sum
/-- Moves are dropped: their extents are at REST, and frames reserved for them are free (R187, R192). -/
def State.dropMoves (s : State) (f : Move → Bool) : State :=
  (s.moves.filter fun m => f m.2).foldl (fun s m =>
    let s := { s with moves := Tab.del s.moves m.1 }.freeFrames ⟨m.2.dest, m.2.die⟩ m.2.frames
    match s.objects.get? m.2.obj with
    | none => s
    | some b => s.setObj m.2.obj { b with extents := b.extents.set m.2.ext { b.extents.getD m.2.ext {} with state := .rest, dest := 0 } }) s

/-- Ends an operation of a cohort that ends (R391 step 2, R161, R301): dropped whole where it has not been performed,
with an ERR contribution to each register it would have signalled. -/
def State.abortOp (s : State) (id : Nat) : State :=
  match s.op? id with
  | none => s
  | some o =>
    if o.closing then s.endOp id else
    match o.body with
    | .copy c => s.finishCopy id o { c with list := none } (some 0) true
    | .cfill l | .cevict l => (s.unclaim o.thread.cohort.toCore (match o.body with | .cfill _ => l.left | _ => [])).endOp id
    | .matrix m =>
      let s := match m.nb with
        | some nb => s.contribute id o nb { member := true, flags := { err := true } }
        | none => s
      let s := s.modQuad m.quad fun q => { q with queues := q.queues.map fun l => l.filter (· ≠ id) }
      s.endOp id
    | .xfer x =>
      let l := x.begunParts
      if l ≠ [] then
        -- what has begun is performed first; the rest is dropped (R288)
        (if x.todo = [] && l.length = x.parts.length then s else s.setOp id { o with body := .xfer { x with todo := [], parts := l, cut := true } })
      else
      let s := x.shares.foldl (fun s y => s.unclaim (shareCore o.thread y) y.claims) s
      let cut := x.cut || !(x.begun && x.todo = [] && x.parts = [])
      let s := if x.signalled then s else (s.xferRemote id o x cut).2
      let s := s.xferSignals id o x cut
      let s := s.modDie o.thread.cohort.toDie fun d => { d with queues := d.queues.map fun q => (q.1, q.2.filter (· ≠ id)) }
      let s := match x.red with
        | some k => { s with redSlots := s.redSlots.map fun j (r : RedSlot) => if j = k then r.spoil id else r }
        | none => s
      s.endOp id
    | .launchq _ _ _ => (s.modChip o.thread.cohort.chip fun h => { h with entries := Tab.del h.entries id }).endOp id
    | .post _ _ _ _ _ _ =>
      (s.modDie o.thread.cohort.toDie fun d => { d with waiting := d.waiting.filter (· ≠ id) }).endOp id
    | .obj b =>
      -- a move that has not begun is dropped, those of a group only together; the others run on (R187, R194)
      let s := s.dropMoves fun m => m.op = some id && !m.going
      -- an OFREE that has freed nothing yet is dropped whole
      let s := if b.code = .free && b.stage = 1 then match s.obj? b.ptr with
          | some x => s.setObj (keyOf b.ptr) { x with state := .allocated }
          | none => s
        else s
      ({ s with moves := s.moves.map fun _ m => if m.op = some id then { m with op := none } else m }).endOp id
    | .message m _ => ({ s with msgs := s.msgs.del m }).endOp id
    | _ =>
      (s.unqueue [id]).endOp id

/-- Unpins a cohort's lines (R251). -/
def State.unpin (s : State) (c : CohortId) : State := { s with pins := s.pins.keep fun _ p => p.cohort ≠ c }

/-- A release of a thread at the widest declared level (R343, R391): its clock passes to its grid. -/
def State.releaseAll (s : State) (t : ThreadId) : State :=
  let c := s.clock t s.nextId (s.thread t).know
  (s.widen t (widest (s.launchOf t.cohort).ladder) c).modGrid t.cohort.chip t.cohort.grid fun g => { g with know := join g.know c }

/-- Takes a thread out of its bundle, if it is in one; a crew clause remembers that it left, and a bundle without threads is
gone (R33, R60). -/
def State.leave (s : State) (t : ThreadId) : State :=
  s.modQuad (s.thread t).quad fun q =>
    let out := fun (b : Nat × Bundle) =>
      if b.2.threads.contains t then (b.1, { b.2 with threads := b.2.threads.filter (· ≠ t), rest := b.2.rest.filter (· ≠ t), left := t :: b.2.left }) else b
    { q with bundles := (List.map out q.bundles).filter fun b => b.2.threads ≠ [] }

def State.threadsOf (s : State) (c : CohortId) : List ThreadId := (List.map (·.1) s.threads).filter fun t => t.cohort = c

/-- The first three steps of a termination (R391): the cohort's threads stop, its operations complete or are dropped, and it
releases and unpins; its grid counts it. -/
def State.cutCohort (s : State) (c : CohortId) (reason : Nat) : State :=
  let ts := s.threadsOf c
  let s := ts.foldl (fun s t => (s.leave t).modThread t fun x => { x with run := .ended, raised := none, deferred := [] }) s
  let s := (List.map (·.1) (s.ops.filter fun p => p.2.thread.cohort = c)).foldl State.abortOp s
  let s := (ts.foldl State.releaseAll s).unpin c
  let s := s.modGrid c.chip c.grid fun g => { g with killed' := g.killed' + 1 }
  s.modCohort c fun y => { y with killed := some reason }

/-- Terminates a cohort (R391), with the record of the fault that ended it and the thread it names. -/
def State.terminate (s : State) (c : CohortId) (t : Option ThreadId) (r : TrapRec) (reason : Nat) : State :=
  let x := s.cohort c
  if x.killed.isSome || x.ended then s
  else (s.cutCohort c reason).reportFault c.chip x.vf r reason c.grid x.index (match t with | some t => t.tid | none => 0xFFFFFFFF)

/-! ## Headers -/

/-- Whether every ARRIVE, ARRIVE.BYTES and NBSET of the thread to a register of its cohort has counted (R270). -/
def State.contributed (s : State) (t : ThreadId) (nb : Nat) : Bool :=
  !(s.msgs.any fun m => m.2.token = some t && match m.2.body with
    | .contribute _ n _ | .nbset _ n _ _ => n = nb
    | _ => false)

/-- Whether a wait of the thread on register nb is satisfied (R270). -/
def State.arrived (s : State) (t : ThreadId) (nb : Nat) : Bool :=
  s.contributed t nb && ((s.cohort t.cohort).nbs.getD nb {}).phase ≠ (s.thread t).tokens.getD nb 0

/-- The effect of a satisfied wait: the token becomes PHASE, and the phase's clock joins the thread's (R270). -/
def State.observe (s : State) (t : ThreadId) (nb : Nat) : State :=
  let r := (s.cohort t.cohort).nbs.getD nb {}
  s.modThread t fun x => { x with tokens := x.tokens.set nb r.phase, know := join x.know (s.brought t r.lastKnow) }

/-- Whether all of a header's waits hold (R43). -/
def State.waitsHold (s : State) (t : ThreadId) (h : Header) : Bool :=
  let x := s.thread t
  ((List.range 6).all fun n => h.dcwait.getD n 7 = 7 || decide (x.dc n ≤ h.dcwait.getD n 7))
  && (!h.gsw || ((s.cohort t.cohort).slots.getD h.gslot {}).value.isSome)
  && (!h.nbw || s.arrived t h.nbid)

/-- The pending deferred fault whose delivery point is this header: the first whose counter the header's threshold
cannot meet while its operation, and so every later one on the counter, is uncounted, or whose register the header waits on (R159, R235). -/
def Thread.deliverableAt (x : Thread) (h : Header) : Option Deferred :=
  if x.handler then none
  else x.deferred.find? fun d =>
    (h.dcwait.getD d.ctr 7 ≠ 7 && decide (h.dcwait.getD d.ctr 7 ≤ d.after)) || (h.nbw && d.nb = some h.nbid)

/-- Whether the header or its clause is illegal (R44). -/
def clauseBad (pc : DWord) (h : Header) (ws : List DWord) : Bool := offsetOf pc % 8 ≠ 0 || h.bad || (walkWords 0 ws).2

/-- A thread at a header takes the state that R331 gives it: READY or RENDEZVOUS where the header's waits hold and
nothing else is due there, else BLOCKED. -/
def State.stand (s : State) (t : ThreadId) : State :=
  let x := s.thread t
  if s.fetchWaits t.cohort x.pc then s.setThread t { x with run := .blocked } else
  match s.fetchClause t.cohort x.pc with
  | .error _ => s.setThread t { x with run := .blocked }
  | .ok (w, ws) =>
    let h := Header.ofWord w
    if clauseBad x.pc h ws || (h.gsw && h.gslot ≥ (s.cohort t.cohort).slots.length) || (x.deliverableAt h).isSome
        || x.raised.isSome || !s.waitsHold t h then
      s.setThread t { x with run := .blocked }
    else
      let s := if h.nbw then s.observe t h.nbid else s
      -- the wait on a counter is met only by counting an operation where it could not be met before that (R253)
      let waited := fun (j : Join) => h.dcwait.getD j.ctr 7 ≠ 7 && decide (h.dcwait.getD j.ctr 7 ≤ j.after)
      s.modThread t fun x =>
        { x with run := if h.crew then .rendezvous else .ready, readySince := s.now,
                 know := (x.joins.filter waited).foldl (fun k j => join (join k j.know) (s.brought t j.edges)) x.know,
                 joins := x.joins.filter fun j => !waited j }

/-! ## Traps (R381 to R389) -/

/-- A trap record (R386). -/
def trapRec (k : TrapKind) (cause word : Nat) (pc addr aux : DWord) (field mask : Nat) (more frame : Bool) : TrapRec where
  f0 := BitVec.ofNat 64 (2 ^ 56 * k.code + 2 ^ 48 * (cause % 256) + 2 ^ 44 * (word % 16) + 2 ^ 42 * (field % 4)
          + (if more then 2 ^ 41 else 0) + (if frame then 2 ^ 40 else 0) + mask % 2 ^ 32)
  f1 := pc
  f2 := addr
  f3 := aux

/-- Whether a load, returning atomic or clock sample of the thread is outstanding (R384 step 2). -/
def State.owes (s : State) (t : ThreadId) : Bool :=
  s.ops.any fun p => p.2.thread = t && p.2.ctr = some 0

/-- The last two steps of taking a trap: the state is saved and the handler entered, or, where no vector is valid, the
cohort is terminated (R382, R384). -/
def State.enterHandler (s : State) (t : ThreadId) (r : Raised) (fresh : Bool) : State :=
  match s.vector t.cohort r.kind.code with
  | none =>
    ((s.modThread t fun x => { x with faults := r.record, rowprog := r.rowprog.getD x.rowprog }).terminate t.cohort (some t) r.record (if fresh then 5 else 1)).vectorUse
      t.cohort r.kind.code
  | some pc =>
    ((s.modThread t fun x =>
      { x with run := .blocked, pc := pc, word := 0, inside := false, raised := none, faults := r.record, rowprog := r.rowprog.getD x.rowprog,
               handler := true, point := r.point, kept := x.latches, latches := List.replicate 8 none,
               keptYield := x.yielding, yielding := false, nextPc := none, exiting := false, readySince := s.now }).stand t).vectorUse t.cohort r.kind.code

/-- TAKING A TRAP (R384, R385, R388): the thread leaves its bundle; in a handler the trap is a double fault; in a
context that is stopping it stays pending; while a load is outstanding, or the vector's place is in transit, the entry waits. -/
def State.takeTrap (s : State) (t : ThreadId) (r : Raised) : State :=
  let s := s.leave t
  let x := s.thread t
  if x.handler then (s.setThread t { x with faults := r.record }).terminate t.cohort (some t) r.record 3
  else if s.stopping t.cohort then
    s.setThread t { x with raised := some r, run := .blocked, kept := x.latches, nextPc := none, exiting := false }
  else if s.owes t || s.vectorWaits t.cohort r.kind.code then
    s.setThread t { x with raised := some r, run := .parked .landing, kept := x.latches, nextPc := none, exiting := false }
  else s.enterHandler t r false

/-- Where TRET resumes (R406): the header, and the word where that lies inside the clause; or none for a double fault. -/
def resumeAt (p : TrapPoint) (skip : Bool) : Option (DWord × Option Nat) :=
  let after (w : Nat) : DWord × Option Nat := if w > p.count then (ptrAdd p.pc (8 * (p.count + 2)), none) else (p.pc, some w)
  if p.exit then some (p.pc, some p.word)
  else if !skip then
    match p.kind with
    | .word => some (p.pc, some p.word)
    | .header | .unfetched => some (p.pc, none)
    | .after => some (after p.next)
  else
    match p.kind with
    | .word => some (after p.next)
    | .header => some (ptrAdd p.pc (8 * (p.count + 2)), none)
    | _ => none

/-- A thread takes the newest seq of its quadrant (R332, R344). -/
def State.renew (s : State) (t : ThreadId) : State :=
  let q := (s.thread t).quad
  let n := (s.quad q).seq + 1
  (s.modQuad q fun y => { y with seq := n }).modThread t fun x => { x with seq := n }

/-- LEAVING A HANDLER (R406): the latches of the trapped clause are valid again, the class and W start anew, and the
thread continues at the resume point, alone where that lies inside a clause. A YIELD of the trapped clause still takes effect at that
clause's end, which is here where no word of it is left; a clause that starts over has not executed it (R344). -/
def State.leaveHandler (s : State) (t : ThreadId) (pc : DWord) (word : Option Nat) : State :=
  let x := s.thread t
  let s := if word.isNone && x.keptYield && pc ≠ x.point.pc then s.renew t else s
  s.modThread t fun x =>
    { x with handler := false, halted := false, latches := if word.isNone then List.replicate 8 none else x.kept,
             yielding := word.isSome && x.keptYield, keptYield := false,
             pc := pc, word := word.getD 0, inside := word.isSome, run := if word.isNone then .blocked else .ready, readySince := s.now,
             nextPc := none, exiting := false }

/-- Adds a pending deferred fault, in issue order and those of one list in record order (R231, R235); a seventeenth ends the cohort with reason 4 (R389). -/
def State.addDeferred (s : State) (t : ThreadId) (d : Deferred) : State :=
  let x := s.thread t
  if x.run = .ended then
    if (s.cohort t.cohort).killed.isSome then s else s.reportFault t.cohort.chip (s.cohort t.cohort).vf d.record 7 t.cohort.grid (s.cohort t.cohort).index t.tid
  else if x.deferred.length ≥ 16 then
    let s := s.terminate t.cohort (some t) d.record 4
    x.deferred.foldl (fun s e =>
      s.reportFault t.cohort.chip (s.cohort t.cohort).vf e.record 4 t.cohort.grid (s.cohort t.cohort).index t.tid) s
  else
    let d := { d with after := x.issuedAfter d.ctr d.op }
    let first := fun (e : Deferred) => e.op < d.op || (e.op = d.op && e.sub ≤ d.sub)
    s.setThread t { x with deferred := x.deferred.filter first ++ [d] ++ x.deferred.filter fun e => !first e }

/-- The record of a deferred fault: it names the issuing word (R235, R386). -/
def deferredRec (k : TrapKind) (o : Op) (cause : Nat) (addr aux : DWord) : TrapRec :=
  trapRec k cause o.word o.pc addr aux 0 0 false false

/-- A deferred memory fault of an operation (R232, R235). -/
def State.deferMemory (s : State) (id : Nat) (o : Op) (cause : Nat) (addr : DWord) : State :=
  s.addDeferred o.thread { op := id, ctr := o.ctr.getD 0, kind := .deferredMemory, dst := o.dst,
                           acq := match o.body with | .access a => a.acq | _ => false
                           record := deferredRec .deferredMemory o cause addr 0 }

/-- A deferred engine fault of a thread (R159, R292), on a counter or on none (R301). -/
def State.deferEngine (s : State) (t : ThreadId) (id : Nat) (o : Op) (ctr cause : Nat) (addr aux : DWord) (nb : Option Nat)
    (prog : Option DWord) : State :=
  s.addDeferred t { op := id, ctr := ctr, kind := .deferredEngine, nb := nb, rowprog := prog,
                    record := deferredRec .deferredEngine o cause addr aux }

end Sys2Proof.Machine
end

