-- ==== Sys2Proof/Machine/Operands.lean ====
section
/-! DEFINITION. Operand forms (R50 to R56, R60): what each source field reads, what each destination field writes, and
which registers a word names (R40). -/

namespace Sys2Proof.Machine

/-- A latch's value, where the thread has written it in this clause (R38). -/
def Thread.latch (x : Thread) (n : Nat) : Option DWord := x.latches.getD n none

/-- A source field as a 32-bit integer (R38, R53, R54). -/
def Thread.src32 (x : Thread) (v : BitVec 9) : Option Word :=
  match srcOf v with
  | .reg n => some (x.reg n)
  | .latch n => (x.latch n).map fun d => d.extractLsb' 0 32
  | .const n => some (BitVec.ofNat 32 n)
  | .reserved => none

/-- A source field as a 64-bit integer (R36, R53, R54). -/
def Thread.src64 (x : Thread) (v : BitVec 9) : Option DWord :=
  match srcOf v with
  | .reg n => some (x.pair n)
  | .latch n => x.latch n
  | .const n => some (BitVec.ofNat 64 n)
  | .reserved => none

/-- The FP32 encoding of an integer from 0 to 15 (R54). -/
def smallF32 (n : Nat) : Word :=
  match n with
  | 0 => 0
  | n => let e := Nat.log2 n
         BitVec.ofNat 32 (2 ^ 23 * (127 + e) + (n - 2 ^ e) * 2 ^ (23 - e))

/-- A source field as FP32: an inline constant is that integer's value (R54). -/
def Thread.srcF (x : Thread) (v : BitVec 9) : Option Word :=
  match srcOf v with
  | .const n => some (smallF32 n)
  | _ => x.src32 v

/-- Source B as a 32-bit integer in any form (R50 to R53). -/
def Thread.b32 (x : Thread) (f : Fields) : Option Word :=
  if f.form = 1 then some (BitVec.ofInt 32 f.imm)
  else if f.form = 3 then some (f.lit.extractLsb' 0 32)
  else x.src32 f.sb

/-- Source B as a 64-bit integer in any form. -/
def Thread.b64 (x : Thread) (f : Fields) : Option DWord :=
  if f.form = 1 then some (BitVec.ofInt 64 f.imm)
  else if f.form = 3 then some f.lit
  else x.src64 f.sb

/-- Source B as FP32 in any form (R51). -/
def Thread.bF (x : Thread) (f : Fields) : Option Word :=
  if f.form = 1 then some (BitVec.ofNat 32 (f.imm30 * 4))
  else if f.form = 3 then some (f.lit.extractLsb' 0 32)
  else x.srcF f.sb

/-- Source C as a 32-bit integer; forms without it read zero (R50). -/
def Thread.c32 (x : Thread) (f : Fields) : Option Word := if f.form = 1 then some 0 else x.src32 f.sc
def Thread.c64 (x : Thread) (f : Fields) : Option DWord := if f.form = 1 then some 0 else x.src64 f.sc
def Thread.cF (x : Thread) (f : Fields) : Option Word := if f.form = 1 then some 0 else x.srcF f.sc

/-- The lane that a modifier reads (R60). -/
def srcLane (mod lane : Nat) : Nat :=
  let size := 2 * 2 ^ bitsOf mod 9 7
  let dist := bitsOf mod 6 2
  let base := lane - lane % size
  match mod / 1024 with
  | 1 => base + (lane % size + dist) % size
  | 2 => Nat.xor lane dist
  | 3 => base + dist
  | _ => lane

/-- The member of t's crew on a lane. -/
def crewMember (t : ThreadId) (lane : Nat) : ThreadId := { t with tid := t.tid / 32 * 32 + lane }

end Sys2Proof.Machine
namespace Sys2Proof
/-- Whether a word's MOD is a modifier of its source A (R58). -/
def Fields.modified (f : Fields) : Bool := (f.form = 0 || f.form = 3) && f.mod ≠ 0
end Sys2Proof
namespace Sys2Proof.Machine

/-- The thread whose register a word's source A names: the thread itself, or the member that the modifier names, which
supplies nothing when it is excluded or has left the bundle (R60). -/
def sourceThread (b : Bundle) (t : ThreadId) (f : Fields) : Option ThreadId :=
  if f.modified then
    let m := crewMember t (srcLane f.mod.toNat (t.tid % 32))
    if b.threads.contains m then some m else none
  else some t

/-- Source A (R53, R60), read in the state at the word. -/
def State.a32 (s : State) (b : Bundle) (t : ThreadId) (f : Fields) : Option Word :=
  match sourceThread b t f with
  | some m => (s.thread m).src32 f.sa
  | none => some 0
def State.a64 (s : State) (b : Bundle) (t : ThreadId) (f : Fields) : Option DWord :=
  match sourceThread b t f with
  | some m => (s.thread m).src64 f.sa
  | none => some 0
def State.aF (s : State) (b : Bundle) (t : ThreadId) (f : Fields) : Option Word :=
  match sourceThread b t f with
  | some m => (s.thread m).srcF f.sa
  | none => some 0

/-- A 32-bit result (R55, R38): to a register, or to a latch alone, whose high half becomes zero. -/
def Thread.put32 (x : Thread) (f : Fields) (v : Word) : Thread :=
  if f.nwb then { x with latches := x.latches.set (f.dst.toNat % 8) (some (v.setWidth 64)) } else x.setReg f.dst.toNat v
/-- A 64-bit result (R36, R55). -/
def Thread.put64 (x : Thread) (f : Fields) (v : DWord) : Thread :=
  if f.nwb then { x with latches := x.latches.set (f.dst.toNat % 8) (some v) } else x.setPair f.dst.toNat v
/-- The old value of a 32-bit destination (R98). -/
def Thread.old32 (x : Thread) (f : Fields) : Option Word :=
  if f.nwb then (x.latch (f.dst.toNat % 8)).map fun d => d.extractLsb' 0 32 else some (x.reg f.dst.toNat)

/-- Whether a thread executes a word (R49). -/
def Thread.executes (x : Thread) (f : Fields) : Bool := !f.ge || (x.pred f.gp.toNat != f.gs)

/-! ## The registers a word names (R40) -/

def srcRegs (r : SrcRole) (v : BitVec 9) : List Nat :=
  match srcOf v with
  | .reg n =>
    match r with
    | .s32 | .a32 | .regOnly false | .greg false => [n]
    | .s64 | .a64 | .regOnly true | .greg true => [n, n + 1]
    | .group k _ => (List.range k).map (n + ·)
    | .params lo hi => (if lo = 0 then [n, n + 1] else []) ++ [n + 2] ++ (if hi = 5 then [n + 4, n + 5] else [])
    | _ => []
  | _ => []

def dstRegs (r : DstRole) (d : Nat) : List Nat :=
  if d = 255 then [] else
  match r with
  | .r32 => [d]
  | .r64 => [d, d + 1]
  | .r128 | .r4 => [d, d + 1, d + 2, d + 3]
  | _ => []

end Sys2Proof.Machine
namespace Sys2Proof
open Sys2Proof.Machine

/-- The registers that a word reads or writes, gz apart. -/
def Instr.named (i : Instr) : List Nat :=
  match i.fields? with
  | none => []
  | some f =>
    let r := i.roles
    ((if f.nwb then [] else dstRegs r.dst f.dst.toNat) ++ srcRegs r.a f.sa
      ++ (if f.form = 0 ∨ f.form = 2 then srcRegs r.b f.sb else [])
      ++ (if f.form = 0 ∨ f.form = 3 then srcRegs r.c f.sc else [])).filter (· ≠ 255)

/-- The counter an instruction counts on (R39, R259, R271, R345, R347). -/
def Instr.counter (i : Instr) : Option Nat :=
  match i.opc, i.fields? with
  | some o, some f =>
    if o = 0x80 ∨ o = 0x82 ∨ o = 0x84 ∨ o = 0x86 then some 0
    else if o = 0x81 ∨ o = 0x83 ∨ o = 0x85 ∨ o = 0x87 then some 1
    else if o = 0x89 ∨ o = 0x8A then some 2
    else if o = 0x8C ∨ o = 0x8D then some 3
    else if 0xA0 ≤ o ∧ o ≤ 0xAF then some 5
    else if 0xB0 ≤ o ∧ o ≤ 0xBA then some (if f.dst = 255 then 1 else 0)
    else if o = 0xBB ∨ o = 0xC0 ∨ o = 0xC1 ∨ o = 0xC9 ∨ o = 0xF4 then some 1
    else if 0xD0 ≤ o ∧ o ≤ 0xDF then some 4
    else if o = 0xF2 ∧ f.ctl = 0x0E then some 0
    else none
  | _, _ => none

/-- Whether a word makes a memory, window, clock or engine event (R239). -/
def Instr.isEvent (i : Instr) : Bool :=
  match i.opc, i.fields? with
  | some o, some f => (0x80 ≤ o && o ≤ 0xDF && !(0xC4 ≤ o && o ≤ 0xC8)) || (0xF4 ≤ o && o ≤ 0xF7) || (o = 0xF2 && f.ctl = 0x0E)
  | _, _ => false

/-- Whether a word starts an engine operation (R242). -/
def Instr.isEngine (i : Instr) : Bool :=
  match i.opc with
  | some o => o = 0x89 || o = 0x8A || o = 0x8C || o = 0x8D || (0xD0 ≤ o && o ≤ 0xDA)
  | none => false

end Sys2Proof

/-! ## What a word's registers depend on (R245) -/

namespace Sys2Proof

/-- What a source field reads, as Thread.dep numbers it. -/
def srcKeys (r : SrcRole) (v : BitVec 9) : List Nat :=
  match r with
  | .pred => [256 + v.toNat % 16]
  | .zero | .ctl _ => []
  | _ => match srcOf v with
    | .latch n => [272 + n]
    | _ => (Machine.srcRegs r v).filter (· ≠ 255)

/-- What a word writes, likewise: a store writes no register. -/
def Instr.writes (i : Instr) : List Nat :=
  match i.opc, i.fields? with
  | some o, some f =>
    if o = 0x81 ∨ o = 0x83 ∨ o = 0x85 ∨ o = 0x87 then []
    else match i.roles.dst with
      | .pred => [256 + f.dst.toNat % 16]
      | r => if f.nwb then [272 + f.dst.toNat % 8] else Machine.dstRegs r f.dst.toNat
  | _, _ => []

/-- What a word's event or result depends on: its sources, a store's data, the old value of a destination that it accumulates
into (R98), its guard and its control path. A value that comes from another thread brings nothing (R257). -/
def Instr.reads (i : Instr) : List Nat :=
  match i.opc, i.fields? with
  | some o, some f =>
    let r := i.roles
    (if f.modified then [] else srcKeys r.a f.sa)
      ++ (if f.form = 0 ∨ f.form = 2 then srcKeys r.b f.sb else [])
      ++ (if f.form = 0 ∨ f.form = 3 then srcKeys r.c f.sc else [])
      ++ (if o = 0x81 ∨ o = 0x83 ∨ o = 0x85 ∨ o = 0x87 then Machine.dstRegs r.dst f.dst.toNat else [])
      ++ (if o = 0x13 ∨ o = 0x1C ∨ o = 0x52 then i.writes else [])
      ++ (if f.ge then [256 + f.gp.toNat] else []) ++ (if o = 0xE3 then [281] else []) ++ [280]
  | _, _ => []

/-- The dependencies of a thread past a word: each destination takes those of the sources, and a transfer of control gives its
own to the control path. -/
def Instr.flow (i : Instr) (x : Machine.Thread) : Machine.Thread :=
  if x.taint = [] then x
  else
    let k := x.dep i.reads
    let put := fun (m : List (Nat × List Nat)) (n : Nat) (l : List Nat) => if l = [] then Tab.del m n else Tab.put m n l
    let t := i.writes.foldl (fun m n => put m n k) x.taint
    let t := if (i.opc.any fun o => 0xE0 ≤ o && o ≤ 0xE3) then put t 280 (Machine.join (Tab.getD t 280 []) k) else t
    { x with taint := if i.opc = some 0xE2 then put t 281 (Machine.join (Tab.getD t 281 []) k) else t }

end Sys2Proof
end

