-- ==== Sys2Proof/Machine/Issue.lean ====
section
/-! DEFINITION. Clause headers, the bundle former and the issue of words: waits (R43), delivery points (R235), the states
of R331, bundle formation (R30, R57, R332), holds (R33, R39, R40, R234, R239) and the issue of one word for a bundle. -/

namespace Sys2Proof.Machine

/-! ## Crews -/

/-- The members of a thread's crew that are not excluded: those that exist and have not executed EXIT (R57). DESIGN CHOICE
(log 56): a thread whose EXIT takes a deferred fault (R343) is a member again from its handler's entry until its EXIT issues
again. -/
def State.crewOf (s : State) (t : ThreadId) : List ThreadId :=
  ((List.range 32).map (crewMember t)).filter fun m =>
    match s.threads.get? m with
    | some x => x.run ≠ .draining && x.run ≠ .ended
    | none => false

/-- Whether a thread stands at the crew clause at pc with its waits satisfied. -/
def Thread.standsAt (x : Thread) (pc : DWord) : Bool := (x.run = .rendezvous || x.run = .ready) && x.pc = pc && !x.inside

/-- Every member not excluded stands at the thread's crew clause (R57). -/
def State.crewMet (s : State) (t : ThreadId) : Bool := (s.crewOf t).all fun m => (s.thread m).standsAt (s.thread t).pc

/-! ## What a bundle former sees each issue cycle (R331, R387) -/

/-- A trap at a header (R44, R347, R384). -/
def State.headerTrap (s : State) (t : ThreadId) (k : TrapKind) (cause count : Nat) (addr : DWord) (kind : PointKind) : State :=
  let pc := (s.thread t).pc
  s.takeTrap t { kind := k, record := trapRec k cause 0 pc addr 0 0 0 false false,
                 point := { pc := pc, word := 0, next := 1, count := count, kind := kind } }

/-- Whether a context lets a thread begin a clause, whose fetch must not wait: not while it is stopping, but in a handler (R64, R388,
R394). -/
def State.mayBegin (s : State) (t : ThreadId) : Bool :=
  let x := s.thread t
  s.awake t.cohort && (s.cohort t.cohort).killed.isNone
    && (!s.stopping t.cohort || x.inside || (x.handler && !x.halted)) && !s.fetchWaits t.cohort x.pc

/-- A fetch fault of the clause that a thread stands at, which no word transferred to: in a grid's first clause it ends the cohort
(R347, R391). -/
def State.fetchFault (s : State) (t : ThreadId) (cause : Nat) : State :=
  let x := s.thread t
  (if x.fresh && !x.handler then s.terminate t.cohort (some t) (trapRec .memoryFault cause 0 x.pc x.pc 0 0 0 false false) 5
   else s.headerTrap t .memoryFault cause 0 x.pc .unfetched).fetchFailed t.cohort x.pc cause

/-- One thread as its wait conditions stand now (R213, R270, R331, R384, R387, R388). -/
def State.refresh (s : State) (t : ThreadId) : State :=
  let x := s.thread t
  if !s.awake t.cohort then s else
  match x.run with
  | .blocked =>
    match x.raised with
    | some r => if s.stopping t.cohort || s.owes t || s.vectorWaits t.cohort r.kind.code then s else s.enterHandler t r false
    | none =>
      if !s.mayBegin t then s else
      if offsetOf x.pc % 8 ≠ 0 then s.headerTrap t .illegalClause 0 0 0 .unfetched else
      match s.fetchClause t.cohort x.pc with
      | .error e => s.fetchFault t e
      | .ok (w, ws) =>
        let h := Header.ofWord w
        if clauseBad x.pc h ws then s.headerTrap t .illegalClause 0 h.count 0 .header
        else if h.gsw && h.gslot ≥ (s.cohort t.cohort).slots.length then s.headerTrap t .illegalOperand 0 h.count 0 .header
        else s.stand t
  | .parked (.presence l _) =>
    if s.present t.cohort.toCore l then s.setThread t { x with run := .ready, readySince := s.now } else s
  | .parked (.arrival nb) =>
    if s.arrived t nb && (x.handler || x.deferred.all fun d => d.kind = .deferredEngine && d.nb ≠ some nb) then
      s.setThread t { x with run := .ready, readySince := s.now }
    else s
  | .parked .landing =>
    match x.raised with
    | some r =>
      if s.owes t then s
      else if s.stopping t.cohort then s.setThread t { x with run := .blocked }
      else if s.vectorWaits t.cohort r.kind.code then s
      else s.enterHandler t r false
    | none => s
  | _ => s

/-- The watchdog timers of a cohort's crews: one runs for each crew clause at which some member stands, from the moment
the first stood there (R280). -/
def State.runTimers (s : State) (c : CohortId) : State :=
  let x := s.cohort c
  let at' := ((s.threadsOf c).filter fun t => (s.thread t).run = .rendezvous).map fun t => (t.tid / 32, (s.thread t).pc)
  let kept := x.timers.filter fun k => at'.contains (k.crew, k.pc)
  let new := (at'.filter fun p => !kept.any fun k => k.crew = p.1 && k.pc = p.2).eraseDups
  s.setCohort c { x with timers := kept ++ new.map fun p => { crew := p.1, pc := p.2, since := s.now } }

/-- The threads of a quadrant. -/
def State.threadsOn (s : State) (q : QuadId) : List ThreadId := List.map (·.1) (s.threads.filter fun p => p.2.quad = q)

/-- A crew's timer stops where its clause issues or its members trap there (R280). -/
def State.stopTimer (s : State) (c : CohortId) (crew : Nat) (pc : DWord) : State :=
  s.modCohort c fun x => { x with timers := x.timers.filter fun k => !(k.crew = crew && k.pc = pc) }

/-- Every thread of a quadrant as its waits stand, each crew that has met READY, and the timers (R57, R280, R331). -/
def State.refreshQuad (s : State) (q : QuadId) : State :=
  let ts := (s.threadsOn q).filter fun t => s.awake t.cohort
  let s := ts.foldl State.refresh s
  let met := ts.filter fun t => (s.thread t).run = .rendezvous && s.crewMet t
  let s := met.foldl (fun s t => s.modThread t fun x => { x with run := .ready, readySince := s.now }) s
  (ts.map (·.cohort)).eraseDups.foldl State.runTimers s

/-! ## Choosing a bundle (R30, R332) -/

/-- The class of a READY thread (R332). -/
def State.classOfThread (s : State) (t : ThreadId) : Nat :=
  if (s.thread t).handler then 0 else if (s.launchOf t.cohort).flags / 2 % 2 = 1 then 1 else 2

/-- The issue cycles for which a thread has been READY, saturating (R332). -/
def State.waited (s : State) (t : ThreadId) : Nat := min (2 ^ 32 - 1) ((s.now - (s.thread t).readySince) / 2)

/-- Whether a comes before b in issue order (R332). -/
def State.ahead (s : State) (a b : ThreadId) : Bool :=
  let (x, y) := (s.classOfThread a, s.classOfThread b)
  let (v, w) := (s.waited a / 256, s.waited b / 256)
  x < y || (x = y && (v > w || (v = w && (s.thread a).seq < (s.thread b).seq)))

/-- Inserts a thread in issue order. -/
def State.insertByOrder (s : State) (t : ThreadId) : List ThreadId → List ThreadId
  | [] => [t]
  | u :: l => if s.ahead t u then t :: u :: l else u :: s.insertByOrder t l

/-- Adds threads whose lane is free, up to 32 (R30, R332). -/
def fillLanes : List ThreadId → List ThreadId → List ThreadId
  | acc, [] => acc
  | acc, t :: l => if acc.length < 32 && !acc.any (fun u => u.tid % 32 = t.tid % 32) then fillLanes (acc ++ [t]) l else fillLanes acc l

/-- Threads by lane. -/
def byLane (l : List ThreadId) : List ThreadId := (List.range 32).flatMap fun n => l.filter fun t => t.tid % 32 = n

/-- The decode trap of a clause for one thread, at the word it names or at the header (R61). -/
def State.decodeTrap (s : State) (t : ThreadId) (h : Header) (k : TrapKind) (n : Option Nat) (ws : List DWord) : State :=
  let pc := (s.thread t).pc
  let w := n.getD 0
  s.takeTrap t
    { kind := k, record := trapRec k 0 w pc 0 0 0 0 false false
      point := { pc := pc, word := w, next := if isLit (ws.getD w 0) then w + 2 else w + 1, count := h.count,
                 kind := if n.isSome then .word else .header } }

/-- The end of a clause for one of its threads (R30, R38, R46, R331, R343, R344). -/
def State.endClause (s : State) (b : Bundle) (t : ThreadId) : State :=
  let x := s.thread t
  let none8 : List (Option DWord) := List.replicate 8 none
  if x.exiting then s.setThread t { x with run := .draining, latches := none8, exiting := false, word := b.word, inside := true }
  else
    let s := if x.yielding then s.renew t else s
    (s.setThread t { s.thread t with yielding := false, pc := x.nextPc.getD (ptrAdd b.pc (8 * (b.words.length + 1))), word := 0, inside := false, nextPc := none, latches := none8 }).stand t

/-- Whether a READY thread may be placed in a bundle: at a crew clause only with every member of its crew that is not excluded,
since the clause runs as one bundle of them all (R57, R58). -/
def State.eligible (s : State) (t : ThreadId) : Bool :=
  let x := s.thread t
  x.run = .ready && s.mayBegin t
    && (x.inside || match s.fetchClause t.cohort x.pc with
      | .ok (w, _) => !(Header.ofWord w).crew
          || (s.crewOf t).all fun m => (s.thread m).run = .ready && (s.thread m).standsAt x.pc && s.mayBegin m
      | .error _ => true)

/-- The bundle former of a quadrant in one issue cycle (R30, R57, R58, R61, R332). -/
def State.formBundle (s : State) (q : QuadId) : State :=
  let s := s.refreshQuad q
  if (s.quad q).bundles.length ≥ 8 then s else
  let order := ((s.threadsOn q).filter s.eligible).foldl (fun l t => s.insertByOrder t l) []
  match order with
  | [] => s
  | lead :: rest =>
    let x := s.thread lead
    match s.fetchClause lead.cohort x.pc with
    | .error e => s.fetchFault lead e
    | .ok (w, ws) =>
      let h := Header.ofWord w
      if x.inside && x.word ≥ ws.length then
        s.endClause { threads := [lead], pc := x.pc, words := ws, word := x.word } lead
      else
      let sameClause := fun t => (s.thread t).pc = x.pc && !(s.thread t).inside
      let members :=
        if x.inside then [lead]
        else if h.crew then lead :: rest.filter fun t => sameClause t && t.cohort = lead.cohort && t.tid / 32 = lead.tid / 32
        else fillLanes [lead] (rest.filter fun t => sameClause t && s.partOf t.cohort = s.partOf lead.cohort)
      -- one clause can fail its checks for some members only: their grants may differ
      let check := fun (s : State) t => decodeClause (s.launchOf t.cohort).regs (s.cohort t.cohort).slots.length (s.launchOf t.cohort).tiles h ws (if x.inside then x.word else 0)
      let good := members.filter fun t => (check s t).isNone
      let bad := members.filter fun t => !good.contains t
      let s := bad.foldl (fun s t => match check s t with
        | some (k, n) => s.decodeTrap t h k n ws
        | none => s) s
      let good := byLane (good.filter fun t => (s.thread t).run = .ready)
      if good = [] then s
      else
        let slot := ((List.range 8).find? fun i => !((s.quad q).bundles.any fun b => b.1 = i)).getD 0
        let b : Bundle := { threads := good, pc := x.pc, cls := h.cls, crew := h.crew, alone := h.crew && x.inside, words := ws, word := x.word }
        let s := good.foldl (fun s t =>
          let first := (s.grid t.cohort.chip t.cohort.grid).started.isNone
          let s := if first then s.modGrid t.cohort.chip t.cohort.grid fun g => { g with started := some (s.ns t.cohort.chip) } else s
          s.modThread t fun y => { y with run := .issuing, fresh := false }) s
        let s := if h.crew && !x.inside then s.stopTimer lead.cohort (lead.tid / 32) x.pc else s
        (s.modQuad q fun y => { y with bundles := y.bundles ++ [(slot, b)] }).fetchUse lead.cohort x.pc

/-! ## Issue of a word -/

/-- What one thread does at a word. -/
inductive Res where
  | done (s : State)
  | trap (k : TrapKind) (cause : Nat) (addr aux : DWord)
  | trapAfter (s : State) (k : TrapKind) (addr : DWord)
  | fetch (cause : Nat) (target : DWord)          -- the clause that it transfers to cannot be fetched (R347)
  | park (s : State) (k : ParkKind) (retired : Bool)
  | held                                          -- it holds its bundle at the word (R33, R212)

/-- A pool's limit: an owner's reserve, then the shared remainder (R234). -/
def poolFull (size reserve : Nat) (used : List (Nat × Nat)) (owner : Nat) : Bool :=
  let mine := Tab.getD used owner 0
  let owners := max 1 (if used.any (fun p => p.1 = owner) then used.length else used.length + 1)
  let shared := used.foldl (fun n p => n + (p.2 - reserve)) 0
  mine ≥ reserve && shared ≥ size - reserve * owners

/-- How many entries of a pool each owner present on a core holds (R234). -/
def State.poolUse (s : State) (c : CoreId) (weigh : Op → Nat) : List (Nat × Nat) :=
  let owners := (((List.range 4).filterMap fun q => (s.quad ⟨c.chip, c.die, c.core, q⟩).owner)).eraseDups
  owners.map fun p => (p, ((s.ops.filter fun o => o.2.thread.cohort.toCore = c && s.partOf o.2.thread.cohort = p).map fun o => weigh o.2).foldl (· + ·) 0)

/-- Outstanding-request entries an operation holds (R234). -/
def Op.requests (o : Op) : Nat :=
  match o.body with
  | .access _ | .obj _ | .mmio _ _ _ _ => 1
  | .cfill l | .cevict l => l.left.length
  | _ => 0
/-- Copy-request slots an operation holds, until its arrival has been made (R229, R234). -/
def Op.copies (o : Op) : Nat := match o.body with | .copy _ => 1 | _ => 0

/-- Whether n more entries of a pool for t must wait: no room is free, or others of the core that wait came before it in issue
order, of its own owner or where it needs the shared remainder (R234). order is its own place, 0 where it does not wait yet. -/
def State.noRoom (s : State) (t : ThreadId) (pool size reserve : Nat) (weigh : Op → Nat) (order n : Nat) : Bool :=
  let c := t.cohort.toCore
  let part := s.partOf t.cohort
  let used := s.poolUse c weigh
  let mine := Tab.getD used part 0
  let before := fun (other : Nat) (u : ThreadId) =>
    other ≠ 0 && (order = 0 || other < order) && u.cohort.toCore = c && (s.partOf u.cohort = part || mine + n > reserve)
  let waits := ((List.range 4).any fun q => (s.quad ⟨c.chip, c.die, c.core, q⟩).bundles.any fun b =>
      b.2.pool = pool && b.2.threads.any fun u => before b.2.order u)
    || (pool = 2 && s.ops.any fun p => p.2.held.isSome && before p.1 p.2.thread && match p.2.body with | .kick _ => true | _ => false)
  n ≠ 0 && (waits || poolFull size reserve (used.map fun p => if p.1 = part then (p.1, p.2 + (n - 1)) else p) part)

/-- Whether n more outstanding requests of t find no entry (R234). -/
def State.requestsFull (s : State) (t : ThreadId) (order n : Nat) : Bool := s.noRoom t 1 8192 1024 Op.requests order n
/-- Whether n more copies of t find no slot (R234). -/
def State.copiesFull (s : State) (t : ThreadId) (order n : Nat) : Bool := s.noRoom t 2 256 32 Op.copies order n

/-- Whether some register that a word names is the destination of an outstanding load, or of one whose fault is not
delivered yet (R40, R235). -/
def State.interlocked (s : State) (t : ThreadId) (regs : List Nat) : Bool :=
  (s.ops.any fun p => p.2.thread = t && p.2.dst.any fun r => regs.contains r)
  || (!(s.thread t).handler && (s.thread t).deferred.any fun d => d.dst.any fun r => regs.contains r)

/-- Whether an acquire or a fence of the thread still holds its later events (R239, R247). -/
def State.eventHeld (s : State) (t : ThreadId) : Bool :=
  (s.ops.any fun p => p.2.thread = t && match p.2.body with | .access a => a.acq | _ => false)
  || (s.thread t).fences.any (fun f => f.kind ≠ 2)
  || (!(s.thread t).handler && (s.thread t).deferred.any (·.acq))

/-- Whether a release still holds the thread's engine issues: an access before it has not completed at its level, or the release
itself has not (R245). -/
def State.engineHeld (s : State) (t : ThreadId) : Bool :=
  (s.thread t).barriers.any fun b => !s.earlierComplete t b.id b.level

/-- Whether a thread's register that another member's word reads has yet to land. -/
def crossReads (i : Instr) : List Nat :=
  match i.fields? with
  | some f => if f.modified || i.roles.crewOnly then srcRegs i.roles.a f.sa else []
  | none => []

/-- The holds common to every word (R39, R40, R239); pool 0. -/
def State.commonHold (s : State) (i : Instr) (t : ThreadId) : Bool :=
  s.interlocked t i.named
  || (i.isEvent && s.eventHeld t)
  || (i.isEngine && s.engineHeld t)
  || (match i.counter with | some c => decide ((s.thread t).dc c ≥ 63) | none => false)

/-- The index of the word after the one at n (R44). -/
def nextWord (ws : List DWord) (n : Nat) : Nat := if isLit (ws.getD n 0) then n + 2 else n + 1

/-- The bundle past a word: on to the next, or dissolved at the clause's end (R30). -/
def State.advance (s : State) (q : QuadId) (k : Nat) : State :=
  match Tab.get? (s.quad q).bundles k with
  | none => s
  | some b =>
    let n := nextWord b.words b.word
    if b.threads = [] then s.modQuad q fun y => { y with bundles := Tab.del y.bundles k }
    else if n < b.words.length then s.modQuad q fun y => { y with bundles := Tab.put y.bundles k { b with word := n, heldSince := none, pool := 0, order := 0, counted := [] } }
    else
      let s := s.modQuad q fun y => { y with bundles := Tab.del y.bundles k }
      b.threads.foldl (fun s t => s.endClause b t) s

/-- A word held at issue: under a pool's back-pressure the bundle takes its place among those that wait, and its wait is timed
(R33, R234, R393). -/
def State.hold (s : State) (q : QuadId) (k : Nat) (pool : Nat) : State :=
  match Tab.get? (s.quad q).bundles k with
  | none => s
  | some b =>
    let new := pool ≠ 0 && b.pool ≠ pool
    let b' := { b with heldSince := if pool = 0 then none else some (if new then s.now else b.heldSince.getD s.now)
                       pool := pool, order := if pool = 0 then 0 else if new then s.nextId else b.order }
    { s with nextId := if new then s.nextId + 1 else s.nextId }.modQuad q fun y => { y with bundles := Tab.put y.bundles k b' }

/-- The trap point of the word a bundle is at. -/
def Bundle.point (b : Bundle) (kind : PointKind) (exit : Bool) : TrapPoint :=
  { pc := b.pc, word := b.word, next := nextWord b.words b.word, count := b.words.length - 1, kind := kind, exit := exit }

/-- What a thread's result makes of the state (R33, R62, R213, R405). -/
def State.settle (s : State) (b : Bundle) (t : ThreadId) (r : Res) : State :=
  match r with
  | .done s => s
  | .trap k cause addr aux =>
    s.takeTrap t { kind := k, record := trapRec k cause b.word b.pc addr aux 0 0 false false, point := b.point .word false }
  | .fetch cause target =>
    (s.takeTrap t { kind := .memoryFault, record := trapRec .memoryFault cause b.word b.pc target 0 0 0 false false, point := b.point .word false }).fetchFailed
      t.cohort target cause
  | .trapAfter s k addr =>
    s.takeTrap t { kind := k, record := trapRec k 0 b.word b.pc addr 0 0 0 false false, point := b.point .after false }
  | .park s k retired =>
    let n := nextWord b.words b.word
    let s := s.leave t
    if retired && n ≥ b.words.length then
      -- the word was the clause's last: the thread has nothing left to finish but its wait
      s.modThread t fun x => { x with run := .parked k, word := n, inside := true }
    else s.modThread t fun x => { x with run := .parked k, word := if retired then n else b.word, inside := true }
  | .held => s

/-- The bundle whose word issues, and its threads that execute the word (R31, R49). -/
def State.issuingBundle (s : State) : Option (QuadId × Nat × Bundle) :=
  match s.issuing with
  | none => none
  | some (q, k) => (Tab.get? (s.quad q).bundles k).map fun b => (q, k, b)

/-- A word that some threads have executed: each one's dependencies follow it, and each of their cohorts counts a word that
changes a dependency counter, once although it may issue in parts (R245, R420). -/
def State.retire (s : State) (i : Instr) (q : QuadId) (k : Nat) (ts : List ThreadId) : State :=
  let stay := match Tab.get? (s.quad q).bundles k with
    | some b => ts.filter fun t => b.threads.contains t && !b.rest.contains t
    | none => []
  let s := stay.foldl (fun s t => if (s.thread t).taint = [] then s else s.modThread t i.flow) s
  if i.counter.isNone then s
  else
    let old := match Tab.get? (s.quad q).bundles k with | some b => b.counted | none => []
    let new := ((stay.map (·.cohort)).eraseDups.filter fun c => (Tab.get? old c).isNone)
    let mark := new.foldl (fun l c => Tab.put l c (s.cohort c).seq) old
    let s := if new = [] || (match Tab.get? (s.quad q).bundles k with | some b => b.rest = [] | none => true) then s else
      s.modQuad q fun y => { y with bundles := List.map (fun (p : Nat × Bundle) => if p.1 = k then (k, { p.2 with counted := mark }) else p) y.bundles }
    new.foldl (fun s c => s.modCohort c fun x => { x with seq := x.seq + 1 }) s

/-- A word is done for some threads of the bundle in a slot: it retires for them, and the bundle moves on, unless it is gone, some
threads still hold it (R212), or it waits for a KICK's records (R30, R241). -/
def State.moveOn (s : State) (i : Instr) (q : QuadId) (k : Nat) (ts : List ThreadId) : State :=
  let s := s.retire i q k ts
  match Tab.get? (s.quad q).bundles k with
  | some b => if b.rest ≠ [] then s.hold q k 0 else if b.waitOps = [] then s.advance q k else s
  | none => s

/-- One instruction word for the bundle whose word issues. It is held whole while a rule holds any of its threads (R33); where a
pool holds it, early is all that happens: the threads whose own checks trap leave it first (R387). Else act does what the word
does for the threads that execute it, and the bundle moves on unless some of them still hold it. Without a bundle nothing
issues. -/
def State.runBundle (s : State) (i : Instr) (hold : State → Bundle → List ThreadId → Option Nat)
    (early : State → Bundle → List ThreadId → State)
    (act : State → QuadId → Nat → Bundle → List ThreadId → State) : State :=
  match s.issuingBundle, i.fields? with
  | some (q, k, b), some f =>
    let s := { s with issuing := none }
    let ts := b.threads.filter fun t => (s.thread t).executes f && (b.rest = [] || b.rest.contains t)
    if b.waitOps ≠ [] && b.rest = [] then
      if b.waitOps.all fun o => match s.op? o with | some { body := .kick c, .. } => c.next = c.count | _ => true then
        (s.modQuad q fun y => { y with bundles := Tab.put y.bundles k { b with waitOps := [] } }).advance q k
      else s
    else if ts.any (fun t => s.commonHold i t) || b.threads.any (fun t => s.interlocked t (crossReads i)) then s.hold q k 0
    else
      match hold s b ts with
      | some p => (early s b ts).hold q k p
      | none =>
        let s := if b.rest = [] then s else s.modQuad q fun y => { y with bundles := Tab.put y.bundles k { b with rest := [] } }
        (act s q k b ts).moveOn i q k ts
  | _, _ => { s with issuing := none }

/-- A word whose effect on each thread is its own: the threads act in lane order, and read one another in the state
before the word (R32, R58, R60). The answer lists those that still hold their bundle. -/
def State.eachThread (body : State → Bundle → ThreadId → State → Res) (s : State) (b : Bundle) (ts : List ThreadId) :
    State × List ThreadId :=
  ts.foldl (fun r t => if (r.1.thread t).run = .issuing then
      match body s b t r.1 with
      | .held => (r.1, r.2 ++ [t])
      | x => (r.1.settle b t x, r.2)
    else r) (s, [])

/-- Whether a thread's own checks let a word take its effect. -/
def Res.goes : Res → Bool
  | .done _ => true
  | _ => false
/-- Whether they trap. -/
def Res.traps : Res → Bool
  | .trap _ _ _ _ => true
  | .fetch _ _ => true
  | _ => false

/-- The issue of a word that acts thread by thread; a pool's limit looks at the threads that would take an entry. -/
def State.runThreads (s : State) (i : Instr) (hold : State → Bundle → List ThreadId → Option Nat)
    (body : State → Bundle → ThreadId → State → Res) : Host.Outcome State Fault Refusal :=
  .next (s.runBundle i (fun s b ts => hold s b (ts.filter fun t => (body s b t s).goes))
    (fun s b ts => (s.eachThread body b (ts.filter fun t => (body s b t s).traps)).1)
    fun s q k b ts =>
      let r := s.eachThread body b ts
      if r.2 = [] then r.1
      else r.1.modQuad q fun y => { y with bundles := List.map (fun (p : Nat × Bundle) => if p.1 = k then (k, { p.2 with rest := r.2 }) else p) y.bundles })

/-- No hold but the common ones. -/
def noHold (_ : State) (_ : Bundle) (_ : List ThreadId) : Option Nat := none

/-- Nothing happens to a held bundle. -/
def noEarly (s : State) (_ : Bundle) (_ : List ThreadId) : State := s

/-- The operation of a word that a thread issues, counted on a counter: what happens before it is what happens before the
thread's next event and what its operands and control path depend on (R39, R245, R249, R253, R420). -/
def State.newOp (s : State) (b : Bundle) (t : ThreadId) (ctr : Option Nat) (body : OpBody) : Op :=
  let x := s.thread t
  let w := b.words.getD b.word 0
  let dep := if x.taint = [] then [] else match Instr.ofCode (opcOf w) (Fields.ofWord w (b.words.getD (b.word + 1) 0)) with
    | some i => x.dep i.reads
    | none => []
  { thread := t, ctr := ctr, pc := b.pc, word := b.word, iword := w, barriers := x.barriers, seq := Tab.getD b.counted t.cohort (s.cohort t.cohort).seq
    know := join x.know dep, edges := s.edgesOf t x.barriers, body := body }

/-- A value that a source may fail to give: a latch that the thread did not write traps (R38). -/
def orTrap {α : Type} (v : Option α) (k : α → Res) : Res :=
  match v with
  | none => .trap .illegalOperand 0 0 0
  | some x => k x

/-- A word of class 0 that changes only the executing thread's own registers: pure register arithmetic. -/
def State.runAlu (s : State) (i : Instr) (g : State → Bundle → ThreadId → Thread → Option Thread) : Host.Outcome State Fault Refusal :=
  s.runThreads i noHold fun s0 b t s' => orTrap (g s0 b t (s'.thread t)) fun x => .done (s'.setThread t x)

end Sys2Proof.Machine
end

