-- ==== Sys2Proof/Machine/Perform.lean ====
section
/-! DEFINITION. Where and when one access takes effect: the order it keeps with its thread's other accesses (R239, R245,
R247, R197), what it does at its place (R238, R243, R263 to R265), pins (R251), the holder's checks, queue and translation
(R173, R178, R182, R188), array errors (R367, R411), and claims of cistern lines (R212, R214). -/

namespace Sys2Proof.Machine

/-! ## Order within a thread -/

/-- The bytes an access names. -/
def Op.span (o : Op) : Option (DWord × Nat) :=
  match o.body with
  | .access a => some (a.ptr, a.size)
  | .mmio off _ n _ => some (mkPtr 0xFFF 2 off, n)
  | _ => none

/-- Whether an access meets n bytes at a pointer. -/
def Op.meets (o : Op) (p : DWord) (n : Nat) : Bool := match o.span with | some (q, m) => overlap p.toNat n q.toNat m | none => false

/-- The object that an access or an object instruction acts on (R197). -/
def Op.object (o : Op) : Option (Nat × Nat) :=
  match o.body with
  | .access a => if isGlobal a.ptr then some (keyOf a.ptr) else none
  | .obj b => if b.code = .alloc then none else some (keyOf b.ptr)
  | _ => none
def Op.isObj (o : Op) : Bool := match o.body with | .obj _ => true | _ => false
/-- The level of a release: an access, a store to the MMIO page, or an arrival with .REL, which acts at the cohort (R239, R271). -/
def Op.release? (o : Op) : Option Nat :=
  match o.body with
  | .access a => if a.rel then some a.scope else none
  | .mmio _ _ _ rel => rel
  | .message _ true => some 3
  | _ => none
/-- Whether an operation follows the releases before it: everything but a load (R245). -/
def Op.follows (o : Op) : Bool := match o.body with | .access a => a.kind ≠ .load | _ => true

/-- Whether an earlier operation of the same thread keeps o from taking effect: an access to an overlapping location, an
object instruction and another of the same object, an access that has not completed at the level of o's own release, or one
before a release that o follows, at that release's level (R197, R239, R245, R247). -/
def holdsBack (p : Nat × Op) (id : Nat) (o : Op) : Bool :=
  p.2.thread = o.thread && p.1 < id &&
    ((!p.2.performed && ((match o.span with | some (q, n) => p.2.meets q n | none => false)
        || ((p.2.isObj || o.isObj) && p.2.object.isSome && p.2.object = o.object)))
      || (o.release?.any fun level => !p.2.completeAt level)
      || (o.follows && o.barriers.any fun b => p.1 < b.id && !p.2.completeAt b.level))

/-- Whether a pointer lies in the cistern. -/
def isCistern (p : DWord) : Bool := birthOf p = 0xFFF && serialOf p = 1

/-! ## Saved and restored contexts (R396, R399) -/

/-- The outcome of an epoch of a slot: none while it is unresolved; false where it was cancelled. -/
def Slot.outcome (x : Slot) (epoch : Nat) : Option Bool := if epoch = x.epoch then x.value else some (Tab.getD x.history epoch false)
def State.slotOutcome (s : State) (c : CohortId) (b : Nat × Nat) : Option Bool := ((s.cohort c).slots.getD b.1 {}).outcome b.2
/-- The slot and its present epoch, as an operation binds to it (R152). -/
def State.bindSlot (s : State) (c : CohortId) (n : Nat) : Nat × Nat := (n, ((s.cohort c).slots.getD n {}).epoch)

/-- Whether the guard of an earlier copy of the thread holds the engine's queue (R230). -/
def State.queueHeld (s : State) (id : Nat) (o : Op) : Bool :=
  s.ops.any fun p => p.1 ≤ id && p.2.thread = o.thread && match p.2.body with
    | .copy c => match c.slot with
      | some b => !c.started && (s.slotOutcome o.thread.cohort b).isNone
      | none => false
    | _ => false

/-- An operation that runs on while its context is saved (R197, R376, R396), or belongs to none. -/
def Op.runsOn (o : Op) : Bool := o.device.isSome || match o.body with | .obj _ | .win _ | .launchq _ _ _ => true | _ => false

/-- Whether an operation has no guard whose epoch is unresolved (R152). -/
def State.guardKnown (s : State) (i : Nat) : Bool :=
  (s.op? i).all fun o => match o.body with | .xfer x => x.slot.all fun b => (s.slotOutcome o.thread.cohort b).isSome | _ => true

/-- Whether a resume performs an operation before any thread of its context issues: not what needs a thread first, a guard
slot resolved or a reduction's other parts, nor what waits for a claimed line (R399). -/
def State.replayDue (s : State) (id : Nat) (o : Op) : Bool :=
  let c := o.thread.cohort
  !o.closing && match o.body with
  | .access a => !o.performed && !(isCistern a.ptr && !s.presentAll c.toCore (offsetOf a.ptr) a.size)
  | .mmio _ _ _ _ | .cfill _ | .tfetch _ _ => true
  | .cevict l => l.left.all (s.present c.toCore)
  | .copy _ => !s.queueHeld id o
  | .xfer x => x.red.isNone && s.guardKnown id
      && (x.slotOf.isSome || ((Tab.getD (s.die c.toDie).queues (s.cohort c).vf []).takeWhile (· ≠ id)).all s.guardKnown)
  | _ => false

/-- Whether a saved or restored context lets an operation move: a saved one holds it, and a resume goes in issue order (R399). -/
def State.opMoves (s : State) (id : Nat) (o : Op) : Bool :=
  let c := o.thread.cohort
  !o.closing && (o.runsOn || (s.resident c && (s.awake c || !s.ops.any fun p => p.1 < id && p.2.thread.cohort = c && s.replayDue p.1 p.2)))

/-- The package to which a release on its way to another package goes (R252). -/
def Op.fabricTo (o : Op) : Option Nat :=
  match o.phase with
  | .sent h _ _ => if o.release?.isSome && h ≠ o.thread.cohort.chip then some h else none
  | _ => none
/-- Whether an operation may take effect as far as its own thread goes. -/
def State.ready (s : State) (id : Nat) (o : Op) : Bool := s.opMoves id o && !s.ops.any fun p => holdsBack p id o
/-- Whether releases or signals of a package that it sent to another before id have yet to arrive there (R252). -/
def State.fabricHeld (s : State) (id src dest : Nat) : Bool :=
  (s.ops.any fun p => p.1 < id && p.2.thread.cohort.chip = src && p.2.fabricTo = some dest && s.ready p.1 p.2)
  || s.msgs.any fun m => m.1 < id && match m.2.body with
    | .signal h from' _ _ _ => from'.1 = src && h.toNat / 2 ^ 52 = dest
    | _ => false

/-- Whether an operation may take effect now. -/
def State.mayPerform (s : State) (id : Nat) (o : Op) : Bool :=
  s.ready id o && !o.fabricTo.any fun h => s.fabricHeld id o.thread.cohort.chip h

/-! ## Atomics (R263 to R265) -/

/-- A 32-element vector sum, by FADD.RN or by wrapping add (R265). -/
def taddOf (int : Bool) (old b : Nat) : Nat :=
  ((List.range 32).map fun j =>
    let x := old / 2 ^ (32 * j) % 2 ^ 32
    let y := b / 2 ^ (32 * j) % 2 ^ 32
    (if int then (x + y) % 2 ^ 32 else faddBits 0 1 false x y 0) * 2 ^ (32 * j)).foldl (· + ·) 0

/-- What an atomic writes, if it writes, by its opcode (R263 to R265). -/
def atomOf (code : Nat) (t : Bool) (n old b cmp : Nat) : Option Nat :=
  let w := 8 * n
  match code with
  | 0xB0 => some (if t then faddBits 0 1 false old b 0 else (old + b) % 2 ^ w)
  | 0xB1 => some (if t then min old b else if sextN b w < sextN old w then b else old)
  | 0xB2 => some (if t then max old b else if sextN b w > sextN old w then b else old)
  | 0xB3 => some (Nat.land old b)
  | 0xB4 => some (Nat.lor old b)
  | 0xB5 => some (Nat.xor old b)
  | 0xB6 => some b
  | 0xB7 | 0xBA => if old = cmp then some b else none
  | 0xB8 => if old < b then some (old + 1) else none
  | 0xB9 => if old > b then some (old - 1) else none
  | _ => some (taddOf t old b)

/-! ## Taking effect -/

/-- The pin level of .COHORT and the level from which a line goes unpinned (R24, R251). -/
def cohortLevel : Nat := 3

/-- Whether an access pins its line (R251). -/
def Access.pinning (a : Access) : Bool :=
  (match a.kind with | .store => a.rel | .atomic => a.acq || a.rel | .load => false) && 2 ≤ a.scope && a.scope ≤ cohortLevel

/-- What comes before the write of an access for every reader: what came before the access, and its thread's earlier accesses
to the same bytes with what they read from (R245, R249). -/
def State.before (s : State) (id : Nat) (o : Op) (a : Access) (addr : Nat) : List Nat :=
  let t := o.thread
  let own := (s.syncs.filter fun r => r.at' addr a.size && r.scope ≥ 9 && r.by' = t).map (·.toEdge)
  let read := ((s.thread t).seen.filter fun r => r.1 < id && r.2.at' addr a.size && !r.2.line).map (·.2.toEdge)
  join o.know (s.brought t (own ++ read))

/-- A write of an access, with what comes before it: the edges it gives its readers, the release it makes, and its mark in a
window (R248, R249, R251, R375). -/
def State.written (s : State) (id : Nat) (o : Op) (a : Access) (addr : Nat) (k : List Nat) : State :=
  let t := o.thread
  let window := isGlobal a.ptr && (s.obj? a.ptr).isNone
  let tracked := window || s.lags.any fun l => l.op = id
  let k := if tracked then join k [id] else k
  let c := s.clock t id o.know
  let own : List Edge := [{ scope := 9, by' := t, know := k }] ++ (if a.rel then [{ scope := a.scope, by' := t, know := c }] else [])
  let (lo, len) := match o.device with | some d => (addr + d.off, d.len) | none => (addr, a.size)
  let s := s.addEdges lo len (own.filter (fun e => e.know ≠ []) ++ if o.device.isSome then o.edges else s.edgesOf t o.barriers)
  let s := if a.rel then s.widen t a.scope c else s
  let s := if tracked then s.modThread t fun x => { x with wrote := x.wrote ++ [id] } else s
  if window then s.markWindow t a.ptr a.size id else s

/-- Whether a store is seen late by some dies: one to an object, where threads of another die could see it (R249). -/
def State.seenLate (s : State) (id : Nat) (o : Op) (a : Access) : Bool :=
  namesObject a.ptr && (s.obj? a.ptr).isSome && o.device.isNone
    && (List.any s.cohorts fun c => !c.2.ended && c.1.toDie ≠ o.thread.cohort.toDie) && Config.lags id

/-- A store's bytes at their place: seen by every die at once, or late by all but its thread's own (R249). -/
def State.place (s : State) (id : Nat) (o : Op) (a : Access) (addr : Nat) (k : List Nat) : State :=
  let bs := bytesLE a.size a.data
  if s.seenLate id o a then
    let d := o.thread.cohort.toDie
    let l : Lag := { op := id, lo := addr, old := s.loadBytes addr a.size, know := k, seen := [d]
                     syncs := (s.syncs.filter fun r => r.at' addr a.size && !r.line).map (·.clip addr a.size) }
    let s := (s.exposeTo d ((s.unseen d addr a.size).map (·.op))).storeKeep addr bs
    { s with syncs := s.syncs.flatMap (fun r => r.cut addr a.size), lags := l :: s.lags }
  else s.store addr bs

/-- An access takes effect at its place, and answers with the value read and the clock that it acquires; a conditional atomic that does
not write performs no release (R238, R243, R249, R263, R266). -/
def State.effect (s : State) (id : Nat) (o : Op) (a : Access) (addr : Nat) : Nat × List Nat × State :=
  let t := o.thread
  let d := t.cohort.toDie
  let note := fun (read : List Sync) (s : State) => if read = [] then s else s.modThread t fun x => { x with seen := x.seen ++ read.map (id, ·) }
  let got := fun (s : State) (read : List Sync) => if a.acq then s.acquires t a.scope read else []
  match a.kind with
  | .load =>
    let s := s.exposeTo d (o.know ++ ((s.unseen d addr a.size).filter fun l => Config.sees id l.op).map (·.op))
    let read := (s.viewSyncs d addr a.size).filter fun r => r.know ≠ []
    (ofBytesLE (s.viewBytes d addr a.size), got s read, note read s)
  | .store =>
    let k := s.before id o a addr
    (0, [], (((s.dirtyRange a.ptr a.size).place id o a addr k).written id o a addr k))
  | .atomic =>
    let s := s.expose [] [(addr, a.size)]
    let old := s.loadNat addr a.size
    let read := (s.syncs.filter fun r => r.at' addr a.size && r.know ≠ [])
    let g := got s read
    let k := join (join (s.before id o a addr) (s.brought t ((read.filter fun r => !r.line).map (·.toEdge)))) g
    let s := note read s
    match atomOf a.code a.t a.size old a.data a.cmp with
    | none => (old, g, s.settleBarrier t id false)
    | some v => (old, g, ((((s.settleBarrier t id true).dirtyRange a.ptr a.size).storeKeep addr (bytesLE a.size v)).written id o a addr k))

/-- An operation's request is answered. -/
def State.answer (s : State) (id : Nat) (o : Op) (r : Answer) : State := s.setOp id { o with phase := .answered r, held := none }

/-- An access performed at a place of a chip, or ended there by a failed line (R238, R367). -/
def State.perform (s : State) (id : Nat) (o : Op) (a : Access) (addr chip : Nat) : State :=
  let bad := match a.kind with | .store => s.writeFails addr a.size | _ => s.readFails addr a.size
  if bad then (s.found addr a.size).answer id o (.fault 4)
  else
    let (v, k, s) := (s.l2Use addr a.size false).effect id o a addr
    s.answer id o (.served chip v k)

/-! ## Places outside the global space (R171, R172, R256) -/

/-- The MMIO page's registers and their widths in bytes (R236). -/
def mmioWidth (off : Nat) : Option Nat :=
  if off = 0 then some 8
  else if off = 0x10 then some 4
  else if 0x100 ≤ off ∧ off < 0x200 then
    match off % 0x40 with
    | 0 => some 8
    | 0x10 | 0x14 | 0x18 => some 4
    | _ => none
  else none

/-- The owner's ring n on a core (R217). -/
def Core.ring (c : Core) (part n : Nat) : Ring := Tab.getD c.rings (part, n) {}
def Core.setRing (c : Core) (part n : Nat) (r : Ring) : Core := { c with rings := Tab.put c.rings (part, n) r }
def Ring.enabled (r : Ring) : Bool := r.cfg.getLsbD 63
def Ring.slots (r : Ring) : Nat := bitsOf r.cfg.toNat 41 32 + 1
def Ring.lines (r : Ring) : Nat := bitsOf r.cfg.toNat 55 48 + 1
def Ring.base (r : Ring) : Nat := bitsOf r.cfg.toNat 13 0

/-- What a load of the MMIO page returns (R236). -/
def State.mmioRead (s : State) (t : ThreadId) (off : Nat) : Nat :=
  let c := t.cohort.toCore
  let part := s.partOf t.cohort
  let ring := (s.core c).ring part ((off - 0x100) / 0x40)
  match mmioWidth off with
  | none => 0
  | some _ =>
    if off = 0 then 0
    else if off = 0x10 then
      let copies := Tab.getD (s.poolUse c Op.copies) part 0
      let reqs := Tab.getD (s.poolUse c Op.requests) part 0
      2 ^ 14 * (copies % 1024) + reqs % 2 ^ 14
    else match off % 0x40 with
      | 0 => ring.cfg.toNat
      | 0x10 => ring.prod.toNat
      | 0x14 => ring.cons.toNat
      | _ => ring.drop.toNat

/-- An access of chip-local or host-window space takes effect, where its thread's order and its line's presence bit let it
(R210, R214, R236, R245, R256). -/
def State.performLocal (s : State) (id : Nat) : State :=
  match s.op? id with
  | some o =>
    match o.body, o.phase with
    | .access a, .issued =>
      if !s.mayPerform id o || (isCistern a.ptr && !s.presentAll o.thread.cohort.toCore (offsetOf a.ptr) a.size) then s
      else if birthOf a.ptr = 0xFFF && serialOf a.ptr = 2 then
        s.answer id o (.served o.thread.cohort.chip (s.mmioRead o.thread (offsetOf a.ptr)) [])
      else
        match (if o.device.isSome then s.reachFor (s.opCtx o).1 (s.opCtx o).2 a.ptr a.size true else s.reach o.thread a.ptr a.size (a.kind ≠ .load)) with
        | .place addr => s.perform id o a addr o.thread.cohort.chip
        | .fail cause => s.answer id o (.fault cause)
        | .transit => s
    | _, _ => s
  | none => s

/-! ## Claims (R212, R214) -/

/-- Whether an operation is a cistern access of a core's lines that has not taken effect. -/
def pendingOn (c : CoreId) (lines : List Nat) (p : Nat × Op) : Bool :=
  match p.2.body with
  | .access a => p.2.thread.cohort.toCore = c && isCistern a.ptr && lines.contains (offsetOf a.ptr / 128) && !p.2.performed
  | _ => false

/-- A claim of cistern lines: accesses already on their way to a line come before it where they can (R214). -/
def State.claimLines (s : State) (c : CoreId) (lines : List Nat) : State :=
  ((List.map (·.1) (s.ops.filter (pendingOn c lines))).foldl State.performLocal s).claim c lines

/-- Whether a claim must wait: a count would pass 15, or an access of the issuer to a line has yet to take effect (R212, R253). -/
def State.claimHeld (s : State) (t : ThreadId) (c : CoreId) (lines : List Nat) : Bool :=
  s.claimFull c lines || s.ops.any fun p => p.2.thread = t && pendingOn c lines p

/-! ## At the holder (R173, R178, R182, R184, R251) -/

/-- Whether a pin keeps a thread from a line (R251). -/
def State.pinnedAway (s : State) (t : ThreadId) (line : Nat) : Bool :=
  match s.pins.get? line with
  | none => false
  | some p => !(p.cohort = t.cohort || s.within p.scope ⟨p.cohort, 0⟩ t)

/-- A 64-byte line of memory marked failed (R367, R411). -/
def State.markFailed (s : State) (l : Nat) : State := { s with failed := if s.failed.contains l then s.failed else l :: s.failed }

/-- One more corrected error of an array of a core: those of the latest second are kept (R408, R411). -/
def Core.correct (x : Core) (array ns : Nat) : Core :=
  { x with corrected := Tab.put x.corrected array (ns :: (Tab.getD x.corrected array []).filter fun n => ns < n + 10 ^ 9) }

/-- An array's error as an access finds it at the holder h: logged; a line found bad is failed, whether a load, an atomic or a store,
which needs the line's other bytes, finds it; an error in a cohort's own arrays is logged at its core and ends the cohort, and one
that they correct is counted there; a dirty line of the L2 is written back as failed, both halves (R367, R407, R411). -/
def State.upsetAt (s : State) (o : Op) (a : Access) (h die : Nat) (u : Upset) : State :=
  let c := o.thread.cohort
  let log := fun (s : State) type kind => s.logEvent h type die (Config.arrayUnit die kind) (s.opCtx o).2 a.ptr.toNat
  let own := fun (s : State) type kind => s.logEvent c.chip type c.die (Config.arrayUnit c.die kind) (s.cohort c).vf 0
  let count := fun (s : State) (d : DieId) => s.modDie d fun x => { x with corrected := x.corrected + 1 }
  match u with
  | .none | .staging | .lockkeeper | .counter | .flit | .cistern => s
  | .corrected => count (log s 1 0) ⟨h, die⟩
  | .core array => (count (s.logEvent c.chip 1 c.die array (s.cohort c).vf 0) c.toDie).modCore c.toCore fun x => x.correct array (s.ns c.chip)
  | .parity =>
    ((count (log s 1 1) ⟨h, die⟩).modDie c.toDie fun d => { d with locator := Tab.del d.locator (granule a.ptr) }).modDie ⟨h, die⟩ fun d =>
      { d with cached := d.cached.filter (· ≠ a.ptr.toNat / 65536)
               l2 := List.filter (fun (e : Nat × Bool) => e.2 || (s.dramLine (globalAt a.ptr)).all fun l => l.2 / 2 ≠ e.1) d.l2 }
  | .dram => (log s 2 2).markFailed (a.ptr.toNat / 64)
  | .mac => (log s 3 3).markFailed (a.ptr.toNat / 64)
  | .l2Dirty => match s.dramLine (globalAt a.ptr) with
    | none => s
    | some (d, l) =>
      if !Tab.getD (s.die d).l2 (l / 2) false then s
      else
        let j := a.ptr.toNat / 128 * 2
        let s := ((((log s 2 4).markFailed j).markFailed (j + 1)).writeBack d (l / 2 * 2)).writeBack d (l / 2 * 2 + 1)
        ((s.spoilLine d (l / 2 * 2)).spoilLine d (l / 2 * 2 + 1)).modDie d fun x => { x with l2 := Tab.del x.l2 (l / 2) }
  | .regFile => (own s 2 5).terminate c none {} 8
  | .triplicated => (own s 2 6).terminate c none {} 8

/-- An uncorrectable error in the cistern line of an access that has not been performed: the line is failed (R411). -/
def State.cisternUpset (s : State) (o : Op) (a : Access) : State :=
  let c := o.thread.cohort
  let line := cisternAt c.toCore (offsetOf a.ptr / 128 * 128) / 64
  ((s.logEvent c.chip 2 c.die (Config.arrayUnit c.die 7) (s.cohort c).vf 0).markFailed line).markFailed (line + 1)

/-- A request served at the holder of an object: RETRY on a line pinned elsewhere, else performed and counted (R179, R184). -/
def State.serve (s : State) (id : Nat) (o : Op) (a : Access) (h : Nat) : State :=
  let line := a.ptr.toNat / 128
  if s.pinnedAway o.thread line then s.answer id o .retry
  else
    let s := s.affinity a.ptr a.size o.thread.cohort.chip
    let s := (if o.device.isSome then s else s.linkFlits o.thread.cohort.toDie a.ptr a.size (a.kind ≠ .load)).perform id o a (globalAt a.ptr) h
    if a.pinning && (match s.op? id with | some { phase := .answered (.served _ _ _), .. } => true | _ => false) then
      { s with pins := s.pins.put line { cohort := o.thread.cohort, scope := cohortLevel }
               syncs := s.syncs.filter fun r => !(r.line && r.lo = line * 128) }
    else s

/-- The page of a global pointer. -/
def pageOf (p : DWord) : Nat := p.toNat / 65536

/-- A request that the holder may perform: at once where its page is translated, else behind the page's walk (R182). DESIGN
CHOICE (log 57): the page entries of a die are replaced least recently used first. -/
def State.translate (s : State) (id : Nat) (o : Op) (a : Access) (h : Nat) (b : Obj) : State :=
  let d : DieId := ⟨h, (b.pages.getD (offsetOf a.ptr / 65536) {}).die⟩
  let x := s.die d
  let pg := pageOf a.ptr
  let wait := fun (s : State) => s.setOp id { o with phase := .walking, held := none }
  let add := fun (l : List (Nat × List Nat)) => List.map (fun (w : Nat × List Nat) => if w.1 = pg then (w.1, w.2 ++ [id]) else w) l
  if x.cached.contains pg then
    (s.setDie d { x with cached := pg :: x.cached.filter (· ≠ pg) }).serve id o a h
  else if x.walks.any (·.1 = pg) then wait (s.setDie d { x with walks := add x.walks })
  else if x.walks.length < 64 then wait (s.setDie d { x with walks := x.walks ++ [(pg, [id])] })
  else if x.misses.any (·.1 = pg) then wait (s.setDie d { x with misses := add x.misses })
  else if x.misses.length < 4096 then wait (s.setDie d { x with misses := x.misses ++ [(pg, [id])] })
  else s

/-- The pages of n bytes of an object that their dies have not translated, where they may be performed (R182, R183). -/
def State.untranslated (s : State) (p : DWord) (n : Nat) : List (DieId × Nat) :=
  match s.obj? p with
  | none => []
  | some b =>
    ((List.range ((offsetOf p + n - 1) / 65536 + 1 - offsetOf p / 65536)).map (offsetOf p / 65536 + ·)).filterMap fun i =>
      let e := b.extents.getD (65536 * i / 2 ^ b.log2) {}
      let d : DieId := ⟨e.holder, (b.pages.getD i {}).die⟩
      let pg := pageOf (mkPtr (birthOf p) (serialOf p) 0) + i
      if (s.die d).cached.contains pg || e.state = .copying || e.state = .committing then none else some (d, pg)

/-- Request id waits for the walk of a page: one under way, a new one, or one in the miss queue (R182). -/
def Die.walkFor (x : Die) (pg id : Nat) : Die :=
  let add := fun (l : List (Nat × List Nat)) => List.map (fun (w : Nat × List Nat) => if w.1 = pg && !w.2.contains id then (w.1, w.2 ++ [id]) else w) l
  if x.walks.any (·.1 = pg) then { x with walks := add x.walks }
  else if x.misses.any (·.1 = pg) then { x with misses := add x.misses }
  else if x.walks.length < 64 then { x with walks := x.walks ++ [(pg, [id])] }
  else if x.misses.length < 4096 then { x with misses := x.misses ++ [(pg, [id])] }
  else x

/-- Engine work under id waits for walks of the pages that it needs (R147, R182). A walk hands it its translation in arrival order; it
acts by its own step. -/
def State.startWalks (s : State) (id : Nat) (p : DWord) (n : Nat) : State :=
  (s.untranslated p n).foldl (fun s w => s.modDie w.1 fun x => x.walkFor w.2 id) s

/-- Changes extent i of an object. -/
def State.modExtent (s : State) (k : Nat × Nat) (i : Nat) (f : Extent → Extent) : State :=
  match s.objects.get? k with
  | none => s
  | some b => s.setObj k { b with extents := b.extents.set i (f (b.extents.getD i {})) }

/-- The requests queued at one source of an object, over all of its extents in transit there (R188). -/
def Obj.queued (b : Obj) (h : Nat) : Nat := ((b.extents.filter fun e => e.holder = h).map fun e => e.queue.length).foldl (· + ·) 0
/-- A place in the source queue of extent i of an object, for request id; none behind 256 or behind requests that are back-pressured
there, which enter the queue in the order in which they reached the source (R188). -/
def State.takePlace (s : State) (id : Nat) (k : Nat × Nat) (i : Nat) (b : Obj) : Option State :=
  let h := (b.extents.getD i {}).holder
  if b.queued h < 256 && !(b.waiting.takeWhile (· ≠ (id, i))).any fun w => (b.extents.getD w.2 {}).holder = h then
    some ((s.setObj k { b with waiting := b.waiting.filter (· ≠ (id, i)) }).modExtent k i fun e => { e with queue := e.queue ++ [id] })
  else none
/-- Request id is back-pressured at extent i of an object (R188). -/
def State.waitPlace (s : State) (id : Nat) (k : Nat × Nat) (i : Nat) (b : Obj) : State :=
  s.setObj k { b with waiting := if b.waiting.contains (id, i) then b.waiting else b.waiting ++ [(id, i)] }

/-- An access joins the source queue of its extent, or is back-pressured (R188). -/
def State.enqueue (s : State) (id : Nat) (o : Op) (k : Nat × Nat) (i : Nat) (b : Obj) : State :=
  match s.takePlace id k i b with
  | some s => s.setOp id { o with phase := .queued, held := none }
  | none => (s.waitPlace id k i b).setOp id { o with held := some (o.held.getD s.now) }

/-- Engine work joins the source queue of an extent in transit, if it is not in it (R147, R183, R188). -/
def State.joinQueue (s : State) (id : Nat) (k : Nat × Nat) (i : Nat) : State :=
  match s.objects.get? k with
  | none => s
  | some b =>
    let e := b.extents.getD i {}
    if (e.state = .copying || e.state = .committing) && !e.queue.contains id then (s.takePlace id k i b).getD (s.waitPlace id k i b)
    else s

/-- A request at a chip (R178): the holder checks, queues or serves it; a stub forwards it once; another chip answers
NO_OBJECT. A request that the Wellhead forwarded waits for its holder. -/
def State.arrive (s : State) (id : Nat) (o : Op) (a : Access) (h : Nat) (hop last : Bool) : State :=
  if !s.mayPerform id o then s
  else
    match s.obj? a.ptr with
    | none =>
      match s.window? a.ptr with
      | some _ =>
        if h = birthOf a.ptr then
          match s.reachGlobal (s.opCtx o).1 (s.opCtx o).2 a.ptr a.size (a.kind ≠ .load) with
          | .place addr => s.perform id o a addr h
          | .fail c => s.answer id o (.fault c)
          | .transit => s
        else s.answer id o .noObject
      | none => s.answer id o (if last then .fault 2 else .noObject)
    | some b =>
      let i := offsetOf a.ptr / 2 ^ b.log2
      match b.extents[i]? with
      | none => s.answer id o (if last then .fault 3 else .noObject)
      | some e =>
        if e.holder = h then
          if b.realm ≠ s.opRealm o || offsetOf a.ptr + a.size > b.size then s.answer id o (.fault 3)
          else if e.state = .copying || e.state = .committing then s.enqueue id o (keyOf a.ptr) i b
          else if e.fwd ≠ [] then s
          else s.translate id o a h b
        else
          match Tab.get? e.stubs h with
          | some next => if !hop && !last then s.setOp id { o with phase := .sent next true false } else if last then s else s.answer id o .noObject
          | none => if last then s else s.answer id o .noObject

/-- A request served is no longer among those that a commit forwarded (R189). -/
def State.settleForwarded (s : State) (id : Nat) (a : Access) : State :=
  match s.obj? a.ptr, s.op? id with
  | some b, some { phase := .answered _, .. } =>
    if (b.extents.getD (offsetOf a.ptr / 2 ^ b.log2) {}).fwd.contains id then
      s.modExtent (keyOf a.ptr) (offsetOf a.ptr / 2 ^ b.log2) fun e => { e with fwd := e.fwd.filter (· ≠ id) }
    else s
  | _, _ => s

/-- A request that a commit forwarded: the destination performs these first, in their order (R189). -/
def State.arriveQueued (s : State) (id : Nat) (o : Op) (a : Access) : State :=
  match s.obj? a.ptr with
  | none => s.answer id o (.fault 2)
  | some b =>
    let e := b.extents.getD (offsetOf a.ptr / 2 ^ b.log2) {}
    if (e.state = .rest || e.state = .pending) && e.fwd.head? = some id && (s.chip e.holder).off.isNone then (s.translate id o a e.holder b).settleForwarded id a else s

/-! ## Answers at the requester (R179, R238, R259) -/

/-- The value of a load in its destination (R238). -/
def Access.landed (a : Access) (v : Nat) : Nat := if a.sext then wrapN (sextN v (8 * a.size)) 32 else v

/-- What some registers depend on from now on (R245). -/
def Thread.setTaint (x : Thread) (regs : List Nat) (k : List Nat) : Thread :=
  if k = [] && x.taint = [] then x
  else { x with taint := regs.foldl (fun m n => if k = [] then Tab.del m n else Tab.put m n k) x.taint }

/-- A served access lands: its registers are written and depend on what it read from, its clock joins the thread's, and it is
counted. -/
def State.land (s : State) (id : Nat) (o : Op) (a : Access) (v : Nat) (know : List Nat) : State :=
  let dep := if a.acq then [] else
    join (o.know.filter fun n => !(s.thread o.thread).know.contains n)
      (s.brought o.thread (((s.thread o.thread).seen.filter fun r => r.1 = id && !r.2.line).map (·.2.toEdge)))
  (s.modThread o.thread fun x =>
    let x := if a.kind = .store then x else (x.setRegs a.dst ((a.size + 3) / 4) (a.landed v)).setTaint o.dst dep
    { x with know := join x.know know }).endOp id

/-- Sends a request: to the guess of the issuing die, else to the Wellhead (R177, R178). -/
def State.sendRequest (s : State) (t : ThreadId) (p : DWord) : Phase × State :=
  match (s.die t.cohort.toDie).guess p with
  | some h => (.sent h false false, s.modDie t.cohort.toDie fun d => d.install p h)
  | none => (.wellhead, s)

end Sys2Proof.Machine
end

