-- ==== Sys2Proof/Machine/Copies.lean ====
section
/-! DEFINITION. The request engine: COPY and KICK, their records, chunks, shares and ends (R223 to R231, R241), and the
engine's reads and writes, which every engine shares (R225, R243, R251, R253). -/

namespace Sys2Proof.Machine

/-! ## Engine accesses -/

/-- Whether an access of the issuer before operation id has yet to take effect on some of n bytes (R253). -/
def State.forkHeld (s : State) (t : ThreadId) (id : Nat) (p : DWord) (n : Nat) : Bool :=
  s.ops.any fun o => o.2.thread = t && o.1 < id && !o.2.performed && o.2.meets p n

/-- The claims that an operation holds on a line of a core. -/
def Op.claimsOf (o : Op) (c : CoreId) (line : Nat) : Nat :=
  let shares := fun (l : List Share) => ((l.filter fun x => shareCore o.thread x = c).map fun x => x.claims.count line).foldl (· + ·) 0
  match o.body with
  | .copy x => shares x.shares
  | .xfer x => shares x.shares
  | .cfill l => if o.thread.cohort.toCore = c then l.left.count line else 0
  | _ => 0
/-- Whether a line of a core's cistern that n bytes at an offset touch, or of the thread's that n bytes at a pointer touch, is claimed by a ring or by work issued before
operation id: what the operation reads or writes there, it does once those writes are complete (R214). -/
def State.claimedOn (s : State) (c : CoreId) (id off n : Nat) : Bool :=
  (linesOf off n).any fun l => decide (s.writers c l > ((s.ops.filter fun o => id ≤ o.1).map fun o => o.2.claimsOf c l).foldl (· + ·) 0)
def State.claimedBefore (s : State) (t : ThreadId) (id : Nat) (p : DWord) (n : Nat) : Bool :=
  isCistern p && s.claimedOn t.cohort.toCore id (offsetOf p) n

/-- Whether engine work of a thread is held at n bytes before it comes to their holder: by the issuer's earlier accesses, by a line
pinned elsewhere, by earlier claims of a cistern line, which it neither reads nor overwrites half written, or for want of a path to their
holder (R214, R251, R253, R410). -/
def State.engineHeldAt (s : State) (t : ThreadId) (id : Nat) (p : DWord) (n : Nat) : Bool :=
  s.forkHeld t id p n
  || s.claimedBefore t id p n
  || s.pathBlocked t.cohort.chip p
  || (isGlobal p && s.pins.any fun l => l.1 * 128 < p.toNat + n && p.toNat < l.1 * 128 + 128 && s.pinnedAway t l.1)

/-- Whether an extent of n bytes is in transit, or has forwarded requests before those of operation id (R187, R189). -/
def State.inTransit (s : State) (id : Nat) (p : DWord) (n : Nat) : Bool :=
  match s.obj? p with
  | none => false
  | some o => (o.touched (offsetOf p) n).any fun e => e.state = .copying || e.state = .committing || (e.fwd ≠ [] && e.fwd.head? ≠ some id)

/-- Whether engine work of a thread must wait at n bytes: it is held, their extent is in transit, or a page is to be translated (R147,
R182, R187). -/
def State.engineWaits (s : State) (t : ThreadId) (id : Nat) (p : DWord) (n : Nat) (wr : Bool) : Bool :=
  s.engineHeldAt t id p n || (s.reach t p n wr = .transit && s.inTransit id p n) || s.untranslated p n ≠ []

/-- What engine work does that waits at n bytes: walks for their pages start, and it joins the queue of an extent in transit, unless
it is held; it leaves what places it has at other holders (R147, R182, R183, R189). -/
def State.engineWait (s : State) (t : ThreadId) (id : Nat) (held : Bool) (p : DWord) (n : Nat) (wr : Bool) : State :=
  let held := held || s.engineHeldAt t id p n
  let l := s.placesAt p n
  let s := (s.giveUpBut id (if held then [] else l)).startWalks id p n
  if held || s.reach t p n wr ≠ .transit then s else l.foldl (fun s k => s.joinQueue id k.1 k.2) s

/-- Where engine work acts that need not wait. -/
def Reach.here (r : Reach) (p : DWord) : Reach := match r with | .transit => .place (globalAt p) | r => r

/-- Bytes that engine work of a thread reads, or the cause of its fault (R232, R367). -/
def State.engineRead (s : State) (t : ThreadId) (p : DWord) (n : Nat) : Except Nat (List Byte) :=
  match (s.reach t p n false).here p with
  | .place a => if s.readFails a n then .error 4 else .ok (s.loadBytes a n)
  | .fail c => .error c
  | .transit => .error 2

/-- A failure that engine work of a thread finds at n bytes of a pointer is marked and logged (R367, R412). -/
def State.foundBy (s : State) (t : ThreadId) (p : DWord) (n : Nat) : State :=
  match (s.reach t p n false).here p with
  | .place a => s.found a n
  | _ => s

/-- The pointer to the first failed line that n bytes at a pointer meet. -/
def State.failAt (s : State) (t : ThreadId) (p : DWord) (n : Nat) : DWord :=
  match (s.reach t p n false).here p with
  | .place a => match (blocksOf a n).find? s.lineFails with
    | some j => ptrAdd p (j * 64 - a : Nat)
    | none => p
  | _ => p

/-- What such a read brings to the operation (R253). -/
def State.engineHeard (s : State) (t : ThreadId) (p : DWord) (n : Nat) (k : List Nat) : List Nat :=
  match (s.reach t p n false).here p with
  | .place a => join k (s.heardAt t a n)
  | _ => k

/-- Bytes that engine work of a thread writes, with its edges, or the cause of its fault (R232, R253, R367). -/
def State.engineWrite (s : State) (t : ThreadId) (p : DWord) (bs : List Byte) (id : Nat) (edges : List Edge) (adds : Bool := false) :
    Except Nat State :=
  match (s.reach t p bs.length true).here p with
  | .place a => if s.writeFails a bs.length then .error 4 else .ok (s.engineStore t p a bs id edges adds)
  | .fail c => .error c
  | .transit => .error 2

/-- The clock of engine work once it has written at a pointer: a window write joins it under its identifier (R253, R375). -/
def State.windowKnow (s : State) (t : ThreadId) (p : DWord) (id : Nat) (k : List Nat) : List Nat :=
  if !((s.marksAt t p 1).getD []).contains id || k.contains id then k else k ++ [id]

/-- The entries of translated pages are used (R182). -/
def State.usePages (s : State) (p : DWord) (n : Nat) : State :=
  match s.obj? p with
  | none => s
  | some b =>
    (List.range ((offsetOf p + n - 1) / 65536 + 1 - offsetOf p / 65536)).foldl (fun s j =>
      let i := offsetOf p / 65536 + j
      let pg := pageOf (mkPtr (birthOf p) (serialOf p) 0) + i
      s.modDie ⟨(b.extents.getD (65536 * i / 2 ^ b.log2) {}).holder, (b.pages.getD i {}).die⟩ fun x =>
        if x.cached.head? = some pg then x else { x with cached := pg :: x.cached.filter (· ≠ pg) }) s

/-- An engine's access uses the L2 and the links, and counts at the holder, which its response installs in the locator of the issuing
die (R12, R177, R179, R184, R361). -/
def State.engineCount (s : State) (t : ThreadId) (p : DWord) (n : Nat) (wr : Bool := false) : State :=
  let s := match (s.reach t p n false).here p with | .place a => s.l2Use a n false | _ => s
  if !isGlobal p then s
  else match s.obj? p with
    | none => s
    | some o =>
      (((s.linkFlits t.cohort.toDie p n wr).affinity p n t.cohort.chip).usePages p n).modDie t.cohort.toDie fun d => d.install p (o.extents.getD (offsetOf p / 2 ^ o.log2) {}).holder

/-! ## Rows, lines and shares -/

/-- The destination lines of a copy at a cistern offset (R226). -/
def rowLines (off len rows : Nat) (stride : Int) : List Nat :=
  ((List.range rows).flatMap fun (i : Nat) => linesOf ((off : Int) + i * stride).toNat len).eraseDups

/-- Whether a row from r on touches a line; row r from byte pos. -/
def CopyOp.touches (c : CopyOp) (r pos l : Nat) : Bool :=
  (List.range (c.rows - r)).any fun (k : Nat) =>
    let start : Int := (offsetOf c.dst : Int) + ((r + k : Nat) : Int) * c.dstride + (if k = 0 then pos else 0)
    let stop : Int := (offsetOf c.dst : Int) + ((r + k : Nat) : Int) * c.dstride + c.len
    start < stop && start < ((l + 1) * 128 : Nat) && ((l * 128 : Nat) : Int) < stop

/-- The cores of a mask. -/
def maskCores (m : Nat) : List Nat := (List.range 48).filter fun n => m / 2 ^ n % 2 = 1
/-- Whether a mask is zero or names a core outside the thread's cluster (R227, R241). -/
def maskOutside (t : ThreadId) (m : Nat) : Bool := (maskCores m).any fun n => n / 8 ≠ t.cohort.core / 8

/-- Whether a share to a core of the launch is dropped (R227). -/
def State.shareDropped (s : State) (t : ThreadId) (core off n : Nat) : Bool :=
  let c : CohortId := { t.cohort with core := core }
  !s.live c || (s.cohort c).killed.isSome || !s.ownsBytes c.toCore (s.partOf t.cohort) off n

/-- The shares of a copy at its claim, with the lines that each claims (R226, R227). -/
def State.makeShares (s : State) (t : ThreadId) (c : CopyOp) (mask : Nat) : List Share :=
  let lines := if isCistern c.dst then rowLines (offsetOf c.dst) c.len c.rows c.dstride else []
  if c.mc then
    (maskCores mask).map fun n =>
      let d := (List.range c.rows).any fun (i : Nat) => s.shareDropped t n ((offsetOf c.dst : Int) + i * c.dstride).toNat c.len
      { core := n, claims := if d then [] else lines, dropped := d }
  else [{ core := t.cohort.core, claims := lines }]

/-- Claims the lines of every share. -/
def State.claimShares (s : State) (t : ThreadId) (l : List Share) : State :=
  l.foldl (fun s x => s.claimLines (shareCore t x) x.claims) s
def State.sharesHeld (s : State) (t : ThreadId) (l : List Share) : Bool := l.any fun x => s.claimHeld t (shareCore t x) x.claims

/-! ## Issue of COPY (R241) -/

/-- The fault of n bytes at a pointer of a copy, found at its issue or its record's fetch; past is the cause where a row leaves
its chip-local region's extent (R171, R224, R232, R241). -/
def State.copyCheck (s : State) (t : ThreadId) (p : DWord) (len rows : Nat) (stride : Int) (mcDst : Bool) (past : Nat) : Option Nat :=
  if birthOf p = 0xFFF && serialOf p ≥ 2 then some 0x12
  else if (List.range rows).any fun (i : Nat) => !(ptrFits p (i * stride) && ptrFits p (i * stride + len - 1)) then some 0x11
  else if birthOf p = 0xFFF && serialOf p = 0 then
    if (List.range rows).any fun (i : Nat) => (offsetOf p : Int) + i * stride + len > (s.launchOf t.cohort).priv' then some past else none
  else if birthOf p = 0xFFF then
    if past = 0x11 && (List.range rows).any fun (i : Nat) => (offsetOf p : Int) + i * stride + len > 48 * 32768 then some past
    else if mcDst then none
    else if (List.range rows).any fun (i : Nat) =>
      !s.ownsBytes t.cohort.toCore (s.partOf t.cohort) ((offsetOf p : Int) + i * stride).toNat len then some 3 else none
  else if birthOf p = 0xFFE then
    if serialOf p ≤ 63 && (s.vf t.cohort.chip (s.cohort t.cohort).vf).hostWin.any (·.1 = serialOf p) then none else some 2
  else if serialOf p = 0 then some 2
  else none

/-- The COPY that a thread's registers give, with its mask (R241). DESIGN CHOICE (log 66): bits 63:48 of the mask's register pair are
ignored. -/
def Thread.copyOf (x : Thread) (f : Fields) : Option (CopyOp × Nat) :=
  let d := f.dst.toNat
  let mc := decide (d / 32 % 2 = 1)
  (x.src64 f.sa).bind fun dst => (x.b64 f).bind fun src => (if mc then x.src64 f.sc else some 0).map fun m =>
    ({ dst := dst, src := src, len := (f.mod.toNat + 1) * 64, rows := 1, mc := mc,
       nb := if d / 16 % 2 = 1 then some (d % 16) else none : CopyOp }, m.toNat % 2 ^ 48)

/-- The precise trap of a COPY, if any (R241): kind, cause and pointer. -/
def State.copyTrap (s : State) (t : ThreadId) (c : CopyOp) (mask : Nat) : Option (TrapKind × Nat × DWord) :=
  if c.mc && (mask = 0 || maskOutside t mask || !isCistern c.dst) then some (.illegalOperand, 0, 0)
  else
    match s.copyCheck t c.dst c.len 1 0 c.mc 3 with
    | some k => some (.memoryFault, k, c.dst)
    | none => (s.copyCheck t c.src c.len 1 0 false 3).map fun k => (.memoryFault, k, c.src)

/-- The hold of a word that takes one copy-request slot for each thread (R234). -/
def copyHold (s : State) (b : Bundle) (ts : List ThreadId) : Option Nat :=
  match ts with
  | t :: _ => if s.copiesFull t b.order ts.length then some 2 else none
  | [] => none

/-- R241: one copy is queued, its destination lines claimed; a thread whose claim would pass a count of 15 holds its bundle
(R212). -/
def execCopy (f : Fields) (s : State) : Host.Outcome State Fault Refusal :=
  s.runThreads (.copy f) copyHold fun _ b t s =>
    orTrap ((s.thread t).copyOf f) fun (c, m) =>
    match s.copyTrap t c m with
    | some (k, cause, p) => .trap k cause p 0
    | none =>
      let sh := s.makeShares t c m
      if s.sharesHeld t sh then .held
      else .done ((s.claimShares t sh).addOp (s.newOp b t (some 3) (.copy { c with shares := sh }))).2

/-! ## Issue of KICK (R236, R241) -/

/-- The precise trap of a KICK's list, if any (R241). -/
def State.kickTrap (s : State) (t : ThreadId) (list : DWord) (count : Nat) : Option (TrapKind × Nat × DWord) :=
  if count = 0 || count > 256 || birthOf list ≠ 0xFFF || serialOf list ≥ 2 then some (.illegalOperand, 0, 0)
  else if offsetOf list % 64 ≠ 0 then some (.memoryFault, 0x10, list)
  else if offsetOf list + 64 * count > (if serialOf list = 0 then (s.launchOf t.cohort).priv' else 48 * 32768) then some (.memoryFault, 0x11, list)
  else if serialOf list = 1 && !s.ownsBytes t.cohort.toCore (s.partOf t.cohort) (offsetOf list) (64 * count) then some (.memoryFault, 3, list)
  else none

/-- The word does not retire before an operation has fetched all its records (R241). -/
def State.waitFor (s : State) (t : ThreadId) (id : Nat) : State :=
  s.modQuad (s.thread t).quad fun q => { q with bundles := List.map (fun (b : Nat × Bundle) =>
    if b.2.threads.contains t then (b.1, { b.2 with waitOps := b.2.waitOps ++ [id] }) else b) q.bundles }

/-- A list of copies is queued. -/
def State.issueKick (s : State) (b : Bundle) (t : ThreadId) (list : DWord) (count : Nat) (mmio : Bool) : Res :=
  match s.kickTrap t list count with
  | some (k, cause, p) => .trap k cause p 0
  | none =>
    let (id, s) := s.addOp (s.newOp b t (some 3) (.kick { list := list, count := count, mmio := mmio }))
    .done (s.waitFor t id)

/-- R241. -/
def execKick (f : Fields) (s : State) : Host.Outcome State Fault Refusal :=
  s.runThreads (.kick f) noHold fun _ b t s =>
    let x := s.thread t
    orTrap (x.src64 f.sa) fun list => orTrap (x.b32 f) fun n => s.issueKick b t list n.toNat false

/-- A .64 store to the KICK register: a KICK with the operands of its fields (R236). -/
def State.kickRegisterStore (s : State) (b : Bundle) (t : ThreadId) (v : DWord) : Res :=
  s.issueKick b t (mkPtr 0xFFF (bitsOf v.toNat 63 63) (bitsOf v.toNat 29 0)) (bitsOf v.toNat 39 32 + 1) true

/-- R236: the store reaches the register, and its list is fetched from then on. -/
def execKickRegister (op : Nat) (s : State) : Host.Outcome State Fault Refusal :=
  .next (match s.op? op with
    | some o =>
      match o.body with
      | .kick k => if k.mmio && s.opMoves op o then s.setOp op { o with body := .kick { k with mmio := false } } else s
      | _ => s
    | none => s)

/-! ## Records (R224, R230, R241) -/

/-- A copy record's bytes as a copy, with its mask and its guard slot (R224). -/
def copyOfRecord (bs : List Byte) (rec' : DWord) (list : Nat) : CopyOp × Nat × Option Nat :=
  let at' := fun off n => ofBytesLE ((bs.drop off).take n)
  let ctrl := at' 0x28 4
  ({ dst := BitVec.ofNat 64 (at' 0 8), src := BitVec.ofNat 64 (at' 8 8), len := at' 0x10 4, rows := at' 0x14 4,
     dstride := sextN (at' 0x18 4) 32, sstride := sextN (at' 0x1C 4) 32, mc := ctrl / 32 % 2 = 1,
     nb := if ctrl / 16 % 2 = 1 then some (ctrl % 16) else none, record := some rec', list := some list },
   at' 0x20 8 % 2 ^ 48, if ctrl / 64 % 2 = 1 then some (ctrl / 128 % 64) else none)

/-- The condition that ends a fetched record, in the order of R241, with its pointer. -/
def State.recordFault (s : State) (t : ThreadId) (c : CopyOp) (mask : Nat) (slot : Option Nat) : Option (Nat × DWord) :=
  if c.len = 0 || c.len > 16777216 || c.rows = 0 || c.rows > 65536 then some (1, c.dst)
  else if slot.any (fun n => n ≥ (s.cohort t.cohort).slots.length) then some (1, c.dst)
  else if c.mc && mask = 0 then some (1, c.dst)
  else if c.mc && maskOutside t mask then some (3, c.dst)
  else if c.mc && !isCistern c.dst then some (0x12, c.dst)
  else
    match s.copyCheck t c.dst c.len c.rows c.dstride c.mc 0x11 with
    | some k => some (k, c.dst)
    | none => (s.copyCheck t c.src c.len c.rows c.sstride false 0x11).map fun k => (k, c.src)

/-- A record, or a copy before its first byte, ends with a fault: its STATUS, its contribution and a deferred fault of the
issuing word (R231). -/
def State.copyFault (s : State) (id : Nat) (o : Op) (c : CopyOp) (cause : Nat) (p : DWord) : State :=
  let at' := c.list.getD id
  (s.addDeferred o.thread
    { op := at', sub := offsetOf (c.record.getD 0), ctr := 3, kind := .deferredMemory, record := deferredRec .deferredMemory o cause p 0 }).finishCopy id o c (some cause) false

/-- R241: the next record of a list is fetched, after the issuer's earlier stores to it, and issued or ended. -/
def execKickRecordFetch (op : Nat) (s : State) : Host.Outcome State Fault Refusal :=
  .next (match s.op? op with
    | some o =>
      match o.body with
      | .kick k =>
        let t := o.thread
        let p := ptrAdd k.list (64 * k.next)
        if k.mmio || k.next ≥ k.count || !s.opMoves op o then s
        else if s.copiesFull t op 1 then (s.giveUp op).setOp op { o with held := some (o.held.getD s.now) }
        else if s.engineWaits t op p 64 false then s.engineWait t op false p 64 false
        else
          let s := s.giveUp op
          let o := { o with held := none }
          let s1 := s.setOp op { o with body := .kick { k with next := k.next + 1 } }
          let start := fun (s : State) (c : CopyOp) => s.addOp { o with ctr := none, dst := [], body := .copy c }
          match s1.engineRead t p 64 with
          | .error cause =>
            let s1 := s1.foundBy t p 64
            let (id, s2) := start s1 { list := some op, record := some p }
            s2.copyFault id { o with ctr := none } { list := some op, record := some p, shares := [], len := 0 } cause p
          | .ok bs =>
            let o := { o with know := s1.engineHeard t p 64 o.know }
            let s1 := s1.setOp op { o with body := .kick { k with next := k.next + 1 } }
            let start := fun (s : State) (c : CopyOp) => s.addOp { o with ctr := none, dst := [], body := .copy c }
            let (c, mask, slot) := copyOfRecord bs p op
            match s1.recordFault t c mask slot with
            | some (cause, q) =>
              let c := { c with shares := if c.mc then (maskCores mask).map fun n => { core := n } else [] }
              let (id, s2) := start s1 c
              s2.copyFault id { o with ctr := none } c cause q
            | none =>
              let sh := s1.makeShares t c mask
              if s1.sharesHeld t sh then s
              else
                let c := { c with shares := sh, slot := slot.map (s1.bindSlot t.cohort) }
                (start (s1.claimShares t sh) c).2
      | _ => s
    | none => s)

/-! ## Chunks (R225 to R228, R231) -/

/-- One share's next chunk is written, its bytes are counted, and the claims of lines it finishes end. DESIGN CHOICE (log 67): a chunk
is written whole in one step, so no reader sees some of its words without the others. -/
def State.copyChunk (s : State) (id : Nat) (o : Op) (c : CopyOp) (i : Nat) : State :=
  let t := o.thread
  let x := c.shares.getD i {}
  let dst := ptrAdd c.dst (x.row * c.dstride + x.pos)
  let src := ptrAdd c.src (x.row * c.sstride + x.pos)
  let n := min (128 - offsetOf dst % 128) (c.len - x.pos)
  let fork := c.list.getD id
  let setShare := fun (c : CopyOp) (x : Share) => { c with shares := c.shares.set i x }
  let far := c.mc && x.core ≠ t.cohort.core
  if c.mc && s.shareDropped t x.core (offsetOf dst) n then
    (s.unclaim (shareCore t x) x.claims).setOp id { o with body := .copy (setShare c { x with dropped := true, claims := [] }) }
  else if s.engineWaits t fork src n false then s.engineWait t fork false src n false
  else if !far && s.engineWaits t fork dst n true then s.engineWait t fork false dst n true
  else if far && s.claimedOn (shareCore t x) fork (offsetOf dst) n then s
  else
    let s := s.giveUp fork
    match s.engineRead t src n with
    | .error k => let s := s.foundBy t src n
        if c.sent = 0 && !c.started then s.copyFault id o c k src else
        (s.finishCopy id o c (some k) false).terminate t.cohort none (deferredRec .deferredMemory o k src 0) 2
    | .ok bs =>
      let o' := { o with know := s.engineHeard t src n o.know }
      let w := if far then
          let a := cisternAt (shareCore t x) (offsetOf dst)
          Except.ok ((s.store a bs).addEdges a bs.length o'.allEdges)
        else s.engineWrite t dst bs fork o'.allEdges
      match w with
      | .error k => let s := s.foundBy t dst n
          if c.sent = 0 && !c.started then s.copyFault id o c k dst else
          (s.finishCopy id o c (some k) false).terminate t.cohort none (deferredRec .deferredMemory o k dst 0) 2
      | .ok s =>
        let s := (s.engineCount t src n).engineCount t dst n true
        let (row, pos) := if x.pos + n = c.len then (x.row + 1, 0) else (x.row, x.pos + n)
        let fin := x.claims.filter fun l => !c.touches row pos l
        let s := s.unclaim (shareCore t x) fin
        let x := { x with row := row, pos := pos, claims := x.claims.filter (c.touches row pos), done := row = c.rows }
        let o := { o' with know := s.windowKnow t dst fork o'.know }
        let s := match c.list.bind s.op? with
          | some l => s.setOp fork { l with know := join l.know o.know }
          | none => s
        let s := match c.nb with
          | some nb => s.contribute id o nb { bytes := n }
          | none => s
        s.setOp id { o with body := .copy { setShare c x with started := true, sent := c.sent + (if c.nb.isSome then n else 0) } }

/-- R225. -/
def execCopyChunkWrite (op : Nat) (share : Nat) (s : State) : Host.Outcome State Fault Refusal :=
  .next (match s.op? op with
    | some o =>
      match o.body with
      | .copy c =>
        let x := c.shares.getD share {}
        if share ≥ c.shares.length || x.done || x.dropped || s.queueHeld op o || !s.opMoves op o then s
        else if c.slot.any (fun b => s.slotOutcome o.thread.cohort b ≠ some true) && !c.started then s
        else s.copyChunk op o c share
      | _ => s
    | none => s)

/-- R229, R230: a copy whose shares are all written or dropped ends; one whose epoch resolved FALSE, or was cancelled, is
discarded. -/
def execCopyComplete (op : Nat) (s : State) : Host.Outcome State Fault Refusal :=
  .next (match s.op? op with
    | some o =>
      match o.body with
      | .copy c =>
        if !s.opMoves op o then s
        else if !c.started && c.slot.any (fun b => s.slotOutcome o.thread.cohort b = some false) && !s.queueHeld op o then
          s.finishCopy op o c none true
        else if c.shares ≠ [] && c.shares.all (fun x => x.done || x.dropped) then s.finishCopy op o c none false
        else s
      | _ => s
    | none => s)

end Sys2Proof.Machine
end

