-- ==== Sys2Proof/Machine/Access.lean ====
section
/-! DEFINITION. Loads, stores, atomics and fences, and the steps by which their requests are served and land (R177 to
R182, R236 to R239, R247, R259 to R266, R274). -/

namespace Sys2Proof.Machine

/-! ## Addresses and issue checks (R232, R238, R262) -/

/-- The pointer at an offset from a base, or the cause and pointer of a precise fault (R238). -/
def pointAt (p : DWord) (off : Int) (n : Nat) : Except (Nat × DWord) DWord :=
  if !ptrFits p off then .error (0x11, p)
  else if offsetOf (ptrAdd p off) % n ≠ 0 then .error (0x10, ptrAdd p off)
  else .ok (ptrAdd p off)

/-- A 32-bit chip-local base as a pointer: its region bits are SERIAL 0, 1 or 2 (R238). -/
def localBase (a : Word) : DWord := mkPtr 0xFFF (a.toNat / 2 ^ 30) (a.toNat % 2 ^ 30)
def pointLocal (a : Word) (off : Int) (n : Nat) : Except (Nat × DWord) DWord :=
  if a.toNat / 2 ^ 30 = 3 then .error (0x12, localBase a) else pointAt (localBase a) off n

/-- The issue checks of R232: chip-local space, SERIAL 0 and host windows. -/
def State.regionCheck (s : State) (t : ThreadId) (p : DWord) (n : Nat) : Option Nat :=
  if birthOf p = 0xFFF then
    match serialOf p with
    | 0 => if offsetOf p + n ≤ (s.launchOf t.cohort).priv' then none else some 3
    | 1 => if s.ownsBytes t.cohort.toCore (s.partOf t.cohort) (offsetOf p) n then none else some 3
    | 2 => if offsetOf p + n > 0x10000 then some 3 else none
    | _ => some 0x12
  else if birthOf p = 0xFFE then
    if serialOf p ≤ 63 && (s.vf t.cohort.chip (s.cohort t.cohort).vf).hostWin.any (·.1 = serialOf p) then none else some 2
  else if serialOf p = 0 then some 2
  else none

/-- The issue checks of an access: those of R232, then the widths of the MMIO page's registers (R236). -/
def State.issueCheck (s : State) (t : ThreadId) (p : DWord) (n : Nat) : Option Nat :=
  match s.regionCheck t p n with
  | some c => some c
  | none =>
    if birthOf p = 0xFFF && serialOf p = 2 && (mmioWidth (offsetOf p)).any (· ≠ n) then some 0x12 else none

/-- Bytes of an access, by SIZE (R237). -/
def sizeOf' (code : Nat) : Nat := match code with | 0 => 4 | 1 => 1 | 2 => 2 | 3 => 8 | 4 => 16 | 5 => 1 | _ => 2

/-- A data register's bytes: one register, a pair or four (R237). -/
def Thread.group (x : Thread) (n k : Nat) : Nat :=
  if n = 255 then 0 else ((List.range k).map fun i => (x.reg (n + i)).toNat * 2 ^ (32 * i)).foldl (· + ·) 0
def Thread.data (x : Thread) (n size : Nat) : Nat := x.group n ((size + 3) / 4) % 2 ^ (8 * size)

/-- The line of a cistern pointer, where some line of the access is not present (R213). -/
def State.parkLine (s : State) (t : ThreadId) (p : DWord) (n : Nat) : Option Nat :=
  if isCistern p && !s.presentAll t.cohort.toCore (offsetOf p) n then some (offsetOf p / 128) else none

/-- An atomic that may not write (R263, R266). -/
def Access.conditional (a : Access) : Bool := a.kind = .atomic && 0xB7 ≤ a.code && a.code ≤ 0xBA

/-- Issues an access of a thread: its operation is entered, its request sent, and later writes follow a release (R177,
R239, R245). -/
def State.issueAccess (s : State) (b : Bundle) (t : ThreadId) (ctr : Nat) (a : Access) : State :=
  let (ph, s) := if isGlobal a.ptr then s.sendRequest t a.ptr else (.issued, s)
  let n := if a.kind = .store ∨ a.dst = 255 then 0 else (a.size + 3) / 4
  let o := { s.newOp b t (some ctr) (.access a) with dst := (List.range n).map (a.dst + ·), phase := ph }
  let (id, s) := s.addOp o
  if a.rel then s.modThread t (·.bar { level := a.scope, id := id + 1, know := o.know, cond := if a.conditional then some id else none }) else s

/-- The hold of a word that takes one outstanding request for each thread (R234). -/
def requestHold (s : State) (b : Bundle) (ts : List ThreadId) : Option Nat :=
  match ts with
  | t :: _ => if s.requestsFull t b.order ts.length then some 1 else none
  | [] => none

/-- A store to the MMIO page (R236), with the level of a release. The KICK register takes the holds of a KICK, a release of its
own included (R39, R239, R245). -/
def State.issueMmio (s : State) (b : Bundle) (t : ThreadId) (p : DWord) (n data : Nat) (rel : Option Nat) : Res :=
  if offsetOf p = 0 then
    if (s.thread t).dc 3 ≥ 63 || s.engineHeld t || (rel.any fun l => !s.earlierComplete t s.nextId l) then .held
    else s.kickRegisterStore b t (BitVec.ofNat 64 data)
  else
    let o := s.newOp b t (some 1) (.mmio (offsetOf p) (BitVec.ofNat 64 data) n rel)
    let (id, s) := s.addOp o
    .done (match rel with
      | some l => s.modThread t (·.bar { level := l, id := id + 1, know := o.know })
      | none => s)

/-- One of the eight access words (R237 to R239). -/
def State.accessWord (s : State) (i : Instr) (f : Fields) (store ordered wide : Bool) : Host.Outcome State Fault Refusal :=
  s.runThreads i requestHold fun _ b t s =>
    let x := s.thread t
    let code := f.sb.toNat % 8
    let n := sizeOf' code
    orTrap (if wide then (x.src64 f.sa).map fun p => pointAt p f.off n else (x.src32 f.sa).map fun a => pointLocal a f.off n) fun r =>
    match r with
    | .error (c, p) => .trap .memoryFault c p 0
    | .ok p =>
      match s.issueCheck t p n with
      | some c => .trap .memoryFault c p 0
      | none =>
        match s.parkLine t p n with
        | some l => .park s (.presence l p) false
        | none =>
          let scope := effScope (s.launchOf t.cohort).ladder (f.sb.toNat / 8 % 8)
          if store && birthOf p = 0xFFF && serialOf p = 2 then
            s.issueMmio b t p n (x.data f.dst.toNat n) (if ordered then some scope else none)
          else .done (s.issueAccess b t (if store then 1 else 0)
            { kind := if store then .store else .load, ptr := p, size := n, sext := code ≥ 5,
              data := if store then x.data f.dst.toNat n else 0, acq := ordered && !store, rel := ordered && store,
              scope := if ordered then scope else 0, dst := if store then 255 else f.dst.toNat })

/-- R237. -/
def execLd (f : Fields) (s : State) := s.accessWord (.ld f) f false false false
/-- R237. -/
def execSt (f : Fields) (s : State) := s.accessWord (.st f) f true false false
/-- R237. -/
def execLdo (f : Fields) (s : State) := s.accessWord (.ldo f) f false false true
/-- R237. -/
def execSto (f : Fields) (s : State) := s.accessWord (.sto f) f true false true
/-- R237, R239. -/
def execLdAcq (f : Fields) (s : State) := s.accessWord (.ldAcq f) f false true false
/-- R237, R239. -/
def execStRel (f : Fields) (s : State) := s.accessWord (.stRel f) f true true false
/-- R237, R239. -/
def execLdoAcq (f : Fields) (s : State) := s.accessWord (.ldoAcq f) f false true true
/-- R237, R239. -/
def execStoRel (f : Fields) (s : State) := s.accessWord (.stoRel f) f true true true

/-! ## Atomics (R259 to R266) -/

/-- The operand size of an atomic, by its opcode and control field (R262). -/
def atomSize (code ctl : Nat) : Nat := if code = 0xBA then 16 else if code = 0xBB then 128 else if ctl / 32 % 2 = 1 then 8 else 4

/-- The address checks of an atomic, in the order of R262. -/
def State.atomCheck (s : State) (t : ThreadId) (p : DWord) (n : Nat) : Option Nat :=
  if birthOf p = 0xFFE || (birthOf p = 0xFFF && serialOf p ≥ 2) then some 0x12
  else if offsetOf p % n ≠ 0 then some 0x10
  else s.issueCheck t p n

/-- The operand and the expected value of an atomic (R260); the operand of ATOM.ADD.F is an FP32 source (R54, R263). -/
def Thread.operand (x : Thread) (code : Nat) (f : Fields) (n : Nat) : Option (Nat × Nat) :=
  let g := f.sb.toNat
  match code with
  | 0xB7 => some (x.group (g + n / 4) (n / 4), x.group g (n / 4))
  | 0xBA => some (x.group (g + 4) 4, x.group g 4)
  | 0xBB => some (0, 0)
  | 0xB0 =>
    if n = 8 then (x.b64 f).map fun v => (v.toNat, 0)
    else (if f.ctl / 64 % 2 = 1 then x.bF f else x.b32 f).map fun v => (v.toNat, 0)
  | _ => if n = 8 then (x.b64 f).map fun v => (v.toNat, 0) else (x.b32 f).map fun v => (v.toNat, 0)

/-- The order class of an atomic and the level of its scope (R261, R266). -/
def Access.order (a : Access) (ladder ctl : Nat) : Access :=
  let o := ctl / 8 % 4
  { a with acq := o = 1 || o = 3, rel := o = 2 || o = 3, scope := if o = 0 then 0 else effScope ladder (ctl % 8) }

/-- One of the atomics but ATOM.TADD (R259 to R264). -/
def State.atomWord (s : State) (i : Instr) (f : Fields) (code : Nat) : Host.Outcome State Fault Refusal :=
  s.runThreads i requestHold fun s0 b t s =>
    let x := s.thread t
    let n := atomSize code f.ctl
    orTrap (s0.a64 b t f) fun p =>
    orTrap (x.operand code f n) fun (v, e) =>
    match s.atomCheck t p n with
    | some c => .trap .memoryFault c p 0
    | none =>
      match s.parkLine t p n with
      | some l => .park s (.presence l p) false
      | none =>
        let a : Access := { kind := .atomic, ptr := p, size := n, code := code, t := f.ctl / 64 % 2 = 1, data := v, cmp := e, dst := f.dst.toNat }
        .done (s.issueAccess b t (if f.dst = 255 then 1 else 0) (a.order (s.launchOf t.cohort).ladder f.ctl))

/-- R263. -/
def execAtomAdd (f : Fields) (s : State) := s.atomWord (.atomAdd f) f 0xB0
/-- R263. -/
def execAtomMin (f : Fields) (s : State) := s.atomWord (.atomMin f) f 0xB1
/-- R263. -/
def execAtomMax (f : Fields) (s : State) := s.atomWord (.atomMax f) f 0xB2
/-- R263. -/
def execAtomAnd (f : Fields) (s : State) := s.atomWord (.atomAnd f) f 0xB3
/-- R263. -/
def execAtomOr (f : Fields) (s : State) := s.atomWord (.atomOr f) f 0xB4
/-- R263. -/
def execAtomXor (f : Fields) (s : State) := s.atomWord (.atomXor f) f 0xB5
/-- R263. -/
def execAtomXchg (f : Fields) (s : State) := s.atomWord (.atomXchg f) f 0xB6
/-- R263. -/
def execAtomCas (f : Fields) (s : State) := s.atomWord (.atomCas f) f 0xB7
/-- R263. -/
def execAtomIncb (f : Fields) (s : State) := s.atomWord (.atomIncb f) f 0xB8
/-- R263. -/
def execAtomDecb (f : Fields) (s : State) := s.atomWord (.atomDecb f) f 0xB9
/-- R264. -/
def execAtomWcas (f : Fields) (s : State) := s.atomWord (.atomWcas f) f 0xBA

/-- Whether the thread's own stores to n bytes at a pointer have yet to take effect: a read of them at issue comes after
them (R245, R265). -/
def State.ownPending (s : State) (t : ThreadId) (p : DWord) (n : Nat) : Bool :=
  s.ops.any fun o => o.2.thread = t && !o.2.performed && o.2.meets p n

/-- The source of an ATOM.TADD: a 32-bit chip-local address in SERIAL 0 or 1, checked in the order of R262 (R260, R265). -/
def State.taddSource (s : State) (t : ThreadId) (a : Word) : Except (Nat × DWord) DWord :=
  if a.toNat / 2 ^ 30 ≥ 2 then .error (0x12, localBase a)
  else match pointLocal a 0 128 with
    | .error e => .error e
    | .ok q =>
      match s.issueCheck t q 128 with
      | some c => .error (c, q)
      | none => .ok q

/-- R265: the source is read at issue, in program order. -/
def execAtomTadd (f : Fields) (s : State) : Host.Outcome State Fault Refusal :=
  let hold := fun (s : State) (b : Bundle) (ts : List ThreadId) =>
    match requestHold s b ts with
    | some p => some p
    | none => if ts.any (fun t => match s.taddSource t ((s.thread t).reg f.sb.toNat) with
        | .ok q => s.ownPending t q 128
        | .error _ => false) then some 0 else none
  s.runThreads (.atomTadd f) hold fun s0 b t s =>
    let x := s.thread t
    orTrap (s0.a64 b t f) fun p =>
    match s.atomCheck t p 128 with
    | some c => .trap .memoryFault c p 0
    | none =>
      match s.taddSource t (x.reg f.sb.toNat) with
      | .error (c, q) => .trap .memoryFault c q 0
      | .ok q =>
        match s.parkLine t p 128, s.parkLine t q 128 with
        | some l, _ => .park s (.presence l p) false
        | none, some l => .park s (.presence l q) false
        | none, none =>
          match s.reach t q 128 false with
          | .place addr =>
            let a : Access := { kind := .atomic, ptr := p, size := 128, code := 0xBB, t := f.ctl / 64 % 2 = 1, data := s.loadNat addr 128 }
            let id := s.nextId
            let read := (s.viewSyncs t.cohort.toDie addr 128).filter fun r => r.know ≠ []
            let s' := (s.issueAccess b t 1 (a.order (s.launchOf t.cohort).ladder f.ctl)).modThread t fun x =>
              { x with seen := x.seen ++ read.map (id, ·) }
            if s.readFails addr 128 then
              -- the source's own failed line ends the operation before its request is sent
              match s'.op? id with
              | some o => .done (((s'.found addr 128).deferMemory id o 4 q).endOp id)
              | none => .done s'
            else .done s'
          | _ => .done s

/-- The pointer that an access, a cistern or engine word or an object word is about, as a thread's registers give it: a CEVICT.WB's
is its entry's (R386). -/
def State.wordPointer (s : State) (b : Bundle) (t : ThreadId) (i : Instr) (f : Fields) : DWord :=
  let x := s.thread t
  match i.opc with
  | some o =>
    if o = 0x80 ∨ o = 0x81 ∨ o = 0x84 ∨ o = 0x85 then
      match x.src32 f.sa with
      | some a => ptrAdd (localBase a) f.off
      | none => 0
    else if o = 0x8A then
      match x.src32 f.sb with
      | some v => BitVec.ofNat 64 (((s.cohort t.cohort).tags.getD (bitsOf v.toNat 11 0) {}).tag.toNat * 128)
      | none => 0
    else if o = 0xA0 then 0
    else
      match (if 0xA0 ≤ o ∧ o ≤ 0xBB then s.a64 b t f else x.src64 f.sa) with
      | some p => if o = 0x82 ∨ o = 0x83 ∨ o = 0x86 ∨ o = 0x87 ∨ o = 0x89 then ptrAdd p f.off else p
      | none => 0
  | none => 0

/-! ## Fences (R247, R250, R274) -/

/-- R274. -/
def execFence (f : Fields) (s : State) : Host.Outcome State Fault Refusal :=
  s.runThreads (.fence f) noHold fun _ b t s =>
    let id := s.nextId
    let fence : Fence := { id := id, kind := f.ctl / 8 % 4, level := effScope (s.launchOf t.cohort).ladder (f.ctl % 8)
                           know := (s.newOp b t none (.clock 255)).know }
    let s := { s with nextId := id + 1 }.modThread t fun x =>
      let y := if fence.kind = 1 then x else x.bar { level := fence.level, id := id, know := fence.know }
      { y with fences := x.fences ++ [fence] }
    .done (s.settleFences t)

/-! ## Requests and answers (R178, R179, R182) -/

/-- The home die of a request's page, where the chip is its holder and may perform it. -/
def State.servingDie (s : State) (id : Nat) (o : Op) (a : Access) (h : Nat) : Option Nat :=
  match s.obj? a.ptr with
  | none => none
  | some b =>
    let e := b.extents.getD (offsetOf a.ptr / 2 ^ b.log2) {}
    if s.mayPerform id o && e.holder = h && (e.state = .rest || e.state = .pending) then some (b.pages.getD (offsetOf a.ptr / 65536) {}).die else none

/-- R178: a request arrives at the chip it was sent to, where a path leads there; an array may report an error on the access, and a
flit that fails its check is dropped, counted and sent again (R367, R368, R410, R411). -/
def execAccessRequest (op : Nat) (upset : Upset) (s : State) : Host.Outcome State Fault Refusal :=
  .next (match s.op? op with
    | some o =>
      match o.body, o.phase with
      | .access a, .issued => if isCistern a.ptr && upset = .cistern then s.cisternUpset o a else s
      | .access a, .sent h hop last =>
        if (s.chip h).off.isSome || (s.pathDown o.thread.cohort.chip h).isSome then s else
        if upset = .flit then s.dropFlit o.thread.cohort.toDie h else
        let s := match s.servingDie op o a h with
          | some d => s.upsetAt o a h d upset
          | none => s
        if (s.op? op).isSome then s.arrive op o a h hop last else s
      | .access a, .queued => s.arriveQueued op o a
      | _, _ => s
    | none => s)

/-- R178: the Wellhead ends a request for a record that is FREE or a chip that no package is; else it forwards the request
to the extent's holder, or to the source of a move in progress until it has recorded the commit. -/
def execWellheadRequest (op : Nat) (s : State) : Host.Outcome State Fault Refusal :=
  .next (match s.op? op with
    | some o =>
      match o.body, o.phase with
      | .access a, .wellhead =>
        if !s.mayPerform op o || (s.chip (birthOf a.ptr)).off.isSome || (s.pathDown o.thread.cohort.chip (birthOf a.ptr)).isSome then s
        else match s.obj? a.ptr with
          | none => if (s.window? a.ptr).isSome then s.setOp op { o with phase := .sent (birthOf a.ptr) true true } else s.answer op o (.fault 2)
          | some b =>
            match b.extents[offsetOf a.ptr / 2 ^ b.log2]? with
            | none => s.answer op o (.fault 3)
            | some e =>
              let i := offsetOf a.ptr / 2 ^ b.log2
              let moved := s.moves.any fun m => m.2.obj = keyOf a.ptr && m.2.ext = i && m.2.acked
              s.setOp op { o with phase := .sent (if moved then e.dest else e.holder) true true }
      | _, _ => s
    | none => s)

/-- R179. -/
def execServed (op : Nat) (s : State) : Host.Outcome State Fault Refusal :=
  .next (match s.op? op with
    | some o =>
      match o.body, o.phase with
      | .access a, .answered (.served chip v know) =>
        if o.device.isSome then s.endOp op
        else if isGlobal a.ptr then (s.modDie o.thread.cohort.toDie fun d => d.install a.ptr chip).land op o a v know
        else s
      | _, _ => s
    | none => s)

/-- R179: the access goes to the Wellhead. -/
def execNoObject (op : Nat) (s : State) : Host.Outcome State Fault Refusal :=
  .next (match s.op? op with
    | some o => if o.phase = .answered .noObject then s.setOp op { o with phase := .wellhead } else s
    | none => s)

/-- R179, R232, R235: the access completes with a deferred memory fault. -/
def execFaultResponse (op : Nat) (s : State) : Host.Outcome State Fault Refusal :=
  .next (match s.op? op with
    | some o =>
      match o.body, o.phase with
      | .access a, .answered (.fault c) => if o.device.isSome then s.endOp op else ((s.settleBarrier o.thread op false).deferMemory op o c a.ptr).endOp op
      | _, _ => s
    | none => s)

/-- R179, R239: the request is sent again. -/
def execRetry (op : Nat) (s : State) : Host.Outcome State Fault Refusal :=
  .next (match s.op? op with
    | some o =>
      match o.body, o.phase with
      | .access a, .answered .retry =>
        if !s.opMoves op o then s
        else
          let (ph, s) := if o.device.isSome then (.wellhead, s) else s.sendRequest o.thread a.ptr
          s.setOp op { o with phase := ph }
      | _, _ => s
    | none => s)

/-- One request behind a walk that has completed: served by its holder; a free may have overtaken it. A move has its page's frame from
then on (R182, R183, R196). -/
def State.walked (s : State) (d : DieId) (page id : Nat) : State :=
  match s.op? id with
  | some o =>
    match o.body, o.phase with
    | .access a, .walking =>
      if (s.obj? a.ptr).isSome then (s.serve id o a d.chip).settleForwarded id a else s.answer id o (.fault 2)
    | _, _ => s
  | none => match s.move? id with
    | some m => { s with moves := s.moves.put id { m with walked := page :: m.walked } }
    | none => s

/-- Whether a page is homed on a die that may perform accesses to it (R176, R183). -/
def State.homed (s : State) (d : DieId) (page : Nat) : Bool :=
  match s.objects.get? (65536 * page / 2 ^ 52, 65536 * page / 2 ^ 30 % 2 ^ 22) with
  | some b =>
    let off := 65536 * page % 2 ^ 30
    let e := b.extents.getD (off / 2 ^ b.log2) {}
    e.holder = d.chip && (e.state = .rest || e.state = .pending) && (b.pages.getD (off / 65536) {}).die = d.die
  | none => false

/-- R182: the page's entry is cached, and the requests that wait on it are served in arrival order; the first page of the
miss queue takes the free walk. -/
def execTranslationWalk (d : DieId) (page : Nat) (s : State) : Host.Outcome State Fault Refusal :=
  let x := s.die d
  .next (match x.walks.find? (·.1 = page) with
    | none => s
    | some w =>
      let rest := x.walks.filter (·.1 ≠ page)
      let x := { x with walks := rest ++ x.misses.take 1, misses := x.misses.drop 1
                        cached := if s.homed d page then page :: x.cached.take 16383 else x.cached }
      w.2.foldl (fun s id => s.walked d page id) (s.setDie d x))

end Sys2Proof.Machine
end

