-- ==== Sys2Proof/Machine/Cistern.lean ====
section
/-! DEFINITION. The cistern's own words and steps: the tag table (R215, R216), CTAG, CFILL, CEVICT and CPRES (R240), and the
landing rings (R217 to R222, R236). -/

namespace Sys2Proof.Machine

/-! ## Tag entries (R215, R216) -/

def TagEntry.lines (e : TagEntry) : Nat := e.len.toNat + 1
/-- Whether an entry covers a pointer. -/
def TagEntry.covers (e : TagEntry) (p : DWord) : Bool :=
  e.valid && e.tag.toNat * 128 ≤ p.toNat && p.toNat < e.tag.toNat * 128 + 128 * e.lines
/-- The lowest entry that covers a pointer. -/
def Cohort.hit (c : Cohort) (p : DWord) : Option (Nat × TagEntry) :=
  ((List.range c.tags.length).map fun i => (i, c.tags.getD i {})).find? fun e => e.2.covers p

/-- What CTAG returns for a pointer (R240). -/
def State.tagLookup (s : State) (t : ThreadId) (p : DWord) : DWord :=
  match (s.cohort t.cohort).hit p with
  | none => 0x80000000
  | some (i, e) =>
    let d := p.toNat - e.tag.toNat * 128
    let away := (List.range e.lines).any fun j => !s.present t.cohort.toCore (e.line.toNat + j)
    BitVec.ofNat 64 (2 ^ 32 * (e.line.toNat * 128 + d) + i + (if away then 2 ^ 30 else 0))

/-- R240: the address is checked as R238 says but for its size; the result is in place for the next word. -/
def execCtag (f : Fields) (s : State) : Host.Outcome State Fault Refusal :=
  s.runThreads (.ctag f) noHold fun _ _ t s =>
    let x := s.thread t
    orTrap (x.src64 f.sa) fun p =>
    match pointAt p f.off 1 with
    | .error (c, q) => .trap .memoryFault c q 0
    | .ok q =>
      match s.regionCheck t q 1 with
      | some c => .trap .memoryFault c q 0
      | none => .done (s.setThread t (x.setPair f.dst.toNat (s.tagLookup t q)))

/-- R240: the presence bits of 32 lines from the address's line up. -/
def execCpres (f : Fields) (s : State) : Host.Outcome State Fault Refusal :=
  s.runThreads (.cpres f) noHold fun _ _ t s =>
    let x := s.thread t
    orTrap (x.src32 f.sa) fun a =>
    if a.toNat / 2 ^ 30 ≠ 1 then .trap .memoryFault 0x12 (localBase a) 0
    else
      match pointLocal a f.off 1 with
      | .error (c, q) => .trap .memoryFault c q 0
      | .ok q =>
        match s.regionCheck t q 1 with
        | some c => .trap .memoryFault c q 0
        | none =>
        let l := bitsOf (offsetOf q) 20 7
        let v := ((List.range 32).map fun i => if l + i < 12288 && s.present t.cohort.toCore (l + i) then 2 ^ i else 0).foldl (· + ·) 0
        .done (s.setThread t (x.setReg f.dst.toNat (BitVec.ofNat 32 v)))

/-! ## CFILL (R240) -/

/-- A CFILL's entry, lines and source, from its descriptor and pointer; or its precise trap. -/
def State.cfillOf (s : State) (t : ThreadId) (p : DWord) (d : Word) (off : Int) : Except (TrapKind × Nat × DWord) (Nat × Nat × Nat × DWord) :=
  let i := bitsOf d.toNat 11 0
  let n := bitsOf d.toNat 17 12 + 1
  let l := bitsOf d.toNat 31 18
  if i ≥ (s.cohort t.cohort).tags.length || !s.ownsBytes t.cohort.toCore (s.partOf t.cohort) (l * 128) (n * 128) then .error (.illegalOperand, 0, 0)
  else
    match pointAt p off 128 with
    | .error (c, q) => .error (.memoryFault, c, q)
    | .ok q =>
      if birthOf q = 0xFFF && serialOf q ≠ 0 then .error (.memoryFault, 0x12, q)
      else if offsetOf q + 128 * n > 2 ^ 30 then .error (.memoryFault, 0x11, q)
      else match s.issueCheck t q (128 * n) with
        | some c => .error (.memoryFault, c, q)
        | none => .ok (i, n, l, q)

/-- The CFILL that a thread's registers give. -/
def State.cfillFor (s : State) (t : ThreadId) (f : Fields) : Option (Except (TrapKind × Nat × DWord) (Nat × Nat × Nat × DWord)) :=
  let x := s.thread t
  (x.src64 f.sa).bind fun p => (x.src32 f.sb).map fun d => s.cfillOf t p d f.off

/-- R240: the entry describes the run, its lines are claimed, and their reads begin; the lines of all threads of the bundle take
entries together, and a thread whose claim would pass a count of 15 holds its bundle (R212, R234). -/
def execCfill (f : Fields) (s : State) : Host.Outcome State Fault Refusal :=
  let hold := fun (s : State) (b : Bundle) (ts : List ThreadId) =>
    let n := (ts.map fun t => match s.cfillFor t f with | some (.ok (_, n, _, _)) => n | _ => 0).foldl (· + ·) 0
    match ts with
    | t :: _ => if s.requestsFull t b.order n then some 1 else none
    | [] => none
  s.runThreads (.cfill f) hold fun _ b t s =>
    orTrap (s.cfillFor t f) fun r =>
    match r with
    | .error (k, c, q) => .trap k c q 0
    | .ok (i, n, l, q) =>
      let lines := (List.range n).map (l + ·)
      if s.claimHeld t t.cohort.toCore lines then .held
      else
        let e : TagEntry := { valid := true, tag := BitVec.ofNat 57 (q.toNat / 128), line := BitVec.ofNat 14 l, len := BitVec.ofNat 6 (n - 1) }
        let s := (s.modCohort t.cohort fun c => { c with tags := c.tags.set i e }).claimLines t.cohort.toCore lines
        .done (s.addOp (s.newOp b t (some 2) (.cfill { entry := i, line := l, ptr := q, left := lines, run := n }))).2

/-- Whether a pointer reaches a window, which a CFILL or CEVICT.WB may not (R375). -/
def State.windowAccess (s : State) (p : DWord) : Bool := isGlobal p && (s.obj? p).isNone && (s.window? p).isSome

/-- The first fault of a CFILL or CEVICT.WB is deferred to its dc2 wait. -/
def State.lineFault (s : State) (id : Nat) (o : Op) (l : LineOp) (cause : Nat) (p : DWord) : State :=
  if l.bad then s else s.deferMemory id o cause p

/-- R240: one line's read completes into the cistern, or faults and leaves it; its claim ends. -/
def execCfillLine (op : Nat) (line : Nat) (s : State) : Host.Outcome State Fault Refusal :=
  .next (match s.op? op with
    | some o =>
      match o.body with
      | .cfill l =>
        let t := o.thread
        let p := ptrAdd l.ptr (128 * ((line : Int) - l.line))
        if !l.left.contains line || !s.opMoves op o then s
        else if s.engineWaits t op p 128 false then s.engineWait t op false p 128 false
        else
          let s := s.giveUp op
          let left := l.left.filter (· ≠ line)
          let o := { o with know := s.engineHeard t p 128 o.know }
          let a := cisternAt t.cohort.toCore (line * 128)
          let (s, bad) := match if s.windowAccess p then .error 3 else s.engineRead t p 128 with
            | .ok bs => (((s.store a bs).addEdges a 128 o.allEdges).engineCount t p 128, l.bad)
            | .error c =>
              let s := (s.foundBy t p 128).lineFault op o l c p
              (s.modCohort t.cohort fun x => { x with tags := x.tags.modify l.entry fun e =>
                if e.tag.toNat = l.ptr.toNat / 128 && e.line.toNat = l.line then { e with valid := false } else e }, true)
          let s := s.unclaim t.cohort.toCore [line]
          if left = [] then s.endOp op else s.setOp op { o with body := .cfill { l with left := left, bad := bad } }
      | _ => s
    | none => s)

/-! ## CEVICT (R240) -/

/-- The entry that a CEVICT names. -/
def Thread.evictEntry (x : Thread) (f : Fields) : Option Nat := (x.src32 f.sb).map fun v => bitsOf v.toNat 11 0

/-- R240: the entry is invalid at issue. -/
def execCevict (f : Fields) (s : State) : Host.Outcome State Fault Refusal :=
  s.runThreads (.cevict f) noHold fun _ b t s =>
    orTrap ((s.thread t).evictEntry f) fun i =>
    if i ≥ (s.cohort t.cohort).tags.length then .trap .illegalOperand 0 0 0
    else
      let s := s.modCohort t.cohort fun c => { c with tags := c.tags.modify i fun e => { e with valid := false } }
      let (id, s) := s.addOp (s.newOp b t (some 2) (.cevict {}))
      .done (s.endOp id)

/-- R240: the entry is invalid at issue, and its run is written back. -/
def execCevictWb (f : Fields) (s : State) : Host.Outcome State Fault Refusal :=
  let entry := fun (s : State) (t : ThreadId) => ((s.thread t).evictEntry f).bind fun i => (s.cohort t.cohort).tags[i]?.map fun e => (i, e)
  let hold := fun (s : State) (b : Bundle) (ts : List ThreadId) =>
    let n := (ts.map fun t => match entry s t with | some (_, e) => e.lines | none => 0).foldl (· + ·) 0
    match ts with
    | t :: _ => if s.requestsFull t b.order n then some 1 else none
    | [] => none
  s.runThreads (.cevictWb f) hold fun _ b t s =>
    orTrap (entry s t) fun (i, e) =>
    if !e.valid then .trap .illegalOperand 0 0 0
    else
      let s := s.modCohort t.cohort fun c => { c with tags := c.tags.set i { e with valid := false } }
      .done (s.addOp (s.newOp b t (some 2)
        (.cevict { entry := i, line := e.line.toNat, ptr := BitVec.ofNat 64 (e.tag.toNat * 128),
                   left := (List.range e.lines).map (e.line.toNat + ·), run := e.lines }))).2

/-- Whether a write-back must wait to begin: for the thread's earlier cistern stores, or for a claim on the run (R240). -/
def State.evictHeld (s : State) (id : Nat) (o : Op) (l : LineOp) : Bool :=
  (s.ops.any fun p => p.2.thread = o.thread && p.1 < id && !p.2.performed && match p.2.body with
    | .access a => isCistern a.ptr && a.kind ≠ .load
    | _ => false)
  || l.left.any fun n => !s.present o.thread.cohort.toCore n

/-- R240: the next line of the run is read once and stored at its tagged pointer. -/
def execCevictWbLine (op : Nat) (s : State) : Host.Outcome State Fault Refusal :=
  .next (match s.op? op with
    | some o =>
      match o.body with
      | .cevict l =>
        match l.left with
        | [] => s
        | line :: left =>
          let t := o.thread
          let p := ptrAdd l.ptr (128 * ((line : Int) - l.line))
          let a := cisternAt t.cohort.toCore (line * 128)
          if (line = l.line && s.evictHeld op o l) || !s.opMoves op o then s.giveUp op
          else if s.engineWaits t op p 128 true then s.engineWait t op false p 128 true
          else
            let s := s.giveUp op
            let o := { o with know := join o.know (s.heardAt t a 128) }
            let r := if s.readFails a 128 then .error 4 else if s.windowAccess p then .error 3
              else s.engineWrite t p (s.loadBytes a 128) op o.allEdges
            let (s, bad) := match r with
              | .ok s => (s.engineCount t p 128 true, l.bad)
              | .error c => ((s.foundBy t p 128).lineFault op o l c p, true)
            let s := s.setOp op { o with body := .cevict { l with left := left, bad := bad } }
            if left = [] then s.endOp op else s
      | _ => s
    | none => s)

/-! ## Landing rings (R217 to R222, R236) -/

/-- The ring that an MMIO offset belongs to. -/
def ringOf (off : Nat) : Nat := (off - 0x100) / 0x40
/-- The lines of slot n of a ring. -/
def Ring.slotLines (r : Ring) (n : Nat) : List Nat := (List.range r.lines).map (r.base + n % r.slots * r.lines + ·)
/-- All lines of a ring. -/
def Ring.allLines (r : Ring) : List Nat := (List.range (r.slots * r.lines)).map (r.base + ·)
/-- The slots of a ring that are armed: those that no frame fills (R222). -/
def Ring.armed (r : Ring) : List Nat :=
  (List.range (r.slots - (r.prod - r.cons).toNat)).flatMap fun i => r.slotLines ((r.prod + BitVec.ofNat 32 i).toNat)
/-- The fields of LRCFG that a write sets (R7, R236). -/
def ringMask : DWord := 0x80FF03FF00003FFF

/-- Whether a write may enable a ring of an owner (R236). -/
def State.ringAllowed (s : State) (c : CoreId) (part n : Nat) (v : DWord) : Bool :=
  let r : Ring := { cfg := v }
  let sl := bitsOf v.toNat 55 48
  !((s.core c).ring part n).enabled && 1 ≤ sl && sl ≤ 63
    && s.ownsBytes c part (r.base * 128) (r.slots * r.lines * 128)
    && !(s.core c).rings.any fun q => q.1 ≠ (part, n) && q.2.enabled
        && r.base < q.2.base + q.2.slots * q.2.lines && q.2.base < r.base + r.slots * r.lines

/-- An operation that is a store to an MMIO register whose turn has come. -/
def State.mmioStore (s : State) (op : Nat) : Option (Op × Nat × DWord) :=
  match s.op? op with
  | some o => match o.body with
    | .mmio off v _ _ => if s.mayPerform op o then some (o, off, v) else none
    | _ => none
  | none => none

/-- R222: a write that enables a ring arms every slot and zeroes its counts; one that R236 refuses is ignored. -/
def execLrcfgEnable (op : Nat) (s : State) : Host.Outcome State Fault Refusal :=
  .next (match s.mmioStore op with
    | some (o, off, v) =>
      if !(0x100 ≤ off && off < 0x200 && off % 0x40 = 0) || !v.getLsbD 63 then s
      else
        let c := o.thread.cohort.toCore
        let part := s.partOf o.thread.cohort
        let n := ringOf off
        let cfg := v &&& ringMask
        if !s.ringAllowed c part n cfg then s.endOp op
        else
          let r : Ring := { (s.core c).ring part n with cfg := cfg, prod := 0, cons := 0 }
          if s.claimFull c r.allLines then s
          else ((s.claimLines c r.allLines).modCore c fun x => x.setRing part n r).endOp op
    | none => s)

/-- Disables a ring: the claims of its armed slots end without a write (R222). -/
def State.disableRing (s : State) (c : CoreId) (part n : Nat) (cfg : DWord) : State :=
  let r := (s.core c).ring part n
  let s := if r.enabled then s.unclaim c r.armed else s
  s.modCore c fun x => x.setRing part n { r with cfg := cfg }

/-- R222: a write with ENABLE clear disables the ring where it is enabled, and sets the other fields. -/
def execLrcfgDisable (op : Nat) (s : State) : Host.Outcome State Fault Refusal :=
  .next (match s.mmioStore op with
    | some (o, off, v) =>
      if !(0x100 ≤ off && off < 0x200 && off % 0x40 = 0) || v.getLsbD 63 then s
      else (s.disableRing o.thread.cohort.toCore (s.partOf o.thread.cohort) (ringOf off) (v &&& ringMask)).endOp op
    | none => s)

/-- R221: slots are returned, as far as LRPROD, and armed again. -/
def execLrconsWrite (op : Nat) (s : State) : Host.Outcome State Fault Refusal :=
  .next (match s.mmioStore op with
    | some (o, off, v) =>
      if !(0x100 ≤ off && off < 0x200 && off % 0x40 = 0x14) then s
      else
        let c := o.thread.cohort.toCore
        let part := s.partOf o.thread.cohort
        let n := ringOf off
        let r := (s.core c).ring part n
        let d := min (v.setWidth 32 - r.cons : Word).toNat (r.prod - r.cons).toNat
        let lines := if r.enabled then (List.range d).flatMap fun i => r.slotLines (r.cons + BitVec.ofNat 32 i).toNat else []
        if s.claimFull c lines then s
        else ((s.claimLines c lines).modCore c fun x => x.setRing part n { r with cons := r.cons + BitVec.ofNat 32 d }).endOp op
    | none => s)

/-- The landing header's fields: die, core, ring, sequence number, and whether it is well formed (R218). -/
def landingHeader (bs : List Byte) : Option (Nat × Nat × Nat × Nat × Bool) :=
  match bs with
  | b0 :: b1 :: b2 :: b3 :: _ :: _ :: _ :: _ :: _ =>
    some (b0.toNat % 4, b1.toNat, b2.toNat % 4, ofBytesLE ((bs.drop 4).take 4), b0.toNat < 4 && b1.toNat < 48 && b2.toNat < 4 && b3 = 0)
  | _ => none

/-- A frame fills the next slot of a ring (R219): payload lines, then the header line, then the count. -/
def State.landFrame (s : State) (c : CoreId) (part n : Nat) (f : Frame) (seq : Nat) : State :=
  let ns := s.ns c.chip
  let r := (s.core c).ring part n
  let base := (r.base + r.prod.toNat % r.slots * r.lines) * 128
  let payload := f.data.drop 8
  let room := 128 * (r.lines - 1)
  let hdr := bytesLE 6 (ns / 10 ^ 9) ++ bytesLE 4 (ns % 10 ^ 9) ++ bytesLE 1 f.port ++ bytesLE 1 (if payload.length > room then 1 else 0)
    ++ bytesLE 4 payload.length ++ bytesLE 4 seq ++ bytesLE 108 0
  let s := (s.store (cisternAt c (base + 128)) (payload.take room)).store (cisternAt c base) hdr
  (s.unclaim c (r.slotLines r.prod.toNat)).modCore c fun x => x.setRing part n { r with prod := r.prod + 1 }

/-- R218: a checked frame whose UDP port is that of an enabled function is steered to the ring that its owner holds, or
dropped and counted. Other frames are the host's. -/
def execFrameReceived (chip : Nat) (frame : Frame) (s : State) : Host.Outcome State Fault Refusal :=
  .next (
    match (s.chip chip).vfs.find? fun v => v.2.enable && v.2.lport ≠ 0 && v.2.lport = frame.udpPort with
    | none => s
    | some (_, v) =>
      if !frame.checked then s
      else match landingHeader frame.data with
        | none => s
        | some (d, k, n, seq, good) =>
          let c : CoreId := ⟨chip, d, k⟩
          if k ≥ 48 || s.share c v.part = [] then s
          else
            let r := (s.core c).ring v.part n
            if good && r.enabled && (r.prod - r.cons).toNat < r.slots then s.landFrame c v.part n frame seq
            else s.modCore c fun x => x.setRing v.part n { r with drop := satInc r.drop })

end Sys2Proof.Machine
end

