-- ==== Sys2Proof/Machine/Objects.lean ====
section
/-! DEFINITION. The object space: the ten object instructions (R197 to R207), the Wellhead's handling of their requests
(R175), moves of extents (R187 to R192), splits, pins, groups and stubs (R181, R193 to R196, R205), and the policy (R184 to R186). -/

namespace Sys2Proof.Machine

/-! ## Issue (R197, R199) -/

/-- Issues an object instruction of a thread. -/
def State.issueObj (s : State) (b : Bundle) (t : ThreadId) (o : ObjOp) : State :=
  let n := if o.dst = 255 then 0 else if o.wide then 2 else 1
  (s.addOp { s.newOp b t (some 5) (.obj { o with die := t.cohort.die }) with dst := (List.range n).map (o.dst + ·) }).2

/-- An object word: its pointers must be global and name a serial, and its value must keep its limit; then it is issued. -/
def State.objWord (s : State) (i : Instr) (f : Fields) (code : ObjCode) (wide : Bool)
    (operand : Thread → Option (DWord × Bool)) : Host.Outcome State Fault Refusal :=
  s.runThreads i requestHold fun s0 b t s =>
    orTrap (if code = .alloc then some 0 else s0.a64 b t f) fun p =>
    orTrap (operand (s.thread t)) fun (v, ok) =>
    if (code ≠ .alloc && !namesObject p) || !ok then .trap .illegalOperand 0 0 0
    else .done (s.issueObj b t { code := code, ptr := p, b := v, ctl := f.ctl, dst := f.dst.toNat, wide := wide })

/-- No second operand. -/
def noOperand (_ : Thread) : Option (DWord × Bool) := some (0, true)

/-- R200. -/
def execOalloc (f : Fields) (s : State) : Host.Outcome State Fault Refusal :=
  s.objWord (.oalloc f) f .alloc true fun x => (x.b32 f).map fun v => (v.setWidth 64, v ≠ 0 && v.toNat ≤ 2 ^ 30)
/-- R201. -/
def execOfree (f : Fields) (s : State) := s.objWord (.ofree f) f .free false noOperand
/-- R201. -/
def execOpin (f : Fields) (s : State) := s.objWord (.opin f) f .pin false noOperand
/-- R201. -/
def execOunpin (f : Fields) (s : State) := s.objWord (.ounpin f) f .unpin false noOperand
/-- R202. -/
def execOcoloc (f : Fields) (s : State) : Host.Outcome State Fault Refusal :=
  s.objWord (.ocoloc f) f .coloc false fun x => (x.src64 f.sb).map fun v => (v, namesObject v)
/-- R202. -/
def execOcolocLeave (f : Fields) (s : State) := s.objWord (.ocolocLeave f) f .leave false noOperand
/-- R203. -/
def execOlocate (f : Fields) (s : State) := s.objWord (.olocate f) f .locate false noOperand
/-- R203. -/
def execOlocateGuess (f : Fields) (s : State) := s.objWord (.olocateGuess f) f .locate false noOperand
/-- R204. -/
def execOmigrate (f : Fields) (s : State) : Host.Outcome State Fault Refusal :=
  s.objWord (.omigrate f) f .migrate false fun x => (x.b32 f).map fun v => (v.setWidth 64, v.toNat < 0xFFE)
/-- R205. -/
def execOsplit (f : Fields) (s : State) : Host.Outcome State Fault Refusal :=
  s.objWord (.osplit f) f .split false fun x => (x.b32 f).map fun v => (v.setWidth 64, 21 ≤ v.toNat && v.toNat ≤ 29)
/-- R206. -/
def execOstubfree (f : Fields) (s : State) := s.objWord (.ostubfree f) f .stubfree false noOperand
/-- R207. -/
def execOinfo (f : Fields) (s : State) := s.objWord (.oinfo f) f .info true noOperand

/-! ## Results (R198) -/

/-- The result of an object instruction lands, and dc5 falls. -/
def State.landObj (s : State) (id : Nat) (o : Op) (b : ObjOp) (v : Nat) : State :=
  ((if b.code = .alloc || b.code = .locate && b.ctl = 1 then s else s.crossLink o.thread.cohort.toDie ⟨birthOf b.ptr, 0⟩ 1 1).modThread o.thread fun x => x.setRegs b.dst (if b.wide then 2 else 1) v).endOp id
/-- A status and the low bits of a 32-bit result; a 64-bit failure. -/
def statusWord (status low : Nat) : Nat := 2 ^ 28 * status + low
def failWide (status : Nat) : Nat := 2 ^ 32 * 0xFFFFFFFF + 2 ^ 28 * status
def ObjOp.fail (b : ObjOp) (status : Nat) : Nat := if b.wide then failWide status else statusWord status 0

/-! ## Records (R170, R175, R194) -/

/-- Whether a serial of a chip is in use (R170). -/
def State.serialUsed (s : State) (c n : Nat) : Bool :=
  (s.objects.get? (c, n)).isSome || (s.chip c).grants.any fun g => g.2.state ≠ .idle && g.2.serial = n
/-- The first free serial from n, cyclically, in at most k tries. -/
def State.serialFrom (s : State) (c : Nat) : Nat → Nat → Option Nat
  | 0, _ => none
  | k + 1, n =>
    let n := if n > 0x3FFFFF ∨ n = 0 then 1 else n
    if s.serialUsed c n then s.serialFrom c k (n + 1) else some n
/-- The next serial of a chip, and the state with it taken (R170). -/
def State.takeSerial (s : State) (c : Nat) : Option (Nat × State) :=
  (s.serialFrom c 0x3FFFFF (s.chip c).nextSerial).map fun n => (n, s.modChip c fun h => { h with nextSerial := n + 1 })

/-- Zeroes a range of memory: bytes, failure marks, late stores and edges there are gone (R173, R196). -/
def State.wipe (s : State) (a n : Nat) : State :=
  let s := s.expose [] [(a, n)]
  { s with mem := Memory.clear s.mem a n
           failed := s.failed.filter fun l => !(a ≤ l * 64 && l * 64 < a + n)
           syncs := (s.syncs.filter fun r => !(r.line && r.at' a n)).flatMap fun r => r.cut a n }

/-- A new object of a function, every page zeroed on one die of its chip; none without a serial or frames (R200). -/
def State.newObject (s : State) (c die vf size log2 : Nat) : Option (Nat × State) :=
  let pages := (size + 65535) / 65536
  match s.allocFrames ⟨c, die⟩ (s.vf c vf).part vf pages with
  | none => none
  | some (fs, s) =>
    match s.takeSerial c with
    | none => none
    | some (n, s) =>
      let o : Obj := { chip := c, vf := vf, realm := (s.vf c vf).realm, size := 65536 * pages, log2 := log2,
                       extents := List.replicate ((65536 * pages + 2 ^ log2 - 1) / 2 ^ log2) { holder := c }
                       pages := fs.map fun f => { die := die, frame := f } }
      some (n, (s.wipe (mkPtr c n 0).toNat (65536 * pages)).setObj (c, n) o)

/-- Frees an object: its frames at their holders, its bytes, its stubs with its record, its line pins and its group (R194, R196). -/
def State.freeObject (s : State) (k : Nat × Nat) : State :=
  match s.objects.get? k with
  | none => s
  | some o =>
    let base := (mkPtr k.1 k.2 0).toNat
    let s := ((List.range o.pages.length).foldl (fun s i =>
      let p := o.pages.getD i {}
      let d : DieId := ⟨o.holderOf i, p.die⟩
      (s.freeFrames d [p.frame]).modDie d fun x => { x with cached := x.cached.filter (· ≠ (base / 65536 + i)) }) s).wipe base o.size
    let s := { s with objects := Tab.del s.objects k
                      pins := s.pins.keep fun l _ => !(base ≤ l * 128 && l * 128 < base + o.size) }
    if o.group = some k then { s with objects := s.objects.map fun _ (b : Obj) => if b.group = some k then { b with group := none } else b } else s

/-- The members of an object's group, the object alone without one (R194). -/
def State.groupOf (s : State) (k : Nat × Nat) (o : Obj) : List ((Nat × Nat) × Obj) :=
  match o.group with
  | none => [(k, o)]
  | some g => s.objects.filter fun b => b.2.group = some g

/-- Whether a move, split or free of an object is in progress (R198). -/
def State.objBusy (s : State) (k : Nat × Nat) (o : Obj) : Bool :=
  o.state = .freeing || o.extents.any (fun e => e.state ≠ .rest) || s.moves.any fun m => m.2.obj = k
/-- Whether a move of an object is in progress, or requests that it forwarded are (R189, R193). -/
def State.objMoving (s : State) (k : Nat × Nat) (o : Obj) : Bool :=
  o.extents.any (fun e => e.state ≠ .rest || e.fwd ≠ []) || s.moves.any fun m => m.2.obj = k

/-! ## Moves (R187, R192, R204) -/

/-- Migration queue entries that a partition of a package holds (R192). -/
def State.movesOf (s : State) (chip p : Nat) : Nat := (s.moves.filter fun m => m.2.src = chip && m.2.part = p && m.2.held.isNone).length
/-- Whether an entry is free for a partition: its reserve of 8, or the shared 160 (R192). -/
def State.entryFree (s : State) (chip p : Nat) : Bool :=
  decide (s.movesOf chip p < 8)
  || decide (((List.range 12).map fun q => s.movesOf chip q - 8).foldl (· + ·) 0 < 160)

/-- The function of a package that a realm's objects belong to there: enabled, keyed and of the realm (R369). -/
def State.realmVf (s : State) (chip : Nat) (realm : Word) : Option Nat :=
  ((s.chip chip).vfs.find? fun v => v.2.realm = realm && v.2.enable && v.2.keyed).map (·.1)

/-- Whether moving an extent to a chip would leave a fifth stub site (R181). -/
def Extent.stubLimit (e : Extent) (dest : Nat) : Bool := (e.stubs.filter fun x => x.1 ≠ dest).length + 1 > 4

/-- The extents of a list that a move to a chip concerns: those it does not hold. -/
def State.toMove (s : State) (l : List ((Nat × Nat) × Nat)) (dest : Nat) : List ((Nat × Nat) × Nat) :=
  l.filter fun x => match s.objects.get? x.1 with | some o => (o.extents.getD x.2 {}).holder ≠ dest | none => false

/-- The pages of extent i. -/
def Obj.pagesOf (o : Obj) (i : Nat) : List Nat := (List.range o.pages.length).filter fun p => 65536 * p / 2 ^ o.log2 = i

/-- Accepts a move of extents: each takes a queue entry and is PENDING, or waits for an entry (R187, R192). DESIGN CHOICE (log 57):
the entries are the source package's, under the issuer's partition number. -/
def State.acceptMoves (s : State) (l : List ((Nat × Nat) × Nat)) (dest vf p : Nat) (op : Option Nat) (who : Nat × Nat) : State :=
  let first := s.nextId
  l.foldl (fun s x =>
    match s.objects.get? x.1 with
    | none => s
    | some o =>
      let e := o.extents.getD x.2 {}
      let free := s.entryFree e.holder p && !s.moves.any fun m => m.2.src = e.holder && m.2.part = p && m.2.held.isSome
      let m : Move := { obj := x.1, ext := x.2, src := e.holder, dest := dest, op := op, part := p, vf := vf, batch := first, who := who,
                        held := if free then none else some s.now }
      let s := { s with nextId := s.nextId + 1, moves := s.moves.put s.nextId m }
      if free then s.modExtent x.1 x.2 fun e => { e with state := .pending, dest := dest } else s) s

/-- Reserves frames for every move of a group at its acceptance, on the first die of the destination that has them (R194). -/
def State.reserveAll (s : State) : List (Nat × Move) → Option State
  | [] => some s
  | (i, m) :: l =>
    match s.objects.get? m.obj with
    | none => s.reserveAll l
    | some o =>
      let n := (o.pagesOf m.ext).length
      match (List.range 4).findSome? fun d => (s.allocFrames ⟨m.dest, d⟩ (s.vf m.dest m.vf).part m.vf n).map fun r => (d, r) with
      | none => none
      | some (d, fs, s) => { s with moves := s.moves.put i { m with die := d, frames := fs, ready := true } }.reserveAll l

/-- The first refusal of a move of whole objects or one extent, in the order of R204; or the state with it accepted. DESIGN CHOICE
(log 57): the stub limit of every extent is tested at acceptance, so it refuses the whole move. -/
def State.tryMove (s : State) (objs : List ((Nat × Nat) × Obj)) (l : List ((Nat × Nat) × Nat)) (realm : Word) (dest p : Nat) (op : Option Nat)
    (who : Nat × Nat) : Except Nat State :=
  if !s.chipExists dest then .error 1
  else if objs.any fun o => o.2.pins ≠ 0 then .error 3
  else if objs.any fun o => s.objBusy o.1 o.2 then .error 4
  else
    match s.realmVf dest realm with
    | none => .error 6
    | some vf =>
      let l := s.toMove l dest
      if l.any fun x => match s.objects.get? x.1 with | some o => (o.extents.getD x.2 {}).stubLimit dest | none => false then .error 5
      else
        let first := s.nextId
        let s := s.acceptMoves l dest vf p op who
        if objs.all fun o => o.2.group.isNone then .ok s
        else match s.reserveAll (List.filter (fun (m : Nat × Move) => m.1 ≥ first) s.moves) with
          | some s => .ok s
          | none => .error 2

/-- Every extent of an object. -/
def allExtents (o : (Nat × Nat) × Obj) : List ((Nat × Nat) × Nat) := (List.range o.2.extents.length).map fun i => (o.1, i)

/-- The moves of an operation that are still to do. -/
def State.movesLeft (s : State) (op : Nat) : Bool := s.moves.any fun m => m.2.op = some op

/-- The move of an extent, with its object. -/
def State.moveOf (s : State) (mv : Nat) : Option (Move × Obj) := (s.move? mv).bind fun m => (s.objects.get? m.obj).map fun o => (m, o)

/-- Requests of an extent that wait for walks at its source when the move enters COPYING: the queue takes them (R182, R183, R188). -/
def State.walksToQueue (s : State) (m : Move) (pgs : List Nat) : State :=
  let clear := fun (s : State) d => s.modDie ⟨m.src, d⟩ fun x =>
    let keep := fun (w : Nat × List Nat) => !pgs.contains w.1
    let w := x.walks.filter keep ++ x.misses.filter keep
    { x with walks := w.take 64, misses := w.drop 64, cached := x.cached.filter fun p => !pgs.contains p }
  let waiting := (List.range 4).flatMap fun d =>
    ((s.die ⟨m.src, d⟩).walks ++ (s.die ⟨m.src, d⟩).misses).flatMap fun w => if pgs.contains w.1 then w.2 else []
  waiting.foldl (fun s id => match s.op? id, s.objects.get? m.obj with
    | some { phase := .walking, .. }, some b => match s.op? id with
      | some o => s.enqueue id { o with phase := .sent m.src true true } m.obj m.ext b
      | none => s
    | _, _ => if s.ops.any fun p => (p.2.places p.1).contains id then s.joinQueue id m.obj m.ext else s) ((List.range 4).foldl clear s)

/-- The copy of an extent begins: its move, and with it those of its group, are not given up any more; the source's page entries are
invalid, its dirty L2 lines are written back, and its queue opens (R183, R187, R194). -/
def State.beginCopy (s : State) (m : Move) (o : Obj) : State :=
  let pages := o.pagesOf m.ext
  let whole := o.group.isSome
  let s := { s with moves := s.moves.map fun _ (n : Move) =>
    if (n.obj = m.obj && n.ext = m.ext) || (whole && n.batch = m.batch) then { n with going := true } else n }
  let s := (List.range 4).foldl (fun s d =>
    let fs := (pages.filter fun p => (o.pages.getD p {}).die = d).map fun p => (o.pages.getD p {}).frame
    s.cleanLines ⟨m.src, d⟩ fun l => fs.contains (l / 512)) s
  (s.modExtent m.obj m.ext fun e => { e with state := .copying }).walksToQueue m (pages.map fun p => (mkPtr m.obj.1 m.obj.2 0).toNat / 65536 + p)

/-- R192, R187: a waiting move takes an entry; the destination reserves frames on a die; and, with no line of the extent
pinned, the move enters COPYING (R191). DESIGN CHOICE (log 57): the
pages of a moved extent lie on one die of the destination. -/
def execFramesReserved (mv : Nat) (die : Nat) (s : State) : Host.Outcome State Fault Refusal :=
  .next (match s.moveOf mv with
    | none => s
    | some (m, o) =>
      if m.held.isSome then
        if s.entryFree m.src m.part && !s.moves.any fun n => n.1 < mv && n.2.src = m.src && n.2.part = m.part && n.2.held.isSome then
          { s with moves := s.moves.put mv { m with held := none } }.modExtent m.obj m.ext fun e => { e with state := .pending, dest := m.dest }
        else s
      else
        let e := o.extents.getD m.ext {}
        if e.state ≠ .pending then s
        else
          let r := if m.ready then some (m, s) else
            (s.allocFrames ⟨m.dest, die⟩ (s.vf m.dest m.vf).part m.vf (o.pagesOf m.ext).length).map fun (fs, s) =>
              ({ m with die := die, frames := fs, ready := true }, s)
          match r with
          | none => s
          | some (m, s) =>
            let s := { s with moves := s.moves.put mv m }
            let base := (mkPtr m.obj.1 m.obj.2 (m.ext * 2 ^ o.log2)).toNat
            let pinned := s.pins.any fun l => base ≤ l.1 * 128 && l.1 * 128 < base + 2 ^ o.log2
            if pinned || e.fwd ≠ [] then s else s.beginCopy m o)

/-- R187: no die of the destination has the frames; the extent is at REST again, and the move's status is NO_MEMORY. -/
def execFramesRefused (mv : Nat) (s : State) : Host.Outcome State Fault Refusal :=
  .next (match s.moveOf mv with
    | none => s
    | some (m, o) =>
      let n := (o.pagesOf m.ext).length
      if m.held.isSome || m.ready || (List.range 4).any fun d => (s.allocFrames ⟨m.dest, d⟩ (s.vf m.dest m.vf).part m.vf n).isSome then s
      else
        let s := { s with moves := Tab.del s.moves mv }.modExtent m.obj m.ext fun e => { e with state := .rest, dest := 0 }
        match m.op.bind s.op? with
        | some q => match q.body with
          | .obj b => s.setOp (m.op.getD 0) { q with body := .obj { b with status := if b.status = 0 then 2 else b.status } }
          | _ => s
        | none => s)

/-- One line of memory, j, that a move carries to a line of its destination: read under the source's key and counters and written there
under the destination's own; one that fails its check is written with its failure mark (R187, R367, R369). -/
def State.carryLine (s : State) (dst : DieId) (line j : Nat) : State :=
  let bad := s.lineFails j
  let s := (if bad then s.found (j * 64) 64 else s).encryptLine dst line (Memory.readBytes s.mem (j * 64) 64)
  if bad then s.spoilLine dst line else s
/-- The lines of a page that the source's DRAM holds, carried to a frame of the destination over the links (R12, R187, R369). -/
def State.carryPage (s : State) (m : Move) (o : Obj) (page frame : Nat) : State :=
  let p := o.pages.getD page {}
  let src : DieId := ⟨m.src, p.die⟩
  let first := ((mkPtr m.obj.1 m.obj.2 0).toNat + 65536 * page) / 64
  let lines := (List.filter (fun (l : Nat × DramLine) => l.1 / 1024 = p.frame) (s.die src).lines).map (·.1 % 1024)
  (lines.foldl (fun s l => s.carryLine ⟨m.dest, m.die⟩ (frame * 1024 + l) (first + l)) s).crossLink src ⟨m.dest, m.die⟩ 65536 1

/-- R187: the Barge engine translates every page of the extent, as the accesses of its die do (R182), and carries its lines; then the
commit is sent. -/
def execCopyDoneCommit (mv : Nat) (s : State) : Host.Outcome State Fault Refusal :=
  .next (match s.moveOf mv with
    | some (m, o) =>
      let pages := o.pagesOf m.ext
      let base := (mkPtr m.obj.1 m.obj.2 0).toNat / 65536
      let left := pages.filter fun p => !m.walked.contains (base + p)
      if (o.extents.getD m.ext {}).state ≠ .copying || (s.pathDown m.src m.dest).isSome then s
      else if left ≠ [] then left.foldl (fun s p => s.modDie ⟨m.src, (o.pages.getD p {}).die⟩ fun x => x.walkFor (base + p) mv) s
      else
        let s := (List.range pages.length).foldl (fun s i => s.carryPage m o (pages.getD i 0) (m.frames.getD i 0)) s
        s.modExtent m.obj m.ext fun e => { e with state := .committing }
    | none => s)

/-- R187: the Wellhead records the destination as holder and acknowledges. -/
def execWellheadCommit (mv : Nat) (s : State) : Host.Outcome State Fault Refusal :=
  .next (match s.moveOf mv with
    | some (m, o) => if (o.extents.getD m.ext {}).state = .committing then { s with moves := s.moves.put mv { m with acked := true } } else s
    | none => s)

/-- Whether a request that the Wellhead forwarded to the source has yet to reach it: the acknowledgement comes after (R180). -/
def State.forwarding (s : State) (m : Move) (o : Obj) : Bool :=
  s.ops.any fun p => match p.2.body, p.2.phase with
    | .access a, .sent h _ true => h = m.src && keyOf a.ptr = m.obj && offsetOf a.ptr / 2 ^ o.log2 = m.ext && p.2.held.isNone && s.mayPerform p.1 p.2
    | _, _ => false

/-- The back-pressured requests of an extent leave its source when it commits: one that the Wellhead forwarded goes on to the
destination, the others come to the source's stub (R180, R188). -/
def State.sendOn (s : State) (m : Move) (o : Obj) : State :=
  let s := match s.objects.get? m.obj with
    | some b => s.setObj m.obj { b with waiting := b.waiting.filter fun w => w.2 ≠ m.ext }
    | none => s
  (o.waiting.filter fun w => w.2 = m.ext).foldl (fun s w => let i := w.1; match s.op? i with
    | some q => match q.phase with
      | .sent _ hop last => s.setOp i { q with phase := .sent (if last then m.dest else m.src) hop last, held := none }
      | _ => s
    | none => s) s

/-- R187, R189: the destination holds the extent, with counters at zero, and performs the queued requests first; the
source is a stub and its frames are free. -/
def execCommitAck (mv : Nat) (s : State) : Host.Outcome State Fault Refusal :=
  .next (match s.moveOf mv with
    | some (m, o) =>
      if !m.acked || s.forwarding m o then s
      else
        let pgs := o.pagesOf m.ext
        let s := pgs.foldl (fun s p => s.freeFrames ⟨m.src, (o.pages.getD p {}).die⟩ [(o.pages.getD p {}).frame]) s
        let e := o.extents.getD m.ext {}
        let e : Extent := { holder := m.dest, state := .rest, dest := 0, stubs := (e.stubs.filter fun x => x.1 ≠ m.dest) ++ [(m.src, m.dest)],
                            fwd := e.queue }
        let pages := (List.range o.pages.length).map fun p =>
          if pgs.contains p then ({ die := m.die, frame := m.frames.getD ((pgs.takeWhile (· ≠ p)).length) 0 } : Page) else o.pages.getD p {}
        let extents := o.extents.set m.ext e
        let s := { s with moves := Tab.del s.moves mv }.setObj m.obj
          { o with extents := extents, pages := pages, summary := o.summary.filter fun c => extents.any fun e => e.holder = c }
        pgs.foldl (fun s p => s.dirtyPage m.obj p) (s.sendOn m o)
    | none => s)

/-! ## The Wellhead (R175, R200 to R207) -/

/-- The first two checks of R201: the record and its owner; a window pointer gives ACCESS (R374). -/
def State.objCheck (s : State) (t : ThreadId) (p : DWord) : Except Nat Obj :=
  match s.obj? p with
  | none => .error (if (s.window? p).isSome then 6 else 1)
  | some o => if o.realm ≠ s.realmOf t.cohort then .error 6 else .ok o

/-- OLOCATE's answer from the Wellhead's record (R203). -/
def State.locate (s : State) (p : DWord) (o : Obj) : Nat :=
  let i := min (offsetOf p / 2 ^ o.log2) (o.extents.length - 1)
  let e := o.extents.getD i {}
  match s.moves.find? fun m => m.2.obj = keyOf p && m.2.ext = i && m.2.held.isNone with
  | some (_, m) =>
    if m.acked then m.dest
    else 2 ^ 26 * (match e.state with | .rest => 0 | .pending => 1 | .copying => 2 | .committing => 3) + 2 ^ 12 * m.dest + e.holder
  | none => e.holder

/-- The property that OINFO returns (R207). -/
def Obj.info (o : Obj) (sel : Nat) : Nat :=
  match sel with
  | 0 => o.size
  | 1 => o.log2
  | 2 => o.pins
  | 3 => match o.group with | some g => (mkPtr g.1 g.2 0).toNat | none => 0
  | _ => (if o.summary = [] then 0 else 1) + (if o.extents.any fun e => e.state ≠ .rest then 2 else 0)
         + (if o.extents.any fun e => e.stubs ≠ [] then 4 else 0)

/-- An object split into extents of 2^x bytes: each keeps its holder and inherits its stubs, with counters at zero (R205). -/
def Obj.split (o : Obj) (x : Nat) : Obj :=
  { o with log2 := x
           extents := (List.range ((o.size + 2 ^ x - 1) / 2 ^ x)).map fun i =>
             let e := o.extents.getD (i * 2 ^ x / 2 ^ o.log2) {}
             { holder := e.holder, stubs := e.stubs } }

/-- Frees the stubs of an object that R195 allows, and counts them; DESIGN CHOICE (log 57): the eight bits of the result hold at most
255 (R206). -/
def State.freeStubs (s : State) (k : Nat × Nat) (o : Obj) : Nat × State :=
  let keep := fun (i : Nat) (x : Nat × Nat) =>
    (o.extents.getD i {}).holder = x.1 || s.moves.any fun m => m.2.obj = k && (m.2.src = x.1 || m.2.dest = x.1)
  let es := (List.range o.extents.length).map fun i =>
    let e := o.extents.getD i {}
    { e with stubs := e.stubs.filter (keep i) }
  let count := fun (l : List Extent) => (l.map fun e => e.stubs.length).foldl (· + ·) 0
  (min 255 (count o.extents - count es), s.setObj k { o with extents := es })

/-- Adds an object to the group of a leader: it leaves any other, and a group that it led dissolves (R194). -/
def State.joinGroup (s : State) (k g : Nat × Nat) : State :=
  let s := { s with objects := s.objects.map fun i (b : Obj) => if b.group = some k && i ≠ k && k ≠ g then { b with group := none } else b }
  let put := fun (s : State) (i : Nat × Nat) => match s.objects.get? i with
    | some b => s.setObj i { b with group := some g }
    | none => s
  put (put s g) k

/-- An object instruction that has been performed with a status. -/
def State.objDone (s : State) (id : Nat) (o : Op) (b : ObjOp) (status low : Nat) : State := s.landObj id o b (statusWord status low)

/-- A move or join is accepted, or ends: refused, or with nothing to move (R202, R204). -/
def State.objMove (s : State) (id : Nat) (o : Op) (b : ObjOp) (objs : List ((Nat × Nat) × Obj)) (l : List ((Nat × Nat) × Nat)) (dest : Nat) : State :=
  match s.tryMove objs l (s.realmOf o.thread.cohort) dest (s.partOf o.thread.cohort) (some id) (s.ctxOf o.thread.cohort) with
  | .error e => s.objDone id o b e 0
  | .ok s => if s.movesLeft id then s.setOp id { o with body := .obj { b with stage := 1 } } else s.objDone id o b 0 0

/-- OCOLOC: the member joins where all of it is held at the chip of the leader's extent 0 and the group admits it then; else it
moves there first (R194, R202). -/
def State.objColoc (s : State) (id : Nat) (o : Op) (b : ObjOp) (x : Obj) : State :=
  match s.obj? b.b with
  | none => s.objDone id o b (if (s.window? b.b).isSome then 6 else 1) 0
  | some named =>
    let g := named.group.getD (keyOf b.b)
    match s.objects.get? g with
    | none => s.objDone id o b 1 0
    | some leader =>
      let k := keyOf b.ptr
      let size := (s.objects.filter fun m => m.2.group = some g && m.1 ≠ g && m.1 ≠ k).length + 1
      if leader.realm ≠ x.realm || (k ≠ g && size ≥ 64) then s.objDone id o b 7 0
      else
        let dest := (leader.extents.getD 0 {}).holder
        let l := s.toMove (allExtents (k, x)) dest
        if l = [] then (s.joinGroup k g).objDone id o b 0 0 else s.objMove id o b [(k, x)] l dest

/-- A move or join once its last extent has committed or been refused (R202, R204): a join looks at the group again. -/
def State.objMoved (s : State) (id : Nat) (o : Op) (b : ObjOp) : State :=
  if s.movesLeft id then s
  else if b.status ≠ 0 then s.objDone id o b b.status 0
  else
    match b.code, s.obj? b.ptr with
    | .coloc, some x => s.objColoc id o b x
    | .coloc, none => s.objDone id o b 1 0
    | _, _ => s.objDone id o b 0 0

/-- One request of an object instruction, as the Wellhead handles it (R175, R197, R200 to R207). -/
def State.wellheadObject (s : State) (id : Nat) (o : Op) (b : ObjOp) : State :=
  let t := o.thread
  let k := keyOf b.ptr
  if b.code = .alloc then
    let c := t.cohort.chip
    match s.newObject c b.die (s.cohort t.cohort).vf b.b.toNat (21 + b.ctl) with
    | none => s.landObj id o b (failWide 2)
    | some (n, s) => s.landObj id o b (mkPtr c n 0).toNat
  else if b.stage = 1 then
    if b.code = .free then (s.freeObject k).objDone id o b 0 0 else s.objMoved id o b
  else
    match s.objCheck t b.ptr with
    | .error e => s.landObj id o b (b.fail e)
    | .ok x =>
      match b.code with
      | .free =>
        if x.pins ≠ 0 then s.objDone id o b 3 0
        else if s.objBusy k x then s
        else (s.setObj k { x with state := .freeing }).setOp id { o with body := .obj { b with stage := 1 } }
      | .pin =>
        if s.objMoving k x || x.state = .freeing then s
        else if x.pins = 255 then s.objDone id o b 8 0
        else (s.setObj k { x with pins := x.pins + 1 }).objDone id o b 0 (x.pins + 1)
      | .unpin =>
        if x.state = .freeing then s
        else if x.pins = 0 then s.objDone id o b 8 0 else (s.setObj k { x with pins := x.pins - 1 }).objDone id o b 0 (x.pins - 1)
      | .coloc => s.objColoc id o b x
      | .leave =>
        let s := if x.group = some k then { s with objects := s.objects.map fun _ (y : Obj) => if y.group = some k then { y with group := none } else y }
                 else s.setObj k { x with group := none }
        s.objDone id o b 0 0
      | .locate => s.landObj id o b (s.locate b.ptr x)
      | .migrate =>
        let objs := s.groupOf k x
        let l := if x.group.isSome then objs.flatMap allExtents
                 else if b.ctl = 1 then allExtents (k, x)
                 else [(k, min (offsetOf b.ptr / 2 ^ x.log2) (x.extents.length - 1))]
        s.objMove id o b objs l b.b.toNat
      | .split =>
        let n := b.b.toNat
        if n ≥ x.log2 then s.objDone id o b 9 0
        else if x.group.isSome then s.objDone id o b 7 0
        else if x.pins ≠ 0 then s.objDone id o b 3 0
        else if s.objBusy k x then s.objDone id o b 4 0
        else if x.extents.any fun e => e.fwd ≠ [] then s
        else (s.setObj k (x.split n)).objDone id o b 0 0
      | .stubfree => let (n, s) := s.freeStubs k x; s.objDone id o b 0 n
      | _ => s.landObj id o b (x.info b.ctl)

/-- R175, R197: a request of an object instruction is handled after the thread's earlier accesses to the object, where a path leads to
its Wellhead (R410). -/
def execWellheadObjectRequest (op : Nat) (s : State) : Host.Outcome State Fault Refusal :=
  .next (match s.op? op with
    | some o =>
      match o.body with
      | .obj b =>
        let away := b.code ≠ .alloc && (s.pathDown o.thread.cohort.chip (birthOf b.ptr)).isSome
        if (b.code = .locate && b.ctl = 1) || !s.mayPerform op o || away then s else s.wellheadObject op o b
      | _ => s
    | none => s)

/-- OLOCATE.GUESS: the issuing die's locator entry lands (R203). -/
def State.landGuess (s : State) (id : Nat) (o : Op) (b : ObjOp) : State :=
  if s.mayPerform id o then s.landObj id o b (((s.die ⟨o.thread.cohort.chip, b.die⟩).guess b.ptr).getD 0xFFF) else s

/-! ## The policy (R184, R185, R186) -/

def Vf.minCount (v : Vf) : Nat := bitsOf v.affinity.toNat 23 16
def Vf.ratio (v : Vf) : Nat := max 1 (bitsOf v.affinity.toNat 15 12)
/-- The decay period in ticks (R20, R186). -/
def Vf.decayTicks (v : Vf) : Nat := 2 ^ (16 + bitsOf v.affinity.toNat 11 8) * 3

/-- A remote slot's chip that qualifies for a move (R185). -/
def Vf.qualifies (v : Vf) (loc : Nat) (r : Nat × Nat) : Bool := r.2 ≥ 16 * v.minCount && r.2 > v.ratio * loc && r.2 ≠ 0

/-- The counts of several extents, summed by chip. -/
def sumCounts (l : List (Nat × Nat)) : List (Nat × Nat) :=
  l.foldl (fun m r => if r.2 = 0 then m else Tab.put m r.1 (Tab.getD m r.1 0 + r.2)) []

/-- The largest of some counts, the first of equals. DESIGN CHOICE (log 57): so a move is proposed where several chips qualify (R185). -/
def largest (l : List (Nat × Nat)) : Option (Nat × Nat) :=
  l.foldl (fun m r => match m with | some x => if r.2 > x.2 then some r else some x | none => some r) none

/-- The policy's proposal of a holder for one of its extents: of an ungrouped object, or of a group, whose counts it sums, its own
being the local one (R185); refusals are dropped. -/
def State.propose (s : State) (chip vf : Nat) (k : Nat × Nat) (i : Nat) : State :=
  let v := s.vf chip vf
  match s.objects.get? k with
  | none => s
  | some o =>
    let e := o.extents.getD i {}
    let drop := fun (r : Except Nat State) => match r with | .ok s' => if s'.moves.any (fun m => m.1 ≥ s.nextId && m.2.held.isSome) then s else s' | .error _ => s
    match o.group with
    | none =>
      let good := e.remote.filter (v.qualifies e.loc)
      if o.pins ≠ 0 || s.objBusy k o then s
      else if v.affinity.getLsbD 30 && good.length = 2 && o.log2 > 21 then
        if o.extents.any (fun e => e.fwd ≠ []) then s else s.setObj k (o.split (o.log2 - 1))
      else match largest good with
        | some r => drop (s.tryMove [(k, o)] [(k, i)] o.realm r.1 v.part none (chip, vf))
        | none => s
    | some _ =>
      let objs := s.groupOf k o
      let counts := sumCounts (objs.flatMap fun b => b.2.extents.flatMap fun e => (e.holder, e.loc) :: e.remote)
      match largest ((counts.filter fun r => r.1 ≠ chip).filter (v.qualifies (Tab.getD counts chip 0))) with
      | some r => drop (s.tryMove objs (objs.flatMap allExtents) o.realm r.1 v.part none (chip, vf))
      | none => s

/-- Every counter of an extent halved (R184). -/
def Extent.halve (e : Extent) : Extent := { e with loc := e.loc / 2, remote := e.remote.map fun r => (r.1, r.2 / 2) }

/-- R184, R185: at the end of a decay period the holder evaluates each extent of a function's objects, then halves its counters. -/
def execDecayPeriod (chip : Nat) (vf : Nat) (s : State) : Host.Outcome State Fault Refusal :=
  let v := s.vf chip vf
  let mine := (s.objects.filter fun o => s.vfFor chip o.2 = some vf).flatMap fun o =>
    ((List.range o.2.extents.length).filter fun i => (o.2.extents.getD i {}).holder = chip).map fun i => (o.1, i)
  .next (if s.now < v.decayAt + v.decayTicks then s
    else
      let s1 := if v.affinity.getLsbD 31 then mine.foldl (fun s x => s.propose chip vf x.1 x.2) s else s
      let halve := fun (s : State) (k : Nat × Nat) => match s.objects.get? k with
        | some o => s.setObj k { o with extents := o.extents.map fun e => if e.holder = chip then e.halve else e }
        | none => s
      ((mine.map (·.1)).eraseDups.foldl halve s1).modVf chip vf fun v => { v with decayAt := s.now })

end Sys2Proof.Machine
end

