-- ==== Sys2Proof/Machine/Arrivals.lean ====
section
/-! DEFINITION. Named arrival registers: ARRIVE, ARRIVE.BYTES, NBSET and AWAIT, and the contributions that reach a register
(R267 to R273). -/

namespace Sys2Proof.Machine

/-- Issues an arrival message of a thread, counted on dc1: with .REL it is a release at the cohort, after every earlier access;
else it follows the releases before it (R245, R271). -/
def State.issueMessage (s : State) (b : Bundle) (t : ThreadId) (body : MsgBody) (rel : Bool) : State :=
  let m := s.nextId
  let (_, s) := s.send { body := body, op := some (m + 1), token := some t }
  let o := s.newOp b t (some 1) (.message m rel)
  let (id, s) := s.addOp o
  if rel then s.modThread t (·.bar { level := cohortLevel, id := id + 1, know := o.know }) else s

/-- R271. -/
def execArrive (f : Fields) (s : State) : Host.Outcome State Fault Refusal :=
  s.runThreads (.arrive f) noHold fun _ b t s =>
    .done (s.issueMessage b t (.contribute t.cohort (f.ctl % 16) { member := true }) (f.ctl / 16 % 2 = 1))

/-- R271. -/
def execArriveBytes (f : Fields) (s : State) : Host.Outcome State Fault Refusal :=
  s.runThreads (.arriveBytes f) noHold fun _ b t s =>
    orTrap ((s.thread t).b32 f) fun n =>
    .done (s.issueMessage b t (.contribute t.cohort (f.ctl % 16) { bytes := n.toNat }) (f.ctl / 16 % 2 = 1))

/-- R273. -/
def execNbset (f : Fields) (s : State) : Host.Outcome State Fault Refusal :=
  s.runThreads (.nbset f) noHold fun _ b t s =>
    let x := s.thread t
    orTrap (x.src32 f.sa) fun m => orTrap (x.b32 f) fun n =>
    if m.toNat > 65535 then .trap .illegalOperand 0 0 0
    else .done (s.issueMessage b t (.nbset t.cohort (f.ctl % 16) (m.setWidth 16) n) false)

/-- LAST of a register as AWAIT writes it (R272). -/
def NbFlags.word (l : NbFlags) : Nat :=
  l.missed.toNat + (if l.err then 2 ^ 48 else 0) + (if l.partly then 2 ^ 49 else 0) + (if l.past then 2 ^ 50 else 0)

/-- R270, R272: the thread parks until the wait is satisfied, then has LAST as it stood at the completion it observed. A deferred memory
fault that is pending is delivered first. -/
def execAwait (f : Fields) (s : State) : Host.Outcome State Fault Refusal :=
  s.runThreads (.await f) noHold fun _ _ t s =>
    let nb := f.ctl % 16
    let x := s.thread t
    if (!x.handler && x.deferred.any fun d => d.kind = .deferredMemory || d.nb = some nb) || !s.arrived t nb then .park s (.arrival nb) false
    else
      let last := ((s.cohort t.cohort).nbs.getD nb {}).done
      .done ((s.observe t nb).modThread t fun x => x.setPair f.dst.toNat (BitVec.ofNat 64 last.word))

/-- The event of a message at its register, and the PHASE in which it counted (R268, R270). -/
def State.atRegister (s : State) (c : CohortId) (nb : Nat) (g : Nb → Nb) : Word × State :=
  let r := (s.cohort c).nbs.getD nb {}
  (r.phase, s.modCohort c fun x => { x with nbs := x.nbs.set nb (g r) })

/-- The edges that a thread's own arrival carries: those of the releases before it, and its own (R254, R271). -/
def State.arrivalEdges (s : State) (id : Nat) (o : Op) : List Edge :=
  let own : Edge := { scope := cohortLevel, by' := o.thread, know := s.clock o.thread id o.know }
  s.edgesOf o.thread o.barriers ++ (if o.release?.isSome && own.know ≠ [] then [own] else [])

/-- A contribution, or an NBSET, reaches its register: it is counted there, sets its thread's token, and its operation completes
where that is its last message. A pre-emption of the context that waits for the register may go on (R229, R268, R270, R394). -/
def State.deliverMessage (s : State) (m : Nat) (g : Msg) : State :=
  let s := { s with msgs := Tab.del s.msgs m }
  let o := g.op.bind s.op?
  let edges := match g.token, g.op, o with
    | some _, some id, some o => s.arrivalEdges id o
    | _, _, _ => []
  let r : Option (CohortId × Nat × (Nb → Nb)) := match g.body with
    | .contribute c nb k => some (c, nb, fun r => r.arrive { k with know := k.know ++ edges })
    | .nbset c nb ms bs => some (c, nb, fun r => (r.set ms bs).complete)
    | _ => none
  match r with
  | none => s
  | some (c, nb, h) =>
    let (phase, s) := if s.live c then s.atRegister c nb h else (0, s)
    let s := match g.token with
      | some t => if s.live c then s.modThread t fun x => { x with tokens := x.tokens.set nb phase } else s
      | none => s
    let s := s.settleDefer c.chip (s.cohort c).vf
    match g.op, o with
    | some i, some o =>
      if g.token.isSome then s.endOp i
      else if o.closing then { s with ops := s.ops.put i { o with closing := false } }.closeOp i
      else s
    | _, _ => s

/-- R268: a contribution that waits for nothing reaches its register. -/
def execArrivalContribution (msg : Nat) (s : State) : Host.Outcome State Fault Refusal :=
  .next (match s.msg? msg with
    | none => s
    | some g =>
      match g.body with
      | .contribute c _ _ | .nbset c _ _ _ =>
        let waits := match g.token, g.op.bind fun i => (s.op? i).map fun o => (i, o) with
          | some _, some (i, o) => s.ops.any fun p => holdsBack p i o
          | _, _ => false
        if waits || !(s.resident c || (s.cohorts.get? c).isNone) then s else s.deliverMessage msg g
      | _ => s)

end Sys2Proof.Machine
end

