-- ==== Sys2Proof/Machine/Residency.lean ====
section
/-! DEFINITION. What a core share holds free, and what a cohort takes of it (R16, R27, R211, R322 to R324, R356). -/

namespace Sys2Proof.Machine

/-- The registers allocated to a thread (R16). -/
def allocRegs (regs : Nat) : Nat := (regs + 7) / 8 * 8
/-- The crews of a cohort on quadrant number i of a share of q quadrants (R322). -/
def crewsOn (threads q i : Nat) : Nat := if q = 0 then 0 else ((threads + 31) / 32 + (q - 1 - i)) / q

/-- The live cohorts whose contexts are on a core. -/
def State.cohortsOn (s : State) (c : CoreId) : List (CohortId × Cohort) :=
  List.filter (fun (x : CohortId × Cohort) => x.1.toCore = c && !x.2.ended && s.resident x.1) s.cohorts

/-- The crews that a cohort has on quadrant q. -/
def Cohort.crewsAt (x : Cohort) (q : Nat) : Nat :=
  if x.quads.contains q then crewsOn x.threads x.quads.length (x.quads.takeWhile (· ≠ q)).length else 0

/-- A core share: the quadrants that a partition owns of a core in service, none with a change of owner pending (R322, R357). -/
def State.shareOf (s : State) (c : CoreId) (part : Nat) : List Nat :=
  if !(s.core c).service then [] else (s.share c part).filter fun q => (s.quad ⟨c.chip, c.die, c.core, q⟩).pending.isNone

/-- Crews, register bytes in a lane, tiles, guard slots and tag blocks that a set of cohorts holds on a quadrant or a core. -/
def usedCrews (l : List (CohortId × Cohort)) (q : Nat) : Nat := (l.map fun x => x.2.crewsAt q).foldl (· + ·) 0
def State.usedBytes (s : State) (l : List (CohortId × Cohort)) (q : Nat) : Nat :=
  (l.map fun x => x.2.crewsAt q * 4 * allocRegs (s.launchOf x.1).regs).foldl (· + ·) 0
def usedTiles (l : List (CohortId × Cohort)) (q : Nat) : List Nat := l.flatMap fun x => Tab.getD x.2.tiles q []
def State.usedSlots (l : List (CohortId × Cohort)) (part : Nat) : Nat :=
  ((l.filter fun x => x.2.part = part).map fun x => x.2.slots.length).foldl (· + ·) 0
def State.usedTags (l : List (CohortId × Cohort)) (part : Nat) : Nat :=
  ((l.filter fun x => x.2.part = part).map fun x => x.2.tags.length / 64).foldl (· + ·) 0

/-- Whether a cohort of a launch fits a share beside the cohorts of a list (R323). -/
def State.fitsBeside (s : State) (l : List (CohortId × Cohort)) (quads : List Nat) (part : Nat) (x : Launch) : Bool :=
  let n := quads.length
  n ≠ 0
  && ((List.range n).all fun i =>
      let q := quads.getD i 0
      let k := crewsOn x.threads n i
      k = 0 || (usedCrews l q + k ≤ 32 && s.usedBytes l q + k * 4 * allocRegs x.regs ≤ 16384 && (usedTiles l q).length + x.tiles ≤ 4))
  && State.usedSlots l part + x.gslots ≤ 16 * n
  && State.usedTags l part + x.tagb ≤ 16 * n

/-- Whether a cohort of a launch could ever take a core share: it fits the share when it is empty (R317, R322). -/
def State.couldFit (s : State) (c : CoreId) (part : Nat) (x : Launch) : Bool := s.fitsBeside [] (s.shareOf c part) part x

/-- Whether a cohort of a launch of a realm fits a core share now (R211, R323). -/
def State.fitsNow (s : State) (c : CoreId) (part : Nat) (realm : Word) (x : Launch) : Bool :=
  let l := s.cohortsOn c
  s.fitsBeside l (s.shareOf c part) part x && (l.filter fun y => y.2.part = part).all fun y => s.realmOf y.1 = realm

/-- The cores of a die, a cluster or a package, in increasing (die, core) order. -/
def coresOfDie (chip die : Nat) : List CoreId := (List.range 48).map fun c => ⟨chip, die, c⟩
def coresOfCluster (chip die k : Nat) : List CoreId := (List.range 8).map fun c => ⟨chip, die, 8 * k + c⟩
def coresOf (chip : Nat) : List CoreId := (List.range 4).flatMap fun d => coresOfDie chip d

/-- The core shares of a partition among some cores. -/
def State.sharesIn (s : State) (part : Nat) (l : List CoreId) : List CoreId := l.filter fun c => s.shareOf c part ≠ []

/-- The bytes of a quadrant's banks. -/
def quadBytes : Nat := 12 * 32768

/-- Claims on some lines of a core that operations hold no more. -/
def State.forgetClaims (s : State) (c : CoreId) (mine : Nat → Bool) : State :=
  let cut := fun (t : ThreadId) (l : List Share) => l.map fun x => if shareCore t x = c then { x with claims := x.claims.filter fun n => !mine n } else x
  { s with ops := s.ops.map fun _ (o : Op) => if !s.resident o.thread.cohort then o else match o.body with
      | .copy x => { o with body := .copy { x with shares := cut o.thread x.shares } }
      | .xfer x => { o with body := .xfer { x with shares := cut o.thread x.shares } }
      | _ => o }

/-- Banks of a core zeroed for a new user: every line, every presence bit, and the landing rings of the owner that lie in them
(R211, R222). -/
def State.scrubBanks (s : State) (c : CoreId) (part : Nat) (quads : List Nat) : State :=
  let mine := fun (l : Nat) => quads.contains (l * 128 / quadBytes)
  let rings := List.filter (fun (r : (Nat × Nat) × Ring) => r.1.1 = part && r.2.enabled && r.2.allLines.any mine) (s.core c).rings
  let s := rings.foldl (fun s r => s.disableRing c part r.1.2 (r.2.cfg &&& ~~~(1#64 <<< 63))) s
  let s := quads.foldl (fun s q => s.wipe (cisternAt c (q * quadBytes)) quadBytes) s
  (s.forgetClaims c mine).modCore c fun x => { x with writers := List.filter (fun (w : Nat × Nat) => !mine w.1) x.writers }

/-- A core share made ready for cohorts of a realm (R211). -/
def State.useShare (s : State) (c : CoreId) (part : Nat) (realm : Word) : State :=
  if Tab.get? (s.core c).realms part = some realm then s
  else (s.scrubBanks c part (s.share c part)).modCore c fun x => { x with realms := Tab.put x.realms part realm }

end Sys2Proof.Machine
end

