-- ==== Sys2Proof/Machine/Launch.lean ====
section
/-! DEFINITION. Launch records and their validation (R316 to R318), shadow rings and LAUNCHQ (R321, R326 to R328), placement
(R322 to R324), the ends of cohorts and grids (R161, R325), and the tile dispenser (R329, R330). -/

namespace Sys2Proof.Machine

/-! ## Records (R316) -/

/-- A launch record's fields. -/
def Launch.ofBytes (bs : List Byte) : Launch :=
  let at' := fun off n => ofBytesLE ((bs.drop off).take n)
  { kernel := BitVec.ofNat 64 (at' 0 8), args := BitVec.ofNat 64 (at' 8 8), crec := BitVec.ofNat 64 (at' 0x10 8), doneh := BitVec.ofNat 64 (at' 0x18 8)
    priv' := at' 0x20 4, wdog := at' 0x24 4, seed := BitVec.ofNat 32 (at' 0x28 4), threads := at' 0x2C 2, regs := at' 0x2E 1, nargs := at' 0x2F 1
    gslots := at' 0x30 1, tiles := at' 0x31 1, tagb := at' 0x32 1, ladder := at' 0x33 1, nbv := at' 0x34 1 % 4, rmode := at' 0x35 1 % 8
    cstack := at' 0x36 2, tdimx := at' 0x38 4, tdimy := at' 0x3C 4, tdimz := at' 0x40 4, tbase := BitVec.ofNat 32 (at' 0x44 4)
    flags := at' 0x48 4 % 8, tag := BitVec.ofNat 32 (at' 0x4C 4) }

def Launch.coop (x : Launch) : Bool := x.flags % 2 = 1
def Launch.express (x : Launch) : Bool := x.flags / 2 % 2 = 1
def Launch.after (x : Launch) : Bool := x.flags / 4 % 2 = 1
/-- The dispenser's index count (R329). -/
def Launch.tiles' (x : Launch) : Nat := x.tdimx * max 1 x.tdimy * max 1 x.tdimz
/-- The replay entries that a cohort on n quadrants can need: its outstanding requests, copies, commands, transfers, entries and
parked accesses (R126, R234, R294, R298, R399). -/
def Launch.replays (x : Launch) (n : Nat) : Nat := 8192 + 256 + 64 * n + 256 + 128 + x.threads
/-- The bytes of a cohort's save area on a share of n quadrants: its header, tag entries, thread records, registers, tiles with both
shadows, replay entries, and the banks with their presence maps (R397). -/
def Launch.saveBytes (x : Launch) (n : Nat) : Nat :=
  2048 + 1024 * x.tagb + x.threads * (1024 + 4 * allocRegs x.regs)
    + min n ((x.threads + 31) / 32) * (65536 * x.tiles + 2 * 65544) + 64 * x.replays n + n * 12 * (32768 + 256)
/-- The frames that a cohort takes on a share of n quadrants: private memory and call stacks, and its save area (R342, R362, R397). -/
def Launch.frames (x : Launch) (n : Nat) : Nat :=
  (x.threads * (x.priv' + 8 * x.cstack) + 65535) / 65536 + (x.saveBytes n + 65535) / 65536

/-- Whether a context holds the express grant (R337). -/
def State.expressGrant (s : State) (chip vf part : Nat) : Bool := (s.vf chip vf).express && (s.part chip part).express
/-- Whether a function has an express-class grid (R337). -/
def State.expressContext (s : State) (chip vf : Nat) : Bool :=
  s.grids.any fun g => g.1.1 = chip && g.2.vf = vf && g.2.state ≠ .ended && g.2.launch.express

/-! ## Placement sets (R322, R323) -/

/-- The sets among which the distributor chooses for a launch: the shares of each, all of which could take a cohort if empty. -/
def State.eligibleSets (s : State) (chip part : Nat) (x : Launch) : List (List CoreId) :=
  let groups : List (List CoreId) :=
    match widest x.ladder with
    | 1 | 2 | 3 => (coresOf chip).map fun c => [c]
    | 4 => (List.range 4).flatMap fun d => (List.range 6).map fun k => coresOfCluster chip d k
    | 5 => (List.range 4).map fun d => coresOfDie chip d
    | _ => [coresOf chip]
  (groups.map (s.sharesIn part)).filter fun l => l ≠ [] && l.all fun c => s.couldFit c part x

/-- Whether the frames of a cohort on each core of a set could be allocated (R362). -/
def State.framesFor (s : State) (chip vf part : Nat) (x : Launch) (l : List CoreId) : Bool :=
  (List.range 4).all fun d =>
    let n := ((l.filter fun c => c.die = d).map fun c => x.frames (s.shareOf c part).length).foldl (· + ·) 0
    n = 0 || (s.allocFrames ⟨chip, d⟩ part vf n).isSome

/-- The set on which a launch is to be placed now, if any share of one can take a cohort: the most shares, the lowest number. -/
def State.chooseSet (s : State) (chip vf part : Nat) (x : Launch) : Option (List CoreId) :=
  let now := fun (l : List CoreId) => (l.filter fun c => s.fitsNow c part (s.vf chip vf).realm x).length
  let best := (s.eligibleSets chip part x).foldl (fun (b : Option (List CoreId)) l =>
    match b with
    | none => if now l > 0 then some l else none
    | some m => if now l > now m then some l else some m) none
  best

/-! ## Validation (R317, R318) -/

/-- The reasons of R317 that a record gives rise to, in the order of its table. -/
def State.launchFaults (s : State) (chip vf part : Nat) (x : Launch) : List (Bool × Nat) :=
  [(!isGlobal x.kernel || offsetOf x.kernel % 8 ≠ 0 || (x.nargs ≠ 0 && !isGlobal x.args), 1),
   (x.threads = 0 || x.threads > 4096, 2),
   (x.regs < 16 || x.nargs > 64 || x.nargs > x.regs, 3),
   (x.gslots > 64 || x.tiles > 4 || x.tagb > 64 || x.cstack > 4096, 4),
   (x.ladder % 8 ≠ 7, 5),
   (x.nbv = 3 || x.rmode ≥ 6, 6),
   (x.priv' % 256 ≠ 0 || x.priv' > 2 ^ 24, 7),
   ((x.tdimx = 0 && (x.tdimy ≠ 0 || x.tdimz ≠ 0)) || x.tiles' > 2 ^ 32 - 2, 8),
   (!(s.eligibleSets chip part x).any (s.framesFor chip vf part x), 9),
   (x.express && !s.expressGrant chip vf part, 10),
   ((x.crec ≠ 0 && (birthOf x.crec = 0xFFF || offsetOf x.crec % 64 ≠ 0)) || bitsOf x.doneh.toNat 27 4 ≠ 0, 11)]

/-- A record as the lockkeeper validates it: a reason, or the launch with its argument words (R317, R318). -/
def State.validate (s : State) (chip vf part : Nat) (x : Launch) : Except Nat (List Word) :=
  match (s.launchFaults chip vf part x).find? (·.1) with
  | some (_, r) => .error r
  | none =>
    if x.nargs = 0 then .ok []
    else match s.objectRead chip vf x.args (4 * x.nargs) with
      | .error _ => .error 12
      | .ok bs => .ok ((List.range x.nargs).map fun i => BitVec.ofNat 32 (ofBytesLE ((bs.drop (4 * i)).take 4)))

/-! ## Accesses of the device itself (R251, R298, R325) -/

/-- The hub die as a position for scopes. -/
def hubThread (chip : Nat) : ThreadId := ⟨⟨chip, 4, 0, 0⟩, 0⟩

/-- Whether a read by the lockkeeper waits: for an extent in transit, or for a line pinned elsewhere (R187, R251). -/
def State.deviceWaits (s : State) (chip vf : Nat) (p : DWord) (n : Nat) : Bool :=
  isGlobal p && (s.reachGlobal chip vf p n false = .transit
    || s.pins.any fun l => l.1 * 128 < p.toNat + n && p.toNat < l.1 * 128 + 128 && s.pinnedAway (hubThread chip) l.1)

/-- A store that the device makes for a function, as a request of its own: a reader of its STATUS has its edges. A window takes
none (R375). -/
def State.deviceStore (s : State) (d : Device) (p : DWord) (bs : List Byte) (know : List Nat) (edges : List Edge) : Option Nat × State :=
  if p = 0 || birthOf p = 0xFFF || (isGlobal p && (s.obj? p).isNone && (s.window? p).isSome) then (none, s)
  else
    let o : Op := { thread := hubThread d.chip, device := some d, know := know, edges := edges, phase := if isGlobal p then .wellhead else .issued,
                    body := .access { kind := .store, ptr := p, size := bs.length, data := ofBytesLE bs } }
    let (id, s) := s.addOp o
    (some id, s)

/-! ## Completion records (R325) -/

/-- Writes a grid's completion record, and then signals its DONEH (R325). -/
def State.complete (s : State) (chip : Nat) (g : Grid) (code reason : Nat) : State :=
  let x := g.launch
  let now := s.ns chip
  let start := match g.started with | some n => timeBytes n | none => bytesLE 16 0
  let bytes := bytesLE 4 (2 ^ 31 + reason * 256 + code) ++ bytesLE 4 x.tag.toNat ++ bytesLE 4 g.placed.length ++ bytesLE 4 g.killed'
    ++ timeBytes g.accepted ++ start ++ timeBytes (if code = 1 then g.accepted else now)
  let (id, s) := s.deviceStore { chip := chip, vf := g.vf } x.crec bytes g.know []
  if x.doneh = 0 then s
  else (s.send { body := .signal x.doneh (chip, (s.vf chip g.vf).realm) 0
                   { member := true, flags := { err := code = 1 || code = 3 }, know := edgesWith (hubThread chip) g.know [] } 0
                 after := id }).2

/-! ## The launch queue (R283, R316, R327, R328) -/

/-- Launch-queue entries that a partition holds. -/
def State.entriesOf (s : State) (chip p : Nat) : Nat :=
  ((s.chip chip).entries.filter fun e => e.2 = p).length
  + (List.filter (fun (g : (Nat × Nat) × Grid) => g.1.1 = chip && g.2.part = p && (g.2.state = .queued || g.2.state = .placing)) s.grids).length
/-- Whether an entry is free for a partition: its reserve of 16, or the shared 832. -/
def State.launchFree (s : State) (chip p : Nat) : Bool :=
  decide (s.entriesOf chip p < 16)
  || decide (((List.range 12).map fun q => s.entriesOf chip q - 16).foldl (· + ·) 0 < 832)

/-- Whether a grid number belongs to a grid that has not ended. -/
def State.gridLive (s : State) (chip n : Nat) : Bool :=
  match s.grids.get? (chip, n) with | some g => g.state ≠ .ended | none => false
/-- The next grid number from n, in at most k tries (R283). -/
def State.gridFrom (s : State) (chip : Nat) : Nat → Nat → Option Nat
  | 0, _ => none
  | k + 1, n =>
    let n := if n > 65535 ∨ n = 0 then 1 else n
    if s.gridLive chip n then s.gridFrom chip k (n + 1) else some n

/-- What is left of the grid that last had a number, and of its cohorts and threads. -/
def State.forgetGrid (s : State) (chip n : Nat) : State :=
  { s with cohorts := s.cohorts.keep fun c _ => !(c.chip = chip && c.grid = n)
           threads := s.threads.keep fun t _ => !(t.cohort.chip = chip && t.cohort.grid = n) }

/-- Enters a validated launch: its grid has the next number, and waits under AFTER for its poster's earlier grids. -/
def State.enterLaunch (s : State) (chip n vf part : Nat) (x : Launch) (args : List Word) (ring : Option Nat) (poster : Option ThreadId) (know : List Nat) : State :=
  let s := s.forgetGrid chip n
  let mine := List.filter (fun (g : (Nat × Nat) × Grid) => g.1.1 = chip && g.1.2 ≠ n && g.2.ringOf = ring && g.2.poster = poster) s.grids
  let prior := if x.after then mine else []
  let done := (prior.filter fun g => g.2.state = .ended).foldl (fun k g => join k g.2.know) []
  let g : Grid := { vf := vf, part := part, launch := x, args := args, order := (s.chip chip).launches, ringOf := ring, poster := poster,
                    after := (prior.filter fun g => g.2.state ≠ .ended).map (·.1.2), accepted := s.ns chip,
                    start := join know done, know := join know done }
  (s.setGrid chip n g).modChip chip fun h => { h with nextGrid := n + 1, launches := h.launches + 1 }

/-- A rejected launch: its completion record is written and its DONEH signalled, each where its own form is good (R317, R325). -/
def State.rejectLaunch (s : State) (chip vf part : Nat) (x : Launch) (reason : Nat) (know : List Nat) : State :=
  let crec := if birthOf x.crec = 0xFFF || offsetOf x.crec % 64 ≠ 0 then 0 else x.crec
  let doneh := if bitsOf x.doneh.toNat 27 4 ≠ 0 then 0 else x.doneh
  s.complete chip { vf := vf, part := part, launch := { x with crec := crec, doneh := doneh }, accepted := s.ns chip, know := know } 1 reason

/-! ## Shadow rings (R321) -/

/-- Whether a function is unmapped (R336). -/
def State.unmapped (s : State) (chip vf : Nat) : Bool :=
  let v := s.vf chip vf
  bitsOf v.sluice.toNat 23 0 ≠ 0 && v.balance ≤ 0 && !s.expressContext chip vf

/-- R321: the doorbell. -/
def execSrprod (chip : Nat) (vf : Nat) (value : Word) (s : State) : Host.Outcome State Fault Refusal :=
  .next (s.modVf chip vf fun v => { v with srprod := value })

/-- Whether the lockkeeper may consume a function's ring: enabled, not empty, mapped, not being killed, with an entry free. -/
def State.ringReady (s : State) (chip vf : Nat) : Bool :=
  let v := s.vf chip vf
  v.srcfg.getLsbD 31 && v.srprod ≠ v.srcons && v.enable && v.busy.isNone && !s.unmapped chip vf && s.launchFree chip v.part

/-! ## Object declarations (R208) -/

/-- An object allocated for a function on the first die of its chip that has the frames (R208, R362). -/
def State.newAnywhere (s : State) (chip vf size log2 : Nat) : Option (Nat × State) :=
  (List.range 4).findSome? fun d => s.newObject chip d vf size log2

/-- A group joined by a declared object: the leader's owner, fewer than 64 members, and the chip that holds the leader's extent 0
(R194, R208). A declaration whose CHIP is another than that one cannot be satisfied (DESIGN CHOICE, log 58). -/
def State.declareGroup (s : State) (k leader : Nat × Nat) : Option State :=
  match s.objects.get? k, s.objects.get? leader with
  | some x, some named =>
    let g := named.group.getD leader
    match s.objects.get? g with
    | some l =>
      if l.realm ≠ x.realm || (s.objects.filter fun m => m.2.group = some g && m.1 ≠ g).length + 1 ≥ 64
          || (l.extents.getD 0 {}).holder ≠ k.1 then none
      else some (s.joinGroup k g)
    | none => none
  | _, _ => none

/-- One declaration: its object, owned by the launch's function or by the function of its realm on the chip named, with its
initial bytes, its pin and its group. One with CHIP is allocated once for the program (R208). -/
def State.declareObject (s : State) (chip vf : Nat) (prog : Nat) (known : List (Nat × (Nat × Nat))) (d : ObjectDecl) :
    Option ((Nat × Nat) × State) :=
  match d.chip.bind fun _ => s.symbols.get? (prog, d.name) with
  | some k => some (k, s)
  | none =>
    let c := d.chip.getD chip
    let owner := if c = chip then some vf else s.realmVf c (s.vf chip vf).realm
    owner.bind fun v =>
      if !s.chipExists c || d.size = 0 || d.size > 2 ^ 30 || d.init.length > d.size then none
      else (s.newAnywhere c v d.size d.log2).bind fun (n, s) =>
        let s := if d.init = [] then s else s.store (globalAt (mkPtr c n 0)) d.init
        let s := if d.pin then { s with objects := s.objects.map fun k (o : Obj) => if k = (c, n) then { o with pins := 1 } else o } else s
        let s := if d.chip.isSome then { s with symbols := s.symbols.put (prog, d.name) (c, n) } else s
        match d.group with
        | none => some ((c, n), s)
        | some g => (Tab.get? known g).bind fun l => (s.declareGroup (c, n) l).map fun s => ((c, n), s)

/-- A symbol's value stored where it stands (R208). -/
def State.placeSymbol (s : State) (chip vf : Nat) (k : Nat × Nat) (p : DWord) : State :=
  match s.reachFor chip vf p 8 true with
  | .place a => s.store a (bytesLE 8 (mkPtr k.1 k.2 0).toNat)
  | _ => s

/-- A program's declarations, one at a time in source order, with the object of each symbol; none where one cannot be satisfied
(R208, R317). -/
def State.declareEach (chip vf prog : Nat) : List ObjectDecl → List (Nat × (Nat × Nat)) → State → Option (List (Nat × (Nat × Nat)) × State)
  | [], known, s => some (known, s)
  | d :: l, known, s =>
    (s.declareObject chip vf prog known d).bind fun (k, s) =>
      State.declareEach chip vf prog l ((d.name, k) :: known) (d.patch.foldl (fun s p => s.placeSymbol chip vf k p) s)

/-- The symbols that stand in the initial bytes of an object, with its number (R208). -/
def State.placeInside (known : List (Nat × (Nat × Nat))) (k : Nat × Nat) (d : ObjectDecl) (s : State) : State :=
  d.inside.foldl (fun s w => match Tab.get? known w.2 with
    | some x => s.store (globalAt (mkPtr k.1 k.2 w.1)) (bytesLE 8 (mkPtr x.1 x.2 0).toNat)
    | none => s) s

/-- A program's declarations allocated, with the symbols in the initial bytes of each object that is new (R208). -/
def State.declareAll (chip vf prog : Nat) (l : List ObjectDecl) (known : List (Nat × (Nat × Nat))) (s : State) : Option State :=
  (State.declareEach chip vf prog l known s).map fun (known, u) =>
    l.foldl (fun u d => match Tab.get? known d.name with
      | some k => if d.chip.isSome && (s.symbols.get? (prog, d.name)).isSome then u else State.placeInside known k d u
      | none => u) u

/-- Whether a place of one of a program's symbols is in transit: the packet waits for it (R187, R208). -/
def State.symbolsWait (s : State) (chip vf : Nat) (prog : Program) : Bool :=
  prog.decls.any fun d => d.patch.any fun p => s.deviceWaits chip vf p 8

/-- A program's launch once its record is good: its objects are allocated, and its argument words read with their pointers in place;
else the reason of R317, and nothing is allocated (DESIGN CHOICE, log 58). A record that a LAUNCHQ names declares nothing: it
launches a kernel of a program that is already posted (DESIGN CHOICE, log 58). -/
def State.declareFor (s : State) (chip vf part : Nat) (prog : Program) (x : Launch) (args : List Word) : Except Nat (List Word × State) :=
  if prog.decls = [] then .ok (args, s)
  else match State.declareAll chip vf prog.id prog.decls [] s with
    | none => .error 13
    | some s => (s.validate chip vf part x).map fun args => (args, s)

/-- What a launch's validation does at the holder of its argument words, where it reads them (R184, R412). -/
def State.argsUse (s : State) (chip vf part : Nat) (x : Launch) (u : State) : State :=
  if x.nargs = 0 || (s.launchFaults chip vf part x).any (·.1) then u else u.objectUse chip vf x.args (4 * x.nargs)

/-- R321: one packet of a function's ring; only a LAUNCH packet does anything. -/
def execPacketConsume (chip : Nat) (ring : RingTurn) (s : State) : Host.Outcome State Fault Refusal :=
  let v := s.vf chip ring.vf
  let n := ringSlots v.srcfg 4 16
  let p := ptrAdd v.srbase (256 * (v.srcons.toNat % n))
  let used := fun (s : State) => (s.modVf chip ring.vf fun v => { v with srcons := v.srcons + 1 }).objectUse chip ring.vf p 4
  .next (if !s.ringReady chip ring.vf || s.deviceWaits chip ring.vf p 256 then s
    else
      match s.objectRead chip ring.vf p 4 with
      | .error _ => used s
      | .ok k =>
        if ofBytesLE k ≠ 1 then used s
        else
          let used := fun (s : State) => (used s).objectUse chip ring.vf (ptrAdd p 0x80) 128
          match s.objectRead chip ring.vf (ptrAdd p 0x80) 128 with
          | .error _ => used s
          | .ok bs =>
            let x := Launch.ofBytes bs
            let used := fun (u : State) => s.argsUse chip ring.vf v.part x (used u)
            if s.deviceWaits chip ring.vf x.args (4 * x.nargs) || s.symbolsWait chip ring.vf ring.prog then s
            else match (s.validate chip ring.vf v.part x).bind (s.declareFor chip ring.vf v.part ring.prog x) with
            | .error r => used (s.rejectLaunch chip ring.vf v.part x r [])
            | .ok (args, u) =>
              match u.gridFrom chip 65535 (u.chip chip).nextGrid with
              | none => s
              | some g => used (u.enterLaunch chip g ring.vf v.part x args (some ring.vf) none []))

/-! ## LAUNCHQ (R326 to R328) -/

/-- The record that a LAUNCHQ names, as the lockkeeper reads it. -/
def State.launchRecord (s : State) (t : ThreadId) (p : DWord) : Except Nat (List Byte) :=
  if isGlobal p then s.objectRead t.cohort.chip (s.cohort t.cohort).vf p 128
  else match s.reach t p 128 false with
    | .place a => if s.readFails a 128 then .error 4 else .ok (s.loadBytes a 128)
    | _ => .error 3

/-- The result of a LAUNCHQ lands. -/
def State.landLaunch (s : State) (id : Nat) (o : Op) (dst v : Nat) : State :=
  let s := s.modChip o.thread.cohort.chip fun h => { h with entries := Tab.del h.entries id }
  (s.modThread o.thread fun x => x.setReg dst (BitVec.ofNat 32 v)).endOp id

/-- Whether a LAUNCHQ takes an entry now: earlier ones of its partition that wait come first (R328). -/
def State.launchTurn (s : State) (id : Nat) (o : Op) : Bool :=
  let c := o.thread.cohort
  s.launchFree c.chip (s.partOf c) && !s.ops.any fun p => p.1 < id && p.2.thread.cohort.chip = c.chip && s.partOf p.2.thread.cohort = s.partOf c
    && match p.2.body with | .launchq _ _ false => true | _ => false

/-- R327: a LAUNCHQ with an entry is validated after its release and after the thread's earlier ones, and its result lands. -/
def State.serveLaunch (s : State) (id : Nat) : State :=
  match s.op? id with
  | some o =>
    match o.body with
    | .launchq p dst entered =>
      let t := o.thread
      let c := t.cohort
      let vf := (s.cohort c).vf
      let part := s.partOf c
      if !entered && !s.launchTurn id o then s.setOp id { o with held := some (o.held.getD s.now) }
      else
        let o := { o with held := none, body := .launchq p dst true }
        let s := if entered then s else (s.setOp id o).modChip c.chip fun h => { h with entries := Tab.put h.entries id part }
        let before := s.ops.any fun q => q.1 < id && q.2.thread = t && match q.2.body with | .launchq _ _ _ => true | _ => false
        let level := effScope (s.launchOf c).ladder 5
        if before || !s.earlierComplete t id level || !(s.vf c.chip vf).enable || (s.vf c.chip vf).busy.isSome then s
        else
          let know := s.clock t id o.know
          let s := s.widen t level know
          if s.deviceWaits c.chip vf p 128 then s else
          let used := fun (u : State) => if isGlobal p then u.objectUse c.chip vf p 128
            else match s.reach t p 128 false with | .place a => u.found a 128 | _ => u
          match s.launchRecord t p with
          | .error _ => used (s.landLaunch id o dst (2 ^ 28 + 12 * 256))
          | .ok bs =>
            let x := Launch.ofBytes bs
            let used := fun (u : State) => s.argsUse c.chip vf part x (used u)
            if s.deviceWaits c.chip vf x.args (4 * x.nargs) then s
            else match s.validate c.chip vf part x with
            | .error r => used ((s.rejectLaunch c.chip vf part x r know).landLaunch id o dst (2 ^ 28 + r * 256))
            | .ok args =>
              match s.gridFrom c.chip 65535 (s.chip c.chip).nextGrid with
              | none => s
              | some g => used ((s.enterLaunch c.chip g vf part x args none (some t) know).landLaunch id o dst g)
    | _ => s
  | none => s

/-- R326: each executing thread posts its own launch. -/
def execLaunchq (f : Fields) (s : State) : Host.Outcome State Fault Refusal :=
  s.runThreads (.launchq f) noHold fun _ b t s =>
    let d := f.dst.toNat
    orTrap ((s.thread t).src64 f.sa) fun p =>
    if offsetOf p % 128 ≠ 0 then .trap .memoryFault 0x10 p 0
    else if !isGlobal p && !(birthOf p = 0xFFF && serialOf p = 0) then .trap .memoryFault 0x12 p 0
    else
      let (id, s) := s.addOp { s.newOp b t (some 4) (.launchq p d false) with dst := if d = 255 then [] else [d] }
      .done (s.serveLaunch id)

/-! ## Placement (R322 to R324, R29) -/

/-- The generator's state at thread start (R91). -/
def startSeed (seed : Word) (index tid : Nat) : Word :=
  let v := seed ^^^ BitVec.ofNat 32 (4096 * index + tid)
  (List.range 16).foldl (fun s _ => xsNext s) (if v = 0 then 1 else v)

/-- A thread as it begins (R29, R91, R316). -/
def Grid.thread (g : Grid) (quad : QuadId) (index tid seq now : Nat) : Thread :=
  { quad := quad, pc := g.launch.kernel, regs := (g.args ++ List.replicate (g.launch.regs - g.args.length) 0).take g.launch.regs,
    rmode := BitVec.ofNat 3 (if g.launch.rmode = 0 then 1 else g.launch.rmode), srseed := startSeed g.launch.seed index tid,
    seq := seq, readySince := now, know := g.start }

/-- Places a cohort on a core share, with its index; none where its frames cannot be had. -/
def State.placeCohort (s : State) (chip n : Nat) (core : CoreId) (index : Nat) : Option State :=
  let g := s.grid chip n
  let x := g.launch
  match s.allocFrames core.toDie g.part g.vf (x.frames (s.shareOf core g.part).length) with
  | none => none
  | some (frames, s) =>
    let c : CohortId := ⟨chip, core.die, core.core, n⟩
    let s := s.useShare core g.part (s.vf chip g.vf).realm
    let share := s.shareOf core g.part
    let quads := share.take ((x.threads + 31) / 32)
    let l := s.cohortsOn core
    let tiles := quads.map fun q => (q, ((List.range 4).filter fun k => !(usedTiles l q).contains k).take x.tiles)
    let s := s.setCohort c
      { vf := g.vf, part := g.part, index := index, threads := x.threads, quads := quads, slots := List.replicate x.gslots {},
        tags := List.replicate (64 * x.tagb) {}, tiles := tiles, frames := frames }
    let s := s.wipe (privateAt ⟨c, 0⟩ 0) (4096 * 2 ^ 30)
    let s := (List.range x.threads).foldl (fun s tid =>
      let q : QuadId := ⟨chip, core.die, core.core, quads.getD (tid / 32 % quads.length) 0⟩
      let seq := (s.quad q).seq + 1
      (s.modQuad q fun y => { y with seq := seq }).setThread ⟨c, tid⟩ (g.thread q index tid seq s.now)) s
    let s := (List.range x.threads).foldl (fun s tid => s.stand ⟨c, tid⟩) s
    some (s.modGrid chip n fun g =>
      let placed := g.placed ++ [(core.die, core.core)]
      { g with placed := placed, state := if placed.length = g.set'.length then .running else .placing })

/-- Whether a saved context's quadrants hold what it needs, with no other context's cohorts on their banks (R400). -/
def State.couldResume (s : State) (chip vf : Nat) : Bool :=
  let mine := s.cohortsIn chip vf
  (s.vf chip vf).ctx = .saved && ((mine.map fun (x : CohortId × Cohort) => x.1.toCore).eraseDups).all fun core =>
    let here := mine.filter fun (x : CohortId × Cohort) => x.1.toCore = core
    let others := s.cohortsOn core
    let all := others ++ here
    here.all fun (x : CohortId × Cohort) =>
      let p := x.2.part
      let share := s.shareOf core p
      x.2.quads.all (fun q =>
        let y := s.quad ⟨core.chip, core.die, core.core, q⟩
        let shadows := ((Tab.getD s.saves (chip, vf) {}).shadows.filter fun w => w.1 = ⟨core.chip, core.die, core.core, q⟩).length
        share.contains q && usedCrews all q ≤ 32 && s.usedBytes all q ≤ 16384
          && (usedTiles others q).length + (here.map fun y => (Tab.getD y.2.tiles q []).length).foldl (· + ·) 0 ≤ 4
          && shadows ≤ (y.shadows.filter fun w => w.bound.isNone).length)
        && State.usedSlots all p ≤ 16 * share.length && State.usedTags all p ≤ 16 * share.length
        && others.all fun (y : CohortId × Cohort) => y.2.part ≠ p

/-- Whether the quadrants of a context are still in its partition's shares (R337, R400). -/
def State.keepsShares (s : State) (chip vf : Nat) : Bool :=
  (s.cohortsIn chip vf).all fun (x : CohortId × Cohort) => x.2.quads.all fun q => (s.shareOf x.1.toCore x.2.part).contains q

/-- Whether a saved context comes before new non-express launches of its partition: not one that the host saved; one that could be
resumed now, or one pre-empted for express work, whose quadrants wait for it (R336, R337, R400, R418). -/
def State.wouldResume (s : State) (chip vf : Nat) : Bool :=
  let v := s.vf chip vf
  v.ctx = .saved && v.why ≠ .host && (s.couldResume chip vf || (v.why = .express && s.keepsShares chip vf))
    && (v.why ≠ .sluice || v.balance > 0) && !(s.chip chip).hot

/-- The launches of a partition that are not fully placed. -/
def State.waitingGrids (s : State) (chip part : Nat) : List ((Nat × Nat) × Grid) :=
  List.filter (fun (g : (Nat × Nat) × Grid) => g.1.1 = chip && g.2.part = part && (g.2.state = .queued || g.2.state = .placing)) s.grids

/-- Whether a launch may be placed now: its context runs, is mapped, and its AFTER grids have ended; contexts to resume come
before a new launch of another class, but for one that an express launch waits for (R316, R336, R337, R400, R418; log 32). -/
def State.launchOpen (s : State) (chip n : Nat) (g : Grid) : Bool :=
  let v := s.vf chip g.vf
  g.after = [] && v.ctx = .running && v.busy.isNone && !s.unmapped chip g.vf && !(s.chip chip).hot && !g.kill
    && (g.launch.express || g.placed ≠ [] || (s.waitingGrids chip g.part).any (fun e => e.2.launch.express && e.2.after.contains n)
      || !(s.chip chip).vfs.any fun w => w.2.part = g.part && s.wouldResume chip w.1)

/-- The earliest launch of a list. -/
def firstGrid (l : List ((Nat × Nat) × Grid)) : Option (Nat × Grid) :=
  l.foldl (fun (b : Option (Nat × Grid)) g =>
    match b with | some y => if g.2.order < y.2.order then some (g.1.2, g.2) else some y | none => some (g.1.2, g.2)) none

/-- The launch of a partition whose placement comes next: express ones first, each class in order; an express launch that may not be
placed yet holds back no earlier one (R323, R337). -/
def State.headLaunch (s : State) (chip part : Nat) : Option (Nat × Grid) :=
  let l := s.waitingGrids chip part
  match firstGrid (l.filter fun g => g.2.launch.express), firstGrid (l.filter fun g => !g.2.launch.express) with
  | some e, some f => if f.2.order < e.2.order && !s.launchOpen chip e.1 e.2 then some f else some e
  | some e, none => some e
  | none, f => f

/-- The cores of a launch's set that have no cohort of it yet, those of them that one fits now, and the whole set. -/
def State.readyCores (s : State) (chip : Nat) (g : Grid) : Option (List CoreId × List CoreId × List CoreId) :=
  let realm := (s.vf chip g.vf).realm
  let set := if g.set' = [] then s.chooseSet chip g.vf g.part g.launch else some (g.set'.map fun p => (⟨chip, p.1, p.2⟩ : CoreId))
  set.map fun l =>
    let left := l.filter fun c => !g.placed.contains (c.die, c.core)
    (left, left.filter fun c => s.fitsNow c g.part realm g.launch, l)

/-- Whether the cores that are left of a launch's set lack room for a cohort now: all of them; any of them for a cooperative grid. -/
def State.lacksRoom (s : State) (chip : Nat) (g : Grid) : Bool :=
  match s.readyCores chip g with
  | some (left, ready, _) => if g.launch.coop then ready.length < left.length else ready = []
  | none => true

/-- The cores on which a partition's launch can place a cohort now: all that are left of a cooperative grid, else the first;
with the whole set. -/
def State.nextCores (s : State) (chip : Nat) (g : Grid) : Option (List CoreId × List CoreId) :=
  (s.readyCores chip g).bind fun (left, ready, l) =>
    if g.launch.coop then (if left ≠ [] && ready.length = left.length && s.framesFor chip g.vf g.part g.launch left then some (left, l) else none)
    else match ready.find? fun c => s.framesFor chip g.vf g.part g.launch [c] with
      | some c => some ([c], l)
      | none => none

/-- A partition's placement, where it has one to make. -/
def State.placement (s : State) (chip part : Nat) : Option (Nat × Grid × List CoreId × List CoreId) :=
  (s.headLaunch chip part).bind fun (n, g) =>
    if s.launchOpen chip n g then (s.nextCores chip g).map fun (cs, l) => (n, g, cs, l) else none

/-- A partition's first launch where its turn has come and its cohort fits, but the frames that it needs have been taken since it was
validated and none of its cohorts is placed: the lockkeeper rejects it with reason 0x09 (R362). One with cohorts placed waits for
frames (DESIGN CHOICE, log 32). -/
def State.frameless (s : State) (chip part : Nat) : Option (Nat × Grid) :=
  (s.headLaunch chip part).bind fun (n, g) =>
    if s.launchOpen chip n g && g.placed = [] && (s.nextCores chip g).isNone && !s.lacksRoom chip g
      then some (n, g) else none

/-- A grid has ended; those that waited for it under AFTER go on (R316). -/
def State.endGrid (s : State) (chip grid : Nat) : State :=
  let g := s.grid chip grid
  let s := s.setGrid chip grid { g with state := .ended }
  { s with grids := s.grids.map fun k (h : Grid) =>
      if k.1 = chip && h.after.contains grid then { h with after := h.after.filter (· ≠ grid), start := join h.start g.know, know := join h.know g.know } else h }

/-- R323: the next cohort of a partition's first launch, or all cohorts of a cooperative one. Express launches of any
partition come first; else the partition served longest ago. A launch whose frames are gone is rejected here (R362). -/
def execCohortPlace (chip : Nat) (part : Nat) (s : State) : Host.Outcome State Fault Refusal :=
  .next (match s.placement chip part with
    | none => match s.frameless chip part with
      | some (n, g) => (s.complete chip g 1 9).endGrid chip n
      | none => s
    | some (n, g, cs, l) =>
      let pos := fun (p : Nat) => if (s.chip chip).turn.contains p then ((s.chip chip).turn.takeWhile (· ≠ p)).length + 1 else 0
      let ahead := (List.range 12).any fun p => (s.placement chip p).any fun y =>
        (y.2.1.launch.express && !g.launch.express) || (y.2.1.launch.express = g.launch.express && pos p < pos part)
      if ahead then s
      else
        let s1 := s.modGrid chip n fun g => { g with set' := l.map fun c => (c.die, c.core) }
        match cs.foldl (fun (r : Option State) c => r.bind fun s => s.placeCohort chip n c (l.takeWhile (· ≠ c)).length) (some s1) with
        | some s2 => s2.modChip chip fun h => { h with turn := h.turn.filter (· ≠ part) ++ [part] }
        | none => s)

/-! ## The ends of cohorts and grids (R161, R301, R325) -/

/-- Writes an entry's ISSUEPC, FIRED and STATUS back to it; a reader of STATUS has the edges (R295, R298). -/
def State.entryStatus (s : State) (e : EntrySlot) (status : Nat) (know : List Nat) (edges : List Edge) : State :=
  let bs := bytesLE 8 e.pc.toNat ++ bytesLE 4 e.fired ++ bytesLE 4 status
  if birthOf e.addr = 0xFFF then
    match s.reach e.thread e.addr 128 true with
    | .place a => (s.store (a + 0x48) bs).addEdges (a + 0x54) 4 (edgesWith e.thread know edges)
    | _ => s
  else (s.deviceStore { chip := e.thread.cohort.chip, vf := (s.cohort e.thread.cohort).vf, off := 12 } (ptrAdd e.addr 0x48) bs know edges).2

/-- Retires an entry: RETIRED with other bits of STATUS, which carries every event of its firings; its slot is free, and its place in
a reduction slot (R298, R301, R303). -/
def State.retireSlot (s : State) (d : DieId) (k : Nat) (status : Nat) : State :=
  match Tab.get? (s.die d).slots k with
  | none => s
  | some e =>
    let s := (s.entryStatus e (2 + status) (join e.know e.heard) e.edges).modDie d fun x => { x with slots := Tab.del x.slots k }
    let out := s.redSlots.map fun _ (r : RedSlot) => { r with members := r.members.filter (· ≠ (d, k)) }
    { s with redSlots := List.filter (fun (r : (Nat × Nat) × RedSlot) => r.2.members ≠ []) out }

/-- R161: every thread of the cohort has ended, or it was terminated; what it holds is freed and cleared. -/
def State.endCohort (s : State) (c : CohortId) : State :=
  let x := s.cohort c
  let s := (List.map (·.1) (s.ops.filter fun p => p.2.thread.cohort = c)).foldl State.abortOp s
  let s := (((s.die c.toDie).slots.filter fun e => e.2.thread.cohort = c).map (·.1)).foldl (fun s k => s.retireSlot c.toDie k 0) s
  let s := x.tiles.foldl (fun s t =>
    let q : QuadId := ⟨c.chip, c.die, c.core, t.1⟩
    s.modQuad q fun y =>
      { y with acc := t.2.foldl (fun a k => a.set k []) y.acc, poison := t.2.foldl (fun a k => a.set k false) y.poison
               shadows := y.shadows.map fun w => if w.bound.any (fun b => b.1 = c) then {} else w }) s
  let s := (s.freeFrames c.toDie x.frames).unpin c
  let s := s.modGrid c.chip c.grid fun g => { g with done := g.done + 1 }
  (s.modCohort c fun y => { y with ended := true, timers := [], tiles := [], frames := [] }).settleDefer c.chip x.vf

/-- The transfers of a cohort that still perform transactions whose writes have begun (R288). -/
def State.performing (s : State) (c : CohortId) : List Nat :=
  (s.ops.filter fun p => p.2.thread.cohort = c && match p.2.body with | .xfer x => x.begunParts ≠ [] | _ => false).map (·.1)

/-- R161: once every thread has ended; a firing in progress stops at a transaction boundary first (R301). -/
def execCohortEnd (c : CohortId) (s : State) : Host.Outcome State Fault Refusal :=
  .next (if !s.live c || !s.awake c || !(s.threadsOf c).all fun t => (s.thread t).run = .ended then s
    else if s.performing c ≠ [] then (s.performing c).foldl State.abortOp s
    else s.endCohort c)

/-- R325: the grid's last cohort has ended; its completion record is written, then its DONEH signalled, and grids that waited
for it under AFTER go on. -/
def execGridEnd (chip : Nat) (grid : Nat) (s : State) : Host.Outcome State Fault Refusal :=
  let g := s.grid chip grid
  .next (if g.state ≠ .running || g.done < g.placed.length || g.kill then s
    else (s.complete chip g (if g.killed' > 0 then 2 else 0) 0).endGrid chip grid)

/-! ## The tile dispenser (R329, R330) -/

/-- R330. -/
def execTfetch (f : Fields) (s : State) : Host.Outcome State Fault Refusal :=
  s.runThreads (.tfetch f) noHold fun _ b t s =>
    let d := f.dst.toNat
    let lin := decide (f.ctl = 1)
    .done (s.addOp { s.newOp b t (some 4) (.tfetch d lin) with dst := if d = 255 then [] else (List.range (if lin then 1 else 4)).map (d + ·) }).2

/-- R329: a fetch takes the next unissued index, after its thread's earlier fetches. -/
def execDispenserFetch (op : Nat) (s : State) : Host.Outcome State Fault Refusal :=
  .next (match s.op? op with
    | some o =>
      match o.body with
      | .tfetch d lin =>
        let c := o.thread.cohort
        let before := s.ops.any fun q => q.1 < op && q.2.thread = o.thread && match q.2.body with | .tfetch _ _ => true | _ => false
        if before || !s.opMoves op o then s
        else
          let g := s.grid c.chip c.grid
          let x := g.launch
          let k := g.next
          let taken := k < x.tiles'
          let ones := 0xFFFFFFFF
          let l := if taken then (x.tbase.toNat + k) % 2 ^ 32 else ones
          let y := max 1 x.tdimy
          let v := if !taken then [ones, ones, ones, ones] else [l, k % x.tdimx, k / x.tdimx % y, k / (x.tdimx * y)]
          let s := if taken then s.modGrid c.chip c.grid fun g => { g with next := k + 1 } else s
          (s.modThread o.thread fun r => r.setRegs d (if lin then 1 else 4)
            (((List.range 4).map fun i => v.getD i 0 * 2 ^ (32 * i)).foldl (· + ·) 0)).endOp op
      | _ => s
    | none => s)

end Sys2Proof.Machine
end

