-- ==== Sys2Proof/Machine/Matrix.lean ====
section
/-! DEFINITION. The matrix unit (R124 to R168): issue of MMAG, MMAQ, MDRAIN, GRES and GCANCEL, the array's steps, open groups,
run-ahead, drains and completion. -/

namespace Sys2Proof.Machine

/-! ## Formats and rows (R127 to R130) -/

def aType (fmt : Nat) : Nat := fmt % 16
def bType (fmt : Nat) : Nat := fmt / 16 % 16
def scaleA (fmt : Nat) : Bool := fmt / 256 % 2 = 1
def scaleB (fmt : Nat) : Bool := fmt / 512 % 2 = 1
def accInt (fmt : Nat) : Bool := fmt / 1024 % 4 = 1

/-- The rate class of a legal format word: matrix cycles of a step of 32 along K (R128, R146). -/
def rateOf (fmt : Nat) : Option Nat :=
  let a := aType fmt
  let b := bType fmt
  let acc := fmt / 1024 % 4
  let sc := fmt / 256 % 4
  let eight := fun t => 3 ≤ t && t ≤ 5
  let int := fun t => t = 8 || t = 9
  if fmt ≥ 4096 then none
  else if a = 5 ∧ b = 5 then (if acc = 0 ∧ sc = 0 then some 16 else none)
  else if eight a && eight b then (if acc = 0 ∧ (sc % 2 = 1 → a = 3) ∧ (sc / 2 = 1 → b = 3) then some 32 else none)
  else if int a && int b then (if acc = 1 ∧ sc = 0 then some 32 else none)
  else if (a = 1 ∧ b = 1) ∨ (a = 2 ∧ b = 2) then (if acc = 0 ∧ sc = 0 then some 128 else none)
  else if a = 0 ∧ b = 0 then (if acc = 0 ∧ sc = 0 then some 512 else none)
  else none

/-- Where elements k to k + n − 1 of a row lie: offset and length in bytes (R129). -/
def rowSpan (fmt k n : Nat) : Nat × Nat :=
  match fmtBits fmt with
  | 6 => (4 * (k / 5), 4 * ((k + n + 4) / 5 - k / 5))
  | w => (k * (w / 8), n * (w / 8))
/-- The length of a row of n elements in bytes (R129). -/
def rowLen (fmt n : Nat) : Nat := (rowSpan fmt 0 n).2
/-- Element k + j of a row, from the bytes of rowSpan. -/
def rowElem (fmt k : Nat) (bs : List Byte) (j : Nat) : Nat :=
  match fmtBits fmt with
  | 6 => ofBytesLE ((bs.drop (4 * ((k + j) / 5 - k / 5))).take 4) / 2 ^ (6 * ((k + j) % 5)) % 64
  | w => ofBytesLE ((bs.drop (j * (w / 8))).take (w / 8))
/-- The bytes of a row of elements from element 0; a partly filled word of TF6 has zeros (R165). -/
def rowBytes (fmt : Nat) (l : List Nat) : List Byte :=
  match fmtBits fmt with
  | 6 => (List.range ((l.length + 4) / 5)).flatMap fun i =>
      bytesLE 4 (((List.range 5).map fun j => l.getD (5 * i + j) 0 * 2 ^ (6 * j)).foldl (· + ·) 0)
  | w => l.flatMap fun v => bytesLE (w / 8) v

/-! ## Accumulation (R135, R136) -/

/-- The sum of a block's products, each truncated to the 80-bit window that the largest anchors: multiples of 2^lsb. -/
def windowSum (ps : List Val) : Int × Int :=
  let nz := ps.filterMap fun p => match p with | .fin n m e => if m = 0 then none else some (n, m, e) | _ => none
  match nz with
  | [] => (0, 0)
  | (_, m0, e0) :: rest =>
    let top := rest.foldl (fun t p => max t ((Nat.log2 p.2.1 : Int) + p.2.2)) ((Nat.log2 m0 : Int) + e0)
    let lsb := top - 73
    let trunc := fun (p : Bool × Nat × Int) =>
      let v : Nat := if p.2.2 ≥ lsb then p.2.1 * 2 ^ (p.2.2 - lsb).toNat else p.2.1 / 2 ^ (lsb - p.2.2).toNat
      if p.1 then -(v : Int) else (v : Int)
    ((nz.map trunc).foldl (· + ·) 0, lsb)

/-- The rounded, scaled block sum q as an FP32 encoding; c is the scale product's exponent, none for a NaN scale (R135). -/
def blockSum (nbv : Nat) (ps : List Val) (c : Option Int) : Nat :=
  let inf := fun (b : Bool) => ps.any fun p => p = .inf b
  match c with
  | none => nanOf 0
  | some c =>
    if ps.any (fun p => p = .nan) || (inf true && inf false) then nanOf 0
    else if inf true then signBit 0 true + infCode 0
    else if inf false then infCode 0
    else
      let (v, e) := windowSum ps
      if v = 0 then 0
      else if nbv = 2 then roundFin 0 1 false (v < 0) v.natAbs (e + c) 0
      else convertVal 0 1 false (mulVal (valOf 0 (roundFin 0 2 false (v < 0) v.natAbs e 0)) (.fin false 1 c)) 0

/-- A tile word after one block (R135). -/
def accumulate (nbv : Nat) (int : Bool) (old : Word) (as bs : List Val) (c : Option Int) : Word :=
  let ps := List.zipWith mulVal as bs
  if int then
    let sum : Int := (ps.map fun p => match p with | .fin n m _ => if n then -(m : Int) else (m : Int) | _ => 0).foldl (· + ·) 0
    BitVec.ofInt 32 (old.toNat + sum)
  else BitVec.ofNat 32 (faddBits 0 1 false old.toNat (blockSum nbv ps c) 0)

/-! ## Issue (R138 to R142) -/

/-- The active members that dissent from the vote on their values, a tie going to the lowest lane (R139). -/
def dissenters (l : List (ThreadId × Nat)) : List ThreadId :=
  let count := fun v => (l.filter fun x => x.2 = v).length
  match l with
  | [] => []
  | x :: rest =>
    let win := (rest.foldl (fun w y => if count y.2 > count w.2 then y else w) x).2
    (l.filter fun y => y.2 ≠ win).map (·.1)

/-- What a member reads for a matrix word: SA, SB and SC as numbers; none where a latch it did not write is read (R38, R139). -/
def Thread.matrixSources (x : Thread) (f : Fields) (code : MatCode) (zonly : Bool) : Option (Nat × Nat × Nat) :=
  if zonly then some (0, 0, 0)
  else (x.src64 f.sa).bind fun a =>
    match code with
    | .mmag => (x.b32 f).map fun b => (a.toNat, b.toNat, 0)
    | .mmaq => (x.b64 f).bind fun b => (x.src32 f.sc).map fun c => (a.toNat, b.toNat, c.toNat)
    | .mdrain => (x.b32 f).bind fun b => (x.src32 f.sc).map fun c => (a.toNat, b.toNat, c.toNat)

/-- Whether a drain word with its row stride is legal (R164). -/
def drainLegal (w stride : Nat) : Bool :=
  let fmt := w % 16
  let rm := w / 32 % 8
  let add := w / 512 % 2 = 1
  w < 2 ^ 24 && w / 16 % 2 = 0 && (fmt ≤ 5 || fmt = 8 || fmt = 10 || fmt = 12) && rm < 6 && (fmt ≤ 5 || rm = 0)
    && (!add || fmt = 0 || fmt = 12) && stride ≥ rowLen fmt (w / 2 ^ 17 % 128 + 1)

/-- The outcome of a matrix word's checks before it is queued: a trap with FIELD and MASK, or the command (R140). -/
inductive MatCheck where
  | trap (k : TrapKind) (field mask : Nat)
  | ok (m : MatOp)

/-- The generator after n steps (R89). -/
def xsSteps : Nat → Word → Word
  | 0, s => s
  | n + 1, s => xsSteps n (xsNext s)

/-- The command that the active members issue, checked in the order of R140. -/
def State.matrixCheck (s : State) (f : Fields) (code : MatCode) (ts : List ThreadId) : MatCheck :=
  let zonly := decide (code = .mdrain) && f.dst.toNat / 16 % 2 = 1
  let resume := decide (code ≠ .mdrain) && f.dst.toNat / 16 % 2 = 1
  let reads := ts.filterMap fun t => ((s.thread t).matrixSources f code zonly).map fun v => (t, v)
  match ts with
  | [] => .trap .illegalOperand 0 0
  | t :: _ =>
    if reads.length ≠ ts.length then .trap .illegalOperand 0 0
    else
      let lanes := fun (l : List ThreadId) => (l.map fun t => 2 ^ (t.tid % 32)).foldl (· + ·) 0
      let items := [(1, reads.map fun r => (r.1, r.2.1)), (2, reads.map fun r => (r.1, r.2.2.1)), (3, reads.map fun r => (r.1, r.2.2.2))]
        ++ (if resume then [(0, ts.map fun t => (t, (s.thread t).rowprog.toNat))] else [])
      match items.find? fun i => dissenters i.2 ≠ [] with
      | some i => .trap .formatDivergence i.1 (lanes (dissenters i.2))
      | none =>
        let (a, b, c) := (reads.head?.map (·.2)).getD (0, 0, 0)
        let x := s.thread t
        let q := x.quad
        let prog := x.rowprog
        let bad := match code with
          | .mmag => (rateOf b).isNone
          | .mmaq => (rateOf c).isNone
          | .mdrain => !zonly && (!drainLegal b c || offsetOf (BitVec.ofNat 64 a) % 16 ≠ 0 || c % 16 ≠ 0)
        if bad || (resume && prog.toNat % 2 = 0) then .trap .illegalOperand 0 0
        else
          .ok { code := code, members := ts, quad := q
                tile := (Tab.getD (s.cohort t.cohort).tiles q.quad []).getD (f.dst.toNat % 4) 0
                queue := f.dst.toNat / 4 % 2, acc := f.dst.toNat / 8 % 2 = 1, zero := f.dst.toNat / 8 % 2 = 1, zonly := zonly
                resume := resume, a := BitVec.ofNat 64 a, b := BitVec.ofNat 64 b
                fmt := BitVec.ofNat 32 (if code = .mmaq then c else b), stride := c
                rmode := let m := b / 32 % 8
                         if m = 0 then x.rmode.toNat else m
                seed := x.srseed, nbv := if (s.launchOf t.cohort).nbv % 4 = 1 then 1 else 2
                slot := if f.modG then some (s.bindSlot t.cohort f.modSlot) else none
                nb := if f.modSig then some f.modNb else none
                prog := if resume then prog else 0 }

/-- A word's cursor from a value of %rowprog (R157). -/
def MatOp.start (m : MatOp) : MatOp :=
  let p := m.prog.toNat
  if m.resume then { m with group := bitsOf p 63 60, block := bitsOf p 59 48, batch := bitsOf p 47 40, bend := bitsOf p 39 32, row := bitsOf p 31 24 }
  else m

/-- Generator steps that a drain consumes (R165, R166). -/
def MatOp.draws (m : MatOp) : Nat :=
  let w := m.fmt.toNat
  if m.code = .mdrain && !m.zonly && m.rmode = 5 && w % 16 ≤ 5 then (w / 2 ^ 17 % 128 + 1) * (w / 2 ^ 10 % 128 + 1) else 0

/-- MMAG, MMAQ and MDRAIN: one command for the active members; none without any (R138 to R142). -/
def State.matrixWord (s : State) (i : Instr) (f : Fields) (code : MatCode) : Host.Outcome State Fault Refusal :=
  let hold := fun (s : State) (_ : Bundle) (ts : List ThreadId) =>
    match s.matrixCheck f code ts with
    | .ok m => if ((s.quad m.quad).queues.getD m.queue []).length ≥ 32 then some 0 else none
    | .trap _ _ _ => none
  .next (s.runBundle i hold noEarly fun s _ _ b ts =>
    match ts with
    | [] => s
    | t :: _ =>
      match s.matrixCheck f code ts with
      | .trap k field mask =>
        ts.foldl (fun s t => if (s.thread t).run = .issuing then
          s.takeTrap t { kind := k, record := trapRec k 0 b.word b.pc 0 0 field mask false false, point := b.point .word false } else s) s
      | .ok m =>
        let forks := ts.map fun u => s.newOp b u (some 4) (.matrix m.start)
        let (id, s) := s.addOp { s.newOp b t (some 4) (.matrix m.start) with
          know := forks.foldl (fun k o => join k o.know) [], edges := forks.flatMap (·.edges) }
        let s := s.modQuad m.quad fun q => { q with queues := q.queues.set m.queue (q.queues.getD m.queue [] ++ [id]) }
        let s := if m.resume then ts.foldl (fun s t => s.modThread t fun x => { x with rowprog := x.rowprog &&& ~~~1 }) s else s
        s.modThread t fun x => { x with srseed := xsSteps m.draws x.srseed })

/-- R162. -/
def execMmag (f : Fields) (s : State) := s.matrixWord (.mmag f) f .mmag
/-- R163. -/
def execMmaq (f : Fields) (s : State) := s.matrixWord (.mmaq f) f .mmaq
/-- R164. -/
def execMdrain (f : Fields) (s : State) := s.matrixWord (.mdrain f) f .mdrain
/-- R164. -/
def execMdrainZonly (f : Fields) (s : State) := s.matrixWord (.mdrainZonly f) f .mdrain

/-! ## Memory as the unit reaches it (R134, R147, R155) -/

/-- Whether a read or write of the unit waits (R134, R147, R182). -/
def State.matWaits (s : State) (id : Nat) (m : MatOp) (t : ThreadId) (p : DWord) (n : Nat) (wr : Bool) : Bool :=
  m.members.any (fun u => s.forkHeld u id p n) || s.engineWaits t id p n wr

/-- What a command does whose read or write waits (R147, R182). -/
def State.matWait (s : State) (id : Nat) (m : MatOp) (t : ThreadId) (p : DWord) (n : Nat) (wr : Bool) : State :=
  s.engineWait t id (m.members.any fun u => s.forkHeld u id p n) p n wr

/-- The fault of an address outside the spaces that matrix commands reach: objects and chip-local SERIAL 0 and 1 (R155). -/
def State.matSpace (s : State) (p : DWord) : Option Nat :=
  if birthOf p = 0xFFE || (birthOf p = 0xFFF && serialOf p ≥ 2) then some 0x12
  else if isGlobal p && serialOf p = 0 then some 2
  else if isGlobal p && (s.obj? p).isNone && (s.window? p).isSome then some 0x12
  else none

/-- What a read of the unit gives: bytes, a wait, or a fault with its address. -/
inductive MatRead where
  | bytes (bs : List Byte)
  | wait (p : DWord) (n : Nat)
  | fault (cause : Nat) (p : DWord)

/-- The n bytes at an offset from a base. DESIGN CHOICE (log 59): where the sum leaves the OFFSET range the cause is Access, with
the base as its address (R155 names none). -/
def State.matRead (s : State) (id : Nat) (o : Op) (m : MatOp) (base : DWord) (off : Nat) (n : Nat) : MatRead :=
  if !ptrFits base off then .fault 3 base
  else
    let p := ptrAdd base off
    match s.matSpace p with
    | some c => .fault c p
    | none =>
      if s.matWaits id m o.thread p n false then .wait p n
      else match s.engineRead o.thread p n with
        | .ok bs => .bytes bs
        | .error c => .fault c (if c = 4 then s.failAt o.thread p n else p)

/-! ## Shapes (R131, R132) -/

structure MatGroup where
  a  : DWord
  b  : DWord
  as : DWord
  bs : DWord
  rowbase : Nat
  cap : Nat
deriving DecidableEq, Repr, Inhabited

structure MatShape where
  k : Nat
  n : Nat
  flags : Nat
  counts : DWord
  astride : Nat
  bstride : Nat
  asstride : Nat
  bsstride : Nat
  groups : List MatGroup
deriving DecidableEq, Repr, Inhabited

/-- A command's operands, from its handles or its parameter block as read. -/
def MatOp.shape (m : MatOp) : MatShape :=
  let at' := fun off n => ofBytesLE ((m.header.drop off).take n)
  let ptr := fun off => BitVec.ofNat 64 (at' off 8)
  match m.code with
  | .mmaq =>
    { k := 32 * at' 0x1A 2, n := at' 0x38 2, flags := 0, counts := 0, astride := at' 0x10 4, bstride := at' 0x30 4
      asstride := at' 0x14 4, bsstride := at' 0x34 4
      groups := [{ a := ptr 0, b := ptr 0x20, as := ptr 8, bs := ptr 0x28, rowbase := 0, cap := at' 0x18 2 }] }
  | _ =>
    { k := at' 0 4, n := at' 4 2, flags := at' 7 1 % 4, counts := ptr 8, astride := at' 0x10 4, bstride := at' 0x14 4
      asstride := at' 0x18 4, bsstride := at' 0x1C 4
      groups := (List.range (at' 6 1)).map fun g =>
        let d := 64 + 64 * g
        { a := ptr d, b := ptr (d + 8), as := ptr (d + 0x10), bs := ptr (d + 0x18), rowbase := at' (d + 0x20) 1, cap := at' (d + 0x21) 1 } }

/-- Whether a shape breaks R129 to R132, or a start point R158. -/
def MatOp.paramBad (m : MatOp) : Bool :=
  let sh := m.shape
  let at' := fun off n => ofBytesLE ((m.header.drop off).take n)
  let f := m.fmt.toNat
  let block := if m.nbv = 2 then 32 else 16
  let overlapping := (List.range sh.groups.length).any fun i => (List.range i).any fun j =>
    let x := sh.groups.getD i default
    let y := sh.groups.getD j default
    x.rowbase < y.rowbase + y.cap && y.rowbase < x.rowbase + x.cap
  let g := sh.groups.getD m.group default
  (m.code = .mmaq && (at' 0x1A 2 ≠ at' 0x3A 2 || at' 0x1A 2 > 2048))
  || sh.k % 32 ≠ 0 || sh.k < 32 || sh.k > 65536 || sh.n = 0 || sh.n > 128
  || (m.code = .mmag && offsetOf sh.counts % 4 ≠ 0)
  || sh.astride % 16 ≠ 0 || sh.bstride % 16 ≠ 0 || sh.astride < rowLen (aType f) sh.k || sh.bstride < rowLen (bType f) sh.k
  || (scaleA f && sh.asstride < (sh.k + 127) / 128) || (scaleB f && sh.bsstride < (sh.k + 127) / 128)
  || (sh.groups.any fun x => offsetOf x.a % 16 ≠ 0 || offsetOf x.b % 16 ≠ 0 || (scaleA f && x.as = 0) || (scaleB f && x.bs = 0)
        || x.cap = 0 || x.rowbase + x.cap > 128)
  || overlapping
  || (m.resume && (m.group ≥ sh.groups.length || m.block ≥ sh.k / block || m.bend ≤ m.batch || m.bend > g.cap || m.row < m.batch || m.row > m.bend))

/-! ## Tiles and shadows (R125, R153, R156) -/

def State.modShadow (s : State) (q : QuadId) (k : Nat) (f : Shadow → Shadow) : State :=
  s.modQuad q fun x => { x with shadows := x.shadows.set k (f (x.shadows.getD k {})) }

/-- The tile that a command updates: its own, or its shadow. -/
def State.target (s : State) (m : MatOp) : List Word :=
  match m.shadow with
  | some k => ((s.quad m.quad).shadows.getD k {}).data
  | none => (s.quad m.quad).acc.getD m.tile []
def State.setTarget (s : State) (m : MatOp) (d : List Word) : State :=
  match m.shadow with
  | some k => s.modShadow m.quad k fun x => { x with data := d }
  | none => s.modQuad m.quad fun q => { q with acc := q.acc.set m.tile d }
def State.poisoned (s : State) (m : MatOp) : Bool :=
  match m.shadow with
  | some k => ((s.quad m.quad).shadows.getD k {}).err
  | none => (s.quad m.quad).poison.getD m.tile false
def State.setPoison (s : State) (m : MatOp) (v : Bool) : State :=
  match m.shadow with
  | some k => s.modShadow m.quad k fun x => { x with err := v }
  | none => s.modQuad m.quad fun q => { q with poison := q.poison.set m.tile v }

/-- A command out of its queue. -/
def State.dequeue (s : State) (id : Nat) (m : MatOp) : State :=
  s.modQuad m.quad fun q => { q with queues := q.queues.map fun l => l.filter (· ≠ id) }

/-- A command's progress as a value of %rowprog (R157): VALID where a batch has begun. -/
def MatOp.progress (m : MatOp) : DWord :=
  if m.code = .mdrain || m.bend = 0 then 0
  else BitVec.ofNat 64 (2 ^ 60 * (m.group % 16) + 2 ^ 48 * (m.block % 4096) + 2 ^ 40 * (m.batch % 256) + 2 ^ 32 * (m.bend % 256) + 2 ^ 24 * (m.row % 256) + 1)

/-! ## Queue heads (R143, R144, R152, R153) -/

/-- Whether a command and a shadow have the same target and epoch. -/
def MatOp.bindsTo (m : MatOp) (c : CohortId) (x : Shadow) : Bool := match m.slot with | some b => x.bound = some (c, m.tile, b.1, b.2) | none => false

/-- What the epoch of a command's slot has come to: none while it is OPEN; a command without a slot runs as under TRUE (R152). -/
def State.matOutcome (s : State) (o : Op) (m : MatOp) : Option Bool :=
  match m.slot with
  | none => some true
  | some b => s.slotOutcome o.thread.cohort b

/-- Whether R143 lets a command begin: every earlier command that names its tile has completed or, while the epoch is OPEN, has applied
its last step into the shadow that this one is bound to. DESIGN CHOICE (log 68): one that is bound to a shadow passes no other earlier
command of its tile. -/
def State.matMayBegin (s : State) (id : Nat) (o : Op) (m : MatOp) : Bool :=
  !s.ops.any fun p => p.1 < id && !p.2.closing && s.resident p.2.thread.cohort && match p.2.body with
    | .matrix n => n.quad = m.quad && n.tile = m.tile
        && !(m.code ≠ .mdrain && s.matOutcome o m = none && n.ended
              && n.shadow.any fun k => m.bindsTo o.thread.cohort ((s.quad m.quad).shadows.getD k {}))
    | _ => false

/-- The head of a queue. -/
def State.headOf (s : State) (q : QuadId) (j : Nat) : Option (Nat × Op × MatOp) :=
  ((s.quad q).queues.getD j []).head?.bind fun id => (s.op? id).bind fun o => match o.body with | .matrix m => some (id, o, m) | _ => none

/-- Binds a product command whose epoch is OPEN to a shadow tile, if it can run ahead (R153). -/
def State.bindShadow (s : State) (o : Op) (m : MatOp) : Option (MatOp × State) :=
  let x := s.quad m.quad
  let c := o.thread.cohort
  let ids := List.range x.shadows.length
  match ids.find? fun k => m.bindsTo c (x.shadows.getD k {}) with
  | some k => some ({ m with shadow := some k }, s)
  | none =>
    if x.shadows.any fun y => y.bound.any fun b => b.1 = c && b.2.1 = m.tile then none
    else match ids.find? fun k => (x.shadows.getD k {}).bound.isNone, m.slot with
      | some k, some b =>
        some ({ m with shadow := some k }, s.modShadow m.quad k fun _ =>
          { bound := some (c, m.tile, b.1, b.2), data := x.acc.getD m.tile [], err := x.poison.getD m.tile false })
      | _, _ => none

/-- Where a product command may apply a step: in its tile where its epoch is TRUE and R143 lets it, else in a shadow tile (R152, R153). -/
def State.bound (s : State) (id : Nat) (o : Op) (m : MatOp) : Option (MatOp × State) :=
  if m.shadow.isSome then some (m, s)
  else match s.matOutcome o m with
    | some true => if s.matMayBegin id o m then some (m, s) else none
    | some false => none
    | none => s.bindShadow o m

/-- A product command has applied its last step, or stops on a fault: poison is set or, by a resuming command that
completes, cleared; one in a shadow leaves its queue (R153, R156). -/
def State.endProduct (s : State) (id : Nat) (o : Op) (m : MatOp) (err : Option (Nat × DWord)) : State :=
  match s.bound id o m with
  | none => s
  | some (m, s) =>
    let m := { m with ended := true, active := false, err := err, loadA := [], loadB := [] }
    let s := match err with
      | some _ => s.setPoison m true
      | none => if m.resume then s.setPoison m false else s
    let s := (s.unqueue [id]).setOp id { o with body := .matrix m }
    if m.shadow.isSome then s.dequeue id m else s

/-- A command reads its handles or its parameter block as it begins (R131, R132, R134): its bytes, a wait, or a fault. -/
def State.readHeader (s : State) (id : Nat) (o : Op) (m : MatOp) : MatRead :=
  match m.code with
  | .mmaq =>
    if offsetOf m.a % 32 ≠ 0 then .fault 1 m.a
    else if offsetOf m.b % 32 ≠ 0 then .fault 1 m.b
    else match s.matRead id o m m.a 0 32, s.matRead id o m m.b 0 32 with
      | .fault c p, _ => .fault c p
      | .wait p n, _ => .wait p n
      | _, .fault c p => .fault c p
      | _, .wait p n => .wait p n
      | .bytes x, .bytes y => .bytes (x ++ y)
  | _ =>
    if offsetOf m.a % 64 ≠ 0 then .fault 1 m.a
    else match s.matRead id o m m.a 0 64 with
      | .bytes h =>
        let g := (h.getD 6 0).toNat
        if g = 0 ∨ g > 16 then .fault 1 m.a
        else match s.matRead id o m m.a 64 (64 * g) with
          | .bytes d => .bytes (h ++ d)
          | r => r
      | r => r

/-- The level of the scope at which row-count entries are read (R132, R24, R25). -/
def State.entryScope (s : State) (t : ThreadId) (flags : Nat) : Nat :=
  effScope (s.launchOf t.cohort).ladder (match flags with | 0 => 2 | 1 => 4 | 2 => 5 | _ => 7)

/-- A group's row-count entry, read as an acquire (R133, R134): COUNT and OPEN with the clock acquired; or a wait or a fault. -/
def State.readEntry (s : State) (id : Nat) (o : Op) (m : MatOp) (sh : MatShape) (g : Nat) : MatRead × List Nat :=
  match m.code with
  | .mmaq => (.bytes (bytesLE 4 ((sh.groups.getD 0 default).cap)), [])
  | _ =>
    let r := s.matRead id o m sh.counts (4 * g) 4
    let p := ptrAdd sh.counts (4 * g)
    (r, match (s.reach o.thread p 4 false).here p with
      | .place a => s.acquires o.thread (s.entryScope o.thread sh.flags) (s.syncs.filter fun r => r.at' a 4)
      | _ => [])

/-- One visit of a group (R148): none where its entry cannot be read yet. -/
def State.visit (s : State) (id : Nat) (o : Op) (m : MatOp) (sh : MatShape) (g : Nat) : Option (Op × MatOp × Option (Nat × DWord)) :=
  let (r, k) := s.readEntry id o m sh g
  let o := { o with know := join o.know k }
  let p := m.groups.getD g {}
  let addr := ptrAdd sh.counts (4 * g)
  match r with
  | .wait _ _ => none
  | .fault c q => some (o, m, some (c, q))
  | .bytes bs =>
    let v := ofBytesLE bs
    let count := v % 256
    let cap := (sh.groups.getD g default).cap
    if count < p.done then some (o, m, some (5, addr))
    else if count > cap then some (o, m, some (6, addr))
    else if count > p.done then
      some (o, { m with active := true, group := g, batch := p.done, bend := count, block := 0, row := p.done }, none)
    else
      some (o, { m with groups := m.groups.set g { p with fin := v / 2 ^ 31 = 0, aside := v / 2 ^ 31 ≠ 0 } }, none)

/-- The unit's way to the next batch, in at most so many visits: a batch is in progress, the command waits, or it has ended (R148).
A batch begins where the command may apply its steps: while its epoch is OPEN, in a shadow tile bound then (R153). -/
def State.seek (s : State) (id : Nat) (o : Op) (m : MatOp) (sh : MatShape) : Nat → State
  | 0 => s.setOp id { o with body := .matrix m }
  | n + 1 =>
    if m.active || m.pass = 2 then s.setOp id { o with body := .matrix m }
    else if (s.bound id o m).isNone then (s.giveUp id).setOp id { o with body := .matrix m }
    else
      match (List.range sh.groups.length).find? fun g => let p := m.groups.getD g {}; !p.fin && !p.aside with
      | some g =>
        match s.visit id o m sh g with
        | none => (s.setOp id { o with body := .matrix m }).matWait id m o.thread (ptrAdd sh.counts (4 * g)) 4 false
        | some (o, m, some e) => s.endProduct id o m (some e)
        | some (o, m, none) =>
          let s := s.giveUp id
          let s := if m.code = .mmaq then s else s.engineCount o.thread (ptrAdd sh.counts (4 * g)) 4
          let m := if m.active then { m with pass := min m.pass 1 } else m
          match (if m.active then s.bound id o m else some (m, s)) with
          | some (m, s) => s.seek id o m sh n
          | none => s
      | none =>
        if m.groups.all fun p => p.fin then s.endProduct id o m none
        else if m.pass = 0 then s.seek id o { m with pass := 1, groups := m.groups.map fun p => { p with aside := false } } sh n
        else s.setOp id { o with body := .matrix { m with pass := 2 } }

/-- The visits that one search needs. -/
def seekFuel : Nat := 40

/-- A product command begins: its operands are read and checked (R131, R132, R156, R158). -/
def State.beginProduct (s : State) (id : Nat) (o : Op) (m : MatOp) : State :=
  match s.readHeader id o m with
  | .wait p n => s.matWait id m o.thread p n false
  | .fault c p => s.endProduct id o { m with begun := true } (some (c, p))
  | .bytes h =>
    let s := (s.giveUp id).engineCount o.thread m.a h.length
    let m := { m with begun := true, header := h }
    if m.paramBad then s.endProduct id o m (some (1, m.a))
    else
      let gs := (List.range m.shape.groups.length).map fun g =>
        if m.resume && g < m.group then ({ fin := true } : GroupProg) else if m.resume && g = m.group then { done := m.batch } else {}
      let o := { o with know := s.engineHeard o.thread m.a h.length o.know }
      match (if m.resume then s.bound id o m else some (m, s)) with
      | some (m, s) => s.seek id o { m with groups := gs, active := m.resume } m.shape seekFuel
      | none => s

/-- A queue head made ready for a step: begun and with a batch in progress, where it can be (R143, R144, R152, R153). -/
def State.prepare (s : State) (q : QuadId) (j : Nat) : State :=
  match s.headOf q j with
  | none => s
  | some (id, o, m) =>
    if m.code = .mdrain || m.ended || s.matOutcome o m = some false then s
    else if m.begun then (if m.active then s else s.seek id o m m.shape seekFuel)
    else if !s.matMayBegin id o m then s.giveUp id
    else match s.bound id o m with
      | none => s.giveUp id
      | some (m', s') =>
        if s'.poisoned m' && !m.resume then
          -- skipped: the tile stays as it is (R156)
          let s := s'.setOp id { o with body := .matrix { m' with begun := true, ended := true, err := some (7, m.a) } }
          if m'.shadow.isSome then s.dequeue id m' else s
        else s.beginProduct id o m

/-- Whether a queue's head is runnable: a product command that R143 does not hold back, that waits for no open group, and whose epoch is
TRUE, or OPEN where it can run ahead (R144, R148, R151 to R153). Its reads may still wait. -/
def State.runnable (s : State) (q : QuadId) (j : Nat) : Bool :=
  match s.headOf q j with
  | some (id, o, m) =>
    m.code ≠ .mdrain && !m.ended && s.matOutcome o m ≠ some false
      && (m.active || (m.pass < 2 && (m.begun || s.matMayBegin id o m) && (s.bound id o m).isSome))
  | none => false

/-! ## One step of the array (R135, R144, R146, R148) -/

/-- The scale of a row's block: the exponent, or none for the NaN code (R80, R130). -/
def scaleOf (b : Byte) : Option Int := if b = 0xFF then none else some ((b.toNat : Int) - 127)

/-- One operand of a block: its format, rows and scales, and its elements k to k + n − 1. -/
structure Operand where
  fmt     : Nat
  base    : DWord
  stride  : Nat
  scaled  : Bool
  sbase   : DWord
  sstride : Nat
  k       : Nat
  n       : Nat

/-- The operands B and A of a command's present block (R131, R132). -/
def MatOp.operandB (m : MatOp) (sh : MatShape) (l : Nat) : Operand :=
  let g := sh.groups.getD m.group default
  { fmt := bType m.fmt.toNat, base := g.b, stride := sh.bstride, scaled := scaleB m.fmt.toNat, sbase := g.bs, sstride := sh.bsstride, k := m.block * l, n := l }
def MatOp.operandA (m : MatOp) (sh : MatShape) (l : Nat) : Operand :=
  let g := sh.groups.getD m.group default
  { fmt := aType m.fmt.toNat, base := g.a, stride := sh.astride, scaled := scaleA m.fmt.toNat, sbase := g.as, sstride := sh.asstride, k := m.block * l, n := l }

/-- Row i of an operand as it is read, with its scale; 127 stands for none. -/
def State.rowOf (s : State) (id : Nat) (o : Op) (m : MatOp) (x : Operand) (i : Nat) : MatRead × Byte :=
  let (off, len) := rowSpan x.fmt x.k x.n
  match s.matRead id o m x.base (i * x.stride + off) len with
  | .bytes bs =>
    if x.scaled then
      match s.matRead id o m x.sbase (i * x.sstride + x.k / 128) 1 with
      | .bytes sb => (.bytes bs, sb.getD 0 0)
      | r => (r, 0)
    else (.bytes bs, 127)
  | r => (r, 0)

/-- Rows read in order, after those already read, up to a number or to the first that waits or faults (R134). -/
def loadRows (read : Nat → MatRead × Byte) : Nat → List (List Byte × Byte) → List (List Byte × Byte) × Option MatRead
  | 0, l => (l, none)
  | n + 1, l =>
    match read l.length with
    | (.bytes bs, sc) => loadRows read n (l ++ [(bs, sc)])
    | (r, _) => (l, some r)

/-- A row's values with its scale. -/
def Operand.vals (x : Operand) (r : List Byte × Byte) : List Val × Option Int :=
  ((List.range x.n).map fun j => valOf x.fmt (rowElem x.fmt x.k r.1 j), scaleOf r.2)

/-- A tile with the rows of a block applied from tile row base on (R135). -/
def applyRows (m : MatOp) (old : List Word) (base cols : Nat) (as bs : List (List Val × Option Int)) : List Word :=
  (List.range 16384).map fun w =>
    let r := w / 128
    let c := w % 128
    if base ≤ r && r < base + as.length && c < cols then
      let (x, sx) := as.getD (r - base) ([], none)
      let (y, sy) := bs.getD c ([], none)
      let start := if m.block = 0 && !m.acc then 0 else old.getD w 0
      accumulate m.nbv (accInt m.fmt.toNat) start x y (match sx, sy with | some a, some b => some (a + b) | _, _ => none)
    else old.getD w 0

/-- A batch past its present block, or past its end (R148, R158). -/
def MatOp.onward (m : MatOp) (blocks : Nat) : MatOp :=
  if m.row < m.bend then m
  else if m.block + 1 < blocks then { m with block := m.block + 1, row := m.batch, loadA := [], loadB := [] }
  else { m with active := false, loadA := [], loadB := [], groups := m.groups.set m.group { m.groups.getD m.group {} with done := m.bend } }

/-- The rows of an operand that a load has added, counted at their holders, and what they bring (R184, R253). -/
def State.countRows (s : State) (o : Op) (x : Operand) (rows : List Nat) : Op × State :=
  rows.foldl (fun (r : Op × State) (i : Nat) =>
    let (off, len) := rowSpan x.fmt x.k x.n
    let p := ptrAdd x.base (i * x.stride + off)
    ({ r.1 with know := r.2.engineHeard o.thread p len r.1.know }, r.2.engineCount o.thread p len)) (o, s)

/-- One step of a queue's head: its operands are read as they arrive, each element once; with all of them the block of L is applied
to the rows of the batch that remain in it, and the step takes its time. A fault on a row of A comes after the rows before it
(R134, R146, R148, R157). -/
def State.arrayStep (s : State) (q : QuadId) (j : Nat) : State :=
  match s.headOf q j with
  | none => s
  | some (id, o, m) =>
    let sh := m.shape
    let l := if m.nbv = 2 then 32 else 16
    let m := m.onward (sh.k / l)
    if !m.active then s.seek id o m sh seekFuel
    else
      let xb := m.operandB sh l
      let xa := m.operandA sh l
      let (bs, stopB) := loadRows (s.rowOf id o m xb) (sh.n - m.loadB.length) m.loadB
      let (as, stopA) := if stopB.isSome then (m.loadA, none)
        else loadRows (fun i => s.rowOf id o m xa (m.row + i)) (m.bend - m.row - m.loadA.length) m.loadA
      let (o, s) := s.countRows o xb ((List.range bs.length).drop m.loadB.length)
      let (o, s) := s.countRows o xa (((List.range as.length).drop m.loadA.length).map (m.row + ·))
      let m := { m with loadB := bs, loadA := as }
      let s := s.modQuad q fun x => { x with loading := none }
      match stopB, stopA with
      | some (.wait p n), _ | none, some (.wait p n) =>
        ((s.setOp id { o with body := .matrix m }).modQuad q fun x => { x with loading := some id }).matWait id m o.thread p n false
      | some (.fault c p), _ => s.endProduct id o m (some (c, p))
      | _, _ =>
        let g := sh.groups.getD m.group default
        let s := (s.giveUp id).setTarget m (applyRows m (s.target m) (g.rowbase + m.row) sh.n (as.map xa.vals) (bs.map xb.vals))
        let m := { m with row := m.row + as.length, loadA := [] }
        let cycles := (rateOf m.fmt.toNat).getD 0 * l / 32
        let slots := if (s.chip q.chip).slow then 2 else 1   -- one step in two slots at 95 °C (R418)
        let s := s.modQuad q fun x => { x with lastStep := s.now + 6 * cycles * slots }
        match stopA with
        | some (.fault c p) => s.endProduct id o m (some (c, p))
        | _ => s.seek id o (m.onward (sh.k / l)) sh seekFuel

/-- The queue whose head has a step under way that waits for its operands (R144). -/
def State.loadingQueue (s : State) (q : QuadId) : Option Nat :=
  (s.quad q).loading.bind fun id => [0, 1].find? fun j => ((s.quad q).queues.getD j []).head? = some id && s.runnable q j

/-- A queue's head gives up its turns at holders while the unit does not work on it, but for one whose open groups are being read
again (R149, R189). -/
def State.standAside (s : State) (q : QuadId) (j : Nat) : State :=
  match s.headOf q j with
  | some (id, _, m) => if m.pass = 3 then s else s.giveUp id
  | none => s

/-- The unit works on the head of a queue: it is prepared, and its step is made, or waits for what the head reads. passed is what the
count of R144 becomes. -/
def State.matrixTurn (s : State) (q : QuadId) (j passed : Nat) : State :=
  match s.headOf q j with
  | none => s
  | some (id, _, _) =>
    let s := ((s.standAside q (1 - j)).modQuad q fun x => { x with loading := none }).prepare q j
    match s.headOf q j with
    | none => s
    | some (id', _, m) =>
      if id' ≠ id || !s.runnable q j then s
      else
        let s := s.modQuad q fun x => { x with passed := passed }
        if m.active then s.arrayStep q j else s.modQuad q fun x => { x with loading := some id }

/-- R144: the unit's next step, once the last has ended. -/
def execMatrixStep (q : QuadId) (s : State) : Host.Outcome State Fault Refusal :=
  .next (if s.now < (s.quad q).lastStep then s
    else
      let r0 := s.runnable q 0
      let r1 := s.runnable q 1
      match s.loadingQueue q with
      | some j => s.matrixTurn q j (s.quad q).passed
      | none =>
        if r1 && (!r0 || (s.quad q).passed ≥ 64) then s.matrixTurn q 1 0
        else if r0 then s.matrixTurn q 0 (if r1 then (s.quad q).passed + 1 else 0)
        else ((s.standAside q 0).standAside q 1).modQuad q fun x => { x with loading := none })

/-- R149: the entries of the groups set aside are read again. -/
def execRowCountReread (q : QuadId) (s : State) : Host.Outcome State Fault Refusal :=
  let one := fun (s : State) (j : Nat) => match s.headOf q j with
    | some (id, o, m) =>
      if m.pass ≥ 2 && !m.active && !m.ended && s.matOutcome o m ≠ some false then
        s.seek id o { m with pass := 3, groups := m.groups.map fun p => { p with aside := false } } m.shape seekFuel
      else s
    | none => s
  .next (one (one s 0) 1)

/-! ## Drains (R164 to R166) -/

/-- A drain's word. -/
def MatOp.cols (m : MatOp) : Nat := m.fmt.toNat / 2 ^ 17 % 128 + 1
def MatOp.rows (m : MatOp) : Nat := m.fmt.toNat / 2 ^ 10 % 128 + 1
def MatOp.adds (m : MatOp) : Bool := m.fmt.toNat / 512 % 2 = 1
def MatOp.sat (m : MatOp) : Bool := m.fmt.toNat / 256 % 2 = 1
def MatOp.dfmt (m : MatOp) : Nat := m.fmt.toNat % 16

/-- The generator's state for element n of a drain, where it draws (R89, R165). -/
def MatOp.draw (m : MatOp) (n : Nat) : Nat := if m.rmode = 5 then (xsSteps (n + 1) m.seed).toNat else 0

/-- One element of a drain without ADD: the conversion of R122. -/
def MatOp.drained (m : MatOp) (n : Nat) (w : Word) : Nat :=
  if m.dfmt ≥ 8 then convertInt 12 m.dfmt m.sat w.toNat else convertVal m.dfmt m.rmode m.sat (valOf 0 w.toNat) (m.draw n)
/-- One element of an add-on-store drain (R166). -/
def MatOp.added (m : MatOp) (n : Nat) (d : Nat) (w : Word) : Nat :=
  if m.dfmt = 12 then (addOf 32 (if m.sat then 1 else 0) (BitVec.ofNat 32 d) w).toNat
  else faddBits 0 m.rmode m.sat d w.toNat (m.draw n)

/-- The pointer of a drain's row. -/
def MatOp.rowPtr (m : MatOp) (i : Nat) : DWord := ptrAdd m.a (i * m.stride)
def MatOp.rowFits (m : MatOp) (i : Nat) : Bool := ptrFits m.a (i * m.stride) && ptrFits m.a (i * m.stride + rowLen m.dfmt m.cols - 1)

/-- A drain ends, with a fault or without; ZERO is applied and ZONLY clears poison (R156, R164, R165). -/
def State.endDrain (s : State) (id : Nat) (o : Op) (m : MatOp) (err : Option (Nat × DWord)) : State :=
  let s := if err.isNone && m.zero then s.setTarget m [] else s
  let s := if m.zonly then s.setPoison m false else s
  s.setOp id { o with body := .matrix { m with begun := true, ended := true, err := err } }

/-- What a drain without ADD writes at once: an element of a row, or a word of TF6; its bytes, and how many there are of it in a row
(R129, R165). -/
def MatOp.unitBytes (m : MatOp) : Nat := if fmtBits m.dfmt = 6 then 4 else fmtBits m.dfmt / 8
def MatOp.units (m : MatOp) : Nat := rowLen m.dfmt m.cols / m.unitBytes

/-- One such write: it is done, waits, or ends the drain. DESIGN CHOICE (log 59): a row that leaves the OFFSET range ends it with
Access and the destination pointer (R155 names no cause). -/
def State.drainUnit (s : State) (id : Nat) (o : Op) (m : MatOp) (u : Nat) : Except (Nat × DWord) (Bool × State) :=
  let i := u / m.units
  let p := ptrAdd (m.rowPtr i) (u % m.units * m.unitBytes)
  let t := s.target m
  let l := (List.range m.cols).map fun j => m.drained (i * m.cols + j) (t.getD (i * 128 + j) 0)
  let bs := ((rowBytes m.dfmt l).drop (u % m.units * m.unitBytes)).take m.unitBytes
  if !m.rowFits i then .error (3, m.a)
  else match s.matSpace p with
    | some c => .error (c, p)
    | none =>
      if s.matWaits id m o.thread p m.unitBytes true then .ok (false, s.matWait id m o.thread p m.unitBytes true)
      else match (s.giveUp id).engineWrite o.thread p bs id o.allEdges with
        | .error c => .error (c, p)
        | .ok s => .ok (true, s.engineCount o.thread p m.unitBytes true)

/-- A step of a drain without ADD: some of the elements left are written, in any order (R165). -/
def State.drainSome (s : State) (id : Nat) (o : Op) (m : MatOp) : State :=
  let left := if m.begun then m.left else List.range (m.rows * m.units)
  let now := match left.filter (Config.drainPick s.draws) with
    | [] => left.take 1
    | l => l
  let r := now.foldl (fun (r : Option (Nat × DWord) × List Nat × State) u =>
    if r.1.isSome then r
    else match r.2.2.drainUnit id o m u with
      | .error e => (some e, r.2)
      | .ok (true, s) => (none, r.2.1.filter (· ≠ u), s)
      | .ok (false, s) => (none, r.2.1, s)) (none, left, { s with draws := s.draws + 1 })
  let m := { m with begun := true, left := r.2.1 }
  if r.1.isSome then r.2.2.endDrain id o m r.1
  else if m.left = [] then r.2.2.endDrain id o m none
  else r.2.2.setOp id { o with body := .matrix m }

/-- Whether the first and last bytes of an add-on-store drain lie within one extent or one chip-local region (R166). -/
def State.drainPlace (s : State) (o : Op) (m : MatOp) : Option Nat :=
  let last : Nat := (m.rows - 1) * m.stride + rowLen m.dfmt m.cols - 1
  match s.matSpace m.a with
  | some c => some c
  | none =>
    if !ptrFits m.a last then some 1
    else match s.obj? m.a with
      | some b => if isGlobal m.a && (offsetOf m.a / 2 ^ b.log2 ≠ (offsetOf m.a + last) / 2 ^ b.log2 || offsetOf m.a + last ≥ b.size) then some 1 else none
      | none => if isGlobal m.a then none
                else match s.reach o.thread m.a 1 true, s.reach o.thread (ptrAdd m.a last) 1 true with
                  | .place _, .place _ => none
                  | _, _ => some 1

/-- An add-on-store drain, indivisible: every row is read and added, or none is changed (R166). -/
def State.drainAdd (s : State) (id : Nat) (o : Op) (m : MatOp) : State :=
  match s.drainPlace o m with
  | some c => s.endDrain id o m (some (c, m.a))
  | none =>
    let n := rowLen m.dfmt m.cols
    let rows := List.range m.rows
    match rows.find? fun i => s.matWaits id m o.thread (m.rowPtr i) n true with
    | some i => s.matWait id m o.thread (m.rowPtr i) n true
    | none =>
      let s := s.giveUp id
      let bad := rows.findSome? fun i => match s.engineRead o.thread (m.rowPtr i) n, s.reach o.thread (m.rowPtr i) n true with
        | .error c, _ => some (c, m.rowPtr i)
        | _, .fail c => some (c, m.rowPtr i)
        | _, _ => none
      match bad with
      | some e => s.endDrain id o m (some e)
      | none =>
        let t := s.target m
        -- it reads from the writes that it adds to (R249)
        let o := { o with know := rows.foldl (fun k i => s.engineHeard o.thread (m.rowPtr i) n k) o.know }
        let s := rows.foldl (fun s i => match s.engineRead o.thread (m.rowPtr i) n with
          | .error _ => s
          | .ok bs =>
            let l := (List.range m.cols).map fun j => m.added (i * m.cols + j) (rowElem m.dfmt 0 bs j) (t.getD (i * 128 + j) 0)
            match s.engineWrite o.thread (m.rowPtr i) (rowBytes m.dfmt l) id o.allEdges true with
            | .ok s => s.engineCount o.thread (m.rowPtr i) n true
            | .error _ => s) s
        s.endDrain id o m none

/-- The drain that the drain path works on: one that has begun, else the earlier of the heads that may start (R143, R144, R152). -/
def State.drainHead (s : State) (q : QuadId) : Option (Nat × Op × MatOp) :=
  let can := fun (h : Nat × Op × MatOp) => h.2.2.code = .mdrain && !h.2.2.ended && s.matMayBegin h.1 h.2.1 h.2.2
    && s.matOutcome h.2.1 h.2.2 = some true
  let l := ([s.headOf q 0, s.headOf q 1].filterMap id).filter can
  match l.find? fun h => h.2.2.begun with
  | some h => some h
  | none => l.foldl (fun b h => match b with | some x => if h.1 < x.1 then some h else some x | none => some h) none

/-- R165, R166: the drain path writes some elements, adds a whole tile, or zeroes one. -/
def execMatrixDrain (q : QuadId) (s : State) : Host.Outcome State Fault Refusal :=
  .next (match s.drainHead q with
    | none => s
    | some (id, o, m) =>
      if m.zonly then s.endDrain id o m none
      else if s.poisoned m then s.setOp id { o with body := .matrix { m with begun := true, ended := true, err := some (7, m.a) } }
      else if m.adds then s.drainAdd id o m
      else s.drainSome id o m)

/-! ## Completion (R142, R153, R155, R159) -/

/-- A command's completion: its arrival, its fault to every member, and its place in its queue. DESIGN CHOICE (log 68): the fault's
object address is the pointer that the command stopped at, its block's, A handle's or destination's for a Parameter fault or cause
0x07; AUX names the A handle, also where the B handle faulted (R159, R386). -/
def State.finishMatrix (s : State) (id : Nat) (o : Op) (m : MatOp) (discarded : Bool) : State :=
  let s := match m.nb with
    | some nb => s.contribute id o nb { member := true, flags := { err := m.err.isSome || discarded } }
    | none => s
  let s := match m.err with
    | some (c, p) => if discarded then s else
        let s := s.foundBy o.thread p 1
        m.members.foldl (fun s t => s.deferEngine t id o 4 c p m.a m.nb (some m.progress)) s
    | none => s
  (s.dequeue id m).closeOp id

/-- R142: a command whose updates are in its tile, or which stopped on a fault, was skipped, or is discarded at its queue's head. -/
def execMatrixCommandComplete (op : Nat) (s : State) : Host.Outcome State Fault Refusal :=
  .next (match s.op? op with
    | some o =>
      match o.body with
      | .matrix m =>
        let queued := (s.quad m.quad).queues.any fun l => l.contains op
        let head := (s.quad m.quad).queues.any fun l => l.head? = some op
        if m.shadow.isSome || o.closing || !s.resident o.thread.cohort then s
        else if s.matOutcome o m = some false && (head || !queued) then s.finishMatrix op o m true
        else if m.ended then s.finishMatrix op o m false
        else s
      | _ => s
    | none => s)

/-- R153: a shadow whose epoch is TRUE commits once its commands have applied their last steps; one whose epoch is FALSE or
cancelled is freed. -/
def execShadowCommit (q : QuadId) (shadow : Nat) (s : State) : Host.Outcome State Fault Refusal :=
  let x := (s.quad q).shadows.getD shadow {}
  let bound := List.filter (fun (p : Nat × Op) => match p.2.body with | .matrix m => m.quad = q && m.shadow = some shadow && x.bound.any (fun b => b.1 = p.2.thread.cohort) | _ => false) s.ops
  let free := fun (s : State) =>
    let s := bound.foldl (fun s p => match p.2.body with
      | .matrix m => s.setOp p.1 { p.2 with body := .matrix { m with shadow := none } }
      | _ => s) s
    s.modShadow q shadow fun _ => {}
  .next (match x.bound with
    | none => s
    | some (c, tile, b) =>
      match s.slotOutcome c b with
      | none => s
      | some true =>
        if bound.all fun p => match p.2.body with | .matrix m => m.ended | _ => true then
          free (s.modQuad q fun y => { y with acc := y.acc.set tile x.data, poison := y.poison.set tile x.err })
        else s
      | some false => free s)

/-! ## Guard slots (R151, R154, R167, R168) -/

/-- Sends a message to a guard slot, counted on dc4. -/
def State.issueSlot (s : State) (b : Bundle) (t : ThreadId) (body : MsgBody) : State :=
  let m := s.nextId
  let (_, s) := s.send { body := body, op := some (m + 1), token := some t }
  (s.addOp (s.newOp b t (some 4) (.message m false))).2

/-- R167. -/
def execGres (f : Fields) (s : State) : Host.Outcome State Fault Refusal :=
  s.runThreads (.gres f) noHold fun _ b t s =>
    let v := match f.gresCtl with | 0 => (s.thread t).pred f.sa.toNat | 1 => true | _ => false
    .done (s.issueSlot b t (.resolve t.cohort (f.dst.toNat % 64) v))
/-- R168. -/
def execGcancel (f : Fields) (s : State) : Host.Outcome State Fault Refusal :=
  s.runThreads (.gcancel f) noHold fun _ b t s => .done (s.issueSlot b t (.cancel t.cohort (f.dst.toNat % 64)))

/-- GRES at a slot: the first of an epoch decides (R151, R154). -/
def Slot.resolve (x : Slot) (v : Bool) : Slot := if x.value.isSome then x else { x with value := some v }
/-- GCANCEL at a slot: an OPEN epoch ends as one resolved FALSE (R151). -/
def Slot.cancel (x : Slot) : Slot := { value := none, epoch := x.epoch + 1, history := Tab.put x.history x.epoch (x.value.getD false) }

/-- The slot that a message goes to. -/
def MsgBody.slot? : MsgBody → Option (CohortId × Nat)
  | .resolve c n _ => some (c, n)
  | .cancel c n => some (c, n)
  | _ => none

/-- R154: a GRES or GCANCEL reaches its slot, after the thread's earlier ones to it. -/
def execGuardSlotResolve (msg : Nat) (s : State) : Host.Outcome State Fault Refusal :=
  .next (match s.msg? msg with
    | none => s
    | some g =>
      match g.body.slot? with
      | none => s
      | some (c, n) =>
        let earlier := s.msgs.any fun p => p.1 < msg && p.2.token = g.token && p.2.body.slot? = some (c, n)
        if earlier || !(s.resident c || (s.cohorts.get? c).isNone) then s
        else
          let s := { s with msgs := Tab.del s.msgs msg }
          let act := fun (x : Slot) => match g.body with | .resolve _ _ v => x.resolve v | _ => x.cancel
          let s := if s.live c then s.modCohort c fun y => { y with slots := y.slots.set n (act (y.slots.getD n {})) } else s
          match g.op with
          | some i => s.endOp i
          | none => s)

end Sys2Proof.Machine
end

