-- ==== Sys2Proof/Machine/Context.lean ====
section
/-! DEFINITION. Pre-emption: the request, its deferral and its stop (R388, R394, R395), the save with its image (R396 to R398,
R420), and the resume (R399, R400). -/

namespace Sys2Proof.Machine

/-! ## The request (R336, R337, R394, R395) -/

/-- A pre-emption of a context is requested: it defers while a register is partly arrived, but with a limit of zero for a
non-express context on an express partition (R337, R394, R395). A host's request keeps a saved context saved. -/
def State.preempt (s : State) (chip vf : Nat) (why : SaveWhy) : State :=
  let v := s.vf chip vf
  if v.ctx ≠ .running then (if why = .host then s.setVf chip vf { v with why := .host } else s)
  else if v.busy.isSome then s
  else
    let zero := (s.part chip v.part).express && !s.expressContext chip vf
    let some' := s.partly chip vf
    let v := { v with ctxAsked := s.ns chip, why := why, held := false, forced := false }
    s.setVf chip vf (if some' && !zero then { v with ctx := .deferring } else { v with ctx := .stopping, ctxSince := s.now, forced := some' })

/-- The core shares that an express launch at the head of its partition lacks room on (R337). -/
def State.expressNeeds (s : State) (chip part : Nat) : List CoreId :=
  match s.headLaunch chip part with
  | none => []
  | some (n, g) =>
    if g.launch.express && s.launchOpen chip n g && s.lacksRoom chip g then
      if g.set' ≠ [] then (g.set'.filter fun p => !g.placed.contains p).map fun p => (⟨chip, p.1, p.2⟩ : CoreId)
      else ((s.chooseSet chip g.vf part g.launch).getD ((s.eligibleSets chip part g.launch).headD []))
    else []

/-- Whether the lockkeeper pre-empts a context for express work: it has no express-class grid, and a cohort on a share that an
express placement set needs (R337). -/
def State.expressPreempts (s : State) (chip vf : Nat) : Bool :=
  let p := (s.vf chip vf).part
  (s.part chip p).express && !s.expressContext chip vf
    && (s.cohortsIn chip vf).any fun x => x.2.part = p && (s.expressNeeds chip p).contains x.1.toCore

/-- R394: a pre-emption is requested, by the lockkeeper for express work or by the hypervisor. -/
def execPreemptRequest (chip : Nat) (vf : Nat) (s : State) : Host.Outcome State Fault Refusal :=
  .next (s.preempt chip vf (if s.expressPreempts chip vf then .express else .host))

/-- R395: the save goes on where no register is partly arrived any more, or is forced after 50 µs of the clock. -/
def execDeferralLimit (chip : Nat) (vf : Nat) (s : State) : Host.Outcome State Fault Refusal :=
  let v := s.vf chip vf
  .next (if v.ctx ≠ .deferring then s
    else if !s.partly chip vf then s.settleDefer chip vf
    else if v.ctxAsked + 50000 ≤ s.ns chip then s.setVf chip vf { v with ctx := .stopping, ctxSince := s.now, forced := true }
    else s)

/-- R388: a handler has issued for 4,096 issue cycles of a stopping context; its thread stops at its clause's end. -/
def execHandlerPreemptLimit (t : ThreadId) (s : State) : Host.Outcome State Fault Refusal :=
  let v := s.vf t.cohort.chip (s.cohort t.cohort).vf
  let x := s.thread t
  .next (if s.live t.cohort && v.ctx = .stopping && x.handler && !x.halted && x.run ≠ .ended && v.ctxSince + 2 * 4096 ≤ s.now then
      s.setThread t { x with halted := true }
    else s)

/-! ## The image of a save (R397 to R399, R420) -/

/-- Bytes zero-padded to n. -/
def padTo (n : Nat) (l : List Byte) : List Byte := (l ++ bytesLE (n - l.length) 0).take n

/-- The flags of an arrival-register record. -/
def NbFlags.bits (f : NbFlags) : Nat := (if f.err then 2 else 0) + (if f.partly then 4 else 0) + (if f.past then 8 else 0)
/-- An arrival-register record (R397). -/
def Nb.recordBytes (r : Nb) : List Byte :=
  bytesLE 1 ((if r.armed then 1 else 0) + r.flags.bits) ++ bytesLE 1 r.last.bits ++ bytesLE 2 r.members.toNat ++ bytesLE 4 r.bytes.toNat
    ++ bytesLE 2 r.mleft.toNat ++ bytesLE 6 r.flags.missed.toNat ++ bytesLE 4 r.bleft.toNat ++ bytesLE 4 r.phase.toNat
    ++ bytesLE 6 r.last.missed.toNat ++ bytesLE 2 0
/-- A guard-slot record: state and epoch (R151, R397). -/
def Slot.bytes (x : Slot) : List Byte := bytesLE 4 (match x.value with | none => 0 | some true => 1 | some false => 2) ++ bytesLE 4 x.epoch
/-- A tag entry (R215, R397). -/
def TagEntry.bytes (e : TagEntry) : List Byte :=
  bytesLE 8 (e.tag.toNat * 128 + (if e.valid then 1 else 0)) ++ bytesLE 4 e.line.toNat ++ bytesLE 4 e.len.toNat

/-- The header of a cohort's sections (R397). -/
def Cohort.header (x : Cohort) (replays : Nat) (forced : Bool) (ns : Nat) : List Byte :=
  padTo 2048 (bytesLE 4 1 ++ bytesLE 4 x.threads ++ bytesLE 4 replays ++ bytesLE 4 (if forced then 1 else 0) ++ timeBytes ns
    ++ x.nbs.flatMap Nb.recordBytes ++ (List.range 64).flatMap fun i => (x.slots.getD i {}).bytes)

/-- The bytes of a trap record. -/
def TrapRec.bytes (r : TrapRec) : List Byte := bytesLE 8 r.f0.toNat ++ bytesLE 8 r.f1.toNat ++ bytesLE 8 r.f2.toNat ++ bytesLE 8 r.f3.toNat
/-- Latches and their validity. -/
def latchBytes (l : List (Option DWord)) : List Byte := l.flatMap fun v => bytesLE 8 (v.getD 0).toNat
def latchValid (l : List (Option DWord)) : Nat := ((List.range 8).map fun i => if (l.getD i none).isSome then 2 ^ i else 0).foldl (· + ·) 0

/-- A thread record (R398). -/
def Thread.recordBytes (x : Thread) (now : Nat) : List Byte :=
  let state := match x.run with | .ready | .issuing => 1 | .rendezvous => 2 | .parked _ => 3 | .draining => 4 | _ => 0
  let trap := match x.raised with | some r => (r.record, r.point) | none => if x.handler then (x.faults, x.point) else ({}, {})
  let counters := ((List.range 6).map fun n => x.dc n % 64 * 2 ^ (6 * n)).foldl (· + ·) 0
  let wait := match x.run with | .parked (.timer d) => (d - now) / 2 | _ => 0
  padTo 1024 (
    padTo 0x100 (bytesLE 8 x.pc.toNat ++ bytesLE 1 state ++ bytesLE 1 x.word
        ++ bytesLE 1 ((if x.handler then 1 else 0) + (if x.raised.isSome then 2 else 0) + (if x.run = .ended then 4 else 0))
        ++ bytesLE 1 x.deferred.length ++ bytesLE 2 x.preds.toNat ++ bytesLE 1 (latchValid x.latches) ++ bytesLE 1 0
        ++ latchBytes x.latches ++ bytesLE 8 counters ++ bytesLE 8 x.rowprog.toNat ++ bytesLE 4 x.rmode.toNat ++ bytesLE 4 x.srseed.toNat
        ++ padTo 8 (bytesLE 4 wait)
        ++ padTo 64 (x.ret.flatMap fun p => bytesLE 8 p.toNat) ++ padTo 16 (bytesLE 2 x.ret.length ++ bytesLE 2 x.stack.length)
        ++ x.tokens.flatMap fun w => bytesLE 4 w.toNat)
    ++ padTo 0x30 (trap.1.bytes ++ bytesLE 8 trap.2.pc.toNat ++ bytesLE 1 trap.2.word
        ++ bytesLE 1 (match trap.2.kind with | .word => 0 | .after => 2 | _ => 1))
    ++ padTo 0xD0 (if x.handler || x.raised.isSome then latchBytes x.kept ++ bytesLE 1 (latchValid x.kept) else [])
    ++ x.deferred.flatMap fun d => d.record.bytes)

/-- A replay entry (R399). -/
def replayEntry (kind ctr tid seq : Nat) (pc : DWord) (word : Nat) (iword p : DWord) (data : List Byte) (done : Nat) : List Byte :=
  bytesLE 1 kind ++ bytesLE 1 ctr ++ bytesLE 2 tid ++ bytesLE 4 seq ++ bytesLE 8 pc.toNat ++ padTo 8 (bytesLE 1 word) ++ bytesLE 8 iword.toNat
    ++ bytesLE 8 p.toNat ++ data ++ bytesLE 8 done

/-- The replay entry of an operation; none for what runs on or is done, and for a KICK, whose copies have entries of their own. -/
def Op.replayBytes (o : Op) : Option (List Byte) :=
  if o.closing then none else
  let r : Option (Nat × DWord × List Byte × Nat) := match o.body with
    | .access a => some ((match a.kind with | .load => 1 | .store => 2 | .atomic => 3), a.ptr,
        if a.size = 16 || a.kind = .store then bytesLE 16 a.data else bytesLE 8 a.data ++ bytesLE 8 a.cmp, 0)
    | .mmio off v _ _ => some (2, mkPtr 0xFFF 2 off, bytesLE 16 v.toNat, 0)
    | .copy c => some (4, c.dst, bytesLE 16 (match c.record with | some p => p.toNat | none => c.src.toNat),
        match c.shares with | x :: _ => x.row * c.len + x.pos | [] => 0)
    | .cfill l | .cevict l => some (5, l.ptr, bytesLE 16 0, 128 * (l.run - l.left.length))
    | .xfer x => some (if x.slotOf.isSome then (8, x.dst, bytesLE 16 x.entryAt.toNat, x.wrote) else (6, x.dst, bytesLE 16 x.src.toNat, x.wrote))
    | .matrix m => some (7, m.a, bytesLE 16 m.b.toNat, m.progress.toNat)
    | .tfetch _ _ => some (9, 0, bytesLE 16 0, 0)
    | _ => none
  r.map fun (kind, p, data, done) => replayEntry kind (o.ctr.getD 7) o.thread.tid o.seq o.pc o.word o.iword p data done

/-- A contribution in flight as a replay entry, of the operation that made it (R395, R399). -/
def State.contributionBytes (s : State) (m : Msg) (c : CohortId) : Option (List Byte) :=
  let o := (m.op.bind s.op?).getD {}
  match m.body with
  | .contribute k nb x =>
    if k = c then some (replayEntry 10 7 o.thread.tid o.seq o.pc o.word o.iword (BitVec.ofNat 64 nb)
      (bytesLE 4 x.bytes ++ bytesLE 4 (if x.member then 1 else 0) ++ bytesLE 8 0) 0) else none
  | _ => none

/-- A thread's parked access as a replay entry, with the pointer that it parked on, under the count that its word will take (R213, R233,
R399). A TSTAMP samples the clock when it is performed. -/
def State.parkedBytes (s : State) (t : ThreadId) : Option (List Byte) :=
  let x := s.thread t
  match x.run, s.fetchClause t.cohort x.pc with
  | .parked (.presence _ p), .ok (_, ws) =>
    let w := ws.getD x.word 0
    (Instr.ofCode (opcOf w) (Fields.ofWord w (ws.getD (x.word + 1) 0))).bind fun i => i.fields?.bind fun f => i.opc.map fun o =>
      let n := atomSize o f.ctl
      let atomic := decide (0xB0 ≤ o ∧ o ≤ 0xBB)
      let store := decide (o % 2 = 1 ∨ o = 0xF4)
      let data := if atomic then match x.operand o f n with
          | some (v, e) => if n = 16 then bytesLE 16 v else bytesLE 8 v ++ bytesLE 8 e
          | none => bytesLE 16 0
        else if store && o ≠ 0xF4 then bytesLE 16 (x.data f.dst.toNat (sizeOf' (f.sb.toNat % 8))) else bytesLE 16 0
      replayEntry (if atomic then 3 else if store then 2 else 1) (i.counter.getD 7) t.tid (s.cohort t.cohort).seq x.pc x.word w p data 0
  | _, _ => none

/-- The tiles of a quadrant that a cohort holds, as saved. -/
def State.tilesOf (s : State) (c : CohortId) (q : Nat × List Nat) : SavedTiles :=
  let y := s.quad ⟨c.chip, c.die, c.core, q.1⟩
  { cohort := c, quad := q.1, data := q.2.map fun k => y.acc.getD k [], poison := q.2.map fun k => y.poison.getD k false }

/-- The 65,536 bytes of a tile (R124). -/
def tileBytes (t : List Word) : List Byte := (List.range 16384).flatMap fun i => bytesLE 4 (t.getD i 0).toNat

/-- The bound shadow tiles of a cohort on the quadrants of its core. -/
def State.shadowsOf (s : State) (c : CohortId) : List (QuadId × Nat × Shadow) :=
  (List.range 4).flatMap fun k =>
    let q : QuadId := ⟨c.chip, c.die, c.core, k⟩
    (List.range 2).filterMap fun i =>
      let x := (s.quad q).shadows.getD i {}
      if x.bound.any fun b => b.1 = c then some (q, i, x) else none

/-- A cohort's sections of the save area (R397). -/
def State.image (s : State) (c : CohortId) (x : Cohort) (forced : Bool) : List Byte :=
  let ts := (List.range x.threads).map fun i => (⟨c, i⟩ : ThreadId)
  let regs := allocRegs (s.launchOf c).regs
  let replays := (s.ops.filterMap fun p => if p.2.thread.cohort = c then p.2.replayBytes else none)
    ++ ts.filterMap s.parkedBytes ++ s.msgs.filterMap fun m => s.contributionBytes m.2 c
  x.header replays.length forced (s.ns c.chip) ++ x.tags.flatMap TagEntry.bytes
    ++ (ts.flatMap fun t => (s.thread t).recordBytes s.now)
    ++ (ts.flatMap fun t => (List.range regs).flatMap fun i => bytesLE 4 ((s.thread t).regs.getD i 0).toNat)
    ++ (x.tiles.flatMap fun q => (s.tilesOf c q).data.flatMap tileBytes)
    ++ ((s.shadowsOf c).flatMap fun w => tileBytes w.2.2.data ++ bytesLE 8 (match w.2.2.bound with
        | some (_, tile, slot, epoch) => tile + slot * 256 + 65536 * epoch
        | none => 0))
    ++ replays.flatten

/-! ## The save (R396) -/

/-- Whether a thread stands where its context can be saved: at a clause boundary, parked, draining or ended; in a handler,
only once it is halted (R64, R331, R388). -/
def Thread.stands (x : Thread) : Bool :=
  match x.run with
  | .ended | .draining => true
  | .parked _ | .blocked => !x.handler || x.halted
  | .ready | .rendezvous => !x.inside && (!x.handler || x.halted)
  | .issuing => false

/-- Whether an operation must land before its context is saved: what a holder or a source queue has accepted, clock samples,
arrivals, and transactions whose writes have begun (R288, R396). -/
def Op.mustLand (o : Op) : Bool :=
  match o.body, o.phase with
  | .message _ _, _ | .clock _, _ => true
  | .access _, .queued | .access _, .walking => true
  | .access _, .answered (.served _ _ _) | .access _, .answered (.fault _) => true
  | .xfer x, _ => x.begunParts ≠ []
  | _, _ => false

/-- The operations of a context, in issue order. -/
def State.opsIn (s : State) (chip vf : Nat) : List (Nat × Op) :=
  let mine := (s.cohortsIn chip vf).map (·.1)
  List.filter (fun (p : Nat × Op) => mine.contains p.2.thread.cohort) s.ops

/-- The claims that an operation holds, by core. -/
def Op.claims (o : Op) : List (CoreId × List Nat) :=
  match o.body with
  | .copy c => c.shares.map fun x => (shareCore o.thread x, x.claims)
  | .xfer x => x.shares.map fun y => (shareCore o.thread y, y.claims)
  | .cfill l => [(o.thread.cohort.toCore, l.left)]
  | _ => []

/-- An operation as it is recorded: an access that no holder has accepted is to be sent again, and a transaction that has written nothing
is to begin again (R396). -/
def Op.recorded (o : Op) : Op :=
  match o.body with
  | .access a => if isGlobal a.ptr then { o with phase := .answered .retry, held := none } else { o with held := none }
  | .xfer x => { o with held := none, body := .xfer { x with todo := x.todo ++ x.parts.map (·.tran), parts := [] } }
  | _ => { o with held := none }

/-- The core shares that cohorts of a context are on, with their partition. -/
def sharesOf (l : List (CohortId × Cohort)) : List (CoreId × Nat) := (l.map fun x => (x.1.toCore, x.2.part)).eraseDups

/-- The lines of an owner's enabled rings on a core that armed slots claim (R222). -/
def State.armedLines (s : State) (c : CoreId) (part : Nat) : List Nat :=
  (s.core c).rings.flatMap fun r => if r.1.1 = part && r.2.enabled then r.2.armed else []

/-- The banks of a share, as saved (R211, R397). -/
def State.saveBanks (s : State) (x : CoreId × Nat) : SavedBanks :=
  let (c, part) := x
  let quads := s.share c part
  let mine := fun (l : Nat) => quads.contains (l * 128 / quadBytes)
  { core := c, part := part
    cells := quads.flatMap fun q => Memory.slice s.mem (cisternAt c (q * quadBytes)) quadBytes
    writers := ((s.core c).writers.filter fun w => mine w.1).map fun w => (w.1, w.2 - (s.armedLines c part).count w.1)
    prods := (s.core c).rings.filterMap fun r => if r.1.1 = part && r.2.enabled then some (r.1.2, r.2.prod) else none
    failed := s.failed.filter fun l => quads.any fun q => cisternAt c (q * quadBytes) ≤ l * 64 && l * 64 < cisternAt c ((q + 1) * quadBytes) }

/-- The banks of a share as the save area lays them out: 32 KiB for each, then a byte for each line, 1 where it is present (R397;
log 60). -/
def State.bankBytes (s : State) (x : CoreId × Nat) : List Byte :=
  let banks := (s.share x.1 x.2).flatMap fun q => (List.range 12).map fun b => 12 * q + b
  (banks.flatMap fun b => s.loadBytes (cisternAt x.1 (b * 32768)) 32768)
    ++ banks.flatMap fun b => (List.range 256).map fun l => if s.present x.1 (b * 256 + l) then 1 else 0

/-- A quadrant as its context leaves it: tiles cleared, shadows free, commands out of its queues. -/
def Quad.vacate (q : Quad) (tiles : List Nat) (mine : List CohortId) (ids : List Nat) : Quad :=
  { q with acc := tiles.foldl (fun a k => a.set k []) q.acc
           poison := tiles.foldl (fun a k => a.set k false) q.poison
           shadows := q.shadows.map fun w => if w.bound.any fun b => mine.contains b.1 then {} else w
           queues := q.queues.map fun l => l.filter fun i => !ids.contains i }

/-- The save of a context that has stopped: the releases of its threads, its pins undone, the save area written, its
resources released (R160, R211, R251, R301, R396, R397). -/
def State.saveContext (s : State) (chip vf : Nat) : State :=
  let v := s.vf chip vf
  let cs := s.cohortsIn chip vf
  let mine := cs.map (·.1)
  let ops := s.opsIn chip vf
  let ids := ops.map (·.1)
  let s := (mine.flatMap s.threadsOf).foldl (fun s t => if (s.thread t).run = .ended then s else s.releaseAll t) s
  let s := mine.foldl State.unpin s
  let s := ops.foldl (fun s p => (p.2.claims.foldl (fun s k => s.unclaim k.1 k.2) s).setOp p.1 p.2.recorded) s
  let s := s.unqueue ids
  let quads := (cs.flatMap fun x => x.2.quads.map fun q => (⟨x.1.chip, x.1.die, x.1.core, q⟩ : QuadId)).eraseDups
  let area : SaveArea :=
    { forced := v.forced, time := s.ns chip
      banks := (sharesOf cs).map s.saveBanks
      tiles := cs.flatMap fun x => x.2.tiles.map (s.tilesOf x.1)
      shadows := mine.flatMap s.shadowsOf
      queues := quads.flatMap fun q => (List.range 2).map fun j => (q, j, ((s.quad q).queues.getD j []).filter fun i => ids.contains i)
      images := cs.map fun x => (x.1, s.image x.1 x.2 v.forced)
      maps := (sharesOf cs).map fun x => (x, s.bankBytes x) }
  let s := quads.foldl (fun s q =>
    let tiles := cs.flatMap fun x => if x.1.toCore = q.toCore then Tab.getD x.2.tiles q.quad [] else []
    s.modQuad q fun y => y.vacate tiles mine ids) s
  let s := (mine.flatMap s.threadsOf).foldl (fun s t => s.modThread t fun x =>
    match x.run with | .parked (.timer d) => { x with run := .parked (.timer (d - s.now)) } | _ => x) s
  let s := mine.foldl (fun s c => s.modCohort c fun x => { x with timers := [] }) s
  { s with saves := s.saves.put (chip, vf) area }.setVf chip vf { v with ctx := .saved }

/-- R396: every thread stands, every operation has landed or is recorded, and the save area is written. -/
def execContextSaved (chip : Nat) (vf : Nat) (s : State) : Host.Outcome State Fault Refusal :=
  let v := s.vf chip vf
  let ts := ((s.cohortsIn chip vf).map (·.1)).flatMap s.threadsOf
  .next (if v.ctx = .stopping && ts.all (fun t => (s.thread t).stands) && (s.opsIn chip vf).all fun p => !p.2.mustLand then
      s.saveContext chip vf
    else s)

/-! ## The resume (R399, R400) -/

/-- Logs that a saved context waits for its quadrants, once (R400). -/
def State.noteHeld (s : State) (chip vf : Nat) (c : CoreId) : State :=
  let v := s.vf chip vf
  if v.ctx = .saved && !v.held && (s.cohortsIn chip vf).any (fun x => x.1.toCore = c) then
    (s.logEvent chip 14 c.die c.core vf 0).setVf chip vf { v with held := true }
  else s

/-- The lines of an owner's enabled rings in slots that a frame has filled since a save (R219). -/
def State.landedSince (s : State) (b : SavedBanks) : List Nat :=
  (s.core b.core).rings.flatMap fun r =>
    if r.1.1 ≠ b.part || !r.2.enabled then []
    else match Tab.get? b.prods r.1.2 with
      | some p => if (r.2.prod - p).toNat ≥ r.2.slots then r.2.allLines
                  else (List.range (r.2.prod - p).toNat).flatMap fun i => r.2.slotLines (p + BitVec.ofNat 32 i).toNat
      | none => r.2.allLines

/-- Saved banks written back with their presence bits (R211, R399). A landing ring of the owner goes on while the context is saved
(log 60): its armed slots keep their claims, and a slot that a frame has filled since keeps the frame. -/
def State.restoreBanks (s : State) (realm : Word) (b : SavedBanks) : State :=
  let s := s.useShare b.core b.part realm
  let quads := s.share b.core b.part
  let base := cisternAt b.core 0
  let landed := s.landedSince b
  let armed := s.armedLines b.core b.part
  let here : Nat → Bool := fun l => quads.contains (l * 128 / quadBytes)
  let mine : Nat → Bool := fun a => base ≤ a && a < base + 4 * quadBytes && here ((a - base) / 128) && !landed.contains ((a - base) / 128)
  let counts : List (Nat × Nat) := (b.writers.map (·.1) ++ armed).eraseDups.map fun l => (l, Tab.getD b.writers l 0 + armed.count l)
  let s := { s with mem := (b.cells.filter fun (c : Host.Cell) => mine c.1).foldl (fun m (c : Host.Cell) => Memory.write m c.1 c.2) (s.mem.filter fun (c : Host.Cell) => !mine c.1)
                    failed := (b.failed.filter fun l => mine (l * 64)) ++ s.failed.filter fun l => !mine (l * 64) }
  s.modCore b.core fun x => { x with writers := List.filter (fun (w : Nat × Nat) => !here w.1) x.writers ++ List.filter (fun (w : Nat × Nat) => here w.1 && w.2 ≠ 0) counts }

/-- A cohort's tiles given back on the lowest free tiles of each of its quadrants; with each quadrant's old and new tiles. -/
def State.restoreTiles (s : State) (c : CohortId) (tiles : List SavedTiles) (old : List (Nat × List Nat)) : List (Nat × List Nat × List Nat) × State :=
  old.foldl (fun (r : List (Nat × List Nat × List Nat) × State) (w : Nat × List Nat) =>
    let s := r.2
    let q : QuadId := ⟨c.chip, c.die, c.core, w.1⟩
    let new := ((List.range 4).filter fun k => !(usedTiles (s.cohortsOn c.toCore) w.1).contains k).take w.2.length
    let saved := tiles.find? fun (x : SavedTiles) => x.cohort = c && x.quad = w.1
    let data := (saved.map (·.data)).getD []
    let poison := (saved.map (·.poison)).getD []
    let put := fun (y : Quad) => (List.range new.length).foldl (fun (y : Quad) i =>
      { y with acc := y.acc.set (new.getD i 0) (data.getD i []), poison := y.poison.set (new.getD i 0) (poison.getD i false) }) y
    (r.1 ++ [(w.1, w.2, new)], (s.modQuad q put).modCohort c fun x => { x with tiles := x.tiles ++ [(w.1, new)] }))
    ([], s)

/-- A tile's new number. -/
def newTile (m : List (Nat × List Nat × List Nat)) (quad tile : Nat) : Nat :=
  match m.find? fun w => w.1 = quad with
  | some (_, old, new) => new.getD ((old.takeWhile (· ≠ tile)).length) tile
  | none => tile

/-- A shadow tile given back on the first free one of its quadrant, for its commands too. -/
def State.restoreShadow (s : State) (maps : List (CohortId × List (Nat × List Nat × List Nat))) (w : QuadId × Nat × Shadow) : State :=
  let (q, i, x) := w
  match x.bound, ((List.range 2).find? fun k => ((s.quad q).shadows.getD k {}).bound.isNone) with
  | some (c, tile, slot, epoch), some k =>
    let y := { x with bound := some (c, newTile (Tab.getD maps c []) q.quad tile, slot, epoch) }
    { s.modQuad q fun z => { z with shadows := z.shadows.set k y } with
        ops := s.ops.map fun _ (o : Op) => match o.body with
          | .matrix m => if o.thread.cohort = c && m.quad = q && m.shadow = some i then { o with body := .matrix { m with shadow := some (k + 16) } } else o
          | _ => o }
  | _, _ => s

/-- A context's commands with their tiles renamed, and their shadows' new numbers in place. -/
def State.renameTiles (s : State) (maps : List (CohortId × List (Nat × List Nat × List Nat))) : State :=
  { s with ops := s.ops.map fun _ (o : Op) => match o.body with
      | .matrix m => match maps.find? fun e => e.1 = o.thread.cohort with
        | some e => { o with body := .matrix { m with tile := newTile e.2 m.quad.quad m.tile, shadow := m.shadow.map (· % 16) } }
        | none => o
      | _ => o }

/-- A thread back on its quadrant: its timers and W start anew, and it has the quadrant's newest seq (R332, R344, R393). -/
def State.restoreThread (s : State) (t : ThreadId) : State :=
  let q := (s.thread t).quad
  let n := (s.quad q).seq + 1
  (s.modQuad q fun y => { y with seq := n }).modThread t fun x =>
    { x with seq := n, readySince := s.now, run := match x.run with | .parked (.timer d) => .parked (.timer (s.now + d)) | r => r }

/-- A saved context on its quadrants again: banks, tiles, shadows and queues restored, claims made again, its timers started
anew; its replay is next (R233, R393, R399, R400). DESIGN CHOICE (log 40): the TYPE 15 entry names the core of the context's first
cohort (R413). -/
def State.restoreContext (s : State) (chip vf : Nat) : State :=
  let v := s.vf chip vf
  let area := s.saves.getD (chip, vf) {}
  let cs := s.cohortsIn chip vf
  let mine := cs.map (·.1)
  let ops := s.opsIn chip vf
  let s := if v.held then s.logEvent chip 15 (match cs with | x :: _ => x.1.die | [] => 4) (match cs with | x :: _ => x.1.core | [] => 0) vf 0 else s
  let s := area.banks.foldl (fun s b => s.restoreBanks v.realm b) s
  let s := mine.foldl (fun s c => s.modCohort c fun x => { x with tiles := [] }) s
  let s := s.modVf chip vf fun v => { v with ctx := .restoring, held := false }
  let (maps, s) := cs.foldl (fun (r : List (CohortId × List (Nat × List Nat × List Nat)) × State) x =>
    let (m, s) := r.2.restoreTiles x.1 area.tiles x.2.tiles
    (r.1 ++ [(x.1, m)], s)) ([], s)
  let s := (area.shadows.foldl (fun s w => s.restoreShadow maps w) s).renameTiles maps
  let s := area.queues.foldl (fun s w => s.modQuad w.1 fun y => { y with queues := y.queues.set w.2.1 (y.queues.getD w.2.1 [] ++ w.2.2) }) s
  let s := ops.foldl (fun s p => p.2.claims.foldl (fun s k => s.claim k.1 k.2) s) s
  let s := { s with moves := s.moves.map fun _ (m : Move) =>
    if m.held.isSome && (m.op.any fun i => (ops.any fun p => p.1 = i)) then { m with held := some s.now } else m }
  (mine.flatMap s.threadsOf).foldl State.restoreThread s

/-- Whether an express launch is queued for quadrants of a context: one still to be placed on a core that it is on, or, where its set
is not chosen yet, that could be placed there (R337). -/
def State.expressFirst (s : State) (chip vf : Nat) : Bool :=
  let cores := (s.cohortsIn chip vf).map fun x => x.1.toCore
  let part := (s.vf chip vf).part
  !s.expressContext chip vf && (s.waitingGrids chip part).any fun e =>
    e.2.launch.express &&
      (if e.2.set' = [] then (s.eligibleSets chip part e.2.launch).any fun l => l.any fun c => cores.contains c
       else (e.2.set'.filter fun p => !e.2.placed.contains p).any fun p => cores.contains ⟨chip, p.1, p.2⟩)

/-- Whether a saved context is to be resumed now (R336, R337, R400, R418); one that the host saved, at the host's request. -/
def State.mayResume (s : State) (chip vf : Nat) : Bool :=
  let v := s.vf chip vf
  s.couldResume chip vf && v.busy.isNone && !(s.chip chip).hot && (v.why ≠ .sluice || v.balance > 0) && !s.expressFirst chip vf
    && (s.opsIn chip vf).all fun p => p.2.claims.all fun k => !s.claimFull k.1 k.2

/-- Whether a contribution to a register of a context is in flight (R395). -/
def State.contributing (s : State) (chip vf : Nat) : Bool :=
  s.msgs.any fun m => match m.2.body with
    | .contribute c _ _ | .nbset c _ _ _ => c.chip = chip && s.live c && (s.cohort c).vf = vf
    | _ => false

/-- R399: a saved context is restored; and one whose replay is done, with every contribution counted, runs. -/
def execContextResume (chip : Nat) (vf : Nat) (s : State) : Host.Outcome State Fault Refusal :=
  let v := s.vf chip vf
  .next (match v.ctx with
    | .saved => if s.mayResume chip vf then s.restoreContext chip vf else s
    | .restoring =>
      if (s.opsIn chip vf).any (fun p => s.replayDue p.1 p.2 || p.2.isObj) || s.contributing chip vf then s
      else
        let ts := ((s.cohortsIn chip vf).map (·.1)).flatMap s.threadsOf
        let s := ts.foldl (fun s t => s.modThread t fun x => { x with readySince := s.now }) s
        let s := { s with saves := Tab.del s.saves (chip, vf) }.setVf chip vf { v with ctx := .running, forced := false }
        -- at 105 °C it is saved again before it runs (R418)
        if (s.chip chip).hot then s.preempt chip vf .heat else s
    | _ => s)

end Sys2Proof.Machine
end

