-- ==== Sys2Proof/Machine/Control.lean ====
section
/-! DEFINITION. Control flow (R340 to R344), special registers and clock samples (R345 to R347), TRAP and TRET (R405,
R406). -/

namespace Sys2Proof.Machine

/-- R332: one issue cycle of a quadrant's bundle former. -/
def execFormBundle (q : QuadId) (s : State) : Host.Outcome State Fault Refusal := .next (s.formBundle q)

/-! ## Transfers (R340 to R343) -/

/-- A transfer to d words from a base: the checks of R341, then those of the instruction, then the fetch of the target's
clause, whose fault is raised at the transferring word (R347). Where that fetch waits, the word is held. -/
def State.transfer (s : State) (t : ThreadId) (base : DWord) (d : Int) (pointer : Bool) (pre : Option TrapKind) (go : DWord → Thread → Thread) : Res :=
  if !ptrFits base (8 * d) || (pointer && !namesObject base) then .trap .illegalOperand 0 0 0
  else
    match pre with
    | some k => .trap k 0 0 0
    | none =>
      let target := ptrAdd base (8 * d)
      if offsetOf target % 8 = 0 && s.fetchWaits t.cohort target then .held else
      match (if offsetOf target % 8 = 0 then s.fetchClause t.cohort target else .ok (0, [])) with
      | .error c => .fetch c target
      | .ok _ => .done (s.modThread t fun x => { go target x with nextPc := some target })

/-- The displacement of a relative transfer (R340). -/
def Thread.displacement (x : Thread) (f : Fields) : Option Int := (x.b32 f).map (·.toInt)

/-- R340. -/
def execBra (f : Fields) (s : State) : Host.Outcome State Fault Refusal :=
  s.runThreads (.bra f) noHold fun _ b t s => orTrap ((s.thread t).displacement f) fun d => s.transfer t b.pc d false none fun _ x => x

/-- R340. -/
def execBrx (f : Fields) (s : State) : Host.Outcome State Fault Refusal :=
  s.runThreads (.brx f) noHold fun _ _ t s =>
    orTrap ((s.thread t).src64 f.sa) fun a => orTrap ((s.thread t).displacement f) fun d => s.transfer t a d true none fun _ x => x

/-- A call-stack overflow, where the return buffer and the call stack are full (R342). -/
def Thread.callFull (x : Thread) (cstack : Nat) : Option TrapKind :=
  if x.ret.length + x.stack.length ≥ 8 + cstack then some .callOverflow else none

/-- A return address pushed; a full buffer's oldest entry moves to the call stack (R342). -/
def Thread.push (x : Thread) (p : DWord) : Thread :=
  if x.ret.length < 8 then { x with ret := p :: x.ret }
  else { x with ret := p :: x.ret.take 7, stack := x.ret.drop 7 ++ x.stack }

/-- The header that follows a bundle's clause. -/
def Bundle.following (b : Bundle) : DWord := ptrAdd b.pc (8 * (b.words.length + 1))

/-- R342. -/
def execCallRelative (f : Fields) (s : State) : Host.Outcome State Fault Refusal :=
  s.runThreads (.callRelative f) noHold fun _ b t s =>
    orTrap ((s.thread t).displacement f) fun d =>
    s.transfer t b.pc d false ((s.thread t).callFull (s.launchOf t.cohort).cstack) fun _ x => x.push b.following

/-- R342. -/
def execCallIndirect (f : Fields) (s : State) : Host.Outcome State Fault Refusal :=
  s.runThreads (.callIndirect f) noHold fun _ b t s =>
    orTrap ((s.thread t).src64 f.sa) fun a => orTrap ((s.thread t).displacement f) fun d =>
    s.transfer t a d true ((s.thread t).callFull (s.launchOf t.cohort).cstack) fun _ x => x.push b.following

/-- The newest return address popped, from the call stack when the buffer is empty (R342). -/
def Thread.pop (x : Thread) : Option (DWord × Thread) :=
  match x.ret, x.stack with
  | p :: r, _ => some (p, { x with ret := r })
  | [], p :: r => some (p, { x with stack := r })
  | [], [] => none

/-- R342. -/
def execRet (f : Fields) (s : State) : Host.Outcome State Fault Refusal :=
  s.runThreads (.ret f) noHold fun _ _ t s =>
    match (s.thread t).pop with
    | none => .trap .callUnderflow 0 0 0
    | some (p, _) => s.transfer t p 0 false none fun _ x => match x.pop with | some (_, y) => y | none => x

/-- R343: the thread drains from the end of the clause. -/
def execExit (f : Fields) (s : State) : Host.Outcome State Fault Refusal :=
  s.runThreads (.exit f) noHold fun _ _ t s => .done (s.modThread t fun x => { x with exiting := true })

/-- R344: the thread parks for at least so many issue cycles, then finishes its clause alone. -/
def execWait (f : Fields) (s : State) : Host.Outcome State Fault Refusal :=
  s.runThreads (.wait f) noHold fun _ _ t s =>
    orTrap ((s.thread t).b32 f) fun n => if n = 0 then .done s else .park s (.timer (s.now + 2 * n.toNat)) true

/-- R344: takes effect at the clause's end. -/
def execYield (f : Fields) (s : State) : Host.Outcome State Fault Refusal :=
  s.runThreads (.yield f) noHold fun _ _ t s => .done (s.modThread t fun x => { x with yielding := true })

/-- R65: changes nothing. -/
def execNop (f : Fields) (s : State) : Host.Outcome State Fault Refusal := s.runThreads (.nop f) noHold fun _ _ _ s => .done s

/-- R344. -/
def execWaitExpiry (t : ThreadId) (s : State) : Host.Outcome State Fault Refusal :=
  let x := s.thread t
  .next (match x.run with
    | .parked (.timer d) => if s.awake t.cohort && d ≤ s.now then s.setThread t { x with run := .ready, readySince := s.now } else s
    | _ => s)

/-! ## Traps by instruction (R405, R406) -/

/-- R405: the word retires, and the thread takes a software trap after it. -/
def execTrap (f : Fields) (s : State) : Host.Outcome State Fault Refusal :=
  s.runThreads (.trap f) noHold fun _ _ t s =>
    orTrap ((s.thread t).b32 f) fun n => .trapAfter s .software (n.setWidth 64)

/-- A return from a handler; outside one an illegal instruction, and at a position that cannot be resumed a double fault,
which names the TRET as the trapping word (R385, R406). DESIGN CHOICE (log 25): the record of that double fault has kind 0x01. -/
def State.returnWord (s : State) (t : ThreadId) (skip : Bool) : Res :=
  let x := s.thread t
  if !x.handler then .trap .illegalInstruction 0 0 0
  else
    match resumeAt x.point skip with
    | some (pc, w) => .done (((s.leave t).leaveHandler t pc w))
    | none => .trap .illegalInstruction 0 0 0

/-- R406. -/
def execTret (f : Fields) (s : State) : Host.Outcome State Fault Refusal :=
  s.runThreads (.tret f) noHold fun _ _ t s => s.returnWord t false
/-- R406. -/
def execTretSkip (f : Fields) (s : State) : Host.Outcome State Fault Refusal :=
  s.runThreads (.tretSkip f) noHold fun _ _ t s => s.returnWord t true

/-! ## Special registers (R345, R346) -/

/-- A cohort's arrival handle with NB 0 (R283). -/
def handleOf (c : CohortId) : DWord := BitVec.ofNat 64 (2 ^ 52 * c.chip + 2 ^ 50 * c.die + 2 ^ 44 * c.core + 2 ^ 28 * c.grid)

/-- What a special register holds; %ltime apart (R345). -/
def State.special (s : State) (t : ThreadId) (sel : Nat) : Nat :=
  let x := s.thread t
  let c := t.cohort
  match sel with
  | 0x00 => t.tid
  | 0x01 => t.tid % 32
  | 0x02 => t.tid / 32
  | 0x03 => (s.cohort c).index
  | 0x04 => (s.grid c.chip c.grid).set'.length
  | 0x05 => c.core
  | 0x06 => x.quad.quad
  | 0x07 => c.die
  | 0x08 => c.chip
  | 0x09 => (s.cohort c).vf % 1024 + 65536 * (s.partOf c % 16)
  | 0x0A => let n := (s.launchOf c).nbv % 4
            if n = 0 then 2 else n
  | 0x0B => x.rmode.toNat
  | 0x0C => x.srseed.toNat
  | 0x0D => s.clk c.chip
  | 0x0F => x.ltimeh.toNat
  | 0x10 => x.faults.f0.toNat
  | 0x11 => x.faults.f1.toNat
  | 0x12 => x.faults.f2.toNat
  | 0x13 => x.faults.f3.toNat
  | 0x14 => x.rowprog.toNat
  | 0x15 => (handleOf c).toNat
  | _ => 0

/-- Whether a special register is 64 bits wide (R345). -/
def wideSpecial (sel : Nat) : Bool := sel = 0x0D || sel = 0x0E || (0x10 ≤ sel && sel ≤ 0x15)

/-- R346: %ltime is sampled before its value lands, counted on dc0. -/
def execSread (f : Fields) (s : State) : Host.Outcome State Fault Refusal :=
  s.runThreads (.sread f) noHold fun _ b t s =>
    let d := f.dst.toNat
    if f.ctl = 0x0E then
      .done (s.addOp { s.newOp b t (some 0) (.clock d) with dst := if d = 255 then [] else [d, d + 1] }).2
    else
      let v := s.special t f.ctl
      .done (s.modThread t fun x => if wideSpecial f.ctl then x.setPair d (BitVec.ofNat 64 v) else x.setReg d (BitVec.ofNat 32 v))

/-- R346: writes %rmode (R91), %srseed (R91) and %rowprog (R157); the others ignore writes (R6). -/
def execSwrite (f : Fields) (s : State) : Host.Outcome State Fault Refusal :=
  s.runThreads (.swrite f) noHold fun _ _ t s =>
    let x := s.thread t
    if wideSpecial f.ctl then
      orTrap (x.src64 f.sa) fun v => .done (if f.ctl = 0x14 then s.setThread t { x with rowprog := v &&& 0xFFFFFFFFFF000001 } else s)
    else
      orTrap (x.src32 f.sa) fun v =>
      if f.ctl = 0x0B then
        let m := v.toNat % 8
        if m = 0 ∨ m ≥ 6 then .trap .illegalOperand 0 0 0 else .done (s.setThread t { x with rmode := BitVec.ofNat 3 m })
      else if f.ctl = 0x0C then .done (s.setThread t { x with srseed := if v = 0 then 1 else v })
      else .done s

/-- R345, R346: a sample of %ltime lands, after the thread's earlier ones; its pair and SECHI are written. -/
def State.landClock (s : State) (id : Nat) (o : Op) (dst : Nat) : State :=
  let earlier := s.ops.any fun p => p.2.thread = o.thread && p.1 < id && match p.2.body with | .clock _ => true | _ => false
  if earlier then s
  else
    let n := s.ns o.thread.cohort.chip
    let sec := n / 10 ^ 9
    (s.modThread o.thread fun x =>
      { x.setPair dst (BitVec.ofNat 64 (2 ^ 32 * (sec % 2 ^ 32) + n % 10 ^ 9)) with ltimeh := BitVec.ofNat 16 (sec / 2 ^ 32) }).endOp id

/-- R347: the clock is sampled as the word issues, and stored as one relaxed 16-byte store. -/
def execTstamp (f : Fields) (s : State) : Host.Outcome State Fault Refusal :=
  s.runThreads (.tstamp f) requestHold fun _ b t s =>
    orTrap ((s.thread t).src64 f.sa) fun p =>
    match pointAt p 0 16 with
    | .error (c, p) => .trap .memoryFault c p 0
    | .ok p =>
      match s.issueCheck t p 16 with
      | some c => .trap .memoryFault c p 0
      | none =>
        match s.parkLine t p 16 with
        | some l => .park s (.presence l p) false
        | none =>
          let v := ofBytesLE (timeBytes (s.ns t.cohort.chip))
          if birthOf p = 0xFFF && serialOf p = 2 then s.issueMmio b t p 16 v none
          else .done (s.issueAccess b t 1 { kind := .store, ptr := p, size := 16, data := v })

end Sys2Proof.Machine
end

