-- ==== Sys2Proof/Machine/Crew.lean ====
section
/-! DEFINITION. Crew-clause exchange (R275 to R279): BALLOT, SHFL, CREDUCE, CSCAN and CVOTE. -/

namespace Sys2Proof.Machine

/-- An exchange word: an active member whose own source read traps leaves the bundle and the exchange; each of the others
gets its result from the state at the word (R275). good lists the active members that remain, by lane. -/
def State.runCrew (s : State) (i : Instr) (reads : Thread → Bool) (g : State → Bundle → List ThreadId → ThreadId → Thread → Thread) :
    Host.Outcome State Fault Refusal :=
  .next (s.runBundle i noHold noEarly fun s _ _ b ts =>
    let good := ts.filter fun t => reads (s.thread t)
    let bad := ts.filter fun t => !reads (s.thread t)
    let rest := { b with threads := b.threads.filter fun t => !bad.contains t }
    let s' := good.foldl (fun s' t => s'.setThread t (g s rest good t (s.thread t))) s
    bad.foldl (fun s' t => if (s'.thread t).run = .issuing then s'.settle b t (.trap .illegalOperand 0 0 0) else s') s')

/-- How an exchange reads its source A: 32 bits, a pair under .64, or FP32 for the OPs .FADD, .FMIN and .FMAX (R54, R278). -/
inductive CrewRead where
  | word | pair | float
deriving DecidableEq, Repr

/-- Source A of an exchange as a number. -/
def Thread.crewSrc (x : Thread) (f : Fields) : CrewRead → Option Nat
  | .pair => (x.src64 f.sa).map (·.toNat)
  | .float => (x.srcF f.sa).map (·.toNat)
  | .word => (x.src32 f.sa).map (·.toNat)
/-- How CREDUCE and CSCAN read their source (R278). -/
def reduceRead (f : Fields) : CrewRead :=
  if f.ctl / 16 % 2 = 1 then .pair else if f.ctl % 16 ≥ 8 then .float else .word
def State.crewVal (s : State) (f : Fields) (r : CrewRead) (t : ThreadId) : Nat := ((s.thread t).crewSrc f r).getD 0
def Thread.putWide (x : Thread) (f : Fields) (wide : Bool) (v : Nat) : Thread :=
  if wide then x.setPair f.dst.toNat (BitVec.ofNat 64 v) else x.setReg f.dst.toNat (BitVec.ofNat 32 v)

/-- R276. -/
def execBallot (f : Fields) (s : State) : Host.Outcome State Fault Refusal :=
  s.runCrew (.ballot f) (fun _ => true) fun s _ good _ x =>
    x.setReg f.dst.toNat (BitVec.ofNat 32 (((good.filter fun u => (s.thread u).pred f.sa.toNat).map fun u => 2 ^ (u.tid % 32)).foldl (· + ·) 0))

/-- The lane that SHFL reads, or none at the edge of a segment (R277). -/
def shflLane (mode seg lane b : Nat) : Option Nat :=
  let size := 2 * 2 ^ seg
  let base := lane - lane % size
  let i := lane % size
  match mode with
  | 0 => some (base + b % size)
  | 1 => if b ≤ i then some (base + i - b) else none
  | 2 => if i + b < size then some (base + i + b) else none
  | _ => some (base + Nat.xor i (b % size))

/-- R277. -/
def execShfl (f : Fields) (s : State) : Host.Outcome State Fault Refusal :=
  let wide := decide (f.ctl / 4 % 2 = 1)
  s.runCrew (.shfl f) (fun x => (x.b32 f).isSome) fun s b _ t x =>
    let v := match shflLane (f.ctl % 4) (f.ctl / 8) (t.tid % 32) ((x.b32 f).getD 0).toNat with
      | none => 0
      | some l => if b.threads.contains (crewMember t l) then s.crewVal f (if wide then .pair else .word) (crewMember t l) else 0
    x.putWide f wide v

/-- A reduction of a list of inputs of n bits; the identity where there are none (R278). -/
def reduceOf (op n : Nat) (l : List Nat) : Nat :=
  let int := fun v => sextN v n
  match op with
  | 0 => (l.foldl (· + ·) 0) % 2 ^ n
  | 1 => l.foldl (fun m v => if int v < int m then v else m) (2 ^ (n - 1) - 1)
  | 2 => l.foldl (fun m v => if int v > int m then v else m) (2 ^ (n - 1))
  | 3 => l.foldl min (2 ^ n - 1)
  | 4 => l.foldl max 0
  | 5 => l.foldl Nat.land (2 ^ n - 1)
  | 6 => l.foldl Nat.lor 0
  | 7 => l.foldl Nat.xor 0
  | 8 =>
    match l with
    | [] => 0
    | v :: l => deliver 0 1 false (l.foldl (fun a u => addVal 1 a (valOf 0 u)) (valOf 0 v)) 0
  | 9 =>
    match l, l.filter fun v => !isNan 0 v with
    | [], _ => 0x7F800000
    | _, [] => nanOf 0
    | _, v :: r => r.foldl (fminBits 0) v
  | _ =>
    match l, l.filter fun v => !isNan 0 v with
    | [], _ => 0xFF800000
    | _, [] => nanOf 0
    | _, v :: r => r.foldl (fmaxBits 0) v

/-- R278. -/
def execCreduce (f : Fields) (s : State) : Host.Outcome State Fault Refusal :=
  let wide := decide (f.ctl / 16 % 2 = 1)
  s.runCrew (.creduce f) (fun x => (x.crewSrc f (reduceRead f)).isSome) fun s _ good _ x =>
    x.putWide f wide (reduceOf (f.ctl % 16) (if wide then 64 else 32) (good.map (s.crewVal f (reduceRead f))))

/-- R278. -/
def execCscan (f : Fields) (s : State) : Host.Outcome State Fault Refusal :=
  let wide := decide (f.ctl / 16 % 2 = 1)
  let excl := decide (f.ctl / 32 % 2 = 1)
  s.runCrew (.cscan f) (fun x => (x.crewSrc f (reduceRead f)).isSome) fun s _ good t x =>
    let part := good.filter fun u => u.tid < t.tid || (!excl && u.tid = t.tid)
    x.putWide f wide (reduceOf (f.ctl % 16) (if wide then 64 else 32) (part.map (s.crewVal f (reduceRead f))))

/-- The most frequent value; a tie goes to the tied value that comes first (R139, R279). -/
def mostOf (l : List Nat) : Nat :=
  (l.foldl (fun (m : Nat × Nat) v => if l.count v > m.2 then (v, l.count v) else m) (0, 0)).1

/-- R279. -/
def execCvote (f : Fields) (s : State) : Host.Outcome State Fault Refusal :=
  let wide := decide (f.ctl / 4 % 2 = 1)
  let mode := f.ctl % 4
  s.runCrew (.cvote f) (fun x => mode < 2 || (x.crewSrc f (if wide then .pair else .word)).isSome) fun s _ good _ x =>
    let preds := good.map fun u => (s.thread u).pred f.sa.toNat
    let vals := good.map (s.crewVal f (if wide then .pair else .word))
    match mode with
    | 0 => x.setPred f.dst.toNat (preds.all id)
    | 1 => x.setPred f.dst.toNat (preds.any id)
    | 2 => x.setPred f.dst.toNat (vals.all fun v => v = vals.headD 0)
    | _ => x.putWide f wide (mostOf vals)

end Sys2Proof.Machine
end

