-- ==== Sys2Proof/Machine/Delivery.lean ====
section
/-! DEFINITION. What ends a thread's waits from outside its words: the progress watchdog (R280, R281), delivery of deferred
faults (R159, R235), the resource wait (R393) and the end of a draining thread (R343). -/

namespace Sys2Proof.Machine

/-! ## Progress watchdog (R280, R281) -/

/-- The lanes of threads as a mask. -/
def laneMask (l : List ThreadId) : Nat := (l.map fun t => 2 ^ (t.tid % 32)).foldl (· + ·) 0

/-- The watchdog frame: the program counters of the non-arriving lanes (R386). -/
def State.watchdogFrame (s : State) (absent : List ThreadId) : List Byte :=
  (List.range 32).flatMap fun n => match absent.find? fun t => t.tid % 32 = n with
    | some t => bytesLE 8 (s.thread t).pc.toNat
    | none => bytesLE 8 0

/-- The watchdog limit of a cohort in ticks (R316). -/
def State.wdogLimit (s : State) (c : CohortId) : Nat :=
  let n := (s.launchOf c).wdog
  (if n = 0 then 10000 else n) * ticksPerUs

/-- R280: every member standing at the clause traps, each with the record of R281. -/
def execProgressWatchdog (c : CohortId) (crew : Nat) (pc : DWord) (s : State) : Host.Outcome State Fault Refusal :=
  .next (match (s.cohort c).timers.find? fun k => k.crew = crew && k.pc = pc with
    | none => s
    | some k =>
      let here := s.crewOf ⟨c, crew * 32⟩
      let waiting := here.filter fun t => (s.thread t).standsAt pc
      let absent := here.filter fun t => !(s.thread t).standsAt pc
      let unmet := absent.filter fun t => let x := s.thread t; x.pc = pc && !x.inside && x.run = .blocked
      if !s.awake c || waiting = [] || absent = [] || s.now - k.since ≤ s.wdogLimit c then s
      else
        let count := match s.fetchClause c pc with | .ok (h, _) => (Header.ofWord h).count | .error _ => 0
        let priv := (s.launchOf c).priv'
        let framed := decide (priv ≥ 256)
        let r := trapRec .watchdog 0 0 pc (BitVec.ofNat 64 (laneMask waiting + 2 ^ 32 * laneMask unmet)) pc 0 (laneMask absent) false framed
        let bytes := s.watchdogFrame absent
        waiting.foldl (fun s t =>
          if (s.thread t).run ≠ .rendezvous then s
          else
            let s := if framed then s.store (privateAt t (priv - 256)) bytes else s
            s.takeTrap t { kind := .watchdog, record := r, point := { pc := pc, word := 0, next := 1, count := count, kind := .header } }) (s.stopTimer c crew pc))

/-! ## Delivery of deferred faults (R159, R235, R385, R389) -/

/-- The bundle of a thread in flight. -/
def State.bundleOf (s : State) (t : ThreadId) : Option (Nat × Bundle) :=
  (s.quad (s.thread t).quad).bundles.find? fun b => b.2.threads.contains t

/-- The word at which a bundle stands. -/
def Bundle.instr (b : Bundle) : Option Instr :=
  match b.words[b.word]? with
  | none => none
  | some w => Instr.ofCode (opcOf w) (Fields.ofWord w (b.words.getD (b.word + 1) 0))

/-- Whether a word makes a store, atomic, object, arrival or engine event, which a release fence holds (R245, R247). -/
def Instr.followsRelease (i : Instr) : Bool :=
  match i.opc with
  | some o => (0x80 ≤ o && o ≤ 0x87 && o % 2 = 1) || (0xA0 ≤ o && o ≤ 0xC1) || o = 0xC9 || o = 0xF4 || i.isEngine
  | none => false

/-- Whether a word that a thread is at waits for the delivery of a fault: its registers name the faulting load's
destination, or it is an event behind a faulted acquire or behind a fence that the fault keeps pending (R235, R239, R247). -/
def State.wordDelivers (s : State) (t : ThreadId) (i : Instr) (f : Fields) (d : Deferred) : Bool :=
  let x := s.thread t
  ((x.executes f && d.dst.any fun r => i.named.contains r) || d.dst.any fun r => (crossReads i).contains r)
  || (x.executes f && i.isEvent && (d.acq || (d.ctr < 2 && x.fences.any fun g => d.op < g.id && (g.kind ≠ 2 || Instr.followsRelease i))))

/-- The pending fault whose delivery point the thread stands at, with the trap point. -/
def State.dueFault (s : State) (t : ThreadId) : Option (Deferred × TrapPoint) :=
  let x := s.thread t
  if x.handler || x.raised.isSome || (s.cohort t.cohort).killed.isSome || !s.awake t.cohort then none
  else
    match x.run with
    | .blocked =>
      if x.inside || !s.mayBegin t || offsetOf x.pc % 8 ≠ 0 then none else
      match s.fetchClause t.cohort x.pc with
      | .error _ => none
      | .ok (w, ws) =>
        let h := Header.ofWord w
        if clauseBad x.pc h ws then none
        else (x.deliverableAt h).map fun d => (d, { pc := x.pc, word := 0, next := 1, count := h.count, kind := .header })
    | .issuing =>
      (s.bundleOf t).bind fun b => b.2.instr.bind fun i => i.fields?.bind fun f =>
        if b.2.waitOps ≠ [] && !b.2.rest.contains t then none
        else (x.deferred.find? fun d => s.wordDelivers t i f d).map fun d => (d, b.2.point .word false)
    | .parked (.arrival nb) =>
      (x.deferred.find? fun d => d.kind = .deferredMemory || d.nb = some nb).map fun d =>
        (d, { pc := x.pc, word := x.word, next := x.word + 1,
              count := match s.fetchClause t.cohort x.pc with | .ok (w, _) => (Header.ofWord w).count | .error _ => 0, kind := .word })
    | .draining =>
      if (List.range 6).all fun c => x.dc c = 0 then
        x.deferred.head?.map fun d => (d, { pc := x.pc, word := x.word, next := x.word + 1, count := x.word, kind := .word, exit := true })
      else none
    | _ => none

/-- The record of a fault at its delivery: MORE where others are pending; a resource wait names the trapping word (R386). -/
def Deferred.delivered (d : Deferred) (p : TrapPoint) (more : Bool) : TrapRec :=
  let r := if more then { d.record with f0 := d.record.f0 ||| (1 <<< 41) } else d.record
  if d.kind = .resourceWait then
    { r with f0 := (r.f0 &&& ~~~(0xF#64 <<< 44)) ||| BitVec.ofNat 64 (2 ^ 44 * (p.word % 16)), f1 := p.pc }
  else r

/-- R235, R159: the fault is delivered, and no longer holds the thread's fences. -/
def execDeferredFaultDelivery (t : ThreadId) (s : State) : Host.Outcome State Fault Refusal :=
  .next (match s.dueFault t with
    | none => s
    | some (d, p) =>
      let rest := (s.thread t).deferred.filter fun e => e ≠ d
      let s := (s.modThread t fun x => { x with deferred := rest }).settleFences t
      let s := { s with threads := s.threads.map fun u (x : Thread) =>
        if u.cohort = t.cohort then { x with deferred := x.deferred.map fun (e : Deferred) => if e.op = d.op && e.sub = d.sub && e.kind = d.kind then { e with taken := true } else e } else x }
      s.takeTrap t { kind := d.kind, record := d.delivered p (rest ≠ []), point := p
                     rowprog := d.rowprog })

/-! ## Resource wait (R393) -/

/-- Ten milliseconds in ticks. -/
def resourceLimit : Nat := 10000 * ticksPerUs

/-- AUX of a precise resource wait: the destination pointer of a COPY or transfer; no other held word has one (R386). -/
def Instr.waitAux (i : Instr) (p : DWord) : DWord :=
  match i.opc with
  | some o => if o = 0x8C || (0xD7 ≤ o && o ≤ 0xD9) then p else 0
  | none => 0

/-- The precise resource wait of a thread whose word is held: the thread leaves the bundle, and what it has not fetched of
its KICK is dropped (R241, R393). -/
def State.wordWait (s : State) (t : ThreadId) (b : Bundle) (i : Instr) (f : Fields) (pool : Nat) : State :=
  let kicks := List.filter (fun (o : Nat × Op) => o.2.thread = t && b.waitOps.contains o.1) s.ops
  -- a KICK waits for a slot for its next record
  let next := kicks.findSome? fun o => match o.2.body with
    | .kick k => some (ptrAdd k.list (64 * k.next))
    | _ => none
  let p := next.getD (s.wordPointer b t i f)
  let s := kicks.foldl (fun s o => match o.2.body with
    | .kick k =>
      if s.ops.any fun q => match q.2.body with | .copy c => c.list = some o.1 | _ => false then
        s.setOp o.1 { o.2 with held := none, body := .kick { k with count := k.next } }
      else s.endOp o.1
    | _ => s) s
  s.takeTrap t { kind := .resourceWait, record := trapRec .resourceWait pool b.word b.pc p (next.getD (Instr.waitAux i p)) 0 0 false false, point := b.point .word false }

/-- The pool of a back-pressured operation, and its pointer (R393). -/
def State.poolOf (s : State) (id : Nat) (o : Op) : Option (Nat × Nat × DWord) :=
  match o.body with
  | .access a => o.held.map fun n => (4, n, a.ptr)
  | .obj b => ((s.moves.filter fun m => m.2.op = some id).findSome? fun m => m.2.held).map fun n => (3, n, b.ptr)
  | .post p _ _ _ _ _ => o.held.map fun n => (6, n, p)
  | .launchq p _ false => o.held.map fun n => (7, n, p)
  | _ => none

/-- A back-pressured operation is withdrawn: it has no effect, and its counter falls (R393). -/
def State.withdraw (s : State) (id : Nat) (o : Op) : State :=
  match o.body with
  | .access _ => (s.unqueue [id]).endOp id
  | .obj _ =>
    let s := s.dropMoves fun m => m.op = some id && !m.going
    { s with moves := s.moves.map fun _ (m : Move) => if m.op = some id then { m with op := none } else m }.endOp id
  | .post _ _ _ _ _ _ => (s.modDie o.thread.cohort.toDie fun d => { d with waiting := d.waiting.filter (· ≠ id) }).endOp id
  | _ => s.endOp id

/-- R393: ten milliseconds of back-pressure, at a held word, of the KICK a word waits for, or of an operation. -/
def execResourceWait (t : ThreadId) (op : Option Nat) (s : State) : Host.Outcome State Fault Refusal :=
  .next (match op with
    | none =>
      match s.bundleOf t with
      | none => s
      | some (_, b) =>
        match b.instr, b.instr.bind (·.fields?) with
        | some i, some f =>
          if (s.thread t).executes f && (b.waitOps = [] || b.rest.contains t) && b.pool ≠ 0 && (b.heldSince.any fun n => n + resourceLimit ≤ s.now) then s.wordWait t b i f b.pool else s
        | _, _ => s
    | some id =>
      match s.op? id with
      | none => s
      | some o =>
        if o.thread ≠ t || !s.awake t.cohort then s else
        match s.poolOf id o with
        | some (pool, n, p) =>
          if n + resourceLimit ≤ s.now then
            (s.withdraw id o).addDeferred t
              { op := id, ctr := o.ctr.getD 0, kind := .resourceWait, dst := o.dst
                record := trapRec .resourceWait pool o.word o.pc p (if pool = 6 then p else 0) 0 0 false false }
          else s
        | none =>
          match o.body, s.bundleOf t with
          | .kick _, some (_, b) =>
            match b.instr, b.instr.bind (·.fields?) with
            | some i, some f =>
              if b.waitOps.contains id && (o.held.any fun n => n + resourceLimit ≤ s.now) then s.wordWait t b i f 2 else s
            | _, _ => s
          | _, _ => s)

/-! ## The end of a thread (R343) -/

/-- R343: with nothing outstanding and no fault to deliver, the thread releases at the widest declared level and ends. A
thread that exits inside a handler leaves its pending faults to the report of R161. -/
def execExitDrainComplete (t : ThreadId) (s : State) : Host.Outcome State Fault Refusal :=
  let x := s.thread t
  .next (if x.run ≠ .draining || !s.awake t.cohort || !((List.range 6).all fun c => x.dc c = 0) || (!x.handler && x.deferred ≠ []) then s
    else
      let s := (s.releaseAll t).modThread t fun x => { x with run := .ended, deferred := [] }
      x.deferred.foldl (fun s d =>
        let left := s.threads.any fun u => u.1.cohort = t.cohort && u.2.deferred.any fun e => e.op = d.op && e.sub = d.sub && e.kind = d.kind
        if left || d.taken then s else s.reportFault t.cohort.chip (s.cohort t.cohort).vf d.record 7 t.cohort.grid (s.cohort t.cohort).index t.tid) s)

end Sys2Proof.Machine
end

