-- ==== Sys2Proof/Machine/Pump.lean ====
section
/-! DEFINITION. The Pump: XSEND, XFETCH and XADD (R285 to R294), its transactions and their schedule (R288, R302, R304), their
ends and signals (R284, R289 to R293), and the Link fault (R292, R410). -/

namespace Sys2Proof.Machine

/-! ## Issue (R285 to R287, R293, R294) -/

/-- Whether a pointer is the issuer's private memory or cistern. -/
def isLocal01 (p : DWord) : Bool := birthOf p = 0xFFF && serialOf p < 2

/-- The transfer that a thread's registers give, with its multicast mask (R286). DESIGN CHOICE (log 66): bits 63:48 of the mask's
register pair are ignored. -/
def Thread.transferOf (x : Thread) (f : Fields) (code : XCode) : Option (XferOp × Nat) :=
  let d := f.dst.toNat
  let mc := decide (code = .send) && d % 2 = 1
  let n := f.sc.toNat
  (x.src64 f.sa).bind fun dst => (x.b64 f).map fun src =>
    let len := (x.reg (n + 2)).toNat
    ({ code := code, dst := dst, src := src, len := len, int := decide (code = .add) && d / 4 % 2 = 1, mc := mc,
       handle := if d / 2 % 2 = 1 then some (x.pair n) else none, nb := if f.modSig then some f.modNb else none
       nbBytes := if code = .fetch then len else 0, sfmt := if code ≠ .add then 9 else if d / 4 % 2 = 1 then 12 else 0
       dfmt := if code ≠ .add then 9 else if d / 4 % 2 = 1 then 12 else 0 : XferOp }, if mc then (x.pair (n + 4)).toNat % 2 ^ 48 else 0)

/-- The spaces of a transfer's pointers (R287): destination, then source. -/
def XferOp.dstSpace (x : XferOp) : Bool :=
  match x.code with
  | .send => if x.mc then isCistern x.dst else isGlobal x.dst
  | .fetch => isGlobal x.dst || isLocal01 x.dst
  | .add => isGlobal x.dst
def XferOp.srcSpace (x : XferOp) : Bool := isGlobal x.src || (x.code ≠ .fetch && isLocal01 x.src)

/-- The chip-local checks of R232 for n bytes. -/
def State.localCheck (s : State) (t : ThreadId) (p : DWord) (n : Nat) : Bool :=
  if birthOf p ≠ 0xFFF then true
  else if serialOf p = 0 then offsetOf p + n ≤ (s.launchOf t.cohort).priv'
  else s.ownsBytes t.cohort.toCore (s.partOf t.cohort) (offsetOf p) n

/-- The precise trap of a transfer, if any, in the order of R287. -/
def State.transferTrap (s : State) (t : ThreadId) (x : XferOp) (mask : Nat) : Option (TrapKind × Nat × DWord) :=
  let long := fun p => offsetOf p + x.len > 2 ^ 30
  let far := fun (h : DWord) => if x.mc then h.toNat ≥ 16 else bitsOf h.toNat 27 4 ≠ 0 || birthOf h ≥ 0xFFE
  if x.len = 0 || x.len > 2 ^ 24 || (x.code = .add && x.len % 4 ≠ 0) then some (.illegalOperand, 0, 0)
  else if x.handle.any far then some (.illegalOperand, 0, 0)
  else if x.mc && (mask = 0 || maskOutside t mask || !isCistern x.dst) then some (.illegalOperand, 0, 0)
  else if !x.dstSpace then some (.memoryFault, 0x12, x.dst)
  else if !x.srcSpace then some (.memoryFault, 0x12, x.src)
  else if long x.dst then some (.memoryFault, 0x11, x.dst)
  else if long x.src then some (.memoryFault, 0x11, x.src)
  else if x.code = .add && offsetOf x.dst % 4 ≠ 0 then some (.memoryFault, 0x10, x.dst)
  else if x.code = .add && offsetOf x.src % 4 ≠ 0 then some (.memoryFault, 0x10, x.src)
  else if !x.mc && !s.localCheck t x.dst x.len then some (.memoryFault, 3, x.dst)
  else if !s.localCheck t x.src x.len then some (.memoryFault, 3, x.src)
  else none

/-- The shares of a transfer: the cores of a multicast, or the issuer's own claim on its cistern (R288, R293). -/
def State.transferShares (s : State) (t : ThreadId) (x : XferOp) (mask : Nat) : List Share :=
  if !isCistern x.dst then []
  else
    let lines := linesOf (offsetOf x.dst) x.len
    if x.mc then (maskCores mask).map fun n =>
      let d := s.shareDropped t n (offsetOf x.dst) x.len
      { core := n, claims := if d then [] else lines, dropped := d }
    else [{ core := t.cohort.core, claims := lines }]

/-- The 4 KiB blocks of a destination. -/
def XferOp.blocks (x : XferOp) : List Nat :=
  let b := offsetOf x.dst / 4096
  (List.range ((offsetOf x.dst + x.len - 1) / 4096 + 1 - b)).map (b + ·)
/-- The transactions of a transfer: block b, of share i of a multicast as i × 2^18 + b. -/
def XferOp.transactions (x : XferOp) : List Nat :=
  if x.mc then (List.range x.shares.length).flatMap fun i => if (x.shares.getD i {}).dropped then [] else x.blocks.map (2 ^ 18 * i + ·)
  else x.blocks

/-- One of the three transfer words: each executing thread queues its own on its die (R285, R294). -/
def State.transferWord (s : State) (i : Instr) (f : Fields) (code : XCode) : Host.Outcome State Fault Refusal :=
  let hold := fun (s : State) (_ : Bundle) (ts : List ThreadId) =>
    if ts.any fun t =>
        let vf := (s.cohort t.cohort).vf
        decide ((Tab.getD (s.die t.cohort.toDie).queues vf []).length + (ts.filter fun u => (s.cohort u.cohort).vf = vf).length > 256) then some 5
    else none
  s.runThreads i hold fun _ b t s =>
    orTrap ((s.thread t).transferOf f code) fun (x, m) =>
    match s.transferTrap t x m with
    | some (k, c, p) => .trap k c p 0
    | none =>
      let sh := s.transferShares t x m
      if s.sharesHeld t sh then .held
      else
        let o := s.newOp b t (some 4) (.clock 255)
        let s := s.claimShares t sh
        let x := { x with shares := sh, slot := if f.modG then some (s.bindSlot t.cohort f.modSlot) else none, issued := s.now, fork := s.nextId }
        let (id, s) := s.addOp { o with body := .xfer { x with todo := x.transactions } }
        let vf := (s.cohort t.cohort).vf
        .done (s.modDie t.cohort.toDie fun d => { d with queues := Tab.put d.queues vf (Tab.getD d.queues vf [] ++ [id]) })

/-- R286, R289. -/
def execXsend (f : Fields) (s : State) := s.transferWord (.xsend f) f .send
/-- R286, R290. -/
def execXfetch (f : Fields) (s : State) := s.transferWord (.xfetch f) f .fetch
/-- R286, R291. -/
def execXadd (f : Fields) (s : State) := s.transferWord (.xadd f) f .add

/-! ## Performing a transaction (R288, R289 to R293, R304) -/

/-- A global pointer that transfers do not reach: no object bears its serial. -/
def State.xferSpace (s : State) (p : DWord) : Option Nat :=
  if isGlobal p && (s.obj? p).isNone then some (if (s.window? p).isSome then 3 else 2) else none
def State.xferRead (s : State) (t : ThreadId) (p : DWord) (n : Nat) : Except Nat (List Byte) :=
  if n = 0 then .ok [] else match s.xferSpace p with | some c => .error c | none => s.engineRead t p n
def State.xferWrite (s : State) (t : ThreadId) (p : DWord) (bs : List Byte) (id : Nat) (edges : List Edge) : Except Nat State :=
  if bs = [] then .ok s else match s.xferSpace p with | some c => .error c | none => s.engineWrite t p bs id edges
/-- Whether bytes of a transaction, n of them at a, need the old bytes of a failed line: one that its len bytes at b do not cover (R288,
R367). -/
def State.partFails (s : State) (a n b len : Nat) : Bool :=
  !inCistern a && (blocksOf a n).any fun l => !(b ≤ l * 64 && l * 64 + 64 ≤ b + len) && s.lineFails l
/-- The lines that n bytes at a have been written over are whole (R367, R411). -/
def State.heal (s : State) (a n : Nat) : State :=
  if (blocksOf a n).any s.lineFails then { s with failed := s.failed.filter fun l => !coversLine a n l }.l2Use a n true else s
/-- Bytes pos and on of a transaction's len at a pointer are written; its last bytes make the lines whole that it covers (R288, R367). -/
def State.partWrite (s : State) (t : ThreadId) (p : DWord) (pos len : Nat) (bs : List Byte) (id : Nat) (edges : List Edge) (adds : Bool) :
    Except Nat State :=
  match s.xferSpace p with
  | some c => .error c
  | none => match (s.reach t p bs.length true).here p with
    | .place a =>
      if s.partFails a bs.length (a - pos) len then .error 4
      else
        let s := s.engineStore t p a bs id edges adds
        .ok (if pos + bs.length = len then s.heal (a - pos) len else s)
    | .fail c => .error c
    | .transit => .error 2

/-- Whether a read of a transfer must wait: also for the presence bits of a cistern source (R213, R288). -/
def State.xferReadWaits (s : State) (t : ThreadId) (fork : Nat) (p : DWord) (n : Nat) : Bool :=
  n ≠ 0 && (s.engineWaits t fork p n false
    || (isCistern p && !s.presentAll t.cohort.toCore (offsetOf p) n))
def State.xferWriteWaits (s : State) (t : ThreadId) (fork : Nat) (p : DWord) (n : Nat) : Bool :=
  n ≠ 0 && s.engineWaits t fork p n true
/-- What a transfer does that waits at n bytes: where only their holder keeps it, it takes a place there (R147, R187). -/
def State.xferWait (s : State) (t : ThreadId) (fork : Nat) (p : DWord) (n : Nat) (wr : Bool) : State :=
  s.engineWait t fork (!wr && isCistern p && !s.presentAll t.cohort.toCore (offsetOf p) n) p n wr
/-- Whether a share of a multicast lies on another core than the issuer's. -/
def XferOp.far (x : XferOp) (t : ThreadId) (e : Nat) : Bool := x.mc && (x.shares.getD (e / 2 ^ 18) {}).core ≠ t.cohort.core

/-- Whether transaction e of a transfer can begin now. -/
def State.xferReady (s : State) (t : ThreadId) (x : XferOp) (e : Nat) : Bool :=
  let (lo, n) := x.piece (e % 2 ^ 18)
  let (so, sn) := x.srcSpan lo n
  let (co, cn) := x.scaleSpan lo n
  !(s.xferReadWaits t x.fork (ptrAdd x.src so) sn
    || (x.scaleIn && s.xferReadWaits t x.fork (ptrAdd x.scale co) cn)
    || (x.scaleOut && s.xferWriteWaits t x.fork (ptrAdd x.scale co) cn)
    || (!x.far t e && s.xferWriteWaits t x.fork (ptrAdd x.dst lo) n))

/-- A firing that takes no part in its reduction slot: the round's other firings end with ERR (R303). -/
def State.spoil (s : State) (id : Nat) (x : XferOp) : State :=
  match x.red with
  | none => s
  | some k => { s with redSlots := s.redSlots.map fun j (r : RedSlot) => if j = k then r.spoil id else r }

/-- The end of a transfer or firing: its claims end, the signals that it still owes are sent, a fault is deferred to its thread, and an
entry whose firing faults retires; what a firing has read from comes before its entry's end (R253, R288, R292, R293, R298, R301).
Firings that wait for a switch's add that it carries share its fault (R303). -/
def State.endXfer (s : State) (id : Nat) (o : Op) (x : XferOp) (err : Option (Nat × DWord)) (discarded : Bool) : State :=
  let t := o.thread
  let d := t.cohort.toDie
  let err := match err with | some e => some e | none => x.err.map fun c => (c, if x.cut then x.errAt else x.dst)
  let bad := err.isSome || discarded
  let s := x.shares.foldl (fun s y => s.unclaim (shareCore t y) y.claims) s
  let s := if x.signalled then s else (s.xferRemote id o x bad).2
  let s := s.xferSignals id o x bad
  let s := s.modDie d fun y => { y with queues := y.queues.map fun q => (q.1, q.2.filter (· ≠ id)) }
  let s := s.closeOp id
  let s := if bad then s.spoil id x else s
  let s := if x.sum && err.isSome then { s with ops := s.ops.map fun _ (p : Op) => match p.body with
      | .xfer y => if y.rides = some id then { p with body := .xfer { y with err := err.map (·.1), rides := none } } else p
      | _ => p } else s
  let s := match x.slotOf.bind fun k => (Tab.get? (s.die d).slots k).map fun e => (k, e) with
    | some (k, e) => s.modDie d fun y => { y with slots := Tab.put y.slots k { e with heard := join e.heard o.know } }
    | none => s
  match x.slotOf.bind fun k => (Tab.get? (s.die d).slots k).map fun e => (k, e) with
  | none => match err with
    | some (c, p) => s.deferEngine t id o 4 c p x.dst x.nb none
    | none => s
  | some (k, e) => match err with
    | some (c, p) => (s.retireSlot d k (4 + 256 * c)).deferEngine t id o 6 c p e.addr (some (e.entry.ctrl / 2 ^ 18 % 16)) none
    | none => s

/-- A transfer ends with a fault or is discarded: once the transactions whose writes have begun are performed; the others are dropped
(R288, R292). -/
def State.finishXfer (s : State) (id : Nat) (o : Op) (x : XferOp) (err : Option (Nat × DWord)) (discarded : Bool) : State :=
  if x.begunParts = [] then s.endXfer id o x err discarded
  else
    let x := match x.err, err with | none, some (c, p) => { x with err := some c, errAt := p } | _, _ => x
    s.setOp id { o with body := .xfer { x with todo := [], parts := x.begunParts, cut := true } }

/-- A transfer after one of its transactions: after the last one of a transfer that succeeds, its remote signals are on their way; one
that is cut short ends (R288, R289, R293). -/
def State.goOn (s : State) (id : Nat) (o : Op) (x : XferOp) : State :=
  if x.cut && x.parts = [] then s.endXfer id o x none true
  else if x.todo = [] && x.parts = [] && !x.signalled then
    let (k, s) := s.xferRemote id o x false
    s.setOp id { o with body := .xfer { x with signals := k, signalled := true } }
  else s.setOp id { o with body := .xfer x }

/-- A fault that a transfer meets at n bytes of a pointer: a line found failed is marked (R292, R367). -/
def State.xferFault (s : State) (id : Nat) (o : Op) (x : XferOp) (cause : Nat) (p : DWord) (n : Nat) : State :=
  (s.foundBy o.thread p n).finishXfer id o x (some (cause, p)) false

/-- A share of a multicast that is dropped: nothing more of it is written than the transactions that have begun (R227, R288, R293). -/
def State.dropShare (s : State) (id : Nat) (o : Op) (x : XferOp) (i : Nat) : State :=
  let y := x.shares.getD i {}
  let last := !x.parts.any fun k => k.tran / 2 ^ 18 = i && k.pos ≠ 0
  (if last then s.unclaim (shareCore o.thread y) y.claims else s).goOn id o
    { x with todo := x.todo.filter fun k => k / 2 ^ 18 ≠ i, parts := x.parts.filter fun k => k.tran / 2 ^ 18 ≠ i || k.pos ≠ 0
             shares := x.shares.set i { y with dropped := true, claims := if last then [] else y.claims } }

/-- Whether transaction e is of a share that is dropped: one that has begun goes on while its banks have their owner (R227, R288). -/
def State.tranDropped (s : State) (t : ThreadId) (x : XferOp) (e : Nat) (begun : Bool := false) : Bool :=
  let (lo, n) := x.piece (e % 2 ^ 18)
  let core := (x.shares.getD (e / 2 ^ 18) {}).core
  x.mc && (if begun then !s.ownsBytes { t.cohort.toCore with core := core } (s.partOf t.cohort) (offsetOf x.dst + lo) n
           else s.shareDropped t core (offsetOf x.dst + lo) n)

/-- Transaction e of a transfer begins: its source is read, and what it will write is in the Pump's staging memory (R288). -/
def State.transact (s : State) (id : Nat) (o : Op) (x : XferOp) (e : Nat) : State :=
  let t := o.thread
  let (lo, n) := x.piece (e % 2 ^ 18)
  let (so, sn) := x.srcSpan lo n
  let (co, cn) := x.scaleSpan lo n
  let src := ptrAdd x.src so
  let scale := ptrAdd x.scale co
  if s.tranDropped t x e then s.dropShare id o x (e / 2 ^ 18)
  else
    let s := s.giveUp x.fork
    match s.xferRead t src sn with
    | .error c => s.xferFault id o x c src sn
    | .ok bs =>
      match (if x.scaleIn then s.xferRead t scale cn else .ok []) with
      | .error c => s.xferFault id o x c scale cn
      | .ok ks =>
        let know := s.engineHeard t src sn o.know
        let know := if x.scaleIn then s.engineHeard t scale cn know else know
        let (data, scales) := if x.code = .add then (bs, ks) else x.produce lo n bs ks
        (s.engineCount t src sn).goOn id { o with know := know }
          { x with todo := x.todo.filter (· ≠ e), parts := x.parts ++ [{ tran := e, data := data, scales := scales }] }

/-- A part of a transaction is written: its next units in ascending order, at most n of them (R288). -/
def State.advancePart (s : State) (id : Nat) (o : Op) (x : XferOp) (k : XferPart) (n : Nat) : State :=
  let t := o.thread
  let (lo, len) := x.piece (k.tran % 2 ^ 18)
  let dst := ptrAdd x.dst (lo + k.pos)
  let m := x.unit k n
  let y := x.shares.getD (k.tran / 2 ^ 18) {}
  if s.tranDropped t x k.tran (k.pos ≠ 0) then
    s.dropShare id o { x with parts := x.parts.filter fun p => p.tran ≠ k.tran } (k.tran / 2 ^ 18)
  else if x.far t k.tran && s.claimedOn (shareCore t y) x.fork (offsetOf dst) m then s
  else if !x.far t k.tran && s.xferWriteWaits t x.fork dst m then s.xferWait t x.fork dst m true
  else if x.scaleOut && len ≤ k.pos + m && s.xferWriteWaits t x.fork (ptrAdd x.scale (x.scaleSpan lo len).1) k.scales.length then
    s.xferWait t x.fork (ptrAdd x.scale (x.scaleSpan lo len).1) k.scales.length true
  else
    let s := s.giveUp x.fork
    -- an add reads what it adds to (R253, R262)
    let o := if x.code = .add then { o with know := s.engineHeard t dst m o.know } else o
    let rest := { x with parts := x.parts.filter fun p => p.tran ≠ k.tran }
    let written : Except Nat State :=
      if x.mc then
        let a := cisternAt (shareCore t y) (offsetOf dst)
        let s := (s.store a (x.partBytes k m [])).addEdges a m o.allEdges
        .ok (if k.pos + m = len then s.heal (a - k.pos) len else s)
      else
        match (if x.code = .add then s.xferRead t dst m else .ok []) with
        | .error c => .error c
        | .ok old => s.partWrite t dst k.pos len (x.partBytes k m old) x.fork o.allEdges (x.code = .add)
    match written with
    | .error c => s.xferFault id o rest c dst m
    | .ok s =>
      if k.pos + m < len then
        s.setOp id { o with body := .xfer { x with parts := x.parts.map fun p => if p.tran = k.tran then { k with pos := k.pos + m } else p } }
      else
        let scale := ptrAdd x.scale (x.scaleSpan lo len).1
        match (if x.scaleOut then s.xferWrite t scale k.scales x.fork o.allEdges else .ok s) with
        | .error c => s.xferFault id o rest c scale k.scales.length
        | .ok s =>
          let fin := if isCistern x.dst then (linesOf (offsetOf x.dst + lo) len).filter y.claims.contains else []
          let s := (s.unclaim (shareCore t y) fin).engineCount t (ptrAdd x.dst lo) len true
          let know := if x.mc then o.know else s.windowKnow t dst x.fork o.know
          s.goOn id { o with know := know }
            { rest with wrote := x.wrote + len
                        shares := if x.shares = [] then [] else x.shares.set (k.tran / 2 ^ 18) { y with claims := y.claims.filter fun l => !fin.contains l } }

/-! ## Queues and their schedule (R294, R302) -/

/-- A transfer and its record. -/
def State.xfer? (s : State) (id : Nat) : Option (Op × XferOp) :=
  (s.op? id).bind fun o => if o.closing then none else match o.body with | .xfer x => some (o, x) | _ => none

/-- Whether two transfers' destinations overlap. -/
def XferOp.overlaps (a b : XferOp) : Bool :=
  birthOf a.dst = birthOf b.dst && serialOf a.dst = serialOf b.dst && offsetOf a.dst < offsetOf b.dst + b.len && offsetOf b.dst < offsetOf a.dst + a.len

/-- Whether a guarded transfer's epoch is resolved TRUE, or it has none (R152, R285). -/
def State.guardOpen (s : State) (o : Op) (x : XferOp) : Bool := x.slot.all fun b => s.slotOutcome o.thread.cohort b = some true
/-- Whether a transfer is to be discarded under its guard. -/
def State.guardShut (s : State) (o : Op) (x : XferOp) : Bool := !x.begun && x.slot.any fun b => s.slotOutcome o.thread.cohort b = some false

/-- The operations before one in its function's direct queue. -/
def State.queuedBefore (s : State) (id : Nat) (o : Op) : List (Op × XferOp) :=
  ((Tab.getD (s.die o.thread.cohort.toDie).queues (s.cohort o.thread.cohort).vf []).takeWhile (· ≠ id)).filterMap s.xfer?
/-- Whether nothing keeps a transfer's context from running it: one that is to be saved begins no more transactions (R396). -/
def State.xferRuns (s : State) (id : Nat) (o : Op) (x : XferOp) : Bool :=
  let v := s.vf o.thread.cohort.chip (s.cohort o.thread.cohort).vf
  s.opMoves id o && v.busy.isNone && v.ctx ≠ .stopping && x.red.isNone && !x.cut

/-- Transfers of a die start, those of a direct queue in issue order: at the queue's head the guard must be open (R152, R294). -/
def State.startXfers (s : State) (d : DieId) : State :=
  (s.ops.filterMap fun p => match p.2.body with | .xfer x => if p.2.thread.cohort.toDie = d && !x.begun then some p.1 else none | _ => none).foldl (fun s id =>
    match s.xfer? id with
    | some (o, x) =>
      if s.xferRuns id o x && s.guardOpen o x && (x.slotOf.isSome || (s.queuedBefore id o).all fun y => y.2.begun) then
        s.setOp id { o with body := .xfer { x with started := some s.now } }
      else s
    | none => s) s

/-- Whether a transfer may begin transactions now: it has started, and none of its thread that overlaps it is left before it (R294). -/
def State.xferMayRun (s : State) (id : Nat) (o : Op) (x : XferOp) : Bool :=
  s.xferRuns id o x && x.begun
    && (x.slotOf.isSome || (s.queuedBefore id o).all fun y => y.1.thread ≠ o.thread || !x.overlaps y.2)

/-- The transactions of a queue that can begin now: 0 is the direct queue of a function, k + 1 the firing of slot k. -/
def State.readyOf (s : State) (d : DieId) (vf q : Nat) : List (Nat × Nat) :=
  let ids := if q = 0 then Tab.getD (s.die d).queues vf []
             else match (Tab.get? (s.die d).slots (q - 1)).bind (·.firing) with | some i => [i] | none => []
  ids.flatMap fun id => match s.xfer? id with
    | some (o, x) => if s.xferMayRun id o x then (x.todo.filter (s.xferReady o.thread x)).map fun e => (id, e) else []
    | none => []

/-- The transactions under way on a die whose next bytes may be written: those of a context that is to be saved only where their writes
have begun (R396). -/
def State.partsOn (s : State) (d : DieId) : List (Nat × XferPart) :=
  s.ops.flatMap fun p => match s.xfer? p.1 with
    | some (o, x) => if o.thread.cohort.toDie = d && s.opMoves p.1 o then (if s.stopping o.thread.cohort then x.begunParts else x.parts).map fun k => (p.1, k) else []
    | none => []

/-- A function's queues with ready work, in number order. -/
def State.readyQueues (s : State) (d : DieId) (vf : Nat) : List (Nat × List (Nat × Nat)) :=
  let qs := 0 :: ((s.die d).slots.filter fun e => (s.cohort e.2.thread.cohort).vf = vf).map fun e => e.1 + 1
  (qs.map fun q => (q, s.readyOf d vf q)).filter fun q => q.2 ≠ []

/-- The functions with ready work on a die's Pump, unmapped ones apart (R302, R336). -/
def State.readyVfs (s : State) (d : DieId) : List Nat :=
  let vfs := ((s.ops.filterMap fun o => match o.2.body with | .xfer _ => if o.2.thread.cohort.toDie = d then some (s.cohort o.2.thread.cohort).vf else none | _ => none)).eraseDups
  (List.range 1024).filter fun v => vfs.contains v && !s.unmapped d.chip v && s.readyQueues d v ≠ []

/-- A function's next queue in turn, and one of its transactions. -/
def State.pickOf (s : State) (d : DieId) (vf pick : Nat) : Option (Nat × Nat × Nat) :=
  let qs := s.readyQueues d vf
  let last := Tab.getD (s.die d).qturn vf 0
  let q := match qs.find? fun q => q.1 > last with | some q => some q | none => qs.head?
  q.bind fun (n, l) => (l[pick % l.length]?).map fun e => (n, e.1, e.2)

/-- The size of a transaction. -/
def State.sizeOfPick (s : State) (e : Nat × Nat × Nat) : Nat :=
  match s.xfer? e.2.1 with | some (_, x) => (x.piece (e.2.2 % 2 ^ 18)).2 | none => 0

/-- The function served next, with the deficits after it: express contexts in turn, else weighted deficit round robin (R302). -/
def State.chooseVf (s : State) (d : DieId) (pick : Nat) : Option (Nat × List (Nat × Nat)) :=
  let ready := s.readyVfs d
  let x := s.die d
  let (fast, slow) := ready.partition fun v => s.expressContext d.chip v
  let held := (x.deficit.filter fun p => ready.contains p.1)
  match fast with
  | v :: l =>
    let pos := fun (v : Nat) => if x.turn.contains v then (x.turn.takeWhile (· ≠ v)).length + 1 else 0
    some (l.foldl (fun b v => if pos v < pos b then v else b) v, held)
  | [] =>
    let cost := fun v => match s.pickOf d v pick with | some e => s.sizeOfPick e | none => 0
    let serve := fun (ds : List (Nat × Nat)) => (slow.find? fun v => Tab.getD ds v 0 ≥ cost v).map fun v => (v, Tab.put ds v (Tab.getD ds v 0 - cost v))
    match serve held with
    | some r => some r
    | none =>
      -- a new round
      serve (slow.map fun v => (v, Tab.getD held v 0 + 4096 * max 1 ((s.vf d.chip v).weight.toNat % 256)))

/-- The transactions whose data a die's staging memory holds; a switch's sums wait at the switch (R282, R303). -/
def State.staged (s : State) (d : DieId) : Nat :=
  (List.map (fun (p : Nat × Op) => match p.2.body with | .xfer x => if p.2.thread.cohort.toDie = d && !x.sum then x.parts.length else 0 | _ => 0) s.ops).foldl (· + ·) 0

/-- The Pump's next transaction begins, where fewer than 512 are in flight on its die (R13, R282, R302). -/
def State.nextTransaction (s : State) (d : DieId) (pick : Nat) : State :=
  if s.staged d ≥ 512 then s else
  match s.chooseVf d pick with
  | none => s.modDie d fun x => { x with deficit := [] }
  | some (v, ds) =>
    match s.pickOf d v pick with
    | none => s
    | some (q, id, e) =>
      let s := s.modDie d fun x => { x with deficit := ds, turn := x.turn.filter (· ≠ v) ++ [v], qturn := Tab.put x.qturn v q }
      match s.xfer? id with
      | some (o, x) => s.transact id o x e
      | none => s

/-- The next transaction of each transfer of a die that waits: walks for its pages, and its place at a holder (R147, R182). -/
def State.xferWalks (s : State) (d : DieId) : State :=
  s.ops.foldl (fun s p => match s.xfer? p.1 with
    | some (o, x) =>
      if o.thread.cohort.toDie ≠ d then s
      else if !s.xferMayRun p.1 o x || s.unmapped d.chip (s.cohort o.thread.cohort).vf then s.giveUp x.fork
      else match x.todo with
        | [] => s
        | e :: _ =>
          let (lo, n) := x.piece (e % 2 ^ 18)
          let (so, sn) := x.srcSpan lo n
          let (co, cn) := x.scaleSpan lo n
          let t := o.thread
          if s.xferReadWaits t x.fork (ptrAdd x.src so) sn then s.xferWait t x.fork (ptrAdd x.src so) sn false
          else if x.scaleIn && s.xferReadWaits t x.fork (ptrAdd x.scale co) cn then s.xferWait t x.fork (ptrAdd x.scale co) cn false
          else if x.scaleOut && s.xferWriteWaits t x.fork (ptrAdd x.scale co) cn then s.xferWait t x.fork (ptrAdd x.scale co) cn true
          else if !x.far t e && s.xferWriteWaits t x.fork (ptrAdd x.dst lo) n then s.xferWait t x.fork (ptrAdd x.dst lo) n true
          else s
    | none => s) s

/-- R302: transfers that may start do, and the Pump begins its next transaction or writes more of one under way. An error in its
staging memory ends that one's transfer; a flit that fails its check is dropped, counted and sent again (R288, R368, R411). -/
def execPumpTransaction (d : DieId) (turn : PumpTurn) (s : State) : Host.Outcome State Fault Refusal :=
  let s := (s.startXfers d).xferWalks d
  let parts := s.partsOn d
  let n := parts.length + 1
  .next (match parts[turn.pick % n]? with
    | none => s.nextTransaction d (turn.pick / n)
    | some (id, k) =>
      match s.xfer? id, turn.upset with
      | some (o, x), .staging =>
        let p := ptrAdd x.dst (x.piece (k.tran % 2 ^ 18)).1
        (s.logEvent d.chip 2 d.die (Config.arrayUnit d.die 10) (s.cohort o.thread.cohort).vf p.toNat).finishXfer id o
          { x with parts := x.parts.filter fun y => y.tran ≠ k.tran } (some (4, p)) false
      | some (o, x), .flit =>
        match s.holderAt x.dst with
        | some h => if (s.portFor d h).isSome then s.dropFlit d h else s.advancePart id o x k (turn.pick / n % 1024 + 1)
        | none => s.advancePart id o x k (turn.pick / n % 1024 + 1)
      | some (o, x), .corrected =>
        ((s.logEvent d.chip 1 d.die (Config.arrayUnit d.die 10) (s.cohort o.thread.cohort).vf 0).modDie d fun y => { y with corrected := y.corrected + 1 }).advancePart
          id o x k (turn.pick / n % 1024 + 1)
      | some (o, x), _ => s.advancePart id o x k (turn.pick / n % 1024 + 1)
      | none, _ => s)

/-! ## Completion (R284, R292) -/

/-- R292: every transaction is performed and every remote signal applied or dropped, or the guard discards the operation. -/
def execTransferComplete (op : Nat) (s : State) : Host.Outcome State Fault Refusal :=
  .next (match s.xfer? op with
    | none => s
    | some (o, x) =>
      if !s.resident o.thread.cohort then s
      else if s.guardShut o x then
        (if x.slotOf.isSome || (s.queuedBefore op o).all (fun y => y.2.begun) then s.finishXfer op o x none true else s)
      else if x.red.isSome || x.todo ≠ [] || x.parts ≠ [] || x.cut then s
      else if x.rides.any fun i => (s.xfer? i).any fun y => y.2.parts ≠ [] then s
      else if !x.signalled then
        -- a multicast every share of which was dropped at issue, or a firing whose add another carried
        let (k, s) := s.xferRemote op o x x.err.isSome
        s.setOp op { o with body := .xfer { x with started := some (x.started.getD s.now), signals := k, signalled := true } }
      else if x.signals ≠ 0 then s
      else s.finishXfer op o x none false)

/-- The cohort that a handle names (R283). -/
def handleCohort (h : DWord) : CohortId :=
  ⟨bitsOf h.toNat 63 52, bitsOf h.toNat 51 50, bitsOf h.toNat 49 44, bitsOf h.toNat 43 28⟩

/-- R284: a signal is applied at the register that its handle names, or dropped with its cause; it arrives after the releases and
signals that its package sent before it, while a path is up (R252, R304), and after the store that it follows (R325). -/
def execSignalAtTarget (msg : Nat) (s : State) : Host.Outcome State Fault Refusal :=
  .next (match s.msg? msg with
    | none => s
    | some g =>
      match g.body with
      | .signal h p dst k xfer =>
        let c := handleCohort h
        if s.fabricHeld msg p.1 (birthOf h) || !(g.after.all fun i => (s.op? i).isNone) || (s.pathDown p.1 (birthOf h)).isSome then s
        else
          let from' : DieId := ⟨p.1, ((s.op? xfer).map fun o => o.thread.cohort.die).getD 0⟩
          let s := { s with msgs := s.msgs.del msg }.crossLink from' ⟨birthOf h, (handleCohort h).die⟩ 1 1
          let stranger := isGlobal dst && dst ≠ 0 && !(s.obj? dst).any fun o => o.realm = s.realmOf c
          let cause := if !s.live c || (s.cohort c).killed.isSome then some 8 else if stranger then some 3 else none
          let s := match cause with
            | some _ => s
            | none => (s.modCohort c fun x => { x with nbs := x.nbs.modify (h.toNat % 16) fun r => r.arrive k }).settleDefer c.chip (s.cohort c).vf
          match s.xfer? xfer with
          | some (o, x) => s.setOp xfer { o with body := .xfer { x with signals := x.signals - 1, err := if x.err.isSome then x.err else cause } }
          | none => s
      | _ => s)

/-- The pointers at which transactions of a transfer still act, at both ends of what each reads and writes there. -/
def XferOp.reaches (x : XferOp) (l : List Nat) : List DWord :=
  l.flatMap fun e =>
    let (lo, n) := x.piece (e % 2 ^ 18)
    let (so, sn) := x.srcSpan lo n
    let (co, cn) := x.scaleSpan lo n
    let both := fun (p : DWord) (o n : Nat) => if n = 0 then [] else [ptrAdd p o, ptrAdd p (o + n - 1)]
    (if x.mc then [] else both x.dst lo n) ++ both x.src so sn ++ (if x.scaleIn || x.scaleOut then both x.scale co cn else [])

/-- Since when a transfer finds no path, and for which pointer: for a transaction's memory, for a reduction's switch, or for its
signals (R292, R303, R304). -/
def State.xferDown (s : State) (o : Op) (x : XferOp) : Option (Nat × DWord) :=
  let chip := o.thread.cohort.chip
  let down := fun (p : DWord) => ((s.holderAt p).bind (s.pathDown chip)).map fun n => (n, p)
  if x.todo ≠ [] || x.parts ≠ [] then
    ((x.reaches (x.todo ++ x.parts.map (·.tran))).findSome? down).orElse fun _ =>
      if x.red.isSome && (s.portDie ⟨chip, 0⟩).isNone then some ((s.chip chip).pathless.getD s.now, x.dst) else none
  else if x.signals ≠ 0 && !x.mc then x.handle.bind fun h => (s.pathDown chip (birthOf h)).map fun n => (n, x.dst)
  else none

/-- R292, R410: a transfer that has started, or a firing in a reduction slot, finds no path for 100 ms, for its transactions or for its
signals; what it has begun to write beyond the lost path is lost with it. -/
def execLinkTimeout (op : Nat) (s : State) : Host.Outcome State Fault Refusal :=
  .next (match s.xfer? op with
    | none => s
    | some (o, x) =>
      let mine : Nat × Msg → Bool := fun m => match m.2.body with | .signal _ _ _ _ i => i = op | _ => false
      match s.xferDown o x, (if x.red.isSome then some x.issued else x.started) with
      | some (since, p), some start =>
        if s.resident o.thread.cohort && max since start + ticksPerUs * 100000 ≤ s.now then
          let near := fun (k : XferPart) => (x.reaches [k.tran]).all fun p => !s.pathBlocked o.thread.cohort.chip p
          { s with msgs := List.filter (fun m => !mine m) s.msgs }.finishXfer op o { x with parts := x.parts.filter near } (some (9, p)) false
        else s
      | _, _ => s)

end Sys2Proof.Machine
end

