-- ==== Sys2Proof/Machine/Entries.lean ====
section
/-! DEFINITION. Work entries: PUMPPOST (R295 to R298), their firings (R299 to R301) and switch reduction slots (R303). -/

namespace Sys2Proof.Machine

/-! ## Entries (R295, R296) -/

/-- An entry's fields. -/
def Entry.ofBytes (bs : List Byte) : Entry :=
  let at' := fun off n => ofBytesLE ((bs.drop off).take n)
  { dst := BitVec.ofNat 64 (at' 0 8), src := BitVec.ofNat 64 (at' 8 8), scale := BitVec.ofNat 64 (at' 0x10 8), count := at' 0x18 4, ctrl := at' 0x1C 4
    handle := BitVec.ofNat 64 (at' 0x20 8), tphase := BitVec.ofNat 32 (at' 0x28 4), tstep := at' 0x2C 2, trig := at' 0x2E 1
    dstride := BitVec.ofNat 32 (at' 0x30 4), sstride := BitVec.ofNat 32 (at' 0x34 4), scstride := BitVec.ofNat 32 (at' 0x38 4)
    repeat' := at' 0x3C 4, rgroup := at' 0x40 4, rcount := at' 0x44 2 }

def Entry.op (e : Entry) : Nat := e.ctrl % 4
def Entry.sig (e : Entry) : Bool := e.ctrl / 8 % 2 = 1
def Entry.red (e : Entry) : Bool := e.ctrl / 16 % 2 = 1
def Entry.sfmt (e : Entry) : Nat := bitsOf e.ctrl 11 8
def Entry.dfmt (e : Entry) : Nat := bitsOf e.ctrl 15 12
def Entry.lsig (e : Entry) : Bool := e.ctrl / 2 ^ 17 % 2 = 1
def Entry.lnb (e : Entry) : Nat := bitsOf e.ctrl 21 18
def Entry.guarded (e : Entry) : Bool := e.ctrl / 2 ^ 22 % 2 = 1
def Entry.gslot (e : Entry) : Nat := bitsOf e.ctrl 28 23
def Entry.ten (e : Entry) : Bool := e.trig / 128 % 2 = 1

/-- The legal pairs of formats (R296). -/
def Entry.formatsOk (e : Entry) : Bool :=
  let s := e.sfmt
  let d := e.dfmt
  let same := s = d && s ≠ 6 && s ≠ 7
  match e.op with
  | 0 => same || (s = 0 && 1 ≤ d && d ≤ 3) || (d = 0 && 1 ≤ s && s ≤ 3)
  | 1 => same
  | 2 => (d = 0 && s ≤ 3) || (s = 12 && d = 12)
  | _ => false

/-- An entry as the transfer that a firing of it makes. -/
def Entry.transfer (e : Entry) : XferOp :=
  let code : XCode := match e.op with | 0 => .send | 1 => .fetch | _ => .add
  let len := if e.op ≠ 2 && e.sfmt = e.dfmt then rowLen e.sfmt e.count else e.count * (fmtBits e.dfmt / 8)
  { code := code, dst := e.dst, src := e.src, scale := e.scale, count := e.count, len := len, sfmt := e.sfmt, dfmt := e.dfmt, int := e.dfmt = 12 && e.op = 2
    sat := e.ctrl / 32 % 2 = 1, handle := if e.sig then some e.handle else none, nb := if e.lsig then some e.lnb else none
    nbBytes := if e.op = 1 then len else 0 }

/-- Whether an entry's fields keep R295 and R296, and its pointers the spaces, ranges and alignment of R287. DESIGN CHOICE (log 35): a
SCALE pointer is global, or, where the array is read, in the issuer's private memory or cistern. -/
def State.entryOk (s : State) (t : ThreadId) (e : Entry) : Bool :=
  let x := e.transfer
  let srcLen := rowLen e.sfmt e.count
  let scaled := x.scaleIn || x.scaleOut
  e.formatsOk && e.count ≠ 0 && srcLen ≤ 2 ^ 24 && e.tstep ≠ 0
    && (!scaled || (e.count % 128 = 0 && e.scale ≠ 0 && (isGlobal e.scale || (x.scaleIn && isLocal01 e.scale)) && offsetOf e.scale + e.count / 128 ≤ 2 ^ 30))
    && (!e.sig || (e.op ≠ 1 && bitsOf e.handle.toNat 27 4 = 0 && birthOf e.handle < 0xFFE))
    && (!e.red || (e.op = 2 && 2 ≤ e.rcount && e.rcount ≤ 256))
    && (!e.guarded || e.gslot < (s.cohort t.cohort).slots.length)
    && x.dstSpace && x.srcSpace && offsetOf e.dst + x.len ≤ 2 ^ 30 && offsetOf e.src + srcLen ≤ 2 ^ 30
    && (e.op ≠ 2 || (offsetOf e.dst % 4 = 0 && offsetOf e.src % 4 = 0))

/-! ## PUMPPOST (R297, R298) -/

/-- Entry slots that a partition holds on a die's Pump. -/
def State.slotsOf (s : State) (d : DieId) (p : Nat) : Nat := ((s.die d).slots.filter fun e => s.partOf e.2.thread.cohort = p).length
/-- Whether an entry slot is free for a partition: its reserve of 4, or what enabled partitions' reserves leave of the 128. -/
def State.slotFree (s : State) (d : DieId) (p : Nat) : Bool :=
  let enabled := ((List.range 12).filter fun q => (s.part d.chip q).enable).length
  decide (s.slotsOf d p < 4) || decide (((List.range 12).map fun q => s.slotsOf d q - 4).foldl (· + ·) 0 < 128 - 4 * enabled)

/-- A post's result lands; its own contribution is sent. -/
def State.landPost (s : State) (id : Nat) (o : Op) (nb : Option Nat) (dst v : Nat) : State :=
  let s := match nb with | some n => s.contribute id o n { member := true } | none => s
  let s := s.modDie o.thread.cohort.toDie fun d => { d with waiting := d.waiting.filter (· ≠ id) }
  (s.modThread o.thread fun x => x.setReg dst (BitVec.ofNat 32 v)).closeOp id

/-- The armed entry of a cohort at an address. -/
def State.armedAt (s : State) (c : CohortId) (p : DWord) : Option (Nat × EntrySlot) :=
  (s.die c.toDie).slots.find? fun e => e.2.thread.cohort = c && e.2.addr = p && !e.2.cancel

/-- .CANCEL: the entry retires, after any firing in progress. -/
def State.cancelPost (s : State) (id : Nat) (o : Op) (p : DWord) (nb : Option Nat) (dst : Nat) : State :=
  let c := o.thread.cohort
  match s.armedAt c p with
  | none => s.landPost id o nb dst (4 * 2 ^ 28)
  | some (k, e) =>
    let s := if e.firing.isNone then s.retireSlot c.toDie k 16
             else s.modDie c.toDie fun d => { d with slots := Tab.put d.slots k { e with cancel := true } }
    s.landPost id o nb dst (3 * 2 ^ 28)

/-- An entry takes the lowest free slot, armed, and its post lands. DESIGN CHOICE (log 65): which free slot it takes. -/
def State.armEntry (s : State) (id : Nat) (o : Op) (p : DWord) (nb : Option Nat) (dst : Nat) (e : Entry) : State :=
  let c := o.thread.cohort
  let k := ((List.range 128).find? fun i => (Tab.get? (s.die c.toDie).slots i).isNone).getD 0
  let x : EntrySlot := { entry := e, addr := p, thread := o.thread, pc := o.pc, word := o.word, iword := o.iword, fork := id, seq := o.seq, know := o.know, edges := o.edges
                         slot := if e.guarded then some (s.bindSlot c e.gslot) else none }
  let s := (s.modDie c.toDie fun d => { d with slots := Tab.put d.slots k x }).entryStatus x 1 [] []
  let s := match e.red, s.domainOf c.chip with
    | true, some d => { s with redSlots := s.redSlots.map fun j (r : RedSlot) => if j = (d, e.rgroup) then { r with members := r.members ++ [(c.toDie, k)] } else r }
    | _, _ => s
  s.landPost id o nb dst k

/-- The switch's answer to a request: a slot taken or joined, or NO_SLOT or PARAM (R303). -/
def State.reduceRequest (s : State) (chip : Nat) (e : Entry) : Except Nat State :=
  match s.domainOf chip with
  | none => .error 1
  | some d =>
    match s.redSlots.get? (d, e.rgroup) with
    | some r => if r.members.length ≥ r.rcount then .error 2 else .ok s
    | none =>
      let offered := ((s.pod.find? fun p => p.chip = chip).map (·.switch)).getD 0
      if (s.redSlots.filter fun r => r.1.1 = d).length < offered then .ok { s with redSlots := s.redSlots.put (d, e.rgroup) { rcount := e.rcount } }
      else .error 1

/-- A post whose entry has been read: its fields, its slot, and its reduction slot (R298, R303). -/
def State.placePost (s : State) (id : Nat) (o : Op) (p : DWord) (nb : Option Nat) (dst : Nat) (e : Entry) (reply : Bool) : State :=
  let c := o.thread.cohort
  let d := c.toDie
  let part := s.partOf c
  let ahead := ((s.die d).waiting.takeWhile (· ≠ id)).any fun i => (s.op? i).any fun q => s.partOf q.thread.cohort = part
  if !s.entryOk o.thread e then s.landPost id o nb dst (2 * 2 ^ 28)
  else if ahead || !s.slotFree d part then
    (s.setOp id { o with held := some (o.held.getD s.now) }).modDie d fun x => { x with waiting := if x.waiting.contains id then x.waiting else x.waiting ++ [id] }
  else if !e.red then s.armEntry id o p nb dst e
  else if !reply then s.setOp id { o with held := none }
  else
    match s.reduceRequest c.chip e with
    | .ok s => s.armEntry id o p nb dst e
    | .error 1 => (s.entryStatus { addr := p, thread := o.thread, pc := o.pc } 8 [] []).landPost id o nb dst (2 ^ 28)
    | .error _ => s.landPost id o nb dst (2 * 2 ^ 28)

/-- A post at the Pump: its guard, its cancel, the one read of its entry, from which on the Pump acts on its own copy, and its place
(R285, R298). -/
def State.servePost (s : State) (id : Nat) (reply : Bool) : State :=
  match s.op? id with
  | some o =>
    match o.body with
    | .post p cancel slot nb dst copy =>
      let t := o.thread
      let c := t.cohort
      if o.closing then s
      else match slot.map (s.slotOutcome c) with
      | some none => s
      | some (some false) =>
        let s := match nb with | some n => s.contribute id o n { member := true, flags := { err := true } } | none => s
        s.closeOp id
      | _ =>
        if !s.awake c || (s.vf c.chip (s.cohort c).vf).busy.isSome then s.giveUp id
        else if cancel then s.cancelPost id o p nb dst
        else
          match copy with
          | some e => s.placePost id o p nb dst e reply
          | none =>
            if s.engineWaits t id p 128 false then s.engineWait t id false p 128 false
            else
              let s := s.giveUp id
              match s.xferRead t p 128 with
              | .error cause => (s.foundBy t p 128).landPost id o nb dst (5 * 2 ^ 28 + 256 * cause)
              | .ok bs =>
                let e := Entry.ofBytes bs
                let o := { o with know := s.engineHeard t p 128 o.know, body := .post p cancel slot nb dst (some e) }
                ((s.engineCount t p 128).setOp id o).placePost id o p nb dst e reply
    | _ => s
  | none => s

/-- Either form of PUMPPOST: the pointer is checked, and the post goes to the die's Pump (R297). -/
def State.postWord (s : State) (i : Instr) (f : Fields) (cancel : Bool) : Host.Outcome State Fault Refusal :=
  s.runThreads i noHold fun _ b t s =>
    let d := f.dst.toNat
    orTrap ((s.thread t).src64 f.sa) fun p =>
    if offsetOf p % 128 ≠ 0 then .trap .memoryFault 0x10 p 0
    else if !isGlobal p && !(birthOf p = 0xFFF && serialOf p = 0) then .trap .memoryFault 0x12 p 0
    else if !s.localCheck t p 128 then .trap .memoryFault 3 p 0
    else
      let body := OpBody.post p cancel (if f.modG then some (s.bindSlot t.cohort f.modSlot) else none) (if f.modSig then some f.modNb else none) d none
      let (id, s) := s.addOp { s.newOp b t (some 4) body with dst := if d = 255 then [] else [d] }
      .done (s.servePost id false)

/-- R297. -/
def execPumppost (f : Fields) (s : State) := s.postWord (.pumppost f) f false
/-- R297. -/
def execPumppostCancel (f : Fields) (s : State) := s.postWord (.pumppostCancel f) f true

/-- R298, R303: a post goes on: its entry is read, a slot is free for it, or the switch answers its request for a reduction slot. -/
def execReductionSlotReply (op : Nat) (s : State) : Host.Outcome State Fault Refusal := .next (s.servePost op true)

/-! ## Firings (R299 to R301) -/

/-- Whether an armed entry's trigger lets it fire. -/
def State.triggered (s : State) (e : EntrySlot) : Bool :=
  if e.entry.ten then decide ((((s.cohort e.thread.cohort).nbs.getD (e.entry.trig % 16) {}).phase - e.entry.tphase : Word).toNat < 2 ^ 31)
  else e.fired = 0

/-- R299: an armed entry fires; its claims are made and its trigger's clock joins it. A firing with broken fields ends at once. -/
def execWorkEntryFire (d : DieId) (slot : Nat) (s : State) : Host.Outcome State Fault Refusal :=
  .next (match Tab.get? (s.die d).slots slot with
    | none => s
    | some e =>
      let t := e.thread
      let c := t.cohort
      if e.firing.isSome || e.cancel || !s.live c || (s.cohort c).killed.isSome || !s.awake c || (s.vf d.chip (s.cohort c).vf).ctx = .stopping
          || (s.vf d.chip (s.cohort c).vf).busy.isSome || !s.triggered e then s
      else
        let x := e.entry.transfer
        let bad := e.bad || !s.entryOk t e.entry
        let sh := if bad then [] else s.transferShares t x 0
        if s.sharesHeld t sh then s
        else
          let know := if e.entry.ten then join e.know (s.brought t ((s.cohort c).nbs.getD (e.entry.trig % 16) {}).lastKnow) else e.know
          let red := if e.entry.red then (s.domainOf d.chip).map fun n => (n, e.entry.rgroup) else none
          let s := s.claimShares t sh
          let x := { x with shares := sh, slot := e.slot, slotOf := some slot, red := red, issued := s.now, fork := e.fork, entryAt := e.addr }
          let (id, s) := s.addOp { thread := t, ctr := none, pc := e.pc, word := e.word, iword := e.iword, seq := e.seq, know := know, edges := e.edges
                                   body := .xfer { x with todo := x.transactions } }
          let s := s.modDie d fun y => { y with slots := Tab.put y.slots slot { e with firing := some id, know := know } }
          if bad then
            match s.xfer? id with
            | some (o, x) => s.finishXfer id o { x with started := some s.now } (some (1, x.dst)) false
            | none => s
          else match red with
            | some k => { s with redSlots := s.redSlots.map fun j (r : RedSlot) => if j = k then { r with ready := r.ready ++ [id], came := r.came ++ [(d, slot)] } else r }
            | none => s)

/-- R300: a firing has completed; the entry advances, and is armed again or retires. -/
def execWorkEntryRearm (d : DieId) (slot : Nat) (s : State) : Host.Outcome State Fault Refusal :=
  .next (match Tab.get? (s.die d).slots slot with
    | none => s
    | some e =>
      if !(e.firing.any fun i => (s.op? i).isNone) then s
      else
        let n := e.entry
        let move := fun (p : DWord) (k : Word) => ptrAdd p k.toInt
        let bad := !ptrFits n.dst n.dstride.toInt || !ptrFits n.src n.sstride.toInt || !ptrFits n.scale n.scstride.toInt
        let e := { e with firing := none, fired := e.fired + 1, bad := e.bad || bad
                          entry := { n with dst := move n.dst n.dstride, src := move n.src n.sstride, scale := move n.scale n.scstride
                                            tphase := n.tphase + BitVec.ofNat 32 n.tstep } }
        let s := s.modDie d fun y => { y with slots := Tab.put y.slots slot e }
        if n.repeat' ≠ 0 && e.fired = n.repeat' then s.retireSlot d slot (if e.cancel then 16 else 0)
        else if e.cancel then s.retireSlot d slot 16
        else s.entryStatus e 1 [] [])

/-! ## Reduction slots (R303) -/

/-- The values of a firing's source, or its fault. -/
def State.reduceSource (s : State) (t : ThreadId) (x : XferOp) : Except (Nat × DWord) (List Byte × List Byte) :=
  match s.xferRead t x.src (x.count * x.ssz) with
  | .error c => .error (c, x.src)
  | .ok bs =>
    match (if x.scaleIn then s.xferRead t x.scale (x.count / 128) else .ok []) with
    | .error c => .error (c, x.scale)
    | .ok ks => .ok (bs, ks)

/-- Element i of the sum of the participants' sources: exact, rounded once, or wrapped (R303). -/
def reduceElement (int : Bool) (srcs : List (List Val)) (i : Nat) : Nat :=
  let vs := srcs.map fun l => l.getD i (.fin false 0 0)
  if int then
    let sum : Int := (vs.map fun v => match v with | .fin n m e => scaled n m e.toNat | _ => 0).foldl (· + ·) 0
    (sum % 2 ^ 32).toNat
  else match vs with
    | [] => 0
    | v :: l => deliver 0 1 false (l.foldl (addVal 1) v) 0

/-- The round of firings in a reduction slot that ends with ERR: those that have come end, and the round is over once each participant
has fired in it that no reset has taken away (R303). -/
def State.endRound (s : State) (k : Nat × Nat) (r : RedSlot) : State :=
  let parts := r.ready.filterMap fun id => (s.xfer? id).map fun p => (id, p.1, p.2)
  let more := decide (r.came.length + r.lost < r.rcount)
  let s := { s with redSlots := s.redSlots.map fun j (r : RedSlot) =>
    if j = k then (if more then { r with ready := [] } else { r with ready := [], bad := false, came := [], lost := 0 }) else r }
  parts.foldl (fun s p => s.finishXfer p.1 p.2.1 { p.2.2 with red := none } none true) s

/-- R303: with every participant's contribution in, one add of the rounded sum goes to DST, which the first participant's transfer
carries, and each firing may complete after it; a round that a firing has spoiled ends with ERR. DESIGN CHOICE (log 35): where the
participants' entries differ in DST, COUNT or format, the add has those of the participant that contributed first. -/
def execReductionSlotSum (domain : Nat) (group : Nat) (s : State) : Host.Outcome State Fault Refusal :=
  .next (match s.redSlots.get? (domain, group) with
    | none => s
    | some r =>
      let parts := r.ready.filterMap fun id => (s.xfer? id).map fun p => (id, p.1, p.2)
      if r.bad then s.endRound (domain, group) r
      else
        let waits := parts.any fun p =>
          let x := p.2.2
          let t := p.2.1.thread
          !s.resident t.cohort || s.unmapped t.cohort.chip (s.cohort t.cohort).vf || !s.guardOpen p.2.1 x
            || s.xferReadWaits t x.fork x.src (x.count * x.ssz) || (x.scaleIn && s.xferReadWaits t x.fork x.scale (x.count / 128))
        match parts with
        | [] => s
        | (first, _, x) :: _ =>
          if parts.length < r.rcount then s
          else if waits then parts.foldl (fun s p =>
            let y := p.2.2
            let s := s.startWalks y.fork y.src (y.count * y.ssz)
            if y.scaleIn then s.startWalks y.fork y.scale (y.count / 128) else s) s
          else
            let reads := parts.map fun p => (p, s.reduceSource p.2.1.thread p.2.2)
            match reads.find? fun y => match y.2 with | .error _ => true | .ok _ => false with
            | some ((id, o', y), .error (c, p)) => s.xferFault id o' y c p (y.count * y.ssz)
            | _ =>
              let srcs := reads.map fun y => match y.2 with | .ok (bs, ks) => y.1.2.2.values 0 bs ks | .error _ => []
              let sum := fun (e : Nat) =>
                let (lo, n) := x.piece e
                (List.range (n / 4)).flatMap fun i => bytesLE 4 (reduceElement x.int srcs (lo / 4 + i))
              let all := parts.foldl (fun k p => s.engineHeard p.2.1.thread p.2.2.src (p.2.2.count * p.2.2.ssz) (join k p.2.1.know)) []
              let edges := parts.flatMap fun p => p.2.1.edges
              let s := parts.foldl (fun s p => s.engineCount p.2.1.thread p.2.2.src (p.2.2.count * p.2.2.ssz)) s
              let s := { s with redSlots := s.redSlots.map fun j (r : RedSlot) => if j = (domain, group) then { r with ready := [], came := [] } else r }
              parts.foldl (fun s p =>
                let y := { p.2.2 with started := some s.now, todo := [], red := none }
                let y := if p.1 = first then { y with sum := true, parts := x.blocks.map fun e => { tran := e, data := sum e } }
                         else { y with rides := some first, wrote := y.len }
                s.setOp p.1 { p.2.1 with know := join p.2.1.know all, edges := edges, body := .xfer y }) s)

end Sys2Proof.Machine
end

