-- ==== Sys2Proof/Machine/Float.lean ====
section
/-! DEFINITION. Floating-point, packed and conversion words (R115 to R123). -/

namespace Sys2Proof.Machine

/-- The rounding mode of a field: 0 is %rmode's (R86, R91, R95). -/
def Thread.modeOf (x : Thread) (c : Nat) : Nat := if c = 0 then x.rmode.toNat else c
/-- One generator step where the mode is RS: the new state, and the thread with it (R89). -/
def Thread.roll (x : Thread) (mode : Nat) : Nat × Thread :=
  if mode = 5 then ((xsNext x.srseed).toNat, { x with srseed := xsNext x.srseed }) else (0, x)

/-- A rounding FP32 word of two sources, its control in SC (R115, R116). -/
def State.fp2 (s : State) (i : Instr) (f : Fields) (g : Nat → Bool → Nat → Nat → Nat → Nat) : Host.Outcome State Fault Refusal :=
  s.runAlu i fun s b t x => (s.aF b t f).bind fun a => (x.bF f).map fun v =>
    let m := x.modeOf (f.ctl % 8)
    let (r, x) := x.roll m
    x.put32 f (BitVec.ofNat 32 (g m (f.ctl / 8 % 2 = 1) a.toNat v.toNat r))
/-- A rounding FP32 word of one source (R119). -/
def State.fp1 (s : State) (i : Instr) (f : Fields) (g : Nat → Bool → Nat → Nat → Nat) : Host.Outcome State Fault Refusal :=
  s.runAlu i fun s b t x => (s.aF b t f).map fun a =>
    let m := x.modeOf (f.ctl % 8)
    let (r, x) := x.roll m
    x.put32 f (BitVec.ofNat 32 (g m (f.ctl / 8 % 2 = 1) a.toNat r))
/-- FMIN and FMAX (R117). -/
def State.fpPick (s : State) (i : Instr) (f : Fields) (g : Nat → Nat → Nat) : Host.Outcome State Fault Refusal :=
  s.runAlu i fun s b t x => (s.aF b t f).bind fun a => (x.bF f).map fun v => x.put32 f (BitVec.ofNat 32 (g a.toNat v.toNat))

/-- R116. -/
def execFadd (f : Fields) (s : State) := s.fp2 (.fadd f) f (faddBits 0)
/-- R116. -/
def execFsub (f : Fields) (s : State) := s.fp2 (.fsub f) f (fsubBits 0)
/-- R116. -/
def execFmul (f : Fields) (s : State) := s.fp2 (.fmul f) f (fmulBits 0)
/-- R116: rounded once, in %rmode's mode. -/
def execFfma (f : Fields) (s : State) : Host.Outcome State Fault Refusal :=
  s.runAlu (.ffma f) fun s b t x => (s.aF b t f).bind fun a => (x.bF f).bind fun v => (x.cF f).map fun c =>
    let (r, y) := x.roll x.rmode.toNat
    y.put32 f (BitVec.ofNat 32 (ffmaBits 0 x.rmode.toNat false a.toNat v.toNat c.toNat r))
/-- R117. -/
def execFmin (f : Fields) (s : State) := s.fpPick (.fmin f) f (fminBits 0)
/-- R117. -/
def execFmax (f : Fields) (s : State) := s.fpPick (.fmax f) f (fmaxBits 0)
/-- R118. -/
def execFsetp (f : Fields) (s : State) : Host.Outcome State Fault Refusal :=
  s.runAlu (.fsetp f) fun s b t x => (s.aF b t f).bind fun a => (x.bF f).map fun v =>
    x.setPred f.dst.toNat (fcompare f.ctl a.toNat v.toNat)
/-- R119. -/
def execFrcp (f : Fields) (s : State) := s.fp1 (.frcp f) f frcpBits
/-- R119. -/
def execFrsq (f : Fields) (s : State) := s.fp1 (.frsq f) f frsqBits
/-- R119. -/
def execFexp2 (f : Fields) (s : State) := s.fp1 (.fexp2 f) f fexp2Bits
/-- R119. -/
def execFlog2 (f : Fields) (s : State) := s.fp1 (.flog2 f) f flog2Bits

/-! ## Packed 16-bit words (R120) -/

/-- The encoding of an integer from 0 to 15 in a floating format (R54). -/
def smallIn (fmt n : Nat) : Nat := roundFin fmt 2 false false n 0 0
/-- A packed source: an inline constant gives both elements its exact value (R120). -/
def packConst (fmt n : Nat) : Word := BitVec.ofNat 32 (smallIn fmt n * 65537)
def State.aPk (s : State) (b : Bundle) (t : ThreadId) (f : Fields) (fmt : Nat) : Option Word :=
  match srcOf f.sa with
  | .const n => some (packConst fmt n)
  | _ => s.a32 b t f
def Thread.bPk (x : Thread) (f : Fields) (fmt : Nat) : Option Word :=
  if f.form = 0 then
    match srcOf f.sb with
    | .const n => some (packConst fmt n)
    | _ => x.b32 f
  else x.b32 f
/-- B with its elements exchanged where xb holds. -/
def exchange (xb : Bool) (v : Word) : Word := if xb then v.rotateLeft 16 else v
/-- A packed word's format. -/
def pkFmt (f : Fields) : Nat := if f.ctl % 2 = 1 then 2 else 1
def el (v : Word) (i : Nat) : Nat := v.toNat / 2 ^ (16 * i) % 2 ^ 16
def pack2 (lo hi : Nat) : Word := BitVec.ofNat 32 (lo + 65536 * hi)

/-- A rounding packed word: element 0 takes its generator step first (R120). -/
def Thread.pk (x : Thread) (f : Fields) (a v d : Word) (g : Nat → Nat → Bool → Nat → Nat → Nat → Nat → Nat) : Thread :=
  let m := x.modeOf (f.ctl / 2 % 8)
  let sat := decide (f.ctl / 16 % 2 = 1)
  let v := exchange (f.ctl / 32 % 2 = 1) v
  let (r0, x) := x.roll m
  let (r1, x) := x.roll m
  x.put32 f (pack2 (g (pkFmt f) m sat (el a 0) (el v 0) (el d 0) r0) (g (pkFmt f) m sat (el a 1) (el v 1) (el d 1) r1))
def State.pk2 (s : State) (i : Instr) (f : Fields) (g : Nat → Nat → Bool → Nat → Nat → Nat → Nat) : Host.Outcome State Fault Refusal :=
  s.runAlu i fun s b t x => (s.aPk b t f (pkFmt f)).bind fun a => (x.bPk f (pkFmt f)).map fun v =>
    x.pk f a v 0 fun fmt m sat p q _ r => g fmt m sat p q r
def State.pkPick (s : State) (i : Instr) (f : Fields) (g : Nat → Nat → Nat → Nat) : Host.Outcome State Fault Refusal :=
  s.runAlu i fun s b t x => (s.aPk b t f (pkFmt f)).bind fun a => (x.bPk f (pkFmt f)).map fun v =>
    let v := exchange (f.ctl / 2 % 2 = 1) v
    x.put32 f (pack2 (g (pkFmt f) (el a 0) (el v 0)) (g (pkFmt f) (el a 1) (el v 1)))

/-- R120. -/
def execPkadd (f : Fields) (s : State) := s.pk2 (.pkadd f) f faddBits
/-- R120. -/
def execPkmul (f : Fields) (s : State) := s.pk2 (.pkmul f) f fmulBits
/-- R120, R98. -/
def execPkfma (f : Fields) (s : State) : Host.Outcome State Fault Refusal :=
  s.runAlu (.pkfma f) fun s b t x => (s.aPk b t f (pkFmt f)).bind fun a => (x.bPk f (pkFmt f)).bind fun v => (x.old32 f).map fun d =>
    x.pk f a v d ffmaBits
/-- R120. -/
def execPkmin (f : Fields) (s : State) := s.pkPick (.pkmin f) f fminBits
/-- R120. -/
def execPkmax (f : Fields) (s : State) := s.pkPick (.pkmax f) f fmaxBits

/-! ## Conversions (R121, R122) -/

/-- Source B of a conversion, at its format's width (R122). -/
def Thread.cvtSource (x : Thread) (f : Fields) (src : Nat) : Option Nat :=
  if src ≥ 14 then (x.b64 f).map (·.toNat)
  else if src = 0 then (x.bF f).map (·.toNat)
  else if src = 1 ∨ src = 2 then
    match srcOf f.sb with
    | .const n => if f.form = 0 then some (smallIn src n) else (x.b32 f).map (·.toNat)
    | _ => (x.b32 f).map (·.toNat)
  else (x.b32 f).map (·.toNat)

/-- A value of a destination format in its register: signed integers extend their sign (R73). -/
def placeIn (dst v : Nat) : Nat :=
  if isInt dst && isSigned dst then wrapN (sextN v (fmtBits dst)) 64 else v % 2 ^ fmtBits dst

/-- The conversion of a thread's source (R122). -/
def Thread.convert (x : Thread) (f : Fields) : Option Thread :=
  let src := bitsOf f.sa.toNat 7 4
  let dst := bitsOf f.sa.toNat 3 0
  let sat := f.sa.getLsbD 8
  (x.cvtSource f src).map fun v =>
    let put (x : Thread) (w : Nat) : Thread :=
      if dst ≥ 14 then x.put64 f (BitVec.ofNat 64 (placeIn dst w)) else x.put32 f (BitVec.ofNat 32 (placeIn dst w))
    if isInt src && isInt dst then put x (convertInt src dst sat v)
    else
      let m := x.modeOf (f.ctl % 8)
      let (r, x) := x.roll m
      put x (convertVal dst m sat (valOf src v) r)

/-- R121, R122. -/
def execCvt (f : Fields) (s : State) : Host.Outcome State Fault Refusal := s.runAlu (.cvt f) fun _ _ _ x => x.convert f
/-- R121, R122. -/
def execCvt64 (f : Fields) (s : State) : Host.Outcome State Fault Refusal := s.runAlu (.cvt64 f) fun _ _ _ x => x.convert f

/-- The format of TPACK and TUNPACK, by its code (R123). -/
def packFmt (c : Nat) : Nat := match c % 4 with | 0 => 4 | 1 => 5 | _ => 3

/-- R123. -/
def execTpack (f : Fields) (s : State) : Host.Outcome State Fault Refusal :=
  s.runAlu (.tpack f) fun s b t x => (s.aF b t f).bind fun a => (x.b32 f).map fun v =>
    let fmt := packFmt f.ctl
    let n := fmtBits fmt
    let at' := n * (f.ctl / 4 % 8)
    let m := x.modeOf (f.ctl / 32 % 8)
    let (r, x) := x.roll m
    let e := convertVal fmt m (decide (f.ctl / 256 % 2 = 1)) (valOf 0 a.toNat) r
    let w := v.toNat % 2 ^ at' + e * 2 ^ at' + v.toNat / 2 ^ (at' + n) * 2 ^ (at' + n)
    x.put32 f (BitVec.ofNat 32 (if fmt = 5 then w % 2 ^ 30 else w))
/-- R123. -/
def execTunpack (f : Fields) (s : State) : Host.Outcome State Fault Refusal :=
  s.runAlu (.tunpack f) fun s b t x => (s.a32 b t f).map fun a =>
    let fmt := packFmt f.ctl
    let n := fmtBits fmt
    x.put32 f (BitVec.ofNat 32 (convertVal 0 1 false (valOf fmt (a.toNat / 2 ^ (n * (f.ctl / 4 % 8)))) 0))

end Sys2Proof.Machine
end

