-- ==== Sys2Proof/Machine/Windows.lean ====
section
/-! DEFINITION. Re-keyed windows and key queries (R255, R371 to R379): WINOPEN, WINREL, WINACQ, WINCLOSE, KEYQ, and the end of
a window's scrub. -/

namespace Sys2Proof.Machine

/-! ## Issue (R376, R377, R379) -/

/-- A window or key word: the executing thread parks at it until its operation has landed. -/
def State.issueWindow (s : State) (b : Bundle) (t : ThreadId) (w : WinOp) : Res :=
  let (id, s) := s.addOp (s.newOp b t none (.win w))
  .park s (.operation id) true

/-- R377. -/
def execWinopen (f : Fields) (s : State) : Host.Outcome State Fault Refusal :=
  s.runThreads (.winopen f) noHold fun _ b t s =>
    orTrap ((s.thread t).src32 f.sa) fun n =>
    if n.toNat > 255 then .trap .illegalOperand 0 0 0
    else s.issueWindow b t { code := .winOpen, w := n.toNat, wr := f.ctl % 2 = 1, dst := f.dst.toNat }

/-- A window word that names its window by a pointer. -/
def State.windowWord (s : State) (i : Instr) (f : Fields) (code : WinCode) : Host.Outcome State Fault Refusal :=
  s.runThreads i noHold fun _ b t s =>
    orTrap ((s.thread t).src64 f.sa) fun p => s.issueWindow b t { code := code, ptr := p, dst := f.dst.toNat }

/-- R378. -/
def execWinrel (f : Fields) (s : State) := s.windowWord (.winrel f) f .winRel
/-- R378. -/
def execWinacq (f : Fields) (s : State) := s.windowWord (.winacq f) f .winAcq
/-- R378. -/
def execWinclose (f : Fields) (s : State) := s.windowWord (.winclose f) f .winClose
/-- R379. -/
def execKeyqWepoch (f : Fields) (s : State) := s.windowWord (.keyqWepoch f) f .wepoch

/-- R379. -/
def execKeyqEpoch (f : Fields) (s : State) : Host.Outcome State Fault Refusal :=
  s.runThreads (.keyqEpoch f) noHold fun _ b t s => s.issueWindow b t { code := .epoch, dst := f.dst.toNat }

/-- The precise fault of a report's region (R379). -/
def State.reportCheck (s : State) (t : ThreadId) (p : DWord) : Option Nat :=
  if !isGlobal p && !(birthOf p = 0xFFF && serialOf p = 0) then some 0x12
  else if offsetOf p % 64 ≠ 0 then some 0x10
  else if isGlobal p then
    match s.obj? p with
    | some o => if o.realm = s.realmOf t.cohort && offsetOf p + 8192 > o.size then some 0x11 else none
    | none => none
  else if offsetOf p + 8192 > (s.launchOf t.cohort).priv' then some 0x11
  else none

/-- R379. -/
def execKeyqReport (f : Fields) (s : State) : Host.Outcome State Fault Refusal :=
  s.runThreads (.keyqReport f) noHold fun _ b t s =>
    orTrap ((s.thread t).src64 f.sa) fun p =>
    match s.reportCheck t p with
    | some c => .trap .memoryFault c p 0
    | none => s.issueWindow b t { code := .report, ptr := p, dst := f.dst.toNat }

/-! ## The end of a word (R376) -/

/-- The operation's result is written, and its thread goes on with its clause. -/
def State.landWin (s : State) (id : Nat) (o : Op) (w : WinOp) (wide : Bool) (v : Nat) : State :=
  (s.modThread o.thread fun x =>
    let x := if wide then x.setPair w.dst (BitVec.ofNat 64 v) else x.setReg w.dst (BitVec.ofNat 32 v)
    if x.run = .parked (.operation id) then { x with run := .ready, readySince := s.now } else x).endOp id

/-! ## Attachments and images (R374, R375) -/

/-- Whether an operation concerns the window of a pointer. -/
def Op.inWindow (o : Op) (chip serial : Nat) : Bool :=
  let at' := fun (p : DWord) => birthOf p = chip && serialOf p = serial
  match o.body with
  | .access a => at' a.ptr
  | .copy c => at' c.dst || at' c.src
  | .cfill l | .cevict l => at' l.ptr
  | .win w => (w.code = .winRel || w.code = .winAcq || w.code = .winClose || w.code = .wepoch) && at' w.ptr
  | _ => false

/-- One attachment of a function of a realm more, or one less: a plain one while the realm holds one (R377, R378). -/
def Side.attach (x : Side) (vf : Nat) (wr : Bool) : Side :=
  let n := Tab.getD x.owners vf (0, 0)
  if wr then { x with write := x.write + 1, owners := Tab.put x.owners vf (n.1, n.2 + 1) }
  else { x with plain := x.plain + 1, owners := Tab.put x.owners vf (n.1 + 1, n.2) }
def Side.detach (x : Side) (vf : Nat) : Side :=
  let wr := decide (x.plain = 0)
  let has := fun (n : Nat × Nat) => if wr then n.2 ≠ 0 else n.1 ≠ 0
  let k := if has (Tab.getD x.owners vf (0, 0)) then vf else ((x.owners.find? fun e => has e.2).map (·.1)).getD vf
  let n := Tab.getD x.owners k (0, 0)
  { x with plain := x.plain - (if wr then 0 else 1), write := x.write - (if wr then 1 else 0)
           owners := Tab.put x.owners k (if wr then (n.1, n.2 - 1) else (n.1 - 1, n.2)) }

/-- A window without attachments and without an operation in flight is scrubbed (R374). -/
def State.closeWindow (s : State) (chip w : Nat) : State :=
  let g := s.grant chip w
  if g.state = .opened && g.a.plain + g.a.write + g.b.plain + g.b.write = 0 && !s.ops.any (fun o => o.2.inWindow chip g.serial) then
    s.setGrant chip w { g with state := .scrubbing }
  else s

/-- The 64-byte lines of a range of memory that hold something: a byte listed, or a line that DRAM holds. -/
def State.heldLines (s : State) (a n : Nat) : List Nat :=
  let mine := fun (l : Nat) => decide (a ≤ l * 64) && decide (l * 64 < a + n)
  let dram := List.flatMap (fun (d : DieId × Die) => if d.2.lines = [] then [] else d.2.lines.filterMap fun l => (s.lineAddr d.1 l.1).map (· / 64)) s.dies
  ((List.map (fun (c : Host.Cell) => c.1 / 64) s.mem ++ dram).filter mine).eraseDups

/-- The bytes of a range of memory moved to another place, through the L2, which holds the lines dirty from then on; the marks of
failed lines go with them (R361, R363; log 62). -/
def State.copyImage (s : State) (src dst n : Nat) : State :=
  let s := if s.dies.all fun d => d.2.lines = [] && d.2.counters = [] then s else s.found src n
  let cells := List.filter (fun (c : Host.Cell) => src ≤ c.1 && c.1 < src + n) s.mem
  let failed := List.filter (fun (l : Nat) => src ≤ l * 64 && l * 64 < src + n) s.failed
  let lines := ((s.heldLines src n).map (fun l => l - src / 64 + dst / 64) ++ s.heldLines dst n).eraseDups
  let s := s.wipe dst n
  let s := { s with mem := cells.foldl (fun m c => Memory.write m (c.1 - src + dst) c.2) s.mem
                    failed := failed.map (fun l => l - src / 64 + dst / 64) ++ s.failed }
  lines.foldl (fun s l => s.l2Use (l * 64) 64 true) s

/-- Under which owner a window's frames stand (State.keyOwner). -/
def windowOwner (w : Nat) : Nat := 1024 + w
/-- A partition number that no partition has, whose colour mask is zero: window images take any colour (R374). -/
def anyColour : Nat := 12

/-- WINOPEN as it is performed (R374, R377). -/
def State.winOpen (s : State) (id : Nat) (o : Op) (w : WinOp) : State :=
  let t := o.thread
  let chip := t.cohort.chip
  let vf := (s.cohort t.cohort).vf
  let realm := s.realmOf t.cohort
  let g := s.grant chip w.w
  let first := decide (realm = g.realmA)
  if g.state = .scrubbing then s
  else if !g.valid then s.landWin id o w true (failWide 1)
  else if !first && realm ≠ g.realmB then s.landWin id o w true (failWide 2)
  else if w.wr && !(if first then g.ctl.getLsbD 30 else g.ctl.getLsbD 29) then s.landWin id o w true (failWide 3)
  else
    let attach := fun (s : State) (g : Grant) =>
      let g := if first then { g with a := g.a.attach vf w.wr } else { g with b := g.b.attach vf w.wr }
      (s.setGrant chip w.w g).landWin id o w true (mkPtr chip g.serial 0).toNat
    match g.state with
    | .opened => attach s g
    | .scrubbing => s
    | .idle =>
      match s.allocFrames t.cohort.toDie anyColour (windowOwner w.w) (3 * (g.ctl.toNat % 8192)) with
      | none => s.landWin id o w true (failWide 4)
      | some (fs, s') =>
        match s'.takeSerial chip with
        | none => s.landWin id o w true (failWide 4)
        | some (n, s') =>
          attach { s' with draws := s'.draws + 1 }
            { g with state := .opened, serial := n, version := 0, key := s'.draws + 1, die := t.cohort.die, frames := fs, a := {}, b := {} }

/-- The window that a pointer names for a thread, and its image; or the status of a failure (R378). -/
def State.windowOf (s : State) (t : ThreadId) (p : DWord) : Except Nat (Nat × Nat) :=
  match s.window? p with
  | none => .error 1
  | some w =>
    if (s.grant (birthOf p) w).state ≠ .opened then .error 1
    else if birthOf p ≠ t.cohort.chip then .error 2
    else match (s.grant (birthOf p) w).imageOf (s.realmOf t.cohort) with
      | none => .error 2
      | some img => .ok (w, img)

/-- Whether a write is one of a copy of the thread whose end it has not observed (R253). -/
def State.unjoined (s : State) (t : ThreadId) (n : Nat) : Bool :=
  (s.op? n).any (fun o => o.thread = t && match o.body with | .copy _ | .kick _ => true | _ => false)
  || (s.thread t).joins.any fun j => j.know.contains n

/-- Some bytes of one line of a view are published: a failed line of the view makes the line fail, and a failed published line
takes a whole line only (R367; log 62). -/
def State.publish (s : State) (src dst : Nat) (offs : List Nat) : State :=
  let s := s.found src 64
  if s.readFails src 64 then { s with failed := dst / 64 :: s.failed.filter (· ≠ dst / 64) }
  else if s.lineFails (dst / 64) && offs.length < 64 then s.found dst 64
  else
    { s with mem := offs.foldl (fun m i => Memory.write m (dst + i) (Memory.read s.mem (src + i))) s.mem
             failed := s.failed.filter (· ≠ dst / 64) }.l2Use dst 64 true

/-- WINREL (R255, R375): every unpublished byte whose write happens before it is published, and of the chunks of unjoined copies
those that Config.publishes names (R423). -/
def State.winRel (s : State) (id : Nat) (o : Op) (w img : Nat) : Nat × State :=
  let t := o.thread
  let chip := t.cohort.chip
  let g := s.grant chip w
  let x := g.side img
  let c := s.viewClock t id o.know (windowAt chip w img 0) g.size
  let covers := fun (m : Nat × Nat) => c.contains m.2 || (s.unjoined t m.2 && Config.publishes id m.2 (m.1 / 128))
  let out := (x.marks.filter covers).map (·.1)
  let s := (out.map (· / 64)).eraseDups.foldl (fun s l =>
    s.publish (windowAt chip w img (64 * l)) (windowAt chip w 0 (64 * l)) ((out.filter (· / 64 = l)).map (· % 64))) s
  let g := (s.grant chip w).setSide img { x with marks := x.marks.filter fun m => !covers m }
  (g.version + 1, s.setGrant chip w { g with version := g.version + 1 })

/-! ## Attestation (R372) -/

/-- A package's device public key (R371). -/
def publicKey (chip : Nat) : List Byte := (List.range 2592).map (Config.devicePublicKey chip)

/-- The first 512 bytes of a report. -/
def State.reportHead (s : State) (t : ThreadId) (nonce : List Byte) : List Byte :=
  let chip := t.cohort.chip
  let (_, vf) := s.ctxOf t.cohort
  let v := s.vf chip vf
  let h := s.chip chip
  let masks := (s.part chip v.part).cmask
  nonce ++ bytesLE 4 1 ++ bytesLE 4 chip ++ Crypt.sha3_512 (publicKey chip)
    ++ Crypt.sha3_512 (Config.rom chip) ++ (if h.fw = 0 then bytesLE 64 0 else Crypt.sha3_512 (Config.patchImage chip h.fw))
    ++ bytesLE 4 v.realm.toNat ++ bytesLE 2 vf ++ bytesLE 1 v.part
    ++ bytesLE 1 ((if (s.part chip v.part).express then 1 else 0) + (if (List.range 4).all fun d => masks.getD d 0 ≠ 0 then 2 else 0))
    ++ bytesLE 4 v.keyEpoch.toNat ++ timeBytes (s.ns chip) ++ bytesLE 220 0

/-- A report's 8,192 bytes. -/
def State.report (s : State) (t : ThreadId) (nonce : List Byte) : List Byte :=
  let head := s.reportHead t nonce
  head ++ (List.range 4627).map (Config.signature t.cohort.chip (Crypt.sha3_512 head)) ++ bytesLE 3053 0

/-- KEYQ.REPORT (R379): the nonce is read and the report written; a fault found there is deferred, and the result pair keeps
its value. -/
def State.keyReport (s : State) (id : Nat) (o : Op) (w : WinOp) : State :=
  let t := o.thread
  let failed := fun (s : State) (cause : Nat) =>
    let s := s.addDeferred t { op := id, ctr := 6, kind := .deferredMemory, dst := if w.dst = 255 then [] else [w.dst, w.dst + 1]
                               record := deferredRec .deferredMemory o cause w.ptr 0 }
    (s.modThread t fun x => if x.run = .parked (.operation id) then { x with run := .ready, readySince := s.now } else x).endOp id
  if s.engineWaits t id w.ptr 8192 true then s.engineWait t id false w.ptr 8192 true
  else if isGlobal w.ptr && (s.obj? w.ptr).isNone && (s.window? w.ptr).isSome then failed s 3
  else
    let s := s.giveUp id
    match s.engineRead t w.ptr 64 with
    | .error c => failed (s.foundBy t w.ptr 64) c
    | .ok nonce =>
      match s.engineWrite t w.ptr (s.report t nonce) id o.allEdges with
      | .error c => failed (s.foundBy t w.ptr 8192) c
      | .ok s => (s.engineCount t w.ptr 8192 true).landWin id o w true 0

/-! ## Performance (R374 to R379) -/

/-- Whether an earlier access of the thread to the window is not complete (R376); a copy's chunks are no accesses of the
thread (R253, R423). -/
def State.windowBusy (s : State) (id : Nat) (o : Op) (chip serial : Nat) : Bool :=
  s.ops.any fun q => q.2.thread = o.thread && q.1 < id && q.2.isAccess && q.2.inWindow chip serial

/-- A window or key operation is performed, and its result lands. -/
def State.landWindow (s : State) (id : Nat) (o : Op) (w : WinOp) : State :=
  let t := o.thread
  let chip := t.cohort.chip
  match w.code with
  | .winOpen => if s.windowBusy id o chip (s.grant chip w.w).serial then s else s.winOpen id o w
  | .epoch =>
    let v := s.vf chip (s.cohort t.cohort).vf
    s.landWin id o w true (2 ^ 32 * v.realm.toNat + v.keyEpoch.toNat)
  | .report => s.keyReport id o w
  | .wepoch =>
    if s.windowBusy id o (birthOf w.ptr) (serialOf w.ptr) then s
    else match s.windowOf t w.ptr with
    | .error e => s.landWin id o w true (failWide e)
    | .ok (g, _) => s.landWin id o w true ((s.grant chip g).version % 2 ^ 32)
  | .winRel =>
    if s.windowBusy id o (birthOf w.ptr) (serialOf w.ptr) then s
    else match s.windowOf t w.ptr with
      | .error e => s.landWin id o w false (statusWord e 0)
      | .ok (g, img) =>
        let (n, s) := s.winRel id o g img
        s.landWin id o w false (n % 2 ^ 28)
  | .winAcq =>
    if s.windowBusy id o (birthOf w.ptr) (serialOf w.ptr) then s
    else match s.windowOf t w.ptr with
      | .error e => s.landWin id o w false (statusWord e 0)
      | .ok (g, img) =>
        let x := s.grant chip g
        if (x.side img).marks ≠ [] then s.landWin id o w false (statusWord 5 0)
        else (s.copyImage (windowAt chip g 0 0) (windowAt chip g img 0) x.size).landWin id o w false (x.version % 2 ^ 28)
  | .winClose =>
    let mine := s.ops.any fun q => q.1 < id && s.realmOf q.2.thread.cohort = s.realmOf t.cohort && q.2.thread.cohort.chip = chip
      && q.2.inWindow (birthOf w.ptr) (serialOf w.ptr)
    if mine then s
    else match s.windowOf t w.ptr with
      | .error e => s.landWin id o w false (statusWord e 0)
      | .ok (g, img) =>
        let x := s.grant chip g
        let s := s.setGrant chip g (x.setSide img ((x.side img).detach (s.cohort t.cohort).vf))
        (s.landWin id o w false 0).closeWindow chip g

/-- R374: a window that nothing holds any more begins its scrub; a scrub ends with the images zero, the frames free, the
key destroyed with its counter tree and the serial cleared. -/
def execWindowScrubComplete (chip : Nat) (grant : Nat) (s : State) : Host.Outcome State Fault Refusal :=
  let g := s.grant chip grant
  .next (match g.state with
    | .idle => s
    | .opened => s.closeWindow chip grant
    | .scrubbing =>
      let s := (List.range 3).foldl (fun s i => s.wipe (windowAt chip grant i 0) g.size) s
      (s.dropTree chip (windowOwner grant) |>.freeFrames ⟨chip, g.die⟩ g.frames).setGrant chip grant
        { ctl := g.ctl, realmA := g.realmA, realmB := g.realmB })

end Sys2Proof.Machine
end

