-- ==== Sys2Proof/Machine/Kill.lean ====
section
/-! DEFINITION. Kill and reset of a virtual function (R305, R401, R402). -/

namespace Sys2Proof.Machine

/-! ## Kill (R401) -/

/-- The completion record of a launch that is discarded: KILLED, where its record names a place for it. -/
def State.discardLaunch (s : State) (chip vf : Nat) (bs : List Byte) : State :=
  let x := Launch.ofBytes bs
  let crec := if birthOf x.crec = 0xFFF || offsetOf x.crec % 64 ≠ 0 then 0 else x.crec
  let doneh := if bitsOf x.doneh.toNat 27 4 ≠ 0 then 0 else x.doneh
  s.complete chip { vf := vf, part := (s.vf chip vf).part, launch := { x with crec := crec, doneh := doneh }, accepted := s.ns chip } 3 0

/-- A packet of the ring that is discarded unread. -/
def State.discardPacket (s : State) (chip vf : Nat) (n : Word) : State :=
  let v := s.vf chip vf
  let p := ptrAdd v.srbase (256 * (n.toNat % ringSlots v.srcfg 4 16))
  (match s.objectRead chip vf p 256 with
   | .error _ => s
   | .ok bs => if ofBytesLE (bs.take 4) ≠ 1 then s else s.discardLaunch chip vf (bs.drop 0x80)).objectUse chip vf p 256

/-- Step 1: the ring's packets are discarded, each with its completion record. -/
def State.discardRing (s : State) (chip vf : Nat) : State :=
  let v := s.vf chip vf
  let n := min (v.srprod - v.srcons).toNat (ringSlots v.srcfg 4 16)
  ((List.range n).foldl (fun s i => s.discardPacket chip vf (v.srcons + BitVec.ofNat 32 i)) s).modVf chip vf fun v => { v with srcons := v.srprod }

/-- Step 1: the LAUNCHQs of the function that hold a launch-queue entry are discarded, each with its completion record (R328). -/
def State.discardQueued (s : State) (chip vf : Nat) : State :=
  (s.opsIn chip vf).foldl (fun s o => match o.2.body with
    | .launchq p _ true =>
      match s.launchRecord o.2.thread p with
      | .error _ => s
      | .ok bs => s.discardLaunch chip vf bs
    | _ => s) s

/-- Moves that a function's words or its policy started and that have not begun are dropped, those of a group only together: their
migration entries are free (R192, R194, R391, R401). -/
def State.discardMoves (s : State) (chip vf : Nat) : State := s.dropMoves fun m => m.who = (chip, vf) && !m.going

/-- Step 2: a saved context is discarded: its recorded operations hold no claims, and its cohorts no tiles. -/
def State.discardSave (s : State) (chip vf : Nat) : State :=
  if (s.vf chip vf).ctx ≠ .saved then s
  else
    let mine := (s.cohortsIn chip vf).map (·.1)
    let free := fun (l : List Share) => l.map fun (x : Share) => { x with claims := [] }
    let s := { s with ops := s.ops.map fun _ (o : Op) =>
      if mine.contains o.thread.cohort then
        match o.body with
        | .copy c => { o with body := .copy { c with shares := free c.shares } }
        | .xfer x => { o with body := .xfer { x with shares := free x.shares } }
        | .cfill l => { o with body := .cfill { l with left := [] } }
        | _ => o
      else o }
    let s := mine.foldl (fun s c => s.modCohort c fun x => { x with tiles := [] }) s
    { s with saves := Tab.del s.saves (chip, vf) }

/-- The function's landing rings: those of its partition on core shares whose banks its realm last used. -/
def State.disableRings (s : State) (chip vf : Nat) : State :=
  let v := s.vf chip vf
  let cores := List.filter (fun (c : CoreId × Core) => c.1.chip = chip && Tab.get? c.2.realms v.part = some v.realm) s.cores
  cores.foldl (fun s c => c.2.rings.foldl (fun s r =>
    if r.1.1 = v.part && r.2.enabled then s.disableRing c.1 v.part r.1.2 (r.2.cfg &&& ~~~(1#64 <<< 63)) else s) s) s

/-- The attachments of a function to the windows of its package, released as if by WINCLOSE (R378). -/
def State.detachAll (s : State) (chip vf : Nat) : State :=
  let cut := fun (x : Side) =>
    let n := Tab.getD x.owners vf (0, 0)
    { x with plain := x.plain - n.1, write := x.write - n.2, owners := Tab.del x.owners vf }
  (s.chip chip).grants.foldl (fun s g => (s.setGrant chip g.1 { s.grant chip g.1 with a := cut (s.grant chip g.1).a, b := cut (s.grant chip g.1).b }).closeWindow chip g.1) s

/-- The one report of a context that a kill removes; no rule says which of its cohorts it names, or what record it holds. -/
def State.reportKill (s : State) (chip vf : Nat) (cs : List (CohortId × Cohort)) : State :=
  match cs[Config.killPick s.draws 4 % cs.length]? with
  | none => s
  | some (c, x) =>
    let f := fun i => BitVec.ofNat 64 (Config.killPick s.draws i)
    ({ s with draws := s.draws + 1 }).reportFault chip vf { f0 := f 0, f1 := f 1, f2 := f 2, f3 := f 3 } 6 c.grid x.index 0xFFFFFFFF

/-- The grids of a function that have not ended. -/
def State.gridsOf (s : State) (chip vf : Nat) : List Nat :=
  (List.filter (fun (g : (Nat × Nat) × Grid) => g.1.1 = chip && g.2.vf = vf && g.2.state ≠ .ended) s.grids).map (·.1.2)

/-- A kill, up to its last step (R401). -/
def State.kill (s : State) (chip vf : Nat) : State :=
  let cs := s.cohortsIn chip vf
  let s := (s.modVf chip vf fun v => { v with busy := some s.now }).discardRing chip vf
  let s := ((s.discardQueued chip vf).discardMoves chip vf).discardSave chip vf
  let s := cs.foldl (fun s x => if x.2.killed.isSome then s else s.cutCohort x.1 6) s
  let slots := (List.range 4).flatMap fun d => ((s.die ⟨chip, d⟩).slots.filter fun e => (s.cohort e.2.thread.cohort).vf = vf).map fun e => ((⟨chip, d⟩ : DieId), e.1)
  let s := slots.foldl (fun s e => s.retireSlot e.1 e.2 16) s
  let s := (s.disableRings chip vf).detachAll chip vf
  let s := s.reportKill chip vf cs
  (s.gridsOf chip vf).foldl (fun s n =>
    let g := s.grid chip n
    if g.kill then s else (s.complete chip g 3 0).setGrid chip n { g with kill := true }) s

/-- R401: ignored while a kill or reset is in progress. -/
def execVfctlKill (chip : Nat) (vf : Nat) (s : State) : Host.Outcome State Fault Refusal :=
  .next (if (s.vf chip vf).busy.isSome then s else s.kill chip vf)

/-- The rounds of the reduction slots in which a function takes part end with ERR (R303). -/
def State.spoilRounds (s : State) (chip vf : Nat) : State :=
  let mine := fun (m : DieId × Nat) => m.1.chip = chip
    && (Tab.get? (s.die m.1).slots m.2).any fun e => (s.cohort e.thread.cohort).vf = vf
  { s with redSlots := s.redSlots.map fun _ (r : RedSlot) => r.lose mine }

/-- R402: a kill, and the rest before BUSY clears. -/
def execVfctlReset (chip : Nat) (vf : Nat) (s : State) : Host.Outcome State Fault Refusal :=
  .next (if (s.vf chip vf).busy.isSome then s
    else ((s.spoilRounds chip vf).kill chip vf).modVf chip vf fun v => { v with resetting := true })

/-! ## The last step (R401, R402) -/

/-- A move that is given up: its reserved frames are free. -/
def State.cancelMove (s : State) (m : Nat × Move) : State :=
  { s with moves := Tab.del s.moves m.1 }.freeFrames ⟨m.2.dest, m.2.die⟩ m.2.frames

/-- Every object whose record names the function as owner is freed, with its stubs (R196, R402). -/
def State.freeOwned (s : State) (chip vf : Nat) : State :=
  let mine := (List.filter (fun (o : (Nat × Nat) × Obj) => o.2.chip = chip && o.2.vf = vf) s.objects).map (·.1)
  let s := (List.filter (fun (m : Nat × Move) => mine.contains m.2.obj) s.moves).foldl State.cancelMove s
  mine.foldl State.freeObject s

/-- What a reset leaves of a function's registers: those of R186, R302, R321, R334 and R383 at their reset values, ENABLE and
KEYED clear, the rest of R359 as it was. -/
def Vf.reset (v : Vf) : Vf :=
  { part := v.part, lport := v.lport, realm := v.realm, keyEpoch := v.keyEpoch, majorMax := v.majorMax, hostWin := v.hostWin, decayAt := v.decayAt }

/-- A reset's own part (R402): objects, frames, key and registers. -/
def State.resetVf (s : State) (chip vf : Nat) : State :=
  let s := s.freeOwned chip vf
  let s := (List.range 4).foldl (fun s d => s.freeFrames ⟨chip, d⟩ (((s.die ⟨chip, d⟩).frames.filter fun f => f.2 = vf).map (·.1))) s
  (s.dropTree chip vf).modVf chip vf Vf.reset

/-- R401 step 5, R402: with nothing in flight, or after 100 µs, the function's resources are reclaimed and BUSY clears. -/
def execKillReclaim (chip : Nat) (vf : Nat) (s : State) : Host.Outcome State Fault Refusal :=
  let v := s.vf chip vf
  .next (match v.busy with
    | none => s
    | some since =>
      if s.opsIn chip vf ≠ [] && s.now < since + 100 * ticksPerUs then s
      else
        let s := ((s.cohortsIn chip vf).map (·.1)).foldl State.endCohort s
        let s := (s.gridsOf chip vf).foldl (fun s n => s.endGrid chip n) s
        let s := (List.range 4).foldl (fun s d => s.modDie ⟨chip, d⟩ fun x =>
          { x with queues := Tab.del x.queues vf, deficit := Tab.del x.deficit vf, turn := x.turn.filter (· ≠ vf) }) s
        let s := if v.resetting then s.resetVf chip vf else s
        s.modVf chip vf fun v => { v with busy := none, resetting := false, ctx := .running, held := false, forced := false })

end Sys2Proof.Machine
end

