-- ==== Sys2Proof/Machine/Lockkeeper.lean ====
section
/-! DEFINITION. What the lockkeeper does for functions and partitions: the sluice (R334 to R336), owners of quadrants (R357,
R358), keys (R370), counters and encryption of lines (R361 to R367, R412), and the dirty log's rounds and scans (R403, R404). -/

namespace Sys2Proof.Machine

/-! ## The sluice (R334 to R336) -/

def Vf.rate (v : Vf) : Nat := bitsOf v.sluice.toNat 23 0
def Vf.depth (v : Vf) : Nat := bitsOf v.sluice.toNat 63 32

/-- R335: the register's fields are set, and the balance is DEPTH. -/
def execSluice (chip : Nat) (vf : Nat) (value : DWord) (s : State) : Host.Outcome State Fault Refusal :=
  let x := value &&& 0xFFFFFFFF00FFFFFF
  .next (s.modVf chip vf fun v => { v with sluice := x, balance := (bitsOf x.toNat 63 32 : Int) * 256 })

/-- The quadrants on which a function has a resident thread. -/
def State.quadsUsed (s : State) (chip vf : Nat) : Nat :=
  let l := (s.cohortsIn chip vf).flatMap fun x => if s.resident x.1 then x.2.quads.map fun q => (x.1.toCore, q) else []
  l.eraseDups.length

/-- One microsecond of a function's sluice; at −DEPTH a context without express grids is pre-empted. A rate of 0 disables it. -/
def State.sluiceVf (s : State) (chip vf : Nat) : State :=
  let v := s.vf chip vf
  if v.rate = 0 then s
  else
    let b := min (v.balance + v.rate - 256 * (s.quadsUsed chip vf : Int)) (v.depth * 256)
    let s := s.setVf chip vf { v with balance := b }
    if b ≤ -((v.depth : Int) * 256) && !s.expressContext chip vf then s.preempt chip vf .sluice else s

/-- R335: the next microsecond of the package's clock. -/
def execSluiceTick (chip : Nat) (s : State) : Host.Outcome State Fault Refusal :=
  let h := s.chip chip
  let us := s.ns chip / 1000
  .next (if us < h.sluiceAt then s.setChip chip { h with sluiceAt := us }
    else if us = h.sluiceAt then s
    else (h.vfs.map (·.1)).foldl (fun s v => s.sluiceVf chip v) (s.setChip chip { h with sluiceAt := h.sluiceAt + 1 }))

/-! ## Owners of quadrants (R357, R358) -/

/-- The cohorts of a partition that are on a quadrant. -/
def State.cohortsAt (s : State) (q : QuadId) (part : Nat) : List (CohortId × Cohort) :=
  (s.cohortsOn q.toCore).filter fun x => x.2.part = part && x.2.quads.contains q.quad
/-- Their functions. -/
def State.vfsAt (s : State) (q : QuadId) (part : Nat) : List Nat := ((s.cohortsAt q part).map fun x => x.2.vf).eraseDups
/-- Whether a partition of a package has a resident cooperative grid (R324). -/
def State.coopResident (s : State) (chip part : Nat) : Bool :=
  List.any s.cohorts fun x => x.1.chip = chip && !x.2.ended && x.2.part = part && s.resident x.1 && (s.launchOf x.1).coop

/-- The owner that a QOWN value names. -/
def ownerOf (v : Word) : Option Nat := if v.getLsbD 31 then some (v.toNat % 16) else none

/-- A core's landing rings of a partition are disabled (R222, R357). -/
def State.disableOwner (s : State) (c : CoreId) (part : Nat) : State :=
  (s.core c).rings.foldl (fun s r => if r.1.1 = part && r.2.enabled then s.disableRing c part r.1.2 (r.2.cfg &&& ~~~(1#64 <<< 63)) else s) s

/-- A core granted to an owner that holds none of its quadrants: that owner's ring registers are at reset (R236). -/
def State.grantCore (s : State) (c : CoreId) (new : Option Nat) : State :=
  match new with
  | some p => if s.share c p ≠ [] then s else s.modCore c fun x => { x with rings := List.filter (fun (r : (Nat × Nat) × Ring) => r.1.1 ≠ p) x.rings }
  | none => s

/-- The change takes effect: rings disabled, banks zeroed, tiles cleared, the owner recorded; saved contexts of the old owner
that need the quadrant are held (R357, R400). -/
def State.passQuad (s : State) (q : QuadId) (new : Option Nat) : State :=
  let c := q.toCore
  let s := s.grantCore c new
  match (s.quad q).owner with
  | none => s.modQuad q fun x => { x with owner := new, pending := none }
  | some old =>
    let s := (s.disableOwner c old).scrubBanks c old [q.quad]
    let s := s.modQuad q fun x => { x with owner := new, pending := none, acc := [[], [], [], []], poison := [false, false, false, false], shadows := [{}, {}] }
    let held := (List.filter (fun (x : CohortId × Cohort) => x.1.toCore = c && x.2.part = old && !x.2.ended && x.2.quads.contains q.quad) s.cohorts).map fun x => x.2.vf
    held.eraseDups.foldl (fun s v => s.noteHeld c.chip v c) s

/-- A pending change goes on: what still runs of the old owner is pre-empted, and once nothing is resident it takes effect. -/
def State.settleQuad (s : State) (q : QuadId) : State :=
  let x := s.quad q
  match x.pending with
  | none => s
  | some v =>
    let old := match x.owner with | some p => s.vfsAt q p | none => []
    if old = [] then s.passQuad q (ownerOf v) else old.foldl (fun s w => s.preempt q.chip w .owner) s

/-- A QOWN write (R358): refused where the partition that would lose the quadrant has a resident cooperative grid (R324, R357). -/
def State.writeQown (s : State) (q : QuadId) (v : Word) : State :=
  let p := v.toNat % 16
  let v := v &&& 0x8000000F
  if p > 11 || (v.getLsbD 31 && !(s.part q.chip p).enable) then s
  else
    let s := s.modQuad q fun x => { x with refused := false, pending := none }
    let x := s.quad q
    if x.owner = ownerOf v then s.modQuad q fun x => { x with qown := v }
    else
      if x.owner.any (s.coopResident q.chip) then s.modQuad q fun x => { x with refused := true }
      else (s.modQuad q fun x => { x with pending := some v, qown := v }).settleQuad q

/-- R357: a QOWN write, or the pending change's next step. -/
def execQown (q : QuadId) (write : Option Word) (s : State) : Host.Outcome State Fault Refusal :=
  .next (match write with
    | some v => s.writeQown q v
    | none => s.settleQuad q)

/-! ## Keys (R370) -/

/-- Whether a function holds frames on its package. -/
def State.holdsFrames (s : State) (chip vf : Nat) : Bool := (List.range 4).any fun d => (s.die ⟨chip, d⟩).frames.any fun f => f.2 = vf

/-- The key that a provisioning blob holds: its ciphertext is decapsulated, and the key unwrapped with what KMAC256 makes of the
shared secret (R370). -/
def blobKey (chip : Nat) (blob : List Byte) : Option (BitVec 256) :=
  ((Config.decapsulate chip (blob.take 1568)).bind fun shared => Crypt.unwrap (Crypt.kmac256 shared "GX9 WRAP") ((blob.drop 0x620).take 40)).map
    fun k => BitVec.ofNat 256 (Crypt.ofBytesBE k)
/-- The function and the realm that it names. -/
def blobVf (blob : List Byte) : Nat := ofBytesLE ((blob.drop 0x648).take 4)
def blobRealm (blob : List Byte) : Nat := ofBytesLE ((blob.drop 0x64C).take 4)

/-- R370: a key is installed where the blob opens, its realm is the function's, and the function is disabled and holds no
frames; else the old key stays. -/
def execKeyCommand (chip : Nat) (blob : List Byte) (s : State) : Host.Outcome State Fault Refusal :=
  let n := blobVf blob
  let v := s.vf chip n
  .next (match blobKey chip blob with
    | none => s
    | some k =>
      if decide (n < 1024) && decide (blobRealm blob = v.realm.toNat) && !v.enable && !s.holdsFrames chip n then
        (s.dropTree chip n).setVf chip n { v with key := k, root := {}, keyed := true, keyEpoch := v.keyEpoch + 1, majorMax := 0 }
      else s)

/-! ## Lines of DRAM (R361 to R366) -/

/-- What may befall a line as it is written back: an error that its code corrects, which is counted and logged, or one that it does
not, in the line, its MAC or its counter block (R411, R412). -/
def State.damage (s : State) (d : DieId) (line : Nat) (u : Upset) : State :=
  let spoil := fun (f : DramLine → DramLine) => s.modDie d fun x =>
    { x with lines := List.map (fun (l : Nat × DramLine) => if l.1 = line then (l.1, f l.2) else l) x.lines }
  match u with
  | .corrected =>
    (s.logEvent d.chip 1 d.die (Config.arrayUnit d.die 2) 0xFFFF (64 * line)).modDie d fun x => { x with corrected := x.corrected + 1 }
  | .dram => spoil fun l => { l with bad := true }
  | .mac => spoil fun l => { l with mac := l.mac ^^^ 1 }
  | .counter => s.modDie d fun x =>
      { x with counters := List.map (fun (b : Nat × CounterBlock) => if b.1 = line / 64 then (b.1, { b.2 with mac := b.2.mac ^^^ 1 }) else b) x.counters }
  | _ => s

/-- R366: a line is written back, but for one that fails (R367); where the L2 holds its 128 bytes dirty, their other line is too, and
they are clean. -/
def execDramLineWriteback (d : DieId) (turn : LineTurn) (s : State) : Host.Outcome State Fault Refusal :=
  let x := s.die d
  let other := turn.line / 2 * 2 + 1 - turn.line % 2
  let fails := if (Tab.get? x.l2 (turn.line / 2)).isSome then x.l2bad.contains turn.line else !s.lineOk d turn.line
  let s1 := s.writeBack d turn.line
  let s2 := if Tab.getD x.l2 (turn.line / 2) false then
      let s2 := s1.modDie d fun x => { x with l2 := List.map (fun (e : Nat × Bool) => if e.1 = turn.line / 2 then (e.1, false) else e) x.l2 }
      if x.l2bad.contains other then s2 else s2.writeBack d other
    else s1
  .next (if fails then s else s2.damage d turn.line turn.upset)

/-- The highest MAJOR that the key of a frame's owner has used: the state table holds a function's (R412). -/
def State.majorTop (s : State) (d : DieId) (o : Nat) : Nat :=
  if o < 1024 then (s.vf d.chip o).majorMax
  else List.foldl (fun n (b : Nat × CounterBlock) => if s.keyOwner d (b.1 / 16) = o then max n b.2.major else n) 0 (s.die d).counters

/-- R412: a counter block that fails is rebuilt above every MAJOR that its key has used, with MINORs at 0; every line below it is
failed. -/
def execCounterRebuild (d : DieId) (block : Nat) (s : State) : Host.Outcome State Fault Refusal :=
  .next (match Tab.get? (s.die d).frames (block / 16) with
    | none => s
    | some o =>
      if s.blockOk d.chip o (s.treeHeight d.chip o) 0 (d.die * 2 ^ 26 + block) then s else
      let top := s.majorTop d o
      let lines := (List.range 64).filterMap fun i => (s.lineAddr d (block * 64 + i)).map (· / 64)
      let s := lines.foldl State.markFailed s
      let s := s.commitBlock d.chip o (s.treeHeight d.chip o) 0 (d.die * 2 ^ 26 + block) { major := top + 1 }
      let s := if o < 1024 then s.modVf d.chip o fun v => { v with majorMax := top + 1 } else s
      s.logEvent d.chip 4 d.die (Config.arrayUnit d.die 7) (if o < 1024 then o else 0xFFFF) (4096 * block))

/-! ## The dirty log (R403, R404) -/

/-- The objects of a function's realm that it stands for on its package. -/
def State.logged (s : State) (chip vf : Nat) (o : Obj) : Bool := s.vfFor chip o = some vf

/-- R403: a round clears every dirty bit and summary bit of the function's pages on its package. -/
def execDlctlRound (chip : Nat) (vf : Nat) (s : State) : Host.Outcome State Fault Refusal :=
  let page (o : Obj) (i : Nat) : Page :=
    if o.holderOf i = chip then { o.pages.getD i {} with dirty := false } else o.pages.getD i {}
  let clear (o : Obj) : Obj :=
    if s.logged chip vf o then { o with summary := o.summary.filter (· ≠ chip), pages := (List.range o.pages.length).map (page o) } else o
  .next { s with objects := s.objects.map fun _ o => clear o }

/-- R404: a scan begins with the objects whose summary bit is set in the package's entry, then logs one at a time, waiting while the ring is full; it
ends after the last. -/
def execDlctlScan (chip : Nat) (vf : Nat) (s : State) : Host.Outcome State Fault Refusal :=
  let v := s.vf chip vf
  .next (match v.dlscan with
    | none =>
      s.setVf chip vf { v with dlscan := some ((List.filter (fun (o : (Nat × Nat) × Obj) => s.logged chip vf o.2 && o.2.summary.contains chip) s.objects).map (·.1)) }
    | some [] => s.setVf chip vf { v with dlscan := none }
    | some (k :: l) =>
      if (v.dlprod - v.dlcons).toNat = 65536 then s
      else (s.dirtyEntry chip vf ((mkPtr k.1 k.2 0).toNat + 1)).modVf chip vf fun v => { v with dlscan := if l = [] then none else some l })

end Sys2Proof.Machine
end

