-- ==== Sys2Proof/Machine/Hardware.lean ====
section
/-! DEFINITION. Recovery of hardware: spare cores, rows, banks and lanes (R408 to R410), the lockkeepers (R411, R415, R416),
module reset (R417), heat (R418), link keys (R368) and the clock (R339). -/

namespace Sys2Proof.Machine

/-! ## Spares (R408 to R410) -/

/-- The physical core of a logical one (R14, log 5). -/
def State.physOf (s : State) (c : CoreId) : Nat := (s.core c).phys.getD c.core
/-- A spare physical core of a die that is free: the last two of its 50 are spares (R13, log 5). -/
def State.spareCore (s : State) (d : DieId) : Option Nat :=
  [48, 49].find? fun p => !(s.die d).retired.contains p && !(List.range 48).any fun n => s.physOf ⟨d.chip, d.die, n⟩ = p

/-- The contexts with cohorts on a core. -/
def State.vfsOn (s : State) (c : CoreId) : List Nat := ((s.cohortsOn c).map fun x => x.2.vf).eraseDups

/-- Every context on a core is saved, its save marked FORCED (R408). -/
def State.evacuate (s : State) (c : CoreId) : State :=
  (s.vfsOn c).foldl (fun s v =>
    let w := s.vf c.chip v
    if w.busy.isSome || w.ctx = .restoring then s
    else if w.ctx = .stopping then s.setVf c.chip v { w with forced := true }
    else s.setVf c.chip v { w with ctx := .stopping, ctxSince := s.now, ctxAsked := s.ns c.chip, why := .retire, held := false, forced := true }) s

/-- Whether an array of a core has reported more than 64 corrected errors in one second (R408). -/
def Core.worn (x : Core) : Bool := x.corrected.any fun a => decide (a.2.length > 64)

/-- R408: a core in which a logic check fails, or one of whose arrays is worn. Cohorts that cannot be saved are terminated with reason 8; the core takes no more work; the contexts on
it are saved; then its number goes to a spare, or leaves service with its quadrants. DESIGN CHOICE (log 40): the entries of TYPE 5 and
6 name no function. -/
def execCoreRetire (c : CoreId) (loss : CoreLoss) (s : State) : Host.Outcome State Fault Refusal :=
  let begin' := fun (s : State) =>
    if (s.core c).retiring then s else s.modCore c fun x => { x with service := false, retiring := true }
  .next (if !(s.core c).retiring && (!(s.core c).service || !(loss.check || (s.core c).worn)) then s
    else
      let dead := ((s.cohortsOn c).map (·.1)).filter fun i => loss.grids.contains i.grid
      let s := dead.foldl (fun s i => s.terminate i none {} 8) (begin' s)
      if s.cohortsOn c ≠ [] then s.evacuate c
      else
        let d := c.toDie
        let old := s.physOf c
        let s := s.modDie d fun x => { x with retired := old :: x.retired }
        match s.spareCore d with
        | some p => (s.modCore c fun x => { x with service := true, retiring := false, phys := some p, corrected := [] }).logEvent c.chip 5 c.die c.core 0xFFFF 0
        | none =>
          let s := s.modCore c fun x => { x with retiring := false }
          let s := (List.range 4).foldl (fun s q => (s.passQuad ⟨c.chip, c.die, c.core, q⟩ none).modQuad ⟨c.chip, c.die, c.core, q⟩ fun x => { x with qown := 0 }) s
          let s := s.logEvent c.chip 6 c.die c.core 0xFFFF 0
          let held := ((List.filter (fun (x : CohortId × Cohort) => x.1.toCore = c && !x.2.ended) s.cohorts).map fun x => x.2.vf).eraseDups
          held.foldl (fun s v => s.noteHeld c.chip v c) s)

/-- A row of a bank, or a bank of a layer, retargeted to the next of its n spares, if one is left: the map with it first. -/
def spareNext (l : List ((Nat × Nat) × Nat)) (part k n : Nat) : Option (List ((Nat × Nat) × Nat)) :=
  let used := (List.filter (fun (e : (Nat × Nat) × Nat) => e.1.1 = part) l).length
  if used ≥ n then none else some (((part, k), used) :: l)

/-- R409: row n of bank part goes to one of the bank's 16 spare rows, or bank n of layer part to one of the layer's 2 spare banks, where
one is left; no value changes. -/
def execDramSpare (d : DieId) (bank : Bool) (unit : SpareUnit) (s : State) : Host.Outcome State Fault Refusal :=
  let x := s.die d
  .next (if bank then
      match spareNext x.spareBanks unit.part unit.n 2 with
      | some l => if unit.part ≥ 4 then s else (s.setDie d { x with spareBanks := l }).logEvent d.chip 8 d.die unit.n 0xFFFF 0
      | none => s
    else
      match spareNext x.spareRows unit.part unit.n 16 with
      | some l => (s.setDie d { x with spareRows := l }).logEvent d.chip 7 d.die unit.part 0xFFFF 0
      | none => s)

def Die.port (x : Die) (n : Nat) : Port := x.ports.getD n {}
def Die.setPort (x : Die) (n : Nat) (p : Port) : Die := { x with ports := x.ports.set n p }
/-- Whether some die of a package has a port that is up (R410). -/
def State.hasPath (s : State) (chip : Nat) : Bool := (List.range 4).any fun d => (s.die ⟨chip, d⟩).ports.any fun p => p.lanes ≠ 0

/-- R410: a port's first lost lane makes it retrain at three lanes; the second takes it down. -/
def execLaneFailure (d : DieId) (port : Nat) (s : State) : Host.Outcome State Fault Refusal :=
  let p := (s.die d).port port
  .next (if port ≥ 12 || p.lanes = 0 then s
    else if p.lanes = 4 then
      (s.modDie d fun x => x.setPort port { p with lanes := 3, training := true }).logEvent d.chip 9 d.die port 0xFFFF 0
    else
      let s := (s.modDie d fun x => x.setPort port { p with lanes := 0, training := false }).logEvent d.chip 10 d.die port 0xFFFF 0
      if s.hasPath d.chip then s else s.modChip d.chip fun h => { h with pathless := some (h.pathless.getD s.now) })

/-- R410: the port continues at its width, under keys agreed at its training (R368). -/
def execLaneRetrainDone (d : DieId) (port : Nat) (s : State) : Host.Outcome State Fault Refusal :=
  let p := (s.die d).port port
  .next (if !p.training then s
    else
      let s := s.modDie d fun x => x.setPort port { p with training := false, key := p.key + 1, flits := 0 }
      if s.hasPath d.chip then s.modChip d.chip fun h => { h with pathless := none } else s)

/-! ## Link keys and the clock (R339, R368) -/

/-- R368: a scale-up link has a new key, and its flit counter starts anew. -/
def execLinkRekey (d : DieId) (port : Nat) (s : State) : Host.Outcome State Fault Refusal :=
  let p := (s.die d).port port
  .next (if port ≥ 12 || p.lanes = 0 then s else s.modDie d fun x => x.setPort port { p with key := p.key + 1, flits := 0 })

/-- R368: the secure channel of a scale-out port has new keys. -/
def execMkaMessage (chip : Nat) (port : Nat) (s : State) : Host.Outcome State Fault Refusal :=
  .next (s.modChip chip fun h => { h with channels := h.channels.modify port (· + 1) })

/-- R339: a message of the clock's protocol; it may step the clock. -/
def execPtpMessage (chip : Nat) (step : Int) (s : State) : Host.Outcome State Fault Refusal :=
  .next (s.modChip chip fun h => { h with clockStep := h.clockStep + step })

/-! ## The lockkeepers (R411, R415, R416) -/

/-- The standby takes over from the last recorded table; the old active complex is held in reset (R415). DESIGN CHOICE (log 40): the
entry's DIE is 4 and its UNIT 0. -/
def State.takeOver (s : State) (chip : Nat) : State :=
  let h := s.chip chip
  (s.setChip chip { h with activeB := !h.activeB, standby := false, lone := true, missed := 0, fw := h.fwOther, fwOther := h.fw }).logEvent chip 11 4 0 0xFFFF 0

/-- R411: the active complex's SRAM is scrubbed: an uncorrectable error fails the complex, and the standby takes over. -/
def execLockkeeperSramScrub (chip : Nat) (upset : Upset) (s : State) : Host.Outcome State Fault Refusal :=
  let log := fun type => s.logEvent chip type 4 (Config.arrayUnit 4 9) 0xFFFF 0
  .next (match upset with
    | .corrected => (log 1).modChip chip fun h => { h with corrected := h.corrected + 1 }
    | .lockkeeper => if (s.chip chip).standby then (log 2).takeOver chip else (log 2).modChip chip fun h => { h with missed := 3 }
    | _ => s)

/-- R415: a heartbeat of the active complex, or one that the standby misses. The other complex stands by once it has booted. -/
def execHeartbeat (chip : Nat) (missed : Bool) (s : State) : Host.Outcome State Fault Refusal :=
  .next (s.modChip chip fun h =>
    if missed then { h with missed := min 3 (h.missed + 1) } else { h with missed := 0, standby := !h.lone })

/-- R415: after three missed heartbeats. -/
def execTakeOver (chip : Nat) (s : State) : Host.Outcome State Fault Refusal :=
  .next (if (s.chip chip).missed ≥ 3 && (s.chip chip).standby then s.takeOver chip else s)

/-- R416: a write of LKUPD starts an update; it is ignored while one is in progress. -/
def execLkupd (chip : Nat) (image : DWord) (s : State) : Host.Outcome State Fault Refusal :=
  .next (s.modChip chip fun h => if h.updstat = 1 then h else { h with image := image, updstat := 1 })

/-- What a package's fuses hold: the digest of Ceryth's public key (R371). -/
def keyFuse : List Byte := Crypt.sha3_512 Config.cerythKey

/-- Whether the n-th patch image that reaches a package verifies: its key is the one whose digest the fuses hold, and its signature is
one of its bytes' digest under that key (R371). -/
def imageVerifies (chip n : Nat) : Bool :=
  decide (Crypt.sha3_512 (Config.patchKey chip n) = keyFuse)
    && Config.mldsaVerify (Config.patchKey chip n) (Crypt.sha3_512 (Config.patchImage chip n)) (Config.patchSignature chip n)

/-- R416: the standby's update ends: it takes over with the new image, and the former active complex stands by with its own; or
the running firmware stays, with the reason in UPDSTAT. Whether the image verifies is a function of its bytes: a turn that names
another outcome of that check than it has does nothing (log 47). DESIGN CHOICE (log 40): the TYPE 12 entry's DIE is 4 and its UNIT 0. -/
def execLiveUpdateTakeover (chip : Nat) (check : UpdateCheck) (s : State) : Host.Outcome State Fault Refusal :=
  let h := s.chip chip
  let n := h.images + 1
  let good := imageVerifies chip n
  .next (if h.updstat ≠ 1 || !h.standby then s
    else match check with
      | .fetchFault => s.setChip chip { h with updstat := 5 }
      | .badSignature => if good then s else s.setChip chip { h with updstat := 3, images := n }
      | .versionRefused => if good then s.setChip chip { h with updstat := 4, images := n } else s
      | .good => if !good then s else
        (s.setChip chip { h with activeB := !h.activeB, updstat := 2, images := n, fw := n, fwOther := h.fw }).logEvent chip 12 4 0 0xFFFF 0)

/-! ## Module reset (R417) -/

/-- Whether a byte of memory lies in a package: objects born there, private memory, cisterns and windows. Host memory does not. -/
def inPackage (chip a : Nat) : Bool :=
  if a < 2 ^ 64 then a / 2 ^ 52 = chip
  else if a < 2 * 2 ^ 128 then (a - 2 ^ 128) / 2 ^ 30 / 4096 / 65536 / 256 = chip
  else if a < 3 * 2 ^ 128 then (a - 2 * 2 ^ 128) / 2 ^ 21 / 256 = chip
  else if a < 4 * 2 ^ 128 then false
  else (a - 4 * 2 ^ 128) / 2 ^ 30 / 4 / 256 = chip

/-- What a module reset of one package leaves of an object born on another: its extents there lose their bytes and any move. -/
def Obj.afterReset (o : Obj) (chip : Nat) (moved : List Nat) : Obj :=
  { o with extents := (List.range o.extents.length).map fun i =>
      let e := o.extents.getD i {}
      if e.holder = chip || moved.contains i then { holder := e.holder, stubs := e.stubs.filter fun x => x.1 ≠ chip } else { e with stubs := e.stubs.filter fun x => x.1 ≠ chip } }

/-- A package loses what it holds: its registers, units, grids, threads, operations and memory are at reset, but for its own record h,
and what other packages had under way with it is lost or sent again (R417, R418). -/
def State.clearModule (s : State) (chip : Nat) (h : Chip) : State :=
  let mine := fun (p : Nat × Op) => p.2.thread.cohort.chip = chip
  let dead := (List.filter mine s.ops).map (·.1)
  let moves := List.filter (fun (m : Nat × Move) => m.2.src = chip || m.2.dest = chip || m.2.obj.1 = chip) s.moves
  let held := (List.filter (fun (o : (Nat × Nat) × Obj) => o.1.1 ≠ chip) s.objects).flatMap fun o =>
    ((List.range o.2.extents.length).filter fun i => (o.2.extents.getD i {}).holder = chip).map fun i => ((mkPtr o.1.1 o.1.2 0).toNat + i * 2 ^ o.2.log2, 2 ^ o.2.log2)
  let gone := fun (a : Nat) => inPackage chip a || held.any fun r => r.1 ≤ a && a < r.1 + r.2
  let resent := (List.filter (fun (p : Nat × Op) => !mine p && !p.2.performed && match p.2.body with | .access a => isGlobal a.ptr | _ => false) s.ops).map (·.1)
  { s.unqueue (dead ++ resent) with
      issuing := none
      lags := s.lags.filter fun l => !gone l.lo
      symbols := s.symbols.filter fun x => x.2.1 ≠ chip
      mem := s.mem.filter fun c => !gone c.1
      failed := s.failed.filter fun l => !gone (l * 64)
      syncs := s.syncs.filter fun r => !gone r.lo
      chips := s.chips.put chip h
      dies := s.dies.keep fun d _ => d.chip ≠ chip
      cores := s.cores.keep fun c _ => c.chip ≠ chip
      quads := s.quads.keep fun q _ => q.chip ≠ chip
      grids := s.grids.keep fun g _ => g.1 ≠ chip
      cohorts := s.cohorts.keep fun c _ => c.chip ≠ chip
      threads := s.threads.keep fun t _ => t.cohort.chip ≠ chip
      pins := s.pins.keep fun _ p => p.cohort.chip ≠ chip
      saves := s.saves.keep fun k _ => k.1 ≠ chip
      scFences := s.scFences.filter fun f => f.2.1.cohort.chip ≠ chip
      moves := s.moves.keep fun i _ => !moves.any fun m => m.1 = i
      objects := (s.objects.keep fun k _ => k.1 ≠ chip).map fun k (o : Obj) =>
        o.afterReset chip ((moves.filter fun m => m.2.obj = k).map fun m => m.2.ext)
      msgs := s.msgs.keep fun _ m => match m.body with
        | .contribute c _ _ | .nbset c _ _ _ | .resolve c _ _ | .cancel c _ => c.chip ≠ chip
        | .signal _ p _ _ _ => p.1 ≠ chip
      redSlots := (s.redSlots.map fun _ (r : RedSlot) =>
          let r := r.lose fun m => m.1.chip = chip
          { r with members := r.members.filter (fun m => m.1.chip ≠ chip), ready := r.ready.filter fun i => !dead.contains i }).keep
        fun _ r => r.members ≠ []
      ops := (s.ops.keep fun _ o => o.thread.cohort.chip ≠ chip).map fun _ (o : Op) => match o.body with
        | .access a => if isGlobal a.ptr && !o.performed then { o with phase := .answered .retry, held := none } else o
        | _ => o }

/-- The spare map that a test of a die's cores gives: for each logical core whose own core is bad, the spare that takes its number,
if one is left (R14, R408, R417). -/
def spareMap (bad : List Nat) : List (Nat × Option Nat) :=
  let lost := (List.range 48).filter bad.contains
  let spares := [48, 49].filter fun p => !bad.contains p
  (List.range lost.length).map fun i => (lost.getD i 0, spares[i]?)

/-- A die whose test found some cores bad. -/
def State.testDie (s : State) (d : DieId) (bad : List Nat) : State :=
  if bad = [] then s
  else (spareMap bad).foldl (fun s m => s.modCore ⟨d.chip, d.die, m.1⟩ fun x => match m.2 with
    | some p => { x with phys := some p }
    | none => { x with service := false }) (s.modDie d fun x => { x with retired := bad })

/-- R417: both complexes run the patch image where there is one and it verifies, the package begins anew, and its cores are tested. -/
def State.resetModule (s : State) (chip : Nat) (bad : List (Nat × Nat)) (patch : Bool) : State :=
  let h := s.chip chip
  let n := if patch && imageVerifies chip (h.images + 1) then h.images + 1 else 0
  let s := s.clearModule chip { resetAt := s.now, clockStep := h.clockStep, images := if patch then h.images + 1 else h.images, fw := n, fwOther := n }
  (List.range 4).foldl (fun s d => s.testDie ⟨chip, d⟩ ((bad.filter fun b => b.1 = d).map (·.2))) s

/-- R417. -/
def execModuleReset (boot : ModuleBoot) (s : State) : Host.Outcome State Fault Refusal :=
  .next (s.resetModule boot.chip boot.bad boot.patch)

/-! ## Heat (R418) -/

/-- R418: the hottest junction's reading, in 0.125 °C: the step limit from 95 °C until below 90 °C, every context saved from
105 °C and nothing placed until below 95 °C; at 115 °C power is removed, and contexts and memory are lost. DESIGN CHOICE (log 40): the
entry of a TYPE 13 event has DIE 4 and UNIT 0. -/
def execThermalThreshold (chip : Nat) (temp : Nat) (s : State) : Host.Outcome State Fault Refusal :=
  let h := s.chip chip
  let slow := if temp ≥ 95 * 8 then true else if temp < 90 * 8 then false else h.slow
  let hot := if temp ≥ 105 * 8 then true else if temp < 95 * 8 then false else h.hot
  let s1 := s.setChip chip { h with temp := temp % 65536, slow := slow, hot := hot }
  let s2 := if slow ≠ h.slow then s1.logEvent chip 13 4 0 0xFFFF 0 else s1
  .next (if temp ≥ 115 * 8 then s.clearModule chip { resetAt := h.resetAt, clockStep := h.clockStep, images := h.images, off := some s.now }
    else if temp ≥ 105 * 8 then (h.vfs.map (·.1)).foldl (fun s v => if s.cohortsIn chip v = [] then s else s.preempt chip v .heat) s2 else s2)

end Sys2Proof.Machine
end

