-- ==== Sys2Proof/Machine/Integer.lean ====
section
/-! DEFINITION. Integer, logic, compare, move and object-pointer words (R95 to R114). Each reads its sources, checks its
latches, and writes one result of the executing thread. -/

namespace Sys2Proof.Machine

/-- A word whose 32-bit result is a function of A and B. -/
def State.alu32 (s : State) (i : Instr) (f : Fields) (g : Word → Word → Word) : Host.Outcome State Fault Refusal :=
  s.runAlu i fun s b t x => (s.a32 b t f).bind fun a => (x.b32 f).map fun v => x.put32 f (g a v)
/-- A word whose 64-bit result is a function of A and B. -/
def State.alu64 (s : State) (i : Instr) (f : Fields) (g : DWord → DWord → DWord) : Host.Outcome State Fault Refusal :=
  s.runAlu i fun s b t x => (s.a64 b t f).bind fun a => (x.b64 f).map fun v => x.put64 f (g a v)
/-- A 64-bit value with a 32-bit amount. -/
def State.alu6432 (s : State) (i : Instr) (f : Fields) (g : DWord → Word → DWord) : Host.Outcome State Fault Refusal :=
  s.runAlu i fun s b t x => (s.a64 b t f).bind fun a => (x.b32 f).map fun v => x.put64 f (g a v)
/-- A word whose 32-bit result is a function of A, B and C. -/
def State.alu3 (s : State) (i : Instr) (f : Fields) (g : Word → Word → Word → Word) : Host.Outcome State Fault Refusal :=
  s.runAlu i fun s b t x => (s.a32 b t f).bind fun a => (x.b32 f).bind fun v => (x.c32 f).map fun c => x.put32 f (g a v c)
/-- A word whose 32-bit result is a function of A (R97). -/
def State.alu1 (s : State) (i : Instr) (f : Fields) (g : Word → Word) : Host.Outcome State Fault Refusal :=
  s.runAlu i fun s b t x => (s.a32 b t f).map fun a => x.put32 f (g a)

/-! ## Integer arithmetic -/

/-- R102. -/
def execIadd (f : Fields) (s : State) := s.alu32 (.iadd f) f (addOf 32 f.ctl)
/-- R102. -/
def execIsub (f : Fields) (s : State) := s.alu32 (.isub f) f (subOf 32 f.ctl)
/-- R102. -/
def execImul (f : Fields) (s : State) := s.alu32 (.imul f) f (fun a b => a * b)
/-- R102. -/
def execImad (f : Fields) (s : State) := s.alu3 (.imad f) f (fun a b c => a * b + c)
/-- R102. -/
def execImulhi (f : Fields) (s : State) := s.alu32 (.imulhi f) f (mulhiOf 32 f.ctl)
/-- R103. -/
def execIdivs (f : Fields) (s : State) := s.alu32 (.idivs f) f (divOf 32 f.ctl true)
/-- R103. -/
def execIdivu (f : Fields) (s : State) := s.alu32 (.idivu f) f (divOf 32 f.ctl false)
/-- R104. -/
def execImin (f : Fields) (s : State) := s.alu32 (.imin f) f (minOf 32 f.ctl)
/-- R104. -/
def execImax (f : Fields) (s : State) := s.alu32 (.imax f) f (maxOf 32 f.ctl)
/-- R102, R99. -/
def execIadd64 (f : Fields) (s : State) := s.alu64 (.iadd64 f) f (addOf 64 f.ctl)
/-- R102, R99. -/
def execIsub64 (f : Fields) (s : State) := s.alu64 (.isub64 f) f (subOf 64 f.ctl)
/-- R102, R99. -/
def execImul64 (f : Fields) (s : State) := s.alu64 (.imul64 f) f (fun a b => a * b)
/-- R102, R99. -/
def execImad64 (f : Fields) (s : State) : Host.Outcome State Fault Refusal :=
  s.runAlu (.imad64 f) fun s b t x =>
    (s.a64 b t f).bind fun a => (x.b64 f).bind fun v => (x.c64 f).map fun c => x.put64 f (a * v + c)
/-- R102, R99. -/
def execImulhi64 (f : Fields) (s : State) := s.alu64 (.imulhi64 f) f (mulhiOf 64 f.ctl)
/-- R103, R99. -/
def execIdivs64 (f : Fields) (s : State) := s.alu64 (.idivs64 f) f (divOf 64 f.ctl true)
/-- R103, R99. -/
def execIdivu64 (f : Fields) (s : State) := s.alu64 (.idivu64 f) f (divOf 64 f.ctl false)
/-- R104, R99. -/
def execImin64 (f : Fields) (s : State) := s.alu64 (.imin64 f) f (minOf 64 f.ctl)
/-- R104, R99. -/
def execImax64 (f : Fields) (s : State) := s.alu64 (.imax64 f) f (maxOf 64 f.ctl)

/-! ## Shifts, logic and bit fields -/

/-- R105. -/
def execShl (f : Fields) (s : State) := s.alu32 (.shl f) f (fun a n => shlOf 32 a n.toNat)
/-- R105. -/
def execShr (f : Fields) (s : State) := s.alu32 (.shr f) f (fun a n => shrOf 32 a n.toNat)
/-- R105. -/
def execSar (f : Fields) (s : State) := s.alu32 (.sar f) f (fun a n => sarOf 32 a n.toNat)
/-- R105. -/
def execShl64 (f : Fields) (s : State) := s.alu6432 (.shl64 f) f (fun a n => shlOf 64 a n.toNat)
/-- R105. -/
def execShr64 (f : Fields) (s : State) := s.alu6432 (.shr64 f) f (fun a n => shrOf 64 a n.toNat)
/-- R105. -/
def execSar64 (f : Fields) (s : State) := s.alu6432 (.sar64 f) f (fun a n => sarOf 64 a n.toNat)
/-- R106, R98. -/
def execLop3 (f : Fields) (s : State) : Host.Outcome State Fault Refusal :=
  s.runAlu (.lop3 f) fun s b t x =>
    (s.a32 b t f).bind fun a => (x.b32 f).bind fun v => (x.c32 f).bind fun c => (x.old32 f).map fun d =>
      x.put32 f (lop3Of 32 a v c d)
/-- R106, R98. -/
def execKlog (f : Fields) (s : State) : Host.Outcome State Fault Refusal :=
  s.runAlu (.klog f) fun _ _ _ x => (x.b32 f).map fun v =>
    x.setPred f.dst.toNat (klogOf v (x.pred f.sa.toNat) (x.pred f.sc.toNat) (x.pred f.dst.toNat))
/-- R107. -/
def execBfe (f : Fields) (s : State) := s.alu32 (.bfe f) f (bfeOf f.ctl)
/-- R107. -/
def execBfi (f : Fields) (s : State) := s.alu3 (.bfi f) f bfiOf
/-- R108. -/
def execPopc (f : Fields) (s : State) := s.alu1 (.popc f) f popcOf
/-- R108. -/
def execClz (f : Fields) (s : State) := s.alu1 (.clz f) f clzOf
/-- R108. -/
def execBrev (f : Fields) (s : State) := s.alu1 (.brev f) f brevOf

/-! ## Compare, select and move -/

/-- R109. -/
def execIsetp (f : Fields) (s : State) : Host.Outcome State Fault Refusal :=
  s.runAlu (.isetp f) fun s b t x => (s.a32 b t f).bind fun a => (x.b32 f).map fun v =>
    x.setPred f.dst.toNat (compareOf 32 f.ctl a v)
/-- R109, R99. -/
def execIsetp64 (f : Fields) (s : State) : Host.Outcome State Fault Refusal :=
  s.runAlu (.isetp64 f) fun s b t x => (s.a64 b t f).bind fun a => (x.b64 f).map fun v =>
    x.setPred f.dst.toNat (compareOf 64 f.ctl a v)
/-- R110. -/
def execSel (f : Fields) (s : State) : Host.Outcome State Fault Refusal :=
  s.runAlu (.sel f) fun s b t x => (s.a32 b t f).bind fun a => (x.b32 f).map fun v =>
    x.put32 f (if x.pred f.sc.toNat then a else v)
/-- R111. -/
def execMov (f : Fields) (s : State) : Host.Outcome State Fault Refusal :=
  s.runAlu (.mov f) fun s b t x => (if f.form = 0 then s.a32 b t f else x.b32 f).map fun v => x.put32 f v
/-- R111. -/
def execMov64 (f : Fields) (s : State) : Host.Outcome State Fault Refusal :=
  s.runAlu (.mov64 f) fun s b t x => (if f.form = 0 then s.a64 b t f else x.b64 f).map fun v => x.put64 f v

/-! ## Object-pointer arithmetic -/

/-- OPADD's and LEA's result; none outside OFFSET without .WRAP (R112). -/
def pointerAdd (wrap : Bool) (p : DWord) (d : Int) : Option DWord := if wrap || ptrFits p d then some (ptrAdd p d) else none

/-- R112. -/
def execOpadd (f : Fields) (s : State) : Host.Outcome State Fault Refusal :=
  s.runAlu (.opadd f) fun s b t x => (s.a64 b t f).bind fun a => (x.b32 f).bind fun v =>
    (pointerAdd (f.ctl = 1) a v.toInt).map fun r => x.put64 f r
/-- R112. -/
def execLea (f : Fields) (s : State) : Host.Outcome State Fault Refusal :=
  s.runAlu (.lea f) fun s b t x => (s.a64 b t f).bind fun a => (x.b32 f).bind fun v =>
    let d : Int := (if f.ctl / 8 % 2 = 1 then (v.toNat : Int) else v.toInt) * (2 ^ (f.ctl % 8) : Nat)
    (pointerAdd (f.ctl / 16 % 2 = 1) a d).map fun r => x.put64 f r
/-- R113. -/
def execOpdiff (f : Fields) (s : State) : Host.Outcome State Fault Refusal :=
  s.runAlu (.opdiff f) fun s b t x => (s.a64 b t f).bind fun a => (x.b64 f).bind fun v =>
    if a.toNat / 2 ^ 30 = v.toNat / 2 ^ 30 then some (x.put32 f (BitVec.ofInt 32 ((offsetOf a : Int) - offsetOf v))) else none
/-- R114. -/
def execOpmake (f : Fields) (s : State) : Host.Outcome State Fault Refusal :=
  s.runAlu (.opmake f) fun s b t x => (s.a32 b t f).bind fun a => (x.b32 f).bind fun v => (x.c32 f).bind fun c =>
    if a.toNat < 2 ^ 12 ∧ v.toNat < 2 ^ 22 ∧ c.toNat < 2 ^ 30 then some (x.put64 f (mkPtr a.toNat v.toNat c.toNat)) else none
/-- R114. -/
def execOpext (f : Fields) (s : State) : Host.Outcome State Fault Refusal :=
  s.runAlu (.opext f) fun s b t x => (s.a64 b t f).map fun a =>
    x.put32 f (BitVec.ofNat 32 (if f.ctl = 0 then offsetOf a else if f.ctl = 1 then serialOf a else birthOf a))

end Sys2Proof.Machine
end

