-- ==== Sys2Proof/Machine/Landing.lean ====
section
/-! DEFINITION. Landing: values and completions from chip-local and host-window space, clock samples, locator guesses and the
results of window words (R40, R239, R256, R376). -/

namespace Sys2Proof.Machine

/-- R40: a value lands that comes from chip-local or host-window space, a clock sample, a locator guess, or a window or key
word's result; the result of a LAUNCHQ or of a PUMPPOST
that waited (R298, R326). -/
def execResponseArrives (op : Nat) (s : State) : Host.Outcome State Fault Refusal :=
  let s := s.performLocal op
  .next (match s.op? op with
    | some o =>
      match o.body, o.phase with
      | .access a, .answered (.served _ v know) => if !isGlobal a.ptr && o.ctr = some 0 then s.land op o a v know else s
      | .clock dst, _ => s.landClock op o dst
      | .obj b, _ => if b.code = .locate && b.ctl = 1 then s.landGuess op o b else s
      | .win w, _ => s.landWindow op o w
      | .launchq _ _ _, _ => s.serveLaunch op
      | .post _ _ _ _ _ _, _ => s.servePost op false
      | _, _ => s
    | none => s)

/-- R239, R256: a store or an atomic without a result is performed at its L2, bank or host port, and is counted. -/
def execStoreCompletion (op : Nat) (s : State) : Host.Outcome State Fault Refusal :=
  let s := s.performLocal op
  .next (match s.op? op with
    | some o =>
      match o.body, o.phase with
      | .access a, .answered (.served _ v know) =>
        if isGlobal a.ptr then s else if o.device.isSome then s.endOp op else if o.ctr = some 1 then s.land op o a v know else s
      | .mmio off _ _ _, _ =>
        -- a store to a register that ignores writes
        if s.mayPerform op o && !(0x100 ≤ off && off < 0x200 && (off % 0x40 = 0 || off % 0x40 = 0x14)) then s.endOp op else s
      | _, _ => s
    | none => s)

end Sys2Proof.Machine
end

