-- ==== Sys2Proof/Machine/Registers.lean ====
section
/-! DEFINITION. The physical function's register pages: which register an offset names, what a write does and what a read
returns (R6, R186, R302, R321, R334, R358, R359, R362, R373, R383, R413, R416, R418). -/

namespace Sys2Proof.Machine

/-- A register of the pages. -/
inductive HostReg where
  | affinity (vf : Nat) | weight (vf : Nat)
  | srbase (vf : Nat) | srcfg (vf : Nat) | srprod (vf : Nat) | srcons (vf : Nat)
  | sluice (vf : Nat) | balance (vf : Nat) | sctl (vf : Nat)
  | partcfg (p : Nat) | qown (q : Nat) | vfcfg (vf : Nat) | vfrealm (vf : Nat) | vfkey (vf : Nat)
  | cmask (p : Nat) (die : Nat)
  | wgctl (w : Nat) | wgrealmA (w : Nat) | wgrealmB (w : Nat) | wgstate (w : Nat) | wgrefs (w : Nat)
  | hashid
  | tvbase (vf : Nat) | frbase (vf : Nat) | frctl (vf : Nat) | frprod (vf : Nat) | frcons (vf : Nat) | frdrop (vf : Nat)
  | vfctl (vf : Nat) | dlbase (vf : Nat) | dlctl (vf : Nat) | dlprod (vf : Nat) | dlcons (vf : Nat)
  | rlbase | rlctl | rlprod | rlcons | rldrop | lkupd | lkstat | therm
deriving DecidableEq, Repr

/-- The register of a function's block of the scheduling page (R321). -/
def ringReg (vf : Nat) : Nat → Option HostReg
  | 0x00 => some (.srbase vf) | 0x08 => some (.srcfg vf) | 0x0C => some (.srprod vf) | 0x10 => some (.srcons vf) | _ => none

/-- The register of a function's sluice block (R334). -/
def sluiceReg (vf : Nat) : Nat → Option HostReg
  | 0x0 => some (.sluice vf) | 0x8 => some (.balance vf) | 0xC => some (.sctl vf) | _ => none

/-- The register of a function's block of the isolation page (R358). -/
def functionReg (vf : Nat) : Nat → Option HostReg
  | 0x0 => some (.vfcfg vf) | 0x4 => some (.vfrealm vf) | 0x8 => some (.vfkey vf) | _ => none

/-- The register of a window grant's block (R358). -/
def grantReg (w : Nat) : Nat → Option HostReg
  | 0x00 => some (.wgctl w) | 0x04 => some (.wgrealmA w) | 0x08 => some (.wgrealmB w) | 0x0C => some (.wgstate w)
  | 0x10 => some (.wgrefs w) | _ => none

/-- The register of a function's recovery block (R383). -/
def recoveryReg (vf : Nat) : Nat → Option HostReg
  | 0x00 => some (.tvbase vf) | 0x08 => some (.frbase vf) | 0x10 => some (.frctl vf) | 0x14 => some (.frprod vf)
  | 0x18 => some (.frcons vf) | 0x1C => some (.frdrop vf) | 0x20 => some (.vfctl vf) | 0x28 => some (.dlbase vf)
  | 0x30 => some (.dlctl vf) | 0x34 => some (.dlprod vf) | 0x38 => some (.dlcons vf) | _ => none

/-- The register of the package's part of the recovery page (R413, R416, R418). -/
def packageReg : Nat → Option HostReg
  | 0x10000 => some .rlbase | 0x10008 => some .rlctl | 0x1000C => some .rlprod | 0x10010 => some .rlcons
  | 0x10014 => some .rldrop | 0x10020 => some .lkupd | 0x10028 => some .lkstat | 0x10030 => some .therm | _ => none

/-- The register that starts at an offset of a page; every other offset is reserved. -/
def hostReg (page : HostPage) (o : Nat) : Option HostReg :=
  match page with
  | .objectSpace =>
    if o % 4 ≠ 0 then none
    else if 0x1000 ≤ o && o < 0x2000 then some (.affinity ((o - 0x1000) / 4))
    else if 0x2000 ≤ o && o < 0x3000 then some (.weight ((o - 0x2000) / 4))
    else none
  | .scheduling =>
    if o < 0x10000 then ringReg (o / 64) (o % 64)
    else if o < 0x14000 then sluiceReg ((o - 0x10000) / 16) (o % 16)
    else none
  | .isolation =>
    if o < 16 * 12 then if o % 16 = 0 then some (.partcfg (o / 16)) else none
    else if 0x1000 ≤ o && o < 0x1000 + 4 * 768 then if o % 4 = 0 then some (.qown ((o - 0x1000) / 4)) else none
    else if 0x4000 ≤ o && o < 0x8000 then functionReg ((o - 0x4000) / 16) (o % 16)
    else if 0x8000 ≤ o && o < 0x8000 + 64 * 12 then if o % 16 = 0 then some (.cmask ((o - 0x8000) / 64) (o % 64 / 16)) else none
    else if 0xA000 ≤ o && o < 0xC000 then grantReg ((o - 0xA000) / 32) (o % 32)
    else if o = 0xF000 then some .hashid
    else none
  | .recovery => if o < 0x10000 then recoveryReg (o / 64) (o % 64) else packageReg o

/-- The quadrant of a QOWN register (R358). -/
def quadAt (chip q : Nat) : QuadId := ⟨chip, q / 192, q % 192 / 4, q % 4⟩

/-- The quadrants that a partition owns (R358). -/
def State.quadsOwned (s : State) (chip p : Nat) : Nat :=
  (List.filter (fun (q : QuadId × Quad) => q.1.chip = chip && q.2.owner = some p) s.quads).length

/-- A balance as its register shows it: whole quadrant-µs, saturating (R334). -/
def balanceWord (b : Int) : Word := BitVec.ofInt 32 (max (-(2 ^ 31)) (min (2 ^ 31 - 1) (b / 256)))

/-- A field of a register's value, at its lowest bit. -/
def at' (v lo : Nat) : Nat := v * 2 ^ lo
def bit' (b : Bool) (i : Nat) : Nat := if b then 2 ^ i else 0

/-- R6: what a read of a register returns. DESIGN CHOICE (log 52): the serial of WGSTATE reads 0 in SCRUBBING (R373, R374). -/
def State.hostRead (s : State) (chip : Nat) (r : HostReg) : Nat :=
  let h := s.chip chip
  match r with
  | .affinity v => (s.vf chip v).affinity.toNat
  | .weight v => (s.vf chip v).weight.toNat
  | .srbase v => (s.vf chip v).srbase.toNat
  | .srcfg v => (s.vf chip v).srcfg.toNat
  | .srprod v => (s.vf chip v).srprod.toNat
  | .srcons v => (s.vf chip v).srcons.toNat
  | .sluice v => (s.vf chip v).sluice.toNat
  | .balance v => (balanceWord (s.vf chip v).balance).toNat
  | .sctl v => bit' (s.vf chip v).express 31 + bit' (s.unmapped chip v) 30
  | .partcfg p => bit' (s.part chip p).enable 31 + bit' (s.part chip p).express 30 + s.quadsOwned chip p % 1024
  | .qown q => (s.quad (quadAt chip q)).qown.toNat + bit' (s.quad (quadAt chip q)).pending.isSome 30 + bit' (s.quad (quadAt chip q)).refused 29
  | .vfcfg v => let f := s.vf chip v; bit' f.enable 31 + bit' f.keyed 30 + at' (f.part % 16) 16 + f.lport % 65536
  | .vfrealm v => (s.vf chip v).realm.toNat
  | .vfkey v => (s.vf chip v).keyEpoch.toNat
  | .cmask p d => ((s.part chip p).cmask.getD d 0).toNat
  | .wgctl w => (s.grant chip w).ctl.toNat
  | .wgrealmA w => (s.grant chip w).realmA.toNat
  | .wgrealmB w => (s.grant chip w).realmB.toNat
  | .wgstate w => match (s.grant chip w).state with
    | .idle => 0
    | .opened => at' 1 30 + (s.grant chip w).serial % 2 ^ 22
    | .scrubbing => at' 2 30
  | .wgrefs w =>
    let n := fun (x : Side) => min 65535 (x.plain + x.write)
    at' (n (s.grant chip w).b) 16 + n (s.grant chip w).a
  | .hashid => 1
  | .tvbase v => (s.vf chip v).tvbase.toNat
  | .frbase v => (s.vf chip v).frbase.toNat
  | .frctl v => (s.vf chip v).frctl.toNat
  | .frprod v => (s.vf chip v).frprod.toNat
  | .frcons v => (s.vf chip v).frcons.toNat
  | .frdrop v => (s.vf chip v).frdrop.toNat
  | .vfctl v => bit' (s.vf chip v).busy.isSome 31
  | .dlbase v => (s.vf chip v).dlbase.toNat
  | .dlctl v => let f := s.vf chip v; bit' f.dlenable 31 + bit' f.dloverflow 30 + bit' f.dlscan.isSome 27
  | .dlprod v => (s.vf chip v).dlprod.toNat
  | .dlcons v => (s.vf chip v).dlcons.toNat
  | .rlbase => h.rlbase.toNat
  | .rlctl => h.rlctl.toNat
  | .rlprod => h.rlprod.toNat
  | .rlcons => h.rlcons.toNat
  | .rldrop => h.rldrop.toNat
  | .lkupd => 0
  | .lkstat => bit' h.activeB 31 + bit' h.standby 30 + at' (h.updstat % 8) 27 + h.version % 65536
  | .therm => h.temp % 65536

/-- What a read at an offset returns; a reserved offset reads zero. -/
def State.readReg (s : State) (chip : Nat) (page : HostPage) (offset : Nat) : BitVec 128 :=
  match hostReg page offset with
  | some r => BitVec.ofNat 128 (s.hostRead chip r)
  | none => 0

/-! ## Writes -/

/-- PARTCFG (R358): a write that clears ENABLE while the partition owns a quadrant is ignored. -/
def State.writePartcfg (s : State) (chip p : Nat) (v : Word) : State :=
  let x := s.part chip p
  if x.enable && !v.getLsbD 31 && s.quadsOwned chip p ≠ 0 then s
  else s.setPart chip p { x with enable := v.getLsbD 31, express := v.getLsbD 30 }

/-- VFCFG (R359): PART keeps its value while ENABLE is 1, and the forms of the rule's last two lines are ignored. -/
def State.writeVfcfg (s : State) (chip vf : Nat) (v : Word) : State :=
  let f := s.vf chip vf
  let part := bitsOf v.toNat 19 16
  let lport := v.toNat % 65536
  if v.getLsbD 31 && !f.keyed then s
  else if !(s.part chip part).enable then s
  else if lport ≠ 0 && (s.chip chip).vfs.any (fun x => x.1 ≠ vf && x.2.enable && x.2.lport = lport) then s
  else s.setVf chip vf { f with enable := v.getLsbD 31, part := if f.enable then f.part else part, lport := lport }

/-- VFREALM (R359). -/
def State.writeVfrealm (s : State) (chip vf : Nat) (v : Word) : State :=
  let f := s.vf chip vf
  if f.enable || v = 0xFFFFFFFF then s else s.setVf chip vf { f with realm := v }

/-- A register of a window grant, which takes a write only while the grant is idle (R373). -/
def State.writeGrant (s : State) (chip w : Nat) (f : Grant → Grant) : State :=
  let g := s.grant chip w
  if g.state = .idle then s.setGrant chip w (f g) else s

/-- VFCTL (R383): RESET acts where both are written, and both are ignored while BUSY is 1. -/
def writeVfctl (chip vf : Nat) (v : Word) (s : State) : Host.Outcome State Fault Refusal :=
  if v.getLsbD 1 then execVfctlReset chip vf s else if v.getLsbD 0 then execVfctlKill chip vf s else .next s

/-- DLCTL (R383, R403, R404): ENABLE, the clearing of OVERFLOW, then ROUND, then SCAN unless a scan runs. -/
def writeDlctl (chip vf : Nat) (v : Word) (s : State) : Host.Outcome State Fault Refusal :=
  let s := s.modVf chip vf fun f => { f with dlenable := v.getLsbD 31, dloverflow := f.dloverflow && !v.getLsbD 30 }
  let scan := fun (s : State) => if v.getLsbD 28 && (s.vf chip vf).dlscan.isNone then execDlctlScan chip vf s else .next s
  if v.getLsbD 29 then
    match execDlctlRound chip vf s with
    | .next s => scan s
    | o => o
  else scan s

/-- R6: a write of a register; read-only and reserved fields are ignored. -/
def hostWriteReg (chip : Nat) (r : HostReg) (value : BitVec 128) (s : State) : Host.Outcome State Fault Refusal :=
  let w : Word := value.setWidth 32
  let d : DWord := value.setWidth 64
  match r with
  | .affinity v => .next (s.modVf chip v fun f => { f with affinity := w &&& 0xC0FFFF00 })
  | .weight v => .next (s.modVf chip v fun f => { f with weight := w &&& 0xFF })
  | .srbase v => .next (s.modVf chip v fun f => { f with srbase := d })
  | .srcfg v => .next (s.modVf chip v fun f => { f with srcfg := w &&& 0x8000001F })
  | .srprod v => execSrprod chip v w s
  | .sluice v => execSluice chip v d s
  | .sctl v => .next (s.modVf chip v fun f => { f with express := w.getLsbD 31 })
  | .partcfg p => .next (s.writePartcfg chip p w)
  | .qown q => execQown (quadAt chip q) (some w) s
  | .vfcfg v => .next (s.writeVfcfg chip v w)
  | .vfrealm v => .next (s.writeVfrealm chip v w)
  | .cmask p i => .next (s.setPart chip p { s.part chip p with cmask := (s.part chip p).cmask.set i value })
  | .wgctl g => .next (s.writeGrant chip g fun x => { x with ctl := w &&& 0xE0001FFF })
  | .wgrealmA g => .next (s.writeGrant chip g fun x => { x with realmA := w })
  | .wgrealmB g => .next (s.writeGrant chip g fun x => { x with realmB := w })
  | .tvbase v => .next (s.modVf chip v fun f => { f with tvbase := d })
  | .frbase v => .next (s.modVf chip v fun f => { f with frbase := d })
  | .frctl v => .next (s.modVf chip v fun f => { f with frctl := w &&& 0x8000001F })
  | .frcons v => .next (s.modVf chip v fun f => { f with frcons := w })
  | .vfctl v => writeVfctl chip v w s
  | .dlbase v => .next (s.modVf chip v fun f => { f with dlbase := d })
  | .dlctl v => writeDlctl chip v w s
  | .dlcons v => .next (s.modVf chip v fun f => { f with dlcons := w })
  | .rlbase => .next (s.modChip chip fun h => { h with rlbase := d })
  | .rlctl => .next (s.modChip chip fun h => { h with rlctl := w &&& 0x8000001F })
  | .rlcons => .next (s.modChip chip fun h => { h with rlcons := w })
  | .lkupd => execLkupd chip d s
  | .srcons _ | .balance _ | .vfkey _ | .wgstate _ | .wgrefs _ | .hashid | .frprod _ | .frdrop _ | .dlprod _
  | .rlprod | .rldrop | .lkstat | .therm => .next s

/-- R6, R7: host software of the physical function writes a register of one of its pages; a reserved offset ignores it. -/
def execRegisterWrite (chip : Nat) (page : HostPage) (offset : Nat) (value : BitVec 128) (s : State) : Host.Outcome State Fault Refusal :=
  match hostReg page offset with
  | some r => hostWriteReg chip r value s
  | none => .next s

end Sys2Proof.Machine
end

