-- ==== Sys2Proof/Machine/Dispatch.lean ====
section
/-! DEFINITION. The meaning of every instruction: one arm per constructor of Instr, each one call of that instruction's own
definition. -/

namespace Sys2Proof.Machine

def exec (i : Instr) (s : State) : Host.Outcome State Fault Refusal :=
  match i with
  | .iadd f => Sys2Proof.Machine.execIadd f s
  | .isub f => Sys2Proof.Machine.execIsub f s
  | .imul f => Sys2Proof.Machine.execImul f s
  | .imad f => Sys2Proof.Machine.execImad f s
  | .imulhi f => Sys2Proof.Machine.execImulhi f s
  | .idivs f => Sys2Proof.Machine.execIdivs f s
  | .idivu f => Sys2Proof.Machine.execIdivu f s
  | .imin f => Sys2Proof.Machine.execImin f s
  | .imax f => Sys2Proof.Machine.execImax f s
  | .shl f => Sys2Proof.Machine.execShl f s
  | .shr f => Sys2Proof.Machine.execShr f s
  | .sar f => Sys2Proof.Machine.execSar f s
  | .lop3 f => Sys2Proof.Machine.execLop3 f s
  | .bfe f => Sys2Proof.Machine.execBfe f s
  | .bfi f => Sys2Proof.Machine.execBfi f s
  | .popc f => Sys2Proof.Machine.execPopc f s
  | .clz f => Sys2Proof.Machine.execClz f s
  | .brev f => Sys2Proof.Machine.execBrev f s
  | .isetp f => Sys2Proof.Machine.execIsetp f s
  | .sel f => Sys2Proof.Machine.execSel f s
  | .mov f => Sys2Proof.Machine.execMov f s
  | .klog f => Sys2Proof.Machine.execKlog f s
  | .iadd64 f => Sys2Proof.Machine.execIadd64 f s
  | .isub64 f => Sys2Proof.Machine.execIsub64 f s
  | .imul64 f => Sys2Proof.Machine.execImul64 f s
  | .imad64 f => Sys2Proof.Machine.execImad64 f s
  | .imulhi64 f => Sys2Proof.Machine.execImulhi64 f s
  | .idivs64 f => Sys2Proof.Machine.execIdivs64 f s
  | .idivu64 f => Sys2Proof.Machine.execIdivu64 f s
  | .imin64 f => Sys2Proof.Machine.execImin64 f s
  | .imax64 f => Sys2Proof.Machine.execImax64 f s
  | .shl64 f => Sys2Proof.Machine.execShl64 f s
  | .shr64 f => Sys2Proof.Machine.execShr64 f s
  | .sar64 f => Sys2Proof.Machine.execSar64 f s
  | .isetp64 f => Sys2Proof.Machine.execIsetp64 f s
  | .mov64 f => Sys2Proof.Machine.execMov64 f s
  | .opadd f => Sys2Proof.Machine.execOpadd f s
  | .opdiff f => Sys2Proof.Machine.execOpdiff f s
  | .opmake f => Sys2Proof.Machine.execOpmake f s
  | .opext f => Sys2Proof.Machine.execOpext f s
  | .lea f => Sys2Proof.Machine.execLea f s
  | .fadd f => Sys2Proof.Machine.execFadd f s
  | .fmul f => Sys2Proof.Machine.execFmul f s
  | .ffma f => Sys2Proof.Machine.execFfma f s
  | .fmin f => Sys2Proof.Machine.execFmin f s
  | .fmax f => Sys2Proof.Machine.execFmax f s
  | .fsetp f => Sys2Proof.Machine.execFsetp f s
  | .frcp f => Sys2Proof.Machine.execFrcp f s
  | .frsq f => Sys2Proof.Machine.execFrsq f s
  | .fexp2 f => Sys2Proof.Machine.execFexp2 f s
  | .flog2 f => Sys2Proof.Machine.execFlog2 f s
  | .fsub f => Sys2Proof.Machine.execFsub f s
  | .pkadd f => Sys2Proof.Machine.execPkadd f s
  | .pkmul f => Sys2Proof.Machine.execPkmul f s
  | .pkfma f => Sys2Proof.Machine.execPkfma f s
  | .pkmin f => Sys2Proof.Machine.execPkmin f s
  | .pkmax f => Sys2Proof.Machine.execPkmax f s
  | .cvt f => Sys2Proof.Machine.execCvt f s
  | .cvt64 f => Sys2Proof.Machine.execCvt64 f s
  | .tpack f => Sys2Proof.Machine.execTpack f s
  | .tunpack f => Sys2Proof.Machine.execTunpack f s
  | .ld f => Sys2Proof.Machine.execLd f s
  | .st f => Sys2Proof.Machine.execSt f s
  | .ldo f => Sys2Proof.Machine.execLdo f s
  | .sto f => Sys2Proof.Machine.execSto f s
  | .ldAcq f => Sys2Proof.Machine.execLdAcq f s
  | .stRel f => Sys2Proof.Machine.execStRel f s
  | .ldoAcq f => Sys2Proof.Machine.execLdoAcq f s
  | .stoRel f => Sys2Proof.Machine.execStoRel f s
  | .ctag f => Sys2Proof.Machine.execCtag f s
  | .cfill f => Sys2Proof.Machine.execCfill f s
  | .cevict f => Sys2Proof.Machine.execCevict f s
  | .cevictWb f => Sys2Proof.Machine.execCevictWb f s
  | .cpres f => Sys2Proof.Machine.execCpres f s
  | .copy f => Sys2Proof.Machine.execCopy f s
  | .kick f => Sys2Proof.Machine.execKick f s
  | .oalloc f => Sys2Proof.Machine.execOalloc f s
  | .ofree f => Sys2Proof.Machine.execOfree f s
  | .opin f => Sys2Proof.Machine.execOpin f s
  | .ounpin f => Sys2Proof.Machine.execOunpin f s
  | .ocoloc f => Sys2Proof.Machine.execOcoloc f s
  | .ocolocLeave f => Sys2Proof.Machine.execOcolocLeave f s
  | .olocate f => Sys2Proof.Machine.execOlocate f s
  | .olocateGuess f => Sys2Proof.Machine.execOlocateGuess f s
  | .omigrate f => Sys2Proof.Machine.execOmigrate f s
  | .osplit f => Sys2Proof.Machine.execOsplit f s
  | .ostubfree f => Sys2Proof.Machine.execOstubfree f s
  | .oinfo f => Sys2Proof.Machine.execOinfo f s
  | .atomAdd f => Sys2Proof.Machine.execAtomAdd f s
  | .atomMin f => Sys2Proof.Machine.execAtomMin f s
  | .atomMax f => Sys2Proof.Machine.execAtomMax f s
  | .atomAnd f => Sys2Proof.Machine.execAtomAnd f s
  | .atomOr f => Sys2Proof.Machine.execAtomOr f s
  | .atomXor f => Sys2Proof.Machine.execAtomXor f s
  | .atomXchg f => Sys2Proof.Machine.execAtomXchg f s
  | .atomCas f => Sys2Proof.Machine.execAtomCas f s
  | .atomIncb f => Sys2Proof.Machine.execAtomIncb f s
  | .atomDecb f => Sys2Proof.Machine.execAtomDecb f s
  | .atomWcas f => Sys2Proof.Machine.execAtomWcas f s
  | .atomTadd f => Sys2Proof.Machine.execAtomTadd f s
  | .arrive f => Sys2Proof.Machine.execArrive f s
  | .arriveBytes f => Sys2Proof.Machine.execArriveBytes f s
  | .await f => Sys2Proof.Machine.execAwait f s
  | .fence f => Sys2Proof.Machine.execFence f s
  | .ballot f => Sys2Proof.Machine.execBallot f s
  | .shfl f => Sys2Proof.Machine.execShfl f s
  | .creduce f => Sys2Proof.Machine.execCreduce f s
  | .cscan f => Sys2Proof.Machine.execCscan f s
  | .cvote f => Sys2Proof.Machine.execCvote f s
  | .nbset f => Sys2Proof.Machine.execNbset f s
  | .mmag f => Sys2Proof.Machine.execMmag f s
  | .mmaq f => Sys2Proof.Machine.execMmaq f s
  | .mdrain f => Sys2Proof.Machine.execMdrain f s
  | .mdrainZonly f => Sys2Proof.Machine.execMdrainZonly f s
  | .gres f => Sys2Proof.Machine.execGres f s
  | .gcancel f => Sys2Proof.Machine.execGcancel f s
  | .tfetch f => Sys2Proof.Machine.execTfetch f s
  | .launchq f => Sys2Proof.Machine.execLaunchq f s
  | .xsend f => Sys2Proof.Machine.execXsend f s
  | .xfetch f => Sys2Proof.Machine.execXfetch f s
  | .xadd f => Sys2Proof.Machine.execXadd f s
  | .pumppost f => Sys2Proof.Machine.execPumppost f s
  | .pumppostCancel f => Sys2Proof.Machine.execPumppostCancel f s
  | .bra f => Sys2Proof.Machine.execBra f s
  | .brx f => Sys2Proof.Machine.execBrx f s
  | .callRelative f => Sys2Proof.Machine.execCallRelative f s
  | .callIndirect f => Sys2Proof.Machine.execCallIndirect f s
  | .ret f => Sys2Proof.Machine.execRet f s
  | .exit f => Sys2Proof.Machine.execExit f s
  | .wait f => Sys2Proof.Machine.execWait f s
  | .yield f => Sys2Proof.Machine.execYield f s
  | .nop f => Sys2Proof.Machine.execNop f s
  | .trap f => Sys2Proof.Machine.execTrap f s
  | .tret f => Sys2Proof.Machine.execTret f s
  | .tretSkip f => Sys2Proof.Machine.execTretSkip f s
  | .sread f => Sys2Proof.Machine.execSread f s
  | .swrite f => Sys2Proof.Machine.execSwrite f s
  | .tstamp f => Sys2Proof.Machine.execTstamp f s
  | .winopen f => Sys2Proof.Machine.execWinopen f s
  | .winrel f => Sys2Proof.Machine.execWinrel f s
  | .winacq f => Sys2Proof.Machine.execWinacq f s
  | .winclose f => Sys2Proof.Machine.execWinclose f s
  | .keyqEpoch f => Sys2Proof.Machine.execKeyqEpoch f s
  | .keyqWepoch f => Sys2Proof.Machine.execKeyqWepoch f s
  | .keyqReport f => Sys2Proof.Machine.execKeyqReport f s
  | .formBundle q => Sys2Proof.Machine.execFormBundle q s
  | .progressWatchdog c crew pc => Sys2Proof.Machine.execProgressWatchdog c crew pc s
  | .deferredFaultDelivery t => Sys2Proof.Machine.execDeferredFaultDelivery t s
  | .resourceWait t op => Sys2Proof.Machine.execResourceWait t op s
  | .waitExpiry t => Sys2Proof.Machine.execWaitExpiry t s
  | .exitDrainComplete t => Sys2Proof.Machine.execExitDrainComplete t s
  | .responseArrives op => Sys2Proof.Machine.execResponseArrives op s
  | .accessRequest op upset => Sys2Proof.Machine.execAccessRequest op upset s
  | .wellheadRequest op => Sys2Proof.Machine.execWellheadRequest op s
  | .served op => Sys2Proof.Machine.execServed op s
  | .noObject op => Sys2Proof.Machine.execNoObject op s
  | .faultResponse op => Sys2Proof.Machine.execFaultResponse op s
  | .retry op => Sys2Proof.Machine.execRetry op s
  | .translationWalk d page => Sys2Proof.Machine.execTranslationWalk d page s
  | .decayPeriod chip vf => Sys2Proof.Machine.execDecayPeriod chip vf s
  | .framesReserved mv die => Sys2Proof.Machine.execFramesReserved mv die s
  | .framesRefused mv => Sys2Proof.Machine.execFramesRefused mv s
  | .copyDoneCommit mv => Sys2Proof.Machine.execCopyDoneCommit mv s
  | .wellheadCommit mv => Sys2Proof.Machine.execWellheadCommit mv s
  | .commitAck mv => Sys2Proof.Machine.execCommitAck mv s
  | .copyChunkWrite op share => Sys2Proof.Machine.execCopyChunkWrite op share s
  | .copyComplete op => Sys2Proof.Machine.execCopyComplete op s
  | .kickRecordFetch op => Sys2Proof.Machine.execKickRecordFetch op s
  | .cfillLine op line => Sys2Proof.Machine.execCfillLine op line s
  | .cevictWbLine op => Sys2Proof.Machine.execCevictWbLine op s
  | .frameReceived chip frame => Sys2Proof.Machine.execFrameReceived chip frame s
  | .kickRegister op => Sys2Proof.Machine.execKickRegister op s
  | .lrcfgEnable op => Sys2Proof.Machine.execLrcfgEnable op s
  | .lrcfgDisable op => Sys2Proof.Machine.execLrcfgDisable op s
  | .lrconsWrite op => Sys2Proof.Machine.execLrconsWrite op s
  | .arrivalContribution msg => Sys2Proof.Machine.execArrivalContribution msg s
  | .matrixStep q => Sys2Proof.Machine.execMatrixStep q s
  | .rowCountReread q => Sys2Proof.Machine.execRowCountReread q s
  | .matrixDrain q => Sys2Proof.Machine.execMatrixDrain q s
  | .matrixCommandComplete op => Sys2Proof.Machine.execMatrixCommandComplete op s
  | .guardSlotResolve msg => Sys2Proof.Machine.execGuardSlotResolve msg s
  | .shadowCommit q shadow => Sys2Proof.Machine.execShadowCommit q shadow s
  | .pumpTransaction d turn => Sys2Proof.Machine.execPumpTransaction d turn s
  | .transferComplete op => Sys2Proof.Machine.execTransferComplete op s
  | .signalAtTarget msg => Sys2Proof.Machine.execSignalAtTarget msg s
  | .linkTimeout op => Sys2Proof.Machine.execLinkTimeout op s
  | .workEntryFire d slot => Sys2Proof.Machine.execWorkEntryFire d slot s
  | .workEntryRearm d slot => Sys2Proof.Machine.execWorkEntryRearm d slot s
  | .reductionSlotSum domain group => Sys2Proof.Machine.execReductionSlotSum domain group s
  | .srprod chip vf value => Sys2Proof.Machine.execSrprod chip vf value s
  | .packetConsume chip ring => Sys2Proof.Machine.execPacketConsume chip ring s
  | .cohortPlace chip part => Sys2Proof.Machine.execCohortPlace chip part s
  | .cohortEnd c => Sys2Proof.Machine.execCohortEnd c s
  | .gridEnd chip grid => Sys2Proof.Machine.execGridEnd chip grid s
  | .dispenserFetch op => Sys2Proof.Machine.execDispenserFetch op s
  | .sluiceTick chip => Sys2Proof.Machine.execSluiceTick chip s
  | .sluice chip vf value => Sys2Proof.Machine.execSluice chip vf value s
  | .qown q write => Sys2Proof.Machine.execQown q write s
  | .keyCommand chip blob => Sys2Proof.Machine.execKeyCommand chip blob s
  | .dramLineWriteback d turn => Sys2Proof.Machine.execDramLineWriteback d turn s
  | .windowScrubComplete chip grant => Sys2Proof.Machine.execWindowScrubComplete chip grant s
  | .preemptRequest chip vf => Sys2Proof.Machine.execPreemptRequest chip vf s
  | .deferralLimit chip vf => Sys2Proof.Machine.execDeferralLimit chip vf s
  | .handlerPreemptLimit t => Sys2Proof.Machine.execHandlerPreemptLimit t s
  | .contextSaved chip vf => Sys2Proof.Machine.execContextSaved chip vf s
  | .contextResume chip vf => Sys2Proof.Machine.execContextResume chip vf s
  | .vfctlKill chip vf => Sys2Proof.Machine.execVfctlKill chip vf s
  | .vfctlReset chip vf => Sys2Proof.Machine.execVfctlReset chip vf s
  | .killReclaim chip vf => Sys2Proof.Machine.execKillReclaim chip vf s
  | .dlctlRound chip vf => Sys2Proof.Machine.execDlctlRound chip vf s
  | .dlctlScan chip vf => Sys2Proof.Machine.execDlctlScan chip vf s
  | .coreRetire c loss => Sys2Proof.Machine.execCoreRetire c loss s
  | .dramSpare d bank unit => Sys2Proof.Machine.execDramSpare d bank unit s
  | .laneFailure d port => Sys2Proof.Machine.execLaneFailure d port s
  | .laneRetrainDone d port => Sys2Proof.Machine.execLaneRetrainDone d port s
  | .counterRebuild d block => Sys2Proof.Machine.execCounterRebuild d block s
  | .lockkeeperSramScrub chip upset => Sys2Proof.Machine.execLockkeeperSramScrub chip upset s
  | .heartbeat chip missed => Sys2Proof.Machine.execHeartbeat chip missed s
  | .takeOver chip => Sys2Proof.Machine.execTakeOver chip s
  | .lkupd chip image => Sys2Proof.Machine.execLkupd chip image s
  | .liveUpdateTakeover chip check => Sys2Proof.Machine.execLiveUpdateTakeover chip check s
  | .moduleReset boot => Sys2Proof.Machine.execModuleReset boot s
  | .thermalThreshold chip temp => Sys2Proof.Machine.execThermalThreshold chip temp s
  | .linkRekey d port => Sys2Proof.Machine.execLinkRekey d port s
  | .ptpMessage chip step => Sys2Proof.Machine.execPtpMessage chip step s
  | .registerWrite chip page offset value => Sys2Proof.Machine.execRegisterWrite chip page offset value s
  | .wellheadObjectRequest op => Sys2Proof.Machine.execWellheadObjectRequest op s
  | .storeCompletion op => Sys2Proof.Machine.execStoreCompletion op s
  | .reductionSlotReply op => Sys2Proof.Machine.execReductionSlotReply op s
  | .mkaMessage chip port => Sys2Proof.Machine.execMkaMessage chip port s

end Sys2Proof.Machine
end

