-- ==== Sys2Proof/Machine/Fetch.lean ====
section
/-! DEFINITION. What a step takes: the next turn, and the instruction word at which a bundle stands; and the placing of
one word where the next step issues it. -/

namespace Sys2Proof.Machine

/-- The next turn, and the state with its time passed: the head of State.turns, else the arbiter's (log 1). -/
def State.nextTurn (s : State) : Turn × State :=
  match s.turns with
  | t :: ts => (t, { s with turns := ts, now := s.now + t.ticks })
  | [] =>
    let t := Config.arbiter s.draws
    (t, { s with draws := s.draws + 1, now := s.now + t.ticks })

/-- The package that an agent's step belongs to. -/
def State.chipOf (s : State) (i : Instr) : Option Nat :=
  let ofOp := fun o => (s.op? o).map fun x => x.thread.cohort.chip
  match i with
  | .formBundle q | .matrixStep q | .rowCountReread q | .matrixDrain q | .shadowCommit q _ | .qown q _ => some q.chip
  | .progressWatchdog c _ _ | .cohortEnd c => some c.chip
  | .deferredFaultDelivery t | .resourceWait t _ | .waitExpiry t | .exitDrainComplete t | .handlerPreemptLimit t => some t.cohort.chip
  | .responseArrives o | .served o | .noObject o | .faultResponse o | .retry o | .copyChunkWrite o _ | .copyComplete o
  | .kickRecordFetch o | .cfillLine o _ | .cevictWbLine o | .kickRegister o | .lrcfgEnable o | .lrcfgDisable o
  | .lrconsWrite o | .matrixCommandComplete o | .transferComplete o | .linkTimeout o | .dispenserFetch o | .storeCompletion o
  | .reductionSlotReply o => ofOp o
  | .translationWalk d _ | .pumpTransaction d _ | .workEntryFire d _ | .workEntryRearm d _ | .dramLineWriteback d _
  | .dramSpare d _ _ | .laneFailure d _ | .laneRetrainDone d _ | .counterRebuild d _ | .linkRekey d _ => some d.chip
  | .coreRetire c _ => some c.chip
  | .decayPeriod c _ | .frameReceived c _ | .cohortPlace c _ | .gridEnd c _ | .srprod c _ _ | .packetConsume c _
  | .sluiceTick c | .sluice c _ _ | .keyCommand c _ | .windowScrubComplete c _ | .preemptRequest c _ | .deferralLimit c _
  | .contextSaved c _ | .contextResume c _ | .vfctlKill c _ | .vfctlReset c _ | .killReclaim c _ | .dlctlRound c _
  | .dlctlScan c _ | .lockkeeperSramScrub c _ | .heartbeat c _ | .takeOver c | .lkupd c _ | .liveUpdateTakeover c _
  | .thermalThreshold c _ | .ptpMessage c _ | .registerWrite c _ _ _ | .mkaMessage c _ => some c
  | .moduleReset b => some b.chip
  | _ => none

/-- Whether the package that acts has power (R418). -/
def State.powered (s : State) : Act → Bool
  | .issue q _ => (s.chip q.chip).off.isNone
  | .agent i => match s.chipOf i with
    | some c => (s.chip c).off.isNone
    | none => true

/-- The word at which a quadrant's bundle stands, decoded (R31, R61). -/
def State.fetchInstr (s : State) (q : QuadId) (slot : Nat) : Option Instr :=
  match Tab.get? (s.quad q).bundles slot with
  | none => none
  | some b =>
    match b.words[b.word]? with
    | none => none
    | some w => Instr.ofCode (opcOf w) (Fields.ofWord w (b.words.getD (b.word + 1) 0))

/-- The quadrant, cohort and thread of a placed word (log 10). -/
def placedQuad : QuadId := ⟨0, 0, 0, 0⟩
def placedThread : ThreadId := ⟨⟨0, 0, 0, 1⟩, 0⟩

/-- A launch record with every grant that an instruction may name (log 10). -/
def placedLaunch : Launch := { threads := 1, regs := 255, gslots := 16, tiles := 4, tagb := 16, ladder := 255, nbv := 2, rmode := 1, cstack := 64, priv' := 65536 }

/-- One thread of one cohort stands in flight at the word w, and its quadrant's turn comes next. -/
def State.placeWord (s : State) (w : DWord) : State :=
  let cls := classOf (opcOf w)
  let s := s.setQuad placedQuad { s.quad placedQuad with
    owner := some 0
    bundles := [(0, { threads := [placedThread], pc := mkPtr 0 1 0, cls := cls, crew := true, words := [w] })] }
  let s := s.setGrid 0 1 { s.grid 0 1 with launch := placedLaunch, state := .running, set' := [(0, 0)], placed := [(0, 0)] }
  let s := s.setCohort placedThread.cohort
    { threads := 1, quads := [0], slots := List.replicate 16 {}, tags := List.replicate 1024 {}, tiles := [(0, [0, 1, 2, 3])] }
  let s := s.setThread placedThread
    { quad := placedQuad, run := .issuing, pc := mkPtr 0 1 0, regs := List.replicate 255 0, rmode := 1, fresh := false }
  { s with turns := [{ ticks := 2, act := .issue placedQuad 0 }] }

end Sys2Proof.Machine
end

