-- ==== Sys2Proof/Machine/Step.lean ====
section
/-! DEFINITION. One step of the machine: the next turn is taken, time passes, and its agent moves. -/

namespace Sys2Proof.Machine

/-- The step. A turn of an issue stage runs the word at which its bundle stands; a turn of an agent runs that agent's
step. A package whose power has been removed moves no more (R418). -/
def step (s : State) : Host.Outcome State Fault Refusal :=
  let (turn, s) := s.nextTurn
  if !s.powered turn.act then .fault .powerLost
  else
    match turn.act with
    | .agent i => exec i s
    | .issue q slot =>
      match s.fetchInstr q slot with
      | none => .next s
      | some i => exec i { s with issuing := some (q, slot) }

/-- A state whose next step issues exactly the word with these bits: one thread's bundle stands at it in a clause of
its class, and the next turn is its quadrant's (log 10). -/
def State.withFetchWord (s : State) (nbits w : Nat) : State := s.placeWord (BitVec.ofNat 64 (w % 2 ^ nbits))

end Sys2Proof.Machine
end

