-- ==== Sys2Proof/Safety.lean ====
section
/-! DEFINITION. The terms that claims about the machine use: the invariant of every state, a word that a bundle issues, and
what its issue leaves unchanged. A run is safe where no step faults; the one fault is a package without power (R418). -/

namespace Sys2Proof.Machine

/-- The fields of a word whose bits other than its opcode are all zero (R48). -/
def noFields : Fields :=
  { ge := false, gs := false, gp := 0, form := 0, nwb := false, dst := 0, sa := 0, sb := 0, sc := 0, mod := 0, lit := 0 }

/-- The invariant: memory keeps its canonical form, so that equal memories are equal data. -/
def State.canonical (s : State) : Prop := Memory.wf s.mem = true

/-- The byte that memory holds at an address. -/
def State.byte (s : State) (a : Nat) : Byte := Memory.read s.mem a

/-- Bundle b in slot k of quadrant q stands at the word i and issues it now: no rule holds it (R31, R33, R39, R40, R239). -/
structure Issuing (s : State) (i : Instr) (f : Fields) (q : QuadId) (k : Nat) (b : Bundle) : Prop where
  turn    : s.issuing = some (q, k)
  bundle  : Tab.get? (s.quad q).bundles k = some b
  fields  : i.fields? = some f
  settled : b.waitOps = []
  whole   : b.rest = []
  once    : b.threads.Nodup
  running : ∀ t ∈ b.threads, (s.thread t).run = .issuing
  free    : ∀ t ∈ b.threads, (s.thread t).executes f = true → s.commonHold i t = false
  landed  : ∀ t ∈ b.threads, s.interlocked t (crossReads i) = false

/-- The bundle's threads that execute the word (R49). -/
def State.executing (s : State) (b : Bundle) (f : Fields) : List ThreadId := b.threads.filter fun t => (s.thread t).executes f

/-- s without the mark of the issuing bundle. -/
def State.quiet (s : State) : State := { s with issuing := none }

/-- The state after a word that gives each executing thread its new record: the word retires for them, and the bundle moves on
(R30, R31, R32). -/
def State.afterWord (s : State) (i : Instr) (q : QuadId) (k : Nat) (b : Bundle) (f : Fields) (g : ThreadId → Thread) : State :=
  ((s.executing b f).foldl (fun (s' : State) t => s'.setThread t (g t)) s.quiet).moveOn i q k (s.executing b f)

/-- One thread of the bundle executes the word. -/
structure IssuesAlone (s : State) (i : Instr) (f : Fields) (q : QuadId) (k : Nat) (b : Bundle) (t : ThreadId) : Prop
    extends Issuing s i f q k b where
  alone : s.executing b f = [t]

/-! ## Values of floating formats -/

/-- A finite value is the real a (R71 to R77). -/
def Val.is (v : Val) (a : ℝ) : Prop := ∃ neg m e, v = .fin neg m e ∧ a = (if neg then -1 else 1) * ((m : ℝ) * 2 ^ e)

/-- A value other than NaN is an extended real: an infinity of its sign, or a finite real (R75). -/
def Val.isExt (v : Val) (a : EReal) : Prop := (v = .inf false ∧ a = ⊤) ∨ (v = .inf true ∧ a = ⊥) ∨ ∃ b : ℝ, v.is b ∧ a = b

/-- Whether a mode rounds the magnitude of a real a, which lies between the values lo of an even or odd code and hi of the next, to the
upper one; r is the generator's new state in mode RS (R86, R87, R89). -/
def roundsUp (mode : Nat) (odd : Prop) (a lo hi : ℝ) (r : Nat) : Prop :=
  let t := (|a| - lo) / (hi - lo)
  (mode = 1 ∧ (1 / 2 < t ∨ t = 1 / 2 ∧ odd)) ∨ (mode = 3 ∧ 0 < a ∧ 0 < t) ∨ (mode = 4 ∧ a < 0 ∧ 0 < t) ∨ (mode = 5 ∧ 2 ^ 32 ≤ ⌊t * 2 ^ 32⌋₊ + r)

/-- The code is a real a other than zero rounded to FP32, FP16 or BF16: the code whose value lies next below its magnitude or the one
after it, as the mode chooses, with its sign; above the largest finite value an infinity or that value (R86 to R89). -/
def Rounds (fmt mode : Nat) (sat : Bool) (a : ℝ) (r code : Nat) : Prop :=
  let sign := if a < 0 then 2 ^ (fmtBits fmt - 1) else 0
  let inf := (2 ^ expBits fmt - 1) * 2 ^ fracBits fmt
  let beyond := sign + if sat ∨ mode = 2 ∨ (mode = 3 ∧ a < 0) ∨ (mode = 4 ∧ 0 < a) then inf - 1 else inf
  let top : ℝ := 2 ^ 2 ^ (expBits fmt - 1)
  (top ≤ |a| → code = beyond) ∧
  ∀ (c : Nat) (lo hi : ℝ), c < inf → (valOf fmt c).is lo → (c + 1 < inf → (valOf fmt (c + 1)).is hi) → (c + 1 = inf → hi = top) →
    lo ≤ |a| → |a| < hi →
    (¬ roundsUp mode (c % 2 = 1) a lo hi r → code = sign + c)
    ∧ (roundsUp mode (c % 2 = 1) a lo hi r → code = if c + 1 = inf then beyond else sign + (c + 1))

end Sys2Proof.Machine
end

