-- ==== Sys2Proof/Certificates/Slice0/Obligations.lean ====
section
/-! DEFINITION. The statements for the provers: what the numbered rules of the manual say an instruction, a step of an agent
or the machine as a whole does. -/

namespace Sys2Proof.Machine

/-! ## Shapes of register words -/

/-- A word of two 32-bit sources A and B: each executing thread gets r A B. -/
def Gives32 (mk : Fields → Instr) (f : Fields) (r : Word → Word → Word) : Prop :=
  ∀ (s : State) (q : QuadId) (k : Nat) (b : Bundle) (x y : ThreadId → Word), Issuing s (mk f) f q k b →
    (∀ t ∈ s.executing b f, s.a32 b t f = some (x t) ∧ (s.thread t).b32 f = some (y t)) →
    exec (mk f) s = .next (s.afterWord (mk f) q k b f fun t => (s.thread t).put32 f (r (x t) (y t)))

/-- A word of one 32-bit source A. -/
def Gives32One (mk : Fields → Instr) (f : Fields) (r : Word → Word) : Prop :=
  ∀ (s : State) (q : QuadId) (k : Nat) (b : Bundle) (x : ThreadId → Word), Issuing s (mk f) f q k b →
    (∀ t ∈ s.executing b f, s.a32 b t f = some (x t)) →
    exec (mk f) s = .next (s.afterWord (mk f) q k b f fun t => (s.thread t).put32 f (r (x t)))

/-- A word of three 32-bit sources A, B and C. -/
def Gives32Three (mk : Fields → Instr) (f : Fields) (r : Word → Word → Word → Word) : Prop :=
  ∀ (s : State) (q : QuadId) (k : Nat) (b : Bundle) (x y z : ThreadId → Word), Issuing s (mk f) f q k b →
    (∀ t ∈ s.executing b f, s.a32 b t f = some (x t) ∧ (s.thread t).b32 f = some (y t) ∧ (s.thread t).c32 f = some (z t)) →
    exec (mk f) s = .next (s.afterWord (mk f) q k b f fun t => (s.thread t).put32 f (r (x t) (y t) (z t)))

/-- A word of two 64-bit sources A and B: each executing thread gets r A B in a pair. -/
def Gives64 (mk : Fields → Instr) (f : Fields) (r : DWord → DWord → DWord) : Prop :=
  ∀ (s : State) (q : QuadId) (k : Nat) (b : Bundle) (x y : ThreadId → DWord), Issuing s (mk f) f q k b →
    (∀ t ∈ s.executing b f, s.a64 b t f = some (x t) ∧ (s.thread t).b64 f = some (y t)) →
    exec (mk f) s = .next (s.afterWord (mk f) q k b f fun t => (s.thread t).put64 f (r (x t) (y t)))

/-- A word of a 64-bit source A and a 32-bit source B. -/
def Gives64By32 (mk : Fields → Instr) (f : Fields) (r : DWord → Word → DWord) : Prop :=
  ∀ (s : State) (q : QuadId) (k : Nat) (b : Bundle) (x : ThreadId → DWord) (y : ThreadId → Word), Issuing s (mk f) f q k b →
    (∀ t ∈ s.executing b f, s.a64 b t f = some (x t) ∧ (s.thread t).b32 f = some (y t)) →
    exec (mk f) s = .next (s.afterWord (mk f) q k b f fun t => (s.thread t).put64 f (r (x t) (y t)))

/-- A word that writes a predicate with r of two 32-bit sources. -/
def GivesPred32 (mk : Fields → Instr) (f : Fields) (r : Word → Word → Bool) : Prop :=
  ∀ (s : State) (q : QuadId) (k : Nat) (b : Bundle) (x y : ThreadId → Word), Issuing s (mk f) f q k b →
    (∀ t ∈ s.executing b f, s.a32 b t f = some (x t) ∧ (s.thread t).b32 f = some (y t)) →
    exec (mk f) s = .next (s.afterWord (mk f) q k b f fun t => (s.thread t).setPred f.dst.toNat (r (x t) (y t)))

/-- A word that writes a predicate with r of two 64-bit sources. -/
def GivesPred64 (mk : Fields → Instr) (f : Fields) (r : DWord → DWord → Bool) : Prop :=
  ∀ (s : State) (q : QuadId) (k : Nat) (b : Bundle) (x y : ThreadId → DWord), Issuing s (mk f) f q k b →
    (∀ t ∈ s.executing b f, s.a64 b t f = some (x t) ∧ (s.thread t).b64 f = some (y t)) →
    exec (mk f) s = .next (s.afterWord (mk f) q k b f fun t => (s.thread t).setPred f.dst.toNat (r (x t) (y t)))

/-- A word that gives each executing thread a new record, computed from its own, wherever that is possible. -/
def Becomes (mk : Fields → Instr) (f : Fields) (r : State → Bundle → ThreadId → Thread → Option Thread) : Prop :=
  ∀ (s : State) (q : QuadId) (k : Nat) (b : Bundle) (y : ThreadId → Thread), Issuing s (mk f) f q k b →
    (∀ t ∈ s.executing b f, r s b t (s.thread t) = some (y t)) →
    exec (mk f) s = .next (s.afterWord (mk f) q k b f y)

end Sys2Proof.Machine

open Sys2Proof Sys2Proof.Machine

/-! ## Integer words -/

/-- R102: IADD and ISUB wrap, or saturate to INT32 or UINT32, in both widths. -/
def Obligations.AddAndSubtractWrapOrSaturate : Prop :=
  ∀ f : Fields,
    (f.ctl = 0 → Gives32 .iadd f (fun a b => a + b) ∧ Gives32 .isub f (fun a b => a - b)
      ∧ Gives64 .iadd64 f (fun a b => a + b) ∧ Gives64 .isub64 f (fun a b => a - b))
    ∧ (f.ctl = 1 → Gives32 .iadd f (fun a b => BitVec.ofInt 32 (max (-2 ^ 31) (min (2 ^ 31 - 1) (a.toInt + b.toInt))))
      ∧ Gives32 .isub f (fun a b => BitVec.ofInt 32 (max (-2 ^ 31) (min (2 ^ 31 - 1) (a.toInt - b.toInt))))
      ∧ Gives64 .iadd64 f (fun a b => BitVec.ofInt 64 (max (-2 ^ 63) (min (2 ^ 63 - 1) (a.toInt + b.toInt))))
      ∧ Gives64 .isub64 f (fun a b => BitVec.ofInt 64 (max (-2 ^ 63) (min (2 ^ 63 - 1) (a.toInt - b.toInt)))))
    ∧ (f.ctl = 2 → Gives32 .iadd f (fun a b => BitVec.ofNat 32 (min (2 ^ 32 - 1) (a.toNat + b.toNat)))
      ∧ Gives32 .isub f (fun a b => BitVec.ofNat 32 (a.toNat - b.toNat))
      ∧ Gives64 .iadd64 f (fun a b => BitVec.ofNat 64 (min (2 ^ 64 - 1) (a.toNat + b.toNat)))
      ∧ Gives64 .isub64 f (fun a b => BitVec.ofNat 64 (a.toNat - b.toNat)))

/-- R102: the products keep their low half, IMAD and IMAD.64 add C, and IMULHI gives the high half, signed or unsigned. -/
def Obligations.ProductsGiveLowAndHighHalves : Prop :=
  ∀ f : Fields,
    Gives32 .imul f (fun a b => a * b) ∧ Gives64 .imul64 f (fun a b => a * b)
    ∧ Gives32Three .imad f (fun a b c => a * b + c)
    ∧ Becomes .imad64 f (fun s b t x => (s.a64 b t f).bind fun u => (x.b64 f).bind fun v => (x.c64 f).map fun w => x.put64 f (u * v + w))
    ∧ (f.ctl = 1 → Gives32 .imulhi f (fun a b => (a.setWidth 64 * b.setWidth 64).extractLsb' 32 32)
      ∧ Gives64 .imulhi64 f (fun a b => (a.setWidth 128 * b.setWidth 128).extractLsb' 64 64))
    ∧ (f.ctl = 0 → Gives32 .imulhi f (fun a b => (a.signExtend 64 * b.signExtend 64).extractLsb' 32 32)
      ∧ Gives64 .imulhi64 f (fun a b => (a.signExtend 128 * b.signExtend 128).extractLsb' 64 64))

/-- R103: IDIVS and IDIVU give quotient and remainder; a zero divisor gives all ones and the dividend. -/
def Obligations.DivisionHasNoTrap : Prop :=
  ∀ f : Fields,
    (f.ctl = 0 → Gives32 .idivu f (fun a b => if b = 0 then 0xFFFFFFFF else a / b)
      ∧ Gives32 .idivs f (fun a b => if b = 0 then 0xFFFFFFFF else a.sdiv b)
      ∧ Gives64 .idivu64 f (fun a b => if b = 0 then 0xFFFFFFFFFFFFFFFF else a / b)
      ∧ Gives64 .idivs64 f (fun a b => if b = 0 then 0xFFFFFFFFFFFFFFFF else a.sdiv b))
    ∧ (f.ctl = 1 → Gives32 .idivu f (fun a b => if b = 0 then a else a % b)
      ∧ Gives32 .idivs f (fun a b => if b = 0 then a else a.srem b)
      ∧ Gives64 .idivu64 f (fun a b => if b = 0 then a else a % b)
      ∧ Gives64 .idivs64 f (fun a b => if b = 0 then a else a.srem b))

/-- R104: IMIN and IMAX give the smaller or larger source, signed, or unsigned under .U. -/
def Sys2Proof.Machine.MinimumAndMaximumChooseASource : Prop :=
  ∀ f : Fields,
    (f.ctl = 0 → Gives32 .imin f (fun a b => if a.sle b then a else b) ∧ Gives32 .imax f (fun a b => if b.sle a then a else b)
      ∧ Gives64 .imin64 f (fun a b => if a.sle b then a else b) ∧ Gives64 .imax64 f (fun a b => if b.sle a then a else b))
    ∧ (f.ctl = 1 → Gives32 .imin f (fun a b => if a ≤ b then a else b) ∧ Gives32 .imax f (fun a b => if b ≤ a then a else b)
      ∧ Gives64 .imin64 f (fun a b => if a ≤ b then a else b) ∧ Gives64 .imax64 f (fun a b => if b ≤ a then a else b))

/-- R105: an amount of the width or more gives 0, or copies of the sign bit; the amount is 32 bits in the .64 forms too. -/
def Sys2Proof.Machine.ShiftsPastTheWidthEmptyTheValue : Prop :=
  ∀ f : Fields,
    Gives32 .shl f (fun a n => if n.toNat ≥ 32 then 0 else BitVec.ofNat 32 (a.toNat * 2 ^ n.toNat))
    ∧ Gives32 .shr f (fun a n => BitVec.ofNat 32 (a.toNat / 2 ^ n.toNat))
    ∧ Gives32 .sar f (fun a n => a.sshiftRight (min n.toNat 32))
    ∧ Gives64By32 .shl64 f (fun a n => if n.toNat ≥ 64 then 0 else BitVec.ofNat 64 (a.toNat * 2 ^ n.toNat))
    ∧ Gives64By32 .shr64 f (fun a n => BitVec.ofNat 64 (a.toNat / 2 ^ n.toNat))
    ∧ Gives64By32 .sar64 f (fun a n => a.sshiftRight (min n.toNat 64))

/-- R104, R105: minima, maxima and shifts. -/
def Obligations.MinimaMaximaAndShifts : Prop :=
  MinimumAndMaximumChooseASource ∧ ShiftsPastTheWidthEmptyTheValue

/-- R106, R107, R108: each bit of LOP3 and KLOG is the table's bit for the three input bits; each bit of BFE and of BFI is the bit of
A, of its sign or of C that the position and the width say; POPC counts the one bits, CLZ the zero bits above the highest one bit, and
BREV reverses the bits. Each word completes with these results for every executing thread whose sources can be read. -/
def Obligations.LogicAndBitFieldResults : Prop :=
  ∀ f : Fields,
    let pos := fun (b : Word) => b.toNat % 256
    let width := fun (b : Word) => min 32 (b.toNat / 256 % 256)
    (∃ r : Word → Word → Word → Word → Word,
      Becomes .lop3 f (fun s b t x => (s.a32 b t f).bind fun u => (x.b32 f).bind fun v => (x.c32 f).bind fun w => (x.old32 f).map fun d =>
        x.put32 f (r u v w d))
      ∧ ∀ (u v w d : Word) (j : Nat), j < 32 →
        (r u v w d).getLsbD j = v.getLsbD ((u.getLsbD j).toNat + 2 * (w.getLsbD j).toNat + 4 * (d.getLsbD j).toNat))
    ∧ Becomes .klog f (fun _ _ _ x => (x.b32 f).map fun v => x.setPred f.dst.toNat
        (v.getLsbD ((x.pred f.sa.toNat).toNat + 2 * (x.pred f.sc.toNat).toNat + 4 * (x.pred f.dst.toNat).toNat)))
    ∧ (∃ r : Word → Word → Word, Gives32 .bfe f r ∧ ∀ (a b : Word) (j : Nat), j < 32 →
        (f.ctl ≠ 1 → (r a b).getLsbD j = (decide (j < width b) && decide (pos b + j ≤ 31) && a.getLsbD (pos b + j)))
        ∧ (f.ctl = 1 → (r a b).getLsbD j = (decide (width b ≠ 0) && a.getLsbD (min 31 (pos b + min j (width b - 1))))))
    ∧ (∃ r : Word → Word → Word → Word, Gives32Three .bfi f r ∧ ∀ (a b c : Word) (j : Nat), j < 32 →
        (r a b c).getLsbD j = if pos b ≤ j ∧ j < pos b + width b then a.getLsbD (j - pos b) else c.getLsbD j)
    ∧ Gives32One .popc f (fun a => BitVec.ofNat 32 ((List.range 32).filter fun j => a.getLsbD j).length)
    ∧ Gives32One .clz f (fun a => BitVec.ofNat 32 ((List.range 32).filter fun j => a.toNat / 2 ^ j = 0).length)
    ∧ (∃ r : Word → Word, Gives32One .brev f r ∧ ∀ (a : Word) (j : Nat), j < 32 → (r a).getLsbD j = a.getLsbD (31 - j))

/-- R109: ISETP and ISETP.64 write the predicate that the relation of their code gives. -/
def Sys2Proof.Machine.ComparisonsWritePredicates : Prop :=
  ∀ f : Fields,
    (f.ctl = 0 → GivesPred32 .isetp f (fun a b => decide (a = b)) ∧ GivesPred64 .isetp64 f (fun a b => decide (a = b)))
    ∧ (f.ctl = 1 → GivesPred32 .isetp f (fun a b => a.slt b) ∧ GivesPred64 .isetp64 f (fun a b => a.slt b))
    ∧ (f.ctl = 2 → GivesPred32 .isetp f (fun a b => a.sle b) ∧ GivesPred64 .isetp64 f (fun a b => a.sle b))
    ∧ (f.ctl = 3 → GivesPred32 .isetp f (fun a b => b.slt a) ∧ GivesPred64 .isetp64 f (fun a b => b.slt a))
    ∧ (f.ctl = 4 → GivesPred32 .isetp f (fun a b => b.sle a) ∧ GivesPred64 .isetp64 f (fun a b => b.sle a))
    ∧ (f.ctl = 5 → GivesPred32 .isetp f (fun a b => decide (a ≠ b)) ∧ GivesPred64 .isetp64 f (fun a b => decide (a ≠ b)))
    ∧ (f.ctl = 9 → GivesPred32 .isetp f (fun a b => a.ult b) ∧ GivesPred64 .isetp64 f (fun a b => a.ult b))
    ∧ (f.ctl = 10 → GivesPred32 .isetp f (fun a b => a.ule b) ∧ GivesPred64 .isetp64 f (fun a b => a.ule b))
    ∧ (f.ctl = 11 → GivesPred32 .isetp f (fun a b => b.ult a) ∧ GivesPred64 .isetp64 f (fun a b => b.ult a))
    ∧ (f.ctl = 12 → GivesPred32 .isetp f (fun a b => b.ule a) ∧ GivesPred64 .isetp64 f (fun a b => b.ule a))

/-- R110, R111: SEL chooses by its predicate; MOV and MOV.64 copy A in FORM 00, and B in the other forms. -/
def Sys2Proof.Machine.SelectAndMoveCopyASource : Prop :=
  ∀ f : Fields,
    Becomes .sel f (fun s b t x => (s.a32 b t f).bind fun u => (x.b32 f).map fun v => x.put32 f (if x.pred f.sc.toNat then u else v))
    ∧ Becomes .mov f (fun s b t x => if f.form = 0 then (s.a32 b t f).map (x.put32 f) else (x.b32 f).map (x.put32 f))
    ∧ Becomes .mov64 f (fun s b t x => if f.form = 0 then (s.a64 b t f).map (x.put64 f) else (x.b64 f).map (x.put64 f))

/-- R109 to R111: comparisons, selections and moves. -/
def Obligations.ComparisonsSelectionsAndMoves : Prop :=
  ComparisonsWritePredicates ∧ SelectAndMoveCopyASource

/-- R112, R113, R114: pointer arithmetic keeps BIRTH and SERIAL and moves OFFSET; OPDIFF needs the same object, and OPMAKE
and OPEXT join and take apart the three fields. -/
def Obligations.PointerArithmeticKeepsTheObject : Prop :=
  ∀ f : Fields,
    Becomes .opadd f (fun s b t x => (s.a64 b t f).bind fun p => (x.b32 f).bind fun v =>
      if f.ctl = 1 ∨ (0 ≤ (offsetOf p : Int) + v.toInt ∧ (offsetOf p : Int) + v.toInt < 2 ^ 30) then
        some (x.put64 f (mkPtr (birthOf p) (serialOf p) (((offsetOf p : Int) + v.toInt) % 2 ^ 30).toNat)) else none)
    ∧ Becomes .lea f (fun s b t x => (s.a64 b t f).bind fun p => (x.b32 f).bind fun v =>
      let d : Int := (if f.ctl / 8 % 2 = 1 then (v.toNat : Int) else v.toInt) * 2 ^ (f.ctl % 8)
      if f.ctl / 16 % 2 = 1 ∨ (0 ≤ (offsetOf p : Int) + d ∧ (offsetOf p : Int) + d < 2 ^ 30) then
        some (x.put64 f (mkPtr (birthOf p) (serialOf p) (((offsetOf p : Int) + d) % 2 ^ 30).toNat)) else none)
    ∧ Becomes .opdiff f (fun s b t x => (s.a64 b t f).bind fun p => (x.b64 f).bind fun r =>
      if birthOf p = birthOf r ∧ serialOf p = serialOf r then
        some (x.put32 f (BitVec.ofInt 32 ((offsetOf p : Int) - offsetOf r))) else none)
    ∧ Becomes .opmake f (fun s b t x => (s.a32 b t f).bind fun u => (x.b32 f).bind fun v => (x.c32 f).bind fun w =>
      if u.toNat < 2 ^ 12 ∧ v.toNat < 2 ^ 22 ∧ w.toNat < 2 ^ 30 then
        some (x.put64 f (BitVec.ofNat 64 (u.toNat * 2 ^ 52 + v.toNat * 2 ^ 30 + w.toNat))) else none)
    ∧ (f.ctl = 0 → Becomes .opext f (fun s b t x => (s.a64 b t f).map fun p => x.put32 f (BitVec.ofNat 32 (offsetOf p))))
    ∧ (f.ctl = 1 → Becomes .opext f (fun s b t x => (s.a64 b t f).map fun p => x.put32 f (BitVec.ofNat 32 (serialOf p))))
    ∧ (f.ctl = 2 → Becomes .opext f (fun s b t x => (s.a64 b t f).map fun p => x.put32 f (BitVec.ofNat 32 (birthOf p))))

/-! ## Floating-point words -/

open Sys2Proof Sys2Proof.Machine

/-- R76, R86 to R89, R91, R115, R116, R119: a rounding word uses its mode field, or %rmode where the field is 0; in mode RS it takes one
generator step and rounds with the new state. The values that FADD, FSUB, FMUL and FFMA deliver are the exact real sum, difference,
product and x × y + z, rounded once: the encoding next below or above in magnitude, as the mode chooses, and infinity or the greatest
finite value beyond the range; NaN, infinite and zero operands give the results of the rule. FRCP and FRSQ round the exact 1/x
and 1/√x; they, FEXP2 and FLOG2 give the special results of their table, and an exact result for powers of two and integers in range.
Each word completes with its result for every executing thread whose sources can be read. -/
def Obligations.FloatingWordsRoundTheExactResultOnce : Prop :=
  (∀ f : Fields,
    let two := fun (g : Nat → Bool → Nat → Nat → Nat → Nat) (s : State) (b : Bundle) (t : ThreadId) (x : Thread) =>
      (s.aF b t f).bind fun u => (x.bF f).map fun v =>
        let m := if f.ctl % 8 = 0 then x.rmode.toNat else f.ctl % 8
        if m = 5 then { x with srseed := xsNext x.srseed }.put32 f (BitVec.ofNat 32 (g 5 (f.ctl / 8 % 2 = 1) u.toNat v.toNat (xsNext x.srseed).toNat))
        else x.put32 f (BitVec.ofNat 32 (g m (f.ctl / 8 % 2 = 1) u.toNat v.toNat 0))
    let one := fun (g : Nat → Bool → Nat → Nat → Nat) (s : State) (b : Bundle) (t : ThreadId) (x : Thread) =>
      (s.aF b t f).map fun u =>
        let m := if f.ctl % 8 = 0 then x.rmode.toNat else f.ctl % 8
        if m = 5 then { x with srseed := xsNext x.srseed }.put32 f (BitVec.ofNat 32 (g 5 (f.ctl / 8 % 2 = 1) u.toNat (xsNext x.srseed).toNat))
        else x.put32 f (BitVec.ofNat 32 (g m (f.ctl / 8 % 2 = 1) u.toNat 0))
    Becomes .fadd f (two fun m sat x y r => deliver 0 m sat (addVal m (valOf 0 x) (valOf 0 y)) r)
    ∧ Becomes .fsub f (two fun m sat x y r => deliver 0 m sat (addVal m (valOf 0 x) (negVal (valOf 0 y))) r)
    ∧ Becomes .fmul f (two fun m sat x y r => deliver 0 m sat (mulVal (valOf 0 x) (valOf 0 y)) r)
    ∧ Becomes .frcp f (one frcpBits) ∧ Becomes .frsq f (one frsqBits) ∧ Becomes .fexp2 f (one fexp2Bits) ∧ Becomes .flog2 f (one flog2Bits)
    ∧ Becomes .ffma f (fun s b t x => (s.aF b t f).bind fun u => (x.bF f).bind fun v => (x.cF f).map fun w =>
      let z := fun r => BitVec.ofNat 32 (deliver 0 x.rmode.toNat false (addVal x.rmode.toNat (mulVal (valOf 0 u.toNat) (valOf 0 v.toNat)) (valOf 0 w.toNat)) r)
      if x.rmode = 5 then { x with srseed := xsNext x.srseed }.put32 f (z (xsNext x.srseed).toNat) else x.put32 f (z 0)))
  ∧ (∀ (mode : Nat) (x y : Val) (a b : ℝ), x.is a → y.is b → (addVal mode x y).is (a + b) ∧ (mulVal x y).is (a * b) ∧ (negVal x).is (-a))
  ∧ (∀ (mode r : Nat) (sat : Bool) (v : Val) (a : ℝ), v.is a → a ≠ 0 → Rounds 0 mode sat a r (deliver 0 mode sat v r))
  ∧ (∀ (mode r x : Nat) (sat : Bool) (a : ℝ), (valOf 0 x).is a →
      (a ≠ 0 → Rounds 0 mode sat a⁻¹ r (frcpBits mode sat x r)) ∧ (0 < a → Rounds 0 mode sat (√a)⁻¹ r (frsqBits mode sat x r)))
  ∧ (∀ (mode r m n : Nat) (sat p q : Bool) (e k : Int) (v : Val),
      deliver 0 mode sat .nan r = 0x7FC00000
      ∧ deliver 0 mode sat (.inf p) r = (if p then 2 ^ 31 else 0) + (if sat then 0x7F7FFFFF else 0x7F800000)
      ∧ deliver 0 mode sat (.fin p 0 e) r = (if p then 2 ^ 31 else 0)
      ∧ addVal mode .nan v = .nan ∧ addVal mode v .nan = .nan ∧ mulVal .nan v = .nan ∧ mulVal v .nan = .nan
      ∧ addVal mode (.inf p) (.inf q) = (if p = q then .inf p else .nan)
      ∧ addVal mode (.inf p) (.fin q n k) = .inf p ∧ addVal mode (.fin q n k) (.inf p) = .inf p
      ∧ mulVal (.inf p) (.inf q) = .inf (p != q)
      ∧ mulVal (.inf p) (.fin q n k) = (if n = 0 then .nan else .inf (p != q)) ∧ mulVal (.fin q n k) (.inf p) = (if n = 0 then .nan else .inf (p != q))
      ∧ addVal mode (.fin p m e) (.fin (!p) m e) = .fin (decide (mode = 4)) 0 0
      ∧ addVal mode (.fin p 0 e) (.fin q 0 k) = .fin (if p = q then p else decide (mode = 4)) 0 0
      ∧ mulVal (.fin p 0 e) (.fin q n k) = .fin (p != q) 0 (e + k) ∧ mulVal (.fin p m e) (.fin q 0 k) = .fin (p != q) 0 (e + k))
  ∧ (∀ (mode r k : Nat) (sat : Bool), 1 ≤ mode → mode ≤ 5 → r < 2 ^ 32 →
      let int := fun (neg : Bool) (m : Nat) => convertVal 0 1 false (.fin neg m 0) 0
      (1 ≤ k → k ≤ 253 → frcpBits mode sat (k * 2 ^ 23) r = (254 - k) * 2 ^ 23
        ∧ flog2Bits mode sat (k * 2 ^ 23) r = int (decide (k < 127)) (if k < 127 then 127 - k else k - 127))
      ∧ (k ≤ 62 → frsqBits mode sat ((127 + 2 * k) * 2 ^ 23) r = (127 - k) * 2 ^ 23 ∧ frsqBits mode sat ((127 - 2 * k) * 2 ^ 23) r = (127 + k) * 2 ^ 23)
      ∧ (k ≤ 126 → fexp2Bits mode sat (int false k) r = (127 + k) * 2 ^ 23 ∧ fexp2Bits mode sat (int true k) r = (127 - k) * 2 ^ 23))
  ∧ (∀ (mode x r : Nat) (sat : Bool), isNan 0 x = true →
      frcpBits mode sat x r = 0x7FC00000 ∧ frsqBits mode sat x r = 0x7FC00000 ∧ fexp2Bits mode sat x r = 0x7FC00000 ∧ flog2Bits mode sat x r = 0x7FC00000)
  ∧ (∀ (mode r : Nat) (sat : Bool),
      let inf := if sat then 0x7F7FFFFF else 0x7F800000
      let negInf := if sat then 0xFF7FFFFF else 0xFF800000
      frcpBits mode sat 0 r = inf ∧ frcpBits mode sat 0x80000000 r = negInf ∧ frcpBits mode sat 0x7F800000 r = 0 ∧ frcpBits mode sat 0xFF800000 r = 0x80000000
      ∧ frsqBits mode sat 0 r = inf ∧ frsqBits mode sat 0x80000000 r = negInf ∧ frsqBits mode sat 0x7F800000 r = 0 ∧ frsqBits mode sat 0xFF800000 r = 0x7FC00000
      ∧ fexp2Bits mode sat 0 r = 0x3F800000 ∧ fexp2Bits mode sat 0x80000000 r = 0x3F800000 ∧ fexp2Bits mode sat 0x7F800000 r = inf ∧ fexp2Bits mode sat 0xFF800000 r = 0
      ∧ flog2Bits mode sat 0 r = negInf ∧ flog2Bits mode sat 0x80000000 r = negInf ∧ flog2Bits mode sat 0x7F800000 r = inf
      ∧ flog2Bits mode sat 0xFF800000 r = 0x7FC00000 ∧ flog2Bits mode sat 0x3F800000 r = 0)
  ∧ (∀ (mode x m r : Nat) (e : Int) (sat : Bool), valOf 0 x = .fin true m e → m ≠ 0 →
      frsqBits mode sat x r = 0x7FC00000 ∧ flog2Bits mode sat x r = 0x7FC00000)

/-- R119: FEXP2 and FLOG2 of a finite input give the exact 2^x and log2 x rounded once: of an integer and of a power of two always; of any
other input where the bounds of some precision that the model tries agree on the bits that rounding looks at. That they do for every input
is presumed (log 64). -/
def Obligations.ExponentialsAndLogarithmsRoundTheirExactValue : Prop :=
  (∀ (mode r x m : Nat) (sat neg : Bool) (e : Int) (a : ℝ), valOf 0 x = .fin neg m e → (valOf 0 x).is a →
    let d := (-e).toNat
    let f := (((if neg then -1 else 1) * ((m : Int) * 2 ^ e.toNat)) % 2 ^ d).toNat
    (f = 0 ∨ ∀ s < 56, ∃ p ∈ precisions, (exp2Bounds (p + s) f d).1 / 2 ^ p = (exp2Bounds (p + s) f d).2 / 2 ^ p) →
    Rounds 0 mode sat (2 ^ a) r (fexp2Bits mode sat x r))
  ∧ (∀ (mode r x m : Nat) (sat : Bool) (e : Int) (a : ℝ), valOf 0 x = .fin false m e → (valOf 0 x).is a → 0 < a → a ≠ 1 →
    let l := Nat.log2 m + e
    let whole := fun (q : Nat) => l.natAbs * 2 ^ q
    (m = 2 ^ Nat.log2 m ∨ ∀ k < 80, ∃ p ∈ precisions,
      let b := log2Bounds (p + k) m
      if l < 0 then (whole (p + k) - b.2) / 2 ^ p = (whole (p + k) - b.1) / 2 ^ p else (whole (p + k) + b.1) / 2 ^ p = (whole (p + k) + b.2) / 2 ^ p) →
    Rounds 0 mode sat (Real.logb 2 a) r (flog2Bits mode sat x r))

/-- R117, R118, R120: FMIN and FMAX give the encoding of the lesser and of the greater value, the other operand beside a NaN, the
canonical NaN for two, and order −0 below +0, in FP32 and in the packed formats; FSETP's codes compare the exact values, find zeros
equal, and of unordered operands only codes 8 to 14 are true. -/
def Sys2Proof.Machine.FloatMinimumMaximumAndCompare : Prop :=
  (∀ f : Fields,
    Becomes .fmin f (fun s b t x => (s.aF b t f).bind fun u => (x.bF f).map fun v => x.put32 f (BitVec.ofNat 32 (fminBits 0 u.toNat v.toNat)))
    ∧ Becomes .fmax f (fun s b t x => (s.aF b t f).bind fun u => (x.bF f).map fun v => x.put32 f (BitVec.ofNat 32 (fmaxBits 0 u.toNat v.toNat)))
    ∧ Becomes .fsetp f (fun s b t x => (s.aF b t f).bind fun u => (x.bF f).map fun v => x.setPred f.dst.toNat (fcompare f.ctl u.toNat v.toNat)))
  ∧ (∀ x y : Nat, isNan 0 x = true → isNan 0 y = false → fminBits 0 x y = y ∧ fmaxBits 0 x y = y ∧ fminBits 0 y x = y ∧ fmaxBits 0 y x = y)
  ∧ (∀ x y : Nat, isNan 0 x = true → isNan 0 y = true → fminBits 0 x y = 0x7FC00000 ∧ fmaxBits 0 x y = 0x7FC00000)
  ∧ fminBits 0 0 0x80000000 = 0x80000000 ∧ fmaxBits 0 0x80000000 0 = 0
  ∧ (∀ (fmt x y : Nat) (a b : EReal), fmt < 3 → x < 2 ^ fmtBits fmt → y < 2 ^ fmtBits fmt → (valOf fmt x).isExt a → (valOf fmt y).isExt b → a < b →
      fminBits fmt x y = x ∧ fmaxBits fmt x y = y ∧ fminBits fmt y x = x ∧ fmaxBits fmt y x = y)
  ∧ (∀ (x y k : Nat) (a b : EReal), k = 0 ∨ k = 8 → x < 2 ^ 32 → y < 2 ^ 32 → (valOf 0 x).isExt a → (valOf 0 y).isExt b →
      (fcompare k x y = true ↔ a = b) ∧ (fcompare (k + 1) x y = true ↔ a < b) ∧ (fcompare (k + 2) x y = true ↔ a ≤ b)
      ∧ (fcompare (k + 3) x y = true ↔ b < a) ∧ (fcompare (k + 4) x y = true ↔ b ≤ a) ∧ (fcompare (k + 5) x y = true ↔ a ≠ b))
  ∧ (∀ c x y : Nat, isNan 0 x = true ∨ isNan 0 y = true → (c < 7 → fcompare c x y = false) ∧ (8 ≤ c → c < 15 → fcompare c x y = true))
  ∧ fcompare 0 0 0x80000000 = true ∧ (∀ x y : Nat, fcompare 6 x y = !(isNan 0 x || isNan 0 y) ∧ fcompare 14 x y = (isNan 0 x || isNan 0 y))

/-- R120: a packed word works on two 16-bit elements, with B's elements exchanged under .XB; in mode RS element 0 takes the
first of two generator steps. Each element of PKADD, PKMUL and PKFMA is the exact real sum, product or x × y + d rounded once
in its format. -/
def Sys2Proof.Machine.PackedWordsWorkElementByElement : Prop :=
  (∀ f : Fields,
    let fmt := if f.ctl % 2 = 1 then 2 else 1
    let round := fun (x : Thread) (u v d : Word) (g : Nat → Nat → Nat → Nat → Nat → Nat) =>
      let m := if f.ctl / 2 % 8 = 0 then x.rmode.toNat else f.ctl / 2 % 8
      let v := if f.ctl / 32 % 2 = 1 then v.rotateLeft 16 else v
      let s1 := xsNext x.srseed
      let s2 := xsNext s1
      let y := if m = 5 then { x with srseed := s2 } else x
      y.put32 f (BitVec.ofNat 32
        (g m (u.toNat % 2 ^ 16) (v.toNat % 2 ^ 16) (d.toNat % 2 ^ 16) (if m = 5 then s1.toNat else 0)
          + 65536 * g m (u.toNat / 2 ^ 16 % 2 ^ 16) (v.toNat / 2 ^ 16 % 2 ^ 16) (d.toNat / 2 ^ 16 % 2 ^ 16) (if m = 5 then s2.toNat else 0)))
    let pick := fun (x : Thread) (u v : Word) (g : Nat → Nat → Nat) =>
      let v := if f.ctl / 2 % 2 = 1 then v.rotateLeft 16 else v
      x.put32 f (BitVec.ofNat 32 (g (u.toNat % 2 ^ 16) (v.toNat % 2 ^ 16) + 65536 * g (u.toNat / 2 ^ 16 % 2 ^ 16) (v.toNat / 2 ^ 16 % 2 ^ 16)))
    let sat := decide (f.ctl / 16 % 2 = 1)
    Becomes .pkadd f (fun s b t x => (s.aPk b t f fmt).bind fun u => (x.bPk f fmt).map fun v => round x u v 0 fun m p q _ r => faddBits fmt m sat p q r)
    ∧ Becomes .pkmul f (fun s b t x => (s.aPk b t f fmt).bind fun u => (x.bPk f fmt).map fun v => round x u v 0 fun m p q _ r => fmulBits fmt m sat p q r)
    ∧ Becomes .pkfma f (fun s b t x => (s.aPk b t f fmt).bind fun u => (x.bPk f fmt).bind fun v => (x.old32 f).map fun d =>
        round x u v d fun m p q e r => ffmaBits fmt m sat p q e r)
    ∧ Becomes .pkmin f (fun s b t x => (s.aPk b t f fmt).bind fun u => (x.bPk f fmt).map fun v => pick x u v (fminBits fmt))
    ∧ Becomes .pkmax f (fun s b t x => (s.aPk b t f fmt).bind fun u => (x.bPk f fmt).map fun v => pick x u v (fmaxBits fmt)))
  ∧ (∀ (fmt mode x y z r : Nat) (sat : Bool) (a b c : ℝ), fmt < 3 → (valOf fmt x).is a → (valOf fmt y).is b → (valOf fmt z).is c →
      (a + b ≠ 0 → Rounds fmt mode sat (a + b) r (faddBits fmt mode sat x y r))
      ∧ (a * b ≠ 0 → Rounds fmt mode sat (a * b) r (fmulBits fmt mode sat x y r))
      ∧ (a * b + c ≠ 0 → Rounds fmt mode sat (a * b + c) r (ffmaBits fmt mode sat x y z r)))
  ∧ (∀ (fmt mode x y z r : Nat) (sat : Bool), fmt = 1 ∨ fmt = 2 → isNan fmt x = true →
      let nan := if fmt = 1 then 0x7E00 else 0x7FC0
      faddBits fmt mode sat x y r = nan ∧ faddBits fmt mode sat y x r = nan ∧ fmulBits fmt mode sat x y r = nan ∧ fmulBits fmt mode sat y x r = nan
      ∧ ffmaBits fmt mode sat x y z r = nan ∧ ffmaBits fmt mode sat y x z r = nan ∧ ffmaBits fmt mode sat y z x r = nan
      ∧ (isNan fmt y = false → fminBits fmt x y = y ∧ fmaxBits fmt x y = y ∧ fminBits fmt y x = y ∧ fmaxBits fmt y x = y)
      ∧ (isNan fmt y = true → fminBits fmt x y = nan ∧ fmaxBits fmt x y = nan))

/-- R117, R118, R120: minima, maxima and comparisons of floating values, and packed words. -/
def Obligations.FloatComparisonsAndPackedWords : Prop :=
  FloatMinimumMaximumAndCompare ∧ PackedWordsWorkElementByElement

/-- R74, R76, R86 to R89, R92, R121 to R123: CVT and CVT.64 convert between the formats of SA; TPACK
replaces one element of B and keeps the others, and TUNPACK gives an element's exact value in FP32. A real other than zero converts to
FP32, FP16 or BF16 rounded once, and to an integer format as one of the two integers beside its magnitude, as the mode chooses, clamped to the
format's range; an integer converts to an integer format modulo 2^n, or clamped under .SAT; a NaN gives the canonical NaN, or 0. -/
def Obligations.ConversionsBetweenFormats : Prop :=
  (∀ f : Fields,
    let src := f.sa.toNat / 16 % 16
    let dst := f.sa.toNat % 16
    let sat := decide (f.sa.toNat / 256 % 2 = 1)
    let put := fun (x : Thread) (w : Nat) => if dst ≥ 14 then x.put64 f (BitVec.ofNat 64 (placeIn dst w)) else x.put32 f (BitVec.ofNat 32 (placeIn dst w))
    let conv := fun (_ : State) (_ : Bundle) (_ : ThreadId) (x : Thread) => (x.cvtSource f src).map fun v =>
      if src ≥ 8 ∧ dst ≥ 8 then put x (convertInt src dst sat v)
      else
        let m := if f.ctl % 8 = 0 then x.rmode.toNat else f.ctl % 8
        if m = 5 then put { x with srseed := xsNext x.srseed } (convertVal dst 5 sat (valOf src v) (xsNext x.srseed).toNat)
        else put x (convertVal dst m sat (valOf src v) 0)
    Becomes .cvt f conv ∧ Becomes .cvt64 f conv
    ∧ Becomes .tpack f (fun s b t x => (s.aF b t f).bind fun u => (x.b32 f).map fun v =>
        let fmt := packFmt f.ctl
        let n := fmtBits fmt
        let lo := n * (f.ctl / 4 % 8)
        let m := if f.ctl / 32 % 8 = 0 then x.rmode.toNat else f.ctl / 32 % 8
        let y := if m = 5 then { x with srseed := xsNext x.srseed } else x
        let e := convertVal fmt m (f.ctl / 256 % 2 = 1) (valOf 0 u.toNat) (if m = 5 then (xsNext x.srseed).toNat else 0)
        let w := v.toNat % 2 ^ lo + e * 2 ^ lo + v.toNat / 2 ^ (lo + n) * 2 ^ (lo + n)
        y.put32 f (BitVec.ofNat 32 (if fmt = 5 then w % 2 ^ 30 else w)))
    ∧ Becomes .tunpack f (fun s b t x => (s.a32 b t f).map fun u =>
        let fmt := packFmt f.ctl
        x.put32 f (BitVec.ofNat 32 (convertVal 0 1 false (valOf fmt (u.toNat / 2 ^ (fmtBits fmt * (f.ctl / 4 % 8)))) 0))))
  ∧ (∀ (fmt mode r : Nat) (sat : Bool) (v : Val) (a : ℝ), fmt < 3 → v.is a → a ≠ 0 → Rounds fmt mode sat a r (convertVal fmt mode sat v r))
  ∧ (∀ (dst mode r u : Nat) (sat : Bool) (v : Val) (a : ℝ), 8 ≤ dst → dst < 16 → v.is a → a ≠ 0 →
      let n := fmtBits dst
      let c := ⌊|a|⌋₊
      (roundsUp mode (c % 2 = 1) a c (c + 1) r → u = c + 1) → (¬ roundsUp mode (c % 2 = 1) a c (c + 1) r → u = c) →
      ((convertVal dst mode sat v r : Nat) : Int)
        = (max (if dst % 2 = 0 then -2 ^ (n - 1) else 0) (min (if dst % 2 = 0 then 2 ^ (n - 1) - 1 else 2 ^ n - 1) (if a < 0 then -(u : Int) else u))) % 2 ^ n)
  ∧ (∀ (src x : Nat) (z : Int), 8 ≤ src → src < 16 →
      (if src % 2 = 0 then -2 ^ (fmtBits src - 1) ≤ z ∧ z < 2 ^ (fmtBits src - 1) else 0 ≤ z ∧ z < 2 ^ fmtBits src) → (x : Int) % 2 ^ fmtBits src = z % 2 ^ fmtBits src →
      (valOf src x).is z
      ∧ ∀ (dst : Nat) (sat : Bool),
        let n := fmtBits dst
        ((convertInt src dst sat x : Nat) : Int)
          = (if sat then max (if dst % 2 = 0 then -2 ^ (n - 1) else 0) (min (if dst % 2 = 0 then 2 ^ (n - 1) - 1 else 2 ^ n - 1) z) else z) % 2 ^ n)
  ∧ (∀ (mode r : Nat) (sat neg : Bool) (e : Int),
      (∀ fmt, convertVal fmt mode sat .nan r = match fmt with | 0 => 0x7FC00000 | 1 => 0x7E00 | 2 => 0x7FC0 | 3 => 0x7F | 4 => 0x80 | 5 => 0x20 | _ => 0)
      ∧ (∀ fmt, fmt < 4 → convertVal fmt mode sat (.fin neg 0 e) r = if neg then 2 ^ (fmtBits fmt - 1) else 0)
      ∧ (∀ fmt, 4 ≤ fmt → fmt < 16 → convertVal fmt mode sat (.fin neg 0 e) r = 0)
      ∧ (∀ dst, 8 ≤ dst → dst < 16 → convertVal dst mode sat (.inf neg) r
          = if dst % 2 = 0 then (if neg then 2 ^ (fmtBits dst - 1) else 2 ^ (fmtBits dst - 1) - 1) else (if neg then 0 else 2 ^ fmtBits dst - 1)))

/-- R75, R77, R87, R92: a code of FP32, FP16, BF16 or E4M3 has the value of its table; a finite value of an IEEE format or E4M3 rounds to
itself in every mode, and so does every value of the tapered formats. -/
def Obligations.RoundingKeepsRepresentableValues : Prop :=
  (∀ fmt s e m : Nat, fmt < 4 → s < 2 → e < 2 ^ expBits fmt → m < 2 ^ fracBits fmt →
      let v := valOf fmt (s * 2 ^ (fmtBits fmt - 1) + e * 2 ^ fracBits fmt + m)
      let w := fracBits fmt
      let bias : Int := match fmt with | 1 => 15 | 3 => 7 | _ => 127
      let special := if fmt = 3 then e = 15 ∧ m = 7 else e = 2 ^ expBits fmt - 1
      (¬ special → e = 0 → v.is ((-1) ^ s * ((m : ℝ) / 2 ^ w * 2 ^ (1 - bias))))
      ∧ (¬ special → e ≠ 0 → v.is ((-1) ^ s * ((1 + (m : ℝ) / 2 ^ w) * 2 ^ ((e : Int) - bias))))
      ∧ (special → v = if fmt < 3 ∧ m = 0 then .inf (decide (s = 1)) else .nan))
  ∧
  (∀ (fmt mode x r : Nat) (sat : Bool), fmt < 3 → x < 2 ^ fmtBits fmt → r < 2 ^ 32 →
    (∃ neg m e, valOf fmt x = .fin neg m e) → convertVal fmt mode sat (valOf fmt x) r = x)
  ∧ (∀ (fmt mode x r : Nat) (sat : Bool), 3 ≤ fmt → fmt < 6 → x < 2 ^ fmtBits fmt → r < 2 ^ 32 →
    (∃ neg m e, valOf fmt x = .fin neg m e) → convertVal fmt mode sat (valOf fmt x) r = x)

/-! ## Words that one thread of the bundle executes -/

namespace Sys2Proof.Machine

/-- Under p, the word changes the state as r says, and the bundle moves on. -/
def Does (i : Instr) (f : Fields) (p : State → Bundle → ThreadId → Prop) (r : State → Bundle → ThreadId → State) : Prop :=
  ∀ (s : State) (q : QuadId) (k : Nat) (b : Bundle) (t : ThreadId), IssuesAlone s i f q k b t → p s b t →
    exec i s = .next ((r s.quiet b t).moveOn i q k [t])

/-- Under p, the word raises a trap of a kind, with a cause, ADDR and AUX, at its own position (R384, R386). -/
def Traps (i : Instr) (f : Fields) (p : State → Bundle → ThreadId → Prop) (kind : TrapKind)
    (cause : State → Bundle → ThreadId → Nat) (addr : State → Bundle → ThreadId → DWord) : Prop :=
  Does i f p fun s b t => s.takeTrap t
    { kind := kind, record := trapRec kind (cause s b t) b.word b.pc (addr s b t) 0 0 0 false false, point := b.point .word false }

/-- Under p, the word is held: its thread is as it was, and the bundle stands at it, held for that thread (R33). -/
def Holds (i : Instr) (f : Fields) (p : State → Bundle → ThreadId → Prop) : Prop :=
  ∀ (s : State) (q : QuadId) (k : Nat) (b : Bundle) (t : ThreadId), IssuesAlone s i f q k b t → p s b t →
    ∃ u, exec i s = .next u ∧ u.thread t = s.thread t ∧ u.mem = s.mem
      ∧ Tab.get? (u.quad q).bundles k = some { b with rest := [t], heldSince := none, pool := 0, order := 0 }

/-- The clause at a pointer can be fetched; a misaligned target is not fetched by the transfer (R347). -/
def State.fetches (s : State) (t : ThreadId) (p : DWord) : Prop :=
  offsetOf p % 8 ≠ 0 ∨ (s.fetchWaits t.cohort p = false ∧ ∃ c, s.fetchClause t.cohort p = .ok c)

/-- The target of a transfer by d words from a pointer, in whose OFFSET it must stay (R341). -/
def targetOf (p : DWord) (d : Int) : DWord := ptrAdd p (8 * d)
def stays (p : DWord) (d : Int) : Prop := 0 ≤ (offsetOf p : Int) + 8 * d ∧ (offsetOf p : Int) + 8 * d < 2 ^ 30

end Sys2Proof.Machine

open Sys2Proof Sys2Proof.Machine

/-- R340, R341, R342: a transfer sends the thread to its target at the clause's end; CALL pushes the following header, and a full
buffer's oldest entry moves to the call stack; RET pops the newest, from the call stack when the buffer is empty. -/
def Sys2Proof.Machine.TransfersReachTheirTarget : Prop :=
  ∀ (f : Fields) (d : Word) (a : DWord),
    Does (.bra f) f (fun s b t => (s.thread t).b32 f = some d ∧ stays b.pc d.toInt ∧ s.fetches t (targetOf b.pc d.toInt))
      (fun s b t => s.modThread t fun x => { x with nextPc := some (targetOf b.pc d.toInt) })
    ∧ Does (.brx f) f (fun s _ t => (s.thread t).src64 f.sa = some a ∧ (s.thread t).b32 f = some d ∧ namesObject a = true
        ∧ stays a d.toInt ∧ s.fetches t (targetOf a d.toInt))
      (fun s _ t => s.modThread t fun x => { x with nextPc := some (targetOf a d.toInt) })
    ∧ Does (.callRelative f) f (fun s b t => (s.thread t).b32 f = some d ∧ stays b.pc d.toInt ∧ s.fetches t (targetOf b.pc d.toInt)
        ∧ (s.thread t).ret.length < 8 ∧ (s.thread t).ret.length + (s.thread t).stack.length < 8 + (s.launchOf t.cohort).cstack)
      (fun s b t => s.modThread t fun x => { x with ret := ptrAdd b.pc (8 * (b.words.length + 1)) :: x.ret, nextPc := some (targetOf b.pc d.toInt) })
    ∧ Does (.callIndirect f) f (fun s _ t => (s.thread t).src64 f.sa = some a ∧ (s.thread t).b32 f = some d ∧ namesObject a = true
        ∧ stays a d.toInt ∧ s.fetches t (targetOf a d.toInt) ∧ (s.thread t).ret.length < 8 ∧ (s.thread t).ret.length + (s.thread t).stack.length < 8 + (s.launchOf t.cohort).cstack)
      (fun s b t => s.modThread t fun x => { x with ret := ptrAdd b.pc (8 * (b.words.length + 1)) :: x.ret, nextPc := some (targetOf a d.toInt) })
    ∧ (∀ l p, l.length = 7 →
      let spills := fun (s : State) (b : Bundle) (t : ThreadId) (target : DWord) => s.modThread t fun x =>
        { x with ret := ptrAdd b.pc (8 * (b.words.length + 1)) :: l, stack := p :: x.stack, nextPc := some target }
      let full := fun (s : State) (t : ThreadId) => (s.thread t).ret = l ++ [p] ∧ (s.thread t).stack.length < (s.launchOf t.cohort).cstack
      Does (.callRelative f) f (fun s b t => (s.thread t).b32 f = some d ∧ stays b.pc d.toInt ∧ s.fetches t (targetOf b.pc d.toInt) ∧ full s t)
        (fun s b t => spills s b t (targetOf b.pc d.toInt))
      ∧ Does (.callIndirect f) f (fun s _ t => (s.thread t).src64 f.sa = some a ∧ (s.thread t).b32 f = some d ∧ namesObject a = true
          ∧ stays a d.toInt ∧ s.fetches t (targetOf a d.toInt) ∧ full s t)
        (fun s b t => spills s b t (targetOf a d.toInt)))
    ∧ Does (.ret f) f (fun s _ t => (s.thread t).ret.head? = some a ∧ s.fetches t (targetOf a 0))
      (fun s _ t => s.modThread t fun x => { x with ret := x.ret.tail, nextPc := some (targetOf a 0) })
    ∧ Does (.ret f) f (fun s _ t => (s.thread t).ret = [] ∧ (s.thread t).stack.head? = some a ∧ s.fetches t (targetOf a 0))
      (fun s _ t => s.modThread t fun x => { x with stack := x.stack.tail, nextPc := some (targetOf a 0) })

/-- R341, R342, R347: a transfer out of OFFSET, or by a pointer that names no object, is an illegal operand; a RET with nothing to pop and
a CALL with the buffer and the call stack full trap; and a target whose clause cannot be fetched is a memory fault at the word. While that
clause is in transit the word is held, which is the model's choice (log 57). -/
def Sys2Proof.Machine.TransfersTrapWhereTheyCannotGo : Prop :=
  ∀ (f : Fields) (d : Word) (a : DWord) (c : Nat),
    let indirect := fun (s : State) (t : ThreadId) => (s.thread t).src64 f.sa = some a ∧ (s.thread t).b32 f = some d
    let deep := fun (s : State) (t : ThreadId) => (s.thread t).ret.length + (s.thread t).stack.length ≥ 8 + (s.launchOf t.cohort).cstack
    let unfetched := fun (i : Instr) (p : State → Bundle → ThreadId → Prop) (target : Bundle → DWord) =>
      Does i f (fun s b t => p s b t ∧ offsetOf (target b) % 8 = 0 ∧ s.fetchWaits t.cohort (target b) = false ∧ s.fetchClause t.cohort (target b) = .error c)
        (fun s b t => (s.takeTrap t { kind := .memoryFault, record := trapRec .memoryFault c b.word b.pc (target b) 0 0 0 false false
                                      point := b.point .word false }).fetchFailed t.cohort (target b) c)
      ∧ Holds i f (fun s b t => p s b t ∧ offsetOf (target b) % 8 = 0 ∧ s.fetchWaits t.cohort (target b) = true)
    Traps (.bra f) f (fun s b t => (s.thread t).b32 f = some d ∧ ¬ stays b.pc d.toInt) .illegalOperand (fun _ _ _ => 0) (fun _ _ _ => 0)
    ∧ Traps (.callRelative f) f (fun s b t => (s.thread t).b32 f = some d ∧ ¬ stays b.pc d.toInt) .illegalOperand (fun _ _ _ => 0) (fun _ _ _ => 0)
    ∧ Traps (.brx f) f (fun s _ t => indirect s t ∧ ¬ (stays a d.toInt ∧ namesObject a = true)) .illegalOperand (fun _ _ _ => 0) (fun _ _ _ => 0)
    ∧ Traps (.callIndirect f) f (fun s _ t => indirect s t ∧ ¬ (stays a d.toInt ∧ namesObject a = true)) .illegalOperand (fun _ _ _ => 0) (fun _ _ _ => 0)
    ∧ unfetched (.bra f) (fun s b t => (s.thread t).b32 f = some d ∧ stays b.pc d.toInt) (fun b => targetOf b.pc d.toInt)
    ∧ unfetched (.brx f) (fun s _ t => indirect s t ∧ stays a d.toInt ∧ namesObject a = true) (fun _ => targetOf a d.toInt)
    ∧ unfetched (.callRelative f) (fun s b t => (s.thread t).b32 f = some d ∧ stays b.pc d.toInt ∧ ¬ deep s t) (fun b => targetOf b.pc d.toInt)
    ∧ unfetched (.callIndirect f) (fun s _ t => indirect s t ∧ stays a d.toInt ∧ namesObject a = true ∧ ¬ deep s t) (fun _ => targetOf a d.toInt)
    ∧ unfetched (.ret f) (fun s _ t => ((s.thread t).ret ++ (s.thread t).stack).head? = some a) (fun _ => targetOf a 0)
    ∧ Traps (.callRelative f) f (fun s b t => (s.thread t).b32 f = some d ∧ stays b.pc d.toInt ∧ deep s t) .callOverflow (fun _ _ _ => 0) (fun _ _ _ => 0)
    ∧ Traps (.callIndirect f) f (fun s _ t => indirect s t ∧ stays a d.toInt ∧ namesObject a = true ∧ deep s t)
      .callOverflow (fun _ _ _ => 0) (fun _ _ _ => 0)
    ∧ Traps (.ret f) f (fun s _ t => (s.thread t).ret = [] ∧ (s.thread t).stack = []) .callUnderflow (fun _ _ _ => 0) (fun _ _ _ => 0)

/-- R340 to R342, R347: control transfers. -/
def Obligations.TransfersReachTheirTargetOrTrap : Prop :=
  TransfersReachTheirTarget ∧ TransfersTrapWhereTheyCannotGo

/-- R343, R344, R65: EXIT and YIELD take effect at the clause's end; WAIT parks the thread for twice so many ticks from now, at
the word after it, and WAIT of 0 and NOP do nothing; a WAIT ends once its time has passed. -/
def Sys2Proof.Machine.ExitWaitYieldAndNop : Prop :=
  (∀ (f : Fields) (n : Word),
    Does (.exit f) f (fun _ _ _ => True) (fun s _ t => s.modThread t fun x => { x with exiting := true })
    ∧ Does (.yield f) f (fun _ _ _ => True) (fun s _ t => s.modThread t fun x => { x with yielding := true })
    ∧ Does (.nop f) f (fun _ _ _ => True) (fun s _ _ => s)
    ∧ Does (.wait f) f (fun s _ t => (s.thread t).b32 f = some 0) (fun s _ _ => s)
    ∧ Does (.wait f) f (fun s _ t => (s.thread t).b32 f = some n ∧ n ≠ 0) (fun s b t => (s.leave t).modThread t fun x =>
        { x with run := .parked (.timer (s.now + 2 * n.toNat)), word := nextWord b.words b.word, inside := true }))
  ∧ (∀ (s : State) (t : ThreadId) (d : Nat), (s.thread t).run = .parked (.timer d) → s.awake t.cohort = true → d ≤ s.now →
      exec (.waitExpiry t) s = .next (s.modThread t fun x => { x with run := .ready, readySince := s.now }))
  ∧ (∀ (s : State) (t : ThreadId) (d : Nat), (s.thread t).run = .parked (.timer d) → s.now < d → exec (.waitExpiry t) s = .next s)

/-- R405: TRAP retires, and takes kind 0x0C with its code in ADDR, at the position after it. -/
def Sys2Proof.Machine.TrapTakesASoftwareTrap : Prop :=
  ∀ (f : Fields) (n : Word),
    Does (.trap f) f (fun s _ t => (s.thread t).b32 f = some n)
      (fun s b t => s.takeTrap t
        { kind := .software, record := { f0 := BitVec.ofNat 64 (0x0C * 2 ^ 56 + b.word % 16 * 2 ^ 44), f1 := b.pc, f2 := n.setWidth 64, f3 := 0 }
          point := { pc := b.pc, word := b.word, next := nextWord b.words b.word, count := b.words.length - 1, kind := .after } })

/-- R384: outside a handler, in a context that is not stopping, with no load outstanding and a vector for its kind, the thread
saves its trap record, trap point and latches, and stands at the handler's entry with no latch valid and its registers kept; it is
READY there at once, or RENDEZVOUS at a crew clause, where the handler's clause can be fetched and its header waits for nothing (R331).
While the vector's place is in transit the entry waits, which is the model's choice (log 57). -/
def Sys2Proof.Machine.ATrapSavesTheStateAndEntersTheHandler : Prop :=
  ∀ (s : State) (t : ThreadId) (r : Raised) (v : DWord),
    (s.thread t).handler = false → s.stopping t.cohort = false → s.owes t = false →
    let y := (s.takeTrap t r).thread t
    let x := s.thread t
    (s.vectorWaits t.cohort r.kind.code = true → y.run = .parked .landing ∧ y.raised = some r ∧ y.pc = x.pc)
    ∧ (s.vectorWaits t.cohort r.kind.code = false → s.vector t.cohort r.kind.code = some v →
      y.pc = v ∧ y.handler = true ∧ y.faults = r.record ∧ y.point = r.point ∧ y.kept = x.latches ∧ y.latches = List.replicate 8 none
      ∧ y.word = 0 ∧ y.inside = false ∧ y.raised = none ∧ y.rowprog = r.rowprog.getD x.rowprog
      ∧ y.regs = x.regs ∧ y.preds = x.preds ∧ y.dcs = x.dcs ∧ y.ret = x.ret ∧ y.stack = x.stack ∧ y.rmode = x.rmode ∧ y.srseed = x.srseed
      ∧ y.deferred = x.deferred ∧ (y.run = .blocked ∧ y.tokens = x.tokens ∨ y.run = .ready ∨ y.run = .rendezvous)
      ∧ y.keptYield = x.yielding ∧ y.yielding = false
      ∧ (∀ w ws, s.fetchWaits t.cohort v = false → s.fetchClause t.cohort v = .ok (w, ws) → clauseBad v (Header.ofWord w) ws = false → (Header.ofWord w).dcwait = List.replicate 6 7 →
          (Header.ofWord w).gsw = false → (Header.ofWord w).nbw = false → y.run = if (Header.ofWord w).crew then .rendezvous else .ready)
      ∧ (∀ u, u ≠ t → (s.takeTrap t r).thread u = s.thread u) ∧ (s.takeTrap t r).mem = s.mem)

/-- R385, R391: a trap inside a handler ends the cohort with reason 3. -/
def Sys2Proof.Machine.ATrapInAHandlerEndsTheCohort : Prop :=
  ∀ (s : State) (t : ThreadId) (r : Raised), (s.thread t).handler = true → (s.cohort t.cohort).killed = none → (s.cohort t.cohort).ended = false →
    ((s.takeTrap t r).cohort t.cohort).killed = some 3

/-- R406, R63, R331, R344, R385: TRET continues at the trap point or, under .SKIP, after it, with the clause's latches valid again where it
lies inside a clause; a YIELD of the trapped clause takes effect at that clause's end. Outside a handler it is an illegal instruction;
TRET.SKIP at a point after a word is a double fault, whose record the model gives kind 0x01, its own choice (log 25). -/
def Sys2Proof.Machine.ReturnResumesAtTheTrapPoint : Prop :=
  ∀ (f : Fields) (p : DWord) (w : Nat),
    let resumed := fun (s : State) (t : ThreadId) (pc : DWord) (n : Nat) => (s.leave t).modThread t fun x =>
      { x with handler := false, halted := false, latches := x.kept, pc := pc, word := n, inside := true, run := .ready, readySince := s.now, nextPc := none, exiting := false
               yielding := x.keptYield, keptYield := false }
    let headed := fun (s : State) (t : ThreadId) (pc : DWord) =>
      (if (s.thread t).keptYield ∧ pc ≠ p then (s.leave t).renew t else s.leave t).modThread t fun x =>
      { x with handler := false, halted := false, latches := List.replicate 8 none, pc := pc, word := 0, inside := false, run := .blocked, readySince := s.now, nextPc := none, exiting := false
               yielding := false, keptYield := false }
    let at' := fun (s : State) (t : ThreadId) (kind : PointKind) => (s.thread t).handler = true ∧ (s.thread t).point.exit = false
      ∧ (s.thread t).point.kind = kind ∧ (s.thread t).point.pc = p
    let past := fun (s : State) (t : ThreadId) => (s.thread t).point.count = w ∧ (s.thread t).point.next > w
    Does (.tret f) f (fun s _ t => at' s t .word ∧ (s.thread t).point.word = w) (fun s _ t => resumed s t p w)
    ∧ Does (.tret f) f (fun s _ t => at' s t .header ∨ at' s t .unfetched) (fun s _ t => headed s t p)
    ∧ Does (.tret f) f (fun s _ t => at' s t .after ∧ (s.thread t).point.next = w ∧ w ≤ (s.thread t).point.count) (fun s _ t => resumed s t p w)
    ∧ Does (.tretSkip f) f (fun s _ t => at' s t .word ∧ (s.thread t).point.next = w ∧ w ≤ (s.thread t).point.count) (fun s _ t => resumed s t p w)
    ∧ Does (.tretSkip f) f (fun s _ t => at' s t .header ∧ (s.thread t).point.count = w) (fun s _ t => headed s t (ptrAdd p (8 * (w + 2))))
    ∧ Does (.tret f) f (fun s _ t => at' s t .after ∧ past s t) (fun s _ t => headed s t (ptrAdd p (8 * (w + 2))))
    ∧ Does (.tretSkip f) f (fun s _ t => at' s t .word ∧ past s t) (fun s _ t => headed s t (ptrAdd p (8 * (w + 2))))
    ∧ (∀ i ∈ [Instr.tret f, Instr.tretSkip f], Does i f (fun s _ t => (s.thread t).handler = true ∧ (s.thread t).point.exit = true ∧ (s.thread t).point.pc = p
        ∧ (s.thread t).point.word = w) (fun s _ t => resumed s t p w))
    ∧ Traps (.tret f) f (fun s _ t => (s.thread t).handler = false) .illegalInstruction (fun _ _ _ => 0) (fun _ _ _ => 0)
    ∧ Traps (.tretSkip f) f (fun s _ t => at' s t .after ∨ at' s t .unfetched) .illegalInstruction (fun _ _ _ => 0) (fun _ _ _ => 0)

/-- R384, R385, R405, R406: taking a trap and returning from it. -/
def Obligations.TrapsEnterTheHandlerAndReturn : Prop :=
  TrapTakesASoftwareTrap ∧ ATrapSavesTheStateAndEntersTheHandler ∧ ATrapInAHandlerEndsTheCohort ∧ ReturnResumesAtTheTrapPoint

/-- R345, R346: SREAD reads each special register at its width, and %ltime lands later, counted on dc0. -/
def Sys2Proof.Machine.SpecialRegistersReadAsTheirTable : Prop :=
  ∀ f : Fields,
    let reads := fun (sel : Nat) (v : State → ThreadId → Nat) => f.ctl = sel →
      Does (.sread f) f (fun _ _ _ => True) (fun s _ t => s.modThread t fun x =>
        if sel = 0x0D ∨ (0x10 ≤ sel ∧ sel ≤ 0x15) then x.setPair f.dst.toNat (BitVec.ofNat 64 (v s t)) else x.setReg f.dst.toNat (BitVec.ofNat 32 (v s t)))
    reads 0x00 (fun _ t => t.tid) ∧ reads 0x01 (fun _ t => t.tid % 32) ∧ reads 0x02 (fun _ t => t.tid / 32)
    ∧ reads 0x03 (fun s t => (s.cohort t.cohort).index) ∧ reads 0x04 (fun s t => (s.grid t.cohort.chip t.cohort.grid).set'.length)
    ∧ reads 0x05 (fun _ t => t.cohort.core) ∧ reads 0x06 (fun s t => (s.thread t).quad.quad) ∧ reads 0x07 (fun _ t => t.cohort.die)
    ∧ reads 0x08 (fun _ t => t.cohort.chip)
    ∧ reads 0x0A (fun s t => if (s.launchOf t.cohort).nbv % 4 = 0 then 2 else (s.launchOf t.cohort).nbv % 4)
    ∧ reads 0x09 (fun s t => (s.cohort t.cohort).vf % 1024 + 65536 * (s.partOf t.cohort % 16)) ∧ reads 0x0B (fun s t => (s.thread t).rmode.toNat) ∧ reads 0x0C (fun s t => (s.thread t).srseed.toNat)
    ∧ reads 0x0D (fun s t => (s.now - (s.chip t.cohort.chip).resetAt) / 2) ∧ reads 0x0F (fun s t => (s.thread t).ltimeh.toNat)
    ∧ reads 0x10 (fun s t => (s.thread t).faults.f0.toNat) ∧ reads 0x11 (fun s t => (s.thread t).faults.f1.toNat)
    ∧ reads 0x12 (fun s t => (s.thread t).faults.f2.toNat) ∧ reads 0x13 (fun s t => (s.thread t).faults.f3.toNat)
    ∧ reads 0x14 (fun s t => (s.thread t).rowprog.toNat)
    ∧ reads 0x15 (fun _ t => 2 ^ 52 * t.cohort.chip + 2 ^ 50 * t.cohort.die + 2 ^ 44 * t.cohort.core + 2 ^ 28 * t.cohort.grid)
    ∧ (f.ctl = 0x0E → Does (.sread f) f (fun _ _ _ => True) (fun s b t => (s.addOp
        { s.newOp b t (some 0) (.clock f.dst.toNat) with dst := if f.dst = 255 then [] else [f.dst.toNat, f.dst.toNat + 1] }).2))

/-- R91, R157, R346: SWRITE of %rmode refuses a mode that is not one, a seed of 0 becomes 1, and the other registers ignore
writes. -/
def Sys2Proof.Machine.SpecialRegisterWritesCheckTheirValues : Prop :=
  ∀ (f : Fields) (v : Word) (w : DWord),
    (f.ctl = 0x0B → 1 ≤ v.toNat % 8 → v.toNat % 8 ≤ 5 → Does (.swrite f) f (fun s _ t => (s.thread t).src32 f.sa = some v)
      (fun s _ t => s.modThread t fun x => { x with rmode := BitVec.ofNat 3 (v.toNat % 8) }))
    ∧ (f.ctl = 0x0B → v.toNat % 8 = 0 ∨ v.toNat % 8 ≥ 6 →
      Traps (.swrite f) f (fun s _ t => (s.thread t).src32 f.sa = some v) .illegalOperand (fun _ _ _ => 0) (fun _ _ _ => 0))
    ∧ (f.ctl = 0x0C → Does (.swrite f) f (fun s _ t => (s.thread t).src32 f.sa = some v)
      (fun s _ t => s.modThread t fun x => { x with srseed := if v = 0 then 1 else v }))
    ∧ (f.ctl = 0x14 → Does (.swrite f) f (fun s _ t => (s.thread t).src64 f.sa = some w)
      (fun s _ t => s.modThread t fun x => { x with rowprog := w &&& 0xFFFFFFFFFF000001 }))
    ∧ (f.ctl < 0x0B → Does (.swrite f) f (fun s _ t => (s.thread t).src32 f.sa = some v) (fun s _ _ => s))
    ∧ (f.ctl = 0x0F → Does (.swrite f) f (fun s _ t => (s.thread t).src32 f.sa = some v) (fun s _ _ => s))
    ∧ (f.ctl = 0x0D ∨ f.ctl = 0x0E ∨ (0x10 ≤ f.ctl ∧ f.ctl < 0x14) ∨ f.ctl = 0x15 → Does (.swrite f) f (fun s _ t => (s.thread t).src64 f.sa = some w) (fun s _ _ => s))

/-- R91, R157, R345, R346: special registers. -/
def Obligations.SpecialRegistersAreReadAndWritten : Prop :=
  SpecialRegistersReadAsTheirTable ∧ SpecialRegisterWritesCheckTheirValues

/-! ## Loads, stores and requests -/

namespace Sys2Proof.Machine

/-- The checks that let an access be issued: its pointer, its space, its line (R213, R232, R238). -/
def State.admits (s : State) (t : ThreadId) (p : DWord) (n : Nat) : Prop :=
  s.issueCheck t p n = none ∧ s.parkLine t p n = none

/-- One more request of the thread finds an entry (R234). -/
def State.roomFor (s : State) (b : Bundle) (t : ThreadId) : Prop := s.requestsFull t b.order 1 = false

/-- The pointer of a base and an offset, inside OFFSET and aligned to n bytes (R238). -/
def pointed (base : DWord) (off : Int) (n : Nat) (p : DWord) : Prop :=
  p = ptrAdd base off ∧ 0 ≤ (offsetOf base : Int) + off ∧ (offsetOf base : Int) + off < 2 ^ 30 ∧ offsetOf p % n = 0

end Sys2Proof.Machine

open Sys2Proof Sys2Proof.Machine

/-- R39, R40, R177, R179, R239: an operation is counted on its counter from its issue to its completion, in issue order, under a fresh
identifier. An access issues as one operation of its thread, which names its result's registers and goes to the guess of its die or to the
Wellhead, a release barring later writes; its result, and that of an object word, a window word, a LAUNCHQ or a post, lands in those registers
alone as the operation leaves. -/
def Obligations.OperationsAreCountedInIssueOrder : Prop :=
  (∀ (s : State) (o : Op) (c : Nat), o.ctr = some c → c < (s.thread o.thread).dcs.length → (∀ m, o.body ≠ .matrix m) →
    (s.addOp o).1 = s.nextId ∧ (s.addOp o).2.op? s.nextId = some o
      ∧ ((s.addOp o).2.thread o.thread).dc c = (s.thread o.thread).dc c + 1
      ∧ (s.addOp o).2.nextId = s.nextId + 1 ∧ (s.addOp o).2.mem = s.mem
      ∧ ((s.addOp o).2.thread o.thread).regs = (s.thread o.thread).regs)
  ∧ (∀ (x : Thread) (c : Nat) (i j : Nat) (l : List (Nat × Bool)), c < x.dcs.length → i ≠ j → x.dcs.getD c [] = (i, false) :: (j, false) :: l →
      (x.lowerDc c j).dc c = x.dc c ∧ (x.lowerDc c i).dc c = ((j, false) :: l.map fun e => if e.1 = i then (i, true) else e).length)
  ∧ (∀ (s : State) (b : Bundle) (t : ThreadId) (c : Nat) (a : Access), c < (s.thread t).dcs.length →
      let u := s.issueAccess b t c a
      ∃ o, u.op? s.nextId = some o ∧ o.thread = t ∧ o.ctr = some c ∧ o.body = .access a
        ∧ o.dst = (if a.kind = .store ∨ a.dst = 255 then [] else (List.range ((a.size + 3) / 4)).map (a.dst + ·))
        ∧ (isGlobal a.ptr = false → o.phase = .issued)
        ∧ (isGlobal a.ptr = true → o.phase = match (s.die t.cohort.toDie).guess a.ptr with | some h => .sent h false false | none => .wellhead)
        ∧ (u.thread t).dc c = (s.thread t).dc c + 1 ∧ (u.thread t).regs = (s.thread t).regs ∧ u.mem = s.mem
        ∧ (a.rel = true → { level := a.scope, id := s.nextId + 1, know := o.know, cond := if a.conditional then some s.nextId else none } ∈ (u.thread t).barriers))
  ∧ (∀ (s : State) (id v : Nat) (o : Op), s.op? id = some o → (∀ c, o.body ≠ .copy c) →
      let lands := fun (u : State) (dst k v : Nat) => u.op? id = none ∧ u.mem = s.mem ∧ (∀ t, t ≠ o.thread → (u.thread t).regs = (s.thread t).regs)
        ∧ (∀ i < k, dst + i < (s.thread o.thread).regs.length → dst + i ≠ 255 → (u.thread o.thread).reg (dst + i) = BitVec.ofNat 32 (v / 2 ^ (32 * i)))
        ∧ ∀ j, j < dst ∨ dst + k ≤ j → (u.thread o.thread).reg j = (s.thread o.thread).reg j
      (∀ (a : Access) (know : List Nat), a.kind ≠ .store → a.dst ≠ 255 → lands (s.land id o a v know) a.dst ((a.size + 3) / 4) (a.landed v))
      ∧ (∀ b : ObjOp, b.dst ≠ 255 → lands (s.landObj id o b v) b.dst (if b.wide then 2 else 1) v)
      ∧ (∀ (w : WinOp) (wide : Bool), w.dst ≠ 255 → lands (s.landWin id o w wide v) w.dst (if wide then 2 else 1) v)
      ∧ (∀ dst, dst ≠ 255 → lands (s.landLaunch id o dst v) dst 1 v)
      ∧ (∀ dst, dst ≠ 255 → (∀ m ∈ s.msgs, m.2.op ≠ some id) → lands (s.landPost id o none dst v) dst 1 v))

/-- R236 to R239, R245, R347: a load or store whose checks pass is issued as one access of its size: a load is counted on dc0
with its destination registers interlocked, a store on dc1 with its data; an ordered form is an acquire or a release at the
scope that its level acts as; a store to a register of the MMIO page but KICK is one write of it, after which, under .REL, later
stores follow; TSTAMP stores 16 bytes of the clock. -/
def Sys2Proof.Machine.AccessWordsIssueOneAccess : Prop :=
  ∀ (f : Fields) (base p : DWord) (a : Word),
    let n := sizeOf' (f.sb.toNat % 8)
    let level := fun (s : State) (t : ThreadId) => effScope (s.launchOf t.cohort).ladder (f.sb.toNat / 8 % 8)
    let wide := fun (s : State) (b : Bundle) (t : ThreadId) => (s.thread t).src64 f.sa = some base ∧ pointed base f.off n p ∧ s.admits t p n ∧ s.roomFor b t
    let near := fun (s : State) (b : Bundle) (t : ThreadId) => (s.thread t).src32 f.sa = some a ∧ a.toNat / 2 ^ 30 < 3 ∧ pointed (localBase a) f.off n p
      ∧ s.admits t p n ∧ s.roomFor b t
    let memory := fun (q : State → Bundle → ThreadId → Prop) (s : State) (b : Bundle) (t : ThreadId) => q s b t ∧ ¬ (birthOf p = 0xFFF ∧ serialOf p = 2)
    let load := fun (acq : Bool) (s : State) (b : Bundle) (t : ThreadId) => s.issueAccess b t 0
      { kind := .load, ptr := p, size := n, sext := f.sb.toNat % 8 ≥ 5, acq := acq, scope := if acq then level s t else 0, dst := f.dst.toNat }
    let store := fun (rel : Bool) (s : State) (b : Bundle) (t : ThreadId) => s.issueAccess b t 1
      { kind := .store, ptr := p, size := n, sext := f.sb.toNat % 8 ≥ 5, data := (s.thread t).data f.dst.toNat n, rel := rel,
        scope := if rel then level s t else 0, dst := 255 }
    let page := fun (q : State → Bundle → ThreadId → Prop) (s : State) (b : Bundle) (t : ThreadId) =>
      q s b t ∧ birthOf p = 0xFFF ∧ serialOf p = 2 ∧ offsetOf p ≠ 0
    let write := fun (rel : Option Nat) (s : State) (b : Bundle) (t : ThreadId) =>
      s.newOp b t (some 1) (.mmio (offsetOf p) (BitVec.ofNat 64 ((s.thread t).data f.dst.toNat n)) n rel)
    Does (.ldo f) f wide (load false) ∧ Does (.ldoAcq f) f wide (load true)
    ∧ Does (.sto f) f (memory wide) (store false) ∧ Does (.stoRel f) f (memory wide) (store true)
    ∧ Does (.ld f) f near (load false) ∧ Does (.ldAcq f) f near (load true)
    ∧ Does (.st f) f (memory near) (store false) ∧ Does (.stRel f) f (memory near) (store true)
    ∧ Does (.st f) f (page near) (fun s b t => (s.addOp (write none s b t)).2)
    ∧ Does (.sto f) f (page wide) (fun s b t => (s.addOp (write none s b t)).2)
    ∧ Does (.stRel f) f (page near) (fun s b t => (s.addOp (write (some (level s t)) s b t)).2.modThread t
        (·.bar { level := level s t, id := s.nextId + 1, know := (write none s b t).know }))
    ∧ Does (.stoRel f) f (page wide) (fun s b t => (s.addOp (write (some (level s t)) s b t)).2.modThread t
        (·.bar { level := level s t, id := s.nextId + 1, know := (write none s b t).know }))
    ∧ Does (.tstamp f) f (fun s b t => (s.thread t).src64 f.sa = some p ∧ offsetOf p % 16 = 0 ∧ s.admits t p 16 ∧ s.roomFor b t ∧ ¬ (birthOf p = 0xFFF ∧ serialOf p = 2))
        (fun s b t => s.issueAccess b t 1 { kind := .store, ptr := p, size := 16, data := ofBytesLE (timeBytes (s.ns t.cohort.chip)) })

/-- R232, R238: an access that leaves OFFSET, is misaligned or fails the check of its space is a precise memory fault with the
cause of the check, and one to a line that is not present parks its thread at the word (R213). That the Range fault's ADDR is the base
pointer is deduced (log 26). -/
def Sys2Proof.Machine.AccessWordsCheckTheirAddress : Prop :=
  ∀ (f : Fields) (base p : DWord) (c l : Nat),
    let n := sizeOf' (f.sb.toNat % 8)
    let wide := fun (s : State) (_ : Bundle) (t : ThreadId) => (s.thread t).src64 f.sa = some base
    Traps (.ldo f) f (fun s b t => wide s b t ∧ ¬ (0 ≤ (offsetOf base : Int) + f.off ∧ (offsetOf base : Int) + f.off < 2 ^ 30))
      .memoryFault (fun _ _ _ => 0x11) (fun _ _ _ => base)
    ∧ Traps (.sto f) f (fun s b t => wide s b t ∧ 0 ≤ (offsetOf base : Int) + f.off ∧ (offsetOf base : Int) + f.off < 2 ^ 30
        ∧ p = ptrAdd base f.off ∧ offsetOf p % n ≠ 0) .memoryFault (fun _ _ _ => 0x10) (fun _ _ _ => p)
    ∧ Traps (.ldo f) f (fun s b t => wide s b t ∧ pointed base f.off n p ∧ s.issueCheck t p n = some c) .memoryFault (fun _ _ _ => c) (fun _ _ _ => p)
    ∧ Does (.ldo f) f (fun s b t => wide s b t ∧ pointed base f.off n p ∧ s.issueCheck t p n = none ∧ s.parkLine t p n = some l)
        (fun s b t => (s.leave t).modThread t fun x => { x with run := .parked (.presence l p), word := b.word, inside := true })

/-- R232, R237 to R239, R347: loads and stores at issue. -/
def Obligations.AccessWordsIssueOneAccessOrTrap : Prop :=
  AccessWordsIssueOneAccess ∧ AccessWordsCheckTheirAddress

/-- R210, R238, R239, R243, R256: an access of chip-local memory, once nothing of its thread holds it and its line is present,
reads or writes exactly its bytes at their place; a load's value lands in its registers, and the operation is counted. -/
def Sys2Proof.Machine.LocalAccessesReadAndWriteTheirBytes : Prop :=
  ∀ (s : State) (id addr : Nat) (o : Op) (a : Access),
    s.op? id = some o → o.body = .access a → o.phase = .issued → s.mayPerform id o = true → birthOf a.ptr = 0xFFF → serialOf a.ptr < 2 →
    (isCistern a.ptr = true → s.presentAll o.thread.cohort.toCore (offsetOf a.ptr) a.size = true) → s.obj? a.ptr = none → o.device = none →
    s.unseen o.thread.cohort.toDie addr a.size = [] → s.reach o.thread a.ptr a.size (a.kind ≠ .load) = .place addr →
    (a.kind = .load → o.ctr = some 0 → s.readFails addr a.size = false →
      ∃ t, exec (.responseArrives id) s = .next t ∧ t.mem = s.mem ∧ t.op? id = none
        ∧ (t.thread o.thread).regs = ((s.thread o.thread).setRegs a.dst ((a.size + 3) / 4) (a.landed (Memory.readNat s.mem addr a.size))).regs)
    ∧ (a.kind = .store → o.ctr = some 1 → s.writeFails addr a.size = false →
      ∃ t, exec (.storeCompletion id) s = .next t ∧ t.mem = Memory.writeBytes s.mem addr (bytesLE a.size a.data) ∧ t.op? id = none
        ∧ (t.thread o.thread).regs = (s.thread o.thread).regs)

/-- R178, R179, R410: a request waits while no path leads to where it goes. It goes from its issuer to the guess or the Wellhead, which forwards it to the holder; the answer
installs the serving chip in the locator, sends the access to the Wellhead, faults it, or has it sent again. That a used page entry
moves to the front of its die's entries is the model's replacement rule (log 57). -/
def Sys2Proof.Machine.RequestsFindTheirHolder : Prop :=
  ∀ (s : State) (id : Nat) (o : Op) (a : Access), s.op? id = some o → o.body = .access a → o.device = none → isGlobal a.ptr = true →
    (∀ b e, (s.chip (birthOf a.ptr)).off = none → s.pathDown o.thread.cohort.chip (birthOf a.ptr) = none → o.phase = .wellhead → s.mayPerform id o = true → s.obj? a.ptr = some b → b.extents[offsetOf a.ptr / 2 ^ b.log2]? = some e →
      (∀ m ∈ s.moves, m.2.obj = keyOf a.ptr → m.2.ext = offsetOf a.ptr / 2 ^ b.log2 → m.2.acked = false) →
      exec (.wellheadRequest id) s = .next (s.setOp id { o with phase := .sent e.holder true true }))
    ∧ ((s.chip (birthOf a.ptr)).off = none → s.pathDown o.thread.cohort.chip (birthOf a.ptr) = none → o.phase = .wellhead → s.mayPerform id o = true → s.obj? a.ptr = none → s.window? a.ptr = none →
      exec (.wellheadRequest id) s = .next (s.setOp id { o with phase := .answered (.fault 2), held := none }))
    ∧ (∀ h hop last upset since, s.pathDown o.thread.cohort.chip h = some since → o.phase = .sent h hop last → exec (.accessRequest id upset) s = .next s)
    ∧ (∀ h last b e, (s.chip h).off = none → s.pathDown o.thread.cohort.chip h = none → o.phase = .sent h false last → s.mayPerform id o = true → s.obj? a.ptr = some b → b.extents[offsetOf a.ptr / 2 ^ b.log2]? = some e →
      e.holder = h → e.state = .rest → e.fwd = [] → b.realm = s.realmOf o.thread.cohort → offsetOf a.ptr + a.size ≤ b.size →
      (s.die ⟨h, (b.pages.getD (offsetOf a.ptr / 65536) {}).die⟩).cached.contains (a.ptr.toNat / 65536) = true →
      exec (.accessRequest id .none) s = .next ((s.modDie ⟨h, (b.pages.getD (offsetOf a.ptr / 65536) {}).die⟩ fun x =>
        { x with cached := a.ptr.toNat / 65536 :: x.cached.filter (· ≠ a.ptr.toNat / 65536) }).serve id o a h))
    ∧ (∀ chip v know, o.phase = .answered (.served chip v know) →
      exec (.served id) s = .next ((s.modDie o.thread.cohort.toDie fun d => d.install a.ptr chip).land id o a v know))
    ∧ (o.phase = .answered .noObject → exec (.noObject id) s = .next (s.setOp id { o with phase := .wellhead }))
    ∧ (∀ c, o.phase = .answered (.fault c) → exec (.faultResponse id) s = .next (((s.settleBarrier o.thread id false).deferMemory id o c a.ptr).endOp id))
    ∧ (o.phase = .answered .retry → s.opMoves id o = true → (s.die o.thread.cohort.toDie).guess a.ptr = none →
      exec (.retry id) s = .next (s.setOp id { o with phase := .wellhead }))

/-- R173, R184, R243, R263 to R265: a store served at its holder, on a line that no other cohort pins, writes exactly its bytes at its
pointer; no other byte of the object space changes; a load served there changes none; an atomic writes what its operation makes of the old
value, or nothing, and answers with the old value. -/
def Obligations.TheHolderServesExactlyTheBytes : Prop :=
  ∀ (s : State) (id h : Nat) (o : Op) (a : Access), s.canonical → isGlobal a.ptr = true → (s.obj? a.ptr).isSome = true →
    s.pinnedAway o.thread (a.ptr.toNat / 128) = false → a.ptr.toNat + a.size ≤ 2 ^ 64 →
    let counted := s.affinity a.ptr a.size o.thread.cohort.chip
    let sent := if o.device.isSome then counted else counted.linkFlits o.thread.cohort.toDie a.ptr a.size (a.kind ≠ .load)
    (a.kind = .store → sent.writeFails a.ptr.toNat a.size = false → ∀ x : Nat, x < 2 ^ 64 →
      (s.serve id o a h).byte x = if a.ptr.toNat ≤ x ∧ x < a.ptr.toNat + a.size then BitVec.ofNat 8 (a.data / 2 ^ (8 * (x - a.ptr.toNat))) else s.byte x)
    ∧ (a.kind = .load → sent.readFails a.ptr.toNat a.size = false → s.unseen o.thread.cohort.toDie a.ptr.toNat a.size = [] → (s.serve id o a h).mem = s.mem
      ∧ ∃ know, (s.serve id o a h).op? id = some { o with phase := .answered (.served h (Memory.readNat s.mem a.ptr.toNat a.size) know), held := none })
    ∧ (a.kind = .atomic → sent.readFails a.ptr.toNat a.size = false →
      let old := Memory.readNat s.mem a.ptr.toNat a.size
      (∀ x : Nat, x < 2 ^ 64 → (s.serve id o a h).byte x = match atomOf a.code a.t a.size old a.data a.cmp with
        | some v => if a.ptr.toNat ≤ x ∧ x < a.ptr.toNat + a.size then BitVec.ofNat 8 (v / 2 ^ (8 * (x - a.ptr.toNat))) else s.byte x
        | none => s.byte x)
      ∧ ∃ know, (s.serve id o a h).op? id = some { o with phase := .answered (.served h old know), held := none })

/-- R182: a walk that completes caches its page where the die is its home, with the least recently used entry replaced, the model's choice
(log 57), and serves the one request that waits on it. -/
def Sys2Proof.Machine.AWalkServesTheRequestsBehindIt : Prop :=
  ∀ (s : State) (d : DieId) (page id : Nat), (s.die d).walks = [(page, [id])] → (s.die d).misses = [] → s.homed d page = true →
    exec (.translationWalk d page) s = .next ((s.modDie d fun x => { x with walks := [], cached := page :: x.cached.take 16383 }).walked d page id)

/-- R178, R179, R182: requests on their way. -/
def Obligations.RequestsFindTheirHolderAndWalk : Prop :=
  RequestsFindTheirHolder ∧ AWalkServesTheRequestsBehindIt

/-! ## Atomics -/

/-- R259, R260, R262, R266: an atomic whose checks pass is issued as one access of its width, with its operand, its expected
value and its order, on dc0 where it returns a value and on dc1 where it does not. -/
def Sys2Proof.Machine.AtomicWordsIssueOneAccess : Prop :=
  ∀ (f : Fields) (p : DWord) (v e : Nat),
    let does := fun (mk : Fields → Instr) (code : Nat) =>
      let n := if code = 0xBA then 16 else if f.ctl / 32 % 2 = 1 then 8 else 4
      Does (mk f) f
        (fun s b t => s.a64 b t f = some p ∧ (s.thread t).operand code f n = some (v, e) ∧ s.atomCheck t p n = none ∧ s.parkLine t p n = none ∧ s.roomFor b t)
        (fun s b t =>
          let order := f.ctl / 8 % 4
          s.issueAccess b t (if f.dst = 255 then 1 else 0)
            { kind := .atomic, ptr := p, size := n, code := code, t := f.ctl / 64 % 2 = 1, data := v, cmp := e, dst := f.dst.toNat
              acq := order = 1 || order = 3, rel := order = 2 || order = 3
              scope := if order = 0 then 0 else effScope (s.launchOf t.cohort).ladder (f.ctl % 8) })
    does .atomAdd 0xB0 ∧ does .atomMin 0xB1 ∧ does .atomMax 0xB2 ∧ does .atomAnd 0xB3 ∧ does .atomOr 0xB4 ∧ does .atomXor 0xB5 ∧ does .atomXchg 0xB6
    ∧ does .atomCas 0xB7 ∧ does .atomIncb 0xB8 ∧ does .atomDecb 0xB9 ∧ does .atomWcas 0xBA
    ∧ (∀ (q : DWord) (addr : Nat), Does (.atomTadd f) f
        (fun s b t => s.a64 b t f = some p ∧ s.atomCheck t p 128 = none ∧ s.taddSource t ((s.thread t).reg f.sb.toNat) = .ok q ∧ s.ownPending t q 128 = false
          ∧ s.parkLine t p 128 = none ∧ s.parkLine t q 128 = none ∧ s.reach t q 128 false = .place addr ∧ s.readFails addr 128 = false ∧ s.roomFor b t)
        (fun s b t =>
          let order := f.ctl / 8 % 4
          (s.issueAccess b t 1
            { kind := .atomic, ptr := p, size := 128, code := 0xBB, t := f.ctl / 64 % 2 = 1, data := Memory.readNat s.mem addr 128
              acq := order = 1 || order = 3, rel := order = 2 || order = 3
              scope := if order = 0 then 0 else effScope (s.launchOf t.cohort).ladder (f.ctl % 8) }).modThread t fun x =>
            { x with seen := x.seen ++ ((s.viewSyncs t.cohort.toDie addr 128).filter fun r => r.know ≠ []).map (s.nextId, ·) }))

/-- R263, R264, R265: what each atomic writes over the old value, and when it writes nothing: ATOM.TADD the sum of each of the 32 elements,
by FADD.RN or wrapping. -/
def Sys2Proof.Machine.AtomicsReplaceTheOldValue : Prop :=
  (∀ (t : Bool) (n old b c : Nat),
    atomOf 0xB0 false n old b c = some ((old + b) % 2 ^ (8 * n)) ∧ atomOf 0xB1 true n old b c = some (min old b) ∧ atomOf 0xB2 true n old b c = some (max old b)
    ∧ atomOf 0xB3 t n old b c = some (old &&& b) ∧ atomOf 0xB4 t n old b c = some (old ||| b) ∧ atomOf 0xB5 t n old b c = some (old ^^^ b)
    ∧ atomOf 0xB6 t n old b c = some b
    ∧ (old = c → atomOf 0xB7 t n old b c = some b ∧ atomOf 0xBA t n old b c = some b)
    ∧ (old ≠ c → atomOf 0xB7 t n old b c = none ∧ atomOf 0xBA t n old b c = none)
    ∧ (old < b → atomOf 0xB8 t n old b c = some (old + 1)) ∧ (b ≤ old → atomOf 0xB8 t n old b c = none)
    ∧ (b < old → atomOf 0xB9 t n old b c = some (old - 1)) ∧ (old ≤ b → atomOf 0xB9 t n old b c = none))
  ∧ (∀ (old b : Word) (c : Nat), atomOf 0xB1 false 4 old.toNat b.toNat c = some (if b.toInt < old.toInt then b.toNat else old.toNat)
    ∧ atomOf 0xB2 false 4 old.toNat b.toNat c = some (if old.toInt < b.toInt then b.toNat else old.toNat)
    ∧ atomOf 0xB0 true 4 old.toNat b.toNat c = some (faddBits 0 1 false old.toNat b.toNat 0))
  ∧ (∀ (old b : DWord) (c : Nat), atomOf 0xB1 false 8 old.toNat b.toNat c = some (if b.toInt < old.toInt then b.toNat else old.toNat)
    ∧ atomOf 0xB2 false 8 old.toNat b.toNat c = some (if old.toInt < b.toInt then b.toNat else old.toNat))
  ∧ (∀ (t : Bool) (n old b c : Nat), ∃ w, atomOf 0xBB t n old b c = some w ∧ w < 2 ^ 1024 ∧ ∀ j < 32,
      let x := old / 2 ^ (32 * j) % 2 ^ 32
      let y := b / 2 ^ (32 * j) % 2 ^ 32
      w / 2 ^ (32 * j) % 2 ^ 32 = if t then (x + y) % 2 ^ 32 else faddBits 0 1 false x y 0)
  ∧ (∀ (s : State) (id addr : Nat) (o : Op) (a : Access), a.kind = .atomic → a.rel = false →
      let w := atomOf a.code a.t a.size (Memory.readNat s.mem addr a.size) a.data a.cmp
      (s.obj? a.ptr = none → isGlobal a.ptr = false → (s.effect id o a addr).1 = Memory.readNat s.mem addr a.size
        ∧ (s.effect id o a addr).2.2.mem = (match w with | some v => Memory.writeBytes s.mem addr (bytesLE a.size v) | none => s.mem)))

/-- R259, R263 to R265: atomics. -/
def Obligations.AtomicsIssueAndReplaceTheOldValue : Prop :=
  AtomicWordsIssueOneAccess ∧ AtomicsReplaceTheOldValue

/-! ## The cistern and copies -/

/-- R216, R240: CTAG gives the lowest valid entry that covers its pointer, whether its run is all present, and the pointer's place in the
cistern, or a miss; CPRES gives 32 presence bits; CEVICT invalidates its entry, and completes as it issues, which is deduced (log 29); CFILL takes its run from its descriptor, describes it,
claims its lines and reads them, and traps where its entry, run or source is not allowed; CEVICT.WB writes its run back. -/
def Sys2Proof.Machine.CisternWordsUseTagsAndPresence : Prop :=
  ∀ (f : Fields) (p q : DWord) (a d : Word) (i n l : Nat) (e : TagEntry),
    let covers := fun (e : TagEntry) => e.valid = true ∧ e.tag.toNat * 128 ≤ q.toNat ∧ q.toNat < e.tag.toNat * 128 + 128 * (e.len.toNat + 1)
    let run := fun (s : State) (t : ThreadId) => (s.thread t).src64 f.sa = some p ∧ (s.thread t).src32 f.sb = some d
    let entry := fun (s : State) (t : ThreadId) => i = d.toNat % 4096 ∧ n = d.toNat / 4096 % 64 + 1 ∧ l = d.toNat / 2 ^ 18
      ∧ i < (s.cohort t.cohort).tags.length ∧ s.ownsBytes t.cohort.toCore (s.partOf t.cohort) (l * 128) (n * 128) = true
    let source := birthOf q = 0xFFF → serialOf q = 0
    Does (.ctag f) f (fun s _ t => (s.thread t).src64 f.sa = some p ∧ pointed p f.off 1 q ∧ s.regionCheck t q 1 = none ∧ ∀ e ∈ (s.cohort t.cohort).tags, ¬ covers e)
      (fun s _ t => s.modThread t fun x => x.setPair f.dst.toNat 0x80000000)
    ∧ Does (.ctag f) f (fun s _ t => (s.thread t).src64 f.sa = some p ∧ pointed p f.off 1 q ∧ s.regionCheck t q 1 = none
        ∧ (s.cohort t.cohort).tags[i]? = some e ∧ covers e ∧ ∀ j e', j < i → (s.cohort t.cohort).tags[j]? = some e' → ¬ covers e')
      (fun s _ t => s.modThread t fun x => x.setPair f.dst.toNat (BitVec.ofNat 64 (2 ^ 32 * (e.line.toNat * 128 + (q.toNat - e.tag.toNat * 128)) + i
        + if (List.range (e.len.toNat + 1)).all fun j => s.present t.cohort.toCore (e.line.toNat + j) then 0 else 2 ^ 30)))
    ∧ Does (.cpres f) f (fun s _ t => (s.thread t).src32 f.sa = some a ∧ a.toNat / 2 ^ 30 = 1 ∧ pointed (localBase a) f.off 1 q ∧ s.regionCheck t q 1 = none)
      (fun s _ t => s.modThread t fun x => x.setReg f.dst.toNat (BitVec.ofNat 32
        (((List.range 32).map fun j => if bitsOf (offsetOf q) 20 7 + j < 12288 && s.present t.cohort.toCore (bitsOf (offsetOf q) 20 7 + j) then 2 ^ j else 0).foldl (· + ·) 0)))
    ∧ Does (.cevict f) f (fun s _ t => (s.thread t).src32 f.sb = some d ∧ d.toNat % 4096 = i ∧ i < (s.cohort t.cohort).tags.length)
      (fun s b t =>
        let s := s.modCohort t.cohort fun c => { c with tags := c.tags.modify i fun e => { e with valid := false } }
        let r := s.addOp (s.newOp b t (some 2) (.cevict {}))
        r.2.endOp r.1)
    ∧ Traps (.cfill f) f (fun s _ t => run s t ∧ ((s.cohort t.cohort).tags.length ≤ d.toNat % 4096
        ∨ s.ownsBytes t.cohort.toCore (s.partOf t.cohort) (d.toNat / 2 ^ 18 * 128) ((d.toNat / 4096 % 64 + 1) * 128) = false))
        .illegalOperand (fun _ _ _ => 0) (fun _ _ _ => 0)
    ∧ Traps (.cfill f) f (fun s _ t => run s t ∧ entry s t ∧ pointed p f.off 1 q ∧ (offsetOf q % 128 ≠ 0 ∨ ¬ source ∨ offsetOf q + 128 * n > 2 ^ 30))
        .memoryFault (fun _ _ _ => if offsetOf q % 128 ≠ 0 then 0x10 else if birthOf q = 0xFFF ∧ serialOf q ≠ 0 then 0x12 else 0x11) (fun _ _ _ => q)
    ∧ Does (.cfill f) f (fun s b t => run s t ∧ entry s t ∧ pointed p f.off 128 q ∧ source ∧ offsetOf q + 128 * n ≤ 2 ^ 30 ∧ s.issueCheck t q (128 * n) = none
        ∧ s.requestsFull t b.order n = false ∧ s.claimHeld t t.cohort.toCore ((List.range n).map (l + ·)) = false)
      (fun s b t =>
        let e : TagEntry := { valid := true, tag := BitVec.ofNat 57 (q.toNat / 128), line := BitVec.ofNat 14 l, len := BitVec.ofNat 6 (n - 1) }
        let s := (s.modCohort t.cohort fun c => { c with tags := c.tags.set i e }).claimLines t.cohort.toCore ((List.range n).map (l + ·))
        (s.addOp (s.newOp b t (some 2) (.cfill { entry := i, line := l, ptr := q, left := (List.range n).map (l + ·), run := n }))).2)
    ∧ Does (.cevictWb f) f (fun s b t => (s.thread t).src32 f.sb = some d ∧ d.toNat % 4096 = i ∧ (s.cohort t.cohort).tags[i]? = some e ∧ e.valid = true
        ∧ s.requestsFull t b.order e.lines = false)
      (fun s b t =>
        let s := s.modCohort t.cohort fun c => { c with tags := c.tags.set i { e with valid := false } }
        (s.addOp (s.newOp b t (some 2) (.cevict { entry := i, line := e.line.toNat, ptr := BitVec.ofNat 64 (e.tag.toNat * 128),
                                                  left := (List.range e.lines).map (e.line.toNat + ·), run := e.lines }))).2)

/-- R240: a line of a CFILL is read from its source into the cistern and its claim ends; a line of a CEVICT.WB is stored at its
tagged pointer; the last line ends the operation. -/
def Sys2Proof.Machine.LineOperationsMoveOneLine : Prop :=
  ∀ (s : State) (id line : Nat) (o : Op) (l : LineOp), s.op? id = some o → s.opMoves id o = true →
    let p := ptrAdd l.ptr (128 * ((line : Int) - l.line))
    let place := cisternAt o.thread.cohort.toCore (line * 128)
    s.windowAccess p = false →
    (∀ bs, o.body = .cfill l → line ∈ l.left → s.engineWaits o.thread id p 128 false = false → (s.giveUp id).engineRead o.thread p 128 = .ok bs →
      let o' := { o with know := (s.giveUp id).engineHeard o.thread p 128 o.know }
      let u := ((((s.giveUp id).store place bs).addEdges place 128 o'.allEdges).engineCount o.thread p 128).unclaim o.thread.cohort.toCore [line]
      let left := l.left.filter (· ≠ line)
      exec (.cfillLine id line) s = .next (if left = [] then u.endOp id else u.setOp id { o' with body := .cfill { l with left := left } }))
    ∧ (∀ u left, o.body = .cevict l → l.left = line :: left → (line = l.line → s.evictHeld id o l = false) →
      s.engineWaits o.thread id p 128 true = false → (s.giveUp id).readFails place 128 = false →
      let o' := { o with know := join o.know ((s.giveUp id).heardAt o.thread place 128) }
      (s.giveUp id).engineWrite o.thread p (Memory.readBytes s.mem place 128) id o'.allEdges = .ok u →
      ∃ t, exec (.cevictWbLine id) s = .next t ∧ t.mem = u.mem
        ∧ t.op? id = if left = [] then none else some { o' with body := .cevict { l with left := left } })

/-- R240: the cistern's words. -/
def Obligations.CisternWordsAndLineOperations : Prop :=
  CisternWordsUseTagsAndPresence ∧ LineOperationsMoveOneLine

/-- R223, R224, R236, R241: COPY is queued as one copy of one row with its lines claimed, its fields from its operands and MOD; KICK is queued as a list whose records are
fetched in turn, each record's copy with the fields of its 64 bytes, and the word waits for the last; a KICK store reaches its register first. -/
def Sys2Proof.Machine.CopyAndKickAreQueued : Prop :=
  ∀ (f : Fields) (dst src mask list : DWord) (n : Word),
    let c : CopyOp := { dst := dst, src := src, len := (f.mod.toNat + 1) * 64, rows := 1, mc := decide (f.dst.toNat / 32 % 2 = 1)
                        nb := if f.dst.toNat / 16 % 2 = 1 then some (f.dst.toNat % 16) else none }
    let m := if f.dst.toNat / 32 % 2 = 1 then mask.toNat % 2 ^ 48 else 0
    Does (.copy f) f (fun s b t => (s.thread t).src64 f.sa = some dst ∧ (s.thread t).b64 f = some src
        ∧ (f.dst.toNat / 32 % 2 = 1 → (s.thread t).src64 f.sc = some mask) ∧ s.copyTrap t c m = none ∧ s.copiesFull t b.order 1 = false ∧ s.sharesHeld t (s.makeShares t c m) = false)
      (fun s b t => ((s.claimShares t (s.makeShares t c m)).addOp
        (s.newOp b t (some 3) (.copy { c with shares := s.makeShares t c m }))).2)
    ∧ Does (.kick f) f (fun s _ t => (s.thread t).src64 f.sa = some list ∧ (s.thread t).b32 f = some n ∧ s.kickTrap t list n.toNat = none)
      (fun s b t => (s.addOp (s.newOp b t (some 3) (.kick { list := list, count := n.toNat }))).2.waitFor t s.nextId)
    ∧ (∀ (a : Word) (p : DWord), Does (.st f) f
        (fun s b t =>
          let v := BitVec.ofNat 64 ((s.thread t).data f.dst.toNat 8)
          (s.thread t).src32 f.sa = some a ∧ a.toNat / 2 ^ 30 = 2 ∧ f.sb.toNat % 8 = 3 ∧ pointed (localBase a) f.off 8 p ∧ offsetOf p = 0
          ∧ s.roomFor b t ∧ (s.thread t).dc 3 < 63 ∧ s.engineHeld t = false
          ∧ s.kickTrap t (mkPtr 0xFFF (bitsOf v.toNat 63 63) (bitsOf v.toNat 29 0)) (bitsOf v.toNat 39 32 + 1) = none)
        (fun s b t =>
          let v := BitVec.ofNat 64 ((s.thread t).data f.dst.toNat 8)
          (s.addOp (s.newOp b t (some 3) (.kick { list := mkPtr 0xFFF (bitsOf v.toNat 63 63) (bitsOf v.toNat 29 0)
                                                  count := bitsOf v.toNat 39 32 + 1, mmio := true }))).2.waitFor t s.nextId))
    ∧ Traps (.kick f) f (fun s _ t => (s.thread t).src64 f.sa = some list ∧ (s.thread t).b32 f = some n ∧ (n = 0 ∨ n.toNat > 256))
        .illegalOperand (fun _ _ _ => 0) (fun _ _ _ => 0)
    ∧ (∀ (s : State) (id : Nat) (o : Op) (k : KickOp), s.op? id = some o → o.body = .kick k → k.mmio = true → s.opMoves id o = true →
        exec (.kickRegister id) s = .next (s.setOp id { o with body := .kick { k with mmio := false } }))
    ∧ (∀ (s : State) (id : Nat) (o : Op) (k : KickOp) (bs : List Byte), s.op? id = some o → o.body = .kick k → k.mmio = false → k.next < k.count →
        let p := ptrAdd k.list (64 * k.next)
        s.opMoves id o = true → s.engineWaits o.thread id p 64 false = false → s.copiesFull o.thread id 1 = false →
        let s1 := (s.giveUp id).setOp id { o with held := none, body := .kick { k with next := k.next + 1 } }
        s1.engineRead o.thread p 64 = .ok bs →
        let o' := { o with held := none, know := s1.engineHeard o.thread p 64 o.know }
        let s2 := s1.setOp id { o' with body := .kick { k with next := k.next + 1 } }
        let field := fun at' n => ofBytesLE ((bs.drop at').take n)
        let ctrl := field 0x28 4
        let c : CopyOp := { dst := BitVec.ofNat 64 (field 0 8), src := BitVec.ofNat 64 (field 8 8), len := field 0x10 4, rows := field 0x14 4
                            dstride := sextN (field 0x18 4) 32, sstride := sextN (field 0x1C 4) 32, mc := decide (ctrl / 32 % 2 = 1)
                            nb := if ctrl / 16 % 2 = 1 then some (ctrl % 16) else none, record := some p, list := some id }
        let m := field 0x20 8 % 2 ^ 48
        let slot := if ctrl / 64 % 2 = 1 then some (ctrl / 128 % 64) else none
        s2.recordFault o.thread c m slot = none → s2.sharesHeld o.thread (s2.makeShares o.thread c m) = false →
        exec (.kickRecordFetch id) s = .next ((s2.claimShares o.thread (s2.makeShares o.thread c m)).addOp
          { o' with ctr := none, dst := []
                    body := .copy { c with shares := s2.makeShares o.thread c m, slot := slot.map (s2.bindSlot o.thread.cohort) } }).2)

/-- R224 to R226, R228, R229: a chunk of a single-destination copy waits where its source does (what it does meanwhile, and that it is written whole, is the model's choice:
log 17), or is read and written up to its line's end, the claims of lines that no further row touches end, and its bytes are contributed; a copy whose shares are done ends, its record's STATUS with DONE, PARTIAL where a share was dropped, and the
cores missed, its contribution carrying every byte not delivered and its member; its operation ends, or closes with its last message. -/
def Sys2Proof.Machine.CopiesMoveChunksAndComplete : Prop :=
  ∀ (s : State) (id : Nat) (o : Op) (c : CopyOp), s.op? id = some o → o.body = .copy c → s.opMoves id o = true →
    (∀ x bs u, c.shares = [x] → x.done = false → x.dropped = false → s.queueHeld id o = false → c.slot = none → c.mc = false → c.list = none →
      let dst := ptrAdd c.dst (x.row * c.dstride + x.pos)
      let src := ptrAdd c.src (x.row * c.sstride + x.pos)
      let n := min (128 - offsetOf dst % 128) (c.len - x.pos)
      (s.engineWaits o.thread id src n false = true → exec (.copyChunkWrite id 0) s = .next (s.engineWait o.thread id false src n false)) ∧
      (s.engineWaits o.thread id src n false = false → s.engineWaits o.thread id dst n true = false →
      (s.giveUp id).engineRead o.thread src n = .ok bs →
      (s.giveUp id).engineWrite o.thread dst bs id { o with know := (s.giveUp id).engineHeard o.thread src n o.know }.allEdges = .ok u →
      ∃ t y k, exec (.copyChunkWrite id 0) s = .next t ∧ t.mem = u.mem
        ∧ t.op? id = some { o with know := k, body := .copy { c with shares := [y], started := true, sent := c.sent + if c.nb.isSome then n else 0 } }
        ∧ (∀ nb, c.nb = some nb → t.msg? s.nextId = some
            { body := .contribute o.thread.cohort nb { bytes := n, know := { o with know := k }.allEdges }, op := some id })
        ∧ y.row * c.len + y.pos = x.row * c.len + x.pos + n ∧ y.done = decide (y.row = c.rows)
        ∧ y.claims = x.claims.filter (c.touches y.row y.pos)
        ∧ ∀ l, t.writers (shareCore o.thread x) l = u.writers (shareCore o.thread x) l - (x.claims.filter fun l => !c.touches y.row y.pos l).count l))
    ∧ (∀ x l, c.shares = x :: l → (∀ y ∈ c.shares, y.done = true ∨ y.dropped = true) → (c.slot = none ∨ c.started = true) →
      exec (.copyComplete id) s = .next (s.finishCopy id o c none false))
    ∧ (∀ x l, c.shares = x :: l → (∀ y ∈ c.shares, y.done = true ∨ y.dropped = true) → (c.slot = none ∨ c.started = true) → c.list = none →
      let free := c.shares.foldl (fun (u : State) y => u.unclaim (shareCore o.thread y) y.claims) s
      let part := c.shares.any (·.dropped)
      ∃ u, exec (.copyComplete id) s = .next u
        ∧ (c.record = none → u.mem = s.mem)
        ∧ (∀ p a, c.record = some p → free.reach o.thread p 64 true = .place a →
            u.mem = Memory.writeBytes (Memory.writeBytes s.mem (a + 0x2C) (bytesLE 4 (if part then 3 else 1))) (a + 0x30) (bytesLE 8 (missedOf c.shares).toNat))
        ∧ (c.nb = none → (∀ m ∈ s.msgs, m.2.op ≠ some id) → u.op? id = none)
        ∧ (∀ nb, c.nb = some nb → u.op? id = some { o with closing := true } ∧ u.msg? s.nextId = some
            { body := .contribute o.thread.cohort nb { bytes := c.len * c.rows * max 1 c.shares.length - c.sent, member := true
                                                       flags := { partly := part, missed := missedOf c.shares }, know := o.allEdges }, op := some id }))

/-- R223 to R229, R241: copies. -/
def Obligations.CopiesAreQueuedMoveAndComplete : Prop :=
  CopyAndKickAreQueued ∧ CopiesMoveChunksAndComplete

/-! ## The object space -/

/-- R197, R199 to R207: an object word whose pointers name objects and whose value keeps its limit is issued as one operation
on dc5; a pointer that is not global or has SERIAL 0, and a value past its limit, are illegal operands. -/
def Sys2Proof.Machine.ObjectWordsAreCheckedAndIssued : Prop :=
  ∀ (f : Fields) (p : DWord) (v : Word) (w : DWord),
    let enters := fun (code : ObjCode) (wide : Bool) (p x : DWord) (s : State) (b : Bundle) (t : ThreadId) => (s.addOp
      { s.newOp b t (some 5) (.obj { code := code, ptr := p, b := x, ctl := f.ctl, die := t.cohort.die, dst := f.dst.toNat, wide := wide }) with
        dst := if f.dst = 255 then [] else if wide then [f.dst.toNat, f.dst.toNat + 1] else [f.dst.toNat] }).2
    let named := fun (s : State) (b : Bundle) (t : ThreadId) => s.a64 b t f = some p ∧ namesObject p = true ∧ s.roomFor b t
    let valued := fun (s : State) (b : Bundle) (t : ThreadId) => named s b t ∧ (s.thread t).b32 f = some v
    Does (.oalloc f) f (fun s b t => (s.thread t).b32 f = some v ∧ v ≠ 0 ∧ v.toNat ≤ 2 ^ 30 ∧ s.roomFor b t) (enters .alloc true 0 (v.setWidth 64))
    ∧ Does (.ofree f) f named (enters .free false p 0) ∧ Does (.opin f) f named (enters .pin false p 0) ∧ Does (.ounpin f) f named (enters .unpin false p 0)
    ∧ Does (.ocoloc f) f (fun s b t => named s b t ∧ (s.thread t).src64 f.sb = some w ∧ namesObject w = true) (enters .coloc false p w)
    ∧ Does (.ocolocLeave f) f named (enters .leave false p 0) ∧ Does (.olocate f) f named (enters .locate false p 0)
    ∧ Does (.olocateGuess f) f named (enters .locate false p 0) ∧ Does (.ostubfree f) f named (enters .stubfree false p 0)
    ∧ Does (.oinfo f) f named (enters .info true p 0)
    ∧ Does (.omigrate f) f (fun s b t => valued s b t ∧ v.toNat < 0xFFE) (enters .migrate false p (v.setWidth 64))
    ∧ Does (.osplit f) f (fun s b t => valued s b t ∧ 21 ≤ v.toNat ∧ v.toNat ≤ 29) (enters .split false p (v.setWidth 64))
    ∧ Traps (.oalloc f) f (fun s _ t => (s.thread t).b32 f = some v ∧ (v = 0 ∨ v.toNat > 2 ^ 30)) .illegalOperand (fun _ _ _ => 0) (fun _ _ _ => 0)
    ∧ Traps (.opin f) f (fun s b t => s.a64 b t f = some p ∧ namesObject p = false) .illegalOperand (fun _ _ _ => 0) (fun _ _ _ => 0)
    ∧ Traps (.omigrate f) f (fun s b t => valued s b t ∧ v.toNat ≥ 0xFFE) .illegalOperand (fun _ _ _ => 0) (fun _ _ _ => 0)
    ∧ Traps (.osplit f) f (fun s b t => valued s b t ∧ ¬ (21 ≤ v.toNat ∧ v.toNat ≤ 29)) .illegalOperand (fun _ _ _ => 0) (fun _ _ _ => 0)

/-- R175, R194, R195, R198, R200 to R207, R410: the Wellhead answers each request that a path leads to: no object, another realm's object, a
pinned object that is to be freed, a pin count at its end; and the property, the count or the pointer asked for. A free of an object that
nothing keeps marks its record FREEING, and then frees it. OLOCATE beyond the last extent answers from the last, which is deduced (log 27);
OCOLOC joins where the member is at the leader's chip; OMIGRATE of one extent gives the first refusal of R204, or has it accepted; OSPLIT,
OSTUBFREE and leaving a group change the record. -/
def Sys2Proof.Machine.TheWellheadAnswersObjectRequests : Prop :=
  ∀ (s : State) (id : Nat) (o : Op) (b : ObjOp), s.op? id = some o → o.body = .obj b → s.mayPerform id o = true →
    ¬ (b.code = .locate ∧ b.ctl = 1) →
    (b.code ≠ .alloc → (s.pathDown o.thread.cohort.chip (birthOf b.ptr)).isSome = true → exec (.wellheadObjectRequest id) s = .next s) ∧
    ((b.code = .alloc ∨ s.pathDown o.thread.cohort.chip (birthOf b.ptr) = none) →
    (b.stage = 1 → b.code = .free → exec (.wellheadObjectRequest id) s = .next ((s.freeObject (keyOf b.ptr)).landObj id o b 0)) ∧ (b.stage = 0 →
    let answers := fun (u : State) (v : Nat) => exec (.wellheadObjectRequest id) s = .next (u.landObj id o b v)
    (b.code ≠ .alloc → s.obj? b.ptr = none → s.window? b.ptr = none → answers s (if b.wide then 0xFFFFFFFF10000000 else 0x10000000))
    ∧ (∀ n u, b.code = .alloc → s.newObject o.thread.cohort.chip b.die (s.cohort o.thread.cohort).vf b.b.toNat (21 + b.ctl) = some (n, u) →
        exec (.wellheadObjectRequest id) s = .next (u.landObj id o b (mkPtr o.thread.cohort.chip n 0).toNat))
    ∧ (b.code = .alloc → s.newObject o.thread.cohort.chip b.die (s.cohort o.thread.cohort).vf b.b.toNat (21 + b.ctl) = none → answers s 0xFFFFFFFF20000000)
    ∧ ∀ x, b.code ≠ .alloc → s.obj? b.ptr = some x →
      (x.realm ≠ s.realmOf o.thread.cohort → answers s (if b.wide then 0xFFFFFFFF60000000 else 0x60000000))
      ∧ (x.realm = s.realmOf o.thread.cohort →
        (b.code = .free → x.pins ≠ 0 → answers s 0x30000000)
        ∧ (b.code = .free → x.pins = 0 → s.objBusy (keyOf b.ptr) x = false → exec (.wellheadObjectRequest id) s = .next
            ((s.setObj (keyOf b.ptr) { x with state := .freeing }).setOp id { o with body := .obj { b with stage := 1 } }))
        ∧ (b.code = .pin → s.objMoving (keyOf b.ptr) x = false → x.state = .allocated → x.pins = 255 → answers s 0x80000000)
        ∧ (b.code = .pin → s.objMoving (keyOf b.ptr) x = false → x.state = .allocated → x.pins < 255 → answers (s.setObj (keyOf b.ptr) { x with pins := x.pins + 1 }) (x.pins + 1))
        ∧ (b.code = .unpin → x.state = .allocated → x.pins = 0 → answers s 0x80000000)
        ∧ (b.code = .unpin → x.state = .allocated → x.pins ≠ 0 → answers (s.setObj (keyOf b.ptr) { x with pins := x.pins - 1 }) (x.pins - 1))
        ∧ (b.code = .locate → s.moves = [] → answers s (x.extents.getD (min (offsetOf b.ptr / 2 ^ x.log2) (x.extents.length - 1)) {}).holder)
        ∧ (b.code = .info → b.ctl = 0 → answers s x.size) ∧ (b.code = .info → b.ctl = 1 → answers s x.log2) ∧ (b.code = .info → b.ctl = 2 → answers s x.pins)
        ∧ (b.code = .info → b.ctl = 3 → answers s (match x.group with | some g => (mkPtr g.1 g.2 0).toNat | none => 0))
        ∧ (b.code = .info → b.ctl = 4 → answers s ((if x.summary = [] then 0 else 1) + (if ∃ e ∈ x.extents, e.state ≠ .rest then 2 else 0)
            + (if ∃ e ∈ x.extents, e.stubs ≠ [] then 4 else 0)))
        ∧ (b.code = .leave → x.group ≠ some (keyOf b.ptr) → answers (s.setObj (keyOf b.ptr) { x with group := none }) 0)
        ∧ (b.code = .coloc → s.obj? b.b = none → s.window? b.b = none → answers s 0x10000000)
        ∧ (∀ named leader, b.code = .coloc → s.obj? b.b = some named → s.objects.get? (named.group.getD (keyOf b.b)) = some leader →
            let g := named.group.getD (keyOf b.b)
            let full := keyOf b.ptr ≠ g ∧ (s.objects.filter fun m => m.2.group = some g && m.1 ≠ g && m.1 ≠ keyOf b.ptr).length ≥ 63
            (leader.realm ≠ x.realm ∨ full → answers s 0x70000000)
            ∧ (leader.realm = x.realm → ¬ full → (∀ e ∈ x.extents, e.holder = (leader.extents.getD 0 {}).holder) → answers (s.joinGroup (keyOf b.ptr) g) 0))
        ∧ (b.code = .migrate → x.group = none → b.ctl = 0 →
            let i := min (offsetOf b.ptr / 2 ^ x.log2) (x.extents.length - 1)
            let dest := b.b.toNat
            let e := x.extents.getD i {}
            (s.chipExists dest = false → answers s 0x10000000)
            ∧ (s.chipExists dest = true → x.pins ≠ 0 → answers s 0x30000000)
            ∧ (s.chipExists dest = true → x.pins = 0 → s.objBusy (keyOf b.ptr) x = true → answers s 0x40000000)
            ∧ (s.chipExists dest = true → x.pins = 0 → s.objBusy (keyOf b.ptr) x = false →
              (s.realmVf dest x.realm = none → answers s 0x60000000)
              ∧ ∀ vf, s.realmVf dest x.realm = some vf →
                (e.holder = dest → answers s 0)
                ∧ (e.holder ≠ dest → e.stubLimit dest = true → answers s 0x50000000)
                ∧ (e.holder ≠ dest → e.stubLimit dest = false → exec (.wellheadObjectRequest id) s = .next
                    ((s.acceptMoves [(keyOf b.ptr, i)] dest vf (s.partOf o.thread.cohort) (some id) (s.ctxOf o.thread.cohort)).setOp id
                      { o with body := .obj { b with stage := 1 } }))))
        ∧ (b.code = .stubfree → s.moves = [] → answers
            (s.setObj (keyOf b.ptr) { x with extents := x.extents.map fun e => { e with stubs := e.stubs.filter fun y => e.holder = y.1 } })
            (min 255 (x.extents.map fun e => (e.stubs.filter fun y => e.holder ≠ y.1).length).sum))
        ∧ (b.code = .split → b.b.toNat < x.log2 → (x.group.isSome = true → answers s 0x70000000) ∧ (x.group = none → x.pins ≠ 0 → answers s 0x30000000)
            ∧ (x.group = none → x.pins = 0 → s.objBusy (keyOf b.ptr) x = true → answers s 0x40000000)
            ∧ (x.group = none → x.pins = 0 → s.objBusy (keyOf b.ptr) x = false → (∀ e ∈ x.extents, e.fwd = []) →
                answers (s.setObj (keyOf b.ptr) (x.split b.b.toNat)) 0))
        ∧ (b.code = .split → b.b.toNat ≥ x.log2 → answers s 0x90000000))))

/-- R197 to R207: object words. -/
def Obligations.ObjectWordsAreIssuedAndAnswered : Prop :=
  ObjectWordsAreCheckedAndIssued ∧ TheWellheadAnswersObjectRequests

/-- R183, R187, R189, R410: a move goes from PENDING to COPYING when its frames are reserved and no line is pinned, with the source's page
entries and dirty L2 lines of the extent gone; it has its pages translated, and while a path leads there goes to COMMITTING when they are copied, and to REST at its destination when the Wellhead has acknowledged: the source is then a stub, the counters are
zero, and the queue moves with the extent; without frames on one die, which the model asks for (log 57), it is at REST where it was. Engine
work that comes to an extent in transit takes the last place of its queue (R147, R188), the model's reading (log 17). -/
def Sys2Proof.Machine.AMoveFollowsItsProtocol : Prop :=
  ∀ (s : State) (mv : Nat) (m : Move) (o : Obj), s.move? mv = some m → s.objects.get? m.obj = some o → m.held = none → m.ext < o.extents.length →
    let e := o.extents.getD m.ext {}
    let base := (mkPtr m.obj.1 m.obj.2 0).toNat / 65536
    let extent := fun (t : State) => (t.objects.get? m.obj).map fun x => x.extents.getD m.ext {}
    (e.state = .pending → m.ready = true → s.pins = [] → e.fwd = [] → (∀ d, (s.die ⟨m.src, d⟩).walks = [] ∧ (s.die ⟨m.src, d⟩).misses = []) → ∀ die,
      ∃ t, exec (.framesReserved mv die) s = .next t ∧ extent t = some { e with state := .copying } ∧ t.mem = s.mem
        ∧ ∀ p ∈ o.pagesOf m.ext, ∀ d < 4, base + p ∉ (t.die ⟨m.src, d⟩).cached
          ∧ (d = (o.pages.getD p {}).die → ∀ l, l / 512 = (o.pages.getD p {}).frame → Tab.getD (t.die ⟨m.src, d⟩).l2 l false = false))
    ∧ (m.ready = false → m.op = none → (∀ d < 4, s.allocFrames ⟨m.dest, d⟩ (s.vf m.dest m.vf).part m.vf (o.pagesOf m.ext).length = none) →
      ∃ t, exec (.framesRefused mv) s = .next t ∧ extent t = some { e with state := .rest, dest := 0 } ∧ t.move? mv = none)
    ∧ (e.state = .copying → (s.pathDown m.src m.dest).isSome = true → exec (.copyDoneCommit mv) s = .next s)
    ∧ (∀ p, e.state = .copying → s.pathDown m.src m.dest = none → o.pagesOf m.ext = [p] → base + p ∉ m.walked →
      exec (.copyDoneCommit mv) s = .next (s.modDie ⟨m.src, (o.pages.getD p {}).die⟩ fun x => x.walkFor (base + p) mv))
    ∧ (e.state = .copying → s.pathDown m.src m.dest = none → (∀ p ∈ o.pagesOf m.ext, base + p ∈ m.walked) →
      ∃ t, exec (.copyDoneCommit mv) s = .next t ∧ extent t = some { e with state := .committing } ∧ t.mem = s.mem)
    ∧ (e.state = .committing → exec (.wellheadCommit mv) s = .next { s with moves := s.moves.put mv { m with acked := true } })
    ∧ (m.acked = true → s.forwarding m o = false → (∀ c v, (s.vf c v).dlenable = false) →
      ∃ t, exec (.commitAck mv) s = .next t ∧ t.move? mv = none ∧ t.mem = s.mem
        ∧ extent t = some { holder := m.dest, state := .rest, dest := 0, stubs := (e.stubs.filter fun x => x.1 ≠ m.dest) ++ [(m.src, m.dest)]
                            queue := [], fwd := e.queue, loc := 0, remote := [(0, 0), (0, 0)] })
    ∧ (∀ (t : ThreadId) (id : Nat) (p : DWord) (n : Nat) (wr : Bool), e.state = .copying ∨ e.state = .committing → keyOf p = m.obj →
      offsetOf p / 2 ^ o.log2 = m.ext → (offsetOf p + n - 1) / 2 ^ o.log2 = m.ext → id ∉ e.queue → o.waiting = [] → o.queued e.holder < 256 →
      s.engineHeldAt t id p n = false → s.reach t p n wr = .transit →
      let u := s.engineWait t id false p n wr
      u.mem = s.mem ∧ ∃ x, extent u = some x ∧ x.queue = e.queue ++ [id] ∧ x.state = e.state)

/-- R184: at the end of a decay period every counter of the function's extents at the holder is halved, rounding down; before
it, nothing changes. -/
def Sys2Proof.Machine.DecayHalvesTheCounters : Prop :=
  ∀ (s : State) (chip vf : Nat),
    (s.now < (s.vf chip vf).decayAt + (s.vf chip vf).decayTicks → exec (.decayPeriod chip vf) s = .next s)
    ∧ (∀ k o e, (s.vf chip vf).decayAt + (s.vf chip vf).decayTicks ≤ s.now → (s.vf chip vf).affinity.getLsbD 31 = false →
      s.objects = [(k, o)] → s.vfFor chip o = some vf → o.extents = [e] → e.holder = chip →
      exec (.decayPeriod chip vf) s = .next ((s.setObj k { o with extents := [{ e with loc := e.loc / 2, remote := e.remote.map fun r => (r.1, r.2 / 2) }] }).modVf chip vf
        fun v => { v with decayAt := s.now }))

/-- R184, R187, R189: moves and decay. -/
def Obligations.MovesFollowTheirProtocolAndCountersDecay : Prop :=
  AMoveFollowsItsProtocol ∧ DecayHalvesTheCounters


/-! ## Arrival registers, fences and crew exchange -/

/-- R267, R271 to R273: ARRIVE, ARRIVE.BYTES and NBSET each send one message, counted on dc1 until it has counted at its
register; a MEMBERS above 65,535 is an illegal operand. -/
def Sys2Proof.Machine.ArrivalWordsSendOneMessage : Prop :=
  ∀ (f : Fields) (m n : Word),
    let nb := f.ctl % 16
    let rel := decide (f.ctl / 16 % 2 = 1)
    let sends := fun (s : State) (b : Bundle) (t : ThreadId) (body : MsgBody) (rel : Bool) =>
      let s1 := { s with nextId := s.nextId + 1, msgs := s.msgs.put s.nextId { body := body, op := some (s.nextId + 1), token := some t } }
      let o := s1.newOp b t (some 1) (.message s.nextId rel)
      let s2 := (s1.addOp o).2
      if rel then s2.modThread t (·.bar { level := 3, id := s.nextId + 2, know := o.know }) else s2
    Does (.arrive f) f (fun _ _ _ => True) (fun s b t => sends s b t (.contribute t.cohort nb { bytes := 0, member := true }) rel)
    ∧ Does (.arriveBytes f) f (fun s _ t => (s.thread t).b32 f = some n)
        (fun s b t => sends s b t (.contribute t.cohort nb { bytes := n.toNat, member := false }) rel)
    ∧ Does (.nbset f) f (fun s _ t => (s.thread t).src32 f.sa = some m ∧ (s.thread t).b32 f = some n ∧ m.toNat ≤ 65535)
        (fun s b t => sends s b t (.nbset t.cohort nb (m.setWidth 16) n) false)
    ∧ Traps (.nbset f) f (fun s _ t => (s.thread t).src32 f.sa = some m ∧ (s.thread t).b32 f = some n ∧ m.toNat > 65535) .illegalOperand
        (fun _ _ _ => 0) (fun _ _ _ => 0)

/-- R268, R270, R271: a contribution that waits for nothing counts at its register and sets its thread's token to the PHASE it
counted in; a release waits for the thread's earlier accesses; and what counting does to a register in each state. -/
def Obligations.ContributionsCountAtTheirRegister : Prop :=
  (∀ (s : State) (m i : Nat) (g : Msg) (o : Op) (c : CohortId) (t : ThreadId) (nb : Nat) (k : Contribution), s.msg? m = some g →
    g.body = .contribute c nb k → g.op = some i → s.op? i = some o → g.token = some t → s.live c = true → s.resident c = true →
    (s.vf c.chip (s.cohort c).vf).ctx ≠ .deferring → nb < (s.cohort c).nbs.length → nb < (s.thread t).tokens.length →
    (∀ p ∈ s.ops, holdsBack p i o = false) →
    ∃ u, exec (.arrivalContribution m) s = .next u
      ∧ (u.cohort c).nbs.getD nb {} = ((s.cohort c).nbs.getD nb {}).arrive { k with know := k.know ++ s.arrivalEdges i o }
      ∧ (u.thread t).tokens.getD nb 0 = ((s.cohort c).nbs.getD nb {}).phase ∧ u.op? i = none ∧ u.msg? m = none ∧ u.mem = s.mem)
  ∧ (∀ (s : State) (m i j : Nat) (g : Msg) (c : CohortId) (t : ThreadId) (nb : Nat) (k : Contribution) (o p : Op), s.msg? m = some g →
      g.body = .contribute c nb k → g.op = some i → s.op? i = some o → g.token = some t → o.body = .message m true →
      (j, p) ∈ s.ops → j < i → p.thread = o.thread → p.completeAt 3 = false → exec (.arrivalContribution m) s = .next s)
  ∧ (∀ (r : Nb) (k : Contribution), r.armed = false → r.arrive k = { r with last := { r.last with past := true } })
  ∧ (∀ (r : Nb) (k : Contribution), r.armed = true → k.bytes ≤ r.bleft.toNat → (k.member = true → r.mleft ≠ 0) →
      let bleft := r.bleft - BitVec.ofNat 32 k.bytes
      let mleft := if k.member then r.mleft - 1 else r.mleft
      let flags : NbFlags := { err := r.flags.err || k.flags.err, partly := r.flags.partly || k.flags.partly, past := r.flags.past || k.flags.past
                               missed := r.flags.missed ||| k.flags.missed }
      (mleft = 0 ∧ bleft = 0 → (r.arrive k).phase = r.phase + 1 ∧ (r.arrive k).last = flags ∧ (r.arrive k).mleft = r.members
        ∧ (r.arrive k).done = flags ∧ (r.arrive k).bleft = r.bytes ∧ (r.arrive k).flags = {} ∧ (r.arrive k).armed = true)
      ∧ (¬ (mleft = 0 ∧ bleft = 0) → (r.arrive k).phase = r.phase ∧ (r.arrive k).last = r.last ∧ (r.arrive k).mleft = mleft
        ∧ (r.arrive k).bleft = bleft ∧ (r.arrive k).flags = flags))
  ∧ (∀ (r : Nb) (k : Contribution), r.armed = true → k.bytes > r.bleft.toNat → k.member = false → r.mleft ≠ 0 →
      (r.arrive k).bleft = 0 ∧ (r.arrive k).flags.past = true ∧ (r.arrive k).mleft = r.mleft ∧ (r.arrive k).phase = r.phase)

/-- R270, R272: AWAIT whose register has passed the thread's token writes LAST and makes the token PHASE; else the thread parks
at the word. -/
def Sys2Proof.Machine.AwaitTakesTheCompletedPhase : Prop :=
  ∀ (f : Fields) (nb : Nat), f.ctl % 16 = nb →
    Does (.await f) f (fun s _ t => (s.thread t).deferred = [] ∧ s.contributed t nb = true ∧ ((s.cohort t.cohort).nbs.getD nb {}).phase ≠ (s.thread t).tokens.getD nb 0)
      (fun s _ t =>
        let r := (s.cohort t.cohort).nbs.getD nb {}
        (s.modThread t fun x => { x with tokens := x.tokens.set nb r.phase, know := join x.know (s.brought t r.lastKnow) }).modThread t fun x =>
          x.setPair f.dst.toNat
          (BitVec.ofNat 64 (r.done.missed.toNat + (if r.done.err then 2 ^ 48 else 0) + (if r.done.partly then 2 ^ 49 else 0) + (if r.done.past then 2 ^ 50 else 0))))
    ∧ Does (.await f) f (fun s _ t => s.contributed t nb = false ∨ ((s.cohort t.cohort).nbs.getD nb {}).phase = (s.thread t).tokens.getD nb 0)
      (fun s b t => (s.leave t).modThread t fun x => { x with run := .parked (.arrival nb), word := b.word, inside := true })

/-- R245, R247, R274: FENCE enters one fence of its kind and scope, which a later event waits for; a release fence stays while an
earlier access has not completed, and a fence of any kind is gone once none is left. -/
def Sys2Proof.Machine.FencesWaitForEarlierAccesses : Prop :=
  (∀ f : Fields, Does (.fence f) f (fun _ _ _ => True) (fun s b t =>
      let fence : Fence := { id := s.nextId, kind := f.ctl / 8 % 4, level := effScope (s.launchOf t.cohort).ladder (f.ctl % 8)
                             know := (s.newOp b t none (.clock 255)).know }
      (({ s with nextId := s.nextId + 1 }).modThread t fun x =>
        { (if fence.kind = 1 then x else x.bar { level := fence.level, id := fence.id, know := fence.know }) with
            fences := x.fences ++ [fence] }).settleFences t))
  ∧ (∀ (s : State) (t : ThreadId) (f : Fence), f.kind < 4 → (s.thread t).fences = [f] → (s.thread t).deferred = [] →
      (∀ p ∈ s.ops, p.2.thread = t → f.id ≤ p.1) → ((s.settleFences t).thread t).fences = [])
  ∧ (∀ (s : State) (t : ThreadId) (f : Fence) (i : Nat) (o : Op), (s.thread t).fences = [f] → f.kind = 2 → (i, o) ∈ s.ops → o.thread = t →
      i < f.id → o.completeAt f.level = false → s.settleFences t = s)

/-- R247, R270 to R274: arrival words, AWAIT and FENCE. -/
def Obligations.ArrivalWordsAwaitsAndFences : Prop :=
  ArrivalWordsSendOneMessage ∧ AwaitTakesTheCompletedPhase ∧ FencesWaitForEarlierAccesses

/-- R58, R275 to R277: BALLOT gives every active member the mask of the lanes whose predicate holds; SHFL gives each the source A
of the lane that its mode names inside its segment, or 0 where that lane is out of the segment or has left. -/
def Sys2Proof.Machine.BallotAndShuffleReadTheOtherLanes : Prop :=
  ∀ (f : Fields) (s : State) (q : QuadId) (k : Nat) (b : Bundle),
    (∀ m : Word, Issuing s (.ballot f) f q k b → (∀ t ∈ b.threads, ∀ u ∈ b.threads, t.tid % 32 = u.tid % 32 → t = u) →
      (∀ l < 32, m.getLsbD l = (s.executing b f).any fun u => u.tid % 32 = l && (s.thread u).pred f.sa.toNat) →
      exec (.ballot f) s = .next (s.afterWord (.ballot f) q k b f fun t => (s.thread t).setReg f.dst.toNat m))
    ∧ (∀ (n : ThreadId → Word) (v : ThreadId → Nat), Issuing s (.shfl f) f q k b →
      (∀ t ∈ s.executing b f, (s.thread t).b32 f = some (n t)) →
      (let z := 2 ^ (f.ctl / 8 + 1)
       let held := fun (t : ThreadId) (l : Nat) =>
         if crewMember t l ∈ b.threads then
           if f.ctl / 4 % 2 = 1 then (((s.thread (crewMember t l)).src64 f.sa).getD 0).toNat else (((s.thread (crewMember t l)).src32 f.sa).getD 0).toNat
         else 0
       ∀ t ∈ s.executing b f,
         let l := t.tid % 32
         (f.ctl % 4 = 0 → v t = held t (l - l % z + (n t).toNat % z))
         ∧ (f.ctl % 4 = 1 → v t = if (n t).toNat ≤ l % z then held t (l - (n t).toNat) else 0)
         ∧ (f.ctl % 4 = 2 → v t = if l % z + (n t).toNat < z then held t (l + (n t).toNat) else 0)
         ∧ (f.ctl % 4 = 3 → v t = held t (l - l % z + Nat.xor (l % z) ((n t).toNat % z)))) →
      exec (.shfl f) s = .next (s.afterWord (.shfl f) q k b f fun t =>
        if f.ctl / 4 % 2 = 1 then (s.thread t).setPair f.dst.toNat (BitVec.ofNat 64 (v t)) else (s.thread t).setReg f.dst.toNat (BitVec.ofNat 32 (v t))))

/-- R278, R279: CREDUCE gives every active member the reduction over them all and CSCAN that of the lanes at or below it, or
strictly below under .EXCL, in every OP and width; a sum wraps, and a minimum or maximum is the least or greatest of the sources; CVOTE
decides over their predicates or values. -/
def Sys2Proof.Machine.ReductionsScansAndVotes : Prop :=
  ∀ (f : Fields) (s : State) (q : QuadId) (k : Nat) (b : Bundle) (x : ThreadId → Word) (v : ThreadId → Nat),
    let act := s.executing b f
    let held := fun (i : Instr) => Issuing s i f q k b ∧ ∀ t ∈ act, (s.thread t).src32 f.sa = some (x t)
    let sum := fun (l : List ThreadId) => BitVec.ofNat 32 ((l.map fun t => (x t).toNat).foldl (· + ·) 0)
    let gives := fun (i : Instr) (g : ThreadId → Thread) => exec i s = .next (s.afterWord i q k b f g)
    let preds := fun (t : ThreadId) => (s.thread t).pred f.sa.toNat
    let every := fun (i : Instr) (r : CrewRead) => Issuing s i f q k b ∧ ∀ t ∈ act, (s.thread t).crewSrc f r = some (v t)
    let wide := decide (f.ctl / 16 % 2 = 1)
    let pair := decide (f.ctl / 4 % 2 = 1)
    let bits := if wide then 64 else 32
    (every (.creduce f) (reduceRead f) → gives (.creduce f) fun t => (s.thread t).putWide f wide (reduceOf (f.ctl % 16) bits (act.map v)))
    ∧ (every (.cscan f) (reduceRead f) → gives (.cscan f) fun t => (s.thread t).putWide f wide (reduceOf (f.ctl % 16) bits
        ((act.filter fun u => u.tid < t.tid || (f.ctl / 32 % 2 = 0 && u.tid = t.tid)).map v)))
    ∧ (f.ctl % 4 = 2 → every (.cvote f) (if pair then .pair else .word) →
        gives (.cvote f) fun t => (s.thread t).setPred f.dst.toNat (act.all fun u => v u = v (act.headD t)))
    ∧ (f.ctl % 4 = 3 → every (.cvote f) (if pair then .pair else .word) → gives (.cvote f) fun t => (s.thread t).putWide f pair (mostOf (act.map v)))
    ∧ (f.ctl = 0 → held (.creduce f) → gives (.creduce f) fun t => (s.thread t).setReg f.dst.toNat (sum act))
    ∧ (∀ m : Word, f.ctl = 4 → held (.creduce f) → (∀ t ∈ act, (x t).toNat ≤ m.toNat) → (∃ t ∈ act, x t = m) →
        gives (.creduce f) fun t => (s.thread t).setReg f.dst.toNat m)
    ∧ (∀ m : Word, f.ctl = 1 → held (.creduce f) → (∀ t ∈ act, m.toInt ≤ (x t).toInt) → (∃ t ∈ act, x t = m) →
        gives (.creduce f) fun t => (s.thread t).setReg f.dst.toNat m)
    ∧ (f.ctl = 0 → held (.cscan f) → gives (.cscan f) fun t => (s.thread t).setReg f.dst.toNat (sum (act.filter fun u => u.tid ≤ t.tid)))
    ∧ (f.ctl = 32 → held (.cscan f) → gives (.cscan f) fun t => (s.thread t).setReg f.dst.toNat (sum (act.filter fun u => u.tid < t.tid)))
    ∧ (f.ctl = 0 → Issuing s (.cvote f) f q k b → gives (.cvote f) fun t => (s.thread t).setPred f.dst.toNat (act.all preds))
    ∧ (f.ctl = 1 → Issuing s (.cvote f) f q k b → gives (.cvote f) fun t => (s.thread t).setPred f.dst.toNat (act.any preds))
    ∧ (f.ctl = 2 → held (.cvote f) → (∀ t ∈ act, ∀ u ∈ act, x t = x u) → gives (.cvote f) fun t => (s.thread t).setPred f.dst.toNat true)
    ∧ (f.ctl = 2 → held (.cvote f) → (∃ t ∈ act, ∃ u ∈ act, x t ≠ x u) → gives (.cvote f) fun t => (s.thread t).setPred f.dst.toNat false)
    ∧ (∀ m : Word, f.ctl = 3 → held (.cvote f) → (∃ t ∈ act, x t = m) → (∀ w, w ≠ m → (act.filter fun t => x t = w).length < (act.filter fun t => x t = m).length) →
        gives (.cvote f) fun t => (s.thread t).setReg f.dst.toNat m)

/-- R74, R76, R86 to R89, R278, R279: what the reductions give from their inputs. At 32 and at 64 bits ADD is the sum modulo 2^n, MIN and MAX are an
input that no other passes, signed and unsigned, AND, OR and XOR work bit by bit, and no input gives each operation's identity. FADD is
the exact real sum rounded once to nearest, and a NaN among the inputs makes it NaN; FMIN and FMAX are an input that no input that is not NaN passes, and
NaN where every input is. MOST is the first of the most frequent values. -/
def Sys2Proof.Machine.ReductionsCombineTheirInputs : Prop :=
  (∀ (n : Nat) (l : List Nat), n = 32 ∨ n = 64 → (∀ v ∈ l, v < 2 ^ n) →
    let r := fun op => reduceOf op n l
    r 0 = l.sum % 2 ^ n
    ∧ (l ≠ [] → r 1 ∈ l ∧ r 2 ∈ l ∧ r 3 ∈ l ∧ r 4 ∈ l ∧ ∀ v ∈ l, sextN (r 1) n ≤ sextN v n ∧ sextN v n ≤ sextN (r 2) n ∧ r 3 ≤ v ∧ v ≤ r 4)
    ∧ (∀ j < n, (r 5).testBit j = l.all (·.testBit j) ∧ (r 6).testBit j = l.any (·.testBit j) ∧ (r 7).testBit j = decide (l.countP (·.testBit j) % 2 = 1))
    ∧ (l = [] → r 1 = 2 ^ (n - 1) - 1 ∧ r 2 = 2 ^ (n - 1) ∧ r 3 = 2 ^ n - 1 ∧ r 4 = 0 ∧ r 8 = 0 ∧ r 9 = 0x7F800000 ∧ r 10 = 0xFF800000))
  ∧ (∀ l : List Nat, (∀ v ∈ l, v < 2 ^ 32) →
    let r := fun op => reduceOf op 32 l
    (∀ as : List ℝ, List.Forall₂ (fun v a => (valOf 0 v).is a) l as → as.sum ≠ 0 → Rounds 0 1 false as.sum 0 (r 8))
    ∧ ((∃ v ∈ l, isNan 0 v = true) → r 8 = 0x7FC00000)
    ∧ (l ≠ [] → (∀ v ∈ l, isNan 0 v = true) → r 9 = 0x7FC00000 ∧ r 10 = 0x7FC00000)
    ∧ (∀ (v : Nat) (a : EReal), v ∈ l → (valOf 0 v).isExt a →
        (r 9 ∈ l ∧ ∃ b, (valOf 0 (r 9)).isExt b ∧ b ≤ a) ∧ (r 10 ∈ l ∧ ∃ b, (valOf 0 (r 10)).isExt b ∧ a ≤ b)))
  ∧ (∀ l : List Nat, l ≠ [] → mostOf l ∈ l ∧ ∀ v ∈ l, l.count v ≤ l.count (mostOf l) ∧ (l.count v = l.count (mostOf l) → l.idxOf (mostOf l) ≤ l.idxOf v))

/-- R275 to R279: exchange words. -/
def Obligations.CrewWordsExchangeAcrossLanes : Prop :=
  BallotAndShuffleReadTheOtherLanes ∧ ReductionsScansAndVotes ∧ ReductionsCombineTheirInputs


/-! ## The matrix unit -/

/-- R138 to R142, R162 to R164: a matrix word whose active members agree is queued as one command for them all, at the end of
its quadrant's queue and counted once on each member's dc4, with nothing else done yet; under .RESUME it starts where %rowprog says, whose VALID bit it clears. -/
def Sys2Proof.Machine.MatrixWordsQueueOneCommand : Prop :=
  ∀ (f : Fields) (s : State) (q : QuadId) (k : Nat) (b : Bundle) (t : ThreadId) (rest : List ThreadId) (a c : DWord) (w st : Word),
    let Q := (s.thread t).quad
    let j := f.dst.toNat / 4 % 2
    let queued := fun (i : Instr) (good : State → MatOp → Prop) => ∃ u id o m, exec i s = .next u ∧ u.op? id = some o ∧ o.body = .matrix m ∧ o.ctr = some 4
      ∧ m.members = t :: rest ∧ m.quad = Q ∧ m.queue = j ∧ m.tile = (Tab.getD (s.cohort t.cohort).tiles Q.quad []).getD (f.dst.toNat % 4) 0
      ∧ m.slot = (if f.modG then some (f.modSlot, ((s.cohort t.cohort).slots.getD f.modSlot {}).epoch) else none)
      ∧ m.nb = (if f.modSig then some f.modNb else none) ∧ m.begun = false ∧ m.ended = false ∧ good u m
      ∧ (u.quad Q).queues.getD j [] = (s.quad Q).queues.getD j [] ++ [id] ∧ (∀ x ∈ t :: rest, (u.thread x).dc 4 = (s.thread x).dc 4 + 1)
      ∧ u.mem = s.mem ∧ (u.quad Q).acc = (s.quad Q).acc
    let ready := fun (i : Instr) => Issuing s i f q k b ∧ s.executing b f = t :: rest ∧ (s.quad Q).queues.length = 2
      ∧ ((s.quad Q).queues.getD j []).length < 32 ∧ ∀ x ∈ t :: rest, 4 < (s.thread x).dcs.length
    let all := fun (p : Thread → Prop) => ∀ x ∈ t :: rest, p (s.thread x)
    (f.dst.toNat / 16 % 2 = 0 → ready (.mmag f) → all (fun x => x.src64 f.sa = some a ∧ x.b32 f = some w) → (rateOf w.toNat).isSome →
      queued (.mmag f) fun _ m => m.code = .mmag ∧ m.a = a ∧ m.fmt = w ∧ m.acc = (f.dst.toNat / 8 % 2 = 1) ∧ m.resume = false)
    ∧ (f.dst.toNat / 16 % 2 = 0 → ready (.mmaq f) → all (fun x => x.src64 f.sa = some a ∧ x.b64 f = some c ∧ x.src32 f.sc = some w) → (rateOf w.toNat).isSome →
      queued (.mmaq f) fun _ m => m.code = .mmaq ∧ m.a = a ∧ m.b = c ∧ m.fmt = w ∧ m.acc = (f.dst.toNat / 8 % 2 = 1) ∧ m.resume = false)
    ∧ (∀ p : DWord, p.toNat % 2 = 1 → f.dst.toNat / 16 % 2 = 1 → (rateOf w.toNat).isSome →
      let resumed := fun (code : MatCode) (u : State) (m : MatOp) => m.code = code ∧ m.a = a ∧ m.fmt = w ∧ m.resume = true ∧ m.prog = p
        ∧ m.group = bitsOf p.toNat 63 60 ∧ m.block = bitsOf p.toNat 59 48 ∧ m.batch = bitsOf p.toNat 47 40 ∧ m.bend = bitsOf p.toNat 39 32
        ∧ m.row = bitsOf p.toNat 31 24 ∧ ∀ x ∈ t :: rest, (u.thread x).rowprog = p &&& 0xFFFFFFFFFFFFFFFE
      (ready (.mmag f) → all (fun x => x.src64 f.sa = some a ∧ x.b32 f = some w ∧ x.rowprog = p) → queued (.mmag f) (resumed .mmag))
      ∧ (ready (.mmaq f) → all (fun x => x.src64 f.sa = some a ∧ x.b64 f = some c ∧ x.src32 f.sc = some w ∧ x.rowprog = p) →
        queued (.mmaq f) fun u m => resumed .mmaq u m ∧ m.b = c))
    ∧ (f.dst.toNat / 16 % 2 = 0 → ready (.mdrain f) → all (fun x => x.src64 f.sa = some a ∧ x.b32 f = some w ∧ x.src32 f.sc = some st) →
      drainLegal w.toNat st.toNat = true → offsetOf a % 16 = 0 → st.toNat % 16 = 0 →
      queued (.mdrain f) fun _ m => m.code = .mdrain ∧ m.a = a ∧ m.fmt = w ∧ m.stride = st.toNat ∧ m.zero = (f.dst.toNat / 8 % 2 = 1) ∧ m.zonly = false
        ∧ m.rmode = (if w.toNat / 32 % 8 = 0 then (s.thread t).rmode.toNat else w.toNat / 32 % 8) ∧ m.seed = (s.thread t).srseed)
    ∧ (f.dst.toNat / 16 % 2 = 1 → f.dst.toNat / 8 % 2 = 1 → ready (.mdrainZonly f) →
      queued (.mdrainZonly f) fun _ m => m.code = .mdrain ∧ m.zonly = true ∧ m.zero = true)
    ∧ Traps (.mmag f) f (fun s _ t => (s.thread t).src64 f.sa = some a ∧ (s.thread t).b32 f = some w ∧ rateOf w.toNat = none) .illegalOperand (fun _ _ _ => 0) (fun _ _ _ => 0)
    ∧ Traps (.mmaq f) f (fun s _ t => f.dst.toNat / 16 % 2 = 1 ∧ (s.thread t).src64 f.sa = some a ∧ (s.thread t).b64 f = some c ∧ (s.thread t).src32 f.sc = some w
        ∧ (s.thread t).rowprog.toNat % 2 = 0) .illegalOperand (fun _ _ _ => 0) (fun _ _ _ => 0)

/-- R139, R140: where the members' format words differ, the word's check names source B and the lanes that dissent from the
vote. -/
def Sys2Proof.Machine.FormatDivergenceNamesTheDissenters : Prop :=
  ∀ (f : Fields) (s : State) (ts : List ThreadId) (a : DWord) (w : Word) (x : ThreadId → Word),
    f.dst.toNat / 16 % 2 = 0 → (∀ t ∈ ts, (s.thread t).src64 f.sa = some a ∧ (s.thread t).b32 f = some (x t)) → (∃ t ∈ ts, x t ≠ w) →
    (∀ v, v ≠ w → (ts.filter fun t => x t = v).length < (ts.filter fun t => x t = w).length) →
    s.matrixCheck f .mmag ts = .trap .formatDivergence 2 (((ts.filter fun t => x t ≠ w).map fun t => 2 ^ (t.tid % 32)).foldl (· + ·) 0)

/-- R138 to R142, R162 to R164: matrix words at issue. -/
def Obligations.MatrixWordsQueueOneCommandOrNameTheDissenters : Prop :=
  MatrixWordsQueueOneCommand ∧ FormatDivergenceNamesTheDissenters

/-- R135, R136, R144, R146, R148: no step begins before the last one ends; of two runnable queues queue 0 has the step, queue 1 after 64
passes; a step whose operands can all be read applies the next block to the rows of the head's batch, and to no other word of its tile or
shadow, and takes its time. An integer accumulator gains the exact sum of the products, modulo 2^32; a floating one the FADD of R116 with
the sum, truncated to the window that the largest product anchors, scaled and rounded. -/
def Sys2Proof.Machine.AStepAppliesOneBlockToItsRows : Prop :=
  (∀ (s : State) (q : QuadId), s.now < (s.quad q).lastStep → exec (.matrixStep q) s = .next s)
  ∧ (∀ (s : State) (q : QuadId) (j id : Nat) (o : Op) (m : MatOp) (as bs : List (List Byte × Byte)), (s.quad q).lastStep ≤ s.now →
      (s.quad q).loading = none → s.headOf q j = some (id, o, m) →
      ((j = 0 ∧ ¬ (s.runnable q 1 = true ∧ 64 ≤ (s.quad q).passed)) ∨ (j = 1 ∧ (s.runnable q 0 = false ∨ 64 ≤ (s.quad q).passed))) →
      m.quad = q → m.code ≠ .mdrain → m.begun = true → m.active = true → m.ended = false → s.matOutcome o m ≠ some false → m.row < m.bend →
      m.loadB.length ≤ m.shape.n → m.row + m.loadA.length ≤ m.bend →
      ((m.shadow = none ∧ m.tile < (s.quad q).acc.length) ∨ ∃ k, m.shadow = some k ∧ k < (s.quad q).shadows.length) →
      (let l := if m.nbv = 2 then 32 else 16
       let g := m.shape.groups.getD m.group default
       let s' := ((s.standAside q (1 - j)).modQuad q fun x => { x with loading := none }).modQuad q fun x =>
         { x with passed := if j = 0 ∧ s.runnable q 1 = true then x.passed + 1 else 0 }
       let opB := m.operandB m.shape l
       let opA := m.operandA m.shape l
       loadRows (s'.rowOf id o m opB) (m.shape.n - m.loadB.length) m.loadB = (bs, none) →
       loadRows (fun i => s'.rowOf id o m opA (m.row + i)) (m.bend - m.row - m.loadA.length) m.loadA = (as, none) →
       ∃ u, exec (.matrixStep q) s = .next u ∧ u.mem = s.mem
         ∧ (u.quad q).lastStep = s.now + 6 * ((rateOf m.fmt.toNat).getD 0 * l / 32) * (if (s.chip q.chip).slow then 2 else 1)
         ∧ ∀ r < 128, ∀ c < 128,
         let old := (s.target m).getD (r * 128 + c) 0
         let new := (u.target m).getD (r * 128 + c) 0
         ((r < g.rowbase + m.row ∨ g.rowbase + m.row + as.length ≤ r ∨ m.shape.n ≤ c) → new = old)
         ∧ (g.rowbase + m.row ≤ r → r < g.rowbase + m.row + as.length → c < m.shape.n → ∀ x y sx sy,
             (as.map opA.vals)[r - (g.rowbase + m.row)]? = some (x, sx) → (bs.map opB.vals)[c]? = some (y, sy) →
             new = accumulate m.nbv (accInt m.fmt.toNat) (if m.block = 0 ∧ m.acc = false then 0 else old) x y (sx.bind fun a => sy.map fun b => a + b))))
  ∧ (∀ (nbv : Nat) (old : Word) (x y : List Int) (c : Option Int), x.length = y.length →
      let val := fun (i : Int) => Val.fin (i < 0) i.natAbs 0
      accumulate nbv true old (x.map val) (y.map val) c = BitVec.ofInt 32 (old.toNat + (List.zipWith (· * ·) x y).sum))
  ∧ (∀ (nbv : Nat) (old : Word) (x y : List Val) (c top : Int) (ns : List Int),
      let ps := List.zipWith mulVal x y
      let size := fun (p : Val) => match p with | .fin _ n e => (n : ℚ) * 2 ^ e | _ => 0
      let low := fun (p : Val) => match p with | .fin b _ _ => b | _ => false
      let sum := ns.sum
      (∀ p ∈ ps, ∃ b n e, p = .fin b n e) → (∀ p ∈ ps, size p < 2 ^ (top + 1)) → (∃ p ∈ ps, 2 ^ top ≤ size p) →
      List.Forall₂ (fun p (k : Int) => (k.natAbs : ℚ) * 2 ^ (top - 73) ≤ size p ∧ size p < (k.natAbs + 1) * 2 ^ (top - 73)
        ∧ (k < 0 → low p = true) ∧ (0 < k → low p = false)) ps ns →
      accumulate nbv false old x y (some c) = BitVec.ofNat 32 (faddBits 0 1 false old.toNat
        (if sum = 0 then 0
         else if nbv = 2 then roundFin 0 1 false (sum < 0) sum.natAbs (top - 73 + c) 0
         else convertVal 0 1 false (mulVal (valOf 0 (roundFin 0 2 false (sum < 0) sum.natAbs (top - 73) 0)) (.fin false 1 c)) 0) 0))
  ∧ (∀ (nbv : Nat) (old : Word) (x y : List Val) (c : Option Int) (b : Bool),
      let ps := List.zipWith mulVal x y
      ((c = none ∨ .nan ∈ ps ∨ (.inf true ∈ ps ∧ .inf false ∈ ps)) → accumulate nbv false old x y c = 0x7FC00000)
      ∧ (c ≠ none → .nan ∉ ps → .inf b ∈ ps → .inf (!b) ∉ ps →
        accumulate nbv false old x y c = BitVec.ofNat 32 (faddBits 0 1 false old.toNat (if b then 0xFF800000 else 0x7F800000) 0))
      ∧ (c ≠ none → (∀ p ∈ ps, ∃ n e, p = .fin n 0 e) → accumulate nbv false old x y c = BitVec.ofNat 32 (faddBits 0 1 false old.toNat 0 0)))

/-- R148, R149: when the entries of the groups set aside are read again, the first group whose count has grown begins a batch of its new
rows; a count that has fallen, or lies above the group's rows, ends the command with its cause; with no other group left, one that has
not grown ends the command where its group is closed, and waits again where it is open. -/
def Sys2Proof.Machine.AGroupSetAsideIsReadAgain : Prop :=
  ∀ (s : State) (q : QuadId) (j id g : Nat) (o : Op) (m : MatOp) (p : GroupProg) (bs : List Byte) (know : List Nat), j < 2 →
    (∀ h, s.headOf q (1 - j) = some h → h.2.2.pass < 2) → s.headOf q j = some (id, o, m) → m.quad = q → m.tile < (s.quad q).poison.length →
    m.code = .mmag → m.pass = 2 → m.active = false → m.ended = false → m.slot = none → m.shadow = none → m.groups.length = m.shape.groups.length →
    m.groups[g]? = some p → p.fin = false → (∀ i x, i < g → m.groups[i]? = some x → x.fin = true) →
    (let m1 := { m with pass := 3, groups := m.groups.map fun x => { x with aside := false } }
     let v := ofBytesLE bs
     let o' := { o with know := join o.know know }
     let addr := ptrAdd m.shape.counts (4 * g)
     let last := ∀ i x, g < i → m.groups[i]? = some x → x.fin = true
     let becomes := fun (n : MatOp) (poison : Bool) => ∃ u, exec (.rowCountReread q) s = .next u ∧ u.op? id = some { o' with body := .matrix n }
       ∧ u.mem = s.mem ∧ (u.quad q).acc = (s.quad q).acc ∧ (u.quad q).poison.getD m.tile false = poison
     let ends := fun (n : MatOp) (err : Option (Nat × DWord)) => becomes { n with ended := true, active := false, err := err, loadA := [], loadB := [] }
     let was := (s.quad q).poison.getD m.tile false
     s.matMayBegin id o m1 = true → s.readEntry id o m1 m.shape g = (.bytes bs, know) →
     (p.done < v % 256 → v % 256 ≤ (m.shape.groups.getD g default).cap →
       becomes { m1 with pass := 1, active := true, group := g, batch := p.done, bend := v % 256, block := 0, row := p.done } was)
     ∧ (v % 256 < p.done → ends m1 (some (5, addr)) true)
     ∧ (p.done ≤ v % 256 → (m.shape.groups.getD g default).cap < v % 256 → ends m1 (some (6, addr)) true)
     ∧ (v % 256 = p.done → p.done ≤ (m.shape.groups.getD g default).cap → v < 2 ^ 31 → last →
       ends { m1 with groups := m1.groups.set g { p with fin := true, aside := false } } none (was && !m.resume))
     ∧ (v % 256 = p.done → p.done ≤ (m.shape.groups.getD g default).cap → 2 ^ 31 ≤ v → last →
       becomes { m1 with pass := 2, groups := m1.groups.set g { p with fin := false, aside := true } } was))

/-- R135, R144 to R149: the array's steps. -/
def Obligations.StepsApplyBlocksAndGroupsAreReadAgain : Prop :=
  AStepAppliesOneBlockToItsRows ∧ AGroupSetAsideIsReadAgain

/-- R155, R156, R164, R165: the drain path zeroes a tile and clears its poison under ZONLY, and skips a poisoned tile; else it writes some of
the elements left of its tile, each converted at its place in its row; one that waits stays; with the last one the drain ends, zeroing the tile under ZERO, or at the
first that fails, with its cause and its address. That a row outside the OFFSET range is Access with the destination pointer is the
model's choice (log 59). -/
def Sys2Proof.Machine.DrainsZeroATileOrWriteItsRows : Prop :=
  (∀ (s : State) (id : Nat) (o : Op) (m : MatOp) (x : Nat),
    let i := x / m.units
    let p := ptrAdd (m.rowPtr i) (x % m.units * m.unitBytes)
    let row := rowBytes m.dfmt ((List.range m.cols).map fun j => m.drained (i * m.cols + j) ((s.target m).getD (i * 128 + j) 0))
    let write := (s.giveUp id).engineWrite o.thread p ((row.drop (x % m.units * m.unitBytes)).take m.unitBytes) id o.allEdges
    (m.rowFits i = false → s.drainUnit id o m x = .error (3, m.a))
    ∧ (∀ c, m.rowFits i = true → s.matSpace p = some c → s.drainUnit id o m x = .error (c, p))
    ∧ (m.rowFits i = true → s.matSpace p = none → s.matWaits id m o.thread p m.unitBytes true = true →
      ∃ v, s.drainUnit id o m x = .ok (false, v) ∧ v.mem = s.mem ∧ v.quads = s.quads)
    ∧ (m.rowFits i = true → s.matSpace p = none → s.matWaits id m o.thread p m.unitBytes true = false →
      (∀ c, write = .error c → s.drainUnit id o m x = .error (c, p))
      ∧ ∀ v, write = .ok v → ∃ u, s.drainUnit id o m x = .ok (true, u) ∧ u.mem = v.mem ∧ u.quads = s.quads))
  ∧ (∀ (s : State) (p : DWord), ((birthOf p = 0xFFE ∨ (birthOf p = 0xFFF ∧ 2 ≤ serialOf p)) → s.matSpace p = some 0x12)
    ∧ (isGlobal p = true → serialOf p ≠ 0 → s.obj? p = none → (s.window? p).isSome = true → s.matSpace p = some 0x12))
  ∧ ∀ (s : State) (q : QuadId) (id : Nat) (o : Op) (m : MatOp), s.drainHead q = some (id, o, m) → m.quad = q → m.code = .mdrain → m.shadow = none →
    m.tile < (s.quad q).acc.length → m.tile < (s.quad q).poison.length →
    let ended := fun (u : State) (left : List Nat) (err : Option (Nat × DWord)) =>
      u.op? id = some { o with body := .matrix { m with begun := true, left := left, ended := true, err := err } }
    (m.zonly = true → m.zero = true → ∃ u, exec (.matrixDrain q) s = .next u ∧ (u.quad q).acc.getD m.tile [] = [] ∧ (u.quad q).poison.getD m.tile true = false
      ∧ u.mem = s.mem ∧ ended u m.left none)
    ∧ (m.zonly = false → (s.quad q).poison.getD m.tile false = true →
      exec (.matrixDrain q) s = .next (s.setOp id { o with body := .matrix { m with begun := true, ended := true, err := some (7, m.a) } }))
    ∧ (∀ (st : Nat → State) (went : Nat → Bool) (k : Nat), m.zonly = false → (s.quad q).poison.getD m.tile false = false → m.adds = false →
      let left := if m.begun then m.left else List.range (m.rows * m.units)
      let now := match left.filter (Config.drainPick s.draws) with | [] => left.take 1 | l => l
      let stay := left.filter fun x => !(List.range k).any fun i => went i && now[i]? = some x
      st 0 = { s with draws := s.draws + 1 } → k ≤ now.length → (∀ i x, i < k → now[i]? = some x → (st i).drainUnit id o m x = .ok (went i, st (i + 1))) →
      (k = now.length → stay ≠ [] → ∃ u, exec (.matrixDrain q) s = .next u ∧ u.mem = (st k).mem
        ∧ u.op? id = some { o with body := .matrix { m with begun := true, left := stay } } ∧ (u.quad q).acc = (s.quad q).acc)
      ∧ (k = now.length → stay = [] → ∃ u, exec (.matrixDrain q) s = .next u ∧ u.mem = (st k).mem ∧ ended u [] none
        ∧ (u.quad q).acc = if m.zero then (s.quad q).acc.set m.tile [] else (s.quad q).acc)
      ∧ (∀ x e, now[k]? = some x → (st k).drainUnit id o m x = .error e → ∃ u, exec (.matrixDrain q) s = .next u ∧ u.mem = (st k).mem
        ∧ ended u stay (some e) ∧ (u.quad q).acc = (s.quad q).acc))

/-- R115, R155, R166: an add-on-store drain adds its tile to every row of its destination in one step of the drain path, or changes nothing: it waits
while some row waits, and it ends with Region outside objects and chip-local SERIAL 0 and 1, and with a parameter fault where its first and last
bytes do not lie within one extent. -/
def Sys2Proof.Machine.AddOnStoreDrainsAddAWholeTile : Prop :=
  ∀ (s : State) (q : QuadId) (id : Nat) (o : Op) (m : MatOp), s.drainHead q = some (id, o, m) → m.quad = q → m.code = .mdrain → m.shadow = none →
    m.tile < (s.quad q).acc.length → m.zonly = false → (s.quad q).poison.getD m.tile false = false → m.adds = true →
    let n := rowLen m.dfmt m.cols
    let last := (m.rows - 1) * m.stride + n - 1
    let ends := fun (u : State) (k : List Nat) (err : Option (Nat × DWord)) =>
      exec (.matrixDrain q) s = .next u ∧ u.op? id = some { o with know := k, body := .matrix { m with begun := true, ended := true, err := err } }
    let fails := fun (c : Nat) (p : DWord) => ∃ u, ends u o.know (some (c, p)) ∧ u.mem = s.mem ∧ (u.quad q).acc = (s.quad q).acc
    (∀ c, s.matSpace m.a = some c → fails c m.a)
    ∧ (∀ b, s.matSpace m.a = none → ptrFits m.a last = true → s.obj? m.a = some b → isGlobal m.a = true →
      (offsetOf m.a / 2 ^ b.log2 ≠ (offsetOf m.a + last) / 2 ^ b.log2 ∨ b.size ≤ offsetOf m.a + last) → fails 1 m.a)
    ∧ (∀ i < m.rows, s.drainPlace o m = none → s.matWaits id m o.thread (m.rowPtr i) n true = true →
      ∃ u, exec (.matrixDrain q) s = .next u ∧ u.mem = s.mem ∧ u.op? id = s.op? id ∧ (u.quad q).acc = (s.quad q).acc)
    ∧ (∀ i c, i < m.rows → s.drainPlace o m = none → (∀ j < m.rows, s.matWaits id m o.thread (m.rowPtr j) n true = false) →
      (∀ j < i, (∃ bs, (s.giveUp id).engineRead o.thread (m.rowPtr j) n = .ok bs) ∧ ∀ c, (s.giveUp id).reach o.thread (m.rowPtr j) n true ≠ .fail c) →
      (s.giveUp id).engineRead o.thread (m.rowPtr i) n = .error c → fails c (m.rowPtr i))
    ∧ (∀ (st : Nat → State), s.drainPlace o m = none →
      let o' := { o with know := (List.range m.rows).foldl (fun k i => (s.giveUp id).engineHeard o.thread (m.rowPtr i) n k) o.know }
      st 0 = s.giveUp id →
      (∀ i < m.rows, s.matWaits id m o.thread (m.rowPtr i) n true = false ∧ (∃ bs, (st 0).engineRead o.thread (m.rowPtr i) n = .ok bs)
        ∧ (∀ c, (st 0).reach o.thread (m.rowPtr i) n true ≠ .fail c)
        ∧ ∃ bs v, (st i).engineRead o.thread (m.rowPtr i) n = .ok bs
          ∧ (st i).engineWrite o.thread (m.rowPtr i) (rowBytes m.dfmt ((List.range m.cols).map fun j =>
              m.added (i * m.cols + j) (rowElem m.dfmt 0 bs j) ((s.target m).getD (i * 128 + j) 0))) id o'.allEdges true = .ok v
          ∧ st (i + 1) = v.engineCount o.thread (m.rowPtr i) n true) →
      ∃ u, ends u o'.know none ∧ u.mem = (st m.rows).mem ∧ (u.quad q).acc = if m.zero then (s.quad q).acc.set m.tile [] else (s.quad q).acc)

/-- R142, R152, R153, R155, R159: a command whose updates are in its tile leaves its queue; it is counted for every member as it ends, or,
where it signals, with its arrival, which carries ERR where it failed; a fault goes to every member with its address and the pointer that it
was given; a command whose epoch came to FALSE is discarded without one. A committed shadow becomes its target, and a discarded one leaves it as
it was. -/
def Sys2Proof.Machine.MatrixCommandsCompleteAndShadowsCommit : Prop :=
  (∀ (s : State) (id : Nat) (o : Op) (m : MatOp), s.op? id = some o → o.body = .matrix m → o.ctr = some 4 → o.closing = false → (∀ g ∈ s.msgs, g.2.op ≠ some id) → m.shadow = none → s.resident o.thread.cohort = true →
    (∀ t ∈ m.members, (s.thread t).dcs.getD 4 [] = [(id, false)]) → m.members.Nodup →
    let dropped := s.matOutcome o m = some false ∧ ∃ l ∈ (s.quad m.quad).queues, l.head? = some id
    let done := m.ended = true ∧ s.matOutcome o m ≠ some false
    ((dropped ∨ done) → ∃ u, exec (.matrixCommandComplete id) s = .next u ∧ (∀ l ∈ (u.quad m.quad).queues, id ∉ l) ∧ u.mem = s.mem
      ∧ (u.quad m.quad).acc = (s.quad m.quad).acc
      ∧ (m.nb = none → u.op? id = none ∧ ∀ t ∈ m.members, (u.thread t).dc 4 = 0)
      ∧ (∀ nb, m.nb = some nb → u.op? id = some { o with closing := true } ∧ (∀ t ∈ m.members, (u.thread t).dc 4 = (s.thread t).dc 4)
        ∧ (let k : Contribution := { member := true, flags := { err := m.err.isSome || decide (s.matOutcome o m = some false) }, know := o.allEdges }
           u.msgs = s.msgs.put s.nextId { op := some id, body := .contribute o.thread.cohort nb k }))
      ∧ (dropped ∨ m.err = none → ∀ t ∈ m.members, (u.thread t).deferred = (s.thread t).deferred))
    ∧ (∀ c p, done → m.err = some (c, p) → ∃ u, exec (.matrixCommandComplete id) s = .next u
      ∧ ∀ t ∈ m.members, (s.thread t).run ≠ .ended → (s.thread t).deferred.length < 16 →
        ∃ d ∈ (u.thread t).deferred, d.op = id ∧ d.ctr = 4 ∧ d.kind = .deferredEngine ∧ d.nb = m.nb ∧ d.rowprog = some m.progress
          ∧ d.record = deferredRec .deferredEngine o c p m.a))
  ∧ (∀ (s : State) (q : QuadId) (n : Nat) (c : CohortId) (tile : Nat) (b : Nat × Nat) (v : Bool), ((s.quad q).shadows.getD n {}).bound = some (c, tile, b) →
      n < (s.quad q).shadows.length → tile < (s.quad q).acc.length → ((s.cohort c).slots.getD b.1 {}).outcome b.2 = some v →
      (∀ p ∈ s.ops, ∀ m, p.2.body = .matrix m → m.quad = q → m.shadow = some n → m.ended = true) →
      ∃ u, exec (.shadowCommit q n) s = .next u ∧ ((u.quad q).shadows.getD n {}).bound = none ∧ u.mem = s.mem
        ∧ (u.quad q).acc.getD tile [] = if v then ((s.quad q).shadows.getD n {}).data else (s.quad q).acc.getD tile [])

/-- R142, R153, R156, R159, R164 to R166: drains, completion and commits. -/
def Obligations.DrainsWriteAndMatrixCommandsComplete : Prop :=
  DrainsZeroATileOrWriteItsRows ∧ AddOnStoreDrainsAddAWholeTile ∧ MatrixCommandsCompleteAndShadowsCommit

/-- R151, R154, R167, R168: GRES and GCANCEL each send one message to their slot, counted on dc4; the first value to reach an
OPEN slot decides it, and a cancel opens the next epoch, with FALSE for one that was OPEN. -/
def Obligations.GuardSlotsResolveOnce : Prop :=
  (∀ (f : Fields) (v : Bool),
    let sends := fun (s : State) (b : Bundle) (t : ThreadId) (body : MsgBody) =>
      let s1 := { s with nextId := s.nextId + 1, msgs := s.msgs.put s.nextId { body := body, op := some (s.nextId + 1), token := some t } }
      (s1.addOp (s1.newOp b t (some 4) (.message s.nextId false))).2
    Does (.gres f) f (fun s _ t => (f.gresCtl = 0 ∧ v = (s.thread t).pred f.sa.toNat) ∨ (f.gresCtl = 1 ∧ v = true) ∨ (f.gresCtl = 2 ∧ v = false))
      (fun s b t => sends s b t (.resolve t.cohort (f.dst.toNat % 64) v))
    ∧ Does (.gcancel f) f (fun _ _ _ => True) (fun s b t => sends s b t (.cancel t.cohort (f.dst.toNat % 64))))
  ∧ (∀ (s : State) (m i n : Nat) (g : Msg) (c : CohortId) (v : Bool), s.msg? m = some g → g.op = some i → s.live c = true → s.resident c = true →
      n < (s.cohort c).slots.length → (∀ p ∈ s.msgs, p.1 < m → p.2.token ≠ g.token) →
      let x := (s.cohort c).slots.getD n {}
      let becomes := fun (y : Slot) => ∃ u, exec (.guardSlotResolve m) s = .next u ∧ (u.cohort c).slots.getD n {} = y ∧ u.msg? m = none ∧ u.op? i = none ∧ u.mem = s.mem
      (g.body = .resolve c n v → x.value = none → becomes { x with value := some v })
      ∧ (g.body = .resolve c n v → x.value ≠ none → becomes x)
      ∧ (g.body = .cancel c n → becomes { value := none, epoch := x.epoch + 1, history := Tab.put x.history x.epoch (x.value.getD false) }))


/-! ## Transfers and the Pump -/

/-- R285 to R288, R293, R294: a transfer word whose checks pass queues one transfer of each executing thread on its die, counted
on dc4, with its claims made and its blocks of 4,096 bytes to do; a length out of range is an illegal operand; then a host window as
XFETCH's destination, and a misaligned destination of XADD, trap. That the destination is checked before the source is the model's choice
(log 34), and so is the address of these traps (log 26). -/
def Obligations.TransferWordsQueueOneTransfer : Prop :=
  ∀ (f : Fields) (x : XferOp) (m : Nat),
    let checked := fun (code : XCode) (s : State) (t : ThreadId) => (s.thread t).transferOf f code = some (x, m)
    let ready := fun (code : XCode) (s : State) (_ : Bundle) (t : ThreadId) => checked code s t ∧ s.transferTrap t x m = none
      ∧ (Tab.getD (s.die t.cohort.toDie).queues (s.cohort t.cohort).vf []).length < 256 ∧ s.sharesHeld t (s.transferShares t x m) = false
    let queued := fun (s : State) (b : Bundle) (t : ThreadId) =>
      let y := { x with shares := s.transferShares t x m, issued := s.now, fork := s.nextId
                        slot := if f.modG then some (f.modSlot, ((s.cohort t.cohort).slots.getD f.modSlot {}).epoch) else none }
      let r := (s.claimShares t (s.transferShares t x m)).addOp { s.newOp b t (some 4) (.clock 255) with body := .xfer { y with todo := y.transactions } }
      r.2.modDie t.cohort.toDie fun d => { d with queues := Tab.put d.queues (s.cohort t.cohort).vf (Tab.getD d.queues (s.cohort t.cohort).vf [] ++ [r.1]) }
    Does (.xsend f) f (ready .send) queued ∧ Does (.xfetch f) f (ready .fetch) queued ∧ Does (.xadd f) f (ready .add) queued
    ∧ (∀ (code : XCode) (y : Thread), y.transferOf f code = some (x, m) → y.src64 f.sa = some x.dst ∧ y.b64 f = some x.src ∧ x.code = code
        ∧ x.len = (y.reg (f.sc.toNat + 2)).toNat ∧ x.handle = (if f.dst.toNat / 2 % 2 = 1 then some (y.pair f.sc.toNat) else none)
        ∧ x.nb = (if f.modSig then some f.modNb else none))
    ∧ Traps (.xsend f) f (fun s _ t => checked .send s t ∧ (x.len = 0 ∨ x.len > 2 ^ 24)) .illegalOperand (fun _ _ _ => 0) (fun _ _ _ => 0)
    ∧ Traps (.xfetch f) f (fun s _ t => checked .fetch s t ∧ 0 < x.len ∧ x.len ≤ 2 ^ 24 ∧ x.handle = none ∧ birthOf x.dst = 0xFFE) .memoryFault
        (fun _ _ _ => 0x12) (fun _ _ _ => x.dst)
    ∧ Traps (.xadd f) f (fun s _ t => checked .add s t ∧ 0 < x.len ∧ x.len ≤ 2 ^ 24 ∧ x.len % 4 = 0 ∧ x.handle = none ∧ isGlobal x.dst = true ∧ isGlobal x.src = true
        ∧ offsetOf x.dst + x.len ≤ 2 ^ 30 ∧ offsetOf x.src + x.len ≤ 2 ^ 30 ∧ offsetOf x.dst % 4 ≠ 0) .memoryFault (fun _ _ _ => 0x10) (fun _ _ _ => x.dst)

/-- R288, R289, R292, R302, R304, R411: a transaction that begins reads its source into the staging memory; a part of it under way
writes its next indivisible units in ascending order, and with the last of them is performed; an error in the staging memory ends its
transfer with cause 4, and a dropped flit is counted and changes nothing else; with no ready work every deficit is 0, and with 512
transactions in flight none begins; a transfer whose transactions are performed and whose signals are settled leaves its queue and is
counted. That a source is read whole as its transaction begins is the model's choice (log 34), as are the port of a dropped flit (log 41)
and the unit of a logged array (log 40). -/
def Sys2Proof.Machine.TransactionsMoveBytesAndTransfersComplete : Prop :=
  (∀ (s : State) (d : DieId) (pick : Nat),
    let s1 := (s.startXfers d).xferWalks d
    let parts := s1.partsOn d
    (parts = [] → s1.chooseVf d pick = none → s1.staged d < 512 → exec (.pumpTransaction d ⟨pick, .none⟩) s = .next (s1.modDie d fun x => { x with deficit := [] }))
    ∧ (pick % (parts.length + 1) = parts.length → 512 ≤ s1.staged d → exec (.pumpTransaction d ⟨pick, .none⟩) s = .next s1)
    ∧ (∀ (v q id e : Nat) (ds : List (Nat × Nat)) (o : Op) (x : XferOp) (bs ks : List Byte), pick % (parts.length + 1) = parts.length → s1.staged d < 512 →
      s1.chooseVf d (pick / (parts.length + 1)) = some (v, ds) → s1.pickOf d v (pick / (parts.length + 1)) = some (q, id, e) →
      s1.xfer? id = some (o, x) → x.mc = false →
      (let r := x.piece (e % 2 ^ 18)
       let src := x.srcSpan r.1 r.2
       let scale := x.scaleSpan r.1 r.2
       let s2 := (s1.modDie d fun x => { x with deficit := ds, turn := x.turn.filter (· ≠ v) ++ [v], qturn := Tab.put x.qturn v q }).giveUp x.fork
       s2.xferRead o.thread (ptrAdd x.src src.1) src.2 = .ok bs →
       (if x.scaleIn then s2.xferRead o.thread (ptrAdd x.scale scale.1) scale.2 else .ok []) = .ok ks →
       ∃ u know, exec (.pumpTransaction d ⟨pick, .none⟩) s = .next u ∧ u.mem = s.mem
         ∧ u.op? id = some { o with know := know, body := .xfer { x with
             todo := x.todo.filter (· ≠ e)
             parts := x.parts ++ [{ tran := e, data := if x.code = .add then bs else (x.produce r.1 r.2 bs ks).1
                                    scales := if x.code = .add then ks else (x.produce r.1 r.2 bs ks).2 }] } }))
    ∧ (∀ (id : Nat) (k : XferPart) (o : Op) (x : XferOp), parts[pick % (parts.length + 1)]? = some (id, k) → s1.xfer? id = some (o, x) →
      (∀ (w : State) (old : List Byte), x.mc = false → x.scaleOut = false → x.cut = false →
        (let r := x.piece (k.tran % 2 ^ 18)
         let m := x.unit k (pick / (parts.length + 1) % 1024 + 1)
         let dst := ptrAdd x.dst (r.1 + k.pos)
         let o1 := if x.code = .add then { o with know := (s1.giveUp x.fork).engineHeard o.thread dst m o.know } else o
         s1.xferWriteWaits o.thread x.fork dst m = false →
         (if x.code = .add then (s1.giveUp x.fork).xferRead o.thread dst m else .ok []) = .ok old →
         (s1.giveUp x.fork).partWrite o.thread dst k.pos r.2 (x.partBytes k m old) x.fork o1.allEdges (x.code = .add) = .ok w →
         (k.pos + m < r.2 → exec (.pumpTransaction d ⟨pick, .none⟩) s = .next (w.setOp id { o1 with body := .xfer { x with
            parts := x.parts.map fun p => if p.tran = k.tran then { k with pos := k.pos + m } else p } }))
         ∧ (r.2 ≤ k.pos + m → ∃ u o' y, exec (.pumpTransaction d ⟨pick, .none⟩) s = .next u ∧ u.mem = w.mem ∧ u.op? id = some o' ∧ o'.body = .xfer y
            ∧ y.wrote = x.wrote + r.2 ∧ y.todo = x.todo ∧ y.parts = x.parts.filter fun p => p.tran ≠ k.tran)))
      ∧ (let p := ptrAdd x.dst (x.piece (k.tran % 2 ^ 18)).1
         exec (.pumpTransaction d ⟨pick, .staging⟩) s = .next
           ((s1.logEvent d.chip 2 d.die (Config.arrayUnit d.die 10) (s1.cohort o.thread.cohort).vf p.toNat).finishXfer id o
             { x with parts := x.parts.filter fun y => y.tran ≠ k.tran } (some (4, p)) false))
      ∧ (∀ h w i, s1.holderAt x.dst = some h → s1.portFor d h = some (w, i) →
         exec (.pumpTransaction d ⟨pick, .flit⟩) s = .next
           (s1.modDie w fun y => { y with ports := y.ports.modify i fun p => { p with dropped := p.dropped + 1 } }))))
  ∧ (∀ (s : State) (id : Nat) (o : Op) (x : XferOp), s.op? id = some o → o.body = .xfer x → o.closing = false → o.ctr = some 4 → s.resident o.thread.cohort = true →
      x.slot = none → x.red = none → x.todo = [] → x.parts = [] → x.cut = false → x.rides = none → x.signalled = true → x.signals = 0 → x.err = none → x.slotOf = none → x.nb = none →
      (s.msgs.any fun m => m.2.op = some id) = false → (s.thread o.thread).dcs.getD 4 [] = [(id, false)] →
      ∃ u, exec (.transferComplete id) s = .next u ∧ u.op? id = none ∧ (∀ p ∈ (u.die o.thread.cohort.toDie).queues, id ∉ p.2) ∧ (u.thread o.thread).dc 4 = 0 ∧ u.mem = s.mem)

/-- R284, R288, R292, R304: a signal whose turn it is contributes at the register its handle names, or is dropped with the Signal target
cause where that cohort has ended, and with Access where the destination is not its realm's; a transfer that finds no path for some
address it has yet to reach ends with the Link cause after 100 ms, and not before (counted from the loss of the path: log 34); and a
transfer that ends leaves the table, or waits only for its own arrival messages, once the transactions whose writes have begun are done. -/
def Sys2Proof.Machine.SignalsArriveOrAreDroppedAndLinksTimeOut : Prop :=
  (∀ (s : State) (m xf : Nat) (g : Msg) (h dst : DWord) (p : Nat × Word) (k : Contribution), s.msg? m = some g → g.body = .signal h p dst k xf →
    s.fabricHeld m p.1 (birthOf h) = false → g.after = none → s.pathDown p.1 (birthOf h) = none →
    let c : CohortId := ⟨bitsOf h.toNat 63 52, bitsOf h.toNat 51 50, bitsOf h.toNat 49 44, bitsOf h.toNat 43 28⟩
    let n := h.toNat % 16
    let stranger := isGlobal dst = true ∧ dst ≠ 0 ∧ ∀ b, s.obj? dst = some b → b.realm ≠ s.realmOf c
    let taken := ({ s with msgs := s.msgs.del m } : State).crossLink ⟨p.1, ((s.op? xf).map fun o => o.thread.cohort.die).getD 0⟩ ⟨birthOf h, c.die⟩ 1 1
    (s.live c = true → (s.cohort c).killed = none → ¬ stranger → n < (s.cohort c).nbs.length → (s.vf c.chip (s.cohort c).vf).ctx ≠ .deferring →
      ∃ u, exec (.signalAtTarget m) s = .next u ∧ (u.cohort c).nbs.getD n {} = ((s.cohort c).nbs.getD n {}).arrive k ∧ u.msg? m = none ∧ u.mem = s.mem)
    ∧ (∀ o x, (s.live c = false ∨ (s.cohort c).killed ≠ none ∨ stranger) → s.op? xf = some o → o.closing = false → o.body = .xfer x → x.err = none →
      exec (.signalAtTarget m) s = .next (taken.setOp xf { o with body := .xfer { x with
        signals := x.signals - 1, err := some (if s.live c = true ∧ (s.cohort c).killed = none then 3 else 8) } })))
  ∧ (∀ (s : State) (id start : Nat) (o : Op) (x : XferOp), s.op? id = some o → o.closing = false → o.body = .xfer x →
      (if x.red.isSome then some x.issued else x.started) = some start → s.resident o.thread.cohort = true →
      (∀ since p, s.xferDown o x = some (since, p) →
        (max since start + 100000 * 3600 ≤ s.now → exec (.linkTimeout id) s = .next
          (({ s with msgs := List.filter (fun m => match m.2.body with | .signal _ _ _ _ i => i ≠ id | _ => true) s.msgs } : State).finishXfer id o
            { x with parts := x.parts.filter fun k => (x.reaches [k.tran]).all fun p => !s.pathBlocked o.thread.cohort.chip p } (some (9, p)) false))
        ∧ (s.now < max since start + 100000 * 3600 → exec (.linkTimeout id) s = .next s))
      ∧ (∀ p ∈ x.reaches (x.todo ++ x.parts.map (·.tran)), (x.todo ≠ [] ∨ x.parts ≠ []) → ((s.holderAt p).bind (s.pathDown o.thread.cohort.chip)).isSome = true →
        ∃ since p', s.xferDown o x = some (since, p') ∧ (s.holderAt p').bind (s.pathDown o.thread.cohort.chip) = some since))
  ∧ (∀ (s : State) (id : Nat) (o : Op) (x : XferOp) (e : Option (Nat × DWord)), s.op? id = some o → o.closing = false →
      let u := s.finishXfer id o x e false
      (x.begunParts = [] → u.xfer? id = none ∧ ∀ o', u.op? id = some o' → u.msgs.any (fun m => m.2.op = some id) = true)
      ∧ (∀ c p, x.begunParts ≠ [] → x.err = none → e = some (c, p) → u = s.setOp id { o with body := .xfer { x with
          err := some c, errAt := p, todo := [], parts := x.begunParts, cut := true } }))

/-- R284, R288 to R292, R302, R304: the Pump's transfers. -/
def Obligations.TransfersMoveSignalAndComplete : Prop :=
  TransactionsMoveBytesAndTransfersComplete ∧ SignalsArriveOrAreDroppedAndLinksTimeOut

/-- R285, R297, R298, R303: PUMPPOST sends its entry's pointer to the die's Pump, counted on dc4; a pointer that is not aligned to
128 bytes, or lies outside its spaces, is a precise fault; an unguarded post whose entry is good takes a slot at once, or asks the
switch for a reduction slot first; and the slot's number, or the status, lands in its register. That a post takes the lowest free slot is
the model's choice (log 65), and so is that broken fields are PARAM at the post (log 35). -/
def Obligations.PostsTakeAnEntrySlot : Prop :=
  (∀ (f : Fields) (p : DWord),
    let enters := fun (cancel : Bool) (s : State) (b : Bundle) (t : ThreadId) => ((s.addOp
      { s.newOp b t (some 4) (.post p cancel (if f.modG then some (f.modSlot, ((s.cohort t.cohort).slots.getD f.modSlot {}).epoch) else none)
                (if f.modSig then some f.modNb else none) f.dst.toNat none)
        with dst := if f.dst = 255 then [] else [f.dst.toNat] }).2).servePost s.nextId false
    let good := fun (s : State) (_ : Bundle) (t : ThreadId) => (s.thread t).src64 f.sa = some p ∧ offsetOf p % 128 = 0
      ∧ (isGlobal p = true ∨ (birthOf p = 0xFFF ∧ serialOf p = 0 ∧ offsetOf p + 128 ≤ (s.launchOf t.cohort).priv'))
    Does (.pumppost f) f good (enters false) ∧ Does (.pumppostCancel f) f good (enters true)
    ∧ Traps (.pumppost f) f (fun s _ t => (s.thread t).src64 f.sa = some p ∧ offsetOf p % 128 ≠ 0) .memoryFault (fun _ _ _ => 0x10) (fun _ _ _ => p)
    ∧ Traps (.pumppostCancel f) f (fun s _ t => (s.thread t).src64 f.sa = some p ∧ offsetOf p % 128 = 0 ∧ birthOf p = 0xFFE) .memoryFault
        (fun _ _ _ => 0x12) (fun _ _ _ => p))
  ∧ (∀ (s : State) (id dst : Nat) (o : Op) (p : DWord) (bs : List Byte), s.op? id = some o → o.closing = false → s.awake o.thread.cohort = true →
      (s.vf o.thread.cohort.chip (s.cohort o.thread.cohort).vf).busy = none → (s.die o.thread.cohort.toDie).waiting = [] →
      s.slotFree o.thread.cohort.toDie (s.partOf o.thread.cohort) = true →
      let e := Entry.ofBytes bs
      (o.body = .post p false none none dst none → s.engineWaits o.thread id p 128 false = false → (s.giveUp id).xferRead o.thread p 128 = .ok bs →
        s.servePost id false = (((s.giveUp id).engineCount o.thread p 128).setOp id
            { o with know := (s.giveUp id).engineHeard o.thread p 128 o.know, body := .post p false none none dst (some e) }).placePost id
          { o with know := (s.giveUp id).engineHeard o.thread p 128 o.know, body := .post p false none none dst (some e) } p none dst e false)
      ∧ (s.entryOk o.thread e = true → e.red = false → s.placePost id o p none dst e false = s.armEntry id o p none dst e)
      ∧ (s.entryOk o.thread e = false → o.ctr = some 4 → o.know = [] → (s.msgs.any fun m => m.2.op = some id) = false →
          (s.placePost id o p none dst e false).thread o.thread = ((s.thread o.thread).setReg dst 0x20000000).lowerDc 4 id)
      ∧ (o.body = .post p false none none dst (some e) → s.entryOk o.thread e = true → e.red = true →
          (∀ u, s.reduceRequest o.thread.cohort.chip e = .ok u → exec (.reductionSlotReply id) s = .next (u.armEntry id o p none dst e))
          ∧ (s.reduceRequest o.thread.cohort.chip e = .error 1 →
            exec (.reductionSlotReply id) s = .next ((s.entryStatus { addr := p, thread := o.thread, pc := o.pc } 8 [] []).landPost id o none dst (2 ^ 28)))))
  ∧ (∀ (s : State) (id dst k : Nat) (o : Op) (p : DWord) (e : Entry), s.op? id = some o → k < 128 → Tab.get? (s.die o.thread.cohort.toDie).slots k = none →
      (∀ j < k, (Tab.get? (s.die o.thread.cohort.toDie).slots j).isSome) → dst < (s.thread o.thread).regs.length → dst ≠ 255 →
      (s.msgs.any fun m => m.2.op = some id) = false →
      let u := s.armEntry id o p none dst e
      (∃ x, Tab.get? (u.die o.thread.cohort.toDie).slots k = some x ∧ x.entry = e ∧ x.addr = p ∧ x.fired = 0 ∧ x.firing = none)
      ∧ (u.thread o.thread).reg dst = BitVec.ofNat 32 k ∧ u.op? id = none)

/-- R299, R300, R301: an armed entry fires when its trigger's phase has come, and not before; when its firing has completed its
pointers and TPHASE advance by their strides and it is armed again, or retires where it does not fire again. -/
def Sys2Proof.Machine.EntriesFireOnTheirPhaseAndAdvance : Prop :=
  ∀ (s : State) (d : DieId) (k : Nat) (e : EntrySlot), Tab.get? (s.die d).slots k = some e →
    let c := e.thread.cohort
    let n := e.entry
    let phase := ((s.cohort c).nbs.getD (n.trig % 16) {}).phase
    let due := n.trig / 128 % 2 = 1 → (phase - n.tphase).toNat < 2 ^ 31
    (e.firing = none → e.cancel = false → e.bad = false → n.trig / 128 % 2 = 1 → ¬ (phase - n.tphase).toNat < 2 ^ 31 → exec (.workEntryFire d k) s = .next s)
    ∧ (e.firing = none → n.trig / 128 % 2 = 0 → e.fired ≠ 0 → exec (.workEntryFire d k) s = .next s)
    ∧ (e.firing = none → e.cancel = false → e.bad = false → c.toDie = d → s.live c = true → (s.cohort c).killed = none → s.awake c = true →
      (s.vf d.chip (s.cohort c).vf).ctx ≠ .stopping → (s.vf d.chip (s.cohort c).vf).busy = none → due → e.fired = 0 → n.red = false → isCistern n.dst = false →
      s.entryOk e.thread n = true →
      ∃ u o x y, exec (.workEntryFire d k) s = .next u ∧ Tab.get? (u.die d).slots k = some y ∧ y.firing = some s.nextId ∧ y.entry = n
        ∧ u.op? s.nextId = some o ∧ o.body = .xfer x ∧ o.ctr = none ∧ o.seq = e.seq ∧ x.dst = n.dst ∧ x.src = n.src ∧ x.slotOf = some k ∧ x.todo = x.blocks
        ∧ u.mem = s.mem)
    ∧ (∀ id, e.firing = some id → s.op? id = none → e.cancel = false → (n.repeat' = 0 ∨ e.fired + 1 ≠ n.repeat') →
      ∃ u y, exec (.workEntryRearm d k) s = .next u ∧ Tab.get? (u.die d).slots k = some y ∧ y.firing = none ∧ y.fired = e.fired + 1
        ∧ y.entry.dst = ptrAdd n.dst n.dstride.toInt ∧ y.entry.src = ptrAdd n.src n.sstride.toInt ∧ y.entry.scale = ptrAdd n.scale n.scstride.toInt
        ∧ y.entry.tphase = n.tphase + BitVec.ofNat 32 n.tstep)
    ∧ (∀ id, e.firing = some id → s.op? id = none → (e.cancel = true ∨ (n.repeat' ≠ 0 ∧ e.fired + 1 = n.repeat')) →
      ∃ u, exec (.workEntryRearm d k) s = .next u ∧ Tab.get? (u.die d).slots k = none)

/-- R303: a reduction slot waits for every participant's contribution; then its one add, whose data are the sums of their sources,
exact and rounded once, goes to the destination, and the other firings wait for it; a round that a firing has spoiled ends with ERR, and is
over once each participant has come that no reset took away. That the firing that came first carries the add, with its DST, COUNT and
format, is the model's choice (log 35); sequence numbers are log 36's. -/
def Sys2Proof.Machine.AReductionSlotAddsOneSum : Prop :=
  ∀ (s : State) (domain group i j : Nat) (r : RedSlot) (o p : Op) (x y : XferOp), s.redSlots.get? (domain, group) = some r →
    s.xfer? i = some (o, x) → s.xfer? j = some (p, y) → i ≠ j →
    (r.bad = true → r.ready = [i] → x.begunParts = [] → ∃ u q, exec (.reductionSlotSum domain group) s = .next u ∧ u.redSlots.get? (domain, group) = some q
      ∧ q.ready = [] ∧ q.bad = decide (r.came.length + r.lost < r.rcount) ∧ u.xfer? i = none)
    ∧ (r.bad = false → r.ready = [i] → 2 ≤ r.rcount → exec (.reductionSlotSum domain group) s = .next s)
    ∧ (∀ as bs, r.bad = false → r.ready = [i, j] → r.rcount = 2 → s.resident o.thread.cohort = true → s.resident p.thread.cohort = true →
      s.unmapped o.thread.cohort.chip (s.cohort o.thread.cohort).vf = false → s.unmapped p.thread.cohort.chip (s.cohort p.thread.cohort).vf = false →
      x.slot = none → y.slot = none → x.scaleIn = false → y.scaleIn = false →
      s.xferReadWaits o.thread x.fork x.src (x.count * x.ssz) = false → s.xferReadWaits p.thread y.fork y.src (y.count * y.ssz) = false →
      s.xferRead o.thread x.src (x.count * x.ssz) = .ok as → s.xferRead p.thread y.src (y.count * y.ssz) = .ok bs →
      (let sum := fun (k : Nat) => bytesLE 4 (reduceElement x.int [x.values 0 as [], y.values 0 bs []] k)
       ∃ u q o' p' x' y', exec (.reductionSlotSum domain group) s = .next u ∧ u.mem = s.mem ∧ u.redSlots.get? (domain, group) = some q ∧ q.ready = []
         ∧ u.op? i = some o' ∧ o'.body = .xfer x' ∧ x'.todo = [] ∧ x'.red = none ∧ x'.sum = true
         ∧ x'.parts = x.blocks.map (fun b => { tran := b, data := (List.range ((x.piece b).2 / 4)).flatMap fun n => sum ((x.piece b).1 / 4 + n) })
         ∧ u.op? j = some p' ∧ p'.body = .xfer y' ∧ y'.todo = [] ∧ y'.red = none ∧ y'.rides = some i))

/-- R299 to R301, R303: work entries and reduction slots. -/
def Obligations.EntriesFireAdvanceAndReduce : Prop :=
  EntriesFireOnTheirPhaseAndAdvance ∧ AReductionSlotAddsOneSum


/-! ## Launches, cohorts and the dispenser -/

/-- R283, R317, R326, R327: LAUNCHQ posts its record as one operation on dc4, whose result lands in its register: the grid's
number, or REJECTED with its reason, 0x0C where the record cannot be read; a record pointer that is misaligned or outside its spaces is a
precise fault. That the first reason of the table is the one reported is the model's choice (log 32). -/
def Sys2Proof.Machine.LaunchesAreValidatedAndNumbered : Prop :=
  (∀ (f : Fields) (p : DWord),
    let enters := fun (s : State) (b : Bundle) (t : ThreadId) => ((s.addOp
      { s.newOp b t (some 4) (.launchq p f.dst.toNat false) with dst := if f.dst = 255 then [] else [f.dst.toNat] }).2).serveLaunch s.nextId
    Does (.launchq f) f (fun s _ t => (s.thread t).src64 f.sa = some p ∧ offsetOf p % 128 = 0
        ∧ (isGlobal p = true ∨ (birthOf p = 0xFFF ∧ serialOf p = 0))) enters
    ∧ Traps (.launchq f) f (fun s _ t => (s.thread t).src64 f.sa = some p ∧ offsetOf p % 128 ≠ 0) .memoryFault (fun _ _ _ => 0x10) (fun _ _ _ => p)
    ∧ Traps (.launchq f) f (fun s _ t => (s.thread t).src64 f.sa = some p ∧ offsetOf p % 128 = 0 ∧ birthOf p = 0xFFE) .memoryFault (fun _ _ _ => 0x12) (fun _ _ _ => p))
  ∧ (∀ (s : State) (id dst : Nat) (o : Op) (p : DWord) (bs : List Byte), s.op? id = some o → o.body = .launchq p dst true → o.held = none →
      (∀ q ∈ s.ops, q.1 < id → q.2.thread ≠ o.thread) →
      (let c := o.thread.cohort
       let vf := (s.cohort c).vf
       let know := s.clock o.thread id o.know
       let s2 := s.widen o.thread (effScope (s.launchOf c).ladder 5) know
       let read := fun (u : State) => if isGlobal p then u.objectUse c.chip vf p 128
         else match s2.reach o.thread p 128 false with | .place a => u.found a 128 | _ => u
       let used := fun (u : State) => s2.argsUse c.chip vf (s.partOf c) (Launch.ofBytes bs) (read u)
       s.earlierComplete o.thread id (effScope (s.launchOf c).ladder 5) = true → s2.deviceWaits c.chip vf p 128 = false →
       (s.vf c.chip vf).enable = true → (s.vf c.chip vf).busy = none →
       (∀ e, s2.launchRecord o.thread p = .error e → s.serveLaunch id = read (s2.landLaunch id o dst (2 ^ 28 + 12 * 256))) ∧ (s2.launchRecord o.thread p = .ok bs →
       s2.deviceWaits c.chip vf (Launch.ofBytes bs).args (4 * (Launch.ofBytes bs).nargs) = false →
       (∀ args g, s2.validate c.chip vf (s.partOf c) (Launch.ofBytes bs) = .ok args → s2.gridFrom c.chip 65535 (s2.chip c.chip).nextGrid = some g →
         s.serveLaunch id = used ((s2.enterLaunch c.chip g vf (s.partOf c) (Launch.ofBytes bs) args none (some o.thread) know).landLaunch id o dst g))
       ∧ (∀ r, s2.validate c.chip vf (s.partOf c) (Launch.ofBytes bs) = .error r →
         s.serveLaunch id = used ((s2.rejectLaunch c.chip vf (s.partOf c) (Launch.ofBytes bs) r know).landLaunch id o dst (2 ^ 28 + r * 256))))))
  ∧ (∀ (s : State) (id dst v : Nat) (o : Op), s.op? id = some o → dst < (s.thread o.thread).regs.length → dst ≠ 255 →
      ((s.landLaunch id o dst v).thread o.thread).reg dst = BitVec.ofNat 32 v ∧ (s.landLaunch id o dst v).op? id = none)
  ∧ (∀ (s : State) (chip g vf part : Nat) (x : Launch) (args : List Word), x.after = false →
      let u := s.enterLaunch chip g vf part x args none none []
      (u.grid chip g).state = .queued ∧ (u.grid chip g).launch = x ∧ (u.grid chip g).args = args ∧ (u.grid chip g).vf = vf ∧ (u.grid chip g).part = part
        ∧ (u.grid chip g).after = [] ∧ (u.chip chip).nextGrid = g + 1 ∧ u.mem = s.mem)

/-- R316 to R318: the fields of a launch record lie at their offsets; a record is rejected with the first reason of the table that it meets,
or 0x0C where its argument block cannot be read, and else launches with its argument words. R325: a rejected launch stores its completion
record of 64 bytes, status 1 with the reason, and signals DONEH with ERR after it. -/
def Sys2Proof.Machine.LaunchRecordsAreChecked : Prop :=
  (∀ (kernel args crec doneh : DWord) (seed tbase tag : Word) (priv wdog threads regs nargs gslots tiles tagb ladder nbv rmode cstack tx ty tz flags : Nat) (rest : List Byte),
    priv < 2 ^ 32 → wdog < 2 ^ 32 → threads < 2 ^ 16 → regs < 256 → nargs < 256 → gslots < 256 → tiles < 256 → tagb < 256 → ladder < 256 → nbv < 4 → rmode < 8 →
    cstack < 2 ^ 16 → tx < 2 ^ 32 → ty < 2 ^ 32 → tz < 2 ^ 32 → flags < 8 →
    Launch.ofBytes (bytesLE 8 kernel.toNat ++ (bytesLE 8 args.toNat ++ (bytesLE 8 crec.toNat ++ (bytesLE 8 doneh.toNat ++ (bytesLE 4 priv ++ (bytesLE 4 wdog
        ++ (bytesLE 4 seed.toNat ++ (bytesLE 2 threads ++ (bytesLE 1 regs ++ (bytesLE 1 nargs ++ (bytesLE 1 gslots ++ (bytesLE 1 tiles ++ (bytesLE 1 tagb
        ++ (bytesLE 1 ladder ++ (bytesLE 1 nbv ++ (bytesLE 1 rmode ++ (bytesLE 2 cstack ++ (bytesLE 4 tx ++ (bytesLE 4 ty ++ (bytesLE 4 tz ++ (bytesLE 4 tbase.toNat
        ++ (bytesLE 4 flags ++ (bytesLE 4 tag.toNat ++ rest)))))))))))))))))))))))
      = { kernel := kernel, args := args, crec := crec, doneh := doneh, priv' := priv, wdog := wdog, seed := seed, threads := threads, regs := regs, nargs := nargs
          gslots := gslots, tiles := tiles, tagb := tagb, ladder := ladder, nbv := nbv, rmode := rmode, cstack := cstack, tdimx := tx, tdimy := ty, tdimz := tz
          tbase := tbase, flags := flags, tag := tag })
  ∧ (∀ (s : State) (chip vf part : Nat) (x : Launch),
    let meets : Nat → Prop := fun r => match r with
      | 1 => isGlobal x.kernel = false ∨ offsetOf x.kernel % 8 ≠ 0 ∨ (x.nargs ≠ 0 ∧ isGlobal x.args = false)
      | 2 => x.threads = 0 ∨ 4096 < x.threads
      | 3 => x.regs < 16 ∨ 64 < x.nargs ∨ x.regs < x.nargs
      | 4 => 64 < x.gslots ∨ 4 < x.tiles ∨ 64 < x.tagb ∨ 4096 < x.cstack
      | 5 => x.ladder % 2 = 0 ∨ x.ladder / 2 % 2 = 0 ∨ x.ladder / 4 % 2 = 0
      | 6 => x.nbv = 3 ∨ 6 ≤ x.rmode
      | 7 => x.priv' % 256 ≠ 0 ∨ 2 ^ 24 < x.priv'
      | 8 => (x.tdimx = 0 ∧ (x.tdimy ≠ 0 ∨ x.tdimz ≠ 0)) ∨ 2 ^ 32 - 2 < x.tdimx * max 1 x.tdimy * max 1 x.tdimz
      | 9 => ∀ l ∈ s.eligibleSets chip part x, s.framesFor chip vf part x l = false
      | 10 => x.flags / 2 % 2 = 1 ∧ ((s.vf chip vf).express = false ∨ (s.part chip part).express = false)
      | 11 => (x.crec ≠ 0 ∧ (birthOf x.crec = 0xFFF ∨ offsetOf x.crec % 64 ≠ 0)) ∨ x.doneh.toNat / 16 % 2 ^ 24 ≠ 0
      | _ => False
    (∀ r, meets r → (∀ r' < r, ¬ meets r') → s.validate chip vf part x = .error r)
    ∧ ((∀ r, ¬ meets r) → x.nargs = 0 → s.validate chip vf part x = .ok [])
    ∧ (∀ c, (∀ r, ¬ meets r) → x.nargs ≠ 0 → s.objectRead chip vf x.args (4 * x.nargs) = .error c → s.validate chip vf part x = .error 12)
    ∧ (∀ bs, (∀ r, ¬ meets r) → x.nargs ≠ 0 → s.objectRead chip vf x.args (4 * x.nargs) = .ok bs →
        ∃ args, s.validate chip vf part x = .ok args ∧ args.length = x.nargs
          ∧ ∀ i < x.nargs, args.getD i 0 = BitVec.ofNat 32 (ofBytesLE ((bs.drop (4 * i)).take 4))))
  ∧ (∀ (s : State) (chip vf part r : Nat) (x : Launch) (know : List Nat), r < 256 →
    let u := s.rejectLaunch chip vf part x r know
    u.mem = s.mem ∧ u.grids = s.grids ∧ (x.crec = 0 → x.doneh = 0 → u = s)
    ∧ (isGlobal x.crec = true → x.crec ≠ 0 → offsetOf x.crec % 64 = 0 → (s.obj? x.crec).isSome →
      (∃ o a, u.op? s.nextId = some o ∧ o.body = .access a ∧ a.kind = .store ∧ a.ptr = x.crec ∧ a.size = 64
        ∧ a.data % 2 ^ 32 = 2 ^ 31 + r * 256 + 1 ∧ a.data / 2 ^ 32 % 2 ^ 32 = x.tag.toNat ∧ a.data / 2 ^ 64 % 2 ^ 64 = 0)
      ∧ (x.doneh ≠ 0 → x.doneh.toNat / 16 % 2 ^ 24 = 0 → ∃ m k, u.msg? (s.nextId + 1) = some m ∧ m.after = some s.nextId
          ∧ m.body = .signal x.doneh (chip, (s.vf chip vf).realm) 0 k 0 ∧ k.member = true ∧ k.bytes = 0 ∧ k.flags.err = true)))

/-- R321: the doorbell writes the producer count; the lockkeeper consumes one packet of an enabled ring that is not empty: a LAUNCH
packet allocates its program's objects and enters its launch, or is rejected, and any other packet only passes. That a record is validated
before its program's objects are allocated is the model's choice (log 58). -/
def Sys2Proof.Machine.ShadowRingPacketsAreConsumed : Prop :=
  (∀ (s : State) (chip vf : Nat) (v : Word), exec (.srprod chip vf v) s = .next (s.modVf chip vf fun x => { x with srprod := v }))
  ∧ (∀ (s : State) (chip vf : Nat) (prog : Program) (k bs : List Byte) (args : List Word) (g : Nat),
      let v := s.vf chip vf
      let n := 2 ^ (if 4 ≤ v.srcfg.toNat % 32 ∧ v.srcfg.toNat % 32 ≤ 16 then v.srcfg.toNat % 32 else 4)
      let p := ptrAdd v.srbase (256 * (v.srcons.toNat % n))
      let used := fun (u : State) => (u.modVf chip vf fun x => { x with srcons := x.srcons + 1 }).objectUse chip vf p 4
      (v.srcfg.getLsbD 31 = false ∨ v.srprod = v.srcons ∨ v.enable = false → exec (.packetConsume chip ⟨vf, prog⟩) s = .next s)
      ∧ (s.ringReady chip vf = true → s.deviceWaits chip vf p 256 = false → s.objectRead chip vf p 4 = .ok k →
        (ofBytesLE k ≠ 1 → exec (.packetConsume chip ⟨vf, prog⟩) s = .next (used s))
        ∧ (ofBytesLE k = 1 → s.objectRead chip vf (ptrAdd p 0x80) 128 = .ok bs →
          (let x := Launch.ofBytes bs
           let used := fun (u : State) => s.argsUse chip vf v.part x ((used u).objectUse chip vf (ptrAdd p 0x80) 128)
           s.deviceWaits chip vf x.args (4 * x.nargs) = false → s.symbolsWait chip vf prog = false →
           (∀ r, s.validate chip vf v.part x = .error r → exec (.packetConsume chip ⟨vf, prog⟩) s = .next (used (s.rejectLaunch chip vf v.part x r [])))
           ∧ (s.validate chip vf v.part x = .ok args → prog.decls = [] → s.gridFrom chip 65535 (s.chip chip).nextGrid = some g →
             exec (.packetConsume chip ⟨vf, prog⟩) s = .next (used (s.enterLaunch chip g vf v.part x args (some vf) none [])))
           ∧ (s.validate chip vf v.part x = .ok args → prog.decls ≠ [] → State.declareAll chip vf prog.id prog.decls [] s = none →
             exec (.packetConsume chip ⟨vf, prog⟩) s = .next (used (s.rejectLaunch chip vf v.part x 13 [])))
           ∧ (∀ u args', s.validate chip vf v.part x = .ok args → prog.decls ≠ [] → State.declareAll chip vf prog.id prog.decls [] s = some u →
             u.validate chip vf v.part x = .ok args' → u.gridFrom chip 65535 (u.chip chip).nextGrid = some g →
             exec (.packetConsume chip ⟨vf, prog⟩) s = .next (used (u.enterLaunch chip g vf v.part x args' (some vf) none [])))))))
  ∧ (∀ (s u : State) (chip vf prog n : Nat) (known : List (Nat × (Nat × Nat))) (d : ObjectDecl), d.chip = none → d.group = none → d.pin = true → d.init = [] →
      0 < d.size → d.size ≤ 2 ^ 30 → s.chipExists chip = true → s.newAnywhere chip vf d.size d.log2 = some (n, u) → (u.objects.get? (chip, n)).isSome →
      ∃ w, s.declareObject chip vf prog known d = some ((chip, n), w) ∧ w.mem = u.mem ∧ ∃ x, w.objects.get? (chip, n) = some x ∧ x.pins = 1)

/-- R283, R316, R317, R321, R326, R327: launches. -/
def Obligations.LaunchesAreValidatedFromWordsAndRings : Prop :=
  LaunchesAreValidatedAndNumbered ∧ LaunchRecordsAreChecked ∧ ShadowRingPacketsAreConsumed

/-- R29, R91, R316, R322, R323: a partition's next cohort is placed, and each of its threads starts at the kernel with the launch's
arguments in its first registers, zeros in the others, every predicate false and no operation outstanding. R362: a launch that fits but
whose frames have been taken since it was accepted is rejected with reason 9 (of one none of whose cohorts is placed: log 32). -/
def Sys2Proof.Machine.PlacedThreadsStartAtTheKernel : Prop :=
  (∀ (s s2 : State) (chip part n : Nat) (g : Grid) (c : CoreId) (l : List CoreId), s.placement chip part = some (n, g, [c], l) → part < 12 →
    (∀ p < 12, p ≠ part → s.placement chip p = none) →
    ((s.modGrid chip n fun g => { g with set' := l.map fun c => (c.die, c.core) }).placeCohort chip n c (l.takeWhile (· ≠ c)).length = some s2) →
    exec (.cohortPlace chip part) s = .next (s2.modChip chip fun h => { h with turn := h.turn.filter (· ≠ part) ++ [part] }))
  ∧ (∀ (s : State) (chip part n : Nat) (g : Grid), s.placement chip part = none → s.frameless chip part = some (n, g) →
    exec (.cohortPlace chip part) s = .next ((s.complete chip g 1 9).endGrid chip n))
  ∧ (∀ (s u : State) (chip n index tid : Nat) (c : CoreId), s.placeCohort chip n c index = some u → c.chip = chip →
      let x := (s.grid chip n).launch
      let y := u.thread ⟨⟨chip, c.die, c.core, n⟩, tid⟩
      tid < x.threads → (s.grid chip n).args.length ≤ x.regs →
      y.pc = x.kernel ∧ y.word = 0 ∧ y.inside = false ∧ (y.run = .blocked ∨ y.run = .ready ∨ y.run = .rendezvous) ∧ y.preds = 0 ∧ y.regs.length = x.regs
        ∧ (∀ i < x.regs, y.regs.getD i 0 = (s.grid chip n).args.getD i 0) ∧ (∀ k, y.dc k = 0) ∧ y.handler = false ∧ y.ret = [] ∧ y.stack = []
        ∧ y.rmode = BitVec.ofNat 3 (if x.rmode = 0 then 1 else x.rmode) ∧ y.rowprog = 0 ∧ (∀ k, y.tokens.getD k 0 = 0) ∧ y.deferred = []
        ∧ (u.cohort ⟨chip, c.die, c.core, n⟩).index = index ∧ (u.cohort ⟨chip, c.die, c.core, n⟩).ended = false)

/-- R161, R325: a cohort whose threads have all ended ends, freeing its tiles and pins, and its grid counts it; a running grid whose
cohorts have all ended ends, and its completion record is stored, with code 0, or 2 where a cohort was terminated. -/
def Sys2Proof.Machine.CohortsAndGridsEnd : Prop :=
  (∀ (s : State) (c : CohortId), s.live c = true → s.awake c = true →
    ((∃ t ∈ s.threads, t.1.cohort = c ∧ (s.thread t.1).run ≠ .ended) → exec (.cohortEnd c) s = .next s)
    ∧ ((∀ t ∈ s.threads, t.1.cohort = c → (s.thread t.1).run = .ended) → s.performing c = [] →
      ∃ u, exec (.cohortEnd c) s = .next u ∧ u.live c = false ∧ (u.cohort c).tiles = [] ∧ (∀ p ∈ u.pins, p.2.cohort ≠ c)
        ∧ (u.grid c.chip c.grid).done = (s.grid c.chip c.grid).done + 1))
  ∧ (∀ (s : State) (chip n : Nat), (s.grid chip n).state = .running → (s.grid chip n).done < (s.grid chip n).placed.length → exec (.gridEnd chip n) s = .next s)
  ∧ (∀ (s : State) (chip n : Nat), (s.grid chip n).state = .running → (s.grid chip n).placed.length ≤ (s.grid chip n).done → (s.grid chip n).kill = false →
      let x := (s.grid chip n).launch
      x.crec ≠ 0 → isGlobal x.crec = true → (s.obj? x.crec).isSome →
      ∃ u o a, exec (.gridEnd chip n) s = .next u ∧ (u.grid chip n).state = .ended
        ∧ u.op? s.nextId = some o ∧ o.body = .access a ∧ a.kind = .store ∧ a.ptr = x.crec ∧ a.size = 64
        ∧ a.data % 2 ^ 32 = 2 ^ 31 + (if (s.grid chip n).killed' > 0 then 2 else 0) ∧ a.data / 2 ^ 32 % 2 ^ 32 = x.tag.toNat
        ∧ a.data / 2 ^ 64 % 2 ^ 32 = (s.grid chip n).placed.length % 2 ^ 32)

/-- R329, R330: TFETCH queues one fetch on dc4; a fetch takes the grid's next index with its coordinates, each index once, and all
ones when none is left. -/
def Sys2Proof.Machine.TheDispenserGivesEachIndexOnce : Prop :=
  (∀ f : Fields, Does (.tfetch f) f (fun _ _ _ => True) (fun s b t => (s.addOp
    { s.newOp b t (some 4) (.tfetch f.dst.toNat (f.ctl = 1)) with
      dst := if f.dst = 255 then [] else (List.range (if f.ctl = 1 then 1 else 4)).map (f.dst.toNat + ·) }).2))
  ∧ (∀ (s : State) (id d : Nat) (o : Op), s.op? id = some o → o.body = .tfetch d false → o.ctr = some 4 → s.opMoves id o = true →
      (∀ q ∈ s.ops, q.1 < id → q.2.thread ≠ o.thread) → d + 3 < 255 → d + 3 < (s.thread o.thread).regs.length →
      let g := s.grid o.thread.cohort.chip o.thread.cohort.grid
      let x := g.launch
      let y := max 1 x.tdimy
      let k := g.next
      ∃ u, exec (.dispenserFetch id) s = .next u ∧ u.op? id = none ∧ u.mem = s.mem
        ∧ (k < x.tdimx * y * max 1 x.tdimz → k < 2 ^ 32 → (u.grid o.thread.cohort.chip o.thread.cohort.grid).next = k + 1
          ∧ (u.thread o.thread).reg d = x.tbase + BitVec.ofNat 32 k ∧ (u.thread o.thread).reg (d + 1) = BitVec.ofNat 32 (k % x.tdimx)
          ∧ (u.thread o.thread).reg (d + 2) = BitVec.ofNat 32 (k / x.tdimx % y) ∧ (u.thread o.thread).reg (d + 3) = BitVec.ofNat 32 (k / (x.tdimx * y)))
        ∧ (¬ k < x.tdimx * y * max 1 x.tdimz → (u.grid o.thread.cohort.chip o.thread.cohort.grid).next = k ∧ ∀ i < 4, (u.thread o.thread).reg (d + i) = 0xFFFFFFFF))

/-- R29, R91, R161, R316, R322, R323, R325, R329, R330: cohorts and grids. -/
def Obligations.CohortsArePlacedAndEnd : Prop :=
  PlacedThreadsStartAtTheKernel ∧ CohortsAndGridsEnd ∧ TheDispenserGivesEachIndexOnce


/-! ## Bundles, waits and deferred faults -/

/-- R30, R57, R58, R332: with fewer than eight bundles in flight the former starts the READY thread that no other comes before, by class,
time READY and seq, with its clause's words, at the word it stands at; with it go the other READY threads of its owner at its clause, of its
crew alone at a crew clause, and of two in one lane one that the other does not come before; with none READY, or with eight bundles, it
only looks at the threads' waits (of eight: log 31). -/
def Sys2Proof.Machine.TheFormerStartsAReadyThread : Prop :=
  ∀ (s : State) (q : QuadId) (t : ThreadId) (w : DWord) (ws : List DWord),
    let r := s.refreshQuad q
    let l := (r.threadsOn q).filter r.eligible
    let h := Header.ofWord w
    let x := r.thread t
    let same := fun (v : ThreadId) => (r.thread v).pc = x.pc ∧ (r.thread v).inside = false ∧ x.inside = false
      ∧ if h.crew then v.cohort = t.cohort ∧ v.tid / 32 = t.tid / 32 else r.partOf v.cohort = r.partOf t.cohort
    ((r.quad q).bundles.length ≥ 8 → exec (.formBundle q) s = .next r)
    ∧ (l = [] → exec (.formBundle q) s = .next r)
    ∧ ((r.quad q).bundles.length < 8 → l.Nodup → t ∈ l → (∀ v ∈ l, v ≠ t → r.ahead t v = true) →
      r.fetchClause t.cohort x.pc = .ok (w, ws) → (x.inside = true → x.word < ws.length) →
      (∀ v ∈ l, v = t ∨ same v → decodeClause (r.launchOf v.cohort).regs (r.cohort v.cohort).slots.length (r.launchOf v.cohort).tiles h ws
        (if x.inside then x.word else 0) = none) →
      ∃ u k b, exec (.formBundle q) s = .next u ∧ (u.quad q).bundles = (r.quad q).bundles ++ [(k, b)] ∧ k < 8 ∧ (∀ e ∈ (r.quad q).bundles, e.1 ≠ k)
        ∧ b.pc = x.pc ∧ b.words = ws ∧ b.word = x.word ∧ b.cls = h.cls ∧ b.waitOps = []
        ∧ t ∈ b.threads ∧ (b.threads.map fun v => v.tid % 32).Nodup ∧ (∀ v ∈ b.threads, v ∈ l ∧ (v = t ∨ same v) ∧ (u.thread v).run = .issuing)
        ∧ (∀ v ∈ l, same v → v ∈ b.threads ∨ (h.crew = false ∧ ∃ y ∈ b.threads, y.tid % 32 = v.tid % 32 ∧ r.ahead v y = false))
        ∧ (∀ v, (u.thread v).regs = (r.thread v).regs) ∧ u.mem = r.mem)
    ∧ (∀ a b : ThreadId, r.ahead a b = true ↔
      r.classOfThread a < r.classOfThread b ∨ (r.classOfThread a = r.classOfThread b ∧ (r.waited b / 256 < r.waited a / 256
        ∨ (r.waited a / 256 = r.waited b / 256 ∧ (r.thread a).seq < (r.thread b).seq))))
    ∧ (∀ v : ThreadId, r.classOfThread v = if (r.thread v).handler then 0 else if (r.launchOf v.cohort).flags / 2 % 2 = 1 then 1 else 2)

/-- R280, R281: when a crew's timer passes its limit, each member that stands at the clause takes the watchdog trap at its header,
with the lanes that stand there, those that are there with their waits unmet, and the absent ones, whose program counters go into the
frame at the end of its private memory; the timer stops; before that nothing happens. -/
def Sys2Proof.Machine.TheWatchdogTrapsWaitingMembers : Prop :=
  ∀ (s : State) (c : CohortId) (crew : Nat) (pc w : DWord) (ws : List DWord) (k : CrewTimer) (t u : ThreadId),
    (s.cohort c).timers.find? (fun k => k.crew = crew && k.pc = pc) = some k → s.awake c = true → t ≠ u →
    s.crewOf ⟨c, crew * 32⟩ = [t, u] → (s.thread t).standsAt pc = true → (s.thread u).standsAt pc = false →
    (s.now - k.since ≤ s.wdogLimit c → exec (.progressWatchdog c crew pc) s = .next s)
    ∧ (s.wdogLimit c < s.now - k.since → (s.thread t).run = .rendezvous → s.fetchClause c pc = .ok (w, ws) →
      let framed := decide (256 ≤ (s.launchOf c).priv')
      let unmet := if (s.thread u).pc = pc ∧ (s.thread u).inside = false ∧ (s.thread u).run = .blocked then 2 ^ (u.tid % 32) else 0
      let frame := (List.range 32).flatMap fun n => bytesLE 8 (if n = u.tid % 32 then (s.thread u).pc.toNat else 0)
      let s1 := s.stopTimer c crew pc
      let s2 := if framed then s1.store (privateAt t ((s.launchOf c).priv' - 256)) frame else s1
      exec (.progressWatchdog c crew pc) s = .next (s2.takeTrap t
        { kind := .watchdog, record := trapRec .watchdog 0 0 pc (BitVec.ofNat 64 (2 ^ (t.tid % 32) + 2 ^ 32 * unmet)) pc 0 (2 ^ (u.tid % 32)) false framed
          point := { pc := pc, word := 0, next := 1, count := (Header.ofWord w).count, kind := .header } }))
    ∧ s.wdogLimit c = 3600 * (if (s.launchOf c).wdog = 0 then 10000 else (s.launchOf c).wdog)

/-- R30, R57, R280, R281, R332: bundles and the watchdog. -/
def Obligations.TheFormerAndTheWatchdog : Prop :=
  TheFormerStartsAReadyThread ∧ TheWatchdogTrapsWaitingMembers

/-- R159, R235, R384: a pending fault of a thread that stands at a header is delivered where the header waits on its counter with a
threshold that the operation could not meet (log 14), and at a header that does not, or whose threshold lies above, it is not: its thread
enters the handler with the fault's record and the header as its trap point. -/
def Sys2Proof.Machine.DeferredFaultsAreDeliveredAtTheirWaits : Prop :=
  ∀ (s : State) (t : ThreadId) (d : Deferred) (w v : DWord) (ws : List DWord),
    (s.thread t).deferred = [d] → d.kind ≠ .resourceWait → (s.thread t).handler = false → (s.thread t).raised = none → (s.cohort t.cohort).killed = none →
    s.awake t.cohort = true → s.stopping t.cohort = false → (s.thread t).run = .blocked → (s.thread t).inside = false →
    offsetOf (s.thread t).pc % 8 = 0 → s.fetchClause t.cohort (s.thread t).pc = .ok (w, ws) → clauseBad (s.thread t).pc (Header.ofWord w) ws = false →
    let h := Header.ofWord w
    ((h.dcwait.getD d.ctr 7 = 7 ∨ d.after < h.dcwait.getD d.ctr 7) → (h.nbw = false ∨ d.nb ≠ some h.nbid) → exec (.deferredFaultDelivery t) s = .next s)
    ∧ (((h.dcwait.getD d.ctr 7 ≠ 7 ∧ h.dcwait.getD d.ctr 7 ≤ d.after) ∨ (h.nbw = true ∧ d.nb = some h.nbid)) → s.mayBegin t = true → s.owes t = false →
      s.vectorWaits t.cohort d.kind.code = false → s.vector t.cohort d.kind.code = some v →
      ∃ u, exec (.deferredFaultDelivery t) s = .next u ∧ (u.thread t).deferred = [] ∧ (u.thread t).handler = true ∧ (u.thread t).pc = v
        ∧ (u.thread t).faults = d.record ∧ (u.thread t).point = { pc := (s.thread t).pc, word := 0, next := 1, count := h.count, kind := .header }
        ∧ (u.thread t).regs = (s.thread t).regs ∧ u.mem = s.mem)

/-- R393: ten milliseconds of back-pressure withdraw an operation with a deferred resource wait, or trap a thread at its held word;
before that nothing happens. -/
def Sys2Proof.Machine.ResourceWaitsEndAfterTenMilliseconds : Prop :=
  (∀ (s : State) (t : ThreadId) (id n pool : Nat) (o : Op) (p : DWord), s.op? id = some o → o.thread = t → s.awake t.cohort = true → s.poolOf id o = some (pool, n, p) →
    (s.now < n + 36000000 → exec (.resourceWait t (some id)) s = .next s)
    ∧ (n + 36000000 ≤ s.now → exec (.resourceWait t (some id)) s = .next ((s.withdraw id o).addDeferred t
        { op := id, ctr := o.ctr.getD 0, kind := .resourceWait, dst := o.dst, record := trapRec .resourceWait pool o.word o.pc p (if pool = 6 then p else 0) 0 0 false false })))
  ∧ (∀ (s : State) (t : ThreadId) (k n : Nat) (b : Bundle) (i : Instr) (f : Fields), s.bundleOf t = some (k, b) → b.instr = some i → i.fields? = some f →
      (s.thread t).executes f = true → b.waitOps = [] → b.pool ≠ 0 → b.heldSince = some n →
      (s.now < n + 36000000 → exec (.resourceWait t none) s = .next s)
      ∧ (n + 36000000 ≤ s.now → let p := s.wordPointer b t i f
          exec (.resourceWait t none) s = .next (s.takeTrap t
            { kind := .resourceWait, record := trapRec .resourceWait b.pool b.word b.pc p (Instr.waitAux i p) 0 0 false false, point := b.point .word false })))

/-- R343: a draining thread with nothing outstanding and no fault to deliver releases at the widest declared level and ends; with
an operation outstanding it stays. -/
def Sys2Proof.Machine.ADrainingThreadReleasesAndEnds : Prop :=
  ∀ (s : State) (t : ThreadId), (s.thread t).run = .draining → s.awake t.cohort = true → (s.thread t).deferred = [] →
    ((∃ c < 6, (s.thread t).dc c ≠ 0) → exec (.exitDrainComplete t) s = .next s)
    ∧ ((∀ c < 6, (s.thread t).dc c = 0) → exec (.exitDrainComplete t) s = .next ((s.releaseAll t).modThread t fun x => { x with run := .ended, deferred := [] }))

/-- R159, R235, R343, R393: what ends a thread's waits. -/
def Obligations.DeferredFaultsResourceWaitsAndThreadEnds : Prop :=
  DeferredFaultsAreDeliveredAtTheirWaits ∧ ResourceWaitsEndAfterTenMilliseconds ∧ ADrainingThreadReleasesAndEnds

/-- R334 to R336, R357, R358: a write of SLUICE sets RATE, DEPTH and a full balance; each microsecond adds RATE and takes 256 for
every quadrant in use, up to DEPTH; a write of QOWN that names an enabled partition gives it a quadrant that has no owner, and one
that names no partition is ignored. -/
def Obligations.SluiceBalancesAndOwnersOfQuadrants : Prop :=
  (∀ (s : State) (chip vf : Nat) (v : DWord), exec (.sluice chip vf v) s = .next (s.modVf chip vf fun x =>
    { x with sluice := v &&& 0xFFFFFFFF00FFFFFF, balance := (v.toNat / 2 ^ 32 : Nat) * 256 }))
  ∧ (∀ (s : State) (chip vf : Nat) (f : Vf), (s.chip chip).vfs = [(vf, f)] → (s.chip chip).sluiceAt < s.ns chip / 1000 → f.sluice.toNat % 2 ^ 24 ≠ 0 →
      (let depth : Int := (f.sluice.toNat / 2 ^ 32 : Nat) * 256
       let b := min (f.balance + (f.sluice.toNat % 2 ^ 24 : Nat) - 256 * (s.quadsUsed chip vf : Int)) depth
       (-depth < b → ∃ u, exec (.sluiceTick chip) s = .next u ∧ u.vf chip vf = { f with balance := b } ∧ (u.chip chip).sluiceAt = (s.chip chip).sluiceAt + 1 ∧ u.mem = s.mem)
       ∧ (b ≤ -depth → s.expressContext chip vf = false → f.ctx = .running → f.busy = none → s.partly chip vf = false →
           ∃ u, exec (.sluiceTick chip) s = .next u ∧ (u.vf chip vf).ctx = .stopping ∧ (u.vf chip vf).why = .sluice ∧ (u.vf chip vf).balance = b)))
  ∧ (∀ (s : State) (chip : Nat), s.ns chip / 1000 = (s.chip chip).sluiceAt → exec (.sluiceTick chip) s = .next s)
  ∧ (∀ (s : State) (q : QuadId) (v : Word),
      (v.toNat % 16 > 11 → exec (.qown q (some v)) s = .next s)
      ∧ (v.toNat % 16 ≤ 11 → v.getLsbD 31 = true → (s.part q.chip (v.toNat % 16)).enable = true → (s.quad q).owner = none →
        ∃ u, exec (.qown q (some v)) s = .next u ∧ (u.quad q).owner = some (v.toNat % 16) ∧ (u.quad q).pending = none ∧ (u.quad q).refused = false
          ∧ (u.quad q).qown = v &&& 0x8000000F ∧ u.mem = s.mem)
      ∧ ((s.quad q).pending = none → exec (.qown q none) s = .next s))

/-! ## Landing rings -/

/-- R217 to R222, R236: a store that enables a ring arms its slots and zeroes its counts, one that R236 refuses is ignored, one that
clears ENABLE ends the claims of the armed slots; LRCONS returns slots, as far as LRPROD; a good frame fills the next slot, header
line last with the time of the hub's clock; one with a malformed landing header, and one for a ring that is disabled or full, is
dropped and counted at the ring that it names; where it names none of the function's, and where it is not checked, it is dropped
uncounted (log 29). -/
def Obligations.LandingRingsTakeFrames : Prop :=
  (∀ (s : State) (id off : Nat) (o : Op) (v : DWord), s.mmioStore id = some (o, off, v) → 0x100 ≤ off → off < 0x200 →
    let c := o.thread.cohort.toCore
    let part := s.partOf o.thread.cohort
    let n := (off - 0x100) / 0x40
    let r := (s.core c).ring part n
    let cfg := v &&& 0x80FF03FF00003FFF
    let now : Ring := { cfg := cfg, prod := 0, cons := 0, drop := r.drop }
    let d := min (v.setWidth 32 - r.cons : Word).toNat (r.prod - r.cons).toNat
    let back := (List.range d).flatMap fun i => r.slotLines (r.cons + BitVec.ofNat 32 i).toNat
    (off % 0x40 = 0 → v.getLsbD 63 = true → s.ringAllowed c part n cfg = true → s.claimFull c now.allLines = false →
      exec (.lrcfgEnable id) s = .next (((s.claimLines c now.allLines).modCore c fun x => x.setRing part n now).endOp id))
    ∧ (off % 0x40 = 0 → v.getLsbD 63 = true → s.ringAllowed c part n cfg = false → exec (.lrcfgEnable id) s = .next (s.endOp id))
    ∧ (off % 0x40 = 0 → v.getLsbD 63 = false → r.enabled = true →
      exec (.lrcfgDisable id) s = .next (((s.unclaim c r.armed).modCore c fun x => x.setRing part n { r with cfg := cfg }).endOp id))
    ∧ (off % 0x40 = 0x14 → r.enabled = true → s.claimFull c back = false →
      exec (.lrconsWrite id) s = .next (((s.claimLines c back).modCore c fun x => x.setRing part n { r with cons := r.cons + BitVec.ofNat 32 d }).endOp id)))
  ∧ (∀ (s : State) (chip vf d k n seq : Nat) (good : Bool) (v : Vf) (f : Frame), s.canonical → (s.chip chip).vfs = [(vf, v)] → v.enable = true → v.lport ≠ 0 → v.lport = f.udpPort →
      (f.checked = false ∨ f.data.length < 8 → exec (.frameReceived chip f) s = .next s)
      ∧ (f.checked = true → landingHeader f.data = some (d, k, n, seq, good) →
      (s.share ⟨chip, d, k⟩ v.part = [] ∨ 48 ≤ k → exec (.frameReceived chip f) s = .next s)
      ∧ (s.share ⟨chip, d, k⟩ v.part ≠ [] → k < 48 →
      let c : CoreId := ⟨chip, d, k⟩
      let r := (s.core c).ring v.part n
      let base := (r.base + r.prod.toNat % r.slots * r.lines) * 128
      let taken := (f.data.drop 8).take (128 * (r.lines - 1))
      (good = true → r.enabled = true → (r.prod - r.cons).toNat < r.slots →
        ∃ u, exec (.frameReceived chip f) s = .next u ∧ (u.core c).ring v.part n = { r with prod := r.prod + 1 }
          ∧ Memory.readBytes u.mem (cisternAt c (base + 128)) taken.length = taken ∧ Memory.readNat u.mem (cisternAt c base) 6 = s.ns chip / 10 ^ 9 % 2 ^ 48
          ∧ Memory.readNat u.mem (cisternAt c (base + 6)) 4 = s.ns chip % 10 ^ 9 ∧ Memory.readNat u.mem (cisternAt c (base + 12)) 4 = (f.data.length - 8) % 2 ^ 32)
      ∧ (good = false ∨ r.enabled = false ∨ r.slots ≤ (r.prod - r.cons).toNat →
        exec (.frameReceived chip f) s = .next (s.modCore c fun x => x.setRing v.part n { r with drop := if r.drop = 0xFFFFFFFF then r.drop else r.drop + 1 })))))
  ∧ (∀ (bs : List Byte) (b0 b1 b2 b3 : Byte), bs.take 4 = [b0, b1, b2, b3] → 8 ≤ bs.length →
      landingHeader bs = some (b0.toNat % 4, b1.toNat, b2.toNat % 4, ofBytesLE ((bs.drop 4).take 4),
        decide (b0.toNat < 4 ∧ b1.toNat < 48 ∧ b2.toNat < 4 ∧ b3 = 0)))


/-! ## Windows, contexts and kills -/

/-- R255, R376 to R379: a window or key word parks its thread behind one operation until its result lands; a window number above
255, and a report region that lies outside its spaces, is misaligned, or reaches past its object or private memory, are precise faults. -/
def Sys2Proof.Machine.WindowWordsParkUntilTheyLand : Prop :=
  (∀ (f : Fields) (p : DWord) (n : Word),
    let parks := fun (w : WinOp) (s : State) (b : Bundle) (t : ThreadId) =>
      (((s.addOp (s.newOp b t none (.win w))).2).leave t).modThread t fun x =>
        { x with run := .parked (.operation s.nextId), word := nextWord b.words b.word, inside := true }
    let named := fun (s : State) (_ : Bundle) (t : ThreadId) => (s.thread t).src64 f.sa = some p
    Does (.winopen f) f (fun s _ t => (s.thread t).src32 f.sa = some n ∧ n.toNat ≤ 255) (parks { code := .winOpen, w := n.toNat, wr := f.ctl % 2 = 1, dst := f.dst.toNat })
    ∧ Traps (.winopen f) f (fun s _ t => (s.thread t).src32 f.sa = some n ∧ n.toNat > 255) .illegalOperand (fun _ _ _ => 0) (fun _ _ _ => 0)
    ∧ Does (.winrel f) f named (parks { code := .winRel, ptr := p, dst := f.dst.toNat }) ∧ Does (.winacq f) f named (parks { code := .winAcq, ptr := p, dst := f.dst.toNat })
    ∧ Does (.winclose f) f named (parks { code := .winClose, ptr := p, dst := f.dst.toNat })
    ∧ Does (.keyqWepoch f) f named (parks { code := .wepoch, ptr := p, dst := f.dst.toNat })
    ∧ Does (.keyqEpoch f) f (fun _ _ _ => True) (parks { code := .epoch, dst := f.dst.toNat })
    ∧ Does (.keyqReport f) f (fun s b t => named s b t ∧ s.reportCheck t p = none) (parks { code := .report, ptr := p, dst := f.dst.toNat })
    ∧ Traps (.keyqReport f) f (fun s _ t => (s.thread t).src64 f.sa = some p ∧ (birthOf p = 0xFFE ∨ (birthOf p = 0xFFF ∧ serialOf p ≠ 0)))
        .memoryFault (fun _ _ _ => 0x12) (fun _ _ _ => p)
    ∧ Traps (.keyqReport f) f (fun s _ t => (s.thread t).src64 f.sa = some p ∧ (isGlobal p = true ∨ (birthOf p = 0xFFF ∧ serialOf p = 0)) ∧ offsetOf p % 64 ≠ 0)
        .memoryFault (fun _ _ _ => 0x10) (fun _ _ _ => p)
    ∧ Traps (.keyqReport f) f (fun s _ t => (s.thread t).src64 f.sa = some p ∧ offsetOf p % 64 = 0
        ∧ ((isGlobal p = true ∧ ∃ o, s.obj? p = some o ∧ o.realm = s.realmOf t.cohort ∧ o.size < offsetOf p + 8192)
          ∨ (birthOf p = 0xFFF ∧ serialOf p = 0 ∧ (s.launchOf t.cohort).priv' < offsetOf p + 8192)))
        .memoryFault (fun _ _ _ => 0x11) (fun _ _ _ => p))
  ∧ (∀ (s : State) (id vf : Nat) (o : Op) (w : WinOp) (g : Grant), s.op? id = some o → o.body = .win w → s.opMoves id o = true → (s.cohort o.thread.cohort).vf = vf →
      (w.code = .epoch → exec (.responseArrives id) s = .next (s.landWin id o w true
        ((s.vf o.thread.cohort.chip vf).realm.toNat * 2 ^ 32 + (s.vf o.thread.cohort.chip vf).keyEpoch.toNat)))
      ∧ (w.code = .winOpen → s.grant o.thread.cohort.chip w.w = g → g.valid = true → g.state = .opened → s.realmOf o.thread.cohort = g.realmA → w.wr = false →
          s.windowBusy id o o.thread.cohort.chip g.serial = false →
          exec (.responseArrives id) s = .next ((s.setGrant o.thread.cohort.chip w.w { g with a := g.a.attach vf false }).landWin id o w true
            (mkPtr o.thread.cohort.chip g.serial 0).toNat)))

/-- R374, R375: a window without attachments and without an operation in flight begins its scrub; its scrub ends with its images
zero, its frames free and its grant idle, with the registers as they were; while it is scrubbed its pointer still names it, and names
no image of it. -/
def Sys2Proof.Machine.AClosedWindowIsScrubbed : Prop :=
  ∀ (s : State) (chip w : Nat),
    let g := s.grant chip w
    (g.state = .idle → exec (.windowScrubComplete chip w) s = .next s)
    ∧ (g.state = .opened → g.a.plain ≠ 0 → exec (.windowScrubComplete chip w) s = .next s)
    ∧ (g.state = .opened → g.a.plain = 0 → g.a.write = 0 → g.b.plain = 0 → g.b.write = 0 → (∀ o ∈ s.ops, o.2.inWindow chip g.serial = false) →
      exec (.windowScrubComplete chip w) s = .next (s.setGrant chip w { g with state := .scrubbing }))
    ∧ (g.state = .scrubbing → s.canonical → ∃ u, exec (.windowScrubComplete chip w) s = .next u
      ∧ u.grant chip w = { ctl := g.ctl, realmA := g.realmA, realmB := g.realmB } ∧ (∀ i < 3, ∀ off < g.size, u.byte (windowAt chip w i off) = 0)
      ∧ (∀ f ∈ g.frames, ∀ p ∈ (u.die ⟨chip, g.die⟩).frames, p.1 ≠ f))
    ∧ (∀ p t, g.state = .scrubbing → birthOf p = chip → (s.window? p = some w → s.windowOf t p = .error 1 ∧ g.imageOf (s.realmOf t.cohort) = none)
      ∧ ((s.chip chip).grants = [(w, g)] → g.serial = serialOf p → serialOf p ≠ 0 → s.window? p = some w))

/-- R255, R374 to R379: windows. -/
def Obligations.WindowWordsParkAndWindowsAreScrubbed : Prop :=
  WindowWordsParkUntilTheyLand ∧ AClosedWindowIsScrubbed

/-- R394 to R396, R388: a request stops a context at once, or defers while a register is partly arrived; a deferral goes on when none
is, or is forced after 50 µs; a handler is halted after 4,096 issue cycles, counted from STOPPING (log 39); and the save is written when
every thread stands and every accepted operation has landed. STOPPING stands for QUIESCING too (log 9). -/
def Sys2Proof.Machine.APreemptedContextStopsAndIsSaved : Prop :=
  ∀ (s : State) (chip vf : Nat),
    let v := s.vf chip vf
    (v.ctx = .running → v.busy = none → s.expressPreempts chip vf = false → s.partly chip vf = false → exec (.preemptRequest chip vf) s
      = .next (s.setVf chip vf { v with ctxAsked := s.ns chip, why := .host, held := false, forced := false, ctx := .stopping, ctxSince := s.now }))
    ∧ (v.ctx = .running → v.busy = none → s.expressPreempts chip vf = false → s.partly chip vf = true → (s.part chip v.part).express = false →
      exec (.preemptRequest chip vf) s = .next (s.setVf chip vf { v with ctxAsked := s.ns chip, why := .host, held := false, forced := false, ctx := .deferring }))
    ∧ (v.ctx = .deferring → s.partly chip vf = false → exec (.deferralLimit chip vf) s = .next (s.setVf chip vf { v with ctx := .stopping, ctxSince := s.now }))
    ∧ (v.ctx = .deferring → s.partly chip vf = true → s.ns chip < v.ctxAsked + 50000 → exec (.deferralLimit chip vf) s = .next s)
    ∧ (v.ctx = .deferring → s.partly chip vf = true → v.ctxAsked + 50000 ≤ s.ns chip →
      exec (.deferralLimit chip vf) s = .next (s.setVf chip vf { v with ctx := .stopping, ctxSince := s.now, forced := true }))
    ∧ (∀ t : ThreadId, t.cohort.chip = chip → (s.cohort t.cohort).vf = vf → s.live t.cohort = true → v.ctx = .stopping → (s.thread t).handler = true →
      (s.thread t).halted = false → (s.thread t).run ≠ .ended →
      (v.ctxSince + 8192 ≤ s.now → exec (.handlerPreemptLimit t) s = .next (s.setThread t { s.thread t with halted := true }))
      ∧ (s.now < v.ctxSince + 8192 → exec (.handlerPreemptLimit t) s = .next s))
    ∧ ((∃ t ∈ ((s.cohortsIn chip vf).map (·.1)).flatMap s.threadsOf, (s.thread t).stands = false) → exec (.contextSaved chip vf) s = .next s)
    ∧ (v.ctx = .stopping → (∀ t ∈ ((s.cohortsIn chip vf).map (·.1)).flatMap s.threadsOf, (s.thread t).stands = true) →
      (∀ p ∈ s.opsIn chip vf, p.2.mustLand = false) → ∃ u, exec (.contextSaved chip vf) s = .next u ∧ (u.vf chip vf).ctx = .saved
        ∧ (∃ a, u.saves.get? (chip, vf) = some a ∧ a.forced = v.forced ∧ a.time = s.ns chip) ∧ u.mem = s.mem
        ∧ (∀ p ∈ u.pins, ∀ x ∈ s.cohortsIn chip vf, p.2.cohort ≠ x.1))

/-- R399, R400: a saved context whose quadrants are free is restored, and runs only after its replay is done, in two steps of the model
(log 37); one that may not be resumed stays saved. -/
def Sys2Proof.Machine.ASavedContextIsRestoredThenRuns : Prop :=
  ∀ (s : State) (chip vf : Nat),
    let v := s.vf chip vf
    (v.ctx = .saved → s.mayResume chip vf = false → exec (.contextResume chip vf) s = .next s)
    ∧ (v.ctx = .saved → s.mayResume chip vf = true → ∃ u, exec (.contextResume chip vf) s = .next u ∧ (u.vf chip vf).ctx = .restoring)
    ∧ (v.ctx = .restoring → (∃ p ∈ s.opsIn chip vf, s.replayDue p.1 p.2 = true) → exec (.contextResume chip vf) s = .next s)
    ∧ (v.ctx = .restoring → (∀ p ∈ s.opsIn chip vf, s.replayDue p.1 p.2 = false ∧ p.2.isObj = false) → s.contributing chip vf = false → (s.chip chip).hot = false →
      ∃ u, exec (.contextResume chip vf) s = .next u ∧ (u.vf chip vf).ctx = .running ∧ u.saves.get? (chip, vf) = none ∧ u.mem = s.mem ∧ u.ops = s.ops)

/-- R388, R394 to R400: pre-emption and resume. -/
def Obligations.ContextsAreSavedAndRestored : Prop :=
  APreemptedContextStopsAndIsSaved ∧ ASavedContextIsRestoredThenRuns

/-- R401, R402: a kill or a reset makes its function BUSY, empties its ring and ends its cohorts with reason 6; a second one is
ignored; with nothing in flight the function's resources are reclaimed, BUSY clears, and a reset has freed its objects and put
its registers at their reset values, the ring's pointers too (log 45). A kill drops the function's moves that have not begun (log 63). -/
def Sys2Proof.Machine.KillsAndResetsReclaimAFunction : Prop :=
  ∀ (s : State) (chip vf : Nat),
    let v := s.vf chip vf
    (v.busy.isSome → exec (.vfctlKill chip vf) s = .next s ∧ exec (.vfctlReset chip vf) s = .next s)
    ∧ (v.busy = none → ∃ u, exec (.vfctlKill chip vf) s = .next u ∧ (u.vf chip vf).busy = some s.now ∧ (u.vf chip vf).srcons = (u.vf chip vf).srprod
      ∧ (∀ c, c.chip = chip → s.live c = true → (s.cohort c).vf = vf → (u.cohort c).killed = some ((s.cohort c).killed.getD 6))
      ∧ (∀ m ∈ u.moves, m.2.who = (chip, vf) → m.2.going = true))
    ∧ (v.busy = none → ∃ u, exec (.vfctlReset chip vf) s = .next u ∧ (u.vf chip vf).busy = some s.now ∧ (u.vf chip vf).resetting = true
      ∧ (u.vf chip vf).srcons = (u.vf chip vf).srprod
      ∧ (∀ c, c.chip = chip → s.live c = true → (s.cohort c).vf = vf → (u.cohort c).killed = some ((s.cohort c).killed.getD 6)))
    ∧ (∀ since, v.busy = some since → s.opsIn chip vf ≠ [] → s.now < since + 360000 → exec (.killReclaim chip vf) s = .next s)
    ∧ (∀ since, v.busy = some since → s.opsIn chip vf = [] ∨ since + 360000 ≤ s.now → ∃ u, exec (.killReclaim chip vf) s = .next u ∧ (u.vf chip vf).busy = none
      ∧ (u.vf chip vf).ctx = .running ∧ (∀ x ∈ s.cohortsIn chip vf, (u.cohort x.1).ended = true)
      ∧ (v.resetting = true → (∀ o ∈ u.objects, ¬ (o.2.chip = chip ∧ o.2.vf = vf)) ∧ (u.vf chip vf).enable = false ∧ (u.vf chip vf).keyed = false
          ∧ (u.vf chip vf).tvbase = 0 ∧ (u.vf chip vf).srprod = 0 ∧ (u.vf chip vf).frctl = 0 ∧ (u.vf chip vf).weight = 1 ∧ (u.vf chip vf).affinity = 0x00404800
          ∧ (u.vf chip vf).realm = v.realm ∧ (u.vf chip vf).part = v.part))

/-- R403, R404: a round clears the dirty and summary bits of the function's pages at their holder; a scan takes the objects whose
summary bit is set in its package's entry and logs them one at a time, while the ring has room. -/
def Sys2Proof.Machine.DirtyLogsRoundAndScan : Prop :=
  ∀ (s : State) (chip vf : Nat),
    let v := s.vf chip vf
    (∃ u, exec (.dlctlRound chip vf) s = .next u ∧ u.mem = s.mem ∧ ∀ k o, s.objects.get? k = some o → ∃ x, u.objects.get? k = some x ∧ x.extents = o.extents
      ∧ (s.logged chip vf o = true → x.summary = o.summary.filter (· ≠ chip) ∧ ∀ i < o.pages.length, o.holderOf i = chip → (x.pages.getD i {}).dirty = false)
      ∧ (s.logged chip vf o = false → x = o))
    ∧ (v.dlscan = none → exec (.dlctlScan chip vf) s = .next (s.setVf chip vf
        { v with dlscan := some ((List.filter (fun (o : (Nat × Nat) × Obj) => s.logged chip vf o.2 && o.2.summary.contains chip) s.objects).map (·.1)) }))
    ∧ (v.dlscan = some [] → exec (.dlctlScan chip vf) s = .next (s.setVf chip vf { v with dlscan := none }))
    ∧ (∀ k l, v.dlscan = some (k :: l) → (v.dlprod - v.dlcons).toNat = 65536 → exec (.dlctlScan chip vf) s = .next s)
    ∧ (∀ k l, s.canonical → v.dlscan = some (k :: l) → l ≠ [] → (v.dlprod - v.dlcons).toNat ≠ 65536 → ∃ u, exec (.dlctlScan chip vf) s = .next u
        ∧ (u.vf chip vf).dlscan = some l ∧ (u.vf chip vf).dlprod = v.dlprod + 1
        ∧ Memory.readNat u.mem (hostAt chip (v.dlbase.toNat + 8 * (v.dlprod.toNat % 65536))) 8 = (mkPtr k.1 k.2 0).toNat + 1)

/-- R401 to R404: kills, resets and the dirty log. -/
def Obligations.KillsResetsAndDirtyLogs : Prop :=
  KillsAndResetsReclaimAFunction ∧ DirtyLogsRoundAndScan


/-! ## Hardware, lockkeepers and keys -/

/-- R408 to R410: a core without cohorts in which a logic check fails, or one of whose arrays is worn, hands its number to a spare, or
leaves service where none is left (the spares' numbers: log 5), and no other core is retired; a row goes to one of its bank's 16 spares, or a bank to one of its
layer's 2, while one is left; a port's first lost lane makes it retrain at three lanes, the second takes it down. -/
def Sys2Proof.Machine.SparesTakeOver : Prop :=
  (∀ (s : State) (c : CoreId) (lost : List Nat) (check : Bool), (s.core c).service = true → (s.core c).retiring = false →
    (check = false → (s.core c).worn = false → exec (.coreRetire c ⟨lost, check⟩) s = .next s)
    ∧ (check = true ∨ (s.core c).worn = true → s.cohortsOn c = [] →
      let old := (s.core c).phys.getD c.core
      let s1 := (s.modCore c fun x => { x with service := false, retiring := true }).modDie c.toDie fun x => { x with retired := old :: x.retired }
      (∀ p, s1.spareCore c.toDie = some p → exec (.coreRetire c ⟨lost, check⟩) s
        = .next ((s1.modCore c fun x => { x with service := true, retiring := false, phys := some p, corrected := [] }).logEvent c.chip 5 c.die c.core 0xFFFF 0))
      ∧ (s1.spareCore c.toDie = none → ∃ u, exec (.coreRetire c ⟨lost, check⟩) s = .next u ∧ (u.core c).service = false
          ∧ ∀ q < 4, (u.quad ⟨c.chip, c.die, c.core, q⟩).owner = none)))
  ∧ (∀ (s : State) (d : DieId) (part n : Nat),
      let rows := (s.die d).spareRows
      let banks := (s.die d).spareBanks
      let used := fun (l : List ((Nat × Nat) × Nat)) => (List.filter (fun (e : (Nat × Nat) × Nat) => e.1.1 = part) l).length
      (used rows < 16 → exec (.dramSpare d false ⟨part, n⟩) s
        = .next ((s.setDie d { s.die d with spareRows := ((part, n), used rows) :: rows }).logEvent d.chip 7 d.die part 0xFFFF 0))
      ∧ (part < 4 → used banks < 2 → exec (.dramSpare d true ⟨part, n⟩) s
        = .next ((s.setDie d { s.die d with spareBanks := ((part, n), used banks) :: banks }).logEvent d.chip 8 d.die n 0xFFFF 0))
      ∧ (16 ≤ used rows → exec (.dramSpare d false ⟨part, n⟩) s = .next s) ∧ (2 ≤ used banks → exec (.dramSpare d true ⟨part, n⟩) s = .next s))
  ∧ (∀ (s : State) (d : DieId) (n : Nat) (p : Port), n < 12 → (s.die d).ports[n]? = some p →
      let port := fun (u : State) => (u.die d).ports.getD n {}
      (p.lanes = 4 → ∃ u, exec (.laneFailure d n) s = .next u ∧ port u = { p with lanes := 3, training := true })
      ∧ (p.lanes = 3 → ∃ u, exec (.laneFailure d n) s = .next u ∧ port u = { p with lanes := 0, training := false })
      ∧ (p.training = true → ∃ u, exec (.laneRetrainDone d n) s = .next u ∧ port u = { p with training := false, key := p.key + 1, flits := 0 })
      ∧ (p.training = false → exec (.laneRetrainDone d n) s = .next s)
      ∧ (p.lanes ≠ 0 → exec (.linkRekey d n) s = .next (s.modDie d fun x => { x with ports := x.ports.set n { p with key := p.key + 1, flits := 0 } })))

/-- R411, R415, R416: a heartbeat clears the count of missed ones; after three missed the standby takes over; an uncorrectable error
in the active complex's SRAM makes it take over at once; LKUPD starts an update, which ends with the new image running where it
verifies, or with its reason and the old image. A turn that names another outcome of that check does nothing (log 47). That the other complex
stands by with the first heartbeat, and a take-over runs its own image, is the model's choice (log 46), as are UNIT and ADDR of the logged
events (log 40). -/
def Sys2Proof.Machine.LockkeepersTakeOverAndUpdate : Prop :=
  ∀ (s : State) (chip : Nat),
    let h := s.chip chip
    let takeover := fun (s : State) => (s.setChip chip { s.chip chip with activeB := !(s.chip chip).activeB, standby := false, lone := true, missed := 0
                                                                          fw := (s.chip chip).fwOther, fwOther := (s.chip chip).fw }).logEvent chip 11 4 0 0xFFFF 0
    exec (.heartbeat chip false) s = .next (s.setChip chip { h with missed := 0, standby := !h.lone })
    ∧ exec (.heartbeat chip true) s = .next (s.setChip chip { h with missed := min 3 (h.missed + 1) })
    ∧ (h.missed < 3 → exec (.takeOver chip) s = .next s)
    ∧ (3 ≤ h.missed → h.standby = true → exec (.takeOver chip) s = .next (takeover s))
    ∧ (h.standby = true → ∃ u, exec (.lockkeeperSramScrub chip .lockkeeper) s = .next u ∧ (u.chip chip).activeB = !h.activeB ∧ (u.chip chip).standby = false)
    ∧ (∃ u, exec (.lockkeeperSramScrub chip .corrected) s = .next u ∧ (u.chip chip).activeB = h.activeB ∧ (u.chip chip).missed = h.missed
        ∧ (u.chip chip).corrected = h.corrected + 1)
    ∧ (∀ image, (h.updstat ≠ 1 → exec (.lkupd chip image) s = .next (s.setChip chip { h with image := image, updstat := 1 }))
        ∧ (h.updstat = 1 → exec (.lkupd chip image) s = .next (s.setChip chip h)))
    ∧ (h.updstat = 1 → h.standby = true →
        (∃ u, exec (.liveUpdateTakeover chip .good) s = .next u ∧ (u.chip chip).updstat = (if imageVerifies chip (h.images + 1) then 2 else 1)
          ∧ (u.chip chip).activeB = (h.activeB != imageVerifies chip (h.images + 1))
          ∧ (u.chip chip).fw = (if imageVerifies chip (h.images + 1) then h.images + 1 else h.fw)
          ∧ (u.chip chip).fwOther = (if imageVerifies chip (h.images + 1) then h.fw else h.fwOther))
        ∧ exec (.liveUpdateTakeover chip .badSignature) s = .next
          (if imageVerifies chip (h.images + 1) then s else s.setChip chip { h with updstat := 3, images := h.images + 1 })
        ∧ exec (.liveUpdateTakeover chip .versionRefused) s = .next
          (if imageVerifies chip (h.images + 1) then s.setChip chip { h with updstat := 4, images := h.images + 1 } else s)
        ∧ exec (.liveUpdateTakeover chip .fetchFault) s = .next (s.setChip chip { h with updstat := 5 }))

/-- R408 to R411, R415, R416: recovery of hardware. -/
def Obligations.SparesAndLockkeepersTakeOver : Prop :=
  SparesTakeOver ∧ LockkeepersTakeOverAndUpdate

/-- R339, R368, R370: a message of the clock's protocol steps the clock (by any step: log 6); a port's channel has new keys; a key command installs a key,
with the next epoch, where its blob opens for a disabled function of its realm that holds no frames, and else changes nothing. That the
highest MAJOR starts at 0 again is the model's choice (log 45). -/
def Sys2Proof.Machine.KeysAndClocksChange : Prop :=
  (∀ (s : State) (chip port : Nat) (n : Int),
    exec (.ptpMessage chip n) s = .next (s.setChip chip { s.chip chip with clockStep := (s.chip chip).clockStep + n })
    ∧ exec (.mkaMessage chip port) s = .next (s.setChip chip { s.chip chip with channels := (s.chip chip).channels.modify port (· + 1) }))
  ∧ (∀ (s : State) (chip : Nat) (blob : List Byte),
      let n := ofBytesLE ((blob.drop 0x648).take 4)
      let v := s.vf chip n
      exec (.keyCommand chip blob) s = .next (match blobKey chip blob with
        | some k =>
          if n < 1024 ∧ ofBytesLE ((blob.drop 0x64C).take 4) = v.realm.toNat ∧ v.enable = false ∧ s.holdsFrames chip n = false then
            (s.dropTree chip n).setVf chip n { v with key := k, root := {}, keyed := true, keyEpoch := v.keyEpoch + 1, majorMax := 0 }
          else s
        | none => s))

/-- R361, R363 to R367, R411, R412: a write-back of a line that does not fail raises the line's MINOR, or its block's MAJOR with every MINOR
at 0, and stores the line XORed with the pad of its counter value, and its MAC under it, so that it decrypts to the bytes of memory; where the
L2 holds the line dirty, its other half is written back too, and it is clean; a line whose code or MAC does not hold fails where the L2 takes it; a rebuilt counter block starts above every MAJOR that its key has used, and its lines
have failed. The byte order of pad and MAC is the model's choice (log 61). -/
def Sys2Proof.Machine.LinesAreEncryptedUnderFreshCounters : Prop :=
  (∀ (s : State) (d : DieId) (line vf a : Nat), line < 2 ^ 32 → Tab.get? (s.die d).frames (line / 1024) = some vf → s.lineAddr d line = some a →
    (if (Tab.get? (s.die d).l2 (line / 2)).isSome then line ∉ (s.die d).l2bad else s.lineOk d line = true) →
    let t := ({ s with draws := s.draws + 1 } : State).fitTree d.chip vf
    let c := Tab.getD (t.die d).counters (line / 64) {}
    let n := c.minors.getD (line % 64) 0
    let key := s.ownerKey d.chip vf
    let other := line / 2 * 2 + 1 - line % 2
    let stored := fun (u : State) (major minor : Nat) => u.decrypted d line = some (Memory.readBytes s.mem a 64)
      ∧ ∃ l, Tab.get? (u.die d).lines line = some l ∧ l.bad = false
      ∧ l.text = Crypt.xorBytes (Memory.readBytes s.mem a 64) (linePad key d.die line major minor) ∧ l.mac = lineMac key d.die line major minor l.text
    let writes := fun (good : State → CounterBlock → Prop) => ∃ u b, exec (.dramLineWriteback d ⟨line, .none⟩) s = .next u
      ∧ Tab.get? (u.die d).counters (line / 64) = some b ∧ u.mem = s.mem ∧ good u b
    c.minors.length = 64 → t.blockOk d.chip vf (t.treeHeight d.chip vf) 0 (d.die * 2 ^ 26 + line / 64) = true →
    (Tab.getD (s.die d).l2 (line / 2) false = false →
      (n < 127 → writes fun u b => b.major = c.major ∧ b.minors = c.minors.set (line % 64) (n + 1) ∧ stored u c.major (n + 1))
      ∧ (127 ≤ n → writes fun u b => b.major = c.major + 1 ∧ b.minors = List.replicate 64 0 ∧ stored u (c.major + 1) 0))
    ∧ (Tab.getD (s.die d).l2 (line / 2) false = true → n < 127 → c.minors.getD (other % 64) 0 < 127 →
      writes fun u b => b.major = c.major ∧ stored u c.major (n + 1) ∧ Tab.getD (u.die d).l2 (line / 2) true = false
        ∧ b.minors = if other ∈ (s.die d).l2bad then c.minors.set (line % 64) (n + 1)
                     else (c.minors.set (line % 64) (n + 1)).set (other % 64) (c.minors.getD (other % 64) 0 + 1)))
  ∧ (∀ (s : State) (d : DieId) (j line : Nat) (l : DramLine), s.dramLine (j * 64) = some (d, line) → Tab.get? (s.die d).lines line = some l →
      let o := s.keyOwner d (line / 1024)
      let c := s.treeBlock d.chip o 0 (d.die * 2 ^ 26 + line / 64)
      (Tab.get? (s.die d).l2 (line / 2) = none →
        (l.bad = true ∨ l.mac ≠ lineMac (s.ownerKey d.chip o) d.die line c.major (c.minors.getD (line % 64) 0) l.text) →
        s.lineFails j = true ∧ s.readFails (j * 64) 64 = true)
      ∧ ((Tab.get? (s.die d).l2 (line / 2)).isSome = true → (s.lineFails j = true ↔ (j ∈ s.failed ∨ line ∈ (s.die d).l2bad))))
  ∧ (∀ (s : State) (d : DieId) (block vf : Nat), block < 2 ^ 26 → Tab.get? (s.die d).frames (block / 16) = some vf →
      let ok := s.blockOk d.chip vf (s.treeHeight d.chip vf) 0 (d.die * 2 ^ 26 + block)
      (ok = true → exec (.counterRebuild d block) s = .next s)
      ∧ (ok = false → vf < 1024 → ∃ u b, exec (.counterRebuild d block) s = .next u ∧ Tab.get? (u.die d).counters block = some b
        ∧ b.major = (s.vf d.chip vf).majorMax + 1
        ∧ b.minors = List.replicate 64 0 ∧ (u.vf d.chip vf).majorMax = (s.vf d.chip vf).majorMax + 1
        ∧ ∀ i < 64, ∀ a, s.lineAddr d (block * 64 + i) = some a → a / 64 ∈ u.failed))

/-- R339, R363 to R370, R412: keys, clocks and lines of DRAM. -/
def Obligations.KeysClocksAndEncryptedLines : Prop :=
  KeysAndClocksChange ∧ LinesAreEncryptedUnderFreshCounters

/-- R6, R334, R358, R359, R383, R417, R418: a write of a page's register sets the fields that software may write and keeps the
others; a reserved offset ignores it; a module reset leaves a package's own tables empty and its registers at their reset values,
with the time of day kept, a bad core's number
on a spare (log 5), and the patch image running where one verifies; and at 115 °C power is removed and everything there is lost. That the
time of day outlives a reset is the model's choice (log 6), as are what a reset is told of cores and images (log 47), and that a write
inside a register's bytes is ignored (log 11). -/
def Obligations.RegistersResetsAndHeat : Prop :=
  (∀ (s : State) (chip vf : Nat) (v : BitVec 128), vf < 1024 →
    exec (.registerWrite chip .recovery (64 * vf) v) s = .next (s.modVf chip vf fun x => { x with tvbase := v.setWidth 64 })
    ∧ exec (.registerWrite chip .recovery (64 * vf + 4) v) s = .next s
    ∧ exec (.registerWrite chip .recovery (64 * vf + 0x10) v) s = .next (s.modVf chip vf fun x => { x with frctl := v.setWidth 32 &&& 0x8000001F })
    ∧ exec (.registerWrite chip .recovery (64 * vf + 0x14) v) s = .next s
    ∧ exec (.registerWrite chip .objectSpace (0x2000 + 4 * vf) v) s = .next (s.modVf chip vf fun x => { x with weight := v.setWidth 32 &&& 0xFF })
    ∧ exec (.registerWrite chip .scheduling (64 * vf + 0x10) v) s = .next s)
  ∧ (∀ (s : State) (chip : Nat) (bad : List (Nat × Nat)) (patch : Bool),
      let h := s.chip chip
      let n := if patch && imageVerifies chip (h.images + 1) then h.images + 1 else 0
      ∃ u, exec (.moduleReset ⟨chip, bad, patch⟩) s = .next u
      ∧ u.chip chip = { resetAt := s.now, clockStep := h.clockStep, images := if patch then h.images + 1 else h.images, fw := n, fwOther := n }
      ∧ (∀ t ∈ u.threads, t.1.cohort.chip ≠ chip) ∧ (∀ g ∈ u.grids, g.1.1 ≠ chip) ∧ (∀ o ∈ u.objects, o.1.1 ≠ chip) ∧ (∀ o ∈ u.ops, o.2.thread.cohort.chip ≠ chip)
      ∧ (∀ c ∈ u.mem, inPackage chip c.1 = false) ∧ u.pod = s.pod ∧ u.now = s.now
      ∧ (bad = [] → ∀ c : CoreId, c.chip = chip → u.core c = {})
      ∧ (∀ d < 4, ∀ k < 48, bad = [(d, k)] → (u.core ⟨chip, d, k⟩).phys = some 48 ∧ (u.core ⟨chip, d, k⟩).service = true))
  ∧ (∀ (s : State) (chip temp : Nat), (s.chip chip).vfs = [] → ∃ u, exec (.thermalThreshold chip temp) s = .next u
      ∧ (920 ≤ temp → u.chip chip = { resetAt := (s.chip chip).resetAt, clockStep := (s.chip chip).clockStep, images := (s.chip chip).images, off := some s.now }
          ∧ (∀ t ∈ u.threads, t.1.cohort.chip ≠ chip) ∧ (∀ o ∈ u.objects, o.1.1 ≠ chip) ∧ ∀ c ∈ u.mem, inPackage chip c.1 = false)
      ∧ (temp < 920 → (u.chip chip).temp = temp ∧ (u.chip chip).off = (s.chip chip).off
        ∧ (760 ≤ temp → (u.chip chip).slow = true) ∧ (temp < 720 → (u.chip chip).slow = false) ∧ (720 ≤ temp → temp < 760 → (u.chip chip).slow = (s.chip chip).slow)
        ∧ (840 ≤ temp → (u.chip chip).hot = true) ∧ (temp < 760 → (u.chip chip).hot = false)
        ∧ (760 ≤ temp → temp < 840 → (u.chip chip).hot = (s.chip chip).hot)))

/-! ## Words, decoding and the step -/

/-- R45: a word whose opcode its clause's class does not admit raises the illegal-instruction trap. -/
def Obligations.AClauseAdmitsTheOpcodesOfItsClass : Prop :=
  ∀ (k : WordCtx) (w l : DWord),
    let opc := (w.toNat / 2 ^ 50) % 256
    ¬ ((k.cls = 0 ∧ (opc ≤ 0x7F ∨ (0xC4 ≤ opc ∧ opc ≤ 0xC8 ∧ k.crew = true) ∨ opc = 0xE7))
      ∨ (k.cls = 1 ∧ ((0x80 ≤ opc ∧ opc ≤ 0xC3) ∨ opc = 0xC9 ∨ opc = 0xE7))
      ∨ (k.cls = 2 ∧ ((0xD0 ≤ opc ∧ opc ≤ 0xDF) ∨ opc = 0xE7))
      ∨ (k.cls = 3 ∧ 0xE0 ≤ opc ∧ opc ≤ 0xF7)) →
    decodeWord k w l = .error .illegalInstruction

/-- R37: a field that an instruction's description makes a predicate names the predicate of its bits 3:0, and any other nonzero bit in
it raises the illegal-instruction trap. -/
def Obligations.PredicateFieldsNameFourBits : Prop :=
  (∀ (k : WordCtx) (w l : DWord) (i : Instr),
    let f := Fields.ofWord w l
    Instr.ofCode (opcOf w) f = some i →
      (i.roles.dst = .pred ∧ 16 ≤ f.dst.toNat) ∨ (i.roles.a = .pred ∧ 16 ≤ f.sa.toNat) ∨ (i.roles.c = .pred ∧ (f.form = 0 ∨ f.form = 3) ∧ 16 ≤ f.sc.toNat) →
      decodeWord k w l = .error .illegalInstruction)
  ∧ (∀ (x : Thread) (n : Nat) (v : Bool),
      x.pred n = x.preds.getLsbD (n % 16) ∧ x.setPred n v = { x with preds := (x.setPred n v).preds }
      ∧ (x.setPred n v).pred n = v ∧ ∀ m, m % 16 ≠ n % 16 → (x.setPred n v).pred m = x.pred m)

/-- R51: the immediate of a word in FORM 01, as an integer source of either width and as an FP32 source reads it, and the offset of
a word in FORM 10. -/
def Obligations.ImmediatesAndOffsetsReadTheirBits : Prop :=
  ∀ (w l : DWord) (x : Thread),
    let f := Fields.ofWord w l
    (w.extractLsb' 48 2 = 1 →
      f.imm = (w.extractLsb' 0 30).toInt
      ∧ x.b32 f = some ((w.extractLsb' 0 30).signExtend 32)
      ∧ x.b64 f = some ((w.extractLsb' 0 30).signExtend 64)
      ∧ x.bF f = some (w.extractLsb' 0 30 ++ (0 : BitVec 2)))
    ∧ (w.extractLsb' 48 2 = 2 → f.off = (w.extractLsb' 0 21).toInt)

/-- R48, R65: words of each clause class, written out from the encoding of their fields, decode to their instructions. -/
def Obligations.WrittenOutWordsDecode : Prop :=
  decodeTableWord 64 0x039C_0000_0000_0000 = some (.nop noFields)
  ∧ decodeTableWord 64 0x0390_0000_0000_0000 = some (.exit noFields)
  ∧ decodeTableWord 64 0x8790_0000_0000_0000 = some (.exit { noFields with ge := true, gp := 1 })
  ∧ decodeTableWord 64 0x0381_0000_3FFF_FFF6 = some (.bra { noFields with form := 1, sb := 511, sc := 511, mod := 4086 })
  ∧ decodeTableWord 64 0x020A_0305_0060_0080 = some (.ldo { noFields with form := 2, dst := 6, sa := 20, sb := 3, mod := 128 })
  ∧ decodeTableWord 64 0x0230_0982_8180_0007 = some (.copy { noFields with dst := 19, sa := 10, sb := 12, mod := 7 })
  ∧ decodeTableWord 64 0x0310_0180_8000_0000 = some (.ballot { noFields with dst := 3, sa := 2 })
  ∧ decodeTableWord 64 0x034C_0180_0000_2000 = some (.gres { noFields with dst := 3, sc := 2 })
  ∧ decodeTableWord 64 0x03D8_0281_8000_1000 = some (.winacq { noFields with dst := 5, sa := 6, sc := 1 })
  ∧ decodeTableWord 64 0x0188_0500_C142_8000 = some (.tpack { noFields with dst := 10, sa := 3, sb := 10, sc := 40 })
  ∧ decodeTableWord 64 0x02E0_0282_B200_0000 = some (.atomIncb { noFields with dst := 5, sa := 10, sb := 400 })
  ∧ decodeTableWord 64 0x0298_0182_BE00_0000 = some (.omigrate { noFields with dst := 3, sa := 10, sb := 496 })
  ∧ decodeTableWord 64 0x0340_0485_0100_0872 = some (.mmag { noFields with dst := 9, sa := 20, sb := 8, mod := 2162 })
  ∧ decodeTableWord 64 0x035C_0103_8182_4000 = some (.xsend { noFields with dst := 2, sa := 14, sb := 12, sc := 36 })

/-- R48, R52: the encoder's words are those that decode to a well-formed word, and they decode to it alone: no bit of an encoding
is dropped. -/
def Obligations.DecodingInvertsEncoding : Prop :=
  ∀ (i : Instr) (ws : List DWord), decodeWords ws = some i ↔ (i.wellFormed = true ∧ i.fields?.isSome = true ∧ encode i = ws)

/-- R31, R61, R418: a turn of an issue stage runs the word that the bundle's words decode to, with the turn's time passed; a turn
of an agent runs its step; where no turn is named the arbiter names one (the model's choice, log 1); and a package without power
moves no more. -/
def Obligations.AStepRunsTheDecodedInstruction : Prop :=
  ∀ (s : State) (ticks : Nat) (ts : List Turn),
    (∀ (q : QuadId) (k : Nat) (b : Bundle) (c : WordCtx) (w : DWord) (i : Instr),
      s.turns = ⟨ticks, .issue q k⟩ :: ts → (s.chip q.chip).off = none → Tab.get? (s.quad q).bundles k = some b →
      b.words[b.word]? = some w → decodeWord c w (b.words.getD (b.word + 1) 0) = .ok i →
      step s = exec i { s with turns := ts, now := s.now + ticks, issuing := some (q, k) })
    ∧ (∀ i : Instr, s.turns = ⟨ticks, .agent i⟩ :: ts → s.powered (.agent i) = true →
      step s = exec i { s with turns := ts, now := s.now + ticks })
    ∧ (∀ a : Act, s.turns = ⟨ticks, a⟩ :: ts → s.powered a = false → step s = .fault .powerLost)
    ∧ (s.turns = [] → step s = step { s with turns := [Config.arbiter s.draws], draws := s.draws + 1 })

/-- R38: a register word that reads a latch which its thread has not written in the clause raises the illegal-operand trap. -/
def Sys2Proof.Machine.AnUnwrittenLatchTraps : Prop :=
  ∀ f : Fields,
    let traps := fun (mk : Fields → Instr) (p : State → Bundle → ThreadId → Prop) =>
      Traps (mk f) f p .illegalOperand (fun _ _ _ => 0) (fun _ _ _ => 0)
    let two := fun (s : State) (b : Bundle) (t : ThreadId) => s.a32 b t f = none ∨ (s.thread t).b32 f = none
    let wide := fun (s : State) (b : Bundle) (t : ThreadId) => s.a64 b t f = none ∨ (s.thread t).b64 f = none
    traps .iadd two ∧ traps .isub two ∧ traps .imul two ∧ traps .imin two ∧ traps .imax two
    ∧ traps .iadd64 wide ∧ traps .isub64 wide ∧ traps .imul64 wide
    ∧ traps .popc (fun s b t => s.a32 b t f = none) ∧ traps .clz (fun s b t => s.a32 b t f = none)

/-- R30, R38, R46, R343: at the end of its clause a thread that has executed EXIT drains; another stands at its transfer's target or
at the header after the clause, with no latch valid. -/
def Sys2Proof.Machine.AClauseEndsAtItsTargetOrTheNextHeader : Prop :=
  ∀ (s : State) (b : Bundle) (t : ThreadId),
    let x := s.thread t
    let y := (s.endClause b t).thread t
    (x.exiting = true → y.run = .draining ∧ y.exiting = false ∧ y.latches = List.replicate 8 none)
    ∧ (x.exiting = false → y.pc = x.nextPc.getD (ptrAdd b.pc (8 * (b.words.length + 1))) ∧ y.nextPc = none ∧ y.inside = false ∧ y.word = 0
      ∧ y.latches = List.replicate 8 none ∧ (y.run = .blocked ∨ y.run = .ready ∨ y.run = .rendezvous))
    ∧ y.regs = x.regs ∧ y.preds = x.preds ∧ y.dcs = x.dcs ∧ y.ret = x.ret ∧ y.stack = x.stack

/-- R30, R38, R46, R65, R343, R344: the end of a clause, and its latches. -/
def Obligations.ClausesEndAndLatchesAreChecked : Prop :=
  ExitWaitYieldAndNop ∧ AnUnwrittenLatchTraps ∧ AClauseEndsAtItsTargetOrTheNextHeader

/-! ## Frames -/

/-- R31, R32, R34, R49: the frame of every word that changes no dependency counter and whose next state is afterWord, every register
word: nothing but the records of its own threads
and its quadrant's bundles changes; a thread that does not execute the word keeps its registers, and one that does has the
registers that its new record gives it. -/
def Obligations.RegisterWordsChangeOnlyTheirThreads : Prop :=
  ∀ (s : State) (i : Instr) (q : QuadId) (k : Nat) (b : Bundle) (f : Fields) (g : ThreadId → Thread),
    Tab.get? (s.quad q).bundles k = some b → b.threads.Nodup → b.rest = [] → i.counter = none →
    let u := s.afterWord i q k b f g
    let keeps := fun (x y : Thread) => y.regs = x.regs ∧ y.preds = x.preds ∧ y.dcs = x.dcs ∧ y.ret = x.ret ∧ y.stack = x.stack
      ∧ y.rmode = x.rmode ∧ y.srseed = x.srseed ∧ y.rowprog = x.rowprog ∧ y.ltimeh = x.ltimeh ∧ y.faults = x.faults ∧ y.handler = x.handler
      ∧ y.deferred = x.deferred
    u.mem = s.mem ∧ u.failed = s.failed ∧ u.chips = s.chips ∧ u.dies = s.dies ∧ u.cores = s.cores ∧ u.grids = s.grids ∧ u.cohorts = s.cohorts
    ∧ u.objects = s.objects ∧ u.ops = s.ops ∧ u.msgs = s.msgs ∧ u.moves = s.moves ∧ u.pins = s.pins ∧ u.syncs = s.syncs
    ∧ u.scFences = s.scFences ∧ u.redSlots = s.redSlots ∧ u.saves = s.saves ∧ u.pod = s.pod ∧ u.now = s.now ∧ u.turns = s.turns
    ∧ u.lags = s.lags ∧ u.symbols = s.symbols ∧ u.nextId = s.nextId
    ∧ (∀ q', q' ≠ q → u.quad q' = s.quad q')
    ∧ (u.quad q).acc = (s.quad q).acc ∧ (u.quad q).poison = (s.quad q).poison ∧ (u.quad q).shadows = (s.quad q).shadows
    ∧ (u.quad q).queues = (s.quad q).queues ∧ (u.quad q).owner = (s.quad q).owner
    ∧ (∀ t, t ∉ b.threads → u.thread t = s.thread t)
    ∧ (∀ t ∈ b.threads, (s.thread t).executes f = false → keeps (s.thread t) (u.thread t))
    ∧ (∀ t ∈ b.threads, (s.thread t).executes f = true → keeps (g t) (u.thread t))

/-- R55, with R35, R36 and R37: a result goes to its register, its pair or its predicate, or with NWB to its latch alone, which no word
without a register result may name; gz takes none; every other register and everything else of the thread is unchanged. -/
def Obligations.AResultGoesToItsDestinationAlone : Prop :=
  (∀ (k : WordCtx) (w l : DWord), w.getLsbD 47 = true →
      8 ≤ w.toNat / 2 ^ 39 % 256 ∨ 0x80 ≤ opcOf w ∨ opcOf w ∈ [0x19, 0x1C, 0x2D, 0x45] → decodeWord k w l = .error .illegalInstruction)
  ∧ ∀ (x : Thread) (f : Fields) (v : Word) (d : DWord),
    let y := x.put32 f v
    let z := x.put64 f d
    let n := f.dst.toNat
    y = { x with regs := y.regs, latches := y.latches } ∧ z = { x with regs := z.regs, latches := z.latches }
    ∧ (f.nwb = true → y.regs = x.regs ∧ z.regs = x.regs ∧ y.latches = x.latches.set (n % 8) (some (v.setWidth 64))
        ∧ z.latches = x.latches.set (n % 8) (some d))
    ∧ (f.nwb = false → y.latches = x.latches ∧ z.latches = x.latches
        ∧ (n = 255 → y = x ∧ z = x)
        ∧ (∀ m, m ≠ n → y.reg m = x.reg m)
        ∧ (∀ m, m ≠ n → m ≠ n + 1 → z.reg m = x.reg m)
        ∧ (n < x.regs.length → n ≠ 255 → y.reg n = v)
        ∧ (n + 1 < x.regs.length → n + 1 < 255 → z.reg n = d.extractLsb' 0 32 ∧ z.reg (n + 1) = d.extractLsb' 32 32 ∧ z.pair n = d))
    ∧ (x.setPred n true).pred n = true ∧ (x.setPred n false).pred n = false

/-- R5, R243, R256: a store of chip-local memory changes no byte outside the place at which its pointer stands, and a load changes
none. -/
def Sys2Proof.Machine.LocalAccessesTouchOnlyTheirBytes : Prop :=
  ∀ (s : State) (id addr : Nat) (o : Op) (a : Access), s.canonical →
    s.op? id = some o → o.body = .access a → o.phase = .issued → s.mayPerform id o = true → birthOf a.ptr = 0xFFF → serialOf a.ptr < 2 →
    (isCistern a.ptr = true → s.presentAll o.thread.cohort.toCore (offsetOf a.ptr) a.size = true) → s.obj? a.ptr = none →
    s.reach o.thread a.ptr a.size (a.kind ≠ .load) = .place addr →
    (a.kind = .load → o.ctr = some 0 → s.readFails addr a.size = false → ∀ t x, exec (.responseArrives id) s = .next t → t.byte x = s.byte x)
    ∧ (a.kind = .store → o.ctr = some 1 → s.writeFails addr a.size = false → ∀ t, exec (.storeCompletion id) s = .next t →
        (∀ x, x < addr ∨ addr + a.size ≤ x → t.byte x = s.byte x)
        ∧ (∀ x, addr ≤ x → x < addr + a.size → t.byte x = BitVec.ofNat 8 (a.data / 2 ^ (8 * (x - addr)))))

/-- R210, R238, R239, R243, R256: accesses of chip-local memory, and their frame. -/
def Obligations.LocalAccessesPerformAtTheirPlace : Prop :=
  LocalAccessesReadAndWriteTheirBytes ∧ LocalAccessesTouchOnlyTheirBytes

/-! ## The machine as a whole -/

/-- The canonical form of memory, which is the model's own choice (log 3), is kept by every step, of every instruction word and every
agent. -/
def Obligations.EveryStepKeepsMemoryCanonical : Prop :=
  ∀ s t : State, s.canonical → step s = .next t → t.canonical

/-- The machine at reset meets the invariant: its memory is in the canonical form, which is the model's own choice (log 3). -/
def Obligations.ResetIsCanonical : Prop := State.reset.canonical

/-- R170, R186, R283, R302, R321, R334, R358, R373, R383, R413, R416, R418: what a package holds at module reset: its next serial and
its next grid number are 1; no object, grid, thread or operation is there; and every register of its pages reads its reset value. -/
def Obligations.ResetValuesAreThoseOfTheTables : Prop :=
  let s := State.reset
  (s.chip 0).nextSerial = 1 ∧ (s.chip 0).nextGrid = 1 ∧ s.objects = [] ∧ s.grids = [] ∧ s.threads = [] ∧ s.ops = [] ∧ s.mem = []
  ∧ (∀ vf < 1024,
      s.readReg 0 .objectSpace (0x1000 + 4 * vf) = 0x0040_4800 ∧ s.readReg 0 .objectSpace (0x2000 + 4 * vf) = 1
      ∧ (∀ o < 64, s.readReg 0 .scheduling (64 * vf + o) = 0 ∧ s.readReg 0 .recovery (64 * vf + o) = 0)
      ∧ (∀ o < 16, s.readReg 0 .scheduling (0x10000 + 16 * vf + o) = 0 ∧ s.readReg 0 .isolation (0x4000 + 16 * vf + o) = 0))
  ∧ (∀ o < 0x4000, s.readReg 0 .isolation o = 0) ∧ (∀ o, 0x8000 ≤ o → o < 0xF000 → s.readReg 0 .isolation o = 0)
  ∧ s.readReg 0 .isolation 0xF000 = 1
  ∧ (∀ o ∈ [0x10000, 0x10008, 0x1000C, 0x10010, 0x10014, 0x10020, 0x10030], s.readReg 0 .recovery o = 0)
  ∧ s.readReg 0 .recovery 0x10028 = 1
end

