-- ==== Sys2Proof/Laws/State.lean ====
section
/-! SUPPORT. What each update of a record of State does to each field of State, and what a record is after an update. Every
update in place is an update of the record (R26 to R31). -/

namespace Sys2Proof.Machine

variable (s : State)

@[simp] theorem State.setChip_now (c : Nat) (v : Chip) : (s.setChip c v).now = s.now := rfl
@[simp] theorem State.setChip_turns (c : Nat) (v : Chip) : (s.setChip c v).turns = s.turns := rfl
@[simp] theorem State.setChip_draws (c : Nat) (v : Chip) : (s.setChip c v).draws = s.draws := rfl
@[simp] theorem State.setChip_issuing (c : Nat) (v : Chip) : (s.setChip c v).issuing = s.issuing := rfl
@[simp] theorem State.setChip_nextId (c : Nat) (v : Chip) : (s.setChip c v).nextId = s.nextId := rfl
@[simp] theorem State.setChip_pod (c : Nat) (v : Chip) : (s.setChip c v).pod = s.pod := rfl
@[simp] theorem State.setChip_mem (c : Nat) (v : Chip) : (s.setChip c v).mem = s.mem := rfl
@[simp] theorem State.setChip_failed (c : Nat) (v : Chip) : (s.setChip c v).failed = s.failed := rfl
@[simp] theorem State.setChip_chips (c : Nat) (v : Chip) : (s.setChip c v).chips = s.chips.put c v := rfl
@[simp] theorem State.setChip_dies (c : Nat) (v : Chip) : (s.setChip c v).dies = s.dies := rfl
@[simp] theorem State.setChip_cores (c : Nat) (v : Chip) : (s.setChip c v).cores = s.cores := rfl
@[simp] theorem State.setChip_quads (c : Nat) (v : Chip) : (s.setChip c v).quads = s.quads := rfl
@[simp] theorem State.setChip_grids (c : Nat) (v : Chip) : (s.setChip c v).grids = s.grids := rfl
@[simp] theorem State.setChip_cohorts (c : Nat) (v : Chip) : (s.setChip c v).cohorts = s.cohorts := rfl
@[simp] theorem State.setChip_threads (c : Nat) (v : Chip) : (s.setChip c v).threads = s.threads := rfl
@[simp] theorem State.setChip_objects (c : Nat) (v : Chip) : (s.setChip c v).objects = s.objects := rfl
@[simp] theorem State.setChip_ops (c : Nat) (v : Chip) : (s.setChip c v).ops = s.ops := rfl
@[simp] theorem State.setChip_msgs (c : Nat) (v : Chip) : (s.setChip c v).msgs = s.msgs := rfl
@[simp] theorem State.setChip_moves (c : Nat) (v : Chip) : (s.setChip c v).moves = s.moves := rfl
@[simp] theorem State.setChip_pins (c : Nat) (v : Chip) : (s.setChip c v).pins = s.pins := rfl
@[simp] theorem State.setChip_symbols (c : Nat) (v : Chip) : (s.setChip c v).symbols = s.symbols := rfl
@[simp] theorem State.setChip_syncs (c : Nat) (v : Chip) : (s.setChip c v).syncs = s.syncs := rfl
@[simp] theorem State.setChip_lags (c : Nat) (v : Chip) : (s.setChip c v).lags = s.lags := rfl
@[simp] theorem State.setChip_scFences (c : Nat) (v : Chip) : (s.setChip c v).scFences = s.scFences := rfl
@[simp] theorem State.setChip_redSlots (c : Nat) (v : Chip) : (s.setChip c v).redSlots = s.redSlots := rfl
@[simp] theorem State.setChip_saves (c : Nat) (v : Chip) : (s.setChip c v).saves = s.saves := rfl

@[simp] theorem State.setDie_now (d : DieId) (v : Die) : (s.setDie d v).now = s.now := rfl
@[simp] theorem State.setDie_turns (d : DieId) (v : Die) : (s.setDie d v).turns = s.turns := rfl
@[simp] theorem State.setDie_draws (d : DieId) (v : Die) : (s.setDie d v).draws = s.draws := rfl
@[simp] theorem State.setDie_issuing (d : DieId) (v : Die) : (s.setDie d v).issuing = s.issuing := rfl
@[simp] theorem State.setDie_nextId (d : DieId) (v : Die) : (s.setDie d v).nextId = s.nextId := rfl
@[simp] theorem State.setDie_pod (d : DieId) (v : Die) : (s.setDie d v).pod = s.pod := rfl
@[simp] theorem State.setDie_mem (d : DieId) (v : Die) : (s.setDie d v).mem = s.mem := rfl
@[simp] theorem State.setDie_failed (d : DieId) (v : Die) : (s.setDie d v).failed = s.failed := rfl
@[simp] theorem State.setDie_chips (d : DieId) (v : Die) : (s.setDie d v).chips = s.chips := rfl
@[simp] theorem State.setDie_dies (d : DieId) (v : Die) : (s.setDie d v).dies = s.dies.put d v := rfl
@[simp] theorem State.setDie_cores (d : DieId) (v : Die) : (s.setDie d v).cores = s.cores := rfl
@[simp] theorem State.setDie_quads (d : DieId) (v : Die) : (s.setDie d v).quads = s.quads := rfl
@[simp] theorem State.setDie_grids (d : DieId) (v : Die) : (s.setDie d v).grids = s.grids := rfl
@[simp] theorem State.setDie_cohorts (d : DieId) (v : Die) : (s.setDie d v).cohorts = s.cohorts := rfl
@[simp] theorem State.setDie_threads (d : DieId) (v : Die) : (s.setDie d v).threads = s.threads := rfl
@[simp] theorem State.setDie_objects (d : DieId) (v : Die) : (s.setDie d v).objects = s.objects := rfl
@[simp] theorem State.setDie_ops (d : DieId) (v : Die) : (s.setDie d v).ops = s.ops := rfl
@[simp] theorem State.setDie_msgs (d : DieId) (v : Die) : (s.setDie d v).msgs = s.msgs := rfl
@[simp] theorem State.setDie_moves (d : DieId) (v : Die) : (s.setDie d v).moves = s.moves := rfl
@[simp] theorem State.setDie_pins (d : DieId) (v : Die) : (s.setDie d v).pins = s.pins := rfl
@[simp] theorem State.setDie_symbols (d : DieId) (v : Die) : (s.setDie d v).symbols = s.symbols := rfl
@[simp] theorem State.setDie_syncs (d : DieId) (v : Die) : (s.setDie d v).syncs = s.syncs := rfl
@[simp] theorem State.setDie_lags (d : DieId) (v : Die) : (s.setDie d v).lags = s.lags := rfl
@[simp] theorem State.setDie_scFences (d : DieId) (v : Die) : (s.setDie d v).scFences = s.scFences := rfl
@[simp] theorem State.setDie_redSlots (d : DieId) (v : Die) : (s.setDie d v).redSlots = s.redSlots := rfl
@[simp] theorem State.setDie_saves (d : DieId) (v : Die) : (s.setDie d v).saves = s.saves := rfl

@[simp] theorem State.setCore_now (c : CoreId) (v : Core) : (s.setCore c v).now = s.now := rfl
@[simp] theorem State.setCore_turns (c : CoreId) (v : Core) : (s.setCore c v).turns = s.turns := rfl
@[simp] theorem State.setCore_draws (c : CoreId) (v : Core) : (s.setCore c v).draws = s.draws := rfl
@[simp] theorem State.setCore_issuing (c : CoreId) (v : Core) : (s.setCore c v).issuing = s.issuing := rfl
@[simp] theorem State.setCore_nextId (c : CoreId) (v : Core) : (s.setCore c v).nextId = s.nextId := rfl
@[simp] theorem State.setCore_pod (c : CoreId) (v : Core) : (s.setCore c v).pod = s.pod := rfl
@[simp] theorem State.setCore_mem (c : CoreId) (v : Core) : (s.setCore c v).mem = s.mem := rfl
@[simp] theorem State.setCore_failed (c : CoreId) (v : Core) : (s.setCore c v).failed = s.failed := rfl
@[simp] theorem State.setCore_chips (c : CoreId) (v : Core) : (s.setCore c v).chips = s.chips := rfl
@[simp] theorem State.setCore_dies (c : CoreId) (v : Core) : (s.setCore c v).dies = s.dies := rfl
@[simp] theorem State.setCore_cores (c : CoreId) (v : Core) : (s.setCore c v).cores = s.cores.put c v := rfl
@[simp] theorem State.setCore_quads (c : CoreId) (v : Core) : (s.setCore c v).quads = s.quads := rfl
@[simp] theorem State.setCore_grids (c : CoreId) (v : Core) : (s.setCore c v).grids = s.grids := rfl
@[simp] theorem State.setCore_cohorts (c : CoreId) (v : Core) : (s.setCore c v).cohorts = s.cohorts := rfl
@[simp] theorem State.setCore_threads (c : CoreId) (v : Core) : (s.setCore c v).threads = s.threads := rfl
@[simp] theorem State.setCore_objects (c : CoreId) (v : Core) : (s.setCore c v).objects = s.objects := rfl
@[simp] theorem State.setCore_ops (c : CoreId) (v : Core) : (s.setCore c v).ops = s.ops := rfl
@[simp] theorem State.setCore_msgs (c : CoreId) (v : Core) : (s.setCore c v).msgs = s.msgs := rfl
@[simp] theorem State.setCore_moves (c : CoreId) (v : Core) : (s.setCore c v).moves = s.moves := rfl
@[simp] theorem State.setCore_pins (c : CoreId) (v : Core) : (s.setCore c v).pins = s.pins := rfl
@[simp] theorem State.setCore_symbols (c : CoreId) (v : Core) : (s.setCore c v).symbols = s.symbols := rfl
@[simp] theorem State.setCore_syncs (c : CoreId) (v : Core) : (s.setCore c v).syncs = s.syncs := rfl
@[simp] theorem State.setCore_lags (c : CoreId) (v : Core) : (s.setCore c v).lags = s.lags := rfl
@[simp] theorem State.setCore_scFences (c : CoreId) (v : Core) : (s.setCore c v).scFences = s.scFences := rfl
@[simp] theorem State.setCore_redSlots (c : CoreId) (v : Core) : (s.setCore c v).redSlots = s.redSlots := rfl
@[simp] theorem State.setCore_saves (c : CoreId) (v : Core) : (s.setCore c v).saves = s.saves := rfl

@[simp] theorem State.setQuad_now (q : QuadId) (v : Quad) : (s.setQuad q v).now = s.now := rfl
@[simp] theorem State.setQuad_turns (q : QuadId) (v : Quad) : (s.setQuad q v).turns = s.turns := rfl
@[simp] theorem State.setQuad_draws (q : QuadId) (v : Quad) : (s.setQuad q v).draws = s.draws := rfl
@[simp] theorem State.setQuad_issuing (q : QuadId) (v : Quad) : (s.setQuad q v).issuing = s.issuing := rfl
@[simp] theorem State.setQuad_nextId (q : QuadId) (v : Quad) : (s.setQuad q v).nextId = s.nextId := rfl
@[simp] theorem State.setQuad_pod (q : QuadId) (v : Quad) : (s.setQuad q v).pod = s.pod := rfl
@[simp] theorem State.setQuad_mem (q : QuadId) (v : Quad) : (s.setQuad q v).mem = s.mem := rfl
@[simp] theorem State.setQuad_failed (q : QuadId) (v : Quad) : (s.setQuad q v).failed = s.failed := rfl
@[simp] theorem State.setQuad_chips (q : QuadId) (v : Quad) : (s.setQuad q v).chips = s.chips := rfl
@[simp] theorem State.setQuad_dies (q : QuadId) (v : Quad) : (s.setQuad q v).dies = s.dies := rfl
@[simp] theorem State.setQuad_cores (q : QuadId) (v : Quad) : (s.setQuad q v).cores = s.cores := rfl
@[simp] theorem State.setQuad_quads (q : QuadId) (v : Quad) : (s.setQuad q v).quads = s.quads.put q v := rfl
@[simp] theorem State.setQuad_grids (q : QuadId) (v : Quad) : (s.setQuad q v).grids = s.grids := rfl
@[simp] theorem State.setQuad_cohorts (q : QuadId) (v : Quad) : (s.setQuad q v).cohorts = s.cohorts := rfl
@[simp] theorem State.setQuad_threads (q : QuadId) (v : Quad) : (s.setQuad q v).threads = s.threads := rfl
@[simp] theorem State.setQuad_objects (q : QuadId) (v : Quad) : (s.setQuad q v).objects = s.objects := rfl
@[simp] theorem State.setQuad_ops (q : QuadId) (v : Quad) : (s.setQuad q v).ops = s.ops := rfl
@[simp] theorem State.setQuad_msgs (q : QuadId) (v : Quad) : (s.setQuad q v).msgs = s.msgs := rfl
@[simp] theorem State.setQuad_moves (q : QuadId) (v : Quad) : (s.setQuad q v).moves = s.moves := rfl
@[simp] theorem State.setQuad_pins (q : QuadId) (v : Quad) : (s.setQuad q v).pins = s.pins := rfl
@[simp] theorem State.setQuad_symbols (q : QuadId) (v : Quad) : (s.setQuad q v).symbols = s.symbols := rfl
@[simp] theorem State.setQuad_syncs (q : QuadId) (v : Quad) : (s.setQuad q v).syncs = s.syncs := rfl
@[simp] theorem State.setQuad_lags (q : QuadId) (v : Quad) : (s.setQuad q v).lags = s.lags := rfl
@[simp] theorem State.setQuad_scFences (q : QuadId) (v : Quad) : (s.setQuad q v).scFences = s.scFences := rfl
@[simp] theorem State.setQuad_redSlots (q : QuadId) (v : Quad) : (s.setQuad q v).redSlots = s.redSlots := rfl
@[simp] theorem State.setQuad_saves (q : QuadId) (v : Quad) : (s.setQuad q v).saves = s.saves := rfl

@[simp] theorem State.setGrid_now (c g : Nat) (v : Grid) : (s.setGrid c g v).now = s.now := rfl
@[simp] theorem State.setGrid_turns (c g : Nat) (v : Grid) : (s.setGrid c g v).turns = s.turns := rfl
@[simp] theorem State.setGrid_draws (c g : Nat) (v : Grid) : (s.setGrid c g v).draws = s.draws := rfl
@[simp] theorem State.setGrid_issuing (c g : Nat) (v : Grid) : (s.setGrid c g v).issuing = s.issuing := rfl
@[simp] theorem State.setGrid_nextId (c g : Nat) (v : Grid) : (s.setGrid c g v).nextId = s.nextId := rfl
@[simp] theorem State.setGrid_pod (c g : Nat) (v : Grid) : (s.setGrid c g v).pod = s.pod := rfl
@[simp] theorem State.setGrid_mem (c g : Nat) (v : Grid) : (s.setGrid c g v).mem = s.mem := rfl
@[simp] theorem State.setGrid_failed (c g : Nat) (v : Grid) : (s.setGrid c g v).failed = s.failed := rfl
@[simp] theorem State.setGrid_chips (c g : Nat) (v : Grid) : (s.setGrid c g v).chips = s.chips := rfl
@[simp] theorem State.setGrid_dies (c g : Nat) (v : Grid) : (s.setGrid c g v).dies = s.dies := rfl
@[simp] theorem State.setGrid_cores (c g : Nat) (v : Grid) : (s.setGrid c g v).cores = s.cores := rfl
@[simp] theorem State.setGrid_quads (c g : Nat) (v : Grid) : (s.setGrid c g v).quads = s.quads := rfl
@[simp] theorem State.setGrid_grids (c g : Nat) (v : Grid) : (s.setGrid c g v).grids = s.grids.put (c, g) v := rfl
@[simp] theorem State.setGrid_cohorts (c g : Nat) (v : Grid) : (s.setGrid c g v).cohorts = s.cohorts := rfl
@[simp] theorem State.setGrid_threads (c g : Nat) (v : Grid) : (s.setGrid c g v).threads = s.threads := rfl
@[simp] theorem State.setGrid_objects (c g : Nat) (v : Grid) : (s.setGrid c g v).objects = s.objects := rfl
@[simp] theorem State.setGrid_ops (c g : Nat) (v : Grid) : (s.setGrid c g v).ops = s.ops := rfl
@[simp] theorem State.setGrid_msgs (c g : Nat) (v : Grid) : (s.setGrid c g v).msgs = s.msgs := rfl
@[simp] theorem State.setGrid_moves (c g : Nat) (v : Grid) : (s.setGrid c g v).moves = s.moves := rfl
@[simp] theorem State.setGrid_pins (c g : Nat) (v : Grid) : (s.setGrid c g v).pins = s.pins := rfl
@[simp] theorem State.setGrid_symbols (c g : Nat) (v : Grid) : (s.setGrid c g v).symbols = s.symbols := rfl
@[simp] theorem State.setGrid_syncs (c g : Nat) (v : Grid) : (s.setGrid c g v).syncs = s.syncs := rfl
@[simp] theorem State.setGrid_lags (c g : Nat) (v : Grid) : (s.setGrid c g v).lags = s.lags := rfl
@[simp] theorem State.setGrid_scFences (c g : Nat) (v : Grid) : (s.setGrid c g v).scFences = s.scFences := rfl
@[simp] theorem State.setGrid_redSlots (c g : Nat) (v : Grid) : (s.setGrid c g v).redSlots = s.redSlots := rfl
@[simp] theorem State.setGrid_saves (c g : Nat) (v : Grid) : (s.setGrid c g v).saves = s.saves := rfl

@[simp] theorem State.setCohort_now (c : CohortId) (v : Cohort) : (s.setCohort c v).now = s.now := rfl
@[simp] theorem State.setCohort_turns (c : CohortId) (v : Cohort) : (s.setCohort c v).turns = s.turns := rfl
@[simp] theorem State.setCohort_draws (c : CohortId) (v : Cohort) : (s.setCohort c v).draws = s.draws := rfl
@[simp] theorem State.setCohort_issuing (c : CohortId) (v : Cohort) : (s.setCohort c v).issuing = s.issuing := rfl
@[simp] theorem State.setCohort_nextId (c : CohortId) (v : Cohort) : (s.setCohort c v).nextId = s.nextId := rfl
@[simp] theorem State.setCohort_pod (c : CohortId) (v : Cohort) : (s.setCohort c v).pod = s.pod := rfl
@[simp] theorem State.setCohort_mem (c : CohortId) (v : Cohort) : (s.setCohort c v).mem = s.mem := rfl
@[simp] theorem State.setCohort_failed (c : CohortId) (v : Cohort) : (s.setCohort c v).failed = s.failed := rfl
@[simp] theorem State.setCohort_chips (c : CohortId) (v : Cohort) : (s.setCohort c v).chips = s.chips := rfl
@[simp] theorem State.setCohort_dies (c : CohortId) (v : Cohort) : (s.setCohort c v).dies = s.dies := rfl
@[simp] theorem State.setCohort_cores (c : CohortId) (v : Cohort) : (s.setCohort c v).cores = s.cores := rfl
@[simp] theorem State.setCohort_quads (c : CohortId) (v : Cohort) : (s.setCohort c v).quads = s.quads := rfl
@[simp] theorem State.setCohort_grids (c : CohortId) (v : Cohort) : (s.setCohort c v).grids = s.grids := rfl
@[simp] theorem State.setCohort_cohorts (c : CohortId) (v : Cohort) : (s.setCohort c v).cohorts = s.cohorts.put c v := rfl
@[simp] theorem State.setCohort_threads (c : CohortId) (v : Cohort) : (s.setCohort c v).threads = s.threads := rfl
@[simp] theorem State.setCohort_objects (c : CohortId) (v : Cohort) : (s.setCohort c v).objects = s.objects := rfl
@[simp] theorem State.setCohort_ops (c : CohortId) (v : Cohort) : (s.setCohort c v).ops = s.ops := rfl
@[simp] theorem State.setCohort_msgs (c : CohortId) (v : Cohort) : (s.setCohort c v).msgs = s.msgs := rfl
@[simp] theorem State.setCohort_moves (c : CohortId) (v : Cohort) : (s.setCohort c v).moves = s.moves := rfl
@[simp] theorem State.setCohort_pins (c : CohortId) (v : Cohort) : (s.setCohort c v).pins = s.pins := rfl
@[simp] theorem State.setCohort_symbols (c : CohortId) (v : Cohort) : (s.setCohort c v).symbols = s.symbols := rfl
@[simp] theorem State.setCohort_syncs (c : CohortId) (v : Cohort) : (s.setCohort c v).syncs = s.syncs := rfl
@[simp] theorem State.setCohort_lags (c : CohortId) (v : Cohort) : (s.setCohort c v).lags = s.lags := rfl
@[simp] theorem State.setCohort_scFences (c : CohortId) (v : Cohort) : (s.setCohort c v).scFences = s.scFences := rfl
@[simp] theorem State.setCohort_redSlots (c : CohortId) (v : Cohort) : (s.setCohort c v).redSlots = s.redSlots := rfl
@[simp] theorem State.setCohort_saves (c : CohortId) (v : Cohort) : (s.setCohort c v).saves = s.saves := rfl

@[simp] theorem State.setThread_now (t : ThreadId) (v : Thread) : (s.setThread t v).now = s.now := rfl
@[simp] theorem State.setThread_turns (t : ThreadId) (v : Thread) : (s.setThread t v).turns = s.turns := rfl
@[simp] theorem State.setThread_draws (t : ThreadId) (v : Thread) : (s.setThread t v).draws = s.draws := rfl
@[simp] theorem State.setThread_issuing (t : ThreadId) (v : Thread) : (s.setThread t v).issuing = s.issuing := rfl
@[simp] theorem State.setThread_nextId (t : ThreadId) (v : Thread) : (s.setThread t v).nextId = s.nextId := rfl
@[simp] theorem State.setThread_pod (t : ThreadId) (v : Thread) : (s.setThread t v).pod = s.pod := rfl
@[simp] theorem State.setThread_mem (t : ThreadId) (v : Thread) : (s.setThread t v).mem = s.mem := rfl
@[simp] theorem State.setThread_failed (t : ThreadId) (v : Thread) : (s.setThread t v).failed = s.failed := rfl
@[simp] theorem State.setThread_chips (t : ThreadId) (v : Thread) : (s.setThread t v).chips = s.chips := rfl
@[simp] theorem State.setThread_dies (t : ThreadId) (v : Thread) : (s.setThread t v).dies = s.dies := rfl
@[simp] theorem State.setThread_cores (t : ThreadId) (v : Thread) : (s.setThread t v).cores = s.cores := rfl
@[simp] theorem State.setThread_quads (t : ThreadId) (v : Thread) : (s.setThread t v).quads = s.quads := rfl
@[simp] theorem State.setThread_grids (t : ThreadId) (v : Thread) : (s.setThread t v).grids = s.grids := rfl
@[simp] theorem State.setThread_cohorts (t : ThreadId) (v : Thread) : (s.setThread t v).cohorts = s.cohorts := rfl
@[simp] theorem State.setThread_threads (t : ThreadId) (v : Thread) : (s.setThread t v).threads = s.threads.put t v := rfl
@[simp] theorem State.setThread_objects (t : ThreadId) (v : Thread) : (s.setThread t v).objects = s.objects := rfl
@[simp] theorem State.setThread_ops (t : ThreadId) (v : Thread) : (s.setThread t v).ops = s.ops := rfl
@[simp] theorem State.setThread_msgs (t : ThreadId) (v : Thread) : (s.setThread t v).msgs = s.msgs := rfl
@[simp] theorem State.setThread_moves (t : ThreadId) (v : Thread) : (s.setThread t v).moves = s.moves := rfl
@[simp] theorem State.setThread_pins (t : ThreadId) (v : Thread) : (s.setThread t v).pins = s.pins := rfl
@[simp] theorem State.setThread_symbols (t : ThreadId) (v : Thread) : (s.setThread t v).symbols = s.symbols := rfl
@[simp] theorem State.setThread_syncs (t : ThreadId) (v : Thread) : (s.setThread t v).syncs = s.syncs := rfl
@[simp] theorem State.setThread_lags (t : ThreadId) (v : Thread) : (s.setThread t v).lags = s.lags := rfl
@[simp] theorem State.setThread_scFences (t : ThreadId) (v : Thread) : (s.setThread t v).scFences = s.scFences := rfl
@[simp] theorem State.setThread_redSlots (t : ThreadId) (v : Thread) : (s.setThread t v).redSlots = s.redSlots := rfl
@[simp] theorem State.setThread_saves (t : ThreadId) (v : Thread) : (s.setThread t v).saves = s.saves := rfl

@[simp] theorem State.setObj_now (k : Nat × Nat) (v : Obj) : (s.setObj k v).now = s.now := rfl
@[simp] theorem State.setObj_turns (k : Nat × Nat) (v : Obj) : (s.setObj k v).turns = s.turns := rfl
@[simp] theorem State.setObj_draws (k : Nat × Nat) (v : Obj) : (s.setObj k v).draws = s.draws := rfl
@[simp] theorem State.setObj_issuing (k : Nat × Nat) (v : Obj) : (s.setObj k v).issuing = s.issuing := rfl
@[simp] theorem State.setObj_nextId (k : Nat × Nat) (v : Obj) : (s.setObj k v).nextId = s.nextId := rfl
@[simp] theorem State.setObj_pod (k : Nat × Nat) (v : Obj) : (s.setObj k v).pod = s.pod := rfl
@[simp] theorem State.setObj_mem (k : Nat × Nat) (v : Obj) : (s.setObj k v).mem = s.mem := rfl
@[simp] theorem State.setObj_failed (k : Nat × Nat) (v : Obj) : (s.setObj k v).failed = s.failed := rfl
@[simp] theorem State.setObj_chips (k : Nat × Nat) (v : Obj) : (s.setObj k v).chips = s.chips := rfl
@[simp] theorem State.setObj_dies (k : Nat × Nat) (v : Obj) : (s.setObj k v).dies = s.dies := rfl
@[simp] theorem State.setObj_cores (k : Nat × Nat) (v : Obj) : (s.setObj k v).cores = s.cores := rfl
@[simp] theorem State.setObj_quads (k : Nat × Nat) (v : Obj) : (s.setObj k v).quads = s.quads := rfl
@[simp] theorem State.setObj_grids (k : Nat × Nat) (v : Obj) : (s.setObj k v).grids = s.grids := rfl
@[simp] theorem State.setObj_cohorts (k : Nat × Nat) (v : Obj) : (s.setObj k v).cohorts = s.cohorts := rfl
@[simp] theorem State.setObj_threads (k : Nat × Nat) (v : Obj) : (s.setObj k v).threads = s.threads := rfl
@[simp] theorem State.setObj_objects (k : Nat × Nat) (v : Obj) : (s.setObj k v).objects = s.objects.put k v := rfl
@[simp] theorem State.setObj_ops (k : Nat × Nat) (v : Obj) : (s.setObj k v).ops = s.ops := rfl
@[simp] theorem State.setObj_msgs (k : Nat × Nat) (v : Obj) : (s.setObj k v).msgs = s.msgs := rfl
@[simp] theorem State.setObj_moves (k : Nat × Nat) (v : Obj) : (s.setObj k v).moves = s.moves := rfl
@[simp] theorem State.setObj_pins (k : Nat × Nat) (v : Obj) : (s.setObj k v).pins = s.pins := rfl
@[simp] theorem State.setObj_symbols (k : Nat × Nat) (v : Obj) : (s.setObj k v).symbols = s.symbols := rfl
@[simp] theorem State.setObj_syncs (k : Nat × Nat) (v : Obj) : (s.setObj k v).syncs = s.syncs := rfl
@[simp] theorem State.setObj_lags (k : Nat × Nat) (v : Obj) : (s.setObj k v).lags = s.lags := rfl
@[simp] theorem State.setObj_scFences (k : Nat × Nat) (v : Obj) : (s.setObj k v).scFences = s.scFences := rfl
@[simp] theorem State.setObj_redSlots (k : Nat × Nat) (v : Obj) : (s.setObj k v).redSlots = s.redSlots := rfl
@[simp] theorem State.setObj_saves (k : Nat × Nat) (v : Obj) : (s.setObj k v).saves = s.saves := rfl

@[simp] theorem State.setOp_now (i : Nat) (o : Op) : (s.setOp i o).now = s.now := rfl
@[simp] theorem State.setOp_turns (i : Nat) (o : Op) : (s.setOp i o).turns = s.turns := rfl
@[simp] theorem State.setOp_draws (i : Nat) (o : Op) : (s.setOp i o).draws = s.draws := rfl
@[simp] theorem State.setOp_issuing (i : Nat) (o : Op) : (s.setOp i o).issuing = s.issuing := rfl
@[simp] theorem State.setOp_nextId (i : Nat) (o : Op) : (s.setOp i o).nextId = s.nextId := rfl
@[simp] theorem State.setOp_pod (i : Nat) (o : Op) : (s.setOp i o).pod = s.pod := rfl
@[simp] theorem State.setOp_mem (i : Nat) (o : Op) : (s.setOp i o).mem = s.mem := rfl
@[simp] theorem State.setOp_failed (i : Nat) (o : Op) : (s.setOp i o).failed = s.failed := rfl
@[simp] theorem State.setOp_chips (i : Nat) (o : Op) : (s.setOp i o).chips = s.chips := rfl
@[simp] theorem State.setOp_dies (i : Nat) (o : Op) : (s.setOp i o).dies = s.dies := rfl
@[simp] theorem State.setOp_cores (i : Nat) (o : Op) : (s.setOp i o).cores = s.cores := rfl
@[simp] theorem State.setOp_quads (i : Nat) (o : Op) : (s.setOp i o).quads = s.quads := rfl
@[simp] theorem State.setOp_grids (i : Nat) (o : Op) : (s.setOp i o).grids = s.grids := rfl
@[simp] theorem State.setOp_cohorts (i : Nat) (o : Op) : (s.setOp i o).cohorts = s.cohorts := rfl
@[simp] theorem State.setOp_threads (i : Nat) (o : Op) : (s.setOp i o).threads = s.threads := rfl
@[simp] theorem State.setOp_objects (i : Nat) (o : Op) : (s.setOp i o).objects = s.objects := rfl
@[simp] theorem State.setOp_ops (i : Nat) (o : Op) : (s.setOp i o).ops = s.ops.put i o := rfl
@[simp] theorem State.setOp_msgs (i : Nat) (o : Op) : (s.setOp i o).msgs = s.msgs := rfl
@[simp] theorem State.setOp_moves (i : Nat) (o : Op) : (s.setOp i o).moves = s.moves := rfl
@[simp] theorem State.setOp_pins (i : Nat) (o : Op) : (s.setOp i o).pins = s.pins := rfl
@[simp] theorem State.setOp_symbols (i : Nat) (o : Op) : (s.setOp i o).symbols = s.symbols := rfl
@[simp] theorem State.setOp_syncs (i : Nat) (o : Op) : (s.setOp i o).syncs = s.syncs := rfl
@[simp] theorem State.setOp_lags (i : Nat) (o : Op) : (s.setOp i o).lags = s.lags := rfl
@[simp] theorem State.setOp_scFences (i : Nat) (o : Op) : (s.setOp i o).scFences = s.scFences := rfl
@[simp] theorem State.setOp_redSlots (i : Nat) (o : Op) : (s.setOp i o).redSlots = s.redSlots := rfl
@[simp] theorem State.setOp_saves (i : Nat) (o : Op) : (s.setOp i o).saves = s.saves := rfl

@[simp] theorem State.modThread_eq (t : ThreadId) (f : Thread → Thread) : s.modThread t f = s.setThread t (f (s.thread t)) := rfl
@[simp] theorem State.modCohort_eq (c : CohortId) (f : Cohort → Cohort) : s.modCohort c f = s.setCohort c (f (s.cohort c)) := rfl
@[simp] theorem State.modQuad_eq (q : QuadId) (f : Quad → Quad) : s.modQuad q f = s.setQuad q (f (s.quad q)) := rfl
@[simp] theorem State.modCore_eq (c : CoreId) (f : Core → Core) : s.modCore c f = s.setCore c (f (s.core c)) := rfl
@[simp] theorem State.modDie_eq (d : DieId) (f : Die → Die) : s.modDie d f = s.setDie d (f (s.die d)) := rfl
@[simp] theorem State.modChip_eq (c : Nat) (f : Chip → Chip) : s.modChip c f = s.setChip c (f (s.chip c)) := rfl
@[simp] theorem State.modGrid_eq (c g : Nat) (f : Grid → Grid) : s.modGrid c g f = s.setGrid c g (f (s.grid c g)) := rfl
@[simp] theorem State.modVf_eq (c v : Nat) (f : Vf → Vf) : s.modVf c v f = s.setVf c v (f (s.vf c v)) := rfl

@[simp] theorem State.setChip_thread (c : Nat) (v : Chip) (u : ThreadId) : (s.setChip c v).thread u = s.thread u := rfl
@[simp] theorem State.setChip_cohort (c : Nat) (v : Chip) (x : CohortId) : (s.setChip c v).cohort x = s.cohort x := rfl
@[simp] theorem State.setChip_quad (c : Nat) (v : Chip) (x : QuadId) : (s.setChip c v).quad x = s.quad x := rfl
@[simp] theorem State.setChip_core (c : Nat) (v : Chip) (x : CoreId) : (s.setChip c v).core x = s.core x := rfl
@[simp] theorem State.setChip_die (c : Nat) (v : Chip) (x : DieId) : (s.setChip c v).die x = s.die x := rfl
@[simp] theorem State.setChip_op? (c : Nat) (v : Chip) (x : Nat) : (s.setChip c v).op? x = s.op? x := rfl
@[simp] theorem State.setChip_grid (c : Nat) (v : Chip) (x y : Nat) : (s.setChip c v).grid x y = s.grid x y := rfl
@[simp] theorem State.setChip_msg? (c : Nat) (v : Chip) (x : Nat) : (s.setChip c v).msg? x = s.msg? x := rfl

@[simp] theorem State.setDie_thread (d : DieId) (v : Die) (u : ThreadId) : (s.setDie d v).thread u = s.thread u := rfl
@[simp] theorem State.setDie_cohort (d : DieId) (v : Die) (x : CohortId) : (s.setDie d v).cohort x = s.cohort x := rfl
@[simp] theorem State.setDie_quad (d : DieId) (v : Die) (x : QuadId) : (s.setDie d v).quad x = s.quad x := rfl
@[simp] theorem State.setDie_core (d : DieId) (v : Die) (x : CoreId) : (s.setDie d v).core x = s.core x := rfl
@[simp] theorem State.setDie_chip (d : DieId) (v : Die) (x : Nat) : (s.setDie d v).chip x = s.chip x := rfl
@[simp] theorem State.setDie_op? (d : DieId) (v : Die) (x : Nat) : (s.setDie d v).op? x = s.op? x := rfl
@[simp] theorem State.setDie_grid (d : DieId) (v : Die) (x y : Nat) : (s.setDie d v).grid x y = s.grid x y := rfl
@[simp] theorem State.setDie_msg? (d : DieId) (v : Die) (x : Nat) : (s.setDie d v).msg? x = s.msg? x := rfl
@[simp] theorem State.setDie_vf (d : DieId) (v : Die) (x y : Nat) : (s.setDie d v).vf x y = s.vf x y := rfl
@[simp] theorem State.setDie_part (d : DieId) (v : Die) (x y : Nat) : (s.setDie d v).part x y = s.part x y := rfl
@[simp] theorem State.setDie_grant (d : DieId) (v : Die) (x y : Nat) : (s.setDie d v).grant x y = s.grant x y := rfl

@[simp] theorem State.setCore_thread (c : CoreId) (v : Core) (u : ThreadId) : (s.setCore c v).thread u = s.thread u := rfl
@[simp] theorem State.setCore_cohort (c : CoreId) (v : Core) (x : CohortId) : (s.setCore c v).cohort x = s.cohort x := rfl
@[simp] theorem State.setCore_quad (c : CoreId) (v : Core) (x : QuadId) : (s.setCore c v).quad x = s.quad x := rfl
@[simp] theorem State.setCore_die (c : CoreId) (v : Core) (x : DieId) : (s.setCore c v).die x = s.die x := rfl
@[simp] theorem State.setCore_chip (c : CoreId) (v : Core) (x : Nat) : (s.setCore c v).chip x = s.chip x := rfl
@[simp] theorem State.setCore_op? (c : CoreId) (v : Core) (x : Nat) : (s.setCore c v).op? x = s.op? x := rfl
@[simp] theorem State.setCore_grid (c : CoreId) (v : Core) (x y : Nat) : (s.setCore c v).grid x y = s.grid x y := rfl
@[simp] theorem State.setCore_msg? (c : CoreId) (v : Core) (x : Nat) : (s.setCore c v).msg? x = s.msg? x := rfl
@[simp] theorem State.setCore_vf (c : CoreId) (v : Core) (x y : Nat) : (s.setCore c v).vf x y = s.vf x y := rfl
@[simp] theorem State.setCore_part (c : CoreId) (v : Core) (x y : Nat) : (s.setCore c v).part x y = s.part x y := rfl
@[simp] theorem State.setCore_grant (c : CoreId) (v : Core) (x y : Nat) : (s.setCore c v).grant x y = s.grant x y := rfl

@[simp] theorem State.setQuad_thread (q : QuadId) (v : Quad) (u : ThreadId) : (s.setQuad q v).thread u = s.thread u := rfl
@[simp] theorem State.setQuad_cohort (q : QuadId) (v : Quad) (x : CohortId) : (s.setQuad q v).cohort x = s.cohort x := rfl
@[simp] theorem State.setQuad_core (q : QuadId) (v : Quad) (x : CoreId) : (s.setQuad q v).core x = s.core x := rfl
@[simp] theorem State.setQuad_die (q : QuadId) (v : Quad) (x : DieId) : (s.setQuad q v).die x = s.die x := rfl
@[simp] theorem State.setQuad_chip (q : QuadId) (v : Quad) (x : Nat) : (s.setQuad q v).chip x = s.chip x := rfl
@[simp] theorem State.setQuad_op? (q : QuadId) (v : Quad) (x : Nat) : (s.setQuad q v).op? x = s.op? x := rfl
@[simp] theorem State.setQuad_grid (q : QuadId) (v : Quad) (x y : Nat) : (s.setQuad q v).grid x y = s.grid x y := rfl
@[simp] theorem State.setQuad_msg? (q : QuadId) (v : Quad) (x : Nat) : (s.setQuad q v).msg? x = s.msg? x := rfl
@[simp] theorem State.setQuad_vf (q : QuadId) (v : Quad) (x y : Nat) : (s.setQuad q v).vf x y = s.vf x y := rfl
@[simp] theorem State.setQuad_part (q : QuadId) (v : Quad) (x y : Nat) : (s.setQuad q v).part x y = s.part x y := rfl
@[simp] theorem State.setQuad_grant (q : QuadId) (v : Quad) (x y : Nat) : (s.setQuad q v).grant x y = s.grant x y := rfl

@[simp] theorem State.setGrid_thread (c g : Nat) (v : Grid) (u : ThreadId) : (s.setGrid c g v).thread u = s.thread u := rfl
@[simp] theorem State.setGrid_cohort (c g : Nat) (v : Grid) (x : CohortId) : (s.setGrid c g v).cohort x = s.cohort x := rfl
@[simp] theorem State.setGrid_quad (c g : Nat) (v : Grid) (x : QuadId) : (s.setGrid c g v).quad x = s.quad x := rfl
@[simp] theorem State.setGrid_core (c g : Nat) (v : Grid) (x : CoreId) : (s.setGrid c g v).core x = s.core x := rfl
@[simp] theorem State.setGrid_die (c g : Nat) (v : Grid) (x : DieId) : (s.setGrid c g v).die x = s.die x := rfl
@[simp] theorem State.setGrid_chip (c g : Nat) (v : Grid) (x : Nat) : (s.setGrid c g v).chip x = s.chip x := rfl
@[simp] theorem State.setGrid_op? (c g : Nat) (v : Grid) (x : Nat) : (s.setGrid c g v).op? x = s.op? x := rfl
@[simp] theorem State.setGrid_msg? (c g : Nat) (v : Grid) (x : Nat) : (s.setGrid c g v).msg? x = s.msg? x := rfl
@[simp] theorem State.setGrid_vf (c g : Nat) (v : Grid) (x y : Nat) : (s.setGrid c g v).vf x y = s.vf x y := rfl
@[simp] theorem State.setGrid_part (c g : Nat) (v : Grid) (x y : Nat) : (s.setGrid c g v).part x y = s.part x y := rfl
@[simp] theorem State.setGrid_grant (c g : Nat) (v : Grid) (x y : Nat) : (s.setGrid c g v).grant x y = s.grant x y := rfl

@[simp] theorem State.setCohort_thread (c : CohortId) (v : Cohort) (u : ThreadId) : (s.setCohort c v).thread u = s.thread u := rfl
@[simp] theorem State.setCohort_quad (c : CohortId) (v : Cohort) (x : QuadId) : (s.setCohort c v).quad x = s.quad x := rfl
@[simp] theorem State.setCohort_core (c : CohortId) (v : Cohort) (x : CoreId) : (s.setCohort c v).core x = s.core x := rfl
@[simp] theorem State.setCohort_die (c : CohortId) (v : Cohort) (x : DieId) : (s.setCohort c v).die x = s.die x := rfl
@[simp] theorem State.setCohort_chip (c : CohortId) (v : Cohort) (x : Nat) : (s.setCohort c v).chip x = s.chip x := rfl
@[simp] theorem State.setCohort_op? (c : CohortId) (v : Cohort) (x : Nat) : (s.setCohort c v).op? x = s.op? x := rfl
@[simp] theorem State.setCohort_grid (c : CohortId) (v : Cohort) (x y : Nat) : (s.setCohort c v).grid x y = s.grid x y := rfl
@[simp] theorem State.setCohort_msg? (c : CohortId) (v : Cohort) (x : Nat) : (s.setCohort c v).msg? x = s.msg? x := rfl
@[simp] theorem State.setCohort_vf (c : CohortId) (v : Cohort) (x y : Nat) : (s.setCohort c v).vf x y = s.vf x y := rfl
@[simp] theorem State.setCohort_part (c : CohortId) (v : Cohort) (x y : Nat) : (s.setCohort c v).part x y = s.part x y := rfl
@[simp] theorem State.setCohort_grant (c : CohortId) (v : Cohort) (x y : Nat) : (s.setCohort c v).grant x y = s.grant x y := rfl

@[simp] theorem State.setThread_cohort (t : ThreadId) (v : Thread) (x : CohortId) : (s.setThread t v).cohort x = s.cohort x := rfl
@[simp] theorem State.setThread_quad (t : ThreadId) (v : Thread) (x : QuadId) : (s.setThread t v).quad x = s.quad x := rfl
@[simp] theorem State.setThread_core (t : ThreadId) (v : Thread) (x : CoreId) : (s.setThread t v).core x = s.core x := rfl
@[simp] theorem State.setThread_die (t : ThreadId) (v : Thread) (x : DieId) : (s.setThread t v).die x = s.die x := rfl
@[simp] theorem State.setThread_chip (t : ThreadId) (v : Thread) (x : Nat) : (s.setThread t v).chip x = s.chip x := rfl
@[simp] theorem State.setThread_op? (t : ThreadId) (v : Thread) (x : Nat) : (s.setThread t v).op? x = s.op? x := rfl
@[simp] theorem State.setThread_grid (t : ThreadId) (v : Thread) (x y : Nat) : (s.setThread t v).grid x y = s.grid x y := rfl
@[simp] theorem State.setThread_msg? (t : ThreadId) (v : Thread) (x : Nat) : (s.setThread t v).msg? x = s.msg? x := rfl
@[simp] theorem State.setThread_vf (t : ThreadId) (v : Thread) (x y : Nat) : (s.setThread t v).vf x y = s.vf x y := rfl
@[simp] theorem State.setThread_part (t : ThreadId) (v : Thread) (x y : Nat) : (s.setThread t v).part x y = s.part x y := rfl
@[simp] theorem State.setThread_grant (t : ThreadId) (v : Thread) (x y : Nat) : (s.setThread t v).grant x y = s.grant x y := rfl

@[simp] theorem State.setObj_thread (k : Nat × Nat) (v : Obj) (u : ThreadId) : (s.setObj k v).thread u = s.thread u := rfl
@[simp] theorem State.setObj_cohort (k : Nat × Nat) (v : Obj) (x : CohortId) : (s.setObj k v).cohort x = s.cohort x := rfl
@[simp] theorem State.setObj_quad (k : Nat × Nat) (v : Obj) (x : QuadId) : (s.setObj k v).quad x = s.quad x := rfl
@[simp] theorem State.setObj_core (k : Nat × Nat) (v : Obj) (x : CoreId) : (s.setObj k v).core x = s.core x := rfl
@[simp] theorem State.setObj_die (k : Nat × Nat) (v : Obj) (x : DieId) : (s.setObj k v).die x = s.die x := rfl
@[simp] theorem State.setObj_chip (k : Nat × Nat) (v : Obj) (x : Nat) : (s.setObj k v).chip x = s.chip x := rfl
@[simp] theorem State.setObj_op? (k : Nat × Nat) (v : Obj) (x : Nat) : (s.setObj k v).op? x = s.op? x := rfl
@[simp] theorem State.setObj_grid (k : Nat × Nat) (v : Obj) (x y : Nat) : (s.setObj k v).grid x y = s.grid x y := rfl
@[simp] theorem State.setObj_msg? (k : Nat × Nat) (v : Obj) (x : Nat) : (s.setObj k v).msg? x = s.msg? x := rfl
@[simp] theorem State.setObj_vf (k : Nat × Nat) (v : Obj) (x y : Nat) : (s.setObj k v).vf x y = s.vf x y := rfl
@[simp] theorem State.setObj_part (k : Nat × Nat) (v : Obj) (x y : Nat) : (s.setObj k v).part x y = s.part x y := rfl
@[simp] theorem State.setObj_grant (k : Nat × Nat) (v : Obj) (x y : Nat) : (s.setObj k v).grant x y = s.grant x y := rfl

@[simp] theorem State.setOp_thread (i : Nat) (o : Op) (u : ThreadId) : (s.setOp i o).thread u = s.thread u := rfl
@[simp] theorem State.setOp_cohort (i : Nat) (o : Op) (x : CohortId) : (s.setOp i o).cohort x = s.cohort x := rfl
@[simp] theorem State.setOp_quad (i : Nat) (o : Op) (x : QuadId) : (s.setOp i o).quad x = s.quad x := rfl
@[simp] theorem State.setOp_core (i : Nat) (o : Op) (x : CoreId) : (s.setOp i o).core x = s.core x := rfl
@[simp] theorem State.setOp_die (i : Nat) (o : Op) (x : DieId) : (s.setOp i o).die x = s.die x := rfl
@[simp] theorem State.setOp_chip (i : Nat) (o : Op) (x : Nat) : (s.setOp i o).chip x = s.chip x := rfl
@[simp] theorem State.setOp_grid (i : Nat) (o : Op) (x y : Nat) : (s.setOp i o).grid x y = s.grid x y := rfl
@[simp] theorem State.setOp_msg? (i : Nat) (o : Op) (x : Nat) : (s.setOp i o).msg? x = s.msg? x := rfl
@[simp] theorem State.setOp_vf (i : Nat) (o : Op) (x y : Nat) : (s.setOp i o).vf x y = s.vf x y := rfl
@[simp] theorem State.setOp_part (i : Nat) (o : Op) (x y : Nat) : (s.setOp i o).part x y = s.part x y := rfl
@[simp] theorem State.setOp_grant (i : Nat) (o : Op) (x y : Nat) : (s.setOp i o).grant x y = s.grant x y := rfl

/-! ## A table after an update -/

section Tables
variable {κ ν : Type} [DecidableEq κ]

theorem Tab.get?_put_self (m : Tab κ ν) (k : κ) (v : ν) : Tab.get? (Tab.put m k v) k = some v := by
  induction m with
  | nil => simp [Tab.put, Tab.get?]
  | cons e m ih =>
    obtain ⟨a, x⟩ := e
    by_cases h : a = k <;> simp [Tab.put, Tab.get?, h, ih]

theorem Tab.get?_put_ne (m : Tab κ ν) (k j : κ) (v : ν) (h : j ≠ k) : Tab.get? (Tab.put m k v) j = Tab.get? m j := by
  induction m with
  | nil => simp [Tab.put, Tab.get?, Ne.symm h]
  | cons e m ih =>
    obtain ⟨a, x⟩ := e
    by_cases hk : a = k
    · subst hk; simp [Tab.put, Tab.get?, Ne.symm h]
    · by_cases hj : a = j
      · subst hj; simp [Tab.put, Tab.get?, hk]
      · simp [Tab.put, Tab.get?, hk, hj, ih]

theorem Tab.getD_put_self (m : Tab κ ν) (k : κ) (v d : ν) : Tab.getD (Tab.put m k v) k d = v := by
  simp [Tab.getD, Tab.get?_put_self]

theorem Tab.getD_put_ne (m : Tab κ ν) (k j : κ) (v d : ν) (h : j ≠ k) : Tab.getD (Tab.put m k v) j d = Tab.getD m j d := by
  simp [Tab.getD, Tab.get?_put_ne m k j v h]

theorem Tab.get?_del_self (m : Tab κ ν) (k : κ) : Tab.get? (Tab.del m k) k = none := by
  induction m with
  | nil => rfl
  | cons e m ih =>
    obtain ⟨a, x⟩ := e
    by_cases h : a = k <;> simp [Tab.del, Tab.get?, h, ih]

theorem Tab.get?_del_ne (m : Tab κ ν) (k j : κ) (h : j ≠ k) : Tab.get? (Tab.del m k) j = Tab.get? m j := by
  induction m with
  | nil => rfl
  | cons e m ih =>
    obtain ⟨a, x⟩ := e
    by_cases hk : a = k
    · subst hk; simp [Tab.del, Tab.get?, Ne.symm h, ih]
    · by_cases hj : a = j
      · subst hj; simp [Tab.del, Tab.get?, hk]
      · simp [Tab.del, Tab.get?, hk, hj, ih]

end Tables

/-! ## A record after an update of it -/

@[simp] theorem State.thread_setThread (t : ThreadId) (v : Thread) : (s.setThread t v).thread t = v := Tab.getD_put_self ..
theorem State.thread_setThread_ne (t : ThreadId) (v : Thread) (x : ThreadId) (h : x ≠ t) : (s.setThread t v).thread x = s.thread x := Tab.getD_put_ne _ _ _ _ _ h
@[simp] theorem State.cohort_setCohort (c : CohortId) (v : Cohort) : (s.setCohort c v).cohort c = v := Tab.getD_put_self ..
theorem State.cohort_setCohort_ne (c : CohortId) (v : Cohort) (x : CohortId) (h : x ≠ c) : (s.setCohort c v).cohort x = s.cohort x := Tab.getD_put_ne _ _ _ _ _ h
@[simp] theorem State.quad_setQuad (q : QuadId) (v : Quad) : (s.setQuad q v).quad q = v := Tab.getD_put_self ..
theorem State.quad_setQuad_ne (q : QuadId) (v : Quad) (x : QuadId) (h : x ≠ q) : (s.setQuad q v).quad x = s.quad x := Tab.getD_put_ne _ _ _ _ _ h
@[simp] theorem State.core_setCore (c : CoreId) (v : Core) : (s.setCore c v).core c = v := Tab.getD_put_self ..
theorem State.core_setCore_ne (c : CoreId) (v : Core) (x : CoreId) (h : x ≠ c) : (s.setCore c v).core x = s.core x := Tab.getD_put_ne _ _ _ _ _ h
@[simp] theorem State.die_setDie (d : DieId) (v : Die) : (s.setDie d v).die d = v := Tab.getD_put_self ..
theorem State.die_setDie_ne (d : DieId) (v : Die) (x : DieId) (h : x ≠ d) : (s.setDie d v).die x = s.die x := Tab.getD_put_ne _ _ _ _ _ h
@[simp] theorem State.chip_setChip (c : Nat) (v : Chip) : (s.setChip c v).chip c = v := Tab.getD_put_self ..
theorem State.chip_setChip_ne (c : Nat) (v : Chip) (x : Nat) (h : x ≠ c) : (s.setChip c v).chip x = s.chip x := Tab.getD_put_ne _ _ _ _ _ h
@[simp] theorem State.grid_setGrid (c g : Nat) (v : Grid) : (s.setGrid c g v).grid c g = v := Tab.getD_put_self ..
theorem State.grid_setGrid_ne (c g x y : Nat) (v : Grid) (h : (x, y) ≠ (c, g)) : (s.setGrid c g v).grid x y = s.grid x y := Tab.getD_put_ne _ _ _ _ _ h
@[simp] theorem State.op?_setOp (i : Nat) (o : Op) : (s.setOp i o).op? i = some o := Tab.get?_put_self ..
theorem State.op?_setOp_ne (i j : Nat) (o : Op) (h : j ≠ i) : (s.setOp i o).op? j = s.op? j := Tab.get?_put_ne _ _ _ _ h
@[simp] theorem State.vf_setVf (c v : Nat) (x : Vf) : (s.setVf c v x).vf c v = x := by simp [State.setVf, State.vf, Tab.getD_put_self]
@[simp] theorem State.part_setPart (c p : Nat) (x : Part) : (s.setPart c p x).part c p = x := by simp [State.setPart, State.part, Tab.getD_put_self]
@[simp] theorem State.grant_setGrant (c w : Nat) (x : Grant) : (s.setGrant c w x).grant c w = x := by simp [State.setGrant, State.grant, Tab.getD_put_self]

/-! ## A thread's registers (R34 to R37) -/

/-- gz reads zero (R35). -/
@[simp] theorem Thread.reg_gz (x : Thread) : x.reg 255 = 0 := rfl
@[simp] theorem Thread.pair_gz (x : Thread) : x.pair 255 = 0 := rfl
/-- A write of gz is discarded (R35). -/
@[simp] theorem Thread.setReg_gz (x : Thread) (v : Word) : x.setReg 255 v = x := rfl
@[simp] theorem Thread.setPair_gz (x : Thread) (v : DWord) : x.setPair 255 v = x := rfl
theorem Thread.reg_setReg (x : Thread) (n : Nat) (v : Word) (h : n < x.regs.length) (hn : n ≠ 255) : (x.setReg n v).reg n = v := by
  simp [Thread.setReg, Thread.reg, hn, h]
theorem Thread.reg_setReg_ne (x : Thread) (n m : Nat) (v : Word) (h : m ≠ n) : (x.setReg n v).reg m = x.reg m := by
  by_cases hn : n = 255
  · simp [Thread.setReg, hn]
  · simp [Thread.setReg, Thread.reg, hn, List.getElem?_set_ne (Ne.symm h)]
@[simp] theorem Thread.regs_length_setReg (x : Thread) (n : Nat) (v : Word) : (x.setReg n v).regs.length = x.regs.length := by
  unfold Thread.setReg; split <;> simp

@[simp] theorem Thread.setReg_quad (x : Thread) (n : Nat) (v : Word) : (x.setReg n v).quad = x.quad := by unfold Thread.setReg; split <;> rfl
@[simp] theorem Thread.setReg_run (x : Thread) (n : Nat) (v : Word) : (x.setReg n v).run = x.run := by unfold Thread.setReg; split <;> rfl
@[simp] theorem Thread.setReg_pc (x : Thread) (n : Nat) (v : Word) : (x.setReg n v).pc = x.pc := by unfold Thread.setReg; split <;> rfl
@[simp] theorem Thread.setReg_word (x : Thread) (n : Nat) (v : Word) : (x.setReg n v).word = x.word := by unfold Thread.setReg; split <;> rfl
@[simp] theorem Thread.setReg_inside (x : Thread) (n : Nat) (v : Word) : (x.setReg n v).inside = x.inside := by unfold Thread.setReg; split <;> rfl
@[simp] theorem Thread.setReg_preds (x : Thread) (n : Nat) (v : Word) : (x.setReg n v).preds = x.preds := by unfold Thread.setReg; split <;> rfl
@[simp] theorem Thread.setReg_latches (x : Thread) (n : Nat) (v : Word) : (x.setReg n v).latches = x.latches := by unfold Thread.setReg; split <;> rfl
@[simp] theorem Thread.setReg_dcs (x : Thread) (n : Nat) (v : Word) : (x.setReg n v).dcs = x.dcs := by unfold Thread.setReg; split <;> rfl
@[simp] theorem Thread.setReg_ret (x : Thread) (n : Nat) (v : Word) : (x.setReg n v).ret = x.ret := by unfold Thread.setReg; split <;> rfl
@[simp] theorem Thread.setReg_stack (x : Thread) (n : Nat) (v : Word) : (x.setReg n v).stack = x.stack := by unfold Thread.setReg; split <;> rfl
@[simp] theorem Thread.setReg_rmode (x : Thread) (n : Nat) (v : Word) : (x.setReg n v).rmode = x.rmode := by unfold Thread.setReg; split <;> rfl
@[simp] theorem Thread.setReg_srseed (x : Thread) (n : Nat) (v : Word) : (x.setReg n v).srseed = x.srseed := by unfold Thread.setReg; split <;> rfl
@[simp] theorem Thread.setReg_rowprog (x : Thread) (n : Nat) (v : Word) : (x.setReg n v).rowprog = x.rowprog := by unfold Thread.setReg; split <;> rfl
@[simp] theorem Thread.setReg_ltimeh (x : Thread) (n : Nat) (v : Word) : (x.setReg n v).ltimeh = x.ltimeh := by unfold Thread.setReg; split <;> rfl
@[simp] theorem Thread.setReg_faults (x : Thread) (n : Nat) (v : Word) : (x.setReg n v).faults = x.faults := by unfold Thread.setReg; split <;> rfl
@[simp] theorem Thread.setReg_tokens (x : Thread) (n : Nat) (v : Word) : (x.setReg n v).tokens = x.tokens := by unfold Thread.setReg; split <;> rfl
@[simp] theorem Thread.setReg_handler (x : Thread) (n : Nat) (v : Word) : (x.setReg n v).handler = x.handler := by unfold Thread.setReg; split <;> rfl
@[simp] theorem Thread.setReg_point (x : Thread) (n : Nat) (v : Word) : (x.setReg n v).point = x.point := by unfold Thread.setReg; split <;> rfl
@[simp] theorem Thread.setReg_kept (x : Thread) (n : Nat) (v : Word) : (x.setReg n v).kept = x.kept := by unfold Thread.setReg; split <;> rfl
@[simp] theorem Thread.setReg_raised (x : Thread) (n : Nat) (v : Word) : (x.setReg n v).raised = x.raised := by unfold Thread.setReg; split <;> rfl
@[simp] theorem Thread.setReg_deferred (x : Thread) (n : Nat) (v : Word) : (x.setReg n v).deferred = x.deferred := by unfold Thread.setReg; split <;> rfl
@[simp] theorem Thread.setReg_waitFrom (x : Thread) (n : Nat) (v : Word) : (x.setReg n v).waitFrom = x.waitFrom := by unfold Thread.setReg; split <;> rfl
@[simp] theorem Thread.setReg_readySince (x : Thread) (n : Nat) (v : Word) : (x.setReg n v).readySince = x.readySince := by unfold Thread.setReg; split <;> rfl
@[simp] theorem Thread.setReg_seq (x : Thread) (n : Nat) (v : Word) : (x.setReg n v).seq = x.seq := by unfold Thread.setReg; split <;> rfl
@[simp] theorem Thread.setReg_fresh (x : Thread) (n : Nat) (v : Word) : (x.setReg n v).fresh = x.fresh := by unfold Thread.setReg; split <;> rfl
@[simp] theorem Thread.setReg_yielding (x : Thread) (n : Nat) (v : Word) : (x.setReg n v).yielding = x.yielding := by unfold Thread.setReg; split <;> rfl
@[simp] theorem Thread.setReg_nextPc (x : Thread) (n : Nat) (v : Word) : (x.setReg n v).nextPc = x.nextPc := by unfold Thread.setReg; split <;> rfl
@[simp] theorem Thread.setReg_exiting (x : Thread) (n : Nat) (v : Word) : (x.setReg n v).exiting = x.exiting := by unfold Thread.setReg; split <;> rfl
@[simp] theorem Thread.setReg_halted (x : Thread) (n : Nat) (v : Word) : (x.setReg n v).halted = x.halted := by unfold Thread.setReg; split <;> rfl
@[simp] theorem Thread.setReg_fences (x : Thread) (n : Nat) (v : Word) : (x.setReg n v).fences = x.fences := by unfold Thread.setReg; split <;> rfl
@[simp] theorem Thread.setReg_barriers (x : Thread) (n : Nat) (v : Word) : (x.setReg n v).barriers = x.barriers := by unfold Thread.setReg; split <;> rfl
@[simp] theorem Thread.setReg_wrote (x : Thread) (n : Nat) (v : Word) : (x.setReg n v).wrote = x.wrote := by unfold Thread.setReg; split <;> rfl
@[simp] theorem Thread.setReg_know (x : Thread) (n : Nat) (v : Word) : (x.setReg n v).know = x.know := by unfold Thread.setReg; split <;> rfl
@[simp] theorem Thread.setReg_seen (x : Thread) (n : Nat) (v : Word) : (x.setReg n v).seen = x.seen := by unfold Thread.setReg; split <;> rfl
@[simp] theorem Thread.setReg_joins (x : Thread) (n : Nat) (v : Word) : (x.setReg n v).joins = x.joins := by unfold Thread.setReg; split <;> rfl
@[simp] theorem Thread.setReg_taint (x : Thread) (n : Nat) (v : Word) : (x.setReg n v).taint = x.taint := by unfold Thread.setReg; split <;> rfl

@[simp] theorem Thread.setPair_quad (x : Thread) (n : Nat) (v : DWord) : (x.setPair n v).quad = x.quad := by unfold Thread.setPair; split <;> simp
@[simp] theorem Thread.setPair_run (x : Thread) (n : Nat) (v : DWord) : (x.setPair n v).run = x.run := by unfold Thread.setPair; split <;> simp
@[simp] theorem Thread.setPair_pc (x : Thread) (n : Nat) (v : DWord) : (x.setPair n v).pc = x.pc := by unfold Thread.setPair; split <;> simp
@[simp] theorem Thread.setPair_word (x : Thread) (n : Nat) (v : DWord) : (x.setPair n v).word = x.word := by unfold Thread.setPair; split <;> simp
@[simp] theorem Thread.setPair_inside (x : Thread) (n : Nat) (v : DWord) : (x.setPair n v).inside = x.inside := by unfold Thread.setPair; split <;> simp
@[simp] theorem Thread.setPair_preds (x : Thread) (n : Nat) (v : DWord) : (x.setPair n v).preds = x.preds := by unfold Thread.setPair; split <;> simp
@[simp] theorem Thread.setPair_latches (x : Thread) (n : Nat) (v : DWord) : (x.setPair n v).latches = x.latches := by unfold Thread.setPair; split <;> simp
@[simp] theorem Thread.setPair_dcs (x : Thread) (n : Nat) (v : DWord) : (x.setPair n v).dcs = x.dcs := by unfold Thread.setPair; split <;> simp
@[simp] theorem Thread.setPair_ret (x : Thread) (n : Nat) (v : DWord) : (x.setPair n v).ret = x.ret := by unfold Thread.setPair; split <;> simp
@[simp] theorem Thread.setPair_stack (x : Thread) (n : Nat) (v : DWord) : (x.setPair n v).stack = x.stack := by unfold Thread.setPair; split <;> simp
@[simp] theorem Thread.setPair_rmode (x : Thread) (n : Nat) (v : DWord) : (x.setPair n v).rmode = x.rmode := by unfold Thread.setPair; split <;> simp
@[simp] theorem Thread.setPair_srseed (x : Thread) (n : Nat) (v : DWord) : (x.setPair n v).srseed = x.srseed := by unfold Thread.setPair; split <;> simp
@[simp] theorem Thread.setPair_rowprog (x : Thread) (n : Nat) (v : DWord) : (x.setPair n v).rowprog = x.rowprog := by unfold Thread.setPair; split <;> simp
@[simp] theorem Thread.setPair_ltimeh (x : Thread) (n : Nat) (v : DWord) : (x.setPair n v).ltimeh = x.ltimeh := by unfold Thread.setPair; split <;> simp
@[simp] theorem Thread.setPair_faults (x : Thread) (n : Nat) (v : DWord) : (x.setPair n v).faults = x.faults := by unfold Thread.setPair; split <;> simp
@[simp] theorem Thread.setPair_tokens (x : Thread) (n : Nat) (v : DWord) : (x.setPair n v).tokens = x.tokens := by unfold Thread.setPair; split <;> simp
@[simp] theorem Thread.setPair_handler (x : Thread) (n : Nat) (v : DWord) : (x.setPair n v).handler = x.handler := by unfold Thread.setPair; split <;> simp
@[simp] theorem Thread.setPair_point (x : Thread) (n : Nat) (v : DWord) : (x.setPair n v).point = x.point := by unfold Thread.setPair; split <;> simp
@[simp] theorem Thread.setPair_kept (x : Thread) (n : Nat) (v : DWord) : (x.setPair n v).kept = x.kept := by unfold Thread.setPair; split <;> simp
@[simp] theorem Thread.setPair_raised (x : Thread) (n : Nat) (v : DWord) : (x.setPair n v).raised = x.raised := by unfold Thread.setPair; split <;> simp
@[simp] theorem Thread.setPair_deferred (x : Thread) (n : Nat) (v : DWord) : (x.setPair n v).deferred = x.deferred := by unfold Thread.setPair; split <;> simp
@[simp] theorem Thread.setPair_waitFrom (x : Thread) (n : Nat) (v : DWord) : (x.setPair n v).waitFrom = x.waitFrom := by unfold Thread.setPair; split <;> simp
@[simp] theorem Thread.setPair_readySince (x : Thread) (n : Nat) (v : DWord) : (x.setPair n v).readySince = x.readySince := by unfold Thread.setPair; split <;> simp
@[simp] theorem Thread.setPair_seq (x : Thread) (n : Nat) (v : DWord) : (x.setPair n v).seq = x.seq := by unfold Thread.setPair; split <;> simp
@[simp] theorem Thread.setPair_fresh (x : Thread) (n : Nat) (v : DWord) : (x.setPair n v).fresh = x.fresh := by unfold Thread.setPair; split <;> simp
@[simp] theorem Thread.setPair_yielding (x : Thread) (n : Nat) (v : DWord) : (x.setPair n v).yielding = x.yielding := by unfold Thread.setPair; split <;> simp
@[simp] theorem Thread.setPair_nextPc (x : Thread) (n : Nat) (v : DWord) : (x.setPair n v).nextPc = x.nextPc := by unfold Thread.setPair; split <;> simp
@[simp] theorem Thread.setPair_exiting (x : Thread) (n : Nat) (v : DWord) : (x.setPair n v).exiting = x.exiting := by unfold Thread.setPair; split <;> simp
@[simp] theorem Thread.setPair_halted (x : Thread) (n : Nat) (v : DWord) : (x.setPair n v).halted = x.halted := by unfold Thread.setPair; split <;> simp
@[simp] theorem Thread.setPair_fences (x : Thread) (n : Nat) (v : DWord) : (x.setPair n v).fences = x.fences := by unfold Thread.setPair; split <;> simp
@[simp] theorem Thread.setPair_barriers (x : Thread) (n : Nat) (v : DWord) : (x.setPair n v).barriers = x.barriers := by unfold Thread.setPair; split <;> simp
@[simp] theorem Thread.setPair_wrote (x : Thread) (n : Nat) (v : DWord) : (x.setPair n v).wrote = x.wrote := by unfold Thread.setPair; split <;> simp
@[simp] theorem Thread.setPair_know (x : Thread) (n : Nat) (v : DWord) : (x.setPair n v).know = x.know := by unfold Thread.setPair; split <;> simp
@[simp] theorem Thread.setPair_seen (x : Thread) (n : Nat) (v : DWord) : (x.setPair n v).seen = x.seen := by unfold Thread.setPair; split <;> simp
@[simp] theorem Thread.setPair_joins (x : Thread) (n : Nat) (v : DWord) : (x.setPair n v).joins = x.joins := by unfold Thread.setPair; split <;> simp
@[simp] theorem Thread.setPair_taint (x : Thread) (n : Nat) (v : DWord) : (x.setPair n v).taint = x.taint := by unfold Thread.setPair; split <;> simp

@[simp] theorem Thread.setPred_quad (x : Thread) (n : Nat) (v : Bool) : (x.setPred n v).quad = x.quad := rfl
@[simp] theorem Thread.setPred_run (x : Thread) (n : Nat) (v : Bool) : (x.setPred n v).run = x.run := rfl
@[simp] theorem Thread.setPred_pc (x : Thread) (n : Nat) (v : Bool) : (x.setPred n v).pc = x.pc := rfl
@[simp] theorem Thread.setPred_word (x : Thread) (n : Nat) (v : Bool) : (x.setPred n v).word = x.word := rfl
@[simp] theorem Thread.setPred_inside (x : Thread) (n : Nat) (v : Bool) : (x.setPred n v).inside = x.inside := rfl
@[simp] theorem Thread.setPred_latches (x : Thread) (n : Nat) (v : Bool) : (x.setPred n v).latches = x.latches := rfl
@[simp] theorem Thread.setPred_dcs (x : Thread) (n : Nat) (v : Bool) : (x.setPred n v).dcs = x.dcs := rfl
@[simp] theorem Thread.setPred_ret (x : Thread) (n : Nat) (v : Bool) : (x.setPred n v).ret = x.ret := rfl
@[simp] theorem Thread.setPred_stack (x : Thread) (n : Nat) (v : Bool) : (x.setPred n v).stack = x.stack := rfl
@[simp] theorem Thread.setPred_rmode (x : Thread) (n : Nat) (v : Bool) : (x.setPred n v).rmode = x.rmode := rfl
@[simp] theorem Thread.setPred_srseed (x : Thread) (n : Nat) (v : Bool) : (x.setPred n v).srseed = x.srseed := rfl
@[simp] theorem Thread.setPred_rowprog (x : Thread) (n : Nat) (v : Bool) : (x.setPred n v).rowprog = x.rowprog := rfl
@[simp] theorem Thread.setPred_ltimeh (x : Thread) (n : Nat) (v : Bool) : (x.setPred n v).ltimeh = x.ltimeh := rfl
@[simp] theorem Thread.setPred_faults (x : Thread) (n : Nat) (v : Bool) : (x.setPred n v).faults = x.faults := rfl
@[simp] theorem Thread.setPred_tokens (x : Thread) (n : Nat) (v : Bool) : (x.setPred n v).tokens = x.tokens := rfl
@[simp] theorem Thread.setPred_handler (x : Thread) (n : Nat) (v : Bool) : (x.setPred n v).handler = x.handler := rfl
@[simp] theorem Thread.setPred_point (x : Thread) (n : Nat) (v : Bool) : (x.setPred n v).point = x.point := rfl
@[simp] theorem Thread.setPred_kept (x : Thread) (n : Nat) (v : Bool) : (x.setPred n v).kept = x.kept := rfl
@[simp] theorem Thread.setPred_raised (x : Thread) (n : Nat) (v : Bool) : (x.setPred n v).raised = x.raised := rfl
@[simp] theorem Thread.setPred_deferred (x : Thread) (n : Nat) (v : Bool) : (x.setPred n v).deferred = x.deferred := rfl
@[simp] theorem Thread.setPred_waitFrom (x : Thread) (n : Nat) (v : Bool) : (x.setPred n v).waitFrom = x.waitFrom := rfl
@[simp] theorem Thread.setPred_readySince (x : Thread) (n : Nat) (v : Bool) : (x.setPred n v).readySince = x.readySince := rfl
@[simp] theorem Thread.setPred_seq (x : Thread) (n : Nat) (v : Bool) : (x.setPred n v).seq = x.seq := rfl
@[simp] theorem Thread.setPred_fresh (x : Thread) (n : Nat) (v : Bool) : (x.setPred n v).fresh = x.fresh := rfl
@[simp] theorem Thread.setPred_yielding (x : Thread) (n : Nat) (v : Bool) : (x.setPred n v).yielding = x.yielding := rfl
@[simp] theorem Thread.setPred_nextPc (x : Thread) (n : Nat) (v : Bool) : (x.setPred n v).nextPc = x.nextPc := rfl
@[simp] theorem Thread.setPred_exiting (x : Thread) (n : Nat) (v : Bool) : (x.setPred n v).exiting = x.exiting := rfl
@[simp] theorem Thread.setPred_halted (x : Thread) (n : Nat) (v : Bool) : (x.setPred n v).halted = x.halted := rfl
@[simp] theorem Thread.setPred_fences (x : Thread) (n : Nat) (v : Bool) : (x.setPred n v).fences = x.fences := rfl
@[simp] theorem Thread.setPred_barriers (x : Thread) (n : Nat) (v : Bool) : (x.setPred n v).barriers = x.barriers := rfl
@[simp] theorem Thread.setPred_wrote (x : Thread) (n : Nat) (v : Bool) : (x.setPred n v).wrote = x.wrote := rfl
@[simp] theorem Thread.setPred_know (x : Thread) (n : Nat) (v : Bool) : (x.setPred n v).know = x.know := rfl
@[simp] theorem Thread.setPred_seen (x : Thread) (n : Nat) (v : Bool) : (x.setPred n v).seen = x.seen := rfl
@[simp] theorem Thread.setPred_joins (x : Thread) (n : Nat) (v : Bool) : (x.setPred n v).joins = x.joins := rfl
@[simp] theorem Thread.setPred_taint (x : Thread) (n : Nat) (v : Bool) : (x.setPred n v).taint = x.taint := rfl
@[simp] theorem Thread.setPred_regs (x : Thread) (n : Nat) (v : Bool) : (x.setPred n v).regs = x.regs := rfl

/-- A predicate after a write of it (R37). -/
theorem Thread.pred_setPred (x : Thread) (n : Nat) (v : Bool) : (x.setPred n v).pred n = v := by
  have h : n % 16 < 16 := Nat.mod_lt _ (by decide)
  cases v <;> simp [Thread.setPred, Thread.pred, h]

end Sys2Proof.Machine
end

