-- ==== Sys2Proof/Laws/Issue.lean ====
section
/-! SUPPORT. The issue of a word: what a register word does for a whole bundle, and what any word does that one thread
executes (R31, R32, R33, R49, R95). -/

namespace Sys2Proof.Machine

/-- A fold that gives each of some threads a record leaves every other thread's record alone. -/
theorem State.thread_foldl_setThread (l : List ThreadId) (s : State) (g : ThreadId → Thread) (u : ThreadId) (h : u ∉ l) :
    (l.foldl (fun (s' : State) t => s'.setThread t (g t)) s).thread u = s.thread u := by
  induction l generalizing s with
  | nil => rfl
  | cons t l ih =>
    simp only [List.mem_cons, not_or] at h
    rw [List.foldl_cons, ih _ h.2, State.thread_setThread_ne _ _ _ _ h.1]

/-- Such a fold gives each of them its record. -/
theorem State.thread_foldl_setThread_mem (l : List ThreadId) (s : State) (g : ThreadId → Thread) (u : ThreadId) (hn : l.Nodup) (h : u ∈ l) :
    (l.foldl (fun (s' : State) t => s'.setThread t (g t)) s).thread u = g u := by
  induction l generalizing s with
  | nil => simp at h
  | cons t l ih =>
    rw [List.foldl_cons]
    rcases List.mem_cons.mp h with rfl | h
    · rw [State.thread_foldl_setThread l _ g u (List.nodup_cons.mp hn).1, State.thread_setThread]
    · exact ih _ hn.of_cons h

/-- Such a fold changes no quadrant. -/
theorem State.quads_foldl_setThread (l : List ThreadId) (s : State) (g : ThreadId → Thread) :
    (l.foldl (fun (s' : State) t => s'.setThread t (g t)) s).quads = s.quads := by
  induction l generalizing s with
  | nil => rfl
  | cons t l ih => rw [List.foldl_cons, ih, State.setThread_quads]

/-- A word that only sets each thread's record, thread by thread. -/
theorem State.eachThread_alu (s : State) (b : Bundle) (l : List ThreadId) (acc : State) (g : State → Bundle → ThreadId → Thread → Option Thread)
    (h : ThreadId → Thread) (hn : l.Nodup) (hrun : ∀ t ∈ l, (s.thread t).run = .issuing) (hacc : ∀ t ∈ l, acc.thread t = s.thread t)
    (hg : ∀ t ∈ l, g s b t (s.thread t) = some (h t)) :
    l.foldl (fun r t => if (r.1.thread t).run = .issuing then
        match orTrap (g s b t (r.1.thread t)) fun x => .done (r.1.setThread t x) with
        | .held => (r.1, r.2 ++ [t])
        | x => (r.1.settle b t x, r.2)
      else r) (acc, ([] : List ThreadId))
      = (l.foldl (fun (s' : State) t => s'.setThread t (h t)) acc, []) := by
  induction l generalizing acc with
  | nil => rfl
  | cons t l ih =>
    have ht := hacc t (by simp)
    simp only [List.foldl_cons, ht, hrun t (by simp), if_true, hg t (by simp), orTrap, State.settle]
    refine ih _ hn.of_cons (fun u hu => hrun u (by simp [hu])) (fun u hu => ?_) (fun u hu => hg u (by simp [hu]))
    have hut : u ≠ t := fun e => (List.nodup_cons.mp hn).1 (e ▸ hu)
    rw [State.thread_setThread_ne _ _ _ _ hut, hacc u (by simp [hu])]

section
variable {s : State} {i : Instr} {f : Fields} {q : QuadId} {k : Nat} {b : Bundle}

/-- A word that nothing holds takes its effect on the threads that execute it, and the bundle moves on. -/
theorem State.runBundle_next {hold : State → Bundle → List ThreadId → Option Nat} {early : State → Bundle → List ThreadId → State}
    {act : State → QuadId → Nat → Bundle → List ThreadId → State} (hi : Issuing s i f q k b)
    (hh : hold s.quiet b (s.executing b f) = none) :
    s.runBundle i hold early act = (act s.quiet q k b (s.executing b f)).moveOn i q k (s.executing b f) := by
  have hfree : ((s.executing b f).any fun t => s.quiet.commonHold i t) = false := by
    rw [List.any_eq_false]
    intro t ht
    exact Bool.not_eq_true _ ▸ hi.free t (List.mem_filter.mp ht).1 (List.mem_filter.mp ht).2
  have hland : (b.threads.any fun t => s.quiet.interlocked t (crossReads i)) = false := by
    rw [List.any_eq_false]
    intro t ht
    exact Bool.not_eq_true _ ▸ hi.landed t ht
  have e1 : ({ s with issuing := none } : State) = s.quiet := rfl
  have e2 : (b.threads.filter fun t => (s.quiet.thread t).executes f && (decide (b.rest = []) || b.rest.contains t)) = s.executing b f := by
    simp only [hi.whole]
    simp [State.executing, State.quiet, State.thread]
  simp only [State.runBundle, State.issuingBundle, hi.turn, hi.bundle, hi.fields, Option.map_some, e1, e2]
  simp only [hi.settled, hfree, hland, hh, hi.whole]
  simp

/-- A register word that a bundle issues: each executing thread has its result, and the bundle moves on. -/
theorem State.runAlu_next {g : State → Bundle → ThreadId → Thread → Option Thread} {h : ThreadId → Thread} (hi : Issuing s i f q k b)
    (hg : ∀ t ∈ s.executing b f, g s.quiet b t (s.thread t) = some (h t)) :
    s.runAlu i g = .next (s.afterWord i q k b f h) := by
  have heach : State.eachThread (fun s0 b t s' => orTrap (g s0 b t (s'.thread t)) fun x => .done (s'.setThread t x)) s.quiet b (s.executing b f)
      = ((s.executing b f).foldl (fun (s' : State) t => s'.setThread t (h t)) s.quiet, []) :=
    State.eachThread_alu s.quiet b (s.executing b f) s.quiet g h (hi.once.filter _)
      (fun t ht => hi.running t (List.mem_filter.mp ht).1) (fun _ _ => rfl) hg
  rw [State.runAlu, State.runThreads, State.runBundle_next hi rfl, heach]
  simp [State.afterWord]

/-- Any word that one thread executes, and that does not hold it: its effect, then the bundle moves on. -/
theorem State.runThreads_alone {t : ThreadId} {hold : State → Bundle → List ThreadId → Option Nat} {body : State → Bundle → ThreadId → State → Res}
    (hi : IssuesAlone s i f q k b t) (hh : hold s.quiet b ([t].filter fun u => (body s.quiet b u s.quiet).goes) = none)
    (hg : body s.quiet b t s.quiet ≠ .held) :
    s.runThreads i hold body = .next ((s.quiet.settle b t (body s.quiet b t s.quiet)).moveOn i q k [t]) := by
  have ht : t ∈ s.executing b f := by rw [hi.alone]; simp
  have hrun : (s.quiet.thread t).run = .issuing := hi.running t (List.mem_filter.mp ht).1
  rw [State.runThreads, State.runBundle_next hi.toIssuing (by rw [hi.alone]; exact hh), hi.alone]
  simp only [State.eachThread, List.foldl_cons, List.foldl_nil, hrun]
  cases hb : body s.quiet b t s.quiet <;> simp_all

end

end Sys2Proof.Machine
end

