-- ==== Sys2Proof/Laws/Alu.lean ====
section
/-! SUPPORT. Each shape of register word, with its sources as the executing threads read them (R95, R99, R115, R120). -/

namespace Sys2Proof.Machine

section
variable {s : State} {i : Instr} {f : Fields} {q : QuadId} {k : Nat} {b : Bundle}

theorem State.alu32_next {g : Word → Word → Word} {a v : ThreadId → Word} (hi : Issuing s i f q k b)
    (h : ∀ t ∈ s.executing b f, s.a32 b t f = some (a t) ∧ (s.thread t).b32 f = some (v t)) :
    s.alu32 i f g = .next (s.afterWord i q k b f fun t => (s.thread t).put32 f (g (a t) (v t))) :=
  State.runAlu_next hi fun t ht => by
    have ha : s.quiet.a32 b t f = some (a t) := (h t ht).1
    simp [ha, (h t ht).2]

theorem State.alu64_next {g : DWord → DWord → DWord} {a v : ThreadId → DWord} (hi : Issuing s i f q k b)
    (h : ∀ t ∈ s.executing b f, s.a64 b t f = some (a t) ∧ (s.thread t).b64 f = some (v t)) :
    s.alu64 i f g = .next (s.afterWord i q k b f fun t => (s.thread t).put64 f (g (a t) (v t))) :=
  State.runAlu_next hi fun t ht => by
    have ha : s.quiet.a64 b t f = some (a t) := (h t ht).1
    simp [ha, (h t ht).2]

theorem State.alu6432_next {g : DWord → Word → DWord} {a : ThreadId → DWord} {v : ThreadId → Word} (hi : Issuing s i f q k b)
    (h : ∀ t ∈ s.executing b f, s.a64 b t f = some (a t) ∧ (s.thread t).b32 f = some (v t)) :
    s.alu6432 i f g = .next (s.afterWord i q k b f fun t => (s.thread t).put64 f (g (a t) (v t))) :=
  State.runAlu_next hi fun t ht => by
    have ha : s.quiet.a64 b t f = some (a t) := (h t ht).1
    simp [ha, (h t ht).2]

theorem State.alu3_next {g : Word → Word → Word → Word} {a v c : ThreadId → Word} (hi : Issuing s i f q k b)
    (h : ∀ t ∈ s.executing b f, s.a32 b t f = some (a t) ∧ (s.thread t).b32 f = some (v t) ∧ (s.thread t).c32 f = some (c t)) :
    s.alu3 i f g = .next (s.afterWord i q k b f fun t => (s.thread t).put32 f (g (a t) (v t) (c t))) :=
  State.runAlu_next hi fun t ht => by
    have ha : s.quiet.a32 b t f = some (a t) := (h t ht).1
    simp [ha, (h t ht).2.1, (h t ht).2.2]

theorem State.alu1_next {g : Word → Word} {a : ThreadId → Word} (hi : Issuing s i f q k b)
    (h : ∀ t ∈ s.executing b f, s.a32 b t f = some (a t)) :
    s.alu1 i f g = .next (s.afterWord i q k b f fun t => (s.thread t).put32 f (g (a t))) :=
  State.runAlu_next hi fun t ht => by
    have ha : s.quiet.a32 b t f = some (a t) := h t ht
    simp [ha]

end
end Sys2Proof.Machine
end

