-- ==== Sys2Proof/Laws/Cistern.lean ====
section
/-! SUPPORT. What the tag table answers. -/

namespace Sys2Proof.Machine

/-- Which pointers an entry covers (R216). -/
theorem TagEntry.covers_iff (e : TagEntry) (p : DWord) :
    e.covers p = true ↔ e.valid = true ∧ e.tag.toNat * 128 ≤ p.toNat ∧ p.toNat < e.tag.toNat * 128 + 128 * (e.len.toNat + 1) := by
  simp only [TagEntry.covers, TagEntry.lines, Bool.and_eq_true, decide_eq_true_eq, and_assoc]
  exact and_congr_right fun _ => and_congr_right fun _ => decide_eq_true_iff

theorem Cohort.hit_none (c : Cohort) (p : DWord) (h : ∀ e ∈ c.tags, ¬ e.covers p = true) : c.hit p = none := by
  rw [Cohort.hit, List.find?_eq_none]
  intro x hx
  simp only [List.mem_map, List.mem_range] at hx
  obtain ⟨i, hi, rfl⟩ := hx
  rw [List.getD_eq_getElem _ _ hi]
  exact h _ (List.getElem_mem hi)

/-- The hit is the lowest entry that covers the pointer. -/
theorem Cohort.hit_some (c : Cohort) (p : DWord) (i : Nat) (e : TagEntry) (hi : c.tags[i]? = some e) (he : e.covers p = true)
    (hl : ∀ j e', j < i → c.tags[j]? = some e' → ¬ e'.covers p = true) : c.hit p = some (i, e) := by
  obtain ⟨hi', rfl⟩ := List.getElem?_eq_some_iff.1 hi
  rw [Cohort.hit, List.find?_eq_some_iff_getElem]
  refine ⟨he, i, by simpa using hi', by simp [hi'], ?_⟩
  intro j hj
  have hj' : j < c.tags.length := hj.trans hi'
  have := hl j _ hj (List.getElem?_eq_getElem hj')
  simp only [List.getElem_map, List.getElem_range, List.getD_eq_getElem _ _ hj']
  simpa using this

end Sys2Proof.Machine
end

