-- ==== Sys2Proof/Laws/Rounding.lean ====
section
/-! SUPPORT. Rounding and order of floating values: what the exact operations give as reals, that a rounded result is one of the two
codes beside its exact value, as its mode chooses (R86 to R89), that codes are ordered as their values (R117, R118), and what integer
conversions give (R92). -/

namespace Sys2Proof.Machine

/-- A positive real as its floors give it. -/
structure PosReal.Is (v : PosReal) (x : ℝ) : Prop where
  low   : (2 : ℝ) ^ v.lg ≤ x
  high  : x < (2 : ℝ) ^ (v.lg + 1)
  floor : ∀ k : Int, (v.fl k).1 = ⌊x * 2 ^ k⌋₊
  exact : ∀ k : Int, (v.fl k).2 = true ↔ (⌊x * 2 ^ k⌋₊ : ℝ) = x * 2 ^ k

theorem PosReal.Is.pos {v : PosReal} {x : ℝ} (h : v.Is x) : 0 < x := lt_of_lt_of_le (by positivity) h.low

/-- The value of a magnitude code: its significand and the exponent of its last place. -/
theorem valOf_code (fmt c : Nat) (hf : fmt < 3) (hc : c < (2 ^ expBits fmt - 1) * 2 ^ fracBits fmt) :
    valOf fmt c = .fin false (if c < 2 ^ fracBits fmt then c else 2 ^ fracBits fmt + c % 2 ^ fracBits fmt)
      ((max 1 (c / 2 ^ fracBits fmt) : Nat) - biasOf fmt - fracBits fmt) := by
  have : fmt = 0 ∨ fmt = 1 ∨ fmt = 2 := by omega
  rcases this with rfl | rfl | rfl <;>
  · simp only [fracBits, expBits] at hc
    simp only [valOf, decodeIeee, fmtBits, fracBits, expBits, biasOf]
    norm_num at hc ⊢
    split <;> split <;> split <;> simp_all <;> omega

theorem Val.is_fin {m : Nat} {e : Int} {a : ℝ} : (Val.fin false m e).is a ↔ a = m * 2 ^ e := by
  constructor
  · rintro ⟨_, _, _, h, rfl⟩
    cases h; simp
  · rintro rfl; exact ⟨false, m, e, rfl, by simp⟩

theorem PosReal.Is.lg_eq {v : PosReal} {x : ℝ} (h : v.Is x) {k : Int} (h1 : (2 : ℝ) ^ k ≤ x) (h2 : x < (2 : ℝ) ^ (k + 1)) : v.lg = k := by
  have a : (2 : ℝ) ^ v.lg < 2 ^ (k + 1) := lt_of_le_of_lt h.low h2
  have b : (2 : ℝ) ^ k < 2 ^ (v.lg + 1) := lt_of_le_of_lt h1 h.high
  rw [zpow_lt_zpow_iff_right₀ (by norm_num)] at a b
  omega

/-- The last place of a code, and what its significand and the next code's value are. -/
theorem code_next (fmt c : Nat) (hi : ℝ) (hf : fmt < 3) (hc : c < (2 ^ expBits fmt - 1) * 2 ^ fracBits fmt)
    (h1 : c + 1 < (2 ^ expBits fmt - 1) * 2 ^ fracBits fmt → (valOf fmt (c + 1)).is hi)
    (h2 : c + 1 = (2 ^ expBits fmt - 1) * 2 ^ fracBits fmt → hi = 2 ^ 2 ^ (expBits fmt - 1)) :
    hi = (((if c < 2 ^ fracBits fmt then c else 2 ^ fracBits fmt + c % 2 ^ fracBits fmt) + 1 : Nat) : ℝ)
      * (2 : ℝ) ^ (((max 1 (c / 2 ^ fracBits fmt) : Nat) : Int) - biasOf fmt - fracBits fmt) := by
  rcases Nat.lt_or_ge (c + 1) ((2 ^ expBits fmt - 1) * 2 ^ fracBits fmt) with h | h
  · have := h1 h
    rw [valOf_code fmt _ hf h, Val.is_fin] at this
    rw [this]
    have hp : 0 < 2 ^ fracBits fmt := by positivity
    have hm := Nat.div_add_mod c (2 ^ fracBits fmt)
    have hlt := Nat.mod_lt c hp
    rcases Nat.lt_or_ge (c % 2 ^ fracBits fmt + 1) (2 ^ fracBits fmt) with hr | hr
    · have e1 : (c + 1) % 2 ^ fracBits fmt = c % 2 ^ fracBits fmt + 1 := by
        rw [Nat.add_mod, Nat.mod_eq_of_lt (b := 2 ^ fracBits fmt) (a := 1) (by omega), Nat.mod_eq_of_lt hr]
      have e2 : (c + 1) / 2 ^ fracBits fmt = c / 2 ^ fracBits fmt := by
        rw [Nat.succ_div_of_not_dvd]
        intro hd
        have := Nat.mod_eq_zero_of_dvd hd
        omega
      rw [e1, e2]
      congr 2
      by_cases hs : c < 2 ^ fracBits fmt
      · have : c % 2 ^ fracBits fmt = c := Nat.mod_eq_of_lt hs
        rw [if_pos hs, if_pos (by omega)]
      · rw [if_neg hs, if_neg (by omega)]; omega
    · have hr' : c % 2 ^ fracBits fmt + 1 = 2 ^ fracBits fmt := by omega
      have hd : 2 ^ fracBits fmt ∣ c + 1 := ⟨c / 2 ^ fracBits fmt + 1, by rw [Nat.mul_add]; omega⟩
      have e1 : (c + 1) % 2 ^ fracBits fmt = 0 := Nat.mod_eq_zero_of_dvd hd
      have e2 : (c + 1) / 2 ^ fracBits fmt = c / 2 ^ fracBits fmt + 1 := Nat.succ_div_of_dvd hd
      rw [e1, e2]
      by_cases hs : c < 2 ^ fracBits fmt
      · have hc' : c / 2 ^ fracBits fmt = 0 := Nat.div_eq_of_lt hs
        have : c % 2 ^ fracBits fmt = c := Nat.mod_eq_of_lt hs
        rw [if_pos hs, if_neg (by omega), hc']
        simp; left; exact_mod_cast (by omega : 2 ^ fracBits fmt = c + 1)
      · have hc' : 1 ≤ c / 2 ^ fracBits fmt := (Nat.one_le_div_iff hp).2 (by omega)
        rw [if_neg hs, if_neg (by omega), Nat.max_eq_right hc', Nat.max_eq_right (by omega)]
        have : (2 ^ fracBits fmt + c % 2 ^ fracBits fmt + 1 : Nat) = 2 * 2 ^ fracBits fmt := by omega
        rw [this]
        generalize c / 2 ^ fracBits fmt = k
        rw [show ((k + 1 : Nat) : Int) - biasOf fmt - fracBits fmt = ((k : Int) - biasOf fmt - fracBits fmt) + 1 by push_cast; ring,
          zpow_add₀ (by norm_num : (2 : ℝ) ≠ 0)]
        push_cast; ring
  · have he : c + 1 = (2 ^ expBits fmt - 1) * 2 ^ fracBits fmt := by omega
    rw [h2 he]
    have : fmt = 0 ∨ fmt = 1 ∨ fmt = 2 := by omega
    rcases this with rfl | rfl | rfl <;>
    · simp only [fracBits, expBits, biasOf] at *
      obtain rfl : c = _ := Nat.eq_sub_of_add_eq he
      norm_num

/-- What a format keeps of a real between the values of two neighbouring codes. -/
theorem splitIeee_eq {fmt c : Nat} {v : PosReal} {x hi lo : ℝ} (hv : v.Is x) (hf : fmt < 3) (hc : c < (2 ^ expBits fmt - 1) * 2 ^ fracBits fmt)
    (h0 : (valOf fmt c).is lo) (h1 : c + 1 < (2 ^ expBits fmt - 1) * 2 ^ fracBits fmt → (valOf fmt (c + 1)).is hi)
    (h2 : c + 1 = (2 ^ expBits fmt - 1) * 2 ^ fracBits fmt → hi = 2 ^ 2 ^ (expBits fmt - 1)) (hl : lo ≤ x) (hh : x < hi) :
    let t := (x - lo) / (hi - lo)
    0 ≤ t ∧ t < 1 ∧ (splitIeee fmt v).c = c ∧ (splitIeee fmt v).t32 = ⌊t * 2 ^ 32⌋₊
      ∧ ((splitIeee fmt v).rest = false ↔ (⌊t * 2 ^ 32⌋₊ : ℝ) = t * 2 ^ 32) := by
  have hhi := code_next fmt c hi hf hc h1 h2
  rw [valOf_code fmt c hf hc, Val.is_fin] at h0
  set w := fracBits fmt
  set g := if c < 2 ^ w then c else 2 ^ w + c % 2 ^ w with hg
  set q : Int := ((max 1 (c / 2 ^ w) : Nat) : Int) - biasOf fmt - w with hq
  have hp : 0 < 2 ^ w := by positivity
  have hq0 : (0 : ℝ) < 2 ^ q := by positivity
  have hd : hi - lo = 2 ^ q := by rw [hhi, h0]; push_cast; ring
  have hgx : (g : ℝ) ≤ x * 2 ^ (-q) ∧ x * 2 ^ (-q) < g + 1 := by
    rw [zpow_neg, ← div_eq_mul_inv, le_div_iff₀ hq0, div_lt_iff₀ hq0]
    exact ⟨by rw [← h0]; exact hl, by rw [hhi] at hh; exact_mod_cast hh⟩
  have ht : (x - lo) / (hi - lo) = x * 2 ^ (-q) - g := by
    rw [hd, h0, sub_div, mul_div_cancel_right₀ _ hq0.ne', zpow_neg, div_eq_mul_inv]
  simp only [ht]
  refine ⟨by linarith [hgx.1], by linarith [hgx.2], ?_⟩
  -- the exponent of the last place
  have key : (if v.lg < 1 - biasOf fmt then 1 - biasOf fmt - (w : Int) else v.lg - w) = q
      ∧ ((v.lg < 1 - biasOf fmt ∧ c = g) ∨ (¬ v.lg < 1 - biasOf fmt ∧ c = (v.lg + biasOf fmt).toNat * 2 ^ w + (g - 2 ^ w))) := by
    by_cases hs : c < 2 ^ w
    · have hc' : c / 2 ^ w = 0 := Nat.div_eq_of_lt hs
      have hq' : q = 1 - biasOf fmt - w := by rw [hq, hc']; simp
      have hg' : g = c := by rw [hg, if_pos hs]
      have : v.lg < 1 - biasOf fmt := by
        have : x < (2 : ℝ) ^ (1 - biasOf fmt) := by
          refine lt_of_lt_of_le hh ?_
          rw [hhi, show 1 - biasOf fmt = (w : Int) + q by rw [hq']; ring, zpow_add₀ (by norm_num : (2 : ℝ) ≠ 0), hg']
          refine mul_le_mul_of_nonneg_right ?_ hq0.le
          rw [zpow_natCast]
          exact_mod_cast hs
        have := lt_of_le_of_lt hv.low this
        rwa [zpow_lt_zpow_iff_right₀ (by norm_num)] at this
      exact ⟨by rw [if_pos this, hq'], .inl ⟨this, hg'.symm⟩⟩
    · have hc' : 1 ≤ c / 2 ^ w := (Nat.one_le_div_iff hp).2 (by omega)
      have hq' : q = (c / 2 ^ w : Nat) - biasOf fmt - w := by rw [hq, Nat.max_eq_right hc']
      have hg' : g = 2 ^ w + c % 2 ^ w := by rw [hg, if_neg hs]
      have hlg : v.lg = (w : Int) + q := by
        refine hv.lg_eq ?_ ?_
        · refine le_trans ?_ hl
          rw [h0, zpow_add₀ (by norm_num : (2 : ℝ) ≠ 0), zpow_natCast]
          refine mul_le_mul_of_nonneg_right ?_ hq0.le
          exact_mod_cast (by omega : 2 ^ w ≤ g)
        · refine lt_of_lt_of_le hh ?_
          rw [hhi, show (w : Int) + q + 1 = ((w + 1 : Nat) : Int) + q by push_cast; ring, zpow_add₀ (by norm_num : (2 : ℝ) ≠ 0), zpow_natCast]
          refine mul_le_mul_of_nonneg_right ?_ hq0.le
          have := Nat.mod_lt c hp
          exact_mod_cast (by rw [pow_succ]; omega : g + 1 ≤ 2 ^ (w + 1))
      have hns : ¬ v.lg < 1 - biasOf fmt := by rw [hlg, hq']; omega
      refine ⟨by rw [if_neg hns, hlg]; ring, .inr ⟨hns, ?_⟩⟩
      have : (v.lg + biasOf fmt).toNat = c / 2 ^ w := by rw [hlg, hq']; omega
      rw [this, hg']
      have := Nat.div_add_mod c (2 ^ w)
      rw [Nat.mul_comm] at this
      omega
  have hn : (v.fl (-q)).1 = g := by
    rw [hv.floor, Nat.floor_eq_iff (le_trans (by positivity) hgx.1)]
    exact hgx
  have hu : x * (2 : ℝ) ^ (32 - q) = (x * 2 ^ (-q) - g) * 2 ^ 32 + ((g * 2 ^ 32 : Nat) : ℝ) := by
    rw [show (32 : Int) - q = -q + (32 : Nat) by push_cast; ring, zpow_add₀ (by norm_num : (2 : ℝ) ≠ 0), zpow_natCast]
    push_cast; ring
  have ht0 : (0 : ℝ) ≤ (x * 2 ^ (-q) - g) * 2 ^ 32 := mul_nonneg (by linarith [hgx.1]) (by norm_num)
  have hfl : ⌊x * (2 : ℝ) ^ (32 - q)⌋₊ = ⌊(x * 2 ^ (-q) - g) * 2 ^ 32⌋₊ + g * 2 ^ 32 := by
    rw [hu, Nat.floor_add_natCast ht0]
  have htl : ⌊(x * (2 : ℝ) ^ (-q) - g) * 2 ^ 32⌋₊ < 2 ^ 32 := by
    rw [Nat.floor_lt ht0]
    push_cast
    have : x * (2 : ℝ) ^ (-q) - g < 1 := by linarith [hgx.2]
    nlinarith
  have hsplit : splitIeee fmt v = { c := if v.lg < 1 - biasOf fmt then (v.fl (-q)).1 else ((v.lg + biasOf fmt).toNat) * 2 ^ w + ((v.fl (-q)).1 - 2 ^ w)
                                    t32 := (v.fl (32 - q)).1 % 2 ^ 32, rest := !(v.fl (32 - q)).2 } := by
    rw [← key.1]; rfl
  rw [hsplit]
  refine ⟨?_, ?_, ?_⟩
  · simp only [hn]
    rcases key.2 with ⟨h, h'⟩ | ⟨h, h'⟩
    · rw [if_pos h, h']
    · rw [if_neg h, ← h']
  · simp only [hv.floor, hfl]
    rw [Nat.add_mul_mod_self_right, Nat.mod_eq_of_lt htl]
  · simp only [Bool.not_eq_false', hv.exact, hfl]
    rw [hu]
    push_cast
    constructor
    · intro h; linarith
    · intro h; rw [h]

theorem chooseHi_iff (mode r : Nat) (a lo hi : ℝ) (p : Split) (ha : a ≠ 0)
    (h0 : 0 ≤ (|a| - lo) / (hi - lo)) (ht : p.t32 = ⌊(|a| - lo) / (hi - lo) * 2 ^ 32⌋₊)
    (hr : p.rest = false ↔ (⌊(|a| - lo) / (hi - lo) * 2 ^ 32⌋₊ : ℝ) = (|a| - lo) / (hi - lo) * 2 ^ 32) :
    chooseHi mode (decide (a < 0)) p r = true ↔ roundsUp mode (p.c % 2 = 1) a lo hi r := by
  unfold roundsUp
  set t := (|a| - lo) / (hi - lo)
  have hT : 0 ≤ t * 2 ^ 32 := by positivity
  have hpos : (p.t32 ≠ 0 ∨ p.rest = true) ↔ 0 < t := by
    rw [← not_iff_not]
    push Not
    simp only [ne_eq, Bool.not_eq_true]
    rw [hr, ht]
    constructor
    · rintro ⟨h1, h2⟩
      rw [h1] at h2
      have : t * 2 ^ 32 = 0 := by rw [← h2]; simp
      nlinarith
    · intro h
      have : t = 0 := le_antisymm h h0
      simp [this]
  have hhalf : (p.t32 > 2 ^ 31 ∨ (p.t32 = 2 ^ 31 ∧ (p.rest = true ∨ p.c % 2 = 1))) ↔ (1 / 2 < t ∨ t = 1 / 2 ∧ p.c % 2 = 1) := by
    rw [ht]
    have hf := Nat.floor_le hT
    have hf' := Nat.lt_floor_add_one (t * 2 ^ 32)
    constructor
    · rintro (h | ⟨h, h'⟩)
      · left
        have : ((2 ^ 31 + 1 : Nat) : ℝ) ≤ (⌊t * 2 ^ 32⌋₊ : ℝ) := by exact_mod_cast h
        push_cast at this
        linarith
      · by_cases hh : p.rest = false
        · have := hr.1 hh
          rw [h] at this
          push_cast at this
          exact .inr ⟨by linarith, by simpa [hh] using h'⟩
        · have : (⌊t * 2 ^ 32⌋₊ : ℝ) ≠ t * 2 ^ 32 := fun e => hh (hr.2 e)
          have := lt_of_le_of_ne hf this
          rw [h] at this
          push_cast at this
          left; linarith
    · rintro (h | ⟨h, h'⟩)
      · have hge : 2 ^ 31 ≤ ⌊t * 2 ^ 32⌋₊ := by rw [Nat.le_floor_iff hT]; push_cast; linarith
        rcases Nat.lt_or_ge (2 ^ 31) ⌊t * 2 ^ 32⌋₊ with h3 | h3
        · exact .inl h3
        · have he : ⌊t * 2 ^ 32⌋₊ = 2 ^ 31 := le_antisymm h3 hge
          refine .inr ⟨he, .inl ?_⟩
          by_contra hb
          rw [Bool.not_eq_true, hr, he] at hb
          push_cast at hb
          linarith
      · refine .inr ⟨?_, .inr h'⟩
        rw [h]
        norm_num
  have hneg : ¬ a < 0 ↔ 0 < a := by
    constructor
    · intro h; exact lt_of_le_of_ne (not_lt.1 h) (Ne.symm ha)
    · intro h; exact not_lt.2 h.le
  match mode with
  | 0 => simp [chooseHi]
  | 1 => simpa [chooseHi] using hhalf
  | 2 => simp [chooseHi]
  | 3 => simp only [chooseHi]; rw [← hpos, ← hneg]; simp
  | 4 => simp only [chooseHi]; rw [← hpos]; simp
  | 5 => simp only [chooseHi, ht]; simp
  | n + 6 => simp [chooseHi]

theorem overflowOf_eq (fmt mode : Nat) (sat : Bool) (a : ℝ) (hf : fmt < 3) (ha : a ≠ 0) :
    overflowOf fmt mode sat (decide (a < 0)) = (if a < 0 then 2 ^ (fmtBits fmt - 1) else 0)
      + if sat ∨ mode = 2 ∨ (mode = 3 ∧ a < 0) ∨ (mode = 4 ∧ 0 < a) then (2 ^ expBits fmt - 1) * 2 ^ fracBits fmt - 1 else (2 ^ expBits fmt - 1) * 2 ^ fracBits fmt := by
  have hm : maxCode fmt = (2 ^ expBits fmt - 1) * 2 ^ fracBits fmt - 1 := by
    have : fmt = 0 ∨ fmt = 1 ∨ fmt = 2 := by omega
    rcases this with rfl | rfl | rfl <;> rfl
  have h3 : fmt ≠ 3 := by omega
  unfold overflowOf
  simp only [hm, signBit, decide_eq_true_eq, infCode, if_neg h3]
  cases sat with
  | true => simp
  | false =>
    rcases lt_or_gt_of_ne ha with h | h
    · have h' : ¬ 0 < a := not_lt.2 h.le
      simp only [h, h', if_true]
      match mode with
      | 0 | 1 | 2 | 3 | 4 => simp
      | n + 5 => simp
    · have h' : ¬ a < 0 := not_lt.2 h.le
      simp only [h, h', if_false]
      match mode with
      | 0 | 1 | 2 | 3 | 4 => simp
      | n + 5 => simp

theorem roundPos_rounds (fmt mode r : Nat) (sat : Bool) (v : PosReal) (a : ℝ) (hf : fmt < 3) (ha : a ≠ 0) (hv : v.Is |a|) :
    Rounds fmt mode sat a r (roundPos fmt mode sat (decide (a < 0)) v r) := by
  have hm : maxCode fmt + 1 = (2 ^ expBits fmt - 1) * 2 ^ fracBits fmt := by
    have : fmt = 0 ∨ fmt = 1 ∨ fmt = 2 := by omega
    rcases this with rfl | rfl | rfl <;> rfl
  have hrp : roundPos fmt mode sat (decide (a < 0)) v r =
      let p := splitIeee fmt v
      let code := if chooseHi mode (decide (a < 0)) p r then p.c + 1 else p.c
      if code > maxCode fmt then overflowOf fmt mode sat (decide (a < 0)) else signBit fmt (decide (a < 0)) + code := by
    have : fmt = 0 ∨ fmt = 1 ∨ fmt = 2 := by omega
    rcases this with rfl | rfl | rfl <;> rfl
  refine ⟨fun htop => ?_, fun c lo hi hc h0 h1 h2 hl hh => ?_⟩
  · have hb : (2 : ℝ) ^ 2 ^ (expBits fmt - 1) = (2 : ℝ) ^ (biasOf fmt + 1) := by
      have : fmt = 0 ∨ fmt = 1 ∨ fmt = 2 := by omega
      rcases this with rfl | rfl | rfl <;> (simp only [expBits, biasOf]; norm_num)
    have hlg : biasOf fmt + 1 ≤ v.lg := by
      rw [hb] at htop
      have := lt_of_le_of_lt htop hv.high
      rw [zpow_lt_zpow_iff_right₀ (by norm_num)] at this
      omega
    have hc : maxCode fmt < (splitIeee fmt v).c := by
      have hb0 : 0 ≤ biasOf fmt := by
        have : fmt = 0 ∨ fmt = 1 ∨ fmt = 2 := by omega
        rcases this with rfl | rfl | rfl <;> decide
      have hns : ¬ v.lg < 1 - biasOf fmt := by omega
      have he : (2 ^ expBits fmt - 1 : Nat) ≤ (v.lg + biasOf fmt).toNat := by
        have : (2 ^ expBits fmt - 1 : Nat) = (2 * biasOf fmt + 1).toNat := by
          have : fmt = 0 ∨ fmt = 1 ∨ fmt = 2 := by omega
          rcases this with rfl | rfl | rfl <;> rfl
        omega
      have : (2 ^ expBits fmt - 1) * 2 ^ fracBits fmt ≤ (v.lg + biasOf fmt).toNat * 2 ^ fracBits fmt := Nat.mul_le_mul_right _ he
      simp only [splitIeee, if_neg hns]
      omega
    rw [hrp]
    simp only
    rw [if_pos (by split <;> omega), overflowOf_eq fmt mode sat a hf ha]
  · obtain ⟨ht0, _, hc', ht, hr⟩ := splitIeee_eq hv hf hc h0 h1 h2 hl hh
    have hch := chooseHi_iff mode r a lo hi (splitIeee fmt v) ha ht0 ht hr
    rw [hc'] at hch
    rw [hrp]
    simp only [hc']
    have hs : signBit fmt (decide (a < 0)) = if a < 0 then 2 ^ (fmtBits fmt - 1) else 0 := by simp [signBit]
    refine ⟨fun hn => ?_, fun hu => ?_⟩
    · have : chooseHi mode (decide (a < 0)) (splitIeee fmt v) r = false := by
        rw [← Bool.not_eq_true]; exact fun e => hn (hch.1 e)
      simp only [this]
      rw [if_neg (by simp; omega), hs]; simp
    · simp only [hch.2 hu, if_true]
      by_cases he : c + 1 = (2 ^ expBits fmt - 1) * 2 ^ fracBits fmt
      · rw [if_pos (by omega), if_pos he, overflowOf_eq fmt mode sat a hf ha]
      · rw [if_neg (by omega), if_neg he, hs]


/-- A real below one has the floor zero. -/
theorem floor_small {y : ℝ} (h0 : 0 < y) (h1 : y < 1) : ⌊y⌋₊ = 0 ∧ ¬ (⌊y⌋₊ : ℝ) = y := by
  have : ⌊y⌋₊ = 0 := Nat.floor_eq_zero.2 h1
  exact ⟨this, by rw [this]; simp; exact h0.ne⟩

theorem floor_div (n d : Nat) (hd : 0 < d) : ⌊(n : ℝ) / d⌋₊ = n / d ∧ ((⌊(n : ℝ) / d⌋₊ : ℝ) = (n : ℝ) / d ↔ n % d = 0) := by
  have h : ⌊(n : ℝ) / d⌋₊ = n / d := Nat.floor_div_eq_div n d
  refine ⟨h, ?_⟩
  rw [h]
  have hd' : (d : ℝ) ≠ 0 := by exact_mod_cast hd.ne'
  rw [eq_div_iff hd']
  have := Nat.div_add_mod n d
  constructor
  · intro e
    have : n / d * d = n := by exact_mod_cast e
    rw [Nat.mul_comm] at this
    omega
  · intro e
    rw [e, Nat.add_zero, Nat.mul_comm] at this
    exact_mod_cast this

theorem PosReal.dyadic_is (m : Nat) (e : Int) (hm : m ≠ 0) : (PosReal.dyadic m e).Is ((m : ℝ) * 2 ^ e) := by
  have he : (0 : ℝ) < 2 ^ e := by positivity
  have hfl : ∀ k : Int, ((PosReal.dyadic m e).fl k).1 = ⌊(m : ℝ) * 2 ^ e * 2 ^ k⌋₊
      ∧ (((PosReal.dyadic m e).fl k).2 = true ↔ (⌊(m : ℝ) * 2 ^ e * 2 ^ k⌋₊ : ℝ) = (m : ℝ) * 2 ^ e * 2 ^ k) := by
    intro k
    have hx : (m : ℝ) * 2 ^ e * 2 ^ k = m * 2 ^ (e + k) := by rw [zpow_add₀ (by norm_num : (2 : ℝ) ≠ 0)]; ring
    rw [hx]
    simp only [PosReal.dyadic]
    by_cases h : 0 ≤ e + k
    · rw [if_pos h]
      have : (m : ℝ) * 2 ^ (e + k) = ((m * 2 ^ (e + k).toNat : Nat) : ℝ) := by
        push_cast
        rw [← zpow_natCast, Int.toNat_of_nonneg h]
      rw [this, Nat.floor_natCast]
      simp
    · rw [if_neg h]
      have : (m : ℝ) * 2 ^ (e + k) = (m : ℝ) / ((2 ^ (-(e + k)).toNat : Nat) : ℝ) := by
        push_cast
        rw [← zpow_natCast, Int.toNat_of_nonneg (by omega), zpow_neg, div_inv_eq_mul]
      rw [this]
      obtain ⟨h1, h2⟩ := floor_div m (2 ^ (-(e + k)).toNat) (by positivity)
      exact ⟨h1.symm, by rw [h2]; simp⟩
  refine ⟨?_, ?_, fun k => (hfl k).1, fun k => (hfl k).2⟩
  · simp only [PosReal.dyadic]
    rw [zpow_add₀ (by norm_num : (2 : ℝ) ≠ 0), zpow_natCast]
    exact mul_le_mul_of_nonneg_right (by exact_mod_cast Nat.log2_self_le hm) he.le
  · simp only [PosReal.dyadic]
    rw [show (Nat.log2 m : Int) + e + 1 = ((Nat.log2 m + 1 : Nat) : Int) + e by push_cast; ring, zpow_add₀ (by norm_num : (2 : ℝ) ≠ 0), zpow_natCast]
    exact mul_lt_mul_of_pos_right (by exact_mod_cast Nat.lt_log2_self) he

theorem recipLog_spec (m : Nat) (hm : m ≠ 0) : (2 : ℝ) ^ recipLog m ≤ (m : ℝ)⁻¹ ∧ (m : ℝ)⁻¹ < 2 ^ (recipLog m + 1) := by
  have hm0 : (0 : ℝ) < m := by exact_mod_cast Nat.pos_of_ne_zero hm
  have h1 := Nat.log2_self_le hm
  have h2 : m < 2 ^ (Nat.log2 m + 1) := Nat.lt_log2_self
  unfold recipLog
  by_cases h : m = 2 ^ Nat.log2 m
  · rw [if_pos h]
    have hc : (m : ℝ) = 2 ^ (Nat.log2 m) := by exact_mod_cast h
    rw [zpow_neg, zpow_natCast, ← hc, zpow_add₀ (by norm_num), zpow_neg, zpow_natCast, ← hc]
    refine ⟨le_refl _, ?_⟩
    have : 0 < (m : ℝ)⁻¹ := by positivity
    norm_num; linarith
  · rw [if_neg h]
    have h1' : 2 ^ Nat.log2 m < m := lt_of_le_of_ne h1 (Ne.symm h)
    constructor
    · rw [show -(Nat.log2 m : Int) - 1 = -((Nat.log2 m + 1 : Nat) : Int) by push_cast; ring, zpow_neg, zpow_natCast]
      exact inv_anti₀ hm0 (by exact_mod_cast h2.le)
    · rw [show -(Nat.log2 m : Int) - 1 + 1 = -((Nat.log2 m : Nat) : Int) by ring, zpow_neg, zpow_natCast]
      exact inv_strictAnti₀ (by positivity) (by exact_mod_cast h1')

theorem PosReal.recip_is (m : Nat) (e : Int) (hm : m ≠ 0) : (PosReal.recip m e).Is ((m : ℝ) * 2 ^ e)⁻¹ := by
  have hm0 : (0 : ℝ) < m := by exact_mod_cast Nat.pos_of_ne_zero hm
  have hx : ((m : ℝ) * 2 ^ e)⁻¹ = (m : ℝ)⁻¹ * 2 ^ (-e) := by rw [mul_inv, zpow_neg]
  have hp : (0 : ℝ) < 2 ^ (-e) := by positivity
  obtain ⟨h1, h2⟩ := recipLog_spec m hm
  have hfl : ∀ k : Int, ((PosReal.recip m e).fl k).1 = ⌊((m : ℝ) * 2 ^ e)⁻¹ * 2 ^ k⌋₊
      ∧ (((PosReal.recip m e).fl k).2 = true ↔ (⌊((m : ℝ) * 2 ^ e)⁻¹ * 2 ^ k⌋₊ : ℝ) = ((m : ℝ) * 2 ^ e)⁻¹ * 2 ^ k) := by
    intro k
    have hy : ((m : ℝ) * 2 ^ e)⁻¹ * 2 ^ k = 2 ^ (k - e) / m := by
      rw [hx, show k - e = -e + k by ring, zpow_add₀ (by norm_num : (2 : ℝ) ≠ 0)]; field_simp
    rw [hy]
    simp only [PosReal.recip]
    by_cases h : 0 ≤ k - e
    · rw [if_pos h]
      have : (2 : ℝ) ^ (k - e) / m = ((2 ^ (k - e).toNat : Nat) : ℝ) / m := by
        push_cast; rw [← zpow_natCast, Int.toNat_of_nonneg h]
      rw [this]
      obtain ⟨h1, h2⟩ := floor_div (2 ^ (k - e).toNat) m (Nat.pos_of_ne_zero hm)
      exact ⟨h1.symm, by rw [h2]; simp⟩
    · rw [if_neg h]
      have hlt : (2 : ℝ) ^ (k - e) < 1 := zpow_lt_one_of_neg₀ (by norm_num) (by omega)
      have hm1 : (1 : ℝ) ≤ m := by exact_mod_cast Nat.pos_of_ne_zero hm
      obtain ⟨h1, h2⟩ := floor_small (y := (2 : ℝ) ^ (k - e) / m) (by positivity) (by rw [div_lt_one hm0]; linarith)
      exact ⟨h1.symm, by simp [h2]⟩
  refine ⟨?_, ?_, fun k => (hfl k).1, fun k => (hfl k).2⟩
  · rw [hx]; simp only [PosReal.recip]
    rw [sub_eq_add_neg, zpow_add₀ (by norm_num : (2 : ℝ) ≠ 0)]
    exact mul_le_mul_of_nonneg_right h1 hp.le
  · rw [hx]; simp only [PosReal.recip]
    rw [show recipLog m - e + 1 = (recipLog m + 1) + -e by ring, zpow_add₀ (by norm_num : (2 : ℝ) ≠ 0)]
    exact mul_lt_mul_of_pos_right h2 hp

theorem isqrtFrom_spec (n : Nat) : ∀ k r, r * r ≤ n → n < (r + 2 ^ k) * (r + 2 ^ k) →
    isqrtFrom n k r * isqrtFrom n k r ≤ n ∧ n < (isqrtFrom n k r + 1) * (isqrtFrom n k r + 1)
  | 0, r, h1, h2 => ⟨h1, by simpa [isqrtFrom] using h2⟩
  | k + 1, r, h1, h2 => by
    simp only [isqrtFrom]
    split
    · next h => exact isqrtFrom_spec n k _ h (by rw [Nat.add_assoc, ← Nat.two_mul, ← Nat.pow_succ']; exact h2)
    · next h => exact isqrtFrom_spec n k _ h1 (by omega)

theorem isqrt_eq (n : Nat) : isqrt n = Nat.sqrt n := by
  have hb : n < (0 + 2 ^ (Nat.log2 n / 2 + 1)) * (0 + 2 ^ (Nat.log2 n / 2 + 1)) := by
    rw [Nat.zero_add, ← Nat.pow_add]
    refine lt_of_lt_of_le (Nat.lt_log2_self (n := n)) (Nat.pow_le_pow_right (by norm_num) (by omega))
  obtain ⟨h1, h2⟩ := isqrtFrom_spec n _ 0 (by simp) hb
  exact (Nat.eq_sqrt.2 ⟨h1, h2⟩)

theorem PosReal.rsqrt_is (m : Nat) (e : Int) (hm : m ≠ 0) : (PosReal.rsqrt m e).Is (√((m : ℝ) * 2 ^ e))⁻¹ := by
  have hm0 : (0 : ℝ) < m := by exact_mod_cast Nat.pos_of_ne_zero hm
  have hy0 : (0 : ℝ) < m * 2 ^ e := by positivity
  have hx : (√((m : ℝ) * 2 ^ e))⁻¹ = √((m : ℝ)⁻¹ * 2 ^ (-e)) := by rw [← Real.sqrt_inv, mul_inv, zpow_neg]
  obtain ⟨h1, h2⟩ := recipLog_spec m hm
  have hp : (0 : ℝ) < 2 ^ (-e) := by positivity
  have hsq : ∀ j : Int, (2 : ℝ) ^ j = √(2 ^ (2 * j)) := by
    intro j
    rw [show 2 * j = j + j by ring, zpow_add₀ (by norm_num : (2 : ℝ) ≠ 0), Real.sqrt_mul_self (by positivity)]
  have hfl : ∀ k : Int, ((PosReal.rsqrt m e).fl k).1 = ⌊(√((m : ℝ) * 2 ^ e))⁻¹ * 2 ^ k⌋₊
      ∧ (((PosReal.rsqrt m e).fl k).2 = true ↔ (⌊(√((m : ℝ) * 2 ^ e))⁻¹ * 2 ^ k⌋₊ : ℝ) = (√((m : ℝ) * 2 ^ e))⁻¹ * 2 ^ k) := by
    intro k
    have hy : (√((m : ℝ) * 2 ^ e))⁻¹ * 2 ^ k = √(2 ^ (2 * k - e) / m) := by
      rw [hx, hsq k, ← Real.sqrt_mul (by positivity), show 2 * k - e = -e + 2 * k by ring, zpow_add₀ (by norm_num : (2 : ℝ) ≠ 0)]
      congr 1; field_simp
    rw [hy]
    simp only [PosReal.rsqrt]
    by_cases h : 0 ≤ 2 * k - e
    · rw [if_pos h]
      have hz : (2 : ℝ) ^ (2 * k - e) / m = ((2 ^ (2 * k - e).toNat : Nat) : ℝ) / m := by
        push_cast; rw [← zpow_natCast, Int.toNat_of_nonneg h]
      rw [hz]
      simp only [isqrt_eq]
      set N := 2 ^ (2 * k - e).toNat
      have hN : (0 : ℝ) ≤ (N : ℝ) / m := by positivity
      have hf : ⌊√((N : ℝ) / m)⌋₊ = Nat.sqrt (N / m) := by
        rw [Nat.floor_eq_iff (Real.sqrt_nonneg _)]
        have hd := (floor_div N m (Nat.pos_of_ne_zero hm)).1
        constructor
        · apply Real.le_sqrt_of_sq_le
          have : (Nat.sqrt (N / m) * Nat.sqrt (N / m) : Nat) ≤ ⌊(N : ℝ) / m⌋₊ := by rw [hd]; exact Nat.sqrt_le _
          rw [Nat.le_floor_iff hN] at this
          push_cast at this
          rw [sq]; exact this
        · rw [Real.sqrt_lt' (by positivity)]
          have : ⌊(N : ℝ) / m⌋₊ < (Nat.sqrt (N / m) + 1) * (Nat.sqrt (N / m) + 1) := by rw [hd]; exact Nat.lt_succ_sqrt _
          rw [Nat.floor_lt hN] at this
          push_cast at this
          rw [sq]; exact this
      refine ⟨hf.symm, ?_⟩
      rw [hf, decide_eq_true_eq]
      constructor
      · intro he
        have : (Nat.sqrt (N / m) : ℝ) * Nat.sqrt (N / m) = (N : ℝ) / m := by
          rw [eq_div_iff hm0.ne']; exact_mod_cast he
        rw [← this, Real.sqrt_mul_self (by positivity)]
      · intro he
        have : (Nat.sqrt (N / m) : ℝ) * Nat.sqrt (N / m) = (N : ℝ) / m := by rw [he, Real.mul_self_sqrt hN]
        rw [eq_div_iff hm0.ne'] at this
        exact_mod_cast this
    · rw [if_neg h]
      have hlt : (2 : ℝ) ^ (2 * k - e) < 1 := zpow_lt_one_of_neg₀ (by norm_num) (by omega)
      have hm1 : (1 : ℝ) ≤ m := by exact_mod_cast Nat.pos_of_ne_zero hm
      obtain ⟨h1, h2⟩ := floor_small (y := √((2 : ℝ) ^ (2 * k - e) / m)) (Real.sqrt_pos.2 (by positivity))
        (by rw [Real.sqrt_lt' (by norm_num), div_lt_iff₀ hm0]; linarith)
      exact ⟨h1.symm, by simp only [Bool.false_eq_true, false_iff]; exact h2⟩
  have hL : (2 : ℝ) ^ (recipLog m - e) ≤ (m : ℝ)⁻¹ * 2 ^ (-e) ∧ (m : ℝ)⁻¹ * 2 ^ (-e) < 2 ^ (recipLog m - e + 1) := by
    constructor
    · rw [sub_eq_add_neg, zpow_add₀ (by norm_num : (2 : ℝ) ≠ 0)]
      exact mul_le_mul_of_nonneg_right h1 hp.le
    · rw [show recipLog m - e + 1 = (recipLog m + 1) + -e by ring, zpow_add₀ (by norm_num : (2 : ℝ) ≠ 0)]
      exact mul_lt_mul_of_pos_right h2 hp
  refine ⟨?_, ?_, fun k => (hfl k).1, fun k => (hfl k).2⟩
  · rw [hx, hsq (PosReal.rsqrt m e).lg]
    refine Real.sqrt_le_sqrt (le_trans ?_ hL.1)
    exact zpow_le_zpow_right₀ (by norm_num) (by simp only [PosReal.rsqrt]; omega)
  · rw [hx, hsq ((PosReal.rsqrt m e).lg + 1)]
    refine Real.sqrt_lt_sqrt (by positivity) (lt_of_lt_of_le hL.2 ?_)
    exact zpow_le_zpow_right₀ (by norm_num) (by simp only [PosReal.rsqrt]; omega)

/-- A finite value and the real it is. -/
theorem Val.is_abs {neg : Bool} {m : Nat} {e : Int} {a : ℝ} (h : (Val.fin neg m e).is a) : |a| = (m : ℝ) * 2 ^ e ∧ (a ≠ 0 → m ≠ 0 ∧ neg = decide (a < 0)) := by
  obtain ⟨_, _, _, hv, rfl⟩ := h
  cases hv
  have hn : (0 : ℝ) ≤ (m : ℝ) * 2 ^ e := by positivity
  cases neg with
  | false =>
    refine ⟨by simp [abs_of_nonneg hn], fun h => ⟨?_, ?_⟩⟩
    · rintro rfl; simp at h
    · simp [hn]
  | true =>
    refine ⟨by simp [abs_of_nonneg hn], fun h => ?_⟩
    have hm : m ≠ 0 := by rintro rfl; simp at h
    refine ⟨hm, ?_⟩
    have : (0 : ℝ) < m := by exact_mod_cast Nat.pos_of_ne_zero hm
    have : (0 : ℝ) < (m : ℝ) * 2 ^ e := by positivity
    simpa using this

/-- A finite result other than zero is its exact value rounded. -/
theorem deliver_rounds (fmt mode r : Nat) (sat : Bool) (v : Val) (a : ℝ) (hf : fmt < 3) (ha : a ≠ 0) (hv : v.is a) :
    Rounds fmt mode sat a r (deliver fmt mode sat v r) := by
  obtain ⟨neg, m, e, rfl, _⟩ := id hv
  obtain ⟨h1, h2⟩ := Val.is_abs hv
  obtain ⟨hm, rfl⟩ := h2 ha
  simp only [deliver, roundFin, if_neg hm]
  exact roundPos_rounds fmt mode r sat _ a hf ha (by rw [h1]; exact PosReal.dyadic_is m e hm)

theorem frcpBits_rounds (mode x r : Nat) (sat : Bool) (a : ℝ) (ha : a ≠ 0) (hv : (valOf 0 x).is a) :
    Rounds 0 mode sat a⁻¹ r (frcpBits mode sat x r) := by
  obtain ⟨neg, m, e, hx, _⟩ := id hv
  rw [hx] at hv
  obtain ⟨h1, h2⟩ := Val.is_abs hv
  obtain ⟨hm, hn⟩ := h2 ha
  have hs : decide (a < 0) = decide (a⁻¹ < 0) := by simp
  simp only [frcpBits, hx, if_neg hm, hn, hs]
  exact roundPos_rounds 0 mode r sat _ _ (by norm_num) (inv_ne_zero ha) (by rw [abs_inv, h1]; exact PosReal.recip_is m e hm)

theorem frsqBits_rounds (mode x r : Nat) (sat : Bool) (a : ℝ) (ha : 0 < a) (hv : (valOf 0 x).is a) :
    Rounds 0 mode sat (√a)⁻¹ r (frsqBits mode sat x r) := by
  obtain ⟨neg, m, e, hx, _⟩ := id hv
  rw [hx] at hv
  obtain ⟨h1, h2⟩ := Val.is_abs hv
  obtain ⟨hm, hn⟩ := h2 ha.ne'
  have hneg : neg = false := by rw [hn]; simp [ha.le]
  have hp : 0 < (√a)⁻¹ := inv_pos.2 (Real.sqrt_pos.2 ha)
  have hd : false = decide ((√a)⁻¹ < 0) := by simp
  simp only [frsqBits, hx, if_neg hm, hneg]
  simp only [Bool.false_eq_true, if_false]
  rw [hd]
  rw [abs_of_pos ha] at h1
  exact roundPos_rounds 0 mode r sat _ _ (by norm_num) hp.ne' (by rw [abs_of_pos hp, h1]; exact PosReal.rsqrt_is m e hm)

theorem scaled_real (neg : Bool) (m k : Nat) : ((scaled neg m k : Int) : ℝ) = (if neg then -1 else 1) * ((m : ℝ) * 2 ^ k) := by
  unfold scaled; cases neg <;> simp

theorem addVal_is (mode : Nat) {x y : Val} {a b : ℝ} (hx : x.is a) (hy : y.is b) : (addVal mode x y).is (a + b) := by
  obtain ⟨p, m, e, rfl, rfl⟩ := hx
  obtain ⟨q, n, f, rfl, rfl⟩ := hy
  simp only [addVal]
  set g := min e f with hg
  have hs : ((scaled p m (e - g).toNat + scaled q n (f - g).toNat : Int) : ℝ) * 2 ^ g
      = (if p then -1 else 1) * ((m : ℝ) * 2 ^ e) + (if q then -1 else 1) * ((n : ℝ) * 2 ^ f) := by
    push_cast
    rw [scaled_real, scaled_real, add_mul, ← zpow_natCast, ← zpow_natCast, Int.toNat_of_nonneg (by omega), Int.toNat_of_nonneg (by omega),
      mul_assoc, mul_assoc, mul_assoc, mul_assoc, ← zpow_add₀ (by norm_num : (2 : ℝ) ≠ 0), ← zpow_add₀ (by norm_num : (2 : ℝ) ≠ 0)]
    simp
  set z := scaled p m (e - g).toNat + scaled q n (f - g).toNat with hz
  rw [← hs]
  split
  · next h => exact ⟨_, _, _, rfl, by rw [h]; simp⟩
  · next h =>
    refine ⟨_, _, _, rfl, ?_⟩
    rw [← mul_assoc]
    congr 1
    have ha : ((z.natAbs : Nat) : ℝ) = |(z : ℝ)| := by rw [Nat.cast_natAbs]; simp
    rw [ha]
    rcases lt_or_ge z 0 with h0 | h0
    · have : (z : ℝ) < 0 := by exact_mod_cast h0
      simp [h0, abs_of_neg this]
    · have : (0 : ℝ) ≤ z := by exact_mod_cast h0
      simp [not_lt.2 h0, abs_of_nonneg this]

theorem mulVal_is {x y : Val} {a b : ℝ} (hx : x.is a) (hy : y.is b) : (mulVal x y).is (a * b) := by
  obtain ⟨p, m, e, rfl, rfl⟩ := hx
  obtain ⟨q, n, f, rfl, rfl⟩ := hy
  refine ⟨_, _, _, rfl, ?_⟩
  rw [zpow_add₀ (by norm_num : (2 : ℝ) ≠ 0)]
  cases p <;> cases q <;> (push_cast; simp; ring)

theorem negVal_is {x : Val} {a : ℝ} (hx : x.is a) : (negVal x).is (-a) := by
  obtain ⟨p, m, e, rfl, rfl⟩ := hx
  exact ⟨_, _, _, rfl, by cases p <;> simp⟩

/-- The value of a finite code of a format below FP8. -/
theorem valOf_sign (fmt x : Nat) (hf : fmt < 3) (hx : x < 2 ^ fmtBits fmt) :
    let h := 2 ^ (fmtBits fmt - 1)
    let inf := (2 ^ expBits fmt - 1) * 2 ^ fracBits fmt
    let neg := decide (h ≤ x)
    let c := x % h
    (∀ m e, c < inf → valOf fmt c = .fin false m e → valOf fmt x = .fin neg m e) ∧ (c = inf → valOf fmt x = .inf neg) ∧ (inf < c → valOf fmt x = .nan) := by
  have : fmt = 0 ∨ fmt = 1 ∨ fmt = 2 := by omega
  rcases this with rfl | rfl | rfl <;>
  · simp only [fmtBits, expBits, fracBits] at *
    norm_num at hx ⊢
    simp only [valOf, decodeIeee, fmtBits, fracBits, expBits, biasOf]
    norm_num
    refine ⟨?_, ?_, ?_⟩
    · intro m e h
      split_ifs <;> first
        | (exfalso; omega)
        | (rw [Val.fin.injEq, Val.fin.injEq, decide_eq_decide]
           rintro ⟨-, h2, h3⟩
           exact ⟨by omega, by omega, by omega⟩)
    · intro h
      split_ifs <;> first
        | (exfalso; omega)
        | (rw [Val.inf.injEq, decide_eq_decide]; omega)
    · intro h
      split_ifs <;> first
        | (exfalso; omega)
        | rfl

theorem code_zero_or_pos (fmt c m : Nat) (e : Int) (hf : fmt < 3) (hc : c < (2 ^ expBits fmt - 1) * 2 ^ fracBits fmt) (h : valOf fmt c = .fin false m e) :
    m = 0 ↔ c = 0 := by
  rw [valOf_code fmt c hf hc, Val.fin.injEq] at h
  have hp : 0 < 2 ^ fracBits fmt := by positivity
  rw [← h.2.1]
  split <;> omega

/-- A greater finite code has a greater value. -/
theorem code_lt (fmt : Nat) (hf : fmt < 3) : ∀ (n c : Nat) (a b : ℝ), c + (n + 1) < (2 ^ expBits fmt - 1) * 2 ^ fracBits fmt →
    (valOf fmt c).is a → (valOf fmt (c + (n + 1))).is b → a < b
  | 0, c, a, b, hc, ha, hb => by
    have := code_next fmt c b hf (by omega) (fun _ => hb) (fun h => absurd h (by omega))
    rw [valOf_code fmt c hf (by omega), Val.is_fin] at ha
    rw [this, ha]
    push_cast
    have : (0 : ℝ) < (2 : ℝ) ^ (((max 1 (c / 2 ^ fracBits fmt) : Nat) : Int) - biasOf fmt - fracBits fmt) := by positivity
    push_cast at this
    linarith
  | n + 1, c, a, b, hc, ha, hb => by
    have hv := valOf_code fmt (c + (n + 1)) hf (by omega)
    obtain ⟨z, hm⟩ : ∃ z, (valOf fmt (c + (n + 1))).is z := ⟨_, _, _, _, hv, rfl⟩
    exact lt_trans (code_lt fmt hf n c a _ (by omega) ha hm) (code_lt fmt hf 0 _ _ b (by omega) hm hb)

/-- A magnitude code's extended value. -/
def MagAt (fmt c : Nat) (u : EReal) : Prop :=
  (c = (2 ^ expBits fmt - 1) * 2 ^ fracBits fmt ∧ u = ⊤) ∨ (c < (2 ^ expBits fmt - 1) * 2 ^ fracBits fmt ∧ ∃ b : ℝ, (valOf fmt c).is b ∧ u = b)

theorem MagAt.lt {fmt c d : Nat} {u v : EReal} (hf : fmt < 3) (hu : MagAt fmt c u) (hv : MagAt fmt d v) (h : c < d) : u < v := by
  rcases hu with ⟨rfl, rfl⟩ | ⟨hc, a, ha, rfl⟩
  · rcases hv with ⟨rfl, rfl⟩ | ⟨hd, b, hb, rfl⟩ <;> omega
  · rcases hv with ⟨rfl, rfl⟩ | ⟨hd, b, hb, rfl⟩
    · exact EReal.coe_lt_top a
    · obtain ⟨n, rfl⟩ : ∃ n, d = c + (n + 1) := ⟨d - c - 1, by omega⟩
      exact_mod_cast code_lt fmt hf n c a b hd ha hb

theorem MagAt.zero {fmt : Nat} {u : EReal} (hf : fmt < 3) (hu : MagAt fmt 0 u) : u = 0 := by
  have hp : 0 < (2 ^ expBits fmt - 1) * 2 ^ fracBits fmt := by
    have : fmt = 0 ∨ fmt = 1 ∨ fmt = 2 := by omega
    rcases this with rfl | rfl | rfl <;> decide
  rcases hu with ⟨h, -⟩ | ⟨hc, a, ha, rfl⟩
  · omega
  · rw [valOf_code fmt 0 hf hp, Val.is_fin] at ha
    simp [ha]

theorem MagAt.eq {fmt c : Nat} {u v : EReal} (hu : MagAt fmt c u) (hv : MagAt fmt c v) : u = v := by
  rcases hu with ⟨rfl, rfl⟩ | ⟨hc, a, ⟨_, _, _, ha, rfl⟩, rfl⟩
  · rcases hv with ⟨-, rfl⟩ | ⟨hd, b, hb, rfl⟩
    · rfl
    · omega
  · rcases hv with ⟨rfl, rfl⟩ | ⟨hd, b, ⟨_, _, _, hb, rfl⟩, rfl⟩
    · omega
    · rw [ha, Val.fin.injEq] at hb
      obtain ⟨rfl, rfl, rfl⟩ := hb
      rfl

theorem Val.isExt_mag {fmt x : Nat} {a : EReal} (hf : fmt < 3) (hx : x < 2 ^ fmtBits fmt) (ha : (valOf fmt x).isExt a) :
    ∃ u, MagAt fmt (x % 2 ^ (fmtBits fmt - 1)) u ∧ a = if 2 ^ (fmtBits fmt - 1) ≤ x then -u else u := by
  obtain ⟨h1, h2, h3⟩ := valOf_sign fmt x hf hx
  rcases Nat.lt_trichotomy (x % 2 ^ (fmtBits fmt - 1)) ((2 ^ expBits fmt - 1) * 2 ^ fracBits fmt) with h | h | h
  · have hc := valOf_code fmt _ hf h
    have hx := h1 _ _ h hc
    rw [hx] at ha
    rcases ha with ⟨h, -⟩ | ⟨h, -⟩ | ⟨b, hb, rfl⟩
    · cases h
    · cases h
    · refine ⟨_, .inr ⟨h, _, ⟨_, _, _, hc, rfl⟩, rfl⟩, ?_⟩
      obtain ⟨_, _, _, he, rfl⟩ := hb
      rw [Val.fin.injEq] at he
      obtain ⟨rfl, rfl, rfl⟩ := he
      by_cases hn : 2 ^ (fmtBits fmt - 1) ≤ x
      · simp only [hn, if_true, decide_true, Bool.false_eq_true, if_false]
        rw [← EReal.coe_neg, one_mul, neg_one_mul]
      · simp only [hn, if_false, decide_false]
  · have hx := h2 h
    rw [hx] at ha
    refine ⟨⊤, .inl ⟨h, rfl⟩, ?_⟩
    by_cases hn : 2 ^ (fmtBits fmt - 1) ≤ x
    · rw [if_pos hn]
      simp only [hn, decide_true] at ha
      rcases ha with ⟨h, -⟩ | ⟨-, rfl⟩ | ⟨b, ⟨_, _, _, h, _⟩, _⟩
      · cases h
      · simp
      · cases h
    · rw [if_neg hn]
      simp only [hn, decide_false] at ha
      rcases ha with ⟨-, rfl⟩ | ⟨h, -⟩ | ⟨b, ⟨_, _, _, h, _⟩, _⟩
      · rfl
      · cases h
      · cases h
  · have hx := h3 h
    rw [hx] at ha
    rcases ha with ⟨h, -⟩ | ⟨h, -⟩ | ⟨b, ⟨_, _, _, h, _⟩, _⟩ <;> cases h

/-- The order of codes, in which both zeros are equal. -/
def codeKey (fmt x : Nat) : Int := if 2 ^ (fmtBits fmt - 1) ≤ x then -((x % 2 ^ (fmtBits fmt - 1) : Nat) : Int) else ((x % 2 ^ (fmtBits fmt - 1) : Nat) : Int)

theorem lt_of_codeKey {fmt x y : Nat} {a b : EReal} (hf : fmt < 3) (hx : x < 2 ^ fmtBits fmt) (hy : y < 2 ^ fmtBits fmt)
    (ha : (valOf fmt x).isExt a) (hb : (valOf fmt y).isExt b) (h : codeKey fmt x < codeKey fmt y) : a < b := by
  obtain ⟨u, hu, rfl⟩ := Val.isExt_mag hf hx ha
  obtain ⟨v, hv, rfl⟩ := Val.isExt_mag hf hy hb
  have hz : MagAt fmt 0 0 := by
    have hp : 0 < (2 ^ expBits fmt - 1) * 2 ^ fracBits fmt := by
      have : fmt = 0 ∨ fmt = 1 ∨ fmt = 2 := by omega
      rcases this with rfl | rfl | rfl <;> decide
    refine .inr ⟨hp, 0, ⟨_, _, _, valOf_code fmt 0 hf hp, ?_⟩, by simp⟩
    simp
  have pos : ∀ {c w}, MagAt fmt c w → 0 < c → 0 < w := fun hw hc => MagAt.lt hf hz hw hc
  have nonneg : ∀ {c w}, MagAt fmt c w → 0 ≤ w := fun {c w} hw => by
    rcases Nat.eq_zero_or_pos c with rfl | hc
    · rw [MagAt.zero hf hw]
    · exact (pos hw hc).le
  unfold codeKey at h
  by_cases h1 : 2 ^ (fmtBits fmt - 1) ≤ x <;> by_cases h2 : 2 ^ (fmtBits fmt - 1) ≤ y <;> simp only [h1, h2, if_true, if_false] at h ⊢
  · exact EReal.neg_lt_neg_iff.2 (MagAt.lt hf hv hu (by omega))
  · rcases Nat.eq_zero_or_pos (x % 2 ^ (fmtBits fmt - 1)) with hc | hc
    · rw [hc] at hu
      rw [MagAt.zero hf hu, neg_zero]
      exact pos hv (by omega)
    · exact lt_of_lt_of_le (by rw [EReal.neg_lt_comm, neg_zero]; exact pos hu hc) (nonneg hv)
  · omega
  · exact MagAt.lt hf hu hv (by omega)

theorem eq_of_codeKey {fmt x y : Nat} {a b : EReal} (hf : fmt < 3) (hx : x < 2 ^ fmtBits fmt) (hy : y < 2 ^ fmtBits fmt)
    (ha : (valOf fmt x).isExt a) (hb : (valOf fmt y).isExt b) (h : codeKey fmt x = codeKey fmt y) : a = b := by
  obtain ⟨u, hu, rfl⟩ := Val.isExt_mag hf hx ha
  obtain ⟨v, hv, rfl⟩ := Val.isExt_mag hf hy hb
  unfold codeKey at h
  have hz : ∀ {w}, MagAt fmt 0 w → -w = 0 := fun hw => by rw [MagAt.zero hf hw, neg_zero]
  by_cases h1 : 2 ^ (fmtBits fmt - 1) ≤ x <;> by_cases h2 : 2 ^ (fmtBits fmt - 1) ≤ y <;> simp only [h1, h2, if_true, if_false] at h ⊢
  · have : x % 2 ^ (fmtBits fmt - 1) = y % 2 ^ (fmtBits fmt - 1) := by omega
    rw [this] at hu; rw [hu.eq hv]
  · have e1 : x % 2 ^ (fmtBits fmt - 1) = 0 := by omega
    have e2 : y % 2 ^ (fmtBits fmt - 1) = 0 := by omega
    rw [e1] at hu; rw [e2] at hv; rw [hz hu, MagAt.zero hf hv]
  · have e1 : x % 2 ^ (fmtBits fmt - 1) = 0 := by omega
    have e2 : y % 2 ^ (fmtBits fmt - 1) = 0 := by omega
    rw [e1] at hu; rw [e2] at hv; rw [hz hv, MagAt.zero hf hu]
  · have : x % 2 ^ (fmtBits fmt - 1) = y % 2 ^ (fmtBits fmt - 1) := by omega
    rw [this] at hu; rw [hu.eq hv]

/-- Codes are ordered as their values. -/
theorem codeKey_iff {fmt x y : Nat} {a b : EReal} (hf : fmt < 3) (hx : x < 2 ^ fmtBits fmt) (hy : y < 2 ^ fmtBits fmt)
    (ha : (valOf fmt x).isExt a) (hb : (valOf fmt y).isExt b) : (a < b ↔ codeKey fmt x < codeKey fmt y) ∧ (a = b ↔ codeKey fmt x = codeKey fmt y) := by
  have l1 := lt_of_codeKey hf hx hy ha hb
  have l2 := lt_of_codeKey hf hy hx hb ha
  have l3 := eq_of_codeKey hf hx hy ha hb
  rcases lt_trichotomy (codeKey fmt x) (codeKey fmt y) with h | h | h
  · exact ⟨⟨fun _ => h, fun _ => l1 h⟩, ⟨fun e => absurd (l1 h) (e ▸ lt_irrefl _), fun e => absurd e h.ne⟩⟩
  · exact ⟨⟨fun e => absurd (l3 h) e.ne, fun e => absurd h e.ne⟩, ⟨fun _ => h, fun _ => l3 h⟩⟩
  · exact ⟨⟨fun e => absurd (l2 h) (not_lt.2 e.le), fun e => absurd h (not_lt.2 e.le)⟩, ⟨fun e => absurd (l2 h) (e ▸ lt_irrefl _), fun e => absurd e h.ne'⟩⟩

theorem Val.isExt_not_nan {v : Val} {a : EReal} (h : v.isExt a) : v ≠ .nan := by
  rcases h with ⟨rfl, -⟩ | ⟨rfl, -⟩ | ⟨_, ⟨_, _, _, rfl, _⟩, _⟩ <;> simp

/-- FMIN and FMAX give the encoding of the lesser and of the greater value. -/
theorem fminBits_of_lt {fmt x y : Nat} {a b : EReal} (hf : fmt < 3) (hx : x < 2 ^ fmtBits fmt) (hy : y < 2 ^ fmtBits fmt)
    (ha : (valOf fmt x).isExt a) (hb : (valOf fmt y).isExt b) (h : a < b) :
    fminBits fmt x y = x ∧ fmaxBits fmt x y = y ∧ fminBits fmt y x = x ∧ fmaxBits fmt y x = y := by
  have hk := (codeKey_iff hf hx hy ha hb).1.1 h
  have nx : isNan fmt x = false := by simpa [isNan] using Val.isExt_not_nan ha
  have ny : isNan fmt y = false := by simpa [isNan] using Val.isExt_not_nan hb
  have hxy : orderKey fmt x < orderKey fmt y := by
    have hd : ∀ z, z < 2 ^ fmtBits fmt → (z / 2 ^ (fmtBits fmt - 1) % 2 = 1 ↔ 2 ^ (fmtBits fmt - 1) ≤ z) := by
      intro z hz
      have : fmt = 0 ∨ fmt = 1 ∨ fmt = 2 := by omega
      rcases this with rfl | rfl | rfl <;> (simp only [fmtBits] at *; omega)
    simp only [orderKey, hd x hx, hd y hy]
    unfold codeKey at hk
    split_ifs at hk ⊢ <;> omega
  simp only [fminBits, fmaxBits, nx, ny]
  simp only [Bool.false_and, Bool.false_eq_true, if_false]
  refine ⟨if_pos hxy.le, if_neg (not_le.2 hxy), if_neg (not_le.2 hxy), if_pos hxy.le⟩

/-- FSETP's relations are those of the values. -/
theorem fcompare_iff {x y : Nat} {a b : EReal} (hx : x < 2 ^ 32) (hy : y < 2 ^ 32) (ha : (valOf 0 x).isExt a) (hb : (valOf 0 y).isExt b) (k : Nat) (hk : k = 0 ∨ k = 8) :
    (fcompare k x y = true ↔ a = b) ∧ (fcompare (k + 1) x y = true ↔ a < b) ∧ (fcompare (k + 2) x y = true ↔ a ≤ b)
    ∧ (fcompare (k + 3) x y = true ↔ b < a) ∧ (fcompare (k + 4) x y = true ↔ b ≤ a) ∧ (fcompare (k + 5) x y = true ↔ a ≠ b) := by
  obtain ⟨h1, h2⟩ := codeKey_iff (fmt := 0) (by norm_num) hx hy ha hb
  obtain ⟨h3, -⟩ := codeKey_iff (fmt := 0) (by norm_num) hy hx hb ha
  have nx : isNan 0 x = false := by simpa [isNan] using Val.isExt_not_nan ha
  have ny : isNan 0 y = false := by simpa [isNan] using Val.isExt_not_nan hb
  have hkey : ∀ z, z < 2 ^ 32 → (if z % 2 ^ 31 = 0 then (0 : Int) else (if z ≥ 2 ^ 31 then -((z % 2 ^ 31 : Nat) : Int) else ((z : Nat) : Int))) = codeKey 0 z := by
    intro z hz
    simp only [codeKey, fmtBits]
    split_ifs <;> omega
  rcases hk with rfl | rfl <;>
  · simp only [fcompare, nx, ny, hkey x hx, hkey y hy]
    simp only [Bool.or_false, Bool.false_eq_true, if_false, decide_eq_true_eq]
    norm_num
    refine ⟨h2.symm, h1.symm, ?_, h3.symm, ?_, by rw [h2]⟩
    · rw [le_iff_lt_or_eq, le_iff_lt_or_eq, h1, h2]
    · rw [← not_lt, ← not_lt, h1]

/-- What an integer format keeps of a real. -/
theorem splitInt_eq {v : PosReal} {x : ℝ} (hv : v.Is x) :
    let t := (x - (⌊x⌋₊ : ℝ)) / (((⌊x⌋₊ : ℝ) + 1) - ⌊x⌋₊)
    0 ≤ t ∧ (splitInt v).c = ⌊x⌋₊ ∧ (splitInt v).t32 = ⌊t * 2 ^ 32⌋₊
      ∧ ((splitInt v).rest = false ↔ (⌊t * 2 ^ 32⌋₊ : ℝ) = t * 2 ^ 32) := by
  have hx := hv.pos
  have h1 := Nat.floor_le hx.le
  have h2 := Nat.lt_floor_add_one x
  have ht : (x - (⌊x⌋₊ : ℝ)) / (((⌊x⌋₊ : ℝ) + 1) - ⌊x⌋₊) = x - ⌊x⌋₊ := by rw [add_sub_cancel_left, div_one]
  simp only [ht]
  set c := ⌊x⌋₊
  have ht0 : (0 : ℝ) ≤ (x - c) * 2 ^ 32 := mul_nonneg (by linarith) (by norm_num)
  have htl : ⌊(x - (c : ℝ)) * 2 ^ 32⌋₊ < 2 ^ 32 := by
    rw [Nat.floor_lt ht0]; push_cast; nlinarith
  have hz : x * (2 : ℝ) ^ (32 : Int) = (x - c) * 2 ^ 32 + ((c * 2 ^ 32 : Nat) : ℝ) := by
    rw [show (32 : Int) = ((32 : Nat) : Int) by rfl, zpow_natCast]; push_cast; ring
  have hfl : ⌊x * (2 : ℝ) ^ (32 : Int)⌋₊ = ⌊(x - (c : ℝ)) * 2 ^ 32⌋₊ + c * 2 ^ 32 := by
    rw [hz, Nat.floor_add_natCast ht0]
  refine ⟨by linarith, ?_, ?_, ?_⟩
  · simp only [splitInt, hv.floor, hfl]
    rw [Nat.add_mul_div_right _ _ (by norm_num), Nat.div_eq_of_lt htl, Nat.zero_add]
  · simp only [splitInt, hv.floor, hfl]
    rw [Nat.add_mul_mod_self_right, Nat.mod_eq_of_lt htl]
  · simp only [splitInt, Bool.not_eq_false', hv.exact, hfl]
    rw [hz]
    push_cast
    constructor
    · intro h; linarith
    · intro h; rw [h]

/-- Wrapping is the remainder (R95). -/
theorem wrapN_eq (y : Int) (n : Nat) : ((wrapN y n : Nat) : Int) = y % 2 ^ n := by
  unfold wrapN
  have : (0 : Int) ≤ y % 2 ^ n := Int.emod_nonneg _ (by positivity)
  rw [Int.toNat_of_nonneg] <;> (push_cast; omega)

/-- Saturation to an integer format (R74). -/
theorem wrapN_sat (dst : Nat) (z : Int) (n : Nat) (_ : n = fmtBits dst) :
    ((wrapN (if isSigned dst then satS n z else satU n z) n : Nat) : Int)
      = (max (if dst % 2 = 0 then -2 ^ (n - 1) else 0) (min (if dst % 2 = 0 then 2 ^ (n - 1) - 1 else 2 ^ n - 1) z)) % 2 ^ n := by
  rw [wrapN_eq]
  unfold isSigned satS satU
  by_cases hd : dst % 2 = 0 <;> simp [hd]

/-- A finite value other than zero, converted to an integer format: its neighbour, saturated. -/
theorem convertVal_int (dst mode r : Nat) (sat : Bool) (v : Val) (a : ℝ) (hd : 8 ≤ dst) (ha : a ≠ 0) (hv : v.is a) :
    let n := fmtBits dst
    let c := ⌊|a|⌋₊
    ∀ u : Nat, (roundsUp mode (c % 2 = 1) a c (c + 1) r → u = c + 1) → (¬ roundsUp mode (c % 2 = 1) a c (c + 1) r → u = c) →
    ((convertVal dst mode sat v r : Nat) : Int)
      = (max (if dst % 2 = 0 then -2 ^ (n - 1) else 0) (min (if dst % 2 = 0 then 2 ^ (n - 1) - 1 else 2 ^ n - 1) (if a < 0 then -(u : Int) else u))) % 2 ^ n := by
  intro n c u h1 h2
  obtain ⟨neg, m, e, rfl, _⟩ := id hv
  obtain ⟨g1, g2⟩ := Val.is_abs hv
  obtain ⟨hm, rfl⟩ := g2 ha
  have hp : (PosReal.dyadic m e).Is |a| := by rw [g1]; exact PosReal.dyadic_is m e hm
  obtain ⟨t0, tc, tt, tr⟩ := splitInt_eq hp
  have hch := chooseHi_iff mode r a (c : ℝ) ((c : ℝ) + 1) (splitInt (.dyadic m e)) ha t0 tt tr
  rw [tc] at hch
  have hcode : (if chooseHi mode (decide (a < 0)) (splitInt (.dyadic m e)) r then c + 1 else c) = u := by
    split
    · next h => exact (h1 (hch.1 h)).symm
    · next h => exact (h2 fun e => h (hch.2 e)).symm
  obtain ⟨k, rfl⟩ : ∃ k, dst = k + 8 := ⟨dst - 8, by omega⟩
  rw [← wrapN_sat (k + 8) _ n rfl]
  simp only [convertVal, roundFin, if_neg hm, roundPos, tc]
  have : ((if chooseHi mode (decide (a < 0)) (splitInt (.dyadic m e)) r = true then (c : Int) + 1 else c)) = u := by
    rw [← hcode]; split <;> simp
  rw [this]
  simp [n]

theorem convertVal_rounds (fmt mode r : Nat) (sat : Bool) (v : Val) (a : ℝ) (hf : fmt < 3) (ha : a ≠ 0) (hv : v.is a) :
    Rounds fmt mode sat a r (convertVal fmt mode sat v r) := by
  obtain ⟨neg, m, e, rfl, _⟩ := id hv
  exact deliver_rounds fmt mode r sat _ a hf ha hv

/-- The value of an integer code. -/
theorem intValue (src x : Nat) (z : Int) (h1 : 8 ≤ src) (h2 : src < 16)
    (hz : if src % 2 = 0 then -2 ^ (fmtBits src - 1) ≤ z ∧ z < 2 ^ (fmtBits src - 1) else 0 ≤ z ∧ z < 2 ^ fmtBits src)
    (hx : (x : Int) % 2 ^ fmtBits src = z % 2 ^ fmtBits src) :
    (if isSigned src then sextN (x % 2 ^ fmtBits src) (fmtBits src) else ((x % 2 ^ fmtBits src : Nat) : Int)) = z := by
  interval_cases src <;> (simp only [fmtBits, isSigned, sextN] at *; norm_num at *)
  all_goals omega

theorem convertInt_eq (src dst x : Nat) (sat : Bool) (z : Int) (h1 : 8 ≤ src) (h2 : src < 16)
    (hz : if src % 2 = 0 then -2 ^ (fmtBits src - 1) ≤ z ∧ z < 2 ^ (fmtBits src - 1) else 0 ≤ z ∧ z < 2 ^ fmtBits src)
    (hx : (x : Int) % 2 ^ fmtBits src = z % 2 ^ fmtBits src) :
    ((convertInt src dst sat x : Nat) : Int) =
      (if sat then max (if dst % 2 = 0 then -2 ^ (fmtBits dst - 1) else 0) (min (if dst % 2 = 0 then 2 ^ (fmtBits dst - 1) - 1 else 2 ^ fmtBits dst - 1) z) else z) % 2 ^ fmtBits dst := by
  have hv := intValue src x z h1 h2 hz hx
  simp only [convertInt, hv]
  cases sat with
  | true => simpa using wrapN_sat dst z _ rfl
  | false => simpa using wrapN_eq z (fmtBits dst)

theorem valOf_int (src x : Nat) (z : Int) (h1 : 8 ≤ src) (h2 : src < 16)
    (hz : if src % 2 = 0 then -2 ^ (fmtBits src - 1) ≤ z ∧ z < 2 ^ (fmtBits src - 1) else 0 ≤ z ∧ z < 2 ^ fmtBits src)
    (hx : (x : Int) % 2 ^ fmtBits src = z % 2 ^ fmtBits src) : (valOf src x).is z := by
  have hv := intValue src x z h1 h2 hz hx
  obtain ⟨k, rfl⟩ : ∃ k, src = k + 8 := ⟨src - 8, by omega⟩
  have he : valOf (k + 8) x = if isSigned (k + 8) then .fin (sextN (x % 2 ^ fmtBits (k + 8)) (fmtBits (k + 8)) < 0) (sextN (x % 2 ^ fmtBits (k + 8)) (fmtBits (k + 8))).natAbs 0
      else .fin false (x % 2 ^ fmtBits (k + 8)) 0 := rfl
  rw [he]
  cases hs : isSigned (k + 8) with
  | true =>
    rw [hs, if_pos rfl] at hv
    rw [if_pos rfl, hv]
    refine ⟨_, _, _, rfl, ?_⟩
    have ha : ((z.natAbs : Nat) : ℝ) = |(z : ℝ)| := by rw [Nat.cast_natAbs]; simp
    rw [ha]
    rcases lt_or_ge z 0 with h0 | h0
    · have : (z : ℝ) < 0 := by exact_mod_cast h0
      simp [h0, abs_of_neg this]
    · have : (0 : ℝ) ≤ z := by exact_mod_cast h0
      simp [not_lt.2 h0, abs_of_nonneg this]
  | false =>
    rw [hs] at hv
    simp only [Bool.false_eq_true, if_false] at hv ⊢
    refine ⟨_, _, _, rfl, ?_⟩
    rw [← hv, Int.cast_natCast]
    simp

/-- The value of a code of FP32, FP16, BF16 or E4M3, by its sign, exponent and fraction (R75, R77). -/
theorem valOf_ieee (fmt s e m : Nat) (hf : fmt < 4) (hs : s < 2) (he : e < 2 ^ expBits fmt) (hm : m < 2 ^ fracBits fmt) :
      let v := valOf fmt (s * 2 ^ (fmtBits fmt - 1) + e * 2 ^ fracBits fmt + m)
      let w := fracBits fmt
      let bias : Int := match fmt with | 1 => 15 | 3 => 7 | _ => 127
      let special := if fmt = 3 then e = 15 ∧ m = 7 else e = 2 ^ expBits fmt - 1
      (¬ special → e = 0 → v.is ((-1) ^ s * ((m : ℝ) / 2 ^ w * 2 ^ (1 - bias))))
      ∧ (¬ special → e ≠ 0 → v.is ((-1) ^ s * ((1 + (m : ℝ) / 2 ^ w) * 2 ^ ((e : Int) - bias))))
      ∧ (special → v = if fmt < 3 ∧ m = 0 then .inf (decide (s = 1)) else .nan) := by
  have hb : (match fmt with | 1 => (15 : Int) | 3 => 7 | _ => 127) = biasOf fmt := by
    interval_cases fmt <;> rfl
  have hv : valOf fmt (s * 2 ^ (fmtBits fmt - 1) + e * 2 ^ fracBits fmt + m) =
      if fmt = 3 then
        if e = 15 ∧ m = 7 then .nan
        else if e = 0 then .fin (decide (s = 1)) m (1 - biasOf fmt - fracBits fmt) else .fin (decide (s = 1)) (2 ^ fracBits fmt + m) (e - biasOf fmt - fracBits fmt)
      else if e = 2 ^ expBits fmt - 1 then (if m = 0 then .inf (decide (s = 1)) else .nan)
      else if e = 0 then .fin (decide (s = 1)) m (1 - biasOf fmt - fracBits fmt)
      else .fin (decide (s = 1)) (2 ^ fracBits fmt + m) (e - biasOf fmt - fracBits fmt) := by
    interval_cases fmt <;> simp only [valOf, decodeIeee, fmtBits, fracBits, expBits, biasOf]
    · replace he : e < 2 ^ 8 := he
      replace hm : m < 2 ^ 23 := hm
      have h1 : (s * 2 ^ (32 - 1) + e * 2 ^ 23 + m) % 2 ^ 32 = s * 2 ^ (32 - 1) + e * 2 ^ 23 + m := by omega
      have h2 : (s * 2 ^ (32 - 1) + e * 2 ^ 23 + m) / 2 ^ (23 + 8) % 2 = s := by omega
      have h3 : (s * 2 ^ (32 - 1) + e * 2 ^ 23 + m) / 2 ^ 23 % 2 ^ 8 = e := by omega
      have h4 : (s * 2 ^ (32 - 1) + e * 2 ^ 23 + m) % 2 ^ 23 = m := by omega
      rw [h1, h2, h3, h4]
    · replace he : e < 2 ^ 5 := he
      replace hm : m < 2 ^ 10 := hm
      have h1 : (s * 2 ^ (16 - 1) + e * 2 ^ 10 + m) % 2 ^ 16 = s * 2 ^ (16 - 1) + e * 2 ^ 10 + m := by omega
      have h2 : (s * 2 ^ (16 - 1) + e * 2 ^ 10 + m) / 2 ^ (10 + 5) % 2 = s := by omega
      have h3 : (s * 2 ^ (16 - 1) + e * 2 ^ 10 + m) / 2 ^ 10 % 2 ^ 5 = e := by omega
      have h4 : (s * 2 ^ (16 - 1) + e * 2 ^ 10 + m) % 2 ^ 10 = m := by omega
      rw [h1, h2, h3, h4]
    · replace he : e < 2 ^ 8 := he
      replace hm : m < 2 ^ 7 := hm
      have h1 : (s * 2 ^ (16 - 1) + e * 2 ^ 7 + m) % 2 ^ 16 = s * 2 ^ (16 - 1) + e * 2 ^ 7 + m := by omega
      have h2 : (s * 2 ^ (16 - 1) + e * 2 ^ 7 + m) / 2 ^ (7 + 8) % 2 = s := by omega
      have h3 : (s * 2 ^ (16 - 1) + e * 2 ^ 7 + m) / 2 ^ 7 % 2 ^ 8 = e := by omega
      have h4 : (s * 2 ^ (16 - 1) + e * 2 ^ 7 + m) % 2 ^ 7 = m := by omega
      rw [h1, h2, h3, h4]
    · replace he : e < 2 ^ 4 := he
      replace hm : m < 2 ^ 3 := hm
      have h1 : (s * 2 ^ (8 - 1) + e * 2 ^ 3 + m) % 2 ^ 8 = s * 2 ^ (8 - 1) + e * 2 ^ 3 + m := by omega
      have h2 : (s * 2 ^ (8 - 1) + e * 2 ^ 3 + m) / 2 ^ (3 + 4) % 2 = s := by omega
      have h3 : (s * 2 ^ (8 - 1) + e * 2 ^ 3 + m) / 2 ^ 3 % 2 ^ 4 = e := by omega
      have h4 : (s * 2 ^ (8 - 1) + e * 2 ^ 3 + m) % 2 ^ 3 = m := by omega
      rw [h1, h2, h3, h4]
  have hsgn : (if decide (s = 1) = true then (-1 : ℝ) else 1) = (-1) ^ s := by
    interval_cases s <;> simp
  intro v w bias special
  have hv' : v = _ := hv
  have hw : (2 : ℝ) ^ w ≠ 0 := by positivity
  have e1 : ∀ k : Int, (2 : ℝ) ^ (k - bias - (w : Int)) = 2 ^ (k - bias) / 2 ^ w := by
    intro k; rw [zpow_sub₀ (by norm_num : (2 : ℝ) ≠ 0), zpow_natCast]
  have hbias : bias = biasOf fmt := hb
  refine ⟨?_, ?_, ?_⟩
  · intro hn h0
    have : v = .fin (decide (s = 1)) m (1 - bias - w) := by
      rw [hv', hbias]
      by_cases h3 : fmt = 3
      · rw [if_pos h3, if_neg (by simpa only [special, if_pos h3] using hn), if_pos h0]
      · rw [if_neg h3, if_neg (by simpa only [special, if_neg h3] using hn), if_pos h0]
    rw [this]
    exact ⟨_, _, _, rfl, by rw [hsgn, e1]; field_simp⟩
  · intro hn h0
    have : v = .fin (decide (s = 1)) (2 ^ fracBits fmt + m) (e - bias - w) := by
      rw [hv', hbias]
      by_cases h3 : fmt = 3
      · rw [if_pos h3, if_neg (by simpa only [special, if_pos h3] using hn), if_neg h0]
      · rw [if_neg h3, if_neg (by simpa only [special, if_neg h3] using hn), if_neg h0]
    rw [this]
    refine ⟨_, _, _, rfl, ?_⟩
    rw [hsgn, e1]; push_cast; field_simp; simp [w]
  · intro h
    rw [hv']; simp only [special] at h
    by_cases h3 : fmt = 3
    · subst h3; simp_all
    · have : fmt < 3 := by omega
      simp_all

theorem addVal_nan (mode : Nat) (v : Val) : addVal mode v .nan = .nan ∧ addVal mode .nan v = .nan := by
  cases v <;> simp [addVal]

theorem mulVal_nan (v : Val) : mulVal v .nan = .nan ∧ mulVal .nan v = .nan := by
  cases v <;> simp [mulVal]

end Sys2Proof.Machine
end

