-- ==== Sys2Proof/Laws/Crew.lean ====
section
/-! SUPPORT. What the crew's reductions and votes compute. -/

namespace Sys2Proof.Machine

theorem sextN_bounds (n v : Nat) (hn : n = 32 ∨ n = 64) (hv : v < 2 ^ n) : sextN v n ≤ sextN (2 ^ (n - 1) - 1) n ∧ sextN (2 ^ (n - 1)) n ≤ sextN v n := by
  rcases hn with rfl | rfl
  · have e1 : sextN (2 ^ (32 - 1) - 1) 32 = 2147483647 := by decide
    have e2 : sextN (2 ^ (32 - 1)) 32 = -2147483648 := by decide
    rw [e1, e2]; simp only [sextN]; norm_num at hv ⊢; split_ifs <;> omega
  · have e1 : sextN (2 ^ (64 - 1) - 1) 64 = 9223372036854775807 := by decide
    have e2 : sextN (2 ^ (64 - 1)) 64 = -9223372036854775808 := by decide
    rw [e1, e2]; simp only [sextN]; norm_num at hv ⊢; split_ifs <;> omega

/-- A fold that keeps the better of two values ends with the best. -/
theorem foldl_pick {α : Type} (p : α → α → Bool) (P : α → α → Prop) (hp : ∀ m v, p m v = true → P v m) (hn : ∀ m v, p m v = false → P m v)
    (hr : ∀ a, P a a) (ht : ∀ a b c, P a b → P b c → P a c) :
    ∀ (l : List α) (m : α), let r := l.foldl (fun m v => if p m v then v else m) m
      (r = m ∨ r ∈ l) ∧ P r m ∧ ∀ v ∈ l, P r v := by
  intro l
  induction l with
  | nil => intro m; simp [hr]
  | cons a l ih =>
    intro m
    simp only [List.foldl_cons]
    obtain ⟨h1, h2, h3⟩ := ih (if p m a then a else m)
    refine ⟨?_, ?_, ?_⟩
    · rcases h1 with h | h
      · rw [h]; split <;> simp
      · exact .inr (List.mem_cons_of_mem _ h)
    · refine ht _ _ _ h2 ?_
      split
      · next h => exact hp _ _ h
      · exact hr _
    · intro v hv
      rcases List.mem_cons.1 hv with rfl | hv
      · refine ht _ _ _ h2 ?_
        split
        · exact hr _
        · next h => exact hn _ _ (by simpa using h)
      · exact h3 v hv

theorem xor_foldl_testBit (l : List Nat) (a j : Nat) : (l.foldl Nat.xor a).testBit j = (a.testBit j ^^ decide (l.countP (·.testBit j) % 2 = 1)) := by
  induction l generalizing a with
  | nil => simp
  | cons b l ih =>
    rw [List.foldl_cons, ih, List.countP_cons]
    have : (a.xor b).testBit j = (a.testBit j ^^ b.testBit j) := Nat.testBit_xor a b j
    rw [this]
    have hp : decide ((l.countP (·.testBit j) + 1) % 2 = 1) = !decide (l.countP (·.testBit j) % 2 = 1) := by
      rw [← decide_not]; congr 1; simp only [eq_iff_iff]; omega
    cases hb : b.testBit j <;> cases a.testBit j <;> simp_all

theorem and_foldl_testBit (l : List Nat) (a j : Nat) : (l.foldl Nat.land a).testBit j = (a.testBit j && l.all (·.testBit j)) := by
  induction l generalizing a with
  | nil => simp
  | cons b l ih =>
    rw [List.foldl_cons, ih]
    have : (a.land b).testBit j = (a.testBit j && b.testBit j) := Nat.testBit_and a b j
    rw [this]; simp [Bool.and_assoc]

theorem or_foldl_testBit (l : List Nat) (a j : Nat) : (l.foldl Nat.lor a).testBit j = (a.testBit j || l.any (·.testBit j)) := by
  induction l generalizing a with
  | nil => simp
  | cons b l ih =>
    rw [List.foldl_cons, ih]
    have : (a.lor b).testBit j = (a.testBit j || b.testBit j) := Nat.testBit_or a b j
    rw [this]; simp [Bool.or_assoc]

/-- The integer reductions of CREDUCE (R278). -/
theorem reduceOf_int (n : Nat) (l : List Nat) (hn : n = 32 ∨ n = 64) (hl : ∀ v ∈ l, v < 2 ^ n) :
    let r := fun op => reduceOf op n l
    r 0 = l.sum % 2 ^ n
    ∧ (l ≠ [] → r 1 ∈ l ∧ r 2 ∈ l ∧ r 3 ∈ l ∧ r 4 ∈ l ∧ ∀ v ∈ l, sextN (r 1) n ≤ sextN v n ∧ sextN v n ≤ sextN (r 2) n ∧ r 3 ≤ v ∧ v ≤ r 4)
    ∧ (∀ j < n, (r 5).testBit j = l.all (·.testBit j) ∧ (r 6).testBit j = l.any (·.testBit j) ∧ (r 7).testBit j = decide (l.countP (·.testBit j) % 2 = 1))
    ∧ (l = [] → r 1 = 2 ^ (n - 1) - 1 ∧ r 2 = 2 ^ (n - 1) ∧ r 3 = 2 ^ n - 1 ∧ r 4 = 0 ∧ r 8 = 0 ∧ r 9 = 0x7F800000 ∧ r 10 = 0xFF800000) := by
  refine ⟨?_, ?_, ?_, ?_⟩
  · simp [reduceOf, List.sum_eq_foldl]
  · intro hne
    have b1 := fun v hv => sextN_bounds n v hn hv
    have inj : ∀ v w, v < 2 ^ n → w < 2 ^ n → sextN v n = sextN w n → v = w := by
      intro v w hv hw
      rcases hn with rfl | rfl <;> (unfold sextN; norm_num at *; split_ifs <;> omega)
    have q1 := foldl_pick (fun m v => decide (sextN v n < sextN m n)) (fun a b => sextN a n ≤ sextN b n) (by intro m v; simp; omega) (by intro m v; simp) (by simp) (by intro a b c; omega) l (2 ^ (n - 1) - 1)
    have q2 := foldl_pick (fun m v => decide (sextN v n > sextN m n)) (fun a b => sextN b n ≤ sextN a n) (by intro m v; simp; omega) (by intro m v; simp) (by simp) (by intro a b c; omega) l (2 ^ (n - 1))
    have q3 := foldl_pick (fun m v => decide (v < m)) (fun a b => a ≤ b) (by intro m v; simp; omega) (by intro m v; simp) (by simp) (by intro a b c; omega) l (2 ^ n - 1)
    have q4 := foldl_pick (fun m v => decide (m < v)) (fun a b => b ≤ a) (by intro m v; simp; omega) (by intro m v; simp) (by simp) (by intro a b c; omega) l 0
    simp only [decide_eq_true_eq] at q1 q2 q3 q4
    have e3 : (fun m v : Nat => if v < m then v else m) = min := by funext m v; simp only [Nat.min_def]; split_ifs <;> omega
    have e4 : (fun m v : Nat => if m < v then v else m) = max := by funext m v; simp only [Nat.max_def]; split_ifs <;> omega
    rw [e3] at q3; rw [e4] at q4
    obtain ⟨v0, hv0⟩ := List.exists_mem_of_ne_nil l hne
    have lt1 : 2 ^ (n - 1) - 1 < 2 ^ n ∧ 2 ^ (n - 1) < 2 ^ n := by rcases hn with rfl | rfl <;> norm_num
    refine ⟨?_, ?_, ?_, ?_, fun v hv => ⟨q1.2.2 v hv, q2.2.2 v hv, q3.2.2 v hv, q4.2.2 v hv⟩⟩
    · rcases q1.1 with h | h
      · have := q1.2.2 v0 hv0
        rw [h] at this
        have := inj _ _ lt1.1 (hl v0 hv0) (le_antisymm this (b1 v0 (hl v0 hv0)).1)
        simp only [reduceOf]; rw [h, this]; exact hv0
      · exact h
    · rcases q2.1 with h | h
      · have := q2.2.2 v0 hv0
        rw [h] at this
        have := inj _ _ lt1.2 (hl v0 hv0) (le_antisymm (b1 v0 (hl v0 hv0)).2 this)
        simp only [reduceOf]; rw [h, this]; exact hv0
      · exact h
    · rcases q3.1 with h | h
      · have := q3.2.2 v0 hv0
        rw [h] at this
        have h3 := hl v0 hv0
        have : 2 ^ n - 1 = v0 := by omega
        simp only [reduceOf]; rw [h, this]; exact hv0
      · exact h
    · rcases q4.1 with h | h
      · have := q4.2.2 v0 hv0
        rw [h] at this
        have : 0 = v0 := by omega
        simp only [reduceOf]; rw [h, this]; exact hv0
      · exact h
  · intro j hj
    refine ⟨?_, ?_, ?_⟩
    · simp only [reduceOf]; rw [and_foldl_testBit]; simp [Nat.testBit_two_pow_sub_one, hj]
    · simp only [reduceOf]; rw [or_foldl_testBit]; simp
    · simp only [reduceOf]; rw [xor_foldl_testBit]; simp
  · rintro rfl
    simp [reduceOf]

theorem foldl_add_is (mode : Nat) : ∀ (l : List Nat) (as : List ℝ) (v : Val) (a : ℝ), List.Forall₂ (fun v a => (valOf 0 v).is a) l as → v.is a →
    (l.foldl (fun a u => addVal mode a (valOf 0 u)) v).is (a + as.sum)
  | [], _, v, a, h, hv => by cases h; simpa using hv
  | x :: l, _, v, a, h, hv => by
    cases h with
    | cons h1 h2 =>
      rw [List.foldl_cons, List.sum_cons, ← add_assoc]
      exact foldl_add_is mode l _ _ _ h2 (addVal_is mode hv h1)

theorem foldl_nan (mode : Nat) (l : List Nat) : l.foldl (fun a u => addVal mode a (valOf 0 u)) .nan = .nan := by
  induction l with
  | nil => rfl
  | cons x l ih => rw [List.foldl_cons, (addVal_nan mode _).2, ih]

theorem foldl_has_nan (mode : Nat) : ∀ (l : List Nat) (v : Val), (∃ x ∈ l, isNan 0 x = true) → l.foldl (fun a u => addVal mode a (valOf 0 u)) v = .nan
  | [], v, h => by simp at h
  | x :: l, v, h => by
    rw [List.foldl_cons]
    by_cases hx : isNan 0 x = true
    · have : valOf 0 x = .nan := by simpa [isNan] using hx
      rw [this, (addVal_nan mode _).1, foldl_nan]
    · obtain ⟨y, hy, hn⟩ := h
      rcases List.mem_cons.1 hy with rfl | hy
      · exact absurd hn hx
      · exact foldl_has_nan mode l _ ⟨y, hy, hn⟩

theorem orderKey_le {x y : Nat} {a b : EReal} (hx : x < 2 ^ 32) (hy : y < 2 ^ 32) (ha : (valOf 0 x).isExt a) (hb : (valOf 0 y).isExt b)
    (h : orderKey 0 x ≤ orderKey 0 y) : a ≤ b := by
  by_contra hc
  have := (codeKey_iff (fmt := 0) (by norm_num) hy hx hb ha).1.1 (not_le.1 hc)
  simp only [orderKey, codeKey, fmtBits] at *
  split_ifs at * <;> omega

theorem isExt_of {x : Nat} (h : isNan 0 x = false) : ∃ a, (valOf 0 x).isExt a := by
  cases hv : valOf 0 x with
  | nan => simp [isNan, hv] at h
  | inf n =>
    cases n
    · exact ⟨⊤, .inl ⟨rfl, rfl⟩⟩
    · exact ⟨⊥, .inr (.inl ⟨rfl, rfl⟩)⟩
  | fin n m e => exact ⟨_, .inr (.inr ⟨_, ⟨_, _, _, rfl, rfl⟩, rfl⟩)⟩

theorem foldl_minmax (l : List Nat) (v : Nat) (hv : isNan 0 v = false) (hl : ∀ x ∈ l, isNan 0 x = false) :
    (let r := l.foldl (fminBits 0) v; (r = v ∨ r ∈ l) ∧ ∀ x ∈ v :: l, orderKey 0 r ≤ orderKey 0 x)
    ∧ (let r := l.foldl (fmaxBits 0) v; (r = v ∨ r ∈ l) ∧ ∀ x ∈ v :: l, orderKey 0 x ≤ orderKey 0 r) := by
  induction l generalizing v with
  | nil => simp
  | cons a l ih =>
    have ha := hl a (by simp)
    have hmin : fminBits 0 v a = if orderKey 0 v ≤ orderKey 0 a then v else a := by simp [fminBits, hv, ha]
    have hmax : fmaxBits 0 v a = if orderKey 0 v ≥ orderKey 0 a then v else a := by simp [fmaxBits, hv, ha]
    have i1 := (ih (fminBits 0 v a) (by rw [hmin]; split <;> assumption) (fun x hx => hl x (by simp [hx]))).1
    have i2 := (ih (fmaxBits 0 v a) (by rw [hmax]; split <;> assumption) (fun x hx => hl x (by simp [hx]))).2
    simp only [List.foldl_cons]
    refine ⟨⟨?_, ?_⟩, ?_, ?_⟩
    · rcases i1.1 with h | h
      · rw [h, hmin]; split <;> simp
      · simp [h]
    · intro x hx
      have h0 := i1.2 _ List.mem_cons_self
      rcases List.mem_cons.1 hx with rfl | hx
      · refine le_trans h0 ?_; rw [hmin]; split <;> omega
      · rcases List.mem_cons.1 hx with rfl | hx
        · refine le_trans h0 ?_; rw [hmin]; split <;> omega
        · exact i1.2 x (List.mem_cons_of_mem _ hx)
    · rcases i2.1 with h | h
      · rw [h, hmax]; split <;> simp
      · simp [h]
    · intro x hx
      have h0 := i2.2 _ List.mem_cons_self
      rcases List.mem_cons.1 hx with rfl | hx
      · refine le_trans ?_ h0; rw [hmax]; split <;> omega
      · rcases List.mem_cons.1 hx with rfl | hx
        · refine le_trans ?_ h0; rw [hmax]; split <;> omega
        · exact i2.2 x (List.mem_cons_of_mem _ hx)

/-- The floating reductions of CREDUCE: the exact sum rounded once, and the extreme values that are not NaN (R278). -/
theorem reduceOf_float (l : List Nat) (hl : ∀ v ∈ l, v < 2 ^ 32) :
    let r := fun op => reduceOf op 32 l
    (∀ as : List ℝ, List.Forall₂ (fun v a => (valOf 0 v).is a) l as → as.sum ≠ 0 → Rounds 0 1 false as.sum 0 (r 8))
    ∧ ((∃ v ∈ l, isNan 0 v = true) → r 8 = 0x7FC00000)
    ∧ (l ≠ [] → (∀ v ∈ l, isNan 0 v = true) → r 9 = 0x7FC00000 ∧ r 10 = 0x7FC00000)
    ∧ (∀ (v : Nat) (a : EReal), v ∈ l → (valOf 0 v).isExt a →
        (r 9 ∈ l ∧ ∃ b, (valOf 0 (r 9)).isExt b ∧ b ≤ a) ∧ (r 10 ∈ l ∧ ∃ b, (valOf 0 (r 10)).isExt b ∧ a ≤ b)) := by
  refine ⟨?_, ?_, ?_, ?_⟩
  · intro as h hs
    cases h with
    | nil => simp at hs
    | cons h1 h2 =>
      simp only [reduceOf, List.sum_cons] at *
      exact deliver_rounds 0 1 0 false _ _ (by norm_num) hs (foldl_add_is 1 _ _ _ _ h2 h1)
  · intro h
    cases l with
    | nil => simp at h
    | cons v l =>
      have : l.foldl (fun a u => addVal 1 a (valOf 0 u)) (valOf 0 v) = .nan := by
        obtain ⟨y, hy, hn⟩ := h
        rcases List.mem_cons.1 hy with rfl | hy
        · have : valOf 0 y = .nan := by simpa [isNan] using hn
          rw [this, foldl_nan]
        · exact foldl_has_nan 1 l _ ⟨y, hy, hn⟩
      simp only [reduceOf, this, deliver, nanOf]
  · intro hne h
    have : l.filter (fun v => !isNan 0 v) = [] := by
      rw [List.filter_eq_nil_iff]; intro v hv; simp [h v hv]
    obtain ⟨v, l', rfl⟩ := List.exists_cons_of_ne_nil hne
    simp [reduceOf, this, nanOf]
  · intro v a hv ha
    have hvn : isNan 0 v = false := by simpa [isNan] using Val.isExt_not_nan ha
    have hmem : v ∈ l.filter (fun v => !isNan 0 v) := by simp [hv, hvn]
    obtain ⟨w, f, hf⟩ := List.exists_cons_of_ne_nil (List.ne_nil_of_mem hmem)
    have hall : ∀ x ∈ w :: f, x ∈ l ∧ isNan 0 x = false := by
      intro x hx
      rw [← hf] at hx
      simpa using hx
    have hne : l ≠ [] := List.ne_nil_of_mem hv
    obtain ⟨y, l', hy⟩ := List.exists_cons_of_ne_nil hne
    have m := foldl_minmax f w (hall w (by simp)).2 (fun x hx => (hall x (by simp [hx])).2)
    have e9 : reduceOf 9 32 l = f.foldl (fminBits 0) w := by simp only [reduceOf, hf]
    have e10 : reduceOf 10 32 l = f.foldl (fmaxBits 0) w := by simp only [reduceOf, hf]
    rw [hf] at hmem
    simp only [e9, e10]
    have r1 : f.foldl (fminBits 0) w ∈ w :: f := by rcases m.1.1 with h | h <;> simp [h]
    have r2 : f.foldl (fmaxBits 0) w ∈ w :: f := by rcases m.2.1 with h | h <;> simp [h]
    obtain ⟨b1, hb1⟩ := isExt_of (hall _ r1).2
    obtain ⟨b2, hb2⟩ := isExt_of (hall _ r2).2
    exact ⟨⟨(hall _ r1).1, b1, hb1, orderKey_le (hl _ (hall _ r1).1) (hl v hv) hb1 ha (m.1.2 v hmem)⟩,
      (hall _ r2).1, b2, hb2, orderKey_le (hl v hv) (hl _ (hall _ r2).1) ha hb2 (m.2.2 v hmem)⟩

theorem vote_stays (L : List Nat) : ∀ (l : List Nat) (m : Nat × Nat), (∀ v ∈ l, L.count v ≤ m.2) →
    l.foldl (fun (m : Nat × Nat) v => if L.count v > m.2 then (v, L.count v) else m) m = m
  | [], m, _ => rfl
  | a :: l, m, h => by
    rw [List.foldl_cons, if_neg (by have := h a (by simp); omega)]
    exact vote_stays L l m fun v hv => h v (by simp [hv])

/-- The first of the most frequent values of a list. -/
theorem vote_first (L : List Nat) : ∀ (l : List Nat) (m : Nat × Nat), (∃ v ∈ l, L.count v > m.2) →
    ∃ pre a post, l = pre ++ a :: post ∧ l.foldl (fun (m : Nat × Nat) v => if L.count v > m.2 then (v, L.count v) else m) m = (a, L.count a)
      ∧ m.2 < L.count a ∧ (∀ v ∈ pre, L.count v < L.count a) ∧ ∀ v ∈ l, L.count v ≤ L.count a
  | [], m, h => by simp at h
  | x :: l, m, h => by
    rw [List.foldl_cons]
    by_cases hx : L.count x > m.2
    · rw [if_pos hx]
      by_cases hl : ∃ v ∈ l, L.count v > L.count x
      · obtain ⟨pre, a, post, rfl, h2, h3, h4, h5⟩ := vote_first L l (x, L.count x) hl
        refine ⟨x :: pre, a, post, rfl, h2, lt_trans hx h3, ?_, ?_⟩
        · intro v hv
          rcases List.mem_cons.1 hv with rfl | hv
          · exact h3
          · exact h4 v hv
        · intro v hv
          rcases List.mem_cons.1 hv with rfl | hv
          · exact h3.le
          · exact h5 v hv
      · push Not at hl
        refine ⟨[], x, l, rfl, vote_stays L l _ hl, hx, by simp, ?_⟩
        intro v hv
        rcases List.mem_cons.1 hv with rfl | hv
        · exact le_refl _
        · exact hl v hv
    · rw [if_neg hx]
      have hl : ∃ v ∈ l, L.count v > m.2 := by
        obtain ⟨v, hv, h⟩ := h
        rcases List.mem_cons.1 hv with rfl | hv
        · exact absurd h hx
        · exact ⟨v, hv, h⟩
      obtain ⟨pre, a, post, rfl, h2, h3, h4, h5⟩ := vote_first L l m hl
      refine ⟨x :: pre, a, post, rfl, h2, h3, ?_, ?_⟩
      · intro v hv
        rcases List.mem_cons.1 hv with rfl | hv
        · omega
        · exact h4 v hv
      · intro v hv
        rcases List.mem_cons.1 hv with rfl | hv
        · omega
        · exact h5 v hv

/-- The most frequent value, the first of equals (R279). -/
theorem mostOf_first (l : List Nat) (hne : l ≠ []) : mostOf l ∈ l ∧ ∀ v ∈ l, l.count v ≤ l.count (mostOf l) ∧ (l.count v = l.count (mostOf l) → l.idxOf (mostOf l) ≤ l.idxOf v) := by
  obtain ⟨v0, hv0⟩ := List.exists_mem_of_ne_nil l hne
  obtain ⟨pre, a, post, he, h2, h3, h4, h5⟩ := vote_first l l (0, 0) ⟨v0, hv0, List.count_pos_iff.2 hv0⟩
  have hm : mostOf l = a := by rw [mostOf, h2]
  rw [hm]
  have ha : a ∉ pre := fun h => lt_irrefl _ (h4 a h)
  refine ⟨by rw [he]; simp, fun v hv => ⟨h5 v hv, fun e => ?_⟩⟩
  have hv' : v ∉ pre := fun h => absurd e (h4 v h).ne
  rw [he, List.idxOf_append_of_notMem ha, List.idxOf_append_of_notMem hv']
  simp

end Sys2Proof.Machine
end

