-- ==== Sys2Proof/Laws/Frames.lean ====
section
/-! SUPPORT. Frames are had while enough are free (R361, R362), whatever Config.frameChoice names. -/

namespace Sys2Proof.Machine

/-- The search finds a frame among k that are all permitted, where fewer than k are in use. -/
theorem freeFrom_isSome (s : State) (d : DieId) (part : Nat) (used : List Nat) (hp : ∀ f, s.permits d part f = true) :
    ∀ k f, f + k ≤ frameCount → used.length < k → (s.freeFrom d part used k f).isSome = true := by
  have none_mem : ∀ k f, f + k ≤ frameCount → s.freeFrom d part used k f = none → ∀ i < k, f + i ∈ used := by
    intro k
    induction k with
    | zero => intro f _ _ i hi; omega
    | succ k ih =>
      intro f hf h i hi
      rw [State.freeFrom, if_neg (by omega), hp f] at h
      by_cases hu : used.contains f = true
      · rw [hu] at h
        cases i with
        | zero => simpa using hu
        | succ i => have := ih (f + 1) (by omega) (by simpa using h) i (by omega)
                    rwa [show f + 1 + i = f + (i + 1) by omega] at this
      · have hu' : f ∉ used := by simpa using hu
        simp [hu'] at h
  intro k f hf hk
  by_contra h
  rw [Bool.not_eq_true, Option.isSome_eq_false_iff, Option.isNone_iff_eq_none] at h
  have hs : List.range' f k ⊆ used := fun x hx => by
    obtain ⟨i, hi, rfl⟩ := List.mem_range'.mp hx
    simpa using none_mem k f hf h i hi
  have := (List.nodup_range' (s := f) (n := k)).subperm hs |>.length_le
  simp at this
  omega

/-- n frames are had on a die whose masks permit all and which has n free. -/
theorem allocFrames_isSome (d : DieId) (part vf : Nat) : ∀ (n : Nat) (s : State), (∀ f, s.permits d part f = true) →
    (s.die d).frames.length + n ≤ frameCount → (s.allocFrames d part vf n).isSome = true
  | 0, _, _, _ => rfl
  | n + 1, s, hp, hn => by
    have next : ∀ f, ((({ s with draws := s.draws + 1 } : State).setDie d { s.die d with frames := (f, vf) :: (s.die d).frames }).allocFrames d part vf n).isSome = true := by
      intro f
      refine allocFrames_isSome d part vf n _ (fun g => hp g) ?_
      simp only [State.die, State.setDie, Tab.getD_put_self, List.length_cons] at *
      omega
    rw [State.allocFrames]
    dsimp only
    generalize hpick : (if (decide (Config.frameChoice s.draws < frameCount) && s.permits d part (Config.frameChoice s.draws)
      && !(List.map (·.1) (s.die d).frames).contains (Config.frameChoice s.draws)) = true then some (Config.frameChoice s.draws)
      else s.freeFrom d part (List.map (·.1) (s.die d).frames) frameCount 0) = pick
    have some_pick : pick.isSome = true := by
      rw [← hpick]
      split
      · rfl
      · exact freeFrom_isSome s d part _ hp _ _ (by omega) (by simp; omega)
    obtain ⟨f, rfl⟩ := Option.isSome_iff_exists.mp some_pick
    obtain ⟨⟨fs, v⟩, h⟩ := Option.isSome_iff_exists.mp (next f)
    dsimp only at h ⊢
    rw [h]
    rfl

/-- The search finds none where every frame is in use. -/
theorem freeFrom_none (s : State) (d : DieId) (part : Nat) (used : List Nat) (h : ∀ f < frameCount, f ∈ used) :
    ∀ k f, s.freeFrom d part used k f = none
  | 0, _ => rfl
  | k + 1, f => by
    rw [State.freeFrom]
    split
    · rfl
    · have : used.contains f = true := by simpa using h f (by omega)
      rw [this, Bool.not_true, Bool.and_false, if_neg (by simp)]
      exact freeFrom_none s d part used h k (f + 1)

/-- No frame is had on a die whose frames are all in use. -/
theorem allocFrames_none (s : State) (d : DieId) (part vf n : Nat) (h : ∀ f < frameCount, f ∈ (s.die d).frames.map (·.1)) :
    s.allocFrames d part vf (n + 1) = none := by
  rw [State.allocFrames]
  dsimp only
  have taken : (decide (Config.frameChoice s.draws < frameCount) && s.permits d part (Config.frameChoice s.draws)
      && !((s.die d).frames.map (·.1)).contains (Config.frameChoice s.draws)) = false := by
    by_cases hf : Config.frameChoice s.draws < frameCount
    · have : ((s.die d).frames.map (·.1)).contains (Config.frameChoice s.draws) = true := by simpa using h _ hf
      rw [this, Bool.not_true, Bool.and_false]
    · rw [decide_eq_false hf, Bool.false_and, Bool.false_and]
  rw [taken, freeFrom_none s d part _ h]
  rfl

/-- Having frames changes the dies' tables and the count of free values alone, and gives as many as were asked for. -/
theorem allocFrames_frame (d : DieId) (part vf : Nat) : ∀ (n : Nat) (s u : State) (fs : List Nat),
    s.allocFrames d part vf n = some (fs, u) → u = { s with draws := u.draws, dies := u.dies } ∧ fs.length = n
  | 0, s, u, fs, h => by
    simp only [State.allocFrames, Option.some.injEq, Prod.mk.injEq] at h
    obtain ⟨rfl, rfl⟩ := h
    exact ⟨rfl, rfl⟩
  | n + 1, s, u, fs, h => by
    rw [State.allocFrames] at h
    dsimp only at h
    split at h
    · simp at h
    · rename_i f _
      revert h
      generalize hs : State.allocFrames _ d part vf n = r
      rcases r with _ | ⟨gs, v⟩
      · simp
      · intro h
        simp only [Option.some.injEq, Prod.mk.injEq] at h
        obtain ⟨rfl, rfl⟩ := h
        have := allocFrames_frame d part vf n _ _ _ hs
        exact ⟨by rw [this.1]; rfl, by simp [this.2]⟩

end Sys2Proof.Machine
end

