-- ==== Sys2Proof/Laws/Memory.lean ====
section
/-! SUPPORT. Memory: every operation keeps the canonical form, a byte reads as last written, and a write leaves every other
byte alone (R5, R173). -/

namespace Sys2Proof.Machine

/-- The canonical form, entry by entry. -/
theorem Memory.wf_cons (a : Nat) (b : Byte) (m : List Host.Cell) :
    Memory.wf ((a, b) :: m) = true ↔ b ≠ 0 ∧ (∀ e ∈ m, a < e.1) ∧ Memory.wf m = true := by
  induction m generalizing a b with
  | nil => simp [Memory.wf]
  | cons e m ih =>
    obtain ⟨a', b'⟩ := e
    have h' := ih a' b'
    constructor
    · intro h
      simp only [Memory.wf, Bool.and_eq_true, decide_eq_true_eq] at h
      obtain ⟨⟨hb, ha⟩, hw⟩ := h
      refine ⟨by simpa using hb, ?_, hw⟩
      intro e he
      rcases List.mem_cons.mp he with rfl | he
      · exact ha
      · exact lt_trans ha ((h'.mp hw).2.1 e he)
    · rintro ⟨hb, ha, hw⟩
      simp only [Memory.wf, Bool.and_eq_true, decide_eq_true_eq]
      exact ⟨⟨by simpa using hb, ha (a', b') (by simp)⟩, hw⟩

@[simp] theorem Memory.wf_nil : Memory.wf [] = true := rfl

/-- A byte below every listed address reads as nothing written. -/
theorem Memory.read_below (m : List Host.Cell) (a : Nat) (h : ∀ e ∈ m, a < e.1) : Memory.read m a = 0 := by
  cases m with
  | nil => rfl
  | cons e m =>
    obtain ⟨x, b⟩ := e
    have hx : a < x := h (x, b) (by simp)
    simp [Memory.read, hx, Nat.ne_of_gt hx]

/-- The addresses listed after a write. -/
theorem Memory.mem_write (m : List Host.Cell) (a : Nat) (v : Byte) (e : Host.Cell) (h : e ∈ Memory.write m a v) :
    e.1 = a ∨ e ∈ m := by
  induction m with
  | nil =>
    simp only [Memory.write] at h
    split at h <;> simp_all
  | cons c m ih =>
    obtain ⟨x, b⟩ := c
    simp only [Memory.write] at h
    split at h
    · split at h
      · exact Or.inr h
      · rcases List.mem_cons.mp h with rfl | h
        · exact Or.inl rfl
        · exact Or.inr h
    · split at h
      · split at h
        · exact Or.inr (List.mem_cons_of_mem _ h)
        · rcases List.mem_cons.mp h with rfl | h
          · exact Or.inl rfl
          · exact Or.inr (List.mem_cons_of_mem _ h)
      · rcases List.mem_cons.mp h with rfl | h
        · exact Or.inr (by simp)
        · rcases ih h with h | h
          · exact Or.inl h
          · exact Or.inr (List.mem_cons_of_mem _ h)

/-- A write keeps the canonical form. -/
theorem Memory.wf_write (m : List Host.Cell) (a : Nat) (v : Byte) (h : Memory.wf m = true) : Memory.wf (Memory.write m a v) = true := by
  induction m with
  | nil =>
    simp only [Memory.write]
    split
    · rfl
    · simpa [Memory.wf]
  | cons c m ih =>
    obtain ⟨x, b⟩ := c
    obtain ⟨hb, hx, hm⟩ := (Memory.wf_cons x b m).mp h
    simp only [Memory.write]
    split
    · rename_i hax
      split
      · exact h
      · rename_i hv
        refine (Memory.wf_cons _ _ _).mpr ⟨hv, ?_, h⟩
        intro e he
        rcases List.mem_cons.mp he with rfl | he
        · exact hax
        · exact lt_trans hax (hx e he)
    · split
      · rename_i hxa
        subst hxa
        split
        · exact hm
        · rename_i hv
          exact (Memory.wf_cons _ _ _).mpr ⟨hv, hx, hm⟩
      · rename_i h1 h2
        refine (Memory.wf_cons _ _ _).mpr ⟨hb, ?_, ih hm⟩
        intro e he
        rcases Memory.mem_write m a v e he with he | he
        · omega
        · exact hx e he

/-- A byte reads as written. -/
theorem Memory.read_write (m : List Host.Cell) (a : Nat) (v : Byte) (h : Memory.wf m = true) : Memory.read (Memory.write m a v) a = v := by
  induction m with
  | nil =>
    simp only [Memory.write]
    split
    · simp_all [Memory.read]
    · simp [Memory.read]
  | cons c m ih =>
    obtain ⟨x, b⟩ := c
    obtain ⟨hb, hx, hm⟩ := (Memory.wf_cons x b m).mp h
    simp only [Memory.write]
    split
    · rename_i hax
      split
      · rename_i hv
        simp [Memory.read, hax, Nat.ne_of_gt hax, hv]
      · simp [Memory.read]
    · split
      · rename_i hxa
        subst hxa
        split
        · rename_i hv
          rw [Memory.read_below m x hx, hv]
        · simp [Memory.read]
      · rename_i h1 h2
        simp [Memory.read, h1, h2, ih hm]

/-- A write leaves every other byte alone. -/
theorem Memory.read_write_ne (m : List Host.Cell) (a c : Nat) (v : Byte) (h : Memory.wf m = true) (hc : c ≠ a) :
    Memory.read (Memory.write m a v) c = Memory.read m c := by
  induction m with
  | nil =>
    simp only [Memory.write]
    split
    · rfl
    · simp [Memory.read, Ne.symm hc]
  | cons e m ih =>
    obtain ⟨x, b⟩ := e
    obtain ⟨hb, hx, hm⟩ := (Memory.wf_cons x b m).mp h
    simp only [Memory.write]
    split
    · rename_i hax
      split
      · rfl
      · by_cases hca : c < a
        · simp [Memory.read, Ne.symm hc, hca, lt_trans hca hax, Nat.ne_of_gt (lt_trans hca hax)]
        · simp [Memory.read, Ne.symm hc, hca]
    · split
      · rename_i hxa
        subst hxa
        split
        · by_cases hcx : c < x
          · rw [Memory.read_below m c (fun e he => lt_trans hcx (hx e he))]
            simp [Memory.read, Ne.symm hc, hcx]
          · simp [Memory.read, Ne.symm hc, hcx]
        · simp [Memory.read, Ne.symm hc]
      · simp only [Memory.read]
        rw [ih hm]

/-- What is left of a canonical memory after a filter is canonical. -/
theorem Memory.wf_filter (m : List Host.Cell) (p : Host.Cell → Bool) (h : Memory.wf m = true) : Memory.wf (m.filter p) = true := by
  induction m with
  | nil => rfl
  | cons c m ih =>
    obtain ⟨x, b⟩ := c
    obtain ⟨hb, hx, hm⟩ := (Memory.wf_cons x b m).mp h
    simp only [List.filter]
    split
    · exact (Memory.wf_cons _ _ _).mpr ⟨hb, fun e he => hx e (List.mem_filter.mp he).1, ih hm⟩
    · exact ih hm

theorem Memory.wf_clear (m : List Host.Cell) (a n : Nat) (h : Memory.wf m = true) : Memory.wf (Memory.clear m a n) = true :=
  Memory.wf_filter m _ h

theorem Memory.wf_slice (m : List Host.Cell) (a n : Nat) (h : Memory.wf m = true) : Memory.wf (Memory.slice m a n) = true :=
  Memory.wf_filter m _ h

/-- A write of bytes keeps the canonical form. -/
theorem Memory.wf_writeBytes (m : List Host.Cell) (a : Nat) (bs : List Byte) (h : Memory.wf m = true) :
    Memory.wf (Memory.writeBytes m a bs) = true := by
  induction bs generalizing m a with
  | nil => exact h
  | cons b bs ih => exact ih _ _ (Memory.wf_write m a b h)

theorem Memory.wf_writeNat (m : List Host.Cell) (a n v : Nat) (h : Memory.wf m = true) : Memory.wf (Memory.writeNat m a n v) = true :=
  Memory.wf_writeBytes m a _ h

/-- A fold of writes keeps the canonical form. -/
theorem Memory.wf_foldl {α : Type} (l : List α) (m : List Host.Cell) (g : α → Nat × Byte) (h : Memory.wf m = true) :
    Memory.wf (l.foldl (fun m c => Memory.write m (g c).1 (g c).2) m) = true := by
  induction l generalizing m with
  | nil => exact h
  | cons c l ih => exact ih _ (Memory.wf_write m _ _ h)

/-- A write of bytes leaves every byte outside them alone. -/
theorem Memory.read_writeBytes_out (m : List Host.Cell) (a c : Nat) (bs : List Byte) (h : Memory.wf m = true)
    (hc : c < a ∨ a + bs.length ≤ c) : Memory.read (Memory.writeBytes m a bs) c = Memory.read m c := by
  induction bs generalizing m a with
  | nil => rfl
  | cons b bs ih =>
    simp only [List.length_cons] at hc
    simp only [Memory.writeBytes]
    rw [ih _ _ (Memory.wf_write m a b h) (by omega), Memory.read_write_ne m a c b h (by omega)]

/-- Bytes read as written. -/
theorem Memory.read_writeBytes (m : List Host.Cell) (a i : Nat) (bs : List Byte) (h : Memory.wf m = true) (hi : i < bs.length) :
    Memory.read (Memory.writeBytes m a bs) (a + i) = bs.getD i 0 := by
  induction bs generalizing m a i with
  | nil => simp at hi
  | cons b bs ih =>
    simp only [Memory.writeBytes]
    cases i with
    | zero =>
      rw [Memory.read_writeBytes_out _ _ _ _ (Memory.wf_write m a b h) (by omega)]
      simpa using Memory.read_write m a b h
    | succ i =>
      have := ih (Memory.write m a b) (a + 1) i (Memory.wf_write m a b h) (by simpa using hi)
      rw [show a + (i + 1) = a + 1 + i by omega, this]
      rfl

/-- A byte outside a cleared range is as before, and one inside reads zero. -/
theorem Memory.read_clear (m : List Host.Cell) (a n c : Nat) (h : Memory.wf m = true) :
    Memory.read (Memory.clear m a n) c = if a ≤ c ∧ c < a + n then 0 else Memory.read m c := by
  induction m with
  | nil => simp [Memory.clear, Memory.read]
  | cons e m ih =>
    obtain ⟨x, b⟩ := e
    obtain ⟨hb, hx, hm⟩ := (Memory.wf_cons x b m).mp h
    have ih := ih hm
    have hlow : c < x → Memory.read (Memory.clear m a n) c = 0 := fun hcx =>
      Memory.read_below _ _ fun e he => lt_trans hcx (hx e (List.mem_filter.mp he).1)
    have hlow' : c < x → Memory.read m c = 0 := fun hcx => Memory.read_below _ _ fun e he => lt_trans hcx (hx e he)
    simp only [Memory.clear, List.filter] at ih hlow ⊢
    split
    · rename_i hk
      simp only [Bool.or_eq_true, decide_eq_true_eq] at hk
      simp only [Memory.read]
      by_cases hxc : x = c
      · subst hxc
        rw [if_pos rfl, if_neg (by omega), if_pos rfl]
      · by_cases hcx : c < x
        · simp [hxc, hcx]
        · simp only [if_neg hxc, if_neg hcx, ih]
    · rename_i hk
      simp only [Bool.or_eq_false_iff, decide_eq_false_iff_not] at hk
      by_cases hxc : x = c
      · subst hxc
        rw [if_pos (by omega)]
        exact Memory.read_below _ _ fun e he => hx e (List.mem_filter.mp he).1
      · by_cases hcx : c < x
        · rw [hlow hcx]; simp [Memory.read, hxc, hcx]
        · rw [ih]; simp [Memory.read, hxc, hcx]

/-! ## Numbers as bytes (R5) -/

theorem bytesLE_length : ∀ (n v : Nat), (bytesLE n v).length = n
  | 0, _ => rfl
  | n + 1, v => by simp [bytesLE, bytesLE_length n]

theorem ofBytesLE_bytesLE : ∀ (n v : Nat), ofBytesLE (bytesLE n v) = v % 256 ^ n
  | 0, v => by simp [bytesLE, ofBytesLE, Nat.mod_one]
  | n + 1, v => by
    simp only [bytesLE, ofBytesLE, ofBytesLE_bytesLE n, BitVec.toNat_ofNat]
    have h := Nat.mod_mul (a := 256) (b := 256 ^ n) (x := v)
    rw [← Nat.pow_succ'] at h
    exact h.symm

theorem take_bytesLE (n v : Nat) (r : List Byte) : (bytesLE n v ++ r).take n = bytesLE n v := by
  rw [List.take_append_of_le_length (by rw [bytesLE_length]), List.take_of_length_le (by rw [bytesLE_length])]

theorem drop_bytesLE (n k v : Nat) (r : List Byte) (h : n ≤ k) : (bytesLE n v ++ r).drop k = r.drop (k - n) := by
  rw [List.drop_append, List.drop_of_length_le (by rw [bytesLE_length]; exact h), List.nil_append, bytesLE_length]

end Sys2Proof.Machine
end

