-- ==== Sys2Proof/Laws/Operations.lean ====
section
/-! SUPPORT. What the end of an operation and a store leave alone, and the registers that a result is written to (R39). -/

namespace Sys2Proof.Machine

/-- Two states that hold the same memory, operations and messages, and threads with the same registers and predicates. -/
structure SameData (s u : State) : Prop where
  mem : u.mem = s.mem
  ops : u.ops = s.ops
  msgs : u.msgs = s.msgs
  nextId : u.nextId = s.nextId
  regs : ∀ t, (u.thread t).regs = (s.thread t).regs
  preds : ∀ t, (u.thread t).preds = (s.thread t).preds

theorem SameData.refl (s : State) : SameData s s := ⟨rfl, rfl, rfl, rfl, fun _ => rfl, fun _ => rfl⟩
theorem SameData.trans {s u w : State} (h : SameData s u) (g : SameData u w) : SameData s w :=
  ⟨g.mem.trans h.mem, g.ops.trans h.ops, g.msgs.trans h.msgs, g.nextId.trans h.nextId, fun t => (g.regs t).trans (h.regs t), fun t => (g.preds t).trans (h.preds t)⟩

theorem SameData.modThread (s : State) (t : ThreadId) (f : Thread → Thread) (h1 : ∀ x, (f x).regs = x.regs) (h2 : ∀ x, (f x).preds = x.preds) :
    SameData s (s.modThread t f) := by
  have h : ∀ u, ((s.modThread t f).thread u).regs = (s.thread u).regs ∧ ((s.modThread t f).thread u).preds = (s.thread u).preds := by
    intro u
    by_cases hu : u = t
    · subst hu; simp [State.modThread, h1, h2]
    · simp only [State.modThread]; rw [State.thread_setThread_ne _ _ _ _ hu]; exact ⟨rfl, rfl⟩
  exact ⟨rfl, rfl, rfl, rfl, fun u => (h u).1, fun u => (h u).2⟩

theorem SameData.foldl {α : Type} (l : List α) (g : State → α → State) (h : ∀ s a, SameData s (g s a)) : ∀ s, SameData s (l.foldl g s) := by
  induction l with
  | nil => exact SameData.refl
  | cons a l ih => exact fun s => (h s a).trans (ih _)

theorem State.expose_same (s : State) (ids : List Nat) (spans : List (Nat × Nat)) : SameData s (s.expose ids spans) := by
  unfold State.expose; split <;> exact ⟨rfl, rfl, rfl, rfl, fun _ => rfl, fun _ => rfl⟩

theorem State.unqueue_same (s : State) (ids : List Nat) : SameData s (s.unqueue ids) := by
  unfold State.unqueue; simp only; split <;> exact ⟨rfl, rfl, rfl, rfl, fun _ => rfl, fun _ => rfl⟩

theorem State.widen_same (s : State) (t : ThreadId) (level : Nat) (k : List Nat) : SameData s (s.widen t level k) :=
  ⟨rfl, rfl, rfl, rfl, fun _ => rfl, fun _ => rfl⟩

/-- A pending fence changes clocks, pins and fences alone. -/
theorem State.settleFence_same (s : State) (t : ThreadId) (f : Fence) : SameData s (s.settleFence t f) := by
  have w : ∀ (u : State) (g : Thread → Thread), (∀ x, (g x).regs = x.regs) → (∀ x, (g x).preds = x.preds) → ∀ l k, SameData u ((u.modThread t g).widen t l k) :=
    fun u g h1 h2 l k => (SameData.modThread u t g h1 h2).trans (State.widen_same ..)
  unfold State.settleFence
  simp only
  split
  · split
    · exact .refl s
    · exact .modThread s t _ (fun _ => rfl) (fun _ => rfl)
  · split
    · exact .refl s
    · refine w s _ ?_ ?_ _ _ <;> exact fun _ => rfl
  · split
    · exact .refl s
    · split
      · exact .modThread s t _ (fun _ => rfl) (fun _ => rfl)
      · refine SameData.trans ?_ (w _ _ ?_ ?_ _ _)
        · exact .modThread s t _ (fun _ => rfl) (fun _ => rfl)
        · exact fun _ => rfl
        · exact fun _ => rfl
  · split
    · exact .refl s
    · split
      · refine w s _ ?_ ?_ _ _ <;> exact fun _ => rfl
      · have sc : ∀ (u : State) l, SameData u { u with scFences := l } := fun _ _ => ⟨rfl, rfl, rfl, rfl, fun _ => rfl, fun _ => rfl⟩
        refine SameData.trans ?_ (sc _ _)
        refine w s _ ?_ ?_ _ _ <;> exact fun _ => rfl

theorem State.settleFences_same (s : State) (t : ThreadId) : SameData s (s.settleFences t) :=
  SameData.foldl _ _ (fun s f => s.settleFence_same t f) s

/-- Ending an operation takes it from the table, and changes no memory and no register. -/
theorem State.endOne_same (s : State) (id : Nat) : SameData { s with ops := s.ops.del id } (s.endOne id) := by
  unfold State.endOne
  split
  · next h =>
    have : s.ops.del id = s.ops := by
      have hl : ∀ (m : Tab Nat Op), m.get? id = none → m.del id = m := by
        intro m
        induction m with
        | nil => intro _; rfl
        | cons p m ih =>
          obtain ⟨k, v⟩ := p
          intro h
          by_cases hk : k = id
          · simp [Tab.get?, hk] at h
          · have : Tab.get? m id = none := by simpa [Tab.get?, hk] using h
            simp [Tab.del, hk, ih this]
      exact hl _ h
    rw [this]; exact .refl s
  · next o h =>
    refine ((State.expose_same _ [id] []).trans (State.unqueue_same _ (o.places id))).trans ?_
    simp only
    have hf : ∀ u : State, SameData u (if o.isAccess then u.settleFences o.thread else u) := by
      intro u; split
      · exact u.settleFences_same _
      · exact .refl u
    refine (hf _).trans ?_
    generalize ite (o.isAccess = true) _ _ = u
    split
    · refine SameData.foldl _ _ (fun s t => ?_) _
      refine .modThread s t _ ?_ ?_ <;> (intro x; split <;> rfl)
    · refine .modThread _ _ _ ?_ ?_ <;> (intro x; split <;> rfl)
    · exact .refl _

/-- Ending any operation but a copy does the same. -/
theorem State.endOp_same (s : State) (id : Nat) (o : Op) (h : s.op? id = some o) (hc : ∀ c, o.body ≠ .copy c) : SameData { s with ops := s.ops.del id } (s.endOp id) := by
  unfold State.endOp
  rw [h]
  simp only
  split
  · exact s.endOne_same id
  · next l hl =>
    split at hl
    · next c he => cases he; exact absurd rfl (hc c)
    · cases hl

/-- Ascending registers take the 32-bit parts of a number, lowest first. -/
theorem Thread.setRegs_spec (x : Thread) (n v : Nat) : ∀ k, n ≠ 255 →
    (∀ i < k, n + i < x.regs.length → n + i ≠ 255 → (x.setRegs n k v).reg (n + i) = BitVec.ofNat 32 (v / 2 ^ (32 * i)))
    ∧ (∀ j, (j < n ∨ n + k ≤ j) → (x.setRegs n k v).reg j = x.reg j) ∧ (x.setRegs n k v).regs.length = x.regs.length
  | 0, h => by simp [Thread.setRegs, h]
  | k + 1, h => by
    obtain ⟨h1, h2, h3⟩ := Thread.setRegs_spec x n v k h
    have hs : x.setRegs n (k + 1) v = (x.setRegs n k v).setReg (n + k) (BitVec.ofNat 32 (v / 2 ^ (32 * k))) := by
      simp [Thread.setRegs, h, List.range_succ]
    rw [hs]
    refine ⟨?_, ?_, by rw [Thread.regs_length_setReg, h3]⟩
    · intro i hi hlt hne
      rcases Nat.lt_succ_iff_lt_or_eq.1 hi with h' | rfl
      · rw [Thread.reg_setReg_ne _ _ _ _ (by omega)]; exact h1 i h' hlt hne
      · exact Thread.reg_setReg _ _ _ (by rw [h3]; exact hlt) hne
    · intro j hj
      rw [Thread.reg_setReg_ne _ _ _ _ (by omega)]; exact h2 j (by omega)

/-! ## Stores (R361, R366) -/

theorem State.setTreeBlock_same (s : State) (chip o level i : Nat) (b : CounterBlock) : SameData s (s.setTreeBlock chip o level i b) := by
  unfold State.setTreeBlock
  split
  · exact ⟨rfl, rfl, rfl, rfl, fun _ => rfl, fun _ => rfl⟩
  · split
    · unfold State.setRoot; split <;> exact ⟨rfl, rfl, rfl, rfl, fun _ => rfl, fun _ => rfl⟩
    · exact ⟨rfl, rfl, rfl, rfl, fun _ => rfl, fun _ => rfl⟩

theorem State.commitBlock_same (chip o : Nat) : ∀ (n level i : Nat) (s : State) (b : CounterBlock), SameData s (s.commitBlock chip o n level i b)
  | 0, level, i, s, b => s.setTreeBlock_same chip o level i b
  | n + 1, level, i, s, b => by
    simp only [State.commitBlock]
    split
    · exact (s.setTreeBlock_same ..).trans (State.commitBlock_same chip o n _ _ _ _)
    · refine SameData.trans (SameData.trans (s.setTreeBlock_same ..) (SameData.foldl _ _ (fun u k => ?_) _)) (State.commitBlock_same chip o n _ _ _ _)
      split
      · exact .refl u
      · exact u.setTreeBlock_same ..

theorem State.setRoot_same (s : State) (chip o : Nat) (b : CounterBlock) : SameData s (s.setRoot chip o b) := by
  unfold State.setRoot; split <;> exact ⟨rfl, rfl, rfl, rfl, fun _ => rfl, fun _ => rfl⟩
theorem State.setHeight_same (s : State) (chip o n : Nat) : SameData s (s.setHeight chip o n) := by
  unfold State.setHeight; split <;> exact ⟨rfl, rfl, rfl, rfl, fun _ => rfl, fun _ => rfl⟩
theorem State.raiseTree_same (s : State) (chip o : Nat) : SameData s (s.raiseTree chip o) :=
  ((s.setHeight_same ..).trans (State.setRoot_same ..)).trans (State.commitBlock_same ..)

/-- A counter tree that grows or shrinks changes no plain memory and no register (R366). -/
theorem State.fitTree_same (s : State) (chip o : Nat) : SameData s (s.fitTree chip o) := by
  unfold State.fitTree
  simp only
  split
  · exact .refl s
  · split
    · exact s.setHeight_same ..
    · split
      · exact SameData.foldl _ _ (fun u _ => u.raiseTree_same ..) _
      · exact ((s.setHeight_same ..).trans (State.setRoot_same ..)).trans ⟨rfl, rfl, rfl, rfl, fun _ => rfl, fun _ => rfl⟩

/-- What DRAM holds for a line changes no plain memory and no register (R363 to R366). -/
theorem State.encryptLine_same (s : State) (d : DieId) (line : Nat) (bs : List Byte) : SameData s (s.encryptLine d line bs) := by
  unfold State.encryptLine
  split
  · exact .refl s
  · simp only
    split
    · exact s.fitTree_same ..
    · have h0 : ∀ (u : State) (f : Die → Die), SameData u (u.modDie d f) := fun _ _ => ⟨rfl, rfl, rfl, rfl, fun _ => rfl, fun _ => rfl⟩
      split
      · exact (((s.fitTree_same ..).trans (h0 ..)).trans (State.commitBlock_same ..)).trans ⟨rfl, rfl, rfl, rfl, fun _ => rfl, fun _ => rfl⟩
      · exact ((s.fitTree_same ..).trans (h0 ..)).trans (State.commitBlock_same ..)

theorem State.writeBack_same (s : State) (d : DieId) (line : Nat) : SameData s (s.writeBack d line) :=
  SameData.trans (u := { s with draws := s.draws + 1 }) ⟨rfl, rfl, rfl, rfl, fun _ => rfl, fun _ => rfl⟩ (State.encryptLine_same ..)

theorem State.writeHalves_same (s : State) (d : DieId) (line : Nat) : SameData s (s.writeHalves d line) := by
  refine SameData.foldl _ _ (fun u h => ?_) s
  split
  · exact .refl u
  · exact u.writeBack_same ..

theorem State.l2Touch_same (s : State) (d : DieId) (line : Nat) (wr : Bool) (whole : List Nat) : SameData s (s.l2Touch d line wr whole) := by
  unfold State.l2Touch
  have h0 : ∀ (u : State) x, SameData u (u.setDie d x) := fun _ _ => ⟨rfl, rfl, rfl, rfl, fun _ => rfl, fun _ => rfl⟩
  simp only
  split
  · exact h0 ..
  · refine SameData.trans ?_ (h0 ..)
    split
    · exact (h0 ..).trans (State.writeHalves_same ..)
    · exact h0 ..

/-- A use of the L2, with the lines it writes back, changes no plain memory and no register (R361, R366). -/
theorem State.l2Use_same (s : State) (a n : Nat) (wr : Bool) : SameData s (s.l2Use a n wr) := by
  unfold State.l2Use
  refine SameData.foldl _ _ (fun u j => ?_) s
  split
  · exact u.l2Touch_same ..
  · exact .refl u

/-- The write-backs before a move of an extent change no plain memory and no register (R187). -/
theorem State.cleanLines_same (s : State) (d : DieId) (mine : Nat → Bool) : SameData s (s.cleanLines d mine) := by
  refine SameData.foldl _ _ (fun u n => ?_) s
  exact SameData.trans (u := u.modDie d _) ⟨rfl, rfl, rfl, rfl, fun _ => rfl, fun _ => rfl⟩ (State.writeHalves_same ..)

/-! ## Links (R12, R368) -/

theorem State.sendFlits_same (s : State) (d : DieId) (h n : Nat) : SameData s (s.sendFlits d h n) := by
  unfold State.sendFlits
  split
  · exact .refl s
  · exact ⟨rfl, rfl, rfl, rfl, fun _ => rfl, fun _ => rfl⟩

theorem State.crossLink_same (s : State) (d far : DieId) (out back : Nat) : SameData s (s.crossLink d far out back) := by
  unfold State.crossLink
  split
  · exact .refl s
  · exact (s.sendFlits_same ..).trans (State.sendFlits_same ..)

/-- What an access sends over the links changes no plain memory and no register. -/
theorem State.linkFlits_same (s : State) (d : DieId) (p : DWord) (n : Nat) (wr : Bool) : SameData s (s.linkFlits d p n wr) := by
  unfold State.linkFlits
  split
  · exact .refl s
  · exact s.crossLink_same ..

/-- A store writes its bytes, and no other byte, operation or register. -/
theorem State.store_same (s : State) (a : Nat) (bs : List Byte) : SameData { s with mem := Memory.writeBytes s.mem a bs } (s.store a bs) := by
  have h := s.expose_same [] [(a, bs.length)]
  have h2 := State.l2Use_same { (s.expose [] [(a, bs.length)]) with mem := Memory.writeBytes (s.expose [] [(a, bs.length)]).mem a bs, failed := (s.expose [] [(a, bs.length)]).failed.filter fun l => !coversLine a bs.length l } a bs.length true
  exact ⟨by rw [← h.mem]; exact h2.mem, h2.ops.trans h.ops, h2.msgs.trans h.msgs, h2.nextId.trans h.nextId, fun t => (h2.regs t).trans (h.regs t), fun t => (h2.preds t).trans (h.preds t)⟩

theorem State.unclaim_same (s : State) (c : CoreId) (l : List Nat) : SameData s (s.unclaim c l) := ⟨rfl, rfl, rfl, rfl, fun _ => rfl, fun _ => rfl⟩

end Sys2Proof.Machine
end

