-- ==== Sys2Proof/Laws/PerInstr.lean ====
section
/-! SUPPORT. Per instruction: an instruction word has an opcode of eight bits and is one word, or two in FORM 11 (R48, R52); a
step of an agent has neither opcode nor words. -/

namespace Sys2Proof.Laws.Encodes

/-- How many words an instruction is, and that its opcode has eight bits. -/
def Statement (i : Instr) : Prop :=
  match i.fields? with
  | some f => (∃ c, i.opc = some c ∧ c < 256) ∧ (encode i).length = if f.form = 3 then 2 else 1
  | none => i.opc = none ∧ encode i = []

/-- An instruction word's encoding by its opcode and fields. -/
theorem word {i : Instr} {c : Nat} {f : Fields} (hc : i.opc = some c) (hf : i.fields? = some f) (h : c < 256) : Statement i := by
  rw [Statement, hf]
  refine ⟨⟨c, hc, h⟩, ?_⟩
  rw [encode, hc, hf]
  dsimp only
  split <;> rfl

theorem iadd (f : Fields) : Statement (.iadd f) := word rfl rfl (by decide)
theorem isub (f : Fields) : Statement (.isub f) := word rfl rfl (by decide)
theorem imul (f : Fields) : Statement (.imul f) := word rfl rfl (by decide)
theorem imad (f : Fields) : Statement (.imad f) := word rfl rfl (by decide)
theorem imulhi (f : Fields) : Statement (.imulhi f) := word rfl rfl (by decide)
theorem idivs (f : Fields) : Statement (.idivs f) := word rfl rfl (by decide)
theorem idivu (f : Fields) : Statement (.idivu f) := word rfl rfl (by decide)
theorem imin (f : Fields) : Statement (.imin f) := word rfl rfl (by decide)
theorem imax (f : Fields) : Statement (.imax f) := word rfl rfl (by decide)
theorem shl (f : Fields) : Statement (.shl f) := word rfl rfl (by decide)
theorem shr (f : Fields) : Statement (.shr f) := word rfl rfl (by decide)
theorem sar (f : Fields) : Statement (.sar f) := word rfl rfl (by decide)
theorem lop3 (f : Fields) : Statement (.lop3 f) := word rfl rfl (by decide)
theorem bfe (f : Fields) : Statement (.bfe f) := word rfl rfl (by decide)
theorem bfi (f : Fields) : Statement (.bfi f) := word rfl rfl (by decide)
theorem popc (f : Fields) : Statement (.popc f) := word rfl rfl (by decide)
theorem clz (f : Fields) : Statement (.clz f) := word rfl rfl (by decide)
theorem brev (f : Fields) : Statement (.brev f) := word rfl rfl (by decide)
theorem isetp (f : Fields) : Statement (.isetp f) := word rfl rfl (by decide)
theorem sel (f : Fields) : Statement (.sel f) := word rfl rfl (by decide)
theorem mov (f : Fields) : Statement (.mov f) := word rfl rfl (by decide)
theorem klog (f : Fields) : Statement (.klog f) := word rfl rfl (by decide)
theorem iadd64 (f : Fields) : Statement (.iadd64 f) := word rfl rfl (by decide)
theorem isub64 (f : Fields) : Statement (.isub64 f) := word rfl rfl (by decide)
theorem imul64 (f : Fields) : Statement (.imul64 f) := word rfl rfl (by decide)
theorem imad64 (f : Fields) : Statement (.imad64 f) := word rfl rfl (by decide)
theorem imulhi64 (f : Fields) : Statement (.imulhi64 f) := word rfl rfl (by decide)
theorem idivs64 (f : Fields) : Statement (.idivs64 f) := word rfl rfl (by decide)
theorem idivu64 (f : Fields) : Statement (.idivu64 f) := word rfl rfl (by decide)
theorem imin64 (f : Fields) : Statement (.imin64 f) := word rfl rfl (by decide)
theorem imax64 (f : Fields) : Statement (.imax64 f) := word rfl rfl (by decide)
theorem shl64 (f : Fields) : Statement (.shl64 f) := word rfl rfl (by decide)
theorem shr64 (f : Fields) : Statement (.shr64 f) := word rfl rfl (by decide)
theorem sar64 (f : Fields) : Statement (.sar64 f) := word rfl rfl (by decide)
theorem isetp64 (f : Fields) : Statement (.isetp64 f) := word rfl rfl (by decide)
theorem mov64 (f : Fields) : Statement (.mov64 f) := word rfl rfl (by decide)
theorem opadd (f : Fields) : Statement (.opadd f) := word rfl rfl (by decide)
theorem opdiff (f : Fields) : Statement (.opdiff f) := word rfl rfl (by decide)
theorem opmake (f : Fields) : Statement (.opmake f) := word rfl rfl (by decide)
theorem opext (f : Fields) : Statement (.opext f) := word rfl rfl (by decide)
theorem lea (f : Fields) : Statement (.lea f) := word rfl rfl (by decide)
theorem fadd (f : Fields) : Statement (.fadd f) := word rfl rfl (by decide)
theorem fmul (f : Fields) : Statement (.fmul f) := word rfl rfl (by decide)
theorem ffma (f : Fields) : Statement (.ffma f) := word rfl rfl (by decide)
theorem fmin (f : Fields) : Statement (.fmin f) := word rfl rfl (by decide)
theorem fmax (f : Fields) : Statement (.fmax f) := word rfl rfl (by decide)
theorem fsetp (f : Fields) : Statement (.fsetp f) := word rfl rfl (by decide)
theorem frcp (f : Fields) : Statement (.frcp f) := word rfl rfl (by decide)
theorem frsq (f : Fields) : Statement (.frsq f) := word rfl rfl (by decide)
theorem fexp2 (f : Fields) : Statement (.fexp2 f) := word rfl rfl (by decide)
theorem flog2 (f : Fields) : Statement (.flog2 f) := word rfl rfl (by decide)
theorem fsub (f : Fields) : Statement (.fsub f) := word rfl rfl (by decide)
theorem pkadd (f : Fields) : Statement (.pkadd f) := word rfl rfl (by decide)
theorem pkmul (f : Fields) : Statement (.pkmul f) := word rfl rfl (by decide)
theorem pkfma (f : Fields) : Statement (.pkfma f) := word rfl rfl (by decide)
theorem pkmin (f : Fields) : Statement (.pkmin f) := word rfl rfl (by decide)
theorem pkmax (f : Fields) : Statement (.pkmax f) := word rfl rfl (by decide)
theorem cvt (f : Fields) : Statement (.cvt f) := word rfl rfl (by decide)
theorem cvt64 (f : Fields) : Statement (.cvt64 f) := word rfl rfl (by decide)
theorem tpack (f : Fields) : Statement (.tpack f) := word rfl rfl (by decide)
theorem tunpack (f : Fields) : Statement (.tunpack f) := word rfl rfl (by decide)
theorem ld (f : Fields) : Statement (.ld f) := word rfl rfl (by decide)
theorem st (f : Fields) : Statement (.st f) := word rfl rfl (by decide)
theorem ldo (f : Fields) : Statement (.ldo f) := word rfl rfl (by decide)
theorem sto (f : Fields) : Statement (.sto f) := word rfl rfl (by decide)
theorem ldAcq (f : Fields) : Statement (.ldAcq f) := word rfl rfl (by decide)
theorem stRel (f : Fields) : Statement (.stRel f) := word rfl rfl (by decide)
theorem ldoAcq (f : Fields) : Statement (.ldoAcq f) := word rfl rfl (by decide)
theorem stoRel (f : Fields) : Statement (.stoRel f) := word rfl rfl (by decide)
theorem ctag (f : Fields) : Statement (.ctag f) := word rfl rfl (by decide)
theorem cfill (f : Fields) : Statement (.cfill f) := word rfl rfl (by decide)
theorem cevict (f : Fields) : Statement (.cevict f) := word rfl rfl (by decide)
theorem cevictWb (f : Fields) : Statement (.cevictWb f) := word rfl rfl (by decide)
theorem cpres (f : Fields) : Statement (.cpres f) := word rfl rfl (by decide)
theorem copy (f : Fields) : Statement (.copy f) := word rfl rfl (by decide)
theorem kick (f : Fields) : Statement (.kick f) := word rfl rfl (by decide)
theorem oalloc (f : Fields) : Statement (.oalloc f) := word rfl rfl (by decide)
theorem ofree (f : Fields) : Statement (.ofree f) := word rfl rfl (by decide)
theorem opin (f : Fields) : Statement (.opin f) := word rfl rfl (by decide)
theorem ounpin (f : Fields) : Statement (.ounpin f) := word rfl rfl (by decide)
theorem ocoloc (f : Fields) : Statement (.ocoloc f) := word rfl rfl (by decide)
theorem ocolocLeave (f : Fields) : Statement (.ocolocLeave f) := word rfl rfl (by decide)
theorem olocate (f : Fields) : Statement (.olocate f) := word rfl rfl (by decide)
theorem olocateGuess (f : Fields) : Statement (.olocateGuess f) := word rfl rfl (by decide)
theorem omigrate (f : Fields) : Statement (.omigrate f) := word rfl rfl (by decide)
theorem osplit (f : Fields) : Statement (.osplit f) := word rfl rfl (by decide)
theorem ostubfree (f : Fields) : Statement (.ostubfree f) := word rfl rfl (by decide)
theorem oinfo (f : Fields) : Statement (.oinfo f) := word rfl rfl (by decide)
theorem atomAdd (f : Fields) : Statement (.atomAdd f) := word rfl rfl (by decide)
theorem atomMin (f : Fields) : Statement (.atomMin f) := word rfl rfl (by decide)
theorem atomMax (f : Fields) : Statement (.atomMax f) := word rfl rfl (by decide)
theorem atomAnd (f : Fields) : Statement (.atomAnd f) := word rfl rfl (by decide)
theorem atomOr (f : Fields) : Statement (.atomOr f) := word rfl rfl (by decide)
theorem atomXor (f : Fields) : Statement (.atomXor f) := word rfl rfl (by decide)
theorem atomXchg (f : Fields) : Statement (.atomXchg f) := word rfl rfl (by decide)
theorem atomCas (f : Fields) : Statement (.atomCas f) := word rfl rfl (by decide)
theorem atomIncb (f : Fields) : Statement (.atomIncb f) := word rfl rfl (by decide)
theorem atomDecb (f : Fields) : Statement (.atomDecb f) := word rfl rfl (by decide)
theorem atomWcas (f : Fields) : Statement (.atomWcas f) := word rfl rfl (by decide)
theorem atomTadd (f : Fields) : Statement (.atomTadd f) := word rfl rfl (by decide)
theorem arrive (f : Fields) : Statement (.arrive f) := word rfl rfl (by decide)
theorem arriveBytes (f : Fields) : Statement (.arriveBytes f) := word rfl rfl (by decide)
theorem await (f : Fields) : Statement (.await f) := word rfl rfl (by decide)
theorem fence (f : Fields) : Statement (.fence f) := word rfl rfl (by decide)
theorem ballot (f : Fields) : Statement (.ballot f) := word rfl rfl (by decide)
theorem shfl (f : Fields) : Statement (.shfl f) := word rfl rfl (by decide)
theorem creduce (f : Fields) : Statement (.creduce f) := word rfl rfl (by decide)
theorem cscan (f : Fields) : Statement (.cscan f) := word rfl rfl (by decide)
theorem cvote (f : Fields) : Statement (.cvote f) := word rfl rfl (by decide)
theorem nbset (f : Fields) : Statement (.nbset f) := word rfl rfl (by decide)
theorem mmag (f : Fields) : Statement (.mmag f) := word rfl rfl (by decide)
theorem mmaq (f : Fields) : Statement (.mmaq f) := word rfl rfl (by decide)
theorem mdrain (f : Fields) : Statement (.mdrain f) := word rfl rfl (by decide)
theorem mdrainZonly (f : Fields) : Statement (.mdrainZonly f) := word rfl rfl (by decide)
theorem gres (f : Fields) : Statement (.gres f) := word rfl rfl (by decide)
theorem gcancel (f : Fields) : Statement (.gcancel f) := word rfl rfl (by decide)
theorem tfetch (f : Fields) : Statement (.tfetch f) := word rfl rfl (by decide)
theorem launchq (f : Fields) : Statement (.launchq f) := word rfl rfl (by decide)
theorem xsend (f : Fields) : Statement (.xsend f) := word rfl rfl (by decide)
theorem xfetch (f : Fields) : Statement (.xfetch f) := word rfl rfl (by decide)
theorem xadd (f : Fields) : Statement (.xadd f) := word rfl rfl (by decide)
theorem pumppost (f : Fields) : Statement (.pumppost f) := word rfl rfl (by decide)
theorem pumppostCancel (f : Fields) : Statement (.pumppostCancel f) := word rfl rfl (by decide)
theorem bra (f : Fields) : Statement (.bra f) := word rfl rfl (by decide)
theorem brx (f : Fields) : Statement (.brx f) := word rfl rfl (by decide)
theorem callRelative (f : Fields) : Statement (.callRelative f) := word rfl rfl (by decide)
theorem callIndirect (f : Fields) : Statement (.callIndirect f) := word rfl rfl (by decide)
theorem ret (f : Fields) : Statement (.ret f) := word rfl rfl (by decide)
theorem exit (f : Fields) : Statement (.exit f) := word rfl rfl (by decide)
theorem wait (f : Fields) : Statement (.wait f) := word rfl rfl (by decide)
theorem yield (f : Fields) : Statement (.yield f) := word rfl rfl (by decide)
theorem nop (f : Fields) : Statement (.nop f) := word rfl rfl (by decide)
theorem trap (f : Fields) : Statement (.trap f) := word rfl rfl (by decide)
theorem tret (f : Fields) : Statement (.tret f) := word rfl rfl (by decide)
theorem tretSkip (f : Fields) : Statement (.tretSkip f) := word rfl rfl (by decide)
theorem sread (f : Fields) : Statement (.sread f) := word rfl rfl (by decide)
theorem swrite (f : Fields) : Statement (.swrite f) := word rfl rfl (by decide)
theorem tstamp (f : Fields) : Statement (.tstamp f) := word rfl rfl (by decide)
theorem winopen (f : Fields) : Statement (.winopen f) := word rfl rfl (by decide)
theorem winrel (f : Fields) : Statement (.winrel f) := word rfl rfl (by decide)
theorem winacq (f : Fields) : Statement (.winacq f) := word rfl rfl (by decide)
theorem winclose (f : Fields) : Statement (.winclose f) := word rfl rfl (by decide)
theorem keyqEpoch (f : Fields) : Statement (.keyqEpoch f) := word rfl rfl (by decide)
theorem keyqWepoch (f : Fields) : Statement (.keyqWepoch f) := word rfl rfl (by decide)
theorem keyqReport (f : Fields) : Statement (.keyqReport f) := word rfl rfl (by decide)
theorem formBundle (q : QuadId) : Statement (.formBundle q) := ⟨rfl, rfl⟩
theorem progressWatchdog (c : CohortId) (crew : Nat) (pc : DWord) : Statement (.progressWatchdog c crew pc) := ⟨rfl, rfl⟩
theorem deferredFaultDelivery (t : ThreadId) : Statement (.deferredFaultDelivery t) := ⟨rfl, rfl⟩
theorem resourceWait (t : ThreadId) (op : Option Nat) : Statement (.resourceWait t op) := ⟨rfl, rfl⟩
theorem waitExpiry (t : ThreadId) : Statement (.waitExpiry t) := ⟨rfl, rfl⟩
theorem exitDrainComplete (t : ThreadId) : Statement (.exitDrainComplete t) := ⟨rfl, rfl⟩
theorem responseArrives (op : Nat) : Statement (.responseArrives op) := ⟨rfl, rfl⟩
theorem accessRequest (op : Nat) (upset : Upset) : Statement (.accessRequest op upset) := ⟨rfl, rfl⟩
theorem wellheadRequest (op : Nat) : Statement (.wellheadRequest op) := ⟨rfl, rfl⟩
theorem served (op : Nat) : Statement (.served op) := ⟨rfl, rfl⟩
theorem noObject (op : Nat) : Statement (.noObject op) := ⟨rfl, rfl⟩
theorem faultResponse (op : Nat) : Statement (.faultResponse op) := ⟨rfl, rfl⟩
theorem retry (op : Nat) : Statement (.retry op) := ⟨rfl, rfl⟩
theorem translationWalk (d : DieId) (page : Nat) : Statement (.translationWalk d page) := ⟨rfl, rfl⟩
theorem decayPeriod (chip : Nat) (vf : Nat) : Statement (.decayPeriod chip vf) := ⟨rfl, rfl⟩
theorem framesReserved (mv : Nat) (die : Nat) : Statement (.framesReserved mv die) := ⟨rfl, rfl⟩
theorem framesRefused (mv : Nat) : Statement (.framesRefused mv) := ⟨rfl, rfl⟩
theorem copyDoneCommit (mv : Nat) : Statement (.copyDoneCommit mv) := ⟨rfl, rfl⟩
theorem wellheadCommit (mv : Nat) : Statement (.wellheadCommit mv) := ⟨rfl, rfl⟩
theorem commitAck (mv : Nat) : Statement (.commitAck mv) := ⟨rfl, rfl⟩
theorem copyChunkWrite (op : Nat) (share : Nat) : Statement (.copyChunkWrite op share) := ⟨rfl, rfl⟩
theorem copyComplete (op : Nat) : Statement (.copyComplete op) := ⟨rfl, rfl⟩
theorem kickRecordFetch (op : Nat) : Statement (.kickRecordFetch op) := ⟨rfl, rfl⟩
theorem cfillLine (op : Nat) (line : Nat) : Statement (.cfillLine op line) := ⟨rfl, rfl⟩
theorem cevictWbLine (op : Nat) : Statement (.cevictWbLine op) := ⟨rfl, rfl⟩
theorem frameReceived (chip : Nat) (frame : Frame) : Statement (.frameReceived chip frame) := ⟨rfl, rfl⟩
theorem kickRegister (op : Nat) : Statement (.kickRegister op) := ⟨rfl, rfl⟩
theorem lrcfgEnable (op : Nat) : Statement (.lrcfgEnable op) := ⟨rfl, rfl⟩
theorem lrcfgDisable (op : Nat) : Statement (.lrcfgDisable op) := ⟨rfl, rfl⟩
theorem lrconsWrite (op : Nat) : Statement (.lrconsWrite op) := ⟨rfl, rfl⟩
theorem arrivalContribution (msg : Nat) : Statement (.arrivalContribution msg) := ⟨rfl, rfl⟩
theorem matrixStep (q : QuadId) : Statement (.matrixStep q) := ⟨rfl, rfl⟩
theorem rowCountReread (q : QuadId) : Statement (.rowCountReread q) := ⟨rfl, rfl⟩
theorem matrixDrain (q : QuadId) : Statement (.matrixDrain q) := ⟨rfl, rfl⟩
theorem matrixCommandComplete (op : Nat) : Statement (.matrixCommandComplete op) := ⟨rfl, rfl⟩
theorem guardSlotResolve (msg : Nat) : Statement (.guardSlotResolve msg) := ⟨rfl, rfl⟩
theorem shadowCommit (q : QuadId) (shadow : Nat) : Statement (.shadowCommit q shadow) := ⟨rfl, rfl⟩
theorem pumpTransaction (d : DieId) (turn : PumpTurn) : Statement (.pumpTransaction d turn) := ⟨rfl, rfl⟩
theorem transferComplete (op : Nat) : Statement (.transferComplete op) := ⟨rfl, rfl⟩
theorem signalAtTarget (msg : Nat) : Statement (.signalAtTarget msg) := ⟨rfl, rfl⟩
theorem linkTimeout (op : Nat) : Statement (.linkTimeout op) := ⟨rfl, rfl⟩
theorem workEntryFire (d : DieId) (slot : Nat) : Statement (.workEntryFire d slot) := ⟨rfl, rfl⟩
theorem workEntryRearm (d : DieId) (slot : Nat) : Statement (.workEntryRearm d slot) := ⟨rfl, rfl⟩
theorem reductionSlotSum (domain : Nat) (group : Nat) : Statement (.reductionSlotSum domain group) := ⟨rfl, rfl⟩
theorem srprod (chip : Nat) (vf : Nat) (value : Word) : Statement (.srprod chip vf value) := ⟨rfl, rfl⟩
theorem packetConsume (chip : Nat) (ring : RingTurn) : Statement (.packetConsume chip ring) := ⟨rfl, rfl⟩
theorem cohortPlace (chip : Nat) (part : Nat) : Statement (.cohortPlace chip part) := ⟨rfl, rfl⟩
theorem cohortEnd (c : CohortId) : Statement (.cohortEnd c) := ⟨rfl, rfl⟩
theorem gridEnd (chip : Nat) (grid : Nat) : Statement (.gridEnd chip grid) := ⟨rfl, rfl⟩
theorem dispenserFetch (op : Nat) : Statement (.dispenserFetch op) := ⟨rfl, rfl⟩
theorem sluiceTick (chip : Nat) : Statement (.sluiceTick chip) := ⟨rfl, rfl⟩
theorem sluice (chip : Nat) (vf : Nat) (value : DWord) : Statement (.sluice chip vf value) := ⟨rfl, rfl⟩
theorem qown (q : QuadId) (write : Option Word) : Statement (.qown q write) := ⟨rfl, rfl⟩
theorem keyCommand (chip : Nat) (blob : List Byte) : Statement (.keyCommand chip blob) := ⟨rfl, rfl⟩
theorem dramLineWriteback (d : DieId) (turn : LineTurn) : Statement (.dramLineWriteback d turn) := ⟨rfl, rfl⟩
theorem windowScrubComplete (chip : Nat) (grant : Nat) : Statement (.windowScrubComplete chip grant) := ⟨rfl, rfl⟩
theorem preemptRequest (chip : Nat) (vf : Nat) : Statement (.preemptRequest chip vf) := ⟨rfl, rfl⟩
theorem deferralLimit (chip : Nat) (vf : Nat) : Statement (.deferralLimit chip vf) := ⟨rfl, rfl⟩
theorem handlerPreemptLimit (t : ThreadId) : Statement (.handlerPreemptLimit t) := ⟨rfl, rfl⟩
theorem contextSaved (chip : Nat) (vf : Nat) : Statement (.contextSaved chip vf) := ⟨rfl, rfl⟩
theorem contextResume (chip : Nat) (vf : Nat) : Statement (.contextResume chip vf) := ⟨rfl, rfl⟩
theorem vfctlKill (chip : Nat) (vf : Nat) : Statement (.vfctlKill chip vf) := ⟨rfl, rfl⟩
theorem vfctlReset (chip : Nat) (vf : Nat) : Statement (.vfctlReset chip vf) := ⟨rfl, rfl⟩
theorem killReclaim (chip : Nat) (vf : Nat) : Statement (.killReclaim chip vf) := ⟨rfl, rfl⟩
theorem dlctlRound (chip : Nat) (vf : Nat) : Statement (.dlctlRound chip vf) := ⟨rfl, rfl⟩
theorem dlctlScan (chip : Nat) (vf : Nat) : Statement (.dlctlScan chip vf) := ⟨rfl, rfl⟩
theorem coreRetire (c : CoreId) (loss : CoreLoss) : Statement (.coreRetire c loss) := ⟨rfl, rfl⟩
theorem dramSpare (d : DieId) (bank : Bool) (unit : SpareUnit) : Statement (.dramSpare d bank unit) := ⟨rfl, rfl⟩
theorem laneFailure (d : DieId) (port : Nat) : Statement (.laneFailure d port) := ⟨rfl, rfl⟩
theorem laneRetrainDone (d : DieId) (port : Nat) : Statement (.laneRetrainDone d port) := ⟨rfl, rfl⟩
theorem counterRebuild (d : DieId) (block : Nat) : Statement (.counterRebuild d block) := ⟨rfl, rfl⟩
theorem lockkeeperSramScrub (chip : Nat) (upset : Upset) : Statement (.lockkeeperSramScrub chip upset) := ⟨rfl, rfl⟩
theorem heartbeat (chip : Nat) (missed : Bool) : Statement (.heartbeat chip missed) := ⟨rfl, rfl⟩
theorem takeOver (chip : Nat) : Statement (.takeOver chip) := ⟨rfl, rfl⟩
theorem lkupd (chip : Nat) (image : DWord) : Statement (.lkupd chip image) := ⟨rfl, rfl⟩
theorem liveUpdateTakeover (chip : Nat) (check : UpdateCheck) : Statement (.liveUpdateTakeover chip check) := ⟨rfl, rfl⟩
theorem moduleReset (boot : ModuleBoot) : Statement (.moduleReset boot) := ⟨rfl, rfl⟩
theorem thermalThreshold (chip : Nat) (temp : Nat) : Statement (.thermalThreshold chip temp) := ⟨rfl, rfl⟩
theorem linkRekey (d : DieId) (port : Nat) : Statement (.linkRekey d port) := ⟨rfl, rfl⟩
theorem ptpMessage (chip : Nat) (step : Int) : Statement (.ptpMessage chip step) := ⟨rfl, rfl⟩
theorem registerWrite (chip : Nat) (page : HostPage) (offset : Nat) (value : BitVec 128) : Statement (.registerWrite chip page offset value) := ⟨rfl, rfl⟩
theorem wellheadObjectRequest (op : Nat) : Statement (.wellheadObjectRequest op) := ⟨rfl, rfl⟩
theorem storeCompletion (op : Nat) : Statement (.storeCompletion op) := ⟨rfl, rfl⟩
theorem reductionSlotReply (op : Nat) : Statement (.reductionSlotReply op) := ⟨rfl, rfl⟩
theorem mkaMessage (chip : Nat) (port : Nat) : Statement (.mkaMessage chip port) := ⟨rfl, rfl⟩

end Sys2Proof.Laws.Encodes
end

