-- ==== Sys2Proof/Tests/Slice0.lean ====
section
/-! SUPPORT. Tests: each word, written out from the manual's encoding of it, decodes to its instruction and issues on a small
state; ill-formed terms are refused; small steps give the manual's results; and every statement's hypotheses are met by a
concrete state. -/

namespace Sys2Proof.Machine

set_option maxRecDepth 65536
set_option linter.unusedVariables false

/-- The state at which a placed word issues. -/
def stood (w : DWord) : State := { State.reset.placeWord w with turns := [], issuing := some (placedQuad, 0) }

/-- The same with registers given. -/
def stoodWith (w : DWord) (regs : List (Nat × Word)) : State :=
  (stood w).modThread placedThread fun x => regs.foldl (fun y r => y.setReg r.1 r.2) x

/-- The placed word's bundle. -/
def stoodBundle (w : DWord) : Bundle :=
  { threads := [placedThread], pc := mkPtr 0 1 0, cls := classOf (opcOf w), crew := true, words := [w] }

/-- Whether the placed bundle issues the word i alone at s. -/
def issuesCheck (s : State) (i : Instr) (f : Fields) (b : Bundle) : Bool :=
  decide (s.issuing = some (placedQuad, 0)) && decide (Tab.get? (s.quad placedQuad).bundles 0 = some b)
    && decide (i.fields? = some f) && decide (b.waitOps = [] ∧ b.rest = []) && decide (b.threads = [placedThread])
    && decide ((s.thread placedThread).run = .issuing) && (s.thread placedThread).executes f && !s.commonHold i placedThread
    && !s.interlocked placedThread (crossReads i)

/-- What the check says. -/
theorem issuesAlone_of_check {s : State} {i : Instr} {f : Fields} {b : Bundle} (h : issuesCheck s i f b = true) :
    IssuesAlone s i f placedQuad 0 b placedThread := by
  simp only [issuesCheck, Bool.and_eq_true, decide_eq_true_eq, Bool.not_eq_true'] at h
  obtain ⟨⟨⟨⟨⟨⟨⟨⟨h1, h2⟩, h3⟩, h4⟩, h5⟩, h6⟩, h7⟩, h8⟩, h9⟩ := h
  exact {
    turn := h1, bundle := h2, fields := h3, settled := h4.1, whole := h4.2
    once := by rw [h5]; simp
    running := by rw [h5]; simpa using h6
    free := by rw [h5]; simpa using fun _ => h8
    landed := by rw [h5]; simpa using h9
    alone := by simp [State.executing, h5, h7] }

/-- A word, written out, decodes to the instruction that mk makes of its fields, and issues alone on a placed state. -/
def Stands (w : Nat) (mk : Fields → Instr) : Bool :=
  let v := BitVec.ofNat 64 w
  decide (decodeTableWord 64 w = some (mk (Fields.ofWord v 0))) && issuesCheck (stood v) (mk (Fields.ofWord v 0)) (Fields.ofWord v 0) (stoodBundle v)

/-- A register of the placed thread after the word has issued, or none where it does not. -/
def gives (w : Nat) (mk : Fields → Instr) (regs : List (Nat × Word)) (preds : BitVec 16) (r : Nat) : Option Word :=
  let v := BitVec.ofNat 64 w
  match exec (mk (Fields.ofWord v 0)) ((stoodWith v regs).modThread placedThread fun x => { x with preds := preds }) with
  | .next u => some ((u.thread placedThread).reg r)
  | _ => none

/-- Likewise a predicate. -/
def decides (w : Nat) (mk : Fields → Instr) (regs : List (Nat × Word)) (preds : BitVec 16) (k : Nat) : Option Bool :=
  let v := BitVec.ofNat 64 w
  match exec (mk (Fields.ofWord v 0)) ((stoodWith v regs).modThread placedThread fun x => { x with preds := preds }) with
  | .next u => some ((u.thread placedThread).pred k)
  | _ => none



/-! ## Words written out from the encoding -/

theorem test_word_iadd : Stands 0x0000020181000000 .iadd = true := by decide
theorem test_word_isub : Stands 0x0004020181000000 .isub = true := by decide
theorem test_word_imul : Stands 0x0008020181000000 .imul = true := by decide
theorem test_word_imulhi : Stands 0x0010020181000000 .imulhi = true := by decide
theorem test_word_idivs : Stands 0x0014020181000000 .idivs = true := by decide
theorem test_word_idivu : Stands 0x0018020181000000 .idivu = true := by decide
theorem test_word_imin : Stands 0x0020020181000000 .imin = true := by decide
theorem test_word_imax : Stands 0x0024020181000000 .imax = true := by decide
theorem test_word_shl : Stands 0x0040020181000000 .shl = true := by decide
theorem test_word_shr : Stands 0x0044020181000000 .shr = true := by decide
theorem test_word_sar : Stands 0x0048020181000000 .sar = true := by decide
theorem test_word_bfe : Stands 0x0050020181000000 .bfe = true := by decide
theorem test_word_imad : Stands 0x000C02018100A000 .imad = true := by decide
theorem test_word_lop3 : Stands 0x004C02018100A000 .lop3 = true := by decide
theorem test_word_bfi : Stands 0x005402018100A000 .bfi = true := by decide
theorem test_word_popc : Stands 0x0058020180000000 .popc = true := by decide
theorem test_word_clz : Stands 0x005C020180000000 .clz = true := by decide
theorem test_word_brev : Stands 0x0060020180000000 .brev = true := by decide
theorem test_word_isetp : Stands 0x0064008181000000 .isetp = true := by decide
theorem test_word_sel : Stands 0x0068020181001000 .sel = true := by decide
theorem test_word_mov : Stands 0x006C020180000000 .mov = true := by decide
theorem test_word_klog : Stands 0x0070008081003000 .klog = true := by decide
theorem test_word_iadd64 : Stands 0x0080020181000000 .iadd64 = true := by decide
theorem test_word_isub64 : Stands 0x0084020181000000 .isub64 = true := by decide
theorem test_word_imul64 : Stands 0x0088020181000000 .imul64 = true := by decide
theorem test_word_imulhi64 : Stands 0x0090020181000000 .imulhi64 = true := by decide
theorem test_word_idivs64 : Stands 0x0094020181000000 .idivs64 = true := by decide
theorem test_word_idivu64 : Stands 0x0098020181000000 .idivu64 = true := by decide
theorem test_word_imin64 : Stands 0x00A0020181000000 .imin64 = true := by decide
theorem test_word_imax64 : Stands 0x00A4020181000000 .imax64 = true := by decide
theorem test_word_shl64 : Stands 0x00A8020181000000 .shl64 = true := by decide
theorem test_word_shr64 : Stands 0x00AC020181000000 .shr64 = true := by decide
theorem test_word_sar64 : Stands 0x00B0020181000000 .sar64 = true := by decide
theorem test_word_imad64 : Stands 0x008C02018100A000 .imad64 = true := by decide
theorem test_word_isetp64 : Stands 0x00B4008181000000 .isetp64 = true := by decide
theorem test_word_mov64 : Stands 0x00B8020180000000 .mov64 = true := by decide
theorem test_word_opadd : Stands 0x00C0020181000000 .opadd = true := by decide
theorem test_word_opdiff : Stands 0x00C4020181000000 .opdiff = true := by decide
theorem test_word_opmake : Stands 0x00C802018100A000 .opmake = true := by decide
theorem test_word_opext : Stands 0x00CC020180000000 .opext = true := by decide
theorem test_word_lea : Stands 0x00D0020181000000 .lea = true := by decide
theorem test_word_fadd : Stands 0x0100020181000000 .fadd = true := by decide
theorem test_word_fmul : Stands 0x0104020181000000 .fmul = true := by decide
theorem test_word_fmin : Stands 0x010C020181000000 .fmin = true := by decide
theorem test_word_fmax : Stands 0x0110020181000000 .fmax = true := by decide
theorem test_word_fsub : Stands 0x0128020181000000 .fsub = true := by decide
theorem test_word_ffma : Stands 0x010802018100A000 .ffma = true := by decide
theorem test_word_fsetp : Stands 0x0114008181000000 .fsetp = true := by decide
theorem test_word_frcp : Stands 0x0118020180000000 .frcp = true := by decide
theorem test_word_frsq : Stands 0x011C020180000000 .frsq = true := by decide
theorem test_word_fexp2 : Stands 0x0120020180000000 .fexp2 = true := by decide
theorem test_word_flog2 : Stands 0x0124020180000000 .flog2 = true := by decide
theorem test_word_pkadd : Stands 0x0140020181000000 .pkadd = true := by decide
theorem test_word_pkmul : Stands 0x0144020181000000 .pkmul = true := by decide
theorem test_word_pkmin : Stands 0x014C020181000000 .pkmin = true := by decide
theorem test_word_pkmax : Stands 0x0150020181000000 .pkmax = true := by decide
theorem test_word_pkfma : Stands 0x0148020181000000 .pkfma = true := by decide
theorem test_word_cvt : Stands 0x0180020481000000 .cvt = true := by decide
theorem test_word_cvt64 : Stands 0x01840203C1000000 .cvt64 = true := by decide
theorem test_word_tpack : Stands 0x01880500C1428000 .tpack = true := by decide
theorem test_word_tunpack : Stands 0x018C020180000000 .tunpack = true := by decide
theorem test_word_ld : Stands 0x0202020180400000 .ld = true := by decide
theorem test_word_st : Stands 0x0206020180400000 .st = true := by decide
theorem test_word_ldAcq : Stands 0x0212020180400000 .ldAcq = true := by decide
theorem test_word_stRel : Stands 0x0216020180400000 .stRel = true := by decide
theorem test_word_ldo : Stands 0x020A020180400000 .ldo = true := by decide
theorem test_word_sto : Stands 0x020E020180400000 .sto = true := by decide
theorem test_word_ldoAcq : Stands 0x021A020180400000 .ldoAcq = true := by decide
theorem test_word_stoRel : Stands 0x021E020180400000 .stoRel = true := by decide
theorem test_word_ctag : Stands 0x0222020180000000 .ctag = true := by decide
theorem test_word_cfill : Stands 0x0226000181000000 .cfill = true := by decide
theorem test_word_cevict : Stands 0x0228000001000000 .cevict = true := by decide
theorem test_word_cevictWb : Stands 0x0228000001001000 .cevictWb = true := by decide
theorem test_word_cpres : Stands 0x022E020180000000 .cpres = true := by decide
theorem test_word_copy : Stands 0x0230000181000001 .copy = true := by decide
theorem test_word_kick : Stands 0x0234000181000000 .kick = true := by decide
theorem test_word_oalloc : Stands 0x0280020001000000 .oalloc = true := by decide
theorem test_word_ofree : Stands 0x0284020180000000 .ofree = true := by decide
theorem test_word_opin : Stands 0x0288020180000000 .opin = true := by decide
theorem test_word_ounpin : Stands 0x028C020180000000 .ounpin = true := by decide
theorem test_word_ocoloc : Stands 0x0290020181000000 .ocoloc = true := by decide
theorem test_word_ocolocLeave : Stands 0x0290020180001000 .ocolocLeave = true := by decide
theorem test_word_olocate : Stands 0x0294020180000000 .olocate = true := by decide
theorem test_word_olocateGuess : Stands 0x0294020180001000 .olocateGuess = true := by decide
theorem test_word_omigrate : Stands 0x0298020181000000 .omigrate = true := by decide
theorem test_word_osplit : Stands 0x029C020181000000 .osplit = true := by decide
theorem test_word_ostubfree : Stands 0x02A0020180000000 .ostubfree = true := by decide
theorem test_word_oinfo : Stands 0x02A4020180000000 .oinfo = true := by decide
theorem test_word_atomAdd : Stands 0x02C0020181000000 .atomAdd = true := by decide
theorem test_word_atomMin : Stands 0x02C4020181000000 .atomMin = true := by decide
theorem test_word_atomMax : Stands 0x02C8020181000000 .atomMax = true := by decide
theorem test_word_atomAnd : Stands 0x02CC020181000000 .atomAnd = true := by decide
theorem test_word_atomOr : Stands 0x02D0020181000000 .atomOr = true := by decide
theorem test_word_atomXor : Stands 0x02D4020181000000 .atomXor = true := by decide
theorem test_word_atomXchg : Stands 0x02D8020181000000 .atomXchg = true := by decide
theorem test_word_atomCas : Stands 0x02DC020181000000 .atomCas = true := by decide
theorem test_word_atomIncb : Stands 0x02E0020181000000 .atomIncb = true := by decide
theorem test_word_atomDecb : Stands 0x02E4020181000000 .atomDecb = true := by decide
theorem test_word_atomWcas : Stands 0x02E8060181000000 .atomWcas = true := by decide
theorem test_word_atomTadd : Stands 0x02EC000181000000 .atomTadd = true := by decide
theorem test_word_arrive : Stands 0x0300000000001000 .arrive = true := by decide
theorem test_word_arriveBytes : Stands 0x0304000001001000 .arriveBytes = true := by decide
theorem test_word_await : Stands 0x0308020000001000 .await = true := by decide
theorem test_word_fence : Stands 0x030C000000000000 .fence = true := by decide
theorem test_word_ballot : Stands 0x0310020080000000 .ballot = true := by decide
theorem test_word_shfl : Stands 0x0314020181000000 .shfl = true := by decide
theorem test_word_creduce : Stands 0x0318020180000000 .creduce = true := by decide
theorem test_word_cscan : Stands 0x031C020180000000 .cscan = true := by decide
theorem test_word_cvote : Stands 0x0320008080000000 .cvote = true := by decide
theorem test_word_nbset : Stands 0x0324000181001000 .nbset = true := by decide
theorem test_word_mmag : Stands 0x0340000181000000 .mmag = true := by decide
theorem test_word_mmaq : Stands 0x034400018100A000 .mmaq = true := by decide
theorem test_word_mdrain : Stands 0x034800018100A000 .mdrain = true := by decide
theorem test_word_mdrainZonly : Stands 0x03480C0000000000 .mdrainZonly = true := by decide
theorem test_word_gres : Stands 0x034C018000002000 .gres = true := by decide
theorem test_word_gcancel : Stands 0x0350018000000000 .gcancel = true := by decide
theorem test_word_tfetch : Stands 0x0354020000000000 .tfetch = true := by decide
theorem test_word_launchq : Stands 0x0358020180000000 .launchq = true := by decide
theorem test_word_xsend : Stands 0x035C00018100C000 .xsend = true := by decide
theorem test_word_xfetch : Stands 0x036000018100C000 .xfetch = true := by decide
theorem test_word_xadd : Stands 0x036400018100C000 .xadd = true := by decide
theorem test_word_pumppost : Stands 0x0368020180000000 .pumppost = true := by decide
theorem test_word_pumppostCancel : Stands 0x0368020180001000 .pumppostCancel = true := by decide
theorem test_word_bra : Stands 0x0381000000000005 .bra = true := by decide
theorem test_word_brx : Stands 0x0384000181000000 .brx = true := by decide
theorem test_word_callRelative : Stands 0x0389000000000005 .callRelative = true := by decide
theorem test_word_callIndirect : Stands 0x0388000181000000 .callIndirect = true := by decide
theorem test_word_ret : Stands 0x038C000000000000 .ret = true := by decide
theorem test_word_exit : Stands 0x0390000000000000 .exit = true := by decide
theorem test_word_wait : Stands 0x0394000001000000 .wait = true := by decide
theorem test_word_yield : Stands 0x0398000000000000 .yield = true := by decide
theorem test_word_nop : Stands 0x039C000000000000 .nop = true := by decide
theorem test_word_trap : Stands 0x03C1000000000064 .trap = true := by decide
theorem test_word_tret : Stands 0x03C4000000000000 .tret = true := by decide
theorem test_word_tretSkip : Stands 0x03C4000000001000 .tretSkip = true := by decide
theorem test_word_sread : Stands 0x03C802000000B000 .sread = true := by decide
theorem test_word_swrite : Stands 0x03CC0000C000B000 .swrite = true := by decide
theorem test_word_tstamp : Stands 0x03D0000180000000 .tstamp = true := by decide
theorem test_word_winopen : Stands 0x03D4030100000000 .winopen = true := by decide
theorem test_word_winrel : Stands 0x03D8020180000000 .winrel = true := by decide
theorem test_word_winacq : Stands 0x03D8020180001000 .winacq = true := by decide
theorem test_word_winclose : Stands 0x03D8020180002000 .winclose = true := by decide
theorem test_word_keyqEpoch : Stands 0x03DC020000000000 .keyqEpoch = true := by decide
theorem test_word_keyqWepoch : Stands 0x03DC020180001000 .keyqWepoch = true := by decide
theorem test_word_keyqReport : Stands 0x03DC020180002000 .keyqReport = true := by decide

/-! ## Results -/

theorem test_result_iadd : gives 0x0000020181000000 .iadd [(6, 0x7FFFFFFF), (8, 0x1)] 0 4 = some 0x80000000 := by decide
theorem test_result_iadd_2 : gives 0x0000020181001000 .iadd [(6, 0x7FFFFFFF), (8, 0x1)] 0 4 = some 0x7FFFFFFF := by decide
theorem test_result_isub : gives 0x0004020181000000 .isub [(6, 0x0), (8, 0x1)] 0 4 = some 0xFFFFFFFF := by decide
theorem test_result_isub_2 : gives 0x0004020181002000 .isub [(6, 0x0), (8, 0x1)] 0 4 = some 0x0 := by decide
theorem test_result_imul : gives 0x0008020181000000 .imul [(6, 0x10001), (8, 0x10001)] 0 4 = some 0x20001 := by decide
theorem test_result_imulhi : gives 0x0010020181000000 .imulhi [(6, 0xFFFFFFFF), (8, 0x2)] 0 4 = some 0xFFFFFFFF := by decide
theorem test_result_imulhi_2 : gives 0x0010020181001000 .imulhi [(6, 0xFFFFFFFF), (8, 0x2)] 0 4 = some 0x1 := by decide
theorem test_result_idivs : gives 0x0014020181000000 .idivs [(6, 0x80000000), (8, 0xFFFFFFFF)] 0 4 = some 0x80000000 := by decide
theorem test_result_idivs_2 : gives 0x0014020181000000 .idivs [(6, 0xFFFFFFF9), (8, 0x2)] 0 4 = some 0xFFFFFFFD := by decide
theorem test_result_idivu : gives 0x0018020181000000 .idivu [(6, 0x11), (8, 0x0)] 0 4 = some 0xFFFFFFFF := by decide
theorem test_result_idivu_2 : gives 0x0018020181001000 .idivu [(6, 0x11), (8, 0x0)] 0 4 = some 0x11 := by decide
theorem test_result_imin : gives 0x0020020181000000 .imin [(6, 0xFFFFFFFF), (8, 0x1)] 0 4 = some 0xFFFFFFFF := by decide
theorem test_result_imin_2 : gives 0x0020020181001000 .imin [(6, 0xFFFFFFFF), (8, 0x1)] 0 4 = some 0x1 := by decide
theorem test_result_imax : gives 0x0024020181000000 .imax [(6, 0xFFFFFFFF), (8, 0x1)] 0 4 = some 0x1 := by decide
theorem test_result_imax_2 : gives 0x0024020181001000 .imax [(6, 0xFFFFFFFF), (8, 0x1)] 0 4 = some 0xFFFFFFFF := by decide
theorem test_result_shl : gives 0x0040020181000000 .shl [(6, 0x1), (8, 0x20)] 0 4 = some 0x0 := by decide
theorem test_result_shr : gives 0x0044020181000000 .shr [(6, 0x80000000), (8, 0x1F)] 0 4 = some 0x1 := by decide
theorem test_result_sar : gives 0x0048020181000000 .sar [(6, 0x80000000), (8, 0x28)] 0 4 = some 0xFFFFFFFF := by decide
theorem test_result_bfe : gives 0x0050020181000000 .bfe [(6, 0x12345678), (8, 0x804)] 0 4 = some 0x67 := by decide
theorem test_result_bfe_2 : gives 0x0050020181001000 .bfe [(6, 0x80000000), (8, 0x81C)] 0 4 = some 0xFFFFFFF8 := by decide
theorem test_result_imad : gives 0x000C02018100A000 .imad [(6, 0x3), (8, 0x4), (10, 0x5)] 0 4 = some 0x11 := by decide
theorem test_result_lop3 : gives 0x004C02018100A000 .lop3 [(6, 0xFF00FF), (8, 0xD8), (10, 0x12345678), (4, 0xFFFF)] 0 4 = some 0x34FF78 := by decide
theorem test_result_bfi : gives 0x005402018100A000 .bfi [(6, 0xAB), (8, 0x808), (10, 0x11223344)] 0 4 = some 0x1122AB44 := by decide
theorem test_result_popc : gives 0x0058020180000000 .popc [(6, 0xF0F0)] 0 4 = some 0x8 := by decide
theorem test_result_clz : gives 0x005C020180000000 .clz [(6, 0x10000)] 0 4 = some 0xF := by decide
theorem test_result_brev : gives 0x0060020180000000 .brev [(6, 0x1)] 0 4 = some 0x80000000 := by decide
theorem test_result_isetp : decides 0x0064008181000000 .isetp [(6, 0x5), (8, 0x5)] 0 1 = some true := by decide
theorem test_result_isetp_2 : decides 0x0064008181009000 .isetp [(6, 0xFFFFFFFF), (8, 0x0)] 0 1 = some false := by decide
theorem test_result_sel : gives 0x0068020181001000 .sel [(6, 0x1), (8, 0x2)] 0 4 = some 0x2 := by decide
theorem test_result_sel_2 : gives 0x0068020181001000 .sel [(6, 0x1), (8, 0x2)] 2 4 = some 0x1 := by decide
theorem test_result_mov : gives 0x006C020180000000 .mov [(6, 0x7)] 0 4 = some 0x7 := by decide
theorem test_result_klog : decides 0x0070008081003000 .klog [(8, 0xE8)] 12 1 = some true := by decide
theorem test_result_klog_2 : decides 0x0070008081003000 .klog [(8, 0xE8)] 4 1 = some false := by decide
theorem test_result_iadd64 : gives 0x0080020181000000 .iadd64 [(6, 0xFFFFFFFF), (8, 0x1)] 0 5 = some 0x1 := by decide
theorem test_result_isub64 : gives 0x0084020181000000 .isub64 [(8, 0x1)] 0 5 = some 0xFFFFFFFF := by decide
theorem test_result_imul64 : gives 0x0088020181000000 .imul64 [(6, 0x80000000), (8, 0x2)] 0 5 = some 0x1 := by decide
theorem test_result_imulhi64 : gives 0x0090020181000000 .imulhi64 [(6, 0xFFFFFFFF), (7, 0xFFFFFFFF), (8, 0x2)] 0 4 = some 0xFFFFFFFF := by decide
theorem test_result_idivs64 : gives 0x0094020181000000 .idivs64 [(6, 0xFFFFFFF9), (7, 0xFFFFFFFF), (8, 0x2)] 0 4 = some 0xFFFFFFFD := by decide
theorem test_result_idivu64 : gives 0x0098020181000000 .idivu64 [(6, 0x11)] 0 5 = some 0xFFFFFFFF := by decide
theorem test_result_imin64 : gives 0x00A0020181000000 .imin64 [(6, 0xFFFFFFFF), (7, 0xFFFFFFFF), (8, 0x1)] 0 4 = some 0xFFFFFFFF := by decide
theorem test_result_imax64 : gives 0x00A4020181000000 .imax64 [(6, 0xFFFFFFFF), (7, 0xFFFFFFFF), (8, 0x1)] 0 4 = some 0x1 := by decide
theorem test_result_shl64 : gives 0x00A8020181000000 .shl64 [(6, 0x1), (8, 0x20)] 0 5 = some 0x1 := by decide
theorem test_result_shr64 : gives 0x00AC020181000000 .shr64 [(7, 0x1), (8, 0x20)] 0 4 = some 0x1 := by decide
theorem test_result_sar64 : gives 0x00B0020181000000 .sar64 [(7, 0x80000000), (8, 0x40)] 0 4 = some 0xFFFFFFFF := by decide
theorem test_result_imad64 : gives 0x008C02018100A000 .imad64 [(6, 0x3), (8, 0x4), (10, 0x5)] 0 4 = some 0x11 := by decide
theorem test_result_isetp64 : decides 0x00B4008181000000 .isetp64 [(6, 0x5), (7, 0x1), (8, 0x5)] 0 1 = some false := by decide
theorem test_result_mov64 : gives 0x00B8020180000000 .mov64 [(7, 0x9)] 0 5 = some 0x9 := by decide
theorem test_result_opadd : gives 0x00C0020181000000 .opadd [(6, 0x40000010), (8, 0xFFFFFFFC)] 0 4 = some 0x4000000C := by decide
theorem test_result_opadd_2 : gives 0x00C0020181001000 .opadd [(6, 0x40000000), (8, 0xFFFFFFFC)] 0 4 = some 0x7FFFFFFC := by decide
theorem test_result_opdiff : gives 0x00C4020181000000 .opdiff [(6, 0x40000010), (8, 0x40000020)] 0 4 = some 0xFFFFFFF0 := by decide
theorem test_result_opmake : gives 0x00C802018100A000 .opmake [(6, 0x1), (8, 0x2), (10, 0x3)] 0 5 = some 0x100000 := by decide
theorem test_result_opext : gives 0x00CC020180000000 .opext [(6, 0x40000010)] 0 4 = some 0x10 := by decide
theorem test_result_opext_2 : gives 0x00CC020180001000 .opext [(6, 0x40000010)] 0 4 = some 0x1 := by decide
theorem test_result_lea : gives 0x00D0020181003000 .lea [(6, 0x40000010), (8, 0x3)] 0 4 = some 0x40000028 := by decide
theorem test_result_fadd : gives 0x0100020181000000 .fadd [(6, 0x3F800000), (8, 0x40000000)] 0 4 = some 0x40400000 := by decide
theorem test_result_fadd_2 : gives 0x0100020181004000 .fadd [(6, 0x3F800000), (8, 0xBF800000)] 0 4 = some 0x80000000 := by decide
theorem test_result_fmul : gives 0x0104020181000000 .fmul [(6, 0x40000000), (8, 0x40400000)] 0 4 = some 0x40C00000 := by decide
theorem test_result_fmin : gives 0x010C020181000000 .fmin [(6, 0x7FC00000), (8, 0x40000000)] 0 4 = some 0x40000000 := by decide
theorem test_result_fmax : gives 0x0110020181000000 .fmax [(6, 0x0), (8, 0x80000000)] 0 4 = some 0x0 := by decide
theorem test_result_fsub : gives 0x0128020181000000 .fsub [(6, 0x3F800000), (8, 0x40000000)] 0 4 = some 0xBF800000 := by decide
theorem test_result_ffma : gives 0x010802018100A000 .ffma [(6, 0x40000000), (8, 0x40400000), (10, 0x3F800000)] 0 4 = some 0x40E00000 := by decide
theorem test_result_fsetp : decides 0x0114008181000000 .fsetp [(6, 0x0), (8, 0x80000000)] 0 1 = some true := by decide
theorem test_result_frcp : gives 0x0118020180000000 .frcp [(6, 0x40000000)] 0 4 = some 0x3F000000 := by decide
theorem test_result_frsq : gives 0x011C020180000000 .frsq [(6, 0x80000000)] 0 4 = some 0xFF800000 := by decide
theorem test_result_frsq_2 : gives 0x011C020180000000 .frsq [(6, 0x40800000)] 0 4 = some 0x3F000000 := by decide
theorem test_result_fexp2 : gives 0x0120020180000000 .fexp2 [(6, 0x43000000)] 0 4 = some 0x7F800000 := by decide
theorem test_result_flog2 : gives 0x0124020180000000 .flog2 [(6, 0x41000000)] 0 4 = some 0x40400000 := by decide
theorem test_result_pkadd : gives 0x0140020181000000 .pkadd [(6, 0x3C003C00), (8, 0x3C004000)] 0 4 = some 0x40004200 := by decide
theorem test_result_pkmul : gives 0x0144020181000000 .pkmul [(6, 0x40004000), (8, 0x42003C00)] 0 4 = some 0x46004000 := by decide
theorem test_result_pkmin : gives 0x014C020181000000 .pkmin [(6, 0x3C004000), (8, 0x40003C00)] 0 4 = some 0x3C003C00 := by decide
theorem test_result_pkmax : gives 0x0150020181000000 .pkmax [(6, 0x3C004000), (8, 0x40003C00)] 0 4 = some 0x40004000 := by decide
theorem test_result_pkfma : gives 0x0148020181000000 .pkfma [(6, 0x40004000), (8, 0x42004200), (4, 0x3C003C00)] 0 4 = some 0x47004700 := by decide
theorem test_result_cvt : gives 0x0180020241000000 .cvt [(8, 0xC06CCCCD)] 0 4 = some 0x0 := by decide
theorem test_result_cvt_2 : gives 0x0180024081001000 .cvt [(8, 0x7F7FFFFF)] 0 4 = some 0x7F7F := by decide
theorem test_result_cvt64 : gives 0x01840203C1000000 .cvt64 [(8, 0x40400000)] 0 4 = some 0x3 := by decide
theorem test_result_tpack : gives 0x01880500C1428000 .tpack [(3, 0x453B8000), (10, 0xD040)] 0 10 = some 0x7FD040 := by decide
theorem test_result_tunpack : gives 0x018C020180008000 .tunpack [(6, 0x407FD040)] 0 4 = some 0x45800000 := by decide

/-- A word issues on the placed state with every source that it may name readable. -/
def Reads (w : Nat) (mk : Fields → Instr) : Bool :=
  let v := BitVec.ofNat 64 w
  let f := Fields.ofWord v 0
  let s := stood v
  let b := stoodBundle v
  let t := placedThread
  let x := s.thread t
  Stands w mk && (s.a32 b t f).isSome && (x.b32 f).isSome && (x.c32 f).isSome && (s.a64 b t f).isSome && (x.b64 f).isSome && (x.c64 f).isSome
    && (s.aF b t f).isSome && (x.bF f).isSome && (x.cF f).isSome && (x.old32 f).isSome

/-! ## Every control value that a statement about register words names -/

theorem witness_codes_iadd : [0x0000020181000000, 0x0000020181001000, 0x0000020181002000].all (fun w => Reads w .iadd) = true := by decide
theorem witness_codes_isub : [0x0004020181000000, 0x0004020181001000, 0x0004020181002000].all (fun w => Reads w .isub) = true := by decide
theorem witness_codes_iadd64 : [0x0080020181000000, 0x0080020181001000, 0x0080020181002000].all (fun w => Reads w .iadd64) = true := by decide
theorem witness_codes_isub64 : [0x0084020181000000, 0x0084020181001000, 0x0084020181002000].all (fun w => Reads w .isub64) = true := by decide
theorem witness_codes_imulhi : [0x0010020181000000, 0x0010020181001000].all (fun w => Reads w .imulhi) = true := by decide
theorem witness_codes_imulhi64 : [0x0090020181000000, 0x0090020181001000].all (fun w => Reads w .imulhi64) = true := by decide
theorem witness_codes_idivu : [0x0018020181000000, 0x0018020181001000].all (fun w => Reads w .idivu) = true := by decide
theorem witness_codes_idivs : [0x0014020181000000, 0x0014020181001000].all (fun w => Reads w .idivs) = true := by decide
theorem witness_codes_idivu64 : [0x0098020181000000, 0x0098020181001000].all (fun w => Reads w .idivu64) = true := by decide
theorem witness_codes_idivs64 : [0x0094020181000000, 0x0094020181001000].all (fun w => Reads w .idivs64) = true := by decide
theorem witness_codes_imin : [0x0020020181000000, 0x0020020181001000].all (fun w => Reads w .imin) = true := by decide
theorem witness_codes_imax : [0x0024020181000000, 0x0024020181001000].all (fun w => Reads w .imax) = true := by decide
theorem witness_codes_imin64 : [0x00A0020181000000, 0x00A0020181001000].all (fun w => Reads w .imin64) = true := by decide
theorem witness_codes_imax64 : [0x00A4020181000000, 0x00A4020181001000].all (fun w => Reads w .imax64) = true := by decide
theorem witness_codes_isetp : [0x0064008181000000, 0x0064008181001000, 0x0064008181002000, 0x0064008181003000, 0x0064008181004000, 0x0064008181005000, 0x0064008181009000, 0x006400818100A000, 0x006400818100B000, 0x006400818100C000].all (fun w => Reads w .isetp) = true := by decide
theorem witness_codes_isetp64 : [0x00B4008181000000, 0x00B4008181001000, 0x00B4008181002000, 0x00B4008181003000, 0x00B4008181004000, 0x00B4008181005000, 0x00B4008181009000, 0x00B400818100A000, 0x00B400818100B000, 0x00B400818100C000].all (fun w => Reads w .isetp64) = true := by decide
theorem witness_codes_opext : [0x00CC020180000000, 0x00CC020180001000, 0x00CC020180002000].all (fun w => Reads w .opext) = true := by decide
theorem witness_reads_imul : Reads 0x0008020181000000 .imul = true := by decide
theorem witness_reads_imul64 : Reads 0x0088020181000000 .imul64 = true := by decide
theorem witness_reads_imad : Reads 0x000C02018100A000 .imad = true := by decide
theorem witness_reads_shl : Reads 0x0040020181000000 .shl = true := by decide
theorem witness_reads_shr : Reads 0x0044020181000000 .shr = true := by decide
theorem witness_reads_sar : Reads 0x0048020181000000 .sar = true := by decide
theorem witness_reads_shl64 : Reads 0x00A8020181000000 .shl64 = true := by decide
theorem witness_reads_shr64 : Reads 0x00AC020181000000 .shr64 = true := by decide
theorem witness_reads_sar64 : Reads 0x00B0020181000000 .sar64 = true := by decide
theorem witness_reads_lop3 : Reads 0x004C02018100A000 .lop3 = true := by decide
theorem witness_reads_klog : Reads 0x0070008081003000 .klog = true := by decide
theorem witness_reads_bfe : Reads 0x0050020181000000 .bfe = true := by decide
theorem witness_reads_bfi : Reads 0x005402018100A000 .bfi = true := by decide
theorem witness_reads_popc : Reads 0x0058020180000000 .popc = true := by decide
theorem witness_reads_clz : Reads 0x005C020180000000 .clz = true := by decide
theorem witness_reads_brev : Reads 0x0060020180000000 .brev = true := by decide
theorem witness_reads_sel : Reads 0x0068020181001000 .sel = true := by decide
theorem witness_reads_mov : Reads 0x006C020180000000 .mov = true := by decide
theorem witness_reads_mov64 : Reads 0x00B8020180000000 .mov64 = true := by decide
theorem witness_reads_imad64 : Reads 0x008C02018100A000 .imad64 = true := by decide
theorem witness_reads_opadd : Reads 0x00C0020181000000 .opadd = true := by decide
theorem witness_reads_lea : Reads 0x00D0020181000000 .lea = true := by decide
theorem witness_reads_opdiff : Reads 0x00C4020181000000 .opdiff = true := by decide
theorem witness_reads_opmake : Reads 0x00C802018100A000 .opmake = true := by decide
theorem witness_reads_fadd : Reads 0x0100020181000000 .fadd = true := by decide
theorem witness_reads_fsub : Reads 0x0128020181000000 .fsub = true := by decide
theorem witness_reads_fmul : Reads 0x0104020181000000 .fmul = true := by decide
theorem witness_reads_ffma : Reads 0x010802018100A000 .ffma = true := by decide
theorem witness_reads_frcp : Reads 0x0118020180000000 .frcp = true := by decide
theorem witness_reads_frsq : Reads 0x011C020180000000 .frsq = true := by decide
theorem witness_reads_fexp2 : Reads 0x0120020180000000 .fexp2 = true := by decide
theorem witness_reads_flog2 : Reads 0x0124020180000000 .flog2 = true := by decide
theorem witness_reads_fmin : Reads 0x010C020181000000 .fmin = true := by decide
theorem witness_reads_fmax : Reads 0x0110020181000000 .fmax = true := by decide
theorem witness_reads_fsetp : Reads 0x0114008181000000 .fsetp = true := by decide
theorem witness_reads_pkadd : Reads 0x0140020181000000 .pkadd = true := by decide
theorem witness_reads_pkmul : Reads 0x0144020181000000 .pkmul = true := by decide
theorem witness_reads_pkfma : Reads 0x0148020181000000 .pkfma = true := by decide
theorem witness_reads_pkmin : Reads 0x014C020181000000 .pkmin = true := by decide
theorem witness_reads_pkmax : Reads 0x0150020181000000 .pkmax = true := by decide
theorem witness_reads_cvt : Reads 0x0180020481000000 .cvt = true := by decide
theorem witness_reads_cvt64 : Reads 0x01840203C1000000 .cvt64 = true := by decide
theorem witness_reads_tpack : Reads 0x01880500C1428000 .tpack = true := by decide
theorem witness_reads_tunpack : Reads 0x018C020180000000 .tunpack = true := by decide

/-! ## Ill-formed words: each check of the decoder refuses one -/

/-- Whether a word alone in the widest clause of its class raises a trap at decode, and its term, if it has one, is not well formed. -/
def Refused (w : Nat) (k : TrapKind) : Bool :=
  let v := BitVec.ofNat 64 w
  (match decodeWord (WordCtx.widest (opcOf v)) v 0 with | .error e => e = k | .ok _ => false) && (decodeTableWord 64 w).isNone
    && (match Instr.ofCode (opcOf v) (Fields.ofWord v 0) with | some i => !i.wellFormed | none => true)

theorem test_refused_reserved_code : Refused 0x001C000000000000 .illegalInstruction = true := by decide
theorem test_refused_class_of_code : Refused 0x0328000000000000 .illegalInstruction = true := by decide
theorem test_refused_form : Refused 0x039E000000000000 .illegalInstruction = true := by decide
theorem test_refused_no_write_back_of_a_store : Refused 0x0206820180400000 .illegalInstruction = true := by decide
theorem test_refused_latch_destination_beyond : Refused 0x0000840181000000 .illegalInstruction = true := by decide
theorem test_refused_destination_not_zero : Refused 0x039C008000000000 .illegalInstruction = true := by decide
theorem test_refused_predicate_beyond : Refused 0x0064080181000000 .illegalInstruction = true := by decide
theorem test_refused_slot_beyond : Refused 0x034C200000000000 .illegalInstruction = true := by decide
theorem test_refused_source_not_zero : Refused 0x039C000040000000 .illegalInstruction = true := by decide
theorem test_refused_control_value : Refused 0x0064008181006000 .illegalInstruction = true := by decide
theorem test_refused_reserved_source : Refused 0x0000024201000000 .illegalInstruction = true := by decide
theorem test_refused_constant_address : Refused 0x0202026400000000 .illegalInstruction = true := by decide
theorem test_refused_predicate_source_beyond : Refused 0x0070008401003000 .illegalInstruction = true := by decide
theorem test_refused_modifier_reserved : Refused 0x0000020181000004 .illegalInstruction = true := by decide
theorem test_refused_modifier_not_zero : Refused 0x039C000000000001 .illegalInstruction = true := by decide
theorem test_refused_engine_control : Refused 0x0340000181000020 .illegalInstruction = true := by decide
theorem test_refused_odd_pair : Refused 0x0080028181000000 .illegalOperand = true := by decide
theorem test_refused_pair_beyond : Refused 0x00807F0181000000 .illegalOperand = true := by decide
theorem test_refused_odd_source_pair : Refused 0x00800201C1000000 .illegalOperand = true := by decide
theorem test_refused_modifier_group : Refused 0x000002018100047C .illegalOperand = true := by decide
def isErrorOf (r : Except TrapKind Instr) (k : TrapKind) : Bool := match r with | .error e => e = k | .ok _ => false
theorem test_refused_tile : isErrorOf (decodeWord { WordCtx.widest 0xD0 with tiles := 0 } 0x034001810100_0000 0) .illegalOperand = true := by decide
theorem test_refused_guard_slot : isErrorOf (decodeWord { WordCtx.widest 0xD3 with gslots := 3 } 0x034C018000000000 0) .illegalOperand = true := by decide
theorem test_refused_register : isErrorOf (decodeWord { WordCtx.widest 0 with regs := 8 } 0x0000020181000000 0) .illegalOperand = true := by decide
theorem test_refused_unwritten_latch : isErrorOf (decodeWord { WordCtx.widest 0 with latches := [] } 0x0000024001000000 0) .illegalOperand = true := by decide
theorem test_refused_not_last : isErrorOf (decodeWord { WordCtx.widest 0xE4 with last := false } 0x0390000000000000 0) .illegalInstruction = true := by decide
theorem test_refused_not_crew : isErrorOf (decodeWord { WordCtx.widest 0xC4 with crew := false } 0x0310020080000000 0) .illegalInstruction = true := by decide
theorem test_refused_literal : (Instr.nop { noFields with lit := 1 }).wellFormed = false := by decide
theorem test_refused_control_field : (Instr.winrel { noFields with sc := 1, dst := 4, sa := 6 }).wellFormed = false := by decide
theorem test_refused_quadrant : (Instr.formBundle ⟨0, 0, 0, 4⟩).wellFormed = false := by decide
theorem test_refused_core : (Instr.coreRetire ⟨0, 0, 48⟩ ⟨[], true⟩).wellFormed = false := by decide
theorem test_refused_die : (Instr.pumpTransaction ⟨0, 4⟩ ⟨0, .none⟩).wellFormed = false := by decide


/-! ## Steps from reset with a word placed -/

/-- The placed thread after the step that runs a placed word. -/
def placedStep (w : Nat) : Option Thread := match step (State.reset.withFetchWord 64 w) with
  | .next u => some (u.thread placedThread)
  | _ => none
theorem test_step_mov : (placedStep 0x006D_0200_3000_0005).map (·.reg 4) = some 0xF0000005 := by decide
theorem test_step_exit : (placedStep 0x0390_0000_0000_0000).map (·.run) = some .draining := by decide
theorem test_step_nop : (placedStep 0x039C_0000_0000_0000).map (·.pc) = some (mkPtr 0 1 16) := by decide

/-! ## Witnesses of the statements' hypotheses -/

/-- The placed state with an object of 2 MiB that holds code (all zero words) and data. -/
def world (w : DWord) : State :=
  { stood w with objects := [((0, 1), { size := 2 ^ 21, extents := [{}], pages := List.replicate 32 {} })] }
def State.tweak (s : State) (f : Thread → Thread) : State := s.modThread placedThread f
def State.load (s : State) (l : List (Nat × Word)) : State := s.tweak fun x => l.foldl (fun y r => y.setReg r.1 r.2) x
/-- A pointer into the object, and its halves. -/
def objPtr (o : Nat) : DWord := mkPtr 0 1 o
/-- A register pair that holds a pointer. -/
def pairAt (n : Nat) (p : DWord) : List (Nat × Word) := [(n, p.extractLsb' 0 32), (n + 1, p.extractLsb' 32 32)]

/-- The state issues the written-out word alone, and meets a test there. -/
def Meets (s : State) (w : Nat) (mk : Fields → Instr) (p : State → Bundle → ThreadId → Fields → Bool) : Bool :=
  let v := BitVec.ofNat 64 w
  let f := Fields.ofWord v 0
  issuesCheck s (mk f) f (stoodBundle v) && p s (stoodBundle v) placedThread f

def fetchable (s : State) (p : DWord) : Bool := match s.fetchClause placedThread.cohort p with
  | .ok _ => true
  | .error _ => false
def staysIn (p : DWord) (d : Int) : Bool := 0 ≤ (offsetOf p : Int) + 8 * d && (offsetOf p : Int) + 8 * d < 2 ^ 30

/-- The placed state between turns. -/
def between : State := { (world 0).modDie ⟨0, 0⟩ fun x => { x with cached := [0x4000] } with issuing := none }
/-- With one operation of the placed thread under way, as number 5, counted. -/
def State.under (s : State) (o : Op) : State :=
  let s := { s with ops := [(5, { o with thread := placedThread })], nextId := 6 }
  match o.ctr with
  | some c => s.tweak fun x => x.raiseDc c 5
  | none => s
def theOp (o : Op) : Op := { o with thread := placedThread }
def places (r : Reach) (a : Nat) : Bool := match r with
  | .place x => x = a
  | _ => false
/-- Whether an outcome is a next state that meets a test. -/
def nexts (o : Host.Outcome State Fault Refusal) (p : State → Bool) : Bool := match o with
  | .next u => p u
  | _ => false

/-- A crew of two threads at a word, the second with registers and predicates of its own. -/
def otherThread : ThreadId := ⟨placedThread.cohort, 1⟩
def crewOfTwo (w : DWord) (regs : List (Nat × Word)) (preds : BitVec 16) : State :=
  let s := stood w
  let b := { stoodBundle w with threads := [placedThread, otherThread] }
  let s := s.setThread otherThread { s.thread placedThread with preds := preds }
  let s := s.modThread otherThread fun x => regs.foldl (fun y r => y.setReg r.1 r.2) x
  s.modQuad placedQuad fun q => { q with bundles := [(0, b)] }
def crewBundle (w : DWord) : Bundle := { stoodBundle w with threads := [placedThread, otherThread] }

/-- Whether a bundle issues a word, all of whose threads execute it. -/
def crewCheck (s : State) (i : Instr) (f : Fields) (b : Bundle) : Bool :=
  decide (s.issuing = some (placedQuad, 0)) && decide (Tab.get? (s.quad placedQuad).bundles 0 = some b)
    && decide (i.fields? = some f) && decide (b.waitOps = [] ∧ b.rest = []) && decide b.threads.Nodup
    && b.threads.all fun t => decide ((s.thread t).run = .issuing) && (s.thread t).executes f && !s.commonHold i t && !s.interlocked t (crossReads i)

theorem issuing_of_check {s : State} {i : Instr} {f : Fields} {b : Bundle} (h : crewCheck s i f b = true) : Issuing s i f placedQuad 0 b := by
  simp only [crewCheck, Bool.and_eq_true, decide_eq_true_eq, List.all_eq_true, Bool.not_eq_true'] at h
  obtain ⟨⟨⟨⟨⟨h1, h2⟩, h3⟩, h4⟩, h5⟩, h6⟩ := h
  exact {
    turn := h1, bundle := h2, fields := h3, settled := h4.1, whole := h4.2, once := h5
    running := fun t ht => (h6 t ht).1.1.1
    free := fun t ht _ => (h6 t ht).1.2
    landed := fun t ht => (h6 t ht).2 }

/-- A crew of two issues the written-out word, and its next state meets a test. -/
def CrewMeets (w : Nat) (mk : Fields → Instr) (regs : List (Nat × Word)) (preds : BitVec 16) (p : State → State → Bool) : Bool :=
  let v := BitVec.ofNat 64 w
  let f := Fields.ofWord v 0
  let s := crewOfTwo v regs preds
  decide (decodeTableWord 64 w = some (mk f)) && crewCheck s (mk f) f (crewBundle v)
    && (match exec (mk f) s with
      | .next u => p s u
      | _ => false)

/-- The placed quadrant with a command of the placed thread at the head of its first queue, as operation 5. -/
def commanded (m : MatOp) : State :=
  (between.under { ctr := some 4, body := .matrix m }).modQuad placedQuad fun q => { q with queues := [[5], []] }
/-- A command of the placed thread. -/
def matCmd : MatOp := { members := [placedThread], quad := placedQuad, begun := true }
/-- Bytes written before the test. -/
def State.holding (s : State) (l : List (Nat × List Byte)) : State :=
  { s with mem := l.foldl (fun (m : List Host.Cell) (x : Nat × List Byte) => Memory.writeBytes m x.1 x.2) s.mem }
/-- A parameter block of one group of K 32 and N 2, whose rows of A, rows of B and row count lie at 0x1000, 0x2000 and 0x8000. -/
def blockBytes : List Byte :=
  bytesLE 4 32 ++ bytesLE 2 2 ++ [1, 0] ++ bytesLE 8 (objPtr 0x8000).toNat ++ bytesLE 4 32 ++ bytesLE 4 32 ++ bytesLE 40 0
    ++ bytesLE 8 (objPtr 0x1000).toNat ++ bytesLE 8 (objPtr 0x2000).toNat ++ bytesLE 16 0 ++ [0, 128] ++ bytesLE 30 0
/-- Whether a result is bytes. -/
def givesBytes (r : MatRead × List Nat) (bs : List Byte) : Bool := match r.1 with
  | .bytes l => l = bs
  | _ => false
def isOk {ε α : Type} (r : Except ε α) : Bool := match r with
  | .ok _ => true
  | .error _ => false
def isErr {ε α : Type} [DecidableEq ε] (r : Except ε α) (e : ε) : Bool := match r with
  | .ok _ => false
  | .error x => x = e
/-- The matrix command of an operation. -/
def State.cmd? (s : State) (id : Nat) : Option MatOp := (s.op? id).bind fun o => match o.body with
  | .matrix m => some m
  | _ => none
/-- A small launch, and the placed state with it as a queued grid of function 0. -/
def smallLaunch : Launch := { kernel := objPtr 0, threads := 1, regs := 16, ladder := 7 }
def queued : State := between.setGrid 0 2 { launch := smallLaunch, args := [7], set' := [(0, 0)] }
/-- Its record. -/
def smallRecord : List Byte := bytesLE 8 (objPtr 0).toNat ++ bytesLE 36 0 ++ bytesLE 2 1 ++ [16, 0, 0, 0, 0, 7] ++ bytesLE 76 0

theorem witness_bra : Meets (world 0x0381000000000005) 0x381000000000005 .bra (fun s b t f => (s.thread t).b32 f = some 5 && staysIn b.pc 5 && fetchable s (targetOf b.pc 5)) = true := by decide
theorem witness_brx : Meets ((world 0x0384000181000000).load (pairAt 6 (objPtr 0) ++ [(8, 5)])) 0x384000181000000 .brx (fun s b t f => (s.thread t).src64 f.sa = some (objPtr 0) && (s.thread t).b32 f = some 5 && namesObject (objPtr 0) && staysIn (objPtr 0) 5 && fetchable s (targetOf (objPtr 0) 5)) = true := by decide
theorem witness_call_relative : Meets (world 0x0389000000000005) 0x389000000000005 .callRelative (fun s b t f => (s.thread t).b32 f = some 5 && staysIn b.pc 5 && fetchable s (targetOf b.pc 5) && (s.thread t).ret.length + (s.thread t).stack.length < 8 + (s.launchOf t.cohort).cstack && (s.thread t).ret.length < 8) = true := by decide
theorem witness_call_indirect : Meets ((world 0x0388000181000000).load (pairAt 6 (objPtr 0) ++ [(8, 5)])) 0x388000181000000 .callIndirect (fun s b t f => (s.thread t).src64 f.sa = some (objPtr 0) && (s.thread t).b32 f = some 5 && namesObject (objPtr 0) && staysIn (objPtr 0) 5 && fetchable s (targetOf (objPtr 0) 5) && (s.thread t).ret.length + (s.thread t).stack.length < 8 + (s.launchOf t.cohort).cstack && (s.thread t).ret.length < 8) = true := by decide
theorem witness_ret : Meets ((world 0x038C000000000000).tweak fun x => { x with ret := [objPtr 0x40] }) 0x38C000000000000 .ret (fun s b t f => (s.thread t).ret.head? = some (objPtr 0x40) && fetchable s (targetOf (objPtr 0x40) 0)) = true := by decide
theorem witness_bra_out : Meets (world 0x038100003FFFFFFF) 0x38100003FFFFFFF .bra (fun s b t f => (s.thread t).b32 f = some (-1) && !staysIn b.pc (-1)) = true := by decide
theorem witness_bra_unfetched : Meets (stood 0x0381000000000005) 0x381000000000005 .bra (fun s b t f => (s.thread t).b32 f = some 5 && staysIn b.pc 5 && offsetOf (targetOf b.pc 5) % 8 = 0 && !fetchable s (targetOf b.pc 5)) = true := by decide
theorem witness_call_full : Meets ((world 0x0389000000000005).tweak fun x => { x with ret := List.replicate 8 0, stack := List.replicate 64 0 }) 0x389000000000005 .callRelative (fun s b t f => (s.thread t).b32 f = some 5 && staysIn b.pc 5 && (s.thread t).ret.length + (s.thread t).stack.length ≥ 8 + (s.launchOf t.cohort).cstack) = true := by decide
theorem witness_ret_empty : Meets (world 0x038C000000000000) 0x38C000000000000 .ret (fun s b t f => (s.thread t).ret = [] && (s.thread t).stack = []) = true := by decide
theorem witness_exit : Meets (world 0x0390000000000000) 0x390000000000000 .exit (fun s b t f => true) = true := by decide
theorem witness_yield : Meets (world 0x0398000000000000) 0x398000000000000 .yield (fun s b t f => true) = true := by decide
theorem witness_nop : Meets (world 0x039C000000000000) 0x39C000000000000 .nop (fun s b t f => true) = true := by decide
theorem witness_wait_zero : Meets (world 0x0394000001000000) 0x394000001000000 .wait (fun s b t f => (s.thread t).b32 f = some 0) = true := by decide
theorem witness_wait : Meets ((world 0x0394000001000000).load [(8, 3)]) 0x394000001000000 .wait (fun s b t f => (s.thread t).b32 f = some 3) = true := by decide
theorem witness_trap : Meets (world 0x03C1000000000064) 0x3C1000000000064 .trap (fun s b t f => (s.thread t).b32 f = some 100) = true := by decide
theorem witness_tret_word : Meets ((world 0x03C4000000000000).tweak fun x => { x with handler := true, point := { pc := objPtr 0x80, word := 1, next := 2, count := 3, kind := .word } }) 0x3C4000000000000 .tret (fun s b t f => (s.thread t).handler && !(s.thread t).point.exit && (s.thread t).point.kind = .word && (s.thread t).point.pc = objPtr 0x80 && (s.thread t).point.word = 1) = true := by decide
theorem witness_tret_header : Meets ((world 0x03C4000000000000).tweak fun x => { x with handler := true, point := { pc := objPtr 0x80, word := 1, next := 2, count := 3, kind := .header } }) 0x3C4000000000000 .tret (fun s b t f => (s.thread t).handler && !(s.thread t).point.exit && (s.thread t).point.kind = .header && (s.thread t).point.pc = objPtr 0x80) = true := by decide
theorem witness_tret_after : Meets ((world 0x03C4000000000000).tweak fun x => { x with handler := true, point := { pc := objPtr 0x80, word := 1, next := 2, count := 3, kind := .after } }) 0x3C4000000000000 .tret (fun s b t f => (s.thread t).handler && !(s.thread t).point.exit && (s.thread t).point.kind = .after && (s.thread t).point.pc = objPtr 0x80 && (s.thread t).point.next = 2 && decide (2 ≤ (s.thread t).point.count)) = true := by decide
theorem witness_tret_skip_word : Meets ((world 0x03C4000000001000).tweak fun x => { x with handler := true, point := { pc := objPtr 0x80, word := 1, next := 2, count := 3, kind := .word } }) 0x3C4000000001000 .tretSkip (fun s b t f => (s.thread t).handler && !(s.thread t).point.exit && (s.thread t).point.kind = .word && (s.thread t).point.pc = objPtr 0x80 && (s.thread t).point.next = 2 && decide (2 ≤ (s.thread t).point.count)) = true := by decide
theorem witness_tret_skip_header : Meets ((world 0x03C4000000001000).tweak fun x => { x with handler := true, point := { pc := objPtr 0x80, word := 1, next := 2, count := 3, kind := .header } }) 0x3C4000000001000 .tretSkip (fun s b t f => (s.thread t).handler && !(s.thread t).point.exit && (s.thread t).point.kind = .header && (s.thread t).point.pc = objPtr 0x80 && (s.thread t).point.count = 3) = true := by decide
theorem witness_tret_outside : Meets (world 0x03C4000000000000) 0x3C4000000000000 .tret (fun s b t f => !(s.thread t).handler) = true := by decide
theorem witness_tret_skip_after : Meets ((world 0x03C4000000001000).tweak fun x => { x with handler := true, point := { pc := objPtr 0x80, word := 1, next := 2, count := 3, kind := .after } }) 0x3C4000000001000 .tretSkip (fun s b t f => (s.thread t).handler && !(s.thread t).point.exit && (s.thread t).point.kind = .after && (s.thread t).point.pc = objPtr 0x80) = true := by decide
theorem witness_sread_00 : Meets ((world 0x03C8020000000000).tweak fun x => { x with srseed := 77, ltimeh := 3, faults := { f0 := 5, f1 := 6, f2 := 7, f3 := 8 }, rowprog := 0x501 }) 0x3C8020000000000 .sread (fun s b t f => f.ctl = 0) = true := by decide
theorem witness_sread_01 : Meets ((world 0x03C8020000001000).tweak fun x => { x with srseed := 77, ltimeh := 3, faults := { f0 := 5, f1 := 6, f2 := 7, f3 := 8 }, rowprog := 0x501 }) 0x3C8020000001000 .sread (fun s b t f => f.ctl = 1) = true := by decide
theorem witness_sread_02 : Meets ((world 0x03C8020000002000).tweak fun x => { x with srseed := 77, ltimeh := 3, faults := { f0 := 5, f1 := 6, f2 := 7, f3 := 8 }, rowprog := 0x501 }) 0x3C8020000002000 .sread (fun s b t f => f.ctl = 2) = true := by decide
theorem witness_sread_03 : Meets ((world 0x03C8020000003000).tweak fun x => { x with srseed := 77, ltimeh := 3, faults := { f0 := 5, f1 := 6, f2 := 7, f3 := 8 }, rowprog := 0x501 }) 0x3C8020000003000 .sread (fun s b t f => f.ctl = 3) = true := by decide
theorem witness_sread_04 : Meets ((world 0x03C8020000004000).tweak fun x => { x with srseed := 77, ltimeh := 3, faults := { f0 := 5, f1 := 6, f2 := 7, f3 := 8 }, rowprog := 0x501 }) 0x3C8020000004000 .sread (fun s b t f => f.ctl = 4) = true := by decide
theorem witness_sread_05 : Meets ((world 0x03C8020000005000).tweak fun x => { x with srseed := 77, ltimeh := 3, faults := { f0 := 5, f1 := 6, f2 := 7, f3 := 8 }, rowprog := 0x501 }) 0x3C8020000005000 .sread (fun s b t f => f.ctl = 5) = true := by decide
theorem witness_sread_06 : Meets ((world 0x03C8020000006000).tweak fun x => { x with srseed := 77, ltimeh := 3, faults := { f0 := 5, f1 := 6, f2 := 7, f3 := 8 }, rowprog := 0x501 }) 0x3C8020000006000 .sread (fun s b t f => f.ctl = 6) = true := by decide
theorem witness_sread_07 : Meets ((world 0x03C8020000007000).tweak fun x => { x with srseed := 77, ltimeh := 3, faults := { f0 := 5, f1 := 6, f2 := 7, f3 := 8 }, rowprog := 0x501 }) 0x3C8020000007000 .sread (fun s b t f => f.ctl = 7) = true := by decide
theorem witness_sread_08 : Meets ((world 0x03C8020000008000).tweak fun x => { x with srseed := 77, ltimeh := 3, faults := { f0 := 5, f1 := 6, f2 := 7, f3 := 8 }, rowprog := 0x501 }) 0x3C8020000008000 .sread (fun s b t f => f.ctl = 8) = true := by decide
theorem witness_sread_0B : Meets ((world 0x03C802000000B000).tweak fun x => { x with srseed := 77, ltimeh := 3, faults := { f0 := 5, f1 := 6, f2 := 7, f3 := 8 }, rowprog := 0x501 }) 0x3C802000000B000 .sread (fun s b t f => f.ctl = 11) = true := by decide
theorem witness_sread_0C : Meets ((world 0x03C802000000C000).tweak fun x => { x with srseed := 77, ltimeh := 3, faults := { f0 := 5, f1 := 6, f2 := 7, f3 := 8 }, rowprog := 0x501 }) 0x3C802000000C000 .sread (fun s b t f => f.ctl = 12) = true := by decide
theorem witness_sread_0D : Meets ((world 0x03C802000000D000).tweak fun x => { x with srseed := 77, ltimeh := 3, faults := { f0 := 5, f1 := 6, f2 := 7, f3 := 8 }, rowprog := 0x501 }) 0x3C802000000D000 .sread (fun s b t f => f.ctl = 13) = true := by decide
theorem witness_sread_0F : Meets ((world 0x03C802000000F000).tweak fun x => { x with srseed := 77, ltimeh := 3, faults := { f0 := 5, f1 := 6, f2 := 7, f3 := 8 }, rowprog := 0x501 }) 0x3C802000000F000 .sread (fun s b t f => f.ctl = 15) = true := by decide
theorem witness_sread_10 : Meets ((world 0x03C8020000010000).tweak fun x => { x with srseed := 77, ltimeh := 3, faults := { f0 := 5, f1 := 6, f2 := 7, f3 := 8 }, rowprog := 0x501 }) 0x3C8020000010000 .sread (fun s b t f => f.ctl = 16) = true := by decide
theorem witness_sread_11 : Meets ((world 0x03C8020000011000).tweak fun x => { x with srseed := 77, ltimeh := 3, faults := { f0 := 5, f1 := 6, f2 := 7, f3 := 8 }, rowprog := 0x501 }) 0x3C8020000011000 .sread (fun s b t f => f.ctl = 17) = true := by decide
theorem witness_sread_12 : Meets ((world 0x03C8020000012000).tweak fun x => { x with srseed := 77, ltimeh := 3, faults := { f0 := 5, f1 := 6, f2 := 7, f3 := 8 }, rowprog := 0x501 }) 0x3C8020000012000 .sread (fun s b t f => f.ctl = 18) = true := by decide
theorem witness_sread_13 : Meets ((world 0x03C8020000013000).tweak fun x => { x with srseed := 77, ltimeh := 3, faults := { f0 := 5, f1 := 6, f2 := 7, f3 := 8 }, rowprog := 0x501 }) 0x3C8020000013000 .sread (fun s b t f => f.ctl = 19) = true := by decide
theorem witness_sread_14 : Meets ((world 0x03C8020000014000).tweak fun x => { x with srseed := 77, ltimeh := 3, faults := { f0 := 5, f1 := 6, f2 := 7, f3 := 8 }, rowprog := 0x501 }) 0x3C8020000014000 .sread (fun s b t f => f.ctl = 20) = true := by decide
theorem witness_sread_0E : Meets (world 0x03C802000000E000) 0x3C802000000E000 .sread (fun s b t f => f.ctl = 14) = true := by decide
theorem witness_swrite_rmode : Meets ((world 0x03CC0000C000B000).load [(3, 5)]) 0x3CC0000C000B000 .swrite (fun s b t f => f.ctl = 11 && (s.thread t).src32 f.sa = some 5) = true := by decide
theorem witness_swrite_rmode_bad : Meets ((world 0x03CC0000C000B000).load [(3, 6)]) 0x3CC0000C000B000 .swrite (fun s b t f => f.ctl = 11 && (s.thread t).src32 f.sa = some 6) = true := by decide
theorem witness_swrite_seed : Meets (world 0x03CC0000C000C000) 0x3CC0000C000C000 .swrite (fun s b t f => f.ctl = 12 && (s.thread t).src32 f.sa = some 0) = true := by decide
theorem witness_swrite_rowprog : Meets ((world 0x03CC000180014000).load [(6, 0xFFFFFFFF)]) 0x3CC000180014000 .swrite (fun s b t f => f.ctl = 20 && (s.thread t).src64 f.sa = some 0xFFFFFFFF) = true := by decide
theorem witness_swrite_read_only : Meets (world 0x03CC0000C0000000) 0x3CC0000C0000000 .swrite (fun s b t f => f.ctl = 0 && (s.thread t).src32 f.sa = some 0) = true := by decide
theorem witness_swrite_fault : Meets (world 0x03CC000180010000) 0x3CC000180010000 .swrite (fun s b t f => f.ctl = 0x10 && (s.thread t).src64 f.sa = some 0) = true := by decide
theorem witness_ldo : Meets ((world 0x020A020180400020).load (pairAt 6 (objPtr 0x100) ++ [(4, 0x1234567)])) 0x20A020180400020 .ldo (fun s b t f => (s.thread t).src64 f.sa = some (objPtr 0x100) && f.off = 0x20 && offsetOf (objPtr 0x120) % 2 = 0 && s.issueCheck t (objPtr 0x120) 2 = none && s.parkLine t (objPtr 0x120) 2 = none && !s.requestsFull t b.order 1) = true := by decide
theorem witness_ldo_64 : Meets ((world 0x020A020180600020).load (pairAt 6 (objPtr 0x100) ++ [(4, 0x1234567)])) 0x20A020180600020 .ldo (fun s b t f => (s.thread t).src64 f.sa = some (objPtr 0x100) && f.off = 0x20 && offsetOf (objPtr 0x120) % 8 = 0 && s.issueCheck t (objPtr 0x120) 8 = none && s.parkLine t (objPtr 0x120) 8 = none && !s.requestsFull t b.order 1) = true := by decide
theorem witness_ldo_acq : Meets ((world 0x021A020185000020).load (pairAt 6 (objPtr 0x100) ++ [(4, 0x1234567)])) 0x21A020185000020 .ldoAcq (fun s b t f => (s.thread t).src64 f.sa = some (objPtr 0x100) && f.off = 0x20 && offsetOf (objPtr 0x120) % 4 = 0 && s.issueCheck t (objPtr 0x120) 4 = none && s.parkLine t (objPtr 0x120) 4 = none && !s.requestsFull t b.order 1) = true := by decide
theorem witness_sto : Meets ((world 0x020E020180400020).load (pairAt 6 (objPtr 0x100) ++ [(4, 0x1234567)])) 0x20E020180400020 .sto (fun s b t f => (s.thread t).src64 f.sa = some (objPtr 0x100) && f.off = 0x20 && offsetOf (objPtr 0x120) % 2 = 0 && s.issueCheck t (objPtr 0x120) 2 = none && s.parkLine t (objPtr 0x120) 2 = none && !s.requestsFull t b.order 1) = true := by decide
theorem witness_sto_rel : Meets ((world 0x021E020185000020).load (pairAt 6 (objPtr 0x100) ++ [(4, 0x1234567)])) 0x21E020185000020 .stoRel (fun s b t f => (s.thread t).src64 f.sa = some (objPtr 0x100) && f.off = 0x20 && offsetOf (objPtr 0x120) % 4 = 0 && s.issueCheck t (objPtr 0x120) 4 = none && s.parkLine t (objPtr 0x120) 4 = none && !s.requestsFull t b.order 1) = true := by decide
theorem witness_ld : Meets ((world 0x0202020180400020).load [(6, 0x100), (4, 0x1234567)]) 0x202020180400020 .ld (fun s b t f => (s.thread t).src32 f.sa = some 0x100 && (mkPtr 0xFFF 0 0x120) = ptrAdd (localBase 0x100) f.off && s.issueCheck t (mkPtr 0xFFF 0 0x120) 2 = none && s.parkLine t (mkPtr 0xFFF 0 0x120) 2 = none && !s.requestsFull t b.order 1) = true := by decide
theorem witness_ld_64 : Meets ((world 0x0202020180600020).load [(6, 0x100), (4, 0x1234567)]) 0x202020180600020 .ld (fun s b t f => (s.thread t).src32 f.sa = some 0x100 && (mkPtr 0xFFF 0 0x120) = ptrAdd (localBase 0x100) f.off && s.issueCheck t (mkPtr 0xFFF 0 0x120) 8 = none && s.parkLine t (mkPtr 0xFFF 0 0x120) 8 = none && !s.requestsFull t b.order 1) = true := by decide
theorem witness_ld_acq : Meets ((world 0x0212020185000020).load [(6, 0x100), (4, 0x1234567)]) 0x212020185000020 .ldAcq (fun s b t f => (s.thread t).src32 f.sa = some 0x100 && (mkPtr 0xFFF 0 0x120) = ptrAdd (localBase 0x100) f.off && s.issueCheck t (mkPtr 0xFFF 0 0x120) 4 = none && s.parkLine t (mkPtr 0xFFF 0 0x120) 4 = none && !s.requestsFull t b.order 1) = true := by decide
theorem witness_st : Meets ((world 0x0206020180400020).load [(6, 0x100), (4, 0x1234567)]) 0x206020180400020 .st (fun s b t f => (s.thread t).src32 f.sa = some 0x100 && (mkPtr 0xFFF 0 0x120) = ptrAdd (localBase 0x100) f.off && s.issueCheck t (mkPtr 0xFFF 0 0x120) 2 = none && s.parkLine t (mkPtr 0xFFF 0 0x120) 2 = none && !s.requestsFull t b.order 1) = true := by decide
theorem witness_st_rel : Meets ((world 0x0216020185000020).load [(6, 0x100), (4, 0x1234567)]) 0x216020185000020 .stRel (fun s b t f => (s.thread t).src32 f.sa = some 0x100 && (mkPtr 0xFFF 0 0x120) = ptrAdd (localBase 0x100) f.off && s.issueCheck t (mkPtr 0xFFF 0 0x120) 4 = none && s.parkLine t (mkPtr 0xFFF 0 0x120) 4 = none && !s.requestsFull t b.order 1) = true := by decide
theorem witness_st_mmio : Meets ((world 0x0206020180000000).load [(6, 0x80000040), (4, 7)]) 0x206020180000000 .st (fun s b t f => (s.thread t).src32 f.sa = some 0x80000040 && (mkPtr 0xFFF 2 0x40) = ptrAdd (localBase 0x80000040) f.off && s.issueCheck t (mkPtr 0xFFF 2 0x40) 4 = none && s.parkLine t (mkPtr 0xFFF 2 0x40) 4 = none && !s.requestsFull t b.order 1 && offsetOf (mkPtr 0xFFF 2 0x40) ≠ 0) = true := by decide
theorem witness_tstamp : Meets ((world 0x03D0000180000000).load (pairAt 6 (objPtr 0x40))) 0x3D0000180000000 .tstamp (fun s b t f => (s.thread t).src64 f.sa = some (objPtr 0x40) && s.issueCheck t (objPtr 0x40) 16 = none && s.parkLine t (objPtr 0x40) 16 = none && !s.requestsFull t b.order 1) = true := by decide
theorem witness_ldo_out : Meets ((world 0x020A0201805FFFE0).load (pairAt 6 (objPtr 0x10))) 0x20A0201805FFFE0 .ldo (fun s b t f => (s.thread t).src64 f.sa = some (objPtr 0x10) && !s.requestsFull t b.order 1 && decide ((offsetOf (objPtr 0x10) : Int) + f.off < 0)) = true := by decide
theorem witness_sto_misaligned : Meets ((world 0x020E020180400000).load (pairAt 6 (objPtr 0x101))) 0x20E020180400000 .sto (fun s b t f => (s.thread t).src64 f.sa = some (objPtr 0x101) && !s.requestsFull t b.order 1 && offsetOf (objPtr 0x101) % 2 ≠ 0 && f.off = 0) = true := by decide
theorem witness_ldo_fault : Meets ((world 0x020A020180200000).load (pairAt 6 (mkPtr 0xFFF 0 65535))) 0x20A020180200000 .ldo (fun s b t f => (s.thread t).src64 f.sa = some (mkPtr 0xFFF 0 65535) && !s.requestsFull t b.order 1 && f.off = 0 && s.issueCheck t (mkPtr 0xFFF 0 65535) 1 = none && s.issueCheck t (mkPtr 0xFFF 0 65536) 4 = some 3) = true := by decide
theorem witness_ldo_region : Meets ((world 0x020A020180000000).load (pairAt 6 (mkPtr 0xFFF 0 65536))) 0x20A020180000000 .ldo (fun s b t f => (s.thread t).src64 f.sa = some (mkPtr 0xFFF 0 65536) && !s.requestsFull t b.order 1 && f.off = 0 && s.issueCheck t (mkPtr 0xFFF 0 65536) 4 = some 3) = true := by decide
theorem witness_ldo_parks : Meets (((world 0x020A020180000000).setCore placedQuad.toCore { writers := [(1, 1)] }).load (pairAt 6 (mkPtr 0xFFF 1 0x80))) 0x20A020180000000 .ldo (fun s b t f => (s.thread t).src64 f.sa = some (mkPtr 0xFFF 1 0x80) && !s.requestsFull t b.order 1 && f.off = 0 && s.issueCheck t (mkPtr 0xFFF 1 0x80) 4 = none && s.parkLine t (mkPtr 0xFFF 1 0x80) 4 = some 1 && decide (b.words.length > b.word)) = true := by decide
theorem witness_issue_atomAdd : Meets ((world 0x02C0020181000000).load (pairAt 6 (objPtr 0x100) ++ [(8, 5), (9, 6), (12, 7)])) 0x2C0020181000000 .atomAdd (fun s b t f => f.ctl / 32 % 2 = 0 && s.a64 b t f = some (objPtr 0x100) && ((s.thread t).operand 176 f 4).isSome && s.atomCheck t (objPtr 0x100) 4 = none && s.parkLine t (objPtr 0x100) 4 = none && !s.requestsFull t b.order 1) = true := by decide
theorem witness_issue_atomAdd_rel : Meets ((world 0x02C07F8181012000).load (pairAt 6 (objPtr 0x100) ++ [(8, 5), (9, 6), (12, 7)])) 0x2C07F8181012000 .atomAdd (fun s b t f => f.ctl / 32 % 2 = 0 && s.a64 b t f = some (objPtr 0x100) && ((s.thread t).operand 176 f 4).isSome && s.atomCheck t (objPtr 0x100) 4 = none && s.parkLine t (objPtr 0x100) 4 = none && !s.requestsFull t b.order 1) = true := by decide
theorem witness_issue_atomMin : Meets ((world 0x02C4020181000000).load (pairAt 6 (objPtr 0x100) ++ [(8, 5), (9, 6), (12, 7)])) 0x2C4020181000000 .atomMin (fun s b t f => f.ctl / 32 % 2 = 0 && s.a64 b t f = some (objPtr 0x100) && ((s.thread t).operand 177 f 4).isSome && s.atomCheck t (objPtr 0x100) 4 = none && s.parkLine t (objPtr 0x100) 4 = none && !s.requestsFull t b.order 1) = true := by decide
theorem witness_issue_atomMin_rel : Meets ((world 0x02C47F8181012000).load (pairAt 6 (objPtr 0x100) ++ [(8, 5), (9, 6), (12, 7)])) 0x2C47F8181012000 .atomMin (fun s b t f => f.ctl / 32 % 2 = 0 && s.a64 b t f = some (objPtr 0x100) && ((s.thread t).operand 177 f 4).isSome && s.atomCheck t (objPtr 0x100) 4 = none && s.parkLine t (objPtr 0x100) 4 = none && !s.requestsFull t b.order 1) = true := by decide
theorem witness_issue_atomMax : Meets ((world 0x02C8020181000000).load (pairAt 6 (objPtr 0x100) ++ [(8, 5), (9, 6), (12, 7)])) 0x2C8020181000000 .atomMax (fun s b t f => f.ctl / 32 % 2 = 0 && s.a64 b t f = some (objPtr 0x100) && ((s.thread t).operand 178 f 4).isSome && s.atomCheck t (objPtr 0x100) 4 = none && s.parkLine t (objPtr 0x100) 4 = none && !s.requestsFull t b.order 1) = true := by decide
theorem witness_issue_atomMax_rel : Meets ((world 0x02C87F8181012000).load (pairAt 6 (objPtr 0x100) ++ [(8, 5), (9, 6), (12, 7)])) 0x2C87F8181012000 .atomMax (fun s b t f => f.ctl / 32 % 2 = 0 && s.a64 b t f = some (objPtr 0x100) && ((s.thread t).operand 178 f 4).isSome && s.atomCheck t (objPtr 0x100) 4 = none && s.parkLine t (objPtr 0x100) 4 = none && !s.requestsFull t b.order 1) = true := by decide
theorem witness_issue_atomAnd : Meets ((world 0x02CC020181000000).load (pairAt 6 (objPtr 0x100) ++ [(8, 5), (9, 6), (12, 7)])) 0x2CC020181000000 .atomAnd (fun s b t f => f.ctl / 32 % 2 = 0 && s.a64 b t f = some (objPtr 0x100) && ((s.thread t).operand 179 f 4).isSome && s.atomCheck t (objPtr 0x100) 4 = none && s.parkLine t (objPtr 0x100) 4 = none && !s.requestsFull t b.order 1) = true := by decide
theorem witness_issue_atomAnd_rel : Meets ((world 0x02CC7F8181012000).load (pairAt 6 (objPtr 0x100) ++ [(8, 5), (9, 6), (12, 7)])) 0x2CC7F8181012000 .atomAnd (fun s b t f => f.ctl / 32 % 2 = 0 && s.a64 b t f = some (objPtr 0x100) && ((s.thread t).operand 179 f 4).isSome && s.atomCheck t (objPtr 0x100) 4 = none && s.parkLine t (objPtr 0x100) 4 = none && !s.requestsFull t b.order 1) = true := by decide
theorem witness_issue_atomOr : Meets ((world 0x02D0020181000000).load (pairAt 6 (objPtr 0x100) ++ [(8, 5), (9, 6), (12, 7)])) 0x2D0020181000000 .atomOr (fun s b t f => f.ctl / 32 % 2 = 0 && s.a64 b t f = some (objPtr 0x100) && ((s.thread t).operand 180 f 4).isSome && s.atomCheck t (objPtr 0x100) 4 = none && s.parkLine t (objPtr 0x100) 4 = none && !s.requestsFull t b.order 1) = true := by decide
theorem witness_issue_atomOr_rel : Meets ((world 0x02D07F8181012000).load (pairAt 6 (objPtr 0x100) ++ [(8, 5), (9, 6), (12, 7)])) 0x2D07F8181012000 .atomOr (fun s b t f => f.ctl / 32 % 2 = 0 && s.a64 b t f = some (objPtr 0x100) && ((s.thread t).operand 180 f 4).isSome && s.atomCheck t (objPtr 0x100) 4 = none && s.parkLine t (objPtr 0x100) 4 = none && !s.requestsFull t b.order 1) = true := by decide
theorem witness_issue_atomXor : Meets ((world 0x02D4020181000000).load (pairAt 6 (objPtr 0x100) ++ [(8, 5), (9, 6), (12, 7)])) 0x2D4020181000000 .atomXor (fun s b t f => f.ctl / 32 % 2 = 0 && s.a64 b t f = some (objPtr 0x100) && ((s.thread t).operand 181 f 4).isSome && s.atomCheck t (objPtr 0x100) 4 = none && s.parkLine t (objPtr 0x100) 4 = none && !s.requestsFull t b.order 1) = true := by decide
theorem witness_issue_atomXor_rel : Meets ((world 0x02D47F8181012000).load (pairAt 6 (objPtr 0x100) ++ [(8, 5), (9, 6), (12, 7)])) 0x2D47F8181012000 .atomXor (fun s b t f => f.ctl / 32 % 2 = 0 && s.a64 b t f = some (objPtr 0x100) && ((s.thread t).operand 181 f 4).isSome && s.atomCheck t (objPtr 0x100) 4 = none && s.parkLine t (objPtr 0x100) 4 = none && !s.requestsFull t b.order 1) = true := by decide
theorem witness_issue_atomXchg : Meets ((world 0x02D8020181000000).load (pairAt 6 (objPtr 0x100) ++ [(8, 5), (9, 6), (12, 7)])) 0x2D8020181000000 .atomXchg (fun s b t f => f.ctl / 32 % 2 = 0 && s.a64 b t f = some (objPtr 0x100) && ((s.thread t).operand 182 f 4).isSome && s.atomCheck t (objPtr 0x100) 4 = none && s.parkLine t (objPtr 0x100) 4 = none && !s.requestsFull t b.order 1) = true := by decide
theorem witness_issue_atomXchg_rel : Meets ((world 0x02D87F8181012000).load (pairAt 6 (objPtr 0x100) ++ [(8, 5), (9, 6), (12, 7)])) 0x2D87F8181012000 .atomXchg (fun s b t f => f.ctl / 32 % 2 = 0 && s.a64 b t f = some (objPtr 0x100) && ((s.thread t).operand 182 f 4).isSome && s.atomCheck t (objPtr 0x100) 4 = none && s.parkLine t (objPtr 0x100) 4 = none && !s.requestsFull t b.order 1) = true := by decide
theorem witness_issue_atomCas : Meets ((world 0x02DC020181000000).load (pairAt 6 (objPtr 0x100) ++ [(8, 5), (9, 6), (12, 7)])) 0x2DC020181000000 .atomCas (fun s b t f => f.ctl / 32 % 2 = 0 && s.a64 b t f = some (objPtr 0x100) && ((s.thread t).operand 183 f 4).isSome && s.atomCheck t (objPtr 0x100) 4 = none && s.parkLine t (objPtr 0x100) 4 = none && !s.requestsFull t b.order 1) = true := by decide
theorem witness_issue_atomCas_rel : Meets ((world 0x02DC7F8181012000).load (pairAt 6 (objPtr 0x100) ++ [(8, 5), (9, 6), (12, 7)])) 0x2DC7F8181012000 .atomCas (fun s b t f => f.ctl / 32 % 2 = 0 && s.a64 b t f = some (objPtr 0x100) && ((s.thread t).operand 183 f 4).isSome && s.atomCheck t (objPtr 0x100) 4 = none && s.parkLine t (objPtr 0x100) 4 = none && !s.requestsFull t b.order 1) = true := by decide
theorem witness_issue_atomIncb : Meets ((world 0x02E0020181000000).load (pairAt 6 (objPtr 0x100) ++ [(8, 5), (9, 6), (12, 7)])) 0x2E0020181000000 .atomIncb (fun s b t f => f.ctl / 32 % 2 = 0 && s.a64 b t f = some (objPtr 0x100) && ((s.thread t).operand 184 f 4).isSome && s.atomCheck t (objPtr 0x100) 4 = none && s.parkLine t (objPtr 0x100) 4 = none && !s.requestsFull t b.order 1) = true := by decide
theorem witness_issue_atomIncb_rel : Meets ((world 0x02E07F8181012000).load (pairAt 6 (objPtr 0x100) ++ [(8, 5), (9, 6), (12, 7)])) 0x2E07F8181012000 .atomIncb (fun s b t f => f.ctl / 32 % 2 = 0 && s.a64 b t f = some (objPtr 0x100) && ((s.thread t).operand 184 f 4).isSome && s.atomCheck t (objPtr 0x100) 4 = none && s.parkLine t (objPtr 0x100) 4 = none && !s.requestsFull t b.order 1) = true := by decide
theorem witness_issue_atomDecb : Meets ((world 0x02E4020181000000).load (pairAt 6 (objPtr 0x100) ++ [(8, 5), (9, 6), (12, 7)])) 0x2E4020181000000 .atomDecb (fun s b t f => f.ctl / 32 % 2 = 0 && s.a64 b t f = some (objPtr 0x100) && ((s.thread t).operand 185 f 4).isSome && s.atomCheck t (objPtr 0x100) 4 = none && s.parkLine t (objPtr 0x100) 4 = none && !s.requestsFull t b.order 1) = true := by decide
theorem witness_issue_atomDecb_rel : Meets ((world 0x02E47F8181012000).load (pairAt 6 (objPtr 0x100) ++ [(8, 5), (9, 6), (12, 7)])) 0x2E47F8181012000 .atomDecb (fun s b t f => f.ctl / 32 % 2 = 0 && s.a64 b t f = some (objPtr 0x100) && ((s.thread t).operand 185 f 4).isSome && s.atomCheck t (objPtr 0x100) 4 = none && s.parkLine t (objPtr 0x100) 4 = none && !s.requestsFull t b.order 1) = true := by decide
theorem witness_issue_atomWcas : Meets ((world 0x02E8060181000000).load (pairAt 6 (objPtr 0x100) ++ [(8, 5), (9, 6), (12, 7)])) 0x2E8060181000000 .atomWcas (fun s b t f => f.ctl / 32 % 2 = 0 && s.a64 b t f = some (objPtr 0x100) && ((s.thread t).operand 186 f 16).isSome && s.atomCheck t (objPtr 0x100) 16 = none && s.parkLine t (objPtr 0x100) 16 = none && !s.requestsFull t b.order 1) = true := by decide
theorem witness_issue_atomWcas_rel : Meets ((world 0x02E87F8181012000).load (pairAt 6 (objPtr 0x100) ++ [(8, 5), (9, 6), (12, 7)])) 0x2E87F8181012000 .atomWcas (fun s b t f => f.ctl / 32 % 2 = 0 && s.a64 b t f = some (objPtr 0x100) && ((s.thread t).operand 186 f 16).isSome && s.atomCheck t (objPtr 0x100) 16 = none && s.parkLine t (objPtr 0x100) 16 = none && !s.requestsFull t b.order 1) = true := by decide
theorem witness_addOp : (let o : Op := { thread := placedThread, ctr := some 0 }; o.ctr = some 0 && decide (0 < (between.thread o.thread).dcs.length) && (between.addOp o).1 = between.nextId && ((between.addOp o).2.thread placedThread).dc 0 = 1) = true := by decide
theorem witness_lowerDc : (let x : Thread := { dcs := [[(1, false), (2, false)], [], [], [], [], []] }; decide (0 < x.dcs.length) && (x.lowerDc 0 2).dc 0 = 2 && (x.lowerDc 0 1).dc 0 = 1 && ((x.lowerDc 0 2).lowerDc 0 1).dc 0 = 0) = true := by decide
theorem witness_local_private_load : (let a : Access := { kind := .load, ptr := mkPtr 0xFFF 0 0x10, size := 4, dst := 4 }; let s := ({ between with mem := Memory.writeNat [] (privateAt placedThread 0x10) 4 0xAABBCCDD } : State).under { ctr := some 0, dst := [4], body := .access { kind := .load, ptr := mkPtr 0xFFF 0 0x10, size := 4, dst := 4 } }; let o := (s.op? 5).getD {}; o.body = .access a && o.phase = .issued && s.mayPerform 5 o && birthOf a.ptr = 0xFFF && decide (serialOf a.ptr < 2) && (!isCistern a.ptr || s.presentAll o.thread.cohort.toCore (offsetOf a.ptr) a.size) && (s.obj? a.ptr).isNone && o.device.isNone && s.unseen o.thread.cohort.toDie (privateAt placedThread 0x10) a.size = [] && places (s.reach o.thread a.ptr a.size (a.kind ≠ .load)) (privateAt placedThread 0x10) && !s.readFails (privateAt placedThread 0x10) 4 && !s.writeFails (privateAt placedThread 0x10) 4 && o.ctr = some 0 && Memory.wf s.mem && nexts (exec (.responseArrives 5) s) fun u => (u.thread placedThread).reg 4 = 0xAABBCCDD && (u.op? 5).isNone && u.mem = s.mem && (u.thread placedThread).dc 0 = 0) = true := by decide
theorem witness_local_private_store : (let a : Access := { kind := .store, ptr := mkPtr 0xFFF 0 0x10, size := 4, data := 0x11223344 }; let s := ({ between with mem := Memory.writeNat [] (privateAt placedThread 0x10) 4 0xAABBCCDD } : State).under { ctr := some 1, dst := [], body := .access { kind := .store, ptr := mkPtr 0xFFF 0 0x10, size := 4, data := 0x11223344 } }; let o := (s.op? 5).getD {}; o.body = .access a && o.phase = .issued && s.mayPerform 5 o && birthOf a.ptr = 0xFFF && decide (serialOf a.ptr < 2) && (!isCistern a.ptr || s.presentAll o.thread.cohort.toCore (offsetOf a.ptr) a.size) && (s.obj? a.ptr).isNone && o.device.isNone && s.unseen o.thread.cohort.toDie (privateAt placedThread 0x10) a.size = [] && places (s.reach o.thread a.ptr a.size (a.kind ≠ .load)) (privateAt placedThread 0x10) && !s.readFails (privateAt placedThread 0x10) 4 && !s.writeFails (privateAt placedThread 0x10) 4 && o.ctr = some 1 && Memory.wf s.mem && nexts (exec (.storeCompletion 5) s) fun u => u.mem = Memory.writeNat s.mem (privateAt placedThread 0x10) 4 0x11223344 && (u.op? 5).isNone && u.byte (privateAt placedThread 0x10 + 4) = 0 && u.byte (privateAt placedThread 0x10) = 0x44) = true := by decide
theorem witness_local_cistern_load : (let a : Access := { kind := .load, ptr := mkPtr 0xFFF 1 0x10, size := 4, dst := 4 }; let s := ({ between with mem := Memory.writeNat [] (cisternAt placedQuad.toCore 0x10) 4 0xAABBCCDD } : State).under { ctr := some 0, dst := [4], body := .access { kind := .load, ptr := mkPtr 0xFFF 1 0x10, size := 4, dst := 4 } }; let o := (s.op? 5).getD {}; o.body = .access a && o.phase = .issued && s.mayPerform 5 o && birthOf a.ptr = 0xFFF && decide (serialOf a.ptr < 2) && (!isCistern a.ptr || s.presentAll o.thread.cohort.toCore (offsetOf a.ptr) a.size) && (s.obj? a.ptr).isNone && o.device.isNone && s.unseen o.thread.cohort.toDie (cisternAt placedQuad.toCore 0x10) a.size = [] && places (s.reach o.thread a.ptr a.size (a.kind ≠ .load)) (cisternAt placedQuad.toCore 0x10) && !s.readFails (cisternAt placedQuad.toCore 0x10) 4 && !s.writeFails (cisternAt placedQuad.toCore 0x10) 4 && o.ctr = some 0 && Memory.wf s.mem && nexts (exec (.responseArrives 5) s) fun u => (u.thread placedThread).reg 4 = 0xAABBCCDD && (u.op? 5).isNone && u.mem = s.mem && (u.thread placedThread).dc 0 = 0) = true := by decide
theorem witness_local_cistern_store : (let a : Access := { kind := .store, ptr := mkPtr 0xFFF 1 0x10, size := 4, data := 0x11223344 }; let s := ({ between with mem := Memory.writeNat [] (cisternAt placedQuad.toCore 0x10) 4 0xAABBCCDD } : State).under { ctr := some 1, dst := [], body := .access { kind := .store, ptr := mkPtr 0xFFF 1 0x10, size := 4, data := 0x11223344 } }; let o := (s.op? 5).getD {}; o.body = .access a && o.phase = .issued && s.mayPerform 5 o && birthOf a.ptr = 0xFFF && decide (serialOf a.ptr < 2) && (!isCistern a.ptr || s.presentAll o.thread.cohort.toCore (offsetOf a.ptr) a.size) && (s.obj? a.ptr).isNone && o.device.isNone && s.unseen o.thread.cohort.toDie (cisternAt placedQuad.toCore 0x10) a.size = [] && places (s.reach o.thread a.ptr a.size (a.kind ≠ .load)) (cisternAt placedQuad.toCore 0x10) && !s.readFails (cisternAt placedQuad.toCore 0x10) 4 && !s.writeFails (cisternAt placedQuad.toCore 0x10) 4 && o.ctr = some 1 && Memory.wf s.mem && nexts (exec (.storeCompletion 5) s) fun u => u.mem = Memory.writeNat s.mem (cisternAt placedQuad.toCore 0x10) 4 0x11223344 && (u.op? 5).isNone && u.byte (cisternAt placedQuad.toCore 0x10 + 4) = 0 && u.byte (cisternAt placedQuad.toCore 0x10) = 0x44) = true := by decide
theorem witness_wellhead_forwards : (let a : Access := { kind := .load, ptr := objPtr 0x40, size := 4, dst := 4 }; let s := (between).under { ctr := some 0, dst := [4], phase := .wellhead, body := .access a }; let o := (s.op? 5).getD {}; o.body = .access a && o.phase = .wellhead && o.device.isNone && (s.chip 0).off.isNone && isGlobal a.ptr && s.mayPerform 5 o && ((s.obj? a.ptr).any fun b => (b.extents[offsetOf a.ptr / 2 ^ b.log2]?).isSome) && s.moves = [] && nexts (exec (.wellheadRequest 5) s) fun u => u = s.setOp 5 { o with phase := .sent 0 true true }) = true := by decide
theorem witness_wellhead_no_object : (let a : Access := { kind := .load, ptr := mkPtr 0 9 0, size := 4, dst := 4 }; let s := (between).under { ctr := some 0, dst := [4], phase := .wellhead, body := .access a }; let o := (s.op? 5).getD {}; o.body = .access a && o.phase = .wellhead && o.device.isNone && (s.chip 0).off.isNone && isGlobal a.ptr && s.mayPerform 5 o && (s.obj? a.ptr).isNone && (s.window? a.ptr).isNone && nexts (exec (.wellheadRequest 5) s) fun u => u = s.setOp 5 { o with phase := .answered (.fault 2), held := none }) = true := by decide
theorem witness_holder_serves : (let a : Access := { kind := .load, ptr := objPtr 0x40, size := 4, dst := 4 }; let s := (between.modDie ⟨0, 0⟩ fun x => { x with cached := [0x4000] }).under { ctr := some 0, dst := [4], phase := .sent 0 false false, body := .access a }; let o := (s.op? 5).getD {}; o.body = .access a && o.phase = .sent 0 false false && isGlobal a.ptr && o.device.isNone && (s.chip 0).off.isNone && s.mayPerform 5 o && (s.obj? a.ptr).any (fun b => (b.extents[0]?).any (fun e => e.holder = 0 && e.state = .rest && e.fwd = []) && b.realm = s.realmOf o.thread.cohort && decide (offsetOf a.ptr + a.size ≤ b.size)) && (s.die ⟨0, 0⟩).cached.contains (a.ptr.toNat / 65536) && nexts (exec (.accessRequest 5 .none) s) fun u => u = (s.modDie ⟨0, 0⟩ fun x => { x with cached := a.ptr.toNat / 65536 :: x.cached.filter (· ≠ a.ptr.toNat / 65536) }).serve 5 o a 0) = true := by decide
theorem witness_served : (let a : Access := { kind := .load, ptr := objPtr 0x40, size := 4, dst := 4 }; let s := (between).under { ctr := some 0, dst := [4], phase := .answered (.served 0 7 []), body := .access a }; let o := (s.op? 5).getD {}; o.body = .access a && o.phase = .answered (.served 0 7 []) && isGlobal a.ptr && o.device.isNone && nexts (exec (.served 5) s) fun u => u = (s.modDie o.thread.cohort.toDie fun d => d.install a.ptr 0).land 5 o a 7 [] && (u.thread placedThread).reg 4 = 7) = true := by decide
theorem witness_no_object : (let a : Access := { kind := .load, ptr := objPtr 0x40, size := 4, dst := 4 }; let s := (between).under { ctr := some 0, dst := [4], phase := .answered .noObject, body := .access a }; let o := (s.op? 5).getD {}; o.body = .access a && o.phase = .answered .noObject && isGlobal a.ptr && o.device.isNone && nexts (exec (.noObject 5) s) fun u => u = s.setOp 5 { o with phase := .wellhead }) = true := by decide
theorem witness_fault_response : (let a : Access := { kind := .load, ptr := objPtr 0x40, size := 4, dst := 4 }; let s := (between).under { ctr := some 0, dst := [4], phase := .answered (.fault 2), body := .access a }; let o := (s.op? 5).getD {}; o.body = .access a && o.phase = .answered (.fault 2) && isGlobal a.ptr && o.device.isNone && nexts (exec (.faultResponse 5) s) fun u => u = (s.deferMemory 5 o 2 a.ptr).endOp 5 && (u.thread placedThread).deferred.length = 1) = true := by decide
theorem witness_retry : (let a : Access := { kind := .load, ptr := objPtr 0x40, size := 4, dst := 4 }; let s := (between).under { ctr := some 0, dst := [4], phase := .answered .retry, body := .access a }; let o := (s.op? 5).getD {}; o.body = .access a && o.phase = .answered .retry && isGlobal a.ptr && o.device.isNone && s.opMoves 5 o && ((s.die o.thread.cohort.toDie).guess a.ptr).isNone && nexts (exec (.retry 5) s) fun u => u = s.setOp 5 { o with phase := .wellhead }) = true := by decide
theorem witness_holder_bytes_store : (let a : Access := { kind := .store, ptr := objPtr 0x40, size := 4, data := 0x11223344 }; let s := ({ between with mem := [((objPtr 0x40).toNat + 3, 7), ((objPtr 0x40).toNat + 4, 9)] }).under { ctr := some 1, dst := [], phase := .sent 0 false false, body := .access a }; let o := (s.op? 5).getD {}; o.body = .access a && o.phase = .sent 0 false false && isGlobal a.ptr && Memory.wf s.mem && (s.obj? a.ptr).isSome && !s.pinnedAway o.thread (a.ptr.toNat / 128) && decide (a.ptr.toNat + a.size ≤ 2 ^ 64) && !s.writeFails a.ptr.toNat a.size && !s.readFails a.ptr.toNat a.size && (let u := s.serve 5 o a 0; decide (u.byte a.ptr.toNat = (0x44 : Byte)) && decide (u.byte (a.ptr.toNat + 3) = (0x11 : Byte)) && decide (u.byte (a.ptr.toNat + 4) = (9 : Byte)))) = true := by decide
theorem witness_holder_bytes_load : (let a : Access := { kind := .load, ptr := objPtr 0x40, size := 4, dst := 4 }; let s := ({ between with mem := [((objPtr 0x40).toNat + 3, 7), ((objPtr 0x40).toNat + 4, 9)] }).under { ctr := some 0, dst := [4], phase := .sent 0 false false, body := .access a }; let o := (s.op? 5).getD {}; o.body = .access a && o.phase = .sent 0 false false && isGlobal a.ptr && (s.affinity a.ptr a.size 0).unseen o.thread.cohort.toDie a.ptr.toNat a.size = [] && Memory.wf s.mem && (s.obj? a.ptr).isSome && !s.pinnedAway o.thread (a.ptr.toNat / 128) && decide (a.ptr.toNat + a.size ≤ 2 ^ 64) && !s.writeFails a.ptr.toNat a.size && !s.readFails a.ptr.toNat a.size && (let u := s.serve 5 o a 0; u.mem = s.mem && (u.op? 5).any fun o => match o.phase with | .answered (.served 0 v _) => v = 0x07000000 | _ => false)) = true := by decide
theorem witness_walk : (let s := between.modDie ⟨0, 0⟩ fun x => { x with walks := [(0x4000, [5])] }; (s.die ⟨0, 0⟩).walks = [(0x4000, [5])] && (s.die ⟨0, 0⟩).misses = [] && s.homed ⟨0, 0⟩ 0x4000 && nexts (exec (.translationWalk ⟨0, 0⟩ 0x4000) s) fun u => u = (s.modDie ⟨0, 0⟩ fun x => { x with walks := [], cached := 0x4000 :: x.cached.take 16383 }).walked ⟨0, 0⟩ 0x4000 5) = true := by decide
theorem witness_take_trap : (let s := (({ between with mem := Memory.writeNat [] ((objPtr 0x1000).toNat + 8 * 12) 8 (objPtr 0x200).toNat } : State).modVf 0 0 fun v => { v with tvbase := objPtr 0x1000 }).load [(4, 9)]; let x := s.thread placedThread; !x.handler && !s.stopping placedThread.cohort && !s.owes placedThread && ((s.leave placedThread).vector placedThread.cohort 12 = some (objPtr 0x200)) && (let y := (s.takeTrap placedThread { kind := .software, record := { f0 := 5 }, point := { pc := objPtr 0 } }).thread placedThread; y.pc = objPtr 0x200 && y.handler && y.faults.f0 = 5 && y.reg 4 = 9 && y.point.pc = objPtr 0)) = true := by decide
theorem witness_trap_in_handler : (let s := between.tweak fun x => { x with handler := true }; (s.thread placedThread).handler && (s.cohort placedThread.cohort).killed.isNone && !(s.cohort placedThread.cohort).ended && ((s.takeTrap placedThread { kind := .software, record := {}, point := {} }).cohort placedThread.cohort).killed = some 3) = true := by decide
theorem witness_wait_expires : (let s := between.tweak fun x => { x with run := .parked (.timer 0) }; (s.thread placedThread).run = .parked (.timer 0) && s.awake placedThread.cohort && nexts (exec (.waitExpiry placedThread) s) fun u => u = s.modThread placedThread fun x => { x with run := .ready, readySince := s.now }) = true := by decide
theorem witness_wait_goes_on : (let s := between.tweak fun x => { x with run := .parked (.timer 9) }; (s.thread placedThread).run = .parked (.timer 9) && decide (s.now < 9) && nexts (exec (.waitExpiry placedThread) s) fun u => u = s) = true := by decide
theorem witness_atomics : (atomOf 0xB0 false 4 0xFFFFFFFF 2 0 = some 1 && atomOf 0xB1 true 4 5 3 0 = some 3 && atomOf 0xB7 false 4 5 9 5 = some 9 && (atomOf 0xB7 false 4 5 9 6).isNone && atomOf 0xB8 false 4 2 3 0 = some 3 && (atomOf 0xB8 false 4 3 3 0).isNone && atomOf 0xB9 false 4 4 3 0 = some 3 && (atomOf 0xB9 false 4 3 3 0).isNone) = true := by decide
theorem witness_atomic_effect : (let a : Access := { kind := .atomic, ptr := mkPtr 0xFFF 0 0x10, size := 4, code := 0xB0, data := 2 }; a.kind = .atomic && !a.rel && (between.obj? a.ptr).isNone && !isGlobal a.ptr && (between.effect 5 {} a 0x10).2.2.byte 0x10 = 2) = true := by decide
theorem witness_canonical_start : (Memory.wf between.mem) = true := by decide
theorem witness_tadd : Meets (({ world 0x02EC000181000000 with mem := [(privateAt placedThread 0x80, 7)] } : State).load (pairAt 6 (objPtr 0x100) ++ [(8, 0x80)])) 0x2EC000181000000 .atomTadd (fun s b t f => s.a64 b t f = some (objPtr 0x100) && (s.atomCheck t (objPtr 0x100) 128).isNone && (match s.taddSource t ((s.thread t).reg f.sb.toNat) with | .ok q => q = mkPtr 0xFFF 0 0x80 | .error _ => false) && !s.ownPending t (mkPtr 0xFFF 0 0x80) 128 && (s.parkLine t (objPtr 0x100) 128).isNone && (s.parkLine t (mkPtr 0xFFF 0 0x80) 128).isNone && places (s.reach t (mkPtr 0xFFF 0 0x80) 128 false) (privateAt t 0x80) && !s.readFails (privateAt t 0x80) 128 && !s.requestsFull t b.order 1) = true := by decide
theorem witness_ctag : Meets ((world 0x0222020180000000).load (pairAt 6 (objPtr 0x100))) 0x222020180000000 .ctag (fun s b t f => (s.thread t).src64 f.sa = some (objPtr 0x100) && f.off = 0) = true := by decide
theorem witness_cpres : Meets (((world 0x022E020180000000).setCore placedQuad.toCore { writers := [(1, 1)] }).load [(6, 0x40000000)]) 0x22E020180000000 .cpres (fun s b t f => (s.thread t).src32 f.sa = some 0x40000000 && localBase 0x40000000 = mkPtr 0xFFF 1 0 && f.off = 0) = true := by decide
theorem witness_cevict : Meets ((world 0x0228000001000000).load [(8, 3)]) 0x228000001000000 .cevict (fun s b t f => (s.thread t).src32 f.sb = some 3 && decide (3 < (s.cohort t.cohort).tags.length)) = true := by decide
theorem witness_cfill : Meets ((world 0x0226000181000000).load (pairAt 6 (objPtr 0x100) ++ [(8, 0x00081002)])) 0x226000181000000 .cfill (fun s b t f => (s.thread t).src64 f.sa = some (objPtr 0x100) && (s.thread t).src32 f.sb = some 0x00081002 && (match s.cfillOf t (objPtr 0x100) 0x00081002 f.off with | .ok x => x = (2, 2, 2, objPtr 0x100) | .error _ => false) && !s.requestsFull t b.order 2 && !s.claimHeld t t.cohort.toCore [2, 3]) = true := by decide
theorem witness_cevictWb : Meets (((world 0x0228000001001000).modCohort placedThread.cohort fun c => { c with tags := c.tags.set 3 { valid := true, tag := BitVec.ofNat 57 ((objPtr 0x100).toNat / 128), line := 2, len := 1 } }).load [(8, 3)]) 0x228000001001000 .cevictWb (fun s b t f => (s.thread t).src32 f.sb = some 3 && ((s.cohort t.cohort).tags[3]?).any (fun e => e.valid && e.lines = 2 && e.line.toNat = 2) && !s.requestsFull t b.order 2) = true := by decide
theorem witness_copy : Meets ((world 0x0230000181000001).load (pairAt 6 (mkPtr 0xFFF 1 0x100) ++ pairAt 8 (objPtr 0x40))) 0x230000181000001 .copy (fun s b t f => let c : CopyOp := { dst := mkPtr 0xFFF 1 0x100, src := objPtr 0x40, len := 128, rows := 1, mc := false, nb := none }; (s.thread t).copyOf f = some (c, 0) && (s.copyTrap t c 0).isNone && !s.copiesFull t b.order 1 && !s.sharesHeld t (s.makeShares t c 0)) = true := by decide
theorem witness_kick : Meets ((world 0x0234000181000000).load (pairAt 6 (mkPtr 0xFFF 0 0x40) ++ [(8, 2)])) 0x234000181000000 .kick (fun s b t f => (s.thread t).src64 f.sa = some (mkPtr 0xFFF 0 0x40) && (s.thread t).b32 f = some 2 && (s.kickTrap t (mkPtr 0xFFF 0 0x40) 2).isNone) = true := by decide
theorem witness_kick_empty : Meets ((world 0x0234000181000000).load (pairAt 6 (mkPtr 0xFFF 0 0x40) ++ [(8, 0)])) 0x234000181000000 .kick (fun s b t f => (s.thread t).src64 f.sa = some (mkPtr 0xFFF 0 0x40) && (s.thread t).b32 f = some 0) = true := by decide
theorem witness_page_st : Meets ((world 0x0206020180000000).load [(4, 7), (6, 0x80000114)]) 0x206020180000000 .st (fun s b t f => (s.thread t).src32 f.sa = some 0x80000114 && sizeOf' (f.sb.toNat % 8) = 4 && localBase 0x80000114 = mkPtr 0xFFF 2 0x114 && f.off = 0 && s.issueCheck t (mkPtr 0xFFF 2 0x114) 4 = none && s.parkLine t (mkPtr 0xFFF 2 0x114) 4 = none && !s.requestsFull t b.order 1) = true := by decide
theorem witness_page_stRel : Meets ((world 0x0216020180000000).load [(4, 7), (6, 0x80000114)]) 0x216020180000000 .stRel (fun s b t f => (s.thread t).src32 f.sa = some 0x80000114 && sizeOf' (f.sb.toNat % 8) = 4 && localBase 0x80000114 = mkPtr 0xFFF 2 0x114 && f.off = 0 && s.issueCheck t (mkPtr 0xFFF 2 0x114) 4 = none && s.parkLine t (mkPtr 0xFFF 2 0x114) 4 = none && !s.requestsFull t b.order 1) = true := by decide
theorem witness_page_sto : Meets ((world 0x020E020180000000).load ([(4, 7)] ++ pairAt 6 (mkPtr 0xFFF 2 0x114))) 0x20E020180000000 .sto (fun s b t f => (s.thread t).src64 f.sa = some (mkPtr 0xFFF 2 0x114) && sizeOf' (f.sb.toNat % 8) = 4 && f.off = 0 && s.issueCheck t (mkPtr 0xFFF 2 0x114) 4 = none && s.parkLine t (mkPtr 0xFFF 2 0x114) 4 = none && !s.requestsFull t b.order 1) = true := by decide
theorem witness_page_stoRel : Meets ((world 0x021E020180000000).load ([(4, 7)] ++ pairAt 6 (mkPtr 0xFFF 2 0x114))) 0x21E020180000000 .stoRel (fun s b t f => (s.thread t).src64 f.sa = some (mkPtr 0xFFF 2 0x114) && sizeOf' (f.sb.toNat % 8) = 4 && f.off = 0 && s.issueCheck t (mkPtr 0xFFF 2 0x114) 4 = none && s.parkLine t (mkPtr 0xFFF 2 0x114) 4 = none && !s.requestsFull t b.order 1) = true := by decide
theorem witness_kick_store : Meets ((world 0x0206020180600000).load [(4, 0x40), (5, 0), (6, 0x80000000)]) 0x206020180600000 .st (fun s b t f => let v := BitVec.ofNat 64 ((s.thread t).data f.dst.toNat 8); (s.thread t).src32 f.sa = some 0x80000000 && f.sb.toNat % 8 = 3 && localBase 0x80000000 = mkPtr 0xFFF 2 0 && f.off = 0 && !s.requestsFull t b.order 1 && decide ((s.thread t).dc 3 < 63) && !s.engineHeld t && (s.kickTrap t (mkPtr 0xFFF (bitsOf v.toNat 63 63) (bitsOf v.toNat 29 0)) (bitsOf v.toNat 39 32 + 1)).isNone) = true := by decide
theorem witness_cfill_line : (let l : LineOp := { entry := 0, line := 2, ptr := objPtr 0x100, left := [2] }; let s := ({ ((between.modDie ⟨0, 0⟩ fun x => { x with cached := [0x4000] }).claim placedQuad.toCore [2]) with mem := [((objPtr 0x100).toNat, 5)] } : State).under { ctr := some 2, body := .cfill l }; let o := (s.op? 5).getD {}; o.body = .cfill l && s.opMoves 5 o && !s.windowAccess (objPtr 0x100) && !s.engineWaits o.thread 5 (objPtr 0x100) 128 false && (match (s.giveUp 5).engineRead o.thread (objPtr 0x100) 128 with | .ok bs => bs.length = 128 | .error _ => false) && nexts (exec (.cfillLine 5 2) s) fun u => decide (u.byte (cisternAt placedQuad.toCore 256) = (5 : Byte)) && u.present placedQuad.toCore 2 && (u.op? 5).isNone) = true := by decide
theorem witness_cevict_line : (let l : LineOp := { entry := 0, line := 2, ptr := objPtr 0x100, left := [2] }; let s := ({ (between.modDie ⟨0, 0⟩ fun x => { x with cached := [0x4000] }) with mem := [(cisternAt placedQuad.toCore 256, 5)] } : State).under { ctr := some 2, body := .cevict l }; let o := (s.op? 5).getD {}; o.body = .cevict l && s.opMoves 5 o && !s.windowAccess (objPtr 0x100) && !s.evictHeld 5 o l && !s.engineWaits o.thread 5 (objPtr 0x100) 128 true && !(s.giveUp 5).readFails (cisternAt placedQuad.toCore 256) 128 && (match (s.giveUp 5).engineWrite o.thread (objPtr 0x100) (Memory.readBytes s.mem (cisternAt placedQuad.toCore 256) 128) 5 ({ o with know := join o.know ((s.giveUp 5).heardAt o.thread (cisternAt placedQuad.toCore 256) 128) } : Op).allEdges with | .ok _ => true | .error _ => false) && nexts (exec (.cevictWbLine 5) s) fun u => decide (u.byte (objPtr 0x100).toNat = (5 : Byte)) && (u.op? 5).isNone) = true := by decide
theorem witness_kick_register : (let k : KickOp := { list := mkPtr 0xFFF 0 0x40, count := 1, mmio := true }; let s := between.under { ctr := some 3, body := .kick k }; let o := (s.op? 5).getD {}; o.body = .kick k && k.mmio && s.opMoves 5 o && nexts (exec (.kickRegister 5) s) fun u => u = s.setOp 5 { o with body := .kick { k with mmio := false } }) = true := by decide
theorem witness_kick_record : (let k : KickOp := { list := mkPtr 0xFFF 0 0x40, count := 1 }; let s := ({ between with mem := Memory.writeNat (Memory.writeNat (Memory.writeNat (Memory.writeNat [] (privateAt placedThread 0x40) 8 (mkPtr 0xFFF 1 0x100).toNat) (privateAt placedThread 0x48) 8 (objPtr 0x40).toNat) (privateAt placedThread 0x50) 4 128) (privateAt placedThread 0x54) 4 1 } : State).under { ctr := some 3, body := .kick k }; let o := (s.op? 5).getD {}; let s1 := s.setOp 5 { o with held := none, body := .kick { k with next := 1 } }; (match s1.engineRead o.thread (mkPtr 0xFFF 0 0x40) 64 with | .ok bs => (let r := copyOfRecord bs (mkPtr 0xFFF 0 0x40) 5; let s2 := s1.setOp 5 { o with held := none, know := s1.engineHeard o.thread (mkPtr 0xFFF 0 0x40) 64 o.know, body := .kick { k with next := 1 } }; (s2.recordFault o.thread r.1 r.2.1 r.2.2).isNone && !s2.sharesHeld o.thread (s2.makeShares o.thread r.1 r.2.1) && r.1.len = 128) | .error _ => false) && o.body = .kick k && !k.mmio && s.opMoves 5 o && !s.engineWaits o.thread 5 (mkPtr 0xFFF 0 0x40) 64 false && !s.copiesFull o.thread 5 1 && nexts (exec (.kickRecordFetch 5) s) fun u => (u.op? 6).any (fun y => match y.body with | .copy c => c.list = some 5 && c.len = 128 | _ => false) && !u.present placedQuad.toCore 2) = true := by decide
theorem witness_copy_chunk : (let c : CopyOp := { dst := mkPtr 0xFFF 1 0x100, src := objPtr 0x40, len := 256, shares := [{ claims := [2, 3] }] }; let s := ({ ((between.modDie ⟨0, 0⟩ fun x => { x with cached := [0x4000] }).claim placedQuad.toCore [2, 3]) with mem := [((objPtr 0x40).toNat, 5)] } : State).under { ctr := some 3, body := .copy c }; let o := (s.op? 5).getD {}; o.body = .copy c && s.opMoves 5 o && !s.queueHeld 5 o && !s.engineWaits o.thread 5 c.src 128 false && !s.engineWaits o.thread 5 c.dst 128 true && (match (s.giveUp 5).engineRead o.thread c.src 128 with | .ok bs => (match (s.giveUp 5).engineWrite o.thread c.dst bs 5 ({ o with know := (s.giveUp 5).engineHeard o.thread c.src 128 o.know } : Op).allEdges with | .ok _ => true | .error _ => false) | .error _ => false) && nexts (exec (.copyChunkWrite 5 0) s) fun u => decide (u.byte (cisternAt placedQuad.toCore 256) = (5 : Byte)) && u.present placedQuad.toCore 2 && !u.present placedQuad.toCore 3 && (u.op? 5).any fun y => match y.body with | .copy c => c.started && (c.shares.all fun x => x.pos = 128 && !x.done) | _ => false) = true := by decide
theorem witness_copy_waits : (let m : Move := { obj := (0, 1), ext := 0, src := 0, dest := 1, ready := true }; let c : CopyOp := { dst := mkPtr 0xFFF 1 0x100, src := objPtr 0x40, len := 256, shares := [{ claims := [2, 3] }] }; let s0 : State := between.under { ctr := some 3, body := .copy c }; let s : State := { s0 with moves := [(3, m)], objects := s0.objects.map fun _ b => { b with extents := b.extents.map fun e => { e with state := .copying } } }; let o := (s.op? 5).getD {}; let x := (s.obj? c.src).getD {}; let e := x.extents.getD 0 {}; s.move? 3 = some m && (s.objects.get? (0, 1)) = some x && keyOf c.src = (0, 1) && e.state = .copying && e.queue = [] && x.waiting = [] && decide (x.queued e.holder < 256) && offsetOf c.src / 2 ^ x.log2 = 0 && (offsetOf c.src + 127) / 2 ^ x.log2 = 0 && !s.engineHeldAt o.thread 5 c.src 128 && decide (s.reach o.thread c.src 128 false = .transit) && s.engineWaits o.thread 5 c.src 128 false && nexts (exec (.copyChunkWrite 5 0) s) fun u => (((u.obj? c.src).getD {}).extents.getD 0 {}).queue = [5]) = true := by decide
theorem test_forwarded_copy_reads_in_turn : (let c : CopyOp := { dst := mkPtr 0xFFF 1 0x100, src := objPtr 0x40, len := 256, shares := [{ claims := [2, 3] }] }; let s0 : State := ({ ((between.modDie ⟨0, 0⟩ fun x => { x with cached := [0x4000] }).claim placedQuad.toCore [2, 3]) with mem := [((objPtr 0x40).toNat, 5)] } : State).under { ctr := some 3, body := .copy c }; let q := fun (l : List Nat) => ({ s0 with objects := s0.objects.map fun _ b => { b with extents := b.extents.map fun e => { e with fwd := l } } } : State); (nexts (exec (.copyChunkWrite 5 0) (q [7, 5])) fun u => decide (u.byte (cisternAt placedQuad.toCore 256) = (0 : Byte))) && nexts (exec (.copyChunkWrite 5 0) (q [5, 7])) fun u => decide (u.byte (cisternAt placedQuad.toCore 256) = (5 : Byte)) && (((u.obj? c.src).getD {}).extents.getD 0 {}).fwd = [7]) = true := by decide
theorem witness_copy_complete : (let c : CopyOp := { dst := mkPtr 0xFFF 1 0x100, src := objPtr 0x40, len := 128, shares := [{ done := true }], started := true }; let s := between.under { ctr := some 3, body := .copy c }; let o := (s.op? 5).getD {}; o.body = .copy c && s.opMoves 5 o && c.shares.all (fun y => y.done) && nexts (exec (.copyComplete 5) s) fun u => u = s.finishCopy 5 o c none false && (u.op? 5).isNone && (u.thread placedThread).dc 3 = 0) = true := by decide
theorem witness_copy_status : (let p := mkPtr 0xFFF 0 0x40; let c : CopyOp := { dst := mkPtr 0xFFF 1 0x100, src := objPtr 0x40, len := 128, nb := some 2, record := some p, shares := [{ done := true }], started := true }; let s := between.under { ctr := some 3, body := .copy c }; let o := (s.op? 5).getD {}; o.body = .copy c && s.opMoves 5 o && (match s.reach o.thread p 64 true with | .place a => a = privateAt placedThread 0x40 | _ => false) && nexts (exec (.copyComplete 5) s) fun u => Memory.readNat u.mem (privateAt placedThread 0x6C) 4 = 1 && (u.op? 5).any (·.closing) && (u.msg? 6).any fun m => decide (m.op = some 5)) = true := by decide
theorem witness_oalloc : Meets ((world 0x0280020001000000).load [(8, 0x10000)]) 0x280020001000000 .oalloc (fun s b t f => (s.thread t).b32 f = some 0x10000 && !s.requestsFull t b.order 1) = true := by decide
theorem witness_ofree : Meets (((world 0x0284020180000000).load (pairAt 6 (objPtr 0)))) 0x284020180000000 .ofree (fun s b t f => s.a64 b t f = some (objPtr 0) && namesObject (objPtr 0) && !s.requestsFull t b.order 1) = true := by decide
theorem witness_opin : Meets (((world 0x0288020180000000).load (pairAt 6 (objPtr 0)))) 0x288020180000000 .opin (fun s b t f => s.a64 b t f = some (objPtr 0) && namesObject (objPtr 0) && !s.requestsFull t b.order 1) = true := by decide
theorem witness_ounpin : Meets (((world 0x028C020180000000).load (pairAt 6 (objPtr 0)))) 0x28C020180000000 .ounpin (fun s b t f => s.a64 b t f = some (objPtr 0) && namesObject (objPtr 0) && !s.requestsFull t b.order 1) = true := by decide
theorem witness_ocolocLeave : Meets (((world 0x0290020180001000).load (pairAt 6 (objPtr 0)))) 0x290020180001000 .ocolocLeave (fun s b t f => s.a64 b t f = some (objPtr 0) && namesObject (objPtr 0) && !s.requestsFull t b.order 1) = true := by decide
theorem witness_olocate : Meets (((world 0x0294020180000000).load (pairAt 6 (objPtr 0)))) 0x294020180000000 .olocate (fun s b t f => s.a64 b t f = some (objPtr 0) && namesObject (objPtr 0) && !s.requestsFull t b.order 1) = true := by decide
theorem witness_olocateGuess : Meets (((world 0x0294020180001000).load (pairAt 6 (objPtr 0)))) 0x294020180001000 .olocateGuess (fun s b t f => s.a64 b t f = some (objPtr 0) && namesObject (objPtr 0) && !s.requestsFull t b.order 1) = true := by decide
theorem witness_ostubfree : Meets (((world 0x02A0020180000000).load (pairAt 6 (objPtr 0)))) 0x2A0020180000000 .ostubfree (fun s b t f => s.a64 b t f = some (objPtr 0) && namesObject (objPtr 0) && !s.requestsFull t b.order 1) = true := by decide
theorem witness_oinfo : Meets (((world 0x02A4020180000000).load (pairAt 6 (objPtr 0)))) 0x2A4020180000000 .oinfo (fun s b t f => s.a64 b t f = some (objPtr 0) && namesObject (objPtr 0) && !s.requestsFull t b.order 1) = true := by decide
theorem witness_ocoloc : Meets (((world 0x0290020181000000).load (pairAt 6 (objPtr 0))).load (pairAt 8 (mkPtr 0 2 0))) 0x290020181000000 .ocoloc (fun s b t f => s.a64 b t f = some (objPtr 0) && namesObject (objPtr 0) && !s.requestsFull t b.order 1 && (s.thread t).src64 f.sb = some (mkPtr 0 2 0) && namesObject (mkPtr 0 2 0)) = true := by decide
theorem witness_omigrate : Meets (((world 0x0298020181000000).load (pairAt 6 (objPtr 0))).load [(8, 0xFFD)]) 0x298020181000000 .omigrate (fun s b t f => s.a64 b t f = some (objPtr 0) && namesObject (objPtr 0) && !s.requestsFull t b.order 1 && (s.thread t).b32 f = some 0xFFD) = true := by decide
theorem witness_osplit : Meets (((world 0x029C020181000000).load (pairAt 6 (objPtr 0))).load [(8, 29)]) 0x29C020181000000 .osplit (fun s b t f => s.a64 b t f = some (objPtr 0) && namesObject (objPtr 0) && !s.requestsFull t b.order 1 && (s.thread t).b32 f = some 29) = true := by decide
theorem witness_oalloc_zero : Meets (world 0x0280020001000000) 0x280020001000000 .oalloc (fun s b t f => (s.thread t).b32 f = some 0 && !s.requestsFull t b.order 1) = true := by decide
theorem witness_oalloc_large : Meets ((world 0x0280020001000000).load [(8, 0x40000001)]) 0x280020001000000 .oalloc (fun s b t f => (s.thread t).b32 f = some 0x40000001 && !s.requestsFull t b.order 1) = true := by decide
theorem witness_opin_unnamed : Meets ((world 0x0288020180000000).load (pairAt 6 (mkPtr 0 0 64))) 0x288020180000000 .opin (fun s b t f => s.a64 b t f = some (mkPtr 0 0 64) && !namesObject (mkPtr 0 0 64) && !s.requestsFull t b.order 1) = true := by decide
theorem witness_omigrate_far : Meets (((world 0x0298020181000000).load (pairAt 6 (objPtr 0))).load [(8, 0xFFE)]) 0x298020181000000 .omigrate (fun s b t f => s.a64 b t f = some (objPtr 0) && namesObject (objPtr 0) && !s.requestsFull t b.order 1 && (s.thread t).b32 f = some 0xFFE) = true := by decide
theorem witness_osplit_small : Meets (((world 0x029C020181000000).load (pairAt 6 (objPtr 0))).load [(8, 20)]) 0x29C020181000000 .osplit (fun s b t f => s.a64 b t f = some (objPtr 0) && namesObject (objPtr 0) && !s.requestsFull t b.order 1 && (s.thread t).b32 f = some 20) = true := by decide
theorem witness_answers_none : (let b : ObjOp := { code := .pin, ptr := mkPtr 0 9 0, dst := 4 }; let s := (between).under { ctr := some 5, dst := [4], body := .obj b }; let o := (s.op? 5).getD {}; o.body = .obj b && b.stage = 0 && s.mayPerform 5 o && !(b.code = .locate && b.ctl = 1) && (s.obj? b.ptr).isNone && (s.window? b.ptr).isNone && nexts (exec (.wellheadObjectRequest 5) s) fun u => u = s.landObj 5 o b 0x10000000 && (u.thread placedThread).reg 4 = 0x10000000) = true := by decide
theorem witness_answers_realm : (let b : ObjOp := { code := .pin, ptr := objPtr 0, dst := 4 }; let s := (between.setObj (0, 1) { size := 2 ^ 21, extents := [{}], pages := List.replicate 32 {}, realm := 7 }).under { ctr := some 5, dst := [4], body := .obj b }; let o := (s.op? 5).getD {}; o.body = .obj b && b.stage = 0 && s.mayPerform 5 o && !(b.code = .locate && b.ctl = 1) && (s.obj? b.ptr).any (fun x => x.realm ≠ s.realmOf o.thread.cohort) && nexts (exec (.wellheadObjectRequest 5) s) fun u => (u.thread placedThread).reg 4 = 0x60000000) = true := by decide
theorem witness_answers_pinned : (let b : ObjOp := { code := .free, ptr := objPtr 0, dst := 4 }; let s := (between.setObj (0, 1) { size := 2 ^ 21, extents := [{}], pages := List.replicate 32 {}, pins := 1 }).under { ctr := some 5, dst := [4], body := .obj b }; let o := (s.op? 5).getD {}; o.body = .obj b && b.stage = 0 && s.mayPerform 5 o && !(b.code = .locate && b.ctl = 1) && (s.obj? b.ptr).any (fun x => x.realm = s.realmOf o.thread.cohort && x.pins ≠ 0) && nexts (exec (.wellheadObjectRequest 5) s) fun u => (u.thread placedThread).reg 4 = 0x30000000) = true := by decide
theorem witness_answers_pin_full : (let b : ObjOp := { code := .pin, ptr := objPtr 0, dst := 4 }; let s := (between.setObj (0, 1) { size := 2 ^ 21, extents := [{}], pages := List.replicate 32 {}, pins := 255 }).under { ctr := some 5, dst := [4], body := .obj b }; let o := (s.op? 5).getD {}; o.body = .obj b && b.stage = 0 && s.mayPerform 5 o && !(b.code = .locate && b.ctl = 1) && (s.obj? b.ptr).any (fun x => x.realm = s.realmOf o.thread.cohort && !s.objMoving (keyOf b.ptr) x && x.state = .allocated && x.pins = 255) && nexts (exec (.wellheadObjectRequest 5) s) fun u => (u.thread placedThread).reg 4 = 0x80000000) = true := by decide
theorem witness_answers_pin : (let b : ObjOp := { code := .pin, ptr := objPtr 0, dst := 4 }; let s := (between.setObj (0, 1) { size := 2 ^ 21, extents := [{}], pages := List.replicate 32 {}, pins := 254 }).under { ctr := some 5, dst := [4], body := .obj b }; let o := (s.op? 5).getD {}; o.body = .obj b && b.stage = 0 && s.mayPerform 5 o && !(b.code = .locate && b.ctl = 1) && (s.obj? b.ptr).any (fun x => x.realm = s.realmOf o.thread.cohort && !s.objMoving (keyOf b.ptr) x && x.state = .allocated && decide (x.pins < 255)) && nexts (exec (.wellheadObjectRequest 5) s) fun u => (u.thread placedThread).reg 4 = 255 && (u.obj? b.ptr).any fun x => x.pins = 255) = true := by decide
theorem witness_answers_unpin_none : (let b : ObjOp := { code := .unpin, ptr := objPtr 0, dst := 4 }; let s := (between).under { ctr := some 5, dst := [4], body := .obj b }; let o := (s.op? 5).getD {}; o.body = .obj b && b.stage = 0 && s.mayPerform 5 o && !(b.code = .locate && b.ctl = 1) && (s.obj? b.ptr).any (fun x => x.realm = s.realmOf o.thread.cohort && x.state = .allocated && x.pins = 0) && nexts (exec (.wellheadObjectRequest 5) s) fun u => (u.thread placedThread).reg 4 = 0x80000000) = true := by decide
theorem witness_answers_unpin : (let b : ObjOp := { code := .unpin, ptr := objPtr 0, dst := 4 }; let s := (between.setObj (0, 1) { size := 2 ^ 21, extents := [{}], pages := List.replicate 32 {}, pins := 1 }).under { ctr := some 5, dst := [4], body := .obj b }; let o := (s.op? 5).getD {}; o.body = .obj b && b.stage = 0 && s.mayPerform 5 o && !(b.code = .locate && b.ctl = 1) && (s.obj? b.ptr).any (fun x => x.realm = s.realmOf o.thread.cohort && x.state = .allocated && x.pins ≠ 0) && nexts (exec (.wellheadObjectRequest 5) s) fun u => (u.thread placedThread).reg 4 = 0 && (u.obj? b.ptr).any fun x => x.pins = 0) = true := by decide
theorem witness_answers_locate : (let b : ObjOp := { code := .locate, ptr := objPtr 0, dst := 4 }; let s := (between).under { ctr := some 5, dst := [4], body := .obj b }; let o := (s.op? 5).getD {}; o.body = .obj b && b.stage = 0 && s.mayPerform 5 o && !(b.code = .locate && b.ctl = 1) && (s.obj? b.ptr).any (fun x => x.realm = s.realmOf o.thread.cohort && true) && s.moves = [] && nexts (exec (.wellheadObjectRequest 5) s) fun u => (u.thread placedThread).reg 4 = 0) = true := by decide
theorem witness_answers_info_0 : (let b : ObjOp := { code := .info, ptr := objPtr 0, dst := 4, ctl := 0 }; let s := (between.setObj (0, 1) { size := 2 ^ 21, extents := [{}], pages := List.replicate 32 {}, pins := 3 }).under { ctr := some 5, dst := [4], body := .obj b }; let o := (s.op? 5).getD {}; o.body = .obj b && b.stage = 0 && s.mayPerform 5 o && !(b.code = .locate && b.ctl = 1) && (s.obj? b.ptr).any (fun x => x.realm = s.realmOf o.thread.cohort && true) && nexts (exec (.wellheadObjectRequest 5) s) fun u => (u.thread placedThread).reg 4 = 0x200000) = true := by decide
theorem witness_answers_info_1 : (let b : ObjOp := { code := .info, ptr := objPtr 0, dst := 4, ctl := 1 }; let s := (between.setObj (0, 1) { size := 2 ^ 21, extents := [{}], pages := List.replicate 32 {}, pins := 3 }).under { ctr := some 5, dst := [4], body := .obj b }; let o := (s.op? 5).getD {}; o.body = .obj b && b.stage = 0 && s.mayPerform 5 o && !(b.code = .locate && b.ctl = 1) && (s.obj? b.ptr).any (fun x => x.realm = s.realmOf o.thread.cohort && true) && nexts (exec (.wellheadObjectRequest 5) s) fun u => (u.thread placedThread).reg 4 = 21) = true := by decide
theorem witness_answers_info_2 : (let b : ObjOp := { code := .info, ptr := objPtr 0, dst := 4, ctl := 2 }; let s := (between.setObj (0, 1) { size := 2 ^ 21, extents := [{}], pages := List.replicate 32 {}, pins := 3 }).under { ctr := some 5, dst := [4], body := .obj b }; let o := (s.op? 5).getD {}; o.body = .obj b && b.stage = 0 && s.mayPerform 5 o && !(b.code = .locate && b.ctl = 1) && (s.obj? b.ptr).any (fun x => x.realm = s.realmOf o.thread.cohort && true) && nexts (exec (.wellheadObjectRequest 5) s) fun u => (u.thread placedThread).reg 4 = 3) = true := by decide
theorem witness_answers_split : (let b : ObjOp := { code := .split, ptr := objPtr 0, dst := 4, b := 21 }; let s := (between).under { ctr := some 5, dst := [4], body := .obj b }; let o := (s.op? 5).getD {}; o.body = .obj b && b.stage = 0 && s.mayPerform 5 o && !(b.code = .locate && b.ctl = 1) && (s.obj? b.ptr).any (fun x => x.realm = s.realmOf o.thread.cohort && decide (b.b.toNat ≥ x.log2)) && nexts (exec (.wellheadObjectRequest 5) s) fun u => (u.thread placedThread).reg 4 = 0x90000000) = true := by decide
theorem witness_answers_free : (let b : ObjOp := { code := .free, ptr := objPtr 0, dst := 4 }; let s := (between).under { ctr := some 5, dst := [4], body := .obj b }; let o := (s.op? 5).getD {}; o.body = .obj b && b.stage = 0 && s.mayPerform 5 o && (s.obj? b.ptr).any (fun x => x.realm = s.realmOf o.thread.cohort && x.pins = 0 && !s.objBusy (keyOf b.ptr) x) && nexts (exec (.wellheadObjectRequest 5) s) fun u => (u.obj? b.ptr).any fun x => x.state = .freeing) = true := by decide
theorem witness_answers_freed : (let b : ObjOp := { code := .free, ptr := objPtr 0, dst := 4, stage := 1 }; let s := (between.setObj (0, 1) { size := 2 ^ 21, extents := [{}], pages := List.replicate 32 {}, state := .freeing }).under { ctr := some 5, dst := [4], body := .obj b }; let o := (s.op? 5).getD {}; o.body = .obj b && s.mayPerform 5 o && nexts (exec (.wellheadObjectRequest 5) s) fun u => (u.obj? b.ptr).isNone && (u.thread placedThread).reg 4 = 0) = true := by decide
theorem witness_move_frames : (let m : Move := { obj := (0, 1), ext := 0, src := 0, dest := 1, ready := true }; let s : State := { (between) with objects := [((0, 1), { size := 2 ^ 21, extents := [{ state := .pending, dest := 1 }], pages := List.replicate 32 {} })], moves := [(3, m)] }; let x := (s.objects.get? (0, 1)).getD {}; let e := x.extents.getD 0 {}; s.move? 3 = some m && m.held.isNone && decide (m.ext < x.extents.length) && e.state = .pending && m.ready && s.pins = [] && e.fwd = [] && (List.range 4).all (fun d => (s.die ⟨m.src, d⟩).walks = [] && (s.die ⟨m.src, d⟩).misses = []) && nexts (exec (.framesReserved 3 0) s) fun u => ((u.objects.get? (0, 1)).getD {}).extents.getD 0 {} = { e with state := .copying } && u.mem = s.mem) = true := by decide
theorem witness_move_commit : (let m : Move := { obj := (0, 1), ext := 0, src := 0, dest := 1, ready := true, walked := [0x4000] }; let s : State := { (between) with objects := [((0, 1), { size := 0x10000, extents := [{ state := .copying, dest := 1 }], pages := [{}] })], moves := [(3, m)] }; let x := (s.objects.get? (0, 1)).getD {}; let o := x; let e := x.extents.getD 0 {}; s.move? 3 = some m && m.held.isNone && decide (m.ext < x.extents.length) && e.state = .copying && (s.pathDown 0 1).isNone && o.pagesOf 0 = [0] && nexts (exec (.copyDoneCommit 3) s) fun u => ((u.objects.get? (0, 1)).getD {}).extents.getD 0 {} = { e with state := .committing } && u.mem = s.mem) = true := by decide
theorem witness_move_wellhead : (let m : Move := { obj := (0, 1), ext := 0, src := 0, dest := 1, ready := true }; let s : State := { (between) with objects := [((0, 1), { size := 2 ^ 21, extents := [{ state := .committing, dest := 1 }], pages := List.replicate 32 {} })], moves := [(3, m)] }; let x := (s.objects.get? (0, 1)).getD {}; let e := x.extents.getD 0 {}; s.move? 3 = some m && m.held.isNone && decide (m.ext < x.extents.length) && e.state = .committing && nexts (exec (.wellheadCommit 3) s) fun u => u = { s with moves := s.moves.put 3 { m with acked := true } }) = true := by decide
theorem witness_move_ack : (let m : Move := { obj := (0, 1), ext := 0, src := 0, dest := 1, ready := true, acked := true }; let s : State := { (between) with objects := [((0, 1), { size := 2 ^ 21, extents := [{ state := .committing, dest := 1, loc := 9 }], pages := List.replicate 32 {} })], moves := [(3, m)] }; let x := (s.objects.get? (0, 1)).getD {}; let e := x.extents.getD 0 {}; s.move? 3 = some m && m.held.isNone && decide (m.ext < x.extents.length) && m.acked && !s.forwarding m x && !(s.vf 0 0).dlenable && nexts (exec (.commitAck 3) s) fun u => ((u.objects.get? (0, 1)).getD {}).extents.getD 0 {} = { holder := 1, state := .rest, dest := 0, stubs := [(0, 1)], queue := [], loc := 0, remote := [(0, 0), (0, 0)] } && (u.move? 3).isNone) = true := by decide
theorem witness_decay_early : (let s := between; decide (s.now < (s.vf 0 0).decayAt + (s.vf 0 0).decayTicks) && nexts (exec (.decayPeriod 0 0) s) fun u => u = s) = true := by decide
theorem witness_decay : (let e : Extent := { loc := 9, remote := [(1, 5), (0, 0)] }; let o : Obj := { size := 2 ^ 21, extents := [e], pages := List.replicate 32 {} }; let s : State := { between with objects := [((0, 1), o)], now := 10 ^ 12 }; decide ((s.vf 0 0).decayAt + (s.vf 0 0).decayTicks ≤ s.now) && !(s.vf 0 0).affinity.getLsbD 31 && s.vfFor 0 o = some 0 && e.holder = 0 && nexts (exec (.decayPeriod 0 0) s) fun u => ((u.objects.get? (0, 1)).getD {}).extents.getD 0 {} = { e with loc := 4, remote := [(1, 2), (0, 0)] }) = true := by decide
theorem witness_arrive : Meets (world 0x0300000000001000) 0x300000000001000 .arrive (fun s b t f => true) = true := by decide
theorem witness_arrive_rel : Meets (world 0x030000000001F000) 0x30000000001F000 .arrive (fun s b t f => true) = true := by decide
theorem witness_arrive_bytes : Meets ((world 0x0304000001001000).load [(8, 64)]) 0x304000001001000 .arriveBytes (fun s b t f => (s.thread t).b32 f = some 64) = true := by decide
theorem witness_nbset : Meets ((world 0x0324000181001000).load [(6, 65535), (8, 64)]) 0x324000181001000 .nbset (fun s b t f => (s.thread t).src32 f.sa = some 65535 && (s.thread t).b32 f = some 64) = true := by decide
theorem witness_nbset_many : Meets ((world 0x0324000181001000).load [(6, 65536), (8, 64)]) 0x324000181001000 .nbset (fun s b t f => (s.thread t).src32 f.sa = some 65536 && (s.thread t).b32 f = some 64) = true := by decide
theorem witness_await : Meets ((world 0x0308020000001000).modCohort placedThread.cohort fun c => { c with nbs := c.nbs.set 1 { armed := true, members := 1, mleft := 1, phase := 1, last := { err := true } } }) 0x308020000001000 .await (fun s b t f => f.ctl % 16 = 1 && (s.thread t).deferred = [] && s.contributed t 1 && ((s.cohort t.cohort).nbs.getD 1 {}).phase ≠ (s.thread t).tokens.getD 1 0) = true := by decide
theorem witness_await_parks : Meets (world 0x0308020000001000) 0x308020000001000 .await (fun s b t f => f.ctl % 16 = 1 && ((s.cohort t.cohort).nbs.getD 1 {}).phase = (s.thread t).tokens.getD 1 0) = true := by decide
theorem witness_fence_04 : Meets (world 0x030C000000004000) 0x30C000000004000 .fence (fun s b t f => true) = true := by decide
theorem witness_fence_0C : Meets (world 0x030C00000000C000) 0x30C00000000C000 .fence (fun s b t f => true) = true := by decide
theorem witness_fence_14 : Meets (world 0x030C000000014000) 0x30C000000014000 .fence (fun s b t f => true) = true := by decide
theorem witness_fence_1C : Meets (world 0x030C00000001C000) 0x30C00000001C000 .fence (fun s b t f => true) = true := by decide
theorem witness_contribution : (let k : Contribution := { member := true }; let g : Msg := { body := .contribute placedThread.cohort 1 k, op := some 5, token := some placedThread }; let s : State := { (between.modCohort placedThread.cohort fun c => { c with nbs := c.nbs.set 1 { armed := true, members := 2, mleft := 2 } }).under { ctr := some 1, body := .message 4 false } with msgs := [(4, g)] }; s.msg? 4 = some g && (s.op? 5).isSome && s.ops.all (fun p => !holdsBack p 5 ((s.op? 5).getD {})) && s.live placedThread.cohort && s.resident placedThread.cohort && (s.vf 0 0).ctx ≠ .deferring && decide (1 < (s.cohort placedThread.cohort).nbs.length) && decide (1 < (s.thread placedThread).tokens.length) && nexts (exec (.arrivalContribution 4) s) fun u => (u.cohort placedThread.cohort).nbs.getD 1 {} = ((s.cohort placedThread.cohort).nbs.getD 1 {}).arrive k && ((u.cohort placedThread.cohort).nbs.getD 1 {}).mleft = 1 && (u.op? 5).isNone && (u.msg? 4).isNone) = true := by decide
theorem witness_contribution_waits : (let k : Contribution := { member := true }; let g : Msg := { body := .contribute placedThread.cohort 1 k, op := some 6, token := some placedThread }; let s0 : State := between.under { ctr := some 1, body := .access { kind := .store } }; let s : State := { s0 with ops := s0.ops ++ [(6, { thread := placedThread, ctr := some 1, body := .message 4 true })], msgs := [(4, g)] }; s.msg? 4 = some g && (s.op? 6).any (fun o => o.body = .message 4 true && o.thread = placedThread) && s.ops.any (fun p => p.1 = 5 && p.2.thread = placedThread && !p.2.completeAt 3) && nexts (exec (.arrivalContribution 4) s) fun u => u = s) = true := by decide
theorem witness_register_unarmed : (let r : Nb := {}; !r.armed && r.arrive { member := true } = { r with last := { past := true } }) = true := by decide
theorem witness_register_completes : (let r : Nb := { armed := true, members := 2, bytes := 64, mleft := 1, bleft := 64 }; let k : Contribution := { member := true, bytes := 64 }; r.armed && decide (k.bytes ≤ r.bleft.toNat) && r.mleft ≠ 0 && (r.arrive k).phase = 1 && (r.arrive k).mleft = 2 && (r.arrive k).bleft = 64) = true := by decide
theorem witness_register_goes_on : (let r : Nb := { armed := true, members := 2, bytes := 64, mleft := 1, bleft := 64 }; let k : Contribution := { bytes := 63 }; r.armed && decide (k.bytes ≤ r.bleft.toNat) && (r.arrive k).phase = 0 && (r.arrive k).mleft = 1 && (r.arrive k).bleft = 1) = true := by decide
theorem witness_register_over : (let r : Nb := { armed := true, members := 2, bytes := 64, mleft := 1, bleft := 64 }; let k : Contribution := { bytes := 65 }; r.armed && decide (k.bytes > r.bleft.toNat) && !k.member && r.mleft ≠ 0 && (r.arrive k).bleft = 0 && (r.arrive k).flags.past && (r.arrive k).phase = 0) = true := by decide
theorem witness_fence_gone : ((List.range 4).all fun k => let s := between.tweak fun x => { x with fences := [{ id := 3, kind := k, level := 6 }] }; (s.thread placedThread).fences = [{ id := 3, kind := k, level := 6 }] && (s.thread placedThread).deferred = [] && s.ops = [] && ((s.settleFences placedThread).thread placedThread).fences = []) = true := by decide
theorem witness_fence_stays : (let s := (between.tweak fun x => { x with fences := [{ id := 6, kind := 2, level := 6 }] }).under { ctr := some 1, body := .access { kind := .store } }; (s.thread placedThread).fences = [{ id := 6, kind := 2, level := 6 }] && s.ops.any (fun p => p.1 < 6 && p.2.thread = placedThread && !p.2.completeAt 6) && s.settleFences placedThread = s) = true := by decide
theorem witness_ballot : (CrewMeets 0x0310020080000000 .ballot [] 4 fun s u => (u.thread placedThread).reg 4 = 2 && (u.thread otherThread).reg 4 = 2) = true := by decide
theorem witness_shfl_idx : (CrewMeets 0x0314020181000000 .shfl [(6, 77), (8, 1)] 0 fun s u => (u.thread placedThread).reg 4 = 0 && (u.thread otherThread).reg 4 = 77) = true := by decide
theorem witness_shfl_up : (CrewMeets 0x0314020181001000 .shfl [(6, 77), (8, 1)] 0 fun s u => (u.thread placedThread).reg 4 = 0 && (u.thread otherThread).reg 4 = 0) = true := by decide
theorem witness_shfl_down : (CrewMeets 0x0314020181002000 .shfl [(6, 77), (8, 0)] 0 fun s u => (u.thread placedThread).reg 4 = 0 && (u.thread otherThread).reg 4 = 77) = true := by decide
theorem witness_shfl_xor : (CrewMeets 0x0314020181003000 .shfl [(6, 77), (8, 0)] 0 fun s u => (u.thread placedThread).reg 4 = 0 && (u.thread otherThread).reg 4 = 77) = true := by decide
theorem witness_creduce_add : (CrewMeets 0x0318020180000000 .creduce [(6, 77)] 0 fun s u => (u.thread placedThread).reg 4 = 77 && (u.thread otherThread).reg 4 = 77) = true := by decide
theorem witness_creduce_umax : (CrewMeets 0x0318020180004000 .creduce [(6, 4294967295)] 0 fun s u => (u.thread placedThread).reg 4 = 0xFFFFFFFF) = true := by decide
theorem witness_creduce_min : (CrewMeets 0x0318020180001000 .creduce [(6, 4294967295)] 0 fun s u => (u.thread placedThread).reg 4 = 0xFFFFFFFF) = true := by decide
theorem witness_cscan_add : (CrewMeets 0x031C020180000000 .cscan [(6, 77)] 0 fun s u => (u.thread placedThread).reg 4 = 0 && (u.thread otherThread).reg 4 = 77) = true := by decide
theorem witness_cscan_excl : (CrewMeets 0x031C020180020000 .cscan [(6, 77)] 0 fun s u => (u.thread placedThread).reg 4 = 0 && (u.thread otherThread).reg 4 = 0) = true := by decide
theorem witness_cvote_all : (CrewMeets 0x0320008080000000 .cvote [] 4 fun s u => !(u.thread placedThread).pred 1) = true := by decide
theorem witness_cvote_any : (CrewMeets 0x0320008080001000 .cvote [] 4 fun s u => (u.thread placedThread).pred 1) = true := by decide
theorem witness_cvote_same : (CrewMeets 0x0320008180002000 .cvote [] 0 fun s u => (u.thread placedThread).pred 1) = true := by decide
theorem witness_cvote_differ : (CrewMeets 0x0320008180002000 .cvote [(6, 77)] 0 fun s u => !(u.thread placedThread).pred 1) = true := by decide
theorem witness_cvote_most : (CrewMeets 0x0320020180003000 .cvote [] 0 fun s u => (u.thread placedThread).reg 4 = 0) = true := by decide
theorem witness_mmag_illegal : Meets ((world 0x0340000181000000).load (pairAt 6 (objPtr 0) ++ [(8, 4096)])) 0x340000181000000 .mmag (fun s b t f => (s.thread t).src64 f.sa = some (objPtr 0) && (s.thread t).b32 f = some 4096 && (rateOf 4096).isNone) = true := by decide
theorem witness_mmaq_no_resume : Meets ((world 0x034408018100A000).load (pairAt 6 (objPtr 0) ++ pairAt 8 (objPtr 64) ++ [(10, 1160)])) 0x34408018100A000 .mmaq (fun s b t f => f.dst.toNat / 16 % 2 = 1 && (s.thread t).src64 f.sa = some (objPtr 0) && (s.thread t).b64 f = some (objPtr 64) && (s.thread t).src32 f.sc = some 1160 && (s.thread t).rowprog.toNat % 2 = 0) = true := by decide
theorem witness_gres : Meets ((world 0x034C018080000000).tweak fun x => { x with preds := 4 }) 0x34C018080000000 .gres (fun s b t f => f.gresCtl = 0 && (s.thread t).pred f.sa.toNat) = true := by decide
theorem witness_gres_true : Meets (world 0x034C018000001000) 0x34C018000001000 .gres (fun s b t f => f.gresCtl = 1) = true := by decide
theorem witness_gres_false : Meets (world 0x034C018000002000) 0x34C018000002000 .gres (fun s b t f => f.gresCtl = 2) = true := by decide
theorem witness_gcancel : Meets (world 0x0350018000000000) 0x350018000000000 .gcancel (fun s b t f => true) = true := by decide
theorem witness_mmag : (let w := BitVec.ofNat 64 0x0340048181000000; let f := Fields.ofWord w 0; let b := stoodBundle w; let s := (world w).load (pairAt 6 (objPtr 0) ++ [(8, 1160)]); let t := placedThread; let q := placedQuad; let x := s.thread t; issuesCheck s (.mmag f) f b && s.executing b f = [t] && (s.quad q).queues.length = 2 && decide (((s.quad q).queues.getD 0 []).length < 32) && decide (4 < x.dcs.length) && x.src64 f.sa = some (objPtr 0) && x.b32 f = some 1160 && (rateOf 1160).isSome && f.dst.toNat / 16 % 2 = 0) = true := by decide
theorem witness_mmaq : (let w := BitVec.ofNat 64 0x034400018100A000; let f := Fields.ofWord w 0; let b := stoodBundle w; let s := (world w).load (pairAt 6 (objPtr 0) ++ pairAt 8 (objPtr 64) ++ [(10, 1160)]); let t := placedThread; let q := placedQuad; let x := s.thread t; issuesCheck s (.mmaq f) f b && s.executing b f = [t] && (s.quad q).queues.length = 2 && decide (((s.quad q).queues.getD 0 []).length < 32) && decide (4 < x.dcs.length) && x.src64 f.sa = some (objPtr 0) && x.b64 f = some (objPtr 64) && x.src32 f.sc = some 1160 && (rateOf 1160).isSome && f.dst.toNat / 16 % 2 = 0) = true := by decide
theorem witness_mmag_resume : (let w := BitVec.ofNat 64 0x0340080181000000; let f := Fields.ofWord w 0; let b := stoodBundle w; let s := ((world w).load (pairAt 6 (objPtr 0) ++ [(8, 1160)])).tweak fun x => { x with rowprog := 0x501 }; let t := placedThread; let q := placedQuad; let x := s.thread t; decide (f.dst.toNat / 16 % 2 = 1) && issuesCheck s (.mmag f) f b && s.executing b f = [t] && (s.quad q).queues.length = 2 && decide (((s.quad q).queues.getD 0 []).length < 32) && decide (4 < x.dcs.length) && x.src64 f.sa = some (objPtr 0) && x.b32 f = some 1160 && (rateOf 1160).isSome && x.rowprog.toNat % 2 = 1) = true := by decide
theorem witness_mdrain : (let w := BitVec.ofNat 64 0x034800018100A000; let f := Fields.ofWord w 0; let b := stoodBundle w; let s := (world w).load (pairAt 6 (objPtr 16) ++ [(8, 132108), (10, 16)]); let t := placedThread; let q := placedQuad; let x := s.thread t; issuesCheck s (.mdrain f) f b && s.executing b f = [t] && (s.quad q).queues.length = 2 && decide (((s.quad q).queues.getD 0 []).length < 32) && decide (4 < x.dcs.length) && x.src64 f.sa = some (objPtr 16) && x.b32 f = some 132108 && x.src32 f.sc = some 16 && drainLegal 132108 16 && offsetOf (objPtr 16) % 16 = 0 && f.dst.toNat / 16 % 2 = 0) = true := by decide
theorem witness_mdrain_zonly : (let w := BitVec.ofNat 64 0x03480C0000000000; let f := Fields.ofWord w 0; let b := stoodBundle w; let s := (world w).load ([]); let t := placedThread; let q := placedQuad; let x := s.thread t; issuesCheck s (.mdrainZonly f) f b && s.executing b f = [t] && (s.quad q).queues.length = 2 && decide (((s.quad q).queues.getD 0 []).length < 32) && decide (4 < x.dcs.length) && f.dst.toNat / 16 % 2 = 1 && f.dst.toNat / 8 % 2 = 1) = true := by decide
theorem witness_divergence : (let f : Fields := { noFields with sa := 6, sb := 8 }; let third : ThreadId := ⟨placedThread.cohort, 2⟩; let s := crewOfTwo 0 [(8, 9)] 0; let s := s.setThread third (s.thread placedThread); let ts := [placedThread, otherThread, third]; let x := fun (t : ThreadId) => if t = otherThread then (9 : Word) else 0; f.dst.toNat / 16 % 2 = 0 && ts.all (fun t => (s.thread t).src64 f.sa = some 0 && (s.thread t).b32 f = some (x t)) && ts.any (fun t => x t ≠ 0) && decide ((ts.filter fun t => x t = 9).length < (ts.filter fun t => x t = 0).length)) = true := by decide
theorem witness_step_early : (let s := between.modQuad placedQuad fun q => { q with lastStep := 9 }; decide (s.now < (s.quad placedQuad).lastStep)) = true := by decide
theorem witness_step : (let q := placedQuad; let m : MatOp := { matCmd with code := .mmag, fmt := 1160, header := blockBytes, groups := [{}], active := true, bend := 1 }; let s := (commanded m).holding [(globalAt (objPtr 0x1000), bytesLE 4 0x00FF0302), (globalAt (objPtr 0x2000), bytesLE 2 0x0504), (globalAt (objPtr 0x2020), bytesLE 3 0x070000)]; let o := (s.op? 5).getD {}; decide ((s.quad q).lastStep ≤ s.now) && (s.headOf q 0).any (fun h => h.1 = 5 && h.2.1 = o && h.2.2 = m) && (s.headOf q 1).isNone && m.quad = q && m.code ≠ .mdrain && m.begun && m.active && !m.ended && m.slot.isNone && m.shadow.isNone && decide (m.row < m.bend) && decide (m.tile < (s.quad q).acc.length) && m.loadA = [] && m.loadB = [] && (s.quad q).loading = none && (let s' := s.modQuad q fun x => { x with passed := 0 }; let rb := loadRows (s'.rowOf 5 o m (m.operandB m.shape 32)) m.shape.n []; let ra := loadRows (fun i => s'.rowOf 5 o m (m.operandA m.shape 32) (m.row + i)) (m.bend - m.row) []; rb.2 = none && rb.1.length = 2 && ra.2 = none && ra.1.length = 1)) = true := by decide
theorem witness_drain_zonly : (let q := placedQuad; let m : MatOp := { matCmd with code := .mdrain, zonly := true, zero := true, begun := false }; let s := (commanded m).modQuad q fun y => { y with acc := [[7], [], [], []], poison := [true, false, false, false] }; let o := (s.op? 5).getD {}; (s.drainHead q).any (fun h => h.1 = 5 && h.2.1 = o && h.2.2 = m) && m.quad = q && m.code = .mdrain && m.shadow.isNone && decide (m.tile < (s.quad q).acc.length) && decide (m.tile < (s.quad q).poison.length) && m.zonly && m.zero) = true := by decide
theorem witness_drain_poisoned : (let q := placedQuad; let m : MatOp := { matCmd with code := .mdrain, a := objPtr 16, begun := false }; let s := (commanded m).modQuad q fun y => { y with poison := [true, false, false, false] }; let o := (s.op? 5).getD {}; (s.drainHead q).any (fun h => h.1 = 5 && h.2.1 = o && h.2.2 = m) && m.quad = q && m.code = .mdrain && m.shadow.isNone && decide (m.tile < (s.quad q).acc.length) && decide (m.tile < (s.quad q).poison.length) && !m.zonly && (s.quad q).poison.getD m.tile false) = true := by decide
theorem witness_drain_row : (let q := placedQuad; let m : MatOp := { matCmd with code := .mdrain, a := objPtr 0x100, begun := true, fmt := 132108, stride := 16, left := [1] }; let s := (commanded m).modQuad q fun y => { y with acc := [[7, 8], [], [], []] }; let o := (s.op? 5).getD {}; let bs := bytesLE 4 7 ++ bytesLE 4 8; (s.drainHead q).any (fun h => h.1 = 5 && h.2.1 = o && h.2.2 = m) && m.quad = q && m.code = .mdrain && m.shadow.isNone && decide (m.tile < (s.quad q).acc.length) && decide (m.tile < (s.quad q).poison.length) && !m.zonly && !(s.quad q).poison.getD m.tile false && !m.adds && m.units = 2 && m.unitBytes = 4 && m.rowFits 0 && m.rowPtr 0 = objPtr 0x100 && (s.matSpace (objPtr 0x104)).isNone && !s.matWaits 5 m o.thread (objPtr 0x104) 4 true && isOk ({ s with draws := s.draws + 1 }.engineWrite o.thread (objPtr 0x104) (bytesLE 4 8) 5 o.allEdges) && rowBytes m.dfmt ((List.range m.cols).map fun j => m.drained j (((s.quad q).acc.getD m.tile []).getD j 0)) = bs) = true := by decide
theorem witness_command_complete : (let m : MatOp := { matCmd with code := .mmag, ended := true }; let s := commanded m; let o := (s.op? 5).getD {}; s.op? 5 = some o && o.body = .matrix m && o.ctr = some 4 && m.shadow.isNone && s.resident o.thread.cohort && m.ended && m.slot.isNone && m.err.isNone && m.nb.isNone && m.members.all (fun t => (s.thread t).dcs.getD 4 [] = [(5, false)])) = true := by decide
theorem witness_shadow_true : (let q := placedQuad; let s := (between.modQuad q fun y => { y with acc := [[7], [], [], []], shadows := [{ bound := some (placedThread.cohort, 0, 3, 0), data := [9] }, {}] }).modCohort placedThread.cohort fun c => { c with slots := c.slots.set 3 { value := some true } }; let x := (s.quad q).shadows.getD 0 {}; x.bound = some (placedThread.cohort, 0, (3, 0)) && decide (0 < (s.quad q).shadows.length) && decide (0 < (s.quad q).acc.length) && ((s.cohort placedThread.cohort).slots.getD 3 {}).outcome 0 = some true && s.ops = []) = true := by decide
theorem witness_shadow_false : (let q := placedQuad; let s := (between.modQuad q fun y => { y with acc := [[7], [], [], []], shadows := [{ bound := some (placedThread.cohort, 0, 3, 0), data := [9] }, {}] }).modCohort placedThread.cohort fun c => { c with slots := c.slots.set 3 { value := some false } }; let x := (s.quad q).shadows.getD 0 {}; x.bound = some (placedThread.cohort, 0, (3, 0)) && decide (0 < (s.quad q).shadows.length) && decide (0 < (s.quad q).acc.length) && ((s.cohort placedThread.cohort).slots.getD 3 {}).outcome 0 = some false && s.ops = []) = true := by decide
theorem witness_slot_resolves : (let c := placedThread.cohort; let g : Msg := { body := .resolve c 3 true, op := some 5, token := some placedThread }; let s : State := { (between.under { ctr := some 4, body := .message 4 false }).modCohort c fun y => { y with slots := y.slots.set 3 {} } with msgs := [(4, g)] }; let x := (s.cohort c).slots.getD 3 {}; s.msg? 4 = some g && s.live c && s.resident c && decide (3 < (s.cohort c).slots.length) && x = {}) = true := by decide
theorem witness_slot_resolved : (let c := placedThread.cohort; let g : Msg := { body := .resolve c 3 false, op := some 5, token := some placedThread }; let s : State := { (between.under { ctr := some 4, body := .message 4 false }).modCohort c fun y => { y with slots := y.slots.set 3 { value := some true } } with msgs := [(4, g)] }; let x := (s.cohort c).slots.getD 3 {}; s.msg? 4 = some g && s.live c && s.resident c && decide (3 < (s.cohort c).slots.length) && x = { value := some true }) = true := by decide
theorem witness_slot_cancels : (let c := placedThread.cohort; let g : Msg := { body := .cancel c 3, op := some 5, token := some placedThread }; let s : State := { (between.under { ctr := some 4, body := .message 4 false }).modCohort c fun y => { y with slots := y.slots.set 3 { value := some true, epoch := 2 } } with msgs := [(4, g)] }; let x := (s.cohort c).slots.getD 3 {}; s.msg? 4 = some g && s.live c && s.resident c && decide (3 < (s.cohort c).slots.length) && x = { value := some true, epoch := 2 }) = true := by decide
theorem witness_xsend : Meets ((world 0x035C00018100C000).load (pairAt 6 (objPtr 0x1000) ++ pairAt 8 (objPtr 0x2000) ++ [(14, 8192)])) 0x35C00018100C000 .xsend (fun s b t f => (s.thread t).transferOf f .send = some (({ code := .send, dst := objPtr 0x1000, src := objPtr 0x2000, len := 8192 } : XferOp), 0) && (s.transferTrap t ({ code := .send, dst := objPtr 0x1000, src := objPtr 0x2000, len := 8192 } : XferOp) 0).isNone && decide ((Tab.getD (s.die t.cohort.toDie).queues (s.cohort t.cohort).vf []).length < 256) && !s.sharesHeld t (s.transferShares t ({ code := .send, dst := objPtr 0x1000, src := objPtr 0x2000, len := 8192 } : XferOp) 0)) = true := by decide
theorem witness_xfetch : Meets ((world 0x036000018100C000).load (pairAt 6 (objPtr 0x1000) ++ pairAt 8 (objPtr 0x2000) ++ [(14, 64)])) 0x36000018100C000 .xfetch (fun s b t f => (s.thread t).transferOf f .fetch = some (({ code := .fetch, dst := objPtr 0x1000, src := objPtr 0x2000, len := 64, nbBytes := 64 } : XferOp), 0) && (s.transferTrap t ({ code := .fetch, dst := objPtr 0x1000, src := objPtr 0x2000, len := 64, nbBytes := 64 } : XferOp) 0).isNone && decide ((Tab.getD (s.die t.cohort.toDie).queues (s.cohort t.cohort).vf []).length < 256) && !s.sharesHeld t (s.transferShares t ({ code := .fetch, dst := objPtr 0x1000, src := objPtr 0x2000, len := 64, nbBytes := 64 } : XferOp) 0)) = true := by decide
theorem witness_xadd : Meets ((world 0x036400018100C000).load (pairAt 6 (objPtr 0x1000) ++ pairAt 8 (objPtr 0x2000) ++ [(14, 64)])) 0x36400018100C000 .xadd (fun s b t f => (s.thread t).transferOf f .add = some (({ code := .add, dst := objPtr 0x1000, src := objPtr 0x2000, len := 64, sfmt := 0, dfmt := 0 } : XferOp), 0) && (s.transferTrap t ({ code := .add, dst := objPtr 0x1000, src := objPtr 0x2000, len := 64, sfmt := 0, dfmt := 0 } : XferOp) 0).isNone && decide ((Tab.getD (s.die t.cohort.toDie).queues (s.cohort t.cohort).vf []).length < 256) && !s.sharesHeld t (s.transferShares t ({ code := .add, dst := objPtr 0x1000, src := objPtr 0x2000, len := 64, sfmt := 0, dfmt := 0 } : XferOp) 0)) = true := by decide
theorem witness_xsend_empty : Meets ((world 0x035C00018100C000).load (pairAt 6 (objPtr 0) ++ pairAt 8 (objPtr 0x2000) ++ [(14, 0)])) 0x35C00018100C000 .xsend (fun s b t f => (s.thread t).transferOf f .send = some (({ code := .send, dst := objPtr 0, src := objPtr 0x2000, len := 0 } : XferOp), 0) && true) = true := by decide
theorem witness_xsend_long : Meets ((world 0x035C00018100C000).load (pairAt 6 (objPtr 0) ++ pairAt 8 (objPtr 0x2000) ++ [(14, 16777217)])) 0x35C00018100C000 .xsend (fun s b t f => (s.thread t).transferOf f .send = some (({ code := .send, dst := objPtr 0, src := objPtr 0x2000, len := 16777217 } : XferOp), 0) && true) = true := by decide
theorem witness_xfetch_host : Meets ((world 0x036000018100C000).load (pairAt 6 (mkPtr 0xFFE 1 0) ++ pairAt 8 (objPtr 0x2000) ++ [(14, 64)])) 0x36000018100C000 .xfetch (fun s b t f => (s.thread t).transferOf f .fetch = some (({ code := .fetch, dst := mkPtr 0xFFE 1 0, src := objPtr 0x2000, len := 64, nbBytes := 64 } : XferOp), 0) && birthOf (mkPtr 0xFFE 1 0) = 0xFFE) = true := by decide
theorem witness_xadd_misaligned : Meets ((world 0x036400018100C000).load (pairAt 6 (objPtr 2) ++ pairAt 8 (objPtr 0x2000) ++ [(14, 64)])) 0x36400018100C000 .xadd (fun s b t f => (s.thread t).transferOf f .add = some (({ code := .add, dst := objPtr 2, src := objPtr 0x2000, len := 64, sfmt := 0, dfmt := 0 } : XferOp), 0) && isGlobal (objPtr 2) && offsetOf (objPtr 2) % 4 ≠ 0) = true := by decide
theorem witness_pumppost : Meets ((world 0x0368020180000000).load (pairAt 6 (objPtr 128))) 0x368020180000000 .pumppost (fun s b t f => (s.thread t).src64 f.sa = some (objPtr 128) && offsetOf (objPtr 128) % 128 = 0 && isGlobal (objPtr 128) && !f.modG && !f.modSig) = true := by decide
theorem witness_pumppost_cancel : Meets ((world 0x0368020180001000).load (pairAt 6 (objPtr 128))) 0x368020180001000 .pumppostCancel (fun s b t f => (s.thread t).src64 f.sa = some (objPtr 128) && offsetOf (objPtr 128) % 128 = 0 && isGlobal (objPtr 128) && !f.modG && !f.modSig) = true := by decide
theorem witness_pumppost_misaligned : Meets ((world 0x0368020180000000).load (pairAt 6 (objPtr 64))) 0x368020180000000 .pumppost (fun s b t f => (s.thread t).src64 f.sa = some (objPtr 64) && offsetOf (objPtr 64) % 128 ≠ 0) = true := by decide
theorem witness_pumppost_host : Meets ((world 0x0368020180001000).load (pairAt 6 (mkPtr 0xFFE 1 0))) 0x368020180001000 .pumppostCancel (fun s b t f => (s.thread t).src64 f.sa = some (mkPtr 0xFFE 1 0) && offsetOf (mkPtr 0xFFE 1 0) % 128 = 0 && birthOf (mkPtr 0xFFE 1 0) = 0xFFE) = true := by decide
theorem witness_flit : (let d := placedThread.cohort.toDie; let k : XferPart := { tran := 1, data := [1, 2, 3, 4] }; let x : XferOp := { code := .send, dst := objPtr 0x1010, src := objPtr 0x2000, len := 4, started := some 0, parts := [k] }; let s : State := { (between.under { ctr := some 4, body := .xfer x }).modDie d fun y => { y with queues := [(0, [5])] } with pod := [{ chip := 0, domain := 0 }, { chip := 1, domain := 0 }], objects := [((0, 1), { size := 2 ^ 21, extents := [{ holder := 1 }], pages := List.replicate 32 {} })] }; let s1 := (s.startXfers d).xferWalks d; (s1.partsOn d)[0]? = some (5, k) && (s1.xfer? 5).any (fun r => r.2 = x) && (s1.holderAt x.dst).bind (s1.portFor d) = some (d, 0)) = true := by decide
theorem witness_transfer_complete : (let c := placedThread.cohort; let x : XferOp := { dst := objPtr 0, src := objPtr 0, len := 4, started := some 0, signalled := true }; let s : State := (between.under { ctr := some 4, body := .xfer x }).modDie c.toDie fun y => { y with queues := [(0, [5])] }; let o := (s.op? 5).getD {}; s.op? 5 = some o && o.body = .xfer x && !o.closing && o.ctr = some 4 && s.resident c && x.slot.isNone && x.red.isNone && x.todo = [] && x.parts = [] && x.rides.isNone && x.signalled && x.signals = 0 && x.err.isNone && x.slotOf.isNone && x.nb.isNone && !(s.msgs.any fun m => m.2.op = some 5) && (s.thread o.thread).dcs.getD 4 [] = [(5, false)]) = true := by decide
theorem witness_signal : (let h : DWord := BitVec.ofNat 64 (1 * 2 ^ 28 + 3); let k : Contribution := { member := true }; let x : XferOp := { dst := objPtr 0, signals := 1, signalled := true }; let g : Msg := { body := .signal h (0, 0) 0 k 5 }; let s : State := { ((between.under { ctr := some 4, body := .xfer x }).modCohort placedThread.cohort fun c => { c with nbs := c.nbs.set 3 { armed := true, members := 2, mleft := 2 } }) with msgs := [(4, g)] }; let o := (s.op? 5).getD {}; let c : CohortId := ⟨0, 0, 0, 1⟩; s.msg? 4 = some g && !s.fabricHeld 4 0 (birthOf h) && g.after.isNone && (s.pathDown 0 (birthOf h)).isNone && s.live c && (s.cohort c).killed.isNone && decide (3 < (s.cohort c).nbs.length) && (s.vf 0 0).ctx ≠ .deferring && h.toNat % 16 = 3) = true := by decide
theorem witness_signal_dropped : (let h : DWord := BitVec.ofNat 64 (2 * 2 ^ 28 + 3); let k : Contribution := { member := true }; let x : XferOp := { dst := objPtr 0, signals := 1, signalled := true }; let g : Msg := { body := .signal h (0, 0) 0 k 5 }; let s : State := { ((between.under { ctr := some 4, body := .xfer x }).modCohort placedThread.cohort fun c => { c with nbs := c.nbs.set 3 { armed := true, members := 2, mleft := 2 } }) with msgs := [(4, g)] }; let o := (s.op? 5).getD {}; let c : CohortId := ⟨0, 0, 0, 2⟩; s.msg? 4 = some g && !s.fabricHeld 4 0 (birthOf h) && g.after.isNone && (s.pathDown 0 (birthOf h)).isNone && !o.closing && !s.live c && s.op? 5 = some o && o.body = .xfer x && x.err.isNone) = true := by decide
theorem witness_link_times_out : (let x : XferOp := { dst := objPtr 0, src := objPtr 0, len := 4, started := some 7, todo := [0] }; let cut := fun (y : Die) => { y with ports := List.replicate 12 { lanes := 0 } }; let s : State := { (((((between.under { ctr := some 4, body := .xfer x }).modChip 0 fun h => { h with pathless := some 9 }).modDie ⟨0, 0⟩ cut).modDie ⟨0, 1⟩ cut).modDie ⟨0, 2⟩ cut).modDie ⟨0, 3⟩ cut with now := 360000009, pod := [{ chip := 0, domain := 0 }, { chip := 1, domain := 0 }], objects := [((0, 1), { size := 2 ^ 21, extents := [{ holder := 1 }], pages := List.replicate 32 {} })] }; let o := (s.op? 5).getD {}; s.op? 5 = some o && o.body = .xfer x && !o.closing && (s.holderAt x.dst).bind (s.pathDown 0) = some 9 && x.todo ≠ [] && s.resident o.thread.cohort && decide (max 9 7 + 100000 * 3600 ≤ s.now)) = true := by decide
theorem witness_link_early : (let x : XferOp := { dst := objPtr 0, src := objPtr 0, len := 4, started := some 7, todo := [0] }; let cut := fun (y : Die) => { y with ports := List.replicate 12 { lanes := 0 } }; let s : State := { (((((between.under { ctr := some 4, body := .xfer x }).modChip 0 fun h => { h with pathless := some 9 }).modDie ⟨0, 0⟩ cut).modDie ⟨0, 1⟩ cut).modDie ⟨0, 2⟩ cut).modDie ⟨0, 3⟩ cut with now := 360000008, pod := [{ chip := 0, domain := 0 }, { chip := 1, domain := 0 }], objects := [((0, 1), { size := 2 ^ 21, extents := [{ holder := 1 }], pages := List.replicate 32 {} })] }; let o := (s.op? 5).getD {}; s.op? 5 = some o && o.body = .xfer x && !o.closing && (s.holderAt x.dst).bind (s.pathDown 0) = some 9 && x.todo ≠ [] && s.resident o.thread.cohort && decide (s.now < max 9 7 + 100000 * 3600)) = true := by decide
theorem witness_entry_armed : (let bs := bytesLE 8 (objPtr 0x4000).toNat ++ bytesLE 8 (objPtr 0x8000).toNat ++ bytesLE 8 0 ++ bytesLE 4 4 ++ bytesLE 4 39168 ++ bytesLE 12 0 ++ bytesLE 2 1 ++ bytesLE 18 0 ++ bytesLE 4 7 ++ bytesLE 2 0 ++ bytesLE 58 0; let p := objPtr 128; let s : State := { (between.under { ctr := some 4, body := .post p false none none 4 none }).holding [(globalAt p, bs)] with pod := [{ chip := 0, domain := 0, switch := 0 }] }; let o := (s.op? 5).getD {}; let e := Entry.ofBytes bs; bs.length = 128 && s.op? 5 = some o && o.body = .post p false none none 4 none && !o.closing && s.awake o.thread.cohort && (s.vf 0 0).busy.isNone && !s.engineWaits o.thread 5 p 128 false && (match (s.giveUp 5).xferRead o.thread p 128 with | .ok l => l = bs | _ => false) && (s.die o.thread.cohort.toDie).waiting = [] && s.slotFree o.thread.cohort.toDie (s.partOf o.thread.cohort) && s.entryOk o.thread e && !e.red) = true := by decide
theorem witness_entry_bad : (let bs := bytesLE 8 (objPtr 0x4000).toNat ++ bytesLE 8 (objPtr 0x8000).toNat ++ bytesLE 8 0 ++ bytesLE 4 0 ++ bytesLE 4 39168 ++ bytesLE 12 0 ++ bytesLE 2 1 ++ bytesLE 18 0 ++ bytesLE 4 7 ++ bytesLE 2 0 ++ bytesLE 58 0; let p := objPtr 128; let s : State := { (between.under { ctr := some 4, body := .post p false none none 4 none }).holding [(globalAt p, bs)] with pod := [{ chip := 0, domain := 0, switch := 0 }] }; let o := (s.op? 5).getD {}; let e := Entry.ofBytes bs; bs.length = 128 && s.op? 5 = some o && o.body = .post p false none none 4 none && !o.closing && s.awake o.thread.cohort && (s.vf 0 0).busy.isNone && !s.engineWaits o.thread 5 p 128 false && (match s.xferRead o.thread p 128 with | .ok l => l = bs | _ => false) && (s.die o.thread.cohort.toDie).waiting = [] && s.slotFree o.thread.cohort.toDie (s.partOf o.thread.cohort) && !s.entryOk o.thread e && o.ctr = some 4 && o.know = [] && !(s.msgs.any fun m => m.2.op = some 5)) = true := by decide
theorem witness_entry_reduces : (let bs := bytesLE 8 (objPtr 0x4000).toNat ++ bytesLE 8 (objPtr 0x8000).toNat ++ bytesLE 8 0 ++ bytesLE 4 4 ++ bytesLE 4 18 ++ bytesLE 12 0 ++ bytesLE 2 1 ++ bytesLE 18 0 ++ bytesLE 4 7 ++ bytesLE 2 2 ++ bytesLE 58 0; let p := objPtr 128; let s : State := { (between.under { ctr := some 4, body := .post p false none none 4 (some (Entry.ofBytes bs)) }).holding [(globalAt p, bs)] with pod := [{ chip := 0, domain := 0, switch := 1 }] }; let o := (s.op? 5).getD {}; let e := Entry.ofBytes bs; bs.length = 128 && s.op? 5 = some o && o.body = .post p false none none 4 (some e) && !o.closing && s.awake o.thread.cohort && (s.vf 0 0).busy.isNone && !s.engineWaits o.thread 5 p 128 false && (match s.xferRead o.thread p 128 with | .ok l => l = bs | _ => false) && (s.die o.thread.cohort.toDie).waiting = [] && s.slotFree o.thread.cohort.toDie (s.partOf o.thread.cohort) && s.entryOk o.thread e && e.red && isOk (s.reduceRequest 0 e)) = true := by decide
theorem witness_entry_no_slot : (let bs := bytesLE 8 (objPtr 0x4000).toNat ++ bytesLE 8 (objPtr 0x8000).toNat ++ bytesLE 8 0 ++ bytesLE 4 4 ++ bytesLE 4 18 ++ bytesLE 12 0 ++ bytesLE 2 1 ++ bytesLE 18 0 ++ bytesLE 4 7 ++ bytesLE 2 2 ++ bytesLE 58 0; let p := objPtr 128; let s : State := { (between.under { ctr := some 4, body := .post p false none none 4 (some (Entry.ofBytes bs)) }).holding [(globalAt p, bs)] with pod := [{ chip := 0, domain := 0, switch := 0 }] }; let o := (s.op? 5).getD {}; let e := Entry.ofBytes bs; bs.length = 128 && s.op? 5 = some o && o.body = .post p false none none 4 (some e) && !o.closing && s.awake o.thread.cohort && (s.vf 0 0).busy.isNone && !s.engineWaits o.thread 5 p 128 false && (match s.xferRead o.thread p 128 with | .ok l => l = bs | _ => false) && (s.die o.thread.cohort.toDie).waiting = [] && s.slotFree o.thread.cohort.toDie (s.partOf o.thread.cohort) && s.entryOk o.thread e && e.red && isErr (s.reduceRequest 0 e) 1) = true := by decide
theorem witness_entry_slot : (let s := (between.under { ctr := some 4, body := .post (objPtr 128) false none none 4 none }).modDie placedThread.cohort.toDie fun d => { d with slots := [(0, {})] }; let o := (s.op? 5).getD {}; s.op? 5 = some o && (Tab.get? (s.die o.thread.cohort.toDie).slots 1).isNone && (Tab.get? (s.die o.thread.cohort.toDie).slots 0).isSome && decide (4 < (s.thread o.thread).regs.length)) = true := by decide
theorem witness_entry_not_due : (let c := placedThread.cohort; let d := c.toDie; let n : Entry := { dst := objPtr 0x4000, src := objPtr 0x8000, count := 4, ctrl := 39168, tphase := 5, tstep := 2, trig := 131, dstride := 16, sstride := BitVec.ofInt 32 (-16), repeat' := 0 }; let e : EntrySlot := { entry := n, thread := placedThread }; let s := (between.modDie d fun y => { y with slots := [(2, e)] }).modCohort c fun y => { y with nbs := y.nbs.set 3 { phase := 4 } }; Tab.get? (s.die d).slots 2 = some e && e.firing.isNone && !e.cancel && !e.bad && n.trig / 128 % 2 = 1 && decide ((((s.cohort c).nbs.getD (n.trig % 16) {}).phase - n.tphase).toNat ≥ 2 ^ 31)) = true := by decide
theorem witness_entry_fires : (let c := placedThread.cohort; let d := c.toDie; let n : Entry := { dst := objPtr 0x4000, src := objPtr 0x8000, count := 4, ctrl := 39168, tphase := 5, tstep := 2, trig := 131, dstride := 16, sstride := BitVec.ofInt 32 (-16), repeat' := 0 }; let e : EntrySlot := { entry := n, thread := placedThread }; let s := (between.modDie d fun y => { y with slots := [(2, e)] }).modCohort c fun y => { y with nbs := y.nbs.set 3 { phase := 5 } }; Tab.get? (s.die d).slots 2 = some e && e.firing.isNone && !e.cancel && !e.bad && s.live c && (s.cohort c).killed.isNone && s.awake c && (s.vf 0 0).ctx = .running && (s.vf 0 0).busy.isNone && decide ((((s.cohort c).nbs.getD (n.trig % 16) {}).phase - n.tphase).toNat < 2 ^ 31) && e.fired = 0 && !n.red && !isCistern n.dst && s.entryOk placedThread n) = true := by decide
theorem witness_entry_rearms : (let c := placedThread.cohort; let d := c.toDie; let n : Entry := { dst := objPtr 0x4000, src := objPtr 0x8000, count := 4, ctrl := 39168, tphase := 5, tstep := 2, trig := 131, dstride := 16, sstride := BitVec.ofInt 32 (-16), repeat' := 0 }; let e : EntrySlot := { entry := n, thread := placedThread, firing := some 77 }; let s := (between.modDie d fun y => { y with slots := [(2, e)] }).modCohort c fun y => { y with nbs := y.nbs.set 3 { phase := 5 } }; Tab.get? (s.die d).slots 2 = some e && e.firing = some 77 && (s.op? 77).isNone && !e.cancel && n.trig / 128 % 2 = 1 && n.repeat' = 0) = true := by decide
theorem witness_reduction_waits : (let x : XferOp := { code := .add, dst := objPtr 0x4000, src := objPtr 0x100, count := 1, len := 4, sfmt := 0, dfmt := 0, red := some (0, 7), todo := [4], fork := 1 }; let y : XferOp := { x with src := objPtr 0x200 }; let r : RedSlot := { rcount := 2, ready := [5] }; let s : State := { (between.holding [(globalAt (objPtr 0x100), bytesLE 4 0x3F800000), (globalAt (objPtr 0x200), bytesLE 4 0x40000000), (globalAt (objPtr 0x4000), bytesLE 4 0x3F800000)]) with ops := [(5, { thread := placedThread, body := .xfer x }), (6, { thread := placedThread, body := .xfer y })], redSlots := [((0, 7), r)], nextId := 7 }; let o := (s.op? 5).getD {}; let p := (s.op? 6).getD {}; s.redSlots.get? (0, 7) = some r && !r.bad && s.xfer? 5 = some (o, x) && s.xfer? 6 = some (p, y) && r.ready = [5] && decide (2 ≤ r.rcount)) = true := by decide
theorem witness_reduction_sums : (let x : XferOp := { code := .add, dst := objPtr 0x4000, src := objPtr 0x100, count := 1, len := 4, sfmt := 0, dfmt := 0, red := some (0, 7), todo := [4], fork := 1 }; let y : XferOp := { x with src := objPtr 0x200 }; let r : RedSlot := { rcount := 2, ready := [5, 6] }; let s : State := { (between.holding [(globalAt (objPtr 0x100), bytesLE 4 0x3F800000), (globalAt (objPtr 0x200), bytesLE 4 0x40000000), (globalAt (objPtr 0x4000), bytesLE 4 0x3F800000)]) with ops := [(5, { thread := placedThread, body := .xfer x }), (6, { thread := placedThread, body := .xfer y })], redSlots := [((0, 7), r)], nextId := 7 }; let o := (s.op? 5).getD {}; let p := (s.op? 6).getD {}; s.redSlots.get? (0, 7) = some r && !r.bad && s.xfer? 5 = some (o, x) && s.xfer? 6 = some (p, y) && s.resident o.thread.cohort && s.resident p.thread.cohort && !s.unmapped 0 0 && x.slot.isNone && y.slot.isNone && !x.scaleIn && !y.scaleIn && !s.xferReadWaits o.thread x.fork x.src 4 && !s.xferReadWaits p.thread y.fork y.src 4 && x.count * x.ssz = 4 && y.count * y.ssz = 4 && isOk (s.xferRead o.thread x.src 4) && isOk (s.xferRead p.thread y.src 4)) = true := by decide
theorem witness_launchq : Meets ((world 0x0358020180000000).load (pairAt 6 (objPtr 128))) 0x358020180000000 .launchq (fun s b t f => (s.thread t).src64 f.sa = some (objPtr 128) && offsetOf (objPtr 128) % 128 = 0 && isGlobal (objPtr 128) && serialOf (objPtr 128) ≠ 0) = true := by decide
theorem witness_launchq_private : Meets ((world 0x0358020180000000).load (pairAt 6 (mkPtr 0xFFF 0 65408))) 0x358020180000000 .launchq (fun s b t f => (s.thread t).src64 f.sa = some (mkPtr 0xFFF 0 65408) && offsetOf (mkPtr 0xFFF 0 65408) % 128 = 0 && birthOf (mkPtr 0xFFF 0 65408) = 0xFFF && serialOf (mkPtr 0xFFF 0 65408) = 0 && decide (offsetOf (mkPtr 0xFFF 0 65408) + 128 ≤ (s.launchOf t.cohort).priv')) = true := by decide
theorem witness_launchq_misaligned : Meets ((world 0x0358020180000000).load (pairAt 6 (objPtr 64))) 0x358020180000000 .launchq (fun s b t f => (s.thread t).src64 f.sa = some (objPtr 64) && offsetOf (objPtr 64) % 128 ≠ 0) = true := by decide
theorem witness_launchq_host : Meets ((world 0x0358020180000000).load (pairAt 6 (mkPtr 0xFFE 1 0))) 0x358020180000000 .launchq (fun s b t f => (s.thread t).src64 f.sa = some (mkPtr 0xFFE 1 0) && offsetOf (mkPtr 0xFFE 1 0) % 128 = 0 && birthOf (mkPtr 0xFFE 1 0) = 0xFFE) = true := by decide
theorem witness_tfetch : Meets (world 0x0354020000000000) 0x354020000000000 .tfetch (fun s b t f => true) = true := by decide
theorem witness_launch_accepted : (let p := objPtr 128; let bs := smallRecord; let s := ((between.under { ctr := some 4, body := .launchq p 4 true }).holding [(globalAt p, bs)]).modVf 0 0 fun v => { v with enable := true }; let o := (s.op? 5).getD {}; let c := placedThread.cohort; let know := s.clock o.thread 5 o.know; let s2 := s.widen o.thread (effScope (s.launchOf c).ladder 5) know; s.op? 5 = some o && o.body = .launchq p 4 true && o.held.isNone && s.ops.all (fun q => q.1 ≥ 5) && s.earlierComplete o.thread 5 (effScope (s.launchOf c).ladder 5) && !s.deviceWaits 0 0 p 128 && !s2.deviceWaits 0 0 (Launch.ofBytes bs).args (4 * (Launch.ofBytes bs).nargs) && (s.vf 0 0).enable && (s.vf 0 0).busy.isNone && (match s2.launchRecord o.thread p with | .ok l => l = bs | _ => false) && Launch.ofBytes bs = smallLaunch && s2.gridFrom 0 65535 (s2.chip 0).nextGrid = some 2) = true := by decide
theorem witness_launch_rejected : (let p := objPtr 128; let bs := bytesLE 128 0; let s := ((between.under { ctr := some 4, body := .launchq p 4 true }).holding [(globalAt p, bs)]).modVf 0 0 fun v => { v with enable := true }; let o := (s.op? 5).getD {}; let c := placedThread.cohort; let know := s.clock o.thread 5 o.know; let s2 := s.widen o.thread (effScope (s.launchOf c).ladder 5) know; s.op? 5 = some o && o.body = .launchq p 4 true && o.held.isNone && s.ops.all (fun q => q.1 ≥ 5) && s.earlierComplete o.thread 5 (effScope (s.launchOf c).ladder 5) && !s.deviceWaits 0 0 p 128 && !s2.deviceWaits 0 0 (Launch.ofBytes bs).args (4 * (Launch.ofBytes bs).nargs) && (s.vf 0 0).enable && (s.vf 0 0).busy.isNone && (match s2.launchRecord o.thread p with | .ok l => l = bs | _ => false) && isErr (s2.validate 0 0 0 (Launch.ofBytes bs)) 2) = true := by decide
theorem witness_launch_lands : (let s := between.under { ctr := some 4, body := .launchq 0 4 true }; let o := (s.op? 5).getD {}; s.op? 5 = some o && decide (4 < (s.thread o.thread).regs.length)) = true := by decide
theorem witness_launch_entered : (!smallLaunch.after) = true := by decide
theorem witness_ring_disabled : (let v := between.vf 0 0; !v.srcfg.getLsbD 31) = true := by decide
theorem witness_ring_empty : (let s := between.modVf 0 0 fun v => { v with srcfg := 0x80000004, enable := true }; (s.vf 0 0).srprod = (s.vf 0 0).srcons) = true := by decide
theorem witness_packet_passes : (let p := objPtr 0; let s := (between.holding [(globalAt p, [2]), (globalAt p + 128, smallRecord)]).modVf 0 0 fun v => { v with srbase := p, srcfg := 0x80000004, srprod := 1, enable := true }; let v := s.vf 0 0; s.ringReady 0 0 && !s.deviceWaits 0 0 p 256 && (match s.objectRead 0 0 p 4 with | .ok k => ofBytesLE k ≠ 1 | _ => false)) = true := by decide
theorem witness_packet_launches : (let p := objPtr 0; let s := (between.holding [(globalAt p, [1]), (globalAt p + 128, smallRecord)]).modVf 0 0 fun v => { v with srbase := p, srcfg := 0x80000004, srprod := 1, enable := true }; let v := s.vf 0 0; s.ringReady 0 0 && !s.deviceWaits 0 0 p 256 && !s.deviceWaits 0 0 smallLaunch.args (4 * smallLaunch.nargs) && (match s.objectRead 0 0 p 4 with | .ok k => ofBytesLE k = 1 | _ => false) && (match s.objectRead 0 0 (ptrAdd p 0x80) 128 with | .ok l => Launch.ofBytes l = smallLaunch | _ => false) && s.gridFrom 0 65535 (s.chip 0).nextGrid = some 2) = true := by decide
theorem witness_cohort_goes_on : (let c := placedThread.cohort; let s := (between.tweak fun x => { x with run := .ready }); let s : State := { s with pins := [(9, { cohort := c, scope := 1 })] }; s.live c && s.awake c && s.threads.any (fun t => t.1.cohort = c && (s.thread t.1).run ≠ .ended) = true) = true := by decide
theorem witness_cohort_ends : (let c := placedThread.cohort; let s := (between.tweak fun x => { x with run := .ended }); let s : State := { s with pins := [(9, { cohort := c, scope := 1 })] }; s.live c && s.awake c && s.threads.any (fun t => t.1.cohort = c && (s.thread t.1).run ≠ .ended) = false) = true := by decide
theorem witness_grid_runs : (let s := between.setGrid 0 2 { launch := { smallLaunch with crec := objPtr 0x400, tag := 77 }, state := .running, placed := [(0, 0)], done := 0, killed' := 0 }; let g := s.grid 0 2; g.state = .running && decide (g.done < g.placed.length)) = true := by decide
theorem witness_grid_ends_0 : (let s := between.setGrid 0 2 { launch := { smallLaunch with crec := objPtr 0x400, tag := 77 }, state := .running, placed := [(0, 0)], done := 1, killed' := 0 }; let g := s.grid 0 2; g.state = .running && decide (g.placed.length ≤ g.done) && !g.kill && g.launch.crec ≠ 0 && isGlobal g.launch.crec && (s.obj? g.launch.crec).isSome && nexts (exec (.gridEnd 0 2) s) fun u => (u.op? s.nextId).any fun o => match o.body with | .access a => a.ptr = objPtr 0x400 && decide (a.data % 2 ^ 32 = 2 ^ 31 + 0) | _ => false) = true := by decide
theorem witness_grid_ends_1 : (let s := between.setGrid 0 2 { launch := { smallLaunch with crec := objPtr 0x400, tag := 77 }, state := .running, placed := [(0, 0)], done := 1, killed' := 1 }; let g := s.grid 0 2; g.state = .running && decide (g.placed.length ≤ g.done) && !g.kill && g.launch.crec ≠ 0 && isGlobal g.launch.crec && (s.obj? g.launch.crec).isSome && nexts (exec (.gridEnd 0 2) s) fun u => (u.op? s.nextId).any fun o => match o.body with | .access a => a.ptr = objPtr 0x400 && decide (a.data % 2 ^ 32 = 2 ^ 31 + 2) | _ => false) = true := by decide
theorem witness_index_given : (let c := placedThread.cohort; let s := (between.under { ctr := some 4, body := .tfetch 4 false }).modGrid 0 1 fun g => { g with launch := { g.launch with tdimx := 3, tdimy := 2, tbase := 100 }, next := 5 }; let o := (s.op? 5).getD {}; s.op? 5 = some o && o.body = .tfetch 4 false && o.ctr = some 4 && s.opMoves 5 o && s.ops.all (fun q => q.1 ≥ 5) && decide (4 + 3 < (s.thread o.thread).regs.length) && decide (5 < (s.grid 0 1).launch.tdimx * max 1 (s.grid 0 1).launch.tdimy * max 1 (s.grid 0 1).launch.tdimz) = true) = true := by decide
theorem witness_index_gone : (let c := placedThread.cohort; let s := (between.under { ctr := some 4, body := .tfetch 4 false }).modGrid 0 1 fun g => { g with launch := { g.launch with tdimx := 3, tdimy := 2, tbase := 100 }, next := 6 }; let o := (s.op? 5).getD {}; s.op? 5 = some o && o.body = .tfetch 4 false && o.ctr = some 4 && s.opMoves 5 o && s.ops.all (fun q => q.1 ≥ 5) && decide (4 + 3 < (s.thread o.thread).regs.length) && decide (6 < (s.grid 0 1).launch.tdimx * max 1 (s.grid 0 1).launch.tdimy * max 1 (s.grid 0 1).launch.tdimz) = false) = true := by decide
theorem witness_placing : ((queued.headLaunch 0 0).any (fun x => x.1 = 2) && (List.range 12).all (fun p => p = 0 || (queued.placement 0 p).isNone)) = true := by decide
theorem witness_former_full : (let q := placedQuad; let t := placedThread; let s := (between.holding [(globalAt (objPtr 0), bytesLE 8 0x303ffff000000000 ++ bytesLE 8 0x039C000000000000)]).modQuad placedQuad fun q => { q with bundles := (List.range 8).map fun i => (i, {}) }; let r := s.refreshQuad q; decide ((r.quad q).bundles.length ≥ 8)) = true := by decide
theorem witness_former_idle : (let q := placedQuad; let t := placedThread; let s := (between.holding [(globalAt (objPtr 0), bytesLE 8 0x303ffff000000000 ++ bytesLE 8 0x039C000000000000)]).modQuad placedQuad fun q => { q with bundles := [] }; let r := s.refreshQuad q; (r.threadsOn q).filter r.eligible = []) = true := by decide
theorem witness_former_starts : (let q := placedQuad; let t := placedThread; let s := ((between.holding [(globalAt (objPtr 0), bytesLE 8 0x303ffff000000000 ++ bytesLE 8 0x039C000000000000)]).modQuad placedQuad fun q => { q with bundles := [] }).tweak fun x => { x with run := .ready }; let r := s.refreshQuad q; (r.quad q).bundles = [] && (r.threadsOn q).filter r.eligible = [t] && (match r.fetchClause t.cohort (r.thread t).pc with | .ok (w, ws) => ws = [0x039C000000000000] && w = 0x303ffff000000000 && (decodeClause (r.launchOf t.cohort).regs (r.cohort t.cohort).slots.length (r.launchOf t.cohort).tiles (Header.ofWord w) ws 0).isNone | _ => false) && !(r.thread t).inside) = true := by decide
theorem witness_watchdog_early : (let c := placedThread.cohort; let t := placedThread; let u := otherThread; let pc := objPtr 0; let k : CrewTimer := { crew := 0, pc := pc, since := 5 }; let s := ((world 0).setThread u { (world 0).thread t with pc := objPtr 0x800, run := .ready }).tweak fun x => { x with run := .rendezvous }; let s := (s.setGrid 0 1 { s.grid 0 1 with launch := { (s.grid 0 1).launch with priv' := 0 } }).modCohort c fun x => { x with timers := [k], threads := 2 }; let s : State := { s with issuing := none, now := 36000005 }; (s.cohort c).timers.find? (fun k => k.crew = 0 && k.pc = pc) = some k && s.awake c && s.crewOf ⟨c, 0⟩ = [t, u] && (s.thread t).standsAt pc && !(s.thread u).standsAt pc && decide (s.now - k.since ≤ s.wdogLimit c)) = true := by decide
theorem witness_watchdog_traps : (let c := placedThread.cohort; let t := placedThread; let u := otherThread; let pc := objPtr 0; let k : CrewTimer := { crew := 0, pc := pc, since := 5 }; let s := ((world 0).setThread u { (world 0).thread t with pc := objPtr 0x800, run := .ready }).tweak fun x => { x with run := .rendezvous }; let s := (s.setGrid 0 1 { s.grid 0 1 with launch := { (s.grid 0 1).launch with priv' := 0 } }).modCohort c fun x => { x with timers := [k], threads := 2 }; let s : State := { s with issuing := none, now := 36000006 }; (s.cohort c).timers.find? (fun k => k.crew = 0 && k.pc = pc) = some k && s.awake c && s.crewOf ⟨c, 0⟩ = [t, u] && (s.thread t).standsAt pc && !(s.thread u).standsAt pc && decide (s.wdogLimit c < s.now - k.since) && decide ((s.launchOf c).priv' < 256) && (match s.fetchClause c pc with | .ok _ => true | _ => false) && (s.thread u).pc ≠ pc) = true := by decide
theorem witness_fault_waits : (let t := placedThread; let d : Deferred := { op := 9, ctr := 1, kind := .memoryFault, dst := [], record := trapRec .memoryFault 2 0 (objPtr 0) 0 0 0 0 false false }; let s := ((world 0).holding [(globalAt (objPtr 0), bytesLE 8 0x303ffff000000000 ++ bytesLE 8 0x039C000000000000), (globalAt (objPtr 0x1000), (List.range 16).flatMap fun _ => bytesLE 8 (objPtr 0x2000).toNat)]).tweak fun x => { x with deferred := [d], run := .blocked }; let s : State := { s with issuing := none }; let s := s.modVf 0 0 fun v => { v with tvbase := objPtr 0x1000 }; (s.thread t).deferred = [d] && d.kind ≠ .resourceWait && !(s.thread t).handler && (s.thread t).raised.isNone && (s.cohort t.cohort).killed.isNone && s.awake t.cohort && !s.stopping t.cohort && (s.thread t).run = .blocked && !(s.thread t).inside && offsetOf (s.thread t).pc % 8 = 0 && (match s.fetchClause t.cohort (s.thread t).pc with | .ok (w, ws) => !clauseBad (s.thread t).pc (Header.ofWord w) ws && decide ((Header.ofWord w).dcwait.getD d.ctr 7 = 7) && !(Header.ofWord w).nbw | _ => false)) = true := by decide
theorem witness_fault_delivered : (let t := placedThread; let d : Deferred := { op := 9, ctr := 1, kind := .memoryFault, dst := [], record := trapRec .memoryFault 2 0 (objPtr 0) 0 0 0 0 false false }; let s := ((world 0).holding [(globalAt (objPtr 0), bytesLE 8 0x303ffc7000000000 ++ bytesLE 8 0x039C000000000000), (globalAt (objPtr 0x1000), (List.range 16).flatMap fun _ => bytesLE 8 (objPtr 0x2000).toNat)]).tweak fun x => { x with deferred := [d], run := .blocked }; let s : State := { s with issuing := none }; let s := s.modVf 0 0 fun v => { v with tvbase := objPtr 0x1000 }; (s.thread t).deferred = [d] && d.kind ≠ .resourceWait && !(s.thread t).handler && (s.thread t).raised.isNone && (s.cohort t.cohort).killed.isNone && s.awake t.cohort && !s.stopping t.cohort && (s.thread t).run = .blocked && !(s.thread t).inside && offsetOf (s.thread t).pc % 8 = 0 && (match s.fetchClause t.cohort (s.thread t).pc with | .ok (w, ws) => !clauseBad (s.thread t).pc (Header.ofWord w) ws && decide ((Header.ofWord w).dcwait.getD d.ctr 7 ≠ 7) && decide ((Header.ofWord w).dcwait.getD d.ctr 7 ≤ d.after) && s.mayBegin t && !s.owes t && (s.vector t.cohort d.kind.code).isSome | _ => false)) = true := by decide
theorem witness_pool_early : (let t := placedThread; let p := objPtr 0x100; let s := between.under { ctr := some 1, held := some 7, body := .access { kind := .store, ptr := p } }; let s : State := { s with now := 36000006 }; let o := (s.op? 5).getD {}; s.op? 5 = some o && o.thread = t && s.awake t.cohort && (s.poolOf 5 o).any (fun x => x.2.1 = 7) && decide (s.now < 7 + 36000000)) = true := by decide
theorem witness_pool_withdraws : (let t := placedThread; let p := objPtr 0x100; let s := between.under { ctr := some 1, held := some 7, body := .access { kind := .store, ptr := p } }; let s : State := { s with now := 36000007 }; let o := (s.op? 5).getD {}; s.op? 5 = some o && o.thread = t && s.awake t.cohort && (s.poolOf 5 o).any (fun x => x.2.1 = 7) && decide (7 + 36000000 ≤ s.now)) = true := by decide
theorem witness_held_early : (let w : DWord := 0x034004850100087A; let t := placedThread; let s := (stood w).modQuad placedQuad fun q => { q with bundles := q.bundles.map fun k => (k.1, { k.2 with pool := 3, heldSince := some 7 }) }; let s : State := { s with now := 36000006, issuing := none }; let b := (((s.bundleOf t).map (·.2)).getD {}); let f := Fields.ofWord w 0; let i := Instr.mmag f; s.bundleOf t = some (0, b) && b.instr = some i && i.fields? = some f && (s.thread t).executes f && b.waitOps = [] && b.pool ≠ 0 && b.heldSince = some 7 && decide (s.now < 7 + 36000000)) = true := by decide
theorem witness_held_traps : (let w : DWord := 0x034004850100087A; let t := placedThread; let s := (stood w).modQuad placedQuad fun q => { q with bundles := q.bundles.map fun k => (k.1, { k.2 with pool := 3, heldSince := some 7 }) }; let s : State := { s with now := 36000007, issuing := none }; let b := (((s.bundleOf t).map (·.2)).getD {}); let f := Fields.ofWord w 0; let i := Instr.mmag f; s.bundleOf t = some (0, b) && b.instr = some i && i.fields? = some f && (s.thread t).executes f && b.waitOps = [] && b.pool ≠ 0 && b.heldSince = some 7 && decide (7 + 36000000 ≤ s.now)) = true := by decide
theorem witness_drain_waits : (let t := placedThread; let s := between.under { ctr := some 1 }; let s := s.tweak fun x => { x with run := .draining }; (s.thread t).run = .draining && s.awake t.cohort && (s.thread t).deferred = [] && (List.range 6).all (fun c => (s.thread t).dc c = 0) = false) = true := by decide
theorem witness_drain_ends : (let t := placedThread; let s := between; let s := s.tweak fun x => { x with run := .draining }; (s.thread t).run = .draining && s.awake t.cohort && (s.thread t).deferred = [] && (List.range 6).all (fun c => (s.thread t).dc c = 0) = true) = true := by decide
theorem witness_sluice_ticks : (let f : Vf := { sluice := 0x0000000500000080, balance := 100 }; let s : State := { (between.modChip 0 fun h => { h with vfs := [(0, f)] }) with now := 3600 }; (s.chip 0).vfs = [(0, f)] && decide ((s.chip 0).sluiceAt < s.ns 0 / 1000) && f.sluice.toNat % 2 ^ 24 ≠ 0 && s.quadsUsed 0 0 = 1 && decide (min (f.balance + 128 - 256) 1280 = -28)) = true := by decide
theorem witness_sluice_stops : (let f : Vf := { sluice := 0x0000000500000080, balance := (-1200) }; let s : State := { (between.modChip 0 fun h => { h with vfs := [(0, f)] }) with now := 3600 }; (s.chip 0).vfs = [(0, f)] && decide ((s.chip 0).sluiceAt < s.ns 0 / 1000) && f.sluice.toNat % 2 ^ 24 ≠ 0 && s.quadsUsed 0 0 = 1 && decide (min (f.balance + 128 - 256) 1280 ≤ -1280) && !s.expressContext 0 0 && f.ctx = .running && f.busy.isNone && !s.partly 0 0) = true := by decide
theorem witness_sluice_done : (between.ns 0 / 1000 = (between.chip 0).sluiceAt) = true := by decide
theorem witness_qown_nobody : ((0x8000000C : Word).toNat % 16 > 11) = true := by decide
theorem witness_qown_gives : (let q : QuadId := ⟨0, 0, 0, 1⟩; let v : Word := 0x80000003; let s := between.modChip 0 fun h => { h with parts := [(3, { enable := true })] }; decide (v.toNat % 16 ≤ 11) && v.getLsbD 31 && (s.part 0 3).enable && (s.quad q).owner.isNone) = true := by decide
theorem witness_qown_idle : ((between.quad placedQuad).pending.isNone) = true := by decide
theorem witness_ring_enables : (let t := placedThread; let c := t.cohort.toCore; let v : DWord := 0x8001000300000010; let off : Nat := 0x100; let s := (between.under { ctr := some 3, body := .mmio off v 8 none }).modCore c fun x => x; let o := (s.op? 5).getD {}; s.mmioStore 5 = some (o, off, v) && v.getLsbD 63 && s.ringAllowed c 0 0 (v &&& 0x80FF03FF00003FFF) && !s.claimFull c ({ cfg := v &&& 0x80FF03FF00003FFF } : Ring).allLines) = true := by decide
theorem witness_ring_refused : (let t := placedThread; let c := t.cohort.toCore; let v : DWord := 0x8000000000000000; let off : Nat := 0x100; let s := (between.under { ctr := some 3, body := .mmio off v 8 none }).modCore c fun x => x; let o := (s.op? 5).getD {}; s.mmioStore 5 = some (o, off, v) && v.getLsbD 63 && !s.ringAllowed c 0 0 (v &&& 0x80FF03FF00003FFF)) = true := by decide
theorem witness_ring_disables : (let t := placedThread; let c := t.cohort.toCore; let v : DWord := 0; let off : Nat := 0x100; let s := (between.under { ctr := some 3, body := .mmio off v 8 none }).modCore c fun x => x.setRing 0 0 { cfg := 0x8001000300000010, prod := 2, cons := 1 }; let o := (s.op? 5).getD {}; s.mmioStore 5 = some (o, off, v) && !v.getLsbD 63 && ((s.core c).ring 0 0).enabled) = true := by decide
theorem witness_slots_returned : (let t := placedThread; let c := t.cohort.toCore; let v : DWord := 2; let off : Nat := 0x114; let s := (between.under { ctr := some 3, body := .mmio off v 8 none }).modCore c fun x => x.setRing 0 0 { cfg := 0x8001000300000010, prod := 2, cons := 1 }; let o := (s.op? 5).getD {}; s.mmioStore 5 = some (o, off, v) && ((s.core c).ring 0 0).enabled && !s.claimFull c (((s.core c).ring 0 0).slotLines 1)) = true := by decide
theorem witness_winopen : Meets ((world 0x03D4030100000000).load [(4, 255)]) 0x3D4030100000000 .winopen (fun s b t f => (s.thread t).src32 f.sa = some 255) = true := by decide
theorem witness_winopen_beyond : Meets ((world 0x03D4030100000000).load [(4, 256)]) 0x3D4030100000000 .winopen (fun s b t f => (s.thread t).src32 f.sa = some 256) = true := by decide
theorem witness_winrel : Meets ((world 0x03D8020180000000).load (pairAt 6 (objPtr 64))) 0x3D8020180000000 .winrel (fun s b t f => (s.thread t).src64 f.sa = some (objPtr 64)) = true := by decide
theorem witness_winacq : Meets ((world 0x03D8020180001000).load (pairAt 6 (objPtr 64))) 0x3D8020180001000 .winacq (fun s b t f => (s.thread t).src64 f.sa = some (objPtr 64)) = true := by decide
theorem witness_winclose : Meets ((world 0x03D8020180002000).load (pairAt 6 (objPtr 64))) 0x3D8020180002000 .winclose (fun s b t f => (s.thread t).src64 f.sa = some (objPtr 64)) = true := by decide
theorem witness_keyq_wepoch : Meets ((world 0x03DC020180001000).load (pairAt 6 (objPtr 64))) 0x3DC020180001000 .keyqWepoch (fun s b t f => (s.thread t).src64 f.sa = some (objPtr 64)) = true := by decide
theorem witness_keyq_epoch : Meets (world 0x03DC020000000000) 0x3DC020000000000 .keyqEpoch (fun s b t f => true) = true := by decide
theorem witness_keyq_report : Meets ((world 0x03DC020180002000).load (pairAt 6 (objPtr 64))) 0x3DC020180002000 .keyqReport (fun s b t f => (s.thread t).src64 f.sa = some (objPtr 64) && (s.reportCheck t (objPtr 64)).isNone) = true := by decide
theorem witness_keyq_misaligned : Meets ((world 0x03DC020180002000).load (pairAt 6 (objPtr 32))) 0x3DC020180002000 .keyqReport (fun s b t f => (s.thread t).src64 f.sa = some (objPtr 32) && isGlobal (objPtr 32) && offsetOf (objPtr 32) % 64 ≠ 0) = true := by decide
theorem witness_epoch_lands : (let s := (between.under { body := .win { code := .epoch, dst := 4 } }).modVf 0 0 fun v => { v with realm := 3, keyEpoch := 7 }; let o := (s.op? 5).getD {}; let w : WinOp := { code := .epoch, dst := 4 }; s.op? 5 = some o && o.body = .win w && s.opMoves 5 o && (s.cohort o.thread.cohort).vf = 0 && w.code = .epoch) = true := by decide
theorem witness_window_opens : (let s := (between.under { body := .win { code := .winOpen, w := 2, dst := 4 } }).setGrant 0 2 { ctl := 0x80000001, realmA := 0, realmB := 1, state := .opened, serial := 9 }; let o := (s.op? 5).getD {}; let w : WinOp := { code := .winOpen, w := 2, dst := 4 }; s.op? 5 = some o && o.body = .win w && s.opMoves 5 o && (s.cohort o.thread.cohort).vf = 0 && w.code = .winOpen && (s.grant 0 2).valid && (s.grant 0 2).state = .opened && s.realmOf o.thread.cohort = (s.grant 0 2).realmA && !w.wr && !s.windowBusy 5 o 0 9) = true := by decide
theorem witness_window_idle : (let s := between; let g := s.grant 0 2; g.state = .idle) = true := by decide
theorem witness_window_held : (let s := between.setGrant 0 2 { state := .opened, serial := 9, a := { plain := 1 } }; let g := s.grant 0 2; g.state = .opened && g.a.plain ≠ 0) = true := by decide
theorem witness_window_scrub_begins : (let s := between.setGrant 0 2 { state := .opened, serial := 9 }; let g := s.grant 0 2; g.state = .opened && g.a.plain = 0 && g.a.write = 0 && g.b.plain = 0 && g.b.write = 0 && s.ops.all (fun o => !o.2.inWindow 0 g.serial)) = true := by decide
theorem witness_window_scrub_ends : (let s := ((between.setGrant 0 2 { state := .scrubbing, serial := 9, frames := [3], ctl := 0x8, realmA := 5 }).holding [(windowAt 0 2 1 5, [7])]).modDie ⟨0, 0⟩ fun d => { d with frames := [(3, 0), (4, 0)] }; let g := s.grant 0 2; g.state = .scrubbing && Memory.wf s.mem) = true := by decide
theorem witness_preempt_stops : (let s := (between.setVf 0 0 {  }); let v := s.vf 0 0; let t := placedThread; v.ctx = .running && v.busy.isNone && !s.expressPreempts 0 0 && !s.partly 0 0) = true := by decide
theorem witness_preempt_defers : (let s := (between.setVf 0 0 {  }).modCohort placedThread.cohort fun c => { c with nbs := c.nbs.set 1 { armed := true, members := 2, mleft := 1, counted := true } }; let v := s.vf 0 0; let t := placedThread; v.ctx = .running && v.busy.isNone && !s.expressPreempts 0 0 && s.partly 0 0 && !(s.part 0 v.part).express) = true := by decide
theorem witness_defer_over : (let s := (between.setVf 0 0 { ctx := .deferring }); let v := s.vf 0 0; let t := placedThread; v.ctx = .deferring && !s.partly 0 0) = true := by decide
theorem witness_defer_waits : (let s := (between.setVf 0 0 { ctx := .deferring, ctxAsked := 5 }).modCohort placedThread.cohort fun c => { c with nbs := c.nbs.set 1 { armed := true, members := 2, mleft := 1, counted := true } }; let s : State := { s with now := 180000 }; let v := s.vf 0 0; let t := placedThread; v.ctx = .deferring && s.partly 0 0 && decide (s.ns 0 < v.ctxAsked + 50000)) = true := by decide
theorem witness_defer_forced : (let s := (between.setVf 0 0 { ctx := .deferring }).modCohort placedThread.cohort fun c => { c with nbs := c.nbs.set 1 { armed := true, members := 2, mleft := 1, counted := true } }; let s : State := { s with now := 180000 }; let v := s.vf 0 0; let t := placedThread; v.ctx = .deferring && s.partly 0 0 && decide (v.ctxAsked + 50000 ≤ s.ns 0)) = true := by decide
theorem witness_handler_halts : (let s := (between.setVf 0 0 { ctx := .stopping }); let s := s.tweak fun x => { x with handler := true }; let s : State := { s with now := 8192 }; let v := s.vf 0 0; let t := placedThread; (s.cohort t.cohort).vf = 0 && s.live t.cohort && v.ctx = .stopping && (s.thread t).handler && !(s.thread t).halted && (s.thread t).run ≠ .ended && decide (v.ctxSince + 8192 ≤ s.now)) = true := by decide
theorem witness_handler_goes_on : (let s := (between.setVf 0 0 { ctx := .stopping }); let s := s.tweak fun x => { x with handler := true }; let s : State := { s with now := 8191 }; let v := s.vf 0 0; let t := placedThread; (s.cohort t.cohort).vf = 0 && s.live t.cohort && v.ctx = .stopping && (s.thread t).handler && !(s.thread t).halted && (s.thread t).run ≠ .ended && decide (s.now < v.ctxSince + 8192)) = true := by decide
theorem witness_save_waits : (let s := (between.setVf 0 0 { ctx := .stopping }); let v := s.vf 0 0; let t := placedThread; (((s.cohortsIn 0 0).map (·.1)).flatMap s.threadsOf).any fun t => !(s.thread t).stands) = true := by decide
theorem witness_save : (let s := (between.setVf 0 0 { ctx := .stopping, forced := true }); let s := s.tweak fun x => { x with run := .blocked }; let s : State := { s with pins := [(9, { cohort := placedThread.cohort, scope := 1 })] }; let v := s.vf 0 0; let t := placedThread; v.ctx = .stopping && (((s.cohortsIn 0 0).map (·.1)).flatMap s.threadsOf).all (fun t => (s.thread t).stands) && (s.opsIn 0 0).all fun p => !p.2.mustLand) = true := by decide
theorem witness_resume_refused : (let s := (between.setVf 0 0 { ctx := .saved, busy := some 3 }); let v := s.vf 0 0; let t := placedThread; v.ctx = .saved && !s.mayResume 0 0) = true := by decide
theorem witness_resume_restores : (let s := (between.setVf 0 0 { ctx := .saved }); let v := s.vf 0 0; let t := placedThread; v.ctx = .saved && s.mayResume 0 0) = true := by decide
theorem witness_resume_replays : (let s := (between.setVf 0 0 { ctx := .restoring }); let s := s.under { ctr := some 1, body := .access { kind := .store, ptr := objPtr 0 } }; let v := s.vf 0 0; let t := placedThread; v.ctx = .restoring && (s.opsIn 0 0).any fun p => s.replayDue p.1 p.2) = true := by decide
theorem witness_resume_runs : (let s := (between.setVf 0 0 { ctx := .restoring }); let v := s.vf 0 0; let t := placedThread; v.ctx = .restoring && (s.opsIn 0 0).all (fun p => !s.replayDue p.1 p.2 && !p.2.isObj) && !(s.chip 0).hot && !s.contributing 0 0) = true := by decide
theorem witness_kill_again : (let s := (between.setVf 0 0 { busy := some 3 }); let v := s.vf 0 0; let t := placedThread; v.busy.isSome) = true := by decide
theorem witness_reclaim_waits : (let s := (between.setVf 0 0 { busy := some 3 }); let s := s.under {}; let s : State := { s with now := 360002 }; let v := s.vf 0 0; let t := placedThread; v.busy = some 3 && s.opsIn 0 0 ≠ [] && decide (s.now < 3 + 360000)) = true := by decide
theorem witness_reclaim_late : (let s := (between.setVf 0 0 { busy := some 3 }); let s := s.under {}; let s : State := { s with now := 360003 }; let v := s.vf 0 0; let t := placedThread; v.busy = some 3 && decide (3 + 360000 ≤ s.now)) = true := by decide
theorem witness_reclaim_reset : (let s := (between.setVf 0 0 { busy := some 3, resetting := true, tvbase := 128, weight := 5, enable := true, realm := 6 }); let v := s.vf 0 0; let t := placedThread; v.busy = some 3 && s.opsIn 0 0 = [] && v.resetting) = true := by decide
theorem witness_scan_begins : (let o : Obj := { size := 2 ^ 21, extents := [{}], pages := (List.replicate 32 {}).set 3 { dirty := true }, summary := [0] }; let s : State := { between with objects := [((0, 1), o), ((0, 2), { o with vf := 1 })] }; (s.vf 0 0).dlscan.isNone) = true := by decide
theorem witness_scan_over : (let s := (between.setVf 0 0 { dlscan := some [] }); let v := s.vf 0 0; let t := placedThread; v.dlscan = some []) = true := by decide
theorem witness_scan_full : (let s := (between.setVf 0 0 { dlscan := some [(0, 1)], dlprod := 65536 }); let v := s.vf 0 0; let t := placedThread; v.dlscan = some [(0, 1)] && (v.dlprod - v.dlcons).toNat = 65536) = true := by decide
theorem witness_scan_logs : (let s := (between.setVf 0 0 { dlscan := some [(0, 1), (0, 2)], dlbase := 4096, dlprod := 65537, dlcons := 65536 }); let v := s.vf 0 0; let t := placedThread; Memory.wf s.mem && v.dlscan = some [(0, 1), (0, 2)] && (v.dlprod - v.dlcons).toNat ≠ 65536) = true := by decide
theorem witness_core_spared : (let c : CoreId := ⟨0, 1, 5⟩; let s := State.reset; let old := (s.core c).phys.getD c.core; let s1 := (s.modCore c fun x => { x with service := false, retiring := true }).modDie c.toDie fun x => { x with retired := old :: x.retired }; !(s.core c).worn && (s.core c).service && !(s.core c).retiring && s.cohortsOn c = [] && (s1.spareCore c.toDie).isSome) = true := by decide
theorem witness_core_lost : (let c : CoreId := ⟨0, 1, 5⟩; let s := State.reset.modDie ⟨0, 1⟩ fun x => { x with retired := [48, 49] }; let old := (s.core c).phys.getD c.core; let s1 := (s.modCore c fun x => { x with service := false, retiring := true }).modDie c.toDie fun x => { x with retired := old :: x.retired }; !(s.core c).worn && (s.core c).service && !(s.core c).retiring && s.cohortsOn c = [] && (s1.spareCore c.toDie).isNone) = true := by decide
theorem witness_core_worn : (let s := State.reset.modCore ⟨0, 1, 5⟩ fun x => { x with corrected := [(3, List.replicate 65 9)] }; (s.core ⟨0, 1, 5⟩).worn && (s.core ⟨0, 1, 5⟩).service) = true := by decide
theorem witness_row_spared : (let d : DieId := ⟨0, 1⟩; let s := State.reset.modDie d fun x => { x with spareRows := (List.range 15).map fun i => ((2, i), i), spareBanks := (List.range 0).map fun i => ((3, i), i) }; decide (((s.die d).spareRows.filter fun e => e.1.1 = 2).length < 16)) = true := by decide
theorem witness_rows_gone : (let d : DieId := ⟨0, 1⟩; let s := State.reset.modDie d fun x => { x with spareRows := (List.range 16).map fun i => ((2, i), i), spareBanks := (List.range 0).map fun i => ((3, i), i) }; decide (16 ≤ ((s.die d).spareRows.filter fun e => e.1.1 = 2).length)) = true := by decide
theorem witness_bank_spared : (let d : DieId := ⟨0, 1⟩; let s := State.reset.modDie d fun x => { x with spareRows := (List.range 0).map fun i => ((2, i), i), spareBanks := (List.range 1).map fun i => ((3, i), i) }; decide (((s.die d).spareBanks.filter fun e => e.1.1 = 3).length < 2)) = true := by decide
theorem witness_banks_gone : (let d : DieId := ⟨0, 1⟩; let s := State.reset.modDie d fun x => { x with spareRows := (List.range 0).map fun i => ((2, i), i), spareBanks := (List.range 2).map fun i => ((3, i), i) }; decide (2 ≤ ((s.die d).spareBanks.filter fun e => e.1.1 = 3).length)) = true := by decide
theorem witness_lane_lost : (let d : DieId := ⟨0, 1⟩; let p : Port := {}; let s := State.reset.modDie d fun x => { x with ports := x.ports.set 7 p }; let port := fun (u : State) => (u.die d).ports.getD 7 {}; (s.die d).ports[7]? = some p && p.lanes = 4) = true := by decide
theorem witness_port_down : (let d : DieId := ⟨0, 1⟩; let p : Port := { lanes := 3 }; let s := State.reset.modDie d fun x => { x with ports := x.ports.set 7 p }; let port := fun (u : State) => (u.die d).ports.getD 7 {}; (s.die d).ports[7]? = some p && p.lanes = 3) = true := by decide
theorem witness_retrained : (let d : DieId := ⟨0, 1⟩; let p : Port := { lanes := 3, training := true, flits := 9 }; let s := State.reset.modDie d fun x => { x with ports := x.ports.set 7 p }; let port := fun (u : State) => (u.die d).ports.getD 7 {}; (s.die d).ports[7]? = some p && p.training) = true := by decide
theorem witness_not_training : (let d : DieId := ⟨0, 1⟩; let p : Port := {}; let s := State.reset.modDie d fun x => { x with ports := x.ports.set 7 p }; let port := fun (u : State) => (u.die d).ports.getD 7 {}; (s.die d).ports[7]? = some p && !p.training) = true := by decide
theorem witness_rekeyed : (let d : DieId := ⟨0, 1⟩; let p : Port := { flits := 9 }; let s := State.reset.modDie d fun x => { x with ports := x.ports.set 7 p }; let port := fun (u : State) => (u.die d).ports.getD 7 {}; (s.die d).ports[7]? = some p && p.lanes ≠ 0) = true := by decide
theorem witness_take_over_early : (let s := State.reset.modChip 0 fun h => { h with missed := 2, standby := true }; let h := s.chip 0; decide (h.missed < 3)) = true := by decide
theorem witness_take_over : (let s := State.reset.modChip 0 fun h => { h with missed := 3, standby := true, fw := 1, fwOther := 2 }; let h := s.chip 0; decide (3 ≤ h.missed) && h.standby) = true := by decide
theorem witness_sram_fails : (let s := State.reset.modChip 0 fun h => { h with standby := true }; let h := s.chip 0; h.standby) = true := by decide
theorem witness_update_begins : (let s := State.reset.modChip 0 fun h => h; let h := s.chip 0; h.updstat ≠ 1) = true := by decide
theorem witness_update_runs : (let s := State.reset.modChip 0 fun h => { h with standby := true, updstat := 1, images := 4, fw := 3 }; let h := s.chip 0; h.updstat = 1 && h.standby) = true := by decide


theorem witness_line_bad : (let d : DieId := ⟨0, 0⟩; let l := 3 * 1024 + 5; let a := globalAt (objPtr 0x140); let s : State := { (State.reset.modDie d fun x => { x with frames := [(3, 0)], lines := [(l, { text := [], mac := 0, bad := true })] }) with objects := [((0, 1), { size := 2 ^ 21, extents := [{}], pages := (List.replicate 32 {}).set 0 { frame := 3 } })] }; s.dramLine (a / 64 * 64) = some (d, l) && (Tab.get? (s.die d).l2 (l / 2)).isNone && (Tab.get? (s.die d).lines l).any (fun x => x.bad)) = true := by decide
theorem witness_page_writes : (decide (1023 < 1024)) = true := by decide
theorem witness_heat_719 : ((State.reset.chip 0).vfs = []) = true := by decide
theorem witness_heat_720 : ((State.reset.chip 0).vfs = []) = true := by decide
theorem witness_heat_760 : ((State.reset.chip 0).vfs = []) = true := by decide
theorem witness_heat_839 : ((State.reset.chip 0).vfs = []) = true := by decide
theorem witness_heat_840 : ((State.reset.chip 0).vfs = []) = true := by decide
theorem witness_heat_919 : ((State.reset.chip 0).vfs = []) = true := by decide
theorem witness_heat_920 : ((State.reset.chip 0).vfs = []) = true := by decide
theorem witness_unwritten_iadd : Meets (world 0x0000024001000000) 0x24001000000 .iadd (fun s b t f => ((s.a32 b t f).isNone)) = true := by decide
theorem witness_unwritten_isub : Meets (world 0x0004024001000000) 0x4024001000000 .isub (fun s b t f => ((s.a32 b t f).isNone)) = true := by decide
theorem witness_unwritten_imul : Meets (world 0x0008024001000000) 0x8024001000000 .imul (fun s b t f => ((s.a32 b t f).isNone)) = true := by decide
theorem witness_unwritten_imin : Meets (world 0x0020024001000000) 0x20024001000000 .imin (fun s b t f => ((s.a32 b t f).isNone)) = true := by decide
theorem witness_unwritten_imax : Meets (world 0x0024024001000000) 0x24024001000000 .imax (fun s b t f => ((s.a32 b t f).isNone)) = true := by decide
theorem witness_unwritten_second : Meets (world 0x00000201A0E00000) 0x201A0E00000 .iadd (fun s b t f => (((s.thread t).b32 f).isNone)) = true := by decide
theorem witness_unwritten_iadd64 : Meets (world 0x0080024041000000) 0x80024041000000 .iadd64 (fun s b t f => ((s.a64 b t f).isNone)) = true := by decide
theorem witness_unwritten_isub64 : Meets (world 0x0084024041000000) 0x84024041000000 .isub64 (fun s b t f => ((s.a64 b t f).isNone)) = true := by decide
theorem witness_unwritten_imul64 : Meets (world 0x0088024041000000) 0x88024041000000 .imul64 (fun s b t f => ((s.a64 b t f).isNone)) = true := by decide
theorem witness_unwritten_popc : Meets (world 0x0058024080000000) 0x58024080000000 .popc (fun s b t f => ((s.a32 b t f).isNone)) = true := by decide
theorem witness_unwritten_clz : Meets (world 0x005C024080000000) 0x5C024080000000 .clz (fun s b t f => ((s.a32 b t f).isNone)) = true := by decide
theorem witness_refused_alu_class : (isErr (decodeWord ({ regs := 255, gslots := 64, tiles := 4, cls := 0, crew := true, last := true, latches := [] }) 0x0200000000000000 0) .illegalInstruction) = true := by decide
theorem witness_refused_alu_class_collective : (isErr (decodeWord ({ regs := 255, gslots := 64, tiles := 4, cls := 0, crew := false, last := true, latches := [] }) 0x0310000000000000 0) .illegalInstruction) = true := by decide
theorem witness_refused_memory_class : (isErr (decodeWord ({ regs := 255, gslots := 64, tiles := 4, cls := 1, crew := true, last := true, latches := [] }) 0x0310000000000000 0) .illegalInstruction) = true := by decide
theorem witness_refused_engine_class : (isErr (decodeWord ({ regs := 255, gslots := 64, tiles := 4, cls := 2, crew := true, last := true, latches := [] }) 0x0380000000000000 0) .illegalInstruction) = true := by decide
theorem witness_refused_control_class : (isErr (decodeWord ({ regs := 255, gslots := 64, tiles := 4, cls := 3, crew := true, last := true, latches := [] }) 0x037C000000000000 0) .illegalInstruction) = true := by decide
theorem witness_refused_no_class : (isErr (decodeWord ({ regs := 255, gslots := 64, tiles := 4, cls := 4, crew := true, last := true, latches := [] }) 0x039C000000000000 0) .illegalInstruction) = true := by decide
theorem witness_admitted_nop : (isOk (decodeWord ({ regs := 255, gslots := 64, tiles := 4, cls := 0, crew := true, last := true, latches := [] }) 0x039C000000000000 0) && isOk (decodeWord ({ regs := 255, gslots := 64, tiles := 4, cls := 1, crew := true, last := true, latches := [] }) 0x039C000000000000 0) && isOk (decodeWord ({ regs := 255, gslots := 64, tiles := 4, cls := 2, crew := true, last := true, latches := [] }) 0x039C000000000000 0) && isOk (decodeWord ({ regs := 255, gslots := 64, tiles := 4, cls := 3, crew := true, last := true, latches := [] }) 0x039C000000000000 0)) = true := by decide
theorem witness_predicate_destination : (let f := Fields.ofWord 0x0064080000000000 0; (Instr.ofCode 0x19 f).any fun i => i.roles.dst = .pred && decide (16 ≤ f.dst.toNat)) = true := by decide
theorem witness_predicate_source : (let f := Fields.ofWord 0x70008401003000 0; (Instr.ofCode 0x1C f).any fun i => i.roles.a = .pred && decide (16 ≤ f.sa.toNat)) = true := by decide
theorem witness_predicate_third : (let f := Fields.ofWord 0x68020181011000 0; (Instr.ofCode 0x1A f).any fun i => i.roles.c = .pred && f.form = 0 && decide (16 ≤ f.sc.toNat)) = true := by decide
theorem witness_form_01 : ((0x0001000030000001 : DWord).extractLsb' 48 2 = 1) = true := by decide
theorem witness_form_10 : ((0x00020000001FFFFF : DWord).extractLsb' 48 2 = 2) = true := by decide
theorem witness_step_issues : (let q := placedQuad; let w : DWord := 0x039C000000000000; let s := State.reset.placeWord w; let f := Fields.ofWord w 0; s.turns = [⟨2, .issue q 0⟩] && (s.chip 0).off.isNone && (match Tab.get? (s.quad q).bundles 0 with | some b => b.words[b.word]? = some w && (match decodeWord ({ regs := 255, gslots := 64, tiles := 4, cls := 3, crew := true, last := true, latches := [] }) w (b.words.getD (b.word + 1) 0) with | .ok i => i = .nop f | _ => false) | none => false)) = true := by decide
theorem witness_step_agent : (let s : State := { State.reset with turns := [⟨5, .agent (.heartbeat 0 true)⟩] }; s.powered (.agent (.heartbeat 0 true))) = true := by decide
theorem witness_step_unpowered : (let s : State := { State.reset.modChip 0 fun h => { h with off := some 3 } with turns := [⟨5, .agent (.heartbeat 0 true)⟩] }; !s.powered (.agent (.heartbeat 0 true))) = true := by decide
theorem witness_clause_end_exit : ((((world 0).tweak fun x => { x with exiting := true }).thread placedThread).exiting) = true := by decide
theorem witness_clause_end_target : (!(((world 0).tweak fun x => { x with nextPc := some 64 }).thread placedThread).exiting) = true := by decide
theorem witness_frame : (let s := crewOfTwo 0 [] 0; Tab.get? (s.quad placedQuad).bundles 0 = some (crewBundle 0) && decide (crewBundle 0).threads.Nodup && (crewBundle 0).rest = [] && (Instr.iadd noFields).counter.isNone) = true := by decide
theorem witness_no_write_back : ((0x840181000000 : DWord).getLsbD 47 && (0x20A820180400000 : DWord).getLsbD 47 && (0x64808181000000 : DWord).getLsbD 47) = true := by decide
theorem witness_destinations : (let x := (world 0).thread placedThread; let f : Fields := { noFields with dst := 253 }; !f.nwb && decide (f.dst.toNat + 1 < x.regs.length) && !{ f with dst := 255 }.nwb && { f with nwb := true }.nwb) = true := by decide
theorem witness_local_load : (let t := placedThread; let a : Access := { kind := .load, ptr := mkPtr 0xFFF 0 0x10, size := 4, data := 0x04030201, dst := 4 }; let s := (between.under { ctr := some 0, body := .access a }).holding [(privateAt t 0xE, [9, 9, 9, 9, 9, 9, 9, 9])]; let o := (s.op? 5).getD {}; let addr := privateAt t 0x10; Memory.wf s.mem && s.op? 5 = some o && o.body = .access a && o.phase = .issued && s.mayPerform 5 o && birthOf a.ptr = 0xFFF && decide (serialOf a.ptr < 2) && (s.obj? a.ptr).isNone && (match s.reach t a.ptr 4 (a.kind ≠ .load) with | .place x => x = addr | _ => false) && !s.readFails addr 4) = true := by decide
theorem witness_local_store : (let t := placedThread; let a : Access := { kind := .store, ptr := mkPtr 0xFFF 0 0x10, size := 4, data := 0x04030201, dst := 4 }; let s := (between.under { ctr := some 1, body := .access a }).holding [(privateAt t 0xE, [9, 9, 9, 9, 9, 9, 9, 9])]; let o := (s.op? 5).getD {}; let addr := privateAt t 0x10; Memory.wf s.mem && s.op? 5 = some o && o.body = .access a && o.phase = .issued && s.mayPerform 5 o && birthOf a.ptr = 0xFFF && decide (serialOf a.ptr < 2) && (s.obj? a.ptr).isNone && (match s.reach t a.ptr 4 (a.kind ≠ .load) with | .place x => x = addr | _ => false) && !s.writeFails addr 4) = true := by decide
theorem witness_cistern_store : (let t := placedThread; let p := mkPtr 0xFFF 1 0x10; let a : Access := { kind := .store, ptr := p, size := 4, data := 7 }; let s := between.under { ctr := some 1, body := .access a }; let o := (s.op? 5).getD {}; s.mayPerform 5 o && isCistern p && s.presentAll t.cohort.toCore (offsetOf p) 4 && (s.obj? p).isNone && (match s.reach t p 4 true with | .place x => x = cisternAt t.cohort.toCore 0x10 | _ => false) && !s.writeFails (cisternAt t.cohort.toCore 0x10) 4) = true := by decide
theorem witness_ctag_hit : Meets ((((world 0x0222020180000000).setCore placedQuad.toCore { writers := [(3, 1)] }).modCohort placedThread.cohort fun c => { c with tags := (c.tags.set 3 { valid := true, tag := BitVec.ofNat 57 ((objPtr 0x100).toNat / 128), line := 2, len := 1 }).set 5 { valid := true, tag := BitVec.ofNat 57 ((objPtr 0x180).toNat / 128), line := 9 } }).load (pairAt 6 (objPtr 0x190))) 0x222020180000000 .ctag (fun s b t f => (s.thread t).src64 f.sa = some (objPtr 0x190) && f.off = 0 && (s.regionCheck t (objPtr 0x190) 1).isNone && ((s.cohort t.cohort).tags[3]?).any (fun e => e.valid && decide (e.tag.toNat * 128 ≤ (objPtr 0x190).toNat) && decide ((objPtr 0x190).toNat < e.tag.toNat * 128 + 256)) && ((s.cohort t.cohort).tags.take 3).all (fun e => !e.valid) && nexts (exec (.ctag f) s) fun u => (u.thread t).reg 4 = 0x40000003 && (u.thread t).reg 5 = 0x190) = true := by decide
theorem witness_cfill_no_entry : Meets ((world 0x0226000181000000).load (pairAt 6 (objPtr 0x100) ++ [(8, 0x00081FFF)])) 0x226000181000000 .cfill (fun s b t f => (s.thread t).src64 f.sa = some (objPtr 0x100) && (s.thread t).src32 f.sb = some 0x00081FFF && decide ((s.cohort t.cohort).tags.length ≤ 0xFFF)) = true := by decide
theorem witness_cfill_outside : Meets ((world 0x0226000181000000).load (pairAt 6 (objPtr 0x100) ++ [(8, 0xFFFC1002)])) 0x226000181000000 .cfill (fun s b t f => (s.thread t).src64 f.sa = some (objPtr 0x100) && (s.thread t).src32 f.sb = some 0xFFFC1002 && !s.ownsBytes t.cohort.toCore (s.partOf t.cohort) (0x3FFF * 128) (2 * 128)) = true := by decide
theorem witness_cfill_source : ([objPtr 0x140, mkPtr 0xFFF 1 0x100, mkPtr 0 1 (2 ^ 30 - 128)].all fun p => Meets ((world 0x0226000181000000).load (pairAt 6 p ++ [(8, 0x00081002)])) 0x226000181000000 .cfill fun s b t f => (s.thread t).src64 f.sa = some p && (s.thread t).src32 f.sb = some 0x00081002 && decide (2 < (s.cohort t.cohort).tags.length) && s.ownsBytes t.cohort.toCore (s.partOf t.cohort) 256 256 && f.off = 0 && (offsetOf p % 128 ≠ 0 || (birthOf p = 0xFFF && serialOf p ≠ 0) || decide (offsetOf p + 256 > 2 ^ 30))) = true := by decide
theorem witness_result_lands : (let b : ObjOp := { code := .pin, dst := 4, wide := true }; let a : Access := { kind := .load, size := 8, dst := 4 }; let s := between.under { ctr := some 0, body := .access a }; let o := (s.op? 5).getD {}; s.op? 5 = some o && o.body = .access a && a.kind ≠ .store && decide (5 < (s.thread o.thread).regs.length) && decide (0 < (s.thread o.thread).dcs.length) && ((s.landObj 5 o b 0x700000009).thread o.thread).reg 5 = 7 && ((s.land 5 o a 0x700000009 []).thread o.thread).reg 4 = 9) = true := by decide
theorem witness_launch_fields : (smallLaunch.threads < 2 ^ 16 ∧ smallLaunch.regs < 256 ∧ smallLaunch.ladder < 256 ∧ smallLaunch.rmode < 8) ∧ Launch.ofBytes smallRecord = smallLaunch := by decide
theorem witness_launch_reason : smallLaunch.nargs = 0 ∧ { smallLaunch with threads := 0, regs := 15 }.threads = 0 ∧ isGlobal smallLaunch.kernel = true := by decide
theorem witness_launch_rejection_record : (let s := between.rejectLaunch 0 0 0 { smallLaunch with crec := objPtr 0x40, doneh := objPtr 0 } 8 []; (between.obj? (objPtr 0x40)).isSome && (s.op? between.nextId).isSome && (s.msg? (between.nextId + 1)).any fun m => decide (m.after = some between.nextId)) = true := by decide
theorem witness_rounded_values : ((match valOf 0 0x3F800000 with | .fin _ _ _ => true | _ => false) && (match valOf 3 0x38 with | .fin _ _ _ => true | _ => false) && decide (0x38 < 2 ^ fmtBits 3)) = true := by decide

/-! ### Witnesses in which a free frame is chosen: the choice is Config.frameChoice's, so they are proved for any choice. -/

/-- A die with every frame in use. -/
def fullDie : Die := { frames := (List.range frameCount).map (·, 0) }
theorem fullDie_taken : ∀ f < frameCount, f ∈ fullDie.frames.map (·.1) := fun f hf => by simp [fullDie, hf]

def allocOp : ObjOp := { code := .alloc, b := 0x10000, dst := 4, wide := true }
def allocating (dies : Tab DieId Die) : State :=
  ({ between with objects := [], dies := dies } : State).under { ctr := some 5, dst := [4], body := .obj allocOp }

theorem witness_answers_alloc :
    (∃ o, (allocating []).op? 5 = some o ∧ o.body = .obj allocOp ∧ allocOp.stage = 0 ∧ (allocating []).mayPerform 5 o = true
      ∧ o.thread = placedThread) ∧ ∃ n u, (allocating []).newObject 0 allocOp.die 0 allocOp.b.toNat (21 + allocOp.ctl) = some (n, u) := by
  refine ⟨⟨_, rfl, rfl, rfl, by decide, rfl⟩, ?_⟩
  obtain ⟨⟨fs, v⟩, h⟩ := Option.isSome_iff_exists.mp
    (allocFrames_isSome ⟨0, 0⟩ 0 0 1 (allocating []) (fun _ => rfl) (by decide))
  obtain ⟨hv, -⟩ := allocFrames_frame _ _ _ _ _ _ _ h
  have ht : v.takeSerial 0 = some (1, v.modChip 0 fun h => { h with nextSerial := 2 }) := by rw [hv]; rfl
  have : ((allocating []).newObject 0 allocOp.die 0 allocOp.b.toNat (21 + allocOp.ctl)).isSome = true := by
    unfold State.newObject
    dsimp only
    rw [show (allocating []).allocFrames ⟨0, allocOp.die⟩ ((allocating []).vf 0 0).part 0 ((allocOp.b.toNat + 65535) / 65536) = some (fs, v) from h]
    dsimp only
    rw [ht]
    rfl
  exact let ⟨p, hp⟩ := Option.isSome_iff_exists.mp this; ⟨p.1, p.2, hp⟩

theorem witness_answers_no_memory :
    (∃ o, (allocating [(⟨0, 0⟩, fullDie)]).op? 5 = some o ∧ o.body = .obj allocOp ∧ allocOp.stage = 0
      ∧ (allocating [(⟨0, 0⟩, fullDie)]).mayPerform 5 o = true)
      ∧ (allocating [(⟨0, 0⟩, fullDie)]).newObject 0 allocOp.die 0 allocOp.b.toNat (21 + allocOp.ctl) = none := by
  refine ⟨⟨_, rfl, rfl, rfl, by decide⟩, ?_⟩
  unfold State.newObject
  dsimp only
  rw [show (allocOp.b.toNat + 65535) / 65536 = 0 + 1 from rfl, allocFrames_none]
  exact fullDie_taken

/-- A move of the world's object to package 1. -/
def oneMove : Move := { obj := (0, 1), ext := 0, src := 0, dest := 1 }
def moving (m : Move) (dies : Tab DieId Die) : State :=
  { between with objects := [((0, 1), { size := 2 ^ 21, extents := [{ state := .pending, dest := 1 }], pages := List.replicate 32 {} })]
                 moves := [(3, m)], dies := dies }

theorem witness_move_refused :
    let s := moving oneMove ((List.range 4).map fun d => (⟨1, d⟩, fullDie))
    s.move? 3 = some oneMove ∧ (∃ o, s.objects.get? (0, 1) = some o ∧ 0 < o.extents.length
      ∧ ∀ d < 4, s.allocFrames ⟨1, d⟩ (s.vf 1 0).part 0 (o.pagesOf 0).length = none)
      ∧ oneMove.held = none ∧ oneMove.ready = false ∧ oneMove.op = none := by
  refine ⟨by decide, ⟨_, rfl, by decide, ?_⟩, rfl, rfl, rfl⟩
  intro d hd
  rw [show ∀ s : State, ∀ o : Obj, (o.pagesOf 0).length = (o.pagesOf 0).length - 1 + 1 → s.allocFrames ⟨1, d⟩ (s.vf 1 0).part 0 (o.pagesOf 0).length
    = s.allocFrames ⟨1, d⟩ (s.vf 1 0).part 0 ((o.pagesOf 0).length - 1 + 1) from fun _ _ h => by rw [← h]] <;> try decide
  apply allocFrames_none
  have : d = 0 ∨ d = 1 ∨ d = 2 ∨ d = 3 := by omega
  rcases this with rfl | rfl | rfl | rfl <;> exact fullDie_taken

/-- Frames for the small launch are had on its core, whatever is chosen. -/
theorem framesFor_small (s : State) (hp : ∀ d < 4, ∀ f, s.permits ⟨0, d⟩ 0 f = true) (hf : ∀ d < 4, (s.die ⟨0, d⟩).frames = [])
    (l : List CoreId) (hl : ∀ d < 4, ((l.filter fun c => c.die = d).map fun c => smallLaunch.frames (s.shareOf c 0).length).foldl (· + ·) 0 ≤ 1000) :
    s.framesFor 0 0 0 smallLaunch l = true := by
  unfold State.framesFor
  rw [List.all_eq_true]
  intro d hd
  have hd : d < 4 := by simpa using hd
  dsimp only
  rw [Bool.or_eq_true]
  right
  apply allocFrames_isSome _ _ _ _ _ (hp d hd)
  rw [hf d hd]
  have := hl d hd
  have : (1000 : Nat) ≤ frameCount := by decide
  simp only [List.length_nil]
  omega

theorem validate_small (s : State) (hs : s.eligibleSets 0 0 smallLaunch = [[⟨0, 0, 0⟩]]) (hp : ∀ d < 4, ∀ f, s.permits ⟨0, d⟩ 0 f = true)
    (hf : ∀ d < 4, (s.die ⟨0, d⟩).frames = []) (hl : (s.shareOf ⟨0, 0, 0⟩ 0).length = 1) : s.validate 0 0 0 smallLaunch = .ok [] := by
  have h : s.framesFor 0 0 0 smallLaunch [⟨0, 0, 0⟩] = true := by
    apply framesFor_small s hp hf
    intro d hd
    have : d = 0 ∨ d = 1 ∨ d = 2 ∨ d = 3 := by omega
    rcases this with rfl | rfl | rfl | rfl <;> (simp [hl]; try decide)
  unfold State.validate State.launchFaults
  rw [hs]
  simp only [List.any_cons, List.any_nil, h, Bool.or_false, Bool.not_true]
  rfl

theorem dies_below {p : Nat → Prop} (h0 : p 0) (h1 : p 1) (h2 : p 2) (h3 : p 3) : ∀ d < 4, p d := by
  intro d hd
  have : d = 0 ∨ d = 1 ∨ d = 2 ∨ d = 3 := by omega
  rcases this with rfl | rfl | rfl | rfl <;> assumption
theorem permits_queued : ∀ d < 4, ∀ f, queued.permits ⟨0, d⟩ 0 f = true := by
  intro d hd f
  have : d = 0 ∨ d = 1 ∨ d = 2 ∨ d = 3 := by omega
  rcases this with rfl | rfl | rfl | rfl <;> rfl

theorem witness_placement : ∃ g, queued.placement 0 0 = some (2, g, [⟨0, 0, 0⟩], [⟨0, 0, 0⟩]) := by
  have h : queued.framesFor 0 0 0 smallLaunch [⟨0, 0, 0⟩] = true := by
    apply framesFor_small queued (fun d hd f => permits_queued d hd f) (dies_below rfl rfl rfl rfl)
    intro d hd
    have : d = 0 ∨ d = 1 ∨ d = 2 ∨ d = 3 := by omega
    rcases this with rfl | rfl | rfl | rfl <;> decide
  refine ⟨queued.grid 0 2, ?_⟩
  unfold State.placement
  rw [show queued.headLaunch 0 0 = some (2, queued.grid 0 2) by decide]
  rw [Option.bind_some]
  dsimp only
  rw [if_pos (by decide)]
  unfold State.nextCores
  rw [show queued.readyCores 0 (queued.grid 0 2) = some ([⟨0, 0, 0⟩], [⟨0, 0, 0⟩], [⟨0, 0, 0⟩]) by decide]
  rw [Option.bind_some]
  dsimp only
  rw [if_neg (by decide)]
  rw [List.find?_cons_of_pos (by exact h)]
  rfl

theorem witness_placed : ∃ u, queued.placeCohort 0 2 ⟨0, 0, 0⟩ 0 = some u := by
  obtain ⟨⟨fs, v⟩, h⟩ := Option.isSome_iff_exists.mp
    (allocFrames_isSome ⟨0, 0⟩ 0 0 (smallLaunch.frames (queued.shareOf ⟨0, 0, 0⟩ 0).length) queued (fun _ => rfl) (by decide))
  unfold State.placeCohort
  dsimp only
  rw [show queued.allocFrames (⟨0, 0, 0⟩ : CoreId).toDie (queued.grid 0 2).part (queued.grid 0 2).vf
      ((queued.grid 0 2).launch.frames (queued.shareOf ⟨0, 0, 0⟩ (queued.grid 0 2).part).length) = some (fs, v) from h]
  exact ⟨_, rfl⟩


/-- The placed thread's LAUNCHQ of the small record, as operation 5, with its release made. -/
def launching : State :=
  let s := ((between.under { ctr := some 4, body := .launchq (objPtr 128) 4 true }).holding [(globalAt (objPtr 128), smallRecord)]).modVf 0 0
    fun v => { v with enable := true }
  s.widen placedThread (effScope (s.launchOf placedThread.cohort).ladder 5) (s.clock placedThread 5 [])
theorem witness_launch_valid : launching.validate 0 0 0 smallLaunch = .ok [] :=
  validate_small _ (by decide) (dies_below (fun _ => rfl) (fun _ => rfl) (fun _ => rfl) (fun _ => rfl)) (dies_below rfl rfl rfl rfl) (by decide)

/-- A shadow ring of function 0 that holds the small record in a LAUNCH packet. -/
def ringing : State := (between.holding [(globalAt (objPtr 0), [1]), (globalAt (objPtr 0) + 128, smallRecord)]).modVf 0 0
  fun v => { v with srbase := objPtr 0, srcfg := 0x80000004, srprod := 1, enable := true }
theorem witness_packet_valid : ringing.validate 0 0 0 smallLaunch = .ok [] :=
  validate_small _ (by decide) (dies_below (fun _ => rfl) (fun _ => rfl) (fun _ => rfl) (fun _ => rfl)) (dies_below rfl rfl rfl rfl) (by decide)
/-- A program whose one object, named by its chip, has been allocated by an earlier launch; and one whose object has no size. -/
def chipDeclared : ObjectDecl := { name := 1, chip := some 0, size := 64 }
theorem witness_packet_declares : State.declareAll 0 0 7 [chipDeclared] [] { ringing with symbols := [((7, 1), (0, 1))] }
    = some { ringing with symbols := [((7, 1), (0, 1))] } := by rfl
theorem witness_packet_declares_valid : { ringing with symbols := [((7, 1), (0, 1))] }.validate 0 0 0 smallLaunch = .ok [] :=
  validate_small _ (by decide) (dies_below (fun _ => rfl) (fun _ => rfl) (fun _ => rfl) (fun _ => rfl)) (dies_below rfl rfl rfl rfl) (by decide)
theorem witness_packet_undeclared : State.declareAll 0 0 7 [{ name := 1, size := 0 }] [] ringing = none := by rfl
theorem witness_declares : ({ chipDeclared with chip := none, pin := true } : ObjectDecl).group = none ∧ (allocating []).chipExists 0 = true
    ∧ ∃ n u, (allocating []).newAnywhere 0 0 64 21 = some (n, u) ∧ (u.objects.get? (0, n)).isSome = true := by
  obtain ⟨⟨fs, v⟩, h⟩ := Option.isSome_iff_exists.mp
    (allocFrames_isSome ⟨0, 0⟩ 0 0 1 (allocating []) (fun _ => rfl) (by decide))
  obtain ⟨hv, -⟩ := allocFrames_frame _ _ _ _ _ _ _ h
  have ht : v.takeSerial 0 = some (1, v.modChip 0 fun h => { h with nextSerial := 2 }) := by rw [hv]; rfl
  have : ∃ n u, (allocating []).newObject 0 0 0 64 21 = some (n, u) ∧ (u.objects.get? (0, n)).isSome = true := by
    unfold State.newObject
    dsimp only
    rw [show (allocating []).allocFrames ⟨0, 0⟩ ((allocating []).vf 0 0).part 0 ((64 + 65535) / 65536) = some (fs, v) from h]
    dsimp only
    rw [ht]
    exact ⟨_, _, rfl, by rw [hv]; rfl⟩
  obtain ⟨n, u, e, k⟩ := this
  refine ⟨rfl, by decide, n, u, ?_, k⟩
  unfold State.newAnywhere
  rw [show List.range 4 = 0 :: [1, 2, 3] by decide, List.findSome?_cons, e]

/-! ### Witnesses of statements about real values -/

/-- 1 and the next FP32 value, with the real between them that a tie rounds to the even code. -/
theorem witness_rounds : (valOf 0 0x3F800000).is 1 ∧ (valOf 0 0x3F800001).is (1 + 2 ^ (-23 : ℤ)) ∧ 0x3F800001 < (2 ^ expBits 0 - 1) * 2 ^ fracBits 0
    ∧ (1 : ℝ) ≤ |1 + 2 ^ (-24 : ℤ)| ∧ |(1 : ℝ) + 2 ^ (-24 : ℤ)| < 1 + 2 ^ (-23 : ℤ) ∧ ¬ roundsUp 1 (0x3F800000 % 2 = 1) (1 + 2 ^ (-24 : ℤ)) 1 (1 + 2 ^ (-23 : ℤ)) 0
    ∧ roundsUp 3 (0x3F800000 % 2 = 1) (1 + 2 ^ (-24 : ℤ)) 1 (1 + 2 ^ (-23 : ℤ)) 0 := by
  refine ⟨⟨false, 0x800000, -23, by decide, by norm_num⟩, ⟨false, 0x800001, -23, by decide, by norm_num⟩, by decide, ?_, ?_, ?_, ?_⟩
  · rw [abs_of_pos (by positivity)]; norm_num
  · rw [abs_of_pos (by positivity)]; norm_num
  · unfold roundsUp; rw [abs_of_pos (by positivity)]; norm_num
  · unfold roundsUp; rw [abs_of_pos (by positivity)]; norm_num
/-- An overflow, and operands with a NaN, for the special results. -/
theorem witness_overflow : (2 : ℝ) ^ 2 ^ (expBits 1 - 1) ≤ |65536| ∧ (65536 : ℝ) ≠ 0 ∧ isNan 1 0x7E00 = true ∧ isNan 1 0x3C00 = false := by
  refine ⟨?_, by norm_num, by decide, by decide⟩
  rw [abs_of_pos (by norm_num)]; norm_num [expBits]
/-- Two ordered values of FP32, and an infinity above both. -/
theorem witness_ordered : (valOf 0 0x3F800000).isExt ((1 : ℝ) : EReal) ∧ (valOf 0 0x40000000).isExt ((2 : ℝ) : EReal) ∧ (valOf 0 0x7F800000).isExt ⊤ ∧ ((1 : ℝ) : EReal) < ((2 : ℝ) : EReal) := by
  refine ⟨.inr (.inr ⟨1, ⟨false, 0x800000, -23, by decide, by norm_num⟩, rfl⟩), .inr (.inr ⟨2, ⟨false, 0x800000, -22, by decide, by norm_num⟩, rfl⟩), .inl ⟨by decide, rfl⟩, ?_⟩
  exact_mod_cast (by norm_num : (1 : ℝ) < 2)
/-- −2.5 converts to an INT8 as −2 under RN; −2 as an INT16 is 0xFFFE. -/
theorem witness_integer : (Val.fin true 5 (-1)).is (-5 / 2) ∧ ¬ roundsUp 1 (2 % 2 = 1) (-5 / 2) 2 3 0 ∧ ⌊|(-5 / 2 : ℝ)|⌋₊ = 2
    ∧ -2 ^ (fmtBits 10 - 1) ≤ (-2 : Int) ∧ (-2 : Int) < 2 ^ (fmtBits 10 - 1) ∧ ((0xFFFE : Nat) : Int) % 2 ^ fmtBits 10 = -2 % 2 ^ fmtBits 10 := by
  refine ⟨⟨true, 5, -1, rfl, by norm_num⟩, ?_, ?_, by decide, by decide, by decide⟩
  · unfold roundsUp; rw [abs_of_neg (by norm_num)]; norm_num
  · rw [abs_of_neg (by norm_num), Nat.floor_eq_iff (by norm_num)]; norm_num
/-- Inputs of a floating reduction with a sum other than zero. -/
theorem witness_reduction : List.Forall₂ (fun v a => (valOf 0 v).is a) [0x3F800000, 0x40000000] [1, 2] ∧ ([1, 2] : List ℝ).sum ≠ 0
    ∧ (∀ v ∈ [0x3F800000, 0x40000000], v < 2 ^ 32) ∧ mostOf [3, 5, 5, 3] = 3 :=
  ⟨.cons ⟨false, 0x800000, -23, by decide, by norm_num⟩ (.cons ⟨false, 0x800000, -22, by decide, by norm_num⟩ .nil), by norm_num, by decide, by decide⟩

/-! Exponentials and logarithms -/
/-- 2^0.5 and log2 3 at 200 bits more than rounding looks at. -/
theorem exp2_bounds_agree : ((List.range 56).all fun s => (exp2Bounds (200 + s) (2 ^ 23) 24).1 / 2 ^ 200 == (exp2Bounds (200 + s) (2 ^ 23) 24).2 / 2 ^ 200) = true := by decide +kernel
theorem log2_bounds_agree : ((List.range 80).all fun k => (1 * 2 ^ (200 + k) + (log2Bounds (200 + k) (3 * 2 ^ 22)).1) / 2 ^ 200 == (1 * 2 ^ (200 + k) + (log2Bounds (200 + k) (3 * 2 ^ 22)).2) / 2 ^ 200) = true := by decide +kernel

theorem witness_fexp2_half : valOf 0 0x3F000000 = .fin false (2 ^ 23) (-24) ∧ (valOf 0 0x3F000000).is (1 / 2 : ℝ)
    ∧ ∀ s < 56, ∃ p ∈ precisions, (exp2Bounds (p + s) (2 ^ 23) 24).1 / 2 ^ p = (exp2Bounds (p + s) (2 ^ 23) 24).2 / 2 ^ p := by
  refine ⟨by decide, ⟨false, 2 ^ 23, -24, by decide, by norm_num⟩, fun s hs => ⟨200, by decide, ?_⟩⟩
  exact beq_iff_eq.mp (List.all_eq_true.mp exp2_bounds_agree s (List.mem_range.mpr hs))

theorem witness_flog2_three : valOf 0 0x40400000 = .fin false (3 * 2 ^ 22) (-22) ∧ (valOf 0 0x40400000).is (3 : ℝ)
    ∧ ∀ k < 80, ∃ p ∈ precisions, (1 * 2 ^ (p + k) + (log2Bounds (p + k) (3 * 2 ^ 22)).1) / 2 ^ p = (1 * 2 ^ (p + k) + (log2Bounds (p + k) (3 * 2 ^ 22)).2) / 2 ^ p := by
  refine ⟨by decide, ⟨false, 3 * 2 ^ 22, -22, by decide, by norm_num⟩, fun k hk => ⟨200, by decide, ?_⟩⟩
  exact beq_iff_eq.mp (List.all_eq_true.mp log2_bounds_agree k (List.mem_range.mpr hk))

/-! Control flow and traps -/
theorem witness_call_spills : (let s : State := (world 0x0389000000000005).tweak fun x => { x with ret := List.replicate 8 (objPtr 0x40) }; let w := BitVec.ofNat 64 0x0389000000000005; let f := Fields.ofWord w 0; let b := stoodBundle w; let t := placedThread; issuesCheck s (.callRelative f) f b && (s.thread t).b32 f = some 5 && staysIn b.pc 5 && !s.fetchWaits t.cohort (targetOf b.pc 5) && isOk (s.fetchClause t.cohort (targetOf b.pc 5)) && (s.thread t).ret = List.replicate 7 (objPtr 0x40) ++ [objPtr 0x40] && decide ((s.thread t).stack.length < (s.launchOf t.cohort).cstack) && nexts (exec (.callRelative f) s) fun u => u = ((s.quiet.modThread t fun x => { x with ret := ptrAdd b.pc (8 * (b.words.length + 1)) :: List.replicate 7 (objPtr 0x40), stack := objPtr 0x40 :: x.stack, nextPc := some (targetOf b.pc 5) }) : State).moveOn (.callRelative f) placedQuad 0 [t]) = true := by decide
theorem witness_call_indirect_spills : (let s : State := ((world 0x0388000181000000).load (pairAt 6 (objPtr 0) ++ [(8, 5)])).tweak fun x => { x with ret := List.replicate 8 (objPtr 0x40) }; let w := BitVec.ofNat 64 0x0388000181000000; let f := Fields.ofWord w 0; let b := stoodBundle w; let t := placedThread; issuesCheck s (.callIndirect f) f b && (s.thread t).src64 f.sa = some (objPtr 0) && (s.thread t).b32 f = some 5 && namesObject (objPtr 0) && staysIn (objPtr 0) 5 && !s.fetchWaits t.cohort (targetOf (objPtr 0) 5) && isOk (s.fetchClause t.cohort (targetOf (objPtr 0) 5)) && (s.thread t).ret = List.replicate 7 (objPtr 0x40) ++ [objPtr 0x40] && decide ((s.thread t).stack.length < (s.launchOf t.cohort).cstack) && nexts (exec (.callIndirect f) s) fun u => u = ((s.quiet.modThread t fun x => { x with ret := ptrAdd b.pc (8 * (b.words.length + 1)) :: List.replicate 7 (objPtr 0x40), stack := objPtr 0x40 :: x.stack, nextPc := some (targetOf (objPtr 0) 5) }) : State).moveOn (.callIndirect f) placedQuad 0 [t]) = true := by decide
theorem witness_ret_from_stack : (let s : State := (world 0x038C000000000000).tweak fun x => { x with stack := [objPtr 0x40, objPtr 0x80] }; let w := BitVec.ofNat 64 0x038C000000000000; let f := Fields.ofWord w 0; let b := stoodBundle w; let t := placedThread; issuesCheck s (.ret f) f b && (s.thread t).ret = [] && (s.thread t).stack.head? = some (objPtr 0x40) && !s.fetchWaits t.cohort (targetOf (objPtr 0x40) 0) && isOk (s.fetchClause t.cohort (targetOf (objPtr 0x40) 0)) && nexts (exec (.ret f) s) fun u => u = ((s.quiet.modThread t fun x => { x with stack := [objPtr 0x80], nextPc := some (targetOf (objPtr 0x40) 0) }) : State).moveOn (.ret f) placedQuad 0 [t]) = true := by decide
theorem witness_brx_bad : (let s : State := (world 0x0384000181000000).load (pairAt 6 (mkPtr 0 0 0x40) ++ [(8, 5)]); let w := BitVec.ofNat 64 0x0384000181000000; let f := Fields.ofWord w 0; let b := stoodBundle w; let t := placedThread; issuesCheck s (.brx f) f b && (s.thread t).src64 f.sa = some (mkPtr 0 0 0x40) && (s.thread t).b32 f = some 5 && !namesObject (mkPtr 0 0 0x40) && nexts (exec (.brx f) s) fun u => u = ((s.quiet.takeTrap t { kind := .illegalOperand, record := trapRec .illegalOperand 0 b.word b.pc (0) 0 0 0 false false, point := b.point .word false }) : State).moveOn (.brx f) placedQuad 0 [t]) = true := by decide
theorem witness_brx_unfetched : (let s : State := (stood 0x0384000181000000).load (pairAt 6 (objPtr 0) ++ [(8, 5)]); let w := BitVec.ofNat 64 0x0384000181000000; let f := Fields.ofWord w 0; let b := stoodBundle w; let t := placedThread; issuesCheck s (.brx f) f b && (s.thread t).src64 f.sa = some (objPtr 0) && (s.thread t).b32 f = some 5 && namesObject (objPtr 0) && staysIn (objPtr 0) 5 && offsetOf (targetOf (objPtr 0) 5) % 8 = 0 && !s.fetchWaits t.cohort (targetOf (objPtr 0) 5) && isErr (s.fetchClause t.cohort (targetOf (objPtr 0) 5)) 2 && nexts (exec (.brx f) s) fun u => u = ((s.quiet.takeTrap t { kind := .memoryFault, record := trapRec .memoryFault 2 b.word b.pc (targetOf (objPtr 0) 5) 0 0 0 false false, point := b.point .word false }) : State).moveOn (.brx f) placedQuad 0 [t]) = true := by decide
theorem witness_call_indirect_bad : (let s : State := (world 0x0388000181000000).load (pairAt 6 (mkPtr 0 0 0x40) ++ [(8, 5)]); let w := BitVec.ofNat 64 0x0388000181000000; let f := Fields.ofWord w 0; let b := stoodBundle w; let t := placedThread; issuesCheck s (.callIndirect f) f b && (s.thread t).src64 f.sa = some (mkPtr 0 0 0x40) && (s.thread t).b32 f = some 5 && !namesObject (mkPtr 0 0 0x40) && nexts (exec (.callIndirect f) s) fun u => u = ((s.quiet.takeTrap t { kind := .illegalOperand, record := trapRec .illegalOperand 0 b.word b.pc (0) 0 0 0 false false, point := b.point .word false }) : State).moveOn (.callIndirect f) placedQuad 0 [t]) = true := by decide
theorem witness_call_indirect_unfetched : (let s : State := (stood 0x0388000181000000).load (pairAt 6 (objPtr 0) ++ [(8, 5)]); let w := BitVec.ofNat 64 0x0388000181000000; let f := Fields.ofWord w 0; let b := stoodBundle w; let t := placedThread; issuesCheck s (.callIndirect f) f b && (s.thread t).src64 f.sa = some (objPtr 0) && (s.thread t).b32 f = some 5 && namesObject (objPtr 0) && staysIn (objPtr 0) 5 && offsetOf (targetOf (objPtr 0) 5) % 8 = 0 && !s.fetchWaits t.cohort (targetOf (objPtr 0) 5) && isErr (s.fetchClause t.cohort (targetOf (objPtr 0) 5)) 2 && decide ((s.thread t).ret.length + (s.thread t).stack.length < 8 + (s.launchOf t.cohort).cstack) && nexts (exec (.callIndirect f) s) fun u => u = ((s.quiet.takeTrap t { kind := .memoryFault, record := trapRec .memoryFault 2 b.word b.pc (targetOf (objPtr 0) 5) 0 0 0 false false, point := b.point .word false }) : State).moveOn (.callIndirect f) placedQuad 0 [t]) = true := by decide
theorem witness_bra_held : (let s0 : State := world 0x0381000000000005; let s : State := { s0 with objects := [((0, 1), { size := 2 ^ 21, extents := [{ state := .copying, dest := 1 }], pages := List.replicate 32 {} })], moves := [(3, { obj := (0, 1), ext := 0, src := 0, dest := 1, ready := true })] }; let w := BitVec.ofNat 64 0x0381000000000005; let f := Fields.ofWord w 0; let b := stoodBundle w; let t := placedThread; issuesCheck s (.bra f) f b && (s.thread t).b32 f = some 5 && staysIn b.pc 5 && offsetOf (targetOf b.pc 5) % 8 = 0 && s.fetchWaits t.cohort (targetOf b.pc 5) && nexts (exec (.bra f) s) fun u => u.thread t = s.thread t && u.mem = s.mem && Tab.get? (u.quad placedQuad).bundles 0 = some { b with rest := [t], heldSince := none, pool := 0, order := 0 }) = true := by decide
theorem witness_brx_held : (let s0 : State := (world 0x0384000181000000).load (pairAt 6 (objPtr 0) ++ [(8, 5)]); let s : State := { s0 with objects := [((0, 1), { size := 2 ^ 21, extents := [{ state := .copying, dest := 1 }], pages := List.replicate 32 {} })], moves := [(3, { obj := (0, 1), ext := 0, src := 0, dest := 1, ready := true })] }; let w := BitVec.ofNat 64 0x0384000181000000; let f := Fields.ofWord w 0; let b := stoodBundle w; let t := placedThread; issuesCheck s (.brx f) f b && (s.thread t).src64 f.sa = some (objPtr 0) && (s.thread t).b32 f = some 5 && namesObject (objPtr 0) && staysIn (objPtr 0) 5 && offsetOf (targetOf (objPtr 0) 5) % 8 = 0 && s.fetchWaits t.cohort (targetOf (objPtr 0) 5) && nexts (exec (.brx f) s) fun u => u.thread t = s.thread t && u.mem = s.mem && Tab.get? (u.quad placedQuad).bundles 0 = some { b with rest := [t], heldSince := none, pool := 0, order := 0 }) = true := by decide
theorem witness_call_held : (let s0 : State := world 0x0389000000000005; let s : State := { s0 with objects := [((0, 1), { size := 2 ^ 21, extents := [{ state := .copying, dest := 1 }], pages := List.replicate 32 {} })], moves := [(3, { obj := (0, 1), ext := 0, src := 0, dest := 1, ready := true })] }; let w := BitVec.ofNat 64 0x0389000000000005; let f := Fields.ofWord w 0; let b := stoodBundle w; let t := placedThread; issuesCheck s (.callRelative f) f b && (s.thread t).b32 f = some 5 && staysIn b.pc 5 && decide ((s.thread t).ret.length + (s.thread t).stack.length < 8 + (s.launchOf t.cohort).cstack) && offsetOf (targetOf b.pc 5) % 8 = 0 && s.fetchWaits t.cohort (targetOf b.pc 5) && nexts (exec (.callRelative f) s) fun u => u.thread t = s.thread t && u.mem = s.mem && Tab.get? (u.quad placedQuad).bundles 0 = some { b with rest := [t], heldSince := none, pool := 0, order := 0 }) = true := by decide
theorem witness_call_indirect_held : (let s0 : State := (world 0x0388000181000000).load (pairAt 6 (objPtr 0) ++ [(8, 5)]); let s : State := { s0 with objects := [((0, 1), { size := 2 ^ 21, extents := [{ state := .copying, dest := 1 }], pages := List.replicate 32 {} })], moves := [(3, { obj := (0, 1), ext := 0, src := 0, dest := 1, ready := true })] }; let w := BitVec.ofNat 64 0x0388000181000000; let f := Fields.ofWord w 0; let b := stoodBundle w; let t := placedThread; issuesCheck s (.callIndirect f) f b && (s.thread t).src64 f.sa = some (objPtr 0) && (s.thread t).b32 f = some 5 && namesObject (objPtr 0) && staysIn (objPtr 0) 5 && decide ((s.thread t).ret.length + (s.thread t).stack.length < 8 + (s.launchOf t.cohort).cstack) && offsetOf (targetOf (objPtr 0) 5) % 8 = 0 && s.fetchWaits t.cohort (targetOf (objPtr 0) 5) && nexts (exec (.callIndirect f) s) fun u => u.thread t = s.thread t && u.mem = s.mem && Tab.get? (u.quad placedQuad).bundles 0 = some { b with rest := [t], heldSince := none, pool := 0, order := 0 }) = true := by decide
theorem witness_ret_held : (let s0 : State := (world 0x038C000000000000).tweak fun x => { x with ret := [objPtr 0x40] }; let s : State := { s0 with objects := [((0, 1), { size := 2 ^ 21, extents := [{ state := .copying, dest := 1 }], pages := List.replicate 32 {} })], moves := [(3, { obj := (0, 1), ext := 0, src := 0, dest := 1, ready := true })] }; let w := BitVec.ofNat 64 0x038C000000000000; let f := Fields.ofWord w 0; let b := stoodBundle w; let t := placedThread; issuesCheck s (.ret f) f b && ((s.thread t).ret ++ (s.thread t).stack).head? = some (objPtr 0x40) && offsetOf (targetOf (objPtr 0x40) 0) % 8 = 0 && s.fetchWaits t.cohort (targetOf (objPtr 0x40) 0) && nexts (exec (.ret f) s) fun u => u.thread t = s.thread t && u.mem = s.mem && Tab.get? (u.quad placedQuad).bundles 0 = some { b with rest := [t], heldSince := none, pool := 0, order := 0 }) = true := by decide
theorem witness_call_unfetched : (let s : State := stood 0x0389000000000005; let w := BitVec.ofNat 64 0x0389000000000005; let f := Fields.ofWord w 0; let b := stoodBundle w; let t := placedThread; issuesCheck s (.callRelative f) f b && (s.thread t).b32 f = some 5 && staysIn b.pc 5 && isErr (s.fetchClause t.cohort (targetOf b.pc 5)) 2 && !s.fetchWaits t.cohort (targetOf b.pc 5) && decide ((s.thread t).ret.length + (s.thread t).stack.length < 8 + (s.launchOf t.cohort).cstack) && nexts (exec (.callRelative f) s) fun u => u = ((s.quiet.takeTrap t { kind := .memoryFault, record := trapRec .memoryFault 2 b.word b.pc (targetOf b.pc 5) 0 0 0 false false, point := b.point .word false }) : State).moveOn (.callRelative f) placedQuad 0 [t]) = true := by decide
theorem witness_ret_unfetched : (let s : State := (stood 0x038C000000000000).tweak fun x => { x with stack := [objPtr 0x40] }; let w := BitVec.ofNat 64 0x038C000000000000; let f := Fields.ofWord w 0; let b := stoodBundle w; let t := placedThread; issuesCheck s (.ret f) f b && ((s.thread t).ret ++ (s.thread t).stack).head? = some (objPtr 0x40) && isErr (s.fetchClause t.cohort (targetOf (objPtr 0x40) 0)) 2 && !s.fetchWaits t.cohort (targetOf (objPtr 0x40) 0) && nexts (exec (.ret f) s) fun u => u = ((s.quiet.takeTrap t { kind := .memoryFault, record := trapRec .memoryFault 2 b.word b.pc (targetOf (objPtr 0x40) 0) 0 0 0 false false, point := b.point .word false }) : State).moveOn (.ret f) placedQuad 0 [t]) = true := by decide
theorem witness_call_out : (let s : State := world 0x038900003FFFFFFF; let w := BitVec.ofNat 64 0x038900003FFFFFFF; let f := Fields.ofWord w 0; let b := stoodBundle w; let t := placedThread; issuesCheck s (.callRelative f) f b && (s.thread t).b32 f = some (-1) && !staysIn b.pc (-1) && nexts (exec (.callRelative f) s) fun u => u = ((s.quiet.takeTrap t { kind := .illegalOperand, record := trapRec .illegalOperand 0 b.word b.pc (0) 0 0 0 false false, point := b.point .word false }) : State).moveOn (.callRelative f) placedQuad 0 [t]) = true := by decide
theorem witness_call_indirect_full : (let s : State := ((world 0x0388000181000000).load (pairAt 6 (objPtr 0) ++ [(8, 5)])).tweak fun x => { x with ret := List.replicate 8 0, stack := List.replicate 64 0 }; let w := BitVec.ofNat 64 0x0388000181000000; let f := Fields.ofWord w 0; let b := stoodBundle w; let t := placedThread; issuesCheck s (.callIndirect f) f b && (s.thread t).src64 f.sa = some (objPtr 0) && (s.thread t).b32 f = some 5 && namesObject (objPtr 0) && staysIn (objPtr 0) 5 && decide ((s.thread t).ret.length + (s.thread t).stack.length ≥ 8 + (s.launchOf t.cohort).cstack) && nexts (exec (.callIndirect f) s) fun u => u = ((s.quiet.takeTrap t { kind := .callOverflow, record := trapRec .callOverflow 0 b.word b.pc (0) 0 0 0 false false, point := b.point .word false }) : State).moveOn (.callIndirect f) placedQuad 0 [t]) = true := by decide
theorem witness_tret_unfetched : (let s : State := (world 0x03C4000000000000).tweak fun x => { x with handler := true, point := { pc := objPtr 0x80, word := 1, next := 2, count := 3, kind := .unfetched } }; let w := BitVec.ofNat 64 0x03C4000000000000; let f := Fields.ofWord w 0; let b := stoodBundle w; let t := placedThread; issuesCheck s (.tret f) f b && (s.thread t).handler && !(s.thread t).point.exit && (s.thread t).point.kind = .unfetched && (s.thread t).point.pc = objPtr 0x80 && nexts (exec (.tret f) s) fun u => u = (((s.quiet.leave t).modThread t fun x => { x with handler := false, halted := false, latches := List.replicate 8 none, pc := objPtr 0x80, word := 0, inside := false, run := .blocked, readySince := s.now, nextPc := none, exiting := false, yielding := false, keptYield := false }) : State).moveOn (.tret f) placedQuad 0 [t]) = true := by decide
theorem witness_tret_past : (let s : State := (world 0x03C4000000000000).tweak fun x => { x with handler := true, point := { pc := objPtr 0x80, word := 1, next := 4, count := 3, kind := .after } }; let w := BitVec.ofNat 64 0x03C4000000000000; let f := Fields.ofWord w 0; let b := stoodBundle w; let t := placedThread; issuesCheck s (.tret f) f b && (s.thread t).handler && !(s.thread t).point.exit && (s.thread t).point.kind = .after && (s.thread t).point.pc = objPtr 0x80 && (s.thread t).point.count = 3 && decide ((s.thread t).point.next > 3) && nexts (exec (.tret f) s) fun u => u = (((s.quiet.leave t).modThread t fun x => { x with handler := false, halted := false, latches := List.replicate 8 none, pc := ptrAdd (objPtr 0x80) 40, word := 0, inside := false, run := .blocked, readySince := s.now, nextPc := none, exiting := false, yielding := false, keptYield := false }) : State).moveOn (.tret f) placedQuad 0 [t]) = true := by decide
theorem witness_tret_past_yield : (let s : State := (world 0x03C4000000000000).tweak fun x => { x with handler := true, point := { pc := objPtr 0x80, word := 1, next := 4, count := 3, kind := .after }, keptYield := true }; let w := BitVec.ofNat 64 0x03C4000000000000; let f := Fields.ofWord w 0; let b := stoodBundle w; let t := placedThread; issuesCheck s (.tret f) f b && (s.thread t).handler && !(s.thread t).point.exit && (s.thread t).point.kind = .after && (s.thread t).point.pc = objPtr 0x80 && (s.thread t).keptYield && nexts (exec (.tret f) s) fun u => u = ((((s.quiet.leave t).renew t).modThread t fun x => { x with handler := false, halted := false, latches := List.replicate 8 none, pc := ptrAdd (objPtr 0x80) 40, word := 0, inside := false, run := .blocked, readySince := s.now, nextPc := none, exiting := false, yielding := false, keptYield := false }) : State).moveOn (.tret f) placedQuad 0 [t]) = true := by decide
theorem witness_tret_skip_past : (let s : State := (world 0x03C4000000001000).tweak fun x => { x with handler := true, point := { pc := objPtr 0x80, word := 3, next := 4, count := 3, kind := .word } }; let w := BitVec.ofNat 64 0x03C4000000001000; let f := Fields.ofWord w 0; let b := stoodBundle w; let t := placedThread; issuesCheck s (.tretSkip f) f b && (s.thread t).handler && !(s.thread t).point.exit && (s.thread t).point.kind = .word && (s.thread t).point.pc = objPtr 0x80 && (s.thread t).point.count = 3 && decide ((s.thread t).point.next > 3) && nexts (exec (.tretSkip f) s) fun u => u = (((s.quiet.leave t).modThread t fun x => { x with handler := false, halted := false, latches := List.replicate 8 none, pc := ptrAdd (objPtr 0x80) 40, word := 0, inside := false, run := .blocked, readySince := s.now, nextPc := none, exiting := false, yielding := false, keptYield := false }) : State).moveOn (.tretSkip f) placedQuad 0 [t]) = true := by decide
theorem witness_tret_exit : (let s : State := (world 0x03C4000000000000).tweak fun x => { x with handler := true, point := { pc := objPtr 0x80, word := 3, next := 2, count := 3, kind := .word, exit := true } }; let w := BitVec.ofNat 64 0x03C4000000000000; let f := Fields.ofWord w 0; let b := stoodBundle w; let t := placedThread; issuesCheck s (.tret f) f b && (s.thread t).handler && (s.thread t).point.exit && (s.thread t).point.pc = objPtr 0x80 && (s.thread t).point.word = 3 && nexts (exec (.tret f) s) fun u => u = (((s.quiet.leave t).modThread t fun x => { x with handler := false, halted := false, latches := x.kept, pc := objPtr 0x80, word := 3, inside := true, run := .ready, readySince := s.now, nextPc := none, exiting := false, yielding := x.keptYield, keptYield := false }) : State).moveOn (.tret f) placedQuad 0 [t]) = true := by decide
theorem witness_tret_skip_exit : (let s : State := (world 0x03C4000000001000).tweak fun x => { x with handler := true, point := { pc := objPtr 0x80, word := 3, next := 2, count := 3, kind := .word, exit := true } }; let w := BitVec.ofNat 64 0x03C4000000001000; let f := Fields.ofWord w 0; let b := stoodBundle w; let t := placedThread; issuesCheck s (.tretSkip f) f b && (s.thread t).handler && (s.thread t).point.exit && (s.thread t).point.pc = objPtr 0x80 && (s.thread t).point.word = 3 && nexts (exec (.tretSkip f) s) fun u => u = (((s.quiet.leave t).modThread t fun x => { x with handler := false, halted := false, latches := x.kept, pc := objPtr 0x80, word := 3, inside := true, run := .ready, readySince := s.now, nextPc := none, exiting := false, yielding := x.keptYield, keptYield := false }) : State).moveOn (.tretSkip f) placedQuad 0 [t]) = true := by decide
theorem witness_tret_skip_unfetched : (let s : State := (world 0x03C4000000001000).tweak fun x => { x with handler := true, point := { pc := objPtr 0x80, word := 1, next := 2, count := 3, kind := .unfetched } }; let w := BitVec.ofNat 64 0x03C4000000001000; let f := Fields.ofWord w 0; let b := stoodBundle w; let t := placedThread; issuesCheck s (.tretSkip f) f b && (s.thread t).handler && !(s.thread t).point.exit && (s.thread t).point.kind = .unfetched && (s.thread t).point.pc = objPtr 0x80 && nexts (exec (.tretSkip f) s) fun u => u = ((s.quiet.takeTrap t { kind := .illegalInstruction, record := trapRec .illegalInstruction 0 b.word b.pc (0) 0 0 0 false false, point := b.point .word false }) : State).moveOn (.tretSkip f) placedQuad 0 [t]) = true := by decide
theorem witness_vector_waits : (let t := placedThread; let s0 : State := (({ between with mem := Memory.writeNat [] ((objPtr 0x1000).toNat + 8 * 12) 8 (objPtr 0x200).toNat } : State).modVf 0 0 fun v => { v with tvbase := objPtr 0x1000 }).load [(4, 9)]; let s : State := { s0 with objects := [((0, 1), { size := 2 ^ 21, extents := [{ state := .copying, dest := 1 }], pages := List.replicate 32 {} })], moves := [(3, { obj := (0, 1), ext := 0, src := 0, dest := 1, ready := true })] }; let r : Raised := { kind := .software, record := { f0 := 5 }, point := { pc := objPtr 0 } }; let y := (s.takeTrap t r).thread t; !(s.thread t).handler && !s.stopping t.cohort && !s.owes t && s.vectorWaits t.cohort r.kind.code && y.run = .parked .landing && y.raised = some r && y.pc = (s.thread t).pc) = true := by decide
theorem witness_handler_ready : (let t := placedThread; let s : State := (((({ between with mem := Memory.writeNat [] ((objPtr 0x1000).toNat + 8 * 12) 8 (objPtr 0x200).toNat } : State).modVf 0 0 fun v => { v with tvbase := objPtr 0x1000 }).load [(4, 9)]).holding [(globalAt (objPtr 0x200), bytesLE 8 0x003FFFF000000000)]).tweak fun x => { x with yielding := true }; let r : Raised := { kind := .software, record := { f0 := 5 }, point := { pc := objPtr 0 } }; let v := objPtr 0x200; let y := (s.takeTrap t r).thread t; !(s.thread t).handler && !s.stopping t.cohort && !s.owes t && !s.vectorWaits t.cohort r.kind.code && s.vector t.cohort r.kind.code = some v && !s.fetchWaits t.cohort v && (match s.fetchClause t.cohort v with | .ok (w, ws) => !clauseBad v (Header.ofWord w) ws && (Header.ofWord w).dcwait = List.replicate 6 7 && !(Header.ofWord w).gsw && !(Header.ofWord w).nbw && !(Header.ofWord w).crew | .error _ => false) && y.run = .ready && y.keptYield && !y.yielding && y.pc = v) = true := by decide
theorem witness_sread_09 : (let s : State := (world 0x03C8020000009000).tweak fun x => { x with srseed := 77, ltimeh := 3, faults := { f0 := 5, f1 := 6, f2 := 7, f3 := 8 }, rowprog := 0x501 }; let w := BitVec.ofNat 64 0x03C8020000009000; let f := Fields.ofWord w 0; let b := stoodBundle w; let t := placedThread; issuesCheck s (.sread f) f b && f.ctl = 9 && nexts (exec (.sread f) s) fun u => u = ((s.quiet.modThread t fun x => x.setReg f.dst.toNat (BitVec.ofNat 32 ((s.cohort t.cohort).vf % 1024 + 65536 * (s.partOf t.cohort % 16)))) : State).moveOn (.sread f) placedQuad 0 [t]) = true := by decide
theorem witness_sread_0A : (let s : State := (world 0x03C802000000A000).tweak fun x => { x with srseed := 77, ltimeh := 3, faults := { f0 := 5, f1 := 6, f2 := 7, f3 := 8 }, rowprog := 0x501 }; let w := BitVec.ofNat 64 0x03C802000000A000; let f := Fields.ofWord w 0; let b := stoodBundle w; let t := placedThread; issuesCheck s (.sread f) f b && f.ctl = 10 && nexts (exec (.sread f) s) fun u => u = ((s.quiet.modThread t fun x => x.setReg f.dst.toNat (BitVec.ofNat 32 (if (s.launchOf t.cohort).nbv % 4 = 0 then 2 else (s.launchOf t.cohort).nbv % 4))) : State).moveOn (.sread f) placedQuad 0 [t]) = true := by decide
theorem witness_sread_15 : (let s : State := (world 0x03C8020000015000).tweak fun x => { x with srseed := 77, ltimeh := 3, faults := { f0 := 5, f1 := 6, f2 := 7, f3 := 8 }, rowprog := 0x501 }; let w := BitVec.ofNat 64 0x03C8020000015000; let f := Fields.ofWord w 0; let b := stoodBundle w; let t := placedThread; issuesCheck s (.sread f) f b && f.ctl = 21 && nexts (exec (.sread f) s) fun u => u = ((s.quiet.modThread t fun x => x.setPair f.dst.toNat (BitVec.ofNat 64 (2 ^ 52 * t.cohort.chip + 2 ^ 50 * t.cohort.die + 2 ^ 44 * t.cohort.core + 2 ^ 28 * t.cohort.grid))) : State).moveOn (.sread f) placedQuad 0 [t]) = true := by decide
theorem witness_swrite_ignored_0D : (let s : State := world 0x03CC0000C000D000; let w := BitVec.ofNat 64 0x03CC0000C000D000; let f := Fields.ofWord w 0; let b := stoodBundle w; let t := placedThread; issuesCheck s (.swrite f) f b && f.ctl = 13 && (s.thread t).src64 f.sa = some 0 && nexts (exec (.swrite f) s) fun u => u = ((s.quiet) : State).moveOn (.swrite f) placedQuad 0 [t]) = true := by decide
theorem witness_swrite_ignored_0E : (let s : State := world 0x03CC0000C000E000; let w := BitVec.ofNat 64 0x03CC0000C000E000; let f := Fields.ofWord w 0; let b := stoodBundle w; let t := placedThread; issuesCheck s (.swrite f) f b && f.ctl = 14 && (s.thread t).src64 f.sa = some 0 && nexts (exec (.swrite f) s) fun u => u = ((s.quiet) : State).moveOn (.swrite f) placedQuad 0 [t]) = true := by decide
theorem witness_swrite_ignored_13 : (let s : State := world 0x03CC0000C0013000; let w := BitVec.ofNat 64 0x03CC0000C0013000; let f := Fields.ofWord w 0; let b := stoodBundle w; let t := placedThread; issuesCheck s (.swrite f) f b && f.ctl = 19 && (s.thread t).src64 f.sa = some 0 && nexts (exec (.swrite f) s) fun u => u = ((s.quiet) : State).moveOn (.swrite f) placedQuad 0 [t]) = true := by decide
theorem witness_swrite_ignored_15 : (let s : State := world 0x03CC0000C0015000; let w := BitVec.ofNat 64 0x03CC0000C0015000; let f := Fields.ofWord w 0; let b := stoodBundle w; let t := placedThread; issuesCheck s (.swrite f) f b && f.ctl = 21 && (s.thread t).src64 f.sa = some 0 && nexts (exec (.swrite f) s) fun u => u = ((s.quiet) : State).moveOn (.swrite f) placedQuad 0 [t]) = true := by decide
theorem witness_swrite_ignored_0F : (let s : State := world 0x03CC0000C000F000; let w := BitVec.ofNat 64 0x03CC0000C000F000; let f := Fields.ofWord w 0; let b := stoodBundle w; let t := placedThread; issuesCheck s (.swrite f) f b && f.ctl = 15 && (s.thread t).src32 f.sa = some 0 && nexts (exec (.swrite f) s) fun u => u = ((s.quiet) : State).moveOn (.swrite f) placedQuad 0 [t]) = true := by decide

/-! Paths, holders and the Wellhead -/
theorem witness_request_path_down : (let a : Access := { kind := .load, ptr := objPtr 0x40, size := 4, dst := 4 }; let s := (between.modChip 1 fun h => { h with off := some 9 }).under { ctr := some 0, dst := [4], phase := .sent 1 false false, body := .access a }; let o := (s.op? 5).getD {}; o.body = .access a && o.phase = .sent 1 false false && o.device.isNone && isGlobal a.ptr && (s.pathDown o.thread.cohort.chip 1).isSome && nexts (exec (.accessRequest 5 .none) s) fun u => u = s) = true := by decide
theorem witness_holder_atomic : (let a : Access := { kind := .atomic, ptr := objPtr 0x40, size := 4, code := 0xB0, data := 5, dst := 4 }; let s := ({ between with mem := [((objPtr 0x40).toNat + 3, 7), ((objPtr 0x40).toNat + 4, 9)] }).under { ctr := some 0, dst := [4], phase := .sent 0 false false, body := .access a }; let o := (s.op? 5).getD {}; let u := s.serve 5 o a 0; isGlobal a.ptr && Memory.wf s.mem && (s.obj? a.ptr).isSome && !s.pinnedAway o.thread (a.ptr.toNat / 128) && decide (a.ptr.toNat + a.size ≤ 2 ^ 64) && !((s.affinity a.ptr a.size o.thread.cohort.chip).linkFlits o.thread.cohort.toDie a.ptr a.size true).readFails a.ptr.toNat a.size && decide (u.byte a.ptr.toNat = (5 : Byte)) && decide (u.byte (a.ptr.toNat + 3) = (7 : Byte)) && decide (u.byte (a.ptr.toNat + 4) = (9 : Byte)) && (u.op? 5).any fun o => match o.phase with | .answered (.served 0 v _) => v = 0x07000000 | _ => false) = true := by decide
theorem witness_cfill_claims : (let s : State := (world 0x0226000181000000).load (pairAt 6 (objPtr 0x100) ++ [(8, 0x00081002)]); let w := BitVec.ofNat 64 0x0226000181000000; let f := Fields.ofWord w 0; let b := stoodBundle w; let t := placedThread; issuesCheck s (.cfill f) f b && (s.thread t).src64 f.sa = some (objPtr 0x100) && (s.thread t).src32 f.sb = some 0x00081002 && f.off = 0 && s.ownsBytes t.cohort.toCore (s.partOf t.cohort) 256 256 && decide (2 < (s.cohort t.cohort).tags.length) && (s.issueCheck t (objPtr 0x100) 256).isNone && !s.requestsFull t b.order 2 && !s.claimHeld t t.cohort.toCore [2, 3] && nexts (exec (.cfill f) s) fun u => u = ((let e : TagEntry := { valid := true, tag := BitVec.ofNat 57 ((objPtr 0x100).toNat / 128), line := 2, len := 1 }; let s := (s.quiet.modCohort t.cohort fun c => { c with tags := c.tags.set 2 e }).claimLines t.cohort.toCore [2, 3]; (s.addOp (s.newOp b t (some 2) (.cfill { entry := 2, line := 2, ptr := objPtr 0x100, left := [2, 3], run := 2 }))).2) : State).moveOn (.cfill f) placedQuad 0 [t]) = true := by decide
theorem witness_cevict_ends : (let s : State := (world 0x0228000001000000).load [(8, 3)]; let w := BitVec.ofNat 64 0x0228000001000000; let f := Fields.ofWord w 0; let b := stoodBundle w; let t := placedThread; issuesCheck s (.cevict f) f b && (s.thread t).src32 f.sb = some 3 && decide (3 < (s.cohort t.cohort).tags.length) && nexts (exec (.cevict f) s) fun u => u = ((let s := s.quiet.modCohort t.cohort fun c => { c with tags := c.tags.modify 3 fun e => { e with valid := false } }; let r := s.addOp (s.newOp b t (some 2) (.cevict {})); r.2.endOp r.1) : State).moveOn (.cevict f) placedQuad 0 [t]) = true := by decide
theorem witness_copy_partial : (let p := mkPtr 0xFFF 0 0x40; let c : CopyOp := { dst := mkPtr 0xFFF 1 0x100, src := objPtr 0x40, len := 128, mc := true, nb := some 2, record := some p, shares := [{ core := 1, dropped := true }, { done := true }], started := true, sent := 128 }; let s := between.under { ctr := some 3, body := .copy c }; let o := (s.op? 5).getD {}; o.body = .copy c && s.opMoves 5 o && c.shares.all (fun y => y.done || y.dropped) && c.list.isNone && c.slot.isNone && places (s.reach o.thread p 64 true) (privateAt placedThread 0x40) && nexts (exec (.copyComplete 5) s) fun u => Memory.readNat u.mem (privateAt placedThread 0x6C) 4 = 3 && Memory.readNat u.mem (privateAt placedThread 0x70) 8 = 2 && (u.op? 5).any (·.closing) && u.msg? 6 = some { body := .contribute o.thread.cohort 2 { bytes := 128, member := true, flags := { partly := true, missed := missedOf c.shares }, know := o.allEdges }, op := some 5 }) = true := by decide
theorem witness_copy_last_claim : (let c : CopyOp := { dst := mkPtr 0xFFF 1 0x100, src := objPtr 0x40, len := 128, nb := some 2, shares := [{ claims := [2] }] }; let s := (((between.modDie ⟨0, 0⟩ fun x => { x with cached := [0x4000] }).claim placedQuad.toCore [2]) : State).under { ctr := some 3, body := .copy c }; let o := (s.op? 5).getD {}; let x : Share := { claims := [2] }; o.body = .copy c && s.opMoves 5 o && !s.queueHeld 5 o && !s.engineWaits o.thread 5 c.src 128 false && !s.engineWaits o.thread 5 c.dst 128 true && s.writers placedQuad.toCore 2 = 1 && nexts (exec (.copyChunkWrite 5 0) s) fun u => u.writers placedQuad.toCore 2 = 0 && (u.op? 5).any (fun y => match y.body with | .copy c => c.sent = 128 && (c.shares.all fun x => x.done && x.claims = []) | _ => false) && (u.msg? 6).any fun m => match m.body with | .contribute k 2 z => k = o.thread.cohort && z.bytes = 128 && !z.member | _ => false) = true := by decide
theorem witness_answers_path_down : (let b : ObjOp := { code := .info, ptr := mkPtr 1 1 0, dst := 4 }; let s : State := (between.modChip 1 fun h => { h with off := some 9 }).under { ctr := some 5, dst := [4], body := .obj b }; let o := (s.op? 5).getD {}; o.body = .obj b && s.mayPerform 5 o && (s.pathDown o.thread.cohort.chip (birthOf b.ptr)).isSome && nexts (exec (.wellheadObjectRequest 5) s) fun u => u = s) = true := by decide
theorem witness_answers_info_3 : (let b : ObjOp := { code := .info, ptr := objPtr 0, dst := 4, wide := true, ctl := 3 }; let s : State := (between.setObj (0, 1) { size := 2 ^ 21, extents := [{}], pages := List.replicate 32 {}, group := some (0, 2) }).under { ctr := some 5, dst := [4], body := .obj b }; let o := (s.op? 5).getD {}; let x := (s.obj? b.ptr).getD {}; o.body = .obj b && b.stage = 0 && s.mayPerform 5 o && (s.pathDown o.thread.cohort.chip (birthOf b.ptr)).isNone && (s.obj? b.ptr).any (fun x => x.realm = s.realmOf o.thread.cohort) && x.group = some (0, 2) && nexts (exec (.wellheadObjectRequest 5) s) fun u => (u.thread placedThread).reg 4 = 0x80000000 && (u.thread placedThread).reg 5 = 0) = true := by decide
theorem witness_answers_info_4 : (let b : ObjOp := { code := .info, ptr := objPtr 0, dst := 4, wide := true, ctl := 4 }; let s : State := (between.setObj (0, 1) { size := 2 ^ 21, extents := [{ state := .pending, stubs := [(1, 0)] }], pages := List.replicate 32 {}, summary := [0] }).under { ctr := some 5, dst := [4], body := .obj b }; let o := (s.op? 5).getD {}; let x := (s.obj? b.ptr).getD {}; o.body = .obj b && b.stage = 0 && s.mayPerform 5 o && (s.pathDown o.thread.cohort.chip (birthOf b.ptr)).isNone && (s.obj? b.ptr).any (fun x => x.realm = s.realmOf o.thread.cohort) && x.summary ≠ [] && nexts (exec (.wellheadObjectRequest 5) s) fun u => (u.thread placedThread).reg 4 = 7 && (u.op? 5).isNone) = true := by decide
theorem witness_answers_leave : (let b : ObjOp := { code := .leave, ptr := objPtr 0, dst := 4 }; let s : State := (between.setObj (0, 1) { size := 2 ^ 21, extents := [{}], pages := List.replicate 32 {}, group := some (0, 2) }).under { ctr := some 5, dst := [4], body := .obj b }; let o := (s.op? 5).getD {}; let x := (s.obj? b.ptr).getD {}; o.body = .obj b && b.stage = 0 && s.mayPerform 5 o && (s.pathDown o.thread.cohort.chip (birthOf b.ptr)).isNone && (s.obj? b.ptr).any (fun x => x.realm = s.realmOf o.thread.cohort) && x.group ≠ some (keyOf b.ptr) && nexts (exec (.wellheadObjectRequest 5) s) fun u => ((u.obj? b.ptr).getD {}).group.isNone && (u.thread placedThread).reg 4 = 0) = true := by decide
theorem witness_answers_coloc_none : (let b : ObjOp := { code := .coloc, ptr := objPtr 0, dst := 4, b := mkPtr 0 9 0 }; let s : State := (between).under { ctr := some 5, dst := [4], body := .obj b }; let o := (s.op? 5).getD {}; let x := (s.obj? b.ptr).getD {}; o.body = .obj b && b.stage = 0 && s.mayPerform 5 o && (s.pathDown o.thread.cohort.chip (birthOf b.ptr)).isNone && (s.obj? b.ptr).any (fun x => x.realm = s.realmOf o.thread.cohort) && (s.obj? b.b).isNone && (s.window? b.b).isNone && nexts (exec (.wellheadObjectRequest 5) s) fun u => (u.thread placedThread).reg 4 = 268435456 && (u.op? 5).isNone) = true := by decide
theorem witness_answers_coloc_realm : (let b : ObjOp := { code := .coloc, ptr := objPtr 0, dst := 4, b := mkPtr 0 2 0 }; let s : State := (between.setObj (0, 1) { size := 2 ^ 21, extents := [{}], pages := List.replicate 32 {} } |>.setObj (0, 2) { size := 2 ^ 21, extents := [{}], pages := List.replicate 32 {}, realm := 5 }).under { ctr := some 5, dst := [4], body := .obj b }; let o := (s.op? 5).getD {}; let x := (s.obj? b.ptr).getD {}; o.body = .obj b && b.stage = 0 && s.mayPerform 5 o && (s.pathDown o.thread.cohort.chip (birthOf b.ptr)).isNone && (s.obj? b.ptr).any (fun x => x.realm = s.realmOf o.thread.cohort) && (s.obj? b.b).any (fun y => y.group.isNone && y.realm ≠ x.realm) && nexts (exec (.wellheadObjectRequest 5) s) fun u => (u.thread placedThread).reg 4 = 1879048192 && (u.op? 5).isNone) = true := by decide
theorem witness_answers_coloc : (let b : ObjOp := { code := .coloc, ptr := objPtr 0, dst := 4, b := mkPtr 0 2 0 }; let s : State := (between.setObj (0, 1) { size := 2 ^ 21, extents := [{}], pages := List.replicate 32 {} } |>.setObj (0, 2) { size := 2 ^ 21, extents := [{}], pages := List.replicate 32 {} }).under { ctr := some 5, dst := [4], body := .obj b }; let o := (s.op? 5).getD {}; let x := (s.obj? b.ptr).getD {}; o.body = .obj b && b.stage = 0 && s.mayPerform 5 o && (s.pathDown o.thread.cohort.chip (birthOf b.ptr)).isNone && (s.obj? b.ptr).any (fun x => x.realm = s.realmOf o.thread.cohort) && (s.obj? b.b).any (fun y => y.group.isNone && y.realm = x.realm) && x.extents.all (fun e => e.holder = 0) && nexts (exec (.wellheadObjectRequest 5) s) fun u => u = (s.joinGroup (0, 1) (0, 2)).landObj 5 o b 0 && ((u.obj? b.ptr).getD {}).group = some (0, 2)) = true := by decide
theorem witness_answers_coloc_full : (let b : ObjOp := { code := .coloc, ptr := objPtr 0, dst := 4, b := mkPtr 0 2 0 }; let s : State := ((let y : State := (between.setObj (0, 1) { size := 2 ^ 21, extents := [{}], pages := List.replicate 32 {} }).setObj (0, 2) { size := 2 ^ 21, extents := [{}], pages := List.replicate 32 {}, group := some (0, 2) }; { y with objects := y.objects ++ (List.range 63).map fun i => ((0, 10 + i), ({ size := 1, group := some (0, 2) } : Obj)) })).under { ctr := some 5, dst := [4], body := .obj b }; let o := (s.op? 5).getD {}; let x := (s.obj? b.ptr).getD {}; o.body = .obj b && b.stage = 0 && s.mayPerform 5 o && (s.pathDown o.thread.cohort.chip (birthOf b.ptr)).isNone && (s.obj? b.ptr).any (fun x => x.realm = s.realmOf o.thread.cohort) && decide ((s.objects.filter fun m => m.2.group = some (0, 2) && m.1 ≠ (0, 2) && m.1 ≠ (0, 1)).length = 63) && nexts (exec (.wellheadObjectRequest 5) s) fun u => (u.thread placedThread).reg 4 = 1879048192 && (u.op? 5).isNone) = true := by decide
theorem witness_answers_migrate_no_chip : (let b : ObjOp := { code := .migrate, ptr := objPtr 0, dst := 4, b := 9 }; let s : State := (between).under { ctr := some 5, dst := [4], body := .obj b }; let o := (s.op? 5).getD {}; let x := (s.obj? b.ptr).getD {}; o.body = .obj b && b.stage = 0 && s.mayPerform 5 o && (s.pathDown o.thread.cohort.chip (birthOf b.ptr)).isNone && (s.obj? b.ptr).any (fun x => x.realm = s.realmOf o.thread.cohort) && x.group.isNone && b.ctl = 0 && !s.chipExists 9 && nexts (exec (.wellheadObjectRequest 5) s) fun u => (u.thread placedThread).reg 4 = 268435456 && (u.op? 5).isNone) = true := by decide
theorem witness_answers_migrate_pinned : (let b : ObjOp := { code := .migrate, ptr := objPtr 0, dst := 4, b := 1 }; let s : State := ({ (between.setObj (0, 1) { size := 2 ^ 21, extents := [{}], pages := List.replicate 32 {}, pins := 1 }) with pod := [{ chip := 0, domain := 0 }, { chip := 1, domain := 0 }] }).under { ctr := some 5, dst := [4], body := .obj b }; let o := (s.op? 5).getD {}; let x := (s.obj? b.ptr).getD {}; o.body = .obj b && b.stage = 0 && s.mayPerform 5 o && (s.pathDown o.thread.cohort.chip (birthOf b.ptr)).isNone && (s.obj? b.ptr).any (fun x => x.realm = s.realmOf o.thread.cohort) && x.group.isNone && b.ctl = 0 && s.chipExists 1 && x.pins ≠ 0 && nexts (exec (.wellheadObjectRequest 5) s) fun u => (u.thread placedThread).reg 4 = 805306368 && (u.op? 5).isNone) = true := by decide
theorem witness_answers_migrate_busy : (let b : ObjOp := { code := .migrate, ptr := objPtr 0, dst := 4, b := 1 }; let s : State := ({ (between.setObj (0, 1) { size := 2 ^ 21, extents := [{ state := .pending, dest := 1 }], pages := List.replicate 32 {} }) with pod := [{ chip := 0, domain := 0 }, { chip := 1, domain := 0 }] }).under { ctr := some 5, dst := [4], body := .obj b }; let o := (s.op? 5).getD {}; let x := (s.obj? b.ptr).getD {}; o.body = .obj b && b.stage = 0 && s.mayPerform 5 o && (s.pathDown o.thread.cohort.chip (birthOf b.ptr)).isNone && (s.obj? b.ptr).any (fun x => x.realm = s.realmOf o.thread.cohort) && x.group.isNone && b.ctl = 0 && s.chipExists 1 && x.pins = 0 && s.objBusy (keyOf b.ptr) x && nexts (exec (.wellheadObjectRequest 5) s) fun u => (u.thread placedThread).reg 4 = 1073741824 && (u.op? 5).isNone) = true := by decide
theorem witness_answers_migrate_realm : (let b : ObjOp := { code := .migrate, ptr := objPtr 0, dst := 4, b := 1 }; let s : State := ({ (between.setObj (0, 1) { size := 2 ^ 21, extents := [{}], pages := List.replicate 32 {} }) with pod := [{ chip := 0, domain := 0 }, { chip := 1, domain := 0 }] }).under { ctr := some 5, dst := [4], body := .obj b }; let o := (s.op? 5).getD {}; let x := (s.obj? b.ptr).getD {}; o.body = .obj b && b.stage = 0 && s.mayPerform 5 o && (s.pathDown o.thread.cohort.chip (birthOf b.ptr)).isNone && (s.obj? b.ptr).any (fun x => x.realm = s.realmOf o.thread.cohort) && x.group.isNone && b.ctl = 0 && s.chipExists 1 && !s.objBusy (keyOf b.ptr) x && (s.realmVf 1 x.realm).isNone && nexts (exec (.wellheadObjectRequest 5) s) fun u => (u.thread placedThread).reg 4 = 1610612736 && (u.op? 5).isNone) = true := by decide
theorem witness_answers_migrate_there : (let b : ObjOp := { code := .migrate, ptr := objPtr 0, dst := 4, b := 0 }; let s : State := (between.modVf 0 0 fun v => { v with enable := true, keyed := true }).under { ctr := some 5, dst := [4], body := .obj b }; let o := (s.op? 5).getD {}; let x := (s.obj? b.ptr).getD {}; o.body = .obj b && s.mayPerform 5 o && x.group.isNone && s.chipExists 0 && x.pins = 0 && !s.objBusy (keyOf b.ptr) x && (s.realmVf 0 x.realm).isSome && (x.extents.getD 0 {}).holder = 0 && nexts (exec (.wellheadObjectRequest 5) s) fun u => (u.thread placedThread).reg 4 = 0 && (u.op? 5).isNone) = true := by decide
theorem witness_answers_migrate_stubs : (let b : ObjOp := { code := .migrate, ptr := objPtr 0, dst := 4, b := 1 }; let x : Obj := { size := 2 ^ 21, extents := [{ stubs := [(2, 1), (3, 2), (4, 3), (5, 4)] }], pages := List.replicate 32 {} }; let s : State := ((({ between with pod := [{ chip := 0, domain := 0 }, { chip := 1, domain := 0 }] } : State).setObj (0, 1) x).modVf 1 0 fun v => { v with realm := x.realm, enable := true, keyed := true }).under { ctr := some 5, dst := [4], body := .obj b }; let o := (s.op? 5).getD {}; o.body = .obj b && s.mayPerform 5 o && s.obj? b.ptr = some x && x.realm = s.realmOf o.thread.cohort && s.chipExists 1 && !s.objBusy (keyOf b.ptr) x && s.realmVf 1 x.realm = some 0 && (x.extents.getD 0 {}).holder ≠ 1 && (x.extents.getD 0 {}).stubLimit 1 && nexts (exec (.wellheadObjectRequest 5) s) fun u => (u.thread placedThread).reg 4 = 0x50000000) = true := by decide
theorem witness_answers_migrate_accepted : (let b : ObjOp := { code := .migrate, ptr := objPtr 0, dst := 4, b := 1 }; let x : Obj := { size := 2 ^ 21, extents := [{}], pages := List.replicate 32 {} }; let s : State := ((({ between with pod := [{ chip := 0, domain := 0 }, { chip := 1, domain := 0 }] } : State).setObj (0, 1) x).modVf 1 0 fun v => { v with realm := x.realm, enable := true, keyed := true }).under { ctr := some 5, dst := [4], body := .obj b }; let o := (s.op? 5).getD {}; o.body = .obj b && s.mayPerform 5 o && s.obj? b.ptr = some x && x.realm = s.realmOf o.thread.cohort && s.chipExists 1 && !s.objBusy (keyOf b.ptr) x && s.realmVf 1 x.realm = some 0 && (x.extents.getD 0 {}).holder ≠ 1 && !(x.extents.getD 0 {}).stubLimit 1 && nexts (exec (.wellheadObjectRequest 5) s) fun u => u = (s.acceptMoves [(keyOf b.ptr, 0)] 1 0 (s.partOf o.thread.cohort) (some 5) (s.ctxOf o.thread.cohort)).setOp 5 { o with body := .obj { b with stage := 1 } } && u.moves.length = 1) = true := by decide
theorem witness_answers_stubfree : (let b : ObjOp := { code := .stubfree, ptr := objPtr 0, dst := 4 }; let s : State := (between.setObj (0, 1) { size := 2 ^ 21, extents := [{ stubs := [(1, 0), (2, 1)] }], pages := List.replicate 32 {} }).under { ctr := some 5, dst := [4], body := .obj b }; let o := (s.op? 5).getD {}; let x := (s.obj? b.ptr).getD {}; o.body = .obj b && b.stage = 0 && s.mayPerform 5 o && (s.pathDown o.thread.cohort.chip (birthOf b.ptr)).isNone && (s.obj? b.ptr).any (fun x => x.realm = s.realmOf o.thread.cohort) && s.moves = [] && nexts (exec (.wellheadObjectRequest 5) s) fun u => (u.thread placedThread).reg 4 = 2 && (((u.obj? b.ptr).getD {}).extents.getD 0 {}).stubs = []) = true := by decide
theorem witness_answers_split_group : (let b : ObjOp := { code := .split, ptr := objPtr 0, dst := 4, b := 21 }; let s : State := (between.setObj (0, 1) { size := 2 ^ 22, log2 := 22, extents := [{}], pages := List.replicate 64 {}, group := some (0, 2) }).under { ctr := some 5, dst := [4], body := .obj b }; let o := (s.op? 5).getD {}; let x := (s.obj? b.ptr).getD {}; o.body = .obj b && b.stage = 0 && s.mayPerform 5 o && (s.pathDown o.thread.cohort.chip (birthOf b.ptr)).isNone && (s.obj? b.ptr).any (fun x => x.realm = s.realmOf o.thread.cohort) && decide (b.b.toNat < x.log2) && x.group.isSome && nexts (exec (.wellheadObjectRequest 5) s) fun u => (u.thread placedThread).reg 4 = 1879048192 && (u.op? 5).isNone) = true := by decide
theorem witness_answers_split_pinned : (let b : ObjOp := { code := .split, ptr := objPtr 0, dst := 4, b := 21 }; let s : State := (between.setObj (0, 1) { size := 2 ^ 22, log2 := 22, extents := [{}], pages := List.replicate 64 {}, pins := 1 }).under { ctr := some 5, dst := [4], body := .obj b }; let o := (s.op? 5).getD {}; let x := (s.obj? b.ptr).getD {}; o.body = .obj b && b.stage = 0 && s.mayPerform 5 o && (s.pathDown o.thread.cohort.chip (birthOf b.ptr)).isNone && (s.obj? b.ptr).any (fun x => x.realm = s.realmOf o.thread.cohort) && decide (b.b.toNat < x.log2) && x.pins ≠ 0 && nexts (exec (.wellheadObjectRequest 5) s) fun u => (u.thread placedThread).reg 4 = 805306368 && (u.op? 5).isNone) = true := by decide
theorem witness_answers_split_busy : (let b : ObjOp := { code := .split, ptr := objPtr 0, dst := 4, b := 21 }; let s : State := (between.setObj (0, 1) { size := 2 ^ 22, log2 := 22, extents := [{ state := .pending }], pages := List.replicate 64 {} }).under { ctr := some 5, dst := [4], body := .obj b }; let o := (s.op? 5).getD {}; let x := (s.obj? b.ptr).getD {}; o.body = .obj b && b.stage = 0 && s.mayPerform 5 o && (s.pathDown o.thread.cohort.chip (birthOf b.ptr)).isNone && (s.obj? b.ptr).any (fun x => x.realm = s.realmOf o.thread.cohort) && decide (b.b.toNat < x.log2) && s.objBusy (keyOf b.ptr) x && nexts (exec (.wellheadObjectRequest 5) s) fun u => (u.thread placedThread).reg 4 = 1073741824 && (u.op? 5).isNone) = true := by decide
theorem witness_answers_split_done : (let b : ObjOp := { code := .split, ptr := objPtr 0, dst := 4, b := 21 }; let s : State := (between.setObj (0, 1) { size := 2 ^ 22, log2 := 22, extents := [{}], pages := List.replicate 64 {} }).under { ctr := some 5, dst := [4], body := .obj b }; let o := (s.op? 5).getD {}; let x := (s.obj? b.ptr).getD {}; o.body = .obj b && b.stage = 0 && s.mayPerform 5 o && (s.pathDown o.thread.cohort.chip (birthOf b.ptr)).isNone && (s.obj? b.ptr).any (fun x => x.realm = s.realmOf o.thread.cohort) && decide (b.b.toNat < x.log2) && !s.objBusy (keyOf b.ptr) x && x.extents.all (fun e => e.fwd = []) && nexts (exec (.wellheadObjectRequest 5) s) fun u => u = (s.setObj (keyOf b.ptr) (x.split b.b.toNat)).landObj 5 o b 0 && ((u.obj? b.ptr).getD {}).extents.length = 2) = true := by decide
theorem witness_move_evicts : (let m : Move := { obj := (0, 1), ext := 0, src := 0, dest := 1, ready := true }; let o : Obj := { size := 0x10000, extents := [{ state := .pending, dest := 1 }], pages := [{}] }; let s : State := { (between.modDie ⟨0, 0⟩ fun x => { x with cached := [0x4000], l2 := [(0, true)] }) with objects := [((0, 1), o)], moves := [(3, m)] }; let e := o.extents.getD 0 {}; s.move? 3 = some m && s.objects.get? m.obj = some o && m.held.isNone && e.fwd = [] && s.pins = [] && nexts (exec (.framesReserved 3 0) s) fun u => (((u.objects.get? (0, 1)).getD {}).extents.getD 0 {}).state = .copying && !(u.die ⟨0, 0⟩).cached.contains 0x4000 && !Tab.getD (u.die ⟨0, 0⟩).l2 0 false) = true := by decide
theorem witness_move_path_down : (let m : Move := { obj := (0, 1), ext := 0, src := 0, dest := 1, ready := true, walked := [0x4000] }; let o : Obj := { size := 0x10000, extents := [{ state := .copying, dest := 1 }], pages := [{}] }; let s : State := { (between.modChip 1 fun h => { h with off := some 9 }) with objects := [((0, 1), o)], moves := [(3, m)] }; let e := o.extents.getD 0 {}; s.move? 3 = some m && s.objects.get? m.obj = some o && m.held.isNone && e.state = .copying && (s.pathDown m.src m.dest).isSome && nexts (exec (.copyDoneCommit 3) s) fun u => u = s) = true := by decide
theorem witness_move_walks : (let m : Move := { obj := (0, 1), ext := 0, src := 0, dest := 1, ready := true }; let o : Obj := { size := 0x10000, extents := [{ state := .copying, dest := 1 }], pages := [{}] }; let s : State := { between with objects := [((0, 1), o)], moves := [(3, m)] }; let e := o.extents.getD 0 {}; s.move? 3 = some m && s.objects.get? m.obj = some o && m.held.isNone && e.state = .copying && (s.pathDown m.src m.dest).isNone && o.pagesOf 0 = [0] && !m.walked.contains 0x4000 && nexts (exec (.copyDoneCommit 3) s) fun u => u = s.modDie ⟨0, 0⟩ fun x => x.walkFor 0x4000 3) = true := by decide
theorem witness_move_queues_engine : (let m : Move := { obj := (0, 1), ext := 0, src := 0, dest := 1, ready := true }; let o : Obj := { size := 0x10000, extents := [{ state := .copying, dest := 1 }], pages := [{}] }; let s : State := { between with objects := [((0, 1), o)], moves := [(3, m)] }; let e := o.extents.getD 0 {}; s.move? 3 = some m && s.objects.get? m.obj = some o && m.held.isNone && e.queue = [] && o.waiting = [] && decide (o.queued e.holder < 256) && !s.engineHeldAt placedThread 7 (objPtr 0) 64 && decide (s.reach placedThread (objPtr 0) 64 false = .transit) && let u := s.engineWait placedThread 7 false (objPtr 0) 64 false; u.mem = s.mem && ((((u.objects.get? (0, 1)).getD {}).extents.getD 0 {}).queue = [7])) = true := by decide

/-! The matrix engine -/
/-- A window sum: 1 × 1 + (−2) × 1, anchored at 2. -/
theorem witness_window_sum :
    let x : List Val := [.fin false 1 0, .fin true 1 1]
    let y : List Val := [.fin false 1 0, .fin false 1 0]
    let size := fun (p : Val) => match p with | .fin _ n e => (n : ℚ) * 2 ^ e | _ => 0
    let low := fun (p : Val) => match p with | .fin b _ _ => b | _ => false
    List.zipWith mulVal x y = [.fin false 1 0, .fin true 1 1] ∧ (∀ p ∈ List.zipWith mulVal x y, size p < 2 ^ ((1 : Int) + 1))
      ∧ (∃ p ∈ List.zipWith mulVal x y, 2 ^ (1 : Int) ≤ size p)
      ∧ List.Forall₂ (fun p (k : Int) => (k.natAbs : ℚ) * 2 ^ ((1 : Int) - 73) ≤ size p ∧ size p < (k.natAbs + 1) * 2 ^ ((1 : Int) - 73)
        ∧ (k < 0 → low p = true) ∧ (0 < k → low p = false)) (List.zipWith mulVal x y) [2 ^ 72, -2 ^ 73]
      ∧ accumulate 2 false 0 x y (some 0) = 0xBF800000 := by
  have h : List.zipWith mulVal [.fin false 1 0, .fin true 1 1] [.fin false 1 0, .fin false 1 0] = [.fin false 1 0, .fin true 1 1] := by decide
  dsimp only
  rw [h]
  refine ⟨rfl, ?_, ⟨_, List.mem_cons_of_mem _ (List.mem_singleton.mpr rfl), by norm_num⟩, ?_, by decide⟩
  · intro p hp
    simp only [List.mem_cons, List.not_mem_nil, or_false] at hp
    rcases hp with rfl | rfl <;> norm_num
  · refine List.Forall₂.cons ⟨by norm_num, by norm_num, by norm_num, by norm_num⟩ (List.Forall₂.cons ⟨by norm_num, by norm_num, by norm_num, by norm_num⟩ List.Forall₂.nil)
/-- One element left is the one a drain step writes, whatever is picked. -/
theorem witness_drain_pick (n : Nat) : (match [1].filter (Config.drainPick n) with | [] => [1].take 1 | l => l) = [1] := by
  cases h : Config.drainPick n 1 <;> simp [h]
theorem witness_sum_special : (let one : Val := .fin false 1 0; let zero : Val := .fin true 0 0; .nan ∈ List.zipWith mulVal [.inf false] [zero] && accumulate 1 false 0 [.inf false] [zero] (some 0) = 0x7FC00000 && accumulate 2 false 0 [one] [one] none = 0x7FC00000 && .inf true ∈ List.zipWith mulVal [.inf true, .inf false] [one, one] && .inf false ∈ List.zipWith mulVal [.inf true, .inf false] [one, one] && accumulate 1 false 0 [.inf true, .inf false] [one, one] (some 0) = 0x7FC00000 && .inf true ∈ List.zipWith mulVal [.inf true, one] [one, one] && .inf false ∉ List.zipWith mulVal [.inf true, one] [one, one] && .nan ∉ List.zipWith mulVal [.inf true, one] [one, one] && accumulate 1 false 0 [.inf true, one] [one, one] (some 0) = 0xFF800000 && List.zipWith mulVal [zero] [one] = [zero] && accumulate 2 false 0x3F800000 [zero] [one] (some 5) = 0x3F800000 && accumulate 1 true 5 [.fin true 3 0, .fin false 2 0] [.fin false 4 0, .fin false 1 0] none = BitVec.ofInt 32 (5 - 12 + 2)) = true := by decide
theorem witness_step_shadow : (let q := placedQuad; let m : MatOp := { matCmd with code := .mmag, fmt := 1160, header := blockBytes, groups := [{}], active := true, bend := 1, queue := 1, slot := some (3, 0), shadow := some 1 }; let s0 := (commanded m).holding [(globalAt (objPtr 0x1000), bytesLE 4 0x00FF0302), (globalAt (objPtr 0x2000), bytesLE 2 0x0504), (globalAt (objPtr 0x2020), bytesLE 3 0x070000)]; let s := s0.modQuad q fun y => { y with queues := [[], [5]], shadows := [{}, { bound := some (placedThread.cohort, 0, 3, 0), data := List.replicate 128 9 }] }; let o := (s.op? 5).getD {}; decide ((s.quad q).lastStep ≤ s.now) && (s.headOf q 1).any (fun h => h.1 = 5 && h.2.1 = o && h.2.2 = m) && !s.runnable q 0 && m.quad = q && m.begun && m.active && !m.ended && s.matOutcome o m ≠ some false && decide (m.row < m.bend) && decide (1 < (s.quad q).shadows.length) && (s.quad q).loading.isNone && let s' := ((s.standAside q 0).modQuad q fun x => { x with loading := none }).modQuad q fun x => { x with passed := 0 }; let rb := loadRows (s'.rowOf 5 o m (m.operandB m.shape 32)) m.shape.n []; let ra := loadRows (fun i => s'.rowOf 5 o m (m.operandA m.shape 32) (m.row + i)) (m.bend - m.row) []; rb.2 = none && rb.1.length = 2 && ra.2 = none && ra.1.length = 1 && nexts (exec (.matrixStep q) s) fun u => u.mem = s.mem && (u.target m).getD 2 0 = 9 && (u.target m).getD 0 0 = BitVec.ofNat 32 (2 * 4 + 3 * 5) && (u.quad q).lastStep = s.now + 6 * ((rateOf m.fmt.toNat).getD 0 * 32 / 32) && (u.quad q).acc = (s.quad q).acc) = true := by decide
theorem witness_reread_grown : (let q := placedQuad; let m : MatOp := { matCmd with code := .mmag, header := blockBytes, groups := [{ done := 1, aside := true }], pass := 2, queue := 0 }; let s := ((commanded m).holding [(globalAt (objPtr 0x8000), bytesLE 4 0x80000003), (globalAt (objPtr 0x8004), bytesLE 4 0x80000003)]).modQuad q fun y => { y with queues := [[5], []] }; let o := (s.op? 5).getD {}; let m1 : MatOp := { m with pass := 3, groups := m.groups.map fun x => { x with aside := false } }; let p := m.groups.getD 0 {}; let r := s.readEntry 5 o m1 m.shape 0; let o' : Op := { o with know := join o.know r.2 }; let addr := ptrAdd m.shape.counts 0; (s.headOf q 0).any (fun h => h.1 = 5 && h.2.1 = o && h.2.2 = m) && (s.headOf q 1).isNone && m.quad = q && m.groups.length = m.shape.groups.length && !p.fin && s.matMayBegin 5 o m1 && givesBytes r (bytesLE 4 0x80000003) && nexts (exec (.rowCountReread q) s) fun u => u.op? 5 = some { o' with body := .matrix ({ m1 with pass := 1, active := true, group := 0, batch := 1, bend := 3, block := 0, row := 1 }) } && u.mem = s.mem && (u.quad q).poison.getD 0 false = false) = true := by decide
theorem witness_reread_second : (let q := placedQuad; let m : MatOp := { matCmd with code := .mmag, header := (bytesLE 4 32 ++ bytesLE 2 2 ++ [2, 0] ++ bytesLE 8 (objPtr 0x8000).toNat ++ bytesLE 4 32 ++ bytesLE 4 32 ++ bytesLE 40 0 ++ bytesLE 8 (objPtr 0x1000).toNat ++ bytesLE 8 (objPtr 0x2000).toNat ++ bytesLE 16 0 ++ [0, 128] ++ bytesLE 30 0 ++ bytesLE 8 (objPtr 0x1000).toNat ++ bytesLE 8 (objPtr 0x2000).toNat ++ bytesLE 16 0 ++ [0, 100] ++ bytesLE 30 0), groups := [{ done := 1, fin := true }, { done := 1, aside := true }], pass := 2, queue := 1 }; let s := ((commanded m).holding [(globalAt (objPtr 0x8000), bytesLE 4 0x80000003), (globalAt (objPtr 0x8004), bytesLE 4 0x80000003)]).modQuad q fun y => { y with queues := [[], [5]] }; let o := (s.op? 5).getD {}; let m1 : MatOp := { m with pass := 3, groups := m.groups.map fun x => { x with aside := false } }; let p := m.groups.getD 1 {}; let r := s.readEntry 5 o m1 m.shape 1; let o' : Op := { o with know := join o.know r.2 }; let addr := ptrAdd m.shape.counts 4; (s.headOf q 1).any (fun h => h.1 = 5 && h.2.1 = o && h.2.2 = m) && (s.headOf q 0).isNone && m.quad = q && m.groups.length = m.shape.groups.length && !p.fin && s.matMayBegin 5 o m1 && givesBytes r (bytesLE 4 0x80000003) && nexts (exec (.rowCountReread q) s) fun u => u.op? 5 = some { o' with body := .matrix ({ m1 with pass := 1, active := true, group := 1, batch := 1, bend := 3, block := 0, row := 1 }) } && u.mem = s.mem && (u.quad q).poison.getD 0 false = false) = true := by decide
theorem witness_reread_fallen : (let q := placedQuad; let m : MatOp := { matCmd with code := .mmag, header := blockBytes, groups := [{ done := 1, aside := true }], pass := 2, queue := 0 }; let s := ((commanded m).holding [(globalAt (objPtr 0x8000), bytesLE 4 0x80000000), (globalAt (objPtr 0x8004), bytesLE 4 0x80000000)]).modQuad q fun y => { y with queues := [[5], []] }; let o := (s.op? 5).getD {}; let m1 : MatOp := { m with pass := 3, groups := m.groups.map fun x => { x with aside := false } }; let p := m.groups.getD 0 {}; let r := s.readEntry 5 o m1 m.shape 0; let o' : Op := { o with know := join o.know r.2 }; let addr := ptrAdd m.shape.counts 0; (s.headOf q 0).any (fun h => h.1 = 5 && h.2.1 = o && h.2.2 = m) && (s.headOf q 1).isNone && m.quad = q && m.groups.length = m.shape.groups.length && !p.fin && s.matMayBegin 5 o m1 && givesBytes r (bytesLE 4 0x80000000) && nexts (exec (.rowCountReread q) s) fun u => u.op? 5 = some { o' with body := .matrix ({ m1 with ended := true, active := false, err := some (5, addr), loadA := [], loadB := [] }) } && u.mem = s.mem && (u.quad q).poison.getD 0 false = true) = true := by decide
theorem witness_reread_over : (let q := placedQuad; let m : MatOp := { matCmd with code := .mmag, header := (bytesLE 4 32 ++ bytesLE 2 2 ++ [2, 0] ++ bytesLE 8 (objPtr 0x8000).toNat ++ bytesLE 4 32 ++ bytesLE 4 32 ++ bytesLE 40 0 ++ bytesLE 8 (objPtr 0x1000).toNat ++ bytesLE 8 (objPtr 0x2000).toNat ++ bytesLE 16 0 ++ [0, 128] ++ bytesLE 30 0 ++ bytesLE 8 (objPtr 0x1000).toNat ++ bytesLE 8 (objPtr 0x2000).toNat ++ bytesLE 16 0 ++ [0, 100] ++ bytesLE 30 0), groups := [{ done := 1, fin := true }, { done := 1, aside := true }], pass := 2, queue := 0 }; let s := ((commanded m).holding [(globalAt (objPtr 0x8000), bytesLE 4 0x80000065), (globalAt (objPtr 0x8004), bytesLE 4 0x80000065)]).modQuad q fun y => { y with queues := [[5], []] }; let o := (s.op? 5).getD {}; let m1 : MatOp := { m with pass := 3, groups := m.groups.map fun x => { x with aside := false } }; let p := m.groups.getD 1 {}; let r := s.readEntry 5 o m1 m.shape 1; let o' : Op := { o with know := join o.know r.2 }; let addr := ptrAdd m.shape.counts 4; (s.headOf q 0).any (fun h => h.1 = 5 && h.2.1 = o && h.2.2 = m) && (s.headOf q 1).isNone && m.quad = q && m.groups.length = m.shape.groups.length && !p.fin && s.matMayBegin 5 o m1 && givesBytes r (bytesLE 4 0x80000065) && (m.shape.groups.getD 1 default).cap = 100 && nexts (exec (.rowCountReread q) s) fun u => u.op? 5 = some { o' with body := .matrix ({ m1 with ended := true, active := false, err := some (6, addr), loadA := [], loadB := [] }) } && u.mem = s.mem && (u.quad q).poison.getD 0 false = true) = true := by decide
theorem witness_reread_closed : (let q := placedQuad; let m : MatOp := { matCmd with code := .mmag, header := blockBytes, groups := [{ done := 1, aside := true }], pass := 2, queue := 0 }; let s := ((commanded m).holding [(globalAt (objPtr 0x8000), bytesLE 4 0x00000001), (globalAt (objPtr 0x8004), bytesLE 4 0x00000001)]).modQuad q fun y => { y with queues := [[5], []] }; let o := (s.op? 5).getD {}; let m1 : MatOp := { m with pass := 3, groups := m.groups.map fun x => { x with aside := false } }; let p := m.groups.getD 0 {}; let r := s.readEntry 5 o m1 m.shape 0; let o' : Op := { o with know := join o.know r.2 }; let addr := ptrAdd m.shape.counts 0; (s.headOf q 0).any (fun h => h.1 = 5 && h.2.1 = o && h.2.2 = m) && (s.headOf q 1).isNone && m.quad = q && m.groups.length = m.shape.groups.length && !p.fin && s.matMayBegin 5 o m1 && givesBytes r (bytesLE 4 0x00000001) && nexts (exec (.rowCountReread q) s) fun u => u.op? 5 = some { o' with body := .matrix ({ m1 with groups := [{ done := 1, fin := true, aside := false }], ended := true, active := false, err := none, loadA := [], loadB := [] }) } && u.mem = s.mem && (u.quad q).poison.getD 0 false = false) = true := by decide
theorem witness_reread_open : (let q := placedQuad; let m : MatOp := { matCmd with code := .mmag, header := blockBytes, groups := [{ done := 1, aside := true }], pass := 2, queue := 0 }; let s := ((commanded m).holding [(globalAt (objPtr 0x8000), bytesLE 4 0x80000001), (globalAt (objPtr 0x8004), bytesLE 4 0x80000001)]).modQuad q fun y => { y with queues := [[5], []] }; let o := (s.op? 5).getD {}; let m1 : MatOp := { m with pass := 3, groups := m.groups.map fun x => { x with aside := false } }; let p := m.groups.getD 0 {}; let r := s.readEntry 5 o m1 m.shape 0; let o' : Op := { o with know := join o.know r.2 }; let addr := ptrAdd m.shape.counts 0; (s.headOf q 0).any (fun h => h.1 = 5 && h.2.1 = o && h.2.2 = m) && (s.headOf q 1).isNone && m.quad = q && m.groups.length = m.shape.groups.length && !p.fin && s.matMayBegin 5 o m1 && givesBytes r (bytesLE 4 0x80000001) && nexts (exec (.rowCountReread q) s) fun u => u.op? 5 = some { o' with body := .matrix ({ m1 with pass := 2, groups := [{ done := 1, fin := false, aside := true }] }) } && u.mem = s.mem && (u.quad q).poison.getD 0 false = false) = true := by decide
theorem witness_drain_outside : (let q := placedQuad; let m : MatOp := { matCmd with code := .mdrain, a := mkPtr 0 1 (2 ^ 30 - 16), begun := true, fmt := 132108, stride := 16, left := [2] }; let s : State := (commanded m).modQuad q fun y => { y with acc := [[7, 8], [], [], []] }; let o := (s.op? 5).getD {}; !m.rowFits 1 && (match s.drainUnit 5 o m 2 with | .error e => e = (3, m.a) | .ok _ => false)) = true := by decide
theorem witness_drain_region : (let q := placedQuad; let m : MatOp := { matCmd with code := .mdrain, a := mkPtr 0xFFF 2 0x100, begun := true, fmt := 132108, stride := 16, left := [1] }; let s : State := (commanded m).modQuad q fun y => { y with acc := [[7, 8], [], [], []] }; let o := (s.op? 5).getD {}; m.rowFits 0 && s.matSpace (mkPtr 0xFFF 2 0x104) = some 0x12 && (match s.drainUnit 5 o m 1 with | .error e => e = (0x12, mkPtr 0xFFF 2 0x104) | .ok _ => false)) = true := by decide
theorem witness_drain_waits_path : (let q := placedQuad; let m : MatOp := { matCmd with code := .mdrain, a := objPtr 0x100, begun := true, fmt := 132108, stride := 16, left := [1] }; let s : State := (let y := (commanded m).modQuad q fun y => { y with acc := [[7, 8], [], [], []] }; { y with objects := [((0, 1), { size := 2 ^ 21, extents := [{ state := .copying, dest := 1 }], pages := List.replicate 32 {} })], moves := [(3, { obj := (0, 1), ext := 0, src := 0, dest := 1, ready := true })] }); let o := (s.op? 5).getD {}; m.rowFits 0 && (s.matSpace (objPtr 0x104)).isNone && s.matWaits 5 m o.thread (objPtr 0x104) 4 true && (match s.drainUnit 5 o m 1 with | .ok (false, v) => v.mem = s.mem && v.quads = s.quads | _ => false)) = true := by decide
theorem witness_drain_fails : (let q := placedQuad; let m : MatOp := { matCmd with code := .mdrain, a := mkPtr 0 9 0x100, begun := true, fmt := 132108, stride := 16, left := [1] }; let s : State := (commanded m).modQuad q fun y => { y with acc := [[7, 8], [], [], []] }; let o := (s.op? 5).getD {}; m.rowFits 0 && (s.matSpace (mkPtr 0 9 0x104)).isNone && !s.matWaits 5 m o.thread (mkPtr 0 9 0x104) 4 true && (match s.drainUnit 5 o m 1 with | .error e => e = (2, mkPtr 0 9 0x104) | .ok _ => false)) = true := by decide
theorem witness_drain_element : (let q := placedQuad; let m : MatOp := { matCmd with code := .mdrain, a := objPtr 0x100, begun := true, fmt := 132108, stride := 16, left := [1] }; let s : State := (commanded m).modQuad q fun y => { y with acc := [[7, 8], [], [], []] }; let o := (s.op? 5).getD {}; !s.matWaits 5 m o.thread (objPtr 0x104) 4 true && (match s.drainUnit 5 o m 1 with | .ok (true, v) => Memory.readNat v.mem (objPtr 0x104).toNat 4 = 8 && v.quads = s.quads | _ => false)) = true := by decide
theorem witness_add_drain_region : (let q := placedQuad; let m : MatOp := { matCmd with code := .mdrain, a := mkPtr 0xFFF 2 0x100, begun := true, fmt := 132620, stride := 16 }; let s : State := (commanded m).modQuad q fun y => { y with acc := [[7, 8], [], [], []] }; let o := (s.op? 5).getD {}; (s.drainHead q).any (fun h => h.1 = 5 && h.2.1 = o && h.2.2 = m) && m.adds && !(s.quad q).poison.getD m.tile false && m.rows = 2 && m.cols = 2 && rowLen m.dfmt m.cols = 8 && s.matSpace m.a = some 0x12 && nexts (exec (.matrixDrain q) s) fun u => u.op? 5 = some { o with body := .matrix { m with begun := true, ended := true, err := some (0x12, m.a) } } && u.mem = s.mem && (u.quad q).acc = (s.quad q).acc) = true := by decide
theorem witness_add_drain_extent : (let q := placedQuad; let m : MatOp := { matCmd with code := .mdrain, a := objPtr (2 ^ 21 - 16), begun := true, fmt := 132620, stride := 16 }; let s : State := (commanded m).modQuad q fun y => { y with acc := [[7, 8], [], [], []] }; let o := (s.op? 5).getD {}; (s.drainHead q).any (fun h => h.1 = 5 && h.2.1 = o && h.2.2 = m) && m.adds && !(s.quad q).poison.getD m.tile false && m.rows = 2 && m.cols = 2 && rowLen m.dfmt m.cols = 8 && (s.matSpace m.a).isNone && ptrFits m.a 23 && (s.obj? m.a).any (fun b => b.size ≤ offsetOf m.a + 23) && nexts (exec (.matrixDrain q) s) fun u => u.op? 5 = some { o with body := .matrix { m with begun := true, ended := true, err := some (1, m.a) } } && u.mem = s.mem && (u.quad q).acc = (s.quad q).acc) = true := by decide
theorem witness_add_drain_waits : (let q := placedQuad; let m : MatOp := { matCmd with code := .mdrain, a := objPtr 0x100, begun := true, fmt := 132620, stride := 16 }; let s : State := (let y := (commanded m).modQuad q fun y => { y with acc := [[7, 8], [], [], []] }; { y with objects := [((0, 1), { size := 2 ^ 21, extents := [{ state := .copying, dest := 1 }], pages := List.replicate 32 {} })], moves := [(3, { obj := (0, 1), ext := 0, src := 0, dest := 1, ready := true })] }); let o := (s.op? 5).getD {}; (s.drainHead q).any (fun h => h.1 = 5 && h.2.1 = o && h.2.2 = m) && m.adds && !(s.quad q).poison.getD m.tile false && m.rows = 2 && m.cols = 2 && rowLen m.dfmt m.cols = 8 && (s.drainPlace o m).isNone && s.matWaits 5 m o.thread (m.rowPtr 1) 8 true && nexts (exec (.matrixDrain q) s) fun u => u.mem = s.mem && u.op? 5 = s.op? 5 && (u.quad q).acc = (s.quad q).acc) = true := by decide
theorem witness_add_drain_unread : (let q := placedQuad; let m : MatOp := { matCmd with code := .mdrain, a := objPtr 0x100, begun := true, fmt := 132620, stride := 16 }; let s : State := (let y := (commanded m).modQuad q fun y => { y with acc := [[7, 8], [], [], []] }; { y with objects := [((0, 1), { realm := 5, size := 2 ^ 21, extents := [{}], pages := List.replicate 32 {} })] }); let o := (s.op? 5).getD {}; (s.drainHead q).any (fun h => h.1 = 5 && h.2.1 = o && h.2.2 = m) && m.adds && !(s.quad q).poison.getD m.tile false && m.rows = 2 && m.cols = 2 && rowLen m.dfmt m.cols = 8 && (s.drainPlace o m).isNone && !s.matWaits 5 m o.thread (m.rowPtr 0) 8 true && !s.matWaits 5 m o.thread (m.rowPtr 1) 8 true && isErr ((s.giveUp 5).engineRead o.thread (m.rowPtr 0) 8) 3 && nexts (exec (.matrixDrain q) s) fun u => u.op? 5 = some { o with body := .matrix { m with begun := true, ended := true, err := some (3, m.rowPtr 0) } } && u.mem = s.mem && (u.quad q).acc = (s.quad q).acc) = true := by decide
theorem witness_add_drain : (let q := placedQuad; let m : MatOp := { matCmd with code := .mdrain, a := objPtr 0x100, begun := true, fmt := 132620, stride := 16, zero := true }; let s : State := ((commanded m).modQuad q fun y => { y with acc := [[7, 8], [], [], []] }).holding [(globalAt (objPtr 0x100), bytesLE 4 100)]; let o := (s.op? 5).getD {}; (s.drainHead q).any (fun h => h.1 = 5 && h.2.1 = o && h.2.2 = m) && m.adds && !(s.quad q).poison.getD m.tile false && m.rows = 2 && m.cols = 2 && rowLen m.dfmt m.cols = 8 && (s.drainPlace o m).isNone && !s.matWaits 5 m o.thread (m.rowPtr 0) 8 true && !s.matWaits 5 m o.thread (m.rowPtr 1) 8 true && isOk ((s.giveUp 5).engineRead o.thread (m.rowPtr 0) 8) && isOk ((s.giveUp 5).engineRead o.thread (m.rowPtr 1) 8) && nexts (exec (.matrixDrain q) s) fun u => Memory.readNat u.mem (objPtr 0x100).toNat 4 = 107 && Memory.readNat u.mem (objPtr 0x104).toNat 4 = 8 && (u.quad q).acc.getD 0 [1] = [] && (u.cmd? 5).any (fun y => y.ended && y.err.isNone)) = true := by decide
theorem witness_command_signals : (let m : MatOp := { matCmd with code := .mmag, ended := true, nb := some 2 }; let s : State := commanded m; let o := (s.op? 5).getD {}; s.op? 5 = some o && o.body = .matrix m && o.ctr = some 4 && !o.closing && s.msgs = [] && m.shadow.isNone && s.resident o.thread.cohort && m.members.all (fun t => (s.thread t).dcs.getD 4 [] = [(5, false)]) && s.matOutcome o m ≠ some false && nexts (exec (.matrixCommandComplete 5) s) fun u => (u.quad m.quad).queues.all (fun l => !l.contains 5) && u.mem = s.mem && u.op? 5 = some { o with closing := true } && (u.thread placedThread).dc 4 = (s.thread placedThread).dc 4 && u.msgs = s.msgs.put s.nextId { op := some 5, body := .contribute o.thread.cohort 2 { member := true, flags := { err := false }, know := o.allEdges } }) = true := by decide
theorem witness_command_fails : (let m : MatOp := { matCmd with code := .mmag, ended := true, nb := some 2, a := objPtr 0x40, err := some (5, objPtr 0x8000) }; let s : State := commanded m; let o := (s.op? 5).getD {}; s.op? 5 = some o && o.body = .matrix m && o.ctr = some 4 && !o.closing && s.msgs = [] && m.shadow.isNone && s.resident o.thread.cohort && m.members.all (fun t => (s.thread t).dcs.getD 4 [] = [(5, false)]) && s.matOutcome o m ≠ some false && (s.thread placedThread).run ≠ .ended && decide ((s.thread placedThread).deferred.length < 16) && nexts (exec (.matrixCommandComplete 5) s) fun u => (u.quad m.quad).queues.all (fun l => !l.contains 5) && u.mem = s.mem && u.op? 5 = some { o with closing := true } && (u.thread placedThread).dc 4 = (s.thread placedThread).dc 4 && u.msgs = s.msgs.put s.nextId { op := some 5, body := .contribute o.thread.cohort 2 { member := true, flags := { err := true }, know := o.allEdges } } && (u.thread placedThread).deferred.any fun d => d.op = 5 && d.ctr = 4 && d.kind = .deferredEngine && d.nb = m.nb && d.rowprog = some m.progress && d.record = deferredRec .deferredEngine o 5 (objPtr 0x8000) m.a) = true := by decide
theorem witness_command_dropped : (let m : MatOp := { matCmd with code := .mmag, slot := some (3, 0), nb := some 2 }; let s : State := (commanded m).modCohort placedThread.cohort fun c => { c with slots := c.slots.set 3 { value := some false } }; let o := (s.op? 5).getD {}; s.op? 5 = some o && o.body = .matrix m && o.ctr = some 4 && !o.closing && s.msgs = [] && m.shadow.isNone && s.resident o.thread.cohort && m.members.all (fun t => (s.thread t).dcs.getD 4 [] = [(5, false)]) && s.matOutcome o m = some false && (s.quad m.quad).queues.any (fun l => l.head? = some 5) && nexts (exec (.matrixCommandComplete 5) s) fun u => (u.quad m.quad).queues.all (fun l => !l.contains 5) && u.mem = s.mem && u.op? 5 = some { o with closing := true } && (u.thread placedThread).dc 4 = (s.thread placedThread).dc 4 && u.msgs = s.msgs.put s.nextId { op := some 5, body := .contribute o.thread.cohort 2 { member := true, flags := { err := true }, know := o.allEdges } } && (u.thread placedThread).deferred = (s.thread placedThread).deferred) = true := by decide

/-! The Pump -/
theorem witness_pump_none : (let c := placedThread.cohort; let d := c.toDie; let s := between; let s1 := (s.startXfers d).xferWalks d; s1.partsOn d = [] && (s1.chooseVf d 0).isNone && decide (s1.staged d < 512) && nexts (exec (.pumpTransaction d ⟨0, .none⟩) s) fun u => u = s1.modDie d fun x => { x with deficit := [] }) = true := by decide
theorem witness_pump_full : (let c := placedThread.cohort; let d := c.toDie; let x : XferOp := { code := .send, dst := objPtr 0, src := objPtr 0x2000, len := 2 ^ 20, todo := [600], started := some 0, parts := (List.range 512).map fun i => { tran := i } }; let s : State := (between.under { ctr := some 4, body := .xfer x }).modDie d fun y => { y with queues := [(0, [5])] }; let s1 := (s.startXfers d).xferWalks d; 512 % ((s1.partsOn d).length + 1) = (s1.partsOn d).length && decide (512 ≤ s1.staged d) && nexts (exec (.pumpTransaction d ⟨512, .none⟩) s) fun u => u = s1) = true := by decide
theorem witness_transaction_begins : (let c := placedThread.cohort; let d := c.toDie; let x : XferOp := { code := .send, dst := objPtr 0x1010, src := objPtr 0x2000, len := 4096, todo := [1, 2] }; let s : State := ((between.under { ctr := some 4, body := .xfer x }).modDie d fun y => { y with queues := [(0, [5])] }).holding [(globalAt (objPtr 0x2000), bytesLE 2 0x0201)]; let s1 := (s.startXfers d).xferWalks d; s1.partsOn d = [] && decide (s1.staged d < 512) && (s1.chooseVf d 0).any (fun r => r.1 = 0) && (s1.pickOf d 0 0).any (fun r => r.2 = (5, 1)) && (s1.xfer? 5).any (fun r => !r.2.mc && !r.2.scaleIn) && nexts (exec (.pumpTransaction d ⟨0, .none⟩) s) fun u => u.mem = s.mem && (u.xfer? 5).any fun r => r.2.todo = [2] && r.2.parts.map (·.tran) = [1] && r.2.parts.all fun k => k.pos = 0 && k.data.take 3 = [1, 2, 0] && k.data.length = 0xFF0) = true := by decide
theorem witness_part_goes_on : (let c := placedThread.cohort; let d := c.toDie; let k : XferPart := { tran := 1, data := List.replicate 0xFF0 3 }; let x : XferOp := { code := .send, dst := objPtr 0x1010, src := objPtr 0x2000, len := 4096, todo := [2], started := some 0, parts := [k] }; let s : State := ((between.under { ctr := some 4, body := .xfer x }).modDie d fun y => { y with queues := [(0, [5])] }); let s1 := (s.startXfers d).xferWalks d; let o := (s1.op? 5).getD {}; (s1.partsOn d)[0]? = some (5, k) && (s1.partsOn d).length = 1 && (s1.xfer? 5).any (fun r => r.2 = x) && !x.mc && !x.scaleOut && !x.cut && x.unit k 1 = 4 && !s1.xferWriteWaits o.thread x.fork (ptrAdd x.dst ((x.piece (k.tran % 2 ^ 18)).1 + k.pos)) 4 && isOk ((s1.giveUp x.fork).partWrite o.thread (ptrAdd x.dst ((x.piece (k.tran % 2 ^ 18)).1 + k.pos)) k.pos (x.piece (k.tran % 2 ^ 18)).2 (x.partBytes k 4 []) x.fork o.allEdges false) && nexts (exec (.pumpTransaction d ⟨0, .none⟩) s) fun u => decide (u.byte (globalAt (objPtr 0x1013)) = (3 : Byte)) && decide (u.byte (globalAt (objPtr 0x1014)) = (0 : Byte)) && (u.op? 5) = some { o with body := .xfer { x with parts := [{ k with pos := 4 }] } }) = true := by decide
theorem witness_part_ends : (let c := placedThread.cohort; let d := c.toDie; let k : XferPart := { tran := 1, data := [1, 2, 3, 4] }; let x : XferOp := { code := .send, dst := objPtr 0x1010, src := objPtr 0x2000, len := 4, todo := [7], started := some 0, parts := [k] }; let s : State := ((between.under { ctr := some 4, body := .xfer x }).modDie d fun y => { y with queues := [(0, [5])] }); let s1 := (s.startXfers d).xferWalks d; let o := (s1.op? 5).getD {}; (s1.partsOn d)[0]? = some (5, k) && (s1.partsOn d).length = 1 && (s1.xfer? 5).any (fun r => r.2 = x) && !x.mc && !x.scaleOut && !x.cut && x.unit k 1 = 4 && !s1.xferWriteWaits o.thread x.fork (ptrAdd x.dst ((x.piece (k.tran % 2 ^ 18)).1 + k.pos)) 4 && isOk ((s1.giveUp x.fork).partWrite o.thread (ptrAdd x.dst ((x.piece (k.tran % 2 ^ 18)).1 + k.pos)) k.pos (x.piece (k.tran % 2 ^ 18)).2 (x.partBytes k 4 []) x.fork o.allEdges false) && nexts (exec (.pumpTransaction d ⟨0, .none⟩) s) fun u => decide (u.byte (globalAt (objPtr 0x1013)) = (4 : Byte)) && (u.xfer? 5).any fun r => r.2.wrote = 4 && r.2.todo = [7] && r.2.parts = []) = true := by decide
theorem witness_part_adds : (let c := placedThread.cohort; let d := c.toDie; let k : XferPart := { tran := 1, data := [5, 0, 0, 0] }; let x : XferOp := { code := .add, int := true, dst := objPtr 0x1010, src := objPtr 0x2000, len := 4, count := 1, sfmt := 12, dfmt := 12, todo := [7], started := some 0, parts := [k] }; let s : State := ((between.under { ctr := some 4, body := .xfer x }).modDie d fun y => { y with queues := [(0, [5])] }).holding [(globalAt (objPtr 0x1010), [2])]; let s1 := (s.startXfers d).xferWalks d; let o := (s1.op? 5).getD {}; (s1.partsOn d)[0]? = some (5, k) && (s1.partsOn d).length = 1 && (s1.xfer? 5).any (fun r => r.2 = x) && !x.mc && !x.scaleOut && !x.cut && x.unit k 1 = 4 && !s1.xferWriteWaits o.thread x.fork (ptrAdd x.dst ((x.piece (k.tran % 2 ^ 18)).1 + k.pos)) 4 && isOk ((s1.giveUp x.fork).xferRead o.thread (objPtr 0x1010) 4) && nexts (exec (.pumpTransaction d ⟨0, .none⟩) s) fun u => decide (u.byte (globalAt (objPtr 0x1010)) = (7 : Byte)) && (u.xfer? 5).any fun r => r.2.wrote = 4 && r.2.parts = []) = true := by decide
theorem witness_flit_dropped : (let c := placedThread.cohort; let d := c.toDie; let k : XferPart := { tran := 1, data := [1, 2, 3, 4] }; let x : XferOp := { code := .send, dst := objPtr 0x1010, src := objPtr 0x2000, len := 4, started := some 0, parts := [k] }; let s : State := { (between.under { ctr := some 4, body := .xfer x }).modDie d fun y => { y with queues := [(0, [5])] } with pod := [{ chip := 0, domain := 0 }, { chip := 1, domain := 0 }], objects := [((0, 1), { size := 2 ^ 21, extents := [{ holder := 1 }], pages := List.replicate 32 {} })] }; let s1 := (s.startXfers d).xferWalks d; (s1.partsOn d)[0]? = some (5, k) && (s1.xfer? 5).any (fun r => r.2 = x) && (s1.holderAt x.dst).bind (s1.portFor d) = some (d, 0) && nexts (exec (.pumpTransaction d ⟨0, .flit⟩) s) fun u => u = s1.modDie d fun y => { y with ports := y.ports.modify 0 fun p => { p with dropped := p.dropped + 1 } }) = true := by decide
theorem witness_transfer_leaves : (let c := placedThread.cohort; let d := c.toDie; let x : XferOp := { dst := objPtr 0, src := objPtr 0, len := 4, started := some 0, signalled := true }; let s : State := (between.under { ctr := some 4, body := .xfer x }).modDie c.toDie fun y => { y with queues := [(0, [5])] }; let o := (s.op? 5).getD {}; o.body = .xfer x && !x.cut && nexts (exec (.transferComplete 5) s) fun u => (u.op? 5).isNone && (u.die d).queues.all (fun p => !p.2.contains 5) && (u.thread placedThread).dc 4 = 0 && u.mem = s.mem) = true := by decide
theorem witness_signal_counts : (let h : DWord := BitVec.ofNat 64 (1 * 2 ^ 28 + 3); let dst : DWord := objPtr 0; let k : Contribution := { member := true }; let x : XferOp := { dst := objPtr 0, signals := 1, signalled := true }; let g : Msg := { body := .signal h (0, 0) dst k 5 }; let s : State := { ((between.under { ctr := some 4, body := .xfer x }).modCohort placedThread.cohort fun c => { c with nbs := c.nbs.set 3 { armed := true, members := 2, mleft := 2 } }) with msgs := [(4, g)] }; let o := (s.op? 5).getD {}; let c : CohortId := ⟨0, 0, 0, 1⟩; s.msg? 4 = some g && !s.fabricHeld 4 0 (birthOf h) && g.after.isNone && (s.pathDown 0 (birthOf h)).isNone && s.live c && (s.cohort c).killed.isNone && (s.obj? dst).any (fun b => b.realm = s.realmOf c) && nexts (exec (.signalAtTarget 4) s) fun u => (u.cohort c).nbs.getD 3 {} = ((s.cohort c).nbs.getD 3 {}).arrive k && (u.msg? 4).isNone && u.mem = s.mem) = true := by decide
theorem witness_signal_stranger : (let h : DWord := BitVec.ofNat 64 (1 * 2 ^ 28 + 3); let dst : DWord := mkPtr 0 9 0; let k : Contribution := { member := true }; let x : XferOp := { dst := objPtr 0, signals := 1, signalled := true }; let g : Msg := { body := .signal h (0, 0) dst k 5 }; let s : State := { ((between.under { ctr := some 4, body := .xfer x }).modCohort placedThread.cohort fun c => { c with nbs := c.nbs.set 3 { armed := true, members := 2, mleft := 2 } }) with msgs := [(4, g)] }; let o := (s.op? 5).getD {}; let c : CohortId := ⟨0, 0, 0, 1⟩; s.msg? 4 = some g && !s.fabricHeld 4 0 (birthOf h) && g.after.isNone && (s.pathDown 0 (birthOf h)).isNone && s.live c && (s.cohort c).killed.isNone && isGlobal dst && dst ≠ 0 && (s.obj? dst).isNone && nexts (exec (.signalAtTarget 4) s) fun u => u = (({ s with msgs := s.msgs.del 4 } : State).crossLink ⟨0, o.thread.cohort.die⟩ ⟨birthOf h, c.die⟩ 1 1).setOp 5 { o with body := .xfer { x with signals := x.signals - 1, err := some 3 } }) = true := by decide
theorem witness_signal_ended : (let h : DWord := BitVec.ofNat 64 (2 * 2 ^ 28 + 3); let dst : DWord := 0; let k : Contribution := { member := true }; let x : XferOp := { dst := objPtr 0, signals := 1, signalled := true }; let g : Msg := { body := .signal h (0, 0) dst k 5 }; let s : State := { ((between.under { ctr := some 4, body := .xfer x }).modCohort placedThread.cohort fun c => { c with nbs := c.nbs.set 3 { armed := true, members := 2, mleft := 2 } }) with msgs := [(4, g)] }; let o := (s.op? 5).getD {}; let c : CohortId := ⟨0, 0, 0, 2⟩; s.msg? 4 = some g && !s.fabricHeld 4 0 (birthOf h) && g.after.isNone && (s.pathDown 0 (birthOf h)).isNone && !s.live c && nexts (exec (.signalAtTarget 4) s) fun u => u = (({ s with msgs := s.msgs.del 4 } : State).crossLink ⟨0, o.thread.cohort.die⟩ ⟨birthOf h, c.die⟩ 1 1).setOp 5 { o with body := .xfer { x with signals := x.signals - 1, err := some 8 } }) = true := by decide
theorem witness_signal_killed : (let h : DWord := BitVec.ofNat 64 (1 * 2 ^ 28 + 3); let dst : DWord := 0; let k : Contribution := { member := true }; let x : XferOp := { dst := objPtr 0, signals := 1, signalled := true }; let g : Msg := { body := .signal h (0, 0) dst k 5 }; let s : State := { ((between.under { ctr := some 4, body := .xfer x }).modCohort placedThread.cohort fun c => { c with nbs := c.nbs.set 3 { armed := true, members := 2, mleft := 2 }, killed := some 6 }) with msgs := [(4, g)] }; let o := (s.op? 5).getD {}; let c : CohortId := ⟨0, 0, 0, 1⟩; s.msg? 4 = some g && !s.fabricHeld 4 0 (birthOf h) && g.after.isNone && (s.pathDown 0 (birthOf h)).isNone && (s.cohort c).killed.isSome && nexts (exec (.signalAtTarget 4) s) fun u => u = (({ s with msgs := s.msgs.del 4 } : State).crossLink ⟨0, o.thread.cohort.die⟩ ⟨birthOf h, c.die⟩ 1 1).setOp 5 { o with body := .xfer { x with signals := x.signals - 1, err := some 8 } }) = true := by decide
theorem witness_link_later_extent : (let x : XferOp := { code := .send, dst := objPtr 0x1FFFFC, src := objPtr 0, len := 8, started := some 7, todo := [0x1FF, 0x200] }; let cut := fun (y : Die) => { y with ports := List.replicate 12 { lanes := 0 } }; let s0 : State := (((((between.under { ctr := some 4, body := .xfer x }).modChip 0 fun h => { h with pathless := some 9 }).modDie ⟨0, 0⟩ cut).modDie ⟨0, 1⟩ cut).modDie ⟨0, 2⟩ cut).modDie ⟨0, 3⟩ cut; let s : State := { s0 with now := 360000009, pod := [{ chip := 0, domain := 0 }, { chip := 1, domain := 0 }], objects := [((0, 1), { size := 2 ^ 22, log2 := 21, extents := [{}, { holder := 1 }], pages := List.replicate 64 {} })] }; let o := (s.op? 5).getD {}; o.body = .xfer x && !o.closing && s.resident o.thread.cohort && s.xferDown o x = some (9, objPtr 0x200000) && x.begunParts = [] && nexts (exec (.linkTimeout 5) s) fun u => u = ({ s with msgs := [] } : State).finishXfer 5 o { x with parts := [] } (some (9, objPtr 0x200000)) false && (u.xfer? 5).isNone) = true := by decide
theorem witness_link_not_yet : (let x : XferOp := { code := .send, dst := objPtr 0x1FFFFC, src := objPtr 0, len := 8, started := some 7, todo := [0x1FF, 0x200] }; let cut := fun (y : Die) => { y with ports := List.replicate 12 { lanes := 0 } }; let s0 : State := (((((between.under { ctr := some 4, body := .xfer x }).modChip 0 fun h => { h with pathless := some 9 }).modDie ⟨0, 0⟩ cut).modDie ⟨0, 1⟩ cut).modDie ⟨0, 2⟩ cut).modDie ⟨0, 3⟩ cut; let s : State := { s0 with now := 360000008, pod := [{ chip := 0, domain := 0 }, { chip := 1, domain := 0 }], objects := [((0, 1), { size := 2 ^ 22, log2 := 21, extents := [{}, { holder := 1 }], pages := List.replicate 64 {} })] }; let o := (s.op? 5).getD {}; o.body = .xfer x && !o.closing && s.resident o.thread.cohort && (s.xferDown o x).isSome && nexts (exec (.linkTimeout 5) s) fun u => u = s) = true := by decide
theorem witness_link_reduction : (let x : XferOp := { code := .add, dst := objPtr 0, src := objPtr 0, len := 4, count := 1, red := some (0, 7), issued := 7, todo := [0] }; let cut := fun (y : Die) => { y with ports := List.replicate 12 { lanes := 0 } }; let s0 : State := (((((between.under { ctr := some 4, body := .xfer x }).modChip 0 fun h => { h with pathless := some 9 }).modDie ⟨0, 0⟩ cut).modDie ⟨0, 1⟩ cut).modDie ⟨0, 2⟩ cut).modDie ⟨0, 3⟩ cut; let s : State := { s0 with now := 360000009, pod := [{ chip := 0, domain := 0 }, { chip := 1, domain := 0 }], objects := [((0, 1), { size := 2 ^ 22, log2 := 21, extents := [{}, { holder := 1 }], pages := List.replicate 64 {} })] }; let o := (s.op? 5).getD {}; o.body = .xfer x && !o.closing && s.resident o.thread.cohort && s.xferDown o x = some (9, objPtr 0) && x.started.isNone && nexts (exec (.linkTimeout 5) s) fun u => (u.xfer? 5).isNone) = true := by decide
theorem witness_link_begun : (let x : XferOp := { code := .send, dst := objPtr 0, src := objPtr 0, len := 0x300000, started := some 7, todo := [0x200], parts := [{ tran := 0, pos := 4 }, { tran := 0x201, pos := 4 }] }; let cut := fun (y : Die) => { y with ports := List.replicate 12 { lanes := 0 } }; let s0 : State := (((((between.under { ctr := some 4, body := .xfer x }).modChip 0 fun h => { h with pathless := some 9 }).modDie ⟨0, 0⟩ cut).modDie ⟨0, 1⟩ cut).modDie ⟨0, 2⟩ cut).modDie ⟨0, 3⟩ cut; let s : State := { s0 with now := 360000009, pod := [{ chip := 0, domain := 0 }, { chip := 1, domain := 0 }], objects := [((0, 1), { size := 2 ^ 22, log2 := 21, extents := [{}, { holder := 1 }], pages := List.replicate 64 {} })] }; let o := (s.op? 5).getD {}; o.body = .xfer x && !o.closing && s.resident o.thread.cohort && (s.xferDown o x).any (fun y => y.1 = 9) && nexts (exec (.linkTimeout 5) s) fun u => (u.xfer? 5).any fun r => r.2.cut && r.2.err = some 9 && r.2.todo = [] && r.2.parts.map (·.tran) = [0]) = true := by decide
theorem witness_transfer_cut : (let x : XferOp := { dst := objPtr 0, src := objPtr 0, len := 4, nb := some 2, parts := [{ tran := 0, pos := 4 }, { tran := 1 }], todo := [2] }; let s : State := between.under { ctr := some 4, body := .xfer x }; let o := (s.op? 5).getD {}; let u := s.finishXfer 5 o x (some (2, objPtr 0)) false; !o.closing && x.begunParts ≠ [] && u = s.setOp 5 { o with body := .xfer { x with err := some 2, errAt := objPtr 0, todo := [], parts := x.begunParts, cut := true } }) = true := by decide
theorem witness_transfer_dropped : (let x : XferOp := { dst := objPtr 0, src := objPtr 0, len := 4, nb := some 2, parts := [{ tran := 1 }], todo := [2] }; let s : State := between.under { ctr := some 4, body := .xfer x }; let o := (s.op? 5).getD {}; let u := s.finishXfer 5 o x (some (2, objPtr 0)) false; !o.closing && x.begunParts = [] && (u.xfer? 5).isNone && (u.op? 5).isSome && u.msgs.any (fun m => m.2.op = some 5)) = true := by decide
theorem witness_entry_waits_for_end : (let c := placedThread.cohort; let d := c.toDie; let n : Entry := { dst := objPtr 0x4000, src := objPtr 0x8000, count := 4, ctrl := 39168, tphase := 5, tstep := 2, trig := 3, dstride := 16, sstride := BitVec.ofInt 32 (-16), repeat' := 0 }; let e : EntrySlot := { entry := n, thread := placedThread, fired := 1 }; let s := (between.modDie d fun y => { y with slots := [(2, e)] }).modCohort c fun y => { y with nbs := y.nbs.set 3 { phase := 5 } }; e.firing.isNone && n.trig / 128 % 2 = 0 && e.fired ≠ 0 && nexts (exec (.workEntryFire d 2) s) fun u => u = s) = true := by decide
theorem witness_entry_stays : (let c := placedThread.cohort; let d := c.toDie; let n : Entry := { dst := objPtr 0x4000, src := objPtr 0x8000, count := 4, ctrl := 39168, tphase := 5, tstep := 2, trig := 3, dstride := 16, sstride := BitVec.ofInt 32 (-16), repeat' := 0 }; let e : EntrySlot := { entry := n, thread := placedThread, firing := some 77 }; let s := (between.modDie d fun y => { y with slots := [(2, e)] }).modCohort c fun y => { y with nbs := y.nbs.set 3 { phase := 5 } }; (s.op? 77).isNone && !e.cancel && n.repeat' = 0 && nexts (exec (.workEntryRearm d 2) s) fun u => (Tab.get? (u.die d).slots 2).any fun y => y.firing.isNone && y.fired = 1 && y.entry.dst = ptrAdd n.dst 16 && y.entry.src = ptrAdd n.src (-16) && y.entry.tphase = 7) = true := by decide
theorem witness_entry_more : (let c := placedThread.cohort; let d := c.toDie; let n : Entry := { dst := objPtr 0x4000, src := objPtr 0x8000, count := 4, ctrl := 39168, tphase := 5, tstep := 2, trig := 131, dstride := 16, sstride := BitVec.ofInt 32 (-16), repeat' := 3 }; let e : EntrySlot := { entry := n, thread := placedThread, firing := some 77 }; let s := (between.modDie d fun y => { y with slots := [(2, e)] }).modCohort c fun y => { y with nbs := y.nbs.set 3 { phase := 5 } }; (s.op? 77).isNone && !e.cancel && e.fired + 1 ≠ n.repeat' && nexts (exec (.workEntryRearm d 2) s) fun u => (Tab.get? (u.die d).slots 2).any fun y => y.fired = 1) = true := by decide
theorem witness_entry_last : (let c := placedThread.cohort; let d := c.toDie; let n : Entry := { dst := objPtr 0x4000, src := objPtr 0x8000, count := 4, ctrl := 39168, tphase := 5, tstep := 2, trig := 131, dstride := 16, sstride := BitVec.ofInt 32 (-16), repeat' := 1 }; let e : EntrySlot := { entry := n, thread := placedThread, firing := some 77 }; let s := (between.modDie d fun y => { y with slots := [(2, e)] }).modCohort c fun y => { y with nbs := y.nbs.set 3 { phase := 5 } }; (s.op? 77).isNone && n.repeat' ≠ 0 && e.fired + 1 = n.repeat' && nexts (exec (.workEntryRearm d 2) s) fun u => (Tab.get? (u.die d).slots 2).isNone) = true := by decide
theorem witness_entry_cancelled : (let c := placedThread.cohort; let d := c.toDie; let n : Entry := { dst := objPtr 0x4000, src := objPtr 0x8000, count := 4, ctrl := 39168, tphase := 5, tstep := 2, trig := 131, dstride := 16, sstride := BitVec.ofInt 32 (-16), repeat' := 0 }; let e : EntrySlot := { entry := n, thread := placedThread, firing := some 77, cancel := true }; let s := (between.modDie d fun y => { y with slots := [(2, e)] }).modCohort c fun y => { y with nbs := y.nbs.set 3 { phase := 5 } }; (s.op? 77).isNone && e.cancel && nexts (exec (.workEntryRearm d 2) s) fun u => (Tab.get? (u.die d).slots 2).isNone) = true := by decide
theorem witness_post_slot : (let e : Entry := { dst := objPtr 0x4000 }; let p := objPtr 128; let s : State := (between.under { ctr := some 4, body := .post p false none none 4 none }).modDie ⟨0, 0⟩ fun x => { x with slots := [(0, {}), (1, {})] }; let o := (s.op? 5).getD {}; let u := s.armEntry 5 o p none 4 e; s.op? 5 = some o && (Tab.get? (s.die ⟨0, 0⟩).slots 2).isNone && (List.range 2).all fun j => (Tab.get? (s.die ⟨0, 0⟩).slots j).isSome && s.msgs = [] && (Tab.get? (u.die ⟨0, 0⟩).slots 2).any (fun x => x.entry = e && x.addr = p && x.fired = 0 && x.firing.isNone) && (u.thread placedThread).reg 4 = 2 && (u.op? 5).isNone) = true := by decide
theorem witness_reduction_spoiled : (let x : XferOp := { code := .add, dst := objPtr 0x4000, src := objPtr 0x100, count := 1, len := 4, red := some (0, 7), todo := [4], fork := 1 }; let y : XferOp := { x with src := objPtr 0x200 }; let r : RedSlot := { rcount := 2, ready := [5], bad := true, came := [(⟨0, 0⟩, 1)], lost := 0 }; let s : State := { between with ops := [(5, { thread := placedThread, body := .xfer x }), (6, { thread := placedThread, body := .xfer y })], redSlots := [((0, 7), r)], nextId := 7 }; (s.xfer? 5).any (fun z => z.2 = x) && x.begunParts = [] && nexts (exec (.reductionSlotSum 0 7) s) fun u => (u.redSlots.get? (0, 7)).any (fun q => q.ready = [] && q.bad) && (u.xfer? 5).isNone) = true := by decide
theorem witness_reduction_spoiled_last : (let x : XferOp := { code := .add, dst := objPtr 0x4000, src := objPtr 0x100, count := 1, len := 4, red := some (0, 7), todo := [4], fork := 1 }; let y : XferOp := { x with src := objPtr 0x200 }; let r : RedSlot := { rcount := 2, ready := [5], bad := true, came := [(⟨0, 0⟩, 1)], lost := 1 }; let s : State := { between with ops := [(5, { thread := placedThread, body := .xfer x }), (6, { thread := placedThread, body := .xfer y })], redSlots := [((0, 7), r)], nextId := 7 }; (s.xfer? 5).any (fun z => z.2 = x) && nexts (exec (.reductionSlotSum 0 7) s) fun u => (u.redSlots.get? (0, 7)).any (fun q => q.ready = [] && !q.bad) && (u.xfer? 5).isNone) = true := by decide

/-! Launch, crews and delivery -/
/-- The queued launch, whose frames are gone: every die is full. -/
def frameGone : State := { queued with dies := (List.range 4).map fun d => (⟨0, d⟩, fullDie) }
theorem witness_frameless : ∃ g, frameGone.placement 0 0 = none ∧ frameGone.frameless 0 0 = some (2, g) := by
  have h : ∀ c, c = (⟨0, 0, 0⟩ : CoreId) → frameGone.framesFor 0 0 0 smallLaunch [c] = false := by
    rintro c rfl
    unfold State.framesFor
    rw [List.all_eq_false]
    refine ⟨0, by decide, ?_⟩
    dsimp only
    rw [show ((([⟨0, 0, 0⟩] : List CoreId).filter fun c => c.die = 0).map fun c => smallLaunch.frames (frameGone.shareOf c 0).length).foldl (· + ·) 0
      = (((([⟨0, 0, 0⟩] : List CoreId).filter fun c => c.die = 0).map fun c => smallLaunch.frames (frameGone.shareOf c 0).length).foldl (· + ·) 0 - 1) + 1 by decide]
    rw [allocFrames_none _ _ _ _ _ (fun f hf => by exact fullDie_taken f hf)]
    decide
  have hn : frameGone.nextCores 0 (frameGone.grid 0 2) = none := by
    unfold State.nextCores
    rw [show frameGone.readyCores 0 (frameGone.grid 0 2) = some ([⟨0, 0, 0⟩], [⟨0, 0, 0⟩], [⟨0, 0, 0⟩]) by decide]
    rw [Option.bind_some]
    dsimp only
    rw [if_neg (by decide), List.find?_cons_of_neg (by rw [show (frameGone.grid 0 2).vf = 0 from rfl, show (frameGone.grid 0 2).part = 0 from rfl, show (frameGone.grid 0 2).launch = smallLaunch from rfl, h _ rfl]; decide)]
    rfl
  refine ⟨frameGone.grid 0 2, ?_, ?_⟩
  · unfold State.placement
    rw [show frameGone.headLaunch 0 0 = some (2, frameGone.grid 0 2) by decide, Option.bind_some]
    dsimp only
    rw [hn, Option.map_none, ite_self]
  · unfold State.frameless
    rw [show frameGone.headLaunch 0 0 = some (2, frameGone.grid 0 2) by decide, Option.bind_some]
    dsimp only
    rw [hn]
    decide
theorem witness_launch_unread : (let p := mkPtr 0 9 128; let s : State := (between.under { ctr := some 4, body := .launchq p 4 true }).modVf 0 0 fun v => { v with enable := true }; let o := (s.op? 5).getD {}; let c := placedThread.cohort; let lv := effScope (s.launchOf c).ladder 5; let know := s.clock o.thread 5 o.know; let s2 := s.widen o.thread lv know; s.op? 5 = some o && o.body = .launchq p 4 true && o.held.isNone && s.ops.all (fun q => q.1 ≥ 5) && s.earlierComplete o.thread 5 lv && !s2.deviceWaits 0 0 p 128 && (s.vf 0 0).enable && (s.vf 0 0).busy.isNone && !isOk (s2.launchRecord o.thread p) && isGlobal p && decide (s.serveLaunch 5 = (s2.landLaunch 5 o 4 (2 ^ 28 + 12 * 256)).objectUse 0 0 p 128) && ((s.serveLaunch 5).thread placedThread).reg 4 = 0x10000C00) = true := by decide
theorem witness_launch_refused : (let p := objPtr 128; let s : State := ((between.under { ctr := some 4, body := .launchq p 4 true }).holding [(globalAt p, bytesLE 128 0)]).modVf 0 0 fun v => { v with enable := true }; let o := (s.op? 5).getD {}; let c := placedThread.cohort; let lv := effScope (s.launchOf c).ladder 5; let know := s.clock o.thread 5 o.know; let s2 := s.widen o.thread lv know; s.op? 5 = some o && o.body = .launchq p 4 true && o.held.isNone && s.ops.all (fun q => q.1 ≥ 5) && s.earlierComplete o.thread 5 lv && !s2.deviceWaits 0 0 p 128 && (s.vf 0 0).enable && (s.vf 0 0).busy.isNone && isOk (s2.launchRecord o.thread p) && !s2.deviceWaits 0 0 0 0 && isErr (s2.validate 0 0 0 (Launch.ofBytes (bytesLE 128 0))) 2 && let x := Launch.ofBytes (bytesLE 128 0); decide (s.serveLaunch 5 = s2.argsUse 0 0 0 x (((s2.rejectLaunch 0 0 0 x 2 know).landLaunch 5 o 4 (2 ^ 28 + 2 * 256)).objectUse 0 0 p 128))) = true := by decide
theorem witness_packet_skipped : (let p := objPtr 0; let s : State := (between.holding [(globalAt p, [2]), (globalAt p + 128, smallRecord)]).modVf 0 0 fun v => { v with srbase := p, srcfg := 0x80000004, srprod := 1, enable := true }; let v := s.vf 0 0; let prog : Program := {}; let used := fun (u : State) => (u.modVf 0 0 fun x => { x with srcons := x.srcons + 1 }).objectUse 0 0 p 4; s.ringReady 0 0 && !s.deviceWaits 0 0 p 256 && isOk (s.objectRead 0 0 p 4) && nexts (exec (.packetConsume 0 ⟨0, prog⟩) s) fun u => u = used s) = true := by decide
theorem witness_packet_refused : (let p := objPtr 0; let s : State := (between.holding [(globalAt p, [1]), (globalAt p + 128, bytesLE 128 0)]).modVf 0 0 fun v => { v with srbase := p, srcfg := 0x80000004, srprod := 1, enable := true }; let v := s.vf 0 0; let prog : Program := {}; let used := fun (u : State) => (u.modVf 0 0 fun x => { x with srcons := x.srcons + 1 }).objectUse 0 0 p 4; s.ringReady 0 0 && !s.deviceWaits 0 0 p 256 && isOk (s.objectRead 0 0 p 4) && !s.symbolsWait 0 0 prog && isErr (s.validate 0 0 v.part (Launch.ofBytes (bytesLE 128 0))) 2 && let x := Launch.ofBytes (bytesLE 128 0); nexts (exec (.packetConsume 0 ⟨0, prog⟩) s) fun u => u = s.argsUse 0 0 v.part x ((used (s.rejectLaunch 0 0 v.part x 2 [])).objectUse 0 0 (ptrAdd p 0x80) 128)) = true := by decide
theorem witness_packet_symbols : (let s := { ringing with symbols := [((7, 1), (0, 1))] }; !s.symbolsWait 0 0 { id := 7, decls := [chipDeclared] } && !ringing.symbolsWait 0 0 { id := 7, decls := [{ name := 1, size := 0 }] } && !ringing.deviceWaits 0 0 smallLaunch.args (4 * smallLaunch.nargs)) = true := by decide
theorem witness_cohort_done : (let c := placedThread.cohort; let s0 := (between.tweak fun x => { x with run := .ended }); let s : State := { s0 with pins := [(9, { cohort := c, scope := 1 })] }; s.live c && s.awake c && s.performing c = [] && nexts (exec (.cohortEnd c) s) fun u => !u.live c && (u.cohort c).tiles = [] && u.pins = [] && (u.grid 0 1).done = (s.grid 0 1).done + 1) = true := by decide
theorem witness_former_groups : (let q := placedQuad; let t := placedThread; let v : ThreadId := ⟨t.cohort, 1⟩; let s0 := ((between.holding [(globalAt (objPtr 0), bytesLE 8 0x303ffff000000000 ++ bytesLE 8 0x039C000000000000)]).modQuad placedQuad fun q => { q with bundles := [] }).tweak fun x => { x with run := .ready }; let s : State := (s0.setThread v { s0.thread t with seq := 9 }).modCohort t.cohort fun c => { c with threads := 2 }; let r := s.refreshQuad q; (r.threadsOn q).filter r.eligible = [t, v] && r.ahead t v && !r.ahead v t && match r.fetchClause t.cohort (r.thread t).pc with | .ok (w, ws) => ws = [0x039C000000000000] && (decodeClause (r.launchOf t.cohort).regs (r.cohort t.cohort).slots.length (r.launchOf t.cohort).tiles (Header.ofWord w) ws 0).isNone | _ => false && nexts (exec (.formBundle q) s) fun u => (u.quad q).bundles.map (fun e => (e.1, e.2.threads, e.2.pc, e.2.word)) = [(0, [t, v], objPtr 0, 0)] && (u.thread v).run = .issuing) = true := by decide
theorem witness_former_crew : (let q := placedQuad; let t := placedThread; let v : ThreadId := ⟨t.cohort, 1⟩; let s0 := ((between.holding [(globalAt (objPtr 0), bytesLE 8 0x30BFFFF000000000 ++ bytesLE 8 0x039C000000000000)]).modQuad placedQuad fun q => { q with bundles := [] }).tweak fun x => { x with run := .rendezvous }; let s : State := (s0.setThread v { s0.thread t with seq := 9 }).modCohort t.cohort fun c => { c with threads := 2 }; let r := s.refreshQuad q; (r.threadsOn q).filter r.eligible = [t, v] && r.ahead t v && !r.ahead v t && match r.fetchClause t.cohort (r.thread t).pc with | .ok (w, ws) => ws = [0x039C000000000000] && (decodeClause (r.launchOf t.cohort).regs (r.cohort t.cohort).slots.length (r.launchOf t.cohort).tiles (Header.ofWord w) ws 0).isNone | _ => false && nexts (exec (.formBundle q) s) fun u => (u.quad q).bundles.map (fun e => (e.1, e.2.threads, e.2.pc, e.2.word)) = [(0, [t, v], objPtr 0, 0)] && (u.thread v).run = .issuing) = true := by decide
theorem witness_former_same_lane : (let q := placedQuad; let t := placedThread; let v : ThreadId := ⟨t.cohort, 32⟩; let s0 := ((between.holding [(globalAt (objPtr 0), bytesLE 8 0x303ffff000000000 ++ bytesLE 8 0x039C000000000000)]).modQuad placedQuad fun q => { q with bundles := [] }).tweak fun x => { x with run := .ready }; let s : State := (s0.setThread v { s0.thread t with seq := 9 }).modCohort t.cohort fun c => { c with threads := 33 }; let r := s.refreshQuad q; (r.threadsOn q).filter r.eligible = [t, v] && r.ahead t v && !r.ahead v t && nexts (exec (.formBundle q) s) fun u => (u.quad q).bundles.map (fun e => e.2.threads) = [[t]]) = true := by decide
theorem witness_watchdog_framed : (let c := placedThread.cohort; let t := placedThread; let u := otherThread; let pc := objPtr 0; let k : CrewTimer := { crew := 0, pc := pc, since := 5 }; let s1 := ((world 0).setThread u { (world 0).thread t with pc := objPtr 0x800, run := .blocked }).tweak fun x => { x with run := .rendezvous }; let s2 := (s1.setGrid 0 1 { s1.grid 0 1 with launch := { (s1.grid 0 1).launch with priv' := 512 } }).modCohort c fun x => { x with timers := [k], threads := 2 }; let s : State := { s2 with issuing := none, now := 36000006 }; (s.cohort c).timers.find? (fun k => k.crew = 0 && k.pc = pc) = some k && s.awake c && s.crewOf ⟨c, 0⟩ = [t, u] && (s.thread t).standsAt pc && !(s.thread u).standsAt pc && decide (s.wdogLimit c < s.now - k.since) && isOk (s.fetchClause c pc) && decide (s.wdogLimit c = 36000000) && (match s.fetchClause c pc with | .ok (w, _) => nexts (exec (.progressWatchdog c 0 pc) s) (fun z => z = (((s.stopTimer c 0 pc).store (privateAt t 256) ((List.range 32).flatMap fun n => bytesLE 8 (if n = 1 then (s.thread u).pc.toNat else 0))).takeTrap t { kind := .watchdog, record := trapRec .watchdog 0 0 pc (BitVec.ofNat 64 (1 + 2 ^ 32 * 0)) pc 0 2 false true, point := { pc := pc, word := 0, next := 1, count := (Header.ofWord w).count, kind := .header } })) | .error _ => false)) = true := by decide
theorem witness_watchdog_unmet : (let c := placedThread.cohort; let t := placedThread; let u := otherThread; let pc := objPtr 0; let k : CrewTimer := { crew := 0, pc := pc, since := 5 }; let s1 := ((world 0).setThread u { (world 0).thread t with pc := objPtr 0, run := .blocked }).tweak fun x => { x with run := .rendezvous }; let s2 := (s1.setGrid 0 1 { s1.grid 0 1 with launch := { (s1.grid 0 1).launch with priv' := 0 } }).modCohort c fun x => { x with timers := [k], threads := 2 }; let s : State := { s2 with issuing := none, now := 36000006 }; (s.cohort c).timers.find? (fun k => k.crew = 0 && k.pc = pc) = some k && s.awake c && s.crewOf ⟨c, 0⟩ = [t, u] && (s.thread t).standsAt pc && !(s.thread u).standsAt pc && decide (s.wdogLimit c < s.now - k.since) && isOk (s.fetchClause c pc) && decide (s.wdogLimit c = 36000000) && (match s.fetchClause c pc with | .ok (w, _) => nexts (exec (.progressWatchdog c 0 pc) s) (fun z => z = ((s.stopTimer c 0 pc).takeTrap t { kind := .watchdog, record := trapRec .watchdog 0 0 pc (BitVec.ofNat 64 (1 + 2 ^ 32 * 2)) pc 0 2 false false, point := { pc := pc, word := 0, next := 1, count := (Header.ofWord w).count, kind := .header } })) | .error _ => false)) = true := by decide
theorem witness_fault_above_threshold : (let t := placedThread; let d : Deferred := { op := 9, ctr := 1, kind := .memoryFault, dst := [], record := trapRec .memoryFault 2 0 (objPtr 0) 0 0 0 0 false false }; let s0 := ((world 0).holding [(globalAt (objPtr 0), bytesLE 8 0x303ffcf000000000 ++ bytesLE 8 0x039C000000000000), (globalAt (objPtr 0x1000), (List.range 16).flatMap fun _ => bytesLE 8 (objPtr 0x2000).toNat)]).tweak fun x => { x with deferred := [d], run := .blocked }; let s : State := ({ s0 with issuing := none } : State).modVf 0 0 fun v => { v with tvbase := objPtr 0x1000 }; (s.thread t).deferred = [d] && !(s.thread t).handler && (s.thread t).raised.isNone && s.awake t.cohort && !s.stopping t.cohort && (s.thread t).run = .blocked && !(s.thread t).inside && (match s.fetchClause t.cohort (s.thread t).pc with | .ok (w, ws) => !clauseBad (s.thread t).pc (Header.ofWord w) ws && decide ((Header.ofWord w).dcwait.getD 1 7 = 1) && decide (d.after < 1) | _ => false) && nexts (exec (.deferredFaultDelivery t) s) fun u => u = s) = true := by decide
theorem witness_fault_at_threshold : (let t := placedThread; let d : Deferred := { op := 9, ctr := 1, kind := .memoryFault, dst := [], record := trapRec .memoryFault 2 0 (objPtr 0) 0 0 0 0 false false, after := 1 }; let s0 := ((world 0).holding [(globalAt (objPtr 0), bytesLE 8 0x303ffcf000000000 ++ bytesLE 8 0x039C000000000000), (globalAt (objPtr 0x1000), (List.range 16).flatMap fun _ => bytesLE 8 (objPtr 0x2000).toNat)]).tweak fun x => { x with deferred := [d], run := .blocked }; let s : State := ({ s0 with issuing := none } : State).modVf 0 0 fun v => { v with tvbase := objPtr 0x1000 }; (s.thread t).deferred = [d] && !(s.thread t).handler && (s.thread t).raised.isNone && s.awake t.cohort && !s.stopping t.cohort && (s.thread t).run = .blocked && !(s.thread t).inside && (match s.fetchClause t.cohort (s.thread t).pc with | .ok (w, ws) => !clauseBad (s.thread t).pc (Header.ofWord w) ws && decide ((Header.ofWord w).dcwait.getD 1 7 = 1) && decide (1 ≤ d.after) | _ => false) && s.mayBegin t && !s.owes t && !s.vectorWaits t.cohort d.kind.code && s.vector t.cohort d.kind.code = some (objPtr 0x2000) && nexts (exec (.deferredFaultDelivery t) s) fun u => (u.thread t).deferred = [] && (u.thread t).handler && (u.thread t).pc = objPtr 0x2000 && (u.thread t).faults = d.record && (u.thread t).point = { pc := objPtr 0, word := 0, next := 1, count := (Header.ofWord 0x303ffcf000000000).count, kind := .header } && u.mem = s.mem) = true := by decide
theorem witness_fault_at_arrival : (let t := placedThread; let d : Deferred := { op := 9, ctr := 1, kind := .memoryFault, dst := [], record := trapRec .memoryFault 2 0 (objPtr 0) 0 0 0 0 false false, nb := some 2 }; let s0 := ((world 0).holding [(globalAt (objPtr 0), bytesLE 8 0x303ffff012000000 ++ bytesLE 8 0x039C000000000000), (globalAt (objPtr 0x1000), (List.range 16).flatMap fun _ => bytesLE 8 (objPtr 0x2000).toNat)]).tweak fun x => { x with deferred := [d], run := .blocked }; let s : State := ({ s0 with issuing := none } : State).modVf 0 0 fun v => { v with tvbase := objPtr 0x1000 }; (s.thread t).deferred = [d] && !(s.thread t).handler && (s.thread t).raised.isNone && s.awake t.cohort && !s.stopping t.cohort && (s.thread t).run = .blocked && !(s.thread t).inside && (match s.fetchClause t.cohort (s.thread t).pc with | .ok (w, ws) => !clauseBad (s.thread t).pc (Header.ofWord w) ws && decide ((Header.ofWord w).dcwait.getD 1 7 = 7) && (Header.ofWord w).nbw && (Header.ofWord w).nbid = 2 | _ => false) && s.mayBegin t && !s.owes t && !s.vectorWaits t.cohort d.kind.code && s.vector t.cohort d.kind.code = some (objPtr 0x2000) && nexts (exec (.deferredFaultDelivery t) s) fun u => (u.thread t).deferred = [] && (u.thread t).handler && (u.thread t).pc = objPtr 0x2000 && (u.thread t).faults = d.record && (u.thread t).point = { pc := objPtr 0, word := 0, next := 1, count := (Header.ofWord 0x303ffff012000000).count, kind := .header } && u.mem = s.mem) = true := by decide
theorem witness_fault_other_arrival : (let t := placedThread; let d : Deferred := { op := 9, ctr := 1, kind := .memoryFault, dst := [], record := trapRec .memoryFault 2 0 (objPtr 0) 0 0 0 0 false false, nb := some 3 }; let s0 := ((world 0).holding [(globalAt (objPtr 0), bytesLE 8 0x303ffff012000000 ++ bytesLE 8 0x039C000000000000), (globalAt (objPtr 0x1000), (List.range 16).flatMap fun _ => bytesLE 8 (objPtr 0x2000).toNat)]).tweak fun x => { x with deferred := [d], run := .blocked }; let s : State := ({ s0 with issuing := none } : State).modVf 0 0 fun v => { v with tvbase := objPtr 0x1000 }; (s.thread t).deferred = [d] && !(s.thread t).handler && (s.thread t).raised.isNone && s.awake t.cohort && !s.stopping t.cohort && (s.thread t).run = .blocked && !(s.thread t).inside && (match s.fetchClause t.cohort (s.thread t).pc with | .ok (w, ws) => !clauseBad (s.thread t).pc (Header.ofWord w) ws && decide ((Header.ofWord w).dcwait.getD 1 7 = 7) && (Header.ofWord w).nbw && (Header.ofWord w).nbid = 2 | _ => false) && nexts (exec (.deferredFaultDelivery t) s) fun u => u = s) = true := by decide

/-! Functions, windows and frames -/
theorem witness_report_host : (let s : State := (world 0x03DC020180002000).load (pairAt 6 (mkPtr 0xFFE 1 0)); let w := BitVec.ofNat 64 0x03DC020180002000; let f := Fields.ofWord w 0; let b := stoodBundle w; let t := placedThread; issuesCheck s (.keyqReport f) f b && (s.thread t).src64 f.sa = some (mkPtr 0xFFE 1 0) && birthOf (mkPtr 0xFFE 1 0) = 0xFFE && nexts (exec (.keyqReport f) s) fun u => u = ((s.quiet.takeTrap t { kind := .memoryFault, record := trapRec .memoryFault 0x12 b.word b.pc (mkPtr 0xFFE 1 0) 0 0 0 false false, point := b.point .word false }) : State).moveOn (.keyqReport f) placedQuad 0 [t]) = true := by decide
theorem witness_report_cistern : (let s : State := (world 0x03DC020180002000).load (pairAt 6 (mkPtr 0xFFF 1 0)); let w := BitVec.ofNat 64 0x03DC020180002000; let f := Fields.ofWord w 0; let b := stoodBundle w; let t := placedThread; issuesCheck s (.keyqReport f) f b && (s.thread t).src64 f.sa = some (mkPtr 0xFFF 1 0) && serialOf (mkPtr 0xFFF 1 0) = 1 && nexts (exec (.keyqReport f) s) fun u => u = ((s.quiet.takeTrap t { kind := .memoryFault, record := trapRec .memoryFault 0x12 b.word b.pc (mkPtr 0xFFF 1 0) 0 0 0 false false, point := b.point .word false }) : State).moveOn (.keyqReport f) placedQuad 0 [t]) = true := by decide
theorem witness_report_misaligned : (let s : State := (world 0x03DC020180002000).load (pairAt 6 (objPtr 32)); let w := BitVec.ofNat 64 0x03DC020180002000; let f := Fields.ofWord w 0; let b := stoodBundle w; let t := placedThread; issuesCheck s (.keyqReport f) f b && (s.thread t).src64 f.sa = some (objPtr 32) && isGlobal (objPtr 32) && nexts (exec (.keyqReport f) s) fun u => u = ((s.quiet.takeTrap t { kind := .memoryFault, record := trapRec .memoryFault 0x10 b.word b.pc (objPtr 32) 0 0 0 false false, point := b.point .word false }) : State).moveOn (.keyqReport f) placedQuad 0 [t]) = true := by decide
theorem witness_report_past_object : (let s : State := (world 0x03DC020180002000).load (pairAt 6 (objPtr (2 ^ 21 - 8128))); let w := BitVec.ofNat 64 0x03DC020180002000; let f := Fields.ofWord w 0; let b := stoodBundle w; let t := placedThread; issuesCheck s (.keyqReport f) f b && (s.thread t).src64 f.sa = some (objPtr (2 ^ 21 - 8128)) && (s.obj? (objPtr (2 ^ 21 - 8128))).any (fun o => o.realm = s.realmOf t.cohort && decide (o.size < 2 ^ 21 - 8128 + 8192)) && nexts (exec (.keyqReport f) s) fun u => u = ((s.quiet.takeTrap t { kind := .memoryFault, record := trapRec .memoryFault 0x11 b.word b.pc (objPtr (2 ^ 21 - 8128)) 0 0 0 false false, point := b.point .word false }) : State).moveOn (.keyqReport f) placedQuad 0 [t]) = true := by decide
theorem witness_report_past_private : (let s : State := (world 0x03DC020180002000).load (pairAt 6 (mkPtr 0xFFF 0 57408)); let w := BitVec.ofNat 64 0x03DC020180002000; let f := Fields.ofWord w 0; let b := stoodBundle w; let t := placedThread; issuesCheck s (.keyqReport f) f b && (s.thread t).src64 f.sa = some (mkPtr 0xFFF 0 57408) && decide ((s.launchOf t.cohort).priv' < 57408 + 8192) && nexts (exec (.keyqReport f) s) fun u => u = ((s.quiet.takeTrap t { kind := .memoryFault, record := trapRec .memoryFault 0x11 b.word b.pc (mkPtr 0xFFF 0 57408) 0 0 0 false false, point := b.point .word false }) : State).moveOn (.keyqReport f) placedQuad 0 [t]) = true := by decide
theorem witness_window_scrubbing : (let s : State := ((between.setGrant 0 2 { state := .scrubbing, serial := 9, frames := [3], ctl := 1, realmA := 5 }).holding [(windowAt 0 2 1 5, [7])]).modDie ⟨0, 0⟩ fun d => { d with frames := [(3, 0), (4, 0)] }; let g := s.grant 0 2; g.state = .scrubbing && Memory.wf s.mem && (s.chip 0).grants = [(2, g)] && s.window? (mkPtr 0 9 0) = some 2 && isErr (s.windowOf placedThread (mkPtr 0 9 0)) 1 && (g.imageOf (s.realmOf placedThread.cohort)).isNone && nexts (exec (.windowScrubComplete 0 2) s) fun u => u.grant 0 2 = { ctl := g.ctl, realmA := g.realmA, realmB := g.realmB } && decide (u.byte (windowAt 0 2 1 5) = (0 : Byte)) && (u.die ⟨0, 0⟩).frames.map (·.1) = [4]) = true := by decide
theorem witness_window_begins_scrub : (let s : State := between.setGrant 0 2 { state := .opened, serial := 9 }; let g := s.grant 0 2; s.ops.all (fun o => !o.2.inWindow 0 g.serial) && nexts (exec (.windowScrubComplete 0 2) s) fun u => u = s.setGrant 0 2 { g with state := .scrubbing }) = true := by decide
theorem witness_kill_ends : (let m : Move := { obj := (0, 1), ext := 0, src := 0, dest := 1, who := (0, 0) }; let n : Move := { m with going := true }; let s0 := (between.setVf 0 0 { srprod := 9 }).modCohort placedThread.cohort fun c => { c with vf := 0 }; let s : State := { s0 with moves := [(3, m), (4, n)] }; (s.vf 0 0).busy.isNone && s.live placedThread.cohort && List.map (fun (m : Nat × Move) => m.1) (s.discardMoves 0 0).moves = [4] && ((s.cutCohort placedThread.cohort 6).cohort placedThread.cohort).killed = some 6 && ((s.discardRing 0 0).vf 0 0).srcons = 9) = true := by decide
theorem witness_kill_of_none : (let s : State := State.reset.modVf 0 3 fun v => { v with srprod := 9 }; (s.vf 0 3).busy.isNone && s.cohortsIn 0 3 = [] && nexts (exec (.vfctlReset 0 3) s) fun u => (u.vf 0 3).busy = some s.now && (u.vf 0 3).srcons = 9 && (u.vf 0 3).resetting) = true := by decide
theorem witness_reclaim_resets : (let s : State := between.setVf 0 0 { busy := some 3, resetting := true, tvbase := 128, weight := 5, enable := true, realm := 6, srprod := 4 }; s.opsIn 0 0 = [] && nexts (exec (.killReclaim 0 0) s) fun u => (u.vf 0 0).busy.isNone && (u.vf 0 0).ctx = .running && u.objects = [] && !(u.vf 0 0).enable && (u.vf 0 0).tvbase = 0 && (u.vf 0 0).srprod = 0 && (u.vf 0 0).weight = 1 && (u.vf 0 0).affinity = 0x00404800 && (u.vf 0 0).realm = 6 && (u.cohort placedThread.cohort).ended) = true := by decide
theorem witness_frame_unchecked : (let c : CoreId := ⟨0, 0, 0⟩; let v : Vf := { enable := true, lport := 9 }; let f : Frame := { port := 0, checked := false, udpPort := 9, data := [0, 0, 0, 0, 6, 0, 0, 0, 10, 11, 12] }; let s : State := (between.modChip 0 fun h => { h with vfs := [(0, v)] }).modCore c fun x => x.setRing 0 0 { cfg := 0x8001000300000010, prod := 2, cons := 1 }; let r := (s.core c).ring 0 0; Memory.wf s.mem && (s.chip 0).vfs = [(0, v)] && v.lport = f.udpPort && !f.checked && nexts (exec (.frameReceived 0 f) s) fun u => decide (u = s)) = true := by decide
theorem witness_frame_short : (let c : CoreId := ⟨0, 0, 0⟩; let v : Vf := { enable := true, lport := 9 }; let f : Frame := { port := 0, checked := true, udpPort := 9, data := [0, 0, 0, 0, 6] }; let s : State := (between.modChip 0 fun h => { h with vfs := [(0, v)] }).modCore c fun x => x.setRing 0 0 { cfg := 0x8001000300000010, prod := 2, cons := 1 }; let r := (s.core c).ring 0 0; Memory.wf s.mem && (s.chip 0).vfs = [(0, v)] && v.lport = f.udpPort && decide (f.data.length < 8) && nexts (exec (.frameReceived 0 f) s) fun u => decide (u = s)) = true := by decide
theorem witness_frame_no_core : (let c : CoreId := ⟨0, 0, 0⟩; let v : Vf := { enable := true, lport := 9 }; let f : Frame := { port := 0, checked := true, udpPort := 9, data := [0, 50, 0, 0, 6, 0, 0, 0, 10] }; let s : State := (between.modChip 0 fun h => { h with vfs := [(0, v)] }).modCore c fun x => x.setRing 0 0 { cfg := 0x8001000300000010, prod := 2, cons := 1 }; let r := (s.core c).ring 0 0; Memory.wf s.mem && (s.chip 0).vfs = [(0, v)] && v.lport = f.udpPort && landingHeader f.data = some (0, 50, 0, 6, false) && nexts (exec (.frameReceived 0 f) s) fun u => decide (u = s)) = true := by decide
theorem witness_frame_no_share : (let c : CoreId := ⟨0, 0, 0⟩; let v : Vf := { enable := true, lport := 9 }; let f : Frame := { port := 0, checked := true, udpPort := 9, data := [0, 1, 0, 0, 6, 0, 0, 0, 10] }; let s : State := (between.modChip 0 fun h => { h with vfs := [(0, v)] }).modCore c fun x => x.setRing 0 0 { cfg := 0x8001000300000010, prod := 2, cons := 1 }; let r := (s.core c).ring 0 0; Memory.wf s.mem && (s.chip 0).vfs = [(0, v)] && v.lport = f.udpPort && landingHeader f.data = some (0, 1, 0, 6, true) && s.share ⟨0, 0, 1⟩ 0 = [] && nexts (exec (.frameReceived 0 f) s) fun u => decide (u = s)) = true := by decide
theorem witness_frame_malformed : (let c : CoreId := ⟨0, 0, 0⟩; let v : Vf := { enable := true, lport := 9 }; let f : Frame := { port := 0, checked := true, udpPort := 9, data := [4, 0, 0, 1, 6, 0, 0, 0, 10] }; let s : State := (between.modChip 0 fun h => { h with vfs := [(0, v)] }).modCore c fun x => x.setRing 0 0 { cfg := 0x8001000300000010, prod := 2, cons := 1 }; let r := (s.core c).ring 0 0; Memory.wf s.mem && (s.chip 0).vfs = [(0, v)] && v.lport = f.udpPort && landingHeader f.data = some (0, 0, 0, 6, false) && s.share c 0 ≠ [] && r.enabled && nexts (exec (.frameReceived 0 f) s) fun u => u = s.modCore c fun x => x.setRing 0 0 { r with drop := 1 }) = true := by decide
theorem witness_frame_full : (let c : CoreId := ⟨0, 0, 0⟩; let v : Vf := { enable := true, lport := 9 }; let f : Frame := { port := 0, checked := true, udpPort := 9, data := [0, 0, 0, 0, 6, 0, 0, 0, 10, 11, 12] }; let s : State := (between.modChip 0 fun h => { h with vfs := [(0, v)] }).modCore c fun x => x.setRing 0 0 { cfg := 0x8001000300000010, prod := 5, cons := 1, drop := 0xFFFFFFFF }; let r := (s.core c).ring 0 0; Memory.wf s.mem && (s.chip 0).vfs = [(0, v)] && v.lport = f.udpPort && s.share c 0 ≠ [] && decide (r.slots ≤ (r.prod - r.cons).toNat) && nexts (exec (.frameReceived 0 f) s) fun u => u = s.modCore c fun x => x.setRing 0 0 r) = true := by decide
theorem witness_frame_taken : (let c : CoreId := ⟨0, 0, 0⟩; let v : Vf := { enable := true, lport := 9 }; let f : Frame := { port := 0, checked := true, udpPort := 9, data := [0, 0, 0, 0, 6, 0, 0, 0, 10, 11, 12] }; let s : State := (between.modChip 0 fun h => { h with vfs := [(0, v)] }).modCore c fun x => x.setRing 0 0 { cfg := 0x8001000300000010, prod := 2, cons := 1 }; let r := (s.core c).ring 0 0; Memory.wf s.mem && (s.chip 0).vfs = [(0, v)] && v.lport = f.udpPort && landingHeader f.data = some (0, 0, 0, 6, true) && r.enabled && decide ((r.prod - r.cons).toNat < r.slots) && nexts (exec (.frameReceived 0 f) s) fun u => let base := (r.base + r.prod.toNat % r.slots * r.lines) * 128; (u.core c).ring 0 0 = { r with prod := 3 } && decide (Memory.readBytes u.mem (cisternAt c (base + 128)) 3 = ([10, 11, 12] : List Byte)) && Memory.readNat u.mem (cisternAt c (base + 12)) 4 = 3) = true := by decide
theorem witness_round_clears : (let o : Obj := { size := 2 ^ 21, extents := [{}], pages := (List.replicate 32 {}).set 3 { dirty := true }, summary := [0, 1] }; let s : State := { between with objects := [((0, 1), o), ((0, 2), { o with vf := 1 })] }; s.logged 0 0 o && !s.logged 0 0 { o with vf := 1 } && nexts (exec (.dlctlRound 0 0) s) fun u => (u.objects.get? (0, 1)).any (fun x => x.summary = [1] && x.pages.all (fun p => !p.dirty)) && u.objects.get? (0, 2) = some { o with vf := 1 } && u.mem = s.mem) = true := by decide

/-! Lines of DRAM -/
/-- The counter block of a line with some MINOR, with a MAC that differs from the right one by k. -/
def countedBlock (minor : Nat) (k : BitVec 56) : CounterBlock :=
  let c : CounterBlock := { major := 2, minors := (List.replicate 64 0).set 5 minor }
  let h := Config.counterHome 0 0 48
  { c with mac := lineMac 0 (h / 2 ^ 32) h 0 0 c.bytes ^^^ k }
/-- A package on which function 0 holds frame 3 of die 0, with bytes of object 1 there, that counter block above it, and its first line
in the L2. -/
def counted (c : CounterBlock) (dirty : Bool) : State :=
  { ((State.reset.modDie ⟨0, 0⟩ fun x => { x with frames := [(3, 0)], l2 := [(1538, dirty)], counters := [(48, c)] }).modVf 0 0 fun v =>
      { v with height := 1, majorMax := 6 }) with
    objects := [((0, 1), { size := 2 ^ 21, extents := [{}], pages := List.set (List.replicate 32 {}) 0 { frame := 3 } })] }
theorem counted_blockOk (minor : Nat) (k : BitVec 56) (dirty : Bool) (n : Nat) :
    let t := ({ counted (countedBlock minor k) dirty with draws := n } : State)
    t.fitTree 0 0 = t ∧ t.treeHeight 0 0 = 1 ∧ (t.blockOk 0 0 1 0 48 = true ↔ k = 0) := by
  have h : ∀ c : CounterBlock, (counted c dirty).treeHeight 0 0 = 1 := fun c => rfl
  have b : ∀ c : CounterBlock, ({ counted c dirty with draws := n } : State).treeBlock 0 0 0 48 = c := fun c => rfl
  have r : ∀ c : CounterBlock, ({ counted c dirty with draws := n } : State).treeBlock 0 0 1 0 = {} := fun c => rfl
  have m : ∀ c e : CounterBlock, ({ counted c dirty with draws := n } : State).blockMac 0 0 0 48 e {}
      = lineMac 0 (Config.counterHome 0 0 48 / 2 ^ 32) (Config.counterHome 0 0 48) 0 0 e.bytes := fun c e => rfl
  have e : (countedBlock minor k).bytes = ({ major := 2, minors := (List.replicate 64 0).set 5 minor } : CounterBlock).bytes := rfl
  have z : countedBlock minor k ≠ {} := fun h => absurd (congrArg CounterBlock.major h) (Nat.succ_ne_zero 1)
  refine ⟨?_, ?_, ?_⟩
  · rfl
  · rfl
  · simp only [State.blockOk, b, r, m, Nat.reduceDiv, z, e]
    simp [countedBlock]

theorem witness_line_minor :
    let s := counted (countedBlock 126 0) false
    let t := ({ s with draws := s.draws + 1 } : State).fitTree 0 0
    let c := Tab.getD (t.die ⟨0, 0⟩).counters (3077 / 64) {}
    (decide (3077 < 2 ^ 32) && Tab.get? (s.die ⟨0, 0⟩).frames (3077 / 1024) = some 0 && (s.lineAddr ⟨0, 0⟩ 3077).isSome
      && (Tab.get? (s.die ⟨0, 0⟩).l2 (3077 / 2)).isSome && !(s.die ⟨0, 0⟩).l2bad.contains 3077 && Tab.getD (s.die ⟨0, 0⟩).l2 (3077 / 2) false = false
      && c.minors.length = 64 && c.minors.getD (3077 % 64) 0 = 126 && decide (126 < 127)) = true
    ∧ t.blockOk 0 0 (t.treeHeight 0 0) 0 (0 * 2 ^ 26 + 3077 / 64) = true :=
  ⟨by decide, (counted_blockOk 126 0 false _).2.2.2 rfl⟩
theorem witness_line_major :
    let s := counted (countedBlock 127 0) false
    let t := ({ s with draws := s.draws + 1 } : State).fitTree 0 0
    let c := Tab.getD (t.die ⟨0, 0⟩).counters (3077 / 64) {}
    (decide (3077 < 2 ^ 32) && Tab.get? (s.die ⟨0, 0⟩).frames (3077 / 1024) = some 0 && (s.lineAddr ⟨0, 0⟩ 3077).isSome
      && (Tab.get? (s.die ⟨0, 0⟩).l2 (3077 / 2)).isSome && !(s.die ⟨0, 0⟩).l2bad.contains 3077 && Tab.getD (s.die ⟨0, 0⟩).l2 (3077 / 2) false = false
      && c.minors.length = 64 && c.minors.getD (3077 % 64) 0 = 127 && decide (127 ≤ 127)) = true
    ∧ t.blockOk 0 0 (t.treeHeight 0 0) 0 (0 * 2 ^ 26 + 3077 / 64) = true :=
  ⟨by decide, (counted_blockOk 127 0 false _).2.2.2 rfl⟩
theorem witness_line_dirty :
    let s := counted (countedBlock 126 0) true
    let t := ({ s with draws := s.draws + 1 } : State).fitTree 0 0
    let c := Tab.getD (t.die ⟨0, 0⟩).counters (3077 / 64) {}
    (decide (3077 < 2 ^ 32) && Tab.get? (s.die ⟨0, 0⟩).frames (3077 / 1024) = some 0 && (s.lineAddr ⟨0, 0⟩ 3077).isSome
      && (Tab.get? (s.die ⟨0, 0⟩).l2 (3077 / 2)).isSome && !(s.die ⟨0, 0⟩).l2bad.contains 3077 && Tab.getD (s.die ⟨0, 0⟩).l2 (3077 / 2) false = true
      && c.minors.length = 64 && c.minors.getD (3077 % 64) 0 = 126 && decide (c.minors.getD (3076 % 64) 0 < 127)) = true
    ∧ t.blockOk 0 0 (t.treeHeight 0 0) 0 (0 * 2 ^ 26 + 3077 / 64) = true :=
  ⟨by decide, (counted_blockOk 126 0 true _).2.2.2 rfl⟩
theorem witness_line_fresh : (let s : State := { (State.reset.modDie ⟨0, 0⟩ fun x => { x with frames := [(3, 0)] }) with objects := [((0, 1), { size := 2 ^ 21, extents := [{}], pages := List.set (List.replicate 32 {}) 0 { frame := 3 } })] }; let t := ({ s with draws := s.draws + 1 } : State).fitTree 0 0; let c := Tab.getD (t.die ⟨0, 0⟩).counters (3077 / 64) {}; (Tab.get? (s.die ⟨0, 0⟩).l2 (3077 / 2)).isNone && s.lineOk ⟨0, 0⟩ 3077 && (s.lineAddr ⟨0, 0⟩ 3077).isSome && c.minors.length = 64 && t.blockOk 0 0 (t.treeHeight 0 0) 0 (3077 / 64) && !Tab.getD (s.die ⟨0, 0⟩).l2 (3077 / 2) false && decide (c.minors.getD (3077 % 64) 0 < 127)) = true := by decide
theorem witness_line_in_l2_bad : (let s : State := { (State.reset.modDie ⟨0, 0⟩ fun x => { x with frames := [(3, 0)], l2 := [(1538, false)], l2bad := [3077], lines := [(3077, { text := [], mac := 0, bad := true }), (3076, { text := [], mac := 0, bad := true })] }) with objects := [((0, 1), { size := 2 ^ 21, extents := [{}], pages := List.set (List.replicate 32 {}) 0 { frame := 3 } })] }; let a := globalAt (objPtr 0x140); s.dramLine a = some (⟨0, 0⟩, 3077) && (Tab.get? (s.die ⟨0, 0⟩).l2 (3077 / 2)).isSome && s.lineFails (a / 64) && !s.lineFails (a / 64 - 1)) = true := by decide
theorem witness_rebuild_good : Tab.get? ((counted (countedBlock 5 0) false).die ⟨0, 0⟩).frames (48 / 16) = some 0
    ∧ (counted (countedBlock 5 0) false).blockOk 0 0 ((counted (countedBlock 5 0) false).treeHeight 0 0) 0 (0 * 2 ^ 26 + 48) = true :=
  ⟨by decide, (counted_blockOk 5 0 false 0).2.2.2 rfl⟩
theorem witness_rebuild_bad : Tab.get? ((counted (countedBlock 5 1) false).die ⟨0, 0⟩).frames (48 / 16) = some 0
    ∧ (counted (countedBlock 5 1) false).blockOk 0 0 ((counted (countedBlock 5 1) false).treeHeight 0 0) 0 (0 * 2 ^ 26 + 48) = false :=
  ⟨by decide, Bool.eq_false_iff.2 fun h => absurd ((counted_blockOk 5 1 false 0).2.2.1 h) (by decide)⟩

end Sys2Proof.Machine
end

section
/-! PROOFS. The family of threads, clauses and encoding: which words the illegal-instruction checks refuse at decode (R37, R45, R55),
what an immediate and an offset read (R51), and where a result goes (R35 to R37, R55). -/

namespace Sys2Proof

/-! ## The words of the opcode map (R65) -/

/-- A word that a code and fields name stands in a row of the opcode map. -/
theorem Instr.exists_row_of_ofCode {opc : Nat} {f : Fields} {i : Instr} (h : Instr.ofCode opc f = some i) :
    ∃ r ∈ rows, r.1 = opc ∧ r.2 f = i := by
  obtain ⟨r, hr, hi⟩ := Option.map_eq_some_iff.1 h
  exact ⟨r, List.mem_of_find?_eq_some hr, by simpa using List.find?_some hr, hi⟩

/-- Every word of a row has the row's code, and the fields that it was built from. -/
theorem rows_opc_fields : ∀ r ∈ rows, ∀ f, (r.2 f).opc = some r.1 ∧ (r.2 f).fields? = some f := by
  intro r hr f
  fin_cases hr
  all_goals
    dsimp only
    repeat' split
    all_goals exact ⟨rfl, rfl⟩

theorem Instr.opc_of_ofCode {opc : Nat} {f : Fields} {i : Instr} (h : Instr.ofCode opc f = some i) : i.opc = some opc := by
  obtain ⟨r, hr, rfl, rfl⟩ := Instr.exists_row_of_ofCode h
  exact (rows_opc_fields r hr f).1

theorem Instr.fields?_of_ofCode {opc : Nat} {f : Fields} {i : Instr} (h : Instr.ofCode opc f = some i) : i.fields? = some f := by
  obtain ⟨r, hr, rfl, rfl⟩ := Instr.exists_row_of_ofCode h
  exact (rows_opc_fields r hr f).2

/-- The codes whose words have no general-register result (R55): those of classes 1 to 3, the collectives, and the words
whose destination is a predicate. -/
def noRegisterResult (opc : Nat) : Bool := 0x80 ≤ opc || [0x19, 0x1C, 0x2D, 0x45].contains opc

theorem rows_res_eq_false : ∀ r ∈ rows.filter fun r => noRegisterResult r.1, ∀ f, (r.2 f).roles.res = false := by
  intro r hr f
  fin_cases hr
  all_goals
    dsimp only
    repeat' split
    all_goals rfl

theorem Instr.res_eq_false_of_ofCode {opc : Nat} {f : Fields} {i : Instr} (h : Instr.ofCode opc f = some i)
    (ho : noRegisterResult opc = true) : i.roles.res = false := by
  obtain ⟨r, hr, rfl, rfl⟩ := Instr.exists_row_of_ofCode h
  exact rows_res_eq_false r (List.mem_filter.2 ⟨hr, ho⟩) f

/-! ## The illegal-instruction checks (R37, R45, R55, R61) -/

theorem wordTrap_eq_illegalInstruction {k : WordCtx} {i : Instr} {opc : Nat} {f : Fields} (ho : i.opc = some opc) (hf : i.fields? = some f)
    (hbad : wordBad k opc i.roles f = true) : wordTrap k i = some .illegalInstruction := by
  simp only [wordTrap, ho, hf, hbad, if_true]

/-- A word traps as an illegal instruction when its code is reserved or its word fails a check. -/
theorem decodeWord_eq_illegalInstruction {k : WordCtx} {w l : DWord}
    (hbad : ∀ i, Instr.ofCode (opcOf w) (Fields.ofWord w l) = some i → wordBad k (opcOf w) i.roles (Fields.ofWord w l) = true) :
    decodeWord k w l = .error .illegalInstruction := by
  unfold decodeWord
  split
  next => rfl
  next i hi => rw [wordTrap_eq_illegalInstruction (Instr.opc_of_ofCode hi) (Instr.fields?_of_ofCode hi) (hbad i hi)]

section
variable {k : WordCtx} {opc : Nat} {r : Roles} {f : Fields}

theorem wordBad_of_not_admitted (h : classAdmits k.cls opc k.crew = false) : wordBad k opc r f = true := by
  simp [wordBad, h]

/-- A latch destination is refused where the word has no register result or no latch has the number. -/
theorem wordBad_of_nwb (hn : f.nwb = true) (h : r.res = false ∨ 8 ≤ f.dst.toNat) : wordBad k opc r f = true := by
  rcases h with h | h <;> simp [wordBad, hn, h]

theorem wordBad_of_pred_dst (hr : r.dst = .pred) (h : 16 ≤ f.dst.toNat) : wordBad k opc r f = true := by
  simp [wordBad, hr, h]

theorem srcBad_pred {x : BitVec 9} (h : 16 ≤ x.toNat) : srcBad .pred x = true := decide_eq_true h

theorem wordBad_of_pred_a (hr : r.a = .pred) (h : 16 ≤ f.sa.toNat) : wordBad k opc r f = true := by
  simp [wordBad, hr, srcBad_pred h]

theorem wordBad_of_pred_c (hr : r.c = .pred) (hform : f.form = 0 ∨ f.form = 3) (h : 16 ≤ f.sc.toNat) : wordBad k opc r f = true := by
  rcases hform with hform | hform <;> simp [wordBad, hr, srcBad_pred h, hform]

end

theorem opcOf_eq_div_mod (w : DWord) : opcOf w = w.toNat / 2 ^ 50 % 256 := by
  rw [opcOf, BitVec.extractLsb'_toNat, Nat.shiftRight_eq_div_pow]

theorem Fields.dst_ofWord (w l : DWord) : (Fields.ofWord w l).dst.toNat = w.toNat / 2 ^ 39 % 256 := by
  rw [Fields.ofWord, BitVec.extractLsb'_toNat, Nat.shiftRight_eq_div_pow]

/-- Which opcodes a clause admits (R45). -/
theorem classAdmits_iff (cls opc : Nat) (crew : Bool) : classAdmits cls opc crew = true ↔
    (cls = 0 ∧ (opc ≤ 0x7F ∨ (0xC4 ≤ opc ∧ opc ≤ 0xC8 ∧ crew = true) ∨ opc = 0xE7))
    ∨ (cls = 1 ∧ ((0x80 ≤ opc ∧ opc ≤ 0xC3) ∨ opc = 0xC9 ∨ opc = 0xE7))
    ∨ (cls = 2 ∧ ((0xD0 ≤ opc ∧ opc ≤ 0xDF) ∨ opc = 0xE7))
    ∨ (cls = 3 ∧ 0xE0 ≤ opc ∧ opc ≤ 0xF7) := by
  match cls with
  | 0 => simp [classAdmits, Nat.lt_succ_iff, or_assoc, and_assoc, and_comm (a := crew = true)]
  | 1 => simp [classAdmits, or_assoc]
  | 2 => simp [classAdmits]
  | 3 => simp [classAdmits]
  | n + 4 => simp [classAdmits]

/-- Settles O48: an opcode that the clause's class does not admit fails the class check. -/
theorem aClauseAdmitsTheOpcodesOfItsClass : Obligations.AClauseAdmitsTheOpcodesOfItsClass := by
  unfold Obligations.AClauseAdmitsTheOpcodesOfItsClass
  intro k w l opc hopc
  have hadm : classAdmits k.cls (opcOf w) k.crew = false := by
    rw [opcOf_eq_div_mod, Bool.eq_false_iff, Ne, classAdmits_iff]
    exact hopc
  exact decodeWord_eq_illegalInstruction fun _ _ => wordBad_of_not_admitted hadm

/-! ## Predicates (R37) -/

theorem Machine.Thread.setPred_eq (x : Machine.Thread) (n : Nat) (v : Bool) : x.setPred n v = { x with preds := (x.setPred n v).preds } := rfl

/-- A write of a predicate leaves the other fifteen. -/
theorem Machine.Thread.pred_setPred_ne (x : Machine.Thread) (n m : Nat) (v : Bool) (h : m % 16 ≠ n % 16) :
    (x.setPred n v).pred m = x.pred m := by
  have hm : m % 16 < 16 := Nat.mod_lt _ (by decide)
  have hbit : (1#16 <<< (n % 16)).getLsbD (m % 16) = false := by
    rw [← BitVec.twoPow, BitVec.getLsbD_twoPow, decide_eq_false (Ne.symm h), Bool.and_false]
  cases v
  · simp only [Machine.Thread.setPred, Machine.Thread.pred, hbit, Bool.false_eq_true, if_false, BitVec.getLsbD_and, BitVec.getLsbD_not, hm,
      decide_true, Bool.not_false, Bool.and_true]
  · simp only [Machine.Thread.setPred, Machine.Thread.pred, hbit, if_true, BitVec.getLsbD_or, Bool.or_false]

/-- Settles O49: each of the three fields that may be a predicate fails its own check, and a predicate register is one bit of the
thread's sixteen. -/
theorem predicateFieldsNameFourBits : Obligations.PredicateFieldsNameFourBits := by
  unfold Obligations.PredicateFieldsNameFourBits
  constructor
  · intro k w l i f hi hfield
    refine decodeWord_eq_illegalInstruction fun j hj => ?_
    obtain rfl : i = j := Option.some.inj (hi.symm.trans hj)
    rcases hfield with ⟨hr, h⟩ | ⟨hr, h⟩ | ⟨hr, hform, h⟩
    · exact wordBad_of_pred_dst hr h
    · exact wordBad_of_pred_a hr h
    · exact wordBad_of_pred_c hr hform h
  · exact fun x n v => ⟨rfl, x.setPred_eq n v, x.pred_setPred n v, fun m => x.pred_setPred_ne n m v⟩

/-! ## Immediates and offsets (R51) -/

/-- The model's sign extension of a bit vector's number is its signed value. -/
theorem sextN_toNat {n : Nat} (x : BitVec n) (hn : 0 < n) : sextN x.toNat n = x.toInt := by
  have hsign : x.toNat / 2 ^ (n - 1) % 2 = 1 ↔ ¬ 2 * x.toNat < 2 ^ n := by
    obtain ⟨m, rfl⟩ : ∃ m, n = m + 1 := ⟨n - 1, by omega⟩
    have hx := x.isLt
    have hdiv : x.toNat / 2 ^ m < 2 := Nat.div_lt_of_lt_mul (by omega)
    have hzero : x.toNat / 2 ^ m = 0 ↔ x.toNat < 2 ^ m := Nat.div_eq_zero_iff_lt (by positivity)
    rw [Nat.add_sub_cancel]
    generalize x.toNat / 2 ^ m = top at hdiv hzero ⊢
    omega
  have hmod : (x.toNat : Int) % 2 ^ n = x.toNat := by exact_mod_cast Nat.mod_eq_of_lt x.isLt
  simp only [sextN, BitVec.toInt_eq_toNat_cond, hsign, hmod, Nat.mod_eq_of_lt x.isLt, ite_not, Nat.cast_pow, Nat.cast_ofNat]

theorem Fields.imm30_ofWord (w l : DWord) : (Fields.ofWord w l).imm30 = (w.extractLsb' 0 30).toNat := by
  simp only [Fields.imm30, Fields.ofWord, BitVec.extractLsb'_toNat, Nat.shiftRight_eq_div_pow]
  omega

theorem Fields.imm_ofWord (w l : DWord) : (Fields.ofWord w l).imm = (w.extractLsb' 0 30).toInt := by
  rw [Fields.imm, Fields.imm30_ofWord, sextN_toNat _ (by decide)]

theorem Fields.off_ofWord (w l : DWord) : (Fields.ofWord w l).off = (w.extractLsb' 0 21).toInt := by
  have hbits : 2 ^ 12 * (Fields.ofWord w l).sc.toNat + (Fields.ofWord w l).mod.toNat = (w.extractLsb' 0 21).toNat := by
    simp only [Fields.ofWord, BitVec.extractLsb'_toNat, Nat.shiftRight_eq_div_pow]
    omega
  rw [Fields.off, hbits, sextN_toNat _ (by decide)]

/-- An FP32 source reads the immediate's bits above two zero bits. -/
theorem ofNat_toNat_mul_four (x : BitVec 30) : BitVec.ofNat 32 (x.toNat * 4) = x ++ (0 : BitVec 2) := by
  apply BitVec.eq_of_toNat_eq
  rw [BitVec.toNat_append, Nat.shiftLeft_eq, BitVec.toNat_ofNat, show (0 : BitVec 2).toNat = 0 from rfl, Nat.or_zero]
  omega

namespace Machine
section
variable (x : Thread) {f : Fields} (h : f.form = 1)
include h

theorem Thread.b32_of_form_one : x.b32 f = some (BitVec.ofInt 32 f.imm) := if_pos h
theorem Thread.b64_of_form_one : x.b64 f = some (BitVec.ofInt 64 f.imm) := if_pos h
theorem Thread.bF_of_form_one : x.bF f = some (BitVec.ofNat 32 (f.imm30 * 4)) := if_pos h

end
end Machine

/-- Settles O50: the three fields below source A are the word's low 30 bits, and the two lowest its low 21 bits. -/
theorem immediatesAndOffsetsReadTheirBits : Obligations.ImmediatesAndOffsetsReadTheirBits := by
  unfold Obligations.ImmediatesAndOffsetsReadTheirBits
  intro w l x f
  refine ⟨fun hform => ⟨Fields.imm_ofWord w l, ?_, ?_, ?_⟩, fun _ => Fields.off_ofWord w l⟩
  · rw [x.b32_of_form_one (f := f) hform, Fields.imm_ofWord, BitVec.signExtend]
  · rw [x.b64_of_form_one (f := f) hform, Fields.imm_ofWord, BitVec.signExtend]
  · rw [x.bF_of_form_one (f := f) hform, Fields.imm30_ofWord, ofNat_toNat_mul_four]

namespace Machine

/-! ## Destinations (R35 to R37, R55) -/

section
variable (x : Thread) (n : Nat)

theorem Thread.setReg_eq (v : Word) : x.setReg n v = { x with regs := (x.setReg n v).regs } := by
  unfold Thread.setReg
  split <;> rfl

variable (d : DWord)

theorem Thread.setPair_of_ne_gz (hn : n ≠ 255) :
    x.setPair n d = (x.setReg n (d.extractLsb' 0 32)).setReg (n + 1) (d.extractLsb' 32 32) := if_neg hn

theorem Thread.setPair_eq : x.setPair n d = { x with regs := (x.setPair n d).regs } := by
  by_cases hn : n = 255
  · rw [hn, Thread.setPair_gz]
  · rw [x.setPair_of_ne_gz n d hn, Thread.setReg_eq, Thread.setReg_eq x]

/-- A write of a pair leaves every register outside it. -/
theorem Thread.reg_setPair_ne (m : Nat) (hm : m ≠ n) (hm' : m ≠ n + 1) : (x.setPair n d).reg m = x.reg m := by
  by_cases hn : n = 255
  · rw [hn, Thread.setPair_gz]
  · rw [x.setPair_of_ne_gz n d hn, Thread.reg_setReg_ne _ _ _ _ hm', Thread.reg_setReg_ne _ _ _ _ hm]

variable (hlen : n + 1 < x.regs.length) (hn : n + 1 < 255)
include hlen hn

theorem Thread.reg_setPair_low : (x.setPair n d).reg n = d.extractLsb' 0 32 := by
  rw [x.setPair_of_ne_gz n d (by omega), Thread.reg_setReg_ne _ _ _ _ (by omega), Thread.reg_setReg _ _ _ (by omega) (by omega)]

theorem Thread.reg_setPair_high : (x.setPair n d).reg (n + 1) = d.extractLsb' 32 32 := by
  rw [x.setPair_of_ne_gz n d (by omega), Thread.reg_setReg _ _ _ (by simpa using hlen) (by omega)]

/-- A pair reads what was last written to it (R36). -/
theorem Thread.pair_setPair : (x.setPair n d).pair n = d := by
  rw [Thread.pair, if_neg (by omega), x.reg_setPair_low n d hlen hn, x.reg_setPair_high n d hlen hn]
  exact (BitVec.extractLsb'_append_extractLsb'_eq_extractLsb' (x := d) rfl).trans BitVec.extractLsb'_eq_self

end

section
variable (x : Thread) (f : Fields) (v : Word) (d : DWord)

theorem Thread.put32_of_nwb (h : f.nwb = true) :
    x.put32 f v = { x with latches := x.latches.set (f.dst.toNat % 8) (some (v.setWidth 64)) } := if_pos h
theorem Thread.put64_of_nwb (h : f.nwb = true) : x.put64 f d = { x with latches := x.latches.set (f.dst.toNat % 8) (some d) } := if_pos h
theorem Thread.put32_of_not_nwb (h : f.nwb = false) : x.put32 f v = x.setReg f.dst.toNat v := if_neg (by simp [h])
theorem Thread.put64_of_not_nwb (h : f.nwb = false) : x.put64 f d = x.setPair f.dst.toNat d := if_neg (by simp [h])

/-- A result changes no field of the thread but its registers and its latches. -/
theorem Thread.put32_eq : x.put32 f v = { x with regs := (x.put32 f v).regs, latches := (x.put32 f v).latches } := by
  cases h : f.nwb
  · rw [x.put32_of_not_nwb f v h, Thread.setReg_latches]
    exact x.setReg_eq _ v
  · rw [x.put32_of_nwb f v h]

theorem Thread.put64_eq : x.put64 f d = { x with regs := (x.put64 f d).regs, latches := (x.put64 f d).latches } := by
  cases h : f.nwb
  · rw [x.put64_of_not_nwb f d h, Thread.setPair_latches]
    exact x.setPair_eq _ d
  · rw [x.put64_of_nwb f d h]

end
end Machine

/-- Settles O56: a word that names a latch without a register result fails the latch check; and a result is a write of its register, of
its pair or of its latch. -/
theorem aResultGoesToItsDestinationAlone : Obligations.AResultGoesToItsDestinationAlone := by
  unfold Obligations.AResultGoesToItsDestinationAlone
  constructor
  · intro k w l hnwb hw
    refine decodeWord_eq_illegalInstruction fun i hi => wordBad_of_nwb hnwb ?_
    rcases hw with hdst | hopc | hopc
    · exact .inr (Fields.dst_ofWord w l ▸ hdst)
    · exact .inl (Instr.res_eq_false_of_ofCode hi (by simp [noRegisterResult, hopc]))
    · exact .inl (Instr.res_eq_false_of_ofCode hi (by simp [noRegisterResult, hopc]))
  · intro x f v d y z n
    refine ⟨x.put32_eq f v, x.put64_eq f d, fun hnwb => ?_, fun hnwb => ?_, x.pred_setPred n true, x.pred_setPred n false⟩
    · have hy : y = _ := x.put32_of_nwb f v hnwb
      have hz : z = _ := x.put64_of_nwb f d hnwb
      rw [hy, hz]
      exact ⟨rfl, rfl, rfl, rfl⟩
    · have hy : y = x.setReg n v := x.put32_of_not_nwb f v hnwb
      have hz : z = x.setPair n d := x.put64_of_not_nwb f d hnwb
      rw [hy, hz]
      refine ⟨x.setReg_latches n v, x.setPair_latches n d, fun hgz => ?_, fun m => x.reg_setReg_ne n m v, x.reg_setPair_ne n d,
        x.reg_setReg n v, fun hlen hn => ⟨x.reg_setPair_low n d hlen hn, x.reg_setPair_high n d hlen hn, x.pair_setPair n d hlen hn⟩⟩
      rw [hgz]
      exact ⟨x.setReg_gz v, x.setPair_gz d⟩

end Sys2Proof
end

section
/-! PROOFS. Encoding and decoding are inverse: the fields of a word read back as they were written (R48, R52), and the words of a
well-formed instruction decode to it alone. -/

namespace Sys2Proof

/-! ## Reading the fields of a word and writing them (R48, R52) -/

/-- A field that lies above the low part of an appended word is a field of its high part. -/
theorem extractLsb'_append_high {m n k l : Nat} {x : BitVec m} {y : BitVec n} {z : BitVec l} (h : n ≤ k) (hz : x.extractLsb' (k - n) l = z) :
    (x ++ y).extractLsb' k l = z :=
  (BitVec.extractLsb'_append_eq_of_le h).trans hz

theorem getLsbD_of_extractLsb' {n k : Nat} {x : BitVec n} {b : Bool} (h : x.extractLsb' k 1 = BitVec.ofBool b) : x.getLsbD k = b := by
  simpa using congrArg (BitVec.getLsbD · 0) h

section
variable (opc : Nat) (f : Fields)

theorem Fields.form_toWord : (f.toWord opc).extractLsb' 48 2 = f.form := by
  iterate 6 refine extractLsb'_append_high (by decide) ?_
  exact BitVec.extractLsb'_append_eq_right

theorem Fields.isLit_toWord : isLit (f.toWord opc) = decide (f.form = 3) := by
  rw [isLit, Fields.form_toWord]

theorem Fields.opcOf_toWord {opc : Nat} (h : opc < 256) : opcOf (f.toWord opc) = opc := by
  have hcode : (f.toWord opc).extractLsb' 50 8 = BitVec.ofNat 8 opc := by
    iterate 7 refine extractLsb'_append_high (by decide) ?_
    exact BitVec.extractLsb'_append_eq_right
  rw [opcOf, hcode, BitVec.toNat_ofNat, Nat.mod_eq_of_lt h]

/-- Reading a word's fields back gives them, with the literal where FORM is 11. -/
theorem Fields.ofWord_toWord (l : DWord) (h : f.lit = if f.form = 3 then l else 0) : Fields.ofWord (f.toWord opc) l = f := by
  apply Fields.mk.injEq .. |>.mpr
  refine ⟨getLsbD_of_extractLsb' ?ge, getLsbD_of_extractLsb' ?gs, ?gp, Fields.form_toWord opc f, getLsbD_of_extractLsb' ?nwb, ?dst, ?sa,
    ?sb, ?sc, BitVec.extractLsb'_append_eq_right, ?lit⟩
  case lit => rw [Fields.form_toWord, h]
  case ge =>
    iterate 10 refine extractLsb'_append_high (by decide) ?_
    exact BitVec.extractLsb'_eq_self
  case gs => iterate 9 refine extractLsb'_append_high (by decide) ?_
             exact BitVec.extractLsb'_append_eq_right
  case gp => iterate 8 refine extractLsb'_append_high (by decide) ?_
             exact BitVec.extractLsb'_append_eq_right
  case nwb => iterate 5 refine extractLsb'_append_high (by decide) ?_
              exact BitVec.extractLsb'_append_eq_right
  case dst => iterate 4 refine extractLsb'_append_high (by decide) ?_
              exact BitVec.extractLsb'_append_eq_right
  case sa => iterate 3 refine extractLsb'_append_high (by decide) ?_
             exact BitVec.extractLsb'_append_eq_right
  case sb => iterate 2 refine extractLsb'_append_high (by decide) ?_
             exact BitVec.extractLsb'_append_eq_right
  case sc => exact extractLsb'_append_high (by decide) BitVec.extractLsb'_append_eq_right

end

/-- Two fields of a word that lie side by side, appended, are one field of it. -/
theorem append_extractLsb' {w : DWord} {m n k : Nat} {x : BitVec m} {y : BitVec n} (hx : x = w.extractLsb' (k + n) m) (hy : y = w.extractLsb' k n) :
    x ++ y = w.extractLsb' k (m + n) := by
  rw [hx, hy, BitVec.extractLsb'_append_extractLsb'_eq_extractLsb' rfl]

theorem ofBool_getLsbD_eq_extractLsb' (w : DWord) (n : Nat) : BitVec.ofBool (w.getLsbD n) = w.extractLsb' n 1 := by
  ext i hi
  obtain rfl : i = 0 := by omega
  simp

/-- The fields of a word and its opcode make up the word. -/
theorem Fields.toWord_ofWord (w l : DWord) : (Fields.ofWord w l).toWord (opcOf w) = w := by
  refine Eq.trans (append_extractLsb' (k := 0) ?_ rfl) BitVec.extractLsb'_eq_self
  iterate 4 refine append_extractLsb' ?_ rfl
  refine append_extractLsb' ?_ (ofBool_getLsbD_eq_extractLsb' w 47)
  refine append_extractLsb' ?_ rfl
  refine append_extractLsb' ?_ ((BitVec.ofNat_toNat ..).trans (BitVec.setWidth_eq _))
  refine append_extractLsb' ?_ rfl
  exact append_extractLsb' (ofBool_getLsbD_eq_extractLsb' w 63) (ofBool_getLsbD_eq_extractLsb' w 62)

/-! ## Decoding a word and its literal (R48, R52, R61) -/

/-- A word decodes to an instruction where its code and fields name one that passes every check. -/
theorem decodeWord_toOption_eq_some {k : WordCtx} {w l : DWord} {i : Instr} :
    (decodeWord k w l).toOption = some i ↔ Instr.ofCode (opcOf w) (Fields.ofWord w l) = some i ∧ wordTrap k i = none := by
  unfold decodeWord
  split
  next h => simp [h, Except.toOption]
  next j h =>
    rw [h]
    split
    next t ht => simpa [Except.toOption] using fun h : j = i => by simp [← h, ht]
    next ht => simpa [Except.toOption] using fun h : j = i => by rw [← h, ht]

/-- A well-formed word is one that its own code and fields name, that passes every check in the widest clause, and whose literal is
zero unless FORM is 11. -/
theorem Instr.wellFormed_iff {i : Instr} {f : Fields} {opc : Nat} (hf : i.fields? = some f) (ho : i.opc = some opc) :
    i.wellFormed = true ↔ Instr.ofCode opc f = some i ∧ wordTrap (WordCtx.widest opc) i = none ∧ (f.form = 3 ∨ f.lit = 0) := by
  simp [Instr.wellFormed, hf, ho, and_assoc]

theorem encode_eq {i : Instr} {f : Fields} {opc : Nat} (hf : i.fields? = some f) (ho : i.opc = some opc) :
    encode i = if f.form = 3 then [f.toWord opc, f.lit] else [f.toWord opc] := by
  simp [encode, hf, ho]

theorem Fields.lit_ofWord (w l : DWord) : (Fields.ofWord w l).lit = if isLit w then l else 0 := by
  simp [Fields.ofWord, isLit]

theorem Fields.form_ofWord (w l : DWord) : (Fields.ofWord w l).form = 3 ↔ isLit w = true := by
  simp [Fields.ofWord, isLit]

/-- A word and its literal decode to i exactly where i is well formed and has the word's code and fields. -/
theorem decodeWord_widest_iff {w l : DWord} {i : Instr} :
    (decodeWord (WordCtx.widest (opcOf w)) w l).toOption = some i
      ↔ i.wellFormed = true ∧ i.opc = some (opcOf w) ∧ i.fields? = some (Fields.ofWord w l) := by
  rw [decodeWord_toOption_eq_some]
  constructor
  · rintro ⟨hi, hk⟩
    have hf := Instr.fields?_of_ofCode hi
    have ho := Instr.opc_of_ofCode hi
    refine ⟨(Instr.wellFormed_iff hf ho).2 ⟨hi, hk, ?_⟩, ho, hf⟩
    rw [Fields.form_ofWord, Fields.lit_ofWord]
    cases isLit w <;> simp
  · rintro ⟨hwf, ho, hf⟩
    obtain ⟨hi, hk, _⟩ := (Instr.wellFormed_iff hf ho).1 hwf
    exact ⟨hi, hk⟩

theorem Instr.opc_lt_of_ofCode {opc : Nat} {f : Fields} {i : Instr} (h : Instr.ofCode opc f = some i) : opc < 256 := by
  obtain ⟨r, hr, rfl, -⟩ := Instr.exists_row_of_ofCode h
  have hcodes : rows.all (fun r => r.1 < 256) = true := by decide
  simpa using List.all_eq_true.1 hcodes r hr

theorem Instr.exists_opc_of_fields? {i : Instr} {f : Fields} (hf : i.fields? = some f) : ∃ opc, i.opc = some opc := by
  cases i <;> simp only [Instr.fields?, reduceCtorEq] at hf <;> exact ⟨_, rfl⟩

/-- What words decode to is well formed, and they are its encoding. -/
theorem wellFormed_encode_of_decodeWords {i : Instr} {ws : List DWord} (h : decodeWords ws = some i) :
    i.wellFormed = true ∧ i.fields?.isSome = true ∧ encode i = ws := by
  unfold decodeWords at h
  split at h
  next w =>
    split at h
    next => cases h
    next hl =>
      obtain ⟨hwf, ho, hf⟩ := decodeWord_widest_iff.1 h
      refine ⟨hwf, by rw [hf]; rfl, ?_⟩
      rw [encode_eq hf ho, if_neg (by rwa [Fields.form_ofWord]), Fields.toWord_ofWord]
  next w l =>
    split at h
    next hl =>
      obtain ⟨hwf, ho, hf⟩ := decodeWord_widest_iff.1 h
      refine ⟨hwf, by rw [hf]; rfl, ?_⟩
      rw [encode_eq hf ho, if_pos (by rwa [Fields.form_ofWord]), Fields.toWord_ofWord, Fields.lit_ofWord, if_pos hl]
    next => cases h
  next => cases h

/-- The encoding of a well-formed word decodes to it. -/
theorem decodeWords_encode {i : Instr} {f : Fields} (hf : i.fields? = some f) (hwf : i.wellFormed = true) : decodeWords (encode i) = some i := by
  obtain ⟨opc, ho⟩ := Instr.exists_opc_of_fields? hf
  obtain ⟨hi, -, hlit⟩ := (Instr.wellFormed_iff hf ho).1 hwf
  have hlt := Instr.opc_lt_of_ofCode hi
  rw [encode_eq hf ho]
  by_cases h3 : f.form = 3
  · rw [if_pos h3, decodeWords, if_pos (by simp [Fields.isLit_toWord, h3]), decodeWord_widest_iff, Fields.opcOf_toWord f hlt,
      Fields.ofWord_toWord opc f f.lit (by rw [if_pos h3])]
    exact ⟨hwf, ho, hf⟩
  · rw [if_neg h3, decodeWords, if_neg (by rw [Fields.isLit_toWord]; simpa using h3), decodeWord_widest_iff,
      Fields.opcOf_toWord f hlt, Fields.ofWord_toWord opc f 0 (by rw [if_neg h3]; exact hlit.resolve_left h3)]
    exact ⟨hwf, ho, hf⟩

/-- Settles O52: reading a word's fields and writing them are inverse, and the opcode map names each word by its code. -/
theorem decodingInvertsEncoding : Obligations.DecodingInvertsEncoding := by
  unfold Obligations.DecodingInvertsEncoding
  refine fun i ws => ⟨wellFormed_encode_of_decodeWords, ?_⟩
  rintro ⟨hwf, hsome, rfl⟩
  obtain ⟨f, hf⟩ := Option.isSome_iff_exists.1 hsome
  exact decodeWords_encode hf hwf

end Sys2Proof
end

section
/-! PROOFS. Integer, logic, compare, move and object-pointer words (R102 to R114): each word is one shape of register word, and the
function of its sources has the value that its rule gives. -/

namespace Sys2Proof.Machine

/-! ## Each shape of register word -/

section
variable (s : State) (b : Bundle) (t : ThreadId) (f : Fields)

@[simp] theorem State.quiet_a32 : s.quiet.a32 b t f = s.a32 b t f := rfl
@[simp] theorem State.quiet_a64 : s.quiet.a64 b t f = s.a64 b t f := rfl
@[simp] theorem State.quiet_aF : s.quiet.aF b t f = s.aF b t f := rfl
@[simp] theorem State.quiet_thread : s.quiet.thread t = s.thread t := rfl

end

section
variable {mk : Fields → Instr} {f : Fields}

theorem gives32_of_alu32 {g r : Word → Word → Word} (h : ∀ s, exec (mk f) s = s.alu32 (mk f) f g) (hr : ∀ a b, g a b = r a b) :
    Gives32 mk f r := by
  obtain rfl : g = r := funext fun a => funext (hr a)
  exact fun s q k b x y hi hxy => (h s).trans (State.alu32_next hi hxy)

theorem gives64_of_alu64 {g r : DWord → DWord → DWord} (h : ∀ s, exec (mk f) s = s.alu64 (mk f) f g) (hr : ∀ a b, g a b = r a b) :
    Gives64 mk f r := by
  obtain rfl : g = r := funext fun a => funext (hr a)
  exact fun s q k b x y hi hxy => (h s).trans (State.alu64_next hi hxy)

theorem gives64By32_of_alu6432 {g r : DWord → Word → DWord} (h : ∀ s, exec (mk f) s = s.alu6432 (mk f) f g) (hr : ∀ a b, g a b = r a b) :
    Gives64By32 mk f r := by
  obtain rfl : g = r := funext fun a => funext (hr a)
  exact fun s q k b x y hi hxy => (h s).trans (State.alu6432_next hi hxy)

theorem gives32Three_of_alu3 {g r : Word → Word → Word → Word} (h : ∀ s, exec (mk f) s = s.alu3 (mk f) f g)
    (hr : ∀ a b c, g a b c = r a b c) : Gives32Three mk f r := by
  obtain rfl : g = r := funext fun a => funext fun b => funext (hr a b)
  exact fun s q k b x y z hi hxy => (h s).trans (State.alu3_next hi hxy)

theorem gives32One_of_alu1 {g r : Word → Word} (h : ∀ s, exec (mk f) s = s.alu1 (mk f) f g) (hr : ∀ a, g a = r a) : Gives32One mk f r := by
  obtain rfl : g = r := funext hr
  exact fun s q k b x hi hx => (h s).trans (State.alu1_next hi hx)

/-- A register word becomes what its function gives: the mark of the issuing bundle is no source. -/
theorem becomes_of_runAlu {g r : State → Bundle → ThreadId → Thread → Option Thread} (h : ∀ s, exec (mk f) s = s.runAlu (mk f) g)
    (hr : ∀ s b t x, g (State.quiet s) b t x = r s b t x) : Becomes mk f r :=
  fun s _ _ b _ hi hy => (h s).trans (State.runAlu_next hi fun t ht => (hr s b t _).trans (hy t ht))

theorem givesPred32_of_becomes {r : Word → Word → Bool}
    (h : Becomes mk f fun s b t x => (s.a32 b t f).bind fun u => (x.b32 f).map fun v => x.setPred f.dst.toNat (r u v)) : GivesPred32 mk f r :=
  fun s q k b x y hi hxy => h s q k b _ hi fun t ht => by simp only [(hxy t ht).1, (hxy t ht).2, Option.bind_some, Option.map_some]

theorem givesPred64_of_becomes {r : DWord → DWord → Bool}
    (h : Becomes mk f fun s b t x => (s.a64 b t f).bind fun u => (x.b64 f).map fun v => x.setPred f.dst.toNat (r u v)) : GivesPred64 mk f r :=
  fun s q k b x y hi hxy => h s q k b _ hi fun t ht => by simp only [(hxy t ht).1, (hxy t ht).2, Option.bind_some, Option.map_some]

end

/-! ## Sums and differences (R102) -/

section
variable {n : Nat} (a b : BitVec n)

theorem addOf_wrap : addOf n 0 a b = a + b := rfl
theorem subOf_wrap : subOf n 0 a b = a - b := rfl

theorem addOf_signed : addOf n 1 a b = BitVec.ofInt n (max (-2 ^ (n - 1)) (min (2 ^ (n - 1) - 1) (a.toInt + b.toInt))) := rfl
theorem subOf_signed : subOf n 1 a b = BitVec.ofInt n (max (-2 ^ (n - 1)) (min (2 ^ (n - 1) - 1) (a.toInt - b.toInt))) := rfl

theorem addOf_unsigned : addOf n 2 a b = BitVec.ofNat n (min (2 ^ n - 1) (a.toNat + b.toNat)) := by
  have hpos : 0 < 2 ^ n := Nat.two_pow_pos n
  have hcast : satU n ((a.toNat : Int) + b.toNat) = ((min (2 ^ n - 1) (a.toNat + b.toNat) : Nat) : Int) := by
    have hpow : ((2 ^ n : Nat) : Int) = 2 ^ n := by push_cast; rfl
    simp only [satU, ← hpow]
    omega
  rw [show addOf n 2 a b = BitVec.ofInt n (satU n ((a.toNat : Int) + b.toNat)) from rfl, hcast, BitVec.ofInt_natCast]

theorem subOf_unsigned : subOf n 2 a b = BitVec.ofNat n (a.toNat - b.toNat) := by
  have ha := a.isLt
  have hcast : satU n ((a.toNat : Int) - b.toNat) = ((a.toNat - b.toNat : Nat) : Int) := by
    have hpow : ((2 ^ n : Nat) : Int) = 2 ^ n := by push_cast; rfl
    simp only [satU, ← hpow]
    omega
  rw [show subOf n 2 a b = BitVec.ofInt n (satU n ((a.toNat : Int) - b.toNat)) from rfl, hcast, BitVec.ofInt_natCast]

end

/-- Settles O1: without a control the sum wraps; with one the exact sum is clamped to the format's range. -/
theorem addAndSubtractWrapOrSaturate : Obligations.AddAndSubtractWrapOrSaturate := by
  unfold Obligations.AddAndSubtractWrapOrSaturate
  refine fun f => ⟨fun h => ?wrap, fun h => ?signed, fun h => ?unsigned⟩
  case wrap =>
    exact ⟨gives32_of_alu32 (fun _ => rfl) fun a b => by rw [h, addOf_wrap], gives32_of_alu32 (fun _ => rfl) fun a b => by rw [h, subOf_wrap],
      gives64_of_alu64 (fun _ => rfl) fun a b => by rw [h, addOf_wrap], gives64_of_alu64 (fun _ => rfl) fun a b => by rw [h, subOf_wrap]⟩
  case signed =>
    exact ⟨gives32_of_alu32 (fun _ => rfl) fun a b => by rw [h, addOf_signed], gives32_of_alu32 (fun _ => rfl) fun a b => by rw [h, subOf_signed],
      gives64_of_alu64 (fun _ => rfl) fun a b => by rw [h, addOf_signed], gives64_of_alu64 (fun _ => rfl) fun a b => by rw [h, subOf_signed]⟩
  case unsigned =>
    exact ⟨gives32_of_alu32 (fun _ => rfl) fun a b => by rw [h, addOf_unsigned], gives32_of_alu32 (fun _ => rfl) fun a b => by rw [h, subOf_unsigned],
      gives64_of_alu64 (fun _ => rfl) fun a b => by rw [h, addOf_unsigned], gives64_of_alu64 (fun _ => rfl) fun a b => by rw [h, subOf_unsigned]⟩

/-! ## Products (R102) -/

theorem mulhiOf_unsigned {n m : Nat} (h : m = 2 * n) (a b : BitVec n) :
    mulhiOf n 1 a b = (a.setWidth m * b.setWidth m).extractLsb' n n := by
  subst h
  have ha := a.isLt
  have hb := b.isLt
  have hle : 2 ^ n ≤ 2 ^ (2 * n) := Nat.pow_le_pow_right (by decide) (by omega)
  have hprod : a.toNat * b.toNat < 2 ^ (2 * n) := by
    rw [two_mul, pow_add]
    exact Nat.mul_lt_mul'' ha hb
  apply BitVec.eq_of_toNat_eq
  simp only [mulhiOf, if_true, BitVec.toNat_ofNat, BitVec.extractLsb'_toNat, BitVec.toNat_mul, BitVec.toNat_setWidth, Nat.shiftRight_eq_div_pow,
    Nat.mod_eq_of_lt (ha.trans_le hle), Nat.mod_eq_of_lt (hb.trans_le hle), Nat.mod_eq_of_lt hprod]

/-- The middle bits of the two's-complement form of an integer are those of its floor quotient. -/
theorem ofInt_extractLsb' {m n k : Nat} (h : k + n ≤ m) (z : Int) : (BitVec.ofInt m z).extractLsb' k n = BitVec.ofInt n (z / 2 ^ k) := by
  obtain ⟨j, rfl⟩ := Nat.exists_eq_add_of_le h
  have hdvd : (2 : Int) ^ (k + n + j) = 2 ^ k * (2 ^ n * 2 ^ j) := by ring
  have hquot : z % 2 ^ (k + n + j) / 2 ^ k % 2 ^ n = z / 2 ^ k % 2 ^ n := by
    rw [Int.emod_def z, hdvd, sub_eq_add_neg, mul_assoc, ← mul_neg, Int.add_mul_ediv_left _ _ (by positivity), mul_assoc, ← mul_neg,
      Int.add_mul_emod_self_left]
  apply BitVec.eq_of_toNat_eq
  rw [BitVec.extractLsb'_toNat, Nat.shiftRight_eq_div_pow, BitVec.toNat_ofInt, BitVec.toNat_ofInt]
  zify
  rw [Int.toNat_of_nonneg (Int.emod_nonneg _ (by positivity)), Int.toNat_of_nonneg (Int.emod_nonneg _ (by positivity))]
  exact_mod_cast hquot

theorem mulhiOf_signed {n m : Nat} (h : m = 2 * n) (a b : BitVec n) :
    mulhiOf n 0 a b = (a.signExtend m * b.signExtend m).extractLsb' n n := by
  rw [BitVec.signExtend, BitVec.signExtend, ← BitVec.ofInt_mul, ofInt_extractLsb' (by omega)]
  simp [mulhiOf]

/-- Settles O2: the low half is the product modulo 2^n, and the high half the middle bits of the double-width product. -/
theorem productsGiveLowAndHighHalves : Obligations.ProductsGiveLowAndHighHalves := by
  unfold Obligations.ProductsGiveLowAndHighHalves
  refine fun f => ⟨gives32_of_alu32 (fun _ => rfl) fun _ _ => rfl, gives64_of_alu64 (fun _ => rfl) fun _ _ => rfl,
    gives32Three_of_alu3 (fun _ => rfl) fun _ _ _ => rfl, becomes_of_runAlu (fun _ => by rw [exec, execImad64]) fun _ _ _ _ => by rw [State.quiet_a64],
    fun h => ⟨?_, ?_⟩, fun h => ⟨?_, ?_⟩⟩
  · exact gives32_of_alu32 (fun _ => rfl) fun a b => by rw [h, mulhiOf_unsigned (by rfl)]
  · exact gives64_of_alu64 (fun _ => rfl) fun a b => by rw [h, mulhiOf_unsigned (by rfl)]
  · exact gives32_of_alu32 (fun _ => rfl) fun a b => by rw [h, mulhiOf_signed (by rfl)]
  · exact gives64_of_alu64 (fun _ => rfl) fun a b => by rw [h, mulhiOf_signed (by rfl)]

/-! ## Division (R103) -/

section
variable {n : Nat} (a b : BitVec n)

theorem divOf_zero (ctl : Nat) (signed : Bool) : divOf n ctl signed a 0#n = if ctl = 1 then a else BitVec.allOnes n := by
  have hones : BitVec.ofInt n (-1) = BitVec.allOnes n := by rw [BitVec.ofInt_neg, BitVec.ofInt_ofNat, BitVec.neg_one_eq_allOnes]
  by_cases h : ctl = 1 <;> cases signed <;> simp [divOf, h, hones]

theorem divOf_unsigned (ctl : Nat) (hb : b ≠ 0#n) : divOf n ctl false a b = if ctl = 1 then a % b else a / b := by
  have hb' : b.toNat ≠ 0 := fun h => hb (BitVec.eq_of_toNat_eq h)
  have hb0 : (b.toNat : Int) ≠ 0 := by exact_mod_cast hb'
  by_cases h : ctl = 1
  · have hmod : (a.toNat : Int) - a.toNat / b.toNat * b.toNat = ((a % b).toNat : Int) := by
      rw [BitVec.toNat_umod, Int.natCast_mod, Int.emod_def, mul_comm]
    simp only [divOf, h, hb0, hmod, Bool.false_eq_true, if_true, if_false, Int.tdiv_eq_ediv_of_nonneg (Int.natCast_nonneg _), BitVec.ofInt_natCast, BitVec.ofNat_toNat, BitVec.setWidth_eq]
  · have hdiv : (a.toNat : Int) / b.toNat = ((a / b).toNat : Int) := by rw [BitVec.toNat_udiv, Int.natCast_div]
    simp only [divOf, h, hb0, hdiv, Bool.false_eq_true, if_false, Int.tdiv_eq_ediv_of_nonneg (Int.natCast_nonneg _), BitVec.ofInt_natCast, BitVec.ofNat_toNat, BitVec.setWidth_eq]

theorem divOf_signed (ctl : Nat) (hb : b ≠ 0#n) : divOf n ctl true a b = if ctl = 1 then a.srem b else a.sdiv b := by
  have hb' : b.toInt ≠ 0 := fun h => hb (BitVec.eq_of_toInt_eq (h.trans BitVec.toInt_zero.symm))
  by_cases h : ctl = 1
  · have hmod : a.toInt - a.toInt.tdiv b.toInt * b.toInt = (a.srem b).toInt := by rw [BitVec.toInt_srem, Int.tmod_def, mul_comm]
    simp only [divOf, h, hb', hmod, if_true, if_false, BitVec.ofInt_toInt]
  · apply BitVec.eq_of_toInt_eq
    simp [divOf, h, hb', BitVec.toInt_ofInt, BitVec.toInt_sdiv]

/-- A division's result by its control and whether the divisor is zero. -/
theorem divOf_eq (ctl : Nat) (signed : Bool) : divOf n ctl signed a b =
    if b = 0#n then (if ctl = 1 then a else BitVec.allOnes n)
    else if ctl = 1 then (if signed then a.srem b else a % b) else if signed then a.sdiv b else a / b := by
  split
  next h => rw [h, divOf_zero]
  next h =>
    cases signed
    · exact divOf_unsigned a b ctl h
    · exact divOf_signed a b ctl h

end

/-- Settles O3: a zero divisor is one case, and the quotient and the remainder of any other are those of the bit vectors. -/
theorem divisionHasNoTrap : Obligations.DivisionHasNoTrap := by
  unfold Obligations.DivisionHasNoTrap
  refine fun f => ⟨fun h => ⟨?_, ?_, ?_, ?_⟩, fun h => ⟨?_, ?_, ?_, ?_⟩⟩
  · exact gives32_of_alu32 (fun _ => rfl) fun a b => by rw [h, divOf_eq]; rfl
  · exact gives32_of_alu32 (fun _ => rfl) fun a b => by rw [h, divOf_eq]; rfl
  · exact gives64_of_alu64 (fun _ => rfl) fun a b => by rw [h, divOf_eq]; rfl
  · exact gives64_of_alu64 (fun _ => rfl) fun a b => by rw [h, divOf_eq]; rfl
  · exact gives32_of_alu32 (fun _ => rfl) fun a b => by rw [h, divOf_eq]; rfl
  · exact gives32_of_alu32 (fun _ => rfl) fun a b => by rw [h, divOf_eq]; rfl
  · exact gives64_of_alu64 (fun _ => rfl) fun a b => by rw [h, divOf_eq]; rfl
  · exact gives64_of_alu64 (fun _ => rfl) fun a b => by rw [h, divOf_eq]; rfl

/-! ## Minima, maxima and shifts (R104, R105) -/

section
variable {n : Nat} (a b : BitVec n)

theorem minOf_signed : minOf n 0 a b = if a.sle b then a else b := by simp [minOf, BitVec.sle]
theorem maxOf_signed : maxOf n 0 a b = if b.sle a then a else b := by simp [maxOf, BitVec.sle]
theorem minOf_unsigned : minOf n 1 a b = if a ≤ b then a else b := by simp [minOf, BitVec.le_def]
theorem maxOf_unsigned : maxOf n 1 a b = if b ≤ a then a else b := by simp [maxOf, BitVec.le_def]

theorem shlOf_eq (k : Nat) : shlOf n a k = if k ≥ n then 0 else BitVec.ofNat n (a.toNat * 2 ^ k) := by
  have hshift : a <<< k = BitVec.ofNat n (a.toNat * 2 ^ k) := by
    apply BitVec.eq_of_toNat_eq
    rw [BitVec.toNat_shiftLeft, Nat.shiftLeft_eq, BitVec.toNat_ofNat]
  rw [shlOf, hshift]

theorem shrOf_eq (k : Nat) : shrOf n a k = BitVec.ofNat n (a.toNat / 2 ^ k) := by
  have hshift : a >>> k = BitVec.ofNat n (a.toNat / 2 ^ k) := by
    apply BitVec.eq_of_toNat_eq
    rw [BitVec.toNat_ushiftRight, Nat.shiftRight_eq_div_pow, BitVec.toNat_ofNat, Nat.mod_eq_of_lt ((Nat.div_le_self _ _).trans_lt a.isLt)]
  rw [shrOf, ← hshift]
  split
  next h => exact (BitVec.ushiftRight_eq_zero h).symm
  next => rfl

end
/-- Settles O4: a minimum or maximum is the source that the order chooses, and a shift is the quotient or the product by a power of two. -/
theorem minimaMaximaAndShifts : Obligations.MinimaMaximaAndShifts := by
  refine ⟨fun f => ⟨fun h => ⟨?_, ?_, ?_, ?_⟩, fun h => ⟨?_, ?_, ?_, ?_⟩⟩, fun f => ⟨?_, ?_, ?_, ?_, ?_, ?_⟩⟩
  · exact gives32_of_alu32 (fun _ => rfl) fun a b => by rw [h, minOf_signed]
  · exact gives32_of_alu32 (fun _ => rfl) fun a b => by rw [h, maxOf_signed]
  · exact gives64_of_alu64 (fun _ => rfl) fun a b => by rw [h, minOf_signed]
  · exact gives64_of_alu64 (fun _ => rfl) fun a b => by rw [h, maxOf_signed]
  · exact gives32_of_alu32 (fun _ => rfl) fun a b => by rw [h, minOf_unsigned]
  · exact gives32_of_alu32 (fun _ => rfl) fun a b => by rw [h, maxOf_unsigned]
  · exact gives64_of_alu64 (fun _ => rfl) fun a b => by rw [h, minOf_unsigned]
  · exact gives64_of_alu64 (fun _ => rfl) fun a b => by rw [h, maxOf_unsigned]
  · exact gives32_of_alu32 (fun _ => rfl) fun a n => shlOf_eq a n.toNat
  · exact gives32_of_alu32 (fun _ => rfl) fun a n => shrOf_eq a n.toNat
  · exact gives32_of_alu32 (fun _ => rfl) fun _ _ => rfl
  · exact gives64By32_of_alu6432 (fun _ => rfl) fun a n => shlOf_eq a n.toNat
  · exact gives64By32_of_alu6432 (fun _ => rfl) fun a n => shrOf_eq a n.toNat
  · exact gives64By32_of_alu6432 (fun _ => rfl) fun _ _ => rfl

/-! ## Comparisons, selections and moves (R109 to R111) -/

theorem isetp_becomes (f : Fields) : Becomes .isetp f fun s b t x => (s.a32 b t f).bind fun u => (x.b32 f).map fun v =>
    x.setPred f.dst.toNat (compareOf 32 f.ctl u v) := becomes_of_runAlu (fun _ => by rw [exec, execIsetp]) fun _ _ _ _ => by rw [State.quiet_a32]

theorem isetp64_becomes (f : Fields) : Becomes .isetp64 f fun s b t x => (s.a64 b t f).bind fun u => (x.b64 f).map fun v =>
    x.setPred f.dst.toNat (compareOf 64 f.ctl u v) := becomes_of_runAlu (fun _ => by rw [exec, execIsetp64]) fun _ _ _ _ => by rw [State.quiet_a64]

/-- A comparison word writes the relation that its code names in both widths. -/
theorem isetp_gives {f : Fields} {r : (n : Nat) → BitVec n → BitVec n → Bool} (h : ∀ (n : Nat) (a b : BitVec n), compareOf n f.ctl a b = r n a b) :
    GivesPred32 .isetp f (r 32) ∧ GivesPred64 .isetp64 f (r 64) := by
  have h32 := isetp_becomes f
  have h64 := isetp64_becomes f
  simp only [h] at h32 h64
  exact ⟨givesPred32_of_becomes h32, givesPred64_of_becomes h64⟩

theorem comparisonsWritePredicates : ComparisonsWritePredicates := by
  refine fun f => ⟨fun h => ?_, fun h => ?_, fun h => ?_, fun h => ?_, fun h => ?_, fun h => ?_, fun h => ?_, fun h => ?_, fun h => ?_, fun h => ?_⟩
  · exact isetp_gives (r := fun _ a b => decide (a = b)) fun _ _ _ => by rw [h]; rfl
  · exact isetp_gives (r := fun _ a b => a.slt b) fun _ _ _ => by rw [h]; rfl
  · exact isetp_gives (r := fun _ a b => a.sle b) fun _ _ _ => by rw [h]; rfl
  · exact isetp_gives (r := fun _ a b => b.slt a) fun _ _ _ => by rw [h]; rfl
  · exact isetp_gives (r := fun _ a b => b.sle a) fun _ _ _ => by rw [h]; rfl
  · exact isetp_gives (r := fun _ a b => decide (a ≠ b)) fun _ _ _ => by rw [h]; rfl
  · exact isetp_gives (r := fun _ a b => a.ult b) fun _ _ _ => by rw [h]; rfl
  · exact isetp_gives (r := fun _ a b => a.ule b) fun _ _ _ => by rw [h]; rfl
  · exact isetp_gives (r := fun _ a b => b.ult a) fun _ _ _ => by rw [h]; rfl
  · exact isetp_gives (r := fun _ a b => b.ule a) fun _ _ _ => by rw [h]; rfl

theorem selectAndMoveCopyASource : SelectAndMoveCopyASource := by
  refine fun f => ⟨becomes_of_runAlu (fun _ => by rw [exec, execSel]) fun _ _ _ _ => by rw [State.quiet_a32],
    becomes_of_runAlu (fun _ => by rw [exec, execMov]) fun s b t x => ?_, becomes_of_runAlu (fun _ => by rw [exec, execMov64]) fun s b t x => ?_⟩
  · rw [State.quiet_a32]
    split <;> rfl
  · rw [State.quiet_a64]
    split <;> rfl

/-- Settles O6: each comparison code is its relation, and a selection or move gives one of its sources. -/
theorem comparisonsSelectionsAndMoves : Obligations.ComparisonsSelectionsAndMoves :=
  ⟨comparisonsWritePredicates, selectAndMoveCopyASource⟩

/-! ## Pointer arithmetic (R112 to R114) -/

/-- A moved pointer, where it may move there. -/
theorem pointerAdd_eq (wrap : Bool) (p : DWord) (d : Int) :
    pointerAdd wrap p d = if wrap = true ∨ (0 ≤ (offsetOf p : Int) + d ∧ (offsetOf p : Int) + d < 2 ^ 30) then
      some (mkPtr (birthOf p) (serialOf p) (((offsetOf p : Int) + d) % 2 ^ 30).toNat) else none := by
  simp only [pointerAdd, ptrFits, ptrAdd, Bool.or_eq_true, Bool.and_eq_true, decide_eq_true_eq]

theorem map_ite_some_none {α β : Type} (c : Prop) [Decidable c] (a : α) (g : α → β) :
    (if c then some a else none).map g = if c then some (g a) else none := by
  split <;> rfl

/-- Two pointers that agree above OFFSET name the same object. -/
theorem div_eq_iff_sameObject (p r : DWord) :
    p.toNat / 2 ^ 30 = r.toNat / 2 ^ 30 ↔ birthOf p = birthOf r ∧ serialOf p = serialOf r := by
  unfold birthOf serialOf
  omega

/-! ## Bits of sums of powers (R106, R108) -/

/-- The number whose bits below n are those of p. -/
def bitsNat (p : Nat → Bool) : Nat → Nat
  | 0 => 0
  | n + 1 => bitsNat p n + if p n then 2 ^ n else 0

theorem bitsNat_lt (p : Nat → Bool) : ∀ n, bitsNat p n < 2 ^ n
  | 0 => by simp [bitsNat]
  | n + 1 => by
    have := bitsNat_lt p n
    rw [bitsNat, pow_succ]
    split <;> omega

theorem testBit_bitsNat (p : Nat → Bool) {j : Nat} : ∀ {n}, j < n → (bitsNat p n).testBit j = p j
  | n + 1, h => by
    have hlt := bitsNat_lt p n
    have hsum : bitsNat p (n + 1) = 2 ^ n * (p n).toNat + bitsNat p n := by
      rw [bitsNat, add_comm]
      cases p n <;> simp
    rw [hsum, Nat.testBit_two_pow_mul_add _ hlt]
    split
    next hj => exact testBit_bitsNat p hj
    next hj =>
      obtain rfl : j = n := by omega
      cases p j <;> simp

theorem foldl_range_eq_bitsNat (p : Nat → Bool) (n : Nat) :
    ((List.range n).map fun j => if p j then 2 ^ j else 0).foldl (· + ·) 0 = bitsNat p n := by
  induction n with
  | zero => rfl
  | succ n ih => rw [List.range_succ, List.map_append, List.foldl_append, ih]; rfl

theorem getLsbD_ofNat_bitsNat (p : Nat → Bool) {n j : Nat} (h : j < n) : (BitVec.ofNat n (bitsNat p n)).getLsbD j = p j := by
  rw [BitVec.getLsbD_ofNat, testBit_bitsNat p h, decide_eq_true h, Bool.true_and]

theorem getLsbD_lop3Of {n j : Nat} (a table c d : BitVec n) (h : j < n) : (lop3Of n a table c d).getLsbD j
    = table.getLsbD ((a.getLsbD j).toNat + 2 * (c.getLsbD j).toNat + 4 * (d.getLsbD j).toNat) := by
  rw [lop3Of, foldl_range_eq_bitsNat (fun j => table.getLsbD ((if a.getLsbD j then 1 else 0) + (if c.getLsbD j then 2 else 0)
    + (if d.getLsbD j then 4 else 0))), getLsbD_ofNat_bitsNat _ h]
  cases a.getLsbD j <;> cases c.getLsbD j <;> cases d.getLsbD j <;> rfl

theorem klogOf_eq (table : Word) (a c d : Bool) : klogOf table a c d = table.getLsbD (a.toNat + 2 * c.toNat + 4 * d.toNat) := by
  cases a <;> cases c <;> cases d <;> rfl

theorem brevOf_eq (a : Word) : brevOf a = BitVec.ofNat 32 (bitsNat (fun j => a.getLsbD (31 - j)) 32) := by
  rw [brevOf, ← foldl_range_eq_bitsNat, ← List.sum_eq_foldl, ← List.sum_eq_foldl]
  have hrev : List.range 32 = (List.range 32).reverse.map (31 - ·) := by decide
  conv_lhs => rw [hrev, List.map_map, List.map_reverse, List.sum_reverse]
  congr 2

theorem getLsbD_brevOf (a : Word) {j : Nat} (h : j < 32) : (brevOf a).getLsbD j = a.getLsbD (31 - j) := by
  rw [brevOf_eq, getLsbD_ofNat_bitsNat _ h]

/-! ## Counts of bits (R108) -/

theorem length_filter_range_le (k n : Nat) : ((List.range n).filter fun j => decide (k ≤ j)).length = n - k := by
  induction n with
  | zero => simp
  | succ n ih =>
    rw [List.range_succ, List.filter_append, List.length_append, ih]
    by_cases h : k ≤ n <;> simp [h]
    all_goals omega

theorem clzOf_eq (a : Word) : clzOf a = BitVec.ofNat 32 ((List.range 32).filter fun j => a.toNat / 2 ^ j = 0).length := by
  by_cases h : a = 0
  · subst h
    decide
  · have hne : a.toNat ≠ 0 := fun e => h (BitVec.eq_of_toNat_eq e)
    have hlog : a.toNat.log2 < 32 := (Nat.log2_lt hne).2 a.isLt
    have hzero : ∀ j, decide (a.toNat / 2 ^ j = 0) = decide (a.toNat.log2 + 1 ≤ j) := fun j => by
      rw [decide_eq_decide, Nat.div_eq_zero_iff_lt (Nat.two_pow_pos j), ← Nat.log2_lt hne, Nat.succ_le_iff]
    simp only [clzOf, if_neg h, hzero, length_filter_range_le]
    congr 1
    omega

/-! ## Bit fields (R107) -/

section
variable (a b c : Word) {j : Nat}

theorem getLsbD_bfeOf_unsigned {ctl : Nat} (hctl : ctl ≠ 1) (hj : j < 32) : (bfeOf ctl a b).getLsbD j
    = (decide (j < min 32 (b.toNat / 256 % 256)) && decide (b.toNat % 256 + j ≤ 31) && a.getLsbD (b.toNat % 256 + j)) := by
  have hhigh : (decide (b.toNat % 256 + j ≤ 31) && a.getLsbD (b.toNat % 256 + j)) = a.getLsbD (b.toNat % 256 + j) := by
    by_cases h : b.toNat % 256 + j ≤ 31
    · simp [h]
    · rw [BitVec.getLsbD_of_ge _ _ (by omega), Bool.and_false]
  rw [Bool.and_assoc, hhigh]
  simp only [bfeOf, if_neg hctl]
  split
  next hw => simp [hw]
  next => rw [BitVec.getLsbD_ofNat, Nat.testBit_mod_two_pow, Nat.testBit_div_two_pow, decide_eq_true hj, Bool.true_and, add_comm]; rfl

/-- The bits of a number that is sign-extended from w bits. -/
theorem getLsbD_ofInt_sextN {w n : Nat} (hw : 0 < w) (hj : j < n) (m : Nat) :
    (BitVec.ofInt n (sextN (m % 2 ^ w) w)).getLsbD j = m.testBit (min j (w - 1)) := by
  have hext : BitVec.ofInt n (sextN (m % 2 ^ w) w) = (BitVec.ofNat w m).signExtend n := by
    rw [← BitVec.toNat_ofNat, sextN_toNat _ hw, BitVec.signExtend]
  rw [hext, BitVec.getLsbD_signExtend, BitVec.msb_eq_getLsbD_last, decide_eq_true hj, Bool.true_and]
  split
  next h => rw [BitVec.getLsbD_ofNat, decide_eq_true h, Bool.true_and, Nat.min_eq_left (by omega)]
  next h => rw [BitVec.getLsbD_ofNat, decide_eq_true (by omega), Bool.true_and, Nat.min_eq_right (by omega)]

theorem getLsbD_bfeOf_signed (hj : j < 32) : (bfeOf 1 a b).getLsbD j
    = (decide (min 32 (b.toNat / 256 % 256) ≠ 0) && a.getLsbD (min 31 (b.toNat % 256 + min j (min 32 (b.toNat / 256 % 256) - 1)))) := by
  simp only [bfeOf, if_true]
  split
  next hw => simp [hw]
  next hw =>
    rw [getLsbD_ofInt_sextN (Nat.pos_of_ne_zero hw) hj, decide_eq_true hw, Bool.true_and, BitVec.testBit_toNat, BitVec.getLsbD_sshiftRight,
      BitVec.msb_eq_getLsbD_last]
    generalize min 32 (b.toNat / 256 % 256) = w at hw ⊢
    generalize b.toNat % 256 = pos
    have hk : min j (w - 1) < 32 := by omega
    generalize min j (w - 1) = k at hk ⊢
    rw [decide_eq_false (by omega), Bool.not_false, Bool.true_and]
    split
    next h => rw [show min pos 32 + k = min 31 (pos + k) by omega]
    next h => rw [show 32 - 1 = min 31 (pos + k) by omega]

theorem testBit_two_pow_sub_two_pow {k m : Nat} (h : k ≤ m) : (2 ^ m - 2 ^ k).testBit j = (decide (k ≤ j) && decide (j < m)) := by
  have hmul : 2 ^ m - 2 ^ k = 2 ^ k * (2 ^ (m - k) - 1) := by
    rw [Nat.mul_sub, mul_one, ← pow_add, Nat.add_sub_cancel' h]
  rw [hmul, Nat.testBit_two_pow_mul, Nat.testBit_two_pow_sub_one]
  by_cases hj : k ≤ j <;> simp [hj]
  omega

theorem getLsbD_bfiOf (hj : j < 32) : (bfiOf a b c).getLsbD j
    = if b.toNat % 256 ≤ j ∧ j < b.toNat % 256 + min 32 (b.toNat / 256 % 256) then a.getLsbD (j - b.toNat % 256) else c.getLsbD j := by
  unfold bfiOf
  generalize b.toNat % 256 = pos
  generalize min 32 (b.toNat / 256 % 256) = w
  dsimp only
  split
  next h => rw [if_neg (by omega)]
  next h =>
    have hmask : (BitVec.ofNat 32 (2 ^ min (pos + w) 32 - 2 ^ pos)).getLsbD j = decide (pos ≤ j ∧ j < pos + w) := by
      rw [BitVec.getLsbD_ofNat, testBit_two_pow_sub_two_pow (by omega)]
      simp only [hj, lt_min_iff, decide_true, Bool.true_and, and_true, Bool.decide_and]
    rw [BitVec.getLsbD_or, BitVec.getLsbD_and, BitVec.getLsbD_and, BitVec.getLsbD_not, BitVec.getLsbD_shiftLeft, hmask]
    split
    next h' => simp [h', hj]
    next h' => simp [h', hj]

end

/-- Settles O5: each bit of a logic word is a bit of its table, and a bit field is read, or put, at its position. -/
theorem logicAndBitFieldResults : Obligations.LogicAndBitFieldResults := by
  unfold Obligations.LogicAndBitFieldResults
  refine fun f => ⟨⟨lop3Of 32, ?lop3, fun u v w d j hj => getLsbD_lop3Of u v w d hj⟩, ?klog, ⟨bfeOf f.ctl, ?bfe, fun a b j hj => ⟨fun h => ?_, fun h => ?_⟩⟩,
    ⟨bfiOf, ?bfi, fun a b c j hj => getLsbD_bfiOf a b c hj⟩, ?popc, ?clz, ⟨brevOf, ?brev, fun a j hj => getLsbD_brevOf a hj⟩⟩
  case lop3 => exact becomes_of_runAlu (fun _ => by rw [exec, execLop3]) fun _ _ _ _ => by rw [State.quiet_a32]
  case klog => exact becomes_of_runAlu (fun _ => by rw [exec, execKlog]) fun _ _ _ _ => by simp only [klogOf_eq]
  case bfe => exact gives32_of_alu32 (fun _ => rfl) fun _ _ => rfl
  case bfi => exact gives32Three_of_alu3 (fun _ => rfl) fun _ _ _ => rfl
  case popc => exact gives32One_of_alu1 (fun _ => rfl) fun _ => rfl
  case clz => exact gives32One_of_alu1 (fun _ => rfl) clzOf_eq
  case brev => exact gives32One_of_alu1 (fun _ => rfl) fun _ => rfl
  · exact getLsbD_bfeOf_unsigned a b h hj
  · rw [h]
    exact getLsbD_bfeOf_signed a b hj

/-- Settles O7: a moved pointer keeps all but its OFFSET, and the three fields are its bits 63:52, 51:30 and 29:0. -/
theorem pointerArithmeticKeepsTheObject : Obligations.PointerArithmeticKeepsTheObject := by
  unfold Obligations.PointerArithmeticKeepsTheObject
  refine fun f => ⟨?opadd, ?lea, ?opdiff, ?opmake, fun h => ?offset, fun h => ?serial, fun h => ?birth⟩
  case opadd =>
    refine becomes_of_runAlu (fun _ => by rw [exec, execOpadd]) fun _ _ _ _ => ?_
    simp only [State.quiet_a64, pointerAdd_eq, map_ite_some_none, decide_eq_true_eq]
  case lea =>
    refine becomes_of_runAlu (fun _ => by rw [exec, execLea]) fun _ _ _ _ => ?_
    simp only [State.quiet_a64, pointerAdd_eq, map_ite_some_none, decide_eq_true_eq, Nat.cast_pow, Nat.cast_ofNat]
  case opdiff =>
    refine becomes_of_runAlu (fun _ => by rw [exec, execOpdiff]) fun _ _ _ _ => ?_
    simp only [State.quiet_a64, div_eq_iff_sameObject]
  case opmake =>
    refine becomes_of_runAlu (fun _ => by rw [exec, execOpmake]) fun _ _ _ _ => ?_
    simp only [State.quiet_a32, mkPtr, mul_comm (2 ^ 52), mul_comm (2 ^ 30)]
  case offset => exact becomes_of_runAlu (fun _ => by rw [exec, execOpext]) fun _ _ _ _ => by simp [h]
  case serial => exact becomes_of_runAlu (fun _ => by rw [exec, execOpext]) fun _ _ _ _ => by simp [h]
  case birth => exact becomes_of_runAlu (fun _ => by rw [exec, execOpext]) fun _ _ _ _ => by simp [h]

end Sys2Proof.Machine
end

section
/-! PROOFS. The canonical form of memory (R5, log 3), first part: the operations of the state and the issue of a word. An
operation that writes no memory has an equation for it, and one that does keeps its canonical form. -/

namespace Sys2Proof.Machine

-- each of these proofs gives `grind` lemmas that stand shortly before it: elaborated in order, none waits for another on a thread of its own
set_option Elab.async false

theorem State.mem_foldl {α : Type} (l : List α) (g : State → α → State) (h : ∀ s a, (g s a).mem = s.mem) (s : State) :
    (l.foldl g s).mem = s.mem := by
  induction l generalizing s with
  | nil => rfl
  | cons a l ih => rw [List.foldl_cons, ih, h]

theorem State.wf_foldl {α : Type} (l : List α) (g : State → α → State)
    (h : ∀ s a, Memory.wf s.mem = true → Memory.wf (g s a).mem = true) {s : State} (hs : Memory.wf s.mem = true) :
    Memory.wf (l.foldl g s).mem = true := by
  induction l generalizing s with
  | nil => exact hs
  | cons a l ih => exact ih (h _ _ hs)

/-- A word's result keeps the canonical form where the state it carries does. -/
def Res.canonical : Res → Prop
  | .done s | .trapAfter s _ _ | .park s _ _ => Memory.wf s.mem = true
  | .trap _ _ _ _ | .fetch _ _ | .held => True

@[simp] theorem Res.canonical_done (s : State) : (Res.done s).canonical ↔ Memory.wf s.mem = true := Iff.rfl
@[simp] theorem Res.canonical_trapAfter (s : State) (k : TrapKind) (a : DWord) :
    (Res.trapAfter s k a).canonical ↔ Memory.wf s.mem = true := Iff.rfl
@[simp] theorem Res.canonical_park (s : State) (k : ParkKind) (r : Bool) :
    (Res.park s k r).canonical ↔ Memory.wf s.mem = true := Iff.rfl
@[simp] theorem Res.canonical_trap (k : TrapKind) (c : Nat) (a x : DWord) : (Res.trap k c a x).canonical ↔ True := Iff.rfl
@[simp] theorem Res.canonical_fetch (c : Nat) (a : DWord) : (Res.fetch c a).canonical ↔ True := Iff.rfl
@[simp] theorem Res.canonical_held : Res.held.canonical ↔ True := Iff.rfl

theorem State.wf_ite {c : Prop} [Decidable c] {a b : State} (ha : Memory.wf a.mem = true) (hb : Memory.wf b.mem = true) :
    Memory.wf (if c then a else b).mem = true := by
  split
  · exact ha
  · exact hb

theorem State.mem_ite {c : Prop} [Decidable c] {a b s : State} (ha : a.mem = s.mem) (hb : b.mem = s.mem) :
    (if c then a else b).mem = s.mem := by
  split
  · exact ha
  · exact hb

theorem State.wf_of_mem_eq {s u : State} (h : u.mem = s.mem) (hw : Memory.wf s.mem = true) : Memory.wf u.mem = true := by
  rw [h]; exact hw

/-! ## Operations of the state -/

@[simp] theorem State.setVf_mem (s : State) (c v : Nat) (x : Vf) : (State.setVf s c v x).mem = s.mem := rfl

@[simp] theorem State.setPart_mem (s : State) (c p : Nat) (x : Part) : (State.setPart s c p x).mem = s.mem := rfl

@[simp] theorem State.setGrant_mem (s : State) (c w : Nat) (x : Grant) : (State.setGrant s c w x).mem = s.mem := rfl

@[simp] theorem State.modThread_mem (s : State) (t : ThreadId) (f : Thread → Thread) : (State.modThread s t f).mem = s.mem :=
  rfl

@[simp] theorem State.modCohort_mem (s : State) (c : CohortId) (f : Cohort → Cohort) : (State.modCohort s c f).mem = s.mem :=
  rfl

@[simp] theorem State.modQuad_mem (s : State) (q : QuadId) (f : Quad → Quad) : (State.modQuad s q f).mem = s.mem := rfl

@[simp] theorem State.modCore_mem (s : State) (c : CoreId) (f : Core → Core) : (State.modCore s c f).mem = s.mem := rfl

@[simp] theorem State.modDie_mem (s : State) (d : DieId) (f : Die → Die) : (State.modDie s d f).mem = s.mem := rfl

@[simp] theorem State.modChip_mem (s : State) (c : Nat) (f : Chip → Chip) : (State.modChip s c f).mem = s.mem := rfl

@[simp] theorem State.modVf_mem (s : State) (c v : Nat) (f : Vf → Vf) : (State.modVf s c v f).mem = s.mem := rfl

@[simp] theorem State.modGrid_mem (s : State) (c g : Nat) (f : Grid → Grid) : (State.modGrid s c g f).mem = s.mem := rfl

@[simp] theorem State.settleBarrier_mem (s : State) (t : ThreadId) (id : Nat) (wrote : Bool) :
    (State.settleBarrier s t id wrote).mem = s.mem := by
  unfold State.settleBarrier; grind [State.modThread_mem]

@[simp] theorem State.addOp_mem (s : State) (o : Op) : (State.addOp s o).2.mem = s.mem := by
  unfold State.addOp; grind [State.modThread_mem, State.wf_foldl, State.mem_foldl]

@[simp] theorem State.expose_mem (s : State) (ids : List Nat) (spans : List (Nat × Nat)) :
    (State.expose s ids spans).mem = s.mem :=
  (State.expose_same ..).mem

@[simp] theorem State.exposeTo_mem (s : State) (d : DieId) (ids : List Nat) : (State.exposeTo s d ids).mem = s.mem := by
  unfold State.exposeTo; grind

@[simp] theorem State.widen_mem (s : State) (t : ThreadId) (level : Nat) (clock : List Nat) :
    (State.widen s t level clock).mem = s.mem :=
  (State.widen_same ..).mem

@[simp] theorem State.settleFence_mem (s : State) (t : ThreadId) (f : Fence) : (State.settleFence s t f).mem = s.mem :=
  (State.settleFence_same ..).mem

@[simp] theorem State.settleFences_mem (s : State) (t : ThreadId) : (State.settleFences s t).mem = s.mem :=
  (State.settleFences_same ..).mem

@[simp] theorem State.unqueue_mem (s : State) (ids : List Nat) : (State.unqueue s ids).mem = s.mem :=
  (State.unqueue_same ..).mem

@[simp] theorem State.giveUpBut_mem (s : State) (id : Nat) (l : List ((Nat × Nat) × Nat)) :
    (State.giveUpBut s id l).mem = s.mem := by
  unfold State.giveUpBut; grind

@[simp] theorem State.giveUp_mem (s : State) (id : Nat) : (State.giveUp s id).mem = s.mem := by
  unfold State.giveUp; grind [State.giveUpBut_mem]

@[simp] theorem State.endOne_mem (s : State) (id : Nat) : (State.endOne s id).mem = s.mem := (State.endOne_same ..).mem

@[simp] theorem State.endOp_mem (s : State) (id : Nat) : (State.endOp s id).mem = s.mem := by
  unfold State.endOp; grind [State.endOne_mem]

@[simp] theorem State.closeOp_mem (s : State) (id : Nat) : (State.closeOp s id).mem = s.mem := by
  unfold State.closeOp; grind [State.endOp_mem, State.setOp_mem, State.unqueue_mem]

@[simp] theorem State.send_mem (s : State) (m : Msg) : (State.send s m).2.mem = s.mem := rfl

@[simp] theorem State.contribute_mem (s : State) (id : Nat) (o : Op) (nb : Nat) (k : Contribution) :
    (State.contribute s id o nb k).mem = s.mem :=
  rfl

@[simp] theorem State.settleDefer_mem (s : State) (chip vf : Nat) : (State.settleDefer s chip vf).mem = s.mem := by
  unfold State.settleDefer; grind [State.modVf_mem]

theorem State.hostWrite_wf (s : State) (chip : Nat) (bus : Nat) (bs : List Byte) (hw : Memory.wf s.mem = true) :
    Memory.wf (State.hostWrite s chip bus bs).mem = true := by
  unfold State.hostWrite; grind [Memory.wf_writeBytes]

theorem State.reportFault_wf (s : State) (c v : Nat) (r : TrapRec) (reason grid cohort thread : Nat) (hw :
    Memory.wf s.mem = true) : Memory.wf (State.reportFault s c v r reason grid cohort thread).mem = true := by
  unfold State.reportFault; grind [State.hostWrite_wf, State.setVf_mem]

theorem State.logEvent_wf (s : State) (c : Nat) (type die unit vf addr : Nat) (hw : Memory.wf s.mem = true) :
    Memory.wf (State.logEvent s c type die unit vf addr).mem = true := by
  unfold State.logEvent; grind [State.hostWrite_wf, State.setChip_mem]

theorem State.allocFrames_mem (s : State) (d : DieId) (part vf n : Nat) {r : List Nat × State} (hu :
    s.allocFrames d part vf n = some r) : r.2.mem = s.mem := by
  induction n generalizing s r with
  | zero => unfold State.allocFrames at hu; grind
  | succ n ih => unfold State.allocFrames at hu; grind [State.setDie_mem]

@[simp] theorem State.freeFrames_mem (s : State) (d : DieId) (fs : List Nat) : (State.freeFrames s d fs).mem = s.mem := rfl

@[simp] theorem State.setRoot_mem (s : State) (chip o : Nat) (b : CounterBlock) : (State.setRoot s chip o b).mem = s.mem :=
  (State.setRoot_same ..).mem

@[simp] theorem State.setHeight_mem (s : State) (chip o n : Nat) : (State.setHeight s chip o n).mem = s.mem :=
  (State.setHeight_same ..).mem

@[simp] theorem State.setTreeBlock_mem (s : State) (chip o level i : Nat) (b : CounterBlock) :
    (State.setTreeBlock s chip o level i b).mem = s.mem :=
  (State.setTreeBlock_same ..).mem

@[simp] theorem State.dropTree_mem (s : State) (chip o : Nat) : (State.dropTree s chip o).mem = s.mem := by
  unfold State.dropTree; grind [State.modChip_mem, State.setHeight_mem, State.setRoot_mem]

@[simp] theorem State.commitBlock_mem (s : State) (chip o n level i : Nat) (b : CounterBlock) :
    (s.commitBlock chip o n level i b).mem = s.mem :=
  (State.commitBlock_same ..).mem

@[simp] theorem State.raiseTree_mem (s : State) (chip o : Nat) : (State.raiseTree s chip o).mem = s.mem :=
  (State.raiseTree_same ..).mem

@[simp] theorem State.fitTree_mem (s : State) (chip o : Nat) : (State.fitTree s chip o).mem = s.mem :=
  (State.fitTree_same ..).mem

@[simp] theorem State.encryptLine_mem (s : State) (d : DieId) (line : Nat) (plain : List Byte) :
    (State.encryptLine s d line plain).mem = s.mem :=
  (State.encryptLine_same ..).mem

@[simp] theorem State.writeBack_mem (s : State) (d : DieId) (line : Nat) : (State.writeBack s d line).mem = s.mem :=
  (State.writeBack_same ..).mem

@[simp] theorem State.spoilLine_mem (s : State) (d : DieId) (line : Nat) : (State.spoilLine s d line).mem = s.mem := rfl

@[simp] theorem State.writeHalves_mem (s : State) (d : DieId) (line : Nat) : (State.writeHalves s d line).mem = s.mem :=
  (State.writeHalves_same ..).mem

@[simp] theorem State.l2Touch_mem (s : State) (d : DieId) (line : Nat) (wr : Bool) (whole : List Nat) :
    (State.l2Touch s d line wr whole).mem = s.mem :=
  (State.l2Touch_same ..).mem

@[simp] theorem State.cleanLines_mem (s : State) (d : DieId) (mine : Nat → Bool) : (State.cleanLines s d mine).mem = s.mem :=
  (State.cleanLines_same ..).mem

@[simp] theorem State.l2Use_mem (s : State) (a n : Nat) (wr : Bool) : (State.l2Use s a n wr).mem = s.mem :=
  (State.l2Use_same ..).mem

theorem State.found_wf (s : State) (a n : Nat) (hw : Memory.wf s.mem = true) : Memory.wf (State.found s a n).mem = true := by
  unfold State.found; grind [State.logEvent_wf, State.wf_foldl, State.mem_foldl]

@[simp] theorem State.claim_mem (s : State) (c : CoreId) (lines : List Nat) : (State.claim s c lines).mem = s.mem := rfl

@[simp] theorem State.unclaim_mem (s : State) (c : CoreId) (lines : List Nat) : (State.unclaim s c lines).mem = s.mem :=
  (State.unclaim_same ..).mem

theorem State.storeKeep_wf (s : State) (a : Nat) (bs : List Byte) (hw : Memory.wf s.mem = true) :
    Memory.wf (State.storeKeep s a bs).mem = true := by
  unfold State.storeKeep; grind [State.l2Use_mem, Memory.wf_writeBytes]

theorem State.store_wf (s : State) (a : Nat) (bs : List Byte) (hw : Memory.wf s.mem = true) :
    Memory.wf (State.store s a bs).mem = true := by
  unfold State.store; grind [State.expose_mem, State.storeKeep_wf]

@[simp] theorem State.addEdges_mem (s : State) (a n : Nat) (l : List Edge) : (State.addEdges s a n l).mem = s.mem := rfl

theorem State.dirtyEntry_wf (s : State) (c v : Nat) (entry : Nat) (hw : Memory.wf s.mem = true) :
    Memory.wf (State.dirtyEntry s c v entry).mem = true := by
  unfold State.dirtyEntry; grind [State.hostWrite_wf, State.setVf_mem]

theorem State.dirtyPage_wf (s : State) (key : Nat × Nat) (page : Nat) (hw : Memory.wf s.mem = true) :
    Memory.wf (State.dirtyPage s key page).mem = true := by
  unfold State.dirtyPage; grind [State.dirtyEntry_wf, State.setObj_mem]

theorem State.dirtyRange_wf (s : State) (p : DWord) (n : Nat) (hw : Memory.wf s.mem = true) :
    Memory.wf (State.dirtyRange s p n).mem = true := by
  unfold State.dirtyRange; grind [State.dirtyPage_wf, State.wf_foldl, State.mem_foldl]

@[simp] theorem State.markWindow_mem (s : State) (t : ThreadId) (p : DWord) (n id : Nat) :
    (State.markWindow s t p n id).mem = s.mem := by
  unfold State.markWindow; grind [State.setGrant_mem, State.wf_foldl, State.mem_foldl]

theorem State.engineStore_wf (s : State) (t : ThreadId) (p : DWord) (a : Nat) (bs : List Byte) (id : Nat) (edges : List Edge)
    (adds : Bool) (hw : Memory.wf s.mem = true) : Memory.wf (State.engineStore s t p a bs id edges adds).mem = true := by
  unfold State.engineStore; grind [State.addEdges_mem, State.dirtyRange_wf, State.expose_mem, State.markWindow_mem,
      State.storeKeep_wf, State.store_wf]

@[simp] theorem State.affinity_mem (s : State) (p : DWord) (n chip : Nat) : (State.affinity s p n chip).mem = s.mem := by
  unfold State.affinity; grind [State.setObj_mem, State.wf_foldl, State.mem_foldl]

@[simp] theorem State.sendFlits_mem (s : State) (d : DieId) (h n : Nat) : (State.sendFlits s d h n).mem = s.mem :=
  (State.sendFlits_same ..).mem

@[simp] theorem State.dropFlit_mem (s : State) (d : DieId) (h : Nat) : (State.dropFlit s d h).mem = s.mem := by
  unfold State.dropFlit; grind [State.modDie_mem]

@[simp] theorem State.crossLink_mem (s : State) (d far : DieId) (out back : Nat) :
    (State.crossLink s d far out back).mem = s.mem :=
  (State.crossLink_same ..).mem

@[simp] theorem State.linkFlits_mem (s : State) (d : DieId) (p : DWord) (n : Nat) (wr : Bool) :
    (State.linkFlits s d p n wr).mem = s.mem :=
  (State.linkFlits_same ..).mem

theorem State.objectUse_wf (s : State) (chip vf : Nat) (p : DWord) (n : Nat) (hw : Memory.wf s.mem = true) :
    Memory.wf (State.objectUse s chip vf p n).mem = true := by
  unfold State.objectUse; grind [State.affinity_mem, State.found_wf, State.l2Use_mem]

theorem State.coreUse_wf (s : State) (c : CohortId) (p : DWord) (n : Nat) (hw : Memory.wf s.mem = true) :
    Memory.wf (State.coreUse s c p n).mem = true := by
  unfold State.coreUse; grind [State.linkFlits_mem, State.objectUse_wf]

theorem State.fetchUse_wf (s : State) (c : CohortId) (pc : DWord) (hw : Memory.wf s.mem = true) :
    Memory.wf (State.fetchUse s c pc).mem = true := by
  unfold State.fetchUse; grind [State.coreUse_wf]

theorem State.fetchFailed_wf (s : State) (c : CohortId) (pc : DWord) (cause : Nat) (hw : Memory.wf s.mem = true) :
    Memory.wf (State.fetchFailed s c pc cause).mem = true := by
  unfold State.fetchFailed; grind [State.fetchUse_wf]

theorem State.vectorUse_wf (s : State) (c : CohortId) (k : Nat) (hw : Memory.wf s.mem = true) :
    Memory.wf (State.vectorUse s c k).mem = true := by
  unfold State.vectorUse; grind [State.coreUse_wf]

theorem State.writeRecord_wf (s : State) (t : ThreadId) (p : DWord) (status : Nat) (missed : Nat) (edges : List Edge) (hw :
    Memory.wf s.mem = true) : Memory.wf (State.writeRecord s t p status missed edges).mem = true := by
  unfold State.writeRecord; grind [State.addEdges_mem, State.store_wf]

theorem State.finishCopy_wf (s : State) (id : Nat) (o : Op) (c : CopyOp) (err : Option Nat) (discarded : Bool) (hw :
    Memory.wf s.mem = true) : Memory.wf (State.finishCopy s id o c err discarded).mem = true := by
  unfold State.finishCopy; grind [State.closeOp_mem, State.contribute_mem, State.unclaim_mem, State.writeRecord_wf,
      State.wf_foldl, State.mem_foldl]

@[simp] theorem State.xferSignals_mem (s : State) (id : Nat) (o : Op) (x : XferOp) (err : Bool) :
    (State.xferSignals s id o x err).mem = s.mem := by
  unfold State.xferSignals; grind [State.contribute_mem]

@[simp] theorem State.xferRemote_mem (s : State) (id : Nat) (o : Op) (x : XferOp) (err : Bool) :
    (State.xferRemote s id o x err).2.mem = s.mem := by
  unfold State.xferRemote
  split
  · rfl
  · split
    · exact List.foldlRecOn (motive := fun r : Nat × State => r.2.mem = s.mem) x.shares _ rfl (by grind [State.send_mem])
    · exact s.send_mem _

@[simp] theorem State.dropMoves_mem (s : State) (f : Move → Bool) : (State.dropMoves s f).mem = s.mem := by
  unfold State.dropMoves; grind [State.freeFrames_mem, State.setObj_mem, State.wf_foldl, State.mem_foldl]

theorem State.abortOp_wf (s : State) (id : Nat) (hw : Memory.wf s.mem = true) : Memory.wf (State.abortOp s id).mem = true := by
  unfold State.abortOp; grind [State.contribute_mem, State.dropMoves_mem, State.endOp_mem, State.finishCopy_wf,
      State.modChip_mem, State.modDie_mem, State.modQuad_mem, State.setObj_mem, State.setOp_mem, State.unclaim_mem,
      State.unqueue_mem, State.xferRemote_mem, State.xferSignals_mem, State.wf_foldl, State.mem_foldl]

@[simp] theorem State.unpin_mem (s : State) (c : CohortId) : (State.unpin s c).mem = s.mem := rfl

@[simp] theorem State.releaseAll_mem (s : State) (t : ThreadId) : (State.releaseAll s t).mem = s.mem := rfl

@[simp] theorem State.leave_mem (s : State) (t : ThreadId) : (State.leave s t).mem = s.mem := rfl

theorem State.cutCohort_wf (s : State) (c : CohortId) (reason : Nat) (hw : Memory.wf s.mem = true) :
    Memory.wf (State.cutCohort s c reason).mem = true := by
  unfold State.cutCohort; grind [State.abortOp_wf, State.leave_mem, State.modCohort_mem, State.modGrid_mem,
      State.modThread_mem, State.releaseAll_mem, State.unpin_mem, State.wf_foldl, State.mem_foldl]

theorem State.terminate_wf (s : State) (c : CohortId) (t : Option ThreadId) (r : TrapRec) (reason : Nat) (hw :
    Memory.wf s.mem = true) : Memory.wf (State.terminate s c t r reason).mem = true := by
  unfold State.terminate; grind [State.cutCohort_wf, State.reportFault_wf]

@[simp] theorem State.observe_mem (s : State) (t : ThreadId) (nb : Nat) : (State.observe s t nb).mem = s.mem := rfl

@[simp] theorem State.stand_mem (s : State) (t : ThreadId) : (State.stand s t).mem = s.mem := by
  unfold State.stand; grind [State.modThread_mem, State.observe_mem, State.setThread_mem, State.wf_foldl, State.mem_foldl]

theorem State.enterHandler_wf (s : State) (t : ThreadId) (r : Raised) (fresh : Bool) (hw : Memory.wf s.mem = true) :
    Memory.wf (State.enterHandler s t r fresh).mem = true := by
  unfold State.enterHandler; grind [State.modThread_mem, State.stand_mem, State.terminate_wf, State.vectorUse_wf]

theorem State.takeTrap_wf (s : State) (t : ThreadId) (r : Raised) (hw : Memory.wf s.mem = true) :
    Memory.wf (State.takeTrap s t r).mem = true := by
  unfold State.takeTrap; grind [State.enterHandler_wf, State.leave_mem, State.setThread_mem, State.terminate_wf]

@[simp] theorem State.renew_mem (s : State) (t : ThreadId) : (State.renew s t).mem = s.mem := rfl

@[simp] theorem State.leaveHandler_mem (s : State) (t : ThreadId) (pc : DWord) (word : Option Nat) :
    (State.leaveHandler s t pc word).mem = s.mem := by
  unfold State.leaveHandler; grind [State.modThread_mem, State.renew_mem]

theorem State.addDeferred_wf (s : State) (t : ThreadId) (d : Deferred) (hw : Memory.wf s.mem = true) :
    Memory.wf (State.addDeferred s t d).mem = true := by
  unfold State.addDeferred; grind [State.reportFault_wf, State.setThread_mem, State.terminate_wf, State.wf_foldl,
      State.mem_foldl]

theorem State.deferMemory_wf (s : State) (id : Nat) (o : Op) (cause : Nat) (addr : DWord) (hw : Memory.wf s.mem = true) :
    Memory.wf (State.deferMemory s id o cause addr).mem = true := by
  unfold State.deferMemory; grind [State.addDeferred_wf]

theorem State.deferEngine_wf (s : State) (t : ThreadId) (id : Nat) (o : Op) (ctr cause : Nat) (addr aux : DWord) (nb :
    Option Nat) (prog : Option DWord) (hw : Memory.wf s.mem = true) :
    Memory.wf (State.deferEngine s t id o ctr cause addr aux nb prog).mem = true := by
  unfold State.deferEngine; grind [State.addDeferred_wf]

/-! ## Issue of a word -/

theorem State.headerTrap_wf (s : State) (t : ThreadId) (k : TrapKind) (cause count : Nat) (addr : DWord) (kind : PointKind)
    (hw : Memory.wf s.mem = true) : Memory.wf (State.headerTrap s t k cause count addr kind).mem = true := by
  unfold State.headerTrap; grind [State.takeTrap_wf]

theorem State.fetchFault_wf (s : State) (t : ThreadId) (cause : Nat) (hw : Memory.wf s.mem = true) :
    Memory.wf (State.fetchFault s t cause).mem = true := by
  unfold State.fetchFault; grind [State.fetchFailed_wf, State.headerTrap_wf, State.terminate_wf]

theorem State.refresh_wf (s : State) (t : ThreadId) (hw : Memory.wf s.mem = true) :
    Memory.wf (State.refresh s t).mem = true := by
  unfold State.refresh; grind [State.enterHandler_wf, State.fetchFault_wf, State.headerTrap_wf, State.setThread_mem,
      State.stand_mem]

@[simp] theorem State.runTimers_mem (s : State) (c : CohortId) : (State.runTimers s c).mem = s.mem := rfl

@[simp] theorem State.stopTimer_mem (s : State) (c : CohortId) (crew : Nat) (pc : DWord) :
    (State.stopTimer s c crew pc).mem = s.mem :=
  rfl

theorem State.refreshQuad_wf (s : State) (q : QuadId) (hw : Memory.wf s.mem = true) :
    Memory.wf (State.refreshQuad s q).mem = true := by
  unfold State.refreshQuad; grind [State.modThread_mem, State.refresh_wf, State.runTimers_mem, State.wf_foldl, State.mem_foldl]

theorem State.decodeTrap_wf (s : State) (t : ThreadId) (h : Header) (k : TrapKind) (n : Option Nat) (ws : List DWord) (hw :
    Memory.wf s.mem = true) : Memory.wf (State.decodeTrap s t h k n ws).mem = true := by
  unfold State.decodeTrap; grind [State.takeTrap_wf]

@[simp] theorem State.endClause_mem (s : State) (b : Bundle) (t : ThreadId) : (State.endClause s b t).mem = s.mem := by
  unfold State.endClause; grind [State.renew_mem, State.setThread_mem, State.stand_mem]

theorem State.formBundle_wf (s : State) (q : QuadId) (hw : Memory.wf s.mem = true) :
    Memory.wf (State.formBundle s q).mem = true := by
  have hr := s.refreshQuad_wf q hw
  simp only [State.formBundle]
  split
  · exact hr
  · split
    · exact hr
    · split
      · exact State.fetchFault_wf _ _ _ hr
      · refine State.wf_ite ?_ ?_
        · rw [State.endClause_mem]; exact hr
        · refine State.wf_ite ?_ ?_
          · exact State.wf_foldl _ _ (by grind [State.decodeTrap_wf]) hr
          · refine State.fetchUse_wf _ _ _ ?_
            rw [State.modQuad_mem]
            refine State.wf_ite ?_ ?_
            · rw [State.stopTimer_mem]
              exact State.wf_foldl _ _ (by grind [State.modGrid_mem, State.modThread_mem])
                (State.wf_foldl _ _ (by grind [State.decodeTrap_wf]) hr)
            · exact State.wf_foldl _ _ (by grind [State.modGrid_mem, State.modThread_mem])
                (State.wf_foldl _ _ (by grind [State.decodeTrap_wf]) hr)

@[simp] theorem State.advance_mem (s : State) (q : QuadId) (k : Nat) : (State.advance s q k).mem = s.mem := by
  unfold State.advance; grind [State.endClause_mem, State.modQuad_mem, State.wf_foldl, State.mem_foldl]

@[simp] theorem State.hold_mem (s : State) (q : QuadId) (k : Nat) (pool : Nat) : (State.hold s q k pool).mem = s.mem := by
  unfold State.hold; grind [State.modQuad_mem]

theorem State.settle_wf (s : State) (b : Bundle) (t : ThreadId) (r : Res) (hw : Memory.wf s.mem = true) (hr : r.canonical) :
    Memory.wf (s.settle b t r).mem = true := by
  unfold State.settle; grind [State.fetchFailed_wf, State.leave_mem, State.modThread_mem, State.takeTrap_wf, Res.canonical]

@[simp] theorem State.retire_mem (s : State) (i : Instr) (q : QuadId) (k : Nat) (ts : List ThreadId) :
    (State.retire s i q k ts).mem = s.mem := by
  unfold State.retire; grind [State.modCohort_mem, State.modQuad_mem, State.modThread_mem, State.wf_foldl, State.mem_foldl]

@[simp] theorem State.moveOn_mem (s : State) (i : Instr) (q : QuadId) (k : Nat) (ts : List ThreadId) :
    (State.moveOn s i q k ts).mem = s.mem := by
  unfold State.moveOn; grind [State.advance_mem, State.hold_mem, State.retire_mem]

theorem State.runBundle_wf (s : State) (i : Instr) (hold : State → Bundle → List ThreadId → Option Nat) (early :
    State → Bundle → List ThreadId → State) (act : State → QuadId → Nat → Bundle → List ThreadId → State) (he : ∀ s b ts,
    Memory.wf s.mem = true → Memory.wf (early s b ts).mem = true) (ha : ∀ s q k b ts,
    Memory.wf s.mem = true → Memory.wf (act s q k b ts).mem = true) (hw : Memory.wf s.mem = true) :
    Memory.wf (s.runBundle i hold early act).mem = true := by
  unfold State.runBundle
  grind [State.advance_mem, State.hold_mem, State.modQuad_mem, State.moveOn_mem]

theorem State.eachThread_wf (body : State → Bundle → ThreadId → State → Res) (hb : ∀ s b t u,
    Memory.wf s.mem = true → Memory.wf u.mem = true → (body s b t u).canonical) (s : State) (b : Bundle) (ts : List ThreadId)
    (hw : Memory.wf s.mem = true) : Memory.wf (s.eachThread body b ts).1.mem = true := by
  refine List.foldlRecOn (motive := fun r : State × List ThreadId => Memory.wf r.1.mem = true) ts _ hw fun r hr t _ => ?_
  have := hb s b t r.1 hw hr
  grind [State.settle_wf]

theorem State.runThreads_wf (s : State) (i : Instr) (hold : State → Bundle → List ThreadId → Option Nat) (body :
    State → Bundle → ThreadId → State → Res) (hb : ∀ s b t u, Memory.wf s.mem = true → Memory.wf u.mem = true → (body s b t
    u).canonical) (hw : Memory.wf s.mem = true) {u : State} (hu : s.runThreads i hold body = .next u) :
    Memory.wf u.mem = true := by
  cases hu
  refine s.runBundle_wf i _ _ _ (fun s b ts h => s.eachThread_wf body hb b _ h) (fun s q k b ts h => ?_) hw
  grind [s.eachThread_wf body hb b ts h, State.modQuad_mem]

@[simp] theorem noEarly_mem (s : State) (b : Bundle) (ts : List ThreadId) : (noEarly s b ts).mem = s.mem := rfl

theorem orTrap_canonical {α : Type} (v : Option α) (k : α → Res) (hk : ∀ x, (k x).canonical) : (orTrap v k).canonical := by
  cases v with
  | none => trivial
  | some x => exact hk x

theorem State.runAlu_wf (s : State) (i : Instr) (g : State → Bundle → ThreadId → Thread → Option Thread) (hw :
    Memory.wf s.mem = true) {u : State} (hu : State.runAlu s i g = .next u) : Memory.wf u.mem = true := by
  unfold State.runAlu at hu
  refine State.runThreads_wf _ _ _ _ (fun s0 b t s _ h => ?_) hw hu
  refine orTrap_canonical _ _ fun _ => ?_
  grind [State.setThread_mem, Res.canonical]

end Sys2Proof.Machine
end

section
/-! PROOFS. The canonical form of memory, second part: accesses, copies, the cistern, objects and arrivals. -/

namespace Sys2Proof.Machine

-- each of these proofs gives `grind` lemmas that stand shortly before it: elaborated in order, none waits for another on a thread of its own
set_option Elab.async false

/-! ## Performing an access -/

@[simp] theorem State.written_mem (s : State) (id : Nat) (o : Op) (a : Access) (addr : Nat) (k : List Nat) :
    (State.written s id o a addr k).mem = s.mem := by
  unfold State.written; grind [State.addEdges_mem, State.markWindow_mem, State.modThread_mem, State.widen_mem]

theorem State.place_wf (s : State) (id : Nat) (o : Op) (a : Access) (addr : Nat) (k : List Nat) (hw : Memory.wf s.mem = true) :
    Memory.wf (State.place s id o a addr k).mem = true := by
  unfold State.place; grind [State.exposeTo_mem, State.storeKeep_wf, State.store_wf]

theorem State.effect_wf (s : State) (id : Nat) (o : Op) (a : Access) (addr : Nat) (hw : Memory.wf s.mem = true) :
    Memory.wf (s.effect id o a addr).2.2.mem = true := by
  cases h : a.kind <;> simp only [State.effect, h]
  · grind [State.exposeTo_mem, State.modThread_mem]
  · grind [State.place_wf, State.dirtyRange_wf, State.written_mem]
  · grind [State.expose_mem, State.modThread_mem, State.settleBarrier_mem, State.storeKeep_wf, State.dirtyRange_wf,
      State.written_mem]

@[simp] theorem State.answer_mem (s : State) (id : Nat) (o : Op) (r : Answer) : (State.answer s id o r).mem = s.mem := rfl

theorem State.perform_wf (s : State) (id : Nat) (o : Op) (a : Access) (addr chip : Nat) (hw : Memory.wf s.mem = true) :
    Memory.wf (State.perform s id o a addr chip).mem = true := by
  unfold State.perform; grind [State.answer_mem, State.found_wf, State.l2Use_mem, State.effect_wf]

theorem State.performLocal_wf (s : State) (id : Nat) (hw : Memory.wf s.mem = true) :
    Memory.wf (State.performLocal s id).mem = true := by
  unfold State.performLocal; grind [State.answer_mem, State.perform_wf, State.place_wf]

theorem State.claimLines_wf (s : State) (c : CoreId) (lines : List Nat) (hw : Memory.wf s.mem = true) :
    Memory.wf (State.claimLines s c lines).mem = true := by
  unfold State.claimLines; grind [State.claim_mem, State.performLocal_wf, State.wf_foldl, State.mem_foldl]

@[simp] theorem State.markFailed_mem (s : State) (l : Nat) : (State.markFailed s l).mem = s.mem := rfl

theorem State.upsetAt_wf (s : State) (o : Op) (a : Access) (h die : Nat) (u : Upset) (hw : Memory.wf s.mem = true) :
    Memory.wf (State.upsetAt s o a h die u).mem = true := by
  unfold State.upsetAt; grind [State.logEvent_wf, State.markFailed_mem, State.modCore_mem, State.modDie_mem,
      State.spoilLine_mem, State.terminate_wf, State.writeBack_mem]

theorem State.cisternUpset_wf (s : State) (o : Op) (a : Access) (hw : Memory.wf s.mem = true) :
    Memory.wf (State.cisternUpset s o a).mem = true := by
  unfold State.cisternUpset; grind [State.logEvent_wf, State.markFailed_mem]

theorem State.serve_wf (s : State) (id : Nat) (o : Op) (a : Access) (h : Nat) (hw : Memory.wf s.mem = true) :
    Memory.wf (State.serve s id o a h).mem = true := by
  unfold State.serve; grind [State.affinity_mem, State.answer_mem, State.linkFlits_mem, State.perform_wf]

theorem State.translate_wf (s : State) (id : Nat) (o : Op) (a : Access) (h : Nat) (b : Obj) (hw : Memory.wf s.mem = true) :
    Memory.wf (State.translate s id o a h b).mem = true := by
  unfold State.translate; grind [State.serve_wf, State.setDie_mem, State.setOp_mem]

@[simp] theorem State.startWalks_mem (s : State) (id : Nat) (p : DWord) (n : Nat) :
    (State.startWalks s id p n).mem = s.mem := by
  unfold State.startWalks; grind [State.modDie_mem, State.wf_foldl, State.mem_foldl]

@[simp] theorem State.modExtent_mem (s : State) (k : Nat × Nat) (i : Nat) (f : Extent → Extent) :
    (State.modExtent s k i f).mem = s.mem := by
  unfold State.modExtent; grind [State.setObj_mem]

theorem State.takePlace_mem (s : State) (id : Nat) (k : Nat × Nat) (i : Nat) (b : Obj) {u : State} (hu :
    State.takePlace s id k i b = some u) : u.mem = s.mem := by
  unfold State.takePlace at hu; grind [State.modExtent_mem, State.setObj_mem]

@[simp] theorem State.waitPlace_mem (s : State) (id : Nat) (k : Nat × Nat) (i : Nat) (b : Obj) :
    (State.waitPlace s id k i b).mem = s.mem :=
  rfl

@[simp] theorem State.enqueue_mem (s : State) (id : Nat) (o : Op) (k : Nat × Nat) (i : Nat) (b : Obj) :
    (State.enqueue s id o k i b).mem = s.mem := by
  unfold State.enqueue; grind [State.setOp_mem, State.takePlace_mem, State.waitPlace_mem]

@[simp] theorem State.joinQueue_mem (s : State) (id : Nat) (k : Nat × Nat) (i : Nat) :
    (State.joinQueue s id k i).mem = s.mem := by
  simp only [State.joinQueue]
  split
  · rfl
  · split
    · rename_i b _ _
      cases h : s.takePlace id k i b with
      | none => exact s.waitPlace_mem id k i b
      | some u => exact s.takePlace_mem _ _ _ _ h
    · rfl

theorem State.arrive_wf (s : State) (id : Nat) (o : Op) (a : Access) (h : Nat) (hop last : Bool) (hw : Memory.wf s.mem = true)
    : Memory.wf (State.arrive s id o a h hop last).mem = true := by
  unfold State.arrive; grind [State.answer_mem, State.enqueue_mem, State.perform_wf, State.setOp_mem, State.translate_wf]

@[simp] theorem State.settleForwarded_mem (s : State) (id : Nat) (a : Access) : (State.settleForwarded s id a).mem = s.mem := by
  unfold State.settleForwarded; grind [State.modExtent_mem]

theorem State.arriveQueued_wf (s : State) (id : Nat) (o : Op) (a : Access) (hw : Memory.wf s.mem = true) :
    Memory.wf (State.arriveQueued s id o a).mem = true := by
  unfold State.arriveQueued; grind [State.answer_mem, State.settleForwarded_mem, State.translate_wf]

@[simp] theorem State.land_mem (s : State) (id : Nat) (o : Op) (a : Access) (v : Nat) (know : List Nat) :
    (State.land s id o a v know).mem = s.mem := by
  unfold State.land; grind [State.endOp_mem, State.modThread_mem]

@[simp] theorem State.sendRequest_mem (s : State) (t : ThreadId) (p : DWord) : (State.sendRequest s t p).2.mem = s.mem := by
  unfold State.sendRequest; grind [State.modDie_mem]

/-! ## Copies -/

@[simp] theorem State.engineWait_mem (s : State) (t : ThreadId) (id : Nat) (held : Bool) (p : DWord) (n : Nat) (wr : Bool) :
    (State.engineWait s t id held p n wr).mem = s.mem := by
  unfold State.engineWait; grind [State.giveUpBut_mem, State.joinQueue_mem, State.startWalks_mem, State.wf_foldl,
      State.mem_foldl]

theorem State.foundBy_wf (s : State) (t : ThreadId) (p : DWord) (n : Nat) (hw : Memory.wf s.mem = true) :
    Memory.wf (State.foundBy s t p n).mem = true := by
  unfold State.foundBy; grind [State.found_wf]

theorem State.engineWrite_wf (s : State) (t : ThreadId) (p : DWord) (bs : List Byte) (id : Nat) (edges : List Edge) (adds :
    Bool) (hw : Memory.wf s.mem = true) {u : State} (hu : State.engineWrite s t p bs id edges adds = .ok u) :
    Memory.wf u.mem = true := by
  unfold State.engineWrite at hu; grind [State.engineStore_wf]

@[simp] theorem State.usePages_mem (s : State) (p : DWord) (n : Nat) : (State.usePages s p n).mem = s.mem := by
  unfold State.usePages; grind [State.modDie_mem, State.wf_foldl, State.mem_foldl]

@[simp] theorem State.engineCount_mem (s : State) (t : ThreadId) (p : DWord) (n : Nat) (wr : Bool) :
    (State.engineCount s t p n wr).mem = s.mem := by
  unfold State.engineCount; grind [State.affinity_mem, State.l2Use_mem, State.linkFlits_mem, State.modDie_mem,
      State.usePages_mem]

theorem State.claimShares_wf (s : State) (t : ThreadId) (l : List Share) (hw : Memory.wf s.mem = true) :
    Memory.wf (State.claimShares s t l).mem = true := by
  unfold State.claimShares; grind [State.claimLines_wf, State.wf_foldl, State.mem_foldl]

theorem execCopy_wf (f : Fields) (s : State) (hw : Memory.wf s.mem = true) {u : State} (hu : execCopy f s = .next u) :
    Memory.wf u.mem = true := by
  unfold execCopy at hu
  refine State.runThreads_wf _ _ _ _ (fun s0 b t s _ h => ?_) hw hu
  refine orTrap_canonical _ _ fun _ => ?_
  grind [State.addOp_mem, State.claimShares_wf, Res.canonical]

@[simp] theorem State.waitFor_mem (s : State) (t : ThreadId) (id : Nat) : (State.waitFor s t id).mem = s.mem := rfl

theorem State.issueKick_canonical (s : State) (b : Bundle) (t : ThreadId) (list : DWord) (count : Nat) (mmio : Bool) (hw :
    Memory.wf s.mem = true) : (s.issueKick b t list count mmio).canonical := by
  unfold State.issueKick; grind [State.addOp_mem, State.waitFor_mem, Res.canonical]

theorem execKick_wf (f : Fields) (s : State) (hw : Memory.wf s.mem = true) {u : State} (hu : execKick f s = .next u) :
    Memory.wf u.mem = true := by
  unfold execKick at hu
  refine State.runThreads_wf _ _ _ _ (fun s0 b t s _ h => ?_) hw hu
  refine orTrap_canonical _ _ fun _ => ?_
  refine orTrap_canonical _ _ fun _ => ?_
  grind [State.issueKick_canonical, Res.canonical]

theorem State.kickRegisterStore_canonical (s : State) (b : Bundle) (t : ThreadId) (v : DWord) (hw : Memory.wf s.mem = true) :
    (s.kickRegisterStore b t v).canonical :=
  s.issueKick_canonical _ _ _ _ _ hw

theorem execKickRegister_mem (op : Nat) (s : State) {u : State} (hu : execKickRegister op s = .next u) : u.mem = s.mem := by
  unfold execKickRegister at hu; grind [State.setOp_mem]

theorem State.copyFault_wf (s : State) (id : Nat) (o : Op) (c : CopyOp) (cause : Nat) (p : DWord) (hw : Memory.wf s.mem = true)
    : Memory.wf (State.copyFault s id o c cause p).mem = true := by
  unfold State.copyFault; grind [State.addDeferred_wf, State.finishCopy_wf]

theorem execKickRecordFetch_wf (op : Nat) (s : State) (hw : Memory.wf s.mem = true) {u : State} (hu :
    execKickRecordFetch op s = .next u) : Memory.wf u.mem = true := by
  simp only [execKickRecordFetch, Host.Outcome.next.injEq] at hu
  subst hu
  split
  · split
    · split
      · exact hw
      · split
        · grind [State.giveUp_mem, State.setOp_mem]
        · split
          · rw [State.engineWait_mem]; exact hw
          · split
            · grind [State.copyFault_wf, State.foundBy_wf, State.addOp_mem, State.giveUp_mem, State.setOp_mem]
            · split
              · grind [State.copyFault_wf, State.foundBy_wf, State.addOp_mem, State.giveUp_mem, State.setOp_mem]
              · grind [State.claimShares_wf, State.addOp_mem, State.giveUp_mem, State.setOp_mem]
    · exact hw
  · exact hw

theorem State.copyChunk_wf (s : State) (id : Nat) (o : Op) (c : CopyOp) (i : Nat) (hw : Memory.wf s.mem = true) :
    Memory.wf (State.copyChunk s id o c i).mem = true := by
  simp only [State.copyChunk]
  split
  · grind [State.unclaim_mem, State.setOp_mem]
  · split
    · grind [State.engineWait_mem]
    · split
      · grind [State.engineWait_mem]
      · split
        · exact hw
        · have hg : Memory.wf (s.giveUp (c.list.getD id)).mem = true := by rw [State.giveUp_mem]; exact hw
          generalize s.giveUp (c.list.getD id) = s at hg
          split
          · grind [State.foundBy_wf, State.copyFault_wf, State.terminate_wf, State.finishCopy_wf]
          · split
            · grind [State.foundBy_wf, State.copyFault_wf, State.terminate_wf, State.finishCopy_wf]
            · rename_i v hv
              have hv : Memory.wf v.mem = true := by
                split at hv
                · cases hv; grind [State.store_wf, State.addEdges_mem]
                · grind [State.engineWrite_wf]
              grind [State.setOp_mem, State.contribute_mem, State.unclaim_mem, State.engineCount_mem]

theorem execCopyChunkWrite_wf (op : Nat) (share : Nat) (s : State) (hw : Memory.wf s.mem = true) {u : State} (hu :
    execCopyChunkWrite op share s = .next u) : Memory.wf u.mem = true := by
  unfold execCopyChunkWrite at hu; grind [State.copyChunk_wf]

theorem execCopyComplete_wf (op : Nat) (s : State) (hw : Memory.wf s.mem = true) {u : State} (hu :
    execCopyComplete op s = .next u) : Memory.wf u.mem = true := by
  unfold execCopyComplete at hu; grind [State.finishCopy_wf]

/-! ## Access words and requests -/

@[simp] theorem State.issueAccess_mem (s : State) (b : Bundle) (t : ThreadId) (ctr : Nat) (a : Access) :
    (State.issueAccess s b t ctr a).mem = s.mem := by
  have h : (if isGlobal a.ptr then s.sendRequest t a.ptr else (Phase.issued, s)).2.mem = s.mem := by
    split
    · exact s.sendRequest_mem ..
    · rfl
  simp only [State.issueAccess]
  split
  · exact (State.modThread_mem ..).trans ((State.addOp_mem ..).trans h)
  · exact (State.addOp_mem ..).trans h

theorem State.issueMmio_canonical (s : State) (b : Bundle) (t : ThreadId) (p : DWord) (n data : Nat) (rel : Option Nat) (hw :
    Memory.wf s.mem = true) : (s.issueMmio b t p n data rel).canonical := by
  unfold State.issueMmio; grind [State.addOp_mem, State.modThread_mem, State.kickRegisterStore_canonical, Res.canonical]

theorem State.accessWord_wf (s : State) (i : Instr) (f : Fields) (store ordered wide : Bool) (hw : Memory.wf s.mem = true) {u :
    State} (hu : State.accessWord s i f store ordered wide = .next u) : Memory.wf u.mem = true := by
  unfold State.accessWord at hu
  refine State.runThreads_wf _ _ _ _ (fun s0 b t s _ h => ?_) hw hu
  refine orTrap_canonical _ _ fun _ => ?_
  grind [State.issueAccess_mem, State.issueMmio_canonical, Res.canonical]

theorem State.atomWord_wf (s : State) (i : Instr) (f : Fields) (code : Nat) (hw : Memory.wf s.mem = true) {u : State} (hu :
    State.atomWord s i f code = .next u) : Memory.wf u.mem = true := by
  unfold State.atomWord at hu
  refine State.runThreads_wf _ _ _ _ (fun s0 b t s _ h => ?_) hw hu
  refine orTrap_canonical _ _ fun _ => ?_
  refine orTrap_canonical _ _ fun _ => ?_
  grind [State.issueAccess_mem, Res.canonical]

theorem execAtomTadd_wf (f : Fields) (s : State) (hw : Memory.wf s.mem = true) {u : State} (hu : execAtomTadd f s = .next u) :
    Memory.wf u.mem = true := by
  unfold execAtomTadd at hu
  refine State.runThreads_wf _ _ _ _ (fun s0 b t s _ h => ?_) hw hu
  refine orTrap_canonical _ _ fun _ => ?_
  split
  · trivial
  · split
    · trivial
    · split
      · exact h
      · exact h
      · split
        · refine iteInduction (motive := Res.canonical) (fun _ => ?_) fun _ => ?_
          · grind [State.deferMemory_wf, State.endOp_mem, State.found_wf, State.issueAccess_mem, State.modThread_mem,
              Res.canonical]
          · exact (congrArg (Memory.wf · = true) ((State.modThread_mem ..).trans (State.issueAccess_mem ..))).mpr h
        · exact h

theorem execFence_wf (f : Fields) (s : State) (hw : Memory.wf s.mem = true) {u : State} (hu : execFence f s = .next u) :
    Memory.wf u.mem = true := by
  unfold execFence at hu
  refine State.runThreads_wf _ _ _ _ (fun s0 b t s _ h => ?_) hw hu
  grind [State.modThread_mem, State.settleFences_mem, orTrap, Res.canonical]

theorem execAccessRequest_wf (op : Nat) (upset : Upset) (s : State) (hw : Memory.wf s.mem = true) {u : State} (hu :
    execAccessRequest op upset s = .next u) : Memory.wf u.mem = true := by
  unfold execAccessRequest at hu; grind [State.arriveQueued_wf, State.arrive_wf, State.cisternUpset_wf, State.dropFlit_mem,
      State.upsetAt_wf]

theorem execWellheadRequest_mem (op : Nat) (s : State) {u : State} (hu : execWellheadRequest op s = .next u) :
    u.mem = s.mem := by
  simp only [execWellheadRequest, Host.Outcome.next.injEq] at hu
  subst hu
  repeat' split
  all_goals rfl

theorem execServed_mem (op : Nat) (s : State) {u : State} (hu : execServed op s = .next u) : u.mem = s.mem := by
  unfold execServed at hu; grind [State.endOp_mem, State.land_mem, State.modDie_mem]

theorem execNoObject_mem (op : Nat) (s : State) {u : State} (hu : execNoObject op s = .next u) : u.mem = s.mem := by
  unfold execNoObject at hu; grind [State.setOp_mem]

theorem execFaultResponse_wf (op : Nat) (s : State) (hw : Memory.wf s.mem = true) {u : State} (hu :
    execFaultResponse op s = .next u) : Memory.wf u.mem = true := by
  unfold execFaultResponse at hu; grind [State.deferMemory_wf, State.endOp_mem, State.settleBarrier_mem]

theorem execRetry_mem (op : Nat) (s : State) {u : State} (hu : execRetry op s = .next u) : u.mem = s.mem := by
  unfold execRetry at hu; grind [State.sendRequest_mem, State.setOp_mem]

theorem State.walked_wf (s : State) (d : DieId) (page id : Nat) (hw : Memory.wf s.mem = true) :
    Memory.wf (State.walked s d page id).mem = true := by
  unfold State.walked; grind [State.answer_mem, State.serve_wf, State.settleForwarded_mem]

theorem execTranslationWalk_wf (d : DieId) (page : Nat) (s : State) (hw : Memory.wf s.mem = true) {u : State} (hu :
    execTranslationWalk d page s = .next u) : Memory.wf u.mem = true := by
  unfold execTranslationWalk at hu; grind [State.setDie_mem, State.walked_wf, State.wf_foldl, State.mem_foldl]

/-! ## The cistern -/

theorem execCtag_wf (f : Fields) (s : State) (hw : Memory.wf s.mem = true) {u : State} (hu : execCtag f s = .next u) :
    Memory.wf u.mem = true := by
  unfold execCtag at hu
  refine State.runThreads_wf _ _ _ _ (fun s0 b t s _ h => ?_) hw hu
  refine orTrap_canonical _ _ fun _ => ?_
  grind [State.setThread_mem, Res.canonical]

theorem execCpres_wf (f : Fields) (s : State) (hw : Memory.wf s.mem = true) {u : State} (hu : execCpres f s = .next u) :
    Memory.wf u.mem = true := by
  unfold execCpres at hu
  refine State.runThreads_wf _ _ _ _ (fun s0 b t s _ h => ?_) hw hu
  refine orTrap_canonical _ _ fun _ => ?_
  grind [State.setThread_mem, Res.canonical]

theorem execCfill_wf (f : Fields) (s : State) (hw : Memory.wf s.mem = true) {u : State} (hu : execCfill f s = .next u) :
    Memory.wf u.mem = true := by
  unfold execCfill at hu
  refine State.runThreads_wf _ _ _ _ (fun s0 b t s _ h => ?_) hw hu
  refine orTrap_canonical _ _ fun _ => ?_
  grind [State.addOp_mem, State.claimLines_wf, State.modCohort_mem, Res.canonical]

theorem State.lineFault_wf (s : State) (id : Nat) (o : Op) (l : LineOp) (cause : Nat) (p : DWord) (hw : Memory.wf s.mem = true)
    : Memory.wf (State.lineFault s id o l cause p).mem = true := by
  unfold State.lineFault; grind [State.deferMemory_wf]

theorem execCfillLine_wf (op : Nat) (line : Nat) (s : State) (hw : Memory.wf s.mem = true) {u : State} (hu :
    execCfillLine op line s = .next u) : Memory.wf u.mem = true := by
  unfold execCfillLine at hu; grind [State.addEdges_mem, State.endOp_mem, State.engineCount_mem, State.engineWait_mem,
      State.foundBy_wf, State.giveUp_mem, State.lineFault_wf, State.modCohort_mem, State.setOp_mem, State.store_wf,
      State.unclaim_mem]

theorem execCevict_wf (f : Fields) (s : State) (hw : Memory.wf s.mem = true) {u : State} (hu : execCevict f s = .next u) :
    Memory.wf u.mem = true := by
  unfold execCevict at hu
  refine State.runThreads_wf _ _ _ _ (fun s0 b t s _ h => ?_) hw hu
  refine orTrap_canonical _ _ fun _ => ?_
  grind [State.addOp_mem, State.endOp_mem, State.modCohort_mem, Res.canonical]

theorem execCevictWb_wf (f : Fields) (s : State) (hw : Memory.wf s.mem = true) {u : State} (hu : execCevictWb f s = .next u) :
    Memory.wf u.mem = true := by
  unfold execCevictWb at hu
  refine State.runThreads_wf _ _ _ _ (fun s0 b t s _ h => ?_) hw hu
  refine orTrap_canonical _ _ fun _ => ?_
  grind [State.addOp_mem, State.modCohort_mem, Res.canonical]

theorem execCevictWbLine_wf (op : Nat) (s : State) (hw : Memory.wf s.mem = true) {u : State} (hu :
    execCevictWbLine op s = .next u) : Memory.wf u.mem = true := by
  simp only [execCevictWbLine, Host.Outcome.next.injEq] at hu
  subst hu
  split
  · split
    · split
      · exact hw
      · split
        · rw [State.giveUp_mem]; exact hw
        · split
          · rw [State.engineWait_mem]; exact hw
          · split
            · rw [State.endOp_mem, State.setOp_mem]
              split
              · grind [State.engineCount_mem, State.engineWrite_wf, State.giveUp_mem]
              · grind [State.foundBy_wf, State.lineFault_wf, State.giveUp_mem]
            · rw [State.setOp_mem]
              split
              · grind [State.engineCount_mem, State.engineWrite_wf, State.giveUp_mem]
              · grind [State.foundBy_wf, State.lineFault_wf, State.giveUp_mem]
    · exact hw
  · exact hw

theorem execLrcfgEnable_wf (op : Nat) (s : State) (hw : Memory.wf s.mem = true) {u : State} (hu :
    execLrcfgEnable op s = .next u) : Memory.wf u.mem = true := by
  unfold execLrcfgEnable at hu; grind [State.claimLines_wf, State.endOp_mem, State.modCore_mem]

@[simp] theorem State.disableRing_mem (s : State) (c : CoreId) (part n : Nat) (cfg : DWord) :
    (State.disableRing s c part n cfg).mem = s.mem := by
  unfold State.disableRing; grind [State.modCore_mem, State.unclaim_mem]

theorem execLrcfgDisable_mem (op : Nat) (s : State) {u : State} (hu : execLrcfgDisable op s = .next u) : u.mem = s.mem := by
  unfold execLrcfgDisable at hu; grind [State.disableRing_mem, State.endOp_mem]

theorem execLrconsWrite_wf (op : Nat) (s : State) (hw : Memory.wf s.mem = true) {u : State} (hu :
    execLrconsWrite op s = .next u) : Memory.wf u.mem = true := by
  unfold execLrconsWrite at hu; grind [State.claimLines_wf, State.endOp_mem, State.modCore_mem]

theorem State.landFrame_wf (s : State) (c : CoreId) (part n : Nat) (f : Frame) (seq : Nat) (hw : Memory.wf s.mem = true) :
    Memory.wf (State.landFrame s c part n f seq).mem = true := by
  unfold State.landFrame; grind [State.modCore_mem, State.store_wf, State.unclaim_mem]

theorem execFrameReceived_wf (chip : Nat) (frame : Frame) (s : State) (hw : Memory.wf s.mem = true) {u : State} (hu :
    execFrameReceived chip frame s = .next u) : Memory.wf u.mem = true := by
  unfold execFrameReceived at hu; grind [State.landFrame_wf, State.modCore_mem]

/-! ## Objects and moves -/

@[simp] theorem State.issueObj_mem (s : State) (b : Bundle) (t : ThreadId) (o : ObjOp) : (State.issueObj s b t o).mem = s.mem :=
  rfl

theorem State.objWord_wf (s : State) (i : Instr) (f : Fields) (code : ObjCode) (wide : Bool) (operand :
    Thread → Option (DWord × Bool)) (hw : Memory.wf s.mem = true) {u : State} (hu :
    State.objWord s i f code wide operand = .next u) : Memory.wf u.mem = true := by
  unfold State.objWord at hu
  refine State.runThreads_wf _ _ _ _ (fun s0 b t s _ h => ?_) hw hu
  refine orTrap_canonical _ _ fun _ => ?_
  refine orTrap_canonical _ _ fun _ => ?_
  grind [State.issueObj_mem, Res.canonical]

@[simp] theorem State.landObj_mem (s : State) (id : Nat) (o : Op) (b : ObjOp) (v : Nat) :
    (State.landObj s id o b v).mem = s.mem := by
  unfold State.landObj; grind [State.crossLink_mem, State.endOp_mem, State.modThread_mem]

theorem State.takeSerial_mem (s : State) (c : Nat) {r : Nat × State} (hu : s.takeSerial c = some r) : r.2.mem = s.mem := by
  simp only [State.takeSerial, Option.map_eq_some_iff] at hu
  obtain ⟨n, _, rfl⟩ := hu
  exact s.modChip_mem ..

theorem State.wipe_wf (s : State) (a n : Nat) (hw : Memory.wf s.mem = true) : Memory.wf (State.wipe s a n).mem = true := by
  unfold State.wipe; grind [State.expose_mem, Memory.wf_clear]

theorem State.newObject_wf (s : State) (c die vf size log2 : Nat) (hw : Memory.wf s.mem = true) {r : Nat × State} (hu :
    s.newObject c die vf size log2 = some r) : Memory.wf r.2.mem = true := by
  unfold State.newObject at hu; grind [→ State.allocFrames_mem, → State.takeSerial_mem, State.wipe_wf, State.setObj_mem]

theorem State.freeObject_wf (s : State) (k : Nat × Nat) (hw : Memory.wf s.mem = true) :
    Memory.wf (State.freeObject s k).mem = true := by
  unfold State.freeObject; grind [State.freeFrames_mem, State.modDie_mem, State.wipe_wf, State.wf_foldl, State.mem_foldl]

@[simp] theorem State.acceptMoves_mem (s : State) (l : List ((Nat × Nat) × Nat)) (dest vf p : Nat) (op : Option Nat) (who :
    Nat × Nat) : (State.acceptMoves s l dest vf p op who).mem = s.mem := by
  unfold State.acceptMoves; grind [State.modExtent_mem, State.wf_foldl, State.mem_foldl]

theorem State.reserveAll_mem (s : State) (l : List (Nat × Move)) {u : State} (hu : s.reserveAll l = some u) :
    u.mem = s.mem := by
  induction l generalizing s with
  | nil => unfold State.reserveAll at hu; grind
  | cons m l ih =>
    unfold State.reserveAll at hu
    cases ho : s.objects.get? m.2.obj with
    | none => simp only [ho] at hu; exact ih s hu
    | some o =>
      simp only [ho] at hu
      split at hu
      · cases hu
      · rename_i hd
        obtain ⟨d, _, hr⟩ := List.exists_of_findSome?_eq_some hd
        simp only [Option.map_eq_some_iff] at hr
        obtain ⟨r, hr, he⟩ := hr
        cases he
        exact (ih _ hu).trans (s.allocFrames_mem _ _ _ _ hr)

theorem State.tryMove_mem (s : State) (objs : List ((Nat × Nat) × Obj)) (l : List ((Nat × Nat) × Nat)) (realm : Word) (dest p :
    Nat) (op : Option Nat) (who : Nat × Nat) {u : State} (hu : State.tryMove s objs l realm dest p op who = .ok u) :
    u.mem = s.mem := by
  unfold State.tryMove at hu; grind [State.acceptMoves_mem, State.reserveAll_mem]

@[simp] theorem State.walksToQueue_mem (s : State) (m : Move) (pgs : List Nat) : (State.walksToQueue s m pgs).mem = s.mem := by
  unfold State.walksToQueue; grind [State.enqueue_mem, State.joinQueue_mem, State.modDie_mem, State.wf_foldl, State.mem_foldl]

@[simp] theorem State.beginCopy_mem (s : State) (m : Move) (o : Obj) : (State.beginCopy s m o).mem = s.mem := by
  unfold State.beginCopy; grind [State.cleanLines_mem, State.modExtent_mem, State.walksToQueue_mem, State.wf_foldl,
      State.mem_foldl]

theorem execFramesReserved_mem (mv : Nat) (die : Nat) (s : State) {u : State} (hu : execFramesReserved mv die s = .next u) :
    u.mem = s.mem := by
  simp only [execFramesReserved, Host.Outcome.next.injEq] at hu
  subst hu
  split
  · rfl
  · split
    · grind [State.modExtent_mem]
    · split
      · rfl
      · split
        · rfl
        · rename_i v hr
          have : v.mem = s.mem := by
            split at hr
            · cases hr; rfl
            · obtain ⟨a, ha, he⟩ := Option.map_eq_some_iff.mp hr
              cases he
              exact s.allocFrames_mem _ _ _ _ ha
          grind [State.beginCopy_mem]

theorem execFramesRefused_mem (mv : Nat) (s : State) {u : State} (hu : execFramesRefused mv s = .next u) : u.mem = s.mem := by
  unfold execFramesRefused at hu; grind [→ State.allocFrames_mem, State.modExtent_mem, State.setOp_mem]

theorem State.carryLine_wf (s : State) (dst : DieId) (line j : Nat) (hw : Memory.wf s.mem = true) :
    Memory.wf (State.carryLine s dst line j).mem = true := by
  unfold State.carryLine; grind [State.encryptLine_mem, State.found_wf, State.spoilLine_mem]

theorem State.carryPage_wf (s : State) (m : Move) (o : Obj) (page frame : Nat) (hw : Memory.wf s.mem = true) :
    Memory.wf (State.carryPage s m o page frame).mem = true := by
  unfold State.carryPage; grind [State.carryLine_wf, State.crossLink_mem, State.wf_foldl, State.mem_foldl]

theorem execCopyDoneCommit_wf (mv : Nat) (s : State) (hw : Memory.wf s.mem = true) {u : State} (hu :
    execCopyDoneCommit mv s = .next u) : Memory.wf u.mem = true := by
  unfold execCopyDoneCommit at hu; grind [State.carryPage_wf, State.modDie_mem, State.modExtent_mem, State.walked_wf,
      State.wf_foldl, State.mem_foldl]

theorem execWellheadCommit_mem (mv : Nat) (s : State) {u : State} (hu : execWellheadCommit mv s = .next u) : u.mem = s.mem := by
  unfold execWellheadCommit at hu; grind

@[simp] theorem State.sendOn_mem (s : State) (m : Move) (o : Obj) : (State.sendOn s m o).mem = s.mem := by
  unfold State.sendOn; grind [State.setObj_mem, State.setOp_mem, State.wf_foldl, State.mem_foldl]

theorem execCommitAck_wf (mv : Nat) (s : State) (hw : Memory.wf s.mem = true) {u : State} (hu : execCommitAck mv s = .next u) :
    Memory.wf u.mem = true := by
  unfold execCommitAck at hu; grind [State.dirtyPage_wf, State.freeFrames_mem, State.sendOn_mem, State.setObj_mem,
      State.wf_foldl, State.mem_foldl]

@[simp] theorem State.freeStubs_mem (s : State) (k : Nat × Nat) (o : Obj) : (State.freeStubs s k o).2.mem = s.mem := rfl

@[simp] theorem State.joinGroup_mem (s : State) (k g : Nat × Nat) : (State.joinGroup s k g).mem = s.mem := by
  unfold State.joinGroup; grind [State.setObj_mem]

@[simp] theorem State.objDone_mem (s : State) (id : Nat) (o : Op) (b : ObjOp) (status low : Nat) :
    (State.objDone s id o b status low).mem = s.mem := by
  unfold State.objDone; grind [State.landObj_mem]

@[simp] theorem State.objMove_mem (s : State) (id : Nat) (o : Op) (b : ObjOp) (objs : List ((Nat × Nat) × Obj)) (l :
    List ((Nat × Nat) × Nat)) (dest : Nat) : (State.objMove s id o b objs l dest).mem = s.mem := by
  unfold State.objMove; grind [State.objDone_mem, State.setOp_mem, State.tryMove_mem]

@[simp] theorem State.objColoc_mem (s : State) (id : Nat) (o : Op) (b : ObjOp) (x : Obj) :
    (State.objColoc s id o b x).mem = s.mem := by
  unfold State.objColoc; grind [State.joinGroup_mem, State.objDone_mem, State.objMove_mem]

@[simp] theorem State.objMoved_mem (s : State) (id : Nat) (o : Op) (b : ObjOp) : (State.objMoved s id o b).mem = s.mem := by
  unfold State.objMoved; grind [State.objColoc_mem, State.objDone_mem]

theorem State.wellheadObject_wf (s : State) (id : Nat) (o : Op) (b : ObjOp) (hw : Memory.wf s.mem = true) :
    Memory.wf (State.wellheadObject s id o b).mem = true := by
  unfold State.wellheadObject; grind [State.freeObject_wf, State.freeStubs_mem, State.landObj_mem, State.leave_mem,
      → State.newObject_wf, State.objColoc_mem, State.objDone_mem, State.objMove_mem, State.objMoved_mem, State.setObj_mem,
      State.setOp_mem, State.unpin_mem]

theorem execWellheadObjectRequest_wf (op : Nat) (s : State) (hw : Memory.wf s.mem = true) {u : State} (hu :
    execWellheadObjectRequest op s = .next u) : Memory.wf u.mem = true := by
  unfold execWellheadObjectRequest at hu; grind [State.wellheadObject_wf]

@[simp] theorem State.landGuess_mem (s : State) (id : Nat) (o : Op) (b : ObjOp) : (State.landGuess s id o b).mem = s.mem := by
  unfold State.landGuess; grind [State.landObj_mem]

@[simp] theorem State.propose_mem (s : State) (chip vf : Nat) (k : Nat × Nat) (i : Nat) :
    (State.propose s chip vf k i).mem = s.mem := by
  unfold State.propose; grind [State.affinity_mem, State.setObj_mem, State.tryMove_mem]

theorem execDecayPeriod_mem (chip : Nat) (vf : Nat) (s : State) {u : State} (hu : execDecayPeriod chip vf s = .next u) :
    u.mem = s.mem := by
  unfold execDecayPeriod at hu; grind [State.affinity_mem, State.modVf_mem, State.propose_mem, State.setObj_mem,
      State.wf_foldl, State.mem_foldl]

/-! ## Arrivals -/

@[simp] theorem State.issueMessage_mem (s : State) (b : Bundle) (t : ThreadId) (body : MsgBody) (rel : Bool) :
    (State.issueMessage s b t body rel).mem = s.mem := by
  unfold State.issueMessage; grind [State.addOp_mem, State.modThread_mem, State.send_mem]

theorem execArrive_wf (f : Fields) (s : State) (hw : Memory.wf s.mem = true) {u : State} (hu : execArrive f s = .next u) :
    Memory.wf u.mem = true := by
  unfold execArrive at hu
  refine State.runThreads_wf _ _ _ _ (fun s0 b t s _ h => ?_) hw hu
  grind [State.arrive_wf, State.contribute_mem, State.issueMessage_mem, orTrap, Res.canonical]

theorem execArriveBytes_wf (f : Fields) (s : State) (hw : Memory.wf s.mem = true) {u : State} (hu :
    execArriveBytes f s = .next u) : Memory.wf u.mem = true := by
  unfold execArriveBytes at hu
  refine State.runThreads_wf _ _ _ _ (fun s0 b t s _ h => ?_) hw hu
  refine orTrap_canonical _ _ fun _ => ?_
  grind [State.contribute_mem, State.issueMessage_mem, Res.canonical]

theorem execNbset_wf (f : Fields) (s : State) (hw : Memory.wf s.mem = true) {u : State} (hu : execNbset f s = .next u) :
    Memory.wf u.mem = true := by
  unfold execNbset at hu
  refine State.runThreads_wf _ _ _ _ (fun s0 b t s _ h => ?_) hw hu
  refine orTrap_canonical _ _ fun _ => ?_
  refine orTrap_canonical _ _ fun _ => ?_
  grind [State.issueMessage_mem, Res.canonical]

theorem execAwait_wf (f : Fields) (s : State) (hw : Memory.wf s.mem = true) {u : State} (hu : execAwait f s = .next u) :
    Memory.wf u.mem = true := by
  unfold execAwait at hu
  refine State.runThreads_wf _ _ _ _ (fun s0 b t s _ h => ?_) hw hu
  grind [State.modThread_mem, State.observe_mem, orTrap, Res.canonical]

@[simp] theorem State.atRegister_mem (s : State) (c : CohortId) (nb : Nat) (g : Nb → Nb) :
    (State.atRegister s c nb g).2.mem = s.mem :=
  rfl

@[simp] theorem State.deliverMessage_mem (s : State) (m : Nat) (g : Msg) : (State.deliverMessage s m g).mem = s.mem := by
  unfold State.deliverMessage; grind [State.atRegister_mem, State.closeOp_mem, State.contribute_mem, State.endOp_mem,
      State.modThread_mem, State.settleDefer_mem]

theorem execArrivalContribution_mem (msg : Nat) (s : State) {u : State} (hu : execArrivalContribution msg s = .next u) :
    u.mem = s.mem := by
  unfold execArrivalContribution at hu; grind [State.contribute_mem, State.deliverMessage_mem]

/-! ## Residency -/

@[simp] theorem State.forgetClaims_mem (s : State) (c : CoreId) (mine : Nat → Bool) :
    (State.forgetClaims s c mine).mem = s.mem :=
  rfl

theorem State.scrubBanks_wf (s : State) (c : CoreId) (part : Nat) (quads : List Nat) (hw : Memory.wf s.mem = true) :
    Memory.wf (State.scrubBanks s c part quads).mem = true := by
  unfold State.scrubBanks; grind [State.disableRing_mem, State.forgetClaims_mem, State.modCore_mem, State.wipe_wf,
      State.wf_foldl, State.mem_foldl]

theorem State.useShare_wf (s : State) (c : CoreId) (part : Nat) (realm : Word) (hw : Memory.wf s.mem = true) :
    Memory.wf (State.useShare s c part realm).mem = true := by
  unfold State.useShare; grind [State.modCore_mem, State.scrubBanks_wf]

end Sys2Proof.Machine
end

section
/-! PROOFS. The canonical form of memory, third part: launches, matrix commands, contexts, control words, the crew and the Pump. -/

namespace Sys2Proof.Machine

-- each of these proofs gives `grind` lemmas that stand shortly before it: elaborated in order, none waits for another on a thread of its own
set_option Elab.async false

/-! ## Launches -/

@[simp] theorem State.deviceStore_mem (s : State) (d : Device) (p : DWord) (bs : List Byte) (know : List Nat) (edges :
    List Edge) : (s.deviceStore d p bs know edges).2.mem = s.mem := by
  unfold State.deviceStore; grind [State.addOp_mem]

@[simp] theorem State.complete_mem (s : State) (chip : Nat) (g : Grid) (code reason : Nat) :
    (State.complete s chip g code reason).mem = s.mem := by
  unfold State.complete; grind [State.deviceStore_mem, State.send_mem]

@[simp] theorem State.forgetGrid_mem (s : State) (chip n : Nat) : (State.forgetGrid s chip n).mem = s.mem := rfl

@[simp] theorem State.enterLaunch_mem (s : State) (chip n vf part : Nat) (x : Launch) (args : List Word) (ring : Option Nat)
    (poster : Option ThreadId) (know : List Nat) : (State.enterLaunch s chip n vf part x args ring poster know).mem = s.mem :=
  rfl

@[simp] theorem State.rejectLaunch_mem (s : State) (chip vf part : Nat) (x : Launch) (reason : Nat) (know : List Nat) :
    (State.rejectLaunch s chip vf part x reason know).mem = s.mem := by
  unfold State.rejectLaunch; grind [State.complete_mem]

theorem execSrprod_mem (chip : Nat) (vf : Nat) (value : Word) (s : State) {u : State} (hu :
    execSrprod chip vf value s = .next u) : u.mem = s.mem := by
  unfold execSrprod at hu; grind [State.modVf_mem]

theorem State.newAnywhere_wf (s : State) (chip vf size log2 : Nat) (hw : Memory.wf s.mem = true) {r : Nat × State} (hu :
    s.newAnywhere chip vf size log2 = some r) : Memory.wf r.2.mem = true := by
  obtain ⟨d, _, hd⟩ := List.exists_of_findSome?_eq_some hu
  exact s.newObject_wf chip d vf size log2 hw hd

theorem State.declareGroup_mem (s : State) (k leader : Nat × Nat) {u : State} (hu : State.declareGroup s k leader = some u) :
    u.mem = s.mem := by
  unfold State.declareGroup at hu; grind [State.joinGroup_mem]

theorem State.declareObject_wf (s : State) (chip vf prog : Nat) (known : List (Nat × (Nat × Nat))) (d : ObjectDecl) (hw :
    Memory.wf s.mem = true) {r : (Nat × Nat) × State} (hu : s.declareObject chip vf prog known d = some r) :
    Memory.wf r.2.mem = true := by
  unfold State.declareObject at hu
  split at hu
  · cases hu; exact hw
  · simp only [Option.bind_eq_some_iff] at hu
    obtain ⟨v, _, hu⟩ := hu
    split at hu
    · cases hu
    · simp only [Option.bind_eq_some_iff] at hu
      obtain ⟨n, hn, hu⟩ := hu
      have hn := s.newAnywhere_wf _ _ _ _ hw hn
      split at hu
      · cases hu; grind [State.store_wf]
      · simp only [Option.bind_eq_some_iff, Option.map_eq_some_iff] at hu
        obtain ⟨l, _, w, hg, rfl⟩ := hu
        have := State.declareGroup_mem _ _ _ hg
        grind [State.store_wf]

theorem State.placeSymbol_wf (s : State) (chip vf : Nat) (k : Nat × Nat) (p : DWord) (hw : Memory.wf s.mem = true) :
    Memory.wf (State.placeSymbol s chip vf k p).mem = true := by
  unfold State.placeSymbol; grind [State.store_wf]

theorem State.declareEach_wf (chip vf prog : Nat) (l : List ObjectDecl) (known : List (Nat × (Nat × Nat))) (s : State) (hw :
    Memory.wf s.mem = true) {r : List (Nat × (Nat × Nat)) × State} (hu : State.declareEach chip vf prog l known s = some r) :
    Memory.wf r.2.mem = true := by
  induction l generalizing known s with
  | nil => unfold State.declareEach at hu; grind
  | cons d l ih =>
    simp only [State.declareEach, Option.bind_eq_some_iff] at hu
    obtain ⟨x, hx, hu⟩ := hu
    exact ih _ _ (State.wf_foldl _ _ (fun s p h => s.placeSymbol_wf _ _ _ _ h) (s.declareObject_wf _ _ _ _ _ hw hx)) hu

theorem State.placeInside_wf (known : List (Nat × (Nat × Nat))) (k : Nat × Nat) (d : ObjectDecl) (s : State) (hw :
    Memory.wf s.mem = true) : Memory.wf (State.placeInside known k d s).mem = true := by
  unfold State.placeInside; grind [State.store_wf, State.wf_foldl, State.mem_foldl]

theorem State.declareAll_wf (chip vf prog : Nat) (l : List ObjectDecl) (known : List (Nat × (Nat × Nat))) (s : State) (hw :
    Memory.wf s.mem = true) {u : State} (hu : State.declareAll chip vf prog l known s = some u) : Memory.wf u.mem = true := by
  simp only [State.declareAll, Option.map_eq_some_iff] at hu
  obtain ⟨x, hx, rfl⟩ := hu
  exact State.wf_foldl _ _ (by grind [State.placeInside_wf]) (State.declareEach_wf _ _ _ _ _ s hw hx)

theorem State.declareFor_wf (s : State) (chip vf part : Nat) (prog : Program) (x : Launch) (args : List Word) (hw :
    Memory.wf s.mem = true) {r : List Word × State} (hu : s.declareFor chip vf part prog x args = .ok r) :
    Memory.wf r.2.mem = true := by
  unfold State.declareFor at hu
  split at hu
  · cases hu; exact hw
  · split at hu
    · cases hu
    · rename_i v hv
      have := State.declareAll_wf _ _ _ _ _ s hw hv
      cases h : v.validate chip vf part x <;> simp [h, Except.map] at hu
      rw [← hu]; exact this

theorem State.argsUse_wf (s : State) (chip vf part : Nat) (x : Launch) (u : State) (hw : Memory.wf u.mem = true) :
    Memory.wf (s.argsUse chip vf part x u).mem = true := by
  unfold State.argsUse; grind [State.objectUse_wf]

theorem State.declareBound_wf {s : State} {chip vf part : Nat} {prog : Program} {x : Launch} (a : Except Nat (List Word))
    (hw : Memory.wf s.mem = true) {r : List Word × State} (hu : a.bind (s.declareFor chip vf part prog x) = .ok r) :
    Memory.wf r.2.mem = true := by
  cases a with
  | error e => cases hu
  | ok args => exact s.declareFor_wf _ _ _ _ _ _ hw hu

theorem execPacketConsume_wf (chip : Nat) (ring : RingTurn) (s : State) (hw : Memory.wf s.mem = true) {u : State} (hu :
    execPacketConsume chip ring s = .next u) : Memory.wf u.mem = true := by
  have ha := State.argsUse_wf
  simp only [execPacketConsume, Host.Outcome.next.injEq] at hu
  subst hu
  have hp : ∀ (s : State) (a : Nat → Nat) p n, Memory.wf s.mem = true →
      Memory.wf ((s.modVf chip ring.vf fun v => { v with srcons := v.srcons + 1 }).objectUse chip ring.vf p n).mem = true := by
    grind [State.objectUse_wf, State.modVf_mem]
  split
  · exact hw
  · split
    · grind [State.objectUse_wf, State.modVf_mem]
    · split
      · grind [State.objectUse_wf, State.modVf_mem]
      · split
        · grind [State.objectUse_wf, State.modVf_mem]
        · split
          · exact hw
          · split
            · grind [State.objectUse_wf, State.modVf_mem, State.rejectLaunch_mem]
            · rename_i bs _ _ _ _ _ _ hb
              have := State.declareBound_wf _ hw hb
              grind [State.objectUse_wf, State.modVf_mem, State.enterLaunch_mem]

@[simp] theorem State.landLaunch_mem (s : State) (id : Nat) (o : Op) (dst v : Nat) :
    (State.landLaunch s id o dst v).mem = s.mem := by
  unfold State.landLaunch; grind [State.endOp_mem, State.modChip_mem, State.modThread_mem]

theorem State.recordUse_wf (s u : State) (t : ThreadId) (chip vf : Nat) (p : DWord) (hw : Memory.wf u.mem = true) :
    Memory.wf (if isGlobal p then u.objectUse chip vf p 128
      else match s.reach t p 128 false with | .place a => u.found a 128 | _ => u).mem = true := by
  refine State.wf_ite (u.objectUse_wf _ _ _ _ hw) ?_
  split
  · exact u.found_wf _ _ hw
  · exact hw

theorem State.serveLaunch_wf (s : State) (id : Nat) (hw : Memory.wf s.mem = true) :
    Memory.wf (State.serveLaunch s id).mem = true := by
  have ha := State.argsUse_wf
  simp only [State.serveLaunch]
  split
  · split
    · refine State.wf_ite ?_ ?_
      · rw [State.setOp_mem]; exact hw
      · have he : ∀ o ctx, Memory.wf (if ctx = true then s else (s.setOp id o).modChip o.thread.cohort.chip fun h =>
            { h with entries := Tab.put h.entries id (s.partOf o.thread.cohort) }).mem = true :=
          fun o ctx => State.wf_ite hw (by rw [State.modChip_mem, State.setOp_mem]; exact hw)
        have hv : ∀ o ctx t l k, Memory.wf ((if ctx = true then s else (s.setOp id o).modChip o.thread.cohort.chip fun h =>
            { h with entries := Tab.put h.entries id (s.partOf o.thread.cohort) }).widen t l k).mem = true :=
          fun o ctx t l k => by rw [State.widen_mem]; exact he o ctx
        refine State.wf_ite (he _ _) (State.wf_ite (hv _ _ _ _ _) ?_)
        split
        · exact State.recordUse_wf _ _ _ _ _ _ (by rw [State.landLaunch_mem]; exact hv _ _ _ _ _)
        · refine State.wf_ite (hv _ _ _ _ _) ?_
          split
          · exact ha _ _ _ _ _ _ (State.recordUse_wf _ _ _ _ _ _ 
              (State.wf_of_mem_eq ((State.landLaunch_mem ..).trans (State.rejectLaunch_mem ..)) (hv _ _ _ _ _)))
          · split
            · exact hv _ _ _ _ _
            · exact ha _ _ _ _ _ _ (State.recordUse_wf _ _ _ _ _ _ 
              (State.wf_of_mem_eq ((State.landLaunch_mem ..).trans (State.enterLaunch_mem ..)) (hv _ _ _ _ _)))
    · exact hw
  · exact hw

theorem execLaunchq_wf (f : Fields) (s : State) (hw : Memory.wf s.mem = true) {u : State} (hu : execLaunchq f s = .next u) :
    Memory.wf u.mem = true := by
  unfold execLaunchq at hu
  refine State.runThreads_wf _ _ _ _ (fun s0 b t s _ h => ?_) hw hu
  refine orTrap_canonical _ _ fun _ => ?_
  grind [State.addOp_mem, State.serveLaunch_wf, Res.canonical]

theorem State.placeCohort_wf (s : State) (chip n : Nat) (core : CoreId) (index : Nat) (hw : Memory.wf s.mem = true) {u : State}
    (hu : State.placeCohort s chip n core index = some u) : Memory.wf u.mem = true := by
  unfold State.placeCohort at hu; grind [→ State.allocFrames_mem, State.modGrid_mem, State.modQuad_mem, State.setCohort_mem,
      State.setThread_mem, State.stand_mem, State.useShare_wf, State.wipe_wf, State.wf_foldl, State.mem_foldl]

@[simp] theorem State.endGrid_mem (s : State) (chip grid : Nat) : (State.endGrid s chip grid).mem = s.mem := rfl

theorem State.placeCohorts_wf (chip n : Nat) (l : List CoreId) (g : CoreId → Nat) (s : Option State)
    (hw : ∀ u, s = some u → Memory.wf u.mem = true) {v : State}
    (hv : l.foldl (fun (r : Option State) c => r.bind fun s => s.placeCohort chip n c (g c)) s = some v) : Memory.wf v.mem = true := by
  induction l generalizing s with
  | nil => exact hw v hv
  | cons c l ih =>
    refine ih (s.bind fun s => s.placeCohort chip n c (g c)) (fun u hu => ?_) hv
    obtain ⟨w, hs, hu⟩ := Option.bind_eq_some_iff.mp hu
    exact State.placeCohort_wf _ _ _ _ _ (hw w hs) hu

theorem execCohortPlace_wf (chip : Nat) (part : Nat) (s : State) (hw : Memory.wf s.mem = true) {u : State} (hu :
    execCohortPlace chip part s = .next u) : Memory.wf u.mem = true := by
  simp only [execCohortPlace, Host.Outcome.next.injEq] at hu
  subst hu
  split
  · grind [State.complete_mem, State.endGrid_mem]
  · refine State.wf_ite hw ?_
    split
    · rename_i hv
      rw [State.modChip_mem]
      refine State.placeCohorts_wf _ _ _ _ _ (fun u hu => ?_) hv
      cases hu
      rw [State.modGrid_mem]; exact hw
    · exact hw

theorem State.entryStatus_wf (s : State) (e : EntrySlot) (status : Nat) (know : List Nat) (edges : List Edge) (hw :
    Memory.wf s.mem = true) : Memory.wf (State.entryStatus s e status know edges).mem = true := by
  unfold State.entryStatus; grind [State.addEdges_mem, State.deviceStore_mem, State.store_wf]

theorem State.retireSlot_wf (s : State) (d : DieId) (k : Nat) (status : Nat) (hw : Memory.wf s.mem = true) :
    Memory.wf (State.retireSlot s d k status).mem = true := by
  unfold State.retireSlot; grind [State.entryStatus_wf, State.modDie_mem]

theorem State.endCohort_wf (s : State) (c : CohortId) (hw : Memory.wf s.mem = true) :
    Memory.wf (State.endCohort s c).mem = true := by
  unfold State.endCohort; grind [State.abortOp_wf, State.freeFrames_mem, State.modCohort_mem, State.modGrid_mem,
      State.modQuad_mem, State.retireSlot_wf, State.settleDefer_mem, State.unpin_mem, State.wf_foldl, State.mem_foldl]

theorem execCohortEnd_wf (c : CohortId) (s : State) (hw : Memory.wf s.mem = true) {u : State} (hu :
    execCohortEnd c s = .next u) : Memory.wf u.mem = true := by
  unfold execCohortEnd at hu; grind [State.abortOp_wf, State.endCohort_wf, State.wf_foldl, State.mem_foldl]

theorem execGridEnd_wf (chip : Nat) (grid : Nat) (s : State) (hw : Memory.wf s.mem = true) {u : State} (hu :
    execGridEnd chip grid s = .next u) : Memory.wf u.mem = true := by
  unfold execGridEnd at hu; grind [State.complete_mem, State.endGrid_mem]

theorem execTfetch_wf (f : Fields) (s : State) (hw : Memory.wf s.mem = true) {u : State} (hu : execTfetch f s = .next u) :
    Memory.wf u.mem = true := by
  unfold execTfetch at hu
  refine State.runThreads_wf _ _ _ _ (fun s0 b t s _ h => ?_) hw hu
  grind [State.addOp_mem, orTrap, Res.canonical]

theorem execDispenserFetch_mem (op : Nat) (s : State) {u : State} (hu : execDispenserFetch op s = .next u) : u.mem = s.mem := by
  unfold execDispenserFetch at hu; grind [State.endOp_mem, State.modGrid_mem, State.modThread_mem, State.wf_foldl,
      State.mem_foldl]

/-! ## Matrix commands -/

theorem State.matrixWord_wf (s : State) (i : Instr) (f : Fields) (code : MatCode) (hw : Memory.wf s.mem = true) {u : State}
    (hu : State.matrixWord s i f code = .next u) : Memory.wf u.mem = true := by
  unfold State.matrixWord at hu; grind [State.addOp_mem, State.modQuad_mem, State.modThread_mem, State.runBundle_wf,
      State.takeTrap_wf, noEarly_mem, State.wf_foldl, State.mem_foldl]

@[simp] theorem State.matWait_mem (s : State) (id : Nat) (m : MatOp) (t : ThreadId) (p : DWord) (n : Nat) (wr : Bool) :
    (State.matWait s id m t p n wr).mem = s.mem := by
  unfold State.matWait; grind [State.engineWait_mem]

@[simp] theorem State.modShadow_mem (s : State) (q : QuadId) (k : Nat) (f : Shadow → Shadow) :
    (State.modShadow s q k f).mem = s.mem :=
  rfl

@[simp] theorem State.setTarget_mem (s : State) (m : MatOp) (d : List Word) : (State.setTarget s m d).mem = s.mem := by
  unfold State.setTarget; grind [State.modQuad_mem, State.modShadow_mem]

@[simp] theorem State.setPoison_mem (s : State) (m : MatOp) (v : Bool) : (State.setPoison s m v).mem = s.mem := by
  unfold State.setPoison; grind [State.modQuad_mem, State.modShadow_mem]

@[simp] theorem State.dequeue_mem (s : State) (id : Nat) (m : MatOp) : (State.dequeue s id m).mem = s.mem := rfl

theorem State.bindShadow_mem (s : State) (o : Op) (m : MatOp) {r : MatOp × State} (hu : s.bindShadow o m = some r) :
    r.2.mem = s.mem := by
  unfold State.bindShadow at hu; grind [State.modShadow_mem]

theorem State.bound_mem (s : State) (id : Nat) (o : Op) (m : MatOp) {r : MatOp × State} (hu : s.bound id o m = some r) :
    r.2.mem = s.mem := by
  unfold State.bound at hu; grind [→ State.bindShadow_mem]

@[simp] theorem State.endProduct_mem (s : State) (id : Nat) (o : Op) (m : MatOp) (err : Option (Nat × DWord)) :
    (State.endProduct s id o m err).mem = s.mem := by
  unfold State.endProduct
  split
  · rfl
  · rename_i hb
    have := s.bound_mem _ _ _ hb
    grind [State.dequeue_mem, State.setOp_mem, State.setPoison_mem, State.unqueue_mem]

@[simp] theorem State.seek_mem (s : State) (id : Nat) (o : Op) (m : MatOp) (sh : MatShape) (n : Nat) :
    (s.seek id o m sh n).mem = s.mem := by
  induction n generalizing s o m with
  | zero => exact s.setOp_mem ..
  | succ n ih =>
    unfold State.seek
    split
    · exact s.setOp_mem ..
    · split
      · exact ((s.giveUp id).setOp_mem ..).trans (s.giveUp_mem id)
      · split
        · rename_i g _
          split
          · exact (State.matWait_mem ..).trans (s.setOp_mem ..)
          · exact s.endProduct_mem ..
          · simp only []
            split
            · rename_i hb
              have := ih
              grind [→ State.bound_mem, State.engineCount_mem, State.giveUp_mem]
            · grind [State.engineCount_mem, State.giveUp_mem]
        · grind [State.endProduct_mem, State.setOp_mem]

@[simp] theorem State.beginProduct_mem (s : State) (id : Nat) (o : Op) (m : MatOp) :
    (State.beginProduct s id o m).mem = s.mem := by
  unfold State.beginProduct; grind [→ State.bound_mem, State.endProduct_mem, State.engineCount_mem, State.giveUp_mem,
      State.matWait_mem, State.seek_mem]

@[simp] theorem State.prepare_mem (s : State) (q : QuadId) (j : Nat) : (State.prepare s q j).mem = s.mem := by
  unfold State.prepare; grind [State.beginProduct_mem, → State.bound_mem, State.dequeue_mem, State.giveUp_mem, State.seek_mem,
      State.setOp_mem]

@[simp] theorem State.countRows_mem (s : State) (o : Op) (x : Operand) (rows : List Nat) :
    (State.countRows s o x rows).2.mem = s.mem :=
  List.foldlRecOn (motive := fun r : Op × State => r.2.mem = s.mem) rows _ rfl fun _ h _ _ => (State.engineCount_mem ..).trans h

@[simp] theorem State.arrayStep_mem (s : State) (q : QuadId) (j : Nat) : (State.arrayStep s q j).mem = s.mem := by
  unfold State.arrayStep; grind [State.countRows_mem, State.endProduct_mem, State.giveUp_mem, State.matWait_mem,
      State.modQuad_mem, State.seek_mem, State.setOp_mem, State.setTarget_mem]

@[simp] theorem State.standAside_mem (s : State) (q : QuadId) (j : Nat) : (State.standAside s q j).mem = s.mem := by
  unfold State.standAside; grind [State.giveUp_mem]

@[simp] theorem State.matrixTurn_mem (s : State) (q : QuadId) (j passed : Nat) :
    (State.matrixTurn s q j passed).mem = s.mem := by
  unfold State.matrixTurn; grind [State.arrayStep_mem, State.modQuad_mem, State.prepare_mem, State.standAside_mem]

theorem execMatrixStep_mem (q : QuadId) (s : State) {u : State} (hu : execMatrixStep q s = .next u) : u.mem = s.mem := by
  unfold execMatrixStep at hu; grind [State.matrixTurn_mem, State.modQuad_mem, State.standAside_mem]

theorem execRowCountReread_mem (q : QuadId) (s : State) {u : State} (hu : execRowCountReread q s = .next u) :
    u.mem = s.mem := by
  unfold execRowCountReread at hu; grind [State.seek_mem]

@[simp] theorem State.endDrain_mem (s : State) (id : Nat) (o : Op) (m : MatOp) (err : Option (Nat × DWord)) :
    (State.endDrain s id o m err).mem = s.mem := by
  unfold State.endDrain; grind [State.setOp_mem, State.setPoison_mem, State.setTarget_mem]

theorem State.drainUnit_wf (s : State) (id : Nat) (o : Op) (m : MatOp) (k : Nat) (hw : Memory.wf s.mem = true) {r :
    Bool × State} (hu : s.drainUnit id o m k = .ok r) : Memory.wf r.2.mem = true := by
  simp only [State.drainUnit] at hu
  split at hu
  · cases hu
  · split at hu
    · cases hu
    · split at hu
      · cases hu; exact (congrArg Memory.wf (s.matWait_mem ..)).trans hw
      · split at hu
        · cases hu
        · rename_i hv
          cases hu
          grind [State.engineCount_mem, State.engineWrite_wf, State.giveUp_mem]

theorem State.drainSome_wf (s : State) (id : Nat) (o : Op) (m : MatOp) (hw : Memory.wf s.mem = true) :
    Memory.wf (State.drainSome s id o m).mem = true := by
  simp only [State.drainSome]
  refine State.wf_ite ?_ (State.wf_ite ?_ ?_) <;> simp only [State.endDrain_mem, State.setOp_mem] <;>
    refine List.foldlRecOn (motive := fun r : Option (Nat × DWord) × List Nat × State => Memory.wf r.2.2.mem = true) _ _ hw
      (fun r hr k _ => iteInduction (motive := fun r : Option (Nat × DWord) × List Nat × State => Memory.wf r.2.2.mem = true)
        (fun _ => hr) fun _ => ?_)
  all_goals
    split
    · exact hr
    · rename_i h; exact State.drainUnit_wf _ _ _ _ _ hr h
    · rename_i h; exact State.drainUnit_wf _ _ _ _ _ hr h

theorem State.drainAdd_wf (s : State) (id : Nat) (o : Op) (m : MatOp) (hw : Memory.wf s.mem = true) :
    Memory.wf (State.drainAdd s id o m).mem = true := by
  simp only [State.drainAdd]
  split
  · rw [State.endDrain_mem]; exact hw
  · split
    · rw [State.matWait_mem]; exact hw
    · split
      · rw [State.endDrain_mem, State.giveUp_mem]; exact hw
      · rw [State.endDrain_mem]
        refine State.wf_foldl _ _ (fun s i h => ?_) ((congrArg Memory.wf (State.giveUp_mem ..)).trans hw)
        split
        · exact h
        · split
          · rename_i hv
            rw [State.engineCount_mem]
            exact State.engineWrite_wf _ _ _ _ _ _ _ h hv
          · exact h

theorem execMatrixDrain_wf (q : QuadId) (s : State) (hw : Memory.wf s.mem = true) {u : State} (hu :
    execMatrixDrain q s = .next u) : Memory.wf u.mem = true := by
  unfold execMatrixDrain at hu; grind [State.drainAdd_wf, State.drainSome_wf, State.endDrain_mem, State.setOp_mem]

theorem State.finishMatrix_wf (s : State) (id : Nat) (o : Op) (m : MatOp) (discarded : Bool) (hw : Memory.wf s.mem = true) :
    Memory.wf (State.finishMatrix s id o m discarded).mem = true := by
  unfold State.finishMatrix; grind [State.closeOp_mem, State.contribute_mem, State.deferEngine_wf, State.dequeue_mem,
      State.foundBy_wf, State.wf_foldl, State.mem_foldl]

theorem execMatrixCommandComplete_wf (op : Nat) (s : State) (hw : Memory.wf s.mem = true) {u : State} (hu :
    execMatrixCommandComplete op s = .next u) : Memory.wf u.mem = true := by
  unfold execMatrixCommandComplete at hu; grind [State.finishMatrix_wf]

theorem execShadowCommit_mem (q : QuadId) (shadow : Nat) (s : State) {u : State} (hu : execShadowCommit q shadow s = .next u) :
    u.mem = s.mem := by
  unfold execShadowCommit at hu; grind [→ State.bound_mem, State.modQuad_mem, State.modShadow_mem, State.setOp_mem,
      State.wf_foldl, State.mem_foldl]

@[simp] theorem State.issueSlot_mem (s : State) (b : Bundle) (t : ThreadId) (body : MsgBody) :
    (State.issueSlot s b t body).mem = s.mem :=
  rfl

theorem execGres_wf (f : Fields) (s : State) (hw : Memory.wf s.mem = true) {u : State} (hu : execGres f s = .next u) :
    Memory.wf u.mem = true := by
  unfold execGres at hu
  refine State.runThreads_wf _ _ _ _ (fun s0 b t s _ h => ?_) hw hu
  grind [State.issueSlot_mem, orTrap, Res.canonical]

theorem execGcancel_wf (f : Fields) (s : State) (hw : Memory.wf s.mem = true) {u : State} (hu : execGcancel f s = .next u) :
    Memory.wf u.mem = true := by
  unfold execGcancel at hu
  refine State.runThreads_wf _ _ _ _ (fun s0 b t s _ h => ?_) hw hu
  grind [State.issueSlot_mem, orTrap, Res.canonical]

theorem execGuardSlotResolve_mem (msg : Nat) (s : State) {u : State} (hu : execGuardSlotResolve msg s = .next u) :
    u.mem = s.mem := by
  unfold execGuardSlotResolve at hu; grind [State.endOp_mem, State.modCohort_mem]

/-! ## Contexts -/

@[simp] theorem State.preempt_mem (s : State) (chip vf : Nat) (why : SaveWhy) : (State.preempt s chip vf why).mem = s.mem := by
  unfold State.preempt; grind [State.setVf_mem]

theorem execPreemptRequest_mem (chip : Nat) (vf : Nat) (s : State) {u : State} (hu : execPreemptRequest chip vf s = .next u) :
    u.mem = s.mem := by
  unfold execPreemptRequest at hu; grind [State.preempt_mem]

theorem execDeferralLimit_mem (chip : Nat) (vf : Nat) (s : State) {u : State} (hu : execDeferralLimit chip vf s = .next u) :
    u.mem = s.mem := by
  unfold execDeferralLimit at hu; grind [State.setVf_mem, State.settleDefer_mem]

theorem execHandlerPreemptLimit_mem (t : ThreadId) (s : State) {u : State} (hu : execHandlerPreemptLimit t s = .next u) :
    u.mem = s.mem := by
  unfold execHandlerPreemptLimit at hu; grind [State.setThread_mem]

@[simp] theorem State.saveContext_mem (s : State) (chip vf : Nat) : (State.saveContext s chip vf).mem = s.mem := by
  unfold State.saveContext; grind [State.modCohort_mem, State.modQuad_mem, State.modThread_mem, State.releaseAll_mem,
      State.setOp_mem, State.setVf_mem, State.unclaim_mem, State.unpin_mem, State.unqueue_mem, State.wf_foldl, State.mem_foldl]

theorem execContextSaved_mem (chip : Nat) (vf : Nat) (s : State) {u : State} (hu : execContextSaved chip vf s = .next u) :
    u.mem = s.mem := by
  unfold execContextSaved at hu; grind [State.saveContext_mem]

theorem State.noteHeld_wf (s : State) (chip vf : Nat) (c : CoreId) (hw : Memory.wf s.mem = true) :
    Memory.wf (State.noteHeld s chip vf c).mem = true := by
  unfold State.noteHeld; grind [State.logEvent_wf, State.setVf_mem]

theorem State.restoreBanks_wf (s : State) (realm : Word) (b : SavedBanks) (hw : Memory.wf s.mem = true) :
    Memory.wf (State.restoreBanks s realm b).mem = true := by
  simp only [State.restoreBanks, State.modCore_mem]
  exact Memory.wf_foldl _ _ id (Memory.wf_filter _ _ (s.useShare_wf _ _ _ hw))

@[simp] theorem State.restoreTiles_mem (s : State) (c : CohortId) (tiles : List SavedTiles) (old : List (Nat × List Nat)) :
    (State.restoreTiles s c tiles old).2.mem = s.mem :=
  List.foldlRecOn (motive := fun r : List (Nat × List Nat × List Nat) × State => r.2.mem = s.mem) old _ rfl
    fun _ h _ _ => (State.modCohort_mem ..).trans ((State.modQuad_mem ..).trans h)

@[simp] theorem State.restoreShadow_mem (s : State) (maps : List (CohortId × List (Nat × List Nat × List Nat))) (w :
    QuadId × Nat × Shadow) : (State.restoreShadow s maps w).mem = s.mem := by
  unfold State.restoreShadow; grind [→ State.bound_mem, State.modQuad_mem]

@[simp] theorem State.renameTiles_mem (s : State) (maps : List (CohortId × List (Nat × List Nat × List Nat))) :
    (State.renameTiles s maps).mem = s.mem :=
  rfl

@[simp] theorem State.restoreThread_mem (s : State) (t : ThreadId) : (State.restoreThread s t).mem = s.mem := rfl

theorem State.restoreContext_wf (s : State) (chip vf : Nat) (hw : Memory.wf s.mem = true) :
    Memory.wf (State.restoreContext s chip vf).mem = true := by
  simp only [State.restoreContext]
  refine State.wf_foldl _ _ (fun s t h => by rw [State.restoreThread_mem]; exact h) ?_
  refine State.wf_foldl _ _ (fun s p h => State.wf_foldl _ _ (fun s k h => by rw [State.claim_mem]; exact h) h) ?_
  refine State.wf_foldl _ _ (fun s w h => by rw [State.modQuad_mem]; exact h) ?_
  rw [State.renameTiles_mem]
  refine State.wf_foldl _ _ (fun s w h => by rw [State.restoreShadow_mem]; exact h) ?_
  refine List.foldlRecOn (motive := fun r : List (CohortId × List (Nat × List Nat × List Nat))
      × State => Memory.wf r.2.mem = true)
    _ _ ?_ fun r h _ _ => by rw [State.restoreTiles_mem]; exact h
  rw [State.modVf_mem]
  refine State.wf_foldl _ _ (fun s c h => by rw [State.modCohort_mem]; exact h) ?_
  refine State.wf_foldl _ _ (fun s b h => s.restoreBanks_wf _ _ h) ?_
  split
  · exact s.logEvent_wf _ _ _ _ _ _ hw
  · exact hw

theorem execContextResume_wf (chip : Nat) (vf : Nat) (s : State) (hw : Memory.wf s.mem = true) {u : State} (hu :
    execContextResume chip vf s = .next u) : Memory.wf u.mem = true := by
  unfold execContextResume at hu; grind [State.modThread_mem, State.preempt_mem, State.restoreContext_wf, State.setVf_mem,
      State.wf_foldl, State.mem_foldl]

/-! ## Control words -/

theorem execFormBundle_wf (q : QuadId) (s : State) (hw : Memory.wf s.mem = true) {u : State} (hu :
    execFormBundle q s = .next u) : Memory.wf u.mem = true := by
  unfold execFormBundle at hu; grind [State.formBundle_wf]

theorem State.transfer_canonical (s : State) (t : ThreadId) (base : DWord) (d : Int) (pointer : Bool) (pre : Option TrapKind)
    (go : DWord → Thread → Thread) (hw : Memory.wf s.mem = true) : (s.transfer t base d pointer pre go).canonical := by
  unfold State.transfer; grind [State.modThread_mem, Res.canonical]

theorem execBra_wf (f : Fields) (s : State) (hw : Memory.wf s.mem = true) {u : State} (hu : execBra f s = .next u) :
    Memory.wf u.mem = true := by
  unfold execBra at hu
  refine State.runThreads_wf _ _ _ _ (fun s0 b t s _ h => ?_) hw hu
  refine orTrap_canonical _ _ fun _ => ?_
  grind [State.transfer_canonical, Res.canonical]

theorem execBrx_wf (f : Fields) (s : State) (hw : Memory.wf s.mem = true) {u : State} (hu : execBrx f s = .next u) :
    Memory.wf u.mem = true := by
  unfold execBrx at hu
  refine State.runThreads_wf _ _ _ _ (fun s0 b t s _ h => ?_) hw hu
  refine orTrap_canonical _ _ fun _ => ?_
  refine orTrap_canonical _ _ fun _ => ?_
  grind [State.transfer_canonical, Res.canonical]

theorem execCallRelative_wf (f : Fields) (s : State) (hw : Memory.wf s.mem = true) {u : State} (hu :
    execCallRelative f s = .next u) : Memory.wf u.mem = true := by
  unfold execCallRelative at hu
  refine State.runThreads_wf _ _ _ _ (fun s0 b t s _ h => ?_) hw hu
  refine orTrap_canonical _ _ fun _ => ?_
  grind [State.transfer_canonical, Res.canonical]

theorem execCallIndirect_wf (f : Fields) (s : State) (hw : Memory.wf s.mem = true) {u : State} (hu :
    execCallIndirect f s = .next u) : Memory.wf u.mem = true := by
  unfold execCallIndirect at hu
  refine State.runThreads_wf _ _ _ _ (fun s0 b t s _ h => ?_) hw hu
  refine orTrap_canonical _ _ fun _ => ?_
  refine orTrap_canonical _ _ fun _ => ?_
  grind [State.transfer_canonical, Res.canonical]

theorem execRet_wf (f : Fields) (s : State) (hw : Memory.wf s.mem = true) {u : State} (hu : execRet f s = .next u) :
    Memory.wf u.mem = true := by
  unfold execRet at hu
  refine State.runThreads_wf _ _ _ _ (fun s0 b t s _ h => ?_) hw hu
  grind [State.transfer_canonical, orTrap, Res.canonical]

theorem execExit_wf (f : Fields) (s : State) (hw : Memory.wf s.mem = true) {u : State} (hu : execExit f s = .next u) :
    Memory.wf u.mem = true := by
  unfold execExit at hu
  refine State.runThreads_wf _ _ _ _ (fun s0 b t s _ h => ?_) hw hu
  grind [State.modThread_mem, orTrap, Res.canonical]

theorem execWait_wf (f : Fields) (s : State) (hw : Memory.wf s.mem = true) {u : State} (hu : execWait f s = .next u) :
    Memory.wf u.mem = true := by
  unfold execWait at hu
  refine State.runThreads_wf _ _ _ _ (fun s0 b t s _ h => ?_) hw hu
  refine orTrap_canonical _ _ fun _ => ?_
  grind [Res.canonical]

theorem execYield_wf (f : Fields) (s : State) (hw : Memory.wf s.mem = true) {u : State} (hu : execYield f s = .next u) :
    Memory.wf u.mem = true := by
  unfold execYield at hu
  refine State.runThreads_wf _ _ _ _ (fun s0 b t s _ h => ?_) hw hu
  grind [State.modThread_mem, orTrap, Res.canonical]

theorem execNop_wf (f : Fields) (s : State) (hw : Memory.wf s.mem = true) {u : State} (hu : execNop f s = .next u) :
    Memory.wf u.mem = true := by
  unfold execNop at hu
  refine State.runThreads_wf _ _ _ _ (fun s0 b t s _ h => ?_) hw hu
  grind [orTrap, Res.canonical]

theorem execWaitExpiry_mem (t : ThreadId) (s : State) {u : State} (hu : execWaitExpiry t s = .next u) : u.mem = s.mem := by
  unfold execWaitExpiry at hu; grind [State.setThread_mem]

theorem execTrap_wf (f : Fields) (s : State) (hw : Memory.wf s.mem = true) {u : State} (hu : execTrap f s = .next u) :
    Memory.wf u.mem = true := by
  unfold execTrap at hu
  refine State.runThreads_wf _ _ _ _ (fun s0 b t s _ h => ?_) hw hu
  refine orTrap_canonical _ _ fun _ => ?_
  grind [Res.canonical]

theorem State.returnWord_canonical (s : State) (t : ThreadId) (skip : Bool) (hw : Memory.wf s.mem = true) :
    (s.returnWord t skip).canonical := by
  unfold State.returnWord; grind [State.leave_mem, State.leaveHandler_mem, Res.canonical]

theorem execTret_wf (f : Fields) (s : State) (hw : Memory.wf s.mem = true) {u : State} (hu : execTret f s = .next u) :
    Memory.wf u.mem = true := by
  unfold execTret at hu
  refine State.runThreads_wf _ _ _ _ (fun s0 b t s _ h => ?_) hw hu
  grind [State.returnWord_canonical, orTrap, Res.canonical]

theorem execTretSkip_wf (f : Fields) (s : State) (hw : Memory.wf s.mem = true) {u : State} (hu : execTretSkip f s = .next u) :
    Memory.wf u.mem = true := by
  unfold execTretSkip at hu
  refine State.runThreads_wf _ _ _ _ (fun s0 b t s _ h => ?_) hw hu
  grind [State.returnWord_canonical, orTrap, Res.canonical]

theorem execSread_wf (f : Fields) (s : State) (hw : Memory.wf s.mem = true) {u : State} (hu : execSread f s = .next u) :
    Memory.wf u.mem = true := by
  unfold execSread at hu
  refine State.runThreads_wf _ _ _ _ (fun s0 b t s _ h => ?_) hw hu
  grind [State.addOp_mem, State.modThread_mem, orTrap, Res.canonical]

theorem execSwrite_wf (f : Fields) (s : State) (hw : Memory.wf s.mem = true) {u : State} (hu : execSwrite f s = .next u) :
    Memory.wf u.mem = true := by
  unfold execSwrite at hu
  refine State.runThreads_wf _ _ _ _ (fun s0 b t s _ h => ?_) hw hu
  split
  · refine orTrap_canonical _ _ fun _ => ?_
    grind [State.setThread_mem, Res.canonical]
  · refine orTrap_canonical _ _ fun _ => ?_
    grind [State.setThread_mem, Res.canonical]

@[simp] theorem State.landClock_mem (s : State) (id : Nat) (o : Op) (dst : Nat) : (State.landClock s id o dst).mem = s.mem := by
  unfold State.landClock; grind [State.endOp_mem, State.modThread_mem]

theorem execTstamp_wf (f : Fields) (s : State) (hw : Memory.wf s.mem = true) {u : State} (hu : execTstamp f s = .next u) :
    Memory.wf u.mem = true := by
  unfold execTstamp at hu
  refine State.runThreads_wf _ _ _ _ (fun s0 b t s _ h => ?_) hw hu
  refine orTrap_canonical _ _ fun _ => ?_
  split
  · trivial
  · split
    · trivial
    · split
      · exact h
      · refine iteInduction (motive := Res.canonical) (fun _ => s.issueMmio_canonical _ _ _ _ _ _ h) fun _ => ?_
        exact (congrArg (Memory.wf · = true) (s.issueAccess_mem _ _ _ _)).mpr h

/-! ## Crew words -/

theorem State.runCrew_wf (s : State) (i : Instr) (reads : Thread → Bool) (g :
    State → Bundle → List ThreadId → ThreadId → Thread → Thread) (hw : Memory.wf s.mem = true) {u : State} (hu :
    State.runCrew s i reads g = .next u) : Memory.wf u.mem = true := by
  cases hu
  refine s.runBundle_wf i _ _ _ (fun s b ts h => h) (fun s q k b ts h => ?_) hw
  refine State.wf_foldl _ _ (fun u t h => State.wf_ite (u.settle_wf b t (.trap .illegalOperand 0 0 0) h trivial) h) ?_
  exact State.wf_foldl _ _ (fun u t h => by rw [State.setThread_mem]; exact h) h

theorem execBallot_wf (f : Fields) (s : State) (hw : Memory.wf s.mem = true) {u : State} (hu : execBallot f s = .next u) :
    Memory.wf u.mem = true := by
  unfold execBallot at hu; grind [State.runCrew_wf, State.wf_foldl, State.mem_foldl]

theorem execShfl_wf (f : Fields) (s : State) (hw : Memory.wf s.mem = true) {u : State} (hu : execShfl f s = .next u) :
    Memory.wf u.mem = true := by
  unfold execShfl at hu; grind [State.runCrew_wf]

theorem execCreduce_wf (f : Fields) (s : State) (hw : Memory.wf s.mem = true) {u : State} (hu : execCreduce f s = .next u) :
    Memory.wf u.mem = true := by
  unfold execCreduce at hu; grind [State.runCrew_wf]

theorem execCscan_wf (f : Fields) (s : State) (hw : Memory.wf s.mem = true) {u : State} (hu : execCscan f s = .next u) :
    Memory.wf u.mem = true := by
  unfold execCscan at hu; grind [State.runCrew_wf]

theorem execCvote_wf (f : Fields) (s : State) (hw : Memory.wf s.mem = true) {u : State} (hu : execCvote f s = .next u) :
    Memory.wf u.mem = true := by
  unfold execCvote at hu; grind [State.runCrew_wf]

/-! ## Delivery of faults -/

theorem execProgressWatchdog_wf (c : CohortId) (crew : Nat) (pc : DWord) (s : State) (hw : Memory.wf s.mem = true) {u : State}
    (hu : execProgressWatchdog c crew pc s = .next u) : Memory.wf u.mem = true := by
  unfold execProgressWatchdog at hu; grind [State.stopTimer_mem, State.store_wf, State.takeTrap_wf, State.wf_foldl,
      State.mem_foldl]

theorem execDeferredFaultDelivery_wf (t : ThreadId) (s : State) (hw : Memory.wf s.mem = true) {u : State} (hu :
    execDeferredFaultDelivery t s = .next u) : Memory.wf u.mem = true := by
  unfold execDeferredFaultDelivery at hu; grind [State.modThread_mem, State.settleFences_mem, State.takeTrap_wf]

theorem State.wordWait_wf (s : State) (t : ThreadId) (b : Bundle) (i : Instr) (f : Fields) (pool : Nat) (hw :
    Memory.wf s.mem = true) : Memory.wf (State.wordWait s t b i f pool).mem = true := by
  unfold State.wordWait; grind [State.endOp_mem, State.setOp_mem, State.takeTrap_wf, State.wf_foldl, State.mem_foldl]

@[simp] theorem State.withdraw_mem (s : State) (id : Nat) (o : Op) : (State.withdraw s id o).mem = s.mem := by
  unfold State.withdraw; grind [State.dropMoves_mem, State.endOp_mem, State.modDie_mem, State.unqueue_mem]

theorem execResourceWait_wf (t : ThreadId) (op : Option Nat) (s : State) (hw : Memory.wf s.mem = true) {u : State} (hu :
    execResourceWait t op s = .next u) : Memory.wf u.mem = true := by
  simp only [execResourceWait, Host.Outcome.next.injEq] at hu
  subst hu
  split
  · split
    · exact hw
    · split
      · exact State.wf_ite (s.wordWait_wf _ _ _ _ _ hw) hw
      · exact hw
  · split
    · exact hw
    · refine State.wf_ite hw ?_
      split
      · exact State.wf_ite (State.addDeferred_wf _ _ _ (by rw [State.withdraw_mem]; exact hw)) hw
      · split
        · split
          · exact State.wf_ite (s.wordWait_wf _ _ _ _ _ hw) hw
          · exact hw
        · exact hw

theorem execExitDrainComplete_wf (t : ThreadId) (s : State) (hw : Memory.wf s.mem = true) {u : State} (hu :
    execExitDrainComplete t s = .next u) : Memory.wf u.mem = true := by
  unfold execExitDrainComplete at hu; grind [State.modThread_mem, State.releaseAll_mem, State.reportFault_wf, State.wf_foldl,
      State.mem_foldl]

/-! ## Transfers -/

theorem State.transferWord_wf (s : State) (i : Instr) (f : Fields) (code : XCode) (hw : Memory.wf s.mem = true) {u : State}
    (hu : State.transferWord s i f code = .next u) : Memory.wf u.mem = true := by
  unfold State.transferWord at hu
  refine State.runThreads_wf _ _ _ _ (fun s0 b t s _ h => ?_) hw hu
  refine orTrap_canonical _ _ fun _ => ?_
  grind [State.addOp_mem, State.claimShares_wf, State.modDie_mem, Res.canonical]

theorem State.xferWrite_wf (s : State) (t : ThreadId) (p : DWord) (bs : List Byte) (id : Nat) (edges : List Edge) (hw :
    Memory.wf s.mem = true) {u : State} (hu : State.xferWrite s t p bs id edges = .ok u) : Memory.wf u.mem = true := by
  unfold State.xferWrite at hu; grind [State.engineWrite_wf]

@[simp] theorem State.heal_mem (s : State) (a n : Nat) : (State.heal s a n).mem = s.mem := by
  unfold State.heal; grind [State.l2Use_mem]

theorem State.partWrite_wf (s : State) (t : ThreadId) (p : DWord) (pos len : Nat) (bs : List Byte) (id : Nat) (edges :
    List Edge) (adds : Bool) (hw : Memory.wf s.mem = true) {u : State} (hu :
    State.partWrite s t p pos len bs id edges adds = .ok u) : Memory.wf u.mem = true := by
  unfold State.partWrite at hu; grind [State.engineStore_wf, State.heal_mem]

@[simp] theorem State.xferWait_mem (s : State) (t : ThreadId) (fork : Nat) (p : DWord) (n : Nat) (wr : Bool) :
    (State.xferWait s t fork p n wr).mem = s.mem := by
  unfold State.xferWait; grind [State.engineWait_mem]

@[simp] theorem State.spoil_mem (s : State) (id : Nat) (x : XferOp) : (State.spoil s id x).mem = s.mem := by
  unfold State.spoil; grind

theorem State.endXfer_wf (s : State) (id : Nat) (o : Op) (x : XferOp) (err : Option (Nat × DWord)) (discarded : Bool) (hw :
    Memory.wf s.mem = true) : Memory.wf (State.endXfer s id o x err discarded).mem = true := by
  unfold State.endXfer; grind [State.closeOp_mem, State.deferEngine_wf, State.modDie_mem, State.retireSlot_wf, State.spoil_mem,
      State.unclaim_mem, State.xferRemote_mem, State.xferSignals_mem, State.wf_foldl, State.mem_foldl]

theorem State.finishXfer_wf (s : State) (id : Nat) (o : Op) (x : XferOp) (err : Option (Nat × DWord)) (discarded : Bool) (hw :
    Memory.wf s.mem = true) : Memory.wf (State.finishXfer s id o x err discarded).mem = true := by
  unfold State.finishXfer; grind [State.endXfer_wf, State.setOp_mem]

theorem State.goOn_wf (s : State) (id : Nat) (o : Op) (x : XferOp) (hw : Memory.wf s.mem = true) :
    Memory.wf (State.goOn s id o x).mem = true := by
  unfold State.goOn; grind [State.endXfer_wf, State.setOp_mem, State.xferRemote_mem]

theorem State.xferFault_wf (s : State) (id : Nat) (o : Op) (x : XferOp) (cause : Nat) (p : DWord) (n : Nat) (hw :
    Memory.wf s.mem = true) : Memory.wf (State.xferFault s id o x cause p n).mem = true := by
  unfold State.xferFault; grind [State.finishXfer_wf, State.foundBy_wf]

theorem State.dropShare_wf (s : State) (id : Nat) (o : Op) (x : XferOp) (i : Nat) (hw : Memory.wf s.mem = true) :
    Memory.wf (State.dropShare s id o x i).mem = true := by
  unfold State.dropShare; grind [State.goOn_wf, State.unclaim_mem]

theorem State.transact_wf (s : State) (id : Nat) (o : Op) (x : XferOp) (e : Nat) (hw : Memory.wf s.mem = true) :
    Memory.wf (State.transact s id o x e).mem = true := by
  unfold State.transact; grind [State.dropShare_wf, State.engineCount_mem, State.giveUp_mem, State.goOn_wf, State.xferFault_wf]

theorem State.advancePart_wf (s : State) (id : Nat) (o : Op) (x : XferOp) (k : XferPart) (n : Nat) (hw :
    Memory.wf s.mem = true) : Memory.wf (State.advancePart s id o x k n).mem = true := by
  simp only [State.advancePart]
  refine State.wf_ite (s.dropShare_wf _ _ _ _ hw) (State.wf_ite hw (State.wf_ite ?_ (State.wf_ite ?_ ?_)))
  · rw [State.xferWait_mem]; exact hw
  · rw [State.xferWait_mem]; exact hw
  have hg : Memory.wf (s.giveUp x.fork).mem = true := by rw [State.giveUp_mem]; exact hw
  generalize s.giveUp x.fork = s at hg
  split
  · exact s.xferFault_wf _ _ _ _ _ _ hg
  · rename_i v hv
    have hv : Memory.wf v.mem = true := by
      split at hv
      · cases hv
        grind [State.store_wf, State.addEdges_mem, State.heal_mem]
      · split at hv
        · cases hv
        · exact s.partWrite_wf _ _ _ _ _ _ _ _ hg hv
    refine State.wf_ite (by rw [State.setOp_mem]; exact hv) ?_
    split
    · exact v.xferFault_wf _ _ _ _ _ _ hv
    · rename_i w hx
      have hx : Memory.wf w.mem = true := by
        split at hx
        · exact v.xferWrite_wf _ _ _ _ _ hv hx
        · cases hx; exact hv
      exact State.goOn_wf _ _ _ _ (by rw [State.engineCount_mem, State.unclaim_mem]; exact hx)

@[simp] theorem State.startXfers_mem (s : State) (d : DieId) : (State.startXfers s d).mem = s.mem := by
  unfold State.startXfers; grind [State.setOp_mem, State.wf_foldl, State.mem_foldl]

theorem State.nextTransaction_wf (s : State) (d : DieId) (pick : Nat) (hw : Memory.wf s.mem = true) :
    Memory.wf (State.nextTransaction s d pick).mem = true := by
  unfold State.nextTransaction; grind [State.modDie_mem, State.transact_wf]

@[simp] theorem State.xferWalks_mem (s : State) (d : DieId) : (State.xferWalks s d).mem = s.mem := by
  refine State.mem_foldl _ _ (fun s p => ?_) s
  split
  · refine State.mem_ite rfl (State.mem_ite (s.giveUp_mem _) ?_)
    split
    · rfl
    · exact State.mem_ite (s.xferWait_mem ..) (State.mem_ite (s.xferWait_mem ..)
        (State.mem_ite (s.xferWait_mem ..) (State.mem_ite (s.xferWait_mem ..) rfl)))
  · rfl

theorem execPumpTransaction_wf (d : DieId) (turn : PumpTurn) (s : State) (hw : Memory.wf s.mem = true) {u : State} (hu :
    execPumpTransaction d turn s = .next u) : Memory.wf u.mem = true := by
  unfold execPumpTransaction at hu; grind [State.advancePart_wf, State.dropFlit_mem, State.finishXfer_wf, State.logEvent_wf,
      State.modDie_mem, State.nextTransaction_wf, State.startXfers_mem, State.xferWalks_mem]

theorem execTransferComplete_wf (op : Nat) (s : State) (hw : Memory.wf s.mem = true) {u : State} (hu :
    execTransferComplete op s = .next u) : Memory.wf u.mem = true := by
  unfold execTransferComplete at hu; grind [State.finishXfer_wf, State.setOp_mem, State.xferRemote_mem]

theorem execSignalAtTarget_wf (msg : Nat) (s : State) (hw : Memory.wf s.mem = true) {u : State} (hu :
    execSignalAtTarget msg s = .next u) : Memory.wf u.mem = true := by
  unfold execSignalAtTarget at hu; grind [State.arrive_wf, State.crossLink_mem, State.modCohort_mem, State.setOp_mem,
      State.settleDefer_mem]

theorem execLinkTimeout_wf (op : Nat) (s : State) (hw : Memory.wf s.mem = true) {u : State} (hu :
    execLinkTimeout op s = .next u) : Memory.wf u.mem = true := by
  unfold execLinkTimeout at hu; grind [State.finishXfer_wf]

/-! ## Work entries and posts -/

@[simp] theorem State.landPost_mem (s : State) (id : Nat) (o : Op) (nb : Option Nat) (dst v : Nat) :
    (State.landPost s id o nb dst v).mem = s.mem := by
  unfold State.landPost; grind [State.closeOp_mem, State.contribute_mem, State.modDie_mem, State.modThread_mem]

theorem State.cancelPost_wf (s : State) (id : Nat) (o : Op) (p : DWord) (nb : Option Nat) (dst : Nat) (hw :
    Memory.wf s.mem = true) : Memory.wf (State.cancelPost s id o p nb dst).mem = true := by
  unfold State.cancelPost; grind [State.landPost_mem, State.modDie_mem, State.retireSlot_wf]

theorem State.armEntry_wf (s : State) (id : Nat) (o : Op) (p : DWord) (nb : Option Nat) (dst : Nat) (e : Entry) (hw :
    Memory.wf s.mem = true) : Memory.wf (State.armEntry s id o p nb dst e).mem = true := by
  unfold State.armEntry; grind [State.entryStatus_wf, State.landPost_mem, State.modDie_mem]

theorem State.reduceRequest_mem (s : State) (chip : Nat) (e : Entry) {u : State} (hu : State.reduceRequest s chip e = .ok u) :
    u.mem = s.mem := by
  unfold State.reduceRequest at hu; grind

theorem State.placePost_wf (s : State) (id : Nat) (o : Op) (p : DWord) (nb : Option Nat) (dst : Nat) (e : Entry) (reply : Bool)
    (hw : Memory.wf s.mem = true) : Memory.wf (State.placePost s id o p nb dst e reply).mem = true := by
  unfold State.placePost; grind [State.armEntry_wf, State.entryStatus_wf, State.landPost_mem, State.modDie_mem,
      State.reduceRequest_mem, State.setOp_mem]

theorem State.servePost_wf (s : State) (id : Nat) (reply : Bool) (hw : Memory.wf s.mem = true) :
    Memory.wf (State.servePost s id reply).mem = true := by
  simp only [State.servePost]
  split
  · split
    · refine State.wf_ite hw ?_
      split
      · exact hw
      · rw [State.closeOp_mem]
        split
        · rw [State.contribute_mem]; exact hw
        · exact hw
      · refine State.wf_ite (by rw [State.giveUp_mem]; exact hw) (State.wf_ite (s.cancelPost_wf _ _ _ _ _ hw) ?_)
        split
        · exact s.placePost_wf _ _ _ _ _ _ _ hw
        · refine State.wf_ite (by rw [State.engineWait_mem]; exact hw) ?_
          split
          · rw [State.landPost_mem]
            exact State.foundBy_wf _ _ _ _ (by rw [State.giveUp_mem]; exact hw)
          · refine State.placePost_wf _ _ _ _ _ _ _ _ ?_
            rw [State.setOp_mem, State.engineCount_mem, State.giveUp_mem]; exact hw
    · exact hw
  · exact hw

theorem State.postWord_wf (s : State) (i : Instr) (f : Fields) (cancel : Bool) (hw : Memory.wf s.mem = true) {u : State} (hu :
    State.postWord s i f cancel = .next u) : Memory.wf u.mem = true := by
  unfold State.postWord at hu
  refine State.runThreads_wf _ _ _ _ (fun s0 b t s _ h => ?_) hw hu
  refine orTrap_canonical _ _ fun _ => ?_
  grind [State.addOp_mem, State.servePost_wf, Res.canonical]

theorem execReductionSlotReply_wf (op : Nat) (s : State) (hw : Memory.wf s.mem = true) {u : State} (hu :
    execReductionSlotReply op s = .next u) : Memory.wf u.mem = true := by
  unfold execReductionSlotReply at hu; grind [State.servePost_wf]

theorem execWorkEntryFire_wf (d : DieId) (slot : Nat) (s : State) (hw : Memory.wf s.mem = true) {u : State} (hu :
    execWorkEntryFire d slot s = .next u) : Memory.wf u.mem = true := by
  unfold execWorkEntryFire at hu; grind [State.addOp_mem, State.claimShares_wf, State.finishXfer_wf, State.modDie_mem,
      State.transfer_canonical]

theorem execWorkEntryRearm_wf (d : DieId) (slot : Nat) (s : State) (hw : Memory.wf s.mem = true) {u : State} (hu :
    execWorkEntryRearm d slot s = .next u) : Memory.wf u.mem = true := by
  unfold execWorkEntryRearm at hu; grind [State.entryStatus_wf, State.modDie_mem, State.retireSlot_wf]

theorem State.endRound_wf (s : State) (k : Nat × Nat) (r : RedSlot) (hw : Memory.wf s.mem = true) :
    Memory.wf (State.endRound s k r).mem = true := by
  unfold State.endRound; grind [State.finishXfer_wf, State.wf_foldl, State.mem_foldl]

theorem execReductionSlotSum_wf (domain : Nat) (group : Nat) (s : State) (hw : Memory.wf s.mem = true) {u : State} (hu :
    execReductionSlotSum domain group s = .next u) : Memory.wf u.mem = true := by
  simp only [execReductionSlotSum, Host.Outcome.next.injEq] at hu
  subst hu
  split
  · exact hw
  · refine State.wf_ite (s.endRound_wf _ _ hw) ?_
    split
    · exact hw
    · refine State.wf_ite hw (State.wf_ite ?_ ?_)
      · exact State.wf_foldl _ _ (by grind [State.startWalks_mem]) hw
      · split
        · exact s.xferFault_wf _ _ _ _ _ _ hw
        · refine State.wf_foldl _ _ (by grind [State.setOp_mem]) ?_
          exact State.wf_foldl _ _ (by grind [State.engineCount_mem]) hw

end Sys2Proof.Machine
end

section
/-! PROOFS. The canonical form of memory, last part: the other agents, and every step (O58). -/

namespace Sys2Proof.Machine

-- each of these proofs gives `grind` lemmas that stand shortly before it: elaborated in order, none waits for another on a thread of its own
set_option Elab.async false

/-! ## Floating words -/

theorem State.fp2_wf (s : State) (i : Instr) (f : Fields) (g : Nat → Bool → Nat → Nat → Nat → Nat) (hw :
    Memory.wf s.mem = true) {u : State} (hu : State.fp2 s i f g = .next u) : Memory.wf u.mem = true := by
  unfold State.fp2 at hu; grind [State.runAlu_wf]

theorem State.fp1_wf (s : State) (i : Instr) (f : Fields) (g : Nat → Bool → Nat → Nat → Nat) (hw : Memory.wf s.mem = true) {u :
    State} (hu : State.fp1 s i f g = .next u) : Memory.wf u.mem = true := by
  unfold State.fp1 at hu; grind [State.runAlu_wf]

theorem State.fpPick_wf (s : State) (i : Instr) (f : Fields) (g : Nat → Nat → Nat) (hw : Memory.wf s.mem = true) {u : State}
    (hu : State.fpPick s i f g = .next u) : Memory.wf u.mem = true := by
  unfold State.fpPick at hu; grind [State.runAlu_wf]

theorem State.pk2_wf (s : State) (i : Instr) (f : Fields) (g : Nat → Nat → Bool → Nat → Nat → Nat → Nat) (hw :
    Memory.wf s.mem = true) {u : State} (hu : State.pk2 s i f g = .next u) : Memory.wf u.mem = true := by
  unfold State.pk2 at hu; grind [State.runAlu_wf]

theorem State.pkPick_wf (s : State) (i : Instr) (f : Fields) (g : Nat → Nat → Nat → Nat) (hw : Memory.wf s.mem = true) {u :
    State} (hu : State.pkPick s i f g = .next u) : Memory.wf u.mem = true := by
  unfold State.pkPick at hu; grind [State.runAlu_wf]

/-! ## Windows -/

theorem State.issueWindow_canonical (s : State) (b : Bundle) (t : ThreadId) (w : WinOp) (hw : Memory.wf s.mem = true) :
    (s.issueWindow b t w).canonical := by
  unfold State.issueWindow; grind [State.addOp_mem, Res.canonical]

theorem execWinopen_wf (f : Fields) (s : State) (hw : Memory.wf s.mem = true) {u : State} (hu : execWinopen f s = .next u) :
    Memory.wf u.mem = true := by
  unfold execWinopen at hu
  refine State.runThreads_wf _ _ _ _ (fun s0 b t s _ h => ?_) hw hu
  refine orTrap_canonical _ _ fun _ => ?_
  grind [State.issueWindow_canonical, Res.canonical]

theorem State.windowWord_wf (s : State) (i : Instr) (f : Fields) (code : WinCode) (hw : Memory.wf s.mem = true) {u : State}
    (hu : State.windowWord s i f code = .next u) : Memory.wf u.mem = true := by
  unfold State.windowWord at hu
  refine State.runThreads_wf _ _ _ _ (fun s0 b t s _ h => ?_) hw hu
  refine orTrap_canonical _ _ fun _ => ?_
  grind [State.issueWindow_canonical, Res.canonical]

theorem execKeyqEpoch_wf (f : Fields) (s : State) (hw : Memory.wf s.mem = true) {u : State} (hu : execKeyqEpoch f s = .next u)
    : Memory.wf u.mem = true := by
  unfold execKeyqEpoch at hu
  refine State.runThreads_wf _ _ _ _ (fun s0 b t s _ h => ?_) hw hu
  grind [State.issueWindow_canonical, orTrap, Res.canonical]

theorem execKeyqReport_wf (f : Fields) (s : State) (hw : Memory.wf s.mem = true) {u : State} (hu :
    execKeyqReport f s = .next u) : Memory.wf u.mem = true := by
  unfold execKeyqReport at hu
  refine State.runThreads_wf _ _ _ _ (fun s0 b t s _ h => ?_) hw hu
  refine orTrap_canonical _ _ fun _ => ?_
  grind [State.issueWindow_canonical, Res.canonical]

@[simp] theorem State.landWin_mem (s : State) (id : Nat) (o : Op) (w : WinOp) (wide : Bool) (v : Nat) :
    (State.landWin s id o w wide v).mem = s.mem := by
  unfold State.landWin; grind [State.endOp_mem, State.modThread_mem]

@[simp] theorem State.closeWindow_mem (s : State) (chip w : Nat) : (State.closeWindow s chip w).mem = s.mem := by
  unfold State.closeWindow; grind [State.setGrant_mem]

theorem State.copyImage_wf (s : State) (src dst n : Nat) (hw : Memory.wf s.mem = true) :
    Memory.wf (State.copyImage s src dst n).mem = true := by
  simp only [State.copyImage]
  refine State.wf_foldl _ _ (fun s l h => by rw [State.l2Use_mem]; exact h) ?_
  exact Memory.wf_foldl _ _ (fun c : Host.Cell => (c.1 - src + dst, c.2))
      (State.wipe_wf _ _ _ (State.wf_ite hw (s.found_wf _ _ hw)))

@[simp] theorem State.winOpen_mem (s : State) (id : Nat) (o : Op) (w : WinOp) : (State.winOpen s id o w).mem = s.mem := by
  unfold State.winOpen; grind [→ State.allocFrames_mem, State.landWin_mem, State.setGrant_mem, → State.takeSerial_mem]

theorem State.publish_wf (s : State) (src dst : Nat) (offs : List Nat) (hw : Memory.wf s.mem = true) :
    Memory.wf (State.publish s src dst offs).mem = true := by
  have hf := s.found_wf src 64 hw
  refine State.wf_ite hf (State.wf_ite (State.found_wf _ _ _ hf) ?_)
  rw [State.l2Use_mem]
  exact Memory.wf_foldl offs _ (fun i => (dst + i, Memory.read (s.found src 64).mem (src + i))) hf

theorem State.winRel_wf (s : State) (id : Nat) (o : Op) (w img : Nat) (hw : Memory.wf s.mem = true) :
    Memory.wf (State.winRel s id o w img).2.mem = true := by
  unfold State.winRel; grind [State.publish_wf, State.setGrant_mem, State.wf_foldl, State.mem_foldl]

theorem State.keyReport_wf (s : State) (id : Nat) (o : Op) (w : WinOp) (hw : Memory.wf s.mem = true) :
    Memory.wf (State.keyReport s id o w).mem = true := by
  unfold State.keyReport; grind [State.addDeferred_wf, State.endOp_mem, State.engineCount_mem, State.engineWait_mem,
      State.engineWrite_wf, State.foundBy_wf, State.giveUp_mem, State.landWin_mem, State.modThread_mem]

theorem State.landWindow_wf (s : State) (id : Nat) (o : Op) (w : WinOp) (hw : Memory.wf s.mem = true) :
    Memory.wf (State.landWindow s id o w).mem = true := by
  unfold State.landWindow; grind [State.closeWindow_mem, State.copyImage_wf, State.keyReport_wf, State.landWin_mem,
      State.setGrant_mem, State.winOpen_mem, State.winRel_wf]

theorem execWindowScrubComplete_wf (chip : Nat) (grant : Nat) (s : State) (hw : Memory.wf s.mem = true) {u : State} (hu :
    execWindowScrubComplete chip grant s = .next u) : Memory.wf u.mem = true := by
  unfold execWindowScrubComplete at hu; grind [State.closeWindow_mem, State.dropTree_mem, State.freeFrames_mem,
      State.setGrant_mem, State.wipe_wf, State.wf_foldl, State.mem_foldl]

/-! ## Kill and reset -/

@[simp] theorem State.discardLaunch_mem (s : State) (chip vf : Nat) (bs : List Byte) :
    (State.discardLaunch s chip vf bs).mem = s.mem := by
  unfold State.discardLaunch; grind [State.complete_mem]

theorem State.discardPacket_wf (s : State) (chip vf : Nat) (n : Word) (hw : Memory.wf s.mem = true) :
    Memory.wf (State.discardPacket s chip vf n).mem = true := by
  unfold State.discardPacket; grind [State.discardLaunch_mem, State.objectUse_wf]

theorem State.discardRing_wf (s : State) (chip vf : Nat) (hw : Memory.wf s.mem = true) :
    Memory.wf (State.discardRing s chip vf).mem = true := by
  unfold State.discardRing; grind [State.discardPacket_wf, State.modVf_mem, State.wf_foldl, State.mem_foldl]

@[simp] theorem State.discardQueued_mem (s : State) (chip vf : Nat) : (State.discardQueued s chip vf).mem = s.mem := by
  unfold State.discardQueued; grind [State.discardLaunch_mem, State.wf_foldl, State.mem_foldl]

@[simp] theorem State.discardMoves_mem (s : State) (chip vf : Nat) : (State.discardMoves s chip vf).mem = s.mem := by
  unfold State.discardMoves; grind [State.dropMoves_mem]

@[simp] theorem State.discardSave_mem (s : State) (chip vf : Nat) : (State.discardSave s chip vf).mem = s.mem := by
  unfold State.discardSave; grind [State.modCohort_mem, State.wf_foldl, State.mem_foldl]

@[simp] theorem State.disableRings_mem (s : State) (chip vf : Nat) : (State.disableRings s chip vf).mem = s.mem := by
  unfold State.disableRings; grind [State.disableRing_mem, State.wf_foldl, State.mem_foldl]

@[simp] theorem State.detachAll_mem (s : State) (chip vf : Nat) : (State.detachAll s chip vf).mem = s.mem := by
  unfold State.detachAll; grind [State.closeWindow_mem, State.setGrant_mem, State.wf_foldl, State.mem_foldl]

theorem State.reportKill_wf (s : State) (chip vf : Nat) (cs : List (CohortId × Cohort)) (hw : Memory.wf s.mem = true) :
    Memory.wf (State.reportKill s chip vf cs).mem = true := by
  unfold State.reportKill; grind [State.reportFault_wf]

theorem State.kill_wf (s : State) (chip vf : Nat) (hw : Memory.wf s.mem = true) :
    Memory.wf (State.kill s chip vf).mem = true := by
  unfold State.kill; grind [State.complete_mem, State.cutCohort_wf, State.detachAll_mem, State.disableRings_mem,
      State.discardMoves_mem, State.discardQueued_mem, State.discardRing_wf, State.discardSave_mem, State.modVf_mem,
      State.reportKill_wf, State.retireSlot_wf, State.setGrid_mem, State.wf_foldl, State.mem_foldl]

theorem execVfctlKill_wf (chip : Nat) (vf : Nat) (s : State) (hw : Memory.wf s.mem = true) {u : State} (hu :
    execVfctlKill chip vf s = .next u) : Memory.wf u.mem = true := by
  unfold execVfctlKill at hu; grind [State.kill_wf]

@[simp] theorem State.spoilRounds_mem (s : State) (chip vf : Nat) : (State.spoilRounds s chip vf).mem = s.mem := rfl

theorem execVfctlReset_wf (chip : Nat) (vf : Nat) (s : State) (hw : Memory.wf s.mem = true) {u : State} (hu :
    execVfctlReset chip vf s = .next u) : Memory.wf u.mem = true := by
  unfold execVfctlReset at hu; grind [State.kill_wf, State.modVf_mem, State.spoilRounds_mem]

@[simp] theorem State.cancelMove_mem (s : State) (m : Nat × Move) : (State.cancelMove s m).mem = s.mem := rfl

theorem State.freeOwned_wf (s : State) (chip vf : Nat) (hw : Memory.wf s.mem = true) :
    Memory.wf (State.freeOwned s chip vf).mem = true := by
  unfold State.freeOwned; grind [State.cancelMove_mem, State.freeObject_wf, State.wf_foldl, State.mem_foldl]

theorem State.resetVf_wf (s : State) (chip vf : Nat) (hw : Memory.wf s.mem = true) :
    Memory.wf (State.resetVf s chip vf).mem = true := by
  unfold State.resetVf; grind [State.dropTree_mem, State.freeFrames_mem, State.freeOwned_wf, State.modVf_mem, State.wf_foldl,
      State.mem_foldl]

theorem execKillReclaim_wf (chip : Nat) (vf : Nat) (s : State) (hw : Memory.wf s.mem = true) {u : State} (hu :
    execKillReclaim chip vf s = .next u) : Memory.wf u.mem = true := by
  unfold execKillReclaim at hu; grind [State.endCohort_wf, State.endGrid_mem, State.modDie_mem, State.modVf_mem,
      State.resetVf_wf, State.wf_foldl, State.mem_foldl]

/-! ## The lockkeeper -/

theorem execSluice_mem (chip : Nat) (vf : Nat) (value : DWord) (s : State) {u : State} (hu :
    execSluice chip vf value s = .next u) : u.mem = s.mem := by
  unfold execSluice at hu; grind [State.modVf_mem]

@[simp] theorem State.sluiceVf_mem (s : State) (chip vf : Nat) : (State.sluiceVf s chip vf).mem = s.mem := by
  unfold State.sluiceVf; grind [State.preempt_mem, State.setVf_mem]

theorem execSluiceTick_mem (chip : Nat) (s : State) {u : State} (hu : execSluiceTick chip s = .next u) : u.mem = s.mem := by
  unfold execSluiceTick at hu; grind [State.setChip_mem, State.sluiceVf_mem, State.wf_foldl, State.mem_foldl]

@[simp] theorem State.disableOwner_mem (s : State) (c : CoreId) (part : Nat) : (State.disableOwner s c part).mem = s.mem := by
  unfold State.disableOwner; grind [State.disableRing_mem, State.wf_foldl, State.mem_foldl]

@[simp] theorem State.grantCore_mem (s : State) (c : CoreId) (new : Option Nat) : (State.grantCore s c new).mem = s.mem := by
  unfold State.grantCore; grind [State.modCore_mem]

theorem State.passQuad_wf (s : State) (q : QuadId) (new : Option Nat) (hw : Memory.wf s.mem = true) :
    Memory.wf (State.passQuad s q new).mem = true := by
  unfold State.passQuad; grind [State.disableOwner_mem, State.grantCore_mem, State.modQuad_mem, State.noteHeld_wf,
      State.scrubBanks_wf, State.wf_foldl, State.mem_foldl]

theorem State.settleQuad_wf (s : State) (q : QuadId) (hw : Memory.wf s.mem = true) :
    Memory.wf (State.settleQuad s q).mem = true := by
  unfold State.settleQuad; grind [State.passQuad_wf, State.preempt_mem, State.wf_foldl, State.mem_foldl]

theorem State.writeQown_wf (s : State) (q : QuadId) (v : Word) (hw : Memory.wf s.mem = true) :
    Memory.wf (State.writeQown s q v).mem = true := by
  unfold State.writeQown; grind [State.modQuad_mem, State.settleQuad_wf]

theorem execQown_wf (q : QuadId) (write : Option Word) (s : State) (hw : Memory.wf s.mem = true) {u : State} (hu :
    execQown q write s = .next u) : Memory.wf u.mem = true := by
  unfold execQown at hu; grind [State.settleQuad_wf, State.writeQown_wf]

theorem execKeyCommand_mem (chip : Nat) (blob : List Byte) (s : State) {u : State} (hu : execKeyCommand chip blob s = .next u)
    : u.mem = s.mem := by
  unfold execKeyCommand at hu; grind [State.dropTree_mem, State.setVf_mem]

theorem State.damage_wf (s : State) (d : DieId) (line : Nat) (u : Upset) (hw : Memory.wf s.mem = true) :
    Memory.wf (State.damage s d line u).mem = true := by
  unfold State.damage; grind [State.logEvent_wf, State.modDie_mem]

theorem execDramLineWriteback_wf (d : DieId) (turn : LineTurn) (s : State) (hw : Memory.wf s.mem = true) {u : State} (hu :
    execDramLineWriteback d turn s = .next u) : Memory.wf u.mem = true := by
  unfold execDramLineWriteback at hu; grind [State.damage_wf, State.modDie_mem, State.writeBack_mem]

theorem execCounterRebuild_wf (d : DieId) (block : Nat) (s : State) (hw : Memory.wf s.mem = true) {u : State} (hu :
    execCounterRebuild d block s = .next u) : Memory.wf u.mem = true := by
  unfold execCounterRebuild at hu; grind [State.commitBlock_mem, State.logEvent_wf, State.markFailed_mem, State.modVf_mem,
      State.wf_foldl, State.mem_foldl]

theorem execDlctlRound_mem (chip : Nat) (vf : Nat) (s : State) {u : State} (hu : execDlctlRound chip vf s = .next u) :
    u.mem = s.mem := by
  unfold execDlctlRound at hu; grind

theorem execDlctlScan_wf (chip : Nat) (vf : Nat) (s : State) (hw : Memory.wf s.mem = true) {u : State} (hu :
    execDlctlScan chip vf s = .next u) : Memory.wf u.mem = true := by
  unfold execDlctlScan at hu; grind [State.dirtyEntry_wf, State.modVf_mem, State.setVf_mem]

/-! ## Hardware -/

@[simp] theorem State.evacuate_mem (s : State) (c : CoreId) : (State.evacuate s c).mem = s.mem := by
  unfold State.evacuate; grind [State.retire_mem, State.setVf_mem, State.wf_foldl, State.mem_foldl]

theorem execCoreRetire_wf (c : CoreId) (loss : CoreLoss) (s : State) (hw : Memory.wf s.mem = true) {u : State} (hu :
    execCoreRetire c loss s = .next u) : Memory.wf u.mem = true := by
  unfold execCoreRetire at hu; grind [State.evacuate_mem, State.logEvent_wf, State.modCore_mem, State.modDie_mem,
      State.modQuad_mem, State.noteHeld_wf, State.passQuad_wf, State.terminate_wf, State.wf_foldl, State.mem_foldl]

theorem execDramSpare_wf (d : DieId) (bank : Bool) (unit : SpareUnit) (s : State) (hw : Memory.wf s.mem = true) {u : State}
    (hu : execDramSpare d bank unit s = .next u) : Memory.wf u.mem = true := by
  unfold execDramSpare at hu; grind [State.logEvent_wf, State.setDie_mem]

theorem execLaneFailure_wf (d : DieId) (port : Nat) (s : State) (hw : Memory.wf s.mem = true) {u : State} (hu :
    execLaneFailure d port s = .next u) : Memory.wf u.mem = true := by
  unfold execLaneFailure at hu; grind [State.logEvent_wf, State.modChip_mem, State.modDie_mem]

theorem execLaneRetrainDone_mem (d : DieId) (port : Nat) (s : State) {u : State} (hu : execLaneRetrainDone d port s = .next u)
    : u.mem = s.mem := by
  unfold execLaneRetrainDone at hu; grind [State.modChip_mem, State.modDie_mem]

theorem execLinkRekey_mem (d : DieId) (port : Nat) (s : State) {u : State} (hu : execLinkRekey d port s = .next u) :
    u.mem = s.mem := by
  unfold execLinkRekey at hu; grind [State.modDie_mem]

theorem execMkaMessage_mem (chip : Nat) (port : Nat) (s : State) {u : State} (hu : execMkaMessage chip port s = .next u) :
    u.mem = s.mem := by
  unfold execMkaMessage at hu; grind [State.modChip_mem]

theorem execPtpMessage_wf (chip : Nat) (step : Int) (s : State) (hw : Memory.wf s.mem = true) {u : State} (hu :
    execPtpMessage chip step s = .next u) : Memory.wf u.mem = true := by
  unfold execPtpMessage at hu; grind [State.modChip_mem]

theorem State.takeOver_wf (s : State) (chip : Nat) (hw : Memory.wf s.mem = true) :
    Memory.wf (State.takeOver s chip).mem = true := by
  unfold State.takeOver; grind [State.logEvent_wf, State.setChip_mem]

theorem execLockkeeperSramScrub_wf (chip : Nat) (upset : Upset) (s : State) (hw : Memory.wf s.mem = true) {u : State} (hu :
    execLockkeeperSramScrub chip upset s = .next u) : Memory.wf u.mem = true := by
  unfold execLockkeeperSramScrub at hu; grind [State.logEvent_wf, State.modChip_mem, State.takeOver_wf]

theorem execHeartbeat_mem (chip : Nat) (missed : Bool) (s : State) {u : State} (hu : execHeartbeat chip missed s = .next u) :
    u.mem = s.mem := by
  unfold execHeartbeat at hu; grind [State.modChip_mem]

theorem execTakeOver_wf (chip : Nat) (s : State) (hw : Memory.wf s.mem = true) {u : State} (hu : execTakeOver chip s = .next u)
    : Memory.wf u.mem = true := by
  unfold execTakeOver at hu; grind [State.takeOver_wf]

theorem execLkupd_mem (chip : Nat) (image : DWord) (s : State) {u : State} (hu : execLkupd chip image s = .next u) :
    u.mem = s.mem := by
  unfold execLkupd at hu; grind [State.modChip_mem]

theorem execLiveUpdateTakeover_wf (chip : Nat) (check : UpdateCheck) (s : State) (hw : Memory.wf s.mem = true) {u : State}
    (hu : execLiveUpdateTakeover chip check s = .next u) : Memory.wf u.mem = true := by
  unfold execLiveUpdateTakeover at hu; grind [State.fetchFault_wf, State.logEvent_wf, State.setChip_mem]

theorem State.clearModule_wf (s : State) (chip : Nat) (h : Chip) (hw : Memory.wf s.mem = true) :
    Memory.wf (State.clearModule s chip h).mem = true :=
  Memory.wf_filter s.mem _ hw

@[simp] theorem State.testDie_mem (s : State) (d : DieId) (bad : List Nat) : (State.testDie s d bad).mem = s.mem := by
  unfold State.testDie; grind [State.modCore_mem, State.modDie_mem, State.wf_foldl, State.mem_foldl]

theorem State.resetModule_wf (s : State) (chip : Nat) (bad : List (Nat × Nat)) (patch : Bool) (hw : Memory.wf s.mem = true) :
    Memory.wf (State.resetModule s chip bad patch).mem = true := by
  unfold State.resetModule; grind [State.clearModule_wf, State.testDie_mem, State.wf_foldl, State.mem_foldl]

theorem execModuleReset_wf (boot : ModuleBoot) (s : State) (hw : Memory.wf s.mem = true) {u : State} (hu :
    execModuleReset boot s = .next u) : Memory.wf u.mem = true := by
  unfold execModuleReset at hu; grind [State.resetModule_wf]

theorem execThermalThreshold_wf (chip : Nat) (temp : Nat) (s : State) (hw : Memory.wf s.mem = true) {u : State} (hu :
    execThermalThreshold chip temp s = .next u) : Memory.wf u.mem = true := by
  unfold execThermalThreshold at hu; grind [State.clearModule_wf, State.logEvent_wf, State.preempt_mem, State.setChip_mem,
      State.wf_foldl, State.mem_foldl]

/-! ## Integer words -/

theorem State.alu32_wf (s : State) (i : Instr) (f : Fields) (g : Word → Word → Word) (hw : Memory.wf s.mem = true) {u : State}
    (hu : State.alu32 s i f g = .next u) : Memory.wf u.mem = true := by
  unfold State.alu32 at hu; grind [State.runAlu_wf]

theorem State.alu64_wf (s : State) (i : Instr) (f : Fields) (g : DWord → DWord → DWord) (hw : Memory.wf s.mem = true) {u :
    State} (hu : State.alu64 s i f g = .next u) : Memory.wf u.mem = true := by
  unfold State.alu64 at hu; grind [State.runAlu_wf]

theorem State.alu6432_wf (s : State) (i : Instr) (f : Fields) (g : DWord → Word → DWord) (hw : Memory.wf s.mem = true) {u :
    State} (hu : State.alu6432 s i f g = .next u) : Memory.wf u.mem = true := by
  unfold State.alu6432 at hu; grind [State.runAlu_wf]

theorem State.alu3_wf (s : State) (i : Instr) (f : Fields) (g : Word → Word → Word → Word) (hw : Memory.wf s.mem = true) {u :
    State} (hu : State.alu3 s i f g = .next u) : Memory.wf u.mem = true := by
  unfold State.alu3 at hu; grind [State.runAlu_wf]

theorem State.alu1_wf (s : State) (i : Instr) (f : Fields) (g : Word → Word) (hw : Memory.wf s.mem = true) {u : State} (hu :
    State.alu1 s i f g = .next u) : Memory.wf u.mem = true := by
  unfold State.alu1 at hu; grind [State.runAlu_wf]

/-! ## Landing rings -/

theorem execResponseArrives_wf (op : Nat) (s : State) (hw : Memory.wf s.mem = true) {u : State} (hu :
    execResponseArrives op s = .next u) : Memory.wf u.mem = true := by
  unfold execResponseArrives at hu; grind [State.landClock_mem, State.landGuess_mem, State.landWindow_wf, State.land_mem,
      State.performLocal_wf, State.serveLaunch_wf, State.servePost_wf]

theorem execStoreCompletion_wf (op : Nat) (s : State) (hw : Memory.wf s.mem = true) {u : State} (hu :
    execStoreCompletion op s = .next u) : Memory.wf u.mem = true := by
  unfold execStoreCompletion at hu; grind [State.endOp_mem, State.land_mem, State.performLocal_wf]

/-! ## Register writes -/

@[simp] theorem State.writePartcfg_mem (s : State) (chip p : Nat) (v : Word) : (State.writePartcfg s chip p v).mem = s.mem := by
  unfold State.writePartcfg; grind [State.setPart_mem]

@[simp] theorem State.writeVfcfg_mem (s : State) (chip vf : Nat) (v : Word) : (State.writeVfcfg s chip vf v).mem = s.mem := by
  unfold State.writeVfcfg; grind [State.setVf_mem]

@[simp] theorem State.writeVfrealm_mem (s : State) (chip vf : Nat) (v : Word) :
    (State.writeVfrealm s chip vf v).mem = s.mem := by
  unfold State.writeVfrealm; grind [State.setVf_mem]

@[simp] theorem State.writeGrant_mem (s : State) (chip w : Nat) (f : Grant → Grant) :
    (State.writeGrant s chip w f).mem = s.mem := by
  unfold State.writeGrant; grind [State.setGrant_mem]

theorem writeVfctl_wf (chip vf : Nat) (v : Word) (s : State) (hw : Memory.wf s.mem = true) {u : State} (hu :
    writeVfctl chip vf v s = .next u) : Memory.wf u.mem = true := by
  unfold writeVfctl at hu; grind [execVfctlKill_wf, execVfctlReset_wf]

theorem writeDlctl_wf (chip vf : Nat) (v : Word) (s : State) (hw : Memory.wf s.mem = true) {u : State} (hu :
    writeDlctl chip vf v s = .next u) : Memory.wf u.mem = true := by
  have hscan : ∀ s c u, Memory.wf s.mem = true → (if c = true then execDlctlScan chip vf s else .next s)
      = .next u → Memory.wf u.mem = true := by
    intro s c u h hu
    split at hu
    · exact execDlctlScan_wf _ _ _ h hu
    · cases hu; exact h
  have hm : ∀ g, Memory.wf (s.modVf chip vf g).mem = true := fun g => by rw [State.modVf_mem]; exact hw
  simp only [writeDlctl] at hu
  split at hu
  · split at hu
    · rename_i hr
      exact hscan _ _ _ ((congrArg (Memory.wf · = true) (execDlctlRound_mem _ _ _ hr)).mpr (hm _)) hu
    · rename_i hn
      exact absurd hu (hn u)
  · exact hscan _ _ _ (hm _) hu

theorem hostWriteReg_wf (chip : Nat) (r : HostReg) (value : BitVec 128) (s : State) (hw : Memory.wf s.mem = true) {u : State}
    (hu : hostWriteReg chip r value s = .next u) : Memory.wf u.mem = true := by
  unfold hostWriteReg at hu; grind [State.affinity_mem, State.modChip_mem, State.modVf_mem, State.setPart_mem,
      State.writeGrant_mem, State.writePartcfg_mem, State.writeVfcfg_mem, State.writeVfrealm_mem, execLkupd_mem, execQown_wf,
      execSluice_mem, execSrprod_mem, writeDlctl_wf, writeVfctl_wf]

theorem execRegisterWrite_wf (chip : Nat) (page : HostPage) (offset : Nat) (value : BitVec 128) (s : State) (hw :
    Memory.wf s.mem = true) {u : State} (hu : execRegisterWrite chip page offset value s = .next u) :
    Memory.wf u.mem = true := by
  unfold execRegisterWrite at hu; grind [hostWriteReg_wf]

/-! ## Fetch -/

@[simp] theorem State.nextTurn_mem (s : State) : (State.nextTurn s).2.mem = s.mem := by
  unfold State.nextTurn; grind

@[simp] theorem State.placeWord_mem (s : State) (w : DWord) : (State.placeWord s w).mem = s.mem := rfl

/-! ## The step -/

@[simp] theorem State.withFetchWord_mem (s : State) (nbits w : Nat) : (State.withFetchWord s nbits w).mem = s.mem := rfl

/-- Every instruction and every agent keeps the canonical form. -/
theorem exec_wf (i : Instr) (s : State) (hw : Memory.wf s.mem = true) {u : State} (hu : exec i s = .next u) :
    Memory.wf u.mem = true := by
  cases i with
  | iadd f => rw [exec, execIadd] at hu; exact State.alu32_wf (hw := hw) (hu := hu) ..
  | isub f => rw [exec, execIsub] at hu; exact State.alu32_wf (hw := hw) (hu := hu) ..
  | imul f => rw [exec, execImul] at hu; exact State.alu32_wf (hw := hw) (hu := hu) ..
  | imad f => rw [exec, execImad] at hu; exact State.alu3_wf (hw := hw) (hu := hu) ..
  | imulhi f => rw [exec, execImulhi] at hu; exact State.alu32_wf (hw := hw) (hu := hu) ..
  | idivs f => rw [exec, execIdivs] at hu; exact State.alu32_wf (hw := hw) (hu := hu) ..
  | idivu f => rw [exec, execIdivu] at hu; exact State.alu32_wf (hw := hw) (hu := hu) ..
  | imin f => rw [exec, execImin] at hu; exact State.alu32_wf (hw := hw) (hu := hu) ..
  | imax f => rw [exec, execImax] at hu; exact State.alu32_wf (hw := hw) (hu := hu) ..
  | shl f => rw [exec, execShl] at hu; exact State.alu32_wf (hw := hw) (hu := hu) ..
  | shr f => rw [exec, execShr] at hu; exact State.alu32_wf (hw := hw) (hu := hu) ..
  | sar f => rw [exec, execSar] at hu; exact State.alu32_wf (hw := hw) (hu := hu) ..
  | lop3 f => rw [exec, execLop3] at hu; exact State.runAlu_wf (hw := hw) (hu := hu) ..
  | bfe f => rw [exec, execBfe] at hu; exact State.alu32_wf (hw := hw) (hu := hu) ..
  | bfi f => rw [exec, execBfi] at hu; exact State.alu3_wf (hw := hw) (hu := hu) ..
  | popc f => rw [exec, execPopc] at hu; exact State.alu1_wf (hw := hw) (hu := hu) ..
  | clz f => rw [exec, execClz] at hu; exact State.alu1_wf (hw := hw) (hu := hu) ..
  | brev f => rw [exec, execBrev] at hu; exact State.alu1_wf (hw := hw) (hu := hu) ..
  | isetp f => rw [exec, execIsetp] at hu; exact State.runAlu_wf (hw := hw) (hu := hu) ..
  | sel f => rw [exec, execSel] at hu; exact State.runAlu_wf (hw := hw) (hu := hu) ..
  | mov f => rw [exec, execMov] at hu; exact State.runAlu_wf (hw := hw) (hu := hu) ..
  | klog f => rw [exec, execKlog] at hu; exact State.runAlu_wf (hw := hw) (hu := hu) ..
  | iadd64 f => rw [exec, execIadd64] at hu; exact State.alu64_wf (hw := hw) (hu := hu) ..
  | isub64 f => rw [exec, execIsub64] at hu; exact State.alu64_wf (hw := hw) (hu := hu) ..
  | imul64 f => rw [exec, execImul64] at hu; exact State.alu64_wf (hw := hw) (hu := hu) ..
  | imad64 f => rw [exec, execImad64] at hu; exact State.runAlu_wf (hw := hw) (hu := hu) ..
  | imulhi64 f => rw [exec, execImulhi64] at hu; exact State.alu64_wf (hw := hw) (hu := hu) ..
  | idivs64 f => rw [exec, execIdivs64] at hu; exact State.alu64_wf (hw := hw) (hu := hu) ..
  | idivu64 f => rw [exec, execIdivu64] at hu; exact State.alu64_wf (hw := hw) (hu := hu) ..
  | imin64 f => rw [exec, execImin64] at hu; exact State.alu64_wf (hw := hw) (hu := hu) ..
  | imax64 f => rw [exec, execImax64] at hu; exact State.alu64_wf (hw := hw) (hu := hu) ..
  | shl64 f => rw [exec, execShl64] at hu; exact State.alu6432_wf (hw := hw) (hu := hu) ..
  | shr64 f => rw [exec, execShr64] at hu; exact State.alu6432_wf (hw := hw) (hu := hu) ..
  | sar64 f => rw [exec, execSar64] at hu; exact State.alu6432_wf (hw := hw) (hu := hu) ..
  | isetp64 f => rw [exec, execIsetp64] at hu; exact State.runAlu_wf (hw := hw) (hu := hu) ..
  | mov64 f => rw [exec, execMov64] at hu; exact State.runAlu_wf (hw := hw) (hu := hu) ..
  | opadd f => rw [exec, execOpadd] at hu; exact State.runAlu_wf (hw := hw) (hu := hu) ..
  | opdiff f => rw [exec, execOpdiff] at hu; exact State.runAlu_wf (hw := hw) (hu := hu) ..
  | opmake f => rw [exec, execOpmake] at hu; exact State.runAlu_wf (hw := hw) (hu := hu) ..
  | opext f => rw [exec, execOpext] at hu; exact State.runAlu_wf (hw := hw) (hu := hu) ..
  | lea f => rw [exec, execLea] at hu; exact State.runAlu_wf (hw := hw) (hu := hu) ..
  | fadd f => rw [exec, execFadd] at hu; exact State.fp2_wf (hw := hw) (hu := hu) ..
  | fmul f => rw [exec, execFmul] at hu; exact State.fp2_wf (hw := hw) (hu := hu) ..
  | ffma f => rw [exec, execFfma] at hu; exact State.runAlu_wf (hw := hw) (hu := hu) ..
  | fmin f => rw [exec, execFmin] at hu; exact State.fpPick_wf (hw := hw) (hu := hu) ..
  | fmax f => rw [exec, execFmax] at hu; exact State.fpPick_wf (hw := hw) (hu := hu) ..
  | fsetp f => rw [exec, execFsetp] at hu; exact State.runAlu_wf (hw := hw) (hu := hu) ..
  | frcp f => rw [exec, execFrcp] at hu; exact State.fp1_wf (hw := hw) (hu := hu) ..
  | frsq f => rw [exec, execFrsq] at hu; exact State.fp1_wf (hw := hw) (hu := hu) ..
  | fexp2 f => rw [exec, execFexp2] at hu; exact State.fp1_wf (hw := hw) (hu := hu) ..
  | flog2 f => rw [exec, execFlog2] at hu; exact State.fp1_wf (hw := hw) (hu := hu) ..
  | fsub f => rw [exec, execFsub] at hu; exact State.fp2_wf (hw := hw) (hu := hu) ..
  | pkadd f => rw [exec, execPkadd] at hu; exact State.pk2_wf (hw := hw) (hu := hu) ..
  | pkmul f => rw [exec, execPkmul] at hu; exact State.pk2_wf (hw := hw) (hu := hu) ..
  | pkfma f => rw [exec, execPkfma] at hu; exact State.runAlu_wf (hw := hw) (hu := hu) ..
  | pkmin f => rw [exec, execPkmin] at hu; exact State.pkPick_wf (hw := hw) (hu := hu) ..
  | pkmax f => rw [exec, execPkmax] at hu; exact State.pkPick_wf (hw := hw) (hu := hu) ..
  | cvt f => rw [exec, execCvt] at hu; exact State.runAlu_wf (hw := hw) (hu := hu) ..
  | cvt64 f => rw [exec, execCvt64] at hu; exact State.runAlu_wf (hw := hw) (hu := hu) ..
  | tpack f => rw [exec, execTpack] at hu; exact State.runAlu_wf (hw := hw) (hu := hu) ..
  | tunpack f => rw [exec, execTunpack] at hu; exact State.runAlu_wf (hw := hw) (hu := hu) ..
  | ld f => rw [exec, execLd] at hu; exact State.accessWord_wf (hw := hw) (hu := hu) ..
  | st f => rw [exec, execSt] at hu; exact State.accessWord_wf (hw := hw) (hu := hu) ..
  | ldo f => rw [exec, execLdo] at hu; exact State.accessWord_wf (hw := hw) (hu := hu) ..
  | sto f => rw [exec, execSto] at hu; exact State.accessWord_wf (hw := hw) (hu := hu) ..
  | ldAcq f => rw [exec, execLdAcq] at hu; exact State.accessWord_wf (hw := hw) (hu := hu) ..
  | stRel f => rw [exec, execStRel] at hu; exact State.accessWord_wf (hw := hw) (hu := hu) ..
  | ldoAcq f => rw [exec, execLdoAcq] at hu; exact State.accessWord_wf (hw := hw) (hu := hu) ..
  | stoRel f => rw [exec, execStoRel] at hu; exact State.accessWord_wf (hw := hw) (hu := hu) ..
  | ctag f => exact execCtag_wf f s hw hu
  | cfill f => exact execCfill_wf f s hw hu
  | cevict f => exact execCevict_wf f s hw hu
  | cevictWb f => exact execCevictWb_wf f s hw hu
  | cpres f => exact execCpres_wf f s hw hu
  | copy f => exact execCopy_wf f s hw hu
  | kick f => exact execKick_wf f s hw hu
  | oalloc f => rw [exec, execOalloc] at hu; exact State.objWord_wf (hw := hw) (hu := hu) ..
  | ofree f => rw [exec, execOfree] at hu; exact State.objWord_wf (hw := hw) (hu := hu) ..
  | opin f => rw [exec, execOpin] at hu; exact State.objWord_wf (hw := hw) (hu := hu) ..
  | ounpin f => rw [exec, execOunpin] at hu; exact State.objWord_wf (hw := hw) (hu := hu) ..
  | ocoloc f => rw [exec, execOcoloc] at hu; exact State.objWord_wf (hw := hw) (hu := hu) ..
  | ocolocLeave f => rw [exec, execOcolocLeave] at hu; exact State.objWord_wf (hw := hw) (hu := hu) ..
  | olocate f => rw [exec, execOlocate] at hu; exact State.objWord_wf (hw := hw) (hu := hu) ..
  | olocateGuess f => rw [exec, execOlocateGuess] at hu; exact State.objWord_wf (hw := hw) (hu := hu) ..
  | omigrate f => rw [exec, execOmigrate] at hu; exact State.objWord_wf (hw := hw) (hu := hu) ..
  | osplit f => rw [exec, execOsplit] at hu; exact State.objWord_wf (hw := hw) (hu := hu) ..
  | ostubfree f => rw [exec, execOstubfree] at hu; exact State.objWord_wf (hw := hw) (hu := hu) ..
  | oinfo f => rw [exec, execOinfo] at hu; exact State.objWord_wf (hw := hw) (hu := hu) ..
  | atomAdd f => rw [exec, execAtomAdd] at hu; exact State.atomWord_wf (hw := hw) (hu := hu) ..
  | atomMin f => rw [exec, execAtomMin] at hu; exact State.atomWord_wf (hw := hw) (hu := hu) ..
  | atomMax f => rw [exec, execAtomMax] at hu; exact State.atomWord_wf (hw := hw) (hu := hu) ..
  | atomAnd f => rw [exec, execAtomAnd] at hu; exact State.atomWord_wf (hw := hw) (hu := hu) ..
  | atomOr f => rw [exec, execAtomOr] at hu; exact State.atomWord_wf (hw := hw) (hu := hu) ..
  | atomXor f => rw [exec, execAtomXor] at hu; exact State.atomWord_wf (hw := hw) (hu := hu) ..
  | atomXchg f => rw [exec, execAtomXchg] at hu; exact State.atomWord_wf (hw := hw) (hu := hu) ..
  | atomCas f => rw [exec, execAtomCas] at hu; exact State.atomWord_wf (hw := hw) (hu := hu) ..
  | atomIncb f => rw [exec, execAtomIncb] at hu; exact State.atomWord_wf (hw := hw) (hu := hu) ..
  | atomDecb f => rw [exec, execAtomDecb] at hu; exact State.atomWord_wf (hw := hw) (hu := hu) ..
  | atomWcas f => rw [exec, execAtomWcas] at hu; exact State.atomWord_wf (hw := hw) (hu := hu) ..
  | atomTadd f => exact execAtomTadd_wf f s hw hu
  | arrive f => exact execArrive_wf f s hw hu
  | arriveBytes f => exact execArriveBytes_wf f s hw hu
  | await f => exact execAwait_wf f s hw hu
  | fence f => exact execFence_wf f s hw hu
  | ballot f => exact execBallot_wf f s hw hu
  | shfl f => exact execShfl_wf f s hw hu
  | creduce f => exact execCreduce_wf f s hw hu
  | cscan f => exact execCscan_wf f s hw hu
  | cvote f => exact execCvote_wf f s hw hu
  | nbset f => exact execNbset_wf f s hw hu
  | mmag f => rw [exec, execMmag] at hu; exact State.matrixWord_wf (hw := hw) (hu := hu) ..
  | mmaq f => rw [exec, execMmaq] at hu; exact State.matrixWord_wf (hw := hw) (hu := hu) ..
  | mdrain f => rw [exec, execMdrain] at hu; exact State.matrixWord_wf (hw := hw) (hu := hu) ..
  | mdrainZonly f => rw [exec, execMdrainZonly] at hu; exact State.matrixWord_wf (hw := hw) (hu := hu) ..
  | gres f => exact execGres_wf f s hw hu
  | gcancel f => exact execGcancel_wf f s hw hu
  | tfetch f => exact execTfetch_wf f s hw hu
  | launchq f => exact execLaunchq_wf f s hw hu
  | xsend f => rw [exec, execXsend] at hu; exact State.transferWord_wf (hw := hw) (hu := hu) ..
  | xfetch f => rw [exec, execXfetch] at hu; exact State.transferWord_wf (hw := hw) (hu := hu) ..
  | xadd f => rw [exec, execXadd] at hu; exact State.transferWord_wf (hw := hw) (hu := hu) ..
  | pumppost f => rw [exec, execPumppost] at hu; exact State.postWord_wf (hw := hw) (hu := hu) ..
  | pumppostCancel f => rw [exec, execPumppostCancel] at hu; exact State.postWord_wf (hw := hw) (hu := hu) ..
  | bra f => exact execBra_wf f s hw hu
  | brx f => exact execBrx_wf f s hw hu
  | callRelative f => exact execCallRelative_wf f s hw hu
  | callIndirect f => exact execCallIndirect_wf f s hw hu
  | ret f => exact execRet_wf f s hw hu
  | exit f => exact execExit_wf f s hw hu
  | wait f => exact execWait_wf f s hw hu
  | yield f => exact execYield_wf f s hw hu
  | nop f => exact execNop_wf f s hw hu
  | trap f => exact execTrap_wf f s hw hu
  | tret f => exact execTret_wf f s hw hu
  | tretSkip f => exact execTretSkip_wf f s hw hu
  | sread f => exact execSread_wf f s hw hu
  | swrite f => exact execSwrite_wf f s hw hu
  | tstamp f => exact execTstamp_wf f s hw hu
  | winopen f => exact execWinopen_wf f s hw hu
  | winrel f => rw [exec, execWinrel] at hu; exact State.windowWord_wf (hw := hw) (hu := hu) ..
  | winacq f => rw [exec, execWinacq] at hu; exact State.windowWord_wf (hw := hw) (hu := hu) ..
  | winclose f => rw [exec, execWinclose] at hu; exact State.windowWord_wf (hw := hw) (hu := hu) ..
  | keyqEpoch f => exact execKeyqEpoch_wf f s hw hu
  | keyqWepoch f => rw [exec, execKeyqWepoch] at hu; exact State.windowWord_wf (hw := hw) (hu := hu) ..
  | keyqReport f => exact execKeyqReport_wf f s hw hu
  | formBundle q => exact execFormBundle_wf q s hw hu
  | progressWatchdog c crew pc => exact execProgressWatchdog_wf c crew pc s hw hu
  | deferredFaultDelivery t => exact execDeferredFaultDelivery_wf t s hw hu
  | resourceWait t op => exact execResourceWait_wf t op s hw hu
  | waitExpiry t => exact State.wf_of_mem_eq (execWaitExpiry_mem t s hu) hw
  | exitDrainComplete t => exact execExitDrainComplete_wf t s hw hu
  | responseArrives op => exact execResponseArrives_wf op s hw hu
  | accessRequest op upset => exact execAccessRequest_wf op upset s hw hu
  | wellheadRequest op => exact State.wf_of_mem_eq (execWellheadRequest_mem op s hu) hw
  | served op => exact State.wf_of_mem_eq (execServed_mem op s hu) hw
  | noObject op => exact State.wf_of_mem_eq (execNoObject_mem op s hu) hw
  | faultResponse op => exact execFaultResponse_wf op s hw hu
  | retry op => exact State.wf_of_mem_eq (execRetry_mem op s hu) hw
  | translationWalk d page => exact execTranslationWalk_wf d page s hw hu
  | decayPeriod chip vf => exact State.wf_of_mem_eq (execDecayPeriod_mem chip vf s hu) hw
  | framesReserved mv die => exact State.wf_of_mem_eq (execFramesReserved_mem mv die s hu) hw
  | framesRefused mv => exact State.wf_of_mem_eq (execFramesRefused_mem mv s hu) hw
  | copyDoneCommit mv => exact execCopyDoneCommit_wf mv s hw hu
  | wellheadCommit mv => exact State.wf_of_mem_eq (execWellheadCommit_mem mv s hu) hw
  | commitAck mv => exact execCommitAck_wf mv s hw hu
  | copyChunkWrite op share => exact execCopyChunkWrite_wf op share s hw hu
  | copyComplete op => exact execCopyComplete_wf op s hw hu
  | kickRecordFetch op => exact execKickRecordFetch_wf op s hw hu
  | cfillLine op line => exact execCfillLine_wf op line s hw hu
  | cevictWbLine op => exact execCevictWbLine_wf op s hw hu
  | frameReceived chip frame => exact execFrameReceived_wf chip frame s hw hu
  | kickRegister op => exact State.wf_of_mem_eq (execKickRegister_mem op s hu) hw
  | lrcfgEnable op => exact execLrcfgEnable_wf op s hw hu
  | lrcfgDisable op => exact State.wf_of_mem_eq (execLrcfgDisable_mem op s hu) hw
  | lrconsWrite op => exact execLrconsWrite_wf op s hw hu
  | arrivalContribution msg => exact State.wf_of_mem_eq (execArrivalContribution_mem msg s hu) hw
  | matrixStep q => exact State.wf_of_mem_eq (execMatrixStep_mem q s hu) hw
  | rowCountReread q => exact State.wf_of_mem_eq (execRowCountReread_mem q s hu) hw
  | matrixDrain q => exact execMatrixDrain_wf q s hw hu
  | matrixCommandComplete op => exact execMatrixCommandComplete_wf op s hw hu
  | guardSlotResolve msg => exact State.wf_of_mem_eq (execGuardSlotResolve_mem msg s hu) hw
  | shadowCommit q shadow => exact State.wf_of_mem_eq (execShadowCommit_mem q shadow s hu) hw
  | pumpTransaction d turn => exact execPumpTransaction_wf d turn s hw hu
  | transferComplete op => exact execTransferComplete_wf op s hw hu
  | signalAtTarget msg => exact execSignalAtTarget_wf msg s hw hu
  | linkTimeout op => exact execLinkTimeout_wf op s hw hu
  | workEntryFire d slot => exact execWorkEntryFire_wf d slot s hw hu
  | workEntryRearm d slot => exact execWorkEntryRearm_wf d slot s hw hu
  | reductionSlotSum domain group => exact execReductionSlotSum_wf domain group s hw hu
  | srprod chip vf value => exact State.wf_of_mem_eq (execSrprod_mem chip vf value s hu) hw
  | packetConsume chip ring => exact execPacketConsume_wf chip ring s hw hu
  | cohortPlace chip part => exact execCohortPlace_wf chip part s hw hu
  | cohortEnd c => exact execCohortEnd_wf c s hw hu
  | gridEnd chip grid => exact execGridEnd_wf chip grid s hw hu
  | dispenserFetch op => exact State.wf_of_mem_eq (execDispenserFetch_mem op s hu) hw
  | sluiceTick chip => exact State.wf_of_mem_eq (execSluiceTick_mem chip s hu) hw
  | sluice chip vf value => exact State.wf_of_mem_eq (execSluice_mem chip vf value s hu) hw
  | qown q write => exact execQown_wf q write s hw hu
  | keyCommand chip blob => exact State.wf_of_mem_eq (execKeyCommand_mem chip blob s hu) hw
  | dramLineWriteback d turn => exact execDramLineWriteback_wf d turn s hw hu
  | windowScrubComplete chip grant => exact execWindowScrubComplete_wf chip grant s hw hu
  | preemptRequest chip vf => exact State.wf_of_mem_eq (execPreemptRequest_mem chip vf s hu) hw
  | deferralLimit chip vf => exact State.wf_of_mem_eq (execDeferralLimit_mem chip vf s hu) hw
  | handlerPreemptLimit t => exact State.wf_of_mem_eq (execHandlerPreemptLimit_mem t s hu) hw
  | contextSaved chip vf => exact State.wf_of_mem_eq (execContextSaved_mem chip vf s hu) hw
  | contextResume chip vf => exact execContextResume_wf chip vf s hw hu
  | vfctlKill chip vf => exact execVfctlKill_wf chip vf s hw hu
  | vfctlReset chip vf => exact execVfctlReset_wf chip vf s hw hu
  | killReclaim chip vf => exact execKillReclaim_wf chip vf s hw hu
  | dlctlRound chip vf => exact State.wf_of_mem_eq (execDlctlRound_mem chip vf s hu) hw
  | dlctlScan chip vf => exact execDlctlScan_wf chip vf s hw hu
  | coreRetire c loss => exact execCoreRetire_wf c loss s hw hu
  | dramSpare d bank unit => exact execDramSpare_wf d bank unit s hw hu
  | laneFailure d port => exact execLaneFailure_wf d port s hw hu
  | laneRetrainDone d port => exact State.wf_of_mem_eq (execLaneRetrainDone_mem d port s hu) hw
  | counterRebuild d block => exact execCounterRebuild_wf d block s hw hu
  | lockkeeperSramScrub chip upset => exact execLockkeeperSramScrub_wf chip upset s hw hu
  | heartbeat chip missed => exact State.wf_of_mem_eq (execHeartbeat_mem chip missed s hu) hw
  | takeOver chip => exact execTakeOver_wf chip s hw hu
  | lkupd chip image => exact State.wf_of_mem_eq (execLkupd_mem chip image s hu) hw
  | liveUpdateTakeover chip check => exact execLiveUpdateTakeover_wf chip check s hw hu
  | moduleReset boot => exact execModuleReset_wf boot s hw hu
  | thermalThreshold chip temp => exact execThermalThreshold_wf chip temp s hw hu
  | linkRekey d port => exact State.wf_of_mem_eq (execLinkRekey_mem d port s hu) hw
  | ptpMessage chip step => exact execPtpMessage_wf chip step s hw hu
  | registerWrite chip page offset value => exact execRegisterWrite_wf chip page offset value s hw hu
  | wellheadObjectRequest op => exact execWellheadObjectRequest_wf op s hw hu
  | storeCompletion op => exact execStoreCompletion_wf op s hw hu
  | reductionSlotReply op => exact execReductionSlotReply_wf op s hw hu
  | mkaMessage chip port => exact State.wf_of_mem_eq (execMkaMessage_mem chip port s hu) hw

/-- Settles O58: a step is a turn's passing of time, then the word or the agent that it names. -/
theorem everyStepKeepsMemoryCanonical : Obligations.EveryStepKeepsMemoryCanonical := by
  intro s t hs hu
  have hw : Memory.wf s.nextTurn.2.mem = true := State.wf_of_mem_eq s.nextTurn_mem hs
  simp only [step] at hu
  split at hu
  · cases hu
  · split at hu
    · exact exec_wf _ _ hw hu
    · split at hu
      · cases hu; exact hw
      · refine exec_wf _ _ ?_ hu
        exact hw

end Sys2Proof.Machine
end

section
/-! PROOFS. A step, the state at reset, and the frame of a register word. -/

namespace Sys2Proof.Machine

/-! ## A step (O53) -/

/-- The bundle's words at its place give the instruction that the decoder gives. -/
theorem State.fetchInstr_of_decodeWord {s : State} {q : QuadId} {k : Nat} {b : Bundle} {c : WordCtx} {w : DWord} {i : Instr}
    (hb : Tab.get? (s.quad q).bundles k = some b) (hw : b.words[b.word]? = some w)
    (hd : decodeWord c w (b.words.getD (b.word + 1) 0) = .ok i) : s.fetchInstr q k = some i := by
  simp only [State.fetchInstr, hb, hw]
  exact (decodeWord_toOption_eq_some.mp (by rw [hd]; rfl)).1

/-- Settles O53: the three kinds of turn, and the turn that the arbiter names. -/
theorem aStepRunsTheDecodedInstruction : Obligations.AStepRunsTheDecodedInstruction := by
  intro s ticks ts
  refine ⟨fun q k b c w i hturns hoff hb hw hd => ?_, fun i hturns hp => ?_, fun a hturns hp => ?_, fun hturns => ?_⟩
  · have hf : ({ s with turns := ts, now := s.now + ticks } : State).fetchInstr q k = some i := State.fetchInstr_of_decodeWord hb hw hd
    have hp : ({ s with turns := ts, now := s.now + ticks } : State).powered (.issue q k) = true := by
      simp only [State.powered, State.chip] at hoff ⊢
      rw [hoff]; rfl
    simp only [step, State.nextTurn, hturns, hp, hf, Bool.not_true, Bool.false_eq_true, if_false]
  · have hp : ({ s with turns := ts, now := s.now + ticks } : State).powered (.agent i) = true := hp
    simp only [step, State.nextTurn, hturns, hp, Bool.not_true, Bool.false_eq_true, if_false]
  · have hp : ({ s with turns := ts, now := s.now + ticks } : State).powered a = false := hp
    simp only [step, State.nextTurn, hturns, hp, Bool.not_false, if_true]
  · have h : s.nextTurn = ({ s with turns := [Config.arbiter s.draws], draws := s.draws + 1 } : State).nextTurn := by
      simp only [State.nextTurn, hturns]
    simp only [step, h]

/-- Settles O51: the words decode by evaluation. -/
theorem writtenOutWordsDecode : Obligations.WrittenOutWordsDecode := by
  unfold Obligations.WrittenOutWordsDecode
  decide

/-! ## Reset (O59, O60) -/

/-- Settles O59: nothing is written. -/
theorem resetIsCanonical : Obligations.ResetIsCanonical := rfl

/-- The registers whose reset value is not zero. -/
def HostReg.nonzero : HostReg → Bool
  | .affinity _ | .weight _ | .hashid | .lkstat => true
  | _ => false

theorem State.vf_reset (c v : Nat) : State.reset.vf c v = {} := rfl

/-- Every other register reads as zero at reset. -/
theorem hostRead_reset {r : HostReg} (h : r.nonzero = false) : State.reset.hostRead 0 r = 0 := by
  cases r with
  | affinity | weight | hashid | lkstat => cases h
  | cmask p d => exact match d with | 0 | 1 | 2 | 3 | _ + 4 => rfl
  | sctl v => simp [State.hostRead, State.unmapped, State.vf_reset, bit', bitsOf]
  | vfcfg v => simp [State.hostRead, State.vf_reset, bit', at']
  | wgrefs w => simp [State.hostRead, State.grant, State.chip, State.reset, Tab.getD, Tab.get?, at']
  | _ => rfl

theorem readReg_reset {page : HostPage} {o : Nat} (h : ∀ r, hostReg page o = some r → r.nonzero = false) : State.reset.readReg 0 page o = 0 := by
  unfold State.readReg
  split
  · rename_i r hr
    rw [hostRead_reset (h r hr)]; rfl
  · rfl

theorem ringReg_nonzero {vf o : Nat} {r : HostReg} (h : ringReg vf o = some r) : r.nonzero = false := by
  unfold ringReg at h; split at h <;> cases h <;> rfl
theorem sluiceReg_nonzero {vf o : Nat} {r : HostReg} (h : sluiceReg vf o = some r) : r.nonzero = false := by
  unfold sluiceReg at h; split at h <;> cases h <;> rfl
theorem functionReg_nonzero {vf o : Nat} {r : HostReg} (h : functionReg vf o = some r) : r.nonzero = false := by
  unfold functionReg at h; split at h <;> cases h <;> rfl
theorem grantReg_nonzero {w o : Nat} {r : HostReg} (h : grantReg w o = some r) : r.nonzero = false := by
  unfold grantReg at h; split at h <;> cases h <;> rfl
theorem recoveryReg_nonzero {vf o : Nat} {r : HostReg} (h : recoveryReg vf o = some r) : r.nonzero = false := by
  unfold recoveryReg at h; split at h <;> cases h <;> rfl

theorem schedulingReg_nonzero {o : Nat} {r : HostReg} (h : hostReg .scheduling o = some r) : r.nonzero = false := by
  simp only [hostReg] at h
  split at h
  · exact ringReg_nonzero h
  · split at h
    · exact sluiceReg_nonzero h
    · cases h

theorem isolationReg_nonzero {o : Nat} {r : HostReg} (h : hostReg .isolation o = some r) (ho : o ≠ 0xF000) : r.nonzero = false := by
  simp only [hostReg, ho, if_false] at h
  split at h
  · split at h <;> cases h; rfl
  · split at h
    · split at h <;> cases h; rfl
    · split at h
      · exact functionReg_nonzero h
      · split at h
        · split at h <;> cases h; rfl
        · split at h
          · exact grantReg_nonzero h
          · cases h

/-- Settles O60: a register that is not one of the four reads as zero, and they read their own values. -/
theorem resetValuesAreThoseOfTheTables : Obligations.ResetValuesAreThoseOfTheTables := by
  refine ⟨rfl, rfl, rfl, rfl, rfl, rfl, rfl, fun vf hvf => ⟨?_, ?_, fun o ho => ⟨?_, ?_⟩, fun o ho => ⟨?_, ?_⟩⟩, fun o ho => ?_, fun o ho ho' => ?_, rfl, ?_⟩
  · have hr : hostReg .objectSpace (0x1000 + 4 * vf) = some (.affinity vf) := by
      simp [hostReg]; omega
    simp only [State.readReg, hr]; rfl
  · have hr : hostReg .objectSpace (0x2000 + 4 * vf) = some (.weight vf) := by
      simp [hostReg]; omega
    simp only [State.readReg, hr]; rfl
  · exact readReg_reset fun r hr => schedulingReg_nonzero hr
  · refine readReg_reset fun r hr => ?_
    simp only [hostReg, show 64 * vf + o < 0x10000 by omega, if_true] at hr
    exact recoveryReg_nonzero hr
  · exact readReg_reset fun r hr => schedulingReg_nonzero hr
  · exact readReg_reset fun r hr => isolationReg_nonzero hr (by omega)
  · exact readReg_reset fun r hr => isolationReg_nonzero hr (by omega)
  · exact readReg_reset fun r hr => isolationReg_nonzero hr (by omega)
  · decide

/-! ## The frame of a register word (O55) -/

/-- A bundle at the end of its clause, whose one thread yields and lives in another quadrant than the one that issues it. -/
def yieldingAway : State := { State.reset with
  quads := [(⟨0, 0, 0, 0⟩, { bundles := [(0, { threads := [⟨⟨0, 0, 0, 0⟩, 0⟩] })] })]
  threads := [(⟨⟨0, 0, 0, 0⟩, 0⟩, { quad := ⟨0, 0, 0, 1⟩, yielding := true })] }

/-- Refutes O55: the clause ends with the word, and a yielding thread takes its new place in its own quadrant, whose count that
changes; nothing in the statement says that the bundle's quadrant is the thread's. -/
theorem not_registerWordsChangeOnlyTheirThreads : ¬ Obligations.RegisterWordsChangeOnlyTheirThreads := by
  intro h
  have := h yieldingAway (.nop noFields) ⟨0, 0, 0, 0⟩ 0 { threads := [⟨⟨0, 0, 0, 0⟩, 0⟩] } noFields
    (fun _ => { quad := ⟨0, 0, 0, 1⟩, yielding := true }) rfl (by decide) rfl rfl
  obtain ⟨_, _, _, _, _, _, _, _, _, _, _, _, _, _, _, _, _, _, _, _, _, _, hq, _⟩ := this
  have := congrArg Quad.seq (hq ⟨0, 0, 0, 1⟩ (by decide))
  revert this
  decide
end Sys2Proof.Machine
end

section
/-! PROOFS. Words that one thread of a bundle executes: what a word does is what its body does. -/

namespace Sys2Proof.Machine

/-! ## From a word's body to what it does -/

section
variable {i : Instr} {f : Fields} {p : State → Bundle → ThreadId → Prop} {r : State → Bundle → ThreadId → State}
  {hold : State → Bundle → List ThreadId → Option Nat} {body : State → Bundle → ThreadId → State → Res}

/-- A word whose body is not held: its effect is the settlement of its result. The premise of the word does not look at the mark
of the issuing bundle. -/
theorem does_of_settle (h : ∀ s, exec i s = s.runThreads i hold body) (hq : ∀ s b t, p s b t → p s.quiet b t)
    (hb : ∀ s b t, p s b t → body s b t s ≠ .held ∧ hold s b ([t].filter fun u => (body s b u s).goes) = none
      ∧ s.settle b t (body s b t s) = r s b t) : Does i f p r := by
  intro s q k b t hi hp
  obtain ⟨hheld, hhold, hr⟩ := hb s.quiet b t (hq s b t hp)
  rw [h, State.runThreads_alone hi hhold hheld, hr]

theorem does_of_body (h : ∀ s, exec i s = s.runThreads i noHold body) (hq : ∀ s b t, p s b t → p s.quiet b t)
    (hb : ∀ s b t, p s b t → body s b t s = .done (r s b t)) : Does i f p r :=
  does_of_settle h hq fun s b t hp => by rw [hb s b t hp]; exact ⟨by simp, rfl, rfl⟩

theorem traps_of_body {kind : TrapKind} {cause : State → Bundle → ThreadId → Nat} {addr : State → Bundle → ThreadId → DWord}
    (h : ∀ s, exec i s = s.runThreads i noHold body) (hq : ∀ s b t, p s b t → p s.quiet b t)
    (hb : ∀ s b t, p s b t → body s b t s = .trap kind (cause s b t) (addr s b t) 0) : Traps i f p kind cause addr :=
  does_of_settle h hq fun s b t hp => by rw [hb s b t hp]; exact ⟨by simp, rfl, rfl⟩

/-- A change of each entry at a key changes what is found at the key, and nothing else. -/
theorem Tab.get?_map_at {κ ν : Type} [DecidableEq κ] (m : Tab κ ν) (k : κ) (g : ν → ν) :
    Tab.get? (List.map (fun (e : κ × ν) => if e.1 = k then (k, g e.2) else e) m) k = (Tab.get? m k).map g := by
  induction m with
  | nil => rfl
  | cons e m ih =>
    by_cases he : e.1 = k
    · simp [Tab.get?, he]
    · simp only [List.map_cons, he, if_false]
      simpa [Tab.get?, he] using ih

/-- Where the bundle keeps all of the threads that issued, none has retired the word, and the bundle is held. -/
theorem State.moveOn_of_rest {s : State} {i : Instr} {q : QuadId} {k : Nat} {ts : List ThreadId} {b : Bundle}
    (hb : Tab.get? (s.quad q).bundles k = some b) (hts : ∀ t ∈ ts, t ∈ b.rest) (hne : b.rest ≠ []) : s.moveOn i q k ts = s.hold q k 0 := by
  have hstay : (ts.filter fun t => b.threads.contains t && !b.rest.contains t) = [] :=
    List.filter_eq_nil_iff.mpr fun t ht => by simp [hts t ht]
  have hretire : s.retire i q k ts = s := by
    simp only [State.retire, hb, hstay, List.foldl_nil, List.map_nil, List.eraseDups_nil, List.filter_nil, decide_true, Bool.true_or, if_true,
      ite_self]
  simp only [State.moveOn, hretire, hb, ne_eq, hne, not_false_eq_true, if_true]

theorem State.hold_zero {s : State} {q : QuadId} {k : Nat} {b : Bundle} (hb : Tab.get? (s.quad q).bundles k = some b) :
    s.hold q k 0 = s.modQuad q fun y => { y with bundles := Tab.put y.bundles k { b with heldSince := none, pool := 0, order := 0 } } := by
  simp [State.hold, hb]

/-- A held word leaves its thread and memory as they were, and its bundle stands at it for that thread. -/
theorem holds_of_body (h : ∀ s, exec i s = s.runThreads i noHold body) (hq : ∀ s b t, p s b t → p s.quiet b t)
    (hb : ∀ s b t, p s b t → body s b t s = .held) : Holds i f p := by
  intro s q k b t hi hp
  have hbody := hb s.quiet b t (hq s b t hp)
  have hrun : (s.quiet.thread t).run = .issuing :=
    hi.running t (List.mem_filter.mp (show t ∈ s.executing b f by rw [hi.alone]; simp)).1
  have heach : s.quiet.eachThread body b [t] = (s.quiet, [t]) := by
    simp only [State.eachThread, List.foldl_cons, List.foldl_nil, hrun, if_true, hbody, List.nil_append]
  rw [h, State.runThreads, State.runBundle_next hi.toIssuing rfl, hi.alone, heach]
  refine ⟨_, rfl, ?_⟩
  simp only [List.cons_ne_nil, if_false]
  have hbundle := Tab.get?_map_at (s.quiet.quad q).bundles k fun b => { b with rest := [t] }
  rw [show Tab.get? (s.quiet.quad q).bundles k = some b from hi.bundle, Option.map_some] at hbundle
  have hquad : Tab.get? ((s.quiet.modQuad q fun y => { y with
      bundles := List.map (fun (e : Nat × Bundle) => if e.1 = k then (k, { e.2 with rest := [t] }) else e) y.bundles }).quad q).bundles k = some { b with rest := [t] } := by
    rw [State.modQuad_eq, State.quad_setQuad]; exact hbundle
  rw [State.moveOn_of_rest hquad (fun _ hu => hu) (List.cons_ne_nil _ _), State.hold_zero hquad]
  refine ⟨rfl, rfl, ?_⟩
  rw [State.modQuad_eq, State.quad_setQuad, Tab.get?_put_self]
end

/-! ## Control words that end or delay a clause (O54) -/

theorem exitWaitYieldAndNop : ExitWaitYieldAndNop := by
  refine ⟨fun f n => ⟨?_, ?_, ?_, ?_, ?_⟩, fun s t d hrun ha hd => ?_, fun s t d hrun hd => ?_⟩
  · exact does_of_body (fun _ => rfl) (fun _ _ _ h => h) fun _ _ _ _ => rfl
  · exact does_of_body (fun _ => rfl) (fun _ _ _ h => h) fun _ _ _ _ => rfl
  · exact does_of_body (fun _ => rfl) (fun _ _ _ h => h) fun _ _ _ _ => rfl
  · refine does_of_body (fun _ => rfl) (fun _ _ _ h => h) fun s b t h => ?_
    simp only [h, orTrap, if_true]
  · refine does_of_settle (hold := noHold) (fun _ => rfl) (fun _ _ _ h => h) fun s b t ⟨h, hn⟩ => ?_
    simp only [h, orTrap, hn, if_false]
    refine ⟨by simp, rfl, ?_⟩
    simp only [State.settle]
    split <;> simp
  · rw [show exec (.waitExpiry t) s = execWaitExpiry t s from rfl, execWaitExpiry, hrun]
    simp [ha, hd]
  · rw [show exec (.waitExpiry t) s = execWaitExpiry t s from rfl, execWaitExpiry, hrun]
    simp [Nat.not_le.mpr hd]

/-- A register word whose function has no value traps at its word. -/
theorem traps_of_runAlu {i : Instr} {f : Fields} {p : State → Bundle → ThreadId → Prop}
    {g : State → Bundle → ThreadId → Thread → Option Thread} (h : ∀ s, exec i s = s.runAlu i g)
    (hq : ∀ s b t, p s b t → p s.quiet b t) (hg : ∀ s b t, p s b t → g s b t (s.thread t) = none) :
    Traps i f p .illegalOperand (fun _ _ _ => 0) (fun _ _ _ => 0) :=
  traps_of_body h hq fun s b t hp => by rw [hg s b t hp]; rfl

theorem bind_map_none_of {α β γ : Type} {x : Option α} {y : Option β} {g : α → β → γ} (h : x = none ∨ y = none) :
    (x.bind fun a => y.map fun b => g a b) = none := by
  rcases h with rfl | rfl
  · rfl
  · cases x <;> rfl

theorem anUnwrittenLatchTraps : AnUnwrittenLatchTraps := by
  intro f
  have two {i : Instr} {g : Word → Word → Word} (h : ∀ s, exec i s = s.alu32 i f g) :
      Traps i f (fun s b t => s.a32 b t f = none ∨ (s.thread t).b32 f = none) .illegalOperand (fun _ _ _ => 0) (fun _ _ _ => 0) :=
    traps_of_runAlu h (fun _ _ _ h => h) fun _ _ _ h => bind_map_none_of h
  have wide {i : Instr} {g : DWord → DWord → DWord} (h : ∀ s, exec i s = s.alu64 i f g) :
      Traps i f (fun s b t => s.a64 b t f = none ∨ (s.thread t).b64 f = none) .illegalOperand (fun _ _ _ => 0) (fun _ _ _ => 0) :=
    traps_of_runAlu h (fun _ _ _ h => h) fun _ _ _ h => bind_map_none_of h
  have one {i : Instr} {g : Word → Word} (h : ∀ s, exec i s = s.alu1 i f g) :
      Traps i f (fun s b t => s.a32 b t f = none) .illegalOperand (fun _ _ _ => 0) (fun _ _ _ => 0) :=
    traps_of_runAlu h (fun _ _ _ h => h) fun s b t h => by rw [h]; rfl
  exact ⟨two fun s => by rw [exec, execIadd], two fun s => by rw [exec, execIsub], two fun s => by rw [exec, execImul],
    two fun s => by rw [exec, execImin], two fun s => by rw [exec, execImax], wide fun s => by rw [exec, execIadd64],
    wide fun s => by rw [exec, execIsub64], wide fun s => by rw [exec, execImul64], one fun s => by rw [exec, execPopc],
    one fun s => by rw [exec, execClz]⟩

/-! ## The end of a clause -/

/-- What a thread keeps when it stands at a header: its place, its registers and what it has saved. -/
structure Thread.StandsAs (x y : Thread) : Prop where
  pc      : y.pc = x.pc
  word    : y.word = x.word
  inside  : y.inside = x.inside
  regs    : y.regs = x.regs
  preds   : y.preds = x.preds
  latches : y.latches = x.latches
  dcs     : y.dcs = x.dcs
  ret     : y.ret = x.ret
  stack   : y.stack = x.stack
  nextPc  : y.nextPc = x.nextPc
  run     : y.run = .blocked ∨ y.run = .ready ∨ y.run = .rendezvous

theorem State.standsAs_stand (s : State) (t : ThreadId) : (s.thread t).StandsAs ((s.stand t).thread t) := by
  unfold State.stand
  dsimp only
  split
  · rw [State.thread_setThread]
    exact ⟨rfl, rfl, rfl, rfl, rfl, rfl, rfl, rfl, rfl, rfl, .inl rfl⟩
  · split
    · rw [State.thread_setThread]
      exact ⟨rfl, rfl, rfl, rfl, rfl, rfl, rfl, rfl, rfl, rfl, .inl rfl⟩
    · split
      · rw [State.thread_setThread]
        exact ⟨rfl, rfl, rfl, rfl, rfl, rfl, rfl, rfl, rfl, rfl, .inl rfl⟩
      · rename_i w ws _ _
        have hrun : ∀ c : Bool, (if c then RunState.rendezvous else .ready) = .blocked ∨ (if c then RunState.rendezvous else .ready) = .ready
            ∨ (if c then RunState.rendezvous else .ready) = .rendezvous := by decide
        simp only [State.observe, State.modThread_eq, State.thread_setThread]
        split
        · rw [State.thread_setThread]
          exact ⟨rfl, rfl, rfl, rfl, rfl, rfl, rfl, rfl, rfl, rfl, hrun _⟩
        · exact ⟨rfl, rfl, rfl, rfl, rfl, rfl, rfl, rfl, rfl, rfl, hrun _⟩

theorem State.thread_renew (s : State) (t : ThreadId) : (s.renew t).thread t = { s.thread t with seq := ((s.renew t).thread t).seq } := by
  simp only [State.renew, State.modThread_eq, State.thread_setThread]
  rfl

theorem aClauseEndsAtItsTargetOrTheNextHeader : AClauseEndsAtItsTargetOrTheNextHeader := by
  intro s b t
  dsimp only
  by_cases hx : (s.thread t).exiting = true
  · rw [State.endClause, if_pos hx, State.thread_setThread]
    exact ⟨fun _ => ⟨rfl, rfl, rfl⟩, fun h => by simp [hx] at h, rfl, rfl, rfl, rfl, rfl⟩
  · have hkeep : ∀ u : State, u.thread t = { s.thread t with seq := (u.thread t).seq } →
        (u.thread t).regs = (s.thread t).regs ∧ (u.thread t).preds = (s.thread t).preds ∧ (u.thread t).dcs = (s.thread t).dcs
        ∧ (u.thread t).ret = (s.thread t).ret ∧ (u.thread t).stack = (s.thread t).stack := fun u h => by
      rw [h]; exact ⟨rfl, rfl, rfl, rfl, rfl⟩
    have hren : (if (s.thread t).yielding then s.renew t else s).thread t
        = { s.thread t with seq := ((if (s.thread t).yielding then s.renew t else s).thread t).seq } := by
      split
      · exact s.thread_renew t
      · rfl
    obtain ⟨hr, hp, hd, hret, hs⟩ := hkeep _ hren
    rw [State.endClause, if_neg hx]
    have h := State.standsAs_stand ((if (s.thread t).yielding then s.renew t else s).setThread t
      { (if (s.thread t).yielding then s.renew t else s).thread t with
        yielding := false, pc := (s.thread t).nextPc.getD (ptrAdd b.pc (8 * (b.words.length + 1))), word := 0, inside := false, nextPc := none,
        latches := List.replicate 8 none }) t
    rw [State.thread_setThread] at h
    exact ⟨fun h => absurd h hx, fun _ => ⟨h.pc, h.nextPc, h.inside, h.word, h.latches, h.run⟩, h.regs.trans hr, h.preds.trans hp, h.dcs.trans hd,
      h.ret.trans hret, h.stack.trans hs⟩

/-- Settles O54: the control words by their bodies, the latches by the register words' sources, the clause's end by `stand`. -/
theorem clausesEndAndLatchesAreChecked : Obligations.ClausesEndAndLatchesAreChecked :=
  ⟨exitWaitYieldAndNop, anUnwrittenLatchTraps, aClauseEndsAtItsTargetOrTheNextHeader⟩

end Sys2Proof.Machine
end

section
/-! PROOFS. Control transfers and special registers (O13, O15). -/

namespace Sys2Proof.Machine

/-! ## What a read of memory looks at -/

/-- Two states that a read of memory cannot tell apart: they differ at most in threads, operations, ports and other records that no
read looks at. -/
structure State.ReadsAs (u s : State) : Prop where
  mem     : u.mem = s.mem
  failed  : u.failed = s.failed
  chips   : u.chips = s.chips
  grids   : u.grids = s.grids
  cohorts : u.cohorts = s.cohorts
  objects : u.objects = s.objects
  die     : ∀ d, u.die d = { s.die d with ports := (u.die d).ports }

namespace State.ReadsAs
variable {u s : State} (h : u.ReadsAs s)

theorem refl (s : State) : s.ReadsAs s := ⟨rfl, rfl, rfl, rfl, rfl, rfl, fun _ => rfl⟩

theorem trans {w : State} (g : w.ReadsAs u) (h : u.ReadsAs s) : w.ReadsAs s :=
  ⟨g.mem.trans h.mem, g.failed.trans h.failed, g.chips.trans h.chips, g.grids.trans h.grids, g.cohorts.trans h.cohorts,
    g.objects.trans h.objects, fun d => by rw [g.die d, h.die d]⟩

include h
theorem chip (c : Nat) : u.chip c = s.chip c := by rw [State.chip, h.chips]; rfl
theorem vf (c v : Nat) : u.vf c v = s.vf c v := by rw [State.vf, h.chip]; rfl
theorem grant (c w : Nat) : u.grant c w = s.grant c w := by rw [State.grant, h.chip]; rfl
theorem cohort (c : CohortId) : u.cohort c = s.cohort c := by rw [State.cohort, h.cohorts]; rfl
theorem launchOf (c : CohortId) : u.launchOf c = s.launchOf c := by rw [State.launchOf, State.grid, h.grids]; rfl
theorem ctxOf (c : CohortId) : u.ctxOf c = s.ctxOf c := by rw [State.ctxOf, h.cohort]; rfl
theorem obj? (p : DWord) : u.obj? p = s.obj? p := by rw [State.obj?, h.objects]; rfl
theorem ownerKey (c o : Nat) : u.ownerKey c o = s.ownerKey c o := by simp only [State.ownerKey, h.vf, h.grant]
theorem treeHeight (c o : Nat) : u.treeHeight c o = s.treeHeight c o := by simp only [State.treeHeight, h.vf, h.grant]
theorem keyOwner (d : DieId) (n : Nat) : u.keyOwner d n = s.keyOwner d n := by rw [State.keyOwner, h.die d]; rfl
theorem treeBlock (c o level i : Nat) : u.treeBlock c o level i = s.treeBlock c o level i := by
  simp only [State.treeBlock, State.rootOf, h.vf, h.grant, h.treeHeight, h.chip]
  rw [h.die]
theorem blockMac (c o level i : Nat) (b p : CounterBlock) : u.blockMac c o level i b p = s.blockMac c o level i b p := by
  simp only [State.blockMac, h.ownerKey]
theorem blockOk (c o n level i : Nat) : u.blockOk c o n level i = s.blockOk c o n level i := by
  induction n generalizing level i with
  | zero => rfl
  | succ n ih => simp only [State.blockOk, ih, h.treeBlock, h.blockMac]
theorem lineOk (d : DieId) (line : Nat) : u.lineOk d line = s.lineOk d line := by
  simp only [State.lineOk, h.keyOwner, h.treeBlock, h.ownerKey, h.blockOk, h.treeHeight]
  rw [h.die]
theorem dramLine (a : Nat) : u.dramLine a = s.dramLine a := by
  simp only [State.dramLine, h.objects, h.cohort, h.launchOf, h.grant]
theorem lineFails (j : Nat) : u.lineFails j = s.lineFails j := by
  simp only [State.lineFails, h.failed, h.dramLine, h.lineOk]
  congr 1
  split
  · rw [h.die]
  · rfl
theorem readFails (a n : Nat) : u.readFails a n = s.readFails a n := by
  simp only [State.readFails, funext h.lineFails]
theorem reachGlobal (chip vf : Nat) (p : DWord) (n : Nat) (wr : Bool) : u.reachGlobal chip vf p n wr = s.reachGlobal chip vf p n wr := by
  simp only [State.reachGlobal, State.window?, h.vf, h.obj?, h.chip, h.grant]
theorem objectRead (chip vf : Nat) (p : DWord) (n : Nat) : u.objectRead chip vf p n = s.objectRead chip vf p n := by
  simp only [State.objectRead, h.reachGlobal, h.obj?, h.readFails, State.loadBytes, h.mem]
theorem readWaits (chip vf : Nat) (p : DWord) (n : Nat) : u.readWaits chip vf p n = s.readWaits chip vf p n := by
  simp only [State.readWaits, h.reachGlobal]
theorem deviceRead (c : CohortId) (p : DWord) (n : Nat) : u.deviceRead c p n = s.deviceRead c p n := by
  simp only [State.deviceRead, h.ctxOf, h.objectRead]
theorem fetchWaits (c : CohortId) (p : DWord) : u.fetchWaits c p = s.fetchWaits c p := by
  simp only [State.fetchWaits, h.deviceRead, h.ctxOf, h.readWaits]
theorem fetchClause (c : CohortId) (p : DWord) : u.fetchClause c p = s.fetchClause c p := by
  simp only [State.fetchClause, h.deviceRead]
theorem vectorAt (c : CohortId) (k : Nat) : u.vectorAt c k = s.vectorAt c k := by
  simp only [State.vectorAt, h.ctxOf, h.vf]
theorem vector (c : CohortId) (k : Nat) : u.vector c k = s.vector c k := by
  simp only [State.vector, h.vectorAt, h.deviceRead]
theorem vectorWaits (c : CohortId) (k : Nat) : u.vectorWaits c k = s.vectorWaits c k := by
  simp only [State.vectorWaits, h.vectorAt, h.ctxOf, h.readWaits]
end State.ReadsAs

theorem State.quiet_readsAs (s : State) : s.quiet.ReadsAs s := ⟨rfl, rfl, rfl, rfl, rfl, rfl, fun _ => rfl⟩

section
variable (s : State)
@[simp] theorem State.quiet_fetchWaits (c : CohortId) (p : DWord) : s.quiet.fetchWaits c p = s.fetchWaits c p := s.quiet_readsAs.fetchWaits c p
@[simp] theorem State.quiet_fetchClause (c : CohortId) (p : DWord) : s.quiet.fetchClause c p = s.fetchClause c p := s.quiet_readsAs.fetchClause c p
@[simp] theorem State.quiet_launchOf (c : CohortId) : s.quiet.launchOf c = s.launchOf c := rfl
end
@[simp] theorem State.quiet_fetches (s : State) (t : ThreadId) (p : DWord) : s.quiet.fetches t p ↔ s.fetches t p := by
  simp only [State.fetches, State.quiet_fetchWaits, State.quiet_fetchClause]

/-! ## Where a transfer goes -/

section
variable {s : State} {t : ThreadId} {base : DWord} {d : Int} {pointer : Bool} {pre : Option TrapKind} {go : DWord → Thread → Thread}

theorem ptrFits_iff (p : DWord) (d : Int) : ptrFits p (8 * d) = true ↔ stays p d := by
  simp [ptrFits, stays]

theorem stays_zero (p : DWord) : stays p 0 := by
  have : offsetOf p < 2 ^ 30 := Nat.mod_lt _ (by decide)
  simp only [stays, mul_zero, add_zero]
  omega

theorem State.transfer_of_not_stays (h : ¬ (stays base d ∧ (pointer = true → namesObject base = true))) :
    s.transfer t base d pointer pre go = .trap .illegalOperand 0 0 0 := by
  rw [← ptrFits_iff] at h
  refine if_pos ?_
  cases hf : ptrFits base (8 * d) <;> cases pointer <;> simp_all

theorem State.transfer_of_stays (hs : stays base d) (hp : pointer = true → namesObject base = true) :
    s.transfer t base d pointer pre go = match pre with
      | some k => .trap k 0 0 0
      | none =>
        if offsetOf (targetOf base d) % 8 = 0 && s.fetchWaits t.cohort (targetOf base d) then .held else
        match (if offsetOf (targetOf base d) % 8 = 0 then s.fetchClause t.cohort (targetOf base d) else .ok (0, [])) with
        | .error c => .fetch c (targetOf base d)
        | .ok _ => .done (s.modThread t fun x => { go (targetOf base d) x with nextPc := some (targetOf base d) }) := by
  rw [← ptrFits_iff] at hs
  refine if_neg ?_
  cases pointer <;> simp_all

theorem State.transfer_done (hs : stays base d) (hp : pointer = true → namesObject base = true) (hf : s.fetches t (targetOf base d)) :
    s.transfer t base d pointer none go = .done (s.modThread t fun x => { go (targetOf base d) x with nextPc := some (targetOf base d) }) := by
  rw [State.transfer_of_stays hs hp]
  rcases hf with h | ⟨hw, c, hc⟩
  · simp [h]
  · by_cases h : offsetOf (targetOf base d) % 8 = 0 <;> simp [h, hw, hc]

theorem State.transfer_fetch {c : Nat} (hs : stays base d) (hp : pointer = true → namesObject base = true)
    (ha : offsetOf (targetOf base d) % 8 = 0) (hw : s.fetchWaits t.cohort (targetOf base d) = false)
    (hc : s.fetchClause t.cohort (targetOf base d) = .error c) :
    s.transfer t base d pointer none go = .fetch c (targetOf base d) := by
  rw [State.transfer_of_stays hs hp]
  simp [ha, hw, hc]

theorem State.transfer_held (hs : stays base d) (hp : pointer = true → namesObject base = true)
    (ha : offsetOf (targetOf base d) % 8 = 0) (hw : s.fetchWaits t.cohort (targetOf base d) = true) :
    s.transfer t base d pointer none go = .held := by
  rw [State.transfer_of_stays hs hp]
  simp [ha, hw]

theorem State.transfer_pre {k : TrapKind} (hs : stays base d) (hp : pointer = true → namesObject base = true) :
    s.transfer t base d pointer (some k) go = .trap k 0 0 0 := by
  rw [State.transfer_of_stays hs hp]
end

section
variable {f : Fields} {s : State} {t : ThreadId} {b : Bundle} {a : DWord} {d : Word}

theorem Thread.displacement_of {x : Thread} (h : x.b32 f = some d) : x.displacement f = some d.toInt := by
  rw [Thread.displacement, h]; rfl

theorem Thread.callFull_of_room {x : Thread} {n : Nat} (h : x.ret.length + x.stack.length < 8 + n) : x.callFull n = none := if_neg (by omega)

theorem Thread.push_of_room {x : Thread} (h : x.ret.length < 8) (p : DWord) : x.push p = { x with ret := p :: x.ret } := if_pos h

theorem Thread.push_of_full {x : Thread} {l : List DWord} {e : DWord} (hl : l.length = 7) (h : x.ret = l ++ [e]) (p : DWord) :
    x.push p = { x with ret := p :: l, stack := e :: x.stack } := by
  rw [Thread.push, if_neg (by simp [h, hl])]
  simp [h, ← hl]

theorem Thread.pop_of_ret {x : Thread} (h : x.ret.head? = some a) : x.pop = some (a, { x with ret := x.ret.tail }) := by
  obtain ⟨l, hl⟩ := List.head?_eq_some_iff.mp h
  simp [Thread.pop, hl]

theorem Thread.pop_of_stack {x : Thread} (hr : x.ret = []) (h : x.stack.head? = some a) : x.pop = some (a, { x with stack := x.stack.tail }) := by
  obtain ⟨l, hl⟩ := List.head?_eq_some_iff.mp h
  simp [Thread.pop, hr, hl]

/-- The entry popped is the newest of the buffer, and then of the call stack. -/
theorem Thread.pop_of_append {x : Thread} (h : (x.ret ++ x.stack).head? = some a) : ∃ y, x.pop = some (a, y) := by
  cases hr : x.ret with
  | nil => exact ⟨_, Thread.pop_of_stack hr (by simpa [hr] using h)⟩
  | cons e l => exact ⟨_, Thread.pop_of_ret (by simpa [hr] using h)⟩

theorem Thread.pop_of_empty {x : Thread} (hr : x.ret = []) (hs : x.stack = []) : x.pop = none := by simp [Thread.pop, hr, hs]
end

/-! ## Transfers (O13) -/

theorem transfersReachTheirTarget : TransfersReachTheirTarget := by
  intro f d a
  refine ⟨?_, ?_, ?_, ?_, ?_, ?_, ?_⟩
  · refine does_of_body (fun _ => rfl) (fun _ _ _ h => by simpa using h) fun s b t ⟨hd, hs, hf⟩ => ?_
    simp only [Thread.displacement_of hd, orTrap]
    rw [State.transfer_done hs (by simp) hf]
  · refine does_of_body (fun _ => rfl) (fun _ _ _ h => by simpa using h) fun s b t ⟨ha, hd, hn, hs, hf⟩ => ?_
    simp only [ha, Thread.displacement_of hd, orTrap]
    rw [State.transfer_done hs (fun _ => hn) hf]
  · refine does_of_body (fun _ => rfl) (fun _ _ _ h => by simpa using h) fun s b t ⟨hd, hs, hf, hr, hc⟩ => ?_
    simp only [Thread.displacement_of hd, orTrap, Thread.callFull_of_room hc]
    rw [State.transfer_done hs (by simp) hf]
    simp only [State.modThread_eq, Thread.push_of_room hr, Bundle.following]
  · refine does_of_body (fun _ => rfl) (fun _ _ _ h => by simpa using h) fun s b t ⟨ha, hd, hn, hs, hf, hr, hc⟩ => ?_
    simp only [ha, Thread.displacement_of hd, orTrap, Thread.callFull_of_room hc]
    rw [State.transfer_done hs (fun _ => hn) hf]
    simp only [State.modThread_eq, Thread.push_of_room hr, Bundle.following]
  · refine fun l p hl => ⟨?_, ?_⟩
    · refine does_of_body (fun _ => rfl) (fun _ _ _ h => by simpa using h) fun s b t ⟨hd, hs, hf, hr, hc⟩ => ?_
      have hroom : (s.thread t).ret.length + (s.thread t).stack.length < 8 + (s.launchOf t.cohort).cstack := by simp [hr, hl]; omega
      simp only [Thread.displacement_of hd, orTrap, Thread.callFull_of_room hroom]
      rw [State.transfer_done hs (by simp) hf]
      simp only [State.modThread_eq, Thread.push_of_full hl hr, Bundle.following]
    · refine does_of_body (fun _ => rfl) (fun _ _ _ h => by simpa using h) fun s b t ⟨ha, hd, hn, hs, hf, hr, hc⟩ => ?_
      have hroom : (s.thread t).ret.length + (s.thread t).stack.length < 8 + (s.launchOf t.cohort).cstack := by simp [hr, hl]; omega
      simp only [ha, Thread.displacement_of hd, orTrap, Thread.callFull_of_room hroom]
      rw [State.transfer_done hs (fun _ => hn) hf]
      simp only [State.modThread_eq, Thread.push_of_full hl hr, Bundle.following]
  · refine does_of_body (fun _ => rfl) (fun _ _ _ h => by simpa using h) fun s b t ⟨hr, hf⟩ => ?_
    simp only [Thread.pop_of_ret hr]
    rw [State.transfer_done (stays_zero a) (by simp) hf]
    simp only [State.modThread_eq, Thread.pop_of_ret hr]
  · refine does_of_body (fun _ => rfl) (fun _ _ _ h => by simpa using h) fun s b t ⟨hr, hs, hf⟩ => ?_
    simp only [Thread.pop_of_stack hr hs]
    rw [State.transfer_done (stays_zero a) (by simp) hf]
    simp only [State.modThread_eq, Thread.pop_of_stack hr hs]

/-- Under p, the word transfers by d words from a base, and no check is before the fetch. -/
theorem unfetched_of_body {i : Instr} {f : Fields} {p : State → Bundle → ThreadId → Prop} {target : Bundle → DWord} {c : Nat}
    {body : State → Bundle → ThreadId → State → Res}
    (h : ∀ s, exec i s = s.runThreads i noHold body) (hq : ∀ s b t, p s b t → p s.quiet b t)
    (hb : ∀ s b t, p s b t → ∃ base d pointer go, target b = targetOf base d ∧ stays base d ∧ (pointer = true → namesObject base = true)
      ∧ body s b t s = s.transfer t base d pointer none go) :
    Does i f (fun s b t => p s b t ∧ offsetOf (target b) % 8 = 0 ∧ s.fetchWaits t.cohort (target b) = false ∧ s.fetchClause t.cohort (target b) = .error c)
        (fun s b t => (s.takeTrap t { kind := .memoryFault, record := trapRec .memoryFault c b.word b.pc (target b) 0 0 0 false false
                                      point := b.point .word false }).fetchFailed t.cohort (target b) c)
      ∧ Holds i f (fun s b t => p s b t ∧ offsetOf (target b) % 8 = 0 ∧ s.fetchWaits t.cohort (target b) = true) := by
  constructor
  · refine does_of_settle h (fun s b t hp => ⟨hq s b t hp.1, by simpa using hp.2⟩) fun s b t ⟨hp, ha, hw, hc⟩ => ?_
    obtain ⟨base, d, pointer, go, ht, hs, hn, hbody⟩ := hb s b t hp
    rw [ht] at ha hw hc ⊢
    rw [hbody, State.transfer_fetch hs hn ha hw hc]
    exact ⟨by simp, rfl, rfl⟩
  · refine holds_of_body h (fun s b t hp => ⟨hq s b t hp.1, by simpa using hp.2⟩) fun s b t ⟨hp, ha, hw⟩ => ?_
    obtain ⟨base, d, pointer, go, ht, hs, hn, hbody⟩ := hb s b t hp
    rw [ht] at ha hw
    rw [hbody, State.transfer_held hs hn ha hw]

theorem transfersTrapWhereTheyCannotGo : TransfersTrapWhereTheyCannotGo := by
  intro f d a c
  dsimp only
  refine ⟨?_, ?_, ?_, ?_, ?_, ?_, ?_, ?_, ?_, ?_, ?_, ?_⟩
  · refine traps_of_body (fun _ => rfl) (fun _ _ _ h => by simpa using h) fun s b t ⟨hd, hs⟩ => ?_
    simp only [Thread.displacement_of hd, orTrap]
    exact State.transfer_of_not_stays fun h => hs h.1
  · refine traps_of_body (fun _ => rfl) (fun _ _ _ h => by simpa using h) fun s b t ⟨hd, hs⟩ => ?_
    simp only [Thread.displacement_of hd, orTrap]
    exact State.transfer_of_not_stays fun h => hs h.1
  · refine traps_of_body (fun _ => rfl) (fun _ _ _ h => by simpa using h) fun s b t ⟨⟨ha, hd⟩, hs⟩ => ?_
    simp only [ha, Thread.displacement_of hd, orTrap]
    exact State.transfer_of_not_stays fun h => hs ⟨h.1, h.2 rfl⟩
  · refine traps_of_body (fun _ => rfl) (fun _ _ _ h => by simpa using h) fun s b t ⟨⟨ha, hd⟩, hs⟩ => ?_
    simp only [ha, Thread.displacement_of hd, orTrap]
    exact State.transfer_of_not_stays fun h => hs ⟨h.1, h.2 rfl⟩
  · refine unfetched_of_body (fun _ => rfl) (fun _ _ _ h => by simpa using h) fun s b t ⟨hd, hs⟩ => ⟨b.pc, d.toInt, false, fun _ x => x, rfl, hs, by simp, ?_⟩
    simp only [Thread.displacement_of hd, orTrap]
  · refine unfetched_of_body (fun _ => rfl) (fun _ _ _ h => by simpa using h) fun s b t ⟨⟨ha, hd⟩, hs, hn⟩ => ⟨a, d.toInt, true, fun _ x => x, rfl, hs, fun _ => hn, ?_⟩
    simp only [ha, Thread.displacement_of hd, orTrap]
  · refine unfetched_of_body (fun _ => rfl) (fun _ _ _ h => by simpa using h) fun s b t ⟨hd, hs, hc⟩ =>
      ⟨b.pc, d.toInt, false, fun _ x => x.push b.following, rfl, hs, by simp, ?_⟩
    simp only [Thread.displacement_of hd, orTrap, Thread.callFull_of_room (Nat.lt_of_not_le hc)]
  · refine unfetched_of_body (fun _ => rfl) (fun _ _ _ h => by simpa using h) fun s b t ⟨⟨ha, hd⟩, hs, hn, hc⟩ =>
      ⟨a, d.toInt, true, fun _ x => x.push b.following, rfl, hs, fun _ => hn, ?_⟩
    simp only [ha, Thread.displacement_of hd, orTrap, Thread.callFull_of_room (Nat.lt_of_not_le hc)]
  · refine unfetched_of_body (fun _ => rfl) (fun _ _ _ h => by simpa using h) fun s b t hr =>
      ⟨a, 0, false, fun _ x => match x.pop with | some (_, y) => y | none => x, rfl, stays_zero a, by simp, ?_⟩
    obtain ⟨y, hy⟩ := Thread.pop_of_append hr
    simp only [hy] <;> rfl
  · refine traps_of_body (fun _ => rfl) (fun _ _ _ h => by simpa using h) fun s b t ⟨hd, hs, hc⟩ => ?_
    simp only [Thread.displacement_of hd, orTrap, Thread.callFull, hc, if_true]
    exact State.transfer_pre hs (by simp)
  · refine traps_of_body (fun _ => rfl) (fun _ _ _ h => by simpa using h) fun s b t ⟨⟨ha, hd⟩, hs, hn, hc⟩ => ?_
    simp only [ha, Thread.displacement_of hd, orTrap, Thread.callFull, hc, if_true]
    exact State.transfer_pre hs fun _ => hn
  · refine traps_of_body (fun _ => rfl) (fun _ _ _ h => by simpa using h) fun s b t ⟨hr, hs⟩ => ?_
    simp only [Thread.pop_of_empty hr hs]

/-- Settles O13: a transfer checks its pointer, then its fetch, and then sets the target. -/
theorem transfersReachTheirTargetOrTrap : Obligations.TransfersReachTheirTargetOrTrap :=
  ⟨transfersReachTheirTarget, transfersTrapWhereTheyCannotGo⟩

/-! ## Special registers (O15) -/

/-- What SREAD of any register but %ltime does. -/
theorem does_sread {f : Fields} {sel : Nat} {v : State → ThreadId → Nat} (hsel : sel ≠ 0x0E)
    (hv : ∀ s t, BitVec.ofNat 64 (s.special t sel) = BitVec.ofNat 64 (v s t)) (hf : f.ctl = sel) :
    Does (.sread f) f (fun _ _ _ => True) (fun s _ t => s.modThread t fun x =>
      if sel = 0x0D ∨ (0x10 ≤ sel ∧ sel ≤ 0x15) then x.setPair f.dst.toNat (BitVec.ofNat 64 (v s t)) else x.setReg f.dst.toNat (BitVec.ofNat 32 (v s t))) := by
  refine does_of_body (fun _ => rfl) (fun _ _ _ h => h) fun s b t _ => ?_
  have hw : wideSpecial sel = true ↔ sel = 0x0D ∨ (0x10 ≤ sel ∧ sel ≤ 0x15) := by simp [wideSpecial, hsel]
  have h32 : BitVec.ofNat 32 (s.special t sel) = BitVec.ofNat 32 (v s t) := by
    simpa using congrArg (BitVec.setWidth 32) (hv s t)
  simp only [hf, hsel, if_false, hw, hv, h32]

theorem specialRegistersReadAsTheirTable : SpecialRegistersReadAsTheirTable := by
  intro f
  dsimp only
  refine ⟨does_sread (by decide) fun _ _ => rfl, does_sread (by decide) fun _ _ => rfl, does_sread (by decide) fun _ _ => rfl,
    does_sread (by decide) fun _ _ => rfl, does_sread (by decide) fun _ _ => rfl, does_sread (by decide) fun _ _ => rfl,
    does_sread (by decide) fun _ _ => rfl, does_sread (by decide) fun _ _ => rfl, does_sread (by decide) fun _ _ => rfl,
    does_sread (by decide) fun _ _ => rfl, does_sread (by decide) fun _ _ => rfl, does_sread (by decide) fun _ _ => rfl,
    does_sread (by decide) fun _ _ => rfl, does_sread (by decide) fun _ _ => rfl, does_sread (by decide) fun _ _ => rfl,
    does_sread (by decide) fun _ _ => rfl, does_sread (by decide) fun _ _ => rfl, does_sread (by decide) fun _ _ => rfl,
    does_sread (by decide) fun _ _ => rfl, does_sread (by decide) fun _ _ => rfl, does_sread (by decide) fun _ t => ?_, fun hf => ?_⟩
  · exact (BitVec.ofNat_toNat _ _).trans (BitVec.setWidth_eq _)
  · refine does_of_body (fun _ => rfl) (fun _ _ _ h => h) fun s b t _ => ?_
    have hd : f.dst.toNat = 255 ↔ f.dst = 255 := BitVec.toNat_inj (y := 255#8)
    simp only [hf, if_true, hd]

theorem specialRegisterWritesCheckTheirValues : SpecialRegisterWritesCheckTheirValues := by
  intro f v w
  refine ⟨fun hf h1 h5 => ?_, fun hf hm => ?_, fun hf => ?_, fun hf => ?_, fun hf => ?_, fun hf => ?_, fun hf => ?_⟩
  · refine does_of_body (fun _ => rfl) (fun _ _ _ h => h) fun s b t hv => ?_
    have hm : ¬ (v.toNat % 8 = 0 ∨ 6 ≤ v.toNat % 8) := by omega
    simp [wideSpecial, hf, hv, orTrap, hm]
  · refine traps_of_body (fun _ => rfl) (fun _ _ _ h => h) fun s b t hv => ?_
    have hm : v.toNat % 8 = 0 ∨ 6 ≤ v.toNat % 8 := hm
    simp [wideSpecial, hf, hv, orTrap, hm]
  · refine does_of_body (fun _ => rfl) (fun _ _ _ h => h) fun s b t hv => ?_
    simp [wideSpecial, hf, hv, orTrap]
  · refine does_of_body (fun _ => rfl) (fun _ _ _ h => h) fun s b t hv => ?_
    simp [wideSpecial, hf, hv, orTrap]
  · refine does_of_body (fun _ => rfl) (fun _ _ _ h => h) fun s b t hv => ?_
    have hw : wideSpecial f.ctl = false := by simp [wideSpecial]; omega
    simp only [hw, hv, orTrap, show f.ctl ≠ 0x0B by omega, show f.ctl ≠ 0x0C by omega, if_false, Bool.false_eq_true]
  · refine does_of_body (fun _ => rfl) (fun _ _ _ h => h) fun s b t hv => ?_
    simp [wideSpecial, hf, hv, orTrap]
  · refine does_of_body (fun _ => rfl) (fun _ _ _ h => h) fun s b t hv => ?_
    have hw : wideSpecial f.ctl = true := by simp [wideSpecial]; omega
    simp only [hw, hv, orTrap, show f.ctl ≠ 0x14 by omega, if_false, if_true]

/-- Settles O15: SREAD by its table, SWRITE by the width and the value. -/
theorem specialRegistersAreReadAndWritten : Obligations.SpecialRegistersAreReadAndWritten :=
  ⟨specialRegistersReadAsTheirTable, specialRegisterWritesCheckTheirValues⟩

end Sys2Proof.Machine
end

section
/-! PROOFS. Traps, handlers and the return from them (O14). -/

namespace Sys2Proof.Machine

/-! ## Standing at a header -/

/-- A thread that stands at a header changes its run state, what it has joined and what it knows, and nothing else. -/
theorem State.thread_stand (s : State) (t : ThreadId) :
    (s.stand t).thread t = { s.thread t with
      run := ((s.stand t).thread t).run, tokens := ((s.stand t).thread t).tokens, readySince := ((s.stand t).thread t).readySince
      know := ((s.stand t).thread t).know, joins := ((s.stand t).thread t).joins } := by
  unfold State.stand
  dsimp only
  split
  · rw [State.thread_setThread]
  · split
    · rw [State.thread_setThread]
    · split
      · rw [State.thread_setThread]
      · simp only [State.observe, State.modThread_eq, State.thread_setThread]
        split
        · rw [State.thread_setThread]
        · rfl

theorem State.run_stand (s : State) (t : ThreadId) :
    ((s.stand t).thread t).run = .blocked ∧ ((s.stand t).thread t).tokens = (s.thread t).tokens ∨ ((s.stand t).thread t).run = .ready
      ∨ ((s.stand t).thread t).run = .rendezvous := by
  unfold State.stand
  dsimp only
  split
  · rw [State.thread_setThread]; exact .inl ⟨rfl, rfl⟩
  · split
    · rw [State.thread_setThread]; exact .inl ⟨rfl, rfl⟩
    · split
      · rw [State.thread_setThread]; exact .inl ⟨rfl, rfl⟩
      · have hrun : ∀ c : Bool, (if c then RunState.rendezvous else .ready) = .ready ∨ (if c then RunState.rendezvous else .ready) = .rendezvous := by decide
        rw [State.modThread_eq, State.thread_setThread]
        exact .inr (hrun _)

theorem State.thread_stand_ne (s : State) {t u : ThreadId} (h : u ≠ t) : (s.stand t).thread u = s.thread u := by
  unfold State.stand
  dsimp only
  split
  · exact State.thread_setThread_ne _ _ _ _ h
  · split
    · exact State.thread_setThread_ne _ _ _ _ h
    · split
      · exact State.thread_setThread_ne _ _ _ _ h
      · rw [State.modThread_eq, State.thread_setThread_ne _ _ _ _ h]
        split
        · simp only [State.observe, State.modThread_eq, State.thread_setThread_ne _ _ _ _ h]
        · rfl

/-- A thread without a fault to deliver is ready at a sound clause whose header waits for nothing. -/
theorem State.run_stand_of_free (s : State) (t : ThreadId) {w : DWord} {ws : List DWord} (hh : (s.thread t).handler = true) (hr : (s.thread t).raised = none)
    (hw : s.fetchWaits t.cohort (s.thread t).pc = false) (hc : s.fetchClause t.cohort (s.thread t).pc = .ok (w, ws))
    (hb : clauseBad (s.thread t).pc (Header.ofWord w) ws = false) (hd : (Header.ofWord w).dcwait = List.replicate 6 7)
    (hg : (Header.ofWord w).gsw = false) (hn : (Header.ofWord w).nbw = false) :
    ((s.stand t).thread t).run = if (Header.ofWord w).crew then .rendezvous else .ready := by
  have hdel : (s.thread t).deliverableAt (Header.ofWord w) = none := by simp [Thread.deliverableAt, hh]
  have hfree : s.waitsHold t (Header.ofWord w) = true := by
    have hnone : ∀ n < 6, (List.replicate 6 7).getD n 7 = 7 := by decide
    simp only [State.waitsHold, hd, hg, hn, Bool.not_false, Bool.true_or, Bool.and_true, List.all_eq_true, List.mem_range]
    exact fun n h => by rw [hnone n h]; simp
  unfold State.stand
  simp [hw, hc, hb, hg, hn, hdel, hr, hfree]

/-! ## What a trap leaves alone -/

theorem State.stand_readsAs (s : State) (t : ThreadId) : (s.stand t).ReadsAs s := by
  have hset : ∀ (u : State) x, (u.setThread t x).ReadsAs u := fun _ _ => ⟨rfl, rfl, rfl, rfl, rfl, rfl, fun _ => rfl⟩
  unfold State.stand
  dsimp only
  split
  · exact hset ..
  · split
    · exact hset ..
    · split
      · exact hset ..
      · rw [State.modThread_eq]
        refine (hset ..).trans ?_
        split
        · exact hset ..
        · exact .refl s

theorem State.sendFlits_readsAs (s : State) (d : DieId) (h n : Nat) : (s.sendFlits d h n).ReadsAs s := by
  unfold State.sendFlits
  split
  · exact .refl s
  · rename_i k i _
    refine ⟨rfl, rfl, rfl, rfl, rfl, rfl, fun d => ?_⟩
    by_cases hd : d = k
    · subst hd
      simp [State.modDie]
    · simp [State.modDie, State.setDie, State.die, Tab.getD, Tab.get?_put_ne _ _ _ _ hd]

theorem State.linkFlits_readsAs (s : State) (d : DieId) (p : DWord) (n : Nat) (wr : Bool) : (s.linkFlits d p n wr).ReadsAs s := by
  unfold State.linkFlits State.crossLink
  split
  · exact .refl s
  · dsimp only
    split
    · exact .refl s
    · exact (State.sendFlits_readsAs ..).trans (State.sendFlits_readsAs ..)

/-! ## What the use of the L2 and of the links changes -/

/-- A state that differs from another only in what its packages and dies hold, and in the number of draws. -/
def State.StoresAs (u s : State) : Prop := ∃ chips dies draws, u = { s with chips := chips, dies := dies, draws := draws }

namespace State.StoresAs
variable {u s : State}

theorem refl (s : State) : s.StoresAs s := ⟨_, _, _, rfl⟩

theorem trans {w : State} (g : w.StoresAs u) (h : u.StoresAs s) : w.StoresAs s := by
  obtain ⟨_, _, _, rfl⟩ := h
  obtain ⟨_, _, _, rfl⟩ := g
  exact ⟨_, _, _, rfl⟩

theorem foldl {α : Type} (l : List α) (g : State → α → State) (h : ∀ s a, (g s a).StoresAs s) (s : State) : (l.foldl g s).StoresAs s := by
  induction l generalizing s with
  | nil => exact refl s
  | cons a l ih => exact (ih _).trans (h s a)

theorem ite {c : Prop} [Decidable c] {v : State} (hu : u.StoresAs s) (hv : v.StoresAs s) : (if c then u else v).StoresAs s := by
  split <;> assumption

variable (h : u.StoresAs s)
include h
theorem mem : u.mem = s.mem := by obtain ⟨_, _, _, rfl⟩ := h; rfl
theorem objects : u.objects = s.objects := by obtain ⟨_, _, _, rfl⟩ := h; rfl
theorem threads : u.threads = s.threads := by obtain ⟨_, _, _, rfl⟩ := h; rfl
theorem ops : u.ops = s.ops := by obtain ⟨_, _, _, rfl⟩ := h; rfl
theorem thread (t : ThreadId) : u.thread t = s.thread t := by obtain ⟨_, _, _, rfl⟩ := h; rfl
end State.StoresAs

section
variable (s : State)

theorem State.setDie_storesAs (d : DieId) (x : Die) : (s.setDie d x).StoresAs s := ⟨_, _, _, rfl⟩
theorem State.setChip_storesAs (c : Nat) (x : Chip) : (s.setChip c x).StoresAs s := ⟨_, _, _, rfl⟩

theorem State.setRoot_storesAs (chip o : Nat) (b : CounterBlock) : (s.setRoot chip o b).StoresAs s :=
  .ite ⟨_, _, _, rfl⟩ ⟨_, _, _, rfl⟩

theorem State.setHeight_storesAs (chip o n : Nat) : (s.setHeight chip o n).StoresAs s :=
  .ite ⟨_, _, _, rfl⟩ ⟨_, _, _, rfl⟩

theorem State.setTreeBlock_storesAs (chip o level i : Nat) (b : CounterBlock) : (s.setTreeBlock chip o level i b).StoresAs s :=
  .ite ⟨_, _, _, rfl⟩ (.ite (State.setRoot_storesAs ..) ⟨_, _, _, rfl⟩)
end

theorem State.commitBlock_storesAs (chip o : Nat) : ∀ (n level i : Nat) (s : State) (b : CounterBlock), (s.commitBlock chip o n level i b).StoresAs s
  | 0, _, _, s, _ => s.setTreeBlock_storesAs ..
  | n + 1, level, i, s, b => by
    refine (State.commitBlock_storesAs chip o n _ _ _ _).trans (.ite (s.setTreeBlock_storesAs ..) ?_)
    exact (StoresAs.foldl _ _ (fun u k => .ite (.refl u) (u.setTreeBlock_storesAs ..)) _).trans (s.setTreeBlock_storesAs ..)

section
variable (s : State)

theorem State.raiseTree_storesAs (chip o : Nat) : (s.raiseTree chip o).StoresAs s :=
  (State.commitBlock_storesAs ..).trans ((State.setRoot_storesAs ..).trans (s.setHeight_storesAs ..))

theorem State.fitTree_storesAs (chip o : Nat) : (s.fitTree chip o).StoresAs s := by
  refine .ite (.refl s) (.ite (s.setHeight_storesAs ..) (.ite ?_ ?_))
  · exact .foldl _ _ (fun u _ => u.raiseTree_storesAs ..) _
  · exact (State.setChip_storesAs ..).trans ((State.setRoot_storesAs ..).trans (s.setHeight_storesAs ..))

theorem State.encryptLine_storesAs (d : DieId) (line : Nat) (bs : List Byte) : (s.encryptLine d line bs).StoresAs s := by
  unfold State.encryptLine
  split
  · exact .refl s
  · rename_i o _
    have hwrite : ∀ (u : State) x chip o n level i b, ((u.setDie d x).commitBlock chip o n level i b).StoresAs u := fun u x chip o n level i b =>
      (State.commitBlock_storesAs ..).trans (u.setDie_storesAs ..)
    refine .trans ?_ (s.fitTree_storesAs d.chip o)
    exact .ite (.refl _) (.ite ((State.setChip_storesAs ..).trans (hwrite ..)) (hwrite ..))

theorem State.writeBack_storesAs (d : DieId) (line : Nat) : (s.writeBack d line).StoresAs s :=
  (State.encryptLine_storesAs ..).trans ⟨_, _, _, rfl⟩

theorem State.writeHalves_storesAs (d : DieId) (line : Nat) : (s.writeHalves d line).StoresAs s :=
  .foldl _ _ (fun u _ => .ite (.refl u) (u.writeBack_storesAs ..)) s

theorem State.l2Touch_storesAs (d : DieId) (line : Nat) (wr : Bool) (whole : List Nat) : (s.l2Touch d line wr whole).StoresAs s := by
  unfold State.l2Touch
  dsimp only
  split
  · exact State.setDie_storesAs ..
  · exact (State.setDie_storesAs ..).trans (.ite ((State.writeHalves_storesAs ..).trans (State.setDie_storesAs ..)) (State.setDie_storesAs ..))

theorem State.l2Use_storesAs (a n : Nat) (wr : Bool) : (s.l2Use a n wr).StoresAs s := by
  refine .foldl _ _ (fun u j => ?_) s
  split
  · exact u.l2Touch_storesAs ..
  · exact .refl u

theorem State.sendFlits_storesAs (d : DieId) (h n : Nat) : (s.sendFlits d h n).StoresAs s := by
  unfold State.sendFlits
  split
  · exact .refl s
  · exact State.setDie_storesAs ..

theorem State.linkFlits_storesAs (d : DieId) (p : DWord) (n : Nat) (wr : Bool) : (s.linkFlits d p n wr).StoresAs s := by
  unfold State.linkFlits
  split
  · exact .refl s
  · exact .ite (.refl s) ((State.sendFlits_storesAs ..).trans (State.sendFlits_storesAs ..))
end

/-- A read that succeeds counts at the extents, and uses the L2 and the links. -/
theorem State.coreUse_of_ok {s : State} {c : CohortId} {p : DWord} {n : Nat} {bs : List Byte} (h : s.deviceRead c p n = .ok bs) :
    ∃ objects, (s.coreUse c p n).StoresAs { s with objects := objects } := by
  have hread : (s.linkFlits c.toDie p n false).objectRead (s.ctxOf c).1 (s.ctxOf c).2 p n = .ok bs :=
    ((s.linkFlits_readsAs ..).objectRead ..).trans h
  obtain ⟨chips, dies, draws, hl⟩ := s.linkFlits_storesAs c.toDie p n false
  have haff : ∀ (u : State) (k : Nat), ∃ objects, u.affinity p n k = { u with objects := objects } := fun u k => by
    unfold State.affinity
    split <;> exact ⟨_, rfl⟩
  obtain ⟨objects, ho⟩ := haff (s.linkFlits c.toDie p n false) (s.ctxOf c).1
  refine ⟨objects, ?_⟩
  rw [State.coreUse, State.objectUse, hread]
  dsimp only
  refine (State.l2Use_storesAs ..).trans ?_
  rw [ho, hl]
  exact ⟨_, _, _, rfl⟩

/-- The use of a vector that was read changes no thread and no memory. -/
theorem State.vectorUse_of_some {s : State} {c : CohortId} {k : Nat} {v : DWord} (h : s.vector c k = some v) :
    ∃ objects, (s.vectorUse c k).StoresAs { s with objects := objects } := by
  unfold State.vector at h
  unfold State.vectorUse
  cases hp : s.vectorAt c k with
  | none => exact ⟨s.objects, .refl s⟩
  | some p =>
    cases hd : s.deviceRead c p 8 with
    | error e => simp [hp, hd] at h
    | ok bs => exact State.coreUse_of_ok hd

/-! ## Entering a handler -/

theorem trapRec_software (w : Nat) (pc a : DWord) : trapRec .software 0 w pc a 0 0 0 false false
    = { f0 := BitVec.ofNat 64 (0x0C * 2 ^ 56 + w % 16 * 2 ^ 44), f1 := pc, f2 := a, f3 := 0 } := by
  have h : 2 ^ 56 * 12 + 2 ^ 48 * (0 % 256) + 2 ^ 44 * (w % 16) + 2 ^ 42 * (0 % 4) + 0 + 0 + 0 % 2 ^ 32 = 0x0C * 2 ^ 56 + w % 16 * 2 ^ 44 := by omega
  exact congrArg (fun n => TrapRec.mk (BitVec.ofNat 64 n) pc a 0) h

theorem trapTakesASoftwareTrap : TrapTakesASoftwareTrap := by
  intro f n
  refine does_of_settle (hold := noHold) (fun _ => rfl) (fun _ _ _ h => h) fun s b t h => ?_
  simp only [h, orTrap]
  refine ⟨by simp, rfl, ?_⟩
  simp only [State.settle, trapRec_software, Bundle.point]

theorem State.hostWrite_cohorts (s : State) (c a : Nat) (bs : List Byte) : (s.hostWrite c a bs).cohorts = s.cohorts := rfl

theorem State.setVf_cohorts (s : State) (c v : Nat) (x : Vf) : (s.setVf c v x).cohorts = s.cohorts := rfl

theorem State.cohort_congr {s u : State} (h : u.cohorts = s.cohorts) (c : CohortId) : u.cohort c = s.cohort c := by
  rw [State.cohort, h]; rfl

theorem State.reportFault_cohorts (s : State) (c v : Nat) (x : TrapRec) (reason grid cohort thread : Nat) :
    (s.reportFault c v x reason grid cohort thread).cohorts = s.cohorts := by
  unfold State.reportFault
  refine iteInduction (motive := fun u : State => u.cohorts = s.cohorts) (fun _ => ?_) (fun _ => ?_)
  · rw [State.setVf_cohorts, State.hostWrite_cohorts]
  · rw [State.setVf_cohorts]

theorem State.killed_cutCohort (s : State) (c : CohortId) (reason : Nat) : ((s.cutCohort c reason).cohort c).killed = some reason := by
  simp only [State.cutCohort, State.modCohort_eq, State.cohort_setCohort]

theorem State.killed_terminate {s : State} {c : CohortId} (hk : (s.cohort c).killed = none) (he : (s.cohort c).ended = false) (t : Option ThreadId)
    (r : TrapRec) (reason : Nat) : ((s.terminate c t r reason).cohort c).killed = some reason := by
  simp only [State.terminate, hk, he, Option.isSome_none, Bool.false_or, Bool.false_eq_true, if_false]
  exact (congrArg Cohort.killed (State.cohort_congr (State.reportFault_cohorts ..) c)).trans (s.killed_cutCohort c reason)

theorem aTrapInAHandlerEndsTheCohort : ATrapInAHandlerEndsTheCohort := by
  intro s t r hh hk he
  have hthread : (s.leave t).thread t = s.thread t := rfl
  rw [State.takeTrap]
  simp only [hthread, hh, if_true]
  refine State.killed_terminate ?_ ?_ _ _ _
  · exact hk
  · exact he

theorem State.leave_readsAs (s : State) (t : ThreadId) : (s.leave t).ReadsAs s := ⟨rfl, rfl, rfl, rfl, rfl, rfl, fun _ => rfl⟩

/-- A trap outside a handler, in a context that goes on and with no load outstanding, is delayed at most by its vector. -/
theorem State.takeTrap_of_clear {s : State} {t : ThreadId} {r : Raised} (hh : (s.thread t).handler = false) (hs : s.stopping t.cohort = false)
    (ho : s.owes t = false) : s.takeTrap t r = if s.vectorWaits t.cohort r.kind.code then
        (s.leave t).setThread t { s.thread t with raised := some r, run := .parked .landing, kept := (s.thread t).latches, nextPc := none, exiting := false }
      else (s.leave t).enterHandler t r false := by
  have hthread : (s.leave t).thread t = s.thread t := rfl
  have hstop : (s.leave t).stopping t.cohort = false := hs
  have howes : (s.leave t).owes t = false := ho
  simp only [State.takeTrap, hthread, hh, hstop, howes, (s.leave_readsAs t).vectorWaits, Bool.false_or, Bool.false_eq_true, if_false]

theorem aTrapSavesTheStateAndEntersTheHandler : ATrapSavesTheStateAndEntersTheHandler := by
  intro s t r v hh hs ho
  dsimp only
  rw [State.takeTrap_of_clear hh hs ho]
  refine ⟨fun hw => ?_, fun hw hv => ?_⟩
  · rw [if_pos hw, State.thread_setThread]
    exact ⟨rfl, rfl, rfl⟩
  · have hvec : (s.leave t).vector t.cohort r.kind.code = some v := ((s.leave_readsAs t).vector ..).trans hv
    rw [if_neg (by simp [hw]), State.enterHandler, hvec]
    dsimp only
    generalize hu : (s.leave t).modThread t _ = u
    have hreads : u.ReadsAs s := by
      rw [← hu]
      exact ⟨rfl, rfl, rfl, rfl, rfl, rfl, fun _ => rfl⟩
    have hut := congrArg (fun u => u.thread t) hu
    simp only [State.modThread_eq, State.thread_setThread, show (s.leave t).thread t = s.thread t from rfl] at hut
    have hne : ∀ w, w ≠ t → u.thread w = s.thread w := fun w hw => by rw [← hu, State.modThread_eq, State.thread_setThread_ne _ _ _ _ hw]; rfl
    obtain ⟨objects, hstore⟩ := State.vectorUse_of_some (s := u.stand t) (c := t.cohort) (k := r.kind.code) (v := v)
      ((((u.stand_readsAs t).trans hreads).vector ..).trans hv)
    have hthread : ∀ w, ((u.stand t).vectorUse t.cohort r.kind.code).thread w = (u.stand t).thread w := fun w => hstore.thread w
    have hstand := u.thread_stand t
    have hrun := u.run_stand t
    have hfree := @State.run_stand_of_free u t
    rw [← hut] at hstand hrun hfree
    simp only [hreads.fetchWaits, hreads.fetchClause] at hfree
    simp only [hthread]
    refine ⟨?_, ?_, ?_, ?_, ?_, ?_, ?_, ?_, ?_, ?_, ?_, ?_, ?_, ?_, ?_, ?_, ?_, ?_, hrun, ?_, ?_, fun w ws hw hc hb hd hg hn => hfree trivial trivial hw hc hb hd hg hn,
      fun w hw => by rw [State.thread_stand_ne u hw, hne w hw], ?_⟩
    case refine_21 => rw [hstore.mem]; exact ((u.stand_readsAs t).trans hreads).mem
    all_goals rw [hstand]

/-! ## The return from a handler -/

section
variable {s : State} {t : ThreadId} {skip : Bool} {pc p : DWord} {n : Nat}

/-- A return into a clause. -/
theorem State.returnWord_of_word (hh : (s.thread t).handler = true) (hr : resumeAt (s.thread t).point skip = some (pc, some n)) :
    s.returnWord t skip = .done ((s.leave t).modThread t fun x =>
      { x with handler := false, halted := false, latches := x.kept, pc := pc, word := n, inside := true, run := .ready, readySince := s.now, nextPc := none, exiting := false
               yielding := x.keptYield, keptYield := false }) := by
  simp only [State.returnWord, hh, hr, State.leaveHandler]
  rfl

/-- A return to a header. -/
theorem State.returnWord_of_header (hh : (s.thread t).handler = true) (hr : resumeAt (s.thread t).point skip = some (pc, none))
    (hp : (s.thread t).point.pc = p) : s.returnWord t skip
      = .done ((if (s.thread t).keptYield ∧ pc ≠ p then (s.leave t).renew t else s.leave t).modThread t fun x =>
      { x with handler := false, halted := false, latches := List.replicate 8 none, pc := pc, word := 0, inside := false, run := .blocked, readySince := s.now, nextPc := none, exiting := false
               yielding := false, keptYield := false }) := by
  have hthread : (s.leave t).thread t = s.thread t := rfl
  simp only [State.returnWord, hh, hr, State.leaveHandler, hthread, hp]
  have hif : ((none : Option Nat).isNone && (s.thread t).keptYield && decide (pc ≠ p)) = decide ((s.thread t).keptYield ∧ pc ≠ p) := by
    cases (s.thread t).keptYield <;> simp
  rw [hif]
  simp only [decide_eq_true_eq]
  by_cases h : (s.thread t).keptYield ∧ pc ≠ p
  · rw [if_pos h]
    rfl
  · rw [if_neg h]
    rfl

theorem State.returnWord_of_none (hh : (s.thread t).handler = true) (hr : resumeAt (s.thread t).point skip = none) :
    s.returnWord t skip = .trap .illegalInstruction 0 0 0 := by
  simp only [State.returnWord, hh, hr]
  rfl

theorem State.returnWord_of_outside (hh : (s.thread t).handler = false) : s.returnWord t skip = .trap .illegalInstruction 0 0 0 := by
  simp only [State.returnWord, hh]
  rfl
end

theorem returnResumesAtTheTrapPoint : ReturnResumesAtTheTrapPoint := by
  intro f p w
  dsimp only
  refine ⟨?_, ?_, ?_, ?_, ?_, ?_, ?_, ?_, ?_, ?_⟩
  · refine does_of_body (fun _ => rfl) (fun _ _ _ h => h) fun s b t ⟨⟨hh, he, hk, hp⟩, hw⟩ => State.returnWord_of_word hh ?_
    simp [resumeAt, he, hk, hp, hw]
  · refine does_of_body (fun _ => rfl) (fun _ _ _ h => h) fun s b t h => ?_
    rcases h with ⟨hh, he, hk, hp⟩ | ⟨hh, he, hk, hp⟩
    all_goals
      refine State.returnWord_of_header hh ?_ hp
      simp [resumeAt, he, hk, hp]
  · refine does_of_body (fun _ => rfl) (fun _ _ _ h => h) fun s b t ⟨⟨hh, he, hk, hp⟩, hn, hw⟩ => State.returnWord_of_word hh ?_
    simp [resumeAt, he, hk, hp, hn, Nat.not_lt.mpr hw]
  · refine does_of_body (fun _ => rfl) (fun _ _ _ h => h) fun s b t ⟨⟨hh, he, hk, hp⟩, hn, hw⟩ => State.returnWord_of_word hh ?_
    simp [resumeAt, he, hk, hp, hn, Nat.not_lt.mpr hw]
  · refine does_of_body (fun _ => rfl) (fun _ _ _ h => h) fun s b t ⟨⟨hh, he, hk, hp⟩, hc⟩ => State.returnWord_of_header hh ?_ hp
    simp [resumeAt, he, hk, hp, hc]
  · refine does_of_body (fun _ => rfl) (fun _ _ _ h => h) fun s b t ⟨⟨hh, he, hk, hp⟩, hc, hw⟩ => State.returnWord_of_header hh ?_ hp
    simp [resumeAt, he, hk, hp, hc, hw]
  · refine does_of_body (fun _ => rfl) (fun _ _ _ h => h) fun s b t ⟨⟨hh, he, hk, hp⟩, hc, hw⟩ => State.returnWord_of_header hh ?_ hp
    simp [resumeAt, he, hk, hp, hc, hw]
  · intro i hi
    simp only [List.mem_cons, List.not_mem_nil, or_false] at hi
    rcases hi with rfl | rfl
    all_goals
      refine does_of_body (fun _ => rfl) (fun _ _ _ h => h) fun s b t ⟨hh, he, hp, hw⟩ => State.returnWord_of_word hh ?_
      simp [resumeAt, he, hp, hw]
  · exact traps_of_body (fun _ => rfl) (fun _ _ _ h => h) fun s b t hh => State.returnWord_of_outside hh
  · refine traps_of_body (fun _ => rfl) (fun _ _ _ h => h) fun s b t h => ?_
    rcases h with ⟨hh, he, hk, hp⟩ | ⟨hh, he, hk, hp⟩
    all_goals
      refine State.returnWord_of_none hh ?_
      simp [resumeAt, he, hk]

/-- Settles O14: a trap outside a handler enters it, one inside ends the cohort, and the return goes to the trap point. -/
theorem trapsEnterTheHandlerAndReturn : Obligations.TrapsEnterTheHandlerAndReturn :=
  ⟨trapTakesASoftwareTrap, aTrapSavesTheStateAndEntersTheHandler, aTrapInAHandlerEndsTheCohort, returnResumesAtTheTrapPoint⟩

end Sys2Proof.Machine
end

section
/-! PROOFS. Floating-point, packed and conversion words (O8 to O12): each word is one shape of register word, and an exact value
that has an encoding rounds to it. -/

namespace Sys2Proof.Machine

/-! ## Exact values round to themselves -/

/-- An encoding's own value rounds to it, with the sign of the real. -/
theorem Rounds.eq_of_code {fmt mode r c code : Nat} {sat : Bool} {a lo : ℝ} (h : Rounds fmt mode sat a r code) (hf : fmt < 3) (hr : r < 2 ^ 32)
    (hc : c < (2 ^ expBits fmt - 1) * 2 ^ fracBits fmt) (hlo : (valOf fmt c).is lo) (ha : |a| = lo) :
    code = (if a < 0 then 2 ^ (fmtBits fmt - 1) else 0) + c := by
  have hnext : ∃ hi : ℝ, (c + 1 < (2 ^ expBits fmt - 1) * 2 ^ fracBits fmt → (valOf fmt (c + 1)).is hi)
      ∧ (c + 1 = (2 ^ expBits fmt - 1) * 2 ^ fracBits fmt → hi = 2 ^ 2 ^ (expBits fmt - 1)) := by
    rcases Nat.lt_or_ge (c + 1) ((2 ^ expBits fmt - 1) * 2 ^ fracBits fmt) with hlt | hge
    · exact ⟨_, fun _ => by rw [valOf_code fmt _ hf hlt, Val.is_fin], fun h => absurd hlt (by omega)⟩
    · exact ⟨_, fun h => absurd h (by omega), fun _ => rfl⟩
  obtain ⟨hi, h1, h2⟩ := hnext
  have hlt : lo < hi := by
    have := code_next fmt c hi hf hc h1 h2
    rw [valOf_code fmt c hf hc, Val.is_fin] at hlo
    rw [this, hlo]
    push_cast
    have : (0 : ℝ) < (2 : ℝ) ^ (((max 1 (c / 2 ^ fracBits fmt) : Nat) : Int) - biasOf fmt - fracBits fmt) := by positivity
    push_cast at this
    nlinarith
  refine (h.2 c lo hi hc hlo h1 h2 ha.ge (ha ▸ hlt)).1 ?_
  simp only [roundsUp, ha, sub_self, zero_div]
  norm_num
  omega

theorem deliver_of_code {fmt mode r c : Nat} {sat : Bool} {v : Val} {a : ℝ} (hf : fmt < 3) (hr : r < 2 ^ 32) (ha : a ≠ 0) (hv : v.is a)
    (hc : c < (2 ^ expBits fmt - 1) * 2 ^ fracBits fmt) (hlo : (valOf fmt c).is |a|) :
    deliver fmt mode sat v r = (if a < 0 then 2 ^ (fmtBits fmt - 1) else 0) + c :=
  (deliver_rounds fmt mode r sat v a hf ha hv).eq_of_code hf hr hc hlo rfl

/-- FP32's code of a power of two in range. -/
theorem valOf_power {k : Nat} (h1 : 1 ≤ k) (h2 : k ≤ 254) : valOf 0 (k * 2 ^ 23) = .fin false (2 ^ 23) ((k : Int) - 150) := by
  rw [valOf_code 0 _ (by decide) (by simp only [expBits, fracBits]; omega)]
  simp only [fracBits, biasOf]
  rw [if_neg (by omega), Nat.mul_mod_left, Nat.mul_div_cancel _ (by decide), Nat.max_eq_right h1]
  congr 1
  push_cast
  ring

theorem valOf_power_is {k : Nat} (h1 : 1 ≤ k) (h2 : k ≤ 254) : (valOf 0 (k * 2 ^ 23)).is (2 ^ ((k : Int) - 127)) := by
  rw [valOf_power h1 h2, Val.is_fin, show (k : Int) - 127 = 23 + (k - 150) by ring, zpow_add₀ (by norm_num)]
  norm_num

/-- A power of two in range rounds to its code. -/
theorem Rounds.eq_power {mode r k code : Nat} {sat : Bool} (hr : r < 2 ^ 32) (h1 : 1 ≤ k) (h2 : k ≤ 254)
    (h : Rounds 0 mode sat (2 ^ ((k : Int) - 127)) r code) : code = k * 2 ^ 23 := by
  have hpos : (0 : ℝ) < 2 ^ ((k : Int) - 127) := by positivity
  have := h.eq_of_code (by decide) hr (by simp only [expBits, fracBits]; omega) (valOf_power_is h1 h2) (abs_of_pos hpos)
  rwa [if_neg hpos.not_gt, zero_add] at this

/-- FP32's code of an integer other than zero. -/
def intCode (n : Nat) : Nat := (127 + Nat.log2 n) * 2 ^ 23 + (n - 2 ^ Nat.log2 n) * 2 ^ (23 - Nat.log2 n)

theorem valOf_intCode {n : Nat} (h0 : n ≠ 0) (hn : n < 2 ^ 24) :
    intCode n < 255 * 2 ^ 23 ∧ valOf 0 (intCode n) = .fin false (n * 2 ^ (23 - Nat.log2 n)) ((Nat.log2 n : Int) - 23) := by
  have hl : 2 ^ Nat.log2 n ≤ n := Nat.log2_self_le h0
  have hu : n < 2 ^ (Nat.log2 n + 1) := Nat.lt_log2_self
  have hL : Nat.log2 n < 24 := (Nat.log2_lt h0).2 hn
  set L := Nat.log2 n with hLdef
  have hsplit : 2 ^ L * 2 ^ (23 - L) = 2 ^ 23 := by rw [← pow_add]; congr 1; omega
  have hfrac : (n - 2 ^ L) * 2 ^ (23 - L) < 2 ^ 23 := by
    rw [← hsplit]
    exact Nat.mul_lt_mul_of_pos_right (by rw [pow_succ] at hu; omega) (Nat.two_pow_pos _)
  have hc : intCode n < 255 * 2 ^ 23 := by
    simp only [intCode, ← hLdef]
    omega
  refine ⟨hc, ?_⟩
  rw [valOf_code 0 _ (by decide) hc]
  have hge : ¬ intCode n < 2 ^ fracBits 0 := by simp only [intCode, ← hLdef, fracBits]; omega
  have hmod : intCode n % 2 ^ fracBits 0 = (n - 2 ^ L) * 2 ^ (23 - L) := by simp only [intCode, ← hLdef, fracBits]; omega
  have hdiv : intCode n / 2 ^ fracBits 0 = 127 + L := by simp only [intCode, ← hLdef, fracBits]; omega
  have hsum : 2 ^ fracBits 0 + (n - 2 ^ L) * 2 ^ (23 - L) = n * 2 ^ (23 - L) := by
    rw [show 2 ^ fracBits 0 = 2 ^ L * 2 ^ (23 - L) from hsplit.symm, ← add_mul]
    congr 1
    omega
  rw [if_neg hge, hmod, hdiv, hsum]
  simp only [biasOf, fracBits]
  congr 1
  omega

theorem valOf_intCode_is {n : Nat} (h0 : n ≠ 0) (hn : n < 2 ^ 24) : (valOf 0 (intCode n)).is n := by
  have hL : Nat.log2 n < 24 := (Nat.log2_lt h0).2 hn
  rw [(valOf_intCode h0 hn).2, Val.is_fin]
  push_cast
  rw [mul_assoc, ← zpow_natCast, ← zpow_add₀ (by norm_num)]
  rw [show ((23 - Nat.log2 n : Nat) : Int) + ((Nat.log2 n : Int) - 23) = 0 by omega]
  simp

/-- An integer of at most 24 bits rounds to its code in every mode. -/
theorem roundFin_int {mode r n : Nat} {sat neg : Bool} (hr : r < 2 ^ 32) (h0 : n ≠ 0) (hn : n < 2 ^ 24) :
    roundFin 0 mode sat neg n 0 r = signBit 0 neg + intCode n := by
  have hpos : (0 : ℝ) < n := by exact_mod_cast Nat.pos_of_ne_zero h0
  have hv : (Val.fin neg n 0).is (if neg then -(n : ℝ) else n) := ⟨neg, n, 0, rfl, by cases neg <;> simp⟩
  have hcode := (valOf_intCode h0 hn).1
  have := deliver_of_code (fmt := 0) (mode := mode) (sat := sat) (by decide) hr (by cases neg <;> simp [h0]) hv hcode
    (by have : |if neg = true then -(n : ℝ) else n| = n := by cases neg <;> simp
        rw [this]; exact valOf_intCode_is h0 hn)
  rw [deliver] at this
  rw [this]
  cases neg
  · simp [signBit, hpos.not_gt]
  · simp [signBit, hpos, fmtBits]

/-! ## Representable values (O12) -/

/-- Nothing beyond the code: no mode chooses the next one. -/
theorem chooseHi_exact {mode r : Nat} {neg : Bool} {p : Split} (hr : r < 2 ^ 32) (ht : p.t32 = 0) (hp : p.rest = false) :
    chooseHi mode neg p r = false := by
  unfold chooseHi
  split <;> simp [ht, hp]
  omega

/-- A finite code, split: it is a zero, or its magnitude leaves no tail. -/
def keepsIeee (fmt x : Nat) : Bool :=
  match valOf fmt x with
  | .fin neg m e =>
    if m = 0 then signBit fmt neg = x
    else
      let p := splitIeee fmt (.dyadic m e)
      p.t32 = 0 && !p.rest && p.c ≤ maxCode fmt && signBit fmt neg + p.c = x
  | _ => true

def keepsTapered (fmt es x : Nat) : Bool :=
  match valOf fmt x with
  | .fin neg m e =>
    if m = 0 then x = 0
    else
      let n := fmtBits fmt
      let p := splitTapered n es (.dyadic m e)
      p.t32 = 0 && !p.rest && 1 ≤ p.c && p.c ≤ 2 ^ (n - 1) - 1 && taperedCode n neg p.c = x
  | _ => true

theorem keepsIeee_E4M3 : ∀ x < 256, keepsIeee 3 x = true := by decide +kernel
theorem keepsTapered_TF8 : ∀ x < 256, keepsTapered 4 1 x = true := by decide +kernel
theorem keepsTapered_TF6 : ∀ x < 64, keepsTapered 5 0 x = true := by decide +kernel

theorem convertVal_of_keepsIeee {mode x r : Nat} {sat neg : Bool} {m : Nat} {e : Int} (hr : r < 2 ^ 32) (h : keepsIeee 3 x = true)
    (hv : valOf 3 x = .fin neg m e) : convertVal 3 mode sat (valOf 3 x) r = x := by
  simp only [keepsIeee, hv] at h
  simp only [hv, convertVal, roundFin]
  split at h
  next hm => simpa [hm] using h
  next hm =>
    simp only [Bool.and_eq_true, decide_eq_true_eq, Bool.not_eq_true'] at h
    obtain ⟨⟨⟨ht, hp⟩, hc⟩, hx⟩ := h
    simp only [hm, if_false, roundPos, chooseHi_exact hr ht hp, Bool.false_eq_true, not_lt.mpr hc, hx]

theorem convertVal_of_keepsTapered {fmt es mode x r : Nat} {sat neg : Bool} {m : Nat} {e : Int} (hr : r < 2 ^ 32)
    (hf : fmt = 4 ∧ es = 1 ∨ fmt = 5 ∧ es = 0) (h : keepsTapered fmt es x = true) (hv : valOf fmt x = .fin neg m e) :
    convertVal fmt mode sat (valOf fmt x) r = x := by
  simp only [keepsTapered, hv] at h
  simp only [hv, convertVal, roundFin]
  split at h
  next hm => rcases hf with ⟨rfl, rfl⟩ | ⟨rfl, rfl⟩ <;> simpa [hm, eq_comm] using h
  next hm =>
    simp only [Bool.and_eq_true, decide_eq_true_eq, Bool.not_eq_true'] at h
    obtain ⟨⟨⟨⟨ht, hp⟩, hlo⟩, hhi⟩, hx⟩ := h
    rcases hf with ⟨rfl, rfl⟩ | ⟨rfl, rfl⟩ <;>
      simp only [hm, if_false, if_true, roundPos, chooseHi_exact hr ht hp, Bool.false_eq_true, min_eq_left hhi, max_eq_right hlo, hx,
        show (5 : Nat) ≠ 4 by decide]

/-- A finite code of an IEEE format is its magnitude's code with its sign. -/
theorem convertVal_of_finite {fmt mode x r : Nat} {sat neg : Bool} {m : Nat} {e : Int} (hf : fmt < 3) (hx : x < 2 ^ fmtBits fmt) (hr : r < 2 ^ 32)
    (hv : valOf fmt x = .fin neg m e) : convertVal fmt mode sat (valOf fmt x) r = x := by
  obtain ⟨h1, h2, h3⟩ := valOf_sign fmt x hf hx
  have hc : x % 2 ^ (fmtBits fmt - 1) < (2 ^ expBits fmt - 1) * 2 ^ fracBits fmt := by
    rcases Nat.lt_trichotomy (x % 2 ^ (fmtBits fmt - 1)) ((2 ^ expBits fmt - 1) * 2 ^ fracBits fmt) with h | h | h
    · exact h
    · rw [h2 h] at hv; cases hv
    · rw [h3 h] at hv; cases hv
  have hcode := valOf_code fmt _ hf hc
  have hval := h1 _ _ hc hcode
  rw [hv] at hval
  obtain ⟨hneg, hm, he⟩ := Val.fin.inj hval
  rw [← hm, ← he] at hcode
  have hsum : signBit fmt neg + x % 2 ^ (fmtBits fmt - 1) = x := by
    have hbits : 2 ^ fmtBits fmt = 2 * 2 ^ (fmtBits fmt - 1) := by
      rw [← pow_succ']
      congr 1
      have : fmt = 0 ∨ fmt = 1 ∨ fmt = 2 := by omega
      rcases this with rfl | rfl | rfl <;> rfl
    rw [hneg, signBit]
    rw [hbits] at hx
    by_cases hlt : 2 ^ (fmtBits fmt - 1) ≤ x
    · rw [decide_eq_true hlt, if_pos rfl, Nat.mod_eq_sub_mod hlt, Nat.mod_eq_of_lt (by omega)]
      omega
    · rw [decide_eq_false hlt, if_neg (by simp), Nat.mod_eq_of_lt (by omega), zero_add]
  rw [hv]
  by_cases h0 : m = 0
  · have hzero := (code_zero_or_pos fmt _ m e hf hc hcode).1 h0
    rw [hzero, add_zero] at hsum
    rw [convertVal, roundFin, if_pos h0, if_pos (by omega), hsum]
  · have hmag : (valOf fmt (x % 2 ^ (fmtBits fmt - 1))).is ((m : ℝ) * 2 ^ e) := by rw [hcode, Val.is_fin]
    have hpos : (0 : ℝ) < (m : ℝ) * 2 ^ e := by
      have : (0 : ℝ) < m := by exact_mod_cast Nat.pos_of_ne_zero h0
      positivity
    have his : (Val.fin neg m e).is (if neg then -((m : ℝ) * 2 ^ e) else (m : ℝ) * 2 ^ e) := ⟨neg, m, e, rfl, by cases neg <;> simp⟩
    have habs : |if neg = true then -((m : ℝ) * 2 ^ e) else (m : ℝ) * 2 ^ e| = (m : ℝ) * 2 ^ e := by
      cases neg <;> simp [abs_of_pos hpos]
    have := deliver_of_code (mode := mode) (sat := sat) hf hr (by cases neg <;> simp [hpos.ne']) his hc (by rw [habs]; exact hmag)
    rw [deliver] at this
    rw [convertVal, this]
    refine Eq.trans ?_ hsum
    congr 1
    cases neg
    · simp [signBit, hpos.not_gt]
    · simp [signBit, hpos]

/-- Settles O12: a finite code's value leaves no tail, so every mode gives the code back. -/
theorem roundingKeepsRepresentableValues : Obligations.RoundingKeepsRepresentableValues := by
  refine ⟨fun fmt s e m hf hs he hm => ?_, fun fmt mode x r sat hf hx hr hv => ?_, fun fmt mode x r sat h3 h6 hx hr hv => ?_⟩
  · obtain rfl | rfl | rfl | rfl : fmt = 0 ∨ fmt = 1 ∨ fmt = 2 ∨ fmt = 3 := by omega
    · exact valOf_ieee 0 s e m hf hs he hm
    · exact valOf_ieee 1 s e m hf hs he hm
    · exact valOf_ieee 2 s e m hf hs he hm
    · exact valOf_ieee 3 s e m hf hs he hm
  · obtain ⟨neg, m, e, hv⟩ := hv
    exact convertVal_of_finite hf hx hr hv
  · obtain ⟨neg, m, e, hv⟩ := hv
    obtain rfl | rfl | rfl : fmt = 3 ∨ fmt = 4 ∨ fmt = 5 := by omega
    · exact convertVal_of_keepsIeee hr (keepsIeee_E4M3 x hx) hv
    · exact convertVal_of_keepsTapered hr (.inl ⟨rfl, rfl⟩) (keepsTapered_TF8 x hx) hv
    · exact convertVal_of_keepsTapered hr (.inr ⟨rfl, rfl⟩) (keepsTapered_TF6 x hx) hv

/-! ## Floating-point words (O8) -/

/-- The generator's step of a rounding word, made only in mode RS. -/
theorem Thread.roll_eq (x : Thread) (m : Nat) : x.roll m = (if m = 5 then (xsNext x.srseed).toNat else 0, if m = 5 then { x with srseed := xsNext x.srseed } else x) := by
  unfold Thread.roll
  split <;> rfl

theorem Thread.modeOf_eq (x : Thread) (c : Nat) : x.modeOf c = if c = 0 then x.rmode.toNat else c := rfl

section
variable {mk : Fields → Instr} {f : Fields}

theorem becomes_of_fp2 {g : Nat → Bool → Nat → Nat → Nat → Nat} (h : ∀ s, exec (mk f) s = s.fp2 (mk f) f g) :
    Becomes mk f fun s b t x => (s.aF b t f).bind fun u => (x.bF f).map fun v =>
      let m := if f.ctl % 8 = 0 then x.rmode.toNat else f.ctl % 8
      if m = 5 then { x with srseed := xsNext x.srseed }.put32 f (BitVec.ofNat 32 (g 5 (f.ctl / 8 % 2 = 1) u.toNat v.toNat (xsNext x.srseed).toNat))
      else x.put32 f (BitVec.ofNat 32 (g m (f.ctl / 8 % 2 = 1) u.toNat v.toNat 0)) := by
  refine becomes_of_runAlu h fun s b t x => ?_
  simp only [State.quiet_aF, Thread.roll_eq, Thread.modeOf_eq]
  by_cases hm : (if f.ctl % 8 = 0 then x.rmode.toNat else f.ctl % 8) = 5
  · simp only [hm, if_true]
  · simp only [hm, if_false]

theorem becomes_of_fp1 {g : Nat → Bool → Nat → Nat → Nat} (h : ∀ s, exec (mk f) s = s.fp1 (mk f) f g) :
    Becomes mk f fun s b t x => (s.aF b t f).map fun u =>
      let m := if f.ctl % 8 = 0 then x.rmode.toNat else f.ctl % 8
      if m = 5 then { x with srseed := xsNext x.srseed }.put32 f (BitVec.ofNat 32 (g 5 (f.ctl / 8 % 2 = 1) u.toNat (xsNext x.srseed).toNat))
      else x.put32 f (BitVec.ofNat 32 (g m (f.ctl / 8 % 2 = 1) u.toNat 0)) := by
  refine becomes_of_runAlu h fun s b t x => ?_
  simp only [State.quiet_aF, Thread.roll_eq, Thread.modeOf_eq]
  by_cases hm : (if f.ctl % 8 = 0 then x.rmode.toNat else f.ctl % 8) = 5
  · simp only [hm, if_true]
  · simp only [hm, if_false]
end

theorem becomes_ffma (f : Fields) : Becomes .ffma f (fun s b t x => (s.aF b t f).bind fun u => (x.bF f).bind fun v => (x.cF f).map fun w =>
      let z := fun r => BitVec.ofNat 32 (deliver 0 x.rmode.toNat false (addVal x.rmode.toNat (mulVal (valOf 0 u.toNat) (valOf 0 v.toNat)) (valOf 0 w.toNat)) r)
      if x.rmode = 5 then { x with srseed := xsNext x.srseed }.put32 f (z (xsNext x.srseed).toNat) else x.put32 f (z 0)) := by
  refine becomes_of_runAlu (fun _ => by rw [exec, execFfma]) fun s b t x => ?_
  have hmode : x.rmode.toNat = 5 ↔ x.rmode = 5 := BitVec.toNat_inj (y := 5#3)
  simp only [State.quiet_aF, Thread.roll_eq, hmode]
  by_cases hm : x.rmode = 5
  · simp only [hm, if_true]
    rfl
  · simp only [hm, if_false]
    rfl

/-! ## Special values (O8) -/

theorem deliver_inf (mode r : Nat) (sat p : Bool) :
    deliver 0 mode sat (.inf p) r = (if p then 2 ^ 31 else 0) + (if sat then 0x7F7FFFFF else 0x7F800000) := by
  cases p <;> cases sat <;> rfl

theorem deliver_zero (mode r : Nat) (sat p : Bool) (e : Int) : deliver 0 mode sat (.fin p 0 e) r = if p then 2 ^ 31 else 0 := by
  simp [deliver, roundFin, signBit, fmtBits]

theorem scaled_zero (neg : Bool) (k : Nat) : scaled neg 0 k = 0 := by cases neg <;> simp [scaled]

/-- Opposites add to a zero, +0 but in mode RD. -/
theorem addVal_opposite (mode m : Nat) (p : Bool) (e : Int) : addVal mode (.fin p m e) (.fin (!p) m e) = .fin (decide (mode = 4)) 0 0 := by
  cases p <;> simp [addVal, scaled]

theorem addVal_zeros (mode : Nat) (p q : Bool) (e k : Int) :
    addVal mode (.fin p 0 e) (.fin q 0 k) = .fin (if p = q then p else decide (mode = 4)) 0 0 := by
  simp [addVal, scaled_zero]

theorem frcpBits_power {mode r k : Nat} {sat : Bool} (hr : r < 2 ^ 32) (h1 : 1 ≤ k) (h2 : k ≤ 253) :
    frcpBits mode sat (k * 2 ^ 23) r = (254 - k) * 2 ^ 23 := by
  have h := frcpBits_rounds mode (k * 2 ^ 23) r sat _ (by positivity) (valOf_power_is h1 (by omega))
  rw [← zpow_neg, show -((k : Int) - 127) = ((254 - k : Nat) : Int) - 127 by omega] at h
  exact h.eq_power hr (by omega) (by omega)

theorem frsqBits_power {mode r k n : Nat} {sat : Bool} {j : Int} (hr : r < 2 ^ 32) (h1 : 1 ≤ k) (h2 : k ≤ 254) (hn1 : 1 ≤ n) (hn2 : n ≤ 254)
    (hk : (k : Int) - 127 = 2 * j) (hn : (n : Int) - 127 = -j) : frsqBits mode sat (k * 2 ^ 23) r = n * 2 ^ 23 := by
  have hval := valOf_power_is h1 h2
  rw [hk] at hval
  have h := frsqBits_rounds mode (k * 2 ^ 23) r sat _ (by positivity) hval
  rw [mul_comm, zpow_mul, zpow_ofNat, Real.sqrt_sq (by positivity), ← zpow_neg, ← hn] at h
  exact h.eq_power hr hn1 hn2

theorem flog2Bits_of_power {mode x r n : Nat} {sat : Bool} {e : Int} (hv : valOf 0 x = .fin false (2 ^ n) e) :
    flog2Bits mode sat x r = roundFin 0 mode sat (decide ((n : Int) + e < 0)) ((n : Int) + e).natAbs 0 r := by
  unfold flog2Bits
  rw [hv]
  dsimp only
  rw [if_neg (by positivity), if_neg (by simp), Nat.log2_two_pow]
  exact if_pos rfl

theorem flog2Bits_power {mode r k : Nat} {sat : Bool} (hr : r < 2 ^ 32) (h1 : 1 ≤ k) (h2 : k ≤ 253) :
    flog2Bits mode sat (k * 2 ^ 23) r = convertVal 0 1 false (.fin (decide (k < 127)) (if k < 127 then 127 - k else k - 127) 0) 0 := by
  rw [flog2Bits_of_power (valOf_power h1 (show k ≤ 254 by omega)), convertVal, Nat.cast_ofNat]
  have hneg : decide ((23 : Int) + ((k : Int) - 150) < 0) = decide (k < 127) := by rw [decide_eq_decide]; omega
  have habs : ((23 : Int) + ((k : Int) - 150)).natAbs = if k < 127 then 127 - k else k - 127 := by split <;> omega
  rw [hneg, habs]
  by_cases h0 : (if k < 127 then 127 - k else k - 127) = 0
  · rw [h0, roundFin, roundFin, if_pos rfl, if_pos rfl]
  · have hsmall : (if k < 127 then 127 - k else k - 127) < 2 ^ 24 := by split <;> omega
    rw [roundFin_int hr h0 hsmall, roundFin_int (by decide) h0 hsmall]

/-- 2^n as the floors of its multiples, for an integer n. -/
def PosReal.power (n : Int) : PosReal where
  lg := n
  fl k := if 0 ≤ n + k then (2 ^ (n + k).toNat, true) else (0, false)

theorem PosReal.power_is (n : Int) : (PosReal.power n).Is (2 ^ n) := by
  have hpow : ∀ k : Int, (2 : ℝ) ^ n * 2 ^ k = 2 ^ (n + k) := fun k => (zpow_add₀ (by norm_num) n k).symm
  have hsplit : ∀ k : Int, (0 ≤ n + k ∧ (2 : ℝ) ^ (n + k) = ((2 ^ (n + k).toNat : Nat) : ℝ)) ∨ (¬ 0 ≤ n + k ∧ (2 : ℝ) ^ (n + k) < 1) := fun k => by
    by_cases h : 0 ≤ n + k
    · refine .inl ⟨h, ?_⟩
      push_cast
      rw [← zpow_natCast, Int.toNat_of_nonneg h]
    · exact .inr ⟨h, zpow_lt_one_of_neg₀ (by norm_num) (by omega)⟩
  refine ⟨le_rfl, zpow_lt_zpow_right₀ (by norm_num) (by simp [PosReal.power]), fun k => ?_, fun k => ?_⟩
  · rw [hpow]
    rcases hsplit k with ⟨h, he⟩ | ⟨h, he⟩
    · rw [he, Nat.floor_natCast]
      simp [PosReal.power, h]
    · rw [Nat.floor_eq_zero.2 he]
      simp [PosReal.power, h]
  · rw [hpow]
    rcases hsplit k with ⟨h, he⟩ | ⟨h, he⟩
    · rw [he, Nat.floor_natCast]
      simp [PosReal.power, h]
    · rw [Nat.floor_eq_zero.2 he]
      have : (2 : ℝ) ^ (n + k) ≠ 0 := by positivity
      simp [PosReal.power, h, this.symm]

/-- The exponential of an integer other than zero rounds a power of two. -/
theorem fexp2Bits_of_int {mode x r m d : Nat} {sat neg : Bool} {e n : Int} (hv : valOf 0 x = .fin neg m e) (h0 : m ≠ 0) (hd : d = (-e).toNat)
    (hn : scaled neg m e.toNat = n * 2 ^ d) : Rounds 0 mode sat (2 ^ n) r (fexp2Bits mode sat x r) := by
  have hpos : (0 : ℝ) < 2 ^ n := by positivity
  have hdiv : scaled neg m e.toNat / ((2 ^ d : Nat) : Int) = n := by
    rw [hn]; push_cast; exact Int.mul_ediv_cancel _ (by positivity)
  have hmod : (scaled neg m e.toNat % ((2 ^ d : Nat) : Int)).toNat = 0 := by
    rw [hn]; push_cast; simp
  have hround := roundPos_rounds 0 mode r sat (PosReal.power n) (2 ^ n) (by decide) hpos.ne' (by rw [abs_of_pos hpos]; exact PosReal.power_is n)
  rw [decide_eq_false hpos.not_gt] at hround
  unfold fexp2Bits
  rw [hv]
  dsimp only
  rw [if_neg h0, ← hd, hdiv, hmod, if_pos rfl]
  exact hround

theorem fexp2Bits_int {mode r k : Nat} {sat neg : Bool} (hr : r < 2 ^ 32) (h0 : k ≠ 0) (hk : k ≤ 126) :
    fexp2Bits mode sat (convertVal 0 1 false (.fin neg k 0) 0) r = (if neg then 127 - k else 127 + k) * 2 ^ 23 := by
  have hsmall : k < 2 ^ 24 := by omega
  obtain ⟨hc, hval⟩ := valOf_intCode h0 hsmall
  have hL : Nat.log2 k < 24 := (Nat.log2_lt h0).2 hsmall
  have hcode : convertVal 0 1 false (.fin neg k 0) 0 = signBit 0 neg + intCode k := roundFin_int (by norm_num) h0 hsmall
  have hsign : valOf 0 (signBit 0 neg + intCode k) = .fin neg (k * 2 ^ (23 - Nat.log2 k)) ((Nat.log2 k : Int) - 23) := by
    have hx : signBit 0 neg + intCode k < 2 ^ fmtBits 0 := by cases neg <;> simp only [signBit, fmtBits] <;> norm_num at * <;> omega
    have hmod : (signBit 0 neg + intCode k) % 2 ^ (fmtBits 0 - 1) = intCode k := by
      cases neg <;> simp only [signBit, fmtBits] <;> norm_num at * <;> omega
    have hneg : decide (2 ^ (fmtBits 0 - 1) ≤ signBit 0 neg + intCode k) = neg := by
      cases neg <;> simp only [signBit, fmtBits] <;> norm_num at * <;> omega
    have := (valOf_sign 0 _ (by decide) hx).1 (k * 2 ^ (23 - Nat.log2 k)) ((Nat.log2 k : Int) - 23)
    rw [hmod, hneg] at this
    exact this hc hval
  rw [hcode]
  have hn : scaled neg (k * 2 ^ (23 - Nat.log2 k)) (((Nat.log2 k : Int) - 23).toNat) = (if neg then -(k : Int) else k) * 2 ^ (23 - Nat.log2 k) := by
    rw [show ((Nat.log2 k : Int) - 23).toNat = 0 by omega]
    cases neg <;> simp [scaled]
  have h := fexp2Bits_of_int (mode := mode) (r := r) (sat := sat) hsign (Nat.mul_ne_zero h0 (Nat.two_pow_pos _).ne') (by omega) hn
  cases neg
  · refine Rounds.eq_power (mode := mode) (sat := sat) (k := 127 + k) hr (by omega) (by omega) ?_
    rw [show ((127 + k : Nat) : Int) - 127 = k by omega]
    exact h
  · refine Rounds.eq_power (mode := mode) (sat := sat) (k := 127 - k) hr (by omega) (by omega) ?_
    rw [show ((127 - k : Nat) : Int) - 127 = -(k : Int) by omega]
    exact h

theorem fexp2Bits_zero (mode r : Nat) (sat neg : Bool) : fexp2Bits mode sat (convertVal 0 1 false (.fin neg 0 0) 0) r = 0x3F800000 := by
  cases neg <;> rfl

/-- Settles O8: each word is its function of its sources; the functions round exact values, and a power of two has its own code. -/
theorem floatingWordsRoundTheExactResultOnce : Obligations.FloatingWordsRoundTheExactResultOnce := by
  refine ⟨fun f => ⟨?_, ?_, ?_, ?_, ?_, ?_, ?_, becomes_ffma f⟩, fun mode x y a b hx hy => ⟨addVal_is mode hx hy, mulVal_is hx hy, negVal_is hx⟩,
    fun mode r sat v a hv ha => deliver_rounds 0 mode r sat v a (by decide) ha hv,
    fun mode r x sat a hv => ⟨fun ha => frcpBits_rounds mode x r sat a ha hv, fun ha => frsqBits_rounds mode x r sat a ha hv⟩,
    fun mode r m n sat p q e k v => ?_, fun mode r k sat h1 h5 hr => ?_, fun mode x r sat hx => ?_, fun mode r sat => ?_, fun mode x m r e sat hx hm => ?_⟩
  · exact becomes_of_fp2 (mk := .fadd) (g := faddBits 0) fun s => by rw [exec, execFadd]
  · exact becomes_of_fp2 (mk := .fsub) (g := fsubBits 0) fun s => by rw [exec, execFsub]
  · exact becomes_of_fp2 (mk := .fmul) (g := fmulBits 0) fun s => by rw [exec, execFmul]
  · exact becomes_of_fp1 (mk := .frcp) (g := frcpBits) fun s => by rw [exec, execFrcp]
  · exact becomes_of_fp1 (mk := .frsq) (g := frsqBits) fun s => by rw [exec, execFrsq]
  · exact becomes_of_fp1 (mk := .fexp2) (g := fexp2Bits) fun s => by rw [exec, execFexp2]
  · exact becomes_of_fp1 (mk := .flog2) (g := flog2Bits) fun s => by rw [exec, execFlog2]
  · refine ⟨rfl, deliver_inf mode r sat p, deliver_zero mode r sat p e, (addVal_nan mode v).2, (addVal_nan mode v).1, (mulVal_nan v).2, (mulVal_nan v).1,
      rfl, rfl, rfl, rfl, rfl, by cases p <;> cases q <;> rfl, addVal_opposite mode m p e, addVal_zeros mode p q e k, ?_, ?_⟩
    · simp [mulVal]
    · simp [mulVal]
  · refine ⟨fun hk1 hk2 => ⟨frcpBits_power hr hk1 hk2, flog2Bits_power hr hk1 hk2⟩, fun hk => ⟨?_, ?_⟩, fun hk => ?_⟩
    · exact frsqBits_power (j := k) hr (by omega) (by omega) (by omega) (by omega) (by omega) (by omega)
    · exact frsqBits_power (j := -k) hr (by omega) (by omega) (by omega) (by omega) (by omega) (by omega)
    · rcases Nat.eq_zero_or_pos k with rfl | h0
      · norm_num only
        exact ⟨fexp2Bits_zero mode r sat false, fexp2Bits_zero mode r sat true⟩
      · exact ⟨fexp2Bits_int hr h0.ne' hk, fexp2Bits_int hr h0.ne' hk⟩
  · have hnan : valOf 0 x = .nan := by simpa [isNan] using hx
    simp only [frcpBits, frsqBits, fexp2Bits, flog2Bits, hnan]
    exact ⟨rfl, rfl, rfl, rfl⟩
  · cases sat <;> exact ⟨rfl, rfl, rfl, rfl, rfl, rfl, rfl, rfl, rfl, rfl, rfl, rfl, rfl, rfl, rfl, rfl, rfl⟩
  · simp only [frsqBits, flog2Bits, hx, hm, if_false, if_true]
    exact ⟨rfl, rfl⟩

/-! ## Exponentials and logarithms (O9) -/

/-- Refutes O9: its generator state r is any number. At r = 2^32 mode RS rounds even an exact value up, but FEXP2 of 0 is 1 in every mode. -/
theorem not_exponentialsAndLogarithmsRoundTheirExactValue : ¬ Obligations.ExponentialsAndLogarithmsRoundTheirExactValue := by
  intro h
  have hzero : valOf 0 0 = .fin false 0 (-149) := rfl
  have hround := h.1 5 (2 ^ 32) 0 0 false false (-149) 0 hzero (by rw [hzero, Val.is_fin]; simp) (.inl (by simp))
  have hone := valOf_power_is (k := 127) (by norm_num) (by norm_num)
  have hnext : valOf 0 (127 * 2 ^ 23 + 1) = .fin false (2 ^ 23 + 1) (-23) := rfl
  have hup := (hround.2 (127 * 2 ^ 23) 1 ((2 ^ 23 + 1 : Nat) * 2 ^ (-23 : Int)) (by simp only [expBits, fracBits]; norm_num) (by simpa using hone)
    (fun _ => by rw [hnext, Val.is_fin]) (fun h => by simp only [expBits, fracBits] at h; norm_num at h) (by norm_num) (by norm_num)).2
    (.inr (.inr (.inr ⟨rfl, by norm_num⟩)))
  have hcode : fexp2Bits 5 false 0 (2 ^ 32) = 127 * 2 ^ 23 := rfl
  rw [hcode] at hup
  simp only [expBits, fracBits] at hup
  norm_num at hup

/-! ## Minima, maxima and comparisons (O10) -/

section
variable {fmt x y : Nat}

theorem fminBits_left_nan (hx : isNan fmt x = true) (hy : isNan fmt y = false) : fminBits fmt x y = y ∧ fmaxBits fmt x y = y := by
  simp [fminBits, fmaxBits, hx, hy]

theorem fminBits_right_nan (hx : isNan fmt x = true) (hy : isNan fmt y = false) : fminBits fmt y x = y ∧ fmaxBits fmt y x = y := by
  simp [fminBits, fmaxBits, hx, hy]

theorem fminBits_nans (hx : isNan fmt x = true) (hy : isNan fmt y = true) : fminBits fmt x y = nanOf fmt ∧ fmaxBits fmt x y = nanOf fmt := by
  simp [fminBits, fmaxBits, hx, hy]

theorem fcompare_unordered {c : Nat} (h : isNan 0 x = true ∨ isNan 0 y = true) :
    (c < 7 → fcompare c x y = false) ∧ (8 ≤ c → c < 15 → fcompare c x y = true) := by
  have hun : (isNan 0 x || isNan 0 y) = true := by simpa using h
  unfold fcompare
  dsimp only
  rw [hun]
  constructor
  · intro hc
    split
    · omega
    · simp; omega
  · intro hc _
    split
    · rfl
    · simp; omega

theorem fcompare_ordered (x y : Nat) : fcompare 6 x y = !(isNan 0 x || isNan 0 y) ∧ fcompare 14 x y = (isNan 0 x || isNan 0 y) := by
  unfold fcompare
  dsimp only
  cases h : (isNan 0 x || isNan 0 y) <;> simp
end

theorem becomes_of_fpPick {mk : Fields → Instr} {f : Fields} {g : Nat → Nat → Nat} (h : ∀ s, exec (mk f) s = s.fpPick (mk f) f g) :
    Becomes mk f fun s b t x => (s.aF b t f).bind fun u => (x.bF f).map fun v => x.put32 f (BitVec.ofNat 32 (g u.toNat v.toNat)) :=
  becomes_of_runAlu h fun s b t x => by simp only [State.quiet_aF]

theorem floatMinimumMaximumAndCompare : FloatMinimumMaximumAndCompare := by
  refine ⟨fun f => ⟨?_, ?_, ?_⟩, fun x y hx hy => ?_, fun x y hx hy => fminBits_nans hx hy, rfl, rfl, fun fmt x y a b hf hx hy ha hb h => fminBits_of_lt hf hx hy ha hb h,
    fun x y k a b hk hx hy ha hb => fcompare_iff hx hy ha hb k hk, fun c x y h => fcompare_unordered h, rfl, fcompare_ordered⟩
  · exact becomes_of_fpPick fun s => by rw [exec, execFmin]
  · exact becomes_of_fpPick fun s => by rw [exec, execFmax]
  · exact becomes_of_runAlu (fun _ => by rw [exec, execFsetp]) fun s b t x => by simp only [State.quiet_aF]
  · obtain ⟨h1, h2⟩ := fminBits_left_nan hx hy
    obtain ⟨h3, h4⟩ := fminBits_right_nan hx hy
    exact ⟨h1, h2, h3, h4⟩

/-! ## Packed words (O10) -/

theorem el_zero (v : Word) : el v 0 = v.toNat % 2 ^ 16 := by simp [el]
theorem el_one (v : Word) : el v 1 = v.toNat / 2 ^ 16 % 2 ^ 16 := rfl

/-- A rounding packed word, element by element: element 0 takes the first of two generator steps. -/
theorem Thread.pk_eq (x : Thread) (f : Fields) (u v d : Word) (g : Nat → Nat → Bool → Nat → Nat → Nat → Nat → Nat) :
    x.pk f u v d g =
      let m := if f.ctl / 2 % 8 = 0 then x.rmode.toNat else f.ctl / 2 % 8
      let v := if f.ctl / 32 % 2 = 1 then v.rotateLeft 16 else v
      let s1 := xsNext x.srseed
      let s2 := xsNext s1
      let y := if m = 5 then { x with srseed := s2 } else x
      let g := g (if f.ctl % 2 = 1 then 2 else 1) m (decide (f.ctl / 16 % 2 = 1))
      y.put32 f (BitVec.ofNat 32
        (g (u.toNat % 2 ^ 16) (v.toNat % 2 ^ 16) (d.toNat % 2 ^ 16) (if m = 5 then s1.toNat else 0)
          + 65536 * g (u.toNat / 2 ^ 16 % 2 ^ 16) (v.toNat / 2 ^ 16 % 2 ^ 16) (d.toNat / 2 ^ 16 % 2 ^ 16) (if m = 5 then s2.toNat else 0))) := by
  simp only [Thread.pk, Thread.roll_eq, Thread.modeOf_eq, pack2, el_zero, el_one, pkFmt, exchange, decide_eq_true_eq]
  by_cases hm : (if f.ctl / 2 % 8 = 0 then x.rmode.toNat else f.ctl / 2 % 8) = 5
  · simp only [hm, if_true]
  · simp only [hm, if_false]

section
variable {mk : Fields → Instr} {f : Fields}

@[simp] theorem State.quiet_aPk (s : State) (b : Bundle) (t : ThreadId) (f : Fields) (fmt : Nat) : s.quiet.aPk b t f fmt = s.aPk b t f fmt := rfl

theorem becomes_of_pkPick {g : Nat → Nat → Nat → Nat} (h : ∀ s, exec (mk f) s = s.pkPick (mk f) f g) :
    Becomes mk f fun s b t x => (s.aPk b t f (if f.ctl % 2 = 1 then 2 else 1)).bind fun u => (x.bPk f (if f.ctl % 2 = 1 then 2 else 1)).map fun v =>
      let v := if f.ctl / 2 % 2 = 1 then v.rotateLeft 16 else v
      x.put32 f (BitVec.ofNat 32 (g (if f.ctl % 2 = 1 then 2 else 1) (u.toNat % 2 ^ 16) (v.toNat % 2 ^ 16)
        + 65536 * g (if f.ctl % 2 = 1 then 2 else 1) (u.toNat / 2 ^ 16 % 2 ^ 16) (v.toNat / 2 ^ 16 % 2 ^ 16))) :=
  becomes_of_runAlu h fun s b t x => by simp only [State.quiet_aPk, pack2, el_zero, el_one, pkFmt, exchange, decide_eq_true_eq]
end

theorem nan_elements {fmt mode x r : Nat} {sat : Bool} (hf : fmt = 1 ∨ fmt = 2) (hx : isNan fmt x = true) (y z : Nat) :
    let nan := if fmt = 1 then 0x7E00 else 0x7FC0
    faddBits fmt mode sat x y r = nan ∧ faddBits fmt mode sat y x r = nan ∧ fmulBits fmt mode sat x y r = nan ∧ fmulBits fmt mode sat y x r = nan
    ∧ ffmaBits fmt mode sat x y z r = nan ∧ ffmaBits fmt mode sat y x z r = nan ∧ ffmaBits fmt mode sat y z x r = nan := by
  have hv : valOf fmt x = .nan := by simpa [isNan] using hx
  have hnan : nanOf fmt = if fmt = 1 then 0x7E00 else 0x7FC0 := by rcases hf with rfl | rfl <;> rfl
  simp only [faddBits, fmulBits, ffmaBits, hv, addVal_nan, mulVal_nan, deliver, hnan, and_self]

theorem packedWordsWorkElementByElement : PackedWordsWorkElementByElement := by
  refine ⟨fun f => ⟨?_, ?_, ?_, ?_, ?_⟩, fun fmt mode x y z r sat a b c hf hx hy hz => ⟨fun h => ?_, fun h => ?_, fun h => ?_⟩, fun fmt mode x y z r sat hf hx => ?_⟩
  · exact becomes_of_runAlu (fun _ => by rw [exec, execPkadd, State.pk2]) fun s b t x => by simp only [State.quiet_aPk, Thread.pk_eq, pkFmt]
  · exact becomes_of_runAlu (fun _ => by rw [exec, execPkmul, State.pk2]) fun s b t x => by simp only [State.quiet_aPk, Thread.pk_eq, pkFmt]
  · exact becomes_of_runAlu (fun _ => by rw [exec, execPkfma]) fun s b t x => by simp only [State.quiet_aPk, Thread.pk_eq, pkFmt]
  · exact becomes_of_pkPick (g := fminBits) fun s => by rw [exec, execPkmin]
  · exact becomes_of_pkPick (g := fmaxBits) fun s => by rw [exec, execPkmax]
  · exact deliver_rounds fmt mode r sat _ _ hf h (addVal_is mode hx hy)
  · exact deliver_rounds fmt mode r sat _ _ hf h (mulVal_is hx hy)
  · exact deliver_rounds fmt mode r sat _ _ hf h (addVal_is mode (mulVal_is hx hy) hz)
  · obtain ⟨h1, h2, h3, h4, h5, h6, h7⟩ := nan_elements (mode := mode) (r := r) (sat := sat) hf hx y z
    have hnan : nanOf fmt = if fmt = 1 then 0x7E00 else 0x7FC0 := by rcases hf with rfl | rfl <;> rfl
    refine ⟨h1, h2, h3, h4, h5, h6, h7, fun hy => ?_, fun hy => ?_⟩
    · obtain ⟨h1, h2⟩ := fminBits_left_nan hx hy
      obtain ⟨h3, h4⟩ := fminBits_right_nan hx hy
      exact ⟨h1, h2, h3, h4⟩
    · rw [← hnan]
      exact fminBits_nans hx hy

/-- Settles O10: the order of codes is the order of values, and each element of a packed word is rounded once. -/
theorem floatComparisonsAndPackedWords : Obligations.FloatComparisonsAndPackedWords :=
  ⟨floatMinimumMaximumAndCompare, packedWordsWorkElementByElement⟩

/-! ## Conversions (O11) -/

theorem bitsOf_sa (f : Fields) : bitsOf f.sa.toNat 7 4 = f.sa.toNat / 16 % 16 ∧ bitsOf f.sa.toNat 3 0 = f.sa.toNat % 16
    ∧ f.sa.getLsbD 8 = decide (f.sa.toNat / 256 % 2 = 1) := by
  refine ⟨rfl, by simp [bitsOf], ?_⟩
  rw [BitVec.getLsbD, Nat.testBit_eq_decide_div_mod_eq]

theorem Thread.convert_eq (x : Thread) (f : Fields) : x.convert f =
    let src := f.sa.toNat / 16 % 16
    let dst := f.sa.toNat % 16
    let sat := decide (f.sa.toNat / 256 % 2 = 1)
    let put := fun (x : Thread) (w : Nat) => if dst ≥ 14 then x.put64 f (BitVec.ofNat 64 (placeIn dst w)) else x.put32 f (BitVec.ofNat 32 (placeIn dst w))
    (x.cvtSource f src).map fun v =>
      if src ≥ 8 ∧ dst ≥ 8 then put x (convertInt src dst sat v)
      else
        let m := if f.ctl % 8 = 0 then x.rmode.toNat else f.ctl % 8
        if m = 5 then put { x with srseed := xsNext x.srseed } (convertVal dst 5 sat (valOf src v) (xsNext x.srseed).toNat)
        else put x (convertVal dst m sat (valOf src v) 0) := by
  obtain ⟨h1, h2, h3⟩ := bitsOf_sa f
  simp only [Thread.convert, h1, h2, h3, isInt, Thread.roll_eq, Thread.modeOf_eq, Bool.and_eq_true, decide_eq_true_eq]
  by_cases hm : (if f.ctl % 8 = 0 then x.rmode.toNat else f.ctl % 8) = 5
  · simp only [hm, if_true]
  · simp only [hm, if_false]

/-- The conversion of a NaN, a zero or an infinity. -/
theorem convertVal_special (mode r : Nat) (sat neg : Bool) (e : Int) :
    (∀ fmt, convertVal fmt mode sat .nan r = match fmt with | 0 => 0x7FC00000 | 1 => 0x7E00 | 2 => 0x7FC0 | 3 => 0x7F | 4 => 0x80 | 5 => 0x20 | _ => 0)
    ∧ (∀ fmt, fmt < 4 → convertVal fmt mode sat (.fin neg 0 e) r = if neg then 2 ^ (fmtBits fmt - 1) else 0)
    ∧ (∀ fmt, 4 ≤ fmt → fmt < 16 → convertVal fmt mode sat (.fin neg 0 e) r = 0)
    ∧ (∀ dst, 8 ≤ dst → dst < 16 → convertVal dst mode sat (.inf neg) r
        = if dst % 2 = 0 then (if neg then 2 ^ (fmtBits dst - 1) else 2 ^ (fmtBits dst - 1) - 1) else (if neg then 0 else 2 ^ fmtBits dst - 1)) := by
  refine ⟨fun fmt => rfl, fun fmt h => ?_, fun fmt h4 h16 => ?_, fun dst h8 h16 => ?_⟩
  · simp [convertVal, roundFin, h, signBit]
  · simp [convertVal, roundFin, h4]
  · obtain ⟨k, rfl⟩ : ∃ k, dst = k + 6 := ⟨dst - 6, by omega⟩
    simp only [convertVal, infOf, isSigned, decide_eq_true_eq]

/-- Settles O11: conversions by their formats, and the values that they round. -/
theorem conversionsBetweenFormats : Obligations.ConversionsBetweenFormats := by
  refine ⟨fun f => ⟨?_, ?_, ?_, ?_⟩, fun fmt mode r sat v a hf hv ha => convertVal_rounds fmt mode r sat v a hf ha hv,
    fun dst mode r u sat v a h8 h16 hv ha h1 h2 => convertVal_int dst mode r sat v a h8 ha hv u h1 h2,
    fun src x z h1 h2 hz hx => ⟨valOf_int src x z h1 h2 hz hx, fun dst sat => convertInt_eq src dst x sat z h1 h2 hz hx⟩, convertVal_special⟩
  · exact becomes_of_runAlu (fun _ => by rw [exec, execCvt]) fun s b t x => x.convert_eq f
  · exact becomes_of_runAlu (fun _ => by rw [exec, execCvt64]) fun s b t x => x.convert_eq f
  · refine becomes_of_runAlu (fun _ => by rw [exec, execTpack]) fun s b t x => ?_
    simp only [State.quiet_aF, Thread.roll_eq, Thread.modeOf_eq]
  · refine becomes_of_runAlu (fun _ => by rw [exec, execTunpack]) fun s b t x => ?_
    simp only [State.quiet_a32]

end Sys2Proof.Machine
end

section
/-! PROOFS. Words that a crew's lanes exchange (O27). -/

namespace Sys2Proof.Machine

section
variable {s : State} {i : Instr} {f : Fields} {q : QuadId} {k : Nat} {b : Bundle}

theorem State.afterWord_congr {g h : ThreadId → Thread} (hgh : ∀ t ∈ s.executing b f, g t = h t) :
    s.afterWord i q k b f g = s.afterWord i q k b f h := by
  unfold State.afterWord
  congr 1
  exact List.foldl_ext _ _ _ fun s' t ht => by rw [hgh t ht]

/-- An exchange whose members' sources can all be read: each has its result from the state at the word. -/
theorem State.runCrew_next {reads : Thread → Bool} {g : State → Bundle → List ThreadId → ThreadId → Thread → Thread} {h : ThreadId → Thread}
    (hi : Issuing s i f q k b) (hr : ∀ t ∈ s.executing b f, reads (s.thread t) = true)
    (hg : ∀ t ∈ s.executing b f, g s.quiet b (s.executing b f) t (s.thread t) = h t) :
    s.runCrew i reads g = .next (s.afterWord i q k b f h) := by
  have hgood : ((s.executing b f).filter fun t => reads (s.quiet.thread t)) = s.executing b f := List.filter_eq_self.2 hr
  have hbad : ((s.executing b f).filter fun t => !reads (s.quiet.thread t)) = [] := List.filter_eq_nil_iff.2 fun t ht => by
    rw [State.quiet_thread, hr t ht]; decide
  have hrest : { b with threads := b.threads.filter fun t => !([] : List ThreadId).contains t } = b := by simp
  rw [State.runCrew, State.runBundle_next hi rfl]
  simp only [hgood, hbad, hrest, List.foldl_nil]
  congr 1
  exact State.afterWord_congr hg
end

/-! ## BALLOT and SHFL -/

theorem sum_map_filter_eq (p : Nat → Bool) (g : Nat → Nat) (l : List Nat) :
    ((l.filter p).map g).sum = (l.map fun j => if p j then g j else 0).sum := by
  induction l with
  | nil => rfl
  | cons j l ih =>
    by_cases h : p j = true
    · simp [h, ih]
    · simp [h, ih]

/-- The sum of distinct powers of two below 2^n has exactly their bits. -/
theorem sum_two_pow_eq_bitsNat {l : List Nat} (hl : l.Nodup) {n : Nat} (hn : ∀ j ∈ l, j < n) :
    (l.map (2 ^ ·)).sum = bitsNat (fun j => decide (j ∈ l)) n := by
  have hperm : l.Perm ((List.range n).filter fun j => decide (j ∈ l)) :=
    (List.perm_ext_iff_of_nodup hl (List.nodup_range.filter _)).2 fun j => by
      simp only [List.mem_filter, List.mem_range, decide_eq_true_eq]
      exact ⟨fun h => ⟨hn j h, h⟩, fun h => h.2⟩
  rw [(hperm.map _).sum_eq, ← foldl_range_eq_bitsNat, ← List.sum_eq_foldl, sum_map_filter_eq]

/-- The mask of the lanes whose predicate holds. -/
theorem getLsbD_laneMask {act : List ThreadId} {p : ThreadId → Bool} (hn : act.Nodup)
    (hlane : ∀ t ∈ act, ∀ u ∈ act, t.tid % 32 = u.tid % 32 → t = u) {l : Nat} (hl : l < 32) :
    (BitVec.ofNat 32 (((act.filter p).map fun u => 2 ^ (u.tid % 32)).foldl (· + ·) 0)).getLsbD l = act.any fun u => u.tid % 32 = l && p u := by
  have hmap : ((act.filter p).map fun u => 2 ^ (u.tid % 32)) = ((act.filter p).map fun u => u.tid % 32).map (2 ^ ·) := by
    rw [List.map_map]; rfl
  have hnodup : ((act.filter p).map fun u => u.tid % 32).Nodup :=
    (hn.filter _).map_on fun t ht u hu h => hlane t (List.mem_filter.1 ht).1 u (List.mem_filter.1 hu).1 h
  have hlt : ∀ j ∈ (act.filter p).map (fun u => u.tid % 32), j < 32 := fun j hj => by
    obtain ⟨u, -, rfl⟩ := List.mem_map.1 hj
    exact Nat.mod_lt _ (by decide)
  rw [← List.sum_eq_foldl, hmap, sum_two_pow_eq_bitsNat hnodup hlt, getLsbD_ofNat_bitsNat _ hl, Bool.eq_iff_iff, decide_eq_true_eq]
  simp only [List.mem_map, List.mem_filter, List.any_eq_true, Bool.and_eq_true, decide_eq_true_eq]
  exact ⟨fun ⟨u, ⟨hu, hp⟩, h⟩ => ⟨u, hu, h, hp⟩, fun ⟨u, hu, h, hp⟩ => ⟨u, ⟨hu, hp⟩, h⟩⟩

/-- The lane that SHFL reads, by its mode. -/
theorem shflLane_eq (seg l n : Nat) : let z := 2 ^ (seg + 1)
    shflLane 0 seg l n = some (l - l % z + n % z) ∧ shflLane 1 seg l n = (if n ≤ l % z then some (l - n) else none)
    ∧ shflLane 2 seg l n = (if l % z + n < z then some (l + n) else none) ∧ shflLane 3 seg l n = some (l - l % z + Nat.xor (l % z) (n % z)) := by
  have hz : 2 * 2 ^ seg = 2 ^ (seg + 1) := (pow_succ' 2 seg).symm
  have hmod := Nat.mod_le l (2 ^ (seg + 1))
  simp only [shflLane, hz]
  refine ⟨trivial, ?_, ?_, trivial⟩
  · split
    · congr 1; omega
    · rfl
  · split
    · congr 1; omega
    · rfl

theorem State.crewVal_pair (s : State) (f : Fields) (t : ThreadId) : s.crewVal f .pair t = (((s.thread t).src64 f.sa).getD 0).toNat := by
  simp only [State.crewVal, Thread.crewSrc]
  cases (s.thread t).src64 f.sa <;> rfl

theorem State.crewVal_word (s : State) (f : Fields) (t : ThreadId) : s.crewVal f .word t = (((s.thread t).src32 f.sa).getD 0).toNat := by
  simp only [State.crewVal, Thread.crewSrc]
  cases (s.thread t).src32 f.sa <;> rfl

theorem ballotAndShuffleReadTheOtherLanes : BallotAndShuffleReadTheOtherLanes := by
  intro f s q k b
  refine ⟨fun m hi hlane hm => ?_, fun n v hi hn hv => ?_⟩
  · rw [exec, execBallot]
    refine State.runCrew_next hi (fun _ _ => rfl) fun t ht => ?_
    have hact : ∀ t ∈ s.executing b f, t ∈ b.threads := fun t ht => (List.mem_filter.1 ht).1
    congr 1
    refine BitVec.eq_of_getLsbD_eq fun l hl => ?_
    rw [hm l hl]
    exact getLsbD_laneMask (hi.once.filter _) (fun t ht u hu => hlane t (hact t ht) u (hact u hu)) hl
  · rw [exec, execShfl]
    refine State.runCrew_next hi (fun t ht => by rw [hn t ht]; rfl) fun t ht => ?_
    obtain ⟨h0, h1, h2, h3⟩ := hv t ht
    obtain ⟨e0, e1, e2, e3⟩ := shflLane_eq (f.ctl / 8) (t.tid % 32) (n t).toNat
    have hheld : ∀ l, (if b.threads.contains (crewMember t l) then
        s.quiet.crewVal f (if decide (f.ctl / 4 % 2 = 1) = true then .pair else .word) (crewMember t l) else 0)
        = if crewMember t l ∈ b.threads then
           if f.ctl / 4 % 2 = 1 then (((s.thread (crewMember t l)).src64 f.sa).getD 0).toNat else (((s.thread (crewMember t l)).src32 f.sa).getD 0).toNat
         else 0 := fun l => by
      simp only [List.contains_iff_mem, decide_eq_true_eq]
      congr 1
      split
      · rw [State.crewVal_pair, State.quiet_thread]
      · rw [State.crewVal_word, State.quiet_thread]
    simp only [hn t ht, Option.getD_some, Thread.putWide, decide_eq_true_eq] at hheld ⊢
    have hmode : f.ctl % 4 = 0 ∨ f.ctl % 4 = 1 ∨ f.ctl % 4 = 2 ∨ f.ctl % 4 = 3 := by omega
    rcases hmode with h | h | h | h
    · rw [h0 h, h, e0]
      simp only [hheld]
    · rw [h1 h, h, e1]
      by_cases hc : (n t).toNat ≤ t.tid % 32 % 2 ^ (f.ctl / 8 + 1)
      · simp only [hc, if_true, hheld]
      · simp only [hc, if_false]
    · rw [h2 h, h, e2]
      by_cases hc : t.tid % 32 % 2 ^ (f.ctl / 8 + 1) + (n t).toNat < 2 ^ (f.ctl / 8 + 1)
      · simp only [hc, if_true, hheld]
      · simp only [hc, if_false]
    · rw [h3 h, h, e3]
      simp only [hheld]

/-! ## CREDUCE, CSCAN and CVOTE -/

section
variable {f : Fields} {s : State} {q : QuadId} {k : Nat} {b : Bundle} {v : ThreadId → Nat} {x : ThreadId → Word}

theorem State.crewVal_of {r : CrewRead} {t : ThreadId} {n : Nat} (h : (s.thread t).crewSrc f r = some n) : s.quiet.crewVal f r t = n := by
  rw [State.crewVal, State.quiet_thread, h]; rfl

theorem creduce_next (hi : Issuing s (.creduce f) f q k b) (hv : ∀ t ∈ s.executing b f, (s.thread t).crewSrc f (reduceRead f) = some (v t)) :
    exec (.creduce f) s = .next (s.afterWord (.creduce f) q k b f fun t => (s.thread t).putWide f (decide (f.ctl / 16 % 2 = 1))
      (reduceOf (f.ctl % 16) (if decide (f.ctl / 16 % 2 = 1) then 64 else 32) ((s.executing b f).map v))) := by
  rw [exec, execCreduce]
  refine State.runCrew_next hi (fun t ht => by rw [hv t ht]; rfl) fun t _ => ?_
  rw [List.map_congr_left fun u hu => State.crewVal_of (hv u hu)]

theorem cscan_next (hi : Issuing s (.cscan f) f q k b) (hv : ∀ t ∈ s.executing b f, (s.thread t).crewSrc f (reduceRead f) = some (v t)) :
    exec (.cscan f) s = .next (s.afterWord (.cscan f) q k b f fun t => (s.thread t).putWide f (decide (f.ctl / 16 % 2 = 1))
      (reduceOf (f.ctl % 16) (if decide (f.ctl / 16 % 2 = 1) then 64 else 32)
        (((s.executing b f).filter fun u => u.tid < t.tid || (f.ctl / 32 % 2 = 0 && u.tid = t.tid)).map v))) := by
  rw [exec, execCscan]
  refine State.runCrew_next hi (fun t ht => by rw [hv t ht]; rfl) fun t _ => ?_
  have hexcl : (!decide (f.ctl / 32 % 2 = 1)) = decide (f.ctl / 32 % 2 = 0) := by
    rw [← decide_not, decide_eq_decide]; omega
  simp only [hexcl]
  rw [List.map_congr_left fun u hu => State.crewVal_of (hv u (List.mem_filter.1 hu).1)]

/-- CVOTE of predicates. -/
theorem cvote_next_pred (hm : f.ctl % 4 < 2) (hi : Issuing s (.cvote f) f q k b) :
    exec (.cvote f) s = .next (s.afterWord (.cvote f) q k b f fun t => (s.thread t).setPred f.dst.toNat
      (if f.ctl % 4 = 0 then (s.executing b f).all fun t => (s.thread t).pred f.sa.toNat else (s.executing b f).any fun t => (s.thread t).pred f.sa.toNat)) := by
  rw [exec, execCvote]
  refine State.runCrew_next hi (fun t _ => by simp [hm]) fun t _ => ?_
  have hmode : f.ctl % 4 = 0 ∨ f.ctl % 4 = 1 := by omega
  rcases hmode with h | h <;> simp [h, List.all_map, List.any_map]

/-- CVOTE of values. -/
theorem cvote_next_val (hm : 2 ≤ f.ctl % 4) (hi : Issuing s (.cvote f) f q k b)
    (hv : ∀ t ∈ s.executing b f, (s.thread t).crewSrc f (if decide (f.ctl / 4 % 2 = 1) then .pair else .word) = some (v t)) :
    exec (.cvote f) s = .next (s.afterWord (.cvote f) q k b f fun t =>
      if f.ctl % 4 = 2 then (s.thread t).setPred f.dst.toNat ((s.executing b f).all fun u => v u = v ((s.executing b f).headD t))
      else (s.thread t).putWide f (decide (f.ctl / 4 % 2 = 1)) (mostOf ((s.executing b f).map v))) := by
  rw [exec, execCvote]
  refine State.runCrew_next hi (fun t ht => by rw [hv t ht]; simp) fun t ht => ?_
  rw [List.map_congr_left fun u hu => State.crewVal_of (hv u hu)]
  have hhead : ((s.executing b f).map v).headD 0 = v ((s.executing b f).headD t) := by
    cases hl : s.executing b f with
    | nil => simp [hl] at ht
    | cons u l => rfl
  have hmode : f.ctl % 4 = 2 ∨ f.ctl % 4 = 3 := by omega
  rcases hmode with h | h
  · simp only [h, hhead, List.all_map, if_true, Function.comp_def]
  · simp [h]

theorem crewSrc_word_of (h : (s.thread t).src32 f.sa = some (x t)) : (s.thread t).crewSrc f .word = some (x t).toNat := by
  rw [Thread.crewSrc, h]; rfl

/-- The sum of 32-bit sources, modulo 2^32. -/
theorem reduceOf_sum_word (l : List ThreadId) : BitVec.ofNat 32 (reduceOf 0 32 (l.map fun t => (x t).toNat))
    = BitVec.ofNat 32 ((l.map fun t => (x t).toNat).foldl (· + ·) 0) := by
  exact BitVec.eq_of_toNat_eq (by simp only [reduceOf, BitVec.toNat_ofNat, Nat.mod_mod])

theorem reduceOf_word {op : Nat} {l : List ThreadId} {m : Word} (hm : ∃ t ∈ l, x t = m) :
    (op = 4 → (∀ t ∈ l, (x t).toNat ≤ m.toNat) → BitVec.ofNat 32 (reduceOf op 32 (l.map fun t => (x t).toNat)) = m)
    ∧ (op = 1 → (∀ t ∈ l, m.toInt ≤ (x t).toInt) → BitVec.ofNat 32 (reduceOf op 32 (l.map fun t => (x t).toNat)) = m) := by
  obtain ⟨t, ht, hxt⟩ := hm
  have hmem : m.toNat ∈ l.map fun t => (x t).toNat := List.mem_map.2 ⟨t, ht, by rw [hxt]⟩
  obtain ⟨-, hint, -, -⟩ := reduceOf_int 32 (l.map fun t => (x t).toNat) (.inl rfl) fun v hv => by
    obtain ⟨u, -, rfl⟩ := List.mem_map.1 hv
    exact (x u).isLt
  dsimp only at hint
  obtain ⟨h1, -, -, h4, hall⟩ := hint (List.ne_nil_of_mem hmem)
  constructor
  · rintro rfl hmax
    obtain ⟨u, hu, he⟩ := List.mem_map.1 h4
    have := hmax u hu
    have := (hall _ hmem).2.2.2
    rw [show reduceOf 4 32 (l.map fun t => (x t).toNat) = m.toNat by omega, BitVec.ofNat_toNat, BitVec.setWidth_eq]
  · rintro rfl hmin
    obtain ⟨u, hu, he⟩ := List.mem_map.1 h1
    have hle := (hall _ hmem).1
    have hge := hmin u hu
    rw [← he] at hle ⊢
    rw [sextN_toNat _ (by decide), sextN_toNat _ (by decide)] at hle
    rw [BitVec.ofNat_toNat, BitVec.setWidth_eq]
    exact BitVec.eq_of_toInt_eq (by omega)

/-- The value that more members hold than any other. -/
theorem mostOf_word {l : List ThreadId} {m : Word} (hm : ∃ t ∈ l, x t = m)
    (hmost : ∀ w, w ≠ m → (l.filter fun t => x t = w).length < (l.filter fun t => x t = m).length) :
    BitVec.ofNat 32 (mostOf (l.map fun t => (x t).toNat)) = m := by
  obtain ⟨t, ht, hxt⟩ := hm
  have hmem : m.toNat ∈ l.map fun t => (x t).toNat := List.mem_map.2 ⟨t, ht, by rw [hxt]⟩
  have hcount : ∀ w : Word, (l.map fun t => (x t).toNat).count w.toNat = (l.filter fun t => x t = w).length := fun w => by
    rw [List.count, List.countP_map, List.countP_eq_length_filter]
    congr 1
    refine List.filter_congr fun u _ => ?_
    rw [Bool.eq_iff_iff, Function.comp_apply, beq_iff_eq, decide_eq_true_eq, BitVec.toNat_inj]
  obtain ⟨hin, hmax⟩ := mostOf_first _ (List.ne_nil_of_mem hmem)
  obtain ⟨u, hu, he⟩ := List.mem_map.1 hin
  have hle := (hmax _ hmem).1
  rw [← he] at hle ⊢
  rw [hcount, hcount] at hle
  rw [BitVec.ofNat_toNat, BitVec.setWidth_eq]
  by_contra hne
  have := hmost _ hne
  omega
end

theorem reductionsScansAndVotes : ReductionsScansAndVotes := by
  intro f s q k b x v
  dsimp only
  have hword : ∀ {t}, (s.thread t).src32 f.sa = some (x t) → (s.thread t).crewSrc f .word = some (x t).toNat := fun h => by
    rw [Thread.crewSrc, h]; rfl
  have hread : f.ctl / 16 % 2 ≠ 1 → f.ctl % 16 < 8 → reduceRead f = .word := fun h1 h2 => by
    rw [reduceRead, if_neg h1, if_neg (by omega)]
  refine ⟨fun ⟨hi, hv⟩ => creduce_next hi hv, fun ⟨hi, hv⟩ => cscan_next hi hv, fun hm ⟨hi, hv⟩ => ?_, fun hm ⟨hi, hv⟩ => ?_, fun hm ⟨hi, hv⟩ => ?_,
    fun m hm ⟨hi, hv⟩ hmax hex => ?_, fun m hm ⟨hi, hv⟩ hmin hex => ?_, fun hm ⟨hi, hv⟩ => ?_, fun hm ⟨hi, hv⟩ => ?_, fun hm hi => ?_, fun hm hi => ?_,
    fun hm ⟨hi, hv⟩ hall => ?_, fun hm ⟨hi, hv⟩ hex => ?_, fun m hm ⟨hi, hv⟩ hex hmost => ?_⟩
  · rw [cvote_next_val (by omega) hi hv]
    simp [hm]
  · rw [cvote_next_val (by omega) hi hv]
    simp [hm]
  · rw [creduce_next hi fun t ht => by rw [hread (by omega) (by omega)]; exact hword (hv t ht)]
    simp only [hm]
    simp [Thread.putWide, reduceOf_sum_word]
  · rw [creduce_next hi fun t ht => by rw [hread (by omega) (by omega)]; exact hword (hv t ht)]
    simp only [hm]
    simp [Thread.putWide, (reduceOf_word hex).1 rfl hmax]
  · rw [creduce_next hi fun t ht => by rw [hread (by omega) (by omega)]; exact hword (hv t ht)]
    simp only [hm]
    simp [Thread.putWide, (reduceOf_word hex).2 rfl hmin]
  · rw [cscan_next hi fun t ht => by rw [hread (by omega) (by omega)]; exact hword (hv t ht)]
    simp only [hm]
    simp [Thread.putWide, reduceOf_sum_word, Nat.le_iff_lt_or_eq]
  · rw [cscan_next hi fun t ht => by rw [hread (by omega) (by omega)]; exact hword (hv t ht)]
    simp only [hm]
    simp [Thread.putWide, reduceOf_sum_word]
  · rw [cvote_next_pred (by omega) hi]
    simp [hm]
  · rw [cvote_next_pred (by omega) hi]
    simp [hm]
  · rw [cvote_next_val (by omega) hi (v := fun t => (x t).toNat) fun t ht => by simp only [hm]; exact hword (hv t ht)]
    refine congrArg _ (State.afterWord_congr fun t ht => ?_)
    have hsame : ((s.executing b f).all fun u => (x u).toNat = (x ((s.executing b f).headD t)).toNat) = true := by
      have hhead : (s.executing b f).headD t ∈ s.executing b f := by
        cases hl : s.executing b f with
        | nil => simp [hl] at ht
        | cons u l => exact List.mem_cons_self
      exact List.all_eq_true.2 fun w hw => decide_eq_true (by rw [hall w hw _ hhead])
    simp only [hm, if_true, hsame]
  · rw [cvote_next_val (by omega) hi (v := fun t => (x t).toNat) fun t ht => by simp only [hm]; exact hword (hv t ht)]
    refine congrArg _ (State.afterWord_congr fun t ht => ?_)
    have hdiffer : ((s.executing b f).all fun u => (x u).toNat = (x ((s.executing b f).headD t)).toNat) = false := by
      rw [Bool.eq_false_iff]
      intro h
      obtain ⟨u, hu, w, hw, hne⟩ := hex
      have heach : ∀ y ∈ s.executing b f, x y = x ((s.executing b f).headD t) := fun y hy =>
        BitVec.eq_of_toNat_eq (of_decide_eq_true (List.all_eq_true.1 h y hy))
      exact hne ((heach u hu).trans (heach w hw).symm)
    simp only [hm, if_true, hdiffer]
  · rw [cvote_next_val (by omega) hi (v := fun t => (x t).toNat) fun t ht => by simp only [hm]; exact hword (hv t ht)]
    simp only [hm]
    simp [Thread.putWide, mostOf_word hex hmost]

/-- Settles O27: an exchange gives each member its function of the members' sources; the reductions are folds. -/
theorem crewWordsExchangeAcrossLanes : Obligations.CrewWordsExchangeAcrossLanes :=
  ⟨ballotAndShuffleReadTheOtherLanes, reductionsScansAndVotes, reduceOf_int, reduceOf_float, mostOf_first⟩

end Sys2Proof.Machine
end

section
/-! PROOFS. Operations: their issue, their count and where their results land (O16). -/

namespace Sys2Proof.Machine

/-! ## Counters -/

theorem Thread.dc_raiseDc (x : Thread) {c : Nat} (id : Nat) (hc : c < x.dcs.length) : (x.raiseDc c id).dc c = x.dc c + 1 := by
  simp [Thread.raiseDc, Thread.dc, hc]

@[simp] theorem Thread.raiseDc_regs (x : Thread) (c id : Nat) : (x.raiseDc c id).regs = x.regs := rfl
@[simp] theorem Thread.bar_regs (x : Thread) (b : Barrier) : (x.bar b).regs = x.regs := rfl
@[simp] theorem Thread.bar_dc (x : Thread) (b : Barrier) (c : Nat) : (x.bar b).dc c = x.dc c := rfl

/-- An operation of one thread is the next identifier's, counted on that thread's counter. -/
theorem State.addOp_of_counted {s : State} {o : Op} {c : Nat} (ho : o.ctr = some c) (hm : ∀ m, o.body ≠ .matrix m) :
    s.addOp o = (s.nextId, { s with nextId := s.nextId + 1, ops := s.ops.put s.nextId o }.modThread o.thread (·.raiseDc c s.nextId)) := by
  unfold State.addOp
  rw [ho]
  cases hb : o.body <;> simp_all

section
variable {s : State} {o : Op} {c : Nat}

theorem State.op?_addOp (ho : o.ctr = some c) (hm : ∀ m, o.body ≠ .matrix m) : (s.addOp o).2.op? s.nextId = some o := by
  rw [State.addOp_of_counted ho hm, State.modThread_eq, State.setThread_op?]
  exact Tab.get?_put_self ..

theorem State.thread_addOp (ho : o.ctr = some c) (hm : ∀ m, o.body ≠ .matrix m) :
    (s.addOp o).2.thread o.thread = (s.thread o.thread).raiseDc c s.nextId := by
  rw [State.addOp_of_counted ho hm, State.modThread_eq, State.thread_setThread]
  rfl
end

theorem Thread.lowerDc_behind (x : Thread) {c i j : Nat} {l : List (Nat × Bool)} (hc : c < x.dcs.length) (hij : i ≠ j)
    (h : x.dcs.getD c [] = (i, false) :: (j, false) :: l) :
    (x.lowerDc c j).dc c = x.dc c ∧ (x.lowerDc c i).dc c = ((j, false) :: l.map fun e => if e.1 = i then (i, true) else e).length := by
  simp only [Thread.lowerDc, Thread.dc, h, List.map_cons, hij, hij.symm, if_true, if_false, List.dropWhile_cons]
  constructor
  · simp [hc]
  · simp [hc]

/-! ## Where a result lands -/

theorem Thread.setReg_eq_setRegs (x : Thread) (n v : Nat) : x.setReg n (BitVec.ofNat 32 v) = x.setRegs n 1 v := by
  by_cases h : n = 255 <;> simp [Thread.setRegs, Thread.setReg, h]

theorem Thread.setPair_eq_setRegs (x : Thread) (n v : Nat) : x.setPair n (BitVec.ofNat 64 v) = x.setRegs n 2 v := by
  have hlow : (BitVec.ofNat 64 v).extractLsb' 0 32 = BitVec.ofNat 32 v := by
    apply BitVec.eq_of_toNat_eq; simp
  have hhigh : (BitVec.ofNat 64 v).extractLsb' 32 32 = BitVec.ofNat 32 (v / 2 ^ 32) := by
    apply BitVec.eq_of_toNat_eq; simp [Nat.shiftRight_eq_div_pow]; omega
  rw [Thread.setPair, Thread.setRegs, hlow, hhigh]
  simp [List.range_succ]

/-- The k registers from dst of a thread hold v, and no register of another thread, nor memory, has changed; the operation is over. -/
def State.Landed (s u : State) (id : Nat) (t : ThreadId) (dst k v : Nat) : Prop :=
  u.op? id = none ∧ u.mem = s.mem ∧ (∀ w, w ≠ t → (u.thread w).regs = (s.thread w).regs)
  ∧ (∀ i < k, dst + i < (s.thread t).regs.length → dst + i ≠ 255 → (u.thread t).reg (dst + i) = BitVec.ofNat 32 (v / 2 ^ (32 * i)))
  ∧ ∀ j, j < dst ∨ dst + k ≤ j → (u.thread t).reg j = (s.thread t).reg j

theorem Thread.reg_congr {x y : Thread} (h : x.regs = y.regs) (j : Nat) : x.reg j = y.reg j := by rw [Thread.reg, h]; rfl

@[simp] theorem Thread.setTaint_regs (x : Thread) (l k : List Nat) : (x.setTaint l k).regs = x.regs := by
  unfold Thread.setTaint; split <;> rfl

/-- A result is put into its registers, and then the operation ends. -/
theorem State.landed_of_endOp {s w : State} {id dst k v : Nat} {o : Op} {t : ThreadId} (ho : s.op? id = some o) (hc : ∀ c, o.body ≠ .copy c)
    (hdst : dst ≠ 255) (hops : w.ops = s.ops) (hmem : w.mem = s.mem) (hne : ∀ u, u ≠ t → (w.thread u).regs = (s.thread u).regs)
    (hregs : (w.thread t).regs = ((s.thread t).setRegs dst k v).regs) : s.Landed (w.endOp id) id t dst k v := by
  have hop : w.op? id = some o := by rw [State.op?, hops]; exact ho
  have h := w.endOp_same id o hop hc
  obtain ⟨h1, h2, -⟩ := Thread.setRegs_spec (s.thread t) dst v k hdst
  have hend : ((w.endOp id).thread t).regs = ((s.thread t).setRegs dst k v).regs := (h.regs t).trans hregs
  refine ⟨?_, h.mem.trans hmem, fun u hu => (h.regs u).trans (hne u hu), fun i hi hlt h255 => ?_, fun j hj => ?_⟩
  · rw [State.op?, h.ops]
    exact Tab.get?_del_self ..
  · rw [Thread.reg_congr hend]
    exact h1 i hi hlt h255
  · rw [Thread.reg_congr hend]
    exact h2 j hj

theorem State.thread_modThread (s : State) (t : ThreadId) (g : Thread → Thread) : (s.modThread t g).thread t = g (s.thread t) := by
  rw [State.modThread_eq, State.thread_setThread]

theorem State.thread_modThread_ne (s : State) {t u : ThreadId} (g : Thread → Thread) (h : u ≠ t) : (s.modThread t g).thread u = s.thread u := by
  rw [State.modThread_eq, State.thread_setThread_ne _ _ _ _ h]

theorem State.crossLink_storesAs (s : State) (d far : DieId) (out back : Nat) : (s.crossLink d far out back).StoresAs s :=
  .ite (.refl s) ((State.sendFlits_storesAs ..).trans (State.sendFlits_storesAs ..))

section
variable {s : State} {id v : Nat} {o : Op} (ho : s.op? id = some o) (hc : ∀ c, o.body ≠ .copy c)
include ho hc

theorem State.landed_land {a : Access} (know : List Nat) (hk : a.kind ≠ .store) (hd : a.dst ≠ 255) :
    s.Landed (s.land id o a v know) id o.thread a.dst ((a.size + 3) / 4) (a.landed v) := by
  refine State.landed_of_endOp ho hc hd rfl rfl (fun u hu => by rw [State.thread_modThread_ne _ _ hu]) ?_
  rw [State.thread_modThread]
  simp only [hk, if_false, Thread.setTaint_regs]

theorem State.landed_landObj {b : ObjOp} (hd : b.dst ≠ 255) : s.Landed (s.landObj id o b v) id o.thread b.dst (if b.wide then 2 else 1) v := by
  have hsame : (if b.code = .alloc || b.code = .locate && b.ctl = 1 then s else s.crossLink o.thread.cohort.toDie ⟨birthOf b.ptr, 0⟩ 1 1).StoresAs s :=
    .ite (.refl s) (s.crossLink_storesAs ..)
  unfold State.landObj
  refine State.landed_of_endOp ho hc hd hsame.ops hsame.mem (fun u hu => ?_) ?_
  · rw [State.thread_modThread_ne _ _ hu, hsame.thread]
  · rw [State.thread_modThread, hsame.thread]

theorem State.landed_landWin {w : WinOp} {wide : Bool} (hd : w.dst ≠ 255) :
    s.Landed (s.landWin id o w wide v) id o.thread w.dst (if wide then 2 else 1) v := by
  refine State.landed_of_endOp ho hc hd rfl rfl (fun u hu => by rw [State.thread_modThread_ne _ _ hu]) ?_
  rw [State.thread_modThread, Thread.setPair_eq_setRegs, Thread.setReg_eq_setRegs]
  cases wide <;> simp only [if_true, if_false, Bool.false_eq_true] <;> split <;> rfl

theorem State.landed_landLaunch {dst : Nat} (hd : dst ≠ 255) : s.Landed (s.landLaunch id o dst v) id o.thread dst 1 v := by
  refine State.landed_of_endOp ho hc hd rfl rfl (fun u hu => by rw [State.thread_modThread_ne _ _ hu]; rfl) ?_
  rw [State.thread_modThread, Thread.setReg_eq_setRegs]
  rfl

theorem State.landed_landPost {dst : Nat} (hd : dst ≠ 255) (hm : ∀ m ∈ s.msgs, m.2.op ≠ some id) :
    s.Landed (s.landPost id o none dst v) id o.thread dst 1 v := by
  have hnone : (s.msgs.any fun m => m.2.op = some id) = false := List.any_eq_false.2 fun m h => by simpa using hm m h
  unfold State.landPost State.closeOp
  dsimp only
  rw [if_neg (by
    rw [State.modThread_eq, State.setThread_msgs]
    exact Bool.not_eq_true _ ▸ hnone)]
  refine State.landed_of_endOp ho hc hd rfl rfl (fun u hu => by rw [State.thread_modThread_ne _ _ hu]; rfl) ?_
  rw [State.thread_modThread, Thread.setReg_eq_setRegs]
  rfl
end

/-! ## The issue of an access -/

theorem State.sendRequest_fst (s : State) (t : ThreadId) (p : DWord) :
    (s.sendRequest t p).1 = match (s.die t.cohort.toDie).guess p with | some h => .sent h false false | none => .wellhead := by
  unfold State.sendRequest
  cases (s.die t.cohort.toDie).guess p <;> rfl

theorem State.sendRequest_storesAs (s : State) (t : ThreadId) (p : DWord) : (s.sendRequest t p).2.StoresAs s := by
  unfold State.sendRequest
  split
  · exact State.setDie_storesAs ..
  · exact .refl s

/-- Where an access goes as it issues, and the state with what its die then knows. -/
def State.routed (s : State) (t : ThreadId) (p : DWord) : Phase × State := if isGlobal p then s.sendRequest t p else (.issued, s)

theorem State.routed_storesAs (s : State) (t : ThreadId) (p : DWord) : (s.routed t p).2.StoresAs s := by
  unfold State.routed
  split
  · exact s.sendRequest_storesAs t p
  · exact .refl s

/-- The operation that an access issues as. -/
def State.accessOp (s : State) (b : Bundle) (t : ThreadId) (c : Nat) (a : Access) : Op :=
  { (s.routed t a.ptr).2.newOp b t (some c) (.access a) with
    dst := (List.range (if a.kind = .store ∨ a.dst = 255 then 0 else (a.size + 3) / 4)).map (a.dst + ·), phase := (s.routed t a.ptr).1 }

theorem State.issueAccess_eq (s : State) (b : Bundle) (t : ThreadId) (c : Nat) (a : Access) : s.issueAccess b t c a =
    let w := ((s.routed t a.ptr).2.addOp (s.accessOp b t c a)).2
    if a.rel then w.modThread t (·.bar { level := a.scope, id := s.nextId + 1, know := (s.accessOp b t c a).know
                                         cond := if a.conditional then some s.nextId else none }) else w := by
  have hid : (s.routed t a.ptr).2.nextId = s.nextId := by
    obtain ⟨_, _, _, h⟩ := s.routed_storesAs t a.ptr
    rw [h]
  rw [← hid]
  rfl

theorem anAccessIssuesAsOneOperation (s : State) (b : Bundle) (t : ThreadId) (c : Nat) (a : Access) (hc : c < (s.thread t).dcs.length) :
    let u := s.issueAccess b t c a
    ∃ o, u.op? s.nextId = some o ∧ o.thread = t ∧ o.ctr = some c ∧ o.body = .access a
      ∧ o.dst = (if a.kind = .store ∨ a.dst = 255 then [] else (List.range ((a.size + 3) / 4)).map (a.dst + ·))
      ∧ (isGlobal a.ptr = false → o.phase = .issued)
      ∧ (isGlobal a.ptr = true → o.phase = match (s.die t.cohort.toDie).guess a.ptr with | some h => .sent h false false | none => .wellhead)
      ∧ (u.thread t).dc c = (s.thread t).dc c + 1 ∧ (u.thread t).regs = (s.thread t).regs ∧ u.mem = s.mem
      ∧ (a.rel = true → { level := a.scope, id := s.nextId + 1, know := o.know, cond := if a.conditional then some s.nextId else none } ∈ (u.thread t).barriers) := by
  obtain ⟨chips, dies, draws, hr⟩ := s.routed_storesAs t a.ptr
  have hctr : (s.accessOp b t c a).ctr = some c := rfl
  have hbody : ∀ m, (s.accessOp b t c a).body ≠ .matrix m := fun m h => by cases h
  have hop := State.op?_addOp (s := (s.routed t a.ptr).2) hctr hbody
  have hthread := State.thread_addOp (s := (s.routed t a.ptr).2) hctr hbody
  have hmem : ((s.routed t a.ptr).2.addOp (s.accessOp b t c a)).2.mem = s.mem := by
    rw [State.addOp_of_counted hctr hbody, State.modThread_eq, State.setThread_mem]
    exact (s.routed_storesAs t a.ptr).mem
  have hid : (s.routed t a.ptr).2.nextId = s.nextId := by rw [hr]
  have ht : (s.routed t a.ptr).2.thread t = s.thread t := (s.routed_storesAs t a.ptr).thread t
  rw [hid] at hop
  rw [show (s.accessOp b t c a).thread = t from rfl, ht, hid] at hthread
  refine ⟨s.accessOp b t c a, ?_, rfl, rfl, rfl, ?_, fun hg => ?_, fun hg => ?_, ?_, ?_, ?_, fun hrel => ?_⟩
  · rw [State.issueAccess_eq]
    dsimp only
    split
    · rw [State.modThread_eq, State.setThread_op?, hop]
    · exact hop
  · simp only [State.accessOp]
    split <;> rfl
  · simp [State.accessOp, State.routed, hg]
  · simp only [State.accessOp, State.routed, hg, if_true]
    exact s.sendRequest_fst t a.ptr
  · rw [State.issueAccess_eq]
    dsimp only
    split
    · rw [State.thread_modThread, Thread.bar_dc, hthread, Thread.dc_raiseDc _ _ hc]
    · rw [hthread, Thread.dc_raiseDc _ _ hc]
  · rw [State.issueAccess_eq]
    dsimp only
    split
    · rw [State.thread_modThread, Thread.bar_regs, hthread, Thread.raiseDc_regs]
    · rw [hthread, Thread.raiseDc_regs]
  · rw [State.issueAccess_eq]
    dsimp only
    split
    · rw [State.modThread_eq, State.setThread_mem, hmem]
    · exact hmem
  · rw [State.issueAccess_eq]
    dsimp only
    rw [if_pos hrel, State.thread_modThread]
    exact List.mem_cons_self

/-- Settles O16: an operation is put into the table and raised on its counter; a result is put into its registers as it leaves. -/
theorem operationsAreCountedInIssueOrder : Obligations.OperationsAreCountedInIssueOrder := by
  refine ⟨fun s o c ho hc hm => ?_, fun x c i j l hc hij h => x.lowerDc_behind hc hij h, anAccessIssuesAsOneOperation, fun s id v o ho hc =>
    ⟨fun a know hk hd => State.landed_land ho hc know hk hd, fun b hd => State.landed_landObj ho hc hd, fun w wide hd => State.landed_landWin ho hc hd,
      fun dst hd => State.landed_landLaunch ho hc hd, fun dst hd hm => State.landed_landPost ho hc hd hm⟩⟩
  refine ⟨by rw [State.addOp_of_counted ho hm], State.op?_addOp ho hm, ?_, by rw [State.addOp_of_counted ho hm]; rfl,
    by rw [State.addOp_of_counted ho hm]; rfl, ?_⟩
  · rw [State.thread_addOp ho hm, Thread.dc_raiseDc _ _ hc]
  · rw [State.thread_addOp ho hm, Thread.raiseDc_regs]

end Sys2Proof.Machine
end

section
/-! PROOFS. Loads and stores at issue (O17). -/

namespace Sys2Proof.Machine

/-! ## The words' bodies -/

theorem requestHold_of_room {s : State} {b : Bundle} {t : ThreadId} (p : ThreadId → Bool) (h : s.roomFor b t) : requestHold s b ([t].filter p) = none := by
  cases hp : p t
  · simp [hp, requestHold]
  · simp only [List.filter_cons, hp, List.filter_nil, if_true, requestHold, List.length_singleton]
    rw [h]
    rfl

theorem requestHold_of_nothing (s : State) {b : Bundle} {t : ThreadId} {p : ThreadId → Bool} (h : p t = false) : requestHold s b ([t].filter p) = none := by
  simp [h, requestHold]

section
variable {i : Instr} {f : Fields} {body : State → Bundle → ThreadId → State → Res} {p : State → Bundle → ThreadId → Prop} {r : State → Bundle → ThreadId → State}

/-- A word that takes a request's entry, whose body ends. -/
theorem does_of_request (h : ∀ s, exec i s = s.runThreads i requestHold body) (hq : ∀ s b t, p s b t → p s.quiet b t)
    (hroom : ∀ s b t, p s b t → s.roomFor b t) (hb : ∀ s b t, p s b t → body s b t s = .done (r s b t)) : Does i f p r :=
  does_of_settle h hq fun s b t hp => by
    rw [hb s b t hp]
    exact ⟨by simp, requestHold_of_room _ (hroom s b t hp), rfl⟩

/-- Such a word, whose body traps: it takes no entry. -/
theorem traps_of_request {kind : TrapKind} {cause : State → Bundle → ThreadId → Nat} {addr : State → Bundle → ThreadId → DWord}
    (h : ∀ s, exec i s = s.runThreads i requestHold body) (hq : ∀ s b t, p s b t → p s.quiet b t)
    (hb : ∀ s b t, p s b t → body s b t s = .trap kind (cause s b t) (addr s b t) 0) : Traps i f p kind cause addr :=
  does_of_settle h hq fun s b t hp => by
    have hgoes : (body s b t s).goes = false := by rw [hb s b t hp]; rfl
    exact ⟨by rw [hb s b t hp]; simp, requestHold_of_nothing s hgoes, by rw [hb s b t hp]; rfl⟩

/-- Such a word, whose body parks its thread at the word. -/
theorem parks_of_request {w : State → Bundle → ThreadId → ParkKind} (h : ∀ s, exec i s = s.runThreads i requestHold body)
    (hq : ∀ s b t, p s b t → p s.quiet b t) (hb : ∀ s b t, p s b t → body s b t s = .park s (w s b t) false) :
    Does i f p fun s b t => (s.leave t).modThread t fun x => { x with run := .parked (w s b t), word := b.word, inside := true } :=
  does_of_settle h hq fun s b t hp => by
    have hgoes : (body s b t s).goes = false := by rw [hb s b t hp]; rfl
    refine ⟨by rw [hb s b t hp]; simp, requestHold_of_nothing s hgoes, ?_⟩
    rw [hb s b t hp]
    rfl
end

/-! ## Pointers -/

theorem ptrFits_of {p : DWord} {d : Int} (h0 : 0 ≤ (offsetOf p : Int) + d) (h1 : (offsetOf p : Int) + d < 2 ^ 30) : ptrFits p d = true := by
  rw [ptrFits, decide_eq_true h0, decide_eq_true h1]; rfl

theorem pointAt_of_pointed {base p : DWord} {off : Int} {n : Nat} (h : pointed base off n p) : pointAt base off n = .ok p := by
  obtain ⟨rfl, h0, h1, ha⟩ := h
  simp only [pointAt, ptrFits_of h0 h1, Bool.not_true, Bool.false_eq_true, if_false, ha, ne_eq, not_true_eq_false]

theorem pointLocal_of_pointed {a : Word} {p : DWord} {off : Int} {n : Nat} (hr : a.toNat / 2 ^ 30 < 3) (h : pointed (localBase a) off n p) :
    pointLocal a off n = .ok p := by
  rw [pointLocal, if_neg (by omega), pointAt_of_pointed h]

theorem pointAt_of_outside {base : DWord} {off : Int} {n : Nat} (h : ¬ (0 ≤ (offsetOf base : Int) + off ∧ (offsetOf base : Int) + off < 2 ^ 30)) :
    pointAt base off n = .error (0x11, base) := by
  have hfit : ptrFits base off = false := by simpa [ptrFits] using h
  simp [pointAt, hfit]

theorem pointAt_of_misaligned {base : DWord} {off : Int} {n : Nat} (h0 : 0 ≤ (offsetOf base : Int) + off) (h1 : (offsetOf base : Int) + off < 2 ^ 30)
    (h : offsetOf (ptrAdd base off) % n ≠ 0) : pointAt base off n = .error (0x10, ptrAdd base off) := by
  simp [pointAt, ptrFits_of h0 h1, h]

theorem ptrAdd_zero (p : DWord) : ptrAdd p 0 = p := by
  have hp := p.isLt
  apply BitVec.eq_of_toNat_eq
  simp only [ptrAdd, mkPtr, birthOf, serialOf, offsetOf, BitVec.toNat_ofNat]
  omega

theorem pointAt_zero {p : DWord} {n : Nat} (h : offsetOf p % n = 0) : pointAt p 0 n = .ok p := by
  have hlt : offsetOf p < 2 ^ 30 := Nat.mod_lt _ (by decide)
  exact pointAt_of_pointed ⟨(ptrAdd_zero p).symm, by omega, by omega, h⟩

/-! ## The eight access words -/

/-- What one of the access words does once its pointer has passed the checks. -/
def State.accessGo (s : State) (b : Bundle) (t : ThreadId) (f : Fields) (store ordered : Bool) (p : DWord) : Res :=
  let n := sizeOf' (f.sb.toNat % 8)
  let scope := effScope (s.launchOf t.cohort).ladder (f.sb.toNat / 8 % 8)
  if store && birthOf p = 0xFFF && serialOf p = 2 then s.issueMmio b t p n ((s.thread t).data f.dst.toNat n) (if ordered then some scope else none)
  else .done (s.issueAccess b t (if store then 1 else 0)
    { kind := if store then .store else .load, ptr := p, size := n, sext := f.sb.toNat % 8 ≥ 5,
      data := if store then (s.thread t).data f.dst.toNat n else 0, acq := ordered && !store, rel := ordered && store,
      scope := if ordered then scope else 0, dst := if store then 255 else f.dst.toNat })

/-- The pointer that an access word's base and offset give, or its fault. -/
def Thread.accessPointer (x : Thread) (f : Fields) (wide : Bool) : Option (Except (Nat × DWord) DWord) :=
  if wide then (x.src64 f.sa).map fun p => pointAt p f.off (sizeOf' (f.sb.toNat % 8)) else (x.src32 f.sa).map fun a => pointLocal a f.off (sizeOf' (f.sb.toNat % 8))

/-- An access word's body, by its pointer. -/
def State.accessBody (f : Fields) (store ordered wide : Bool) (_ : State) (b : Bundle) (t : ThreadId) (s : State) : Res :=
  orTrap ((s.thread t).accessPointer f wide) fun r =>
  match r with
  | .error (c, p) => .trap .memoryFault c p 0
  | .ok p =>
    match s.issueCheck t p (sizeOf' (f.sb.toNat % 8)) with
    | some c => .trap .memoryFault c p 0
    | none =>
      match s.parkLine t p (sizeOf' (f.sb.toNat % 8)) with
      | some l => .park s (.presence l p) false
      | none => s.accessGo b t f store ordered p

theorem State.accessWord_eq (s : State) (i : Instr) (f : Fields) (store ordered wide : Bool) :
    s.accessWord i f store ordered wide = s.runThreads i requestHold (State.accessBody f store ordered wide) := rfl

section
variable {i : Instr} {f : Fields} {store ordered wide : Bool} {p : State → Bundle → ThreadId → Prop} {s : State} {b : Bundle} {t : ThreadId} {q : DWord}

theorem State.accessBody_of_admits (hp : (s.thread t).accessPointer f wide = some (.ok q)) (ha : s.admits t q (sizeOf' (f.sb.toNat % 8))) :
    State.accessBody f store ordered wide s b t s = s.accessGo b t f store ordered q := by
  simp only [State.accessBody, hp, orTrap, ha.1, ha.2]

theorem State.accessGo_load (ordered : Bool) : s.accessGo b t f false ordered q = .done (s.issueAccess b t 0
    { kind := .load, ptr := q, size := sizeOf' (f.sb.toNat % 8), sext := f.sb.toNat % 8 ≥ 5, acq := ordered
      scope := if ordered then effScope (s.launchOf t.cohort).ladder (f.sb.toNat / 8 % 8) else 0, dst := f.dst.toNat }) := by
  cases ordered <;> rfl

theorem State.accessGo_store (ordered : Bool) (h : ¬ (birthOf q = 0xFFF ∧ serialOf q = 2)) : s.accessGo b t f true ordered q = .done (s.issueAccess b t 1
    { kind := .store, ptr := q, size := sizeOf' (f.sb.toNat % 8), sext := f.sb.toNat % 8 ≥ 5, data := (s.thread t).data f.dst.toNat (sizeOf' (f.sb.toNat % 8))
      rel := ordered, scope := if ordered then effScope (s.launchOf t.cohort).ladder (f.sb.toNat / 8 % 8) else 0, dst := 255 }) := by
  have hc : (true && decide (birthOf q = 0xFFF) && decide (serialOf q = 2)) = false := by simpa using h
  simp only [State.accessGo, hc]
  cases ordered <;> rfl

/-- A store to a register of the MMIO page but KICK. -/
theorem State.accessGo_page (ordered : Bool) (h1 : birthOf q = 0xFFF) (h2 : serialOf q = 2) (h3 : offsetOf q ≠ 0) :
    s.accessGo b t f true ordered q =
      let scope := effScope (s.launchOf t.cohort).ladder (f.sb.toNat / 8 % 8)
      let n := sizeOf' (f.sb.toNat % 8)
      let o := s.newOp b t (some 1) (.mmio (offsetOf q) (BitVec.ofNat 64 ((s.thread t).data f.dst.toNat n)) n (if ordered then some scope else none))
      .done (if ordered then (s.addOp o).2.modThread t (·.bar { level := scope, id := s.nextId + 1, know := o.know }) else (s.addOp o).2) := by
  have hc : (true && decide (birthOf q = 0xFFF) && decide (serialOf q = 2)) = true := by simp [h1, h2]
  unfold State.accessGo
  dsimp only
  rw [if_pos hc, State.issueMmio, if_neg h3]
  cases ordered <;> rfl

/-- An access word whose pointer passes its checks, and that finds an entry. -/
theorem does_of_access {r : State → Bundle → ThreadId → State} (h : ∀ s, exec i s = s.accessWord i f store ordered wide) (q : DWord)
    (hq : ∀ s b t, p s b t → p s.quiet b t)
    (hp : ∀ s b t, p s b t → (s.thread t).accessPointer f wide = some (.ok q) ∧ s.admits t q (sizeOf' (f.sb.toNat % 8)) ∧ s.roomFor b t)
    (hb : ∀ s b t, p s b t → s.accessGo b t f store ordered q = .done (r s b t)) : Does i f p r :=
  does_of_request (fun s => (h s).trans (s.accessWord_eq ..)) hq (fun s b t h => (hp s b t h).2.2) fun s b t h =>
    (State.accessBody_of_admits (hp s b t h).1 (hp s b t h).2.1).trans (hb s b t h)
end

theorem Thread.accessPointer_wide {x : Thread} {f : Fields} {base p : DWord} (h : x.src64 f.sa = some base) (hp : pointed base f.off (sizeOf' (f.sb.toNat % 8)) p) :
    x.accessPointer f true = some (.ok p) := by
  simp only [Thread.accessPointer, if_true, h, Option.map_some, pointAt_of_pointed hp]

theorem Thread.accessPointer_near {x : Thread} {f : Fields} {a : Word} {p : DWord} (h : x.src32 f.sa = some a) (hr : a.toNat / 2 ^ 30 < 3)
    (hp : pointed (localBase a) f.off (sizeOf' (f.sb.toNat % 8)) p) : x.accessPointer f false = some (.ok p) := by
  simp only [Thread.accessPointer, if_false, Bool.false_eq_true, h, Option.map_some, pointLocal_of_pointed hr hp]

/-- The store of the clock's bytes at the pointer that TSTAMP's source gave, checked or refused. -/
def State.stampAt (s : State) (b : Bundle) (t : ThreadId) : Except (Nat × DWord) DWord → Res
  | .error (c, p) => .trap .memoryFault c p 0
  | .ok p =>
    match s.issueCheck t p 16 with
    | some c => .trap .memoryFault c p 0
    | none =>
      match s.parkLine t p 16 with
      | some l => .park s (.presence l p) false
      | none => (let v := ofBytesLE (timeBytes (s.ns t.cohort.chip))
          if birthOf p = 0xFFF && serialOf p = 2 then s.issueMmio b t p 16 v none
          else .done (s.issueAccess b t 1 { kind := .store, ptr := p, size := 16, data := v }))

/-- An admitted pointer outside the MMIO page: one store of 16 bytes. -/
theorem State.stampAt_ok {s : State} {b : Bundle} {t : ThreadId} {p : DWord} (hadm : s.admits t p 16) (hm : ¬ (birthOf p = 0xFFF ∧ serialOf p = 2)) :
   s.stampAt b t (.ok p) = .done (s.issueAccess b t 1 { kind := .store, ptr := p, size := 16, data := ofBytesLE (timeBytes (s.ns t.cohort.chip)) }) := by
  have hc : ¬ (decide (birthOf p = 0xFFF) && decide (serialOf p = 2)) = true := by simpa using hm
  unfold State.stampAt
  simp only [hadm.1, hadm.2]
  exact if_neg hc

/-- TSTAMP is that store. (The pointer is generalised before the cases: the kernel would compute with it.) -/
theorem execTstamp_eq (f : Fields) (s : State) : execTstamp f s = s.runThreads (.tstamp f) requestHold fun _ b t s =>
    orTrap ((s.thread t).src64 f.sa) fun p => s.stampAt b t (pointAt p 0 16) := by
  unfold execTstamp
  refine congrArg (s.runThreads (.tstamp f) requestHold) ?_
  funext _ b t s
  refine congrArg (orTrap _) ?_
  funext p
  generalize pointAt p 0 16 = x
  cases x with
  | error _ => rfl
  | ok p => rfl

theorem accessWordsIssueOneAccess : AccessWordsIssueOneAccess := by
  intro f base p a
  dsimp only
  refine ⟨?_, ?_, ?_, ?_, ?_, ?_, ?_, ?_, ?_, ?_, ?_, ?_, ?_⟩
  · exact does_of_access (fun _ => by rw [exec, execLdo]) p (fun _ _ _ h => h) (fun s b t ⟨h, hp, ha, hr⟩ => ⟨Thread.accessPointer_wide h hp, ha, hr⟩)
      fun s b t _ => State.accessGo_load false
  · exact does_of_access (fun _ => by rw [exec, execLdoAcq]) p (fun _ _ _ h => h) (fun s b t ⟨h, hp, ha, hr⟩ => ⟨Thread.accessPointer_wide h hp, ha, hr⟩)
      fun s b t _ => State.accessGo_load true
  · exact does_of_access (fun _ => by rw [exec, execSto]) p (fun _ _ _ h => h) (fun s b t ⟨⟨h, hp, ha, hr⟩, _⟩ => ⟨Thread.accessPointer_wide h hp, ha, hr⟩)
      fun s b t ⟨_, hm⟩ => State.accessGo_store false hm
  · exact does_of_access (fun _ => by rw [exec, execStoRel]) p (fun _ _ _ h => h) (fun s b t ⟨⟨h, hp, ha, hr⟩, _⟩ => ⟨Thread.accessPointer_wide h hp, ha, hr⟩)
      fun s b t ⟨_, hm⟩ => State.accessGo_store true hm
  · exact does_of_access (fun _ => by rw [exec, execLd]) p (fun _ _ _ h => h) (fun s b t ⟨h, h3, hp, ha, hr⟩ => ⟨Thread.accessPointer_near h h3 hp, ha, hr⟩)
      fun s b t _ => State.accessGo_load false
  · exact does_of_access (fun _ => by rw [exec, execLdAcq]) p (fun _ _ _ h => h) (fun s b t ⟨h, h3, hp, ha, hr⟩ => ⟨Thread.accessPointer_near h h3 hp, ha, hr⟩)
      fun s b t _ => State.accessGo_load true
  · exact does_of_access (fun _ => by rw [exec, execSt]) p (fun _ _ _ h => h) (fun s b t ⟨⟨h, h3, hp, ha, hr⟩, _⟩ => ⟨Thread.accessPointer_near h h3 hp, ha, hr⟩)
      fun s b t ⟨_, hm⟩ => State.accessGo_store false hm
  · exact does_of_access (fun _ => by rw [exec, execStRel]) p (fun _ _ _ h => h) (fun s b t ⟨⟨h, h3, hp, ha, hr⟩, _⟩ => ⟨Thread.accessPointer_near h h3 hp, ha, hr⟩)
      fun s b t ⟨_, hm⟩ => State.accessGo_store true hm
  · exact does_of_access (fun _ => by rw [exec, execSt]) p (fun _ _ _ h => h) (fun s b t ⟨⟨h, h3, hp, ha, hr⟩, _⟩ => ⟨Thread.accessPointer_near h h3 hp, ha, hr⟩)
      fun s b t ⟨_, h1, h2, h3⟩ => State.accessGo_page false h1 h2 h3
  · exact does_of_access (fun _ => by rw [exec, execSto]) p (fun _ _ _ h => h) (fun s b t ⟨⟨h, hp, ha, hr⟩, _⟩ => ⟨Thread.accessPointer_wide h hp, ha, hr⟩)
      fun s b t ⟨_, h1, h2, h3⟩ => State.accessGo_page false h1 h2 h3
  · exact does_of_access (fun _ => by rw [exec, execStRel]) p (fun _ _ _ h => h) (fun s b t ⟨⟨h, h3, hp, ha, hr⟩, _⟩ => ⟨Thread.accessPointer_near h h3 hp, ha, hr⟩)
      fun s b t ⟨_, h1, h2, h3⟩ => State.accessGo_page true h1 h2 h3
  · exact does_of_access (fun _ => by rw [exec, execStoRel]) p (fun _ _ _ h => h) (fun s b t ⟨⟨h, hp, ha, hr⟩, _⟩ => ⟨Thread.accessPointer_wide h hp, ha, hr⟩)
      fun s b t ⟨_, h1, h2, h3⟩ => State.accessGo_page true h1 h2 h3
  · refine does_of_request (fun _ => by rw [exec, execTstamp_eq]) (fun _ _ _ h => h) (fun s b t h => h.2.2.2.1) fun s b t ⟨h, ha, hadm, _, hm⟩ => ?_
    simp only [h, orTrap]
    rw [pointAt_zero ha, State.stampAt_ok hadm hm]

theorem accessWordsCheckTheirAddress : AccessWordsCheckTheirAddress := by
  intro f base p c l
  dsimp only
  have hexec : ∀ s, exec (.ldo f) s = s.runThreads (.ldo f) requestHold (State.accessBody f false false true) := fun s => by rw [exec, execLdo, State.accessWord_eq]
  have hstore : ∀ s, exec (.sto f) s = s.runThreads (.sto f) requestHold (State.accessBody f true false true) := fun s => by rw [exec, execSto, State.accessWord_eq]
  refine ⟨?_, ?_, ?_, ?_⟩
  · refine traps_of_request hexec (fun _ _ _ h => h) fun s b t ⟨h, hout⟩ => ?_
    simp only [State.accessBody, Thread.accessPointer, if_true, h, Option.map_some, pointAt_of_outside hout, orTrap]
  · refine traps_of_request hstore (fun _ _ _ h => h) fun s b t ⟨h, h0, h1, hp, ha⟩ => ?_
    rw [hp] at ha
    simp only [State.accessBody, Thread.accessPointer, if_true, h, Option.map_some, pointAt_of_misaligned h0 h1 ha, orTrap, hp]
  · refine traps_of_request hexec (fun _ _ _ h => h) fun s b t ⟨h, hp, hc⟩ => ?_
    simp only [State.accessBody, Thread.accessPointer_wide h hp, hc, orTrap]
  · refine parks_of_request (w := fun _ _ _ => .presence l p) hexec (fun _ _ _ h => h) fun s b t ⟨h, hp, hc, hl⟩ => ?_
    simp only [State.accessBody, Thread.accessPointer_wide h hp, hc, hl, orTrap]

/-- Settles O17: one body serves the eight access words; each check that fails ends it. -/
theorem accessWordsIssueOneAccessOrTrap : Obligations.AccessWordsIssueOneAccessOrTrap :=
  ⟨accessWordsIssueOneAccess, accessWordsCheckTheirAddress⟩

end Sys2Proof.Machine
end

section
/-! PROOFS. What an access changes where it takes effect: at the holder of an object (O18), and in chip-local memory (O57). -/

namespace Sys2Proof.Machine

/-! ## The bytes of the global space -/

/-- From a canonical memory, u is canonical too and holds the same bytes of the global space (R169). -/
structure State.SameSpace (s u : State) : Prop where
  wf : Memory.wf s.mem = true → Memory.wf u.mem = true
  byte : Memory.wf s.mem = true → ∀ x : Nat, x < 2 ^ 64 → u.byte x = s.byte x

namespace State.SameSpace
variable {s u w : State}

theorem of_mem (h : u.mem = s.mem) : s.SameSpace u := ⟨fun hw => h ▸ hw, fun _ _ _ => by rw [State.byte, h, State.byte]⟩

theorem trans (h : s.SameSpace u) (g : u.SameSpace w) : s.SameSpace w :=
  ⟨fun hw => g.wf (h.wf hw), fun hw x hx => (g.byte (h.wf hw) x hx).trans (h.byte hw x hx)⟩

theorem foldl {α : Type} (l : List α) (g : State → α → State) (h : ∀ (s : State) a, s.SameSpace (g s a)) (s : State) : s.SameSpace (l.foldl g s) := by
  induction l generalizing s with
  | nil => exact of_mem rfl
  | cons a l ih => exact (h s a).trans (ih _)

end State.SameSpace

variable (s : State)

theorem State.hostWrite_sameSpace (c a : Nat) (bs : List Byte) : s.SameSpace (s.hostWrite c a bs) :=
  ⟨fun hw => Memory.wf_writeBytes _ _ _ hw, fun hw x hx => Memory.read_writeBytes_out _ _ _ _ hw (.inl (by unfold hostAt; omega))⟩

theorem State.dirtyEntry_sameSpace (c v e : Nat) : s.SameSpace (s.dirtyEntry c v e) := by
  unfold State.dirtyEntry
  dsimp only
  split
  · exact .of_mem (State.setVf_mem ..)
  · exact (s.hostWrite_sameSpace ..).trans (.of_mem (State.setVf_mem ..))

theorem State.dirtyPage_sameSpace (k : Nat × Nat) (page : Nat) : s.SameSpace (s.dirtyPage k page) := by
  unfold State.dirtyPage
  dsimp only
  split
  · exact .of_mem rfl
  · split
    · exact .of_mem rfl
    · split
      · exact (s.dirtyEntry_sameSpace ..).trans (.of_mem (State.setObj_mem ..))
      · exact .of_mem rfl

/-- The dirty log lies in host memory: marking pages dirty changes no byte of the global space (R403). -/
theorem State.dirtyRange_sameSpace (p : DWord) (n : Nat) : s.SameSpace (s.dirtyRange p n) := by
  unfold State.dirtyRange
  split
  · exact .foldl _ _ (fun u _ => u.dirtyPage_sameSpace ..) s
  · exact .of_mem rfl

/-! ## Where an access takes effect -/

variable {s}

theorem State.StoresAs.lags {u : State} (h : u.StoresAs s) : u.lags = s.lags := by
  obtain ⟨_, _, _, rfl⟩ := h
  rfl

theorem State.storeKeep_mem (s : State) (a : Nat) (bs : List Byte) : (s.storeKeep a bs).mem = Memory.writeBytes s.mem a bs := State.l2Use_mem ..

theorem State.store_mem (s : State) (a : Nat) (bs : List Byte) : (s.store a bs).mem = Memory.writeBytes s.mem a bs := (State.store_same ..).mem

theorem State.place_mem (s : State) (id : Nat) (o : Op) (a : Access) (addr : Nat) (k : List Nat) :
    (s.place id o a addr k).mem = Memory.writeBytes s.mem addr (bytesLE a.size a.data) := by
  unfold State.place
  dsimp only
  split
  · rw [State.storeKeep_mem, State.exposeTo_mem]
  · exact State.store_mem ..

/-- A store writes its bytes at its place, after its pages are marked dirty. -/
theorem State.effect_store (s : State) (id : Nat) (o : Op) (a : Access) (addr : Nat) (h : a.kind = .store) :
    (s.effect id o a addr).2.2.mem = Memory.writeBytes (s.dirtyRange a.ptr a.size).mem addr (bytesLE a.size a.data) := by
  simp only [State.effect, h, State.written_mem, State.place_mem]

theorem State.unseen_exposeTo {d : DieId} {ids : List Nat} {a n : Nat} (h : s.unseen d a n = []) : (s.exposeTo d ids).unseen d a n = [] := by
  unfold State.exposeTo
  split
  · exact h
  · unfold State.unseen at h ⊢
    rw [List.filter_eq_nil_iff] at h ⊢
    intro l hl
    obtain ⟨l, hm, rfl⟩ := List.mem_map.1 hl
    have hl := h l hm
    split <;> simp_all

/-- A load that sees every write reads the bytes of memory, and changes none. -/
theorem State.effect_load (id : Nat) (o : Op) (a : Access) (addr : Nat) (h : a.kind = .load) (hu : s.unseen o.thread.cohort.toDie addr a.size = []) :
    (s.effect id o a addr).1 = Memory.readNat s.mem addr a.size ∧ (s.effect id o a addr).2.2.mem = s.mem := by
  simp only [State.effect, h]
  refine ⟨?_, ?_⟩
  · rw [State.viewBytes, State.unseen_exposeTo hu, List.foldl_nil, State.loadBytes, State.exposeTo_mem, Memory.readNat]
  · rw [apply_ite State.mem, State.modThread_mem, ite_self, State.exposeTo_mem]

/-- What settling a barrier leaves alone. -/
theorem State.settleBarrier_objects (s : State) (t : ThreadId) (id : Nat) (wrote : Bool) : (s.settleBarrier t id wrote).objects = s.objects := by
  unfold State.settleBarrier
  split <;> rfl

theorem State.dirtyRange_of_free {p : DWord} {n : Nat} (h : s.obj? p = none) : s.dirtyRange p n = s := by
  rw [State.dirtyRange, h]
  rfl

/-- The writing branch of an atomic: its page marks leave the global space as it was, and no object means no marks. -/
theorem State.settled_sameSpace {u : State} (hm : u.mem = s.mem) (ho : u.objects = s.objects) (t : ThreadId) (id : Nat) (p : DWord) (n : Nat) :
    s.SameSpace ((u.settleBarrier t id true).dirtyRange p n) ∧ (s.obj? p = none → ((u.settleBarrier t id true).dirtyRange p n).mem = s.mem) := by
  have hmem : (u.settleBarrier t id true).mem = s.mem := (State.settleBarrier_mem ..).trans hm
  refine ⟨.trans (.of_mem hmem) (State.dirtyRange_sameSpace ..), fun h => ?_⟩
  rw [State.dirtyRange_of_free, hmem]
  rwa [State.obj?, State.settleBarrier_objects, ho]

/-- An atomic answers with the old value, and writes what its operation makes of it. -/
theorem State.effect_atomic (s : State) (id : Nat) (o : Op) (a : Access) (addr : Nat) (h : a.kind = .atomic) :
    (s.effect id o a addr).1 = Memory.readNat s.mem addr a.size
    ∧ (atomOf a.code a.t a.size (Memory.readNat s.mem addr a.size) a.data a.cmp = none → (s.effect id o a addr).2.2.mem = s.mem)
    ∧ (∀ v, atomOf a.code a.t a.size (Memory.readNat s.mem addr a.size) a.data a.cmp = some v →
        ∃ u, s.SameSpace u ∧ (s.obj? a.ptr = none → u.mem = s.mem) ∧ (s.effect id o a addr).2.2.mem = Memory.writeBytes u.mem addr (bytesLE a.size v)) := by
  have hold : (s.expose [] [(addr, a.size)]).loadNat addr a.size = Memory.readNat s.mem addr a.size := by
    rw [State.loadNat, (s.expose_same ..).mem]
  have hobj : (s.expose [] [(addr, a.size)]).objects = s.objects := by
    unfold State.expose
    split <;> rfl
  have hnote : ∀ {c : Prop} {_ : Decidable c} {f : Thread → Thread},
      (if c then s.expose [] [(addr, a.size)] else (s.expose [] [(addr, a.size)]).modThread o.thread f).mem = s.mem
      ∧ (if c then s.expose [] [(addr, a.size)] else (s.expose [] [(addr, a.size)]).modThread o.thread f).objects = s.objects := fun {_ _ _} => by
    split <;> exact ⟨(s.expose_same ..).mem, hobj⟩
  simp only [State.effect, h, hold]
  cases hw : atomOf a.code a.t a.size (Memory.readNat s.mem addr a.size) a.data a.cmp with
  | none => exact ⟨rfl, fun _ => (State.settleBarrier_mem ..).trans (hnote).1, nofun⟩
  | some v =>
    refine ⟨rfl, nofun, fun v' hv => ?_⟩
    cases hv
    obtain ⟨hs, hn⟩ := State.settled_sameSpace (hnote).1 (hnote).2 o.thread id a.ptr a.size
    exact ⟨_, hs, hn, by rw [State.written_mem, State.storeKeep_mem]⟩

/-! ## At the holder -/

theorem bytesLE_getD (n v i : Nat) (h : i < n) : (bytesLE n v).getD i 0 = BitVec.ofNat 8 (v / 2 ^ (8 * i)) := by
  induction n generalizing v i with
  | zero => omega
  | succ n ih =>
    cases i with
    | zero => simp [bytesLE]
    | succ i =>
      have h256 : v / 2 ^ (8 * (i + 1)) = v / 256 / 2 ^ (8 * i) := by
        rw [Nat.div_div_eq_div_mul, show 8 * (i + 1) = 8 + 8 * i by omega, Nat.pow_add]
      rw [bytesLE, List.getD_cons_succ, ih _ _ (by omega), h256]

/-- What a write of a number's bytes leaves at an address (R5). -/
theorem Memory.read_writeBytes_bytesLE {m : List Host.Cell} (hw : Memory.wf m = true) (p n v x : Nat) :
    Memory.read (Memory.writeBytes m p (bytesLE n v)) x = if p ≤ x ∧ x < p + n then BitVec.ofNat 8 (v / 2 ^ (8 * (x - p))) else Memory.read m x := by
  split
  · next h =>
    have := Memory.read_writeBytes m p (x - p) (bytesLE n v) hw (by rw [bytesLE_length]; omega)
    rwa [show p + (x - p) = x by omega, bytesLE_getD _ _ _ (by omega)] at this
  · next h => exact Memory.read_writeBytes_out _ _ _ _ hw (by rw [bytesLE_length]; omega)

/-- An access whose line does not fail is performed: what it leaves is its effect's, and its answer the value it read. -/
theorem State.perform_of_sound {s : State} {id addr chip : Nat} {o : Op} {a : Access}
    (hs : a.kind = .store → s.writeFails addr a.size = false) (hr : a.kind ≠ .store → s.readFails addr a.size = false) :
    s.perform id o a addr chip = ((s.l2Use addr a.size false).effect id o a addr).2.2.answer id o
      (.served chip ((s.l2Use addr a.size false).effect id o a addr).1 ((s.l2Use addr a.size false).effect id o a addr).2.1) := by
  rw [State.perform]
  refine if_neg ?_
  cases hk : a.kind
  · simp [hr (by simp [hk])]
  · simp [hs hk]
  · simp [hr (by simp [hk])]

/-- What reaches the holder: the holder's count of the access, and its flits over the links (R12, R184). -/
def State.arrives (s : State) (o : Op) (a : Access) : State :=
  let counted := s.affinity a.ptr a.size o.thread.cohort.chip
  if o.device.isSome then counted else counted.linkFlits o.thread.cohort.toDie a.ptr a.size (a.kind ≠ .load)

theorem State.affinity_arrives (s : State) (p : DWord) (n chip : Nat) :
    ∃ objects, s.affinity p n chip = { s with objects := objects } ∧ ∀ q, (Tab.get? objects (keyOf q)).isSome = (s.obj? q).isSome := by
  unfold State.affinity
  split
  · exact ⟨_, rfl, fun _ => rfl⟩
  · next b hb =>
    refine ⟨_, rfl, fun q => ?_⟩
    by_cases hk : keyOf q = keyOf p
    · rw [hk, Tab.get?_put_self, State.obj?, hk, ← State.obj?, hb]
      rfl
    · rw [Tab.get?_put_ne _ _ _ _ hk, State.obj?]

theorem State.arrives_keeps (s : State) (o : Op) (a : Access) : (s.arrives o a).mem = s.mem ∧ (s.arrives o a).lags = s.lags := by
  obtain ⟨objects, hobj, _⟩ := s.affinity_arrives a.ptr a.size o.thread.cohort.chip
  unfold State.arrives
  rw [hobj]
  dsimp only
  split
  · exact ⟨rfl, rfl⟩
  · exact ⟨(State.linkFlits_storesAs ..).mem, (State.linkFlits_storesAs ..).lags⟩

/-- A line pinned on the way changes pins and edges alone. -/
theorem State.repinned (c : Prop) [Decidable c] (s : State) (pins) (syncs) :
    ∃ pins' syncs', (if c then { s with pins := pins, syncs := syncs } else s) = { s with pins := pins', syncs := syncs' } := by
  split
  · exact ⟨pins, syncs, rfl⟩
  · exact ⟨s.pins, s.syncs, rfl⟩

/-- Serving an access whose line no other cohort pins: it is performed, and at most pins its line. -/
theorem State.serve_of_free {s : State} {id h : Nat} {o : Op} {a : Access} (hp : s.pinnedAway o.thread (a.ptr.toNat / 128) = false) :
    ∃ pins syncs, s.serve id o a h = { (s.arrives o a).perform id o a a.ptr.toNat h with pins := pins, syncs := syncs } := by
  unfold State.serve
  dsimp only
  rw [if_neg (by simp [hp])]
  exact State.repinned _ _ _ _

section
variable {id h : Nat} {o : Op} {a : Access} (hp : s.pinnedAway o.thread (a.ptr.toNat / 128) = false)
    (hs : a.kind = .store → (s.arrives o a).writeFails a.ptr.toNat a.size = false) (hr : a.kind ≠ .store → (s.arrives o a).readFails a.ptr.toNat a.size = false)
include hp hs hr

/-- An access served at its holder: the effect there, on the same memory, and the answer that it gave. -/
theorem State.serve_of_sound : ∃ u : State, u.mem = s.mem ∧ u.lags = s.lags
    ∧ (s.serve id o a h).mem = (u.effect id o a a.ptr.toNat).2.2.mem
    ∧ (s.serve id o a h).op? id = some { o with phase := .answered (.served h (u.effect id o a a.ptr.toNat).1 (u.effect id o a a.ptr.toNat).2.1), held := none } := by
  obtain ⟨pins, syncs, he⟩ := State.serve_of_free (id := id) (h := h) hp
  have hl2 := State.l2Use_storesAs (s := s.arrives o a) a.ptr.toNat a.size false
  obtain ⟨hm, hl⟩ := s.arrives_keeps o a
  refine ⟨_, hl2.mem.trans hm, hl2.lags.trans hl, ?_, ?_⟩
  · rw [he, State.perform_of_sound hs hr]
    rfl
  · rw [he, State.perform_of_sound hs hr]
    exact State.op?_setOp ..

end

/-- Settles O18: what reaches the holder holds the same memory, and the effect there writes the bytes. -/
theorem theHolderServesExactlyTheBytes : Obligations.TheHolderServesExactlyTheBytes := by
  intro s id h o a hcan _ _ hpin _
  dsimp only
  refine ⟨fun hk hf x hx => ?_, fun hk hf hu => ?_, fun hk hf => ?_⟩
  · obtain ⟨u, hm, _, hmem, _⟩ := State.serve_of_sound (id := id) (h := h) hpin (fun _ => hf) (fun hn => absurd hk hn)
    have hd := u.dirtyRange_sameSpace a.ptr a.size
    have hw : Memory.wf u.mem = true := hm ▸ hcan
    rw [State.byte, hmem, State.effect_store _ _ _ _ _ hk, Memory.read_writeBytes_bytesLE (hd.wf hw)]
    refine if_congr Iff.rfl rfl ?_
    rw [← State.byte, hd.byte hw x hx, State.byte, hm, State.byte]
  · obtain ⟨u, hm, hl, hmem, hop⟩ := State.serve_of_sound (id := id) (h := h) hpin (fun hs => absurd hs (by simp [hk])) (fun _ => hf)
    obtain ⟨hv, hmem'⟩ := State.effect_load (s := u) id o a a.ptr.toNat hk (by rw [State.unseen, hl]; exact hu)
    exact ⟨hmem.trans (hmem'.trans hm), _, by rw [hop, hv, hm]⟩
  · obtain ⟨u, hm, _, hmem, hop⟩ := State.serve_of_sound (id := id) (h := h) hpin (fun hs => absurd hs (by simp [hk])) (fun _ => hf)
    obtain ⟨hv, hnone, hsome⟩ := u.effect_atomic id o a a.ptr.toNat hk
    rw [hm] at hv hnone hsome
    refine ⟨fun x hx => ?_, _, by rw [hop, hv]⟩
    cases ha : atomOf a.code a.t a.size (Memory.readNat s.mem a.ptr.toNat a.size) a.data a.cmp with
    | none => rw [State.byte, hmem, hnone ha, State.byte]
    | some v =>
      obtain ⟨w, hw, _, hmem'⟩ := hsome v ha
      have hwf : Memory.wf u.mem = true := hm ▸ hcan
      rw [State.byte, hmem, hmem', Memory.read_writeBytes_bytesLE (hw.wf hwf)]
      refine if_congr Iff.rfl rfl ?_
      rw [← State.byte, hw.byte hwf x hx, State.byte, hm, State.byte]


/-! ## A device's store to a thread's own memory -/

/-- A store of one byte by the device itself, to a pointer of a thread's own memory. -/
def deviceStore : Op :=
  { ctr := some 1, device := some { chip := 0, vf := 0 }, body := .access { kind := .store, ptr := mkPtr 0xFFF 0 0, size := 1, data := 1 } }

/-- A machine whose only operation is that store, under a grid whose threads have memory of their own. -/
def deviceStoring : State := ({ State.reset with ops := [(1, deviceStore)] } : State).setGrid 0 0 { launch := { priv' := 1 } }

/-- The store ends with a fault, and its byte stays zero. -/
theorem deviceStoring_result : ∃ t, exec (.storeCompletion 1) deviceStoring = .next t ∧ t.byte (privateAt default 0) = 0 := ⟨_, rfl, by decide⟩

/-- Refutes O57: its frame clause does not ask that a thread issued the access. A store of the device itself does not reach a thread's own
memory, so the byte that the clause promises is not written. -/
theorem not_localAccessesPerformAtTheirPlace : ¬ Obligations.LocalAccessesPerformAtTheirPlace := by
  rintro ⟨-, h⟩
  obtain ⟨t, ht, hb⟩ := deviceStoring_result
  obtain ⟨-, hstore⟩ := h deviceStoring 1 (privateAt default 0) deviceStore { kind := .store, ptr := mkPtr 0xFFF 0 0, size := 1, data := 1 }
    rfl (by decide) rfl rfl (by decide) (by decide) (by decide) (by decide) (by decide) (by decide)
  have := (hstore rfl rfl (by decide) t ht).2 (privateAt default 0) (Nat.le_refl _) (Nat.lt_succ_self _)
  rw [hb] at this
  exact absurd this (by decide)

end Sys2Proof.Machine
end

section
/-! PROOFS. Atomics (O20). -/

namespace Sys2Proof.Machine

/-! ## The words -/

/-- One body serves every atomic but ATOM.TADD. -/
theorem does_of_atomWord {i : Instr} {f : Fields} {code v e : Nat} {p : DWord} (h : ∀ s, exec i s = s.atomWord i f code) (hc : code ≠ 0xBB) :
    let n := if code = 0xBA then 16 else if f.ctl / 32 % 2 = 1 then 8 else 4
    Does i f
      (fun s b t => s.a64 b t f = some p ∧ (s.thread t).operand code f n = some (v, e) ∧ s.atomCheck t p n = none ∧ s.parkLine t p n = none ∧ s.roomFor b t)
      (fun s b t =>
        let order := f.ctl / 8 % 4
        s.issueAccess b t (if f.dst = 255 then 1 else 0)
          { kind := .atomic, ptr := p, size := n, code := code, t := f.ctl / 64 % 2 = 1, data := v, cmp := e, dst := f.dst.toNat
            acq := order = 1 || order = 3, rel := order = 2 || order = 3
            scope := if order = 0 then 0 else effScope (s.launchOf t.cohort).ladder (f.ctl % 8) }) := by
  intro n
  have hn : atomSize code f.ctl = n := by simp only [atomSize, n, if_neg hc]
  refine does_of_request h (fun _ _ _ h => h) (fun s b t h => h.2.2.2.2) fun s b t ⟨ha, ho, hk, hl, _⟩ => ?_
  rw [hn]
  simp only [ha, ho, hk, hl, orTrap]
  rfl

/-- What holds ATOM.TADD: a full request buffer, or an access of the thread to its source that is still to take effect. -/
def taddHold (f : Fields) (s : State) (b : Bundle) (ts : List ThreadId) : Option Nat :=
  match requestHold s b ts with
  | some p => some p
  | none => if ts.any (fun t => match s.taddSource t ((s.thread t).reg f.sb.toNat) with
      | .ok q => s.ownPending t q 128
      | .error _ => false) then some 0 else none

theorem taddHold_of_free {f : Fields} {s : State} {b : Bundle} {t : ThreadId} {q : DWord} (p : ThreadId → Bool) (hr : s.roomFor b t)
    (hq : s.taddSource t ((s.thread t).reg f.sb.toNat) = .ok q) (ho : s.ownPending t q 128 = false) : taddHold f s b ([t].filter p) = none := by
  rw [taddHold, requestHold_of_room p hr]
  have hany : (([t].filter p).any fun t => match s.taddSource t ((s.thread t).reg f.sb.toNat) with | .ok q => s.ownPending t q 128 | .error _ => false) = false := by
    rw [List.any_eq_false]
    intro u hu
    rw [List.mem_singleton.1 (List.mem_of_mem_filter hu), hq]
    simp [ho]
  exact if_neg (by rw [hany]; exact Bool.false_ne_true)

theorem State.quiet_reach (s : State) (t : ThreadId) (p : DWord) (n : Nat) (wr : Bool) : s.quiet.reach t p n wr = s.reach t p n wr := by
  unfold State.reach State.reachFor
  simp only [s.quiet_readsAs.reachGlobal]
  rfl

/-- ATOM.TADD: its operand is read from chip-local memory as it issues, and what was read from stays with its thread. -/
theorem does_of_atomTadd {f : Fields} {p q : DWord} {addr : Nat} : Does (.atomTadd f) f
    (fun s b t => s.a64 b t f = some p ∧ s.atomCheck t p 128 = none ∧ s.taddSource t ((s.thread t).reg f.sb.toNat) = .ok q ∧ s.ownPending t q 128 = false
      ∧ s.parkLine t p 128 = none ∧ s.parkLine t q 128 = none ∧ s.reach t q 128 false = .place addr ∧ s.readFails addr 128 = false ∧ s.roomFor b t)
    (fun s b t =>
      let order := f.ctl / 8 % 4
      (s.issueAccess b t 1
        { kind := .atomic, ptr := p, size := 128, code := 0xBB, t := f.ctl / 64 % 2 = 1, data := Memory.readNat s.mem addr 128
          acq := order = 1 || order = 3, rel := order = 2 || order = 3
          scope := if order = 0 then 0 else effScope (s.launchOf t.cohort).ladder (f.ctl % 8) }).modThread t fun x =>
        { x with seen := x.seen ++ ((s.viewSyncs t.cohort.toDie addr 128).filter fun r => r.know ≠ []).map (s.nextId, ·) }) := by
  refine does_of_settle (hold := taddHold f) (fun s => by rw [exec, execAtomTadd]; rfl)
    (fun s b t ⟨ha, hk, hq, ho, hlp, hlq, hreach, hf, hroom⟩ =>
      ⟨ha, hk, hq, ho, hlp, hlq, (s.quiet_reach ..).trans hreach, (s.quiet_readsAs.readFails ..).trans hf, hroom⟩)
    fun s b t ⟨ha, hk, hq, ho, hlp, hlq, hreach, hf, hroom⟩ => ?_
  simp only [ha, hk, hq, hlp, hlq, hreach, hf, orTrap, Bool.false_eq_true, if_false]
  exact ⟨by simp, taddHold_of_free _ hroom hq ho, rfl⟩

theorem atomicWordsIssueOneAccess : AtomicWordsIssueOneAccess := by
  intro f p v e
  dsimp only
  refine ⟨?_, ?_, ?_, ?_, ?_, ?_, ?_, ?_, ?_, ?_, ?_, fun q addr => does_of_atomTadd⟩
  · exact does_of_atomWord (fun s => by rw [exec, execAtomAdd]) (by decide)
  · exact does_of_atomWord (fun s => by rw [exec, execAtomMin]) (by decide)
  · exact does_of_atomWord (fun s => by rw [exec, execAtomMax]) (by decide)
  · exact does_of_atomWord (fun s => by rw [exec, execAtomAnd]) (by decide)
  · exact does_of_atomWord (fun s => by rw [exec, execAtomOr]) (by decide)
  · exact does_of_atomWord (fun s => by rw [exec, execAtomXor]) (by decide)
  · exact does_of_atomWord (fun s => by rw [exec, execAtomXchg]) (by decide)
  · exact does_of_atomWord (fun s => by rw [exec, execAtomCas]) (by decide)
  · exact does_of_atomWord (fun s => by rw [exec, execAtomIncb]) (by decide)
  · exact does_of_atomWord (fun s => by rw [exec, execAtomDecb]) (by decide)
  · exact does_of_atomWord (fun s => by rw [exec, execAtomWcas]) (by decide)

/-! ## What an atomic writes -/

/-- An FP32 result has 32 bits. -/
theorem roundPos_lt {mode r : Nat} {sat neg : Bool} {v : PosReal} : roundPos 0 mode sat neg v r < 2 ^ 32 := by
  have hsign : signBit 0 neg ≤ 2 ^ 31 := by cases neg <;> simp [signBit, fmtBits]
  have hover : overflowOf 0 mode sat neg ≤ signBit 0 neg + 0x7F800000 := by
    unfold overflowOf
    simp only [maxCode, infCode, expBits, fracBits, show (0 = 3) = False by decide, if_false]
    split
    · omega
    · split
      · omega
      · split <;> omega
      · split <;> omega
      · omega
  simp only [roundPos]
  generalize (if chooseHi _ _ _ _ = true then _ else _) = code
  split
  · omega
  · next h => simp only [maxCode] at h; omega

theorem deliver_lt {mode r : Nat} {sat : Bool} {v : Val} : deliver 0 mode sat v r < 2 ^ 32 := by
  have hsign : ∀ neg, signBit 0 neg ≤ 2 ^ 31 := fun neg => by cases neg <;> simp [signBit, fmtBits]
  cases v with
  | nan => simp [deliver, nanOf]
  | inf neg =>
    have := hsign neg
    simp only [deliver, maxCode, infCode, expBits, fracBits]
    split <;> omega
  | fin neg m e =>
    have := hsign neg
    simp only [deliver, roundFin]
    split
    · simp only [Nat.zero_lt_succ, if_true]
      omega
    · exact roundPos_lt

/-- The number whose 32-bit parts, lowest first, are those of d. -/
def partsOf (d : Nat → Nat) (n : Nat) : Nat := ((List.range n).map fun j => d j * 2 ^ (32 * j)).foldl (· + ·) 0

theorem partsOf_succ (d : Nat → Nat) (n : Nat) : partsOf d (n + 1) = partsOf d n + d n * 2 ^ (32 * n) := by
  simp only [partsOf, List.range_succ, List.map_append, List.foldl_append, List.map_cons, List.map_nil, List.foldl_cons, List.foldl_nil]

theorem partsOf_lt {d : Nat → Nat} (hd : ∀ j, d j < 2 ^ 32) (n : Nat) : partsOf d n < 2 ^ (32 * n) := by
  induction n with
  | zero => simp [partsOf]
  | succ n ih =>
    rw [partsOf_succ, show 32 * (n + 1) = 32 + 32 * n by omega, Nat.pow_add]
    have : (d n + 1) * 2 ^ (32 * n) ≤ 2 ^ 32 * 2 ^ (32 * n) := Nat.mul_le_mul_right _ (hd n)
    rw [Nat.add_mul, Nat.one_mul] at this
    omega

theorem partsOf_part {d : Nat → Nat} (hd : ∀ j, d j < 2 ^ 32) {n j : Nat} (h : j < n) : partsOf d n / 2 ^ (32 * j) % 2 ^ 32 = d j := by
  induction n with
  | zero => omega
  | succ n ih =>
    rw [partsOf_succ]
    rcases Nat.lt_succ_iff_lt_or_eq.1 h with h | rfl
    · have hpow : 2 ^ (32 * n) = 2 ^ (32 * j) * (2 ^ 32 * 2 ^ (32 * (n - j - 1))) := by
        rw [← Nat.pow_add, ← Nat.pow_add]
        congr 1
        omega
      rw [hpow, Nat.mul_left_comm, Nat.add_mul_div_left _ _ (Nat.two_pow_pos _), Nat.mul_left_comm, Nat.add_mul_mod_self_left, ih h]
    · rw [Nat.add_mul_div_right _ _ (Nat.two_pow_pos _), Nat.div_eq_of_lt (partsOf_lt hd j), Nat.zero_add, Nat.mod_eq_of_lt (hd j)]

/-- ATOM.TADD writes the sum of each of the 32 parts. -/
theorem taddOf_parts (t : Bool) (old b : Nat) : taddOf t old b < 2 ^ 1024 ∧ ∀ j < 32,
    taddOf t old b / 2 ^ (32 * j) % 2 ^ 32 = if t then (old / 2 ^ (32 * j) % 2 ^ 32 + b / 2 ^ (32 * j) % 2 ^ 32) % 2 ^ 32
      else faddBits 0 1 false (old / 2 ^ (32 * j) % 2 ^ 32) (b / 2 ^ (32 * j) % 2 ^ 32) 0 := by
  have hd : ∀ j, (if t then (old / 2 ^ (32 * j) % 2 ^ 32 + b / 2 ^ (32 * j) % 2 ^ 32) % 2 ^ 32
      else faddBits 0 1 false (old / 2 ^ (32 * j) % 2 ^ 32) (b / 2 ^ (32 * j) % 2 ^ 32) 0) < 2 ^ 32 := fun j => by
    split
    · exact Nat.mod_lt _ (Nat.two_pow_pos _)
    · exact deliver_lt
  exact ⟨partsOf_lt hd 32, fun j hj => partsOf_part hd hj⟩

theorem sextN_lt_iff {n : Nat} (hn : 1 ≤ n) (a b : BitVec n) : sextN a.toNat n < sextN b.toNat n ↔ a.toInt < b.toInt := by
  rw [sextN_toNat _ hn, sextN_toNat _ hn]

theorem atomOf_min_signed {w n : Nat} (hw : 8 * n = w) (h1 : 1 ≤ w) (old b : BitVec w) (c : Nat) :
    atomOf 0xB1 false n old.toNat b.toNat c = some (if b.toInt < old.toInt then b.toNat else old.toNat) := by
  subst hw
  simp only [atomOf, Bool.false_eq_true, if_false, sextN_lt_iff h1]

theorem atomOf_max_signed {w n : Nat} (hw : 8 * n = w) (h1 : 1 ≤ w) (old b : BitVec w) (c : Nat) :
    atomOf 0xB2 false n old.toNat b.toNat c = some (if old.toInt < b.toInt then b.toNat else old.toNat) := by
  subst hw
  simp only [atomOf, Bool.false_eq_true, if_false, gt_iff_lt, sextN_lt_iff h1]

theorem atomicsReplaceTheOldValue : AtomicsReplaceTheOldValue := by
  refine ⟨fun t n old b c => ?_, fun old b c => ?_, fun old b c => ?_, fun t n old b c => ?_, fun s id addr o a hk hr => ?_⟩
  · exact ⟨rfl, rfl, rfl, rfl, rfl, rfl, rfl, fun h => ⟨if_pos h, if_pos h⟩, fun h => ⟨if_neg h, if_neg h⟩,
      fun h => if_pos h, fun h => if_neg (Nat.not_lt.2 h), fun h => if_pos h, fun h => if_neg (Nat.not_lt.2 h)⟩
  · exact ⟨atomOf_min_signed rfl (by decide) .., atomOf_max_signed rfl (by decide) .., rfl⟩
  · exact ⟨atomOf_min_signed rfl (by decide) .., atomOf_max_signed rfl (by decide) ..⟩
  · exact ⟨_, rfl, taddOf_parts t old b⟩
  · dsimp only
    intro hobj _
    obtain ⟨hv, hnone, hsome⟩ := s.effect_atomic id o a addr hk
    refine ⟨hv, ?_⟩
    cases hw : atomOf a.code a.t a.size (Memory.readNat s.mem addr a.size) a.data a.cmp with
    | none => exact hnone hw
    | some v =>
      obtain ⟨u, _, hmem, he⟩ := hsome v hw
      rw [he, hmem hobj]

/-- Settles O20: the words share one body, and an atomic's effect is its operation on the old value. -/
theorem atomicsIssueAndReplaceTheOldValue : Obligations.AtomicsIssueAndReplaceTheOldValue := ⟨atomicWordsIssueOneAccess, atomicsReplaceTheOldValue⟩

end Sys2Proof.Machine
end

section
/-! PROOFS. Arrival registers, AWAIT and fences (O25, O26), and all that the end of an operation can change. -/

namespace Sys2Proof.Machine

/-! ## What the end of an operation can change -/

/-- What the end of an operation changes of a thread: its counters, joins, clock and fences. -/
def Thread.EndsAs (y x : Thread) : Prop := ∃ dcs joins know fences, y = { x with dcs := dcs, joins := joins, know := know, fences := fences }

theorem Thread.EndsAs.refl (x : Thread) : x.EndsAs x := ⟨_, _, _, _, rfl⟩
theorem Thread.EndsAs.trans {x y z : Thread} (g : z.EndsAs y) (h : y.EndsAs x) : z.EndsAs x := by
  obtain ⟨_, _, _, _, rfl⟩ := h
  obtain ⟨_, _, _, _, rfl⟩ := g
  exact ⟨_, _, _, _, rfl⟩

/-- What the end of an operation changes of the machine. -/
structure State.EndsAs (u s : State) : Prop where
  parts : ∃ ops lags objects threads pins syncs scFences,
    u = { s with ops := ops, lags := lags, objects := objects, threads := threads, pins := pins, syncs := syncs, scFences := scFences }
  thread : ∀ t, (u.thread t).EndsAs (s.thread t)

namespace State.EndsAs
variable {s u w : State}

theorem of_threads (h : ∃ ops lags objects pins syncs scFences,
    u = { s with ops := ops, lags := lags, objects := objects, pins := pins, syncs := syncs, scFences := scFences }) : u.EndsAs s := by
  obtain ⟨_, _, _, _, _, _, rfl⟩ := h
  exact ⟨⟨_, _, _, _, _, _, _, rfl⟩, fun _ => .refl _⟩

theorem refl (s : State) : s.EndsAs s := of_threads ⟨_, _, _, _, _, _, rfl⟩

theorem trans (g : w.EndsAs u) (h : u.EndsAs s) : w.EndsAs s := by
  refine ⟨?_, fun t => (g.thread t).trans (h.thread t)⟩
  obtain ⟨_, _, _, _, _, _, _, hu⟩ := h.parts
  obtain ⟨_, _, _, _, _, _, _, hw⟩ := g.parts
  subst hu hw
  exact ⟨_, _, _, _, _, _, _, rfl⟩

theorem modThread (s : State) (t : ThreadId) {f : Thread → Thread} (h : ∀ x, (f x).EndsAs x) : (s.modThread t f).EndsAs s := by
  refine ⟨⟨_, _, _, _, _, _, _, rfl⟩, fun v => ?_⟩
  by_cases hv : v = t
  · rw [hv, State.thread_modThread]
    exact h _
  · rw [State.thread_modThread_ne _ _ hv]
    exact .refl _

theorem foldl {α : Type} (l : List α) (g : State → α → State) (h : ∀ s a, (g s a).EndsAs s) (s : State) : (l.foldl g s).EndsAs s := by
  induction l generalizing s with
  | nil => exact refl s
  | cons a l ih => exact (ih _).trans (h s a)

theorem ite {c : Prop} [Decidable c] (hu : u.EndsAs s) (hw : w.EndsAs s) : (if c then u else w).EndsAs s := by
  split <;> assumption

section
variable (h : u.EndsAs s)
include h
theorem mem : u.mem = s.mem := by obtain ⟨_, _, _, _, _, _, _, rfl⟩ := h.parts; rfl
theorem msgs : u.msgs = s.msgs := by obtain ⟨_, _, _, _, _, _, _, rfl⟩ := h.parts; rfl
theorem cohorts : u.cohorts = s.cohorts := by obtain ⟨_, _, _, _, _, _, _, rfl⟩ := h.parts; rfl
theorem cohort (c : CohortId) : u.cohort c = s.cohort c := State.cohort_congr h.cohorts c
theorem chips : u.chips = s.chips := by obtain ⟨_, _, _, _, _, _, _, rfl⟩ := h.parts; rfl
theorem quads : u.quads = s.quads := by obtain ⟨_, _, _, _, _, _, _, rfl⟩ := h.parts; rfl
theorem grids : u.grids = s.grids := by obtain ⟨_, _, _, _, _, _, _, rfl⟩ := h.parts; rfl
theorem nextId : u.nextId = s.nextId := by obtain ⟨_, _, _, _, _, _, _, rfl⟩ := h.parts; rfl
theorem now : u.now = s.now := by obtain ⟨_, _, _, _, _, _, _, rfl⟩ := h.parts; rfl
theorem tokens (t : ThreadId) : (u.thread t).tokens = (s.thread t).tokens := by
  obtain ⟨_, _, _, _, h⟩ := h.thread t
  rw [h]
theorem regs (t : ThreadId) : (u.thread t).regs = (s.thread t).regs := by
  obtain ⟨_, _, _, _, h⟩ := h.thread t
  rw [h]
end
end State.EndsAs

section
variable (s : State)

theorem State.expose_endsAs (ids : List Nat) (spans : List (Nat × Nat)) : (s.expose ids spans).EndsAs s :=
  .ite (.refl s) (.of_threads ⟨_, _, _, _, _, _, rfl⟩)

theorem State.unqueue_endsAs (ids : List Nat) : (s.unqueue ids).EndsAs s := .ite (.refl s) (.of_threads ⟨_, _, _, _, _, _, rfl⟩)

theorem State.widen_endsAs (t : ThreadId) (level : Nat) (k : List Nat) : (s.widen t level k).EndsAs s := .of_threads ⟨_, _, _, _, _, _, rfl⟩

theorem State.settleFence_endsAs (t : ThreadId) (f : Fence) : (s.settleFence t f).EndsAs s := by
  have hmod : ∀ (u : State) (g : Thread → Thread), (∀ x, (g x).EndsAs x) → (u.modThread t g).EndsAs u := fun u g h => .modThread u t h
  have hwide : ∀ (u : State) (g : Thread → Thread) l k, (∀ x, (g x).EndsAs x) → ((u.modThread t g).widen t l k).EndsAs u := fun u g l k h =>
    (State.widen_endsAs ..).trans (hmod u g h)
  unfold State.settleFence
  dsimp only
  split
  · exact .ite (.refl s) (hmod _ _ fun _ => ⟨_, _, _, _, rfl⟩)
  · exact .ite (.refl s) (hwide _ _ _ _ fun _ => ⟨_, _, _, _, rfl⟩)
  · refine .ite (.refl s) (.ite (hmod _ _ fun _ => ⟨_, _, _, _, rfl⟩) ((hwide _ _ _ _ fun _ => ⟨_, _, _, _, rfl⟩).trans (hmod _ _ fun _ => ⟨_, _, _, _, rfl⟩)))
  · exact .ite (.refl s) (.ite (hwide _ _ _ _ fun _ => ⟨_, _, _, _, rfl⟩)
      ((State.EndsAs.of_threads ⟨_, _, _, _, _, _, rfl⟩).trans (hwide _ _ _ _ fun _ => ⟨_, _, _, _, rfl⟩)))

theorem State.settleFences_endsAs (t : ThreadId) : (s.settleFences t).EndsAs s := .foldl _ _ (fun u f => u.settleFence_endsAs t f) s

theorem State.endOne_endsAs (id : Nat) : (s.endOne id).EndsAs s := by
  unfold State.endOne
  split
  · exact .refl s
  · have hdel : (({ s with ops := s.ops.del id } : State).expose [id] []).EndsAs s :=
      (State.expose_endsAs ..).trans (.of_threads ⟨_, _, _, _, _, _, rfl⟩)
    have hcount : ∀ (u : State) (t : ThreadId) (f : Thread → Thread), (∀ x, (f x).EndsAs x) → (u.modThread t f).EndsAs u := fun u t f h => .modThread u t h
    dsimp only
    generalize hw : (if Op.isAccess _ = true then _ else _ : State) = w
    have hws : w.EndsAs s := by
      rw [← hw]
      exact .ite ((State.settleFences_endsAs ..).trans ((State.unqueue_endsAs ..).trans hdel)) ((State.unqueue_endsAs ..).trans hdel)
    refine State.EndsAs.trans ?_ hws
    split
    · refine .foldl _ _ (fun u t => hcount u t _ fun x => ?_) _
      split <;> exact ⟨_, _, _, _, rfl⟩
    · refine hcount _ _ _ fun x => ?_
      split <;> exact ⟨_, _, _, _, rfl⟩
    · exact .refl w

theorem State.endOp_endsAs (id : Nat) : (s.endOp id).EndsAs s := by
  unfold State.endOp
  dsimp only
  split
  · exact s.endOne_endsAs id
  · split
    · exact .ite ((State.endOne_endsAs ..).trans (s.endOne_endsAs id)) (s.endOne_endsAs id)
    · exact s.endOne_endsAs id

theorem State.endOne_op? (id : Nat) : ∀ j, (s.endOne id).op? j = if j = id then none else s.op? j := by
  intro j
  rw [State.op?, (s.endOne_same id).ops, State.op?]
  split
  · next h => rw [h]; exact Tab.get?_del_self ..
  · next h => exact Tab.get?_del_ne _ _ _ h

/-- An operation that has ended is gone. -/
theorem State.endOp_op?_self (id : Nat) : (s.endOp id).op? id = none := by
  have h : (s.endOne id).op? id = none := by rw [State.endOne_op?, if_pos rfl]
  have h2 : ∀ l, ((s.endOne id).endOne l).op? id = none := fun l => by
    rw [State.endOne_op?, h, ite_self]
  unfold State.endOp
  dsimp only
  split
  · exact h
  · split
    · split
      · exact h2 _
      · exact h
    · exact h
end


/-! ## A register counts (O25) -/

theorem Nb.complete_of_left {r : Nb} (h : ¬ (r.mleft = 0 ∧ r.bleft = 0)) : r.complete = r := by
  unfold Nb.complete
  rw [if_neg (by simp only [Bool.and_eq_true, decide_eq_true_eq]; exact fun g => h ⟨g.1.2, g.2⟩)]

theorem Nb.complete_of_none {r : Nb} (ha : r.armed = true) (h : r.mleft = 0 ∧ r.bleft = 0) :
    r.complete = { r with phase := r.phase + 1, last := r.flags, done := r.flags, mleft := r.members, bleft := r.bytes, flags := {}, counted := false,
                          lastKnow := r.know, know := [] } := by
  unfold Nb.complete
  rw [if_pos (by simp [ha, h.1, h.2])]

theorem Nb.arrive_of_armed {r : Nb} {k : Contribution} (ha : r.armed = true) (hb : k.bytes ≤ r.bleft.toNat) (hm : k.member = true → r.mleft ≠ 0) :
    r.arrive k = Nb.complete { r with
      bleft := r.bleft - BitVec.ofNat 32 k.bytes, mleft := if k.member then r.mleft - 1 else r.mleft,
      flags := { err := r.flags.err || k.flags.err, partly := r.flags.partly || k.flags.partly, past := r.flags.past || k.flags.past
                 missed := r.flags.missed ||| k.flags.missed },
      counted := true, know := r.know ++ k.know.filter fun e => !r.know.contains e } := by
  have hover : ¬ k.bytes > r.bleft.toNat := Nat.not_lt.2 hb
  have hmem : (k.member && decide (r.mleft = 0)) = false := by
    cases hk : k.member
    · rfl
    · simpa using hm hk
  simp only [Nb.arrive, ha, hover, hmem, NbFlags.or, decide_false, Bool.not_true, Bool.not_false, Bool.and_true, Bool.or_false, Bool.false_eq_true, if_false]

theorem State.settleDefer_of_steady {s : State} {chip vf : Nat} (h : (s.vf chip vf).ctx ≠ .deferring) : s.settleDefer chip vf = s := by
  unfold State.settleDefer
  rw [if_neg (by simp [h])]

theorem State.live_modCohort {s : State} {c : CohortId} {f : Cohort → Cohort} (hl : s.live c = true) (hf : ∀ x, (f x).ended = x.ended) :
    (s.modCohort c f).live c = true := by
  rw [State.live, Option.any_eq_true] at hl
  obtain ⟨x, hx, he⟩ := hl
  rw [State.live, State.modCohort_eq, State.setCohort_cohorts, Tab.get?_put_self]
  have hcx : s.cohort c = x := by rw [State.cohort, Tab.getD, hx]; rfl
  simpa [hf, hcx] using he

theorem getD_set_of_lt {α : Type} {l : List α} {n : Nat} {a d : α} (h : n < l.length) : (l.set n a).getD n d = a := by
  rw [List.getD_eq_getElem _ _ (by rwa [List.length_set])]
  exact List.getElem_set_self _

/-- What reaches a register of a live cohort: the register counts, the thread has the phase's token, the message is gone, and the
operation ends. -/
theorem State.deliverMessage_of_contribution {s : State} {m i nb : Nat} {g : Msg} {o : Op} {c : CohortId} {t : ThreadId} {k : Contribution}
    (hb : g.body = .contribute c nb k) (hop : g.op = some i) (ho : s.op? i = some o) (ht : g.token = some t) (hl : s.live c = true)
    (hd : (s.vf c.chip (s.cohort c).vf).ctx ≠ .deferring) :
    s.deliverMessage m g = ((({ s with msgs := Tab.del s.msgs m } : State).modCohort c fun x =>
        { x with nbs := x.nbs.set nb ((x.nbs.getD nb {}).arrive { k with know := k.know ++ s.arrivalEdges i o }) }).modThread t fun x =>
          { x with tokens := x.tokens.set nb ((s.cohort c).nbs.getD nb {}).phase }).endOp i := by
  have hl' : ({ s with msgs := Tab.del s.msgs m } : State).live c = true := hl
  have ho' : ({ s with msgs := Tab.del s.msgs m } : State).op? i = some o := ho
  have hlive : ∀ f : Cohort → Cohort, (∀ x, (f x).ended = x.ended) → (({ s with msgs := Tab.del s.msgs m } : State).modCohort c f).live c = true := fun f hf =>
    State.live_modCohort hl hf
  unfold State.deliverMessage
  simp only [hb, hop, ht, Option.bind_some, ho', hl', if_true, State.atRegister, Option.isSome_some]
  rw [if_pos (hlive _ (by intro x; rfl)), State.settleDefer_of_steady]
  · rfl
  · simp only [State.modThread_eq, State.modCohort_eq, State.setThread_vf, State.setCohort_vf, State.setThread_cohort, State.cohort_setCohort]
    exact hd

theorem exec_arrivalContribution {s : State} {m i nb : Nat} {g : Msg} {o : Op} {c : CohortId} {t : ThreadId} {k : Contribution} (hm : s.msg? m = some g)
    (hb : g.body = .contribute c nb k) (hop : g.op = some i) (ho : s.op? i = some o) (ht : g.token = some t) :
    exec (.arrivalContribution m) s = .next (if (s.ops.any fun p => holdsBack p i o) || !(s.resident c || (s.cohorts.get? c).isNone) then s else s.deliverMessage m g) := by
  rw [exec, execArrivalContribution]
  simp only [hm, hb, hop, ht, Option.bind_some, ho, Option.map_some]

/-- Settles O25: what reaches a register is one rule (`deliverMessage_of_contribution`), and the register one case split. -/
theorem contributionsCountAtTheirRegister : Obligations.ContributionsCountAtTheirRegister := by
  refine ⟨fun s m i g o c t nb k hm hb hop ho ht hl hres hd hnb htok hfree => ?_, fun s m i j g c t nb k o p hm hb hop ho ht hbody hmem hj hp hc => ?_,
    fun r k ha => ?_, fun r k ha hb hm => ?_, fun r k ha hb hk hm => ?_⟩
  · have hany : (s.ops.any fun p => holdsBack p i o) = false := List.any_eq_false.2 fun p hp => by simp [hfree p hp]
    refine ⟨s.deliverMessage m g, ?_, ?_⟩
    · rw [exec_arrivalContribution hm hb hop ho ht, hany, hres]
      rfl
    · rw [State.deliverMessage_of_contribution hb hop ho ht hl hd]
      have hend := State.endOp_endsAs ((({ s with msgs := Tab.del s.msgs m } : State).modCohort c fun x =>
        { x with nbs := x.nbs.set nb ((x.nbs.getD nb {}).arrive { k with know := k.know ++ s.arrivalEdges i o }) }).modThread t fun x =>
          { x with tokens := x.tokens.set nb ((s.cohort c).nbs.getD nb {}).phase }) i
      refine ⟨?_, ?_, State.endOp_op?_self .., ?_, ?_⟩
      · rw [hend.cohort, State.modThread_eq, State.setThread_cohort, State.modCohort_eq, State.cohort_setCohort]
        exact getD_set_of_lt hnb
      · rw [hend.tokens, State.thread_modThread]
        exact getD_set_of_lt htok
      · rw [State.msg?, hend.msgs]
        exact Tab.get?_del_self ..
      · rw [hend.mem]
        rfl
  · have hback : holdsBack (j, p) i o = true := by
      have hrel : o.release? = some 3 := by rw [Op.release?, hbody]
      simp [holdsBack, hp, hj, hrel, hc]
    have hany : (s.ops.any fun p => holdsBack p i o) = true := List.any_eq_true.2 ⟨_, hmem, hback⟩
    rw [exec_arrivalContribution hm hb hop ho ht, hany]
    rfl
  · simp [Nb.arrive, ha]
  · dsimp only
    rw [Nb.arrive_of_armed ha hb hm]
    refine ⟨fun h => ?_, fun h => ?_⟩
    · rw [Nb.complete_of_none (by exact ha) (by exact h)]
      exact ⟨rfl, rfl, rfl, rfl, rfl, rfl, ha⟩
    · rw [Nb.complete_of_left (by exact h)]
      exact ⟨rfl, rfl, rfl, rfl, rfl⟩
  · have hc : r.arrive k = Nb.complete { r with
      bleft := 0, flags := { r.flags.or k.flags with past := true }, counted := true, know := r.know ++ k.know.filter fun e => !r.know.contains e } := by
      simp [Nb.arrive, ha, hb, hk]
    rw [hc, Nb.complete_of_left (by exact fun h => hm h.1)]
    exact ⟨rfl, rfl, rfl, rfl⟩


/-! ## The words (O26) -/

theorem does_of_park {i : Instr} {f : Fields} {p : State → Bundle → ThreadId → Prop} {w : State → Bundle → ThreadId → ParkKind}
    {body : State → Bundle → ThreadId → State → Res} (h : ∀ s, exec i s = s.runThreads i noHold body)
    (hq : ∀ s b t, p s b t → p s.quiet b t) (hb : ∀ s b t, p s b t → body s b t s = .park s (w s b t) false) :
    Does i f p fun s b t => (s.leave t).modThread t fun x => { x with run := .parked (w s b t), word := b.word, inside := true } :=
  does_of_settle h hq fun s b t hp => ⟨by rw [hb s b t hp]; simp, rfl, by rw [hb s b t hp]; rfl⟩

theorem arrivalWordsSendOneMessage : ArrivalWordsSendOneMessage := by
  intro f m n
  dsimp only
  refine ⟨?_, ?_, ?_, ?_⟩
  · exact does_of_body (fun s => by rw [exec, execArrive]) (fun _ _ _ h => h) fun s b t _ => rfl
  · exact does_of_body (fun s => by rw [exec, execArriveBytes]) (fun _ _ _ h => h) fun s b t h => by rw [h]; rfl
  · refine does_of_body (fun s => by rw [exec, execNbset]) (fun _ _ _ h => h) fun s b t ⟨hm, hn, hlt⟩ => ?_
    dsimp only
    rw [hm, hn]
    exact if_neg (Nat.not_lt.2 hlt)
  · refine traps_of_body (fun s => by rw [exec, execNbset]) (fun _ _ _ h => h) fun s b t ⟨hm, hn, hlt⟩ => ?_
    dsimp only
    rw [hm, hn]
    exact if_pos hlt

theorem awaitTakesTheCompletedPhase : AwaitTakesTheCompletedPhase := by
  rintro f nb rfl
  refine ⟨?_, ?_⟩
  · refine does_of_body (fun s => by rw [exec, execAwait]) (fun _ _ _ h => h) fun s b t ⟨hd, hc, hph⟩ => ?_
    have harr : s.arrived t (f.ctl % 16) = true := by simp only [State.arrived, hc, hph, decide_true, Bool.and_true, ne_eq, not_false_eq_true]
    simp only [hd, harr, List.any_nil, Bool.and_false, Bool.not_true, Bool.or_self, Bool.false_eq_true, if_false]
    rfl
  · refine does_of_park (w := fun _ _ _ => .arrival (f.ctl % 16)) (fun s => by rw [exec, execAwait]) (fun _ _ _ h => h) fun s b t h => ?_
    have harr : s.arrived t (f.ctl % 16) = false := by
      rcases h with h | h
      · rw [State.arrived, h, Bool.false_and]
      · rw [State.arrived, h]
        simp
    simp only [harr, Bool.not_false, Bool.or_true, if_true]

/-! ## Fences -/

section
variable {s : State} {t : ThreadId} {f : Fence}

theorem State.settleFences_of_one (h : (s.thread t).fences = [f]) : s.settleFences t = s.settleFence t f := by
  rw [State.settleFences, h]
  rfl

/-- No earlier operation is left: the reads and the accesses that a fence waits for are none. -/
theorem State.noneDue (h : ∀ p ∈ s.ops, p.2.thread = t → f.id ≤ p.1) :
    (s.ops.any fun p => p.2.thread = t && p.1 < f.id && p.2.isRead) = false ∧ ∀ level, s.earlierComplete t f.id level = true := by
  have hnot : ∀ p ∈ s.ops, ¬ (p.2.thread = t ∧ p.1 < f.id) := fun p hp hq => absurd (h p hp hq.1) (Nat.not_le.2 hq.2)
  refine ⟨List.any_eq_false.2 fun p hp => ?_, fun level => ?_⟩
  · simpa using fun h1 h2 => absurd ⟨h1, h2⟩ (hnot p hp)
  · rw [State.earlierComplete, Bool.not_eq_true', List.any_eq_false]
    exact fun p hp => by simpa using fun h1 h2 => absurd ⟨h1, h2⟩ (hnot p hp)

/-- A fence for which nothing is left is gone. -/
theorem State.settleFence_of_none (hk : f.kind < 4) (hf : (s.thread t).fences = [f]) (hd : (s.thread t).deferred = [])
    (h : ∀ p ∈ s.ops, p.2.thread = t → f.id ≤ p.1) : ((s.settleFence t f).thread t).fences = [] := by
  obtain ⟨hread, hcomp⟩ := s.noneDue (t := t) (f := f) h
  have hwide : ∀ (u : State) l k, ((u.widen t l k).thread t) = u.thread t := fun _ _ _ => rfl
  unfold State.settleFence
  simp only [hread, hcomp, hd, List.any_nil, Bool.or_false, Bool.not_true, Bool.false_eq_true, if_false]
  have hk' : f.kind = 0 ∨ f.kind = 1 ∨ f.kind = 2 ∨ f.kind = 3 := by omega
  have hlast : ∀ (u : State) (c : List Nat) l, ((if c = [] then u else { u with scFences := l }).thread t) = u.thread t := fun u c l => by split <;> rfl
  rcases hk' with hk | hk | hk | hk <;> simp only [hk]
  · rw [hlast, hwide, State.thread_modThread]
    simp [hf]
  · rw [State.thread_modThread]
    simp [hf]
  · rw [hwide, State.thread_modThread]
    simp [hf]
  · rw [hwide, State.thread_modThread, State.thread_modThread]
    simp [hf]

theorem State.settleFence_of_earlier {i : Nat} {o : Op} (hk : f.kind = 2) (hm : (i, o) ∈ s.ops) (ht : o.thread = t) (hi : i < f.id)
    (hc : o.completeAt f.level = false) : s.settleFence t f = s := by
  have hdue : s.earlierComplete t f.id f.level = false := by
    rw [State.earlierComplete, Bool.not_eq_false', List.any_eq_true]
    exact ⟨_, hm, by simp [ht, hi, hc]⟩
  unfold State.settleFence
  simp only [hk, hdue, Bool.not_false, Bool.true_or, if_true]

end

theorem fencesWaitForEarlierAccesses : FencesWaitForEarlierAccesses := by
  refine ⟨fun f => ?_, fun s t f hk hf hd h => ?_, fun s t f i o hf hk hm ht hi hc => ?_⟩
  · exact does_of_body (fun s => by rw [exec, execFence]) (fun _ _ _ h => h) fun s b t _ => rfl
  · rw [State.settleFences_of_one hf]
    exact State.settleFence_of_none hk hf hd h
  · rw [State.settleFences_of_one hf]
    exact State.settleFence_of_earlier hk hm ht hi hc

/-- Settles O26: each word is its body, and a fence is settled once. -/
theorem arrivalWordsAwaitsAndFences : Obligations.ArrivalWordsAwaitsAndFences :=
  ⟨arrivalWordsSendOneMessage, awaitTakesTheCompletedPhase, fencesWaitForEarlierAccesses⟩

end Sys2Proof.Machine
end

section
/-! PROOFS. COPY and KICK: their issue, their chunks and their ends (O22). -/

namespace Sys2Proof.Machine

/-! ## Pointers and their fields -/

theorem fields_mkPtr {b n o : Nat} (hb : b < 2 ^ 12) (hn : n < 2 ^ 22) (ho : o < 2 ^ 30) :
    birthOf (mkPtr b n o) = b ∧ serialOf (mkPtr b n o) = n ∧ offsetOf (mkPtr b n o) = o := by
  have hlt : 2 ^ 52 * b + 2 ^ 30 * n + o < 2 ^ 64 := by omega
  simp only [birthOf, serialOf, offsetOf, mkPtr, BitVec.toNat_ofNat, Nat.mod_eq_of_lt hlt]
  omega

theorem fields_ptrAdd (p : DWord) (d : Int) : birthOf (ptrAdd p d) = birthOf p ∧ serialOf (ptrAdd p d) = serialOf p
    ∧ offsetOf (ptrAdd p d) = (((offsetOf p : Int) + d) % 2 ^ 30).toNat := by
  have hp := p.isLt
  refine fields_mkPtr ?_ ?_ ?_
  · unfold birthOf; omega
  · unfold serialOf; omega
  · omega

theorem fields_localBase (a : Word) : birthOf (localBase a) = 0xFFF ∧ serialOf (localBase a) = a.toNat / 2 ^ 30 ∧ offsetOf (localBase a) = a.toNat % 2 ^ 30 := by
  have ha := a.isLt
  refine fields_mkPtr (by decide) ?_ ?_ <;> omega

/-! ## Issue (R236, R241) -/

theorem State.copiesFull_hold {s : State} {b : Bundle} {t : ThreadId} (p : ThreadId → Bool) (h : s.copiesFull t b.order 1 = false) :
    copyHold s b ([t].filter p) = none := by
  cases hp : p t
  · simp [hp, copyHold]
  · simp only [List.filter_cons, hp, List.filter_nil, if_true, copyHold, List.length_singleton, h, Bool.false_eq_true, if_false]

/-- A list whose checks pass is queued, and its word waits for the last record. -/
theorem State.issueKick_of_sound {s : State} {b : Bundle} {t : ThreadId} {list : DWord} {n : Nat} {mmio : Bool} (h : s.kickTrap t list n = none) :
    s.issueKick b t list n mmio = .done ((s.addOp (s.newOp b t (some 3) (.kick { list := list, count := n, mmio := mmio }))).2.waitFor t s.nextId) := by
  rw [State.issueKick, h]
  rfl

/-- The KICK register admits an eight-byte store at the start of its page. -/
theorem State.admits_kickRegister {s : State} {t : ThreadId} {p : DWord} (hb : birthOf p = 0xFFF) (hs : serialOf p = 2) (ho : offsetOf p = 0) : s.admits t p 8 := by
  refine ⟨?_, ?_⟩
  · simp [State.issueCheck, State.regionCheck, hb, hs, ho, mmioWidth]
  · simp [State.parkLine, isCistern, hb, hs]

theorem Thread.copyOf_eq {x : Thread} {f : Fields} {dst src mask : DWord} (hd : x.src64 f.sa = some dst) (hs : x.b64 f = some src)
    (hm : f.dst.toNat / 32 % 2 = 1 → x.src64 f.sc = some mask) : x.copyOf f = some
      ({ dst := dst, src := src, len := (f.mod.toNat + 1) * 64, rows := 1, mc := decide (f.dst.toNat / 32 % 2 = 1)
         nb := if f.dst.toNat / 16 % 2 = 1 then some (f.dst.toNat % 16) else none },
       if f.dst.toNat / 32 % 2 = 1 then mask.toNat % 2 ^ 48 else 0) := by
  unfold Thread.copyOf
  dsimp only
  rw [hd, hs]
  by_cases h : f.dst.toNat / 32 % 2 = 1
  · simp [h, hm h]
  · simp [h]

/-- COPY: one copy, its shares' lines claimed. -/
theorem does_of_copy {f : Fields} {dst src mask : DWord} {c : CopyOp} {m : Nat}
    (hc : c = { dst := dst, src := src, len := (f.mod.toNat + 1) * 64, rows := 1, mc := decide (f.dst.toNat / 32 % 2 = 1)
                nb := if f.dst.toNat / 16 % 2 = 1 then some (f.dst.toNat % 16) else none })
    (hm : m = if f.dst.toNat / 32 % 2 = 1 then mask.toNat % 2 ^ 48 else 0) :
    Does (.copy f) f (fun s b t => (s.thread t).src64 f.sa = some dst ∧ (s.thread t).b64 f = some src
        ∧ (f.dst.toNat / 32 % 2 = 1 → (s.thread t).src64 f.sc = some mask) ∧ s.copyTrap t c m = none ∧ s.copiesFull t b.order 1 = false ∧ s.sharesHeld t (s.makeShares t c m) = false)
      (fun s b t => ((s.claimShares t (s.makeShares t c m)).addOp (s.newOp b t (some 3) (.copy { c with shares := s.makeShares t c m }))).2) := by
  refine does_of_settle (fun s => by rw [exec, execCopy]) (fun _ _ _ h => h) fun s b t ⟨hd, hs, hmask, htrap, hfull, hheld⟩ => ?_
  simp only [Thread.copyOf_eq hd hs hmask, orTrap, ← hc, ← hm, htrap, hheld, Bool.false_eq_true, if_false]
  exact ⟨by simp, State.copiesFull_hold _ hfull, rfl⟩

/-- A store to the KICK register: a list with the fields of its value. -/
theorem State.accessGo_kick {s : State} {b : Bundle} {t : ThreadId} {f : Fields} {p : DWord} (hb : birthOf p = 0xFFF) (hs : serialOf p = 2)
    (h3 : f.sb.toNat % 8 = 3) (h0 : offsetOf p = 0) (hdc : (s.thread t).dc 3 < 63) (he : s.engineHeld t = false)
    (ht : s.kickTrap t (mkPtr 0xFFF (bitsOf (BitVec.ofNat 64 ((s.thread t).data f.dst.toNat 8)).toNat 63 63) (bitsOf (BitVec.ofNat 64 ((s.thread t).data f.dst.toNat 8)).toNat 29 0))
      (bitsOf (BitVec.ofNat 64 ((s.thread t).data f.dst.toNat 8)).toNat 39 32 + 1) = none) :
    s.accessGo b t f true false p = .done ((s.addOp (s.newOp b t (some 3)
      (.kick { list := mkPtr 0xFFF (bitsOf (BitVec.ofNat 64 ((s.thread t).data f.dst.toNat 8)).toNat 63 63) (bitsOf (BitVec.ofNat 64 ((s.thread t).data f.dst.toNat 8)).toNat 29 0)
               count := bitsOf (BitVec.ofNat 64 ((s.thread t).data f.dst.toNat 8)).toNat 39 32 + 1, mmio := true }))).2.waitFor t s.nextId) := by
  have hc : (true && decide (birthOf p = 0xFFF) && decide (serialOf p = 2)) = true := by simp [hb, hs]
  have h8 : sizeOf' 3 = 8 := rfl
  have hgo : (decide ((s.thread t).dc 3 ≥ 63) || s.engineHeld t || ((none : Option Nat).any fun l => !s.earlierComplete t s.nextId l)) = false := by
    simp [he, hdc]
  unfold State.accessGo
  dsimp only
  rw [if_pos hc, State.issueMmio, if_pos h0, h3, h8]
  simp only [Bool.false_eq_true, if_false, hgo]
  exact State.issueKick_of_sound ht

theorem copyAndKickAreQueued : CopyAndKickAreQueued := by
  intro f dst src mask list n
  dsimp only
  refine ⟨does_of_copy rfl rfl, ?_, fun a p => ?_, ?_, fun s id o k ho hb hm hmv => ?_, fun s id o k bs ho hb hm hlt hmv hw hfull hread hfault hheld => ?_⟩
  · refine does_of_body (fun s => by rw [exec, execKick]) (fun _ _ _ h => h) fun s b t ⟨hl, hn, ht⟩ => ?_
    dsimp only
    rw [hl, hn]
    exact State.issueKick_of_sound ht
  · have hb : a.toNat / 2 ^ 30 = 2 → pointed (localBase a) f.off 8 p → birthOf p = 0xFFF ∧ serialOf p = 2 := fun h2 hp => by
      obtain ⟨hb, hs, -⟩ := fields_ptrAdd (localBase a) f.off
      obtain ⟨hb', hs', -⟩ := fields_localBase a
      rw [hp.1]
      exact ⟨hb.trans hb', hs.trans (hs'.trans h2)⟩
    refine does_of_access (wide := false) (store := true) (ordered := false) (fun _ => by rw [exec, execSt]) p (fun _ _ _ h => h)
      (fun s b t ⟨ha, h2, h3, hp, h0, hr, _⟩ => ?_) fun s b t ⟨ha, h2, h3, hp, h0, hr, hdc, heng, ht⟩ => ?_
    · have h8 : sizeOf' (f.sb.toNat % 8) = 8 := by rw [h3]; rfl
      rw [h8]
      exact ⟨by rw [Thread.accessPointer, if_neg (by decide), ha, Option.map_some, h8, pointLocal_of_pointed (by omega) hp], State.admits_kickRegister (hb h2 hp).1 (hb h2 hp).2 h0, hr⟩
    · exact State.accessGo_kick (hb h2 hp).1 (hb h2 hp).2 h3 h0 hdc heng ht
  · refine traps_of_body (fun s => by rw [exec, execKick]) (fun _ _ _ h => h) fun s b t ⟨hl, hn, hbad⟩ => ?_
    have htrap : s.kickTrap t list n.toNat = some (.illegalOperand, 0, 0) := by
      rw [State.kickTrap, if_pos]
      rcases hbad with rfl | h
      · simp
      · simp [h]
    dsimp only
    rw [hl, hn]
    simp only [orTrap, State.issueKick, htrap]
  · rw [exec, execKickRegister]
    simp [ho, hb, hm, hmv]
  · obtain ⟨list', count, next, mmio⟩ := k
    dsimp only at hm hlt hw hread hfault hheld ⊢
    subst hm
    rw [exec, execKickRecordFetch]
    simp only [ho, hb, hmv, hw, hfull, Bool.false_or, Bool.or_false, Bool.not_true, Bool.false_eq_true, if_false, decide_eq_true_eq, Nat.not_le.2 hlt, hread]
    rw [copyOfRecord]
    simp only [hfault, hheld, Bool.false_eq_true, if_false]

/-! ## What an engine's work at memory leaves alone -/

/-- u is s but for memory, what stands for it in DRAM and the L2, and the records of objects, edges and late stores. -/
def State.MemoryAs (u s : State) : Prop := ∃ mem failed chips dies draws objects syncs lags,
  u = { s with mem := mem, failed := failed, chips := chips, dies := dies, draws := draws, objects := objects, syncs := syncs, lags := lags }

namespace State.MemoryAs
variable {u s w : State}

theorem refl (s : State) : s.MemoryAs s := ⟨_, _, _, _, _, _, _, _, rfl⟩

theorem trans (g : w.MemoryAs u) (h : u.MemoryAs s) : w.MemoryAs s := by
  obtain ⟨_, _, _, _, _, _, _, _, rfl⟩ := h
  obtain ⟨_, _, _, _, _, _, _, _, rfl⟩ := g
  exact ⟨_, _, _, _, _, _, _, _, rfl⟩

theorem foldl {α : Type} (l : List α) (g : State → α → State) (h : ∀ s a, (g s a).MemoryAs s) (s : State) : (l.foldl g s).MemoryAs s := by
  induction l generalizing s with
  | nil => exact refl s
  | cons a l ih => exact (ih _).trans (h s a)

theorem ite {c : Prop} [Decidable c] (hu : u.MemoryAs s) (hw : w.MemoryAs s) : (if c then u else w).MemoryAs s := by
  split <;> assumption

theorem of_stores (h : u.StoresAs s) : u.MemoryAs s := by
  obtain ⟨_, _, _, rfl⟩ := h
  exact ⟨_, _, _, _, _, _, _, _, rfl⟩

section
variable (h : u.MemoryAs s)
include h
theorem ops : u.ops = s.ops := by obtain ⟨_, _, _, _, _, _, _, _, rfl⟩ := h; rfl
theorem op? (i : Nat) : u.op? i = s.op? i := by rw [State.op?, h.ops, State.op?]
theorem msgs : u.msgs = s.msgs := by obtain ⟨_, _, _, _, _, _, _, _, rfl⟩ := h; rfl
theorem nextId : u.nextId = s.nextId := by obtain ⟨_, _, _, _, _, _, _, _, rfl⟩ := h; rfl
theorem cores : u.cores = s.cores := by obtain ⟨_, _, _, _, _, _, _, _, rfl⟩ := h; rfl
theorem quads : u.quads = s.quads := by obtain ⟨_, _, _, _, _, _, _, _, rfl⟩ := h; rfl
theorem quad (q : QuadId) : u.quad q = s.quad q := by obtain ⟨_, _, _, _, _, _, _, _, rfl⟩ := h; rfl
theorem thread (t : ThreadId) : u.thread t = s.thread t := by obtain ⟨_, _, _, _, _, _, _, _, rfl⟩ := h; rfl
theorem cohort (c : CohortId) : u.cohort c = s.cohort c := by obtain ⟨_, _, _, _, _, _, _, _, rfl⟩ := h; rfl
theorem writers (c : CoreId) (l : Nat) : u.writers c l = s.writers c l := by obtain ⟨_, _, _, _, _, _, _, _, rfl⟩ := h; rfl
end
end State.MemoryAs

section
variable (s : State)

theorem State.expose_memoryAs (ids : List Nat) (spans : List (Nat × Nat)) : (s.expose ids spans).MemoryAs s := .ite (.refl s) ⟨_, _, _, _, _, _, _, _, rfl⟩

theorem State.storeKeep_memoryAs (a : Nat) (bs : List Byte) : (s.storeKeep a bs).MemoryAs s :=
  (State.MemoryAs.of_stores (State.l2Use_storesAs ..)).trans ⟨_, _, _, _, _, _, _, _, rfl⟩

theorem State.store_memoryAs (a : Nat) (bs : List Byte) : (s.store a bs).MemoryAs s :=
  State.MemoryAs.trans ⟨_, _, _, _, _, _, _, _, rfl⟩ ((State.storeKeep_memoryAs ..).trans (s.expose_memoryAs ..))

theorem State.addEdges_memoryAs (a n : Nat) (l : List Edge) : (s.addEdges a n l).MemoryAs s := ⟨_, _, _, _, _, _, _, _, rfl⟩

theorem State.setVf_memoryAs (c v : Nat) (x : Vf) : (s.setVf c v x).MemoryAs s := ⟨_, _, _, _, _, _, _, _, rfl⟩
theorem State.setGrant_memoryAs (c v : Nat) (x : Grant) : (s.setGrant c v x).MemoryAs s := ⟨_, _, _, _, _, _, _, _, rfl⟩
theorem State.hostWrite_memoryAs (c a : Nat) (bs : List Byte) : (s.hostWrite c a bs).MemoryAs s := ⟨_, _, _, _, _, _, _, _, rfl⟩
theorem State.setObj_memoryAs (k : Nat × Nat) (b : Obj) : (s.setObj k b).MemoryAs s := ⟨_, _, _, _, _, _, _, _, rfl⟩
theorem State.modDie_memoryAs (d : DieId) (f : Die → Die) : (s.modDie d f).MemoryAs s := ⟨_, _, _, _, _, _, _, _, rfl⟩

theorem State.dirtyEntry_memoryAs (c v e : Nat) : (s.dirtyEntry c v e).MemoryAs s :=
  .ite (s.setVf_memoryAs ..) ((State.setVf_memoryAs ..).trans (s.hostWrite_memoryAs ..))

theorem State.dirtyPage_memoryAs (k : Nat × Nat) (page : Nat) : (s.dirtyPage k page).MemoryAs s := by
  unfold State.dirtyPage
  dsimp only
  split
  · exact .refl s
  · split
    · exact .refl s
    · exact .ite ((State.setObj_memoryAs ..).trans (s.dirtyEntry_memoryAs ..)) (.refl s)

theorem State.dirtyRange_memoryAs (p : DWord) (n : Nat) : (s.dirtyRange p n).MemoryAs s :=
  .ite (.foldl _ _ (fun u _ => u.dirtyPage_memoryAs ..) s) (.refl s)

theorem State.markWindow_memoryAs (t : ThreadId) (p : DWord) (n id : Nat) : (s.markWindow t p n id).MemoryAs s := by
  unfold State.markWindow
  split
  · exact .refl s
  · split
    · exact .refl s
    · dsimp only
      split
      · exact .refl s
      · exact s.setGrant_memoryAs ..

theorem State.engineStore_memoryAs (t : ThreadId) (p : DWord) (a : Nat) (bs : List Byte) (id : Nat) (edges : List Edge) (adds : Bool) :
    (s.engineStore t p a bs id edges adds).MemoryAs s := by
  have hd := s.dirtyRange_memoryAs p bs.length
  have hmark : ∀ u : State, u.MemoryAs s → (if (u.marksAt t p 0).isNone then u
      else (u.addEdges a bs.length [{ scope := 9, by' := t, know := [id] }]).markWindow t p bs.length id).MemoryAs s := fun u h =>
    .ite h ((State.markWindow_memoryAs ..).trans ((State.addEdges_memoryAs ..).trans h))
  refine hmark _ (.ite ?_ ?_)
  · exact (State.addEdges_memoryAs ..).trans ((State.storeKeep_memoryAs ..).trans ((State.expose_memoryAs ..).trans hd))
  · exact (State.addEdges_memoryAs ..).trans ((State.store_memoryAs ..).trans hd)

/-- A write of an engine that does not fail. -/
theorem State.engineWrite_memoryAs {s u : State} {t : ThreadId} {p : DWord} {bs : List Byte} {id : Nat} {edges : List Edge} {adds : Bool}
    (h : s.engineWrite t p bs id edges adds = .ok u) : u.MemoryAs s := by
  unfold State.engineWrite at h
  split at h
  · split at h
    · cases h
    · cases h
      exact s.engineStore_memoryAs ..
  · cases h
  · cases h

theorem State.giveUpBut_memoryAs (id : Nat) (l : List ((Nat × Nat) × Nat)) : (s.giveUpBut id l).MemoryAs s := .ite (.refl s) ⟨_, _, _, _, _, _, _, _, rfl⟩
theorem State.giveUp_memoryAs (id : Nat) : (s.giveUp id).MemoryAs s := s.giveUpBut_memoryAs id []

theorem State.affinity_memoryAs (p : DWord) (n chip : Nat) : (s.affinity p n chip).MemoryAs s := by
  unfold State.affinity
  split
  · exact .refl s
  · exact s.setObj_memoryAs ..

theorem State.usePages_memoryAs (p : DWord) (n : Nat) : (s.usePages p n).MemoryAs s := by
  unfold State.usePages
  split
  · exact .refl s
  · exact .foldl _ _ (fun u _ => u.modDie_memoryAs ..) s

/-- What an engine's access counts, beside its use of the L2. -/
def State.engineTally (s : State) (t : ThreadId) (p : DWord) (n : Nat) (wr : Bool) : State :=
  if !isGlobal p then s
  else match s.obj? p with
    | none => s
    | some o =>
      (((s.linkFlits t.cohort.toDie p n wr).affinity p n t.cohort.chip).usePages p n).modDie t.cohort.toDie fun d => d.install p (o.extents.getD (offsetOf p / 2 ^ o.log2) {}).holder

theorem State.engineTally_memoryAs (t : ThreadId) (p : DWord) (n : Nat) (wr : Bool) : (s.engineTally t p n wr).MemoryAs s := by
  refine .ite (.refl s) ?_
  split
  · exact .refl s
  · exact (State.modDie_memoryAs ..).trans ((State.usePages_memoryAs ..).trans ((State.affinity_memoryAs ..).trans
      (State.MemoryAs.of_stores (State.linkFlits_storesAs ..))))

theorem State.engineCount_eq (t : ThreadId) (p : DWord) (n : Nat) (wr : Bool) :
    ∃ a m, s.engineCount t p n wr = (s.l2Use a m false).engineTally t p n wr ∨ s.engineCount t p n wr = s.engineTally t p n wr := by
  unfold State.engineCount
  cases (s.reach t p n false).here p with
  | place a => exact ⟨a, n, .inl rfl⟩
  | fail c => exact ⟨0, 0, .inr rfl⟩
  | transit => exact ⟨0, 0, .inr rfl⟩

/-- What an engine's access uses changes no operation. -/
theorem State.engineCount_memoryAs (t : ThreadId) (p : DWord) (n : Nat) (wr : Bool) : (s.engineCount t p n wr).MemoryAs s := by
  obtain ⟨a, m, h | h⟩ := s.engineCount_eq t p n wr <;> rw [h]
  · exact (State.engineTally_memoryAs ..).trans (.of_stores (State.l2Use_storesAs ..))
  · exact s.engineTally_memoryAs ..

end

/-! ## Claims (R212) -/

theorem getD_release (w : Tab Nat Nat) (l k : Nat) :
    Tab.getD (if Tab.getD w l 0 ≤ 1 then Tab.del w l else Tab.put w l (Tab.getD w l 0 - 1)) k 0 = Tab.getD w k 0 - if k = l then 1 else 0 := by
  by_cases hk : k = l
  · subst hk
    split
    · next h =>
      rw [Tab.getD, Tab.get?_del_self]
      simp only [if_true, Option.getD_none]
      omega
    · rw [Tab.getD_put_self, if_pos rfl]
  · rw [if_neg hk, Nat.sub_zero]
    split
    · rw [Tab.getD, Tab.get?_del_ne _ _ _ hk, Tab.getD]
    · rw [Tab.getD_put_ne _ _ _ _ _ hk]

/-- A line's claims fall by one for each time that it is given back. -/
theorem State.writers_unclaim (s : State) (c : CoreId) (lines : List Nat) (k : Nat) : (s.unclaim c lines).writers c k = s.writers c k - lines.count k := by
  have hfold : ∀ (l : List Nat) (w : Tab Nat Nat), Tab.getD (l.foldl (fun w l =>
      let k := Tab.getD w l 0
      if k ≤ 1 then Tab.del w l else Tab.put w l (k - 1)) w) k 0 = Tab.getD w k 0 - l.count k := by
    intro l
    induction l with
    | nil => intro w; simp
    | cons a l ih =>
      intro w
      rw [List.foldl_cons, ih, getD_release, List.count_cons, Nat.sub_sub]
      congr 1
      by_cases h : k = a
      · subst h; simp [Nat.add_comm]
      · simp [h, Ne.symm h]
  unfold State.unclaim State.writers
  rw [State.modCore_eq, State.core_setCore]
  exact hfold _ _

theorem State.unclaim_keeps (s : State) (c : CoreId) (lines : List Nat) : (s.unclaim c lines).ops = s.ops ∧ (s.unclaim c lines).msgs = s.msgs
    ∧ (s.unclaim c lines).nextId = s.nextId ∧ (s.unclaim c lines).mem = s.mem := ⟨rfl, rfl, rfl, rfl⟩

/-! ## A chunk (R225) -/

section
variable {s u : State} {id : Nat} {o : Op} {c : CopyOp} {x : Share} {bs : List Byte}

/-- The row and the position after n bytes more. -/
def CopyOp.after (c : CopyOp) (x : Share) (n : Nat) : Nat × Nat := if x.pos + n = c.len then (x.row + 1, 0) else (x.row, x.pos + n)

theorem CopyOp.after_place (c : CopyOp) (x : Share) (n : Nat) : (c.after x n).1 * c.len + (c.after x n).2 = x.row * c.len + x.pos + n := by
  unfold CopyOp.after
  split
  · next h => rw [Nat.add_mul, Nat.one_mul, Nat.add_zero, Nat.add_assoc, h]
  · rw [Nat.add_assoc]

/-- A share that has gone on by n bytes: the claims of the lines that it touches no more are gone. -/
def CopyOp.moved (c : CopyOp) (x : Share) (n : Nat) : Share :=
  { x with row := (c.after x n).1, pos := (c.after x n).2, claims := x.claims.filter (c.touches (c.after x n).1 (c.after x n).2), done := (c.after x n).1 = c.rows }

theorem State.copyChunk_waits (hs : c.shares = [x]) (hm : c.mc = false) (hl : c.list = none) :
    let dst := ptrAdd c.dst (x.row * c.dstride + x.pos)
    let src := ptrAdd c.src (x.row * c.sstride + x.pos)
    let n := min (128 - offsetOf dst % 128) (c.len - x.pos)
    s.engineWaits o.thread id src n false = true → s.copyChunk id o c 0 = s.engineWait o.thread id false src n false := by
  intro dst src n hw
  unfold State.copyChunk
  simp only [hs, List.getD_cons_zero, hm, hl, Option.getD_none, Bool.false_and, Bool.false_eq_true, if_false]
  exact if_pos hw

theorem State.copyChunk_moves (hs : c.shares = [x]) (hm : c.mc = false) (hl : c.list = none) :
    let dst := ptrAdd c.dst (x.row * c.dstride + x.pos)
    let src := ptrAdd c.src (x.row * c.sstride + x.pos)
    let n := min (128 - offsetOf dst % 128) (c.len - x.pos)
    s.engineWaits o.thread id src n false = false → s.engineWaits o.thread id dst n true = false →
    (s.giveUp id).engineRead o.thread src n = .ok bs →
    (s.giveUp id).engineWrite o.thread dst bs id { o with know := (s.giveUp id).engineHeard o.thread src n o.know }.allEdges = .ok u →
    ∃ (k : List Nat) (w : State), w.MemoryAs u ∧ w.mem = u.mem ∧ s.copyChunk id o c 0 =
      (match c.nb with
        | some nb => (w.unclaim (shareCore o.thread x) (x.claims.filter fun l => !c.touches (c.after x n).1 (c.after x n).2 l)).contribute id { o with know := k } nb { bytes := n }
        | none => w.unclaim (shareCore o.thread x) (x.claims.filter fun l => !c.touches (c.after x n).1 (c.after x n).2 l)).setOp id
          { o with know := k, body := .copy { c with shares := [c.moved x n], started := true, sent := c.sent + if c.nb.isSome then n else 0 } } := by
  dsimp only
  intro hw1 hw2 hr hwr
  generalize hdst : ptrAdd c.dst (x.row * c.dstride + x.pos) = dst at *
  generalize hsrc : ptrAdd c.src (x.row * c.sstride + x.pos) = src at *
  generalize hn : min (128 - offsetOf dst % 128) (c.len - x.pos) = n at *
  refine ⟨(((u.engineCount o.thread src n).engineCount o.thread dst n true).unclaim (shareCore o.thread x)
      (x.claims.filter fun l => !c.touches (c.after x n).1 (c.after x n).2 l)).windowKnow o.thread dst id ((s.giveUp id).engineHeard o.thread src n o.know),
    (u.engineCount o.thread src n).engineCount o.thread dst n true, (State.engineCount_memoryAs ..).trans (State.engineCount_memoryAs ..), by simp, ?_⟩
  unfold State.copyChunk
  simp only [hs, List.getD_cons_zero, hm, hl, hdst, hsrc, hn, Option.getD_none, Bool.false_and, Bool.false_eq_true, if_false]
  rw [if_neg (by rw [hw1]; exact Bool.false_ne_true)]
  simp only [Bool.not_false, Bool.true_and]
  rw [if_neg (by rw [hw2]; exact Bool.false_ne_true)]
  simp only [hr]
  rw [hwr]
  rfl

end

/-! ## The end of a copy (R228, R229) -/

/-- Operations, messages, numbers and memory of u are those of s. -/
structure State.SameTables (s u : State) : Prop where
  ops : u.ops = s.ops
  msgs : u.msgs = s.msgs
  nextId : u.nextId = s.nextId

theorem State.SameTables.trans {s u w : State} (h : s.SameTables u) (g : u.SameTables w) : s.SameTables w :=
  ⟨g.ops.trans h.ops, g.msgs.trans h.msgs, g.nextId.trans h.nextId⟩

theorem State.SameTables.foldl {α : Type} (l : List α) (g : State → α → State) (h : ∀ (s : State) a, s.SameTables (g s a)) (s : State) :
    s.SameTables (l.foldl g s) := by
  induction l generalizing s with
  | nil => exact ⟨rfl, rfl, rfl⟩
  | cons a l ih => exact (h s a).trans (ih _)

theorem State.MemoryAs.sameTables {u s : State} (h : u.MemoryAs s) : s.SameTables u := ⟨h.ops, h.msgs, h.nextId⟩

/-- A copy's shares give their lines back. -/
def State.freed (s : State) (t : ThreadId) (c : CopyOp) : State := c.shares.foldl (fun u y => u.unclaim (shareCore t y) y.claims) s

theorem State.freed_keeps (s : State) (t : ThreadId) (c : CopyOp) : s.SameTables (s.freed t c) ∧ (s.freed t c).mem = s.mem :=
  ⟨.foldl c.shares (fun u y => u.unclaim (shareCore t y) y.claims) (fun _ _ => ⟨rfl, rfl, rfl⟩) s,
    State.mem_foldl c.shares (fun u y => u.unclaim (shareCore t y) y.claims) (fun _ _ => rfl) s⟩

/-- Its record is written where it has one. -/
def State.recorded (s : State) (t : ThreadId) (c : CopyOp) (status missed : Nat) (edges : List Edge) : State :=
  match c.record with
  | some p => s.writeRecord t p status missed edges
  | none => s

theorem State.writeRecord_memoryAs (s : State) (t : ThreadId) (p : DWord) (status missed : Nat) (edges : List Edge) :
    (s.writeRecord t p status missed edges).MemoryAs s := by
  unfold State.writeRecord
  split
  · exact (State.addEdges_memoryAs ..).trans ((State.store_memoryAs ..).trans (s.store_memoryAs ..))
  · exact .refl s

theorem State.recorded_sameTables (s : State) (t : ThreadId) (c : CopyOp) (status missed : Nat) (edges : List Edge) :
    s.SameTables (s.recorded t c status missed edges) := by
  unfold State.recorded
  split
  · exact (s.writeRecord_memoryAs ..).sameTables
  · exact ⟨rfl, rfl, rfl⟩

theorem State.recorded_none {s : State} {t : ThreadId} {c : CopyOp} {status missed : Nat} {edges : List Edge} (h : c.record = none) :
    s.recorded t c status missed edges = s := by
  rw [State.recorded, h]

theorem State.recorded_some {s : State} {t : ThreadId} {c : CopyOp} {status missed a : Nat} {edges : List Edge} {p : DWord} (h : c.record = some p)
    (ha : s.reach t p 64 true = .place a) : (s.recorded t c status missed edges).mem =
      Memory.writeBytes (Memory.writeBytes s.mem (a + 0x2C) (bytesLE 4 status)) (a + 0x30) (bytesLE 8 missed) := by
  unfold State.recorded
  simp only [h, State.writeRecord, ha, State.addEdges_mem, State.store_mem]

/-- What a copy that ends well contributes: every byte not delivered, and its member (R228). -/
def CopyOp.lastContribution (c : CopyOp) : Contribution :=
  { bytes := c.len * c.rows * max 1 c.shares.length - c.sent, member := true, flags := { err := false, partly := c.shares.any (·.dropped), missed := missedOf c.shares } }

section
variable {s : State} {id : Nat} {o : Op} {c : CopyOp}

/-- A copy that ends well. -/
theorem State.finishCopy_of_done (s : State) (id : Nat) (o : Op) (c : CopyOp) : s.finishCopy id o c none false =
    (match c.nb with
      | some nb => ((s.freed o.thread c).recorded o.thread c (1 + (if c.shares.any (·.dropped) then 2 else 0) + 0) (missedOf c.shares).toNat o.allEdges).contribute id o nb c.lastContribution
      | none => (s.freed o.thread c).recorded o.thread c (1 + (if c.shares.any (·.dropped) then 2 else 0) + 0) (missedOf c.shares).toNat o.allEdges).closeOp id := rfl

theorem State.closeOp_of_no_message (h : ∀ m ∈ s.msgs, m.2.op ≠ some id) : s.closeOp id = s.endOp id := by
  have hnone : (s.msgs.any fun m => m.2.op = some id) = false := List.any_eq_false.2 fun m hm => by simpa using h m hm
  rw [State.closeOp, hnone]
  rfl

theorem Tab.mem_of_get? {κ ν : Type} [DecidableEq κ] {m : Tab κ ν} {k : κ} {v : ν} (h : Tab.get? m k = some v) : (k, v) ∈ m := by
  induction m with
  | nil => simp [Tab.get?] at h
  | cons p m ih =>
    obtain ⟨k', v'⟩ := p
    by_cases hk : k' = k
    · simp only [Tab.get?, hk, if_true, Option.some.injEq] at h
      simp [hk, h]
    · exact List.mem_cons_of_mem _ (ih (by simpa [Tab.get?, hk] using h))

/-- An operation whose messages are still on their way closes. -/
theorem State.closeOp_of_message {m : Nat} {g : Msg} (hg : s.msg? m = some g) (hm : g.op = some id) (ho : s.op? id = some o) :
    s.closeOp id = (s.unqueue (o.places id)).setOp id { o with closing := true } := by
  have hany : (s.msgs.any fun m => m.2.op = some id) = true := List.any_eq_true.2 ⟨_, Tab.mem_of_get? hg, by simpa using hm⟩
  rw [State.closeOp, hany, ho]
  rfl

theorem State.finishCopy_mem (s : State) (id : Nat) (o : Op) (c : CopyOp) : (s.finishCopy id o c none false).mem =
    ((s.freed o.thread c).recorded o.thread c (1 + (if c.shares.any (·.dropped) then 2 else 0) + 0) (missedOf c.shares).toNat o.allEdges).mem := by
  rw [State.finishCopy_of_done, State.closeOp_mem]
  cases c.nb <;> rfl

/-- What a finished copy leaves when it contributes nothing: its record, and no operation. -/
theorem State.finishCopy_silent (hn : c.nb = none) (hm : ∀ m ∈ s.msgs, m.2.op ≠ some id) : ∃ w, s.SameTables w ∧ s.finishCopy id o c none false = w.endOp id := by
  have hw : s.SameTables ((s.freed o.thread c).recorded o.thread c (1 + (if c.shares.any (·.dropped) then 2 else 0) + 0) (missedOf c.shares).toNat o.allEdges) :=
    (s.freed_keeps ..).1.trans (State.recorded_sameTables ..)
  refine ⟨_, hw, ?_⟩
  rw [State.finishCopy_of_done, hn]
  exact State.closeOp_of_no_message (by rw [hw.msgs]; exact hm)

/-- What it leaves when it contributes: its record, its message, and its operation closing. -/
theorem State.finishCopy_contributes {nb : Nat} (ho : s.op? id = some o) (hn : c.nb = some nb) :
    (s.finishCopy id o c none false).op? id = some { o with closing := true }
      ∧ (s.finishCopy id o c none false).msg? s.nextId = some
            { body := .contribute o.thread.cohort nb { bytes := c.len * c.rows * max 1 c.shares.length - c.sent, member := true
                                                       flags := { partly := c.shares.any (·.dropped), missed := missedOf c.shares }, know := o.allEdges }, op := some id } := by
  rw [State.finishCopy_of_done, hn]
  generalize hw : (s.freed o.thread c).recorded o.thread c _ _ _ = w
  have hsame : s.SameTables w := hw ▸ (s.freed_keeps ..).1.trans (State.recorded_sameTables ..)
  have hmsg : (w.contribute id o nb c.lastContribution).msg? s.nextId = some
            { body := .contribute o.thread.cohort nb { bytes := c.len * c.rows * max 1 c.shares.length - c.sent, member := true
                                                       flags := { partly := c.shares.any (·.dropped), missed := missedOf c.shares }, know := o.allEdges }, op := some id } := by
    rw [← hsame.nextId]
    exact Tab.get?_put_self ..
  dsimp only
  rw [State.closeOp_of_message hmsg rfl (by rw [State.op?]; exact (congrArg (Tab.get? · id) hsame.ops).trans ho)]
  have hq := State.unqueue_endsAs (w.contribute id o nb c.lastContribution) (o.places id)
  refine ⟨State.op?_setOp .., ?_⟩
  rw [State.setOp_msg?, State.msg?, hq.msgs]
  exact hmsg

end

theorem copiesMoveChunksAndComplete : CopiesMoveChunksAndComplete := by
  intro s id o c ho hb hmv
  have hcomplete : ∀ x l, c.shares = x :: l → (∀ y ∈ c.shares, y.done = true ∨ y.dropped = true) → (c.slot = none ∨ c.started = true) →
      exec (.copyComplete id) s = .next (s.finishCopy id o c none false) := fun x l hs hall hslot => by
    have hfalse : (!c.started && c.slot.any (fun b => s.slotOutcome o.thread.cohort b = some false) && !s.queueHeld id o) = false := by
      rcases hslot with h | h <;> simp [h]
    have htrue : (decide (c.shares ≠ []) && c.shares.all (fun x => x.done || x.dropped)) = true := by
      rw [Bool.and_eq_true, List.all_eq_true]
      exact ⟨by simp [hs], fun y hy => by simpa using hall y hy⟩
    rw [exec, execCopyComplete]
    simp only [ho, hb, hmv, hfalse, htrue, Bool.not_true, Bool.false_eq_true, if_false, if_true]
  refine ⟨fun x bs u hs hdone hdrop hheld hslot hmc hlist => ?_, hcomplete, fun x l hs hall hslot hlist => ?_⟩
  · have hchunk : exec (.copyChunkWrite id 0) s = .next (s.copyChunk id o c 0) := by
      rw [exec, execCopyChunkWrite]
      simp only [ho, hb, hs, List.length_singleton, List.getD_cons_zero, hdone, hdrop, hheld, hmv, hslot, Option.any_none, Bool.false_and, Bool.not_true,
        Bool.or_false, Bool.false_eq_true, if_false, ge_iff_le, decide_false, nonpos_iff_eq_zero, one_ne_zero]
    rw [hchunk]
    refine ⟨fun hw => by rw [State.copyChunk_waits hs hmc hlist hw], fun hw1 hw2 hr hwr => ?_⟩
    obtain ⟨k, w, hw, hmem, he⟩ := State.copyChunk_moves hs hmc hlist hw1 hw2 hr hwr
    refine ⟨_, c.moved x _, k, rfl, ?_, ?_, ?_, c.after_place x _, rfl, rfl, fun l => ?_⟩
    · rw [he, State.setOp_mem]
      cases c.nb <;> exact hmem
    · rw [he, State.op?_setOp]
    · intro nb hnb
      have hnext : w.nextId = s.nextId := hw.nextId.trans ((State.engineWrite_memoryAs hwr).nextId.trans (s.giveUp_memoryAs id).nextId)
      rw [he, hnb, State.setOp_msg?, ← hnext]
      exact Tab.get?_put_self ..
    · rw [he]
      cases c.nb <;> exact (State.writers_unclaim ..).trans (by rw [hw.writers]; rfl)
  · dsimp only
    rw [hcomplete x l hs hall hslot]
    have hfree : s.freed o.thread c = c.shares.foldl (fun u y => u.unclaim (shareCore o.thread y) y.claims) s := rfl
    have hstatus : 1 + (if c.shares.any (·.dropped) then 2 else 0) + 0 = if c.shares.any (·.dropped) then 3 else 1 := by split <;> rfl
    refine ⟨_, rfl, fun hn => ?_, fun p a hp ha => ?_, fun hn hm => ?_, fun nb hn => ?_⟩
    · rw [State.finishCopy_mem, State.recorded_none hn, (s.freed_keeps ..).2]
    · rw [State.finishCopy_mem, State.recorded_some hp (hfree ▸ ha), (s.freed_keeps ..).2, hstatus]
    · obtain ⟨w, -, he⟩ := State.finishCopy_silent (o := o) hn hm
      rw [he]
      exact State.endOp_op?_self ..
    · obtain ⟨hop, hmsg⟩ := State.finishCopy_contributes ho hn
      exact ⟨hop, hmsg⟩

/-- Settles O22: a copy's chunk and its end are one rule each, and what they reach leaves its tables alone. -/
theorem copiesAreQueuedMoveAndComplete : Obligations.CopiesAreQueuedMoveAndComplete := ⟨copyAndKickAreQueued, copiesMoveChunksAndComplete⟩

end Sys2Proof.Machine
end

section
/-! PROOFS. What a bundle's moving on can change; matrix words at issue (O28). -/

namespace Sys2Proof.Machine

/-! ## What a bundle's moving on can change (R30) -/

/-- What a bundle's moving on changes of a thread: where it stands, its latches, and what it knows and waits for. -/
def Thread.MovesAs (y x : Thread) : Prop := ∃ run latches exiting word inside yielding pc nextPc taint seq tokens readySince know joins,
  y = { x with run := run, latches := latches, exiting := exiting, word := word, inside := inside, yielding := yielding, pc := pc, nextPc := nextPc
               taint := taint, seq := seq, tokens := tokens, readySince := readySince, know := know, joins := joins }

theorem Thread.MovesAs.refl (x : Thread) : x.MovesAs x := ⟨_, _, _, _, _, _, _, _, _, _, _, _, _, _, rfl⟩
theorem Thread.MovesAs.trans {x y z : Thread} (g : z.MovesAs y) (h : y.MovesAs x) : z.MovesAs x := by
  obtain ⟨_, _, _, _, _, _, _, _, _, _, _, _, _, _, rfl⟩ := h
  obtain ⟨_, _, _, _, _, _, _, _, _, _, _, _, _, _, rfl⟩ := g
  exact ⟨_, _, _, _, _, _, _, _, _, _, _, _, _, _, rfl⟩

/-- What it changes of the machine. -/
structure State.MovesAs (u s : State) : Prop where
  parts : ∃ nextId quads threads cohorts, u = { s with nextId := nextId, quads := quads, threads := threads, cohorts := cohorts }
  quad : ∀ q, ∃ bundles seq, u.quad q = { s.quad q with bundles := bundles, seq := seq }
  thread : ∀ t, (u.thread t).MovesAs (s.thread t)

namespace State.MovesAs
variable {s u w : State}

theorem refl (s : State) : s.MovesAs s := ⟨⟨_, _, _, _, rfl⟩, fun _ => ⟨_, _, rfl⟩, fun _ => .refl _⟩

theorem trans (g : w.MovesAs u) (h : u.MovesAs s) : w.MovesAs s := by
  refine ⟨?_, fun q => ?_, fun t => (g.thread t).trans (h.thread t)⟩
  · obtain ⟨_, _, _, _, hu⟩ := h.parts
    obtain ⟨_, _, _, _, hw⟩ := g.parts
    subst hu hw
    exact ⟨_, _, _, _, rfl⟩
  · obtain ⟨_, _, hu⟩ := h.quad q
    obtain ⟨_, _, hw⟩ := g.quad q
    rw [hw, hu]
    exact ⟨_, _, rfl⟩

theorem foldl {α : Type} (l : List α) (g : State → α → State) (h : ∀ s a, (g s a).MovesAs s) (s : State) : (l.foldl g s).MovesAs s := by
  induction l generalizing s with
  | nil => exact refl s
  | cons a l ih => exact (ih _).trans (h s a)

theorem ite {c : Prop} [Decidable c] (hu : u.MovesAs s) (hw : w.MovesAs s) : (if c then u else w).MovesAs s := by
  split <;> assumption

theorem setThread (s : State) (t : ThreadId) {x : Thread} (h : x.MovesAs (s.thread t)) : (s.setThread t x).MovesAs s := by
  refine ⟨⟨_, _, _, _, rfl⟩, fun _ => ⟨_, _, rfl⟩, fun v => ?_⟩
  by_cases hv : v = t
  · rw [hv, State.thread_setThread]
    exact h
  · rw [State.thread_setThread_ne _ _ _ _ hv]
    exact .refl _

theorem modThread (s : State) (t : ThreadId) {f : Thread → Thread} (h : ∀ x, (f x).MovesAs x) : (s.modThread t f).MovesAs s := setThread s t (h _)

theorem modQuad (s : State) (q : QuadId) {f : Quad → Quad} (h : ∃ bundles seq, f (s.quad q) = { s.quad q with bundles := bundles, seq := seq }) :
    (s.modQuad q f).MovesAs s := by
  refine ⟨⟨_, _, _, _, rfl⟩, fun v => ?_, fun _ => .refl _⟩
  by_cases hv : v = q
  · rw [hv, State.modQuad_eq, State.quad_setQuad]
    exact h
  · rw [State.modQuad_eq, State.quad_setQuad_ne _ _ _ _ hv]
    exact ⟨_, _, rfl⟩

theorem of_own (h : ∃ nextId cohorts, u = { s with nextId := nextId, cohorts := cohorts }) : u.MovesAs s := by
  obtain ⟨_, _, rfl⟩ := h
  exact ⟨⟨_, _, _, _, rfl⟩, fun _ => ⟨_, _, rfl⟩, fun _ => .refl _⟩

section
variable (h : u.MovesAs s)
include h
theorem mem : u.mem = s.mem := by obtain ⟨_, _, _, _, rfl⟩ := h.parts; rfl
theorem ops : u.ops = s.ops := by obtain ⟨_, _, _, _, rfl⟩ := h.parts; rfl
theorem op? (i : Nat) : u.op? i = s.op? i := by rw [State.op?, h.ops, State.op?]
theorem msgs : u.msgs = s.msgs := by obtain ⟨_, _, _, _, rfl⟩ := h.parts; rfl
theorem queues (q : QuadId) : (u.quad q).queues = (s.quad q).queues := by
  obtain ⟨_, _, h⟩ := h.quad q
  rw [h]
theorem acc (q : QuadId) : (u.quad q).acc = (s.quad q).acc := by
  obtain ⟨_, _, h⟩ := h.quad q
  rw [h]
theorem dc (t : ThreadId) (c : Nat) : (u.thread t).dc c = (s.thread t).dc c := by
  obtain ⟨_, _, _, _, _, _, _, _, _, _, _, _, _, _, h⟩ := h.thread t
  rw [h]
  rfl
theorem rowprog (t : ThreadId) : (u.thread t).rowprog = (s.thread t).rowprog := by
  obtain ⟨_, _, _, _, _, _, _, _, _, _, _, _, _, _, h⟩ := h.thread t
  rw [h]
end
end State.MovesAs

theorem State.observe_movesAs (s : State) (t : ThreadId) (nb : Nat) : (s.observe t nb).MovesAs s :=
  .modThread s t fun _ => ⟨_, _, _, _, _, _, _, _, _, _, _, _, _, _, rfl⟩

theorem State.stand_movesAs (s : State) (t : ThreadId) : (s.stand t).MovesAs s := by
  have hset : ∀ x : Thread, x.MovesAs (s.thread t) → (s.setThread t x).MovesAs s := fun x h => .setThread s t h
  unfold State.stand
  dsimp only
  split
  · exact hset _ ⟨_, _, _, _, _, _, _, _, _, _, _, _, _, _, rfl⟩
  · split
    · exact hset _ ⟨_, _, _, _, _, _, _, _, _, _, _, _, _, _, rfl⟩
    · split
      · exact hset _ ⟨_, _, _, _, _, _, _, _, _, _, _, _, _, _, rfl⟩
      · exact (State.MovesAs.modThread _ t fun _ => ⟨_, _, _, _, _, _, _, _, _, _, _, _, _, _, rfl⟩).trans (.ite (s.observe_movesAs ..) (.refl s))

theorem State.renew_movesAs (s : State) (t : ThreadId) : (s.renew t).MovesAs s :=
  (State.MovesAs.modThread _ t fun _ => ⟨_, _, _, _, _, _, _, _, _, _, _, _, _, _, rfl⟩).trans (.modQuad s _ ⟨_, _, rfl⟩)

theorem State.endClause_movesAs (s : State) (b : Bundle) (t : ThreadId) : (s.endClause b t).MovesAs s := by
  unfold State.endClause
  dsimp only
  split
  · exact .setThread s t ⟨_, _, _, _, _, _, _, _, _, _, _, _, _, _, rfl⟩
  · refine (State.stand_movesAs ..).trans ((State.MovesAs.setThread _ t ⟨_, _, _, _, _, _, _, _, _, _, _, _, _, _, rfl⟩).trans ?_)
    exact .ite (s.renew_movesAs t) (.refl s)

theorem State.advance_movesAs (s : State) (q : QuadId) (k : Nat) : (s.advance q k).MovesAs s := by
  unfold State.advance
  split
  · exact .refl s
  · dsimp only
    split
    · exact .modQuad s q ⟨_, _, rfl⟩
    · split
      · exact .modQuad s q ⟨_, _, rfl⟩
      · exact (State.MovesAs.foldl _ _ (fun u t => u.endClause_movesAs ..) _).trans (.modQuad s q ⟨_, _, rfl⟩)

theorem State.hold_movesAs (s : State) (q : QuadId) (k pool : Nat) : (s.hold q k pool).MovesAs s := by
  unfold State.hold
  split
  · exact .refl s
  · exact (State.MovesAs.modQuad _ q ⟨_, _, rfl⟩).trans (.of_own ⟨_, _, rfl⟩)

theorem flow_movesAs (i : Instr) (x : Thread) : (i.flow x).MovesAs x := by
  unfold Instr.flow
  split
  · exact .refl x
  · exact ⟨_, _, _, _, _, _, _, _, _, _, _, _, _, _, rfl⟩

theorem State.retire_movesAs (s : State) (i : Instr) (q : QuadId) (k : Nat) (ts : List ThreadId) : (s.retire i q k ts).MovesAs s := by
  have hflow : ∀ l : List ThreadId, (l.foldl (fun (s : State) t => if (s.thread t).taint = [] then s else s.modThread t i.flow) s).MovesAs s := fun l =>
    .foldl _ _ (fun u t => .ite (.refl u) (.modThread u t (flow_movesAs i))) s
  have hseq : ∀ (l : List CohortId) (u : State), (l.foldl (fun (s : State) c => s.modCohort c fun x => { x with seq := x.seq + 1 }) u).MovesAs u := fun l u =>
    .foldl _ _ (fun u c => .of_own ⟨_, _, rfl⟩) u
  unfold State.retire
  dsimp only
  split
  · exact hflow _
  · exact (hseq ..).trans ((State.MovesAs.ite (.refl _) (.modQuad _ q ⟨_, _, rfl⟩)).trans (hflow _))

/-- A bundle that moves on changes no operation, no memory, and nothing of a tile or of what its threads count. -/
theorem State.moveOn_movesAs (s : State) (i : Instr) (q : QuadId) (k : Nat) (ts : List ThreadId) : (s.moveOn i q k ts).MovesAs s := by
  refine State.MovesAs.trans ?_ (s.retire_movesAs i q k ts)
  unfold State.moveOn
  dsimp only
  split
  · exact .ite (State.hold_movesAs ..) (.ite (State.advance_movesAs ..) (.refl _))
  · exact .refl _

/-! ## The members' vote (R139) -/

/-- The vote goes to a value that some member has. -/
theorem vote_mem {α : Type} (p : α → α → Bool) (x : α) (l : List α) : l.foldl (fun w y => if p y w then y else w) x ∈ x :: l := by
  induction l generalizing x with
  | nil => simp
  | cons a l ih =>
    rw [List.foldl_cons]
    rcases List.mem_cons.1 (ih (if p a x then a else x)) with h | h
    · rw [h]
      split <;> simp
    · exact List.mem_cons_of_mem _ (List.mem_cons_of_mem _ h)

theorem dissenters_eq {x : ThreadId × Nat} {l : List (ThreadId × Nat)} :
    ∃ w ∈ x :: l, dissenters (x :: l) = ((x :: l).filter fun y => y.2 ≠ w.2).map (·.1) := by
  exact ⟨_, vote_mem (fun y w => decide (((x :: l).filter fun z => z.2 = y.2).length > ((x :: l).filter fun z => z.2 = w.2).length)) x l,
    by simp only [dissenters, decide_eq_true_eq]⟩

/-- Members with one value agree. -/
theorem dissenters_of_same {α : Type} (g : α → ThreadId × Nat) {v : Nat} {l : List α} (h : ∀ y ∈ l, (g y).2 = v) : dissenters (l.map g) = [] := by
  have hl : ∀ y ∈ l.map g, y.2 = v := fun y hy => by
    obtain ⟨z, hz, rfl⟩ := List.mem_map.1 hy
    exact h z hz
  cases hm : l.map g with
  | nil => rfl
  | cons x m =>
    rw [hm] at hl
    obtain ⟨w, hw, he⟩ := dissenters_eq (x := x) (l := m)
    rw [he, List.map_eq_nil_iff, List.filter_eq_nil_iff]
    intro y hy
    simp [hl y hy, hl w hw]

/-- The vote goes to the value that more members have than any other. -/
theorem vote_most (count : Nat → Nat) {v : Nat} (x : ThreadId × Nat) (l : List (ThreadId × Nat)) (hv : ∃ y ∈ x :: l, y.2 = v) (h : ∀ u, u ≠ v → count u < count v) :
    (l.foldl (fun w y => if count y.2 > count w.2 then y else w) x).2 = v := by
  induction l generalizing x with
  | nil => simpa using hv
  | cons a l ih =>
    rw [List.foldl_cons]
    refine ih _ ?_
    obtain ⟨y, hy, rfl⟩ := hv
    rcases List.mem_cons.1 hy with rfl | hy
    · by_cases ha : a.2 = y.2
      · exact ⟨_, List.mem_cons_self, by split <;> simp [ha]⟩
      · exact ⟨_, List.mem_cons_self, by rw [if_neg (by have := h a.2 ha; omega)]⟩
    · rcases List.mem_cons.1 hy with rfl | hy
      · by_cases hx : x.2 = y.2
        · exact ⟨_, List.mem_cons_self, by split <;> simp [hx]⟩
        · exact ⟨_, List.mem_cons_self, by rw [if_pos (h x.2 hx)]⟩
      · exact ⟨y, List.mem_cons_of_mem _ hy, rfl⟩

/-! ## The checks of a matrix word (R140) -/

/-- What the members vote on: their sources, and their row progress under .RESUME. -/
def matrixItems (reads : List (ThreadId × Nat × Nat × Nat)) (resume : Bool) (progs : List (ThreadId × Nat)) : List (Nat × List (ThreadId × Nat)) :=
  [(1, reads.map fun r => (r.1, r.2.1)), (2, reads.map fun r => (r.1, r.2.2.1)), (3, reads.map fun r => (r.1, r.2.2.2))]
    ++ (if resume then [(0, progs)] else [])

theorem matrixItems_agree {ts : List ThreadId} {v : Nat × Nat × Nat} {resume : Bool} {n : Nat} {g : ThreadId → Nat} (hg : resume = true → ∀ x ∈ ts, g x = n) :
    (matrixItems (ts.map fun t => (t, v)) resume (ts.map fun t => (t, g t))).find? (fun i => decide (dissenters i.2 ≠ [])) = none := by
  have hsame : ∀ (g : ThreadId × (Nat × Nat × Nat) → ThreadId × Nat) (n : Nat), (∀ u, (g (u, v)).2 = n) → dissenters ((ts.map fun t => (t, v)).map g) = [] := fun g n hg =>
    dissenters_of_same (v := n) _ fun y hy => by
      obtain ⟨u, -, rfl⟩ := List.mem_map.1 hy
      exact hg u
  have hnone : ∀ l : List (ThreadId × Nat), dissenters l = [] → ¬ decide (dissenters l ≠ []) = true := fun l h => by simp [h]
  rw [List.find?_eq_none]
  intro i hi
  unfold matrixItems at hi
  rcases List.mem_append.1 hi with hi | hi
  · simp only [List.mem_cons, List.not_mem_nil, or_false] at hi
    rcases hi with rfl | rfl | rfl
    · exact hnone _ (hsame _ v.1 fun _ => rfl)
    · exact hnone _ (hsame _ v.2.1 fun _ => rfl)
    · exact hnone _ (hsame _ v.2.2 fun _ => rfl)
  · cases resume with
    | false => simp at hi
    | true =>
      rw [if_pos rfl, List.mem_singleton] at hi
      rw [hi]
      exact hnone _ (dissenters_of_same (v := n) _ (hg rfl))

/-- Whether the values that the members agree on are refused. -/
def matrixBad (code : MatCode) (zonly : Bool) (a b c : Nat) : Bool :=
  match code with
  | .mmag => (rateOf b).isNone
  | .mmaq => (rateOf c).isNone
  | .mdrain => !zonly && (!drainLegal b c || offsetOf (BitVec.ofNat 64 a) % 16 ≠ 0 || c % 16 ≠ 0)

/-- The command of members who agree. -/
def State.matrixCommand (s : State) (f : Fields) (code : MatCode) (zonly resume : Bool) (t : ThreadId) (rest : List ThreadId) (a b c : Nat) : MatOp :=
  let x := s.thread t
  { code := code, members := t :: rest, quad := x.quad
    tile := (Tab.getD (s.cohort t.cohort).tiles x.quad.quad []).getD (f.dst.toNat % 4) 0
    queue := f.dst.toNat / 4 % 2, acc := f.dst.toNat / 8 % 2 = 1, zero := f.dst.toNat / 8 % 2 = 1, zonly := zonly
    resume := resume, a := BitVec.ofNat 64 a, b := BitVec.ofNat 64 b
    fmt := BitVec.ofNat 32 (if code = .mmaq then c else b), stride := c
    rmode := let m := b / 32 % 8
             if m = 0 then x.rmode.toNat else m
    seed := x.srseed, nbv := if (s.launchOf t.cohort).nbv % 4 = 1 then 1 else 2
    slot := if f.modG then some (s.bindSlot t.cohort f.modSlot) else none
    nb := if f.modSig then some f.modNb else none
    prog := if resume then x.rowprog else 0 }

section
variable {s : State} {f : Fields} {code : MatCode} {zonly resume : Bool} {t : ThreadId} {rest : List ThreadId} {a b c : Nat}
  (hz : zonly = (decide (code = .mdrain) && decide (f.dst.toNat / 16 % 2 = 1))) (hr : resume = (decide (code ≠ .mdrain) && decide (f.dst.toNat / 16 % 2 = 1)))
  (h : ∀ x ∈ t :: rest, (s.thread x).matrixSources f code zonly = some (a, b, c))
include hz hr h

theorem State.matrixCheck_of_agree (hp : resume = true → ∀ x ∈ t :: rest, (s.thread x).rowprog = (s.thread t).rowprog) :
    s.matrixCheck f code (t :: rest) = if matrixBad code zonly a b c || (resume && (s.thread t).rowprog.toNat % 2 = 0) then .trap .illegalOperand 0 0
      else .ok (s.matrixCommand f code zonly resume t rest a b c) := by
  have hreads : ((t :: rest).filterMap fun t => ((s.thread t).matrixSources f code zonly).map fun v => (t, v)) = (t :: rest).map fun t => (t, (a, b, c)) := by
    rw [← List.filterMap_eq_map]
    exact List.filterMap_congr fun x hx => by rw [h x hx]; rfl
  have hitems := matrixItems_agree (ts := t :: rest) (v := (a, b, c)) (g := fun t => (s.thread t).rowprog.toNat) (n := (s.thread t).rowprog.toNat)
    fun hres x hx => by rw [hp hres x hx]
  unfold matrixItems at hitems
  unfold State.matrixCheck
  simp only [← hz, ← hr, hreads]
  rw [hitems, if_neg (by simp)]
  simp only [List.map_cons, List.head?_cons, Option.map_some, Option.getD_some]
  rfl

end

theorem State.thread_foldl_modThread (g : Thread → Thread) {l : List ThreadId} (hn : l.Nodup) (s : State) (x : ThreadId) :
    (l.foldl (fun s t => s.modThread t g) s).thread x = if x ∈ l then g (s.thread x) else s.thread x := by
  induction l generalizing s with
  | nil => simp
  | cons a l ih =>
    obtain ⟨ha, hn⟩ := List.nodup_cons.1 hn
    rw [List.foldl_cons, ih hn]
    by_cases hx : x = a
    · subst hx
      rw [if_neg ha, if_pos List.mem_cons_self, State.thread_modThread]
    · rw [State.thread_modThread_ne _ _ hx]
      simp [hx]

theorem State.quads_foldl_modThread (g : Thread → Thread) (l : List ThreadId) (s : State) : (l.foldl (fun s t => s.modThread t g) s).quads = s.quads
    ∧ (l.foldl (fun s t => s.modThread t g) s).ops = s.ops ∧ (l.foldl (fun s t => s.modThread t g) s).mem = s.mem := by
  induction l generalizing s with
  | nil => exact ⟨rfl, rfl, rfl⟩
  | cons a l ih => exact ih (s.modThread a g)

/-- The operation that carries a command: what all its members know comes before it. -/
def State.commandOp (s : State) (b : Bundle) (t : ThreadId) (ts : List ThreadId) (m : MatOp) : Op :=
  let forks := ts.map fun u => s.newOp b u (some 4) (.matrix m.start)
  { s.newOp b t (some 4) (.matrix m.start) with know := forks.foldl (fun k o => join k o.know) [], edges := forks.flatMap (·.edges) }

/-- Under .RESUME the members' row progress is valid no more. -/
def State.spent (s : State) (ts : List ThreadId) (m : MatOp) : State :=
  if m.resume then ts.foldl (fun s t => s.modThread t fun x => { x with rowprog := x.rowprog &&& ~~~1 }) s else s

/-- What a matrix word does for members who agree: one command, at the end of its queue. -/
def State.queueCommand (s : State) (b : Bundle) (t : ThreadId) (ts : List ThreadId) (m : MatOp) : State :=
  (((s.addOp (s.commandOp b t ts m)).2.modQuad m.quad fun q => { q with queues := q.queues.set m.queue (q.queues.getD m.queue [] ++ [s.nextId]) }).spent ts m).modThread t
    fun x => { x with srseed := xsSteps m.draws x.srseed }

theorem MatOp.start_members (m : MatOp) : m.start.members = m.members := by unfold MatOp.start; dsimp only; split <;> rfl

theorem State.spent_keeps (s : State) (ts : List ThreadId) (m : MatOp) : (s.spent ts m).quads = s.quads ∧ (s.spent ts m).ops = s.ops ∧ (s.spent ts m).mem = s.mem := by
  unfold State.spent
  split
  · exact State.quads_foldl_modThread ..
  · exact ⟨rfl, rfl, rfl⟩

section
variable {s : State} {b : Bundle} {t : ThreadId} {ts : List ThreadId} {m : MatOp} (hm : m.members = ts)
include hm

theorem State.addCommand_eq : (s.addOp (s.commandOp b t ts m)).2 =
    ts.foldl (fun u t => u.modThread t fun x => x.raiseDc 4 s.nextId) { s with nextId := s.nextId + 1, ops := s.ops.put s.nextId (s.commandOp b t ts m) } := by
  rw [← hm, ← m.start_members]
  rfl

theorem State.queueCommand_op? : (s.queueCommand b t ts m).op? s.nextId = some (s.commandOp b t ts m) := by
  unfold State.queueCommand
  rw [State.op?, State.modThread_eq, State.setThread_ops, (State.spent_keeps ..).2.1, State.modQuad_eq, State.setQuad_ops, State.addCommand_eq hm,
    (State.quads_foldl_modThread ..).2.1]
  exact Tab.get?_put_self ..

theorem State.queueCommand_quad : (s.queueCommand b t ts m).quad m.quad =
    { s.quad m.quad with queues := (s.quad m.quad).queues.set m.queue ((s.quad m.quad).queues.getD m.queue [] ++ [s.nextId]) } := by
  have hquad : ∀ u v : State, u.quads = v.quads → ∀ q, u.quad q = v.quad q := fun u v h q => by rw [State.quad, h, State.quad]
  unfold State.queueCommand
  rw [State.modThread_eq, State.setThread_quad, hquad _ _ (State.spent_keeps ..).1, State.modQuad_eq, State.quad_setQuad, State.addCommand_eq hm,
    hquad _ _ (State.quads_foldl_modThread ..).1]
  rfl

theorem State.queueCommand_mem : (s.queueCommand b t ts m).mem = s.mem := by
  unfold State.queueCommand
  rw [State.modThread_eq, State.setThread_mem, (State.spent_keeps ..).2.2, State.modQuad_eq, State.setQuad_mem, State.addCommand_eq hm,
    (State.quads_foldl_modThread ..).2.2]

/-- Each member counts the command once; under .RESUME its row progress is spent. -/
theorem State.queueCommand_thread (hn : ts.Nodup) {x : ThreadId} (hx : x ∈ ts) (hc : 4 < (s.thread x).dcs.length) :
    ((s.queueCommand b t ts m).thread x).dc 4 = (s.thread x).dc 4 + 1
      ∧ ((s.queueCommand b t ts m).thread x).rowprog = if m.resume then (s.thread x).rowprog &&& ~~~1 else (s.thread x).rowprog := by
  have hlast : ∀ u : State, ((u.modThread t fun x => { x with srseed := xsSteps m.draws x.srseed }).thread x).dc 4 = (u.thread x).dc 4
      ∧ ((u.modThread t fun x => { x with srseed := xsSteps m.draws x.srseed }).thread x).rowprog = (u.thread x).rowprog := fun u => by
    by_cases ht : x = t
    · subst ht
      rw [State.thread_modThread]
      exact ⟨rfl, rfl⟩
    · rw [State.thread_modThread_ne _ _ ht]
      exact ⟨rfl, rfl⟩
  have hspent : ∀ u : State, ((u.spent ts m).thread x).dc 4 = (u.thread x).dc 4
      ∧ ((u.spent ts m).thread x).rowprog = if m.resume then (u.thread x).rowprog &&& ~~~1 else (u.thread x).rowprog := fun u => by
    unfold State.spent
    split
    · rw [State.thread_foldl_modThread _ hn, if_pos hx]
      exact ⟨rfl, rfl⟩
    · exact ⟨rfl, rfl⟩
  have hadd : ((s.addOp (s.commandOp b t ts m)).2).thread x = (s.thread x).raiseDc 4 s.nextId := by
    rw [State.addCommand_eq hm, State.thread_foldl_modThread _ hn, if_pos hx]
    rfl
  unfold State.queueCommand
  rw [(hlast _).1, (hlast _).2, (hspent _).1, (hspent _).2, State.modQuad_eq, State.setQuad_thread, hadd, Thread.dc_raiseDc _ _ hc]
  exact ⟨rfl, rfl⟩

end

/-- A matrix word whose members agree: the command is queued, and the bundle moves on. -/
theorem State.matrixWord_queued {s : State} {i : Instr} {f : Fields} {code : MatCode} {q : QuadId} {k : Nat} {b : Bundle} {t : ThreadId} {rest : List ThreadId} {m : MatOp}
    (hi : Issuing s i f q k b) (he : s.executing b f = t :: rest) (hck : s.quiet.matrixCheck f code (t :: rest) = .ok m)
    (hroom : ((s.quad m.quad).queues.getD m.queue []).length < 32) :
    s.matrixWord i f code = .next ((s.quiet.queueCommand b t (t :: rest) m).moveOn i q k (t :: rest)) := by
  unfold State.matrixWord
  dsimp only
  rw [State.runBundle_next hi]
  · simp only [he, hck]
    rfl
  · simp only [he, hck]
    exact if_neg (Nat.not_le.2 hroom)

/-- What of the machine a queued command leaves. -/
theorem matrixWord_leaves {s : State} {i : Instr} {f : Fields} {code : MatCode} {q : QuadId} {k : Nat} {b : Bundle} {t : ThreadId} {rest : List ThreadId} {m : MatOp}
    (hexec : exec i s = s.matrixWord i f code) (hi : Issuing s i f q k b) (he : s.executing b f = t :: rest) (hck : s.quiet.matrixCheck f code (t :: rest) = .ok m)
    (hm : m.members = t :: rest) (hlen : m.queue < (s.quad m.quad).queues.length) (hroom : ((s.quad m.quad).queues.getD m.queue []).length < 32)
    (hdc : ∀ x ∈ t :: rest, 4 < (s.thread x).dcs.length) :
    ∃ u id o, exec i s = .next u ∧ u.op? id = some o ∧ o.body = .matrix m.start ∧ o.ctr = some 4
      ∧ (u.quad m.quad).queues.getD m.queue [] = (s.quad m.quad).queues.getD m.queue [] ++ [id] ∧ (∀ x ∈ t :: rest, (u.thread x).dc 4 = (s.thread x).dc 4 + 1)
      ∧ u.mem = s.mem ∧ (u.quad m.quad).acc = (s.quad m.quad).acc
      ∧ ∀ x ∈ t :: rest, (u.thread x).rowprog = if m.resume then (s.thread x).rowprog &&& ~~~1 else (s.thread x).rowprog := by
  have hmv := State.moveOn_movesAs (s.quiet.queueCommand b t (t :: rest) m) i q k (t :: rest)
  have hn : (t :: rest).Nodup := he ▸ hi.once.filter _
  have hth : ∀ x ∈ t :: rest, _ := fun x hx => State.queueCommand_thread (s := s.quiet) (b := b) (t := t) hm hn hx (by rw [State.quiet_thread]; exact hdc x hx)
  simp only [State.quiet_thread] at hth
  refine ⟨_, s.nextId, _, hexec.trans (State.matrixWord_queued hi he hck hroom), (hmv.op? _).trans (State.queueCommand_op? hm), rfl, rfl, ?_, fun x hx => ?_, ?_, ?_, fun x hx => ?_⟩
  · rw [hmv.queues, State.queueCommand_quad hm]
    exact getD_set_of_lt hlen
  · rw [hmv.dc]
    exact (hth x hx).1
  · rw [hmv.mem, State.queueCommand_mem hm]
    rfl
  · rw [hmv.acc, State.queueCommand_quad hm]
    rfl
  · rw [hmv.rowprog]
    exact (hth x hx).2

theorem MatOp.start_of_fresh {m : MatOp} (h : m.resume = false) : m.start = m := by
  unfold MatOp.start
  rw [h]
  rfl

theorem MatOp.start_of_resume {m : MatOp} (h : m.resume = true) : m.start = { m with
    group := bitsOf m.prog.toNat 63 60, block := bitsOf m.prog.toNat 59 48, batch := bitsOf m.prog.toNat 47 40, bend := bitsOf m.prog.toNat 39 32
    row := bitsOf m.prog.toNat 31 24 } := by
  unfold MatOp.start
  rw [h]
  rfl

/-- A command that resumes keeps what it is queued with. -/
theorem MatOp.start_keeps {m : MatOp} (h : m.resume = true) : m.start.members = m.members ∧ m.start.quad = m.quad ∧ m.start.queue = m.queue
    ∧ m.start.tile = m.tile ∧ m.start.slot = m.slot ∧ m.start.nb = m.nb ∧ m.start.begun = m.begun ∧ m.start.ended = m.ended ∧ m.start.b = m.b := by
  rw [start_of_resume h]
  exact ⟨rfl, rfl, rfl, rfl, rfl, rfl, rfl, rfl, rfl⟩

/-- A matrix word of one thread whose check fails: its illegal-operand trap. -/
theorem matrixWord_traps {i : Instr} {f : Fields} {code : MatCode} {p : State → Bundle → ThreadId → Prop} (hexec : ∀ s, exec i s = s.matrixWord i f code)
    (h : ∀ s b t, p s b t → s.matrixCheck f code [t] = .trap .illegalOperand 0 0) (hq : ∀ s b t, p s b t → p s.quiet b t) :
    Traps i f p .illegalOperand (fun _ _ _ => 0) fun _ _ _ => 0 := by
  intro s q k b t hi hp
  have ht : t ∈ s.executing b f := by rw [hi.alone]; simp
  have hrun : (s.quiet.thread t).run = .issuing := hi.running t (List.mem_filter.mp ht).1
  have hck := h s.quiet b t (hq s b t hp)
  rw [hexec]
  unfold State.matrixWord
  dsimp only
  rw [State.runBundle_next hi.toIssuing]
  · simp only [hi.alone, hck, List.foldl_cons, List.foldl_nil, hrun, if_true]
  · simp only [hi.alone, hck]

section
variable {s : State} {i : Instr} {f : Fields} {code : MatCode} {zonly resume : Bool} {q : QuadId} {k : Nat} {b : Bundle} {t : ThreadId} {rest : List ThreadId}
  {va vb vc : Nat}

/-- Members who agree on values that are not refused: their command is queued. -/
theorem matrixWord_commands (hexec : ∀ s, exec i s = s.matrixWord i f code)
    (hz : zonly = (decide (code = .mdrain) && decide (f.dst.toNat / 16 % 2 = 1))) (hr : resume = (decide (code ≠ .mdrain) && decide (f.dst.toNat / 16 % 2 = 1)))
    (hready : Issuing s i f q k b ∧ s.executing b f = t :: rest ∧ (s.quad (s.thread t).quad).queues.length = 2
      ∧ ((s.quad (s.thread t).quad).queues.getD (f.dst.toNat / 4 % 2) []).length < 32 ∧ ∀ x ∈ t :: rest, 4 < (s.thread x).dcs.length)
    (h : ∀ x ∈ t :: rest, (s.thread x).matrixSources f code zonly = some (va, vb, vc)) (hb : matrixBad code zonly va vb vc = false)
    (hp : resume = true → (s.thread t).rowprog.toNat % 2 = 1 ∧ ∀ x ∈ t :: rest, (s.thread x).rowprog = (s.thread t).rowprog) :
    ∃ u id o, exec i s = .next u ∧ u.op? id = some o ∧ o.body = .matrix (s.matrixCommand f code zonly resume t rest va vb vc).start ∧ o.ctr = some 4
      ∧ (u.quad (s.thread t).quad).queues.getD (f.dst.toNat / 4 % 2) [] = (s.quad (s.thread t).quad).queues.getD (f.dst.toNat / 4 % 2) [] ++ [id]
      ∧ (∀ x ∈ t :: rest, (u.thread x).dc 4 = (s.thread x).dc 4 + 1)
      ∧ u.mem = s.mem ∧ (u.quad (s.thread t).quad).acc = (s.quad (s.thread t).quad).acc
      ∧ ∀ x ∈ t :: rest, (u.thread x).rowprog = if resume then (s.thread x).rowprog &&& ~~~1 else (s.thread x).rowprog := by
  obtain ⟨hi, he, hlen, hroom, hdc⟩ := hready
  have hck : s.quiet.matrixCheck f code (t :: rest) = .ok (s.quiet.matrixCommand f code zonly resume t rest va vb vc) := by
    have hprog : (resume && decide ((s.quiet.thread t).rowprog.toNat % 2 = 0)) = false := by
      cases hres : resume with
      | false => rfl
      | true => simp [State.quiet_thread, (hp hres).1]
    rw [State.matrixCheck_of_agree hz hr (by simpa only [State.quiet_thread] using h) (by simpa only [State.quiet_thread] using fun hres => (hp hres).2), hb, hprog]
    rfl
  have hj : f.dst.toNat / 4 % 2 < (s.quad (s.thread t).quad).queues.length := by rw [hlen]; omega
  exact matrixWord_leaves (hexec s) hi he hck rfl hj hroom hdc

end

section
variable {f : Fields} {s : State} {t : ThreadId} {rest : List ThreadId} {p : DWord}

/-- What a command that resumes is: its cursor is its row progress. -/
theorem State.resumed_start {code : MatCode} {va vb vc : Nat} {a : DWord} {w : Word} (ha : BitVec.ofNat 64 va = a) (hw : BitVec.ofNat 32 (if code = .mmaq then vc else vb) = w)
    (hp : (s.thread t).rowprog = p) :
    let m := (s.matrixCommand f code false true t rest va vb vc).start
    m.code = code ∧ m.a = a ∧ m.fmt = w ∧ m.resume = true ∧ m.prog = p
        ∧ m.group = bitsOf p.toNat 63 60 ∧ m.block = bitsOf p.toNat 59 48 ∧ m.batch = bitsOf p.toNat 47 40 ∧ m.bend = bitsOf p.toNat 39 32
        ∧ m.row = bitsOf p.toNat 31 24 := by
  subst ha hw hp
  rw [MatOp.start_of_resume rfl]
  exact ⟨rfl, rfl, rfl, rfl, rfl, rfl, rfl, rfl, rfl, rfl⟩

/-- The VALID bit of a row progress is cleared. -/
theorem rowprog_spent {u : State} (hu : ∀ x ∈ t :: rest, (u.thread x).rowprog = if true then (s.thread x).rowprog &&& ~~~1 else (s.thread x).rowprog)
    (hp : ∀ x ∈ t :: rest, (s.thread x).rowprog = p) : ∀ x ∈ t :: rest, (u.thread x).rowprog = p &&& 0xFFFFFFFFFFFFFFFE := fun x hx => by
  rw [hu x hx, if_pos rfl, hp x hx]
  rfl
end

theorem matrixWordsQueueOneCommand : MatrixWordsQueueOneCommand := by
  intro f s q k b t rest a c w st
  dsimp only
  have ha : BitVec.ofNat 64 a.toNat = a := by simp
  have hw : BitVec.ofNat 32 w.toNat = w := by simp
  refine ⟨fun h0 hready hall hrate => ?_, fun h0 hready hall hrate => ?_, fun p hp1 h1 hrate => ⟨fun hready hall => ?_, fun hready hall => ?_⟩,
    fun h0 hready hall hleg hoff hst => ?_, fun h1 h8 hready => ?_, ?_, ?_⟩
  · obtain ⟨u, id, o, hx, ho, hbody, hctr, hq, hdc, hmem, hacc, -⟩ := matrixWord_commands (va := a.toNat) (vb := w.toNat) (vc := 0)
      (fun s => by rw [exec, execMmag]) (zonly := false) (resume := false) (by simp) (by simp [h0]) hready
      (fun x hx => by simp [Thread.matrixSources, hall x hx]) (by simpa [matrixBad] using hrate) (by simp)
    rw [MatOp.start_of_fresh rfl] at hbody
    exact ⟨u, id, o, _, hx, ho, hbody, hctr, rfl, rfl, rfl, rfl, rfl, rfl, rfl, rfl, ⟨rfl, ha, hw, by simp [State.matrixCommand], rfl⟩, hq, hdc, hmem, hacc⟩
  · obtain ⟨u, id, o, hx, ho, hbody, hctr, hq, hdc, hmem, hacc, -⟩ := matrixWord_commands (va := a.toNat) (vb := c.toNat) (vc := w.toNat)
      (fun s => by rw [exec, execMmaq]) (zonly := false) (resume := false) (by simp) (by simp [h0]) hready
      (fun x hx => by simp [Thread.matrixSources, hall x hx]) (by simpa [matrixBad] using hrate) (by simp)
    rw [MatOp.start_of_fresh rfl] at hbody
    exact ⟨u, id, o, _, hx, ho, hbody, hctr, rfl, rfl, rfl, rfl, rfl, rfl, rfl, rfl,
      ⟨rfl, ha, by simp [State.matrixCommand], hw, by simp [State.matrixCommand], rfl⟩, hq, hdc, hmem, hacc⟩
  · have hprog : ∀ x ∈ t :: rest, (s.thread x).rowprog = p := fun x hx => (hall x hx).2.2
    have ht := hprog t List.mem_cons_self
    obtain ⟨u, id, o, hx, ho, hbody, hctr, hq, hdc, hmem, hacc, hrow⟩ := matrixWord_commands (va := a.toNat) (vb := w.toNat) (vc := 0)
      (fun s => by rw [exec, execMmag]) (zonly := false) (resume := true) (by simp) (by simp [h1]) hready
      (fun x hx => by simp [Thread.matrixSources, hall x hx]) (by simpa [matrixBad] using hrate) (fun _ => ⟨by rw [ht, hp1], fun x hx => by rw [hprog x hx, ht]⟩)
    obtain ⟨g1, g2, g3, g4, g5, g6, g7, g8, g9, g10⟩ := State.resumed_start (s := s) (f := f) (rest := rest) (code := .mmag) (vc := 0) ha hw ht
    obtain ⟨k1, k2, k3, k4, k5, k6, k7, k8, -⟩ := MatOp.start_keeps (m := s.matrixCommand f .mmag false true t rest a.toNat w.toNat 0) rfl
    exact ⟨u, id, o, _, hx, ho, hbody, hctr, k1, k2, k3, k4, k5, k6, k7, k8, ⟨g1, g2, g3, g4, g5, g6, g7, g8, g9, g10, rowprog_spent hrow hprog⟩, hq, hdc, hmem, hacc⟩
  · have hprog : ∀ x ∈ t :: rest, (s.thread x).rowprog = p := fun x hx => (hall x hx).2.2.2
    have ht := hprog t List.mem_cons_self
    obtain ⟨u, id, o, hx, ho, hbody, hctr, hq, hdc, hmem, hacc, hrow⟩ := matrixWord_commands (va := a.toNat) (vb := c.toNat) (vc := w.toNat)
      (fun s => by rw [exec, execMmaq]) (zonly := false) (resume := true) (by simp) (by simp [h1]) hready
      (fun x hx => by simp [Thread.matrixSources, hall x hx]) (by simpa [matrixBad] using hrate) (fun _ => ⟨by rw [ht, hp1], fun x hx => by rw [hprog x hx, ht]⟩)
    obtain ⟨g1, g2, g3, g4, g5, g6, g7, g8, g9, g10⟩ := State.resumed_start (s := s) (f := f) (rest := rest) (code := .mmaq) (vb := c.toNat) ha hw ht
    obtain ⟨k1, k2, k3, k4, k5, k6, k7, k8, k9⟩ := MatOp.start_keeps (m := s.matrixCommand f .mmaq false true t rest a.toNat c.toNat w.toNat) rfl
    exact ⟨u, id, o, _, hx, ho, hbody, hctr, k1, k2, k3, k4, k5, k6, k7, k8, ⟨⟨g1, g2, g3, g4, g5, g6, g7, g8, g9, g10, rowprog_spent hrow hprog⟩, k9.trans (by simp [State.matrixCommand])⟩, hq, hdc, hmem, hacc⟩
  · obtain ⟨u, id, o, hx, ho, hbody, hctr, hq, hdc, hmem, hacc, -⟩ := matrixWord_commands (va := a.toNat) (vb := w.toNat) (vc := st.toNat)
      (fun s => by rw [exec, execMdrain]) (zonly := false) (resume := false) (by simp [h0]) (by simp) hready
      (fun x hx => by simp [Thread.matrixSources, hall x hx]) (by simp [matrixBad, hleg, hoff, hst]) (by simp)
    rw [MatOp.start_of_fresh rfl] at hbody
    exact ⟨u, id, o, _, hx, ho, hbody, hctr, rfl, rfl, rfl, rfl, rfl, rfl, rfl, rfl, ⟨rfl, ha, hw, rfl, by simp [State.matrixCommand], rfl, rfl, rfl⟩, hq, hdc, hmem, hacc⟩
  · obtain ⟨u, id, o, hx, ho, hbody, hctr, hq, hdc, hmem, hacc, -⟩ := matrixWord_commands (code := .mdrain) (va := 0) (vb := 0) (vc := 0)
      (fun s => by rw [exec, execMdrainZonly]) (zonly := true) (resume := false) (by simp [h1]) (by simp) hready
      (fun x hx => by simp [Thread.matrixSources]) rfl (by simp)
    rw [MatOp.start_of_fresh rfl] at hbody
    exact ⟨u, id, o, _, hx, ho, hbody, hctr, rfl, rfl, rfl, rfl, rfl, rfl, rfl, rfl, ⟨rfl, rfl, by simp [State.matrixCommand, h8]⟩, hq, hdc, hmem, hacc⟩
  · refine matrixWord_traps (fun s => by rw [exec, execMmag]) (fun s b t ⟨ha, hb, hrate⟩ => ?_) fun s b t hp => by simpa only [State.quiet_thread] using hp
    rw [State.matrixCheck_of_agree rfl rfl (a := a.toNat) (b := w.toNat) (c := 0) (by simp [Thread.matrixSources, ha, hb]) (by simp)]
    simp [matrixBad, hrate]
  · refine matrixWord_traps (fun s => by rw [exec, execMmaq]) (fun s b t ⟨h1, ha, hc, hw, hp⟩ => ?_) fun s b t hp => by simpa only [State.quiet_thread] using hp
    rw [State.matrixCheck_of_agree rfl rfl (a := a.toNat) (b := c.toNat) (c := w.toNat) (by simp [Thread.matrixSources, ha, hc, hw]) (by simp)]
    simp [h1, hp]

/-! ## Members who dissent (R139) -/

/-- Those who dissent are those whose value is not the one that more members have than any other. -/
theorem dissenters_of_plurality {α : Type} (g : α → ThreadId × Nat) {v : Nat} {l : List α} (hne : ∃ y ∈ l, (g y).2 = v)
    (h : ∀ u, u ≠ v → (l.filter fun y => (g y).2 = u).length < (l.filter fun y => (g y).2 = v).length) :
    dissenters (l.map g) = (l.filter fun y => (g y).2 ≠ v).map fun y => (g y).1 := by
  have hcount : ∀ u, ((l.map g).filter fun x => x.2 = u).length = (l.filter fun y => (g y).2 = u).length := fun u => by
    rw [List.filter_map, List.length_map]
    rfl
  cases l with
  | nil => rfl
  | cons a l =>
    have hv := vote_most (fun u => (((a :: l).map g).filter fun x => x.2 = u).length) (v := v) (g a) (l.map g)
      (by obtain ⟨y, hy, e⟩ := hne; exact ⟨g y, by rw [← List.map_cons]; exact List.mem_map_of_mem hy, e⟩) fun u hu => by
        rw [hcount, hcount]
        exact h u hu
    simp only [List.map_cons] at hv
    unfold dissenters
    simp only [List.map_cons]
    rw [hv, ← List.map_cons, List.filter_map, List.map_map]
    rfl

theorem formatDivergenceNamesTheDissenters : FormatDivergenceNamesTheDissenters := by
  intro f s ts a w x h0 hts hdis hmost
  have hreads : (ts.filterMap fun t => ((s.thread t).matrixSources f .mmag false).map fun v => (t, v)) = ts.map fun t => (t, (a.toNat, (x t).toNat, 0)) := by
    rw [← List.filterMap_eq_map]
    exact List.filterMap_congr fun t ht => by simp [Thread.matrixSources, hts t ht]
  obtain ⟨y, hy, hyw⟩ := hdis
  have hpos : 0 < (ts.filter fun t => x t = w).length := Nat.zero_lt_of_lt (hmost (x y) hyw)
  have hd : dissenters (ts.map fun t => (t, (x t).toNat)) = ts.filter fun t => x t ≠ w := by
    rw [dissenters_of_plurality (v := w.toNat)]
    · simp [BitVec.toNat_inj]
    · obtain ⟨z, hz⟩ := List.exists_mem_of_length_pos hpos
      exact ⟨z, (List.mem_filter.1 hz).1, congrArg BitVec.toNat (of_decide_eq_true (List.mem_filter.1 hz).2)⟩
    · intro u hu
      simp only [BitVec.toNat_inj]
      by_cases hz : ∃ z ∈ ts, (x z).toNat = u
      · obtain ⟨z, -, rfl⟩ := hz
        simp only [BitVec.toNat_inj]
        exact hmost (x z) fun e => hu (congrArg BitVec.toNat e)
      · rwa [List.filter_eq_nil_iff.2 fun z hmem => by simpa using fun e => hz ⟨z, hmem, e⟩]
  have hsame : dissenters (ts.map fun t => (t, a.toNat)) = [] := dissenters_of_same _ fun _ _ => rfl
  have hne : (ts.filter fun t => x t ≠ w) ≠ [] := fun hnil => by simpa [hyw] using List.filter_eq_nil_iff.1 hnil y hy
  cases ts with
  | nil => simp at hy
  | cons t rest =>
    unfold State.matrixCheck
    simp only [h0, reduceCtorEq, decide_false, Bool.false_and, Bool.and_false, hreads, List.length_map, List.map_map, Function.comp_def]
    rw [if_neg (by simp)]
    have hitems : ∀ l : List (Nat × List (ThreadId × Nat)),
        ((1, (t :: rest).map fun t => (t, a.toNat)) :: (2, (t :: rest).map fun t => (t, (x t).toNat)) :: l).find? (fun i => decide (dissenters i.2 ≠ []))
          = some (2, (t :: rest).map fun t => (t, (x t).toNat)) := fun l => by
      rw [List.find?_cons_of_neg (by simp only [hsame]; simp), List.find?_cons_of_pos (by simp only [hd]; exact decide_eq_true hne)]
    simp only [List.cons_append, hitems]
    rw [hd]

/-- Settles O28: the members agree, and one command is queued for them; or the vote names those who do not. -/
theorem matrixWordsQueueOneCommandOrNameTheDissenters : Obligations.MatrixWordsQueueOneCommandOrNameTheDissenters :=
  ⟨matrixWordsQueueOneCommand, formatDivergenceNamesTheDissenters⟩

end Sys2Proof.Machine
end

section
/-! PROOFS. What ends a thread's waits (O39). -/

namespace Sys2Proof.Machine

/-! ## The delivery of a deferred fault (R159, R235, R384) -/

/-- What the settling of fences changes of the machine. -/
theorem State.settleFence_eq (s : State) (t : ThreadId) (f : Fence) : ∃ threads pins syncs scFences,
    s.settleFence t f = { s with threads := threads, pins := pins, syncs := syncs, scFences := scFences } := by
  have hite : ∀ {c : Prop} {_ : Decidable c} {u w : State}, (∃ threads pins syncs scFences, u = { s with threads := threads, pins := pins, syncs := syncs, scFences := scFences }) →
      (∃ threads pins syncs scFences, w = { s with threads := threads, pins := pins, syncs := syncs, scFences := scFences }) →
      ∃ threads pins syncs scFences, (if c then u else w) = { s with threads := threads, pins := pins, syncs := syncs, scFences := scFences } := by
    intro c _ u w hu hw
    split <;> assumption
  have hself : ∃ threads pins syncs scFences, s = { s with threads := threads, pins := pins, syncs := syncs, scFences := scFences } := ⟨_, _, _, _, rfl⟩
  unfold State.settleFence
  dsimp only
  split
  · exact hite hself ⟨_, _, _, _, rfl⟩
  · exact hite hself ⟨_, _, _, _, rfl⟩
  · exact hite hself (hite ⟨_, _, _, _, rfl⟩ ⟨_, _, _, _, rfl⟩)
  · exact hite hself (hite ⟨_, _, _, _, rfl⟩ ⟨_, _, _, _, rfl⟩)

theorem State.settleFences_eq (s : State) (t : ThreadId) : ∃ threads pins syncs scFences,
    s.settleFences t = { s with threads := threads, pins := pins, syncs := syncs, scFences := scFences } := by
  unfold State.settleFences
  generalize (s.thread t).fences = l
  induction l generalizing s with
  | nil => exact ⟨_, _, _, _, rfl⟩
  | cons f l ih =>
    obtain ⟨_, _, _, _, h⟩ := s.settleFence_eq t f
    obtain ⟨_, _, _, _, hl⟩ := ih (s.settleFence t f)
    exact ⟨_, _, _, _, by rw [List.foldl_cons, hl, h]⟩

/-- The faults of a cohort's threads that a delivery takes. -/
def Deferred.markTaken (d : Deferred) (x : Thread) : Thread :=
  { x with deferred := x.deferred.map fun (e : Deferred) => if e.op = d.op && e.sub = d.sub && e.kind = d.kind then { e with taken := true } else e }

/-- The machine as a fault that it delivers finds it. -/
def State.delivering (s : State) (t : ThreadId) (d : Deferred) : State :=
  let s := (s.modThread t fun x => { x with deferred := x.deferred.filter fun e => e ≠ d }).settleFences t
  { s with threads := s.threads.map fun u (x : Thread) => if u.cohort = t.cohort then d.markTaken x else x }

theorem Tab.get?_map {κ ν : Type} [DecidableEq κ] (m : Tab κ ν) (f : κ → ν → ν) (k : κ) : Tab.get? (m.map f) k = (Tab.get? m k).map (f k) := by
  induction m with
  | nil => rfl
  | cons e m ih =>
    by_cases he : e.1 = k
    · simp [Tab.map, Tab.get?, he]
    · simp only [Tab.map, List.map_cons, Tab.get?, he, if_false]
      exact ih

theorem Tab.getD_map {κ ν : Type} [DecidableEq κ] (m : Tab κ ν) (f : κ → ν → ν) (k : κ) {v : ν} (h : f k v = v) : (m.map f).getD k v = f k (m.getD k v) := by
  rw [Tab.getD, Tab.get?_map, Tab.getD]
  cases Tab.get? m k with
  | none => exact h.symm
  | some x => rfl

section
variable {s : State} {t : ThreadId} {d : Deferred}

theorem State.delivering_readsAs : (s.delivering t d).ReadsAs s := by
  obtain ⟨_, _, _, _, h⟩ := State.settleFences_eq (s.modThread t fun x => { x with deferred := x.deferred.filter fun e => e ≠ d }) t
  unfold State.delivering
  rw [h]
  exact ⟨rfl, rfl, rfl, rfl, rfl, rfl, fun _ => rfl⟩

theorem State.delivering_owes : (s.delivering t d).owes t = s.owes t := by
  obtain ⟨_, _, _, _, h⟩ := State.settleFences_eq (s.modThread t fun x => { x with deferred := x.deferred.filter fun e => e ≠ d }) t
  unfold State.delivering
  rw [h]
  rfl

theorem State.delivering_thread (h : (s.thread t).deferred = [d]) : ((s.delivering t d).thread t).deferred = [] ∧ ((s.delivering t d).thread t).regs = (s.thread t).regs
    ∧ ((s.delivering t d).thread t).handler = (s.thread t).handler := by
  have hmark : ∀ x : Thread, x.deferred = [] → d.markTaken x = x := fun x hx => by
    unfold Deferred.markTaken
    rw [hx]
    obtain ⟨⟩ := x
    subst hx
    rfl
  obtain ⟨_, _, _, _, hends⟩ := (State.settleFences_endsAs (s.modThread t fun x => { x with deferred := x.deferred.filter fun e => e ≠ d }) t).thread t
  rw [State.thread_modThread] at hends
  have hnil : (((s.modThread t fun x => { x with deferred := x.deferred.filter fun e => e ≠ d }).settleFences t).thread t).deferred = [] := by
    rw [hends, h]
    simp
  have hthread : (s.delivering t d).thread t = ((s.modThread t fun x => { x with deferred := x.deferred.filter fun e => e ≠ d }).settleFences t).thread t := by
    unfold State.delivering
    rw [State.thread, Tab.getD_map _ _ t (by rw [if_pos rfl, hmark _ rfl]), if_pos rfl]
    exact hmark _ hnil
  rw [hthread]
  exact ⟨hnil, by rw [hends], by rw [hends]⟩

theorem execDeferredFaultDelivery_of_due {p : TrapPoint} (h : s.dueFault t = some (d, p)) (hone : (s.thread t).deferred = [d]) (hk : d.kind ≠ .resourceWait) :
    execDeferredFaultDelivery t s = .next ((s.delivering t d).takeTrap t { kind := d.kind, record := d.record, point := p, rowprog := d.rowprog }) := by
  have hrest : ((s.thread t).deferred.filter fun e => e ≠ d) = [] := by simp [hone]
  have hrec : d.delivered p (decide (([] : List Deferred) ≠ [])) = d.record := by simp [Deferred.delivered, hk]
  unfold execDeferredFaultDelivery
  rw [h]
  simp only [hrest, hrec]
  unfold State.delivering Deferred.markTaken
  simp only [State.modThread_eq, hrest]

end

theorem deferredFaultsAreDeliveredAtTheirWaits : DeferredFaultsAreDeliveredAtTheirWaits := by
  intro s t d w v ws hone hkind hh hr hk ha hs hrun hin hoff hf hbad
  have hdue : s.dueFault t = if s.mayBegin t then ((s.thread t).deliverableAt (Header.ofWord w)).map fun d =>
      (d, { pc := (s.thread t).pc, word := 0, next := 1, count := (Header.ofWord w).count, kind := .header }) else none := by
    unfold State.dueFault
    simp only [hh, hr, hk, ha, hrun, hin, hoff, hf, hbad]
    cases s.mayBegin t <;> simp
  have hat : (s.thread t).deliverableAt (Header.ofWord w) = if ((Header.ofWord w).dcwait.getD d.ctr 7 ≠ 7 ∧ (Header.ofWord w).dcwait.getD d.ctr 7 ≤ d.after)
      ∨ ((Header.ofWord w).nbw = true ∧ d.nb = some (Header.ofWord w).nbid) then some d else none := by
    unfold Thread.deliverableAt
    rw [hh, hone]
    simp only [Bool.false_eq_true, if_false, List.find?_cons, List.find?_nil]
    split <;> simp_all
  refine ⟨fun h7 hnb => ?_, fun hmeet hb ho hw hv => ?_⟩
  · have hno : ¬ (((Header.ofWord w).dcwait.getD d.ctr 7 ≠ 7 ∧ (Header.ofWord w).dcwait.getD d.ctr 7 ≤ d.after)
        ∨ ((Header.ofWord w).nbw = true ∧ d.nb = some (Header.ofWord w).nbid)) := by
      rintro (⟨h1, h2⟩ | ⟨h1, h2⟩)
      · rcases h7 with h | h
        · exact h1 h
        · omega
      · rcases hnb with h | h
        · simp [h1] at h
        · exact h h2
    have hnone : s.dueFault t = none := by
      rw [hdue, hat, if_neg hno]
      split <;> rfl
    rw [exec, execDeferredFaultDelivery, hnone]
  · rw [hb, if_pos rfl, hat, if_pos hmeet] at hdue
    obtain ⟨hnil, hregs, hhand⟩ := State.delivering_thread hone
    have hreads := State.delivering_readsAs (s := s) (t := t) (d := d)
    have hent := aTrapSavesTheStateAndEntersTheHandler (s.delivering t d) t
      { kind := d.kind, record := d.record, point := { pc := (s.thread t).pc, word := 0, next := 1, count := (Header.ofWord w).count, kind := .header }, rowprog := d.rowprog } v
      (hhand.trans hh) (by rw [State.stopping, hreads.vf, hreads.cohort]; exact hs) (State.delivering_owes.trans ho)
    obtain ⟨hpc, hhandler, hfaults, hpoint, -, -, -, -, -, -, hreg, -, -, -, -, -, -, hdef, -, -, -, -, -, hmem⟩ := hent.2 ((hreads.vectorWaits ..).trans hw) ((hreads.vector ..).trans hv)
    exact ⟨_, by rw [exec, execDeferredFaultDelivery_of_due hdue hone hkind], hdef.trans hnil, hhandler, hpc, hfaults, hpoint, hreg.trans hregs, hmem.trans hreads.mem⟩

/-! ## Resource waits and the end of a thread (R343, R393) -/

section
variable {s : State} {t : ThreadId}

/-- The turn of an operation's resource wait (R393). -/
theorem exec_resourceWait_op {id n pool : Nat} {o : Op} {p : DWord} (ho : s.op? id = some o) (ht : o.thread = t) (ha : s.awake t.cohort = true)
    (hp : s.poolOf id o = some (pool, n, p)) : exec (.resourceWait t (some id)) s = .next (if n + resourceLimit ≤ s.now then (s.withdraw id o).addDeferred t
        { op := id, ctr := o.ctr.getD 0, kind := .resourceWait, dst := o.dst, record := trapRec .resourceWait pool o.word o.pc p (if pool = 6 then p else 0) 0 0 false false } else s) := by
  rw [exec, execResourceWait]
  generalize resourceLimit = l
  simp [ho, ht, ha, hp]

/-- The turn of a held word's resource wait: no KICK is fetched. -/
theorem exec_resourceWait_word {k n : Nat} {b : Bundle} {i : Instr} {f : Fields} (hb : s.bundleOf t = some (k, b)) (hi : b.instr = some i) (hf : i.fields? = some f)
    (he : (s.thread t).executes f = true) (hw : b.waitOps = []) (hp : b.pool ≠ 0) (hn : b.heldSince = some n) :
    exec (.resourceWait t none) s = .next (if n + resourceLimit ≤ s.now then s.takeTrap t
      { kind := .resourceWait, record := trapRec .resourceWait b.pool b.word b.pc (s.wordPointer b t i f) (Instr.waitAux i (s.wordPointer b t i f)) 0 0 false false, point := b.point .word false }
      else s) := by
  have hkicks : List.filter (fun (o : Nat × Op) => o.2.thread = t && b.waitOps.contains o.1) s.ops = [] := by simp [hw]
  have hword : s.wordWait t b i f b.pool = s.takeTrap t
      { kind := .resourceWait, record := trapRec .resourceWait b.pool b.word b.pc (s.wordPointer b t i f) (Instr.waitAux i (s.wordPointer b t i f)) 0 0 false false, point := b.point .word false } := by
    unfold State.wordWait
    rw [hkicks]
    rfl
  have hlong : b.heldSince.any (fun n => decide (n + resourceLimit ≤ s.now)) = decide (n + resourceLimit ≤ s.now) := by rw [hn, Option.any_some]
  rw [exec, execResourceWait, hb, ← hword]
  simp only [hi, Option.bind_some, hf, he, hlong, hw]
  simp [hp]
end

theorem resourceWaitsEndAfterTenMilliseconds : ResourceWaitsEndAfterTenMilliseconds := by
  have hlimit : resourceLimit = 36000000 := by simp [resourceLimit, ticksPerUs]
  unfold ResourceWaitsEndAfterTenMilliseconds
  rw [← hlimit]
  refine ⟨fun s t id n pool o p ho ht ha hp => ?_, fun s t k n b i f hb hi hf he hw hpool hn => ?_⟩
  · rw [exec_resourceWait_op ho ht ha hp]
    exact ⟨fun h => by rw [if_neg (Nat.not_le.2 h)], fun h => by rw [if_pos h]⟩
  · rw [exec_resourceWait_word hb hi hf he hw hpool hn]
    exact ⟨fun h => by rw [if_neg (Nat.not_le.2 h)], fun h => by rw [if_pos h]⟩

theorem aDrainingThreadReleasesAndEnds : ADrainingThreadReleasesAndEnds := by
  intro s t hrun ha hd
  refine ⟨fun ⟨c, hc, h0⟩ => ?_, fun h0 => ?_⟩
  · have hall : (List.range 6).all (fun c => decide ((s.thread t).dc c = 0)) = false := List.all_eq_false.2 ⟨c, List.mem_range.2 hc, by simp [h0]⟩
    rw [exec, execExitDrainComplete]
    simp [hall]
  · have hall : (List.range 6).all (fun c => decide ((s.thread t).dc c = 0)) = true := List.all_eq_true.2 fun c hc => by simp [h0 c (List.mem_range.1 hc)]
    rw [exec, execExitDrainComplete]
    simp [hrun, ha, hd, hall]

/-- Settles O39: a fault is delivered where its thread waits for it, a resource wait ends after its ten milliseconds, and a drained thread ends. -/
theorem deferredFaultsResourceWaitsAndThreadEnds : Obligations.DeferredFaultsResourceWaitsAndThreadEnds :=
  ⟨deferredFaultsAreDeliveredAtTheirWaits, resourceWaitsEndAfterTenMilliseconds, aDrainingThreadReleasesAndEnds⟩

end Sys2Proof.Machine
end

section
/-! PROOFS. Pre-emption: a context that stops, is saved, restored and runs (O43). -/

namespace Sys2Proof.Machine

/-- What no step of a fold changes, the fold does not. -/
theorem State.foldl_keeps {α β : Type} (p : State → β) (g : State → α → State) (h : ∀ s a, p (g s a) = p s) (l : List α) (s : State) : p (l.foldl g s) = p s := by
  induction l generalizing s with
  | nil => rfl
  | cons a l ih => rw [List.foldl_cons, ih, h]

/-! ## What the save and the restore of a context leave (R396, R399) -/

/-- What the steps of a save and of a restore change: the records of the context's threads and cohorts, of its cores, and of its operations. -/
def State.PausesAs (u s : State) : Prop := ∃ cores quads grids cohorts threads objects ops moves pins syncs,
  u = { s with cores := cores, quads := quads, grids := grids, cohorts := cohorts, threads := threads, objects := objects, ops := ops, moves := moves, pins := pins, syncs := syncs }

namespace State.PausesAs
variable {s u w : State}

theorem refl (s : State) : s.PausesAs s := ⟨_, _, _, _, _, _, _, _, _, _, rfl⟩

theorem trans (g : w.PausesAs u) (h : u.PausesAs s) : w.PausesAs s := by
  obtain ⟨_, _, _, _, _, _, _, _, _, _, rfl⟩ := h
  obtain ⟨_, _, _, _, _, _, _, _, _, _, rfl⟩ := g
  exact ⟨_, _, _, _, _, _, _, _, _, _, rfl⟩

theorem foldl {α : Type} (l : List α) {g : State → α → State} (h : ∀ s a, (g s a).PausesAs s) (s : State) : (l.foldl g s).PausesAs s := by
  induction l generalizing s with
  | nil => exact refl s
  | cons a l ih => exact (ih _).trans (h s a)

theorem ite {c : Prop} [Decidable c] (hu : u.PausesAs s) (hw : w.PausesAs s) : (if c then u else w).PausesAs s := by
  split <;> assumption

section
variable (h : u.PausesAs s)
include h
theorem mem : u.mem = s.mem := by obtain ⟨_, _, _, _, _, _, _, _, _, _, rfl⟩ := h; rfl
theorem chip (c : Nat) : u.chip c = s.chip c := by obtain ⟨_, _, _, _, _, _, _, _, _, _, rfl⟩ := h; rfl
theorem vf (c v : Nat) : u.vf c v = s.vf c v := by rw [State.vf, h.chip, State.vf]
theorem ns (c : Nat) : u.ns c = s.ns c := by obtain ⟨_, _, _, _, _, _, _, _, _, _, rfl⟩ := h; rfl
end
end State.PausesAs

section
variable (s : State)

theorem State.releaseAll_pausesAs (t : ThreadId) : (s.releaseAll t).PausesAs s := ⟨_, _, _, _, _, _, _, _, _, _, rfl⟩
theorem State.modThread_pausesAs (t : ThreadId) (f : Thread → Thread) : (s.modThread t f).PausesAs s := ⟨_, _, _, _, _, _, _, _, _, _, rfl⟩
theorem State.modQuad_pausesAs (q : QuadId) (f : Quad → Quad) : (s.modQuad q f).PausesAs s := ⟨_, _, _, _, _, _, _, _, _, _, rfl⟩
theorem State.modCohort_pausesAs (c : CohortId) (f : Cohort → Cohort) : (s.modCohort c f).PausesAs s := ⟨_, _, _, _, _, _, _, _, _, _, rfl⟩
theorem State.modCore_pausesAs (c : CoreId) (f : Core → Core) : (s.modCore c f).PausesAs s := ⟨_, _, _, _, _, _, _, _, _, _, rfl⟩
theorem State.setOp_pausesAs (i : Nat) (o : Op) : (s.setOp i o).PausesAs s := ⟨_, _, _, _, _, _, _, _, _, _, rfl⟩
theorem State.unpin_pausesAs (c : CohortId) : (s.unpin c).PausesAs s := ⟨_, _, _, _, _, _, _, _, _, _, rfl⟩
theorem State.unqueue_pausesAs (ids : List Nat) : (s.unqueue ids).PausesAs s := .ite (.refl s) ⟨_, _, _, _, _, _, _, _, _, _, rfl⟩
end

/-! ## The save (R396, R397) -/

/-- The releases of a context's threads, with its pins undone. -/
def State.released (s : State) (mine : List CohortId) : State :=
  mine.foldl State.unpin ((mine.flatMap s.threadsOf).foldl (fun s t => if (s.thread t).run = .ended then s else s.releaseAll t) s)

/-- Its operations recorded, and their claims given up. -/
def State.recordOps (s : State) (ops : List (Nat × Op)) : State :=
  (ops.foldl (fun s p => (p.2.claims.foldl (fun s k => s.unclaim k.1 k.2) s).setOp p.1 p.2.recorded) s).unqueue (ops.map (·.1))

/-- Its quadrants, threads and timers given up. -/
def State.vacated (s : State) (cs : List (CohortId × Cohort)) (ids : List Nat) (quads : List QuadId) : State :=
  let mine := cs.map (·.1)
  let s := quads.foldl (fun s q =>
    let tiles := cs.flatMap fun x => if x.1.toCore = q.toCore then Tab.getD x.2.tiles q.quad [] else []
    s.modQuad q fun y => y.vacate tiles mine ids) s
  let s := (mine.flatMap s.threadsOf).foldl (fun s t => s.modThread t fun x =>
    match x.run with | .parked (.timer d) => { x with run := .parked (.timer (d - s.now)) } | _ => x) s
  mine.foldl (fun s c => s.modCohort c fun x => { x with timers := [] }) s

theorem State.released_pausesAs (s : State) (mine : List CohortId) : (s.released mine).PausesAs s :=
  (State.PausesAs.foldl _ (fun u c => u.unpin_pausesAs c) _).trans (.foldl _ (fun u t => .ite (.refl u) (u.releaseAll_pausesAs t)) s)

theorem State.recordOps_pausesAs (s : State) (ops : List (Nat × Op)) : (s.recordOps ops).PausesAs s :=
  (State.unqueue_pausesAs ..).trans (.foldl _ (fun u p => (State.setOp_pausesAs ..).trans (.foldl _ (fun u k => u.modCore_pausesAs ..) u)) s)

theorem State.vacated_pausesAs (s : State) (cs : List (CohortId × Cohort)) (ids : List Nat) (quads : List QuadId) : (s.vacated cs ids quads).PausesAs s :=
  (State.PausesAs.foldl _ (fun u c => u.modCohort_pausesAs ..) _).trans
    ((State.PausesAs.foldl _ (fun u t => u.modThread_pausesAs ..) _).trans (.foldl _ (fun u q => u.modQuad_pausesAs ..) s))

theorem State.saveContext_eq (s : State) (chip vf : Nat) : ∃ area quads, area.forced = (s.vf chip vf).forced
    ∧ area.time = (((s.released ((s.cohortsIn chip vf).map (·.1))).recordOps (s.opsIn chip vf))).ns chip
    ∧ s.saveContext chip vf =
      let w := ((s.released ((s.cohortsIn chip vf).map (·.1))).recordOps (s.opsIn chip vf)).vacated (s.cohortsIn chip vf) ((s.opsIn chip vf).map (·.1)) quads
      { w with saves := w.saves.put (chip, vf) area }.setVf chip vf { s.vf chip vf with ctx := .saved } :=
  ⟨_, _, rfl, rfl, rfl⟩

/-- Once a cohort's pins are undone, none is left. -/
theorem State.released_pins (s : State) (mine : List CohortId) : ∀ p ∈ (s.released mine).pins, ∀ c ∈ mine, p.2.cohort ≠ c := by
  have hfold : ∀ (l : List CohortId) (u : State) (p : Nat × Pin), p ∈ (l.foldl State.unpin u).pins → p ∈ u.pins ∧ ∀ c ∈ l, p.2.cohort ≠ c := by
    intro l
    induction l with
    | nil => exact fun u p hp => ⟨hp, by simp⟩
    | cons c l ih =>
      intro u p hp
      obtain ⟨hp, hl⟩ := ih (u.unpin c) p hp
      obtain ⟨hp, hc⟩ := List.mem_filter.1 hp
      refine ⟨hp, fun d hd => ?_⟩
      rcases List.mem_cons.1 hd with rfl | hd
      · exact of_decide_eq_true hc
      · exact hl d hd
  exact fun p hp => (hfold mine _ p hp).2

theorem State.recordOps_pins (s : State) (ops : List (Nat × Op)) : (s.recordOps ops).pins = s.pins := by
  have hun : ∀ (u : State) (ids : List Nat), (u.unqueue ids).pins = u.pins := fun u ids => by
    unfold State.unqueue
    dsimp only
    split <;> rfl
  rw [State.recordOps, hun]
  refine State.foldl_keeps (·.pins) _ (fun u p => ?_) ops s
  exact State.foldl_keeps (·.pins) (fun s (k : CoreId × List Nat) => s.unclaim k.1 k.2) (fun _ _ => rfl) _ u

theorem State.vacated_pins (s : State) (cs : List (CohortId × Cohort)) (ids : List Nat) (quads : List QuadId) : (s.vacated cs ids quads).pins = s.pins := by
  unfold State.vacated
  refine (State.foldl_keeps (·.pins) _ ?_ _ _).trans ((State.foldl_keeps (·.pins) _ ?_ _ _).trans (State.foldl_keeps (·.pins) _ ?_ _ s))
  all_goals exact fun _ _ => rfl

theorem aPreemptedContextStopsAndIsSaved : APreemptedContextStopsAndIsSaved := by
  intro s chip vf
  dsimp only
  refine ⟨fun hrun hb he hp => ?_, fun hrun hb he hp hx => ?_, fun hd hp => ?_, fun hd hp hn => ?_, fun hd hp hn => ?_, fun t hc hv hl hs hh hha hr => ⟨fun hn => ?_, fun hn => ?_⟩,
    fun ⟨t, ht, hno⟩ => ?_, fun hs hall hland => ?_⟩
  · rw [exec, execPreemptRequest, he, State.preempt]
    simp [hrun, hb, hp]
  · rw [exec, execPreemptRequest, he, State.preempt]
    simp [hrun, hb, hp, hx]
  · rw [exec, execDeferralLimit, State.settleDefer]
    simp [hd, hp, State.modVf]
  · rw [exec, execDeferralLimit]
    simp [hd, hp, hn]
  · rw [exec, execDeferralLimit]
    simp [hd, hp, hn]
  · subst hc hv
    rw [exec, execHandlerPreemptLimit]
    simp [hl, hs, hh, hha, hr, hn]
  · subst hc hv
    rw [exec, execHandlerPreemptLimit]
    simp [hn]
  · have hall : (((s.cohortsIn chip vf).map (·.1)).flatMap s.threadsOf).all (fun t => (s.thread t).stands) = false :=
      List.all_eq_false.2 ⟨t, ht, by simp [hno]⟩
    rw [exec, execContextSaved]
    simp only [hall, Bool.and_false, Bool.false_and, Bool.false_eq_true, if_false]
  · obtain ⟨area, quads, hf, ht, hsave⟩ := s.saveContext_eq chip vf
    have hrec := ((s.released ((s.cohortsIn chip vf).map (·.1))).recordOps_pausesAs (s.opsIn chip vf)).trans (s.released_pausesAs _)
    have hvac := (State.vacated_pausesAs _ (s.cohortsIn chip vf) ((s.opsIn chip vf).map (·.1)) quads).trans hrec
    refine ⟨s.saveContext chip vf, ?_, ?_, ⟨area, ?_, hf, ht.trans (hrec.ns _)⟩, ?_, fun p hp x hx => ?_⟩
    · have h1 : (((s.cohortsIn chip vf).map (·.1)).flatMap s.threadsOf).all (fun t => (s.thread t).stands) = true := List.all_eq_true.2 hall
      have h2 : ((s.opsIn chip vf).all fun p => !p.2.mustLand) = true := List.all_eq_true.2 fun p hp => by rw [hland p hp]; rfl
      rw [exec, execContextSaved]
      simp only [hs, h1, h2]
      rfl
    · rw [hsave, State.vf_setVf]
    · rw [hsave]
      exact Tab.get?_put_self ..
    · rw [hsave]
      exact hvac.mem
    · rw [hsave] at hp
      refine State.released_pins s ((s.cohortsIn chip vf).map (·.1)) p ?_ x.1 (List.mem_map_of_mem hx)
      rw [← State.recordOps_pins _ (s.opsIn chip vf), ← State.vacated_pins _ (s.cohortsIn chip vf) ((s.opsIn chip vf).map (·.1)) quads]
      exact hp

/-! ## The restore and the resume (R399, R400) -/

/-- The machine with a context's banks back and its tiles to be given out, in RESTORING. -/
def State.beginRestore (s : State) (chip vf : Nat) : State :=
  let v := s.vf chip vf
  let area := s.saves.getD (chip, vf) {}
  let cs := s.cohortsIn chip vf
  let mine := cs.map (·.1)
  let s := if v.held then s.logEvent chip 15 (match cs with | x :: _ => x.1.die | [] => 4) (match cs with | x :: _ => x.1.core | [] => 0) vf 0 else s
  let s := area.banks.foldl (fun s b => s.restoreBanks v.realm b) s
  let s := mine.foldl (fun s c => s.modCohort c fun x => { x with tiles := [] }) s
  s.modVf chip vf fun v => { v with ctx := .restoring, held := false }

theorem State.restoreTiles_pausesAs (s : State) (c : CohortId) (tiles : List SavedTiles) (old : List (Nat × List Nat)) : ((s.restoreTiles c tiles old).2).PausesAs s := by
  have hfold : ∀ (l : List (Nat × List Nat)) (g : List (Nat × List Nat × List Nat) × State → Nat × List Nat → List (Nat × List Nat × List Nat) × State),
      (∀ r w, (g r w).2.PausesAs r.2) → ∀ r : List (Nat × List Nat × List Nat) × State, (l.foldl g r).2.PausesAs r.2 := by
    intro l g hg
    induction l with
    | nil => exact fun r => .refl r.2
    | cons w l ih => exact fun r => (ih _).trans (hg r w)
  refine hfold old _ (fun r w => ?_) ([], s)
  exact ⟨_, _, _, _, _, _, _, _, _, _, rfl⟩

theorem State.restoreShadow_pausesAs (s : State) (maps : List (CohortId × List (Nat × List Nat × List Nat))) (w : QuadId × Nat × Shadow) : (s.restoreShadow maps w).PausesAs s := by
  obtain ⟨q, i, x⟩ := w
  unfold State.restoreShadow
  dsimp only
  split
  · exact ⟨_, _, _, _, _, _, _, _, _, _, rfl⟩
  · exact .refl s

theorem State.restoreThread_pausesAs (s : State) (t : ThreadId) : (s.restoreThread t).PausesAs s :=
  ⟨_, _, _, _, _, _, _, _, _, _, rfl⟩

theorem State.restoreContext_pausesAs (s : State) (chip vf : Nat) : (s.restoreContext chip vf).PausesAs (s.beginRestore chip vf) := by
  have htiles : ∀ (l : List (CohortId × Cohort)) (area : SaveArea) (r : List (CohortId × List (Nat × List Nat × List Nat)) × State),
      (l.foldl (fun (r : List (CohortId × List (Nat × List Nat × List Nat)) × State) x =>
        let (m, s) := r.2.restoreTiles x.1 area.tiles x.2.tiles
        (r.1 ++ [(x.1, m)], s)) r).2.PausesAs r.2 := by
    intro l area
    induction l with
    | nil => exact fun r => .refl r.2
    | cons x l ih => exact fun r => (ih _).trans (State.restoreTiles_pausesAs ..)
  have hops : ∀ (u : State) (ops : Tab Nat Op), ({ u with ops := ops } : State).PausesAs u := fun u ops => ⟨_, _, _, _, _, _, _, _, _, _, rfl⟩
  have hmoves : ∀ (u : State) (moves : Tab Nat Move), ({ u with moves := moves } : State).PausesAs u := fun u moves => ⟨_, _, _, _, _, _, _, _, _, _, rfl⟩
  unfold State.restoreContext State.beginRestore
  dsimp only
  refine State.PausesAs.trans (.foldl _ State.restoreThread_pausesAs _) ?_
  refine State.PausesAs.trans (hmoves _ _) ?_
  refine State.PausesAs.trans (.foldl _ (fun u p => .foldl _ (fun u k => u.modCore_pausesAs ..) u) _) ?_
  refine State.PausesAs.trans (.foldl _ (fun u w => u.modQuad_pausesAs ..) _) ?_
  refine State.PausesAs.trans (hops _ _) ?_
  refine State.PausesAs.trans (.foldl _ (fun u w => u.restoreShadow_pausesAs ..) _) ?_
  exact htiles ..

theorem aSavedContextIsRestoredThenRuns : ASavedContextIsRestoredThenRuns := by
  intro s chip vf
  dsimp only
  refine ⟨fun hc hm => ?_, fun hc hm => ⟨s.restoreContext chip vf, ?_, ?_⟩, fun hc ⟨p, hp, hd⟩ => ?_, fun hc hops hcon hhot => ?_⟩
  · rw [exec, execContextResume]
    simp [hc, hm]
  · rw [exec, execContextResume]
    simp [hc, hm]
  · rw [(s.restoreContext_pausesAs chip vf).vf, State.beginRestore, State.modVf, State.vf_setVf]
  · have hany : (s.opsIn chip vf).any (fun p => s.replayDue p.1 p.2 || p.2.isObj) = true := List.any_eq_true.2 ⟨p, hp, by rw [hd]; rfl⟩
    rw [exec, execContextResume]
    simp [hc, hany]
  · have hany : (s.opsIn chip vf).any (fun p => s.replayDue p.1 p.2 || p.2.isObj) = false := List.any_eq_false.2 fun p hp => by simp [hops p hp]
    let w := (((s.cohortsIn chip vf).map (·.1)).flatMap s.threadsOf).foldl (fun s t => s.modThread t fun x => { x with readySince := s.now }) s
    have hw : w.PausesAs s := .foldl _ (fun u t => u.modThread_pausesAs ..) s
    have hwops : w.ops = s.ops := State.foldl_keeps (·.ops) (fun s (t : ThreadId) => s.modThread t fun x => { x with readySince := s.now }) (fun _ _ => rfl) _ s
    refine ⟨{ w with saves := Tab.del w.saves (chip, vf) }.setVf chip vf { s.vf chip vf with ctx := .running, forced := false }, ?_, ?_, ?_, hw.mem, hwops⟩
    · have hcold : (({ w with saves := Tab.del w.saves (chip, vf) }.setVf chip vf { s.vf chip vf with ctx := .running, forced := false }).chip chip).hot = false := by
        rw [State.setVf, State.chip_setChip]
        exact (congrArg Chip.hot (hw.chip chip)).trans hhot
      rw [exec, execContextResume]
      simp only [hc, hany, hcon, Bool.or_self, Bool.false_eq_true, if_false]
      exact congrArg Host.Outcome.next (if_neg (by rw [hcold]; exact Bool.false_ne_true))
    · rw [State.vf_setVf]
    · exact Tab.get?_del_self ..

/-- Settles O43: a request stops or defers a context, which is saved once it stands, restored, and runs once its replay is done. -/
theorem contextsAreSavedAndRestored : Obligations.ContextsAreSavedAndRestored :=
  ⟨aPreemptedContextStopsAndIsSaved, aSavedContextIsRestoredThenRuns⟩

end Sys2Proof.Machine
end

section
/-! PROOFS. Kills and resets (O44, refuted). -/

namespace Sys2Proof.Machine

theorem State.hostWrite_grids (s : State) (c a : Nat) (bs : List Byte) : (s.hostWrite c a bs).grids = s.grids := rfl

theorem State.setVf_grids (s : State) (c v : Nat) (x : Vf) : (s.setVf c v x).grids = s.grids := rfl

theorem State.reportFault_grids (s : State) (c v : Nat) (x : TrapRec) (reason grid cohort thread : Nat) :
    (s.reportFault c v x reason grid cohort thread).grids = s.grids := by
  unfold State.reportFault
  refine iteInduction (motive := fun u : State => u.grids = s.grids) (fun _ => ?_) (fun _ => ?_)
  · rw [State.setVf_grids, State.hostWrite_grids]
  · rw [State.setVf_grids]

/-- The report of a kill, whatever it holds, changes no cohort and no grid. -/
theorem State.reportKill_keeps (s : State) (chip vf : Nat) (cs : List (CohortId × Cohort)) :
    (s.reportKill chip vf cs).cohorts = s.cohorts ∧ (s.reportKill chip vf cs).grids = s.grids := by
  unfold State.reportKill
  split
  · exact ⟨rfl, rfl⟩
  · exact ⟨State.reportFault_cohorts .., State.reportFault_grids ..⟩

/-- A kill up to its report (R401). -/
def State.killing (s : State) (chip vf : Nat) : State :=
  let cs := s.cohortsIn chip vf
  let s := (s.modVf chip vf fun v => { v with busy := some s.now }).discardRing chip vf
  let s := ((s.discardQueued chip vf).discardMoves chip vf).discardSave chip vf
  let s := cs.foldl (fun s x => if x.2.killed.isSome then s else s.cutCohort x.1 6) s
  let slots := (List.range 4).flatMap fun d => ((s.die ⟨chip, d⟩).slots.filter fun e => (s.cohort e.2.thread.cohort).vf = vf).map fun e => ((⟨chip, d⟩ : DieId), e.1)
  let s := slots.foldl (fun s e => s.retireSlot e.1 e.2 16) s
  (s.disableRings chip vf).detachAll chip vf

/-- Where no grid of the function goes on, the report is the last that a kill does. -/
theorem State.kill_cohorts {s : State} {chip vf : Nat} (h : (s.killing chip vf).gridsOf chip vf = []) : (s.kill chip vf).cohorts = (s.killing chip vf).cohorts := by
  obtain ⟨hcohorts, hgrids⟩ := (s.killing chip vf).reportKill_keeps chip vf (s.cohortsIn chip vf)
  have hnone : ((s.killing chip vf).reportKill chip vf (s.cohortsIn chip vf)).gridsOf chip vf = [] := by rw [State.gridsOf, hgrids]; exact h
  have hkill : s.kill chip vf = (s.killing chip vf).reportKill chip vf (s.cohortsIn chip vf) := by
    have hlast : s.kill chip vf = (((s.killing chip vf).reportKill chip vf (s.cohortsIn chip vf)).gridsOf chip vf).foldl (fun s n =>
        let g := s.grid chip n
        if g.kill then s else (s.complete chip g 3 0).setGrid chip n { g with kill := true }) ((s.killing chip vf).reportKill chip vf (s.cohortsIn chip vf)) := rfl
    rw [hlast, hnone, List.foldl_nil]
  rw [hkill, hcohorts]

/-- A machine that holds two records of one cohort, of a grid that has ended: the one that is looked up says that it was killed before, the other that
it was not. -/
def killedTwice : State := { State.reset with
  cohorts := [(⟨0, 0, 0, 0⟩, { killed := some 3 }), (⟨0, 0, 0, 0⟩, {})]
  grids := [((0, 0), { state := .ended })] }

/-- The kill counts the cohort among those that are still to be killed, and its first reason is lost. -/
theorem killedTwice_result : ((killedTwice.kill 0 0).cohort ⟨0, 0, 0, 0⟩).killed = some 6 := by
  rw [State.cohort_congr (State.kill_cohorts (by decide))]
  decide

/-- Refutes O44: its kill clause gives each live cohort the reason that it had, or 6. That holds of a table with one record for each cohort, which
no hypothesis asks for: of two records, the kill acts on one that is not the one looked up. -/
theorem not_killsResetsAndDirtyLogs : ¬ Obligations.KillsResetsAndDirtyLogs := by
  rintro ⟨hkill, -⟩
  obtain ⟨-, h, -⟩ := hkill killedTwice 0 0
  obtain ⟨u, hu, -, -, hkilled, -⟩ := h (by decide)
  have hrun : exec (.vfctlKill 0 0) killedTwice = .next (killedTwice.kill 0 0) := by
    rw [exec, execVfctlKill, if_neg (by decide)]
  obtain rfl : u = killedTwice.kill 0 0 := Host.Outcome.next.inj (hu.symm.trans hrun)
  have hthree := hkilled ⟨0, 0, 0, 0⟩ rfl (by decide) (by decide)
  rw [killedTwice_result] at hthree
  exact absurd hthree (by decide)

end Sys2Proof.Machine
end

section
/-! PROOFS. Guard slots (O31). -/

namespace Sys2Proof.Machine

theorem gresSends (f : Fields) (v : Bool) : Does (.gres f) f
    (fun s _ t => (f.gresCtl = 0 ∧ v = (s.thread t).pred f.sa.toNat) ∨ (f.gresCtl = 1 ∧ v = true) ∨ (f.gresCtl = 2 ∧ v = false))
    fun s b t => s.issueSlot b t (.resolve t.cohort (f.dst.toNat % 64) v) := by
  refine does_of_body (fun _ => rfl) (fun _ _ _ h => h) fun s b t h => ?_
  rcases h with ⟨hc, rfl⟩ | ⟨hc, rfl⟩ | ⟨hc, rfl⟩
  all_goals simp only [hc]

/-- What a message makes of its slot. -/
def MsgBody.onSlot (b : MsgBody) (x : Slot) : Slot :=
  match b with
  | .resolve _ _ v => x.resolve v
  | _ => x.cancel

/-- The machine in which a message has reached its slot. -/
def State.slotReached (s : State) (m n : Nat) (c : CohortId) (b : MsgBody) : State :=
  ({ s with msgs := Tab.del s.msgs m } : State).modCohort c fun y => { y with slots := y.slots.set n (b.onSlot (y.slots.getD n {})) }

/-- The turn of a slot's message whose turn it is: the slot is as its value or its cancel leaves it, and the message and its operation are gone. -/
theorem guardSlotResolve_gives {s : State} {m i n : Nat} {g : Msg} {c : CohortId} (hm : s.msg? m = some g) (hop : g.op = some i) (hl : s.live c = true)
    (hr : s.resident c = true) (hn : n < (s.cohort c).slots.length) (hearly : ∀ p ∈ s.msgs, p.1 < m → p.2.token ≠ g.token) (hslot : g.body.slot? = some (c, n)) :
    ∃ u, exec (.guardSlotResolve m) s = .next u ∧ (u.cohort c).slots.getD n {} = g.body.onSlot ((s.cohort c).slots.getD n {}) ∧ u.msg? m = none ∧ u.op? i = none ∧ u.mem = s.mem := by
  have hnone : (s.msgs.any fun p => p.1 < m && p.2.token = g.token && p.2.body.slot? = some (c, n)) = false := List.any_eq_false.2 fun p hp => by
    by_cases h : p.1 < m
    · simp [hearly p hp h]
    · simp [h]
  have hlive : ({ s with msgs := Tab.del s.msgs m } : State).live c = true := hl
  have hends := (s.slotReached m n c g.body).endOp_endsAs i
  refine ⟨(s.slotReached m n c g.body).endOp i, ?_, ?_, ?_, State.endOp_op?_self .., hends.mem⟩
  · rw [exec, execGuardSlotResolve, hm]
    simp only [hslot, hnone, hr, hop, Bool.not_true, Bool.or_self, Bool.true_or, Bool.false_eq_true, if_false, hlive, if_true]
    rfl
  · rw [hends.cohort, State.slotReached, State.modCohort_eq, State.cohort_setCohort]
    exact getD_set_of_lt hn
  · rw [State.msg?, hends.msgs]
    exact Tab.get?_del_self ..

/-- Settles O31: the first value that reaches an OPEN slot stays, and a cancel opens the next epoch. -/
theorem guardSlotsResolveOnce : Obligations.GuardSlotsResolveOnce := by
  refine ⟨fun f v => ⟨gresSends f v, ?_⟩, fun s m i n g c v hm hop hl hr hn hearly => ⟨fun hb hx => ?_, fun hb hx => ?_, fun hb => ?_⟩⟩
  · exact does_of_body (fun _ => rfl) (fun _ _ _ h => h) fun s b t _ => rfl
  · have h := guardSlotResolve_gives hm hop hl hr hn hearly (by rw [hb]; rfl)
    rwa [hb, MsgBody.onSlot, Slot.resolve, hx] at h
  · have h := guardSlotResolve_gives hm hop hl hr hn hearly (by rw [hb]; rfl)
    rwa [hb, MsgBody.onSlot, Slot.resolve, if_pos (Option.isSome_iff_ne_none.2 hx)] at h
  · have h := guardSlotResolve_gives hm hop hl hr hn hearly (by rw [hb]; rfl)
    rwa [hb] at h

end Sys2Proof.Machine
end

section
/-! PROOFS. The sluice and the owners of quadrants (O40). -/

namespace Sys2Proof.Machine

/-! ## The sluice (R334 to R336) -/

/-- The DEPTH of a value of the register is what its writable bits hold. -/
theorem sluice_depth (v : DWord) : bitsOf (v &&& 0xFFFFFFFF00FFFFFF).toNat 63 32 = v.toNat / 2 ^ 32 := by
  have h : (v &&& 0xFFFFFFFF00FFFFFF).toNat / 2 ^ 32 = v.toNat / 2 ^ 32 := by
    apply Nat.eq_of_testBit_eq
    intro i
    rw [Nat.testBit_div_two_pow, Nat.testBit_div_two_pow, BitVec.testBit_toNat, BitVec.testBit_toNat, BitVec.getLsbD_and]
    by_cases hi : i < 32
    · have hone : BitVec.getLsbD (0xFFFFFFFF00FFFFFF : DWord) (i + 32) = true := by
        have : ∀ i : Fin 32, BitVec.getLsbD (0xFFFFFFFF00FFFFFF : DWord) (i.val + 32) = true := by decide
        exact this ⟨i, hi⟩
      rw [hone, Bool.and_true]
    · rw [BitVec.getLsbD_of_ge _ _ (by omega), BitVec.getLsbD_of_ge _ _ (by omega), Bool.false_and]
  have hlt := (v &&& 0xFFFFFFFF00FFFFFF).isLt
  unfold bitsOf
  omega

section
variable {s : State} {chip vf : Nat} {f : Vf}

/-- The machine whose clock has reached the sluice's next microsecond. -/
def State.sluicing (s : State) (chip : Nat) : State := s.setChip chip { s.chip chip with sluiceAt := (s.chip chip).sluiceAt + 1 }

/-- A function's new balance: what it had and its RATE, less 256 for each quadrant in use, up to DEPTH. -/
def State.sluiceBalance (s : State) (chip vf : Nat) (f : Vf) : Int :=
  min (f.balance + (f.sluice.toNat % 2 ^ 24 : Nat) - 256 * (s.quadsUsed chip vf : Int)) ((f.sluice.toNat / 2 ^ 32 : Nat) * 256)

theorem State.vf_of_single (h : (s.chip chip).vfs = [(vf, f)]) : s.vf chip vf = f := by
  rw [State.vf, h]
  simp [Tab.getD, Tab.get?]

theorem State.sluicing_vf (c v : Nat) : (s.sluicing chip).vf c v = s.vf c v := by
  by_cases hc : c = chip
  · rw [hc, State.vf, State.sluicing, State.chip_setChip, State.vf]
  · rw [State.vf, State.sluicing, State.chip_setChip_ne _ _ _ _ hc, State.vf]

theorem State.sluicing_quadsUsed : (s.sluicing chip).quadsUsed chip vf = s.quadsUsed chip vf := by
  have hres : ∀ c, (s.sluicing chip).resident c = s.resident c := fun c => by
    rw [State.resident, State.sluicing_vf]
    rfl
  simp only [State.quadsUsed, hres]
  rfl

/-- A microsecond of the package whose one function has a rate (R335). -/
theorem exec_sluiceTick (hv : (s.chip chip).vfs = [(vf, f)]) (ht : (s.chip chip).sluiceAt < s.ns chip / 1000) (hr : f.sluice.toNat % 2 ^ 24 ≠ 0) :
    let u := (s.sluicing chip).setVf chip vf { f with balance := s.sluiceBalance chip vf f }
    exec (.sluiceTick chip) s = .next (if s.sluiceBalance chip vf f ≤ -(((f.sluice.toNat / 2 ^ 32 : Nat) : Int) * 256) ∧ s.expressContext chip vf = false
      then u.preempt chip vf .sluice else u) := by
  have hrate : f.rate = f.sluice.toNat % 2 ^ 24 := by simp [Vf.rate, bitsOf]
  have hdepth : f.depth = f.sluice.toNat / 2 ^ 32 := by
    have := f.sluice.isLt
    unfold Vf.depth bitsOf
    omega
  have hf : (s.sluicing chip).vf chip vf = f := by rw [State.sluicing_vf, State.vf_of_single hv]
  have hlt : ¬ s.ns chip / 1000 < (s.chip chip).sluiceAt := by omega
  have hne : s.ns chip / 1000 ≠ (s.chip chip).sluiceAt := by omega
  have hex : ∀ x, ((s.sluicing chip).setVf chip vf x).expressContext chip vf = s.expressContext chip vf := fun _ => rfl
  have hturn : (s.sluicing chip).sluiceVf chip vf = if s.sluiceBalance chip vf f ≤ -(((f.sluice.toNat / 2 ^ 32 : Nat) : Int) * 256) ∧ s.expressContext chip vf = false
      then ((s.sluicing chip).setVf chip vf { f with balance := s.sluiceBalance chip vf f }).preempt chip vf .sluice
      else (s.sluicing chip).setVf chip vf { f with balance := s.sluiceBalance chip vf f } := by
    unfold State.sluiceVf
    simp only [hf, hrate, hr, if_false, hdepth, State.sluicing_quadsUsed, hex]
    simp only [State.sluiceBalance, Bool.and_eq_true, decide_eq_true_eq, Bool.not_eq_true']
    rfl
  intro u
  rw [← hturn, exec, execSluiceTick]
  rw [if_neg hlt, if_neg hne, show (s.chip chip).vfs.map (·.1) = [vf] by rw [hv]; rfl]
  rfl

end

/-! ## Owners of quadrants (R357, R358) -/

theorem qown_mask (v : Word) : (v &&& 0x8000000F).toNat % 16 = v.toNat % 16 ∧ (v &&& 0x8000000F).getLsbD 31 = v.getLsbD 31 := by
  refine ⟨?_, by simp⟩
  apply Nat.eq_of_testBit_eq
  intro i
  rw [show (16 : Nat) = 2 ^ 4 from rfl, Nat.testBit_mod_two_pow, Nat.testBit_mod_two_pow, BitVec.testBit_toNat, BitVec.testBit_toNat, BitVec.getLsbD_and]
  by_cases hi : i < 4
  · have : ∀ i : Fin 4, BitVec.getLsbD (0x8000000F : Word) i.val = true := by decide
    rw [show BitVec.getLsbD (0x8000000F : Word) i = true from this ⟨i, hi⟩, Bool.and_true]
  · simp [hi]

theorem State.grantCore_keeps (s : State) (c : CoreId) (new : Option Nat) (q : QuadId) : (s.grantCore c new).quad q = s.quad q ∧ (s.grantCore c new).mem = s.mem := by
  unfold State.grantCore
  split
  · split <;> exact ⟨rfl, rfl⟩
  · exact ⟨rfl, rfl⟩

/-- A quadrant without an owner is passed on at once. -/
theorem State.passQuad_of_free {s : State} {q : QuadId} {new : Option Nat} (h : (s.quad q).owner = none) :
    s.passQuad q new = (s.grantCore q.toCore new).modQuad q fun x => { x with owner := new, pending := none } := by
  unfold State.passQuad
  dsimp only
  rw [(s.grantCore_keeps q.toCore new q).1, h]

/-- Settles O40: the sluice's arithmetic, and a write that gives a free quadrant to its partition. -/
theorem sluiceBalancesAndOwnersOfQuadrants : Obligations.SluiceBalancesAndOwnersOfQuadrants := by
  refine ⟨fun s chip vf v => ?_, fun s chip vf f hv ht hr => ?_, fun s chip h => ?_, fun s q v => ⟨fun hp => ?_, fun hp h31 he ho => ?_, fun hp => ?_⟩⟩
  · rw [exec, execSluice]
    rw [sluice_depth]
  · have hexec := exec_sluiceTick hv ht hr
    refine ⟨fun hb => ?_, fun hb hx hrun hbusy hpart => ?_⟩
    · refine ⟨_, hexec.trans (congrArg _ (if_neg fun h => Int.not_le.2 hb h.1)), State.vf_setVf .., ?_, rfl⟩
      rw [State.setVf, State.chip_setChip, State.sluicing, State.chip_setChip]
    · refine ⟨_, hexec.trans (congrArg _ (if_pos ⟨hb, hx⟩)), ?_⟩
      have hp : ∀ x, ((s.sluicing chip).setVf chip vf x).partly chip vf = false := fun _ => hpart
      unfold State.preempt
      simp [hrun, hbusy, hp]
      rfl
  · rw [exec, execSluiceTick]
    simp [h]
  · rw [exec, execQown]
    simp only [State.writeQown]
    rw [if_pos (by simp; omega)]
  · obtain ⟨hmod, hbit⟩ := qown_mask v
    have howner : ownerOf (v &&& 0x8000000F) = some (v.toNat % 16) := by rw [ownerOf, hbit, h31, if_pos rfl, hmod]
    have hwrite : s.writeQown q v = (((s.modQuad q fun x => { x with refused := false, pending := none }).modQuad q fun x =>
        { x with pending := some (v &&& 0x8000000F), qown := v &&& 0x8000000F }).grantCore q.toCore (some (v.toNat % 16))).modQuad q fun x =>
        { x with owner := some (v.toNat % 16), pending := none } := by
      unfold State.writeQown
      dsimp only
      rw [if_neg (by simp [he]; omega)]
      simp only [State.modQuad_eq, State.quad_setQuad, ho, howner, reduceCtorEq, if_false, Option.any_none, Bool.false_eq_true, State.settleQuad, if_true]
      rw [State.passQuad_of_free (by rw [State.quad_setQuad]), State.modQuad_eq]
    rw [exec, execQown]
    simp only [hwrite]
    refine ⟨_, rfl, ?_⟩
    rw [State.modQuad_eq, State.quad_setQuad, (State.grantCore_keeps ..).1, State.modQuad_eq, State.quad_setQuad, State.modQuad_eq, State.quad_setQuad]
    exact ⟨rfl, rfl, rfl, rfl, (State.grantCore_keeps _ _ _ q).2⟩
  · rw [exec, execQown]
    simp [State.settleQuad, hp]

end Sys2Proof.Machine
end

section
/-! PROOFS. Registers, module resets and heat (O47). -/

namespace Sys2Proof.Machine

/-! ## Writes of registers (R6) -/

section
variable {s : State} {chip : Nat} {page : HostPage} {o : Nat} {v : BitVec 128}

theorem exec_registerWrite {r : HostReg} (h : hostReg page o = some r) : exec (.registerWrite chip page o v) s = hostWriteReg chip r v s := by
  rw [exec, execRegisterWrite, h]

theorem exec_registerWrite_reserved (h : hostReg page o = none) : exec (.registerWrite chip page o v) s = .next s := by
  rw [exec, execRegisterWrite, h]

theorem hostReg_recovery {vf k : Nat} (hv : vf < 1024) (hk : k < 64) : hostReg .recovery (64 * vf + k) = recoveryReg vf k := by
  rw [hostReg, if_pos (by omega), show (64 * vf + k) / 64 = vf by omega, show (64 * vf + k) % 64 = k by omega]

theorem hostReg_scheduling {vf k : Nat} (hv : vf < 1024) (hk : k < 64) : hostReg .scheduling (64 * vf + k) = ringReg vf k := by
  rw [hostReg, if_pos (by omega), show (64 * vf + k) / 64 = vf by omega, show (64 * vf + k) % 64 = k by omega]
end

theorem registerWritesSetTheirFields (s : State) (chip vf : Nat) (v : BitVec 128) (hv : vf < 1024) :
    exec (.registerWrite chip .recovery (64 * vf) v) s = .next (s.modVf chip vf fun x => { x with tvbase := v.setWidth 64 })
    ∧ exec (.registerWrite chip .recovery (64 * vf + 4) v) s = .next s
    ∧ exec (.registerWrite chip .recovery (64 * vf + 0x10) v) s = .next (s.modVf chip vf fun x => { x with frctl := v.setWidth 32 &&& 0x8000001F })
    ∧ exec (.registerWrite chip .recovery (64 * vf + 0x14) v) s = .next s
    ∧ exec (.registerWrite chip .objectSpace (0x2000 + 4 * vf) v) s = .next (s.modVf chip vf fun x => { x with weight := v.setWidth 32 &&& 0xFF })
    ∧ exec (.registerWrite chip .scheduling (64 * vf + 0x10) v) s = .next s := by
  refine ⟨?_, ?_, ?_, ?_, ?_, ?_⟩
  · exact exec_registerWrite (hostReg_recovery (k := 0) hv (by omega))
  · exact exec_registerWrite_reserved (hostReg_recovery (k := 4) hv (by omega))
  · exact exec_registerWrite (hostReg_recovery (k := 0x10) hv (by omega))
  · exact exec_registerWrite (hostReg_recovery (k := 0x14) hv (by omega))
  · have hr : hostReg .objectSpace (0x2000 + 4 * vf) = some (.weight vf) := by
      simp [hostReg]
      omega
    exact exec_registerWrite hr
  · exact exec_registerWrite (hostReg_scheduling (k := 0x10) hv (by omega))

/-! ## A package that begins anew (R417, R418) -/

section
variable (s : State) (chip : Nat) (h : Chip)

theorem State.unqueue_keeps (ids : List Nat) : (s.unqueue ids).pod = s.pod ∧ (s.unqueue ids).now = s.now := by
  unfold State.unqueue
  dsimp only
  split <;> exact ⟨rfl, rfl⟩

theorem Tab.getD_keep_of_not {κ ν : Type} [DecidableEq κ] (t : Tab κ ν) (f : κ → ν → Bool) (k : κ) (d : ν) (hf : ∀ v, f k v = false) : (t.keep f).getD k d = d := by
  rw [Tab.getD]
  cases hg : Tab.get? (t.keep f) k with
  | none => rfl
  | some v =>
    obtain ⟨-, hk⟩ := List.mem_filter.1 (Tab.mem_of_get? hg)
    simp [hf] at hk

/-- What is left of a package is its own record; nothing of it, or in it, stays. -/
theorem State.clearModule_leaves : (s.clearModule chip h).chip chip = h ∧ (∀ t ∈ (s.clearModule chip h).threads, t.1.cohort.chip ≠ chip)
    ∧ (∀ g ∈ (s.clearModule chip h).grids, g.1.1 ≠ chip) ∧ (∀ o ∈ (s.clearModule chip h).objects, o.1.1 ≠ chip)
    ∧ (∀ o ∈ (s.clearModule chip h).ops, o.2.thread.cohort.chip ≠ chip) ∧ (∀ c ∈ (s.clearModule chip h).mem, inPackage chip c.1 = false)
    ∧ ∀ c : CoreId, c.chip = chip → (s.clearModule chip h).core c = {} := by
  refine ⟨Tab.getD_put_self .., fun t ht => ?_, fun g hg => ?_, fun o ho => ?_, fun o ho => ?_, fun c hc => ?_, fun c hc => ?_⟩
  · obtain ⟨-, hk⟩ := List.mem_filter.1 ht
    exact of_decide_eq_true hk
  · obtain ⟨-, hk⟩ := List.mem_filter.1 hg
    exact of_decide_eq_true hk
  · obtain ⟨e, he, rfl⟩ := List.mem_map.1 ho
    obtain ⟨-, hk⟩ := List.mem_filter.1 he
    exact of_decide_eq_true hk
  · obtain ⟨e, he, rfl⟩ := List.mem_map.1 ho
    obtain ⟨-, hk⟩ := List.mem_filter.1 he
    have hchip : e.2.thread.cohort.chip ≠ chip := of_decide_eq_true hk
    dsimp only
    split
    · split <;> exact hchip
    · exact hchip
  · have hgone := (List.mem_filter.1 hc).2
    rw [Bool.not_eq_true', Bool.or_eq_false_iff] at hgone
    exact hgone.1
  · exact Tab.getD_keep_of_not s.cores (fun c _ => decide (c.chip ≠ chip)) c {} fun v => by simp [hc]

theorem State.clearModule_keeps : (s.clearModule chip h).pod = s.pod ∧ (s.clearModule chip h).now = s.now := by
  exact ⟨(s.unqueue_keeps _).1, (s.unqueue_keeps _).2⟩

/-- A test of a die's cores changes records of cores and dies only. -/
theorem State.testDie_eq (d : DieId) (bad : List Nat) : ∃ cores dies, s.testDie d bad = { s with cores := cores, dies := dies } := by
  have hfold : ∀ (l : List (Nat × Option Nat)) (u : State) (g : Nat × Option Nat → Core → Core), ∃ cores,
      l.foldl (fun s m => s.modCore ⟨d.chip, d.die, m.1⟩ (g m)) u = { u with cores := cores } := by
    intro l
    induction l with
    | nil => exact fun u g => ⟨_, rfl⟩
    | cons m l ih =>
      intro u g
      obtain ⟨_, hl⟩ := ih (u.modCore ⟨d.chip, d.die, m.1⟩ (g m)) g
      exact ⟨_, hl⟩
  unfold State.testDie
  split
  · exact ⟨_, _, rfl⟩
  · obtain ⟨_, hl⟩ := hfold (spareMap bad) (s.modDie d fun x => { x with retired := bad }) fun m x => match m.2 with
      | some p => { x with phys := some p }
      | none => { x with service := false }
    exact ⟨_, _, hl⟩

theorem State.testDies_eq (chip : Nat) (bad : List (Nat × Nat)) (l : List Nat) : ∃ cores dies,
    l.foldl (fun s d => s.testDie ⟨chip, d⟩ ((bad.filter fun b => b.1 = d).map (·.2))) s = { s with cores := cores, dies := dies } := by
  induction l generalizing s with
  | nil => exact ⟨_, _, rfl⟩
  | cons d l ih =>
    obtain ⟨_, _, h1⟩ := s.testDie_eq ⟨chip, d⟩ ((bad.filter fun b => b.1 = d).map (·.2))
    obtain ⟨_, _, h2⟩ := ih (s.testDie ⟨chip, d⟩ ((bad.filter fun b => b.1 = d).map (·.2)))
    exact ⟨_, _, by rw [List.foldl_cons, h2, h1]⟩
end

theorem spareMap_of_one : ∀ k < 48, spareMap [k] = [(k, some 48)] := by decide

theorem State.testDie_nil (s : State) (d : DieId) : s.testDie d [] = s := if_pos rfl

theorem State.testDie_one (s : State) (d : DieId) {k : Nat} (hk : k < 48) :
    s.testDie d [k] = (s.modDie d fun x => { x with retired := [k] }).modCore ⟨d.chip, d.die, k⟩ fun x => { x with phys := some 48 } := by
  rw [State.testDie, if_neg (by simp), spareMap_of_one k hk]
  rfl

/-- A test that finds every core good changes nothing. -/
theorem State.testDies_of_none (s : State) (chip : Nat) (l : List Nat) :
    l.foldl (fun s d => s.testDie ⟨chip, d⟩ ((([] : List (Nat × Nat)).filter fun b => b.1 = d).map (·.2))) s = s := by
  induction l with
  | nil => rfl
  | cons d l ih =>
    rw [List.foldl_cons, List.filter_nil, List.map_nil, State.testDie_nil]
    exact ih

/-- A test that finds one core bad gives its number to the first spare. -/
theorem State.testDies_of_one (s : State) (chip : Nat) {d k : Nat} (hk : k < 48) {l : List Nat} (hn : l.Nodup) :
    l.foldl (fun s e => s.testDie ⟨chip, e⟩ (([(d, k)].filter fun b => b.1 = e).map (·.2))) s = if d ∈ l then s.testDie ⟨chip, d⟩ [k] else s := by
  induction l generalizing s with
  | nil => rfl
  | cons e l ih =>
    obtain ⟨he, hn⟩ := List.nodup_cons.1 hn
    rw [List.foldl_cons, ih _ hn]
    by_cases h : d = e
    · subst h
      simp [he]
    · simp [h, State.testDie_nil]

theorem aModuleBeginsAnew (s : State) (chip : Nat) (bad : List (Nat × Nat)) (patch : Bool) :
    let h := s.chip chip
    let n := if patch && imageVerifies chip (h.images + 1) then h.images + 1 else 0
    ∃ u, exec (.moduleReset ⟨chip, bad, patch⟩) s = .next u
      ∧ u.chip chip = { resetAt := s.now, clockStep := h.clockStep, images := if patch then h.images + 1 else h.images, fw := n, fwOther := n }
      ∧ (∀ t ∈ u.threads, t.1.cohort.chip ≠ chip) ∧ (∀ g ∈ u.grids, g.1.1 ≠ chip) ∧ (∀ o ∈ u.objects, o.1.1 ≠ chip) ∧ (∀ o ∈ u.ops, o.2.thread.cohort.chip ≠ chip)
      ∧ (∀ c ∈ u.mem, inPackage chip c.1 = false) ∧ u.pod = s.pod ∧ u.now = s.now
      ∧ (bad = [] → ∀ c : CoreId, c.chip = chip → u.core c = {})
      ∧ (∀ d < 4, ∀ k < 48, bad = [(d, k)] → (u.core ⟨chip, d, k⟩).phys = some 48 ∧ (u.core ⟨chip, d, k⟩).service = true) := by
  intro h n
  let c : Chip := { resetAt := s.now, clockStep := h.clockStep, images := if patch then h.images + 1 else h.images, fw := n, fwOther := n }
  obtain ⟨hchip, hthreads, hgrids, hobjects, hops, hmem, hcores⟩ := s.clearModule_leaves chip c
  obtain ⟨hpod, hnow⟩ := s.clearModule_keeps chip c
  have hreset : s.resetModule chip bad patch = (List.range 4).foldl (fun s d => s.testDie ⟨chip, d⟩ ((bad.filter fun b => b.1 = d).map (·.2))) (s.clearModule chip c) := rfl
  obtain ⟨_, _, htest⟩ := (s.clearModule chip c).testDies_eq chip bad (List.range 4)
  refine ⟨s.resetModule chip bad patch, by rw [exec, execModuleReset], ?_, ?_, ?_, ?_, ?_, ?_, ?_, ?_, fun hb => ?_, fun d hd k hk hb => ?_⟩
  · rw [hreset, htest]; exact hchip
  · rw [hreset, htest]; exact hthreads
  · rw [hreset, htest]; exact hgrids
  · rw [hreset, htest]; exact hobjects
  · rw [hreset, htest]; exact hops
  · rw [hreset, htest]; exact hmem
  · rw [hreset, htest]; exact hpod
  · rw [hreset, htest]; exact hnow
  · rw [hreset, hb, State.testDies_of_none]
    exact hcores
  · rw [hreset, hb, State.testDies_of_one _ _ hk List.nodup_range, if_pos (List.mem_range.2 hd), State.testDie_one _ _ hk]
    have hcore : ∀ (u : State) (f : Core → Core), (u.modCore ⟨chip, d, k⟩ f).core ⟨chip, d, k⟩ = f (u.core ⟨chip, d, k⟩) := fun u f => Tab.getD_put_self ..
    have hzero : ((s.clearModule chip c).modDie ⟨chip, d⟩ fun x => { x with retired := [k] }).core ⟨chip, d, k⟩ = {} := hcores ⟨chip, d, k⟩ rfl
    rw [hcore, hzero]
    exact ⟨rfl, rfl⟩

/-! ## Heat (R418) -/

/-- What an entry of the recovery log changes of its package's record. -/
theorem State.logEvent_chip (s : State) (c type die unit vf addr : Nat) : ∃ log rlprod rldrop,
    (s.logEvent c type die unit vf addr).chip c = { s.chip c with log := log, rlprod := rlprod, rldrop := rldrop } := by
  unfold State.logEvent
  dsimp only
  split
  · exact ⟨_, _, _, by rw [State.chip_setChip]⟩
  · exact ⟨_, _, _, by rw [State.chip_setChip]⟩

/-- A package's record with a reading below 115 °C. -/
def Chip.heated (h : Chip) (temp : Nat) : Chip :=
  { h with
    temp := temp % 65536
    slow := if temp ≥ 95 * 8 then true else if temp < 90 * 8 then false else h.slow
    hot := if temp ≥ 105 * 8 then true else if temp < 95 * 8 then false else h.hot }

theorem heatSlowsSavesAndEnds (s : State) (chip temp : Nat) (hv : (s.chip chip).vfs = []) : ∃ u, exec (.thermalThreshold chip temp) s = .next u
      ∧ (920 ≤ temp → u.chip chip = { resetAt := (s.chip chip).resetAt, clockStep := (s.chip chip).clockStep, images := (s.chip chip).images, off := some s.now }
          ∧ (∀ t ∈ u.threads, t.1.cohort.chip ≠ chip) ∧ (∀ o ∈ u.objects, o.1.1 ≠ chip) ∧ ∀ c ∈ u.mem, inPackage chip c.1 = false)
      ∧ (temp < 920 → (u.chip chip).temp = temp ∧ (u.chip chip).off = (s.chip chip).off
        ∧ (760 ≤ temp → (u.chip chip).slow = true) ∧ (temp < 720 → (u.chip chip).slow = false) ∧ (720 ≤ temp → temp < 760 → (u.chip chip).slow = (s.chip chip).slow)
        ∧ (840 ≤ temp → (u.chip chip).hot = true) ∧ (temp < 760 → (u.chip chip).hot = false)
        ∧ (760 ≤ temp → temp < 840 → (u.chip chip).hot = (s.chip chip).hot)) := by
  by_cases ht : 920 ≤ temp
  · obtain ⟨hchip, hthreads, -, hobjects, -, hmem, -⟩ := s.clearModule_leaves chip
      { resetAt := (s.chip chip).resetAt, clockStep := (s.chip chip).clockStep, images := (s.chip chip).images, off := some s.now }
    refine ⟨_, ?_, fun _ => ⟨hchip, hthreads, hobjects, hmem⟩, fun h => absurd h (by omega)⟩
    rw [exec, execThermalThreshold]
    simp only [show temp ≥ 115 * 8 from by omega, if_true]
  · have hnone : (s.chip chip).vfs.map (·.1) = [] := by rw [hv]; rfl
    have hexec : exec (.thermalThreshold chip temp) s = .next (if ((s.chip chip).heated temp).slow ≠ (s.chip chip).slow
        then (s.setChip chip ((s.chip chip).heated temp)).logEvent chip 13 4 0 0xFFFF 0 else s.setChip chip ((s.chip chip).heated temp)) := by
      rw [exec, execThermalThreshold]
      simp only [show ¬ temp ≥ 115 * 8 from by omega, if_false, hnone, List.foldl_nil, ite_self]
      rfl
    obtain ⟨log, rlprod, rldrop, hlog⟩ := (s.setChip chip ((s.chip chip).heated temp)).logEvent_chip chip 13 4 0 0xFFFF 0
    have hchip : ∀ {α : Type} (f : Chip → α), (∀ (x : Chip) a b c, f { x with log := a, rlprod := b, rldrop := c } = f x) →
        f ((if ((s.chip chip).heated temp).slow ≠ (s.chip chip).slow then (s.setChip chip ((s.chip chip).heated temp)).logEvent chip 13 4 0 0xFFFF 0
          else s.setChip chip ((s.chip chip).heated temp)).chip chip) = f ((s.chip chip).heated temp) := by
      intro α f hf
      split
      · rw [hlog, hf, State.chip_setChip]
      · rw [State.chip_setChip]
    refine ⟨_, hexec, fun h => absurd h ht, fun hlt => ⟨?_, ?_, fun h1 => ?_, fun h1 => ?_, fun h1 h2 => ?_, fun h1 => ?_, fun h1 => ?_, fun h1 h2 => ?_⟩⟩
    · exact (hchip Chip.temp fun _ _ _ _ => rfl).trans (Nat.mod_eq_of_lt (by omega))
    · exact hchip Chip.off fun _ _ _ _ => rfl
    · exact (hchip Chip.slow fun _ _ _ _ => rfl).trans (if_pos h1)
    · exact (hchip Chip.slow fun _ _ _ _ => rfl).trans ((if_neg (by omega)).trans (if_pos h1))
    · exact (hchip Chip.slow fun _ _ _ _ => rfl).trans ((if_neg (by omega)).trans (if_neg (by omega)))
    · exact (hchip Chip.hot fun _ _ _ _ => rfl).trans (if_pos h1)
    · exact (hchip Chip.hot fun _ _ _ _ => rfl).trans ((if_neg (by omega)).trans (if_pos h1))
    · exact (hchip Chip.hot fun _ _ _ _ => rfl).trans ((if_neg (by omega)).trans (if_neg (by omega)))

/-- Settles O47: writes set their registers' fields, a reset and a loss of power leave nothing of a package, and heat has its thresholds. -/
theorem registersResetsAndHeat : Obligations.RegistersResetsAndHeat :=
  ⟨registerWritesSetTheirFields, aModuleBeginsAnew, heatSlowsSavesAndEnds⟩

end Sys2Proof.Machine
end

section
/-! PROOFS. Spares and lockkeepers that take over (O45). -/

namespace Sys2Proof.Machine

/-- What a store to host memory and a package's new record leave. -/
theorem State.hostWrite_setChip_keeps (s : State) (c a : Nat) (bs : List Byte) (h : Chip) : ((s.hostWrite c a bs).setChip c h).dies = s.dies
    ∧ ((s.hostWrite c a bs).setChip c h).cores = s.cores ∧ ((s.hostWrite c a bs).setChip c h).quads = s.quads := ⟨rfl, rfl, rfl⟩

theorem State.logEvent_keeps (s : State) (c type die unit vf addr : Nat) : (s.logEvent c type die unit vf addr).dies = s.dies
    ∧ (s.logEvent c type die unit vf addr).cores = s.cores ∧ (s.logEvent c type die unit vf addr).quads = s.quads := by
  unfold State.logEvent
  dsimp only
  split
  · exact State.hostWrite_setChip_keeps ..
  · exact ⟨rfl, rfl, rfl⟩

/-! ## A core that leaves service (R408) -/

/-- What a quadrant's passing on leaves: the quadrants, but for its own, and which cores are in service. -/
structure State.ServesAs (u s : State) : Prop where
  quads : u.quads = s.quads
  service : ∀ c, (u.core c).service = (s.core c).service

namespace State.ServesAs
variable {s u w : State}

theorem refl (s : State) : s.ServesAs s := ⟨rfl, fun _ => rfl⟩
theorem trans (g : w.ServesAs u) (h : u.ServesAs s) : w.ServesAs s := ⟨g.quads.trans h.quads, fun c => (g.service c).trans (h.service c)⟩
theorem of_same (hq : u.quads = s.quads) (hc : u.cores = s.cores) : u.ServesAs s := ⟨hq, fun c => by rw [State.core, hc, State.core]⟩
theorem foldl {α : Type} (l : List α) {g : State → α → State} (h : ∀ s a, (g s a).ServesAs s) (s : State) : (l.foldl g s).ServesAs s := by
  induction l generalizing s with
  | nil => exact refl s
  | cons a l ih => exact (ih _).trans (h s a)
theorem ite {c : Prop} [Decidable c] (hu : u.ServesAs s) (hw : w.ServesAs s) : (if c then u else w).ServesAs s := by
  split <;> assumption
theorem modCore (s : State) (c : CoreId) {f : Core → Core} (h : ∀ x, (f x).service = x.service) : (s.modCore c f).ServesAs s := by
  refine ⟨rfl, fun k => ?_⟩
  by_cases hk : k = c
  · rw [hk, State.modCore_eq, State.core_setCore, h]
  · rw [State.modCore_eq, State.core_setCore_ne _ _ _ _ hk]
theorem quad (h : u.ServesAs s) (q : QuadId) : u.quad q = s.quad q := by rw [State.quad, h.quads, State.quad]
end State.ServesAs

section
variable (s : State)

theorem State.disableRing_servesAs (c : CoreId) (part n : Nat) (cfg : DWord) : (s.disableRing c part n cfg).ServesAs s := by
  unfold State.disableRing
  refine (State.ServesAs.modCore _ c ?_).trans (.ite (.modCore s c ?_) (.refl s))
  all_goals exact fun _ => rfl

theorem State.disableOwner_servesAs (c : CoreId) (part : Nat) : (s.disableOwner c part).ServesAs s :=
  .foldl _ (fun u _ => .ite (u.disableRing_servesAs ..) (.refl u)) s

theorem State.wipe_servesAs (a n : Nat) : (s.wipe a n).ServesAs s := by
  obtain ⟨_, _, _, _, _, _, _, h⟩ := (s.expose_endsAs [] [(a, n)]).parts
  have hexp : (s.expose [] [(a, n)]).ServesAs s := .of_same (by rw [h]) (by rw [h])
  exact State.ServesAs.trans (u := s.expose [] [(a, n)]) (.of_same rfl rfl) hexp

theorem State.forgetClaims_servesAs (c : CoreId) (mine : Nat → Bool) : (s.forgetClaims c mine).ServesAs s := .of_same rfl rfl

theorem State.scrubBanks_servesAs (c : CoreId) (part : Nat) (quads : List Nat) : (s.scrubBanks c part quads).ServesAs s := by
  unfold State.scrubBanks
  dsimp only
  refine (State.ServesAs.modCore _ c ?_).trans ((State.forgetClaims_servesAs ..).trans ?_)
  · exact fun _ => rfl
  exact (State.ServesAs.foldl quads (fun u q => u.wipe_servesAs ..) _).trans (.foldl _ (fun u r => u.disableRing_servesAs ..) s)

theorem State.noteHeld_servesAs (chip vf : Nat) (c : CoreId) : (s.noteHeld chip vf c).ServesAs s := by
  obtain ⟨-, hcores, hquads⟩ := s.logEvent_keeps chip 14 c.die c.core vf 0
  exact .ite (.of_same hquads hcores) (.refl s)

theorem State.grantCore_servesAs (c : CoreId) (new : Option Nat) : (s.grantCore c new).ServesAs s := by
  unfold State.grantCore
  split
  · refine .ite (.refl s) (.modCore s c ?_)
    exact fun _ => rfl
  · exact .refl s

/-- A quadrant that is passed on has its new owner; the others keep theirs, and no core changes its service. -/
theorem State.passQuad_passes (q : QuadId) (new : Option Nat) : ((s.passQuad q new).quad q).owner = new
    ∧ (∀ p, p ≠ q → (s.passQuad q new).quad p = s.quad p) ∧ ∀ c, ((s.passQuad q new).core c).service = (s.core c).service := by
  have hgrant := s.grantCore_servesAs q.toCore new
  unfold State.passQuad
  dsimp only
  split
  · refine ⟨?_, fun p hp => ?_, hgrant.service⟩
    · rw [State.modQuad_eq, State.quad_setQuad]
    · rw [State.modQuad_eq, State.quad_setQuad_ne _ _ _ _ hp, hgrant.quad]
  · rename_i old _
    have hscrub := ((State.scrubBanks_servesAs _ q.toCore old [q.quad]).trans (State.disableOwner_servesAs _ q.toCore old)).trans hgrant
    have hnote := fun (l : List Nat) (u : State) => State.ServesAs.foldl l (fun u v => u.noteHeld_servesAs q.toCore.chip v q.toCore) u
    refine ⟨?_, fun p hp => ?_, fun c => ?_⟩
    · rw [(hnote ..).quad, State.modQuad_eq, State.quad_setQuad]
    · rw [(hnote ..).quad, State.modQuad_eq, State.quad_setQuad_ne _ _ _ _ hp, hscrub.quad]
    · rw [(hnote ..).service]
      exact hscrub.service c
end

/-- The quadrants of a core that are passed on in turn are without owners. -/
theorem State.freeQuads (c : CoreId) (s : State) (l : List Nat) :
    let u := l.foldl (fun (s : State) q => (s.passQuad ⟨c.chip, c.die, c.core, q⟩ none).modQuad ⟨c.chip, c.die, c.core, q⟩ fun x => { x with qown := 0 }) s
    (∀ k, (u.core k).service = (s.core k).service)
      ∧ ∀ q, q ∈ l ∨ (s.quad ⟨c.chip, c.die, c.core, q⟩).owner = none → (u.quad ⟨c.chip, c.die, c.core, q⟩).owner = none := by
  induction l generalizing s with
  | nil => exact ⟨fun _ => rfl, fun q h => h.resolve_left (by simp)⟩
  | cons a l ih =>
    obtain ⟨hself, hother, hserve⟩ := s.passQuad_passes ⟨c.chip, c.die, c.core, a⟩ none
    obtain ⟨h1, h2⟩ := ih ((s.passQuad ⟨c.chip, c.die, c.core, a⟩ none).modQuad ⟨c.chip, c.die, c.core, a⟩ fun x => { x with qown := 0 })
    refine ⟨fun k => (h1 k).trans (hserve k), fun q hq => h2 q ?_⟩
    by_cases ha : q = a
    · subst ha
      exact .inr (by rw [State.modQuad_eq, State.quad_setQuad]; exact hself)
    · refine (hq.imp_left fun hm => (List.mem_cons.1 hm).resolve_left ha).imp_right fun hn => ?_
      have hne : (⟨c.chip, c.die, c.core, q⟩ : QuadId) ≠ ⟨c.chip, c.die, c.core, a⟩ := fun h => ha (by simpa using h)
      rw [State.modQuad_eq, State.quad_setQuad_ne _ _ _ _ hne, hother _ hne]
      exact hn

/-! ## Spares (R408 to R410) -/

section
variable {s : State} {c : CoreId} {lost : List Nat} {check : Bool}

/-- The core that takes no more work, its die's list of bad cores with it. -/
def State.retireCore (s : State) (c : CoreId) : State :=
  (s.modCore c fun x => { x with service := false, retiring := true }).modDie c.toDie fun x => { x with retired := (s.core c).phys.getD c.core :: x.retired }

/-- A core on which nothing is resident: its number goes to a spare, or it leaves service. -/
theorem exec_coreRetire (hs : (s.core c).service = true) (hr : (s.core c).retiring = false) (hw : check = true ∨ (s.core c).worn = true) (hn : s.cohortsOn c = []) :
    exec (.coreRetire c ⟨lost, check⟩) s = .next (match (s.retireCore c).spareCore c.toDie with
      | some p => ((s.retireCore c).modCore c fun x => { x with service := true, retiring := false, phys := some p, corrected := [] }).logEvent c.chip 5 c.die c.core 0xFFFF 0
      | none =>
        let s := (s.retireCore c).modCore c fun x => { x with retiring := false }
        let s := (List.range 4).foldl (fun s q => (s.passQuad ⟨c.chip, c.die, c.core, q⟩ none).modQuad ⟨c.chip, c.die, c.core, q⟩ fun x => { x with qown := 0 }) s
        let s := s.logEvent c.chip 6 c.die c.core 0xFFFF 0
        let held := ((List.filter (fun (x : CohortId × Cohort) => x.1.toCore = c && !x.2.ended) s.cohorts).map fun x => x.2.vf).eraseDups
        held.foldl (fun s v => s.noteHeld c.chip v c) s) := by
  have hcause : (check || (s.core c).worn) = true := by rw [Bool.or_eq_true]; exact hw
  have hnone : (s.modCore c fun x => { x with service := false, retiring := true }).cohortsOn c = [] := hn
  have hphys : (s.modCore c fun x => { x with service := false, retiring := true }).physOf c = (s.core c).phys.getD c.core := by
    rw [State.physOf, State.modCore_eq, State.core_setCore]
  rw [exec, execCoreRetire]
  simp only [hs, hr, hcause, hn, hnone, hphys, Bool.not_false, Bool.not_true, Bool.or_self, Bool.and_false, Bool.false_eq_true, if_false, List.map_nil, List.filter_nil,
    List.foldl_nil, ne_eq, not_true_eq_false]
  rfl

end

theorem coresGoToSpares (s : State) (c : CoreId) (lost : List Nat) (check : Bool) (hs : (s.core c).service = true) (hr : (s.core c).retiring = false) :
    (check = false → (s.core c).worn = false → exec (.coreRetire c ⟨lost, check⟩) s = .next s)
    ∧ (check = true ∨ (s.core c).worn = true → s.cohortsOn c = [] →
      let old := (s.core c).phys.getD c.core
      let s1 := (s.modCore c fun x => { x with service := false, retiring := true }).modDie c.toDie fun x => { x with retired := old :: x.retired }
      (∀ p, s1.spareCore c.toDie = some p → exec (.coreRetire c ⟨lost, check⟩) s
        = .next ((s1.modCore c fun x => { x with service := true, retiring := false, phys := some p, corrected := [] }).logEvent c.chip 5 c.die c.core 0xFFFF 0))
      ∧ (s1.spareCore c.toDie = none → ∃ u, exec (.coreRetire c ⟨lost, check⟩) s = .next u ∧ (u.core c).service = false
          ∧ ∀ q < 4, (u.quad ⟨c.chip, c.die, c.core, q⟩).owner = none)) := by
  refine ⟨fun hc hw => ?_, fun hw hn => ⟨fun p hp => ?_, fun hp => ?_⟩⟩
  · rw [exec, execCoreRetire]
    simp [hs, hr, hc, hw]
  · have hp : (s.retireCore c).spareCore c.toDie = some p := hp
    rw [exec_coreRetire hs hr hw hn, hp]
    rfl
  · have hp : (s.retireCore c).spareCore c.toDie = none := hp
    refine ⟨_, (exec_coreRetire hs hr hw hn).trans (by rw [hp]), ?_⟩
    obtain ⟨hserve, hown⟩ := State.freeQuads c ((s.retireCore c).modCore c fun x => { x with retiring := false }) (List.range 4)
    have hlast := fun (l : List Nat) (u : State) => (State.ServesAs.foldl l (fun u v => u.noteHeld_servesAs c.chip v c) (u.logEvent c.chip 6 c.die c.core 0xFFFF 0)).trans
      (.of_same (u.logEvent_keeps c.chip 6 c.die c.core 0xFFFF 0).2.2 (u.logEvent_keeps c.chip 6 c.die c.core 0xFFFF 0).2.1)
    have hgone : (((s.retireCore c).modCore c fun x => { x with retiring := false }).core c).service = false := by
      rw [State.modCore_eq, State.core_setCore]
      exact congrArg Core.service (State.core_setCore ..)
    refine ⟨?_, fun q hq => ?_⟩
    · exact ((hlast ..).service c).trans ((hserve c).trans hgone)
    · exact (congrArg Quad.owner ((hlast ..).quad _)).trans (hown q (.inl (List.mem_range.2 hq)))

theorem rowsAndBanksGoToSpares (s : State) (d : DieId) (part n : Nat) :
    let rows := (s.die d).spareRows
    let banks := (s.die d).spareBanks
    let used := fun (l : List ((Nat × Nat) × Nat)) => (List.filter (fun (e : (Nat × Nat) × Nat) => e.1.1 = part) l).length
    (used rows < 16 → exec (.dramSpare d false ⟨part, n⟩) s
      = .next ((s.setDie d { s.die d with spareRows := ((part, n), used rows) :: rows }).logEvent d.chip 7 d.die part 0xFFFF 0))
    ∧ (part < 4 → used banks < 2 → exec (.dramSpare d true ⟨part, n⟩) s
      = .next ((s.setDie d { s.die d with spareBanks := ((part, n), used banks) :: banks }).logEvent d.chip 8 d.die n 0xFFFF 0))
    ∧ (16 ≤ used rows → exec (.dramSpare d false ⟨part, n⟩) s = .next s) ∧ (2 ≤ used banks → exec (.dramSpare d true ⟨part, n⟩) s = .next s) := by
  have hnext : ∀ (l : List ((Nat × Nat) × Nat)) (k : Nat), spareNext l part n k = if (List.filter (fun (e : (Nat × Nat) × Nat) => e.1.1 = part) l).length ≥ k then none
      else some (((part, n), (List.filter (fun (e : (Nat × Nat) × Nat) => e.1.1 = part) l).length) :: l) := fun _ _ => rfl
  refine ⟨fun h => ?_, fun hp h => ?_, fun h => ?_, fun h => ?_⟩
  · rw [exec, execDramSpare]
    simp only [hnext, Bool.false_eq_true, if_false, if_neg (Nat.not_le.2 h)]
  · rw [exec, execDramSpare]
    simp only [hnext, if_true, if_neg (Nat.not_le.2 h), if_neg (Nat.not_le.2 hp)]
  · rw [exec, execDramSpare]
    simp only [hnext, Bool.false_eq_true, if_false, if_pos h]
  · rw [exec, execDramSpare]
    simp only [hnext, if_true, if_pos h]

theorem lanesGoDown (s : State) (d : DieId) (n : Nat) (p : Port) (hn : n < 12) (hp : (s.die d).ports[n]? = some p) :
    let port := fun (u : State) => (u.die d).ports.getD n {}
    (p.lanes = 4 → ∃ u, exec (.laneFailure d n) s = .next u ∧ port u = { p with lanes := 3, training := true })
    ∧ (p.lanes = 3 → ∃ u, exec (.laneFailure d n) s = .next u ∧ port u = { p with lanes := 0, training := false })
    ∧ (p.training = true → ∃ u, exec (.laneRetrainDone d n) s = .next u ∧ port u = { p with training := false, key := p.key + 1, flits := 0 })
    ∧ (p.training = false → exec (.laneRetrainDone d n) s = .next s)
    ∧ (p.lanes ≠ 0 → exec (.linkRekey d n) s = .next (s.modDie d fun x => { x with ports := x.ports.set n { p with key := p.key + 1, flits := 0 } })) := by
  have hport : (s.die d).port n = p := by rw [Die.port, List.getD_eq_getElem?_getD, hp, Option.getD_some]
  have hlen : n < (s.die d).ports.length := (List.getElem?_eq_some_iff.1 hp).1
  have hset : ∀ q, ((s.modDie d fun x => x.setPort n q).die d).ports.getD n {} = q := fun q => by
    rw [State.modDie_eq, State.die_setDie]
    exact getD_set_of_lt hlen
  have hdies : ∀ (u w : State), u.dies = w.dies → (u.die d).ports.getD n {} = (w.die d).ports.getD n {} := fun u w h => by rw [State.die, h, State.die]
  have hlog := fun (u : State) (type : Nat) => (u.logEvent_keeps d.chip type d.die n 0xFFFF 0).1
  refine ⟨fun h => ?_, fun h => ?_, fun h => ?_, fun h => ?_, fun h => ?_⟩
  · have hrun : exec (.laneFailure d n) s = .next ((s.modDie d fun x => x.setPort n { p with lanes := 3, training := true }).logEvent d.chip 9 d.die n 0xFFFF 0) := by
      rw [exec, execLaneFailure]
      simp only [hport, h, show ¬ n ≥ 12 from by omega]
      rfl
    exact ⟨_, hrun, (hdies _ _ (hlog ..)).trans (hset _)⟩
  · have hrun : ∃ pathless : Bool, exec (.laneFailure d n) s = .next (
        let u := (s.modDie d fun x => x.setPort n { p with lanes := 0, training := false }).logEvent d.chip 10 d.die n 0xFFFF 0
        if pathless then u.modChip d.chip fun h => { h with pathless := some (h.pathless.getD u.now) } else u) := by
      refine ⟨!((s.modDie d fun x => x.setPort n { p with lanes := 0, training := false }).logEvent d.chip 10 d.die n 0xFFFF 0).hasPath d.chip, ?_⟩
      rw [exec, execLaneFailure]
      simp only [hport, h, show ¬ n ≥ 12 from by omega]
      cases ((s.modDie d fun x => x.setPort n { p with lanes := 0, training := false }).logEvent d.chip 10 d.die n 0xFFFF 0).hasPath d.chip <;> rfl
    obtain ⟨pathless, hrun⟩ := hrun
    refine ⟨_, hrun, (hdies _ _ ?_).trans (hset { p with lanes := 0, training := false })⟩
    cases pathless
    · exact hlog ..
    · exact hlog ..
  · have hrun : ∃ back : Bool, exec (.laneRetrainDone d n) s = .next (
        let u := s.modDie d fun x => x.setPort n { p with training := false, key := p.key + 1, flits := 0 }
        if back then u.modChip d.chip fun h => { h with pathless := none } else u) := by
      refine ⟨(s.modDie d fun x => x.setPort n { p with training := false, key := p.key + 1, flits := 0 }).hasPath d.chip, ?_⟩
      rw [exec, execLaneRetrainDone]
      simp only [hport, h]
      rfl
    obtain ⟨back, hrun⟩ := hrun
    refine ⟨_, hrun, (hdies _ _ ?_).trans (hset { p with training := false, key := p.key + 1, flits := 0 })⟩
    cases back <;> rfl
  · rw [exec, execLaneRetrainDone]
    simp only [hport, h, Bool.not_false, if_true]
  · rw [exec, execLinkRekey]
    simp only [hport, h, show ¬ n ≥ 12 from by omega, decide_false, Bool.or_self, Bool.false_eq_true, if_false]
    rfl

/-! ## The lockkeepers (R411, R415, R416) -/

section
variable (s : State) (chip : Nat)

theorem State.takeOver_chip : ((s.takeOver chip).chip chip).activeB = !(s.chip chip).activeB ∧ ((s.takeOver chip).chip chip).standby = false := by
  obtain ⟨_, _, _, h⟩ := State.logEvent_chip (s.setChip chip { s.chip chip with activeB := !(s.chip chip).activeB, standby := false, lone := true, missed := 0
                                                                                fw := (s.chip chip).fwOther, fwOther := (s.chip chip).fw }) chip 11 4 0 0xFFFF 0
  unfold State.takeOver
  dsimp only
  rw [h, State.chip_setChip]
  exact ⟨rfl, rfl⟩

/-- A scrub that corrects an error counts it; one that cannot makes the standby take over. -/
theorem scrubsOfTheLockkeeper : ((s.chip chip).standby = true → ∃ u, exec (.lockkeeperSramScrub chip .lockkeeper) s = .next u
      ∧ (u.chip chip).activeB = !(s.chip chip).activeB ∧ (u.chip chip).standby = false)
    ∧ ∃ u, exec (.lockkeeperSramScrub chip .corrected) s = .next u ∧ (u.chip chip).activeB = (s.chip chip).activeB ∧ (u.chip chip).missed = (s.chip chip).missed
      ∧ (u.chip chip).corrected = (s.chip chip).corrected + 1 := by
  refine ⟨fun h => ?_, ?_⟩
  · obtain ⟨_, _, _, hlog⟩ := s.logEvent_chip chip 2 4 (Config.arrayUnit 4 9) 0xFFFF 0
    obtain ⟨h1, h2⟩ := (s.logEvent chip 2 4 (Config.arrayUnit 4 9) 0xFFFF 0).takeOver_chip chip
    have hrun : exec (.lockkeeperSramScrub chip .lockkeeper) s = .next ((s.logEvent chip 2 4 (Config.arrayUnit 4 9) 0xFFFF 0).takeOver chip) := by
      rw [exec, execLockkeeperSramScrub]
      simp only [h, if_true]
    exact ⟨_, hrun, h1.trans (by rw [hlog]), h2⟩
  · obtain ⟨_, _, _, hlog⟩ := s.logEvent_chip chip 1 4 (Config.arrayUnit 4 9) 0xFFFF 0
    refine ⟨_, by rw [exec, execLockkeeperSramScrub], ?_⟩
    rw [State.modChip_eq, State.chip_setChip, hlog]
    exact ⟨rfl, rfl, rfl⟩

/-- An update whose image was fetched ends as the image verifies, or as its version is refused. -/
theorem updatesEnd (hu : (s.chip chip).updstat = 1) (hs : (s.chip chip).standby = true) :
    let h := s.chip chip
    (∃ u, exec (.liveUpdateTakeover chip .good) s = .next u ∧ (u.chip chip).updstat = (if imageVerifies chip (h.images + 1) then 2 else 1)
          ∧ (u.chip chip).activeB = (h.activeB != imageVerifies chip (h.images + 1))
          ∧ (u.chip chip).fw = (if imageVerifies chip (h.images + 1) then h.images + 1 else h.fw)
          ∧ (u.chip chip).fwOther = (if imageVerifies chip (h.images + 1) then h.fw else h.fwOther))
        ∧ exec (.liveUpdateTakeover chip .badSignature) s = .next
          (if imageVerifies chip (h.images + 1) then s else s.setChip chip { h with updstat := 3, images := h.images + 1 })
        ∧ exec (.liveUpdateTakeover chip .versionRefused) s = .next
          (if imageVerifies chip (h.images + 1) then s.setChip chip { h with updstat := 4, images := h.images + 1 } else s)
        ∧ exec (.liveUpdateTakeover chip .fetchFault) s = .next (s.setChip chip { h with updstat := 5 }) := by
  intro h
  have hrun : ∀ check, exec (.liveUpdateTakeover chip check) s = .next (match check with
      | .fetchFault => s.setChip chip { h with updstat := 5 }
      | .badSignature => if imageVerifies chip (h.images + 1) then s else s.setChip chip { h with updstat := 3, images := h.images + 1 }
      | .versionRefused => if imageVerifies chip (h.images + 1) then s.setChip chip { h with updstat := 4, images := h.images + 1 } else s
      | .good => if !imageVerifies chip (h.images + 1) then s else
        (s.setChip chip { h with activeB := !h.activeB, updstat := 2, images := h.images + 1, fw := h.images + 1, fwOther := h.fw }).logEvent chip 12 4 0 0xFFFF 0) := fun check => by
    have hgo : (decide ((s.chip chip).updstat ≠ 1) || !(s.chip chip).standby) = false := by simp [hu, hs]
    rw [exec]
    unfold execLiveUpdateTakeover
    dsimp only
    rw [hgo]
    rfl
  refine ⟨⟨_, hrun .good, ?_⟩, hrun .badSignature, hrun .versionRefused, hrun .fetchFault⟩
  dsimp only
  cases imageVerifies chip (h.images + 1) with
  | false => exact ⟨hu, by simp [h], rfl, rfl⟩
  | true =>
    obtain ⟨_, _, _, hlog⟩ := State.logEvent_chip (s.setChip chip { h with activeB := !h.activeB, updstat := 2, images := h.images + 1, fw := h.images + 1, fwOther := h.fw }) chip 12 4 0 0xFFFF 0
    rw [if_neg (by simp), hlog, State.chip_setChip]
    exact ⟨rfl, by simp, rfl, rfl⟩
end

theorem lockkeepersTakeOverAndUpdate : LockkeepersTakeOverAndUpdate := by
  intro s chip
  obtain ⟨hscrub, hcorrect⟩ := scrubsOfTheLockkeeper s chip
  refine ⟨by rw [exec, execHeartbeat]; rfl, by rw [exec, execHeartbeat]; rfl, fun h => ?_, fun h hs => ?_, hscrub, hcorrect, fun image => ⟨fun h => ?_, fun h => ?_⟩, updatesEnd s chip⟩
  · rw [exec, execTakeOver, if_neg (by simp; omega)]
  · rw [exec, execTakeOver, if_pos (by simp [h, hs])]
    rfl
  · rw [exec, execLkupd, State.modChip_eq, if_neg h]
  · rw [exec, execLkupd, State.modChip_eq, if_pos h]

/-- Settles O45: a spare takes a core's, a row's, a bank's or a lane's place, and the standby the lockkeeper's. -/
theorem sparesAndLockkeepersTakeOver : Obligations.SparesAndLockkeepersTakeOver :=
  ⟨⟨coresGoToSpares, rowsAndBanksGoToSpares, lanesGoDown⟩, lockkeepersTakeOverAndUpdate⟩

end Sys2Proof.Machine
end

section
/-! PROOFS. What performing an access leaves; transfer words at issue (O32). -/

namespace Sys2Proof.Machine

/-! ## What performing an access leaves (R243) -/

/-- What the performing of accesses, and claims of lines, change of the machine. -/
def State.PerformsAs (u s : State) : Prop := ∃ mem failed chips dies draws objects syncs lags cores ops threads pins,
  u = { s with mem := mem, failed := failed, chips := chips, dies := dies, draws := draws, objects := objects, syncs := syncs, lags := lags
               cores := cores, ops := ops, threads := threads, pins := pins }

namespace State.PerformsAs
variable {s u w : State}

theorem refl (s : State) : s.PerformsAs s := ⟨_, _, _, _, _, _, _, _, _, _, _, _, rfl⟩

theorem trans (g : w.PerformsAs u) (h : u.PerformsAs s) : w.PerformsAs s := by
  obtain ⟨_, _, _, _, _, _, _, _, _, _, _, _, rfl⟩ := h
  obtain ⟨_, _, _, _, _, _, _, _, _, _, _, _, rfl⟩ := g
  exact ⟨_, _, _, _, _, _, _, _, _, _, _, _, rfl⟩

theorem foldl {α : Type} (l : List α) {g : State → α → State} (h : ∀ s a, (g s a).PerformsAs s) (s : State) : (l.foldl g s).PerformsAs s := by
  induction l generalizing s with
  | nil => exact refl s
  | cons a l ih => exact (ih _).trans (h s a)

theorem ite {c : Prop} [Decidable c] (hu : u.PerformsAs s) (hw : w.PerformsAs s) : (if c then u else w).PerformsAs s := by
  split <;> assumption

theorem of_memory (h : u.MemoryAs s) : u.PerformsAs s := by
  obtain ⟨_, _, _, _, _, _, _, _, rfl⟩ := h
  exact ⟨_, _, _, _, _, _, _, _, _, _, _, _, rfl⟩

theorem modThread (s : State) (t : ThreadId) (f : Thread → Thread) : (s.modThread t f).PerformsAs s := ⟨_, _, _, _, _, _, _, _, _, _, _, _, rfl⟩

section
variable (h : u.PerformsAs s)
include h
theorem now : u.now = s.now := by obtain ⟨_, _, _, _, _, _, _, _, _, _, _, _, rfl⟩ := h; rfl
theorem nextId : u.nextId = s.nextId := by obtain ⟨_, _, _, _, _, _, _, _, _, _, _, _, rfl⟩ := h; rfl
theorem cohorts : u.cohorts = s.cohorts := by obtain ⟨_, _, _, _, _, _, _, _, _, _, _, _, rfl⟩ := h; rfl
theorem cohort (c : CohortId) : u.cohort c = s.cohort c := State.cohort_congr h.cohorts c
theorem msgs : u.msgs = s.msgs := by obtain ⟨_, _, _, _, _, _, _, _, _, _, _, _, rfl⟩ := h; rfl
end
end State.PerformsAs

section
variable (s : State)

theorem State.logEvent_memoryAs (c type die unit vf addr : Nat) : (s.logEvent c type die unit vf addr).MemoryAs s := by
  have hset : ∀ (u : State) (h : Chip), (u.setChip c h).MemoryAs u := fun u h => ⟨_, _, _, _, _, _, _, _, rfl⟩
  exact .ite ((hset ..).trans (s.hostWrite_memoryAs ..)) (hset ..)

theorem State.found_memoryAs (a n : Nat) : (s.found a n).MemoryAs s := by
  refine .foldl _ _ (fun u j => ?_) s
  refine .ite (.refl u) ?_
  split
  · exact .refl u
  · exact (State.logEvent_memoryAs ..).trans ⟨_, _, _, _, _, _, _, _, rfl⟩

theorem State.exposeTo_memoryAs (d : DieId) (ids : List Nat) : (s.exposeTo d ids).MemoryAs s := .ite (.refl s) ⟨_, _, _, _, _, _, _, _, rfl⟩

theorem State.settleBarrier_performsAs (t : ThreadId) (id : Nat) (wrote : Bool) : (s.settleBarrier t id wrote).PerformsAs s :=
  .ite (.refl s) ⟨_, _, _, _, _, _, _, _, _, _, _, _, rfl⟩

theorem State.widen_performsAs (t : ThreadId) (level : Nat) (k : List Nat) : (s.widen t level k).PerformsAs s := ⟨_, _, _, _, _, _, _, _, _, _, _, _, rfl⟩

theorem State.written_performsAs (id : Nat) (o : Op) (a : Access) (addr : Nat) (k : List Nat) : (s.written id o a addr k).PerformsAs s := by
  unfold State.written
  dsimp only
  generalize (if ((isGlobal a.ptr && (s.obj? a.ptr).isNone) || s.lags.any fun l => decide (l.op = id)) = true then join k [id] else k) = k'
  generalize hlo : (match o.device with | some d => (addr + d.off, d.len) | none => (addr, a.size)) = lo
  have hedges : ∀ (u : State) (x n : Nat) (l : List Edge), (u.addEdges x n l).PerformsAs u := fun u x n l => .of_memory (u.addEdges_memoryAs ..)
  have hmark : ∀ (u : State) (c : Bool), (if c = true then u.markWindow o.thread a.ptr a.size id else u : State).PerformsAs u := fun u c => by
    split
    · exact .of_memory (u.markWindow_memoryAs ..)
    · exact .refl u
  have hmod : ∀ (u : State) (c : Bool) (f : Thread → Thread), (if c = true then u.modThread o.thread f else u : State).PerformsAs u := fun u c f => by
    split
    · exact .modThread ..
    · exact .refl u
  have hwide : ∀ (u : State) (c : Bool) l k, (if c = true then u.widen o.thread l k else u : State).PerformsAs u := fun u c l k => by
    split
    · exact u.widen_performsAs ..
    · exact .refl u
  exact (hmark ..).trans ((hmod ..).trans ((hwide ..).trans (hedges ..)))

theorem State.place_memoryAs (id : Nat) (o : Op) (a : Access) (addr : Nat) (k : List Nat) : (s.place id o a addr k).MemoryAs s := by
  unfold State.place
  dsimp only
  refine .ite ?_ (s.store_memoryAs ..)
  exact State.MemoryAs.trans ⟨_, _, _, _, _, _, _, _, rfl⟩ ((State.storeKeep_memoryAs ..).trans (s.exposeTo_memoryAs ..))

theorem State.effect_performsAs (id : Nat) (o : Op) (a : Access) (addr : Nat) : ((s.effect id o a addr).2.2).PerformsAs s := by
  have hnote : ∀ (u : State) (l : List Sync) (f : Thread → Thread), (if l = [] then u else u.modThread o.thread f : State).PerformsAs u := fun u l f =>
    .ite (.refl u) (.modThread ..)
  unfold State.effect
  dsimp only
  split
  · exact (hnote ..).trans (.of_memory (s.exposeTo_memoryAs ..))
  · exact (State.written_performsAs ..).trans (.of_memory ((State.place_memoryAs ..).trans (s.dirtyRange_memoryAs ..)))
  · have hexp := State.PerformsAs.of_memory (s.expose_memoryAs [] [(addr, a.size)])
    split
    · exact (State.settleBarrier_performsAs ..).trans ((hnote ..).trans hexp)
    · exact (State.written_performsAs ..).trans ((State.PerformsAs.of_memory ((State.storeKeep_memoryAs ..).trans (State.dirtyRange_memoryAs ..))).trans
        ((State.settleBarrier_performsAs ..).trans ((hnote ..).trans hexp)))

theorem State.answer_performsAs (id : Nat) (o : Op) (r : Answer) : (s.answer id o r).PerformsAs s := ⟨_, _, _, _, _, _, _, _, _, _, _, _, rfl⟩

theorem State.perform_performsAs (id : Nat) (o : Op) (a : Access) (addr chip : Nat) : (s.perform id o a addr chip).PerformsAs s := by
  unfold State.perform
  dsimp only
  refine .ite ?_ ?_
  · exact (State.answer_performsAs ..).trans (.of_memory (s.found_memoryAs ..))
  · exact (State.answer_performsAs ..).trans ((State.effect_performsAs ..).trans (.of_memory (.of_stores (s.l2Use_storesAs ..))))

theorem State.performLocal_performsAs (id : Nat) : (s.performLocal id).PerformsAs s := by
  unfold State.performLocal
  split
  · split
    · refine .ite (.refl s) (.ite (s.answer_performsAs ..) ?_)
      split
      · exact s.perform_performsAs ..
      · exact s.answer_performsAs ..
      · exact .refl s
    · exact .refl s
  · exact .refl s

theorem State.claimLines_performsAs (c : CoreId) (lines : List Nat) : (s.claimLines c lines).PerformsAs s :=
  State.PerformsAs.trans ⟨_, _, _, _, _, _, _, _, _, _, _, _, rfl⟩ (.foldl _ State.performLocal_performsAs s)

theorem State.claimShares_performsAs (t : ThreadId) (l : List Share) : (s.claimShares t l).PerformsAs s := .foldl _ (fun u _ => u.claimLines_performsAs ..) s
end

/-! ## Transfer words (R285 to R288, R293, R294) -/

/-- What a transfer word queues: one transfer of the thread, with its claims made, and its blocks to do. -/
def State.queueTransfer (f : Fields) (x : XferOp) (m : Nat) (s : State) (b : Bundle) (t : ThreadId) : State :=
  let y := { x with shares := s.transferShares t x m, issued := s.now, fork := s.nextId
                    slot := if f.modG then some (f.modSlot, ((s.cohort t.cohort).slots.getD f.modSlot {}).epoch) else none }
  let r := (s.claimShares t (s.transferShares t x m)).addOp { s.newOp b t (some 4) (.clock 255) with body := .xfer { y with todo := y.transactions } }
  r.2.modDie t.cohort.toDie fun d => { d with queues := Tab.put d.queues (s.cohort t.cohort).vf (Tab.getD d.queues (s.cohort t.cohort).vf [] ++ [r.1]) }

/-- The members' room in their queue. -/
def transferHold (s : State) (_ : Bundle) (ts : List ThreadId) : Option Nat :=
  if ts.any fun t =>
      let vf := (s.cohort t.cohort).vf
      decide ((Tab.getD (s.die t.cohort.toDie).queues vf []).length + (ts.filter fun u => (s.cohort u.cohort).vf = vf).length > 256) then some 5
  else none

/-- A transfer of one thread. -/
def transferBody (f : Fields) (code : XCode) (s0 : State) (b : Bundle) (t : ThreadId) (s : State) : Res :=
  orTrap ((s.thread t).transferOf f code) fun (x, m) =>
    match s.transferTrap t x m with
    | some (k, c, p) => .trap k c p 0
    | none =>
      let sh := s.transferShares t x m
      if s.sharesHeld t sh then .held
      else
        let o := s.newOp b t (some 4) (.clock 255)
        let s := s.claimShares t sh
        let x := { x with shares := sh, slot := if f.modG then some (s.bindSlot t.cohort f.modSlot) else none, issued := s.now, fork := s.nextId }
        let (id, s) := s.addOp { o with body := .xfer { x with todo := x.transactions } }
        let vf := (s.cohort t.cohort).vf
        .done (s.modDie t.cohort.toDie fun d => { d with queues := Tab.put d.queues vf (Tab.getD d.queues vf [] ++ [id]) })

theorem transferWord_eq (s : State) (i : Instr) (f : Fields) (code : XCode) : s.transferWord i f code = s.runThreads i transferHold (transferBody f code) := rfl

section
variable {f : Fields} {code : XCode} {x : XferOp} {m : Nat} {s : State} {b : Bundle} {t : ThreadId}

theorem transferBody_of_trap {s0 : State} {k : TrapKind} {c : Nat} {p : DWord} (hx : (s.thread t).transferOf f code = some (x, m)) (ht : s.transferTrap t x m = some (k, c, p)) :
    transferBody f code s0 b t s = .trap k c p 0 := by
  unfold transferBody
  rw [hx]
  simp only [orTrap, ht]

theorem transferBody_of_sound {s0 : State} (hx : (s.thread t).transferOf f code = some (x, m)) (ht : s.transferTrap t x m = none)
    (hh : s.sharesHeld t (s.transferShares t x m) = false) : transferBody f code s0 b t s = .done (s.queueTransfer f x m b t) := by
  have hclaim := s.claimShares_performsAs t (s.transferShares t x m)
  have hvf : ∀ y, ((((s.claimShares t (s.transferShares t x m)).addOp { s.newOp b t (some 4) (.clock 255) with body := .xfer y }).2).cohort t.cohort).vf = (s.cohort t.cohort).vf := fun y =>
    congrArg Cohort.vf (hclaim.cohort t.cohort)
  unfold transferBody State.queueTransfer
  rw [hx]
  simp only [orTrap, ht, hh, Bool.false_eq_true, if_false, hvf, State.bindSlot, hclaim.now, hclaim.nextId, hclaim.cohort]

/-- A queue that has room holds no transfer. -/
theorem transferHold_of_room (h : (Tab.getD (s.die t.cohort.toDie).queues (s.cohort t.cohort).vf []).length < 256) (p : ThreadId → Bool) :
    transferHold s b ([t].filter p) = none := by
  unfold transferHold
  refine if_neg fun hany => ?_
  obtain ⟨u, hu, hfull⟩ := List.any_eq_true.1 hany
  obtain rfl : u = t := List.mem_singleton.1 (List.mem_filter.1 hu).1
  have h1 : (([u].filter p).filter fun v => (s.cohort v.cohort).vf = (s.cohort u.cohort).vf).length ≤ [u].length :=
    (List.length_filter_le ..).trans (List.length_filter_le ..)
  have := of_decide_eq_true hfull
  simp only [List.length_singleton] at h1
  omega

/-- What a checked transfer of a thread is. -/
theorem transferOf_fields {y : Thread} (h : y.transferOf f code = some (x, m)) : y.src64 f.sa = some x.dst ∧ y.b64 f = some x.src ∧ x.code = code
    ∧ x.len = (y.reg (f.sc.toNat + 2)).toNat ∧ x.handle = (if f.dst.toNat / 2 % 2 = 1 then some (y.pair f.sc.toNat) else none)
    ∧ x.nb = (if f.modSig then some f.modNb else none) ∧ (code ≠ .send → x.mc = false) := by
  unfold Thread.transferOf at h
  obtain ⟨dst, hdst, h⟩ := Option.bind_eq_some_iff.1 h
  obtain ⟨src, hsrc, h⟩ := Option.map_eq_some_iff.1 h
  obtain ⟨rfl, -⟩ := Prod.mk.inj h
  exact ⟨hdst, hsrc, rfl, rfl, rfl, rfl, fun hc => by simp [hc]⟩

end

section
variable {f : Fields} {code : XCode} {i : Instr} {x : XferOp} {m : Nat}

theorem transferWord_queues (hexec : ∀ s, exec i s = s.transferWord i f code) :
    Does i f (fun s _ t => (s.thread t).transferOf f code = some (x, m) ∧ s.transferTrap t x m = none
      ∧ (Tab.getD (s.die t.cohort.toDie).queues (s.cohort t.cohort).vf []).length < 256 ∧ s.sharesHeld t (s.transferShares t x m) = false) fun s b t => s.queueTransfer f x m b t := by
  refine does_of_settle (fun s => (hexec s).trans (transferWord_eq ..)) (fun _ _ _ h => h) fun s b t ⟨hx, ht, hroom, hh⟩ => ?_
  rw [transferBody_of_sound hx ht hh]
  exact ⟨by simp, transferHold_of_room hroom _, rfl⟩

theorem transferWord_traps (hexec : ∀ s, exec i s = s.transferWord i f code) {p : State → Bundle → ThreadId → Prop} {k : TrapKind} {c : Nat} {a : DWord}
    (hq : ∀ s b t, p s b t → p s.quiet b t) (h : ∀ s b t, p s b t → (s.thread t).transferOf f code = some (x, m) ∧ s.transferTrap t x m = some (k, c, a)) :
    Traps i f p k (fun _ _ _ => c) fun _ _ _ => a := by
  refine does_of_settle (fun s => (hexec s).trans (transferWord_eq ..)) hq fun s b t hp => ?_
  obtain ⟨hx, ht⟩ := h s b t hp
  have hbody : ∀ s0, transferBody f code s0 b t s = .trap k c a 0 := fun s0 => transferBody_of_trap hx ht
  have hnone : ([t].filter fun u => (transferBody f code s b u s).goes) = [] := by simp [hbody, Res.goes]
  rw [hbody, hnone]
  exact ⟨by simp, rfl, rfl⟩

end

/-- Settles O32: a checked transfer is queued with its claims, and each check that fails traps. -/
theorem transferWordsQueueOneTransfer : Obligations.TransferWordsQueueOneTransfer := by
  intro f x m
  dsimp only
  refine ⟨transferWord_queues fun s => by rw [exec, execXsend], transferWord_queues fun s => by rw [exec, execXfetch], transferWord_queues fun s => by rw [exec, execXadd],
    fun code y h => ?_, ?_, ?_, ?_⟩
  · obtain ⟨h1, h2, h3, h4, h5, h6, -⟩ := transferOf_fields h
    exact ⟨h1, h2, h3, h4, h5, h6⟩
  · refine transferWord_traps (fun s => by rw [exec, execXsend]) (fun _ _ _ h => h) fun s b t ⟨hx, hlen⟩ => ⟨hx, ?_⟩
    have hbad : (decide (x.len = 0) || decide (x.len > 2 ^ 24)
        || decide (x.code = .add) && decide (x.len % 4 ≠ 0)) = true := by
      rcases hlen with h | h
      · rw [decide_eq_true h, Bool.true_or, Bool.true_or]
      · rw [decide_eq_true h, Bool.or_true, Bool.true_or]
    unfold State.transferTrap
    exact if_pos hbad
  · refine transferWord_traps (fun s => by rw [exec, execXfetch]) (fun _ _ _ h => h) fun s b t ⟨hx, h0, hlen, hnone, hfar⟩ => ⟨hx, ?_⟩
    obtain ⟨-, -, hcode, -, -, -, hmc⟩ := transferOf_fields hx
    have hspace : x.dstSpace = false := by simp [XferOp.dstSpace, hcode, isGlobal, isLocal01, hfar]
    unfold State.transferTrap
    simpa [hcode, hmc (by simp), hnone, hspace, Nat.ne_of_gt h0] using hlen
  · refine transferWord_traps (fun s => by rw [exec, execXadd]) (fun _ _ _ h => h) fun s b t ⟨hx, h0, hlen, h4, hnone, hdst, hsrc, hd, hs, hmis⟩ => ⟨hx, ?_⟩
    obtain ⟨-, -, hcode, -, -, -, hmc⟩ := transferOf_fields hx
    have hdspace : x.dstSpace = true := by simp [XferOp.dstSpace, hcode, hdst]
    have hsspace : x.srcSpace = true := by simp [XferOp.srcSpace, hsrc]
    unfold State.transferTrap
    simp [hcode, hmc (by simp), hnone, hdspace, hsspace, Nat.not_lt.2 (by omega : x.len ≤ 16777216), Nat.ne_of_gt h0, h4,
      Nat.not_lt.2 (by omega : offsetOf x.dst + x.len ≤ 1073741824), Nat.not_lt.2 (by omega : offsetOf x.src + x.len ≤ 1073741824), hmis]

end Sys2Proof.Machine
end

section
/-! PROOFS. A matrix command's fault at a member whose list of pending faults is full (O30, refuted). -/

namespace Sys2Proof.Machine

/-- The one member of the command. -/
def fullMember : ThreadId := ⟨⟨0, 0, 0, 0⟩, 0⟩

/-- A product that stopped on a fault, and signals. -/
def faultedProduct : MatOp := { code := .mmag, members := [fullMember], ended := true, nb := some 0, err := some (5, 0) }

def faultedOp : Op := { thread := fullMember, ctr := some 4, body := .matrix faultedProduct }

/-- A machine with that command under way, counted on dc4 of its member, which has sixteen faults pending. -/
def fullOfFaults : State := { State.reset with
  ops := [(5, faultedOp)], nextId := 6
  cohorts := [(fullMember.cohort, { threads := 1 })]
  threads := [(fullMember, { dcs := [[], [], [], [], [(5, false)], []], deferred := List.replicate 16 { op := 1, ctr := 4, kind := .deferredEngine } })] }

set_option maxRecDepth 65536 in
/-- The seventeenth fault ends the cohort, and the command's operation with it (R384, R391). -/
theorem fullOfFaults_result : ∃ u, exec (.matrixCommandComplete 5) fullOfFaults = .next u ∧ (u.op? 5).isNone = true :=
  ⟨_, rfl, by decide⟩

/-- Refutes O30: a signalling command that stopped on a fault is said to stay until its arrival has counted, on the dc4 of every member. Where a member
has sixteen faults pending, the fault ends its cohort, and the operation with it. -/
theorem not_drainsWriteAndMatrixCommandsComplete : ¬ Obligations.DrainsWriteAndMatrixCommandsComplete := by
  rintro ⟨-, -, hcomplete, -⟩
  obtain ⟨h, -⟩ := hcomplete fullOfFaults 5 faultedOp faultedProduct rfl rfl rfl rfl (by decide) rfl (by decide) (by decide) (by decide)
  obtain ⟨u, hu, -, -, -, -, hsignal, -⟩ := h (.inr ⟨rfl, by decide⟩)
  obtain ⟨hclosing, -⟩ := hsignal 0 rfl
  obtain ⟨v, hv, hnot⟩ := fullOfFaults_result
  obtain rfl : u = v := Host.Outcome.next.inj (hu.symm.trans hv)
  rw [hclosing] at hnot
  exact absurd hnot (by simp)

end Sys2Proof.Machine
end

section
/-! PROOFS. A reduction slot whose last member retires with its firing (O35, refuted). -/

namespace Sys2Proof.Machine

/-- A firing of entry slot 0 that has begun nothing, and whose transfer has a fault on record. -/
def faultedFiring : XferOp := { slotOf := some 0, red := some (0, 0), err := some 3 }

/-- A machine whose one reduction slot has a spoiled round with that firing ready; its entry is the only member left. -/
def lastMemberFires : State := { State.reset with
  ops := [(1, { body := .xfer faultedFiring }), (2, { body := .xfer {} })], nextId := 3
  dies := [(⟨0, 0⟩, { slots := [(0, { firing := some 1 })] })]
  redSlots := [((0, 0), { rcount := 2, members := [(⟨0, 0⟩, 0)], ready := [1], bad := true })] }

set_option maxRecDepth 65536 in
/-- The firing ends with its fault, its entry retires, and the reduction slot, which has no member left, is gone (R301, R303). -/
theorem lastMemberFires_result : ∃ u, exec (.reductionSlotSum 0 0) lastMemberFires = .next u ∧ u.redSlots.get? (0, 0) = none :=
  ⟨_, rfl, by decide⟩

/-- Refutes O35: after a spoiled round the reduction slot is said to be there, with nothing ready. Where the firing that ends has a fault, its entry
retires, and with its last member the slot is freed. -/
theorem not_entriesFireAdvanceAndReduce : ¬ Obligations.EntriesFireAdvanceAndReduce := by
  rintro ⟨-, hsum⟩
  obtain ⟨h, -⟩ := hsum lastMemberFires 0 0 1 2 _ _ _ _ _ rfl rfl rfl (by decide)
  obtain ⟨u, q, hu, hslot, -⟩ := h rfl rfl rfl
  obtain ⟨v, hv, hnone⟩ := lastMemberFires_result
  obtain rfl : u = v := Host.Outcome.next.inj (hu.symm.trans hv)
  rw [hnone] at hslot
  exact absurd hslot (by simp)

end Sys2Proof.Machine
end

section
/-! PROOFS. A refused post whose issue forked edges (O34, refuted). -/

namespace Sys2Proof.Machine

/-- A post at the Pump, counted on dc4, that carries an edge of its thread's issue. -/
def postWithEdges : Op := { ctr := some 4, edges := [⟨0, default, []⟩] }

def refusedPost : State := { State.reset with ops := [(1, postWithEdges)], nextId := 2 }

set_option maxRecDepth 65536 in
/-- As the post lands with its status, its thread notes what the operation brings it on dc4 (R253). -/
theorem refusedPost_result : ((refusedPost.placePost 1 postWithEdges 0 none 0 (Entry.ofBytes []) false).thread default).joins.length = 1 := by
  decide

set_option maxRecDepth 65536 in
/-- Refutes O34: a post whose entry breaks R295 is said to change nothing of its thread but the register that its status lands in and dc4. Where the
post's issue forked edges, the thread also gains the join through which it comes to know them. -/
theorem not_postsTakeAnEntrySlot : ¬ Obligations.PostsTakeAnEntrySlot := by
  rintro ⟨-, hserve, -⟩
  obtain ⟨-, -, hrefused, -⟩ := hserve refusedPost 1 0 postWithEdges 0 [] rfl rfl (by decide) (by decide) (by decide) (by decide)
  have hthread := hrefused (by decide) rfl rfl (by decide)
  have hone := refusedPost_result
  rw [show (default : ThreadId) = postWithEdges.thread from rfl, hthread] at hone
  exact absurd hone (by decide)

end Sys2Proof.Machine
end

section
/-! PROOFS. A transfer that ends while its number is the next one (O33, refuted). -/

namespace Sys2Proof.Machine

/-- A firing of entry slot 0. -/
def numberedFiring : XferOp := { slotOf := some 0 }

/-- A machine whose next operation has the number of the one under way. -/
def numberedTwice : State := { State.reset with
  ops := [(1, { body := .xfer numberedFiring })], nextId := 1
  dies := [(⟨0, 0⟩, { slots := [(0, {})] })] }

set_option maxRecDepth 65536 in
/-- The firing's fault retires its entry, whose status is stored by an operation of the firing's own number (R298, R301). -/
theorem numberedTwice_result : let u := numberedTwice.finishXfer 1 { body := .xfer numberedFiring } numberedFiring (some (1, 0)) false
    (u.op? 1).isSome = true ∧ u.msgs = [] := by
  decide

/-- Refutes O33: a transfer that ends is said to leave the table, or to wait there for its own messages. No hypothesis says that the number of
the next operation is a fresh one: the store of an entry's status can take the transfer's place. -/
theorem not_transfersMoveSignalAndComplete : ¬ Obligations.TransfersMoveSignalAndComplete := by
  rintro ⟨-, -, -, hends⟩
  obtain ⟨h, -⟩ := hends numberedTwice 1 { body := .xfer numberedFiring } numberedFiring (some (1, 0)) rfl rfl
  obtain ⟨-, hmsgs⟩ := h rfl
  obtain ⟨hthere, hnone⟩ := numberedTwice_result
  obtain ⟨o, ho⟩ := Option.isSome_iff_exists.1 hthere
  have hany := hmsgs o ho
  rw [hnone] at hany
  exact absurd hany (by decide)

end Sys2Proof.Machine
end

section
/-! PROOFS. A migration of an extent that is where it is to go, whose operation has another move under way (O23, refuted). -/

namespace Sys2Proof.Machine

/-- OMIGRATE of extent 0 of object 1 to package 0, which holds it. -/
def movingHome : ObjOp := { code := .migrate, ptr := mkPtr 0 1 0 }

/-- A machine in which a move of another object is recorded as one of that operation. -/
def movesLeftOver : State := { State.reset with
  chips := [(0, { vfs := [(0, { enable := true, keyed := true })] })]
  objects := [((0, 1), { size := 2 ^ 21, extents := [{}] })]
  ops := [(1, { body := .obj movingHome })], nextId := 2
  moves := [(9, { obj := (0, 2), ext := 0, src := 0, dest := 0, op := some 1 })] }

set_option maxRecDepth 65536 in
/-- The operation waits for that move. -/
theorem movesLeftOver_result : ∃ u, exec (.wellheadObjectRequest 1) movesLeftOver = .next u ∧ (u.op? 1).isSome = true :=
  ⟨_, rfl, by decide⟩

set_option maxRecDepth 65536 in
theorem movesLeftOver_landed : ((movesLeftOver.landObj 1 { body := .obj movingHome } movingHome 0).op? 1).isSome = false := by
  decide

set_option maxRecDepth 65536 in
/-- Refutes O23: an OMIGRATE of one extent to the package that holds it is said to be answered at once. No hypothesis keeps the table of moves from
holding one of the same operation, and then the answer waits for it. -/
theorem not_objectWordsAreIssuedAndAnswered : ¬ Obligations.ObjectWordsAreIssuedAndAnswered := by
  rintro ⟨-, hanswers⟩
  obtain ⟨-, h⟩ := hanswers movesLeftOver 1 { body := .obj movingHome } movingHome rfl rfl (by decide) (by decide)
  obtain ⟨-, h⟩ := h (.inr (by decide))
  obtain ⟨-, -, -, h⟩ := h rfl
  obtain ⟨-, h⟩ := h { size := 2 ^ 21, extents := [{}] } (by decide) (by decide)
  obtain ⟨-, -, -, -, -, -, -, -, -, -, -, -, -, -, -, h, -⟩ := h (by decide)
  obtain ⟨-, -, -, h⟩ := h rfl rfl rfl
  obtain ⟨-, h⟩ := h (by decide) rfl (by decide)
  obtain ⟨hhome, -⟩ := h 0 (by decide)
  have hrun := hhome (by decide)
  obtain ⟨u, hu, hthere⟩ := movesLeftOver_result
  obtain rfl := Host.Outcome.next.inj (hu.symm.trans hrun)
  rw [movesLeftOver_landed] at hthere
  exact absurd hthere (by decide)

end Sys2Proof.Machine
end

section
/-! PROOFS. Requests on their way to the holder, and page walks (O19). -/

namespace Sys2Proof.Machine

/-- R182: a page that its die has translated. -/
theorem State.translate_of_cached {s : State} {id h : Nat} {o : Op} {a : Access} {b : Obj}
    (hcached : (s.die ⟨h, (b.pages.getD (offsetOf a.ptr / 65536) {}).die⟩).cached.contains (a.ptr.toNat / 65536) = true) :
    s.translate id o a h b = (s.modDie ⟨h, (b.pages.getD (offsetOf a.ptr / 65536) {}).die⟩ fun x =>
      { x with cached := a.ptr.toNat / 65536 :: x.cached.filter (· ≠ a.ptr.toNat / 65536) }).serve id o a h := by
  unfold State.translate pageOf
  exact if_pos hcached

/-- R179, R180: an access of its object's realm, inside the object, at the holder of an extent at rest. -/
theorem State.arrive_at_holder {s : State} {id h : Nat} {o : Op} {a : Access} {hop last : Bool} {b : Obj} {e : Extent} (hmay : s.mayPerform id o = true)
    (hobj : s.obj? a.ptr = some b) (hext : b.extents[offsetOf a.ptr / 2 ^ b.log2]? = some e) (hholder : e.holder = h) (hrest : e.state = .rest)
    (hfwd : e.fwd = []) (hrealm : b.realm = s.opRealm o) (hsize : offsetOf a.ptr + a.size ≤ b.size) :
    s.arrive id o a h hop last = s.translate id o a h b := by
  have hgood : (decide (b.realm ≠ s.opRealm o) || decide (offsetOf a.ptr + a.size > b.size)) = false := by
    rw [decide_eq_false (not_not.2 hrealm), decide_eq_false (Nat.not_lt.2 hsize), Bool.or_false]
  unfold State.arrive
  simp only [hmay, hobj, hext, hholder, hrest, hfwd]
  rw [hgood]
  rfl

theorem State.opRealm_of_thread {s : State} {o : Op} (h : o.device = none) : s.opRealm o = s.realmOf o.thread.cohort := by
  unfold State.opRealm State.opCtx
  rw [h]
  rfl

theorem requestsFindTheirHolder : RequestsFindTheirHolder := by
  intro s id o a hop hbody hdevice hglobal
  refine ⟨fun b e hoff hpath hphase hmay hobj hext hacked => ?_, fun hoff hpath hphase hmay hobj hwin => ?_, fun h hop' last upset since hpath hphase => ?_,
    fun h last b e hoff hpath hphase hmay hobj hext hholder hrest hfwd hrealm hsize hcached => ?_, fun chip v know hphase => ?_, fun hphase => ?_,
    fun c hphase => ?_, fun hphase hmoves hguess => ?_⟩
  · have hmoved : (s.moves.any fun m => m.2.obj = keyOf a.ptr && m.2.ext = offsetOf a.ptr / 2 ^ b.log2 && m.2.acked) = false := by
      rw [List.any_eq_false]
      intro m hm
      simpa using hacked m hm
    rw [exec, execWellheadRequest]
    simp [hop, hbody, hphase, hmay, hoff, hpath, hobj, hext, hmoved]
  · rw [exec, execWellheadRequest]
    simp [hop, hbody, hphase, hmay, hoff, hpath, hobj, hwin, State.answer]
  · rw [exec, execAccessRequest]
    simp [hop, hbody, hphase, hpath]
  · rw [← State.translate_of_cached hcached,
      ← State.arrive_at_holder (hop := false) (last := last) hmay hobj hext hholder hrest hfwd (hrealm.trans (State.opRealm_of_thread hdevice).symm) hsize]
    rw [exec, execAccessRequest]
    cases hdie : s.servingDie id o a h <;> simp [hop, hbody, hphase, hoff, hpath, hdie, State.upsetAt]
  · rw [exec, execServed]
    simp [hop, hbody, hphase, hdevice, hglobal]
  · rw [exec, execNoObject]
    simp [hop, hphase]
  · rw [exec, execFaultResponse]
    simp [hop, hbody, hphase, hdevice]
  · rw [exec, execRetry]
    simp [hop, hbody, hphase, hdevice, hmoves, State.sendRequest, hguess]

theorem aWalkServesTheRequestsBehindIt : AWalkServesTheRequestsBehindIt := by
  intro s d page id hwalks hmisses hhomed
  rw [exec, execTranslationWalk]
  simp [hwalks, hmisses, hhomed, State.modDie]

/-- Settles O19, one step of a request after the other. -/
theorem requestsFindTheirHolderAndWalk : Obligations.RequestsFindTheirHolderAndWalk :=
  ⟨requestsFindTheirHolder, aWalkServesTheRequestsBehindIt⟩

end Sys2Proof.Machine
end

section
/-! PROOFS. The cistern's words and its line operations (O21). -/

namespace Sys2Proof.Machine

/-! ## CTAG and CPRES -/

theorem State.tagLookup_miss {s : State} {t : ThreadId} {q : DWord} (h : ∀ e ∈ (s.cohort t.cohort).tags, ¬ e.covers q = true) :
    s.tagLookup t q = 0x80000000 := by
  rw [State.tagLookup, Cohort.hit_none _ _ h]

theorem State.tagLookup_hit {s : State} {t : ThreadId} {q : DWord} {i : Nat} {e : TagEntry} (h : (s.cohort t.cohort).hit q = some (i, e)) :
    s.tagLookup t q = BitVec.ofNat 64 (2 ^ 32 * (e.line.toNat * 128 + (q.toNat - e.tag.toNat * 128)) + i
        + if (List.range (e.len.toNat + 1)).all fun j => s.present t.cohort.toCore (e.line.toNat + j) then 0 else 2 ^ 30) := by
  have haway : ((List.range e.lines).any fun j => !s.present t.cohort.toCore (e.line.toNat + j))
      = !((List.range (e.len.toNat + 1)).all fun j => s.present t.cohort.toCore (e.line.toNat + j)) := by
    rw [TagEntry.lines, List.all_eq_not_any_not, Bool.not_not]
  rw [State.tagLookup, h]
  dsimp only
  rw [haway]
  cases (List.range (e.len.toNat + 1)).all fun j => s.present t.cohort.toCore (e.line.toNat + j) <;> rfl

/-- CTAG, its pointer checked. -/
theorem ctag_body {s : State} {t : ThreadId} {f : Fields} {p q : DWord} {v : DWord} (hsrc : (s.thread t).src64 f.sa = some p) (hq : pointed p f.off 1 q)
    (hcheck : s.regionCheck t q 1 = none) (hv : s.tagLookup t q = v) :
    (orTrap ((s.thread t).src64 f.sa) fun p => match pointAt p f.off 1 with
      | .error (c, q) => .trap .memoryFault c q 0
      | .ok q => match s.regionCheck t q 1 with
        | some c => .trap .memoryFault c q 0
        | none => .done (s.setThread t ((s.thread t).setPair f.dst.toNat (s.tagLookup t q))))
      = .done (s.modThread t fun x => x.setPair f.dst.toNat v) := by
  rw [hsrc, ← hv]
  simp only [orTrap, pointAt_of_pointed hq, hcheck]
  rfl

/-! ## CFILL -/

section
variable {s : State} {t : ThreadId} {f : Fields} {p q : DWord} {d : Word} {off : Int} {i n l : Nat}

theorem bitsOf_entry (d : Word) : bitsOf d.toNat 11 0 = d.toNat % 4096 ∧ bitsOf d.toNat 17 12 = d.toNat / 4096 % 64 ∧ bitsOf d.toNat 31 18 = d.toNat / 2 ^ 18 := by
  have hd := d.isLt
  unfold bitsOf
  omega

theorem State.cfillFor_eq (hsrc : (s.thread t).src64 f.sa = some p) (hd : (s.thread t).src32 f.sb = some d) : s.cfillFor t f = some (s.cfillOf t p d f.off) := by
  simp only [State.cfillFor, hsrc, hd, Option.bind_some, Option.map_some]

/-- The entry and the run are not the thread's to name. -/
theorem State.cfillOf_refused (h : (s.cohort t.cohort).tags.length ≤ d.toNat % 4096
    ∨ s.ownsBytes t.cohort.toCore (s.partOf t.cohort) (d.toNat / 2 ^ 18 * 128) ((d.toNat / 4096 % 64 + 1) * 128) = false) :
    s.cfillOf t p d off = .error (.illegalOperand, 0, 0) := by
  obtain ⟨h1, h2, h3⟩ := bitsOf_entry d
  unfold State.cfillOf
  simp only [h1, h2, h3]
  rw [if_pos]
  rcases h with h | h
  · rw [decide_eq_true h, Bool.true_or]
  · rw [h, Bool.not_false, Bool.or_true]

/-- The entry and the run are the thread's: what is left of the checks. -/
theorem State.cfillOf_allowed (hi : i = d.toNat % 4096) (hn : n = d.toNat / 4096 % 64 + 1) (hl : l = d.toNat / 2 ^ 18)
    (hlt : i < (s.cohort t.cohort).tags.length) (howns : s.ownsBytes t.cohort.toCore (s.partOf t.cohort) (l * 128) (n * 128) = true) :
    s.cfillOf t p d off = match pointAt p off 128 with
      | .error (c, q) => .error (.memoryFault, c, q)
      | .ok q =>
        if birthOf q = 0xFFF && serialOf q ≠ 0 then .error (.memoryFault, 0x12, q)
        else if offsetOf q + 128 * n > 2 ^ 30 then .error (.memoryFault, 0x11, q)
        else match s.issueCheck t q (128 * n) with
          | some c => .error (.memoryFault, c, q)
          | none => .ok (i, n, l, q) := by
  obtain ⟨h1, h2, h3⟩ := bitsOf_entry d
  subst hi hn hl
  unfold State.cfillOf
  simp only [h1, h2, h3]
  rw [if_neg (by rw [howns, decide_eq_false (Nat.not_le.2 hlt)]; decide)] <;> rfl

end

/-- The hold of a word that takes an entry for each of its lines, w of them for each thread (R212, R234). -/
def linesHold (w : State → ThreadId → Nat) (s : State) (b : Bundle) (ts : List ThreadId) : Option Nat :=
  let n := (ts.map fun t => w s t).foldl (· + ·) 0
  match ts with
  | t :: _ => if s.requestsFull t b.order n then some 1 else none
  | [] => none

theorem linesHold_of_room {w : State → ThreadId → Nat} {s : State} {b : Bundle} {t : ThreadId} (p : ThreadId → Bool)
    (h : s.requestsFull t b.order (w s t) = false) : linesHold w s b ([t].filter p) = none := by
  cases hp : p t
  · simp [hp, linesHold]
  · simp only [List.filter_cons, hp, List.filter_nil, if_true, linesHold, List.map_cons, List.map_nil, List.foldl_cons, List.foldl_nil, Nat.zero_add]
    rw [h]
    rfl

section
variable {i : Instr} {f : Fields} {w : State → ThreadId → Nat} {body : State → Bundle → ThreadId → State → Res} {p : State → Bundle → ThreadId → Prop}
  {r : State → Bundle → ThreadId → State}

theorem does_of_lines (h : ∀ s, exec i s = s.runThreads i (linesHold w) body) (hq : ∀ s b t, p s b t → p s.quiet b t)
    (hroom : ∀ s b t, p s b t → s.requestsFull t b.order (w s t) = false) (hb : ∀ s b t, p s b t → body s b t s = .done (r s b t)) : Does i f p r :=
  does_of_settle h hq fun s b t hp => by
    rw [hb s b t hp]
    exact ⟨by simp, linesHold_of_room _ (hroom s b t hp), rfl⟩

theorem traps_of_lines {kind : TrapKind} {cause : State → Bundle → ThreadId → Nat} {addr : State → Bundle → ThreadId → DWord}
    (h : ∀ s, exec i s = s.runThreads i (linesHold w) body) (hq : ∀ s b t, p s b t → p s.quiet b t)
    (hb : ∀ s b t, p s b t → body s b t s = .trap kind (cause s b t) (addr s b t) 0) : Traps i f p kind cause addr :=
  does_of_settle h hq fun s b t hp => by
    have hgoes : (body s b t s).goes = false := by rw [hb s b t hp]; rfl
    exact ⟨by rw [hb s b t hp]; simp, by simp [hgoes, linesHold], by rw [hb s b t hp]; rfl⟩

end

/-- The lines that a thread's CFILL takes entries for. -/
def State.cfillLines (f : Fields) (s : State) (t : ThreadId) : Nat := match s.cfillFor t f with | some (.ok (_, n, _, _)) => n | _ => 0

/-- The entry that a thread's CEVICT.WB names. -/
def State.evictee (f : Fields) (s : State) (t : ThreadId) : Option (Nat × TagEntry) :=
  ((s.thread t).evictEntry f).bind fun i => (s.cohort t.cohort).tags[i]?.map fun e => (i, e)

/-- The lines that a thread's CEVICT.WB takes entries for. -/
def State.evictLines (f : Fields) (s : State) (t : ThreadId) : Nat := match s.evictee f t with | some (_, e) => e.lines | none => 0

/-- CFILL's body, by what its checks give. -/
def State.cfillBody (f : Fields) (_ : State) (b : Bundle) (t : ThreadId) (s : State) : Res :=
  orTrap (s.cfillFor t f) fun r =>
  match r with
  | .error (k, c, q) => .trap k c q 0
  | .ok (i, n, l, q) =>
    let lines := (List.range n).map (l + ·)
    if s.claimHeld t t.cohort.toCore lines then .held
    else
      let e : TagEntry := { valid := true, tag := BitVec.ofNat 57 (q.toNat / 128), line := BitVec.ofNat 14 l, len := BitVec.ofNat 6 (n - 1) }
      let s := (s.modCohort t.cohort fun c => { c with tags := c.tags.set i e }).claimLines t.cohort.toCore lines
      .done (s.addOp (s.newOp b t (some 2) (.cfill { entry := i, line := l, ptr := q, left := lines, run := n }))).2

theorem exec_cfill (f : Fields) (s : State) : exec (.cfill f) s = s.runThreads (.cfill f) (linesHold (State.cfillLines f)) (State.cfillBody f) := rfl

/-- A CFILL that passes its checks. -/
theorem State.cfillFor_of_passes {s : State} {t : ThreadId} {f : Fields} {p q : DWord} {d : Word} {i n l : Nat} (hsrc : (s.thread t).src64 f.sa = some p)
    (hd : (s.thread t).src32 f.sb = some d) (hi : i = d.toNat % 4096) (hn : n = d.toNat / 4096 % 64 + 1) (hl : l = d.toNat / 2 ^ 18)
    (hlt : i < (s.cohort t.cohort).tags.length) (howns : s.ownsBytes t.cohort.toCore (s.partOf t.cohort) (l * 128) (n * 128) = true)
    (hq : pointed p f.off 128 q) (hsource : birthOf q = 0xFFF → serialOf q = 0) (hfits : offsetOf q + 128 * n ≤ 2 ^ 30)
    (hcheck : s.issueCheck t q (128 * n) = none) : s.cfillFor t f = some (.ok (i, n, l, q)) := by
  have hspace : (decide (birthOf q = 0xFFF) && decide (serialOf q ≠ 0)) = false := by simpa using hsource
  rw [State.cfillFor_eq hsrc hd, State.cfillOf_allowed hi hn hl hlt howns, pointAt_of_pointed hq]
  simp only [hspace, if_neg (Nat.not_lt.2 hfits), hcheck, Bool.false_eq_true, if_false]

theorem Thread.evictEntry_eq {x : Thread} {f : Fields} {d : Word} (h : x.src32 f.sb = some d) : x.evictEntry f = some (d.toNat % 4096) := by
  rw [Thread.evictEntry, h, Option.map_some, (bitsOf_entry d).1]

/-- R216, R240: the cistern's words. -/
theorem cisternWordsUseTagsAndPresence : CisternWordsUseTagsAndPresence := by
  intro f p q a d i n l e
  dsimp only
  refine ⟨?_, ?_, ?_, ?_, ?_, ?_, ?_, ?_⟩
  · refine does_of_body (fun s => by rw [exec, execCtag]) (fun _ _ _ h => h) fun s b t ⟨hsrc, hq, hcheck, hmiss⟩ => ?_
    exact ctag_body hsrc hq hcheck (State.tagLookup_miss fun e he => by rw [TagEntry.covers_iff]; exact hmiss e he)
  · refine does_of_body (fun s => by rw [exec, execCtag]) (fun _ _ _ h => h) fun s b t ⟨hsrc, hq, hcheck, hi, hcovers, hfirst⟩ => ?_
    exact ctag_body hsrc hq hcheck (State.tagLookup_hit (Cohort.hit_some _ _ _ _ hi (by rw [TagEntry.covers_iff]; exact hcovers)
      fun j e' hj he' => by rw [TagEntry.covers_iff]; exact hfirst j e' hj he'))
  · refine does_of_body (fun s => by rw [exec, execCpres]) (fun _ _ _ h => h) fun s b t ⟨hsrc, hregion, hq, hcheck⟩ => ?_
    simp only [hsrc, orTrap, hregion, ne_eq, not_true_eq_false, if_false, pointLocal_of_pointed (by omega) hq, hcheck]
    rfl
  · refine does_of_body (fun s => by rw [exec, execCevict]) (fun _ _ _ h => h) fun s b t ⟨hsrc, hi, hlt⟩ => ?_
    simp only [Thread.evictEntry_eq hsrc, hi, orTrap]
    rw [if_neg (Nat.not_le.2 hlt)]
  · refine traps_of_lines (exec_cfill f) (fun _ _ _ h => h) fun s b t ⟨⟨hsrc, hd⟩, hbad⟩ => ?_
    rw [State.cfillBody, State.cfillFor_eq hsrc hd, State.cfillOf_refused hbad]
    rfl
  · refine traps_of_lines (exec_cfill f) (fun _ _ _ h => h) fun s b t ⟨⟨hsrc, hd⟩, ⟨hi, hn, hl, hlt, howns⟩, hq, hbad⟩ => ?_
    obtain ⟨rfl, h0, h1, -⟩ := hq
    rw [State.cfillBody, State.cfillFor_eq hsrc hd, State.cfillOf_allowed hi hn hl hlt howns]
    by_cases hmis : offsetOf (ptrAdd p f.off) % 128 = 0
    · have hq : pointed p f.off 128 (ptrAdd p f.off) := ⟨rfl, h0, h1, hmis⟩
      rw [pointAt_of_pointed hq]
      by_cases hspace : birthOf (ptrAdd p f.off) = 0xFFF ∧ serialOf (ptrAdd p f.off) ≠ 0
      · simp [hmis, hspace, orTrap]
      · have hlong : offsetOf (ptrAdd p f.off) + 128 * n > 2 ^ 30 := by
          rcases hbad with h | h | h
          · exact absurd hmis h
          · exact absurd h (fun hn => hspace (by simpa using hn))
          · exact h
        have hspace' : (decide (birthOf (ptrAdd p f.off) = 0xFFF) && decide (serialOf (ptrAdd p f.off) ≠ 0)) = false := by simpa using hspace
        simp only [hspace', if_pos hlong, orTrap, if_neg hspace, hmis, ne_eq, not_true_eq_false, if_false, Bool.false_eq_true]
    · rw [pointAt_of_misaligned h0 h1 hmis]
      simp only [orTrap, if_pos hmis, ne_eq]
  · refine does_of_lines (exec_cfill f) (fun _ _ _ h => h) ?_ ?_
    · intro s b t ⟨⟨hsrc, hd⟩, ⟨hi, hn, hl, hlt, howns⟩, hq, hsource, hfits, hcheck, hroom, hclaim⟩
      rw [State.cfillLines, State.cfillFor_of_passes hsrc hd hi hn hl hlt howns hq hsource hfits hcheck]
      exact hroom
    · intro s b t ⟨⟨hsrc, hd⟩, ⟨hi, hn, hl, hlt, howns⟩, hq, hsource, hfits, hcheck, hroom, hclaim⟩
      simp only [State.cfillBody, State.cfillFor_of_passes hsrc hd hi hn hl hlt howns hq hsource hfits hcheck, orTrap, hclaim, Bool.false_eq_true, if_false]
  · have hevictee {s : State} {t : ThreadId} (hsrc : (s.thread t).src32 f.sb = some d) (hi : d.toNat % 4096 = i) (he : (s.cohort t.cohort).tags[i]? = some e) :
        s.evictee f t = some (i, e) := by
      rw [State.evictee, Thread.evictEntry_eq hsrc, Option.bind_some, hi, he, Option.map_some]
    refine does_of_lines (w := State.evictLines f) (body := fun _ b t s => orTrap (s.evictee f t) fun (i, e) => if !e.valid then .trap .illegalOperand 0 0 0 else
        .done ((s.modCohort t.cohort fun c => { c with tags := c.tags.set i { e with valid := false } }).addOp
          ((s.modCohort t.cohort fun c => { c with tags := c.tags.set i { e with valid := false } }).newOp b t (some 2)
            (.cevict { entry := i, line := e.line.toNat, ptr := BitVec.ofNat 64 (e.tag.toNat * 128), left := (List.range e.lines).map (e.line.toNat + ·), run := e.lines }))).2)
      (fun s => by rw [exec, execCevictWb]; rfl) (fun _ _ _ h => h) ?_ ?_
    · intro s b t ⟨hsrc, hi, he, hvalid, hroom⟩
      rw [State.evictLines, hevictee hsrc hi he]
      exact hroom
    · intro s b t ⟨hsrc, hi, he, hvalid, hroom⟩
      simp only [hevictee hsrc hi he, orTrap, hvalid, Bool.not_true, Bool.false_eq_true, if_false]

/-! ## Lines -/

/-- Giving up its places, an operation leaves each object, and each window, where it was. -/
theorem State.windowAccess_giveUp (s : State) (id : Nat) (p : DWord) : (s.giveUp id).windowAccess p = s.windowAccess p := by
  unfold State.giveUp State.giveUpBut
  split
  · rfl
  · unfold State.windowAccess State.obj?
    rw [Tab.get?_map, Option.isNone_map]
    rfl

theorem lineOperationsMoveOneLine : LineOperationsMoveOneLine := by
  intro s id line o l hop hmoves
  dsimp only
  intro hwin
  have hwin' : (s.giveUp id).windowAccess (ptrAdd l.ptr (128 * ((line : Int) - l.line))) = false := (s.windowAccess_giveUp id _).trans hwin
  refine ⟨fun bs hbody hline hwaits hread => ?_, fun u left hbody hleft hheld hwaits hfails hwrite => ?_⟩
  · have hcontains : l.left.contains line = true := List.contains_iff_mem.2 hline
    rw [exec, execCfillLine]
    simp only [hop, hbody, hmoves, hcontains, hwaits, hwin', hread, Bool.not_true, Bool.or_self, Bool.false_eq_true, if_false]
  · have hstart : (decide (line = l.line) && s.evictHeld id o l) = false := by
      by_cases h : line = l.line
      · rw [hheld h, Bool.and_false]
      · rw [decide_eq_false h, Bool.false_and]
    have hrun : exec (.cevictWbLine id) s = .next (
        let w := (u.engineCount o.thread (ptrAdd l.ptr (128 * ((line : Int) - l.line))) 128 true).setOp id
          { o with know := join o.know ((s.giveUp id).heardAt o.thread (cisternAt o.thread.cohort.toCore (line * 128)) 128), body := .cevict { l with left := left } }
        if left = [] then w.endOp id else w) := by
      rw [exec, execCevictWbLine]
      simp only [hop, hbody, hleft, hmoves, hstart, hwaits, hfails, hwin', Bool.not_true, Bool.or_self, Bool.false_eq_true, if_false]
      simp only [hbody] at hwrite
      simp only [State.loadBytes, State.giveUp_mem, hwrite]
    refine ⟨_, hrun, ?_, ?_⟩
    · dsimp only
      split
      · rw [State.endOp_mem, State.setOp_mem, State.engineCount_mem]
      · rw [State.setOp_mem, State.engineCount_mem]
    · by_cases hlast : left = []
      · rw [if_pos hlast, if_pos hlast]
        exact State.endOp_op?_self ..
      · rw [if_neg hlast, if_neg hlast]
        exact Tab.get?_put_self ..

/-- Settles O21. -/
theorem cisternWordsAndLineOperations : Obligations.CisternWordsAndLineOperations :=
  ⟨cisternWordsUseTagsAndPresence, lineOperationsMoveOneLine⟩

end Sys2Proof.Machine
end

section
/-! PROOFS. Landing rings (O41). -/

namespace Sys2Proof.Machine

/-! ## What is read where bytes were written (R5) -/

theorem Memory.readBytes_of_reads (m : List Host.Cell) (bs : List Byte) :
    ∀ a, (∀ i < bs.length, Memory.read m (a + i) = bs.getD i 0) → Memory.readBytes m a bs.length = bs := by
  induction bs with
  | nil => intro a _; rfl
  | cons b bs ih =>
    intro a h
    have hfirst : Memory.read m a = b := h 0 (by simp)
    rw [List.length_cons, Memory.readBytes, hfirst, ih (a + 1) fun i hi => ?_]
    rw [Nat.add_assoc, Nat.add_comm 1 i]
    exact h (i + 1) (by simpa using hi)

theorem Memory.readBytes_writeBytes_slice {m : List Host.Cell} (a : Nat) {k n : Nat} {bs : List Byte} (hw : Memory.wf m = true) (h : k + n ≤ bs.length) :
    Memory.readBytes (Memory.writeBytes m a bs) (a + k) n = (bs.drop k).take n := by
  have hn : ((bs.drop k).take n).length = n := by simp; omega
  conv_lhs => rw [← hn]
  refine Memory.readBytes_of_reads _ _ _ fun i hi => ?_
  rw [hn] at hi
  rw [Nat.add_assoc, Memory.read_writeBytes _ _ _ _ hw (by omega), List.getD_eq_getElem _ _ (by omega), List.getD_eq_getElem _ _ (by omega)]
  simp

/-! ## The rings' registers (R222, R236) -/

section
variable {s : State} {id off : Nat} {o : Op} {v : DWord} (hstore : s.mmioStore id = some (o, off, v)) (hlow : 0x100 ≤ off) (hhigh : off < 0x200)
include hstore hlow hhigh

theorem exec_lrcfgEnable (hreg : off % 0x40 = 0) (hon : v.getLsbD 63 = true) :
    let c := o.thread.cohort.toCore
    let part := s.partOf o.thread.cohort
    let now : Ring := { cfg := v &&& ringMask, prod := 0, cons := 0, drop := ((s.core c).ring part (ringOf off)).drop }
    exec (.lrcfgEnable id) s = .next (if !s.ringAllowed c part (ringOf off) (v &&& ringMask) then s.endOp id
      else if s.claimFull c now.allLines then s
      else ((s.claimLines c now.allLines).modCore c fun x => x.setRing part (ringOf off) now).endOp id) := by
  have hgo : (!(decide (0x100 ≤ off) && decide (off < 0x200) && decide (off % 0x40 = 0)) || !v.getLsbD 63) = false := by
    rw [decide_eq_true hlow, decide_eq_true hhigh, decide_eq_true hreg, hon]
    rfl
  rw [exec, execLrcfgEnable, hstore]
  dsimp only
  rw [hgo]
  rfl

theorem exec_lrcfgDisable (hreg : off % 0x40 = 0) (hoff : v.getLsbD 63 = false) :
    exec (.lrcfgDisable id) s = .next ((s.disableRing o.thread.cohort.toCore (s.partOf o.thread.cohort) (ringOf off) (v &&& ringMask)).endOp id) := by
  have hgo : (!(decide (0x100 ≤ off) && decide (off < 0x200) && decide (off % 0x40 = 0)) || v.getLsbD 63) = false := by
    rw [decide_eq_true hlow, decide_eq_true hhigh, decide_eq_true hreg, hoff]
    rfl
  rw [exec, execLrcfgDisable, hstore]
  dsimp only
  rw [hgo]
  rfl

theorem exec_lrconsWrite (hreg : off % 0x40 = 0x14) :
    let c := o.thread.cohort.toCore
    let part := s.partOf o.thread.cohort
    let r := (s.core c).ring part (ringOf off)
    let d := min (v.setWidth 32 - r.cons : Word).toNat (r.prod - r.cons).toNat
    let lines := if r.enabled then (List.range d).flatMap fun i => r.slotLines (r.cons + BitVec.ofNat 32 i).toNat else []
    exec (.lrconsWrite id) s = .next (if s.claimFull c lines then s
      else ((s.claimLines c lines).modCore c fun x => x.setRing part (ringOf off) { r with cons := r.cons + BitVec.ofNat 32 d }).endOp id) := by
  have hgo : (!(decide (0x100 ≤ off) && decide (off < 0x200) && decide (off % 0x40 = 0x14))) = false := by
    rw [decide_eq_true hlow, decide_eq_true hhigh, decide_eq_true hreg]
    rfl
  rw [exec, execLrconsWrite, hstore]
  dsimp only
  rw [hgo]
  rfl

end

/-! ## Frames (R218, R219) -/

section
variable {s : State} {chip vf : Nat} {v : Vf} {f : Frame} (hvfs : (s.chip chip).vfs = [(vf, v)]) (hon : v.enable = true) (hport : v.lport ≠ 0) (hudp : v.lport = f.udpPort)
include hvfs hon hport hudp

/-- A frame for the one function of a package. -/
theorem exec_frameReceived : exec (.frameReceived chip f) s = .next (if !f.checked then s else match landingHeader f.data with
    | none => s
    | some (d, k, n, seq, good) =>
      if k ≥ 48 || s.share ⟨chip, d, k⟩ v.part = [] then s
      else if good && ((s.core ⟨chip, d, k⟩).ring v.part n).enabled
          && (((s.core ⟨chip, d, k⟩).ring v.part n).prod - ((s.core ⟨chip, d, k⟩).ring v.part n).cons).toNat < ((s.core ⟨chip, d, k⟩).ring v.part n).slots
        then s.landFrame ⟨chip, d, k⟩ v.part n f seq
      else s.modCore ⟨chip, d, k⟩ fun x => x.setRing v.part n
        { (s.core ⟨chip, d, k⟩).ring v.part n with drop := satInc ((s.core ⟨chip, d, k⟩).ring v.part n).drop }) := by
  have hfind : ((s.chip chip).vfs.find? fun v => v.2.enable && v.2.lport ≠ 0 && v.2.lport = f.udpPort) = some (vf, v) := by
    rw [hvfs]
    simp [hon, ← hudp, hport]
  rw [exec, execFrameReceived, hfind] <;> rfl

end

theorem landingHeader_of_short {bs : List Byte} (h : bs.length < 8) : landingHeader bs = none := by
  match bs with
  | [] | [_] | [_, _] | [_, _, _] | [_, _, _, _] | [_, _, _, _, _] | [_, _, _, _, _, _] | [_, _, _, _, _, _, _] => rfl
  | _ :: _ :: _ :: _ :: _ :: _ :: _ :: _ :: _ => simp at h; omega

theorem landingHeader_of_long {bs : List Byte} {b0 b1 b2 b3 : Byte} (htake : bs.take 4 = [b0, b1, b2, b3]) (h : 8 ≤ bs.length) :
    landingHeader bs = some (b0.toNat % 4, b1.toNat, b2.toNat % 4, ofBytesLE ((bs.drop 4).take 4),
      decide (b0.toNat < 4 ∧ b1.toNat < 48 ∧ b2.toNat < 4 ∧ b3 = 0)) := by
  match bs with
  | c0 :: c1 :: c2 :: c3 :: _ :: _ :: _ :: _ :: _ =>
    simp only [List.take_succ_cons, List.take_zero, List.cons.injEq, and_true] at htake
    obtain ⟨rfl, rfl, rfl, rfl⟩ := htake
    simp [landingHeader, Bool.decide_and, Bool.and_assoc]

/-- A slot's header line: its time, port, whether the payload is cut short, length and sequence number (R219). -/
def landedHeader (f : Frame) (ns room seq : Nat) : List Byte :=
  bytesLE 6 (ns / 10 ^ 9) ++ bytesLE 4 (ns % 10 ^ 9) ++ bytesLE 1 f.port ++ bytesLE 1 (if (f.data.drop 8).length > room then 1 else 0)
    ++ bytesLE 4 (f.data.drop 8).length ++ bytesLE 4 seq ++ bytesLE 108 0

theorem landedHeader_length (f : Frame) (ns room seq : Nat) : (landedHeader f ns room seq).length = 128 := by
  simp [landedHeader, bytesLE_length]

/-- The header line's time and length, at their offsets. -/
theorem landedHeader_fields (f : Frame) (ns room seq : Nat) :
    ((landedHeader f ns room seq).drop 0).take 6 = bytesLE 6 (ns / 10 ^ 9) ∧ ((landedHeader f ns room seq).drop 6).take 4 = bytesLE 4 (ns % 10 ^ 9)
      ∧ ((landedHeader f ns room seq).drop 12).take 4 = bytesLE 4 (f.data.drop 8).length := by
  unfold landedHeader
  simp only [List.append_assoc]
  refine ⟨by rw [List.drop_zero, take_bytesLE], by rw [drop_bytesLE _ _ _ _ (by decide), List.drop_zero, take_bytesLE], ?_⟩
  rw [drop_bytesLE _ _ _ _ (by decide), drop_bytesLE _ _ _ _ (by decide), drop_bytesLE _ _ _ _ (by decide), drop_bytesLE _ _ _ _ (by decide),
    List.drop_zero, take_bytesLE]

section
variable {s : State} {c : CoreId} {part n seq : Nat} {f : Frame}

/-- Where a ring's next frame lands in the cistern. -/
def Ring.nextSlot (r : Ring) : Nat := (r.base + r.prod.toNat % r.slots * r.lines) * 128

/-- The payload that a ring's slot has room for. -/
def Ring.payload (r : Ring) (f : Frame) : List Byte := (f.data.drop 8).take (128 * (r.lines - 1))

theorem State.landFrame_mem : (s.landFrame c part n f seq).mem =
    Memory.writeBytes (Memory.writeBytes s.mem (cisternAt c (((s.core c).ring part n).nextSlot + 128)) (((s.core c).ring part n).payload f))
      (cisternAt c ((s.core c).ring part n).nextSlot) (landedHeader f (s.ns c.chip) (128 * (((s.core c).ring part n).lines - 1)) seq) := by
  refine (State.store_mem _ (cisternAt c ((s.core c).ring part n).nextSlot) (landedHeader f (s.ns c.chip) (128 * (((s.core c).ring part n).lines - 1)) seq)).trans ?_
  exact congrArg (fun m => Memory.writeBytes m _ _) (State.store_mem ..)

theorem State.landFrame_ring : ((s.landFrame c part n f seq).core c).ring part n = { (s.core c).ring part n with prod := ((s.core c).ring part n).prod + 1 } := by
  unfold State.landFrame Core.ring
  dsimp only
  rw [State.modCore, State.core_setCore, Core.setRing, Tab.getD_put_self]

/-- Bytes written below others: both are read back, and each field of the lower ones. -/
theorem Memory.readBytes_writeBytes_below {m : List Host.Cell} {a e : Nat} {bs hdr : List Byte} (hw : Memory.wf m = true) (he : a + hdr.length ≤ e) :
    Memory.readBytes (Memory.writeBytes (Memory.writeBytes m e bs) a hdr) e bs.length = bs := by
  refine Memory.readBytes_of_reads _ _ _ fun i hi => ?_
  rw [Memory.read_writeBytes_out _ _ _ _ (Memory.wf_writeBytes _ _ _ hw) (.inr (by omega)), Memory.read_writeBytes _ _ _ _ hw hi]

/-- A landed frame as the cistern holds it. -/
theorem State.landFrame_reads (hw : s.canonical) {r : Ring} (hr : (s.core c).ring part n = r) :
    Memory.readBytes (s.landFrame c part n f seq).mem (cisternAt c (r.nextSlot + 128)) (r.payload f).length = r.payload f
      ∧ Memory.readNat (s.landFrame c part n f seq).mem (cisternAt c r.nextSlot) 6 = s.ns c.chip / 10 ^ 9 % 2 ^ 48
      ∧ Memory.readNat (s.landFrame c part n f seq).mem (cisternAt c (r.nextSlot + 6)) 4 = s.ns c.chip % 10 ^ 9
      ∧ Memory.readNat (s.landFrame c part n f seq).mem (cisternAt c (r.nextSlot + 12)) 4 = (f.data.length - 8) % 2 ^ 32 := by
  rw [State.landFrame_mem, hr]
  have hpayload : Memory.wf (Memory.writeBytes s.mem (cisternAt c (r.nextSlot + 128)) (r.payload f)) = true := Memory.wf_writeBytes _ _ _ hw
  have hlength := landedHeader_length f (s.ns c.chip) (128 * (r.lines - 1)) seq
  obtain ⟨htime, hrest, hcount⟩ := landedHeader_fields f (s.ns c.chip) (128 * (r.lines - 1)) seq
  have hfield : ∀ k w, k + w ≤ 128 → Memory.readNat (Memory.writeBytes (Memory.writeBytes s.mem (cisternAt c (r.nextSlot + 128)) (r.payload f))
      (cisternAt c r.nextSlot) (landedHeader f (s.ns c.chip) (128 * (r.lines - 1)) seq)) (cisternAt c (r.nextSlot + k)) w
      = ofBytesLE (((landedHeader f (s.ns c.chip) (128 * (r.lines - 1)) seq).drop k).take w) := fun k w hk => by
    rw [Memory.readNat, show cisternAt c (r.nextSlot + k) = cisternAt c r.nextSlot + k from (Nat.add_assoc ..).symm, Memory.readBytes_writeBytes_slice _ hpayload (hlength ▸ hk)]
  refine ⟨Memory.readBytes_writeBytes_below hw (by rw [hlength]; exact Nat.le_refl _), ?_, ?_, ?_⟩
  · refine (hfield 0 6 (by decide)).trans ?_
    rw [htime, ofBytesLE_bytesLE]
    rfl
  · rw [hfield 6 4 (by decide), hrest, ofBytesLE_bytesLE]
    omega
  · rw [hfield 12 4 (by decide), hcount, ofBytesLE_bytesLE, List.length_drop]
    rfl

end

theorem satInc_eq (w : Word) : satInc w = if w = 0xFFFFFFFF then w else w + 1 := rfl

/-- Settles O41. -/
theorem landingRingsTakeFrames : Obligations.LandingRingsTakeFrames := by
  refine ⟨fun s id off o v hstore hlow hhigh => ?_, fun s chip vf d k n seq good v f hw hvfs hon hport hudp => ?_, fun bs b0 b1 b2 b3 h4 h8 => landingHeader_of_long h4 h8⟩
  · dsimp only
    refine ⟨fun hreg hv hallowed hfull => ?_, fun hreg hv hallowed => ?_, fun hreg hv hring => ?_, fun hreg hring hfull => ?_⟩
    · refine (exec_lrcfgEnable hstore hlow hhigh hreg hv).trans (congrArg Host.Outcome.next ?_)
      rw [if_neg (by simpa [ringOf, ringMask] using hallowed)]
      exact if_neg (by simpa [ringOf, ringMask] using hfull)
    · refine (exec_lrcfgEnable hstore hlow hhigh hreg hv).trans (congrArg Host.Outcome.next ?_)
      exact if_pos (by simpa [ringOf, ringMask] using hallowed)
    · refine (exec_lrcfgDisable hstore hlow hhigh hreg hv).trans (congrArg Host.Outcome.next (congrArg (State.endOp · id) ?_))
      rw [State.disableRing]
      rw [show ringOf off = (off - 0x100) / 0x40 from rfl, if_pos hring]
      rfl
    · refine (exec_lrconsWrite hstore hlow hhigh hreg).trans (congrArg Host.Outcome.next ?_)
      rw [show ringOf off = (off - 0x100) / 0x40 from rfl, if_pos hring]
      exact if_neg (by rw [hfull]; decide)
  · have hrun := exec_frameReceived (f := f) hvfs hon hport hudp
    refine ⟨?_, fun hchecked hheader => ?_⟩
    · rintro (hbad | hshort)
      · rw [hrun, hbad]
        rfl
      · rw [hrun, landingHeader_of_short hshort, ite_self]
    rw [hheader, if_neg (by rw [hchecked]; decide)] at hrun
    dsimp only at hrun
    refine ⟨fun hout => ?_, fun hshare hk => ⟨fun hgood hring hroom => ?_, fun hdrop => ?_⟩⟩
    · rw [hrun, if_pos (by rcases hout with h | h <;> simp [h])]
    · rw [if_neg (by simp [hshare]; omega), if_pos (by rw [hgood, hring, decide_eq_true hroom]; rfl)] at hrun
      exact ⟨_, hrun, State.landFrame_ring, State.landFrame_reads hw rfl⟩
    · have hfull : ¬ ((good && ((s.core ⟨chip, d, k⟩).ring v.part n).enabled
          && decide ((((s.core ⟨chip, d, k⟩).ring v.part n).prod - ((s.core ⟨chip, d, k⟩).ring v.part n).cons).toNat < ((s.core ⟨chip, d, k⟩).ring v.part n).slots)) = true) := by
        intro hgo
        obtain ⟨hgood, hroom⟩ := Bool.and_eq_true_iff.mp hgo
        obtain ⟨hgood, hring⟩ := Bool.and_eq_true_iff.mp hgood
        rcases hdrop with h | h | h
        · exact absurd (h.symm.trans hgood) (by decide)
        · exact absurd (h.symm.trans hring) (by decide)
        · exact absurd (of_decide_eq_true hroom) (Nat.not_lt.mpr h)
      rw [if_neg (by simp [hshare]; omega), if_neg hfull] at hrun
      exact hrun

end Sys2Proof.Machine
end

section
/-! PROOFS. Re-keyed windows (O42). -/

namespace Sys2Proof.Machine

/-! ## Issue (R376, R377, R379) -/

/-- A word that parks its thread behind a new operation retires first: the thread stands at the word after it. -/
theorem does_of_window {i : Instr} {f : Fields} {p : State → Bundle → ThreadId → Prop} {w : WinOp}
    {body : State → Bundle → ThreadId → State → Res} (h : ∀ s, exec i s = s.runThreads i noHold body)
    (hq : ∀ s b t, p s b t → p s.quiet b t) (hb : ∀ s b t, p s b t → body s b t s = s.issueWindow b t w) :
    Does i f p fun s b t => (((s.addOp (s.newOp b t none (.win w))).2).leave t).modThread t fun x =>
      { x with run := .parked (.operation s.nextId), word := nextWord b.words b.word, inside := true } :=
  does_of_settle h hq fun s b t hp => ⟨by rw [hb s b t hp]; exact fun h => Res.noConfusion h, rfl, by
    rw [hb s b t hp]
    exact ite_self _⟩

theorem does_of_windowWord {i : Instr} {f : Fields} {code : WinCode} (p : DWord) (h : ∀ s, exec i s = s.windowWord i f code) :
    Does i f (fun s _ t => (s.thread t).src64 f.sa = some p) fun s b t =>
      (((s.addOp (s.newOp b t none (.win { code := code, ptr := p, dst := f.dst.toNat }))).2).leave t).modThread t fun x =>
        { x with run := .parked (.operation s.nextId), word := nextWord b.words b.word, inside := true } :=
  does_of_window h (fun _ _ _ h => h) fun s b t hp => by rw [hp]; rfl

section
variable {s : State} {t : ThreadId} {p : DWord}

theorem not_isGlobal_of_ge (h : 0xFFE ≤ birthOf p) : isGlobal p = false := decide_eq_false (Nat.not_lt.mpr h)

theorem State.reportCheck_of_space (h : birthOf p = 0xFFE ∨ (birthOf p = 0xFFF ∧ serialOf p ≠ 0)) : s.reportCheck t p = some 0x12 := by
  have hout : isGlobal p = false := not_isGlobal_of_ge (by omega)
  have hprivate : decide (birthOf p = 0xFFF ∧ serialOf p = 0) = false := decide_eq_false (by omega)
  rw [State.reportCheck, hout, ← Bool.decide_and, hprivate]
  rfl

/-- The region lies in the object space or in the thread's own memory. -/
theorem State.reportCheck_passes_space (h : isGlobal p = true ∨ (birthOf p = 0xFFF ∧ serialOf p = 0)) :
    (!isGlobal p && !(decide (birthOf p = 0xFFF) && decide (serialOf p = 0))) = false := by
  rcases h with h | ⟨hb, hs⟩
  · rw [h]
    rfl
  · rw [hb, hs]
    exact Bool.and_false _

theorem State.reportCheck_of_misaligned (h : isGlobal p = true ∨ (birthOf p = 0xFFF ∧ serialOf p = 0)) (hat : offsetOf p % 64 ≠ 0) :
    s.reportCheck t p = some 0x10 := by
  rw [State.reportCheck, State.reportCheck_passes_space h, if_neg (by decide), if_pos hat]

theorem State.reportCheck_of_object {o : Obj} (hg : isGlobal p = true) (hat : offsetOf p % 64 = 0) (ho : s.obj? p = some o)
    (hrealm : o.realm = s.realmOf t.cohort) (hsize : o.size < offsetOf p + 8192) : s.reportCheck t p = some 0x11 := by
  rw [State.reportCheck, State.reportCheck_passes_space (.inl hg), if_neg (by decide), if_neg (not_not.mpr hat), if_pos hg, ho]
  exact if_pos (by rw [decide_eq_true hrealm, decide_eq_true hsize]; rfl)

theorem State.reportCheck_of_private (hp : birthOf p = 0xFFF ∧ serialOf p = 0) (hat : offsetOf p % 64 = 0)
    (hsize : (s.launchOf t.cohort).priv' < offsetOf p + 8192) : s.reportCheck t p = some 0x11 := by
  have hout : isGlobal p = false := not_isGlobal_of_ge (by omega)
  rw [State.reportCheck, State.reportCheck_passes_space (.inr hp), if_neg (by decide), if_neg (not_not.mpr hat), hout, if_neg (by decide),
    if_pos hsize]

end

/-- A report word whose region fails its check. -/
theorem traps_of_reportCheck {f : Fields} {p : DWord} {c : Nat} {q : State → ThreadId → Prop} (hq : ∀ s t, q s t → q s.quiet t)
    (h : ∀ s t, q s t → (s.thread t).src64 f.sa = some p ∧ s.reportCheck t p = some c) :
    Traps (.keyqReport f) f (fun s _ t => q s t) .memoryFault (fun _ _ _ => c) (fun _ _ _ => p) :=
  traps_of_body (fun s => by rw [exec, execKeyqReport]) (fun s _ t => hq s t) fun s b t hp => by
    obtain ⟨hsrc, hcheck⟩ := h s t hp
    rw [hsrc]
    dsimp only [orTrap]
    rw [hcheck]

/-! ## The end of a word (R376, R377, R379) -/

section
variable {s : State} {id : Nat} {o : Op} {w : WinOp} (ho : s.op? id = some o) (hbody : o.body = .win w)
include ho hbody

theorem exec_responseArrives_of_win : exec (.responseArrives id) s = .next (s.landWindow id o w) := by
  have hlocal : s.performLocal id = s := by
    rw [State.performLocal, ho]
    dsimp only
    rw [hbody]
  rw [exec, execResponseArrives, hlocal, ho]
  dsimp only
  rw [hbody]

end

theorem State.winOpen_of_opened {s : State} {id : Nat} {o : Op} {w : WinOp} {g : Grant} (hg : s.grant o.thread.cohort.chip w.w = g)
    (hvalid : g.valid = true) (hopen : g.state = .opened) (hrealm : s.realmOf o.thread.cohort = g.realmA) (hread : w.wr = false) :
    s.winOpen id o w = (s.setGrant o.thread.cohort.chip w.w { g with a := g.a.attach (s.cohort o.thread.cohort).vf false }).landWin id o w true
      (mkPtr o.thread.cohort.chip g.serial 0).toNat := by
  rw [State.winOpen]
  dsimp only
  rw [hg, hopen, hvalid, hread, hrealm]
  simp

theorem windowWordsParkUntilTheyLand : WindowWordsParkUntilTheyLand := by
  refine ⟨fun f p n => ?_, fun s id vf o w g ho hbody _ hvf => ⟨fun hcode => ?_, fun hcode hg hvalid hopen hrealm hread hfree => ?_⟩⟩
  · refine ⟨?_, ?_, does_of_windowWord p fun s => by rw [exec, execWinrel], does_of_windowWord p fun s => by rw [exec, execWinacq],
      does_of_windowWord p fun s => by rw [exec, execWinclose], does_of_windowWord p fun s => by rw [exec, execKeyqWepoch], ?_, ?_, ?_, ?_, ?_⟩
    · refine does_of_window (fun s => by rw [exec, execWinopen]) (fun _ _ _ h => h) fun s b t ⟨hsrc, hn⟩ => ?_
      rw [hsrc]
      exact if_neg (Nat.not_lt.mpr hn)
    · refine traps_of_body (fun s => by rw [exec, execWinopen]) (fun _ _ _ h => h) fun s b t ⟨hsrc, hn⟩ => ?_
      rw [hsrc]
      exact if_pos hn
    · exact does_of_window (fun s => by rw [exec, execKeyqEpoch]) (fun _ _ _ h => h) fun s b t _ => rfl
    · refine does_of_window (fun s => by rw [exec, execKeyqReport]) (fun _ _ _ h => h) fun s b t ⟨hsrc, hcheck⟩ => ?_
      rw [hsrc]
      dsimp only [orTrap]
      rw [hcheck]
    · exact traps_of_reportCheck (fun _ _ h => h) fun s t ⟨hsrc, hspace⟩ => ⟨hsrc, State.reportCheck_of_space hspace⟩
    · exact traps_of_reportCheck (fun _ _ h => h) fun s t ⟨hsrc, hspace, hat⟩ => ⟨hsrc, State.reportCheck_of_misaligned hspace hat⟩
    · refine traps_of_reportCheck (fun _ _ h => h) fun s t ⟨hsrc, hat, hout⟩ => ⟨hsrc, ?_⟩
      rcases hout with ⟨hg, o, ho, hrealm, hsize⟩ | ⟨hb, hs, hsize⟩
      · exact State.reportCheck_of_object hg hat ho hrealm hsize
      · exact State.reportCheck_of_private ⟨hb, hs⟩ hat hsize
  · rw [exec_responseArrives_of_win ho hbody, State.landWindow, hcode]
    dsimp only
    rw [hvf, Nat.mul_comm]
  · rw [exec_responseArrives_of_win ho hbody, State.landWindow, hcode]
    dsimp only
    rw [hg, hfree, if_neg (by decide), State.winOpen_of_opened hg hvalid hopen hrealm hread, hvf]

/-! ## Scrubs (R374, R375) -/

section
variable {s : State} {chip w : Nat}

theorem State.grant_setGrant_self (x : Grant) : (s.setGrant chip w x).grant chip w = x := by
  unfold State.grant State.setGrant
  rw [State.chip_setChip, Tab.getD_put_self]

/-- What a scrub of memory leaves unchanged. -/
theorem State.wipe_same (s : State) (a n : Nat) : (s.wipe a n).chips = s.chips ∧ (s.wipe a n).dies = s.dies ∧ (s.wipe a n).mem = Memory.clear s.mem a n := by
  unfold State.wipe State.expose
  split <;> exact ⟨rfl, rfl, rfl⟩

/-- The wipe of a window's three images. -/
def State.wipeImages (s : State) (chip w n : Nat) : State := (List.range 3).foldl (fun s i => s.wipe (windowAt chip w i 0) n) s

theorem State.wipeImages_same (n : Nat) : (s.wipeImages chip w n).chips = s.chips ∧ (s.wipeImages chip w n).dies = s.dies
    ∧ (s.wipeImages chip w n).mem = Memory.clear (Memory.clear (Memory.clear s.mem (windowAt chip w 0 0) n) (windowAt chip w 1 0) n) (windowAt chip w 2 0) n := by
  have h0 := s.wipe_same (windowAt chip w 0 0) n
  have h1 := (s.wipe (windowAt chip w 0 0) n).wipe_same (windowAt chip w 1 0) n
  have h2 := ((s.wipe (windowAt chip w 0 0) n).wipe (windowAt chip w 1 0) n).wipe_same (windowAt chip w 2 0) n
  exact ⟨h2.1.trans (h1.1.trans h0.1), h2.2.1.trans (h1.2.1.trans h0.2.1), h2.2.2.trans (by rw [h1.2.2, h0.2.2])⟩

theorem State.wipeImages_reads {n : Nat} (hw : s.canonical) {i off : Nat} (hi : i < 3) (hoff : off < n) :
    Memory.read (s.wipeImages chip w n).mem (windowAt chip w i off) = 0 := by
  rw [(s.wipeImages_same n).2.2, Memory.read_clear _ _ _ _ (Memory.wf_clear _ _ _ (Memory.wf_clear _ _ _ hw)),
    Memory.read_clear _ _ _ _ (Memory.wf_clear _ _ _ hw), Memory.read_clear _ _ _ _ hw]
  have hin : windowAt chip w i 0 ≤ windowAt chip w i off ∧ windowAt chip w i off < windowAt chip w i 0 + n := by
    unfold windowAt
    omega
  interval_cases i
  · rw [if_pos hin, ite_self, ite_self]
  · rw [if_pos hin, ite_self]
  · exact if_pos hin

theorem State.freeFrames_frames (d : DieId) (fs : List Nat) : ∀ f ∈ fs, ∀ p ∈ ((s.freeFrames d fs).die d).frames, p.1 ≠ f := by
  intro f hf p hp hpf
  rw [State.freeFrames, State.modDie, State.die_setDie] at hp
  have := (List.mem_filter.mp hp).2
  simp [hpf, hf] at this

end

theorem aClosedWindowIsScrubbed : AClosedWindowIsScrubbed := by
  intro s chip w
  dsimp only
  have hrun : exec (.windowScrubComplete chip w) s = execWindowScrubComplete chip w s := by rw [exec]
  refine ⟨fun hidle => ?_, fun hopen hplain => ?_, fun hopen h1 h2 h3 h4 hops => ?_, fun hscrub hw => ?_, fun p t hscrub hp => ⟨fun hname => ⟨?_, ?_⟩, fun hone hserial hnz => ?_⟩⟩
  · rw [hrun, execWindowScrubComplete, hidle]
  · rw [hrun, execWindowScrubComplete, hopen]
    refine congrArg Host.Outcome.next (if_neg fun h => ?_)
    simp at h
    omega
  · rw [hrun, execWindowScrubComplete, hopen]
    refine congrArg Host.Outcome.next (if_pos ?_)
    simpa [hopen, h1, h2, h3, h4] using hops
  · refine ⟨_, by rw [hrun, execWindowScrubComplete, hscrub], State.grant_setGrant_self _, fun i hi off hoff => ?_, ?_⟩
    · refine Eq.trans ?_ (State.wipeImages_reads (chip := chip) (w := w) hw hi hoff)
      rw [State.byte, State.setGrant_mem, State.freeFrames_mem, State.dropTree_mem]
      rfl
    · exact State.freeFrames_frames _ _
  · rw [State.windowOf, hname]
    dsimp only
    rw [hp, hscrub]
    rfl
  · rw [Grant.imageOf, hscrub]
    rfl
  · rw [State.window?, hp, hone]
    simp [hscrub, hserial, hnz]

/-- Settles O42. -/
theorem windowWordsParkAndWindowsAreScrubbed : Obligations.WindowWordsParkAndWindowsAreScrubbed :=
  ⟨windowWordsParkUntilTheyLand, aClosedWindowIsScrubbed⟩

end Sys2Proof.Machine
end

section
/-! PROOFS. The bundle former (O38). -/

namespace Sys2Proof.Machine

/-- A clause whose header ends a line of the L2 and whose word, a NOP, begins the next. -/
def straddling : DWord := mkPtr 0 1 120

/-- A READY thread stands at the clause. The set of the header's line is full and its oldest line is dirty: fetching the header makes the
L2 write that line back, DRAM's first, and from then on the mark of the word's line as failed counts. -/
def failsInTheL2 : State := { State.reset with
  threads := [(⟨⟨0, 0, 0, 0⟩, 0⟩, { run := .ready, pc := straddling, quad := ⟨0, 0, 0, 0⟩ })]
  objects := [((0, 1), { size := 65536, extents := [{}], pages := [{}] })]
  mem := [(globalAt straddling + 7, 0x10), (globalAt straddling + 15, 0xE7)]
  chips := [(0, { rlctl := 0x80000000 })]
  dies := [(⟨0, 0⟩, { frames := [(0, 0), (129 * 12, 0)], l2 := (1, false) :: (List.range 12).map fun k => (129 * (k + 1) * 512 + 8 * ((k + 1) % 8), true), l2bad := [2, 2 * (129 * 12 * 512 + 32) + 1] })] }

set_option maxRecDepth 65536 in
theorem failsInTheL2_eligible : ((failsInTheL2.refreshQuad ⟨0, 0, 0, 0⟩).threadsOn ⟨0, 0, 0, 0⟩).filter (failsInTheL2.refreshQuad ⟨0, 0, 0, 0⟩).eligible = [⟨⟨0, 0, 0, 0⟩, 0⟩] := by decide

set_option maxRecDepth 65536 in
theorem failsInTheL2_fetches : (failsInTheL2.refreshQuad ⟨0, 0, 0, 0⟩).fetchClause ⟨0, 0, 0, 0⟩ ((failsInTheL2.refreshQuad ⟨0, 0, 0, 0⟩).thread ⟨⟨0, 0, 0, 0⟩, 0⟩).pc
    = .ok (0x1000000000000000, [0xE700000000000000]) := by rfl

set_option maxRecDepth 65536 in
/-- The word's line is found failed as it is used, and logged in the host's memory (R367, R412). -/
theorem failsInTheL2_logs : (failsInTheL2.formBundle ⟨0, 0, 0, 0⟩).mem = Memory.writeBytes failsInTheL2.mem (hostAt 0 0)
    (LogEntry.bytes { time := 0, type := 3, die := 0, unit := Config.arrayUnit 0 3, vf := 0, addr := 128 }) := by rfl

theorem failsInTheL2_mem : (failsInTheL2.formBundle ⟨0, 0, 0, 0⟩).mem ≠ failsInTheL2.mem := by
  intro heq
  have htype : Memory.read (failsInTheL2.formBundle ⟨0, 0, 0, 0⟩).mem (hostAt 0 0 + 16) = 3 := by
    rw [failsInTheL2_logs, Memory.read_writeBytes _ _ _ _ (by decide) (by simp [LogEntry.bytes, timeBytes, bytesLE_length])]
    rfl
  rw [heq] at htype
  exact absurd htype (by decide)

set_option maxRecDepth 65536 in
theorem failsInTheL2_decodes : decodeClause ((failsInTheL2.refreshQuad ⟨0, 0, 0, 0⟩).launchOf ⟨0, 0, 0, 0⟩).regs
    ((failsInTheL2.refreshQuad ⟨0, 0, 0, 0⟩).cohort ⟨0, 0, 0, 0⟩).slots.length ((failsInTheL2.refreshQuad ⟨0, 0, 0, 0⟩).launchOf ⟨0, 0, 0, 0⟩).tiles
    (Header.ofWord 0x1000000000000000) [0xE700000000000000] 0 = none := by decide

/-- Refutes O38: the former's own fetch can find a line failed, and the log of the failure is written to the host's memory. -/
theorem not_theFormerAndTheWatchdog : ¬ Obligations.TheFormerAndTheWatchdog := by
  rintro ⟨hformer, -⟩
  obtain ⟨-, -, hstarts, -⟩ := hformer failsInTheL2 ⟨0, 0, 0, 0⟩ ⟨⟨0, 0, 0, 0⟩, 0⟩ 0x1000000000000000 [0xE700000000000000]
  rw [failsInTheL2_eligible] at hstarts
  obtain ⟨u, k, b, hu, -, -, -, -, -, -, -, -, -, -, -, -, -, hmem⟩ := hstarts (by decide) (by decide) (by decide)
    (fun v hv hne => absurd (List.mem_singleton.mp hv) hne) failsInTheL2_fetches (by decide)
    (fun v hv _ => by rw [List.mem_singleton.mp hv]; exact failsInTheL2_decodes)
  have hrun : exec (.formBundle ⟨0, 0, 0, 0⟩) failsInTheL2 = .next (failsInTheL2.formBundle ⟨0, 0, 0, 0⟩) := by rw [exec, execFormBundle]
  rw [← Host.Outcome.next.inj (hrun.symm.trans hu)] at hmem
  exact failsInTheL2_mem hmem

end Sys2Proof.Machine
end

section
/-! PROOFS. Launches (O36). -/

namespace Sys2Proof.Machine

/-! ## Launch records (R316 to R318) -/

theorem launchOfBytes_fields (kernel args crec doneh : DWord) (seed tbase tag : Word)
    (priv wdog threads regs nargs gslots tiles tagb ladder nbv rmode cstack tx ty tz flags : Nat) (rest : List Byte)
    (h1 : priv < 2 ^ 32) (h2 : wdog < 2 ^ 32) (h3 : threads < 2 ^ 16) (h4 : regs < 256) (h5 : nargs < 256) (h6 : gslots < 256) (h7 : tiles < 256) (h8 : tagb < 256)
    (h9 : ladder < 256) (h10 : nbv < 4) (h11 : rmode < 8) (h12 : cstack < 2 ^ 16) (h13 : tx < 2 ^ 32) (h14 : ty < 2 ^ 32) (h15 : tz < 2 ^ 32) (h16 : flags < 8) :
    Launch.ofBytes (bytesLE 8 kernel.toNat ++ (bytesLE 8 args.toNat ++ (bytesLE 8 crec.toNat ++ (bytesLE 8 doneh.toNat ++ (bytesLE 4 priv ++ (bytesLE 4 wdog
        ++ (bytesLE 4 seed.toNat ++ (bytesLE 2 threads ++ (bytesLE 1 regs ++ (bytesLE 1 nargs ++ (bytesLE 1 gslots ++ (bytesLE 1 tiles ++ (bytesLE 1 tagb
        ++ (bytesLE 1 ladder ++ (bytesLE 1 nbv ++ (bytesLE 1 rmode ++ (bytesLE 2 cstack ++ (bytesLE 4 tx ++ (bytesLE 4 ty ++ (bytesLE 4 tz ++ (bytesLE 4 tbase.toNat
        ++ (bytesLE 4 flags ++ (bytesLE 4 tag.toNat ++ rest)))))))))))))))))))))))
      = { kernel := kernel, args := args, crec := crec, doneh := doneh, priv' := priv, wdog := wdog, seed := seed, threads := threads, regs := regs, nargs := nargs
          gslots := gslots, tiles := tiles, tagb := tagb, ladder := ladder, nbv := nbv, rmode := rmode, cstack := cstack, tdimx := tx, tdimy := ty, tdimz := tz
          tbase := tbase, flags := flags, tag := tag } := by
  have hwide : ∀ v : DWord, BitVec.ofNat 64 (v.toNat % 256 ^ 8) = v := fun v => by
    rw [show (256 : Nat) ^ 8 = 2 ^ 64 from rfl, Nat.mod_eq_of_lt v.isLt, BitVec.ofNat_toNat, BitVec.setWidth_eq]
  have hword : ∀ v : Word, BitVec.ofNat 32 (v.toNat % 256 ^ 4) = v := fun v => by
    rw [show (256 : Nat) ^ 4 = 2 ^ 32 from rfl, Nat.mod_eq_of_lt v.isLt, BitVec.ofNat_toNat, BitVec.setWidth_eq]
  rw [Launch.ofBytes]
  simp (disch := omega) only [drop_bytesLE, List.drop_zero, take_bytesLE, ofBytesLE_bytesLE, hwide, hword, Launch.mk.injEq, Nat.sub_self, Nat.reduceSub]
  simp only [true_and, and_true]
  omega

/-- What makes the table's reason r hold of a record (R317). -/
def Launch.meets (s : State) (chip vf part : Nat) (x : Launch) : Nat → Prop
  | 1 => isGlobal x.kernel = false ∨ offsetOf x.kernel % 8 ≠ 0 ∨ (x.nargs ≠ 0 ∧ isGlobal x.args = false)
  | 2 => x.threads = 0 ∨ 4096 < x.threads
  | 3 => x.regs < 16 ∨ 64 < x.nargs ∨ x.regs < x.nargs
  | 4 => 64 < x.gslots ∨ 4 < x.tiles ∨ 64 < x.tagb ∨ 4096 < x.cstack
  | 5 => x.ladder % 2 = 0 ∨ x.ladder / 2 % 2 = 0 ∨ x.ladder / 4 % 2 = 0
  | 6 => x.nbv = 3 ∨ 6 ≤ x.rmode
  | 7 => x.priv' % 256 ≠ 0 ∨ 2 ^ 24 < x.priv'
  | 8 => (x.tdimx = 0 ∧ (x.tdimy ≠ 0 ∨ x.tdimz ≠ 0)) ∨ 2 ^ 32 - 2 < x.tdimx * max 1 x.tdimy * max 1 x.tdimz
  | 9 => ∀ l ∈ s.eligibleSets chip part x, s.framesFor chip vf part x l = false
  | 10 => x.flags / 2 % 2 = 1 ∧ ((s.vf chip vf).express = false ∨ (s.part chip part).express = false)
  | 11 => (x.crec ≠ 0 ∧ (birthOf x.crec = 0xFFF ∨ offsetOf x.crec % 64 ≠ 0)) ∨ x.doneh.toNat / 16 % 2 ^ 24 ≠ 0
  | _ => False

section
variable {s : State} {chip vf part : Nat} {x : Launch}

/-- Each entry of the list of faults says whether its reason holds, and the list has the reasons 1 to 11 in their order. -/
theorem State.launchFaults_spec : (s.launchFaults chip vf part x).map (·.2) = [1, 2, 3, 4, 5, 6, 7, 8, 9, 10, 11]
    ∧ (∀ e ∈ s.launchFaults chip vf part x, e.1 = true ↔ Launch.meets s chip vf part x e.2) := by
  refine ⟨rfl, ?_⟩
  have hladder : x.ladder % 8 ≠ 7 ↔ x.ladder % 2 = 0 ∨ x.ladder / 2 % 2 = 0 ∨ x.ladder / 4 % 2 = 0 := by omega
  simp only [State.launchFaults, List.mem_cons, List.not_mem_nil, or_false]
  rintro e (rfl | rfl | rfl | rfl | rfl | rfl | rfl | rfl | rfl | rfl | rfl) <;> simp only [Launch.meets]
  · simp [or_assoc]
  · simp
  · simp [or_assoc]
  · simp [or_assoc]
  · rw [decide_eq_true_iff, hladder]
  · simp
  · simp
  · simp [Launch.tiles']
  · simp
  · simp [Launch.express, State.expressGrant]
  · rw [Bool.or_eq_true, decide_eq_true_iff]
    simp [bitsOf]

theorem Launch.meets_range {r : Nat} (h : Launch.meets s chip vf part x r) : r ∈ [1, 2, 3, 4, 5, 6, 7, 8, 9, 10, 11] := by
  match r, h with
  | 1, _ | 2, _ | 3, _ | 4, _ | 5, _ | 6, _ | 7, _ | 8, _ | 9, _ | 10, _ | 11, _ => decide

/-- The first of the entries that hold is found, where the entries stand in the order of their numbers. -/
theorem find?_of_first {l : List (Bool × Nat)} {r : Nat} (hl : (l.map (·.2)).Pairwise (· < ·)) (hr : (true, r) ∈ l)
    (hfirst : ∀ e ∈ l, e.2 < r → e.1 = false) : l.find? (·.1) = some (true, r) := by
  induction l with
  | nil => exact absurd hr List.not_mem_nil
  | cons e l ih =>
    rw [List.map_cons, List.pairwise_cons] at hl
    rcases List.mem_cons.mp hr with rfl | hin
    · rfl
    · have hlt : e.2 < r := hl.1 r (List.mem_map.mpr ⟨_, hin, rfl⟩)
      rw [List.find?_cons_of_neg (by simp [hfirst e List.mem_cons_self hlt])]
      exact ih hl.2 hin fun e he => hfirst e (List.mem_cons_of_mem _ he)

theorem State.launchFaults_find_of_first {r : Nat} (h : Launch.meets s chip vf part x r) (hfirst : ∀ r' < r, ¬ Launch.meets s chip vf part x r') :
    (s.launchFaults chip vf part x).find? (·.1) = some (true, r) := by
  obtain ⟨hnumbers, hmeets⟩ := State.launchFaults_spec (s := s) (chip := chip) (vf := vf) (part := part) (x := x)
  have hin : r ∈ (s.launchFaults chip vf part x).map (·.2) := by rw [hnumbers]; exact Launch.meets_range h
  obtain ⟨e, he, hr⟩ := List.mem_map.mp hin
  have hon : e.1 = true := (hmeets e he).mpr (hr ▸ h)
  refine find?_of_first (by rw [hnumbers]; decide) (by rw [← hon, ← hr]; exact he) fun e' he' hlt => ?_
  exact Bool.eq_false_iff.mpr fun hon' => hfirst e'.2 hlt ((hmeets e' he').mp hon')

theorem State.launchFaults_find_of_none (h : ∀ r, ¬ Launch.meets s chip vf part x r) : (s.launchFaults chip vf part x).find? (·.1) = none :=
  List.find?_eq_none.mpr fun e he hon => h e.2 ((State.launchFaults_spec.2 e he).mp hon)

end

/-! ## Rejections (R325) -/

theorem ofBytesLE_append (n v : Nat) (r : List Byte) : ofBytesLE (bytesLE n v ++ r) = v % 256 ^ n + 256 ^ n * ofBytesLE r := by
  induction n generalizing v with
  | zero => simp [bytesLE, Nat.mod_one]
  | succ n ih =>
    rw [bytesLE, List.cons_append, ofBytesLE, ih, BitVec.toNat_ofNat, pow_succ' 256 n, Nat.mod_mul (a := 256) (b := 256 ^ n) (x := v)]
    ring

/-- The first words of a completion record, at their offsets (R325). -/
theorem ofBytesLE_record (a b c d : Nat) (r : List Byte) :
    let n := ofBytesLE (bytesLE 4 a ++ (bytesLE 4 b ++ (bytesLE 4 c ++ (bytesLE 4 d ++ r))))
    n % 2 ^ 32 = a % 2 ^ 32 ∧ n / 2 ^ 32 % 2 ^ 32 = b % 2 ^ 32 ∧ n / 2 ^ 64 % 2 ^ 32 = c % 2 ^ 32 ∧ n / 2 ^ 96 % 2 ^ 32 = d % 2 ^ 32 := by
  dsimp only
  simp only [ofBytesLE_append, show (256 : Nat) ^ 4 = 2 ^ 32 from rfl]
  generalize ofBytesLE r = k
  omega

section
variable {s : State} {chip : Nat} {g : Grid} {code reason : Nat}

/-- The 64 bytes of a grid's completion record. -/
def State.recordOf (s : State) (chip : Nat) (g : Grid) (code reason : Nat) : List Byte :=
  bytesLE 4 (2 ^ 31 + reason * 256 + code) ++ bytesLE 4 g.launch.tag.toNat ++ bytesLE 4 g.placed.length ++ bytesLE 4 g.killed'
    ++ timeBytes g.accepted ++ (match g.started with | some n => timeBytes n | none => bytesLE 16 0) ++ timeBytes (if code = 1 then g.accepted else s.ns chip)

theorem State.recordOf_length : (s.recordOf chip g code reason).length = 64 := by
  have htime : ∀ n, (timeBytes n).length = 16 := fun n => by simp [timeBytes, bytesLE_length]
  unfold State.recordOf
  cases g.started <;> simp [bytesLE_length, htime]

/-- A record in memory that objects can name is stored as one access of 64 bytes of the device's own. -/
theorem State.deviceStore_of_named {d : Device} {p : DWord} {bs : List Byte} {know : List Nat} {edges : List Edge} (hp : p ≠ 0) (hg : isGlobal p = true)
    (ho : (s.obj? p).isSome = true) :
    s.deviceStore d p bs know edges = (some s.nextId, { s with
      nextId := s.nextId + 1
      ops := s.ops.put s.nextId { thread := hubThread d.chip, device := some d, know := know, edges := edges, phase := .wellhead
                                  body := .access { kind := .store, ptr := p, size := bs.length, data := ofBytesLE bs } } }) := by
  have hb : birthOf p ≠ 0xFFF := fun h => by rw [isGlobal, h] at hg; exact absurd hg (by decide)
  unfold State.deviceStore
  rw [if_neg (by rw [decide_eq_false hp, decide_eq_false hb]; simp [Option.isSome_iff_ne_none.mp ho])]
  simp [State.addOp, hg]

/-- The record of a rejected launch: nothing of it is placed, and it starts at no time. -/
def State.rejected (s : State) (chip vf part : Nat) (x : Launch) (know : List Nat) : Grid :=
  { vf := vf, part := part, accepted := s.ns chip, know := know
    launch := { x with crec := if birthOf x.crec = 0xFFF || offsetOf x.crec % 64 ≠ 0 then 0 else x.crec
                       doneh := if bitsOf x.doneh.toNat 27 4 ≠ 0 then 0 else x.doneh } }

theorem State.rejectLaunch_eq (vf part r : Nat) (x : Launch) (know : List Nat) :
    s.rejectLaunch chip vf part x r know = s.complete chip (s.rejected chip vf part x know) 1 r := rfl

/-- The arrival that DONEH takes after the record (R325). -/
def State.doneMsg (s : State) (chip : Nat) (g : Grid) (code : Nat) (id : Option Nat) : Msg :=
  { body := .signal g.launch.doneh (chip, (s.vf chip g.vf).realm) 0
      { member := true, flags := { err := code = 1 || code = 3 }, know := edgesWith (hubThread chip) g.know [] } 0
    after := id }

theorem State.complete_eq : s.complete chip g code reason =
    if g.launch.doneh = 0 then (s.deviceStore { chip := chip, vf := g.vf } g.launch.crec (s.recordOf chip g code reason) g.know []).2
    else ((s.deviceStore { chip := chip, vf := g.vf } g.launch.crec (s.recordOf chip g code reason) g.know []).2.send
      ((s.deviceStore { chip := chip, vf := g.vf } g.launch.crec (s.recordOf chip g code reason) g.know []).2.doneMsg chip g code
        (s.deviceStore { chip := chip, vf := g.vf } g.launch.crec (s.recordOf chip g code reason) g.know []).1)).2 := rfl

theorem State.complete_grids : (s.complete chip g code reason).grids = s.grids := by
  have hstore : ∀ d p bs k e, (s.deviceStore d p bs k e).2.grids = s.grids := fun d p bs k e => by
    unfold State.deviceStore
    split <;> rfl
  rw [State.complete_eq]
  split
  · exact hstore ..
  · exact hstore ..

/-- A completion record at a place that an object's pointer names, and its arrival. -/
theorem State.complete_of_named (hp : g.launch.crec ≠ 0) (hg : isGlobal g.launch.crec = true) (ho : (s.obj? g.launch.crec).isSome = true) :
    (s.complete chip g code reason).op? s.nextId = some
      { thread := hubThread chip, device := some { chip := chip, vf := g.vf }, know := g.know, edges := [], phase := .wellhead
        body := .access { kind := .store, ptr := g.launch.crec, size := 64, data := ofBytesLE (s.recordOf chip g code reason) } }
    ∧ (g.launch.doneh ≠ 0 → (s.complete chip g code reason).msg? (s.nextId + 1) = some (s.doneMsg chip g code (some s.nextId))) := by
  rw [State.complete_eq, State.deviceStore_of_named hp hg ho, State.recordOf_length]
  refine ⟨?_, fun hd => ?_⟩
  · split <;> exact Tab.get?_put_self ..
  · rw [if_neg hd]
    exact Tab.get?_put_self ..

end

theorem rejectLaunch_completes (s : State) (chip vf part r : Nat) (x : Launch) (know : List Nat) (hr : r < 256) :
    let u := s.rejectLaunch chip vf part x r know
    u.mem = s.mem ∧ u.grids = s.grids ∧ (x.crec = 0 → x.doneh = 0 → u = s)
    ∧ (isGlobal x.crec = true → x.crec ≠ 0 → offsetOf x.crec % 64 = 0 → (s.obj? x.crec).isSome →
      (∃ o a, u.op? s.nextId = some o ∧ o.body = .access a ∧ a.kind = .store ∧ a.ptr = x.crec ∧ a.size = 64
        ∧ a.data % 2 ^ 32 = 2 ^ 31 + r * 256 + 1 ∧ a.data / 2 ^ 32 % 2 ^ 32 = x.tag.toNat ∧ a.data / 2 ^ 64 % 2 ^ 64 = 0)
      ∧ (x.doneh ≠ 0 → x.doneh.toNat / 16 % 2 ^ 24 = 0 → ∃ m k, u.msg? (s.nextId + 1) = some m ∧ m.after = some s.nextId
          ∧ m.body = .signal x.doneh (chip, (s.vf chip vf).realm) 0 k 0 ∧ k.member = true ∧ k.bytes = 0 ∧ k.flags.err = true)) := by
  dsimp only
  refine ⟨State.rejectLaunch_mem .., by rw [State.rejectLaunch_eq]; exact State.complete_grids, fun hc hd => ?_, fun hg hc hat ho => ?_⟩
  · rw [State.rejectLaunch_eq, State.complete_eq]
    simp [State.rejected, hc, hd, State.deviceStore]
  · have hb : birthOf x.crec ≠ 0xFFF := fun h => by rw [isGlobal, h] at hg; exact absurd hg (by decide)
    have hcrec : (s.rejected chip vf part x know).launch.crec = x.crec := if_neg (by simp [hb, hat])
    obtain ⟨hop, hmsg⟩ := State.complete_of_named (chip := chip) (code := 1) (reason := r) (hcrec ▸ hc) (hcrec ▸ hg) (hcrec ▸ ho)
    rw [← State.rejectLaunch_eq] at hop hmsg
    refine ⟨⟨_, _, hop, rfl, rfl, hcrec, rfl, ?_⟩, fun hd hplain => ?_⟩
    · have htag := x.tag.isLt
      obtain ⟨h0, h1, h2, h3⟩ := ofBytesLE_record (2 ^ 31 + r * 256 + 1) x.tag.toNat 0 0
        (timeBytes (s.ns chip) ++ (bytesLE 16 0 ++ timeBytes (s.ns chip)))
      have hdata : s.recordOf chip (s.rejected chip vf part x know) 1 r = bytesLE 4 (2 ^ 31 + r * 256 + 1) ++ (bytesLE 4 x.tag.toNat
          ++ (bytesLE 4 0 ++ (bytesLE 4 0 ++ (timeBytes (s.ns chip) ++ (bytesLE 16 0 ++ timeBytes (s.ns chip)))))) := by
        simp [State.recordOf, State.rejected]
      dsimp only
      rw [hdata]
      exact ⟨h0.trans (Nat.mod_eq_of_lt (by omega)), h1.trans (Nat.mod_eq_of_lt htag), by omega⟩
    · have hdone : (s.rejected chip vf part x know).launch.doneh = x.doneh := if_neg (by simp [bitsOf]; omega)
      refine ⟨_, { member := true, flags := { err := true }, know := edgesWith (hubThread chip) know [] }, hmsg (hdone ▸ hd), rfl, ?_, rfl, rfl, rfl⟩
      rw [State.doneMsg, hdone]
      rfl

theorem launchRecordsAreChecked : LaunchRecordsAreChecked := by
  refine ⟨launchOfBytes_fields, fun s chip vf part x => ?_, rejectLaunch_completes⟩
  dsimp only
  refine ⟨fun r h hfirst => ?_, fun h hn => ?_, fun c h hn hread => ?_, fun bs h hn hread => ?_⟩
  · rw [State.validate, State.launchFaults_find_of_first (r := r) h hfirst]
  · rw [State.validate, State.launchFaults_find_of_none h]
    exact if_pos hn
  · rw [State.validate, State.launchFaults_find_of_none h]
    dsimp only
    rw [if_neg hn, hread]
  · refine ⟨(List.range x.nargs).map fun i => BitVec.ofNat 32 (ofBytesLE ((bs.drop (4 * i)).take 4)), ?_, by simp, fun i hi => ?_⟩
    · rw [State.validate, State.launchFaults_find_of_none h]
      dsimp only
      rw [if_neg hn, hread]
    · rw [List.getD_eq_getElem _ _ (by simpa using hi)]
      simp

/-! ## LAUNCHQ (R283, R317, R326, R327) -/

theorem landLaunch_lands (s : State) (id dst v : Nat) (o : Op) (hdst : dst < (s.thread o.thread).regs.length) (h255 : dst ≠ 255) :
    ((s.landLaunch id o dst v).thread o.thread).reg dst = BitVec.ofNat 32 v ∧ (s.landLaunch id o dst v).op? id = none := by
  unfold State.landLaunch
  dsimp only
  refine ⟨?_, State.endOp_op?_self ..⟩
  rw [Thread.reg_congr ((State.endOp_endsAs _ id).regs o.thread), State.thread_modThread]
  have hset : ∀ x : Thread, dst < x.regs.length → (x.setReg dst (BitVec.ofNat 32 v)).reg dst = BitVec.ofNat 32 v := fun x hx => by
    rw [Thread.setReg, if_neg h255, Thread.reg]
    simp [hx, h255]
  exact hset _ hdst

theorem State.enterLaunch_grid (s : State) (chip g vf part : Nat) (x : Launch) (args : List Word) (hx : x.after = false) :
    (s.enterLaunch chip g vf part x args none none []).grid chip g
      = { vf := vf, part := part, launch := x, args := args, order := (s.chip chip).launches, accepted := s.ns chip } := by
  unfold State.enterLaunch State.grid State.modChip State.setGrid
  dsimp only
  rw [hx]
  exact Tab.getD_put_self ..

/-- The lockkeeper's use of a LAUNCHQ's record (R367, R412). -/
def State.recordUse (s : State) (t : ThreadId) (vf : Nat) (p : DWord) (u : State) : State :=
  if isGlobal p then u.objectUse t.cohort.chip vf p 128
  else match s.reach t p 128 false with | .place a => u.found a 128 | _ => u

/-- A LAUNCHQ whose turn has come and for which nothing earlier is left. -/
theorem State.serveLaunch_of_entered {s : State} {id dst : Nat} {o : Op} {p : DWord} (ho : s.op? id = some o) (hb : o.body = .launchq p dst true) (hheld : o.held = none)
    (hfirst : ∀ q ∈ s.ops, q.1 < id → q.2.thread ≠ o.thread) (hcomplete : s.earlierComplete o.thread id (effScope (s.launchOf o.thread.cohort).ladder 5) = true)
    (hon : (s.vf o.thread.cohort.chip (s.cohort o.thread.cohort).vf).enable = true) (hbusy : (s.vf o.thread.cohort.chip (s.cohort o.thread.cohort).vf).busy = none)
    {s2 : State} (hs2 : s.widen o.thread (effScope (s.launchOf o.thread.cohort).ladder 5) (s.clock o.thread id o.know) = s2)
    (hwait : s2.deviceWaits o.thread.cohort.chip (s.cohort o.thread.cohort).vf p 128 = false) :
    s.serveLaunch id =
      let c := o.thread.cohort
      let vf := (s.cohort c).vf
      match s2.launchRecord o.thread p with
      | .error _ => s2.recordUse o.thread vf p (s2.landLaunch id o dst (2 ^ 28 + 12 * 256))
      | .ok bs =>
        let x := Launch.ofBytes bs
        let used := fun (u : State) => s2.argsUse c.chip vf (s.partOf c) x (s2.recordUse o.thread vf p u)
        if s2.deviceWaits c.chip vf x.args (4 * x.nargs) then s2
        else match s2.validate c.chip vf (s.partOf c) x with
        | .error r => used ((s2.rejectLaunch c.chip vf (s.partOf c) x r (s.clock o.thread id o.know)).landLaunch id o dst (2 ^ 28 + r * 256))
        | .ok args =>
          match s2.gridFrom c.chip 65535 (s2.chip c.chip).nextGrid with
          | none => s2
          | some g => used ((s2.enterLaunch c.chip g vf (s.partOf c) x args none (some o.thread) (s.clock o.thread id o.know)).landLaunch id o dst g) := by
  have hbefore : ∀ f : Nat × Op → Bool, (s.ops.any fun q => q.1 < id && q.2.thread = o.thread && f q) = false := fun f => by
    refine List.any_eq_false.mpr fun q hq => ?_
    by_cases hlt : q.1 < id
    · simp [hfirst q hq hlt]
    · simp [hlt]
  have hself : ({ o with held := none, body := .launchq p dst true } : Op) = o := by
    cases o
    cases hb
    cases hheld
    rfl
  unfold State.serveLaunch
  rw [ho]
  dsimp only
  rw [hb]
  dsimp only
  rw [if_neg (by simp), if_pos rfl, hself, hs2, if_neg (by rw [hbefore, hcomplete, hon, hbusy]; decide), if_neg (by rw [hwait]; decide)] <;> rfl

theorem launchesAreValidatedAndNumbered : LaunchesAreValidatedAndNumbered := by
  refine ⟨fun f p => ?_, fun s id dst o p bs ho hb hheld hfirst => ?_, fun s id dst v o _ hdst h255 => landLaunch_lands s id dst v o hdst h255,
    fun s chip g vf part x args hx => ?_⟩
  · have hexec : ∀ s, exec (.launchq f) s = execLaunchq f s := fun s => by rw [exec]
    refine ⟨does_of_body hexec (fun _ _ _ h => h) fun s b t ⟨hsrc, hat, hspace⟩ => ?_, traps_of_body hexec (fun _ _ _ h => h) fun s b t ⟨hsrc, hat⟩ => ?_,
      traps_of_body hexec (fun _ _ _ h => h) fun s b t ⟨hsrc, hat, hspace⟩ => ?_⟩
    · have hdst : f.dst.toNat = 255 ↔ f.dst = 255 := ⟨fun h => BitVec.eq_of_toNat_eq h, fun h => by rw [h]; rfl⟩
      rw [hsrc]
      dsimp only [orTrap]
      rw [if_neg (not_not.mpr hat), State.reportCheck_passes_space hspace]
      simp only [hdst]
      rfl
    · rw [hsrc]
      exact if_pos hat
    · have hout : isGlobal p = false := not_isGlobal_of_ge (by omega)
      rw [hsrc]
      dsimp only [orTrap]
      rw [if_neg (not_not.mpr hat), hout, hspace]
      rfl
  · dsimp only
    intro hcomplete hwait hon hbusy
    have hserve := State.serveLaunch_of_entered ho hb hheld hfirst hcomplete hon hbusy rfl hwait
    refine ⟨fun e he => ?_, fun hok hargs => ⟨fun args g hvalid hg => ?_, fun r hvalid => ?_⟩⟩
    · rw [hserve]
      dsimp only
      rw [he]
      rfl
    · rw [hserve]
      dsimp only
      rw [hok]
      dsimp only
      rw [if_neg (by rw [hargs]; decide), hvalid]
      dsimp only
      rw [hg]
      rfl
    · rw [hserve]
      dsimp only
      rw [hok]
      dsimp only
      rw [if_neg (by rw [hargs]; decide), hvalid]
      rfl
  · dsimp only
    rw [State.enterLaunch_grid s chip g vf part x args hx]
    refine ⟨rfl, rfl, rfl, rfl, rfl, rfl, ?_, State.enterLaunch_mem ..⟩
    unfold State.enterLaunch State.modChip
    dsimp only
    rw [State.chip_setChip]

/-! ## Shadow rings (R321) -/

section
variable {s : State} {chip vf : Nat} {prog : Program}

/-- The packet that a ring's consumer stands at. -/
def State.packetAt (s : State) (chip vf : Nat) : DWord :=
  ptrAdd (s.vf chip vf).srbase (256 * ((s.vf chip vf).srcons.toNat % ringSlots (s.vf chip vf).srcfg 4 16))

/-- A packet is passed. -/
def State.passed (s : State) (chip vf : Nat) (u : State) : State :=
  (u.modVf chip vf fun v => { v with srcons := v.srcons + 1 }).objectUse chip vf (s.packetAt chip vf) 4

theorem State.ringReady_of_idle (h : (s.vf chip vf).srcfg.getLsbD 31 = false ∨ (s.vf chip vf).srprod = (s.vf chip vf).srcons ∨ (s.vf chip vf).enable = false) :
    s.ringReady chip vf = false := by
  unfold State.ringReady
  dsimp only
  rcases h with h | h | h
  · rw [h]
    rfl
  · simp [h]
  · simp [h]

theorem exec_packetConsume_of_waiting (h : s.ringReady chip vf = false) : exec (.packetConsume chip ⟨vf, prog⟩) s = .next s := by
  rw [exec, execPacketConsume]
  dsimp only
  rw [h]
  rfl

variable {k : List Byte} (hready : s.ringReady chip vf = true) (hwait : s.deviceWaits chip vf (s.packetAt chip vf) 256 = false)
  (hkind : s.objectRead chip vf (s.packetAt chip vf) 4 = .ok k)
include hready hwait hkind

theorem exec_packetConsume_of_other (hk : ofBytesLE k ≠ 1) : exec (.packetConsume chip ⟨vf, prog⟩) s = .next (s.passed chip vf s) := by
  unfold State.packetAt at hwait hkind
  rw [exec, execPacketConsume]
  dsimp only
  rw [hready, hwait, hkind]
  exact congrArg Host.Outcome.next (if_pos hk)

/-- A LAUNCH packet whose record can be read, with its arguments and its program's symbols in place. -/
theorem exec_packetConsume_of_launch (hk : ofBytesLE k = 1) {bs : List Byte} (hread : s.objectRead chip vf (ptrAdd (s.packetAt chip vf) 0x80) 128 = .ok bs)
    (hargs : s.deviceWaits chip vf (Launch.ofBytes bs).args (4 * (Launch.ofBytes bs).nargs) = false) (hsymbols : s.symbolsWait chip vf prog = false) :
    exec (.packetConsume chip ⟨vf, prog⟩) s = .next (
      let x := Launch.ofBytes bs
      let part := (s.vf chip vf).part
      let used := fun (u : State) => s.argsUse chip vf part x ((s.passed chip vf u).objectUse chip vf (ptrAdd (s.packetAt chip vf) 0x80) 128)
      match (s.validate chip vf part x).bind (s.declareFor chip vf part prog x) with
      | .error r => used (s.rejectLaunch chip vf part x r [])
      | .ok (args, u) =>
        match u.gridFrom chip 65535 (u.chip chip).nextGrid with
        | none => s
        | some g => used (u.enterLaunch chip g vf part x args (some vf) none [])) := by
  unfold State.packetAt at hwait hkind hread
  rw [exec, execPacketConsume]
  dsimp only
  rw [hready, hwait, hkind]
  dsimp only
  rw [if_neg (by decide), if_neg (not_not.mpr hk), hread]
  dsimp only
  rw [hargs, hsymbols] <;> rfl

end

theorem State.declareFor_none {s : State} {chip vf part : Nat} {prog : Program} {x : Launch} {args : List Word} (h : prog.decls = []) :
    s.declareFor chip vf part prog x args = .ok (args, s) := if_pos h

theorem State.declareFor_of_declared {s : State} {chip vf part : Nat} {prog : Program} {x : Launch} {args : List Word} (h : prog.decls ≠ []) :
    s.declareFor chip vf part prog x args = match State.declareAll chip vf prog.id prog.decls [] s with
      | none => .error 13
      | some u => (u.validate chip vf part x).map fun args => (args, u) := if_neg h

/-- A plain declaration, of an object that is pinned: its object is a new one, with one pin (R208). -/
theorem State.declareObject_pinned {s u : State} {chip vf prog n : Nat} {known : List (Nat × (Nat × Nat))} {d : ObjectDecl} (hc : d.chip = none) (hg : d.group = none)
    (hp : d.pin = true) (hi : d.init = []) (h0 : 0 < d.size) (hmax : d.size ≤ 2 ^ 30) (hex : s.chipExists chip = true)
    (hnew : s.newAnywhere chip vf d.size d.log2 = some (n, u)) :
    s.declareObject chip vf prog known d = some ((chip, n), { u with objects := u.objects.map fun k (o : Obj) => if k = (chip, n) then { o with pins := 1 } else o }) := by
  unfold State.declareObject
  rw [hc]
  dsimp only [Option.bind, Option.getD]
  rw [if_pos rfl]
  dsimp only
  rw [if_neg (by simp [hex, hi]; omega), hnew, hi, hp, hg]
  rfl

theorem shadowRingPacketsAreConsumed : ShadowRingPacketsAreConsumed := by
  refine ⟨fun s chip vf v => by rw [exec, execSrprod], fun s chip vf prog k bs args g => ⟨fun h => exec_packetConsume_of_waiting (State.ringReady_of_idle h),
    fun hready hwait hkind => ⟨exec_packetConsume_of_other hready hwait hkind, fun hk hread => ?_⟩⟩, fun s u chip vf prog n known d hc hg hp hi h0 hmax hex hnew hsome => ?_⟩
  · dsimp only
    intro hargs hsymbols
    have hrun := exec_packetConsume_of_launch hready hwait hkind hk hread hargs hsymbols
    refine ⟨fun r hv => ?_, fun hv hd hgrid => ?_, fun hv hd hall => ?_, fun u args' hv hd hall hv' hgrid => ?_⟩
    · rw [hrun]
      dsimp only
      rw [hv]
      rfl
    · rw [hrun]
      dsimp only
      rw [hv, Except.bind, State.declareFor_none hd]
      dsimp only
      rw [hgrid]
      rfl
    · rw [hrun]
      dsimp only
      rw [hv, Except.bind, State.declareFor_of_declared hd, hall]
      rfl
    · rw [hrun]
      dsimp only
      rw [hv, Except.bind, State.declareFor_of_declared hd, hall]
      dsimp only
      rw [hv', Except.map]
      dsimp only
      rw [hgrid]
      rfl
  · obtain ⟨x, hx⟩ := Option.isSome_iff_exists.mp hsome
    refine ⟨_, State.declareObject_pinned hc hg hp hi h0 hmax hex hnew, rfl, { x with pins := 1 }, ?_, rfl⟩
    have hmap := Tab.get?_map u.objects (fun k (o : Obj) => if k = (chip, n) then { o with pins := 1 } else o) (chip, n)
    refine hmap.trans ?_
    rw [hx, Option.map_some, if_pos rfl]

/-- Settles O36. -/
theorem launchesAreValidatedFromWordsAndRings : Obligations.LaunchesAreValidatedFromWordsAndRings :=
  ⟨launchesAreValidatedAndNumbered, launchRecordsAreChecked, shadowRingPacketsAreConsumed⟩

end Sys2Proof.Machine
end

section
/-! PROOFS. Cohorts, grids and the dispenser (O37). -/

namespace Sys2Proof.Machine

/-! ## Where a cohort starts (R322, R323) -/

/-- A thread as it stands at its kernel, before its first clause. -/
structure Thread.StartsAs (g : Grid) (y : Thread) : Prop where
  pc       : y.pc = g.launch.kernel
  word     : y.word = 0
  inside   : y.inside = false
  run      : y.run = .blocked ∨ y.run = .ready ∨ y.run = .rendezvous
  preds    : y.preds = 0
  regs     : y.regs = (g.args ++ List.replicate (g.launch.regs - g.args.length) 0).take g.launch.regs
  dcs      : y.dcs = List.replicate 6 []
  handler  : y.handler = false
  ret      : y.ret = []
  stack    : y.stack = []
  rmode    : y.rmode = BitVec.ofNat 3 (if g.launch.rmode = 0 then 1 else g.launch.rmode)
  rowprog  : y.rowprog = 0
  tokens   : ∀ k, y.tokens.getD k 0 = 0
  deferred : y.deferred = []

theorem getD_replicate_default {α : Type} (n k : Nat) (d : α) : (List.replicate n d).getD k d = d := by
  rw [List.getD_eq_getElem?_getD, List.getElem?_replicate]
  split <;> rfl

theorem Grid.thread_startsAs (g : Grid) (q : QuadId) (index tid seq now : Nat) : (g.thread q index tid seq now).StartsAs g :=
  ⟨rfl, rfl, rfl, .inl rfl, rfl, rfl, rfl, rfl, rfl, rfl, rfl, rfl, fun k => getD_replicate_default 16 k 0, rfl⟩

/-- What standing at a header changes of a thread: its state, and what it observes at a register. -/
theorem State.stand_thread (s : State) (t : ThreadId) : ∃ run since know joins tokens,
    (s.stand t).thread t = { s.thread t with run := run, readySince := since, know := know, joins := joins, tokens := tokens }
    ∧ (run = .blocked ∨ run = .ready ∨ run = .rendezvous)
    ∧ (tokens = (s.thread t).tokens ∨ ∃ nb, tokens = (s.thread t).tokens.set nb ((s.cohort t.cohort).nbs.getD nb {}).phase) := by
  have hrun : ∀ c : Bool, (if c then RunState.rendezvous else .ready) = .blocked ∨ (if c then RunState.rendezvous else .ready) = .ready
      ∨ (if c then RunState.rendezvous else .ready) = .rendezvous := by decide
  have hblocked : ∃ run since know joins tokens, (s.setThread t { s.thread t with run := .blocked }).thread t
      = { s.thread t with run := run, readySince := since, know := know, joins := joins, tokens := tokens }
      ∧ (run = .blocked ∨ run = .ready ∨ run = .rendezvous)
      ∧ (tokens = (s.thread t).tokens ∨ ∃ nb, tokens = (s.thread t).tokens.set nb ((s.cohort t.cohort).nbs.getD nb {}).phase) :=
    ⟨.blocked, _, _, _, _, State.thread_setThread .., .inl rfl, .inl rfl⟩
  unfold State.stand
  dsimp only
  split
  · exact hblocked
  · split
    · exact hblocked
    · next w ws _ =>
      split
      · exact hblocked
      · split
        · rw [State.thread_modThread]
          unfold State.observe
          dsimp only
          rw [State.thread_modThread]
          exact ⟨_, _, _, _, _, rfl, hrun _, .inr ⟨_, rfl⟩⟩
        · rw [State.thread_modThread]
          exact ⟨_, _, _, _, _, rfl, hrun _, .inl rfl⟩

theorem State.stand_thread_ne (s : State) {t v : ThreadId} (h : v ≠ t) : (s.stand t).thread v = s.thread v := by
  unfold State.stand State.observe
  dsimp only
  split
  · exact State.thread_setThread_ne _ _ _ _ h
  · split
    · exact State.thread_setThread_ne _ _ _ _ h
    · split
      · exact State.thread_setThread_ne _ _ _ _ h
      · rw [State.thread_modThread_ne _ _ h]
        split
        · exact State.thread_modThread_ne _ _ h
        · rfl

theorem State.stand_cohorts (s : State) (t : ThreadId) : (s.stand t).cohorts = s.cohorts := (s.stand_readsAs t).cohorts

/-- A thread that starts still does as it stands at its header, where no phase of its cohort's registers has passed. -/
theorem Thread.StartsAs.stand {g : Grid} {s : State} {t : ThreadId} (h : (s.thread t).StartsAs g) (hnb : ∀ k, ((s.cohort t.cohort).nbs.getD k {}).phase = 0) :
    ((s.stand t).thread t).StartsAs g := by
  obtain ⟨run, since, know, joins, tokens, heq, hrun, htok⟩ := s.stand_thread t
  have htokens : ∀ k, tokens.getD k 0 = 0 := fun k => by
    rcases htok with rfl | ⟨nb, rfl⟩
    · exact h.tokens k
    · rw [hnb, List.getD_eq_getElem?_getD, List.getElem?_set]
      split
      · split <;> rfl
      · rw [← List.getD_eq_getElem?_getD]
        exact h.tokens k
  rw [heq]
  exact ⟨h.pc, h.word, h.inside, hrun, h.preds, h.regs, h.dcs, h.handler, h.ret, h.stack, h.rmode, h.rowprog, htokens, h.deferred⟩

/-- A step of a fold over threads, each of which the step makes start, leaves each of them started. -/
theorem State.foldl_threads {c : CohortId} {P : Thread → Prop} {I : State → Prop} {f : State → Nat → State}
    (hI : ∀ s k, I s → I (f s k)) (hself : ∀ s k, I s → P ((f s k).thread ⟨c, k⟩)) (hne : ∀ s k v, v ≠ (⟨c, k⟩ : ThreadId) → (f s k).thread v = s.thread v)
    (n : Nat) (s : State) (hs : I s) : I ((List.range n).foldl f s) ∧ ∀ k < n, P (((List.range n).foldl f s).thread ⟨c, k⟩) := by
  induction n with
  | zero => exact ⟨hs, fun k hk => absurd hk (Nat.not_lt_zero k)⟩
  | succ n ih =>
    rw [List.range_succ, List.foldl_append]
    refine ⟨hI _ n ih.1, fun k hk => ?_⟩
    by_cases hkn : k = n
    · rw [hkn]
      exact hself _ n ih.1
    · have hne' : (⟨c, k⟩ : ThreadId) ≠ ⟨c, n⟩ := fun h => hkn (congrArg ThreadId.tid h)
      exact (congrArg P (hne _ n _ hne')).mpr (ih.2 k (by omega))

/-- What placing a cohort leaves of its record while its threads are set up: no phase of its registers has passed. -/
structure State.Placing (s : State) (c : CohortId) (index : Nat) : Prop where
  index : (s.cohort c).index = index
  ended : (s.cohort c).ended = false
  nbs   : ∀ k, ((s.cohort c).nbs.getD k {}).phase = 0

theorem State.Placing.of_cohorts {s u : State} {c : CohortId} {index : Nat} (h : s.Placing c index) (hu : u.cohorts = s.cohorts) : u.Placing c index := by
  have hc : u.cohort c = s.cohort c := State.cohort_congr hu c
  exact ⟨hc ▸ h.index, hc ▸ h.ended, fun k => hc ▸ h.nbs k⟩

/-- One thread of a cohort is set up. -/
def State.startThread (c : CohortId) (g : Grid) (quads : List Nat) (index : Nat) (s : State) (tid : Nat) : State :=
  let q : QuadId := ⟨c.chip, c.die, c.core, quads.getD (tid / 32 % quads.length) 0⟩
  let seq := (s.quad q).seq + 1
  (s.modQuad q fun y => { y with seq := seq }).setThread ⟨c, tid⟩ (g.thread q index tid seq s.now)

theorem State.placeCohort_steps {s u : State} {chip n index : Nat} {core : CoreId} (h : s.placeCohort chip n core index = some u) :
    ∃ (s1 : State) (quads : List Nat) (x : Cohort) (f : Grid → Grid), x.index = index ∧ x.ended = false ∧ x.nbs = List.replicate 16 {}
      ∧ u = ((List.range (s.grid chip n).launch.threads).foldl (fun s tid => s.stand ⟨⟨chip, core.die, core.core, n⟩, tid⟩)
        ((List.range (s.grid chip n).launch.threads).foldl (State.startThread ⟨chip, core.die, core.core, n⟩ (s.grid chip n) quads index)
          ((s1.setCohort ⟨chip, core.die, core.core, n⟩ x).wipe (privateAt ⟨⟨chip, core.die, core.core, n⟩, 0⟩ 0) (4096 * 2 ^ 30)))).modGrid chip n f := by
  unfold State.placeCohort at h
  dsimp only at h
  split at h
  · cases h
  · obtain rfl := Option.some.inj h
    exact ⟨_, _, _, _, rfl, rfl, rfl, rfl⟩

theorem State.wipe_cohorts (s : State) (a n : Nat) : (s.wipe a n).cohorts = s.cohorts := by
  unfold State.wipe State.expose
  split <;> rfl

/-- The placed cohort's record and its threads. -/
theorem State.placeCohort_starts {s u : State} {chip n index : Nat} {core : CoreId} (h : s.placeCohort chip n core index = some u) :
    u.Placing ⟨chip, core.die, core.core, n⟩ index
      ∧ ∀ tid < (s.grid chip n).launch.threads, (u.thread ⟨⟨chip, core.die, core.core, n⟩, tid⟩).StartsAs (s.grid chip n) := by
  obtain ⟨s1, quads, x, f, hindex, hended, hnbs, rfl⟩ := State.placeCohort_steps h
  generalize (⟨chip, core.die, core.core, n⟩ : CohortId) = c
  generalize s.grid chip n = g
  have hput : (s1.setCohort c x).Placing c index := by
    have hc : (s1.setCohort c x).cohort c = x := State.cohort_setCohort ..
    exact ⟨(congrArg Cohort.index hc).trans hindex, (congrArg Cohort.ended hc).trans hended, fun k => by rw [hc, hnbs]; exact congrArg Nb.phase (getD_replicate_default 16 k {})⟩
  have hstarted := State.foldl_threads (c := c) (P := Thread.StartsAs g) (I := fun s => s.Placing c index) (f := State.startThread c g quads index)
    (fun s k hs => hs.of_cohorts rfl)
    (fun s k _ => by
      unfold State.startThread
      rw [State.thread_setThread]
      exact g.thread_startsAs ..)
    (fun s k v hv => State.thread_setThread_ne _ _ _ _ hv) g.launch.threads _ (hput.of_cohorts (State.wipe_cohorts _ (privateAt ⟨c, 0⟩ 0) (4096 * 2 ^ 30)))
  refine List.foldlRecOn (motive := fun (u : State) => (u.modGrid chip n f).Placing c index ∧ ∀ tid < g.launch.threads, ((u.modGrid chip n f).thread ⟨c, tid⟩).StartsAs g)
    _ _ ⟨hstarted.1.of_cohorts rfl, hstarted.2⟩ fun u hu k _ => ⟨hu.1.of_cohorts (u.stand_cohorts ⟨c, k⟩), fun tid htid => ?_⟩
  by_cases hk : tid = k
  · exact hk ▸ Thread.StartsAs.stand (s := u) (hu.2 tid htid) hu.1.nbs
  · exact (congrArg (Thread.StartsAs g) (u.stand_thread_ne fun h => hk (congrArg ThreadId.tid h))).mpr (hu.2 tid htid)

/-! ## The next cohort (R322, R362) -/

theorem exec_cohortPlace_of_next {s s2 : State} {chip part n : Nat} {g : Grid} {c : CoreId} {l : List CoreId} (h : s.placement chip part = some (n, g, [c], l))
    (hothers : ∀ p < 12, p ≠ part → s.placement chip p = none)
    (hplace : (s.modGrid chip n fun g => { g with set' := l.map fun c => (c.die, c.core) }).placeCohort chip n c (l.takeWhile (· ≠ c)).length = some s2) :
    exec (.cohortPlace chip part) s = .next (s2.modChip chip fun h => { h with turn := h.turn.filter (· ≠ part) ++ [part] }) := by
  rw [exec, execCohortPlace, h]
  dsimp only
  rw [if_neg ?_, List.foldl_cons, List.foldl_nil, Option.bind, hplace]
  · intro hahead
    obtain ⟨p, hp, hany⟩ := List.any_eq_true.mp hahead
    by_cases hpart : p = part
    · subst hpart
      rw [h] at hany
      simp at hany
    · rw [hothers p (List.mem_range.mp hp) hpart] at hany
      exact Bool.false_ne_true hany

theorem placedThreadsStartAtTheKernel : PlacedThreadsStartAtTheKernel := by
  refine ⟨fun s s2 chip part n g c l h _ hothers hplace => exec_cohortPlace_of_next h hothers hplace, fun s chip part n g hnone hframes => ?_,
    fun s u chip n index tid c hplace _ => ?_⟩
  · rw [exec, execCohortPlace, hnone, hframes]
  · dsimp only
    intro htid hargs
    obtain ⟨hcohort, hthreads⟩ := State.placeCohort_starts hplace
    have hy := hthreads tid htid
    have hlength : ((s.grid chip n).args ++ List.replicate ((s.grid chip n).launch.regs - (s.grid chip n).args.length) (0 : Word)).length = (s.grid chip n).launch.regs := by
      simp
      omega
    refine ⟨hy.pc, hy.word, hy.inside, hy.run, hy.preds, ?_, fun i hi => ?_, fun k => ?_, hy.handler, hy.ret, hy.stack, hy.rmode, hy.rowprog, hy.tokens,
      hy.deferred, hcohort.index, hcohort.ended⟩
    · rw [hy.regs, List.length_take, hlength, Nat.min_self]
    · rw [hy.regs, List.take_of_length_le (Nat.le_of_eq hlength)]
      by_cases hin : i < (s.grid chip n).args.length
      · rw [List.getD_append _ _ _ _ hin]
      · rw [List.getD_append_right _ _ _ _ (Nat.le_of_not_lt hin), getD_replicate_default, List.getD_eq_default _ _ (Nat.le_of_not_lt hin)]
    · rw [Thread.dc, hy.dcs, getD_replicate_default]
      rfl

/-! ## The end of a cohort (R161) -/

section
variable (s : State)

theorem State.MemoryAs.grids {s u : State} (h : u.MemoryAs s) : u.grids = s.grids := by
  obtain ⟨_, _, _, _, _, _, _, _, rfl⟩ := h
  rfl

theorem State.endOp_grids (id : Nat) : (s.endOp id).grids = s.grids := (s.endOp_endsAs id).grids

theorem State.closeOp_grids (id : Nat) : (s.closeOp id).grids = s.grids := by
  unfold State.closeOp
  split
  · split
    · exact ((State.unqueue_endsAs ..).grids : _)
    · rfl
  · exact s.endOp_grids id

theorem State.deviceStore_grids (d : Device) (p : DWord) (bs : List Byte) (know : List Nat) (edges : List Edge) :
    (s.deviceStore d p bs know edges).2.grids = s.grids := by
  unfold State.deviceStore
  split <;> rfl

theorem State.unclaims_grids (t : ThreadId) (l : List Share) : (l.foldl (fun (u : State) y => u.unclaim (shareCore t y) y.claims) s).grids = s.grids :=
  State.foldl_keeps (·.grids) (fun (u : State) (y : Share) => u.unclaim (shareCore t y) y.claims) (fun _ _ => rfl) l s

theorem State.finishCopy_grids (id : Nat) (o : Op) (c : CopyOp) (err : Option Nat) (discarded : Bool) : (s.finishCopy id o c err discarded).grids = s.grids := by
  unfold State.finishCopy
  rw [State.closeOp_grids]
  have hfreed := s.unclaims_grids o.thread c.shares
  have hrecord : ∀ u : State, ∀ status missed edges, (match c.record with | some p => u.writeRecord o.thread p status missed edges | none => u).grids = u.grids :=
    fun u status missed edges => by
      split
      · exact (State.writeRecord_memoryAs ..).grids
      · rfl
  split
  · exact (hrecord ..).trans hfreed
  · exact (hrecord ..).trans hfreed

theorem State.xferSignals_grids (id : Nat) (o : Op) (x : XferOp) (err : Bool) : (s.xferSignals id o x err).grids = s.grids := by
  unfold State.xferSignals
  dsimp only
  split <;> rfl

theorem State.xferRemote_grids (id : Nat) (o : Op) (x : XferOp) (err : Bool) : (s.xferRemote id o x err).2.grids = s.grids := by
  unfold State.xferRemote
  split
  · rfl
  · dsimp only
    split
    · refine List.foldlRecOn (motive := fun (r : Nat × State) => r.2.grids = s.grids) _ _ rfl fun r hr y _ => ?_
      split <;> exact hr
    · rfl

theorem State.dropMoves_grids (f : Move → Bool) : (s.dropMoves f).grids = s.grids := by
  unfold State.dropMoves
  refine State.foldl_keeps (·.grids) _ (fun u m => ?_) ..
  dsimp only
  split <;> rfl

theorem State.abortOp_grids (id : Nat) : (s.abortOp id).grids = s.grids := by
  unfold State.abortOp
  split
  · rfl
  · next o _ =>
    split
    · exact s.endOp_grids id
    · split
      · exact s.finishCopy_grids ..
      · exact State.endOp_grids _ id
      · exact State.endOp_grids _ id
      · next m _ =>
        refine (State.endOp_grids _ id).trans ?_
        cases m.nb <;> rfl
      · next x _ =>
        dsimp only
        split
        · split <;> rfl
        · refine (State.endOp_grids _ id).trans ?_
          have hfreed := s.unclaims_grids o.thread x.shares
          have hsignals : ∀ (u : State) (cut : Bool), ((if x.signalled then u else (u.xferRemote id o x cut).2).xferSignals id o x cut).grids = u.grids := fun u cut => by
            rw [State.xferSignals_grids]
            split
            · rfl
            · exact u.xferRemote_grids ..
          cases x.red <;> exact (hsignals ..).trans hfreed
      · exact State.endOp_grids _ id
      · exact State.endOp_grids _ id
      · next b _ =>
        refine (State.endOp_grids _ id).trans (Eq.trans ?_ (s.dropMoves_grids fun m => m.op = some id && !m.going))
        dsimp only
        split
        · split <;> rfl
        · rfl
      · exact State.endOp_grids _ id
      · exact (State.endOp_grids _ id).trans (State.unqueue_endsAs ..).grids

theorem State.entryStatus_grids (e : EntrySlot) (status : Nat) (know : List Nat) (edges : List Edge) : (s.entryStatus e status know edges).grids = s.grids := by
  unfold State.entryStatus
  dsimp only
  split
  · split
    · exact ((State.addEdges_memoryAs ..).trans (State.store_memoryAs ..)).grids
    · rfl
  · exact s.deviceStore_grids ..

theorem State.retireSlot_grids (d : DieId) (k status : Nat) : (s.retireSlot d k status).grids = s.grids := by
  unfold State.retireSlot
  split
  · rfl
  · exact s.entryStatus_grids ..

end

section
variable {s : State} {c : CohortId}

/-- One quadrant's tiles of a cohort are zeroed, with their shadows (R161). -/
def State.zeroTiles (c : CohortId) (s : State) (t : Nat × List Nat) : State :=
  s.modQuad ⟨c.chip, c.die, c.core, t.1⟩ fun y =>
    { y with acc := t.2.foldl (fun a k => a.set k []) y.acc, poison := t.2.foldl (fun a k => a.set k false) y.poison
             shadows := y.shadows.map fun w => if w.bound.any (fun b => b.1 = c) then {} else w }

/-- What is left to do once a cohort's operations and entries are gone: its tiles, frames and pins, and the counts (R161, R325). -/
def State.closedCohort (s : State) (c : CohortId) (x : Cohort) : State :=
  let s := x.tiles.foldl (State.zeroTiles c) s
  let s := (s.freeFrames c.toDie x.frames).unpin c
  let s := s.modGrid c.chip c.grid fun g => { g with done := g.done + 1 }
  (s.modCohort c fun y => { y with ended := true, timers := [], tiles := [], frames := [] }).settleDefer c.chip x.vf

/-- The operations and the entries of a cohort are dropped. -/
def State.dropped (s : State) (c : CohortId) : State :=
  let s := (List.map (·.1) (s.ops.filter fun p => p.2.thread.cohort = c)).foldl State.abortOp s
  (((s.die c.toDie).slots.filter fun e => e.2.thread.cohort = c).map (·.1)).foldl (fun s k => s.retireSlot c.toDie k 0) s

theorem State.endCohort_eq : s.endCohort c = (s.dropped c).closedCohort c (s.cohort c) := rfl

theorem State.dropped_grids : (s.dropped c).grids = s.grids :=
  (State.foldl_keeps (·.grids) (fun (u : State) k => u.retireSlot c.toDie k 0) (fun u k => u.retireSlot_grids ..) ..).trans
    (State.foldl_keeps (·.grids) State.abortOp State.abortOp_grids ..)

theorem State.settleDefer_keeps (s : State) (chip vf : Nat) : (s.settleDefer chip vf).cohorts = s.cohorts ∧ (s.settleDefer chip vf).pins = s.pins
    ∧ (s.settleDefer chip vf).grids = s.grids := by
  unfold State.settleDefer
  split <;> exact ⟨rfl, rfl, rfl⟩

theorem State.closedCohort_spec (x : Cohort) : (s.closedCohort c x).live c = false ∧ ((s.closedCohort c x).cohort c).tiles = []
    ∧ (∀ p ∈ (s.closedCohort c x).pins, p.2.cohort ≠ c) ∧ ((s.closedCohort c x).grid c.chip c.grid).done = (s.grid c.chip c.grid).done + 1 := by
  unfold State.closedCohort
  dsimp only
  have hgrids : (x.tiles.foldl (State.zeroTiles c) s).grids = s.grids := State.foldl_keeps (·.grids) (State.zeroTiles c) (fun _ _ => rfl) ..
  generalize x.tiles.foldl (State.zeroTiles c) s = s1 at hgrids
  obtain ⟨hcohorts, hpins, hgrids'⟩ := State.settleDefer_keeps ((((s1.freeFrames c.toDie x.frames).unpin c).modGrid c.chip c.grid fun g => { g with done := g.done + 1 }).modCohort c
    fun y => { y with ended := true, timers := [], tiles := [], frames := [] }) c.chip x.vf
  refine ⟨?_, ?_, fun p hp => ?_, ?_⟩
  · rw [State.live, hcohorts]
    exact (congrArg (Option.any _) (Tab.get?_put_self ..)).trans rfl
  · rw [State.cohort_congr hcohorts, State.modCohort_eq, State.cohort_setCohort]
  · rw [hpins] at hp
    exact of_decide_eq_true (List.mem_filter.mp hp).2
  · rw [State.grid, hgrids']
    refine (congrArg Grid.done (Tab.getD_put_self ..)).trans ?_
    exact congrArg (fun g => Grid.done (Tab.getD g (c.chip, c.grid) {}) + 1) hgrids

end

theorem State.threadsOf_all {s : State} {c : CohortId} {p : ThreadId → Bool} : (s.threadsOf c).all p = true ↔ ∀ t ∈ s.threads, t.1.cohort = c → p t.1 = true := by
  rw [State.threadsOf, List.all_eq_true]
  constructor
  · exact fun h t ht hc => h t.1 (List.mem_filter.mpr ⟨List.mem_map.mpr ⟨t, ht, rfl⟩, decide_eq_true hc⟩)
  · intro h t ht
    obtain ⟨hin, hc⟩ := List.mem_filter.mp ht
    obtain ⟨e, he, rfl⟩ := List.mem_map.mp hin
    exact h e he (of_decide_eq_true hc)

/-! ## The end of a grid (R325) -/

theorem State.endGrid_keeps (s : State) (chip n : Nat) : (s.endGrid chip n).ops = s.ops ∧ ((s.endGrid chip n).grid chip n).state = .ended := by
  refine ⟨rfl, ?_⟩
  unfold State.endGrid State.setGrid State.grid
  dsimp only
  rw [Tab.getD, Tab.get?_map, Tab.get?_put_self]
  dsimp only [Option.map, Option.getD]
  split <;> rfl

theorem cohortsAndGridsEnd : CohortsAndGridsEnd := by
  refine ⟨fun s c hlive hawake => ⟨?_, fun hall hperf => ?_⟩, fun s chip n hrun hless => ?_, fun s chip n hrun hdone hkill => ?_⟩
  · rintro ⟨t, ht, hc, hne⟩
    rw [exec, execCohortEnd]
    refine congrArg Host.Outcome.next (if_pos ?_)
    have hnot : ((s.threadsOf c).all fun t => (s.thread t).run = .ended) = false :=
      Bool.eq_false_iff.mpr fun h => hne (of_decide_eq_true (State.threadsOf_all.mp h t ht hc))
    rw [hnot, hlive, hawake]
    rfl
  · have hended : ((s.threadsOf c).all fun t => (s.thread t).run = .ended) = true := State.threadsOf_all.mpr fun t ht hc => decide_eq_true (hall t ht hc)
    have hrun : exec (.cohortEnd c) s = .next ((s.dropped c).closedCohort c (s.cohort c)) := by
      rw [exec, execCohortEnd, hlive, hawake, hended, hperf]
      rfl
    obtain ⟨h1, h2, h3, h4⟩ := State.closedCohort_spec (s := s.dropped c) (c := c) (s.cohort c)
    refine ⟨_, hrun, h1, h2, h3, h4.trans ?_⟩
    rw [State.grid, State.dropped_grids]
    rfl
  · rw [exec, execGridEnd]
    exact congrArg Host.Outcome.next (if_pos (by simp [hless]))
  · dsimp only
    intro hcrec hglobal hobj
    have hexec : exec (.gridEnd chip n) s = .next ((s.complete chip (s.grid chip n) (if (s.grid chip n).killed' > 0 then 2 else 0) 0).endGrid chip n) := by
      rw [exec, execGridEnd]
      exact congrArg Host.Outcome.next (if_neg (by simp [hrun, hkill]; omega))
    obtain ⟨hops, hstate⟩ := State.endGrid_keeps (s.complete chip (s.grid chip n) (if (s.grid chip n).killed' > 0 then 2 else 0) 0) chip n
    obtain ⟨hop, -⟩ := State.complete_of_named (s := s) (chip := chip) (g := s.grid chip n) (code := if (s.grid chip n).killed' > 0 then 2 else 0) (reason := 0) hcrec hglobal hobj
    refine ⟨_, _, _, hexec, hstate, by rw [State.op?, hops]; exact hop, rfl, rfl, rfl, rfl, ?_⟩
    have hcode : (if (s.grid chip n).killed' > 0 then 2 else 0) ≤ 2 := by split <;> decide
    generalize (if (s.grid chip n).killed' > 0 then 2 else 0) = code at hcode
    have htag := (s.grid chip n).launch.tag.isLt
    dsimp only [State.recordOf]
    simp only [List.append_assoc]
    obtain ⟨h0, h1, h2, -⟩ := ofBytesLE_record (2 ^ 31 + 0 * 256 + code) (s.grid chip n).launch.tag.toNat (s.grid chip n).placed.length (s.grid chip n).killed'
      (timeBytes (s.grid chip n).accepted ++ ((match (s.grid chip n).started with | some n => timeBytes n | none => bytesLE 16 0)
        ++ timeBytes (if code = 1 then (s.grid chip n).accepted else s.ns chip)))
    exact ⟨h0.trans (by omega), h1.trans (Nat.mod_eq_of_lt htag), h2⟩

/-! ## The dispenser (R329, R330) -/

/-- The four digits of a number in base B. -/
theorem digit_of_horner (B : Nat) (v : Nat → Nat) (h : ∀ i < 4, v i < B) : ∀ i < 4, (v 0 + B * (v 1 + B * (v 2 + B * v 3))) / B ^ i % B = v i := by
  have hmod : ∀ a n, a < B → (a + B * n) % B = a := fun a n ha => by rw [Nat.add_mul_mod_self_left, Nat.mod_eq_of_lt ha]
  have hdiv : ∀ a n, a < B → (a + B * n) / B = n := fun a n ha => by
    rw [Nat.add_mul_div_left _ _ (Nat.zero_lt_of_lt ha), Nat.div_eq_of_lt ha, Nat.zero_add]
  intro i hi
  match i, hi with
  | 0, _ => rw [pow_zero, Nat.div_one, hmod _ _ (h 0 (by decide))]
  | 1, _ => rw [pow_one, hdiv _ _ (h 0 (by decide)), hmod _ _ (h 1 (by decide))]
  | 2, _ => rw [pow_two, ← Nat.div_div_eq_div_mul, hdiv _ _ (h 0 (by decide)), hdiv _ _ (h 1 (by decide)), hmod _ _ (h 2 (by decide))]
  | 3, _ => rw [pow_succ, pow_two, ← Nat.div_div_eq_div_mul, ← Nat.div_div_eq_div_mul, hdiv _ _ (h 0 (by decide)), hdiv _ _ (h 1 (by decide)),
      hdiv _ _ (h 2 (by decide)), Nat.mod_eq_of_lt (h 3 (by decide))]

theorem packed_digits (B : Nat) (v : Nat → Nat) (h : ∀ i < 4, v i < B) : ∀ i < 4,
    (((List.range 4).map fun i => v i * B ^ i).foldl (· + ·) 0) / B ^ i % B = v i := by
  intro i hi
  have hpack : ((List.range 4).map fun i => v i * B ^ i).foldl (· + ·) 0 = v 0 + B * (v 1 + B * (v 2 + B * v 3)) := by
    simp only [List.range_succ, List.range_zero, List.nil_append, List.cons_append, List.map_cons, List.map_nil, List.foldl_cons, List.foldl_nil]
    ring
  rw [hpack]
  exact digit_of_horner B v h i hi

/-- Four words side by side are taken apart again. -/
theorem packed_words (v : Nat → Nat) (h : ∀ i < 4, v i < 2 ^ 32) (i : Nat) (hi : i < 4) :
    (((List.range 4).map fun i => v i * 2 ^ (32 * i)).foldl (· + ·) 0) / 2 ^ (32 * i) % 2 ^ 32 = v i := by
  have hp : ∀ i : Nat, (2 : Nat) ^ (32 * i) = (2 ^ 32) ^ i := fun i => pow_mul 2 32 i
  rw [hp, show (fun i => v i * 2 ^ (32 * i)) = fun i => v i * (2 ^ 32) ^ i from funext fun i => by rw [hp]]
  exact packed_digits (2 ^ 32) v h i hi

/-- What a fetch gives: an index with its coordinates, or all ones (R330). -/
def fetched (x : Launch) (k : Nat) : List Nat :=
  if k < x.tiles' then [(x.tbase.toNat + k) % 2 ^ 32, k % x.tdimx, k / x.tdimx % max 1 x.tdimy, k / (x.tdimx * max 1 x.tdimy)]
  else [0xFFFFFFFF, 0xFFFFFFFF, 0xFFFFFFFF, 0xFFFFFFFF]

theorem fetched_lt (x : Launch) (k : Nat) (hk : k < x.tiles' → k < 2 ^ 32) : ∀ i < 4, (fetched x k).getD i 0 < 2 ^ 32 := by
  intro i hi
  unfold fetched
  split
  · next h =>
    have hk := hk h
    have hle : ∀ a b : Nat, a / b ≤ a := Nat.div_le_self
    have hmod : ∀ a b : Nat, a % b ≤ a := Nat.mod_le
    interval_cases i
    · exact Nat.mod_lt _ (by decide)
    · exact Nat.lt_of_le_of_lt (hmod _ _) hk
    · exact Nat.lt_of_le_of_lt ((hmod _ _).trans (hle _ _)) hk
    · exact Nat.lt_of_le_of_lt (hle _ _) hk
  · interval_cases i <;> decide

section
variable {s : State} {id d : Nat} {o : Op}

/-- A fetch whose turn it is takes the next index, where one is left. -/
theorem exec_dispenserFetch_of_turn (ho : s.op? id = some o) (hb : o.body = .tfetch d false) (hmoves : s.opMoves id o = true)
    (hfirst : ∀ q ∈ s.ops, q.1 < id → q.2.thread ≠ o.thread) :
    let g := s.grid o.thread.cohort.chip o.thread.cohort.grid
    exec (.dispenserFetch id) s = .next (((if g.next < g.launch.tiles' then s.modGrid o.thread.cohort.chip o.thread.cohort.grid fun x => { x with next := g.next + 1 }
      else s).modThread o.thread fun r => r.setRegs d 4 (((List.range 4).map fun i => (fetched g.launch g.next).getD i 0 * 2 ^ (32 * i)).foldl (· + ·) 0)).endOp id) := by
  have hbefore : ∀ f : Nat × Op → Bool, (s.ops.any fun q => q.1 < id && q.2.thread = o.thread && f q) = false := fun f => by
    refine List.any_eq_false.mpr fun q hq => ?_
    by_cases hlt : q.1 < id
    · simp [hfirst q hq hlt]
    · simp [hlt]
  rw [exec, execDispenserFetch, ho]
  dsimp only
  rw [hb]
  dsimp only
  rw [hbefore, hmoves, if_neg (by decide)]
  unfold fetched
  by_cases hk : (s.grid o.thread.cohort.chip o.thread.cohort.grid).next < (s.grid o.thread.cohort.chip o.thread.cohort.grid).launch.tiles'
  · simp only [hk, decide_true, if_true, Bool.not_true, Bool.false_eq_true, if_false]
  · simp only [hk, decide_false, if_false, Bool.not_false, if_true, Bool.false_eq_true]

end

theorem theDispenserGivesEachIndexOnce : TheDispenserGivesEachIndexOnce := by
  refine ⟨fun f => ?_, fun s id d o ho hb hctr hmoves hfirst hd hlen => ?_⟩
  · have hdst : f.dst.toNat = 255 ↔ f.dst = 255 := ⟨fun h => BitVec.eq_of_toNat_eq h, fun h => by rw [h]; rfl⟩
    refine does_of_body (fun s => by rw [exec, execTfetch]) (fun _ _ _ h => h) fun s b t _ => ?_
    dsimp only
    simp only [hdst, decide_eq_true_eq]
  · dsimp only
    generalize hg : s.grid o.thread.cohort.chip o.thread.cohort.grid = g
    have hrun := exec_dispenserFetch_of_turn ho hb hmoves hfirst
    dsimp only at hrun
    rw [hg] at hrun
    generalize htaken : (if g.next < g.launch.tiles' then s.modGrid o.thread.cohort.chip o.thread.cohort.grid fun x => { x with next := g.next + 1 } else s) = s1 at hrun
    have hs1 : s1.mem = s.mem ∧ s1.threads = s.threads := by rw [← htaken]; split <;> exact ⟨rfl, rfl⟩
    generalize hv : ((List.range 4).map fun i => (fetched g.launch g.next).getD i 0 * 2 ^ (32 * i)).foldl (· + ·) 0 = v at hrun
    have hend := State.endOp_endsAs (s1.modThread o.thread fun r => r.setRegs d 4 v) id
    have hthread : s1.thread o.thread = s.thread o.thread := by rw [State.thread, hs1.2, State.thread]
    have hregs : ∀ i < 4, (((s1.modThread o.thread fun r => r.setRegs d 4 v).endOp id).thread o.thread).reg (d + i) = BitVec.ofNat 32 (v / 2 ^ (32 * i)) := fun i hi => by
      rw [Thread.reg_congr (hend.regs o.thread), State.thread_modThread]
      exact (Thread.setRegs_spec (s1.thread o.thread) d v 4 (by omega)).1 i hi (by rw [hthread]; omega) (by omega)
    have hgrid : ((s1.modThread o.thread fun r => r.setRegs d 4 v).endOp id).grid o.thread.cohort.chip o.thread.cohort.grid
        = s1.grid o.thread.cohort.chip o.thread.cohort.grid := by
      rw [State.grid, hend.grids]
      rfl
    have hword : ∀ i < 4, (g.next < g.launch.tiles' → g.next < 2 ^ 32) → BitVec.ofNat 32 (v / 2 ^ (32 * i)) = BitVec.ofNat 32 ((fetched g.launch g.next).getD i 0) := fun i hi hk => by
      refine BitVec.eq_of_toNat_eq ?_
      rw [BitVec.toNat_ofNat, BitVec.toNat_ofNat, ← hv, packed_words (fun i => (fetched g.launch g.next).getD i 0) (fetched_lt _ _ hk) i hi,
        Nat.mod_eq_of_lt (fetched_lt _ _ hk i hi)]
    refine ⟨_, hrun, State.endOp_op?_self .., hend.mem.trans hs1.1, fun hk hsmall => ?_, fun hk => ?_⟩
    · have hin : g.next < g.launch.tiles' := hk
      have hlist : fetched g.launch g.next = _ := if_pos hin
      have hreg : ∀ i < 4, _ := fun i hi => (hregs i hi).trans (hword i hi fun _ => hsmall)
      rw [hlist] at hreg
      rw [hgrid]
      refine ⟨?_, (hreg 0 (by decide)).trans ?_, hreg 1 (by decide), hreg 2 (by decide), hreg 3 (by decide)⟩
      · rw [← htaken, if_pos hin]
        exact congrArg Grid.next (Tab.getD_put_self ..)
      · refine BitVec.eq_of_toNat_eq ?_
        rw [BitVec.toNat_ofNat, BitVec.toNat_add, BitVec.toNat_ofNat]
        simp
    · have hin : ¬ g.next < g.launch.tiles' := hk
      have hlist : fetched g.launch g.next = _ := if_neg hin
      rw [hgrid]
      refine ⟨?_, fun i hi => ?_⟩
      · rw [← htaken, if_neg hin, hg]
      · rw [hregs i hi, hword i hi fun h => absurd h hin, hlist]
        interval_cases i <;> rfl

/-- Settles O37. -/
theorem cohortsArePlacedAndEnd : Obligations.CohortsArePlacedAndEnd :=
  ⟨placedThreadsStartAtTheKernel, cohortsAndGridsEnd, theDispenserGivesEachIndexOnce⟩

end Sys2Proof.Machine
end

section
/-! PROOFS. Moves of extents (O24). -/

namespace Sys2Proof.Machine

/-- A move whose page is translated, and whose one line in DRAM has more errors than its code corrects; the recovery log is on. -/
def carriesAFailedLine : State := { State.reset with
  objects := [((0, 1), { size := 65536, extents := [{ state := .copying, dest := 1 }], pages := [{}] })]
  moves := [(1, { obj := (0, 1), ext := 0, src := 0, dest := 1, walked := [16384] })]
  chips := [(0, { rlctl := 0x80000000 })]
  dies := [(⟨0, 0⟩, { frames := [(0, 0)], lines := [(0, { text := [], mac := 0, bad := true })] })] }

set_option maxRecDepth 65536 in
/-- The failure is found as the line is read, and logged in the host's memory (R367, R412). -/
theorem carriesAFailedLine_logs : ∃ t, exec (.copyDoneCommit 1) carriesAFailedLine = .next t ∧ t.mem = Memory.writeBytes [] (hostAt 0 0)
    (LogEntry.bytes { time := 0, type := 2, die := 0, unit := Config.arrayUnit 0 2, vf := 0, addr := 0 }) := ⟨_, rfl, by rfl⟩

/-- Refutes O24: the lines that a move carries may fail, and the log of the failure is written to the host's memory. -/
theorem not_movesFollowTheirProtocolAndCountersDecay : ¬ Obligations.MovesFollowTheirProtocolAndCountersDecay := by
  rintro ⟨hmoves, -⟩
  obtain ⟨-, -, -, -, hcopied, -⟩ := hmoves carriesAFailedLine 1 _ _ rfl rfl rfl (by decide)
  obtain ⟨t, ht, -, hmem⟩ := hcopied (by decide) (by decide) (by decide)
  obtain ⟨u, hu, hlog⟩ := carriesAFailedLine_logs
  rw [← Host.Outcome.next.inj (ht.symm.trans hu), hmem] at hlog
  have htype : Memory.read [] (hostAt 0 0 + 16) = (2 : Byte) := by
    rw [show ([] : List Host.Cell) = carriesAFailedLine.mem from rfl, hlog, Memory.read_writeBytes _ _ _ _ rfl (by simp [LogEntry.bytes, timeBytes, bytesLE_length])]
    rfl
  exact absurd htype (by decide)

end Sys2Proof.Machine
end

section
/-! PROOFS. The counter trees of memory encryption (R366): what a change of a tree leaves, what its blocks hold afterwards, and that a
block that is committed holds with its parents. -/

namespace Sys2Proof.Machine

/-! ## The cells of packages, functions and grants -/

section
variable {s : State} {c v : Nat}

theorem State.chip_setVf_ne {x : Nat} (f : Vf) (h : x ≠ c) : (s.setVf c v f).chip x = s.chip x := s.chip_setChip_ne _ _ _ h
theorem State.chip_setGrant_ne {x : Nat} (g : Grant) (h : x ≠ c) : (s.setGrant c v g).chip x = s.chip x := s.chip_setChip_ne _ _ _ h

theorem State.vf_congr {u : State} (h : (u.chip c).vfs = (s.chip c).vfs) : u.vf c v = s.vf c v := by rw [State.vf, h, State.vf]
theorem State.grant_congr {u : State} (h : (u.chip c).grants = (s.chip c).grants) : u.grant c v = s.grant c v := by rw [State.grant, h, State.grant]

theorem State.vf_setVf_ne {x w : Nat} (f : Vf) (h : (x, w) ≠ (c, v)) : (s.setVf c v f).vf x w = s.vf x w := by
  by_cases hx : x = c
  · subst hx
    have hw : w ≠ v := fun e => h (by rw [e])
    rw [State.vf, State.setVf, State.chip_setChip, State.vf]
    exact Tab.getD_put_ne _ _ _ _ _ hw
  · exact State.vf_congr (by rw [State.chip_setVf_ne _ hx])

theorem State.grant_setGrant_ne {x w : Nat} (g : Grant) (h : (x, w) ≠ (c, v)) : (s.setGrant c v g).grant x w = s.grant x w := by
  by_cases hx : x = c
  · subst hx
    have hw : w ≠ v := fun e => h (by rw [e])
    rw [State.grant, State.setGrant, State.chip_setChip, State.grant]
    exact Tab.getD_put_ne _ _ _ _ _ hw
  · exact State.grant_congr (by rw [State.chip_setGrant_ne _ hx])
end

/-! ## What a change of counter trees leaves -/

/-- u is s but for the blocks of counter trees: the leaf blocks of dies, the inner nodes of packages, the roots, the heights and the
highest MAJOR of keys. -/
structure State.TreesAs (u s : State) : Prop where
  stores : u.StoresAs s
  die : ∀ d, ∃ counters, u.die d = { s.die d with counters := counters }
  chip : ∀ c, ∃ vfs grants nodes, u.chip c = { s.chip c with vfs := vfs, grants := grants, nodes := nodes }
  vf : ∀ c v, ∃ root height majorMax, u.vf c v = { s.vf c v with root := root, height := height, majorMax := majorMax }
  grant : ∀ c v, ∃ root height, u.grant c v = { s.grant c v with root := root, height := height }

namespace State.TreesAs
variable {s u w : State}

theorem refl (s : State) : s.TreesAs s := ⟨.refl s, fun _ => ⟨_, rfl⟩, fun _ => ⟨_, _, _, rfl⟩, fun _ _ => ⟨_, _, _, rfl⟩, fun _ _ => ⟨_, _, rfl⟩⟩

theorem trans (g : w.TreesAs u) (h : u.TreesAs s) : w.TreesAs s := by
  refine ⟨g.stores.trans h.stores, fun d => ?_, fun c => ?_, fun c v => ?_, fun c v => ?_⟩
  · obtain ⟨_, hg⟩ := g.die d
    obtain ⟨_, hh⟩ := h.die d
    exact ⟨_, hg.trans (by rw [hh])⟩
  · obtain ⟨_, _, _, hg⟩ := g.chip c
    obtain ⟨_, _, _, hh⟩ := h.chip c
    exact ⟨_, _, _, hg.trans (by rw [hh])⟩
  · obtain ⟨_, _, _, hg⟩ := g.vf c v
    obtain ⟨_, _, _, hh⟩ := h.vf c v
    exact ⟨_, _, _, hg.trans (by rw [hh])⟩
  · obtain ⟨_, _, hg⟩ := g.grant c v
    obtain ⟨_, _, hh⟩ := h.grant c v
    exact ⟨_, _, hg.trans (by rw [hh])⟩

theorem foldl {α : Type} (l : List α) (g : State → α → State) (h : ∀ s a, (g s a).TreesAs s) (s : State) : (l.foldl g s).TreesAs s := by
  induction l generalizing s with
  | nil => exact refl s
  | cons a l ih => exact (ih _).trans (h s a)

theorem ite {c : Prop} [Decidable c] (hu : u.TreesAs s) (hw : w.TreesAs s) : (if c then u else w).TreesAs s := by
  split <;> assumption

/-- A change of a function's tree or highest MAJOR. -/
theorem setVf (s : State) (c v : Nat) {f : Vf} (h : ∃ root height majorMax, f = { s.vf c v with root := root, height := height, majorMax := majorMax }) :
    (s.setVf c v f).TreesAs s := by
  refine ⟨⟨_, _, _, rfl⟩, fun _ => ⟨_, rfl⟩, fun x => ?_, fun x w => ?_, fun x w => ⟨(s.grant x w).root, (s.grant x w).height, ?_⟩⟩
  · by_cases hx : x = c
    · subst hx
      exact ⟨_, _, _, by rw [State.setVf, State.chip_setChip]⟩
    · exact ⟨_, _, _, State.chip_setVf_ne _ hx⟩
  · by_cases hx : (x, w) = (c, v)
    · obtain ⟨rfl, rfl⟩ := Prod.mk.inj hx
      rw [State.vf_setVf]
      exact h
    · exact ⟨_, _, _, State.vf_setVf_ne _ hx⟩
  · refine State.grant_congr ?_
    by_cases hx : x = c
    · subst hx
      rw [State.setVf, State.chip_setChip]
    · rw [State.chip_setVf_ne _ hx]

/-- A change of a grant's tree. -/
theorem setGrant (s : State) (c v : Nat) {g : Grant} (h : ∃ root height, g = { s.grant c v with root := root, height := height }) :
    (s.setGrant c v g).TreesAs s := by
  refine ⟨⟨_, _, _, rfl⟩, fun _ => ⟨_, rfl⟩, fun x => ?_, fun x w => ⟨(s.vf x w).root, (s.vf x w).height, (s.vf x w).majorMax, ?_⟩, fun x w => ?_⟩
  · by_cases hx : x = c
    · subst hx
      exact ⟨_, _, _, by rw [State.setGrant, State.chip_setChip]⟩
    · exact ⟨_, _, _, State.chip_setGrant_ne _ hx⟩
  · refine State.vf_congr ?_
    by_cases hx : x = c
    · subst hx
      rw [State.setGrant, State.chip_setChip]
    · rw [State.chip_setGrant_ne _ hx]
  · by_cases hx : (x, w) = (c, v)
    · obtain ⟨rfl, rfl⟩ := Prod.mk.inj hx
      rw [State.grant_setGrant]
      exact h
    · exact ⟨_, _, State.grant_setGrant_ne _ hx⟩

/-- A change of a package's inner nodes. -/
theorem setNodes (s : State) (c : Nat) (nodes : List ((Nat × Nat × Nat) × CounterBlock)) : (s.setChip c { s.chip c with nodes := nodes }).TreesAs s := by
  have hchip : ∀ x, ∃ n, (s.setChip c { s.chip c with nodes := nodes }).chip x = { s.chip x with nodes := n } := fun x => by
    by_cases hx : x = c
    · subst hx
      exact ⟨_, State.chip_setChip ..⟩
    · exact ⟨_, s.chip_setChip_ne _ _ _ hx⟩
  refine ⟨⟨_, _, _, rfl⟩, fun _ => ⟨_, rfl⟩, fun x => ?_, fun x w => ⟨(s.vf x w).root, (s.vf x w).height, (s.vf x w).majorMax, ?_⟩,
    fun x w => ⟨(s.grant x w).root, (s.grant x w).height, ?_⟩⟩
  · obtain ⟨n, hn⟩ := hchip x
    exact ⟨_, _, n, hn⟩
  · obtain ⟨n, hn⟩ := hchip x
    exact State.vf_congr (by rw [hn])
  · obtain ⟨n, hn⟩ := hchip x
    exact State.grant_congr (by rw [hn])

/-- A change of a die's leaf blocks. -/
theorem setCounters (s : State) (d : DieId) (counters : List (Nat × CounterBlock)) : (s.setDie d { s.die d with counters := counters }).TreesAs s := by
  refine ⟨⟨_, _, _, rfl⟩, fun x => ?_, fun _ => ⟨_, _, _, rfl⟩, fun _ _ => ⟨_, _, _, rfl⟩, fun _ _ => ⟨_, _, rfl⟩⟩
  by_cases hx : x = d
  · subst hx
    exact ⟨_, State.die_setDie ..⟩
  · exact ⟨_, s.die_setDie_ne _ _ _ hx⟩

variable (h : u.TreesAs s)
include h
theorem mem : u.mem = s.mem := h.stores.mem
theorem frames (d : DieId) : (u.die d).frames = (s.die d).frames := by obtain ⟨_, e⟩ := h.die d; rw [e]
theorem lines (d : DieId) : (u.die d).lines = (s.die d).lines := by obtain ⟨_, e⟩ := h.die d; rw [e]
theorem l2 (d : DieId) : (u.die d).l2 = (s.die d).l2 := by obtain ⟨_, e⟩ := h.die d; rw [e]
theorem slow (c : Nat) : (u.chip c).slow = (s.chip c).slow := by obtain ⟨_, _, _, e⟩ := h.chip c; rw [e]
theorem ctx (c v : Nat) : (u.vf c v).ctx = (s.vf c v).ctx := by obtain ⟨_, _, _, e⟩ := h.vf c v; rw [e]
theorem ownerKey (c o : Nat) : u.ownerKey c o = s.ownerKey c o := by
  obtain ⟨_, _, _, hv⟩ := h.vf c o
  obtain ⟨_, _, hg⟩ := h.grant c (o - 1024)
  rw [State.ownerKey, hv, hg, State.ownerKey]
theorem treeLevels (c o : Nat) : u.treeLevels c o = s.treeLevels c o := by simp only [State.treeLevels, h.frames]
theorem keyOwner (d : DieId) (frame : Nat) : u.keyOwner d frame = s.keyOwner d frame := by rw [State.keyOwner, h.frames, State.keyOwner]
theorem inTree (c o level i : Nat) : u.inTree c o level i = s.inTree c o level i := by simp only [State.inTree, h.frames]
theorem blockMac (c o level i : Nat) (b p : CounterBlock) : u.blockMac c o level i b p = s.blockMac c o level i b p := by
  rw [State.blockMac, h.ownerKey, State.blockMac]
end State.TreesAs

section
variable (s : State)

theorem State.setRoot_treesAs (chip o : Nat) (b : CounterBlock) : (s.setRoot chip o b).TreesAs s :=
  .ite (.setVf _ _ _ ⟨_, _, _, rfl⟩) (.setGrant _ _ _ ⟨_, _, rfl⟩)

theorem State.setHeight_treesAs (chip o n : Nat) : (s.setHeight chip o n).TreesAs s :=
  .ite (.setVf _ _ _ ⟨_, _, _, rfl⟩) (.setGrant _ _ _ ⟨_, _, rfl⟩)

theorem State.setTreeBlock_treesAs (chip o level i : Nat) (b : CounterBlock) : (s.setTreeBlock chip o level i b).TreesAs s :=
  .ite (.setCounters ..) (.ite (s.setRoot_treesAs ..) (.setNodes ..))

/-- The siblings of block i below a parent whose MAJOR has grown: each that held has its MAC under the parent's new value (R366). -/
def State.remac (chip o level i : Nat) (p q : CounterBlock) : State :=
  if q.major = p.major then s else (List.range 64).foldl (fun s k =>
    let j := i / 64 * 64 + k
    let c := s.treeBlock chip o level j
    if j = i || c = {} || !s.inTree chip o level j || c.mac ≠ s.blockMac chip o level j c p then s
    else s.setTreeBlock chip o level j { c with mac := s.blockMac chip o level j c q }) s

theorem State.remac_treesAs (chip o level i : Nat) (p q : CounterBlock) : (s.remac chip o level i p q).TreesAs s :=
  .ite (.refl s) (.foldl _ _ (fun u _ => .ite (.refl u) (u.setTreeBlock_treesAs ..)) s)

/-- A commit below the root writes its block, the siblings' MACs, and commits the parent. -/
theorem State.commitBlock_succ (chip o n level i : Nat) (b : CounterBlock) :
    s.commitBlock chip o (n + 1) level i b =
      ((s.setTreeBlock chip o level i { b with mac := s.blockMac chip o level i b ((s.treeBlock chip o (level + 1) (i / 64)).bump (i % 64)) }).remac
        chip o level i (s.treeBlock chip o (level + 1) (i / 64)) ((s.treeBlock chip o (level + 1) (i / 64)).bump (i % 64))).commitBlock
        chip o n (level + 1) (i / 64) ((s.treeBlock chip o (level + 1) (i / 64)).bump (i % 64)) := rfl
end

theorem State.commitBlock_treesAs (chip o : Nat) : ∀ (n level i : Nat) (s : State) (b : CounterBlock), (s.commitBlock chip o n level i b).TreesAs s
  | 0, _, _, s, _ => s.setTreeBlock_treesAs ..
  | n + 1, level, i, s, b => by
    rw [State.commitBlock_succ]
    exact (State.commitBlock_treesAs chip o n _ _ _ _).trans ((State.remac_treesAs ..).trans (s.setTreeBlock_treesAs ..))

section
variable (s : State)

theorem State.raiseTree_treesAs (chip o : Nat) : (s.raiseTree chip o).TreesAs s :=
  (State.commitBlock_treesAs ..).trans ((State.setRoot_treesAs ..).trans (s.setHeight_treesAs ..))

theorem State.fitTree_treesAs (chip o : Nat) : (s.fitTree chip o).TreesAs s := by
  refine .ite (.refl s) (.ite (s.setHeight_treesAs ..) (.ite ?_ ?_))
  · exact .foldl _ _ (fun u _ => u.raiseTree_treesAs ..) _
  · exact (State.TreesAs.setNodes ..).trans ((State.setRoot_treesAs ..).trans (s.setHeight_treesAs ..))

/-! ## The height of a tree -/

@[simp] theorem State.treeHeight_setHeight (chip o n : Nat) : (s.setHeight chip o n).treeHeight chip o = n := by
  unfold State.setHeight State.treeHeight
  split
  · rw [State.modVf, State.vf_setVf]
  · rw [State.grant_setGrant]

@[simp] theorem State.treeHeight_setRoot (chip o : Nat) (b : CounterBlock) : (s.setRoot chip o b).treeHeight chip o = s.treeHeight chip o := by
  unfold State.setRoot State.treeHeight
  split
  · rw [State.modVf, State.vf_setVf]
  · rw [State.grant_setGrant]

@[simp] theorem State.treeHeight_setDie (chip o : Nat) (d : DieId) (x : Die) : (s.setDie d x).treeHeight chip o = s.treeHeight chip o := rfl

@[simp] theorem State.treeHeight_setNodes (c chip o : Nat) (nodes : List ((Nat × Nat × Nat) × CounterBlock)) :
    (s.setChip c { s.chip c with nodes := nodes }).treeHeight chip o = s.treeHeight chip o := by
  have hchip : ∃ n, (s.setChip c { s.chip c with nodes := nodes }).chip chip = { s.chip chip with nodes := n } := by
    by_cases hx : chip = c
    · subst hx
      exact ⟨_, State.chip_setChip ..⟩
    · exact ⟨_, s.chip_setChip_ne _ _ _ hx⟩
  obtain ⟨n, hn⟩ := hchip
  rw [State.treeHeight, State.vf_congr (s := s) (by rw [hn]), State.grant_congr (s := s) (by rw [hn]), State.treeHeight]

@[simp] theorem State.treeHeight_setTreeBlock (chip o level i : Nat) (b : CounterBlock) :
    (s.setTreeBlock chip o level i b).treeHeight chip o = s.treeHeight chip o := by
  unfold State.setTreeBlock
  split
  · exact s.treeHeight_setDie ..
  · split
    · exact s.treeHeight_setRoot ..
    · exact s.treeHeight_setNodes ..

@[simp] theorem State.treeHeight_remac (chip o level i : Nat) (p q : CounterBlock) : (s.remac chip o level i p q).treeHeight chip o = s.treeHeight chip o := by
  unfold State.remac
  split
  · rfl
  · refine State.foldl_keeps (·.treeHeight chip o) _ (fun u k => ?_) _ s
    dsimp only
    split
    · rfl
    · exact u.treeHeight_setTreeBlock ..
end

@[simp] theorem State.treeHeight_commitBlock (chip o : Nat) : ∀ (n level i : Nat) (s : State) (b : CounterBlock),
    (s.commitBlock chip o n level i b).treeHeight chip o = s.treeHeight chip o
  | 0, _, _, s, _ => s.treeHeight_setTreeBlock ..
  | n + 1, level, i, s, b => by
    rw [State.commitBlock_succ, State.treeHeight_commitBlock chip o n, State.treeHeight_remac, State.treeHeight_setTreeBlock]

section
variable (s : State)

theorem State.treeHeight_raiseTree (chip o : Nat) : (s.raiseTree chip o).treeHeight chip o = s.treeHeight chip o + 1 := by
  simp only [State.raiseTree, State.treeHeight_commitBlock, State.treeHeight_setRoot, State.treeHeight_setHeight]

theorem State.treeHeight_raise (chip o n : Nat) : ((List.range n).foldl (fun s _ => s.raiseTree chip o) s).treeHeight chip o = s.treeHeight chip o + n := by
  induction n with
  | zero => rfl
  | succ n ih => rw [List.range_succ, List.foldl_append, List.foldl_cons, List.foldl_nil, State.treeHeight_raiseTree, ih, Nat.add_assoc]

/-- A tree that has been fitted has as many levels as its owner's frames ask for. -/
theorem State.treeHeight_fitTree (chip o : Nat) : (s.fitTree chip o).treeHeight chip o = s.treeLevels chip o := by
  unfold State.fitTree
  dsimp only
  split
  · next h => exact h.symm
  · split
    · exact s.treeHeight_setHeight ..
    · split
      · next h =>
        rw [State.treeHeight_raise]
        omega
      · rw [State.modChip, State.treeHeight_setNodes, State.treeHeight_setRoot, State.treeHeight_setHeight]

/-- A tree that fits is left as it is. -/
theorem State.fitTree_of_fits {chip o : Nat} (h : s.treeHeight chip o = s.treeLevels chip o) : s.fitTree chip o = s := if_pos h.symm

theorem State.treeLevels_pos (chip o : Nat) : 0 < s.treeLevels chip o := by
  unfold State.treeLevels
  dsimp only
  cases h : (List.range 6).find? _ with
  | none => simp
  | some n =>
    have := List.find?_some h
    simp only [Bool.and_eq_true, decide_eq_true_eq] at this
    simp only [Option.getD_some]
    omega

/-! ## What a block of a tree is after a change -/

@[simp] theorem State.rootOf_setRoot (chip o : Nat) (b : CounterBlock) : (s.setRoot chip o b).rootOf chip o = b := by
  unfold State.setRoot State.rootOf
  split
  · rw [State.modVf, State.vf_setVf]
  · rw [State.grant_setGrant]

theorem State.treeBlock_setTreeBlock_self (chip o level i : Nat) (b : CounterBlock) : (s.setTreeBlock chip o level i b).treeBlock chip o level i = b := by
  rw [State.treeBlock, State.treeHeight_setTreeBlock]
  unfold State.setTreeBlock
  split
  · rw [State.modDie, State.die_setDie]
    exact Tab.getD_put_self ..
  · split
    · exact s.rootOf_setRoot ..
    · rw [State.modChip, State.chip_setChip]
      exact Tab.getD_put_self ..

/-- A block of the leaves' level lies in the table of its own die. -/
theorem State.treeBlock_leaf (chip o i : Nat) : s.treeBlock chip o 0 i = Tab.getD (s.die ⟨chip, i / 2 ^ 26⟩).counters (i % 2 ^ 26) {} := rfl

theorem State.rootOf_setNodes (c chip o : Nat) (nodes : List ((Nat × Nat × Nat) × CounterBlock)) :
    (s.setChip c { s.chip c with nodes := nodes }).rootOf chip o = s.rootOf chip o := by
  have hchip : ∃ n, (s.setChip c { s.chip c with nodes := nodes }).chip chip = { s.chip chip with nodes := n } := by
    by_cases hx : chip = c
    · subst hx
      exact ⟨_, State.chip_setChip ..⟩
    · exact ⟨_, s.chip_setChip_ne _ _ _ hx⟩
  obtain ⟨n, hn⟩ := hchip
  rw [State.rootOf, State.vf_congr (s := s) (by rw [hn]), State.grant_congr (s := s) (by rw [hn]), State.rootOf]

theorem State.nodes_setRoot (chip o : Nat) (b : CounterBlock) (c : Nat) : ((s.setRoot chip o b).chip c).nodes = (s.chip c).nodes := by
  by_cases hc : c = chip
  · subst hc
    unfold State.setRoot
    split
    · rw [State.modVf, State.setVf, State.chip_setChip]
    · rw [State.setGrant, State.chip_setChip]
  · unfold State.setRoot
    split
    · rw [State.modVf, State.chip_setVf_ne _ hc]
    · rw [State.chip_setGrant_ne _ hc]

/-- A change of one block leaves the blocks of other levels. -/
theorem State.treeBlock_setTreeBlock_level {chip o level i k j : Nat} (b : CounterBlock) (h : k ≠ level) :
    (s.setTreeBlock chip o level i b).treeBlock chip o k j = s.treeBlock chip o k j := by
  have hheight := s.treeHeight_setTreeBlock chip o level i b
  rw [State.treeBlock, hheight]
  unfold State.setTreeBlock State.treeBlock
  by_cases hl : level = 0
  · have hk : k ≠ 0 := hl ▸ h
    rw [if_pos hl, if_neg hk, if_neg hk]
    rfl
  · rw [if_neg hl]
    by_cases hr : level = s.treeHeight chip o
    · rw [if_pos hr]
      by_cases hk : k = 0
      · rw [if_pos hk, if_pos hk]
        unfold State.setRoot
        split <;> rfl
      · rw [if_neg hk, if_neg hk, if_neg (by omega), if_neg (by omega), s.nodes_setRoot]
    · rw [if_neg hr, State.modChip, s.rootOf_setNodes, State.chip_setChip]
      dsimp only
      rw [Tab.getD_put_ne _ _ _ _ _ (fun e => h (Prod.mk.inj (Prod.mk.inj e).2).1)]
      rfl

/-- A change of one block below the root leaves the other blocks of its level. -/
theorem State.treeBlock_setTreeBlock_index {chip o level i j : Nat} (b : CounterBlock) (hr : level ≠ s.treeHeight chip o ∨ level = 0) (h : j ≠ i) :
    (s.setTreeBlock chip o level i b).treeBlock chip o level j = s.treeBlock chip o level j := by
  have hheight := s.treeHeight_setTreeBlock chip o level i b
  rw [State.treeBlock, hheight]
  unfold State.setTreeBlock State.treeBlock
  by_cases hl : level = 0
  · rw [if_pos hl, if_pos hl, if_pos hl, State.modDie]
    by_cases hd : j / 2 ^ 26 = i / 2 ^ 26
    · rw [hd, State.die_setDie]
      exact Tab.getD_put_ne _ _ _ _ _ (fun e => h (by omega))
    · rw [s.die_setDie_ne _ _ _ (fun e => hd (DieId.mk.inj e).2)]
  · have hr' : level ≠ s.treeHeight chip o := hr.resolve_right hl
    rw [if_neg hl, if_neg hl, if_neg hl, if_neg hr', if_neg hr', if_neg hr', State.modChip, State.chip_setChip]
    exact Tab.getD_put_ne _ _ _ _ _ (fun e => h (Prod.mk.inj (Prod.mk.inj e).2).2)

theorem State.treeBlock_remac_level {chip o level i k j : Nat} (p q : CounterBlock) (h : k ≠ level) :
    (s.remac chip o level i p q).treeBlock chip o k j = s.treeBlock chip o k j := by
  unfold State.remac
  split
  · rfl
  · refine State.foldl_keeps (·.treeBlock chip o k j) _ (fun u x => ?_) _ s
    dsimp only
    split
    · rfl
    · exact u.treeBlock_setTreeBlock_level _ h

/-- The new MACs of the siblings leave the block whose commit asks for them. -/
theorem State.treeBlock_remac_self {chip o level i : Nat} (p q : CounterBlock) (hr : level ≠ s.treeHeight chip o ∨ level = 0) :
    (s.remac chip o level i p q).treeBlock chip o level i = s.treeBlock chip o level i := by
  unfold State.remac
  split
  · rfl
  · have hboth : ∀ l : List Nat, ∀ u : State, u.treeHeight chip o = s.treeHeight chip o →
        (l.foldl (fun s k => let j := i / 64 * 64 + k
          let c := s.treeBlock chip o level j
          if j = i || c = {} || !s.inTree chip o level j || c.mac ≠ s.blockMac chip o level j c p then s
          else s.setTreeBlock chip o level j { c with mac := s.blockMac chip o level j c q }) u).treeBlock chip o level i = u.treeBlock chip o level i := by
      intro l
      induction l with
      | nil => exact fun _ _ => rfl
      | cons k l ih =>
        intro u hu
        rw [List.foldl_cons]
        dsimp only
        split
        · exact ih u hu
        · next hne =>
          rw [ih _ ((u.treeHeight_setTreeBlock ..).trans hu)]
          refine u.treeBlock_setTreeBlock_index _ (hu ▸ hr) (fun e => hne ?_)
          simp [← e]
    exact hboth _ s rfl
end

/-! ## A committed block -/

/-- A commit leaves the blocks of the levels below. -/
theorem State.treeBlock_commitBlock_below (chip o k j : Nat) : ∀ (n level i : Nat) (s : State) (b : CounterBlock), k < level →
    (s.commitBlock chip o n level i b).treeBlock chip o k j = s.treeBlock chip o k j
  | 0, level, i, s, b, h => s.treeBlock_setTreeBlock_level b (by omega)
  | n + 1, level, i, s, b, h => by
    rw [State.commitBlock_succ, State.treeBlock_commitBlock_below chip o k j n _ _ _ _ (by omega), State.treeBlock_remac_level _ _ _ (by omega),
      State.treeBlock_setTreeBlock_level _ _ (by omega)]

/-- A committed block holds what was committed, under some MAC. -/
theorem State.treeBlock_commitBlock {chip o n level i : Nat} {s : State} (b : CounterBlock) (h : level + n = s.treeHeight chip o) :
    ∃ mac, (s.commitBlock chip o n level i b).treeBlock chip o level i = { b with mac := mac } := by
  cases n with
  | zero => exact ⟨b.mac, s.treeBlock_setTreeBlock_self ..⟩
  | succ n =>
    refine ⟨s.blockMac chip o level i b ((s.treeBlock chip o (level + 1) (i / 64)).bump (i % 64)), ?_⟩
    rw [State.commitBlock_succ, State.treeBlock_commitBlock_below _ _ _ _ _ _ _ _ _ (by omega),
      State.treeBlock_remac_self _ _ _ (by rw [State.treeHeight_setTreeBlock]; omega), State.treeBlock_setTreeBlock_self]

/-- A MAC is computed from what a block counts, and from what its parent counts. -/
theorem State.blockMac_congr (s : State) (chip o level i : Nat) {b p : CounterBlock} (m n : BitVec 56) :
    s.blockMac chip o level i { b with mac := m } { p with mac := n } = s.blockMac chip o level i b p := rfl

/-- A block that has been committed holds, and so do its parents (R366). -/
theorem State.blockOk_commitBlock {chip o : Nat} : ∀ {n level i : Nat} {s : State} (b : CounterBlock), level + n = s.treeHeight chip o →
    (s.commitBlock chip o n level i b).blockOk chip o n level i = true
  | 0, _, _, _, _, _ => rfl
  | n + 1, level, i, s, b, h => by
    rw [State.commitBlock_succ]
    generalize hp : s.treeBlock chip o (level + 1) (i / 64) = p
    generalize hw : (s.setTreeBlock chip o level i { b with mac := s.blockMac chip o level i b (p.bump (i % 64)) }).remac chip o level i p (p.bump (i % 64)) = w
    have hheight : w.treeHeight chip o = s.treeHeight chip o := by rw [← hw, State.treeHeight_remac, State.treeHeight_setTreeBlock]
    have hwas : w.TreesAs s := hw ▸ (State.remac_treesAs ..).trans (s.setTreeBlock_treesAs ..)
    have hself : w.treeBlock chip o level i = { b with mac := s.blockMac chip o level i b (p.bump (i % 64)) } := by
      rw [← hw, State.treeBlock_remac_self _ _ _ (by rw [State.treeHeight_setTreeBlock]; omega), State.treeBlock_setTreeBlock_self]
    obtain ⟨mac, hparent⟩ := State.treeBlock_commitBlock (n := n) (i := i / 64) (s := w) (p.bump (i % 64)) (show level + 1 + n = w.treeHeight chip o by omega)
    have ih := State.blockOk_commitBlock (n := n) (i := i / 64) (s := w) (p.bump (i % 64)) (show level + 1 + n = w.treeHeight chip o by omega)
    rw [State.blockOk, ih, hparent, State.treeBlock_commitBlock_below _ _ _ _ _ _ _ _ _ (by omega), hself,
      ((State.commitBlock_treesAs ..).trans hwas).blockMac, State.blockMac_congr, Bool.and_true, Bool.or_eq_true]
    exact .inr (decide_eq_true rfl)
end Sys2Proof.Machine
end

section
/-! PROOFS. Keys, clocks and lines of DRAM (O46): a write-back stores its line under the counter value that its block has next, and a
rebuilt block starts above every MAJOR of its key. -/

namespace Sys2Proof.Machine

/-! ## Leaf blocks -/

/-- A leaf block that is not the empty one lies in its die's table. -/
theorem State.leaf_of_treeBlock {s : State} {d : DieId} {block : Nat} {b : CounterBlock} (hb : block < 2 ^ 26)
    (h : s.treeBlock d.chip o 0 (d.die * 2 ^ 26 + block) = b) (hne : b ≠ {}) : Tab.get? (s.die d).counters block = some b := by
  have hd : (d.die * 2 ^ 26 + block) / 2 ^ 26 = d.die := by omega
  have hi : (d.die * 2 ^ 26 + block) % 2 ^ 26 = block := by omega
  rw [State.treeBlock_leaf, hd, hi, Tab.getD] at h
  cases hg : Tab.get? (s.die d).counters block with
  | none =>
    rw [hg] at h
    exact absurd h.symm hne
  | some c =>
    rw [hg] at h
    exact congrArg some h

/-- The leaf block of a die, as the tree names it. -/
theorem State.treeBlock_of_die (s : State) (d : DieId) (o : Nat) {block : Nat} (hb : block < 2 ^ 26) :
    s.treeBlock d.chip o 0 (d.die * 2 ^ 26 + block) = Tab.getD (s.die d).counters block {} := by
  have hd : (d.die * 2 ^ 26 + block) / 2 ^ 26 = d.die := by omega
  have hi : (d.die * 2 ^ 26 + block) % 2 ^ 26 = block := by omega
  rw [State.treeBlock_leaf, hd, hi]

/-! ## The next counter value (R365) -/

theorem CounterBlock.bump_of_low {c : CounterBlock} {j : Nat} (h : c.minors.getD j 0 < 127) :
    c.bump j = { c with minors := c.minors.set j (c.minors.getD j 0 + 1) } := if_neg (Nat.not_le.2 h)

theorem CounterBlock.bump_of_full {c : CounterBlock} {j : Nat} (h : 127 ≤ c.minors.getD j 0) :
    c.bump j = { c with major := c.major + 1, minors := List.replicate 64 0 } := if_pos h

theorem getD_set_self {α : Type} {l : List α} {i : Nat} {a d : α} (h : i < l.length) : (l.set i a).getD i d = a := by
  simp [List.getD, h]

theorem getD_set_ne {α : Type} {l : List α} {i j : Nat} {a d : α} (h : i ≠ j) : (l.set i a).getD j d = l.getD j d := by
  simp [List.getD, List.getElem?_set_ne h]

theorem CounterBlock.minor_of_low {c : CounterBlock} {j : Nat} (hj : j < c.minors.length) (h : c.minors.getD j 0 < 127) :
    (c.bump j).minors.getD j 0 = c.minors.getD j 0 + 1 := by
  rw [CounterBlock.bump_of_low h]
  exact getD_set_self hj

theorem CounterBlock.minor_of_full {c : CounterBlock} {j : Nat} (h : 127 ≤ c.minors.getD j 0) : (c.bump j).minors.getD j 0 = 0 := by
  rw [CounterBlock.bump_of_full h]
  exact getD_replicate_default ..

/-- A counter value that has been raised is not the reset one. -/
theorem CounterBlock.bump_ne {c : CounterBlock} {j : Nat} (hj : j < c.minors.length) (mac : BitVec 56) : ({ c.bump j with mac := mac } : CounterBlock) ≠ {} := by
  intro e
  by_cases h : c.minors.getD j 0 < 127
  · have hm := CounterBlock.minor_of_low hj h
    rw [(CounterBlock.mk.inj e).2.1, getD_replicate_default] at hm
    omega
  · have hm := (CounterBlock.mk.inj e).1
    rw [CounterBlock.bump_of_full (Nat.le_of_not_lt h)] at hm
    exact absurd hm (Nat.succ_ne_zero _)

/-! ## What leaves the tree of a key -/

/-- The state with the same blocks and keys finds the same blocks good. -/
theorem State.blockOk_congr {s u : State} {chip o : Nat} (hb : ∀ level i, u.treeBlock chip o level i = s.treeBlock chip o level i)
    (hk : u.ownerKey chip o = s.ownerKey chip o) : ∀ n level i, u.blockOk chip o n level i = s.blockOk chip o n level i
  | 0, _, _ => rfl
  | n + 1, level, i => by
    have hm : ∀ b p, u.blockMac chip o level i b p = s.blockMac chip o level i b p := fun b p => by rw [State.blockMac, hk, State.blockMac]
    rw [State.blockOk, State.blockOk, hb, hb, State.blockOk_congr hb hk n, hm]

/-- The highest MAJOR of a key is no part of its tree. -/
theorem State.treeBlock_majorMax (s : State) (c v n chip o level i : Nat) :
    (s.setVf c v { s.vf c v with majorMax := n }).treeBlock chip o level i = s.treeBlock chip o level i
    ∧ (s.setVf c v { s.vf c v with majorMax := n }).treeHeight chip o = s.treeHeight chip o := by
  have hvf : ∀ x w, ∃ m, (s.setVf c v { s.vf c v with majorMax := n }).vf x w = { s.vf x w with majorMax := m } := fun x w => by
    by_cases hx : (x, w) = (c, v)
    · obtain ⟨rfl, rfl⟩ := Prod.mk.inj hx
      exact ⟨n, State.vf_setVf ..⟩
    · exact ⟨(s.vf x w).majorMax, State.vf_setVf_ne _ hx⟩
  have hchip : ∀ x, ∃ l, (s.setVf c v { s.vf c v with majorMax := n }).chip x = { s.chip x with vfs := l } := fun x => by
    by_cases hx : x = c
    · subst hx
      exact ⟨_, State.chip_setChip ..⟩
    · exact ⟨_, State.chip_setVf_ne _ hx⟩
  obtain ⟨m, hm⟩ := hvf chip o
  obtain ⟨l, hl⟩ := hchip chip
  have hheight : (s.setVf c v { s.vf c v with majorMax := n }).treeHeight chip o = s.treeHeight chip o := by
    rw [State.treeHeight, hm, State.grant_congr (s := s) (by rw [hl]), State.treeHeight]
  refine ⟨?_, hheight⟩
  have hdie : ∀ x, (s.setVf c v { s.vf c v with majorMax := n }).die x = s.die x := fun _ => rfl
  rw [State.treeBlock, hheight, State.rootOf, hm, State.grant_congr (s := s) (by rw [hl]), hl, hdie, State.treeBlock, State.rootOf]

/-! ## Lines under their pads (R363, R364) -/

theorem linePad_length (key : BitVec 256) (die line major minor : Nat) : (linePad key die line major minor).length = 64 := by
  simp [linePad, Crypt.bytesBE, bytesLE_length, List.length_flatMap]

theorem xorBytes_xorBytes {a b : List Byte} (h : a.length ≤ b.length) : Crypt.xorBytes (Crypt.xorBytes a b) b = a := by
  induction a generalizing b with
  | nil => rfl
  | cons x a ih =>
    cases b with
    | nil => simp at h
    | cons y b =>
      have hx : (x ^^^ y) ^^^ y = x := by rw [BitVec.xor_assoc, BitVec.xor_self, BitVec.xor_zero]
      have ht := ih (b := b) (by simpa using h)
      simp only [Crypt.xorBytes, List.zipWith_cons_cons] at ht ⊢
      rw [hx, ht]

/-- What a line holds once bytes are written back under a counter value. -/
def encrypted (key : BitVec 256) (die line major minor : Nat) (plain : List Byte) : DramLine :=
  { text := Crypt.xorBytes plain (linePad key die line major minor)
    mac := lineMac key die line major minor (Crypt.xorBytes plain (linePad key die line major minor)) }

/-- The lines of a die after one is written back: those of its block are written again where its MAJOR has grown. -/
def rewritten (key : BitVec 256) (die line : Nat) (old new : CounterBlock) (lines : List (Nat × DramLine)) : List (Nat × DramLine) :=
  if new.major = old.major then lines
  else List.map (fun (x : Nat × DramLine) => if x.1 / 64 = line / 64 then (x.1, x.2.reencrypt key die x.1 old new) else x) lines

theorem rewritten_of_same {key : BitVec 256} {die line : Nat} {old new : CounterBlock} {lines : List (Nat × DramLine)} (h : new.major = old.major) :
    rewritten key die line old new lines = lines := if_pos h

/-- The lines of a die after one of them is written back under the value that its block has next. -/
def nextLines (key : BitVec 256) (die line : Nat) (c : CounterBlock) (plain : List Byte) (lines : List (Nat × DramLine)) : List (Nat × DramLine) :=
  Tab.put (rewritten key die line c (c.bump (line % 64)) lines) line
    (encrypted key die line (c.bump (line % 64)).major ((c.bump (line % 64)).minors.getD (line % 64) 0) plain)

/-- A line that is written back under a tree that holds: its block counts on, its line is stored under the new value, the tree holds
again, and nothing else changes. -/
structure State.Stores (u s : State) (d : DieId) (o line : Nat) (c : CounterBlock) (plain : List Byte) : Prop where
  rest : u.TreesAs (s.setDie d { s.die d with lines := nextLines (s.ownerKey d.chip o) d.die line c plain (s.die d).lines })
  leaf : ∃ mac, Tab.get? (u.die d).counters (line / 64) = some { c.bump (line % 64) with mac := mac }
  height : u.treeHeight d.chip o = s.treeLevels d.chip o
  holds : u.blockOk d.chip o (u.treeHeight d.chip o) 0 (d.die * 2 ^ 26 + line / 64) = true

theorem State.TreesAs.setLines {u s : State} (h : u.TreesAs s) (d : DieId) (lines : List (Nat × DramLine)) :
    (u.setDie d { u.die d with lines := lines }).TreesAs (s.setDie d { s.die d with lines := lines }) := by
  obtain ⟨⟨chips, dies, draws, hst⟩, hdie, hchip, hvf, hgrant⟩ := h
  refine ⟨⟨chips, dies.put d { u.die d with lines := lines }, draws, by rw [hst]; rfl⟩, fun x => ?_, hchip, hvf, hgrant⟩
  by_cases hx : x = d
  · subst hx
    obtain ⟨n, hn⟩ := hdie x
    exact ⟨n, by rw [State.die_setDie, State.die_setDie, hn]⟩
  · rw [State.die_setDie_ne _ _ _ _ hx, State.die_setDie_ne _ _ _ _ hx]
    exact hdie x

theorem State.encryptLine_stores {s : State} {d : DieId} {line o : Nat} (plain : List Byte) (hl : line < 2 ^ 32)
    (hf : Tab.get? (s.die d).frames (line / 1024) = some o)
    (hok : (s.fitTree d.chip o).blockOk d.chip o ((s.fitTree d.chip o).treeHeight d.chip o) 0 (d.die * 2 ^ 26 + line / 64) = true)
    (hlen : (Tab.getD ((s.fitTree d.chip o).die d).counters (line / 64) {}).minors.length = 64) :
    (s.encryptLine d line plain).Stores s d o line (Tab.getD ((s.fitTree d.chip o).die d).counters (line / 64) {}) plain := by
  have hb : line / 64 < 2 ^ 26 := by omega
  have hfit : (s.fitTree d.chip o).TreesAs s := s.fitTree_treesAs ..
  have hheight := s.treeHeight_fitTree d.chip o
  have hc := (s.fitTree d.chip o).treeBlock_of_die d o hb
  have hkey := hfit.ownerKey d.chip o
  have hlines := hfit.lines d
  generalize ht : s.fitTree d.chip o = t at *
  generalize hcc : Tab.getD (t.die d).counters (line / 64) {} = c at *
  have hj : line % 64 < c.minors.length := by omega
  generalize hw : t.setDie d { t.die d with lines := nextLines (s.ownerKey d.chip o) d.die line c plain (s.die d).lines } = w
  have hheightw : w.treeHeight d.chip o = s.treeLevels d.chip o := by rw [← hw]; exact hheight
  generalize hv : w.commitBlock d.chip o (t.treeHeight d.chip o) 0 (d.die * 2 ^ 26 + line / 64) (c.bump (line % 64)) = v
  have hheightv : v.treeHeight d.chip o = s.treeLevels d.chip o := by rw [← hv, State.treeHeight_commitBlock, hheightw]
  have hleaf : ∃ mac, Tab.get? (v.die d).counters (line / 64) = some { c.bump (line % 64) with mac := mac } := by
    obtain ⟨mac, hmac⟩ := State.treeBlock_commitBlock (s := w) (n := t.treeHeight d.chip o) (i := d.die * 2 ^ 26 + line / 64) (c.bump (line % 64))
      (show 0 + t.treeHeight d.chip o = w.treeHeight d.chip o by rw [Nat.zero_add, hheight, hheightw])
    rw [hv] at hmac
    exact ⟨mac, State.leaf_of_treeBlock hb hmac (CounterBlock.bump_ne hj mac)⟩
  have hholds : v.blockOk d.chip o (v.treeHeight d.chip o) 0 (d.die * 2 ^ 26 + line / 64) = true := by
    rw [hheightv, ← hheight, ← hv]
    exact State.blockOk_commitBlock _ (by rw [Nat.zero_add, hheight, hheightw])
  have hrest := (hv ▸ State.commitBlock_treesAs .. : v.TreesAs w).trans (hw ▸ hfit.setLines d _)
  have heq : s.encryptLine d line plain = if o < 1024 then v.modVf d.chip o fun x => { x with majorMax := max x.majorMax (c.bump (line % 64)).major } else v := by
    rw [State.encryptLine, hf]
    dsimp only
    rw [ht, hok, hc, hkey]
    simp only [Bool.not_true, Bool.false_eq_true, if_false]
    rw [← hv, ← hw, ← hlines]
    rfl
  rw [heq]
  split
  · have hsame := v.treeBlock_majorMax d.chip o (max (v.vf d.chip o).majorMax (c.bump (line % 64)).major) d.chip o
    have htrees : (v.setVf d.chip o { v.vf d.chip o with majorMax := max (v.vf d.chip o).majorMax (c.bump (line % 64)).major }).TreesAs v :=
      State.TreesAs.setVf _ _ _ ⟨_, _, _, rfl⟩
    rw [State.modVf]
    refine ⟨htrees.trans hrest, hleaf, (hsame 0 0).2.trans hheightv, ?_⟩
    rw [(hsame 0 0).2, State.blockOk_congr (fun level i => (hsame level i).1) (htrees.ownerKey ..)]
    exact hholds
  · exact ⟨hrest, hleaf, hheightv, hholds⟩

/-- A line that is stored under the value of its block decrypts to its bytes. -/
theorem State.decrypted_of_encrypted {u : State} {d : DieId} {line o : Nat} {b : CounterBlock} {plain : List Byte} (hl : line < 2 ^ 32) (hp : plain.length = 64)
    (hf : Tab.get? (u.die d).frames (line / 1024) = some o) (hb : Tab.get? (u.die d).counters (line / 64) = some b)
    (hs : Tab.get? (u.die d).lines line = some (encrypted (u.ownerKey d.chip o) d.die line b.major (b.minors.getD (line % 64) 0) plain)) :
    u.decrypted d line = some plain := by
  have hown : u.keyOwner d (line / 1024) = o := by rw [State.keyOwner, Tab.getD, hf]; rfl
  have hleaf : u.treeBlock d.chip o 0 (d.die * 2 ^ 26 + line / 64) = b := by rw [u.treeBlock_of_die d o (by omega), Tab.getD, hb]; rfl
  rw [State.decrypted, hown, hleaf, hs]
  dsimp only [Option.map_some, encrypted]
  rw [xorBytes_xorBytes (by rw [hp, linePad_length])]

namespace State.Stores
variable {u s : State} {d : DieId} {o line : Nat} {c : CounterBlock} {plain : List Byte} (h : u.Stores s d o line c plain)
include h

theorem mem : u.mem = s.mem := h.rest.mem

theorem frames (x : DieId) : (u.die x).frames = (s.die x).frames := by
  rw [h.rest.frames]
  by_cases hx : x = d
  · rw [hx, State.die_setDie]
  · rw [State.die_setDie_ne _ _ _ _ hx]

theorem l2 : (u.die d).l2 = (s.die d).l2 := by rw [h.rest.l2, State.die_setDie]

theorem lines : (u.die d).lines = nextLines (s.ownerKey d.chip o) d.die line c plain (s.die d).lines := by rw [h.rest.lines, State.die_setDie]

theorem ownerKey : u.ownerKey d.chip o = s.ownerKey d.chip o := by rw [h.rest.ownerKey]; rfl

theorem line_eq : Tab.get? (u.die d).lines line
    = some (encrypted (s.ownerKey d.chip o) d.die line (c.bump (line % 64)).major ((c.bump (line % 64)).minors.getD (line % 64) 0) plain) := by
  rw [h.lines]
  exact Tab.get?_put_self ..

theorem line_other {x : Nat} (hx : x ≠ line) (hm : (c.bump (line % 64)).major = c.major) : Tab.get? (u.die d).lines x = Tab.get? (s.die d).lines x := by
  rw [h.lines, nextLines, rewritten_of_same hm]
  exact Tab.get?_put_ne _ _ _ _ hx
end State.Stores

theorem State.treeLevels_congr {u s : State} {chip o : Nat} (h : ∀ d, (u.die d).frames = (s.die d).frames) : u.treeLevels chip o = s.treeLevels chip o := by
  simp only [State.treeLevels, h]

/-! ## The write-back of a line (R361, R365) -/

/-- The line's half of the L2 line is marked clean. -/
def State.cleaned (s : State) (d : DieId) (k : Nat) : State :=
  s.modDie d fun x => { x with l2 := List.map (fun (e : Nat × Bool) => if e.1 = k then (e.1, false) else e) x.l2 }

theorem dramLineWriteback_of_good {s : State} {d : DieId} {line : Nat}
    (h : if (Tab.get? (s.die d).l2 (line / 2)).isSome then line ∉ (s.die d).l2bad else s.lineOk d line = true) :
    exec (.dramLineWriteback d ⟨line, .none⟩) s = .next (if Tab.getD (s.die d).l2 (line / 2) false then
      if (s.die d).l2bad.contains (line / 2 * 2 + 1 - line % 2) then (s.writeBack d line).cleaned d (line / 2)
      else ((s.writeBack d line).cleaned d (line / 2)).writeBack d (line / 2 * 2 + 1 - line % 2)
      else s.writeBack d line) := by
  have hgood : (if (Tab.get? (s.die d).l2 (line / 2)).isSome then (s.die d).l2bad.contains line else !s.lineOk d line) = false := by
    split at h
    · next hl => rw [if_pos hl]; simpa using h
    · next hl => rw [if_neg hl, h]; rfl
  rw [exec, execDramLineWriteback]
  dsimp only
  rw [hgood, if_neg Bool.false_ne_true]
  rfl

theorem State.cleaned_l2 (s : State) (d : DieId) (k : Nat) (h : (Tab.get? (s.die d).l2 k).isSome) : Tab.get? ((s.cleaned d k).die d).l2 k = some false := by
  have hmap : (fun (e : Nat × Bool) => if e.1 = k then (e.1, false) else e) = fun e => if e.1 = k then (k, (fun _ => false) e.2) else e := by
    funext e
    split
    · next he => rw [he]
    · rfl
  obtain ⟨b, hb⟩ := Option.isSome_iff_exists.1 h
  rw [State.cleaned, State.modDie, State.die_setDie, hmap]
  exact (Tab.get?_map_at (s.die d).l2 k (fun _ => false)).trans (by rw [hb]; rfl)

/-- v is u but for what the L2 holds and the number of draws, as far as counter trees go. -/
structure State.CleansAs (v u : State) : Prop where
  chips : v.chips = u.chips
  die : ∀ x, ∃ l, v.die x = { u.die x with l2 := l }

theorem State.cleaned_cleansAs (s : State) (d : DieId) (k n : Nat) : ({ s.cleaned d k with draws := n } : State).CleansAs s := by
  refine ⟨rfl, fun x => ?_⟩
  by_cases hx : x = d
  · subst hx
    exact ⟨_, State.die_setDie ..⟩
  · exact ⟨_, s.die_setDie_ne _ _ _ hx⟩

namespace State.CleansAs
variable {v u : State} (h : v.CleansAs u)
include h

theorem frames (x : DieId) : (v.die x).frames = (u.die x).frames := by obtain ⟨_, e⟩ := h.die x; rw [e]
theorem counters (x : DieId) : (v.die x).counters = (u.die x).counters := by obtain ⟨_, e⟩ := h.die x; rw [e]
theorem lines (x : DieId) : (v.die x).lines = (u.die x).lines := by obtain ⟨_, e⟩ := h.die x; rw [e]
theorem ownerKey (chip o : Nat) : v.ownerKey chip o = u.ownerKey chip o := by simp only [State.ownerKey, State.vf, State.grant, State.chip, h.chips]
theorem treeHeight (chip o : Nat) : v.treeHeight chip o = u.treeHeight chip o := by simp only [State.treeHeight, State.vf, State.grant, State.chip, h.chips]
theorem treeBlock (chip o level i : Nat) : v.treeBlock chip o level i = u.treeBlock chip o level i := by
  simp only [State.treeBlock, h.counters, h.treeHeight, State.rootOf, State.vf, State.grant, State.chip, h.chips]
theorem blockOk (chip o n level i : Nat) : v.blockOk chip o n level i = u.blockOk chip o n level i :=
  State.blockOk_congr (h.treeBlock chip o) (h.ownerKey chip o) n level i
end State.CleansAs

/-- A line's write-back stores memory's bytes under the next counter value, in every state in which its block holds. -/
theorem State.writeBack_stores {s : State} {d : DieId} {line o : Nat} (hl : line < 2 ^ 32) (hf : Tab.get? (s.die d).frames (line / 1024) = some o)
    (hok : (({ s with draws := s.draws + 1 } : State).fitTree d.chip o).blockOk d.chip o
      ((({ s with draws := s.draws + 1 } : State).fitTree d.chip o).treeHeight d.chip o) 0 (d.die * 2 ^ 26 + line / 64) = true)
    (hlen : (Tab.getD ((({ s with draws := s.draws + 1 } : State).fitTree d.chip o).die d).counters (line / 64) {}).minors.length = 64) :
    ∃ plain, (∀ a, s.lineAddr d line = some a → plain = Memory.readBytes s.mem a 64)
      ∧ (s.writeBack d line).Stores ({ s with draws := s.draws + 1 } : State) d o line
        (Tab.getD ((({ s with draws := s.draws + 1 } : State).fitTree d.chip o).die d).counters (line / 64) {}) plain :=
  ⟨_, fun a ha => by rw [ha], State.encryptLine_stores (s := { s with draws := s.draws + 1 }) _ hl hf hok hlen⟩

/-- What the statement asks of a stored line. -/
def State.holdsLine (u : State) (d : DieId) (line : Nat) (key : BitVec 256) (plain : List Byte) (major minor : Nat) : Prop :=
  u.decrypted d line = some plain ∧ ∃ l, Tab.get? (u.die d).lines line = some l ∧ l.bad = false
    ∧ l.text = Crypt.xorBytes plain (linePad key d.die line major minor) ∧ l.mac = lineMac key d.die line major minor l.text

theorem State.holdsLine_of_encrypted {u : State} {d : DieId} {line o : Nat} {b : CounterBlock} {plain : List Byte} {key : BitVec 256} {major minor : Nat}
    (hl : line < 2 ^ 32) (hp : plain.length = 64) (hf : Tab.get? (u.die d).frames (line / 1024) = some o) (hb : Tab.get? (u.die d).counters (line / 64) = some b)
    (hkey : u.ownerKey d.chip o = key) (hmajor : b.major = major) (hminor : b.minors.getD (line % 64) 0 = minor)
    (hs : Tab.get? (u.die d).lines line = some (encrypted key d.die line major minor plain)) : u.holdsLine d line key plain major minor := by
  subst hkey hmajor hminor
  exact ⟨State.decrypted_of_encrypted hl hp hf hb hs, _, hs, rfl, rfl, rfl⟩

theorem State.CleansAs.holdsLine {v u : State} (h : v.CleansAs u) {d : DieId} {line : Nat} {key : BitVec 256} {plain : List Byte} {major minor : Nat}
    (hu : u.holdsLine d line key plain major minor) : v.holdsLine d line key plain major minor := by
  have hown : ∀ f, v.keyOwner d f = u.keyOwner d f := fun f => by rw [State.keyOwner, h.frames, State.keyOwner]
  rw [State.holdsLine, State.decrypted, h.lines, hown, h.treeBlock, h.ownerKey]
  exact hu

theorem Memory.readBytes_length (m : List Host.Cell) (a : Nat) : ∀ n, (Memory.readBytes m a n).length = n := by
  intro n
  induction n generalizing a with
  | zero => rfl
  | succ n ih => rw [Memory.readBytes, List.length_cons, ih]

section
variable {s : State} {d : DieId} {line vf a : Nat} {c : CounterBlock}

/-- The write-back of a clean line, or of the first half of a dirty one. -/
theorem State.writeBack_holds {plain : List Byte} (hl : line < 2 ^ 32) (hf : Tab.get? (s.die d).frames (line / 1024) = some vf) (hp : plain.length = 64)
    (h : (s.writeBack d line).Stores ({ s with draws := s.draws + 1 } : State) d vf line c plain) :
    (s.writeBack d line).holdsLine d line (s.ownerKey d.chip vf) plain (c.bump (line % 64)).major ((c.bump (line % 64)).minors.getD (line % 64) 0) := by
  obtain ⟨mac, hleaf⟩ := h.leaf
  exact State.holdsLine_of_encrypted hl hp ((congrArg (Tab.get? · _) (h.frames d)).trans hf) hleaf h.ownerKey rfl rfl h.line_eq

theorem CounterBlock.bump_length {j : Nat} (h : c.minors.length = 64) : (c.bump j).minors.length = 64 := by
  unfold CounterBlock.bump
  split
  · exact List.length_replicate
  · rw [List.length_set, h]

/-- Once a line's block has been committed, the other half of its L2 line is written back under the same tree. -/
theorem State.writeBack_other {plain : List Byte} {mac : BitVec 56} {other : Nat} {w : State} (hl : line < 2 ^ 32)
    (hf : Tab.get? (s.die d).frames (line / 1024) = some vf)
    (h : (s.writeBack d line).Stores ({ s with draws := s.draws + 1 } : State) d vf line c plain) (hlen : c.minors.length = 64)
    (hleaf : Tab.get? ((s.writeBack d line).die d).counters (line / 64) = some { c.bump (line % 64) with mac := mac })
    (ho : other / 64 = line / 64) (hw : ({ w with draws := w.draws + 1 } : State).CleansAs (s.writeBack d line)) :
    ∃ bytes, (w.writeBack d other).Stores ({ w with draws := w.draws + 1 } : State) d vf other { c.bump (line % 64) with mac := mac } bytes := by
  have hframe : other / 1024 = line / 1024 := by omega
  have hfits : ({ w with draws := w.draws + 1 } : State).fitTree d.chip vf = { w with draws := w.draws + 1 } := by
    refine State.fitTree_of_fits _ ((hw.treeHeight ..).trans (h.height.trans (State.treeLevels_congr fun x => ?_).symm))
    exact (hw.frames x).trans (h.frames x)
  have hvleaf : Tab.getD (({ w with draws := w.draws + 1 } : State).die d).counters (other / 64) {} = { c.bump (line % 64) with mac := mac } := by
    rw [ho, hw.counters, Tab.getD, hleaf]
    rfl
  obtain ⟨bytes, -, hst⟩ := State.writeBack_stores (s := w) (d := d) (line := other) (o := vf) (by omega)
    (by rw [hframe]; exact (congrArg (Tab.get? · _) ((hw.frames d).trans (h.frames d))).trans hf)
    (by rw [hfits, ho, hw.blockOk, hw.treeHeight]; exact h.holds) (by rw [hfits, hvleaf]; exact CounterBlock.bump_length hlen)
  rw [hfits, hvleaf] at hst
  exact ⟨bytes, hst⟩
end

/-- The write-back of a line that does not fail (R361, R363 to R366). -/
theorem aGoodLineIsStored : ∀ (s : State) (d : DieId) (line vf a : Nat), line < 2 ^ 32 → Tab.get? (s.die d).frames (line / 1024) = some vf →
    s.lineAddr d line = some a → (if (Tab.get? (s.die d).l2 (line / 2)).isSome then line ∉ (s.die d).l2bad else s.lineOk d line = true) →
    let t := ({ s with draws := s.draws + 1 } : State).fitTree d.chip vf
    let c := Tab.getD (t.die d).counters (line / 64) {}
    let n := c.minors.getD (line % 64) 0
    let key := s.ownerKey d.chip vf
    let other := line / 2 * 2 + 1 - line % 2
    let stored := fun (u : State) (major minor : Nat) => u.holdsLine d line key (Memory.readBytes s.mem a 64) major minor
    let writes := fun (good : State → CounterBlock → Prop) => ∃ u b, exec (.dramLineWriteback d ⟨line, .none⟩) s = .next u
      ∧ Tab.get? (u.die d).counters (line / 64) = some b ∧ u.mem = s.mem ∧ good u b
    c.minors.length = 64 → t.blockOk d.chip vf (t.treeHeight d.chip vf) 0 (d.die * 2 ^ 26 + line / 64) = true →
    (Tab.getD (s.die d).l2 (line / 2) false = false →
      (n < 127 → writes fun u b => b.major = c.major ∧ b.minors = c.minors.set (line % 64) (n + 1) ∧ stored u c.major (n + 1))
      ∧ (127 ≤ n → writes fun u b => b.major = c.major + 1 ∧ b.minors = List.replicate 64 0 ∧ stored u (c.major + 1) 0))
    ∧ (Tab.getD (s.die d).l2 (line / 2) false = true → n < 127 → c.minors.getD (other % 64) 0 < 127 →
      writes fun u b => b.major = c.major ∧ stored u c.major (n + 1) ∧ Tab.getD (u.die d).l2 (line / 2) true = false
        ∧ b.minors = if other ∈ (s.die d).l2bad then c.minors.set (line % 64) (n + 1)
                     else (c.minors.set (line % 64) (n + 1)).set (other % 64) (c.minors.getD (other % 64) 0 + 1)) := by
  intro s d line vf a hl hf ha hgood t c n key other stored writes hlen hok
  have hp : (Memory.readBytes s.mem a 64).length = 64 := Memory.readBytes_length ..
  have hj : line % 64 < c.minors.length := by omega
  obtain ⟨plain, hplain, hst⟩ := State.writeBack_stores hl hf hok hlen
  have hstored := State.writeBack_holds hl hf (hplain a ha ▸ hp) hst
  rw [hplain a ha] at hst hstored
  have hexec := dramLineWriteback_of_good hgood
  obtain ⟨mac, hleaf⟩ := hst.leaf
  refine ⟨fun hd => ?_, fun hd hn ho => ?_⟩
  · rw [hd, if_neg Bool.false_ne_true] at hexec
    refine ⟨fun hn => ⟨_, _, hexec, hleaf, hst.mem, ?_⟩, fun hn => ⟨_, _, hexec, hleaf, hst.mem, ?_⟩⟩
    · rw [CounterBlock.minor_of_low hj hn] at hstored
      rw [CounterBlock.bump_of_low hn] at hstored ⊢
      exact ⟨rfl, rfl, hstored⟩
    · rw [CounterBlock.minor_of_full hn] at hstored
      rw [CounterBlock.bump_of_full hn] at hstored ⊢
      exact ⟨rfl, rfl, hstored⟩
  · have hsome : (Tab.get? (s.die d).l2 (line / 2)).isSome := by
      cases hg : Tab.get? (s.die d).l2 (line / 2) with
      | none => rw [Tab.getD, hg] at hd; exact absurd hd (by decide)
      | some b => rfl
    have hclean := State.cleaned_l2 (s.writeBack d line) d (line / 2) (by rw [hst.l2]; exact hsome)
    rw [hd, if_pos rfl] at hexec
    rw [CounterBlock.minor_of_low hj hn] at hstored
    by_cases hb : other ∈ (s.die d).l2bad
    · rw [if_pos (by simpa using hb)] at hexec
      have hwas := (s.writeBack d line).cleaned_cleansAs d (line / 2) ((s.writeBack d line).cleaned d (line / 2)).draws
      refine ⟨_, _, hexec, (congrArg (Tab.get? · _) (hwas.counters d)).trans hleaf, hst.mem, ?_, ?_, by rw [Tab.getD, hclean]; rfl, ?_⟩
      · rw [CounterBlock.bump_of_low hn]
      · rw [CounterBlock.bump_of_low hn] at hstored
        exact hwas.holdsLine hstored
      · rw [if_pos hb, CounterBlock.bump_of_low hn]
    · rw [if_neg (by simpa using hb)] at hexec
      have hne : line % 64 ≠ other % 64 := by omega
      have hoj : other % 64 < c.minors.length := by omega
      obtain ⟨bytes, hto⟩ := State.writeBack_other (w := (s.writeBack d line).cleaned d (line / 2)) hl hf hst hlen hleaf (show other / 64 = line / 64 by omega)
        (State.cleaned_cleansAs ..)
      have hwas := (s.writeBack d line).cleaned_cleansAs d (line / 2) (((s.writeBack d line).cleaned d (line / 2)).draws + 1)
      have hlow : ({ c.bump (line % 64) with mac := mac } : CounterBlock).minors.getD (other % 64) 0 = c.minors.getD (other % 64) 0 := by
        rw [CounterBlock.bump_of_low hn]
        exact getD_set_ne hne
      have hbump : ({ c.bump (line % 64) with mac := mac } : CounterBlock).bump (other % 64)
          = { c with mac := mac, minors := (c.minors.set (line % 64) (n + 1)).set (other % 64) (c.minors.getD (other % 64) 0 + 1) } := by
        rw [CounterBlock.bump_of_low (by rw [hlow]; exact ho), hlow, CounterBlock.bump_of_low hn]
      obtain ⟨mac', hleaf'⟩ := hto.leaf
      rw [hbump, show other / 64 = line / 64 by omega] at hleaf'
      have hminor : ((c.minors.set (line % 64) (n + 1)).set (other % 64) (c.minors.getD (other % 64) 0 + 1)).getD (line % 64) 0 = n + 1 := by
        rw [getD_set_ne hne.symm, getD_set_self hj]
      have hline := (hto.line_other (x := line) (by omega) (by rw [hbump, CounterBlock.bump_of_low hn])).trans ((congrArg (Tab.get? · _) (hwas.lines d)).trans hst.line_eq)
      rw [CounterBlock.minor_of_low hj hn, CounterBlock.bump_of_low hn] at hline
      refine ⟨_, _, hexec, hleaf', hto.mem.trans hst.mem, rfl, ?_, ?_, by rw [if_neg hb]⟩
      · exact State.holdsLine_of_encrypted hl hp ((congrArg (Tab.get? · _) ((hto.frames d).trans ((hwas.frames d).trans (hst.frames d)))).trans hf) hleaf'
          (hto.ownerKey.trans ((hwas.ownerKey ..).trans hst.ownerKey)) rfl hminor hline
      · rw [Tab.getD, hto.l2]
        exact congrArg (Option.getD · true) hclean

/-! ## Lines and blocks that fail (R365 to R367, R412) -/

/-- A line that the L2 does not hold fails with its MAC; one that it holds failed as the L2 took it. -/
theorem aBadLineFails (s : State) (d : DieId) (j line : Nat) (l : DramLine) (hd : s.dramLine (j * 64) = some (d, line)) (hl : Tab.get? (s.die d).lines line = some l) :
    let o := s.keyOwner d (line / 1024)
    let c := s.treeBlock d.chip o 0 (d.die * 2 ^ 26 + line / 64)
    (Tab.get? (s.die d).l2 (line / 2) = none →
      (l.bad = true ∨ l.mac ≠ lineMac (s.ownerKey d.chip o) d.die line c.major (c.minors.getD (line % 64) 0) l.text) →
      s.lineFails j = true ∧ s.readFails (j * 64) 64 = true)
    ∧ ((Tab.get? (s.die d).l2 (line / 2)).isSome = true → (s.lineFails j = true ↔ (j ∈ s.failed ∨ line ∈ (s.die d).l2bad))) := by
  intro o c
  have hne : (s.die d).lines ≠ [] := fun e => by
    rw [e] at hl
    cases hl
  have hfails : s.lineFails j = (s.failed.contains j || (if (Tab.get? (s.die d).l2 (line / 2)).isSome then (s.die d).l2bad.contains line else !s.lineOk d line)) := by
    rw [State.lineFails, hd]
    simp [hne]
  refine ⟨fun hn hbad => ?_, fun hs => ?_⟩
  · have hok : s.lineOk d line = false := by
      rw [State.lineOk, hl]
      dsimp only
      rw [Bool.and_eq_false_iff]
      refine .inl ?_
      rcases hbad with hb | hm
      · rw [hb]
        rfl
      · rw [Bool.and_eq_false_iff]
        exact .inr (decide_eq_false hm)
    have hline : s.lineFails j = true := by
      rw [hfails, hn, hok]
      simp
    refine ⟨hline, ?_⟩
    have hblocks : j ∈ blocksOf (j * 64) 64 := by
      rw [blocksOf, show (j * 64 + 64 + 63) / 64 - j * 64 / 64 = 1 by omega]
      simp
    rw [State.readFails, Bool.and_eq_true]
    exact ⟨by decide, List.any_eq_true.2 ⟨j, hblocks, hline⟩⟩
  · rw [hfails, if_pos hs]
    simp

theorem State.mem_markFailed (s : State) (x l : Nat) (h : x ∈ s.failed ∨ x = l) : x ∈ (s.markFailed l).failed := by
  rw [State.markFailed]
  dsimp only
  split
  · next hc => rcases h with h | rfl; exacts [h, by simpa using hc]
  · rcases h with h | rfl
    · exact List.mem_cons_of_mem _ h
    · exact List.mem_cons_self

theorem State.mem_failed_foldl {x : Nat} (l : List Nat) : ∀ s : State, x ∈ s.failed ∨ x ∈ l → x ∈ (l.foldl State.markFailed s).failed := by
  induction l with
  | nil => exact fun s h => h.resolve_right List.not_mem_nil
  | cons y l ih =>
    intro s h
    refine ih _ ?_
    rcases h with h | h
    · exact .inl (s.mem_markFailed x y (.inl h))
    · rcases List.mem_cons.1 h with rfl | h
      · exact .inl (s.mem_markFailed x x (.inr rfl))
      · exact .inr h

/-- Marking lines failed changes nothing else. -/
theorem State.foldl_markFailed (l : List Nat) : ∀ s : State, ∃ failed, l.foldl State.markFailed s = { s with failed := failed } := by
  induction l with
  | nil => exact fun s => ⟨_, rfl⟩
  | cons y l ih =>
    intro s
    obtain ⟨f, hf⟩ := ih (s.markFailed y)
    exact ⟨f, hf⟩

theorem State.hostWrite_failed (s : State) (c a : Nat) (bs : List Byte) : (s.hostWrite c a bs).failed = s.failed := rfl

theorem State.logEvent_failed (s : State) (c type die unit vf addr : Nat) : (s.logEvent c type die unit vf addr).failed = s.failed := by
  unfold State.logEvent
  dsimp only
  split
  · exact (State.setChip_failed ..).trans (State.hostWrite_failed ..)
  · exact State.setChip_failed ..

theorem State.logEvent_vf (s : State) (c type die unit vf addr v : Nat) : (s.logEvent c type die unit vf addr).vf c v = s.vf c v := by
  obtain ⟨log, prod, drop, h⟩ := s.logEvent_chip c type die unit vf addr
  exact State.vf_congr (by rw [h])

theorem State.logEvent_die (s : State) (c type die unit vf addr : Nat) (d : DieId) : (s.logEvent c type die unit vf addr).die d = s.die d := by
  rw [State.die, (s.logEvent_keeps ..).1, State.die]

/-- A block that does not hold starts above every MAJOR of its key, and its lines have failed (R412). -/
theorem aBadBlockIsRebuilt (s : State) (d : DieId) (block vf : Nat) (hb : block < 2 ^ 26) (hf : Tab.get? (s.die d).frames (block / 16) = some vf) :
    let ok := s.blockOk d.chip vf (s.treeHeight d.chip vf) 0 (d.die * 2 ^ 26 + block)
    (ok = true → exec (.counterRebuild d block) s = .next s)
    ∧ (ok = false → vf < 1024 → ∃ u b, exec (.counterRebuild d block) s = .next u ∧ Tab.get? (u.die d).counters block = some b
      ∧ b.major = (s.vf d.chip vf).majorMax + 1
      ∧ b.minors = List.replicate 64 0 ∧ (u.vf d.chip vf).majorMax = (s.vf d.chip vf).majorMax + 1
      ∧ ∀ i < 64, ∀ a, s.lineAddr d (block * 64 + i) = some a → a / 64 ∈ u.failed) := by
  intro ok
  have hexec : exec (.counterRebuild d block) s = execCounterRebuild d block s := rfl
  rw [execCounterRebuild, hf] at hexec
  dsimp only at hexec
  refine ⟨fun h => by rw [hexec, if_pos h], fun h hvf => ?_⟩
  rw [if_neg (by rw [show s.blockOk d.chip vf (s.treeHeight d.chip vf) 0 (d.die * 2 ^ 26 + block) = false from h]; decide), if_pos hvf] at hexec
  generalize hlines : (List.range 64).filterMap (fun i => (s.lineAddr d (block * 64 + i)).map (· / 64)) = lines at hexec
  obtain ⟨failed, hfold⟩ := State.foldl_markFailed lines s
  have hin := fun x (hx : x ∈ lines) => State.mem_failed_foldl lines s (.inr hx)
  rw [hfold] at hexec hin
  generalize hr : ({ s with failed := failed } : State) = r at hexec hin
  have htop : s.majorTop d vf = (s.vf d.chip vf).majorMax := if_pos hvf
  obtain ⟨mac, hmac⟩ := State.treeBlock_commitBlock (s := r) (chip := d.chip) (o := vf) (level := 0) (n := r.treeHeight d.chip vf)
    (i := d.die * 2 ^ 26 + block) { major := s.majorTop d vf + 1 } (Nat.zero_add _)
  have hleaf := State.leaf_of_treeBlock hb hmac (fun e => absurd (CounterBlock.mk.inj e).1 (Nat.succ_ne_zero _))
  have hwas := State.commitBlock_treesAs d.chip vf (r.treeHeight d.chip vf) 0 (d.die * 2 ^ 26 + block) r { major := s.majorTop d vf + 1 }
  generalize r.commitBlock d.chip vf (r.treeHeight d.chip vf) 0 (d.die * 2 ^ 26 + block) { major := s.majorTop d vf + 1 } = v at hexec hleaf hwas
  refine ⟨_, _, hexec, (congrArg (fun x : Die => Tab.get? x.counters block) (State.logEvent_die ..)).trans hleaf, congrArg (· + 1) htop, rfl, ?_, fun i hi a ha => ?_⟩
  · rw [State.logEvent_vf, State.modVf, State.vf_setVf, htop]
  · obtain ⟨_, _, _, hst⟩ := hwas.stores
    rw [State.logEvent_failed, State.modVf, State.setVf, State.setChip_failed, hst]
    refine hin _ (hlines ▸ List.mem_filterMap.2 ⟨i, List.mem_range.2 hi, ?_⟩)
    rw [ha]
    rfl

theorem linesAreEncryptedUnderFreshCounters : LinesAreEncryptedUnderFreshCounters :=
  ⟨aGoodLineIsStored, aBadLineFails, aBadBlockIsRebuilt⟩

theorem keysAndClocksChange : KeysAndClocksChange := by
  refine ⟨fun s chip port n => ⟨by rw [exec, execPtpMessage, State.modChip], by rw [exec, execMkaMessage, State.modChip]⟩, fun s chip blob => ?_⟩
  rw [exec, execKeyCommand]
  cases blobKey chip blob with
  | none => rfl
  | some k =>
    have hiff : (decide (blobVf blob < 1024) && decide (blobRealm blob = (s.vf chip (blobVf blob)).realm.toNat) && !(s.vf chip (blobVf blob)).enable
        && !s.holdsFrames chip (blobVf blob)) = true ↔ blobVf blob < 1024 ∧ blobRealm blob = (s.vf chip (blobVf blob)).realm.toNat
        ∧ (s.vf chip (blobVf blob)).enable = false ∧ s.holdsFrames chip (blobVf blob) = false := by simp [and_assoc]
    exact congrArg Host.Outcome.next (if_congr hiff rfl rfl)

/-- Settles O46. -/
theorem keysClocksAndEncryptedLines : Obligations.KeysClocksAndEncryptedLines := ⟨keysAndClocksChange, linesAreEncryptedUnderFreshCounters⟩

end Sys2Proof.Machine
end

section
/-! PROOFS. The sums of a block (R135, R136). -/

namespace Sys2Proof.Machine

/-! ## Integer accumulators -/

theorem signed_mul (a b : Int) : (if (decide (a < 0) != decide (b < 0)) = true then -((a.natAbs * b.natAbs : Nat) : Int) else ((a.natAbs * b.natAbs : Nat) : Int)) = a * b := by
  rw [Nat.cast_mul, Int.natCast_natAbs, Int.natCast_natAbs]
  by_cases ha : a < 0 <;> by_cases hb : b < 0
  · simp [ha, hb, abs_of_neg]
  · simp [ha, hb, abs_of_neg, abs_of_nonneg (Int.not_lt.1 hb)]
  · simp [ha, hb, abs_of_neg, abs_of_nonneg (Int.not_lt.1 ha)]
  · simp [ha, hb, abs_of_nonneg (Int.not_lt.1 ha), abs_of_nonneg (Int.not_lt.1 hb)]

/-- What signed products of integers sum to. -/
theorem sum_of_products (f : Val → Int) (hf : ∀ b n e, f (.fin b n e) = if b then -(n : Int) else (n : Int)) : ∀ x y : List Int,
    ((List.zipWith mulVal (x.map fun i => Val.fin (i < 0) i.natAbs 0) (y.map fun i => Val.fin (i < 0) i.natAbs 0)).map f).foldl (· + ·) 0
      = (List.zipWith (· * ·) x y).sum := by
  have hmap : ∀ x y : List Int, (List.zipWith mulVal (x.map fun i => Val.fin (i < 0) i.natAbs 0) (y.map fun i => Val.fin (i < 0) i.natAbs 0)).map f
      = List.zipWith (· * ·) x y := by
    intro x
    induction x with
    | nil => exact fun y => rfl
    | cons a x ih =>
      intro y
      cases y with
      | nil => rfl
      | cons b y => rw [List.map_cons, List.map_cons, List.zipWith_cons_cons, List.map_cons, List.zipWith_cons_cons, ih, mulVal, hf, signed_mul]
  intro x y
  rw [hmap, List.sum_eq_foldl]

/-- An integer accumulator gains the exact sum of the products. -/
theorem accumulate_int (nbv : Nat) (old : Word) (x y : List Int) (c : Option Int) :
    accumulate nbv true old (x.map fun i => Val.fin (i < 0) i.natAbs 0) (y.map fun i => Val.fin (i < 0) i.natAbs 0) c
      = BitVec.ofInt 32 (old.toNat + (List.zipWith (· * ·) x y).sum) := by
  rw [accumulate, if_pos rfl]
  exact congrArg (fun i : Int => BitVec.ofInt 32 (old.toNat + i)) (sum_of_products _ (fun _ _ _ => rfl) x y)

/-! ## The window of a floating block -/

/-- A product that is not zero, as the window takes it. -/
def nonzero : Val → Option (Bool × Nat × Int)
  | .fin b n e => if n = 0 then none else some (b, n, e)
  | _ => none

/-- The window's anchor of a product: the exponent of its first bit. -/
def anchor (p : Bool × Nat × Int) : Int := (Nat.log2 p.2.1 : Int) + p.2.2

/-- A product truncated to multiples of 2^lsb. -/
def truncated (lsb : Int) (p : Bool × Nat × Int) : Int :=
  let v : Nat := if p.2.2 ≥ lsb then p.2.1 * 2 ^ (p.2.2 - lsb).toNat else p.2.1 / 2 ^ (lsb - p.2.2).toNat
  if p.1 then -(v : Int) else (v : Int)

theorem filterMap_nonzero (ps : List Val) (f : Val → Option (Bool × Nat × Int)) (hf : ∀ b n e, f (.fin b n e) = if n = 0 then none else some (b, n, e))
    (hnan : f .nan = none) (hinf : ∀ b, f (.inf b) = none) : ps.filterMap f = ps.filterMap nonzero := by
  have hsame : f = nonzero := funext fun p => by
    cases p with
    | nan => exact hnan
    | inf b => exact hinf b
    | fin b n e => exact hf b n e
  rw [hsame]

theorem windowSum_of_nil {ps : List Val} (h : ps.filterMap nonzero = []) : windowSum ps = (0, 0) := by
  rw [windowSum, filterMap_nonzero ps _ (fun _ _ _ => rfl) rfl (fun _ => rfl), h]

theorem windowSum_of_cons {ps : List Val} {p : Bool × Nat × Int} {rest : List (Bool × Nat × Int)} (h : ps.filterMap nonzero = p :: rest) :
    windowSum ps = (((p :: rest).map (truncated (rest.foldl (fun t p => max t (anchor p)) (anchor p) - 73))).sum,
      rest.foldl (fun t p => max t (anchor p)) (anchor p) - 73) := by
  rw [windowSum, filterMap_nonzero ps _ (fun _ _ _ => rfl) rfl (fun _ => rfl), h, List.sum_eq_foldl]
  rfl

/-- The magnitude of a product. -/
def magnitude (n : Nat) (e : Int) : ℚ := n * 2 ^ e

theorem magnitude_between {n : Nat} (e : Int) (h : n ≠ 0) : (2 : ℚ) ^ ((Nat.log2 n : Int) + e) ≤ magnitude n e ∧ magnitude n e < 2 ^ ((Nat.log2 n : Int) + e + 1) := by
  have h2 : (0 : ℚ) < 2 ^ e := by positivity
  have hlow : ((2 ^ Nat.log2 n : Nat) : ℚ) ≤ n := by exact_mod_cast Nat.log2_self_le h
  have hhigh : (n : ℚ) < ((2 ^ (Nat.log2 n + 1) : Nat) : ℚ) := by exact_mod_cast Nat.lt_log2_self
  push_cast at hlow hhigh
  rw [add_right_comm, zpow_add₀ two_ne_zero, zpow_add₀ two_ne_zero _ e, magnitude]
  constructor
  · rw [zpow_natCast]
    exact mul_le_mul_of_nonneg_right hlow h2.le
  · rw [show ((Nat.log2 n : Int) + 1) = ((Nat.log2 n + 1 : Nat) : Int) from rfl, zpow_natCast]
    exact mul_lt_mul_of_pos_right hhigh h2

/-- Truncation takes the whole multiples of 2^lsb in a magnitude. -/
theorem truncated_between (lsb : Int) (b : Bool) (n : Nat) (e : Int) : ∃ v : Nat, truncated lsb (b, n, e) = (if b then -(v : Int) else v)
    ∧ (v : ℚ) * 2 ^ lsb ≤ magnitude n e ∧ magnitude n e < (v + 1) * 2 ^ lsb := by
  have hpos : (0 : ℚ) < 2 ^ lsb := by positivity
  refine ⟨_, rfl, ?_⟩
  dsimp only
  by_cases he : e ≥ lsb
  · obtain ⟨k, hk⟩ : ∃ k : Nat, e = lsb + k := ⟨(e - lsb).toNat, by omega⟩
    have hm : magnitude n e = ((n * 2 ^ k : Nat) : ℚ) * 2 ^ lsb := by
      rw [magnitude, hk, zpow_add₀ two_ne_zero, zpow_natCast]
      push_cast
      ring
    rw [if_pos he, show (e - lsb).toNat = k by omega, hm]
    exact ⟨le_rfl, mul_lt_mul_of_pos_right (lt_add_one _) hpos⟩
  · obtain ⟨k, hk⟩ : ∃ k : Nat, lsb = e + k := ⟨(lsb - e).toNat, by omega⟩
    have h2 : (0 : ℚ) < 2 ^ e := by positivity
    have hl : (2 : ℚ) ^ lsb = ((2 ^ k : Nat) : ℚ) * 2 ^ e := by
      rw [hk, zpow_add₀ two_ne_zero, zpow_natCast]
      push_cast
      ring
    have hlow : n / 2 ^ k * 2 ^ k ≤ n := Nat.div_mul_le_self ..
    have hhigh : n < (n / 2 ^ k + 1) * 2 ^ k := by
      rw [Nat.mul_comm]
      exact Nat.lt_mul_div_succ n (by positivity)
    rw [if_neg he, show (lsb - e).toNat = k by omega, hl, magnitude, ← mul_assoc, ← mul_assoc]
    exact ⟨mul_le_mul_of_nonneg_right (by exact_mod_cast hlow) h2.le, mul_lt_mul_of_pos_right (by exact_mod_cast hhigh) h2⟩

theorem foldl_max_anchor {top : Int} : ∀ (l : List (Bool × Nat × Int)) (t : Int), t ≤ top → (∀ p ∈ l, anchor p ≤ top) → (t = top ∨ ∃ p ∈ l, anchor p = top) →
    l.foldl (fun t p => max t (anchor p)) t = top
  | [], t, _, _, h => h.resolve_right fun ⟨_, hp, _⟩ => absurd hp List.not_mem_nil
  | p :: l, t, ht, hl, h => by
    rw [List.foldl_cons]
    have hp := hl p List.mem_cons_self
    refine foldl_max_anchor l _ (max_le ht hp) (fun q hq => hl q (List.mem_cons_of_mem _ hq)) ?_
    rcases h with rfl | ⟨q, hq, he⟩
    · exact .inl (max_eq_left hp)
    · rcases List.mem_cons.1 hq with rfl | hq
      · exact .inl (he ▸ max_eq_right (he ▸ ht))
      · exact .inr ⟨q, hq, he⟩

theorem mem_nonzero {ps : List Val} {b : Bool} {n : Nat} {e : Int} : (b, n, e) ∈ ps.filterMap nonzero ↔ .fin b n e ∈ ps ∧ n ≠ 0 := by
  rw [List.mem_filterMap]
  constructor
  · rintro ⟨p, hp, he⟩
    cases p with
    | nan => cases he
    | inf _ => cases he
    | fin b' n' e' =>
      rw [nonzero] at he
      split at he
      · cases he
      · next hn =>
        cases he
        exact ⟨hp, hn⟩
  · rintro ⟨hp, hn⟩
    exact ⟨_, hp, if_neg hn⟩

section
variable {size : Val → ℚ} {low : Val → Bool} (hsize : ∀ b n e, size (.fin b n e) = magnitude n e) (hlow : ∀ b n e, low (.fin b n e) = b) {ps : List Val} {top : Int}

include hsize in
/-- The greatest product that is not zero anchors the window. -/
theorem windowSum_of_top (hfin : ∀ p ∈ ps, ∃ b n e, p = .fin b n e) (hbelow : ∀ p ∈ ps, size p < 2 ^ (top + 1)) (habove : ∃ p ∈ ps, 2 ^ top ≤ size p) :
    windowSum ps = (((ps.filterMap nonzero).map (truncated (top - 73))).sum, top - 73) := by
  have hle : ∀ p ∈ ps.filterMap nonzero, anchor p ≤ top := fun ⟨b, n, e⟩ hp => by
    obtain ⟨hin, hn⟩ := mem_nonzero.1 hp
    have h := (magnitude_between e hn).1.trans_lt (hsize b n e ▸ hbelow _ hin)
    exact Int.lt_add_one_iff.1 ((zpow_lt_zpow_iff_right₀ one_lt_two).1 h)
  have hge : ∃ p ∈ ps.filterMap nonzero, anchor p = top := by
    obtain ⟨p, hp, hs⟩ := habove
    obtain ⟨b, n, e, rfl⟩ := hfin p hp
    rw [hsize] at hs
    have hn : n ≠ 0 := by
      rintro rfl
      have : (0 : ℚ) < 2 ^ top := by positivity
      rw [magnitude, Nat.cast_zero, zero_mul] at hs
      linarith
    have hin := mem_nonzero.2 ⟨hp, hn⟩
    have h := hs.trans_lt (magnitude_between e hn).2
    exact ⟨_, hin, le_antisymm (hle _ hin) (Int.lt_add_one_iff.1 ((zpow_lt_zpow_iff_right₀ one_lt_two).1 h))⟩
  cases hnz : ps.filterMap nonzero with
  | nil =>
    rw [hnz] at hge
    obtain ⟨_, hp, _⟩ := hge
    exact absurd hp List.not_mem_nil
  | cons p rest =>
    rw [hnz] at hle hge
    have htop : rest.foldl (fun t p => max t (anchor p)) (anchor p) = top := by
      refine foldl_max_anchor rest _ (hle p List.mem_cons_self) (fun q hq => hle q (List.mem_cons_of_mem _ hq)) ?_
      obtain ⟨q, hq, he⟩ := hge
      rcases List.mem_cons.1 hq with rfl | hq
      · exact .inl he
      · exact .inr ⟨q, hq, he⟩
    rw [windowSum_of_cons hnz, htop]

include hsize hlow in
/-- The multiple of 2^lsb that the statement names for a product is its truncation. -/
theorem truncated_of_between {lsb : Int} {p : Val} {k : Int} {b : Bool} {n : Nat} {e : Int} (hp : p = .fin b n e) (h1 : (k.natAbs : ℚ) * 2 ^ lsb ≤ size p)
    (h2 : size p < (k.natAbs + 1) * 2 ^ lsb) (hneg : k < 0 → low p = true) (hpos : 0 < k → low p = false) : truncated lsb (b, n, e) = k := by
  subst hp
  rw [hsize] at h1 h2
  rw [hlow] at hneg hpos
  have h0 : (0 : ℚ) < 2 ^ lsb := by positivity
  obtain ⟨v, hv, hv1, hv2⟩ := truncated_between lsb b n e
  have hkv : k.natAbs < v + 1 := by exact_mod_cast lt_of_mul_lt_mul_right (h1.trans_lt hv2) h0.le
  have hvk : v < k.natAbs + 1 := by exact_mod_cast lt_of_mul_lt_mul_right (hv1.trans_lt h2) h0.le
  have heq : v = k.natAbs := by omega
  rw [hv, heq]
  rcases lt_trichotomy k 0 with hk | rfl | hk
  · rw [hneg hk, if_pos rfl]
    omega
  · simp
  · rw [hpos hk, if_neg Bool.false_ne_true]
    omega

include hsize hlow in
theorem sum_truncated {lsb : Int} {ns : List Int} (hfin : ∀ p ∈ ps, ∃ b n e, p = .fin b n e)
    (h : List.Forall₂ (fun p (k : Int) => (k.natAbs : ℚ) * 2 ^ lsb ≤ size p ∧ size p < (k.natAbs + 1) * 2 ^ lsb ∧ (k < 0 → low p = true) ∧ (0 < k → low p = false)) ps ns) :
    ((ps.filterMap nonzero).map (truncated lsb)).sum = ns.sum := by
  induction h with
  | nil => rfl
  | @cons p k ps ns hk _ ih =>
    obtain ⟨b, n, e, rfl⟩ := hfin p List.mem_cons_self
    have htail := ih fun q hq => hfin q (List.mem_cons_of_mem _ hq)
    have hhead := truncated_of_between hsize hlow rfl hk.1 hk.2.1 hk.2.2.1 hk.2.2.2
    rw [List.filterMap_cons, List.sum_cons]
    by_cases hn : n = 0
    · have hzero : truncated lsb (b, n, e) = 0 := by
        subst hn
        simp [truncated]
      rw [show nonzero (.fin b n e) = none from if_pos hn, ← hhead, hzero, zero_add]
      exact htail
    · rw [show nonzero (.fin b n e) = some (b, n, e) from if_neg hn]
      dsimp only
      rw [List.map_cons, List.sum_cons, hhead, htail]
end

/-! ## The sum of a floating block -/

theorem blockSum_of_finite {ps : List Val} {nbv : Nat} {c v e : Int} (hfin : ∀ p ∈ ps, ∃ b n e, p = .fin b n e) (hw : windowSum ps = (v, e)) :
    blockSum nbv ps (some c) = if v = 0 then 0
      else if nbv = 2 then roundFin 0 1 false (v < 0) v.natAbs (e + c) 0
      else convertVal 0 1 false (mulVal (valOf 0 (roundFin 0 2 false (v < 0) v.natAbs e 0)) (.fin false 1 c)) 0 := by
  have hno : ∀ x : Val, (∀ b n e, x ≠ .fin b n e) → ps.any (fun p => p = x) = false := fun x hx => by
    rw [List.any_eq_false]
    intro p hp he
    obtain ⟨b, n, e, rfl⟩ := hfin p hp
    exact hx b n e (of_decide_eq_true he).symm
  have hnan := hno .nan (by simp)
  have hinf := fun b => hno (.inf b) (by simp)
  unfold blockSum
  simp only [hnan, hinf, hw, Bool.and_false, Bool.or_false, Bool.false_eq_true, if_false]

theorem blockSum_of_nan {ps : List Val} {nbv : Nat} {c : Option Int} (h : c = none ∨ .nan ∈ ps ∨ (.inf true ∈ ps ∧ .inf false ∈ ps)) : blockSum nbv ps c = nanOf 0 := by
  unfold blockSum
  cases c with
  | none => rfl
  | some c =>
    dsimp only
    refine if_pos ?_
    simpa using h

theorem blockSum_of_inf {ps : List Val} {nbv : Nat} {c : Option Int} {b : Bool} (hc : c ≠ none) (hn : .nan ∉ ps) (hb : .inf b ∈ ps) (ho : .inf (!b) ∉ ps) :
    blockSum nbv ps c = if b then 0xFF800000 else 0x7F800000 := by
  obtain ⟨c, rfl⟩ := Option.ne_none_iff_exists'.1 hc
  have hany : ∀ x : Val, x ∉ ps → ps.any (fun p => p = x) = false := fun x hx =>
    List.any_eq_false.2 fun p hp he => hx (of_decide_eq_true he ▸ hp)
  have hin : ∀ x : Val, x ∈ ps → ps.any (fun p => p = x) = true := fun x hx => by simpa using hx
  have hnan := hany _ hn
  unfold blockSum
  cases b with
  | true =>
    have htrue := hin _ hb
    have hfalse := hany (.inf false) ho
    simp only [hnan, htrue, hfalse, Bool.and_false, Bool.or_false, Bool.false_eq_true, if_false, if_true]
    decide
  | false =>
    have htrue := hany (.inf true) ho
    have hfalse := hin _ hb
    simp only [hnan, htrue, hfalse, Bool.false_and, Bool.or_false, Bool.false_eq_true, if_false, if_true]
    decide

/-- A block sum that is NaN makes the accumulator NaN. -/
theorem faddBits_nan (x : Nat) : faddBits 0 1 false x (nanOf 0) 0 = 0x7FC00000 := by
  have hv : valOf 0 (nanOf 0) = .nan := by decide
  rw [faddBits, hv]
  cases valOf 0 x <;> rfl

theorem accumulate_float (nbv : Nat) (old : Word) (x y : List Val) (c : Option Int) :
    accumulate nbv false old x y c = BitVec.ofNat 32 (faddBits 0 1 false old.toNat (blockSum nbv (List.zipWith mulVal x y) c) 0) := by
  rw [accumulate, if_neg Bool.false_ne_true]

end Sys2Proof.Machine
end

section
/-! PROOFS. The array's steps (O29): what an engine's access leaves of packages and functions, the block that a step applies, and the
groups that are read again. -/

namespace Sys2Proof.Machine

/-! ## What the use of memory leaves of packages and functions -/

/-- What a step of the array asks of packages and functions: whether a package is slowed, and whether a function's context is there. -/
def State.contexts (s : State) : (Nat → Bool) × (Nat → Nat → CtxState) := (fun c => (s.chip c).slow, fun c v => (s.vf c v).ctx)

section
variable {s u : State}

theorem State.slow_of_contexts (h : u.contexts = s.contexts) (c : Nat) : (u.chip c).slow = (s.chip c).slow := congrFun (Prod.mk.inj h).1 c
theorem State.ctx_of_contexts (h : u.contexts = s.contexts) (c v : Nat) : (u.vf c v).ctx = (s.vf c v).ctx := congrFun (congrFun (Prod.mk.inj h).2 c) v
theorem State.TreesAs.contexts (h : u.TreesAs s) : u.contexts = s.contexts :=
  Prod.ext (funext fun c => h.slow c) (funext fun c => funext fun v => h.ctx c v)
end

section
variable (s : State)

theorem State.setDie_contexts (d : DieId) (x : Die) : (s.setDie d x).contexts = s.contexts := rfl
theorem State.setObj_contexts (k : Nat × Nat) (b : Obj) : (s.setObj k b).contexts = s.contexts := rfl

theorem State.encryptLine_contexts (d : DieId) (line : Nat) (bs : List Byte) : (s.encryptLine d line bs).contexts = s.contexts := by
  unfold State.encryptLine
  split
  · rfl
  · next o _ =>
    have hcommit : ∀ (u : State) x n level i b, ((u.setDie d x).commitBlock d.chip o n level i b).contexts = u.contexts := fun u x n level i b =>
      (State.commitBlock_treesAs ..).contexts
    refine Eq.trans ?_ (s.fitTree_treesAs d.chip o).contexts
    dsimp only
    split
    · rfl
    · split
      · exact (State.TreesAs.setVf _ _ _ ⟨_, _, _, rfl⟩).contexts.trans (hcommit ..)
      · exact hcommit ..

theorem State.writeHalves_contexts (d : DieId) (line : Nat) : (s.writeHalves d line).contexts = s.contexts := by
  refine State.foldl_keeps State.contexts _ (fun u h => ?_) _ s
  split
  · rfl
  · exact State.encryptLine_contexts ..

theorem State.l2Touch_contexts (d : DieId) (line : Nat) (wr : Bool) (whole : List Nat) : (s.l2Touch d line wr whole).contexts = s.contexts := by
  unfold State.l2Touch
  dsimp only
  split
  · rfl
  · split
    · exact State.writeHalves_contexts ..
    · rfl

theorem State.l2Use_contexts (a n : Nat) (wr : Bool) : (s.l2Use a n wr).contexts = s.contexts := by
  refine State.foldl_keeps State.contexts _ (fun u j => ?_) _ s
  split
  · exact u.l2Touch_contexts ..
  · rfl

theorem State.sendFlits_contexts (d : DieId) (h n : Nat) : (s.sendFlits d h n).contexts = s.contexts := by
  unfold State.sendFlits
  split <;> rfl

theorem State.linkFlits_contexts (d : DieId) (p : DWord) (n : Nat) (wr : Bool) : (s.linkFlits d p n wr).contexts = s.contexts := by
  unfold State.linkFlits State.crossLink
  split
  · rfl
  · dsimp only
    split
    · rfl
    · exact (State.sendFlits_contexts ..).trans (State.sendFlits_contexts ..)

theorem State.affinity_contexts (p : DWord) (n chip : Nat) : (s.affinity p n chip).contexts = s.contexts := by
  unfold State.affinity
  split <;> rfl

theorem State.usePages_contexts (p : DWord) (n : Nat) : (s.usePages p n).contexts = s.contexts := by
  unfold State.usePages
  split
  · rfl
  · refine State.foldl_keeps State.contexts _ (fun u j => ?_) _ s
    exact u.setDie_contexts ..

theorem State.engineTally_contexts (t : ThreadId) (p : DWord) (n : Nat) (wr : Bool) : (s.engineTally t p n wr).contexts = s.contexts := by
  unfold State.engineTally
  split
  · rfl
  · split
    · rfl
    · exact (State.usePages_contexts ..).trans ((State.affinity_contexts ..).trans (State.linkFlits_contexts ..))

theorem State.engineCount_contexts (t : ThreadId) (p : DWord) (n : Nat) (wr : Bool) : (s.engineCount t p n wr).contexts = s.contexts := by
  obtain ⟨a, m, h | h⟩ := s.engineCount_eq t p n wr <;> rw [h]
  · exact (State.engineTally_contexts ..).trans (State.l2Use_contexts ..)
  · exact s.engineTally_contexts ..

theorem State.giveUp_contexts (id : Nat) : (s.giveUp id).contexts = s.contexts := by
  unfold State.giveUp State.giveUpBut
  split <;> rfl
end

/-! ## Whether a product may take its tile (R148) -/

/-- The order of a tile's commands is the same in a state with the same operations, cohorts, quadrants and contexts, for a command of the
same tile and slot. -/
theorem State.matMayBegin_congr {s u : State} {id : Nat} {o p : Op} {m n : MatOp} (h : u.MemoryAs s) (hc : u.contexts = s.contexts)
    (ho : p.thread = o.thread) (hm : n.quad = m.quad ∧ n.tile = m.tile ∧ n.code = m.code ∧ n.slot = m.slot) :
    u.matMayBegin id p n = s.matMayBegin id o m := by
  obtain ⟨hq, ht, hcode, hs⟩ := hm
  have hres : ∀ c, u.resident c = s.resident c := fun c => by rw [State.resident, h.cohort, State.ctx_of_contexts hc, State.resident]
  have hout : u.matOutcome p n = s.matOutcome o m := by
    rw [State.matOutcome, State.matOutcome, hs, ho]
    cases m.slot with
    | none => rfl
    | some b => exact congrArg (fun c : Cohort => (c.slots.getD b.1 {}).outcome b.2) (h.cohort _)
  have hbinds : ∀ c x, n.bindsTo c x = m.bindsTo c x := fun c x => by rw [MatOp.bindsTo, MatOp.bindsTo, hs, ht]
  unfold State.matMayBegin
  simp only [h.ops, hres, hq, ht, hcode, ho, hout, hbinds, h.quad]

theorem State.bound_of_tile {s : State} {id : Nat} {o : Op} {m : MatOp} (hs : m.shadow = none) (hslot : m.slot = none) (hb : s.matMayBegin id o m = true) :
    s.bound id o m = some (m, s) := by
  rw [State.bound, hs, State.matOutcome, hslot, if_neg (by decide)]
  dsimp only
  rw [hb, if_pos rfl]

/-! ## The next group of a product (R148, R149) -/

section
variable {s : State} {id g n : Nat} {o o' : Op} {m m' : MatOp} {sh : MatShape}

theorem State.seek_of_active (ha : m.active = true) : s.seek id o m sh (n + 1) = s.setOp id { o with body := .matrix m } := by
  rw [State.seek, ha, Bool.true_or, if_pos rfl]

/-- The first group that is neither finished nor set aside. -/
def MatOp.nextGroup (m : MatOp) (sh : MatShape) : Option Nat :=
  (List.range sh.groups.length).find? fun g => let p := m.groups.getD g {}; !p.fin && !p.aside

variable (ha : m.active = false) (hp : m.pass ≠ 2) (hb : (s.bound id o m).isNone = false)
include ha hp hb

theorem State.seek_of_fault {e : Nat × DWord} (hg : m.nextGroup sh = some g) (hv : s.visit id o m sh g = some (o', m', some e)) :
    s.seek id o m sh (n + 1) = s.endProduct id o' m' (some e) := by
  rw [State.seek, ha, Bool.false_or, if_neg (by simpa using hp), hb, if_neg Bool.false_ne_true, show List.find? _ _ = some g from hg]
  dsimp only
  rw [hv]

theorem State.seek_of_batch (hg : m.nextGroup sh = some g) (hv : s.visit id o m sh g = some (o', m', none)) (ha' : m'.active = true) (hc : m'.code ≠ .mmaq)
    (hb' : ((s.giveUp id).engineCount o'.thread (ptrAdd sh.counts (4 * g)) 4).bound id o' { m' with pass := min m'.pass 1 }
      = some ({ m' with pass := min m'.pass 1 }, (s.giveUp id).engineCount o'.thread (ptrAdd sh.counts (4 * g)) 4)) :
    s.seek id o m sh (n + 2)
      = ((s.giveUp id).engineCount o'.thread (ptrAdd sh.counts (4 * g)) 4).setOp id { o' with body := .matrix { m' with pass := min m'.pass 1 } } := by
  rw [State.seek, ha, Bool.false_or, if_neg (by simpa using hp), hb, if_neg Bool.false_ne_true, show List.find? _ _ = some g from hg]
  dsimp only
  rw [hv]
  dsimp only
  rw [if_neg hc, if_pos ha']
  dsimp only
  rw [if_pos ha', hb']
  exact State.seek_of_active ha'

theorem State.seek_of_passed (hg : m.nextGroup sh = some g) (hv : s.visit id o m sh g = some (o', m', none)) (ha' : m'.active = false) (hc : m'.code ≠ .mmaq) :
    s.seek id o m sh (n + 1) = ((s.giveUp id).engineCount o'.thread (ptrAdd sh.counts (4 * g)) 4).seek id o' m' sh n := by
  rw [State.seek, ha, Bool.false_or, if_neg (by simpa using hp), hb, if_neg Bool.false_ne_true, show List.find? _ _ = some g from hg]
  dsimp only
  rw [hv]
  dsimp only
  have hna : ¬ m'.active = true := by rw [ha']; decide
  rw [if_neg hc, if_neg hna, if_neg hna]

theorem State.seek_of_finished (hg : m.nextGroup sh = none) (hf : m.groups.all (fun p => p.fin) = true) :
    s.seek id o m sh (n + 1) = s.endProduct id o m none := by
  rw [State.seek, ha, Bool.false_or, if_neg (by simpa using hp), hb, if_neg Bool.false_ne_true, show List.find? _ _ = none from hg]
  dsimp only
  rw [if_pos hf]

theorem State.seek_of_waiting (hg : m.nextGroup sh = none) (hf : m.groups.all (fun p => p.fin) = false) (h0 : m.pass ≠ 0) :
    s.seek id o m sh (n + 1) = s.setOp id { o with body := .matrix { m with pass := 2 } } := by
  rw [State.seek, ha, Bool.false_or, if_neg (by simpa using hp), hb, if_neg Bool.false_ne_true, show List.find? _ _ = none from hg]
  dsimp only
  rw [hf, if_neg Bool.false_ne_true, if_neg h0]
end

/-! ## The entry of a group set aside (R148) -/

section
variable {s : State} {id g : Nat} {o : Op} {m : MatOp} {p : GroupProg} {sh : MatShape} {bs : List Byte} {know : List Nat}
  (hr : s.readEntry id o m sh g = (.bytes bs, know)) (hp : m.groups.getD g {} = p)
include hr hp

theorem State.visit_of_fallen (h : ofBytesLE bs % 256 < p.done) :
    s.visit id o m sh g = some ({ o with know := join o.know know }, m, some (5, ptrAdd sh.counts (4 * g))) := by
  rw [State.visit, hr]
  dsimp only
  rw [hp, if_pos h]

theorem State.visit_of_above (h : p.done ≤ ofBytesLE bs % 256) (hc : (sh.groups.getD g default).cap < ofBytesLE bs % 256) :
    s.visit id o m sh g = some ({ o with know := join o.know know }, m, some (6, ptrAdd sh.counts (4 * g))) := by
  rw [State.visit, hr]
  dsimp only
  rw [hp, if_neg (Nat.not_lt.2 h), if_pos hc]

theorem State.visit_of_grown (h : p.done < ofBytesLE bs % 256) (hc : ofBytesLE bs % 256 ≤ (sh.groups.getD g default).cap) :
    s.visit id o m sh g = some ({ o with know := join o.know know },
      { m with active := true, group := g, batch := p.done, bend := ofBytesLE bs % 256, block := 0, row := p.done }, none) := by
  rw [State.visit, hr]
  dsimp only
  rw [hp, if_neg (Nat.not_lt.2 (Nat.le_of_lt h)), if_neg (Nat.not_lt.2 hc), if_pos h]

theorem State.visit_of_same (h : ofBytesLE bs % 256 = p.done) (hc : p.done ≤ (sh.groups.getD g default).cap) :
    s.visit id o m sh g = some ({ o with know := join o.know know },
      { m with groups := m.groups.set g { p with fin := ofBytesLE bs / 2 ^ 31 = 0, aside := ofBytesLE bs / 2 ^ 31 ≠ 0 } }, none) := by
  rw [State.visit, hr]
  dsimp only
  rw [hp, h, if_neg (Nat.lt_irrefl _), if_neg (Nat.not_lt.2 hc), if_neg (Nat.lt_irrefl _)]
end

/-! ## What reading a group again leaves -/

/-- w is s but for one matrix command, its tile's poison, and what engines' accesses and waits change. -/
structure State.Rereads (w s : State) (q : QuadId) (id : Nat) (x : Op) (tile : Nat) (poison : Bool) : Prop where
  op : w.op? id = some x
  others : ∀ i ≠ id, w.op? i = s.op? i
  mem : w.mem = s.mem
  queues : (w.quad q).queues = (s.quad q).queues
  acc : (w.quad q).acc = (s.quad q).acc
  poison : (w.quad q).poison.getD tile false = poison

theorem State.unqueue_memoryAs (u : State) (ids : List Nat) : (u.unqueue ids).MemoryAs u := .ite (.refl u) ⟨_, _, _, _, _, _, _, _, rfl⟩

section
variable {s u : State} (h : u.MemoryAs s) (hm : u.mem = s.mem)
include h hm

theorem State.setOp_rereads (q : QuadId) (id : Nat) (x : Op) (tile : Nat) : (u.setOp id x).Rereads s q id x tile ((s.quad q).poison.getD tile false) := by
  have hq : (u.setOp id x).quad q = s.quad q := h.quad q
  exact ⟨State.op?_setOp .., fun i hi => (Tab.get?_put_ne _ _ _ _ hi).trans (h.op? i), hm, by rw [hq], by rw [hq], by rw [hq]⟩

/-- A product that ends in its own tile poisons it, or clears the poison of one that resumed and did not fail. -/
theorem State.endProduct_rereads {id : Nat} {o : Op} {m : MatOp} {err : Option (Nat × DWord)} (hb : u.bound id o m = some (m, u)) (hs : m.shadow = none)
    (ht : m.tile < (s.quad m.quad).poison.length) :
    (u.endProduct id o m err).Rereads s m.quad id
      { o with body := .matrix { m with ended := true, active := false, err := err, loadA := [], loadB := [] } } m.tile
      (err.isSome || ((s.quad m.quad).poison.getD m.tile false && !m.resume)) := by
  generalize hx : ({ o with body := .matrix { m with ended := true, active := false, err := err, loadA := [], loadB := [] } } : Op) = x
  have hkept : ∀ v : State, v.ops = u.ops → v.mem = u.mem → (v.quad m.quad).queues = (u.quad m.quad).queues → (v.quad m.quad).acc = (u.quad m.quad).acc →
      ((v.unqueue [id]).setOp id x).Rereads s m.quad id x m.tile ((v.quad m.quad).poison.getD m.tile false) := fun v ho hvm hq ha => by
    have hv := v.unqueue_memoryAs [id]
    have hquad : ((v.unqueue [id]).setOp id x).quad m.quad = v.quad m.quad := hv.quad m.quad
    refine ⟨State.op?_setOp .., fun i hi => (State.op?_setOp_ne _ _ _ _ hi).trans ?_, (State.unqueue_mem ..).trans (hvm.trans hm), ?_, ?_, by rw [hquad]⟩
    · rw [hv.op?, State.op?, ho, ← h.op? i, State.op?]
    · rw [hquad, hq, h.quad]
    · rw [hquad, ha, h.quad]
  have hset : ∀ b, (((u.setPoison m b).unqueue [id]).setOp id x).Rereads s m.quad id x m.tile b := fun b => by
    have hv : (u.setPoison m b).quad m.quad = { u.quad m.quad with poison := (u.quad m.quad).poison.set m.tile b } := by
      rw [State.setPoison, hs]
      exact State.quad_setQuad ..
    have hp := hkept (u.setPoison m b) (by rw [State.setPoison, hs]; rfl) (by rw [State.setPoison, hs]; rfl) (by rw [hv]) (by rw [hv])
    rw [hv, h.quad] at hp
    rwa [show ((s.quad m.quad).poison.set m.tile b).getD m.tile false = b from getD_set_self ht] at hp
  rw [State.endProduct, hb]
  dsimp only
  rw [if_neg (by rw [hs]; decide), hx]
  cases err with
  | some e => exact hset true
  | none =>
    rw [Option.isSome_none, Bool.false_or]
    by_cases hr : m.resume = true
    · rw [if_pos hr, hr, Bool.not_true, Bool.and_false]
      exact hset false
    · rw [if_neg hr, Bool.eq_false_iff.2 hr, Bool.not_false, Bool.and_true, ← h.quad]
      exact hkept u rfl rfl rfl rfl
end

/-! ## The head of each queue -/

theorem State.op?_of_headOf {s : State} {q : QuadId} {j id : Nat} {o : Op} {m : MatOp} (h : s.headOf q j = some (id, o, m)) :
    ((s.quad q).queues.getD j []).head? = some id ∧ s.op? id = some o ∧ o.body = .matrix m := by
  obtain ⟨i, hi, hb⟩ := Option.bind_eq_some_iff.1 h
  obtain ⟨p, hp, hm⟩ := Option.bind_eq_some_iff.1 hb
  split at hm
  · next n hn =>
    cases hm
    exact ⟨hi, hp, hn⟩
  · cases hm

theorem State.headOf_of_op? {s : State} {q : QuadId} {j id : Nat} {o : Op} {m : MatOp} (hi : ((s.quad q).queues.getD j []).head? = some id)
    (ho : s.op? id = some o) (hm : o.body = .matrix m) : s.headOf q j = some (id, o, m) := by
  simp only [State.headOf, hi, Option.bind_some, ho, hm]

/-- What a reread does at the head of one queue. -/
def State.rereadHead (q : QuadId) (s : State) (j : Nat) : State :=
  match s.headOf q j with
  | some (id, o, m) =>
    if m.pass ≥ 2 && !m.active && !m.ended && s.matOutcome o m ≠ some false then
      s.seek id o { m with pass := 3, groups := m.groups.map fun p => { p with aside := false } } m.shape seekFuel
    else s
  | none => s

theorem exec_rowCountReread (s : State) (q : QuadId) : exec (.rowCountReread q) s = .next (State.rereadHead q (State.rereadHead q s 0) 1) := rfl

theorem State.rereadHead_of_young {s : State} {q : QuadId} {j : Nat} (h : ∀ x, s.headOf q j = some x → x.2.2.pass < 2) : State.rereadHead q s j = s := by
  unfold State.rereadHead
  split
  · next id o m hh =>
    have hpass : ¬ m.pass ≥ 2 := Nat.not_le.2 (h _ hh)
    rw [decide_eq_false hpass, Bool.false_and, Bool.false_and, Bool.false_and, if_neg Bool.false_ne_true]
  · rfl

section
variable {s : State} {q : QuadId} {j id : Nat} {o : Op} {m : MatOp} (hh : s.headOf q j = some (id, o, m)) (hp : m.pass = 2)
include hh hp

theorem State.rereadHead_of_waiting (ha : m.active = false) (he : m.ended = false) (hs : m.slot = none) :
    State.rereadHead q s j = s.seek id o { m with pass := 3, groups := m.groups.map fun p => { p with aside := false } } m.shape seekFuel := by
  have hout : s.matOutcome o m = some true := by rw [State.matOutcome, hs]
  rw [State.rereadHead, hh]
  dsimp only
  rw [hp, ha, he, hout, if_pos (by decide)]

/-- The command of another queue is not the one that is read again. -/
theorem State.Rereads.young {w : State} {x : Op} {tile k : Nat} {poison : Bool} (hw : w.Rereads s q id x tile poison)
    (hk : ∀ h, s.headOf q k = some h → h.2.2.pass < 2) : ∀ h, w.headOf q k = some h → h.2.2.pass < 2 := by
  rintro ⟨i, p, n⟩ hwh
  obtain ⟨hi, ho, hn⟩ := State.op?_of_headOf hwh
  obtain ⟨-, hid, hm⟩ := State.op?_of_headOf hh
  rw [hw.queues] at hi
  by_cases he : i = id
  · have := hk _ (State.headOf_of_op? hi (he ▸ hid) hm)
    dsimp only at this
    omega
  · exact hk _ (State.headOf_of_op? hi ((hw.others i he).symm.trans ho) hn)

theorem rowCountReread_of_waiting {w : State} {x : Op} {tile : Nat} {poison : Bool} (ha : m.active = false) (he : m.ended = false) (hs : m.slot = none)
    (hj : j < 2) (hk : ∀ h, s.headOf q (1 - j) = some h → h.2.2.pass < 2)
    (hw : s.seek id o { m with pass := 3, groups := m.groups.map fun p => { p with aside := false } } m.shape seekFuel = w) (hr : w.Rereads s q id x tile poison) :
    exec (.rowCountReread q) s = .next w := by
  have hone := (State.rereadHead_of_waiting hh hp ha he hs).trans hw
  rw [exec_rowCountReread]
  interval_cases j
  · rw [hone, State.rereadHead_of_young (hr.young hh hp hk)]
  · rw [State.rereadHead_of_young hk, hone]
end

/-! ## The groups set aside -/

/-- The command as its groups' entries are read again: no group is set aside. -/
def MatOp.again (m : MatOp) : MatOp := { m with pass := 3, groups := m.groups.map fun x => { x with aside := false } }

section
variable {m : MatOp} {sh : MatShape} {g : Nat} {p : GroupProg} (hlen : m.groups.length = sh.groups.length) (hp : m.groups[g]? = some p)
include hlen hp

omit hlen in
theorem MatOp.again_group : m.again.groups.getD g {} = { p with aside := false } := by
  simp [MatOp.again, List.getD, hp]

theorem MatOp.again_next (hf : p.fin = false) (hb : ∀ i x, i < g → m.groups[i]? = some x → x.fin = true) : m.again.nextGroup sh = some g := by
  have hg : g < m.groups.length := (List.getElem?_eq_some_iff.1 hp).1
  refine List.find?_range_eq_some.2 ⟨?_, List.mem_range.2 (by omega), fun i hi => ?_⟩
  · dsimp only
    rw [MatOp.again_group hp, hf]
    rfl
  · obtain ⟨x, hx⟩ : ∃ x, m.groups[i]? = some x := ⟨_, List.getElem?_eq_getElem (by omega)⟩
    dsimp only
    rw [MatOp.again_group hx, hb i x hi hx]
    rfl

/-- Once the last group that was open is settled, none is left to visit. -/
theorem MatOp.again_last (x : GroupProg) (hx : x.fin = true ∨ x.aside = true) (hb : ∀ i x, i < g → m.groups[i]? = some x → x.fin = true)
    (ha : ∀ i x, g < i → m.groups[i]? = some x → x.fin = true) : ({ m.again with groups := m.again.groups.set g x } : MatOp).nextGroup sh = none := by
  have hg : g < m.groups.length := (List.getElem?_eq_some_iff.1 hp).1
  refine List.find?_eq_none.2 fun i hi => ?_
  have hi' : i < m.groups.length := by rw [hlen]; exact List.mem_range.1 hi
  dsimp only
  by_cases he : i = g
  · subst he
    rw [show (m.again.groups.set i x).getD i {} = x from getD_set_self (by simpa [MatOp.again] using hg)]
    rcases hx with hx | hx <;> simp [hx]
  · obtain ⟨y, hy⟩ : ∃ y, m.groups[i]? = some y := ⟨_, List.getElem?_eq_getElem hi'⟩
    have hfin : y.fin = true := by
      rcases Nat.lt_or_gt_of_ne he with h | h
      · exact hb i y h hy
      · exact ha i y h hy
    rw [show (m.again.groups.set g x).getD i {} = m.again.groups.getD i {} from getD_set_ne (Ne.symm he), MatOp.again_group hy, hfin]
    simp

omit hlen in
theorem MatOp.again_all {x : GroupProg} (hb : ∀ i x, i < g → m.groups[i]? = some x → x.fin = true)
    (ha : ∀ i x, g < i → m.groups[i]? = some x → x.fin = true) : (m.again.groups.set g x).all (fun p => p.fin) = x.fin := by
  have hg : g < m.groups.length := (List.getElem?_eq_some_iff.1 hp).1
  cases hx : x.fin with
  | false => exact List.all_eq_false.2 ⟨x, List.mem_set (by simpa [MatOp.again] using hg) _, by simp [hx]⟩
  | true =>
    refine List.all_eq_true.2 fun y hy => ?_
    obtain ⟨i, hi⟩ := List.mem_iff_getElem?.1 hy
    rw [List.getElem?_set] at hi
    split at hi
    · rw [if_pos (by simpa [MatOp.again] using hg)] at hi
      cases hi
      exact hx
    · next hne =>
      obtain ⟨z, hz, rfl⟩ := Option.map_eq_some_iff.1 (List.getElem?_map.symm.trans hi)
      rcases Nat.lt_or_gt_of_ne hne with h | h
      · exact ha i z h hz
      · exact hb i z h hz
end

theorem aGroupSetAsideIsReadAgain : AGroupSetAsideIsReadAgain := by
  intro s q j id g o m p bs know hj hother hh hq htile hcode hpass hact hend hslot hshadow hlen hp hfin hbefore
  dsimp only
  intro hmay hread
  change s.matMayBegin id o m.again = true at hmay
  change s.readEntry id o m.again m.shape g = _ at hread
  have hgroup := MatOp.again_group hp
  have hnext := MatOp.again_next hlen hp hfin hbefore
  have hb : s.bound id o m.again = some (m.again, s) := State.bound_of_tile hshadow hslot hmay
  have hbn : (s.bound id o m.again).isNone = false := by rw [hb]; rfl
  have hmmag : m.again.code ≠ .mmaq := by rw [show m.again.code = m.code from rfl, hcode]; decide
  have hself : s.MemoryAs s := .refl s
  have hinactive : m.again.active = false := hact
  have hthree : m.again.pass ≠ 2 := by rw [show m.again.pass = 3 from rfl]; decide
  -- in the state in which the entry has been counted, the command may still take its tile
  have huas : ((s.giveUp id).engineCount o.thread (ptrAdd m.shape.counts (4 * g)) 4).MemoryAs s := (State.engineCount_memoryAs ..).trans (s.giveUp_memoryAs id)
  have hum : ((s.giveUp id).engineCount o.thread (ptrAdd m.shape.counts (4 * g)) 4).mem = s.mem := by rw [State.engineCount_mem, State.giveUp_mem]
  have huc : ((s.giveUp id).engineCount o.thread (ptrAdd m.shape.counts (4 * g)) 4).contexts = s.contexts := by rw [State.engineCount_contexts, State.giveUp_contexts]
  have hbound : ∀ (p : Op) (n : MatOp), p.thread = o.thread → n.quad = m.quad ∧ n.tile = m.tile ∧ n.code = m.code ∧ n.slot = m.slot → n.shadow = none →
      ((s.giveUp id).engineCount o.thread (ptrAdd m.shape.counts (4 * g)) 4).bound id p n
        = some (n, (s.giveUp id).engineCount o.thread (ptrAdd m.shape.counts (4 * g)) 4) := fun p n hp hn hns =>
    State.bound_of_tile hns (hn.2.2.2.trans hslot) ((State.matMayBegin_congr (m := m.again) huas huc hp hn).trans hmay)
  subst hq
  have hbecomes : ∀ {w : State} {x : Op} {b : Bool}, s.seek id o m.again m.shape seekFuel = w → w.Rereads s m.quad id x m.tile b →
      ∃ u, exec (.rowCountReread m.quad) s = .next u ∧ u.op? id = some x ∧ u.mem = s.mem ∧ (u.quad m.quad).acc = (s.quad m.quad).acc
        ∧ (u.quad m.quad).poison.getD m.tile false = b := fun {w x b} he hr =>
    ⟨w, rowCountReread_of_waiting hh hpass hact hend hslot hj hother he hr, hr.op, hr.mem, hr.acc, hr.poison⟩
  refine ⟨fun hlow hcap => ?_, fun hlow => ?_, fun hlow hcap => ?_, fun hsame hcap hclosed hlast => ?_, fun hsame hcap hopen hlast => ?_⟩
  · exact hbecomes (State.seek_of_batch hinactive hthree hbn hnext (State.visit_of_grown hread hgroup hlow hcap) rfl hmmag (hbound _ _ rfl ⟨rfl, rfl, rfl, rfl⟩ hshadow))
      (State.setOp_rereads huas hum ..)
  · exact hbecomes (State.seek_of_fault hinactive hthree hbn hnext (State.visit_of_fallen hread hgroup hlow))
      (State.endProduct_rereads hself rfl (State.bound_of_tile hshadow hslot ((State.matMayBegin_congr (m := m.again) hself rfl rfl ⟨rfl, rfl, rfl, rfl⟩).trans hmay)) hshadow htile)
  · exact hbecomes (State.seek_of_fault hinactive hthree hbn hnext (State.visit_of_above hread hgroup hlow hcap))
      (State.endProduct_rereads hself rfl (State.bound_of_tile hshadow hslot ((State.matMayBegin_congr (m := m.again) hself rfl rfl ⟨rfl, rfl, rfl, rfl⟩).trans hmay)) hshadow htile)
  · have hv := State.visit_of_same hread hgroup hsame hcap
    rw [decide_eq_true (Nat.div_eq_of_lt hclosed), decide_eq_false (not_not.2 (Nat.div_eq_of_lt hclosed))] at hv
    have hbound' := hbound { o with know := join o.know know } { m.again with groups := m.again.groups.set g { p with fin := true, aside := false } } rfl
      ⟨rfl, rfl, rfl, rfl⟩ hshadow
    refine hbecomes ((State.seek_of_passed hinactive hthree hbn hnext hv hinactive hmmag).trans
      (State.seek_of_finished (m := { m.again with groups := m.again.groups.set g { p with fin := true, aside := false } }) hinactive hthree (by rw [hbound']; rfl) (MatOp.again_last hlen hp _ (.inl rfl) hbefore hlast) (MatOp.again_all hp hbefore hlast)))
      (State.endProduct_rereads huas hum hbound' hshadow htile)
  · have hpos : ofBytesLE bs / 2 ^ 31 ≠ 0 := by omega
    have hv := State.visit_of_same hread hgroup hsame hcap
    rw [decide_eq_false hpos, decide_eq_true hpos] at hv
    have hbound' := hbound { o with know := join o.know know } { m.again with groups := m.again.groups.set g { p with fin := false, aside := true } } rfl
      ⟨rfl, rfl, rfl, rfl⟩ hshadow
    exact hbecomes ((State.seek_of_passed hinactive hthree hbn hnext hv hinactive hmmag).trans
      (State.seek_of_waiting (m := { m.again with groups := m.again.groups.set g { p with fin := false, aside := true } }) hinactive hthree (by rw [hbound']; rfl) (MatOp.again_last hlen hp _ (.inr rfl) hbefore hlast) (MatOp.again_all hp hbefore hlast)
        (by rw [show m.again.pass = 3 from rfl]; decide)))
      (State.setOp_rereads huas hum ..)

/-! ## What a product leaves of tiles (R148, R152) -/

/-- u's tiles and the times of its steps are those of s, and so are the data of its shadows where the flag asks for it. -/
structure State.TilesAs (u s : State) (shadows : Bool) : Prop where
  acc : ∀ q, (u.quad q).acc = (s.quad q).acc
  lastStep : ∀ q, (u.quad q).lastStep = (s.quad q).lastStep
  data : shadows = true → ∀ q, (u.quad q).shadows.map (·.data) = (s.quad q).shadows.map (·.data)

namespace State.TilesAs
variable {s u w : State} {b : Bool}

theorem of_quads (h : ∀ q, u.quad q = s.quad q) : u.TilesAs s b := ⟨fun q => by rw [h], fun q => by rw [h], fun _ q => by rw [h]⟩

theorem trans (g : w.TilesAs u b) (h : u.TilesAs s b) : w.TilesAs s b :=
  ⟨fun q => (g.acc q).trans (h.acc q), fun q => (g.lastStep q).trans (h.lastStep q), fun hb q => (g.data hb q).trans (h.data hb q)⟩

theorem mono {c : Bool} (h : u.TilesAs s b) (hc : c = true → b = true) : u.TilesAs s c := ⟨h.acc, h.lastStep, fun he => h.data (hc he)⟩

theorem ite {c : Prop} [Decidable c] (hu : u.TilesAs s b) (hw : w.TilesAs s b) : (if c then u else w).TilesAs s b := by split <;> assumption

theorem modQuad (s : State) (q : QuadId) {f : Quad → Quad} (ha : (f (s.quad q)).acc = (s.quad q).acc) (hl : (f (s.quad q)).lastStep = (s.quad q).lastStep)
    (hd : b = true → (f (s.quad q)).shadows.map (·.data) = (s.quad q).shadows.map (·.data)) : (s.modQuad q f).TilesAs s b := by
  have hq : ∀ {α : Type} (g : Quad → α), g (f (s.quad q)) = g (s.quad q) → ∀ x, g ((s.modQuad q f).quad x) = g (s.quad x) := fun g hg x => by
    by_cases hx : x = q
    · rw [hx, State.modQuad, State.quad_setQuad, hg]
    · rw [State.modQuad, State.quad_setQuad_ne _ _ _ _ hx]
  exact ⟨hq Quad.acc ha, hq Quad.lastStep hl, fun hb => hq (fun x => x.shadows.map (·.data)) (hd hb)⟩

theorem modShadow (s : State) (q : QuadId) (k : Nat) {f : Shadow → Shadow} (hd : b = true → ∀ x, (f x).data = x.data) : (s.modShadow q k f).TilesAs s b := by
  refine modQuad s q rfl rfl fun hb => ?_
  dsimp only
  rw [List.map_set, hd hb]
  refine List.ext_getElem? fun i => ?_
  rw [List.getElem?_set]
  split
  · next he =>
    subst he
    split
    · next hk => rw [List.getElem?_eq_getElem hk, List.getElem_map, List.getD_eq_getElem _ _ (by simpa using hk)]
    · next hk => rw [List.getElem?_eq_none (Nat.le_of_not_lt hk)]
  · rfl

/-- The target of a command: its tile, or its shadow. -/
theorem target (h : u.TilesAs s m.shadow.isSome) : u.target m = s.target m := by
  cases hs : m.shadow with
  | none => simp only [State.target, hs, h.acc]
  | some k =>
    have hget : ∀ l : List Shadow, (l.getD k {}).data = (l.map (·.data)).getD k [] := fun l => by
      simp only [List.getD, List.getElem?_map]
      cases l[k]? <;> rfl
    simp only [State.target, hs, hget, h.data (by rw [hs]; rfl)]
end State.TilesAs

section
variable {s : State} {id : Nat} {o : Op} {m : MatOp}

theorem State.setPoison_tilesAs (m : MatOp) (v b : Bool) : (s.setPoison m v).TilesAs s b := by
  unfold State.setPoison
  split
  · exact .modShadow _ _ _ fun _ _ => rfl
  · exact .modQuad _ _ rfl rfl fun _ => rfl

theorem State.dequeue_tilesAs (id : Nat) (m : MatOp) (b : Bool) : (s.dequeue id m).TilesAs s b := .modQuad _ _ rfl rfl fun _ => rfl

/-- A command that has a shadow keeps it; one that binds a shadow takes no data from the others' tiles. -/
theorem State.bound_tilesAs {m' : MatOp} {s' : State} (h : s.bound id o m = some (m', s')) : s'.TilesAs s m.shadow.isSome ∧ (m.shadow.isSome → m'.shadow = m.shadow) := by
  unfold State.bound at h
  split at h
  · cases h
    exact ⟨.of_quads fun _ => rfl, fun _ => rfl⟩
  · next hs =>
    have hs' : m.shadow.isSome = false := Bool.eq_false_iff.2 hs
    refine ⟨?_, fun he => absurd he hs⟩
    rw [hs']
    split at h
    · split at h
      · cases h
        exact .of_quads fun _ => rfl
      · cases h
    · cases h
    · unfold State.bindShadow at h
      dsimp only at h
      split at h
      · cases h
        exact .of_quads fun _ => rfl
      · split at h
        · cases h
        · split at h
          · cases h
            exact .modShadow _ _ _ fun hb => absurd hb (by decide)
          · cases h

theorem State.endProduct_tilesAs (id : Nat) (o : Op) (m : MatOp) (err : Option (Nat × DWord)) : (s.endProduct id o m err).TilesAs s m.shadow.isSome := by
  unfold State.endProduct
  split
  · exact .of_quads fun _ => rfl
  · next m' s' hb =>
    have hset : ∀ (u : State) x, ((u.unqueue [id]).setOp id x).TilesAs u m.shadow.isSome := fun u x => .of_quads (u.unqueue_memoryAs [id]).quad
    refine TilesAs.trans ?_ (State.bound_tilesAs hb).1
    refine TilesAs.trans (.ite ((State.dequeue_tilesAs ..).trans (hset ..)) (hset ..)) ?_
    split
    · exact State.setPoison_tilesAs ..
    · exact .ite (State.setPoison_tilesAs ..) (.of_quads fun _ => rfl)

theorem State.visit_shadow {sh : MatShape} {g : Nat} {r : Op × MatOp × Option (Nat × DWord)} (h : s.visit id o m sh g = some r) : r.2.1.shadow = m.shadow := by
  unfold State.visit at h
  dsimp only at h
  split at h
  · cases h
  · cases h; rfl
  · split at h
    · cases h; rfl
    · split at h
      · cases h; rfl
      · split at h <;> cases h <;> rfl
end

theorem State.modExtent_quads (s : State) (k : Nat × Nat) (i : Nat) (f : Extent → Extent) : (s.modExtent k i f).quads = s.quads := by
  unfold State.modExtent
  split <;> rfl

theorem State.joinQueue_quads (s : State) (id : Nat) (k : Nat × Nat) (i : Nat) : (s.joinQueue id k i).quads = s.quads := by
  unfold State.joinQueue
  split
  · rfl
  · next b hb =>
    dsimp only
    split
    · unfold State.takePlace
      dsimp only
      split
      · rw [Option.getD_some, State.modExtent_quads]
        rfl
      · rfl
    · rfl

theorem State.engineWait_quads (s : State) (t : ThreadId) (id : Nat) (held : Bool) (p : DWord) (n : Nat) (wr : Bool) : (s.engineWait t id held p n wr).quads = s.quads := by
  have hstart : ∀ u : State, (u.startWalks id p n).quads = u.quads := fun u =>
    State.foldl_keeps (·.quads) (fun s (w : DieId × Nat) => s.modDie w.1 fun x => x.walkFor w.2 id) (fun _ _ => rfl) _ u
  have hgive : ∀ l, ((s.giveUpBut id l).startWalks id p n).quads = s.quads := fun l => (hstart _).trans (s.giveUpBut_memoryAs id l).quads
  unfold State.engineWait
  dsimp only
  generalize hw : (s.giveUpBut id _).startWalks id p n = w
  have hquads : w.quads = s.quads := hw ▸ hgive _
  split
  · exact hquads
  · exact (State.foldl_keeps (·.quads) (fun s (k : (Nat × Nat) × Nat) => s.joinQueue id k.1 k.2) (fun u k => u.joinQueue_quads ..) _ w).trans hquads

theorem State.matWait_quad (s : State) (id : Nat) (m : MatOp) (t : ThreadId) (p : DWord) (n : Nat) (wr : Bool) (q : QuadId) :
    (s.matWait id m t p n wr).quad q = s.quad q := congrArg (fun x => Tab.getD x q ({} : Quad)) (State.engineWait_quads ..)

theorem State.seek_tilesAs (id : Nat) (sh : MatShape) : ∀ (n : Nat) (s : State) (o : Op) (m : MatOp), (s.seek id o m sh n).TilesAs s m.shadow.isSome
  | 0, s, o, m => .of_quads fun _ => rfl
  | n + 1, s, o, m => by
    rw [State.seek]
    refine .ite (.of_quads fun _ => rfl) (.ite (.of_quads (s.giveUp_memoryAs id).quad) ?_)
    split
    · next g hg =>
      split
      · exact .of_quads fun q => State.matWait_quad ..
      · next o' m' e hv =>
        have hs := State.visit_shadow hv
        dsimp only at hs
        exact hs ▸ State.endProduct_tilesAs ..
      · next o' m' hv =>
        have hs := State.visit_shadow hv
        dsimp only at hs ⊢
        have hcount : ∀ q, ((if m'.code = .mmaq then s.giveUp id else (s.giveUp id).engineCount o'.thread (ptrAdd sh.counts (4 * g)) 4)).quad q = s.quad q := fun q => by
          split
          · exact (s.giveUp_memoryAs id).quad q
          · exact ((State.engineCount_memoryAs ..).trans (s.giveUp_memoryAs id)).quad q
        generalize (if m'.code = .mmaq then s.giveUp id else (s.giveUp id).engineCount o'.thread (ptrAdd sh.counts (4 * g)) 4) = u at hcount ⊢
        have hmin : (if m'.active = true then { m' with pass := min m'.pass 1 } else m').shadow = m.shadow := by split <;> exact hs
        generalize (if m'.active = true then ({ m' with pass := min m'.pass 1 } : MatOp) else m') = n' at hmin ⊢
        rw [← hmin]
        refine TilesAs.trans ?_ (.of_quads hcount)
        split
        · next n'' v he =>
          split at he
          · obtain ⟨hb, hk⟩ := State.bound_tilesAs he
            exact TilesAs.trans ((State.seek_tilesAs id sh n v o' n'').mono fun hn => by rw [hk hn]; exact hn) hb
          · cases he
            exact State.seek_tilesAs id sh n ..
        · exact .of_quads fun _ => rfl
    · exact .ite (State.endProduct_tilesAs ..) (.ite (State.seek_tilesAs id sh n ..) (.of_quads fun _ => rfl))

/-! ## A step of the array (R135, R146) -/

/-- Counting the rows of an operand changes what its operation has heard, and what engines' accesses change. -/
theorem State.countRows_leaves (s : State) (o : Op) (x : Operand) (rows : List Nat) :
    ((s.countRows o x rows).2).MemoryAs s ∧ (s.countRows o x rows).2.mem = s.mem ∧ (s.countRows o x rows).2.contexts = s.contexts := by
  unfold State.countRows
  generalize o = p
  induction rows generalizing s p with
  | nil => exact ⟨.refl s, rfl, rfl⟩
  | cons i rows ih =>
    rw [List.foldl_cons]
    obtain ⟨h1, h2, h3⟩ := ih ((s.engineCount p.thread (ptrAdd x.base (i * x.stride + (rowSpan x.fmt x.k x.n).1)) (rowSpan x.fmt x.k x.n).2))
      { p with know := s.engineHeard p.thread (ptrAdd x.base (i * x.stride + (rowSpan x.fmt x.k x.n).1)) (rowSpan x.fmt x.k x.n).2 p.know }
    exact ⟨h1.trans (State.engineCount_memoryAs ..), h2.trans (State.engineCount_mem ..), h3.trans (State.engineCount_contexts ..)⟩

/-- A word of a tile after a block (R135). -/
theorem applyRows_getD (m : MatOp) (old : List Word) (base cols : Nat) (as bs : List (List Val × Option Int)) {r c : Nat} (hr : r < 128) (hc : c < 128) :
    (applyRows m old base cols as bs).getD (r * 128 + c) 0 =
      if base ≤ r ∧ r < base + as.length ∧ c < cols then
        accumulate m.nbv (accInt m.fmt.toNat) (if m.block = 0 ∧ m.acc = false then 0 else old.getD (r * 128 + c) 0) (as.getD (r - base) ([], none)).1
          (bs.getD c ([], none)).1 ((as.getD (r - base) ([], none)).2.bind fun a => (bs.getD c ([], none)).2.map fun b => a + b)
      else old.getD (r * 128 + c) 0 := by
  have hw : r * 128 + c < 16384 := by omega
  have hd : (r * 128 + c) / 128 = r := by omega
  have hm : (r * 128 + c) % 128 = c := by omega
  rw [applyRows, List.getD_eq_getElem _ _ (by simpa using hw), List.getElem_map, List.getElem_range]
  simp only [hd, hm, Bool.and_eq_true, decide_eq_true_eq, and_assoc]
  split
  · cases (as.getD (r - base) ([], none)).2 <;> cases (bs.getD c ([], none)).2 <;> simp
  · rfl

theorem MatOp.onward_of_more {m : MatOp} (h : m.row < m.bend) (n : Nat) : m.onward n = m := if_pos h

theorem State.target_setTarget {s : State} {m : MatOp} (d : List Word)
    (h : (m.shadow = none ∧ m.tile < (s.quad m.quad).acc.length) ∨ ∃ k, m.shadow = some k ∧ k < (s.quad m.quad).shadows.length) :
    (s.setTarget m d).target m = d := by
  rcases h with ⟨hs, ht⟩ | ⟨k, hs, hk⟩
  · simp only [State.setTarget, State.target, hs, State.modQuad, State.quad_setQuad]
    exact getD_set_self ht
  · simp only [State.setTarget, State.target, hs, State.modShadow, State.modQuad, State.quad_setQuad, getD_set_self hk]

theorem MatOp.onward_shadow (m : MatOp) (n : Nat) : (m.onward n).shadow = m.shadow := by
  unfold MatOp.onward
  split
  · rfl
  · split <;> rfl

theorem State.giveUp_now (s : State) (id : Nat) : (s.giveUp id).now = s.now := by
  obtain ⟨_, _, _, _, _, _, _, _, h⟩ := s.giveUp_memoryAs id
  rw [h]

theorem State.setTarget_leaves (s : State) (m : MatOp) (d : List Word) : (s.setTarget m d).mem = s.mem ∧ (s.setTarget m d).now = s.now
    ∧ (s.setTarget m d).contexts = s.contexts := by
  unfold State.setTarget
  split <;> exact ⟨rfl, rfl, rfl⟩

theorem State.target_congr {s : State} {m n : MatOp} (h : n.quad = m.quad ∧ n.tile = m.tile ∧ n.shadow = m.shadow) : s.target n = s.target m := by
  obtain ⟨hq, ht, hs⟩ := h
  unfold State.target
  rw [hq, ht, hs]

theorem State.target_lastStep (s : State) (m : MatOp) (t : Nat) : (s.modQuad m.quad fun x => { x with lastStep := t }).target m = s.target m := by
  unfold State.target
  rw [State.modQuad, State.quad_setQuad]

/-- Once a block is in its target and the time of the step is noted, the product's next work leaves both. -/
theorem State.step_lands {s r : State} {m n p : MatOp} {d : List Word} {cycles : Nat} (hr : r.TilesAs s m.shadow.isSome) (hmem : r.mem = s.mem) (hnow : r.now = s.now)
    (hctx : r.contexts = s.contexts) (hn : n.quad = m.quad ∧ n.tile = m.tile ∧ n.shadow = m.shadow) (hp : p.shadow = m.shadow)
    (ht : (m.shadow = none ∧ m.tile < (s.quad m.quad).acc.length) ∨ ∃ k, m.shadow = some k ∧ k < (s.quad m.quad).shadows.length) (id : Nat) (o : Op) (sh : MatShape) (k : Nat) :
    let v := (r.giveUp id).setTarget n d
    let w := v.modQuad m.quad fun x => { x with lastStep := v.now + 6 * cycles * (if (v.chip m.quad.chip).slow then 2 else 1) }
    (w.seek id o p sh k).mem = s.mem
    ∧ ((w.seek id o p sh k).quad m.quad).lastStep = s.now + 6 * cycles * (if (s.chip m.quad.chip).slow then 2 else 1)
    ∧ (w.seek id o p sh k).target m = d := by
  intro v w
  have hg : (r.giveUp id).TilesAs r m.shadow.isSome := .of_quads (r.giveUp_memoryAs id).quad
  have hall := hg.trans hr
  obtain ⟨hvmem, hvnow, hvctx⟩ := (r.giveUp id).setTarget_leaves n d
  have hslow : (v.chip m.quad.chip).slow = (s.chip m.quad.chip).slow :=
    State.slow_of_contexts (hvctx.trans ((State.giveUp_contexts ..).trans hctx)) _
  have hseek := State.seek_tilesAs id sh k w o p
  have hlast : (w.quad m.quad).lastStep = v.now + 6 * cycles * (if (v.chip m.quad.chip).slow then 2 else 1) := by
    rw [show w = v.setQuad m.quad _ from rfl, State.quad_setQuad]
  have hplace : (n.shadow = none ∧ n.tile < ((r.giveUp id).quad n.quad).acc.length) ∨ ∃ k, n.shadow = some k ∧ k < ((r.giveUp id).quad n.quad).shadows.length := by
    obtain ⟨hnq, hnt, hns⟩ := hn
    rw [hnq, hnt, hns, hall.acc]
    refine ht.imp (fun h => h) fun ⟨k, hk, hlen⟩ => ⟨k, hk, ?_⟩
    have := congrArg List.length (hall.data (by rw [hk]; rfl) m.quad)
    rw [List.length_map, List.length_map] at this
    rwa [this]
  refine ⟨?_, ?_, ?_⟩
  · rw [State.seek_mem]
    exact hvmem.trans ((State.giveUp_mem ..).trans hmem)
  · rw [hseek.lastStep, hlast, hslow, hvnow, State.giveUp_now, hnow]
  · rw [TilesAs.target (hp ▸ hseek), State.target_lastStep, ← State.target_congr hn]
    exact State.target_setTarget d hplace

/-- A step whose rows can be read applies its block to the target, and goes on with the next. -/
theorem State.arrayStep_applies {s : State} {q : QuadId} {j id : Nat} {o : Op} {m : MatOp} {as bs : List (List Byte × Byte)} (hh : s.headOf q j = some (id, o, m))
    (hq : m.quad = q) (ha : m.active = true) (hrow : m.row < m.bend)
    (ht : (m.shadow = none ∧ m.tile < (s.quad q).acc.length) ∨ ∃ k, m.shadow = some k ∧ k < (s.quad q).shadows.length)
    (hb : loadRows (s.rowOf id o m (m.operandB m.shape (if m.nbv = 2 then 32 else 16))) (m.shape.n - m.loadB.length) m.loadB = (bs, none))
    (has : loadRows (fun i => s.rowOf id o m (m.operandA m.shape (if m.nbv = 2 then 32 else 16)) (m.row + i)) (m.bend - m.row - m.loadA.length) m.loadA = (as, none)) :
    (s.arrayStep q j).mem = s.mem
    ∧ ((s.arrayStep q j).quad q).lastStep = s.now + 6 * ((rateOf m.fmt.toNat).getD 0 * (if m.nbv = 2 then 32 else 16) / 32) * (if (s.chip q.chip).slow then 2 else 1)
    ∧ (s.arrayStep q j).target m = applyRows m (s.target m) ((m.shape.groups.getD m.group default).rowbase + m.row) m.shape.n
        (as.map (m.operandA m.shape (if m.nbv = 2 then 32 else 16)).vals) (bs.map (m.operandB m.shape (if m.nbv = 2 then 32 else 16)).vals) := by
  generalize hl : (if m.nbv = 2 then 32 else 16) = l at *
  subst hq
  unfold State.arrayStep
  rw [hh]
  dsimp only
  rw [MatOp.onward_of_more hrow, hl, if_neg (by rw [ha]; decide), hb]
  dsimp only
  rw [Option.isSome_none, if_neg Bool.false_ne_true, has]
  dsimp only
  generalize (List.range bs.length).drop m.loadB.length = rb
  generalize ((List.range as.length).drop m.loadA.length).map (m.row + ·) = ra
  obtain ⟨h1, m1, c1⟩ := s.countRows_leaves o (m.operandB m.shape l) rb
  generalize s.countRows o (m.operandB m.shape l) rb = ob at *
  obtain ⟨h2, m2, c2⟩ := ob.2.countRows_leaves ob.1 (m.operandA m.shape l) ra
  generalize ob.2.countRows ob.1 (m.operandA m.shape l) ra = oa at *
  have hr : (oa.2.modQuad m.quad fun x => { x with loading := none }).TilesAs s m.shadow.isSome :=
    (TilesAs.modQuad oa.2 m.quad rfl rfl fun _ => rfl).trans (.of_quads (h2.trans h1).quad)
  have hnow : (oa.2.modQuad m.quad fun x => { x with loading := none }).now = s.now := by
    obtain ⟨_, _, _, _, _, _, _, _, e⟩ := h2.trans h1
    rw [State.modQuad, e]
    rfl
  rw [← hr.target]
  exact State.step_lands (n := { m with loadB := bs, loadA := as }) hr (m2.trans m1) hnow (c2.trans c1) ⟨rfl, rfl, rfl⟩ (by exact MatOp.onward_shadow ..) ht ..

/-- u is s but for what engines' accesses change, and what a quadrant loads and has let pass. -/
structure State.TurnsAs (u s : State) (q : QuadId) : Prop where
  ops : u.ops = s.ops
  cohort : ∀ c, u.cohort c = s.cohort c
  mem : u.mem = s.mem
  now : u.now = s.now
  contexts : u.contexts = s.contexts
  quad : ∃ loading passed, u.quad q = { s.quad q with loading := loading, passed := passed }

namespace State.TurnsAs
variable {s u w : State} {q : QuadId}

theorem trans (g : w.TurnsAs u q) (h : u.TurnsAs s q) : w.TurnsAs s q := by
  obtain ⟨_, _, hg⟩ := g.quad
  obtain ⟨_, _, hh⟩ := h.quad
  exact ⟨g.ops.trans h.ops, fun c => (g.cohort c).trans (h.cohort c), g.mem.trans h.mem, g.now.trans h.now, g.contexts.trans h.contexts, _, _, hg.trans (by rw [hh])⟩

theorem modQuad (s : State) (q : QuadId) {f : Quad → Quad} (h : ∃ loading passed, f (s.quad q) = { s.quad q with loading := loading, passed := passed }) :
    (s.modQuad q f).TurnsAs s q := by
  obtain ⟨l, p, hf⟩ := h
  exact ⟨rfl, fun _ => rfl, rfl, rfl, rfl, l, p, (State.quad_setQuad ..).trans hf⟩

theorem standAside (s : State) (q : QuadId) (j : Nat) : (s.standAside q j).TurnsAs s q := by
  have hself : s.TurnsAs s q := ⟨rfl, fun _ => rfl, rfl, rfl, rfl, _, _, rfl⟩
  unfold State.standAside
  split
  · next id o m _ =>
    split
    · exact hself
    · have h := s.giveUp_memoryAs id
      exact ⟨h.ops, h.cohort, State.giveUp_mem .., State.giveUp_now .., State.giveUp_contexts .., _, _, h.quad q⟩
  · exact hself

variable (h : u.TurnsAs s q)
include h

theorem headOf (j : Nat) : u.headOf q j = s.headOf q j := by
  obtain ⟨_, _, hq⟩ := h.quad
  simp only [State.headOf, hq, State.op?, h.ops]

theorem matOutcome (o : Op) (m : MatOp) : u.matOutcome o m = s.matOutcome o m := by
  unfold State.matOutcome State.slotOutcome
  simp only [h.cohort]
end State.TurnsAs

section
variable {s : State} {q : QuadId} {j id : Nat} {o : Op} {m : MatOp} (hh : s.headOf q j = some (id, o, m)) (hc : m.code ≠ .mdrain) (he : m.ended = false)
  (ha : m.active = true) (ho : s.matOutcome o m ≠ some false)
include hh hc he ha ho

theorem State.runnable_of_active : s.runnable q j = true := by
  rw [State.runnable, hh]
  simp [hc, he, ha, ho]

theorem State.prepare_of_active (hb : m.begun = true) : s.prepare q j = s := by
  have hskip : (decide (m.code = .mdrain) || m.ended || decide (s.matOutcome o m = some false)) = false := by simp [hc, he, ho]
  rw [State.prepare, hh]
  dsimp only
  rw [hskip, if_neg Bool.false_ne_true, if_pos hb, if_pos ha]

/-- A queue whose head has a block to apply takes the step. -/
theorem State.matrixTurn_of_active (hb : m.begun = true) (passed : Nat) : s.matrixTurn q j passed =
    ((((s.standAside q (1 - j)).modQuad q fun x => { x with loading := none }).modQuad q fun x => { x with passed := passed }).arrayStep q j) := by
  have haside : ((s.standAside q (1 - j)).modQuad q fun x => { x with loading := none }).TurnsAs s q :=
    (State.TurnsAs.modQuad _ q ⟨_, _, rfl⟩).trans (State.TurnsAs.standAside ..)
  generalize hw : ((s.standAside q (1 - j)).modQuad q fun x => { x with loading := none }) = w at *
  have hhw := (haside.headOf j).trans hh
  have how : w.matOutcome o m ≠ some false := by rw [haside.matOutcome]; exact ho
  rw [State.matrixTurn, hh]
  dsimp only
  rw [hw, State.prepare_of_active hhw hc he ha how hb, hhw]
  dsimp only
  rw [State.runnable_of_active hhw hc he ha how, if_neg (by simp), if_pos ha]

/-- Of two runnable queues queue 0 has the step, and queue 1 after 64 passes (R146). -/
theorem matrixStep_turns (hlast : (s.quad q).lastStep ≤ s.now) (hload : (s.quad q).loading = none)
    (hj : (j = 0 ∧ ¬ (s.runnable q 1 = true ∧ 64 ≤ (s.quad q).passed)) ∨ (j = 1 ∧ (s.runnable q 0 = false ∨ 64 ≤ (s.quad q).passed))) :
    exec (.matrixStep q) s = .next (s.matrixTurn q j (if j = 0 ∧ s.runnable q 1 = true then (s.quad q).passed + 1 else 0)) := by
  have hrun := State.runnable_of_active hh hc he ha ho
  have hexec : exec (.matrixStep q) s = execMatrixStep q s := rfl
  rw [hexec, execMatrixStep, if_neg (Nat.not_lt.2 hlast)]
  have hnone : s.loadingQueue q = none := by rw [State.loadingQueue, hload]; rfl
  dsimp only
  rw [hnone]
  dsimp only
  rcases hj with ⟨rfl, hpass⟩ | ⟨rfl, hpass⟩
  · rw [hrun, if_neg (by simpa using hpass), if_pos rfl]
    simp
  · rw [hrun, if_pos (by simpa using hpass), if_neg (by omega)]
end

theorem State.standAside_quad (s : State) (q : QuadId) (j : Nat) (x : QuadId) : (s.standAside q j).quad x = s.quad x := by
  unfold State.standAside
  split
  · next id o m _ =>
    split
    · rfl
    · exact (s.giveUp_memoryAs id).quad x
  · rfl

/-- Both ways of counting a pass give the same state. -/
theorem State.passes_eq {s w : State} {q : QuadId} {c : Prop} [Decidable c] (h : (w.quad q).passed = (s.quad q).passed) :
    (w.modQuad q fun x => { x with passed := if c then x.passed + 1 else 0 }) = w.modQuad q fun x => { x with passed := if c then (s.quad q).passed + 1 else 0 } := by
  rw [State.modQuad, State.modQuad, h]

/-- A step whose operands can all be read applies one block to the rows of its batch (R135, R146, R148). -/
theorem aRunnableStepAppliesItsBlock (s : State) (q : QuadId) (j id : Nat) (o : Op) (m : MatOp) (as bs : List (List Byte × Byte)) (hlast : (s.quad q).lastStep ≤ s.now)
    (hload : (s.quad q).loading = none) (hh : s.headOf q j = some (id, o, m))
    (hj : (j = 0 ∧ ¬ (s.runnable q 1 = true ∧ 64 ≤ (s.quad q).passed)) ∨ (j = 1 ∧ (s.runnable q 0 = false ∨ 64 ≤ (s.quad q).passed)))
    (hq : m.quad = q) (hc : m.code ≠ .mdrain) (hb : m.begun = true) (ha : m.active = true) (he : m.ended = false) (ho : s.matOutcome o m ≠ some false)
    (hrow : m.row < m.bend)
    (ht : (m.shadow = none ∧ m.tile < (s.quad q).acc.length) ∨ ∃ k, m.shadow = some k ∧ k < (s.quad q).shadows.length) :
    let l := if m.nbv = 2 then 32 else 16
    let g := m.shape.groups.getD m.group default
    let s' := ((s.standAside q (1 - j)).modQuad q fun x => { x with loading := none }).modQuad q fun x =>
      { x with passed := if j = 0 ∧ s.runnable q 1 = true then x.passed + 1 else 0 }
    let opB := m.operandB m.shape l
    let opA := m.operandA m.shape l
    loadRows (s'.rowOf id o m opB) (m.shape.n - m.loadB.length) m.loadB = (bs, none) →
    loadRows (fun i => s'.rowOf id o m opA (m.row + i)) (m.bend - m.row - m.loadA.length) m.loadA = (as, none) →
    ∃ u, exec (.matrixStep q) s = .next u ∧ u.mem = s.mem
      ∧ (u.quad q).lastStep = s.now + 6 * ((rateOf m.fmt.toNat).getD 0 * l / 32) * (if (s.chip q.chip).slow then 2 else 1)
      ∧ u.target m = applyRows m (s.target m) (g.rowbase + m.row) m.shape.n (as.map opA.vals) (bs.map opB.vals) := by
  intro l g s' opB opA hbs has
  have haside : ((s.standAside q (1 - j)).modQuad q fun x => { x with loading := none }).TurnsAs s q :=
    (State.TurnsAs.modQuad _ q ⟨_, _, rfl⟩).trans (State.TurnsAs.standAside ..)
  have hpassed : (((s.standAside q (1 - j)).modQuad q fun x => { x with loading := none }).quad q).passed = (s.quad q).passed := by
    rw [State.modQuad, State.quad_setQuad, State.standAside_quad]
  have hs' : s'.TurnsAs s q := (State.TurnsAs.modQuad _ q ⟨_, _, rfl⟩).trans haside
  obtain ⟨_, _, hquad⟩ := hs'.quad
  have hexec := matrixStep_turns hh hc he ha ho hlast hload hj
  rw [State.matrixTurn_of_active hh hc he ha ho hb, ← State.passes_eq hpassed] at hexec
  obtain ⟨hmem, hstep, htarget⟩ := State.arrayStep_applies ((hs'.headOf j).trans hh) hq ha hrow (by rw [hquad]; exact ht) hbs has
  refine ⟨_, hexec, hmem.trans hs'.mem, ?_, ?_⟩
  · rw [hstep, hs'.now, State.slow_of_contexts hs'.contexts]
  · rw [htarget]
    congr 1
    unfold State.target
    rw [hq, hquad]

theorem getD_map_of_get? {α β : Type} {l : List α} {f : α → β} {i : Nat} {x d : β} (h : (l.map f)[i]? = some x) : (l.map f).getD i d = x := by
  rw [List.getD, h]
  rfl

theorem aStepAppliesOneBlockToItsRows : AStepAppliesOneBlockToItsRows := by
  refine ⟨fun s q h => ?_, fun s q j id o m as bs hlast hload hh hj hq hc hb ha he ho hrow _ _ ht => ?_, fun nbv old x y c _ => accumulate_int nbv old x y c,
    fun nbv old x y c top ns => ?_, fun nbv old x y c b => ?_⟩
  · exact congrArg Host.Outcome.next (if_pos h)
  · intro l g s' opB opA hbs has
    obtain ⟨u, hu, hmem, hstep, htarget⟩ := aRunnableStepAppliesItsBlock s q j id o m as bs hlast hload hh hj hq hc hb ha he ho hrow ht hbs has
    refine ⟨u, hu, hmem, hstep, fun r hr c hc => ?_⟩
    dsimp only
    rw [htarget, applyRows_getD _ _ _ _ _ _ hr hc, List.length_map]
    refine ⟨fun hout => if_neg fun ⟨h1, h2, h3⟩ => hout.elim (Nat.not_lt.2 h1) fun h => h.elim (Nat.not_le.2 h2) (Nat.not_le.2 h3), fun h1 h2 h3 x y sx sy hx hy => ?_⟩
    rw [if_pos ⟨h1, h2, h3⟩, getD_map_of_get? hx, getD_map_of_get? hy]
  · intro ps size low sum hfin hbelow habove hns
    have hw := windowSum_of_top (size := size) (fun _ _ _ => rfl) hfin hbelow habove
    rw [sum_truncated (size := size) (low := low) (fun _ _ _ => rfl) (fun _ _ _ => rfl) hfin hns] at hw
    rw [accumulate_float, blockSum_of_finite hfin hw]
  · intro ps
    refine ⟨fun h => ?_, fun hc hn hb ho => ?_, fun hc hz => ?_⟩
    · rw [accumulate_float, blockSum_of_nan h, faddBits_nan]
      rfl
    · rw [accumulate_float, blockSum_of_inf hc hn hb ho]
    · obtain ⟨c, rfl⟩ := Option.ne_none_iff_exists'.1 hc
      have hnil : ps.filterMap nonzero = [] := List.filterMap_eq_nil_iff.2 fun p hp => by
        obtain ⟨n, e, rfl⟩ := hz p hp
        rfl
      rw [accumulate_float, blockSum_of_finite (fun p hp => (hz p hp).elim fun n he => he.elim fun e he => ⟨n, 0, e, he⟩) (windowSum_of_nil hnil), if_pos rfl]

/-- Settles O29. -/
theorem stepsApplyBlocksAndGroupsAreReadAgain : Obligations.StepsApplyBlocksAndGroupsAreReadAgain :=
  ⟨aStepAppliesOneBlockToItsRows, aGroupSetAsideIsReadAgain⟩

end Sys2Proof.Machine
end
